-- ==== Sys2Proof/Word.lean ====
section
/-!
DEFINITION. Word types, register names and the small enumerations that instruction words carry
(spec/08_isa_formats.md R204, R205, R213; spec/06_consistency_model.md R146).
-/
namespace Sys2Proof

/-- A 64-bit doubleword: the contents of a g, h or k register, a program counter, an address. -/
abbrev Word := BitVec 64
/-- The contents of a w register (R204, R206). -/
abbrev Wide := BitVec 256
/-- The contents of an e register, an exact accumulator (R204, R283). -/
abbrev X320 := BitVec 320
abbrev Byte := BitVec 8

/-- The guard of an instruction word: p(GP) xor GN (R203). -/
structure Guard where
  neg : Bool
  p : Fin 8
deriving DecidableEq, Repr

/-- The bank of a G operand (R205). -/
inductive Bank where
  | g
  | h
deriving DecidableEq, Repr

/-- A G operand: bank and register number (R205). -/
structure GReg where
  bank : Bank
  num : Fin 32
deriving DecidableEq, Repr

/-- A direction of the Alley (R205, R209). -/
inductive QDir where
  | qn
  | qe
  | qs
  | qw
deriving DecidableEq, Repr

/-- Integer type, the T sub-field (R213). -/
inductive IntTy where
  | i32
  | n32
  | i64
  | n64
deriving DecidableEq, Repr

/-- Float type, the FT and ET sub-fields (R213). -/
inductive FTy where
  | f32
  | f64
  | f16
  | bf16
deriving DecidableEq, Repr

/-- Rounding, the RM sub-field (R213). -/
inductive Rm where
  | rn
  | rz
  | ru
  | rd
  | rs
deriving DecidableEq, Repr

/-- Rounding of the scalar conversion, the RM2 sub-field (R213). -/
inductive Rm2 where
  | rn
  | rz
  | ru
  | rd
deriving DecidableEq, Repr

/-- Condition of a floating comparison, the CC sub-field (R213). -/
inductive CC where
  | eq
  | ne
  | lt
  | le
  | gt
  | ge
  | un
  | ord
deriving DecidableEq, Repr

/-- Condition of an integer comparison: CC without un and ord, which are reserved for cmp (R213). -/
inductive ICC where
  | eq
  | ne
  | lt
  | le
  | gt
  | ge
deriving DecidableEq, Repr

/-- Access size of loads and stores in bytes (R213). -/
inductive Size where
  | b1
  | b2
  | b4
  | b8
deriving DecidableEq, Repr

/-- Scope (R146), in nesting order. -/
inductive Scope where
  | cell
  | die
  | pkg
  | node
  | fab
deriving DecidableEq, Repr

/-- Order of an atomic, with the scope that an ordered form carries (R213, R214). -/
inductive AOrd where
  | relaxed
  | acq (sc : Scope)
  | rel (sc : Scope)
  | ar (sc : Scope)
deriving DecidableEq, Repr

/-- Type code of the conversions, the DT and ST sub-fields (R213). -/
inductive TyCode where
  | f64
  | f32
  | f16
  | bf16
  | e4m3
  | e5m2
  | e2m1
  | i4
  | i8
  | i16
  | i32
  | i64
  | n8
  | n16
  | n32
  | n64
deriving DecidableEq, Repr

/-- Matrix operand format, the FMT sub-field (R213). -/
inductive Fmt where
  | fp16
  | bf16
  | e4m3
  | e5m2
  | e2m1
  | i8
  | i4
deriving DecidableEq, Repr

/-- Element size of vperm (R215, row 0x37). -/
inductive PermSz where
  | b4
  | b8
  | b2
deriving DecidableEq, Repr

/-- Source of xadd (R215, row 0x3D). -/
inductive XSrc where
  | f32 (a : GReg)
  | f64 (a : GReg)
  | f32x8 (a : Fin 16)
  | f64x4 (a : Fin 16)
deriving DecidableEq, Repr

/-- A read-modify-write operation of the atomics (R331, R333 to R336). -/
inductive AmoOp where
  | add
  | and
  | or
  | xor
  | minI
  | minN
  | maxI
  | maxN
  | swap
  | pmin
  | cas
  | cas2
  | fF32
  | fF64
  | xF32
  | xF64
deriving DecidableEq, Repr

/-- The three networks whose hops retry damaged flits (R472). -/
inductive HopKind where
  | ring
  | mesh
  | crossing
deriving DecidableEq, Repr

/-- Bytes of an access of this size. -/
def Size.bytes : Size → Nat
  | .b1 => 1
  | .b2 => 2
  | .b4 => 4
  | .b8 => 8

/-- Width of an integer type in bits. -/
def IntTy.width : IntTy → Nat
  | .i32 => 32
  | .n32 => 32
  | .i64 => 64
  | .n64 => 64

/-- Whether an integer type is signed. -/
def IntTy.signed : IntTy → Bool
  | .i32 => true
  | .n32 => false
  | .i64 => true
  | .n64 => false

/-- The number of a scope, its code of R146; a wider scope has a larger number. -/
def Scope.rank : Scope → Nat
  | .cell => 0
  | .die => 1
  | .pkg => 2
  | .node => 3
  | .fab => 4

end Sys2Proof
end

