-- ==== Sys2Proof/Config.lean ====
section
/-!
DEFINITION. What one part fixes and the manual does not: constants without a body, so that no proof knows a value of
them (the log entries that name them are notes/assumptions/2.md, 3.md and 4.md).
-/
namespace Sys2Proof

/-- The special functions of major 0x32 (R272), in the order of S2[3:0]. -/
inductive SpecFn where
  | rcp
  | rsq
  | sqrt
  | exp2
  | log2
  | sin
  | cos
deriving DecidableEq, Repr

/-- A firmware image as it stands in its store (R404): the bytes, and the public key X, then Y, that signs it. -/
structure FwImage where
  bytes : List (BitVec 8)
  key : BitVec 1056
deriving DecidableEq, Repr, Inhabited

namespace Config

/-- The value a part returns for a special function of an FP32 or FP64 operand, where R272 bounds the error and does not
fix the value. It is used only where it meets the bound.
(DESIGN CHOICE: notes/assumptions/2.md) -/
opaque specialValue : SpecFn → FTy → BitVec 64 → BitVec 64

/-- The package serial number (R405). -/
opaque serial : BitVec 64
/-- FWVER, the version of the device firmware (R392).
(DESIGN CHOICE: notes/assumptions/4.md) -/
opaque fwver : BitVec 32
/-- SHA-512, the hash that R403 to R405 name by its standard.
(DESIGN CHOICE: notes/assumptions/3.md) -/
opaque sha512 : List (BitVec 8) → BitVec 512
/-- Whether r, then s, is an ECDSA P-521 signature of a digest under a public key X, then Y (R404), as that standard says.
(DESIGN CHOICE: notes/assumptions/3.md) -/
opaque ecdsaOk : BitVec 1056 → BitVec 512 → BitVec 1056 → Bool
/-- The images of the boot firmware and of the device firmware (R403, R404), and the fused values that judge them: the hash of
the public key that signs, and the lowest version.
(DESIGN CHOICE: notes/assumptions/3.md) -/
opaque bootImage : FwImage
opaque devImage : FwImage
opaque keyHash : BitVec 512
opaque minVersion : BitVec 64
/-- The package's fused configuration, of which M2 is made (R403). -/
opaque fusedConfig : List (BitVec 8)
/-- The public identity key, X and Y, 66 bytes each (R405). -/
opaque idKeyX : BitVec 528
opaque idKeyY : BitVec 528
/-- The signature r, then s, 66 bytes each, over bytes 0 to 279 of a report (R405). -/
opaque signature : BitVec 2240 → BitVec 1056
/-- Whether a request between a requester and a storage location, or its reply, needs the mesh hop `hop` of a die in a
direction: the manual gives the order of the Crossings of a route (R18), and not the mesh hops within a die
(DESIGN CHOICE: notes/assumptions/66.md). -/
opaque meshNeeds (die hop dir requester location : Nat) : Bool
/-- Resets since manufacture, before the reset that State.reset stands for (R405). -/
opaque resetsBefore : BitVec 64

end Config
end Sys2Proof
end

