-- ==== Sys2Proof/Syntax.lean ====
section
/-!
DEFINITION. The instruction type: one constructor for every row of spec/opcode_table.json, in the table's order but that
the steps that only something outside the package makes stand last.
The first 195 constructors are the encoded forms; each begins with its guard `gd` (spec/08_isa_formats.md R202, R203) and
holds its operand fields by the names and kinds of R205 and R211 to R216. The last 69 are the steps of the device that no
word encodes (spec/95_what_each_step_holds.md); their arguments say which unit of the package acts.
-/
namespace Sys2Proof

inductive Instr where
  /-- R230 -/
  | add (gd : Guard) (d : GReg) (a : GReg) (b : GReg) (t : IntTy)
  /-- R230 -/
  | sub (gd : Guard) (d : GReg) (a : GReg) (b : GReg) (t : IntTy)
  /-- R230 -/
  | mul (gd : Guard) (d : GReg) (a : GReg) (b : GReg) (t : IntTy)
  /-- R230 -/
  | mulh (gd : Guard) (d : GReg) (a : GReg) (b : GReg) (t : IntTy)
  /-- R230 -/
  | mad (gd : Guard) (d : GReg) (a : GReg) (b : GReg) (t : IntTy)
  /-- R231 -/
  | div (gd : Guard) (d : GReg) (a : GReg) (b : GReg) (t : IntTy)
  /-- R231 -/
  | rem (gd : Guard) (d : GReg) (a : GReg) (b : GReg) (t : IntTy)
  /-- R230 -/
  | and (gd : Guard) (d : GReg) (a : GReg) (b : GReg) (t : IntTy)
  /-- R230 -/
  | or (gd : Guard) (d : GReg) (a : GReg) (b : GReg) (t : IntTy)
  /-- R230 -/
  | xor (gd : Guard) (d : GReg) (a : GReg) (b : GReg) (t : IntTy)
  /-- R230 -/
  | andn (gd : Guard) (d : GReg) (a : GReg) (b : GReg) (t : IntTy)
  /-- R230 -/
  | shl (gd : Guard) (d : GReg) (a : GReg) (b : GReg) (t : IntTy)
  /-- R230 -/
  | shr (gd : Guard) (d : GReg) (a : GReg) (b : GReg) (t : IntTy)
  /-- R230 -/
  | sar (gd : Guard) (d : GReg) (a : GReg) (b : GReg) (t : IntTy)
  /-- R230 -/
  | rot (gd : Guard) (d : GReg) (a : GReg) (b : GReg) (t : IntTy)
  /-- R230 -/
  | min (gd : Guard) (d : GReg) (a : GReg) (b : GReg) (t : IntTy)
  /-- R230 -/
  | max (gd : Guard) (d : GReg) (a : GReg) (b : GReg) (t : IntTy)
  /-- R232 -/
  | addi (gd : Guard) (d : GReg) (a : GReg) (imm : BitVec 6) (t : IntTy)
  /-- R232 -/
  | andi (gd : Guard) (d : GReg) (a : GReg) (imm : BitVec 6) (t : IntTy)
  /-- R232 -/
  | ori (gd : Guard) (d : GReg) (a : GReg) (imm : BitVec 6) (t : IntTy)
  /-- R232 -/
  | xori (gd : Guard) (d : GReg) (a : GReg) (imm : BitVec 6) (t : IntTy)
  /-- R233 -/
  | li (gd : Guard) (d : GReg) (imm : BitVec 14)
  /-- R233 -/
  | lih (gd : Guard) (d : GReg) (imm : BitVec 14)
  /-- R234 -/
  | abs (gd : Guard) (d : GReg) (a : GReg) (t : IntTy)
  /-- R234 -/
  | neg (gd : Guard) (d : GReg) (a : GReg) (t : IntTy)
  /-- R234 -/
  | clz (gd : Guard) (d : GReg) (a : GReg) (t : IntTy)
  /-- R234 -/
  | ctz (gd : Guard) (d : GReg) (a : GReg) (t : IntTy)
  /-- R234 -/
  | popc (gd : Guard) (d : GReg) (a : GReg) (t : IntTy)
  /-- R234 -/
  | brev (gd : Guard) (d : GReg) (a : GReg) (t : IntTy)
  /-- R235 -/
  | bfx (gd : Guard) (d : GReg) (a : GReg) (b : GReg) (t : IntTy)
  /-- R235 -/
  | bfi (gd : Guard) (d : GReg) (a : GReg) (b : GReg) (t : IntTy)
  /-- R236 -/
  | sel (gd : Guard) (d : GReg) (a : GReg) (b : GReg) (q : Fin 8)
  /-- R237 -/
  | lea (gd : Guard) (d : GReg) (a : GReg) (b : GReg) (sh : Fin 4)
  /-- R238 -/
  | cmp (gd : Guard) (c : ICC) (p : Fin 8) (a : GReg) (b : GReg) (t : IntTy)
  /-- R239 -/
  | pand (gd : Guard) (p : Fin 8) (a : Fin 8) (b : Fin 8)
  /-- R239 -/
  | por (gd : Guard) (p : Fin 8) (a : Fin 8) (b : Fin 8)
  /-- R239 -/
  | pxor (gd : Guard) (p : Fin 8) (a : Fin 8) (b : Fin 8)
  /-- R239 -/
  | pnot (gd : Guard) (p : Fin 8) (a : Fin 8)
  /-- R241 -/
  | voteSome (gd : Guard) (p : Fin 8) (a : Fin 8)
  /-- R241 -/
  | voteEvery (gd : Guard) (p : Fin 8) (a : Fin 8)
  /-- R241 -/
  | voteAgree (gd : Guard) (p : Fin 8) (a : Fin 8)
  /-- R241 -/
  | ballot (gd : Guard) (d : GReg) (a : Fin 8)
  /-- R242 -/
  | shflPick (gd : Guard) (d : GReg) (a : GReg) (b : GReg)
  /-- R242 -/
  | shflLo (gd : Guard) (d : GReg) (a : GReg) (b : GReg)
  /-- R242 -/
  | shflHi (gd : Guard) (d : GReg) (a : GReg) (b : GReg)
  /-- R242 -/
  | shflMir (gd : Guard) (d : GReg) (a : GReg) (b : GReg)
  /-- R243 -/
  | bcast (gd : Guard) (d : GReg) (a : GReg) (lane : Fin 16)
  /-- R267 -/
  | fadd (gd : Guard) (r : Rm) (d : Fin 32) (a : Fin 32) (b : Fin 32) (f : FTy)
  /-- R267 -/
  | fsub (gd : Guard) (r : Rm) (d : Fin 32) (a : Fin 32) (b : Fin 32) (f : FTy)
  /-- R267 -/
  | fmul (gd : Guard) (r : Rm) (d : Fin 32) (a : Fin 32) (b : Fin 32) (f : FTy)
  /-- R267 -/
  | fma (gd : Guard) (r : Rm) (d : Fin 32) (a : Fin 32) (b : Fin 32) (f : FTy)
  /-- R267 -/
  | fmin (gd : Guard) (d : Fin 32) (a : Fin 32) (b : Fin 32) (f : FTy)
  /-- R267 -/
  | fmax (gd : Guard) (d : Fin 32) (a : Fin 32) (b : Fin 32) (f : FTy)
  /-- R270 -/
  | fdiv (gd : Guard) (r : Rm) (d : Fin 32) (a : Fin 32) (b : Fin 32) (f : FTy)
  /-- R268 -/
  | fsqrt (gd : Guard) (r : Rm) (d : Fin 32) (a : Fin 32) (f : FTy)
  /-- R268 -/
  | fabs (gd : Guard) (d : Fin 32) (a : Fin 32) (f : FTy)
  /-- R268 -/
  | fneg (gd : Guard) (d : Fin 32) (a : Fin 32) (f : FTy)
  /-- R269 -/
  | fcmp (gd : Guard) (c : CC) (p : Fin 8) (a : Fin 32) (b : Fin 32) (f : FTy)
  /-- R271 -/
  | vadd (gd : Guard) (r : Rm) (d : Fin 16) (a : Fin 16) (b : Fin 16) (e : FTy)
  /-- R271 -/
  | vsub (gd : Guard) (r : Rm) (d : Fin 16) (a : Fin 16) (b : Fin 16) (e : FTy)
  /-- R271 -/
  | vmul (gd : Guard) (r : Rm) (d : Fin 16) (a : Fin 16) (b : Fin 16) (e : FTy)
  /-- R271 -/
  | vfma (gd : Guard) (r : Rm) (d : Fin 16) (a : Fin 16) (b : Fin 16) (e : FTy)
  /-- R271 -/
  | vmin (gd : Guard) (d : Fin 16) (a : Fin 16) (b : Fin 16) (e : FTy)
  /-- R271 -/
  | vmax (gd : Guard) (d : Fin 16) (a : Fin 16) (b : Fin 16) (e : FTy)
  /-- R271 -/
  | vabs (gd : Guard) (d : Fin 16) (a : Fin 16) (e : FTy)
  /-- R271 -/
  | vneg (gd : Guard) (d : Fin 16) (a : Fin 16) (e : FTy)
  /-- R272 -/
  | vrcp (gd : Guard) (d : Fin 16) (a : Fin 16) (e : FTy)
  /-- R272 -/
  | vrsq (gd : Guard) (d : Fin 16) (a : Fin 16) (e : FTy)
  /-- R272 -/
  | vsqrt (gd : Guard) (d : Fin 16) (a : Fin 16) (e : FTy)
  /-- R272 -/
  | vexp2 (gd : Guard) (d : Fin 16) (a : Fin 16) (e : FTy)
  /-- R272 -/
  | vlog2 (gd : Guard) (d : Fin 16) (a : Fin 16) (e : FTy)
  /-- R272 -/
  | vsin (gd : Guard) (d : Fin 16) (a : Fin 16) (e : FTy)
  /-- R272 -/
  | vcos (gd : Guard) (d : Fin 16) (a : Fin 16) (e : FTy)
  /-- R274 -/
  | vcmp (gd : Guard) (c : CC) (d : Fin 16) (a : Fin 16) (b : Fin 16) (e : FTy)
  /-- R275 -/
  | vsel (gd : Guard) (d : Fin 16) (a : Fin 16) (b : Fin 16)
  /-- R276 -/
  | vsum (gd : Guard) (d : GReg) (a : Fin 16) (e : FTy)
  /-- R276 -/
  | vdot (gd : Guard) (d : GReg) (a : Fin 16) (b : Fin 16) (e : FTy)
  /-- R277 -/
  | vperm (gd : Guard) (d : Fin 16) (a : Fin 16) (b : Fin 16) (sz : PermSz)
  /-- R278 -/
  | cvtScalar (gd : Guard) (d : Fin 32) (a : Fin 32) (dt : TyCode) (st : TyCode) (r : Rm2)
  /-- R278 -/
  | cvtWide (gd : Guard) (d : Fin 16) (a : Fin 16) (dt : TyCode) (st : TyCode) (r : Rm)
  /-- R280 -/
  | pack (gd : Guard) (d : Fin 16) (a : Fin 16) (b : Fin 16) (pair : Fin 12) (r : Rm) (ks : Bool)
  /-- R281 -/
  | unpk (gd : Guard) (d : Fin 16) (a : Fin 16) (hi : Bool) (pair : Fin 12) (ks : Bool)
  /-- R282 -/
  | scl (gd : Guard) (d : Fin 16) (a : Fin 16) (b : Fin 16) (pair : Fin 10) (r : Rm) (ks : Bool)
  /-- R285 -/
  | xadd (gd : Guard) (e : Fin 2) (src : XSrc)
  /-- R286 -/
  | xget (gd : Guard) (d : GReg) (e : Fin 2) (f64 : Bool) (r : Rm)
  /-- R287 -/
  | xclr (gd : Guard) (e : Fin 2)
  /-- R287 -/
  | xmrg (gd : Guard) (e : Fin 2) (src : Fin 2)
  /-- R303 -/
  | mma (gd : Guard) (rel : Option Scope) (f : Fmt) (c : Fin 4) (a : Fin 32) (b : Fin 32)
  /-- R210 -/
  | qrd (gd : Guard) (d : GReg) (x : QDir) (fwd : Option QDir)
  /-- R210 -/
  | qwr (gd : Guard) (y : QDir) (a : GReg)
  /-- R210 -/
  | krd (gd : Guard) (d : GReg) (k : Fin 16)
  /-- R210 -/
  | kwr (gd : Guard) (k : Fin 16) (a : GReg)
  /-- R244 -/
  | br (gd : Guard) (disp : BitVec 20)
  /-- R244 -/
  | call (gd : Guard) (disp : BitVec 20)
  /-- R245 -/
  | brx (gd : Guard) (a : GReg)
  /-- R245 -/
  | callx (gd : Guard) (a : GReg)
  /-- R245 -/
  | ret (gd : Guard) (a : GReg)
  /-- R246 -/
  | dbnz (gd : Guard) (d : GReg) (disp : BitVec 14)
  /-- R247 -/
  | jset (gd : Guard) (j : Fin 8)
  /-- R247 -/
  | jadd (gd : Guard) (j : Fin 8)
  /-- R247 -/
  | jquit (gd : Guard) (j : Fin 8)
  /-- R247 -/
  | jwait (gd : Guard) (j : Fin 8)
  /-- R248 -/
  | jtest (gd : Guard) (p : Fin 8) (j : Fin 8)
  /-- R248 -/
  | jread (gd : Guard) (d : GReg) (j : Fin 8)
  /-- R248 -/
  | jwrite (gd : Guard) (j : Fin 8) (a : GReg)
  /-- R249 -/
  | fuse (gd : Guard) (glog : Fin 5)
  /-- R250 -/
  | split (gd : Guard)
  /-- R251 -/
  | detach (gd : Guard)
  /-- R252 -/
  | stop (gd : Guard)
  /-- R254 -/
  | spawn (gd : Guard) (a : GReg) (w : Fin 16)
  /-- R255 -/
  | spawnf (gd : Guard) (a : GReg)
  /-- R253 -/
  | yield (gd : Guard)
  /-- R256 -/
  | grid (gd : Guard) (a : GReg)
  /-- R321 -/
  | ld (gd : Guard) (d : GReg) (a : GReg) (sgn : Bool) (off : BitVec 5) (z : Size)
  /-- R322 -/
  | ldAcq (gd : Guard) (d : GReg) (a : GReg) (sc : Scope) (sgn : Bool) (z : Size)
  /-- R323 -/
  | ldDev (gd : Guard) (d : GReg) (a : GReg) (acq : Option Scope) (sgn : Bool) (z : Size)
  /-- R321 -/
  | st (gd : Guard) (off : BitVec 6) (a : GReg) (b : GReg) (z : Size)
  /-- R322 -/
  | stRel (gd : Guard) (sc : Scope) (a : GReg) (b : GReg) (z : Size)
  /-- R323 -/
  | stDev (gd : Guard) (rel : Option Scope) (a : GReg) (b : GReg) (z : Size)
  /-- R324 -/
  | ldw (gd : Guard) (w : Fin 16) (a : GReg) (off : BitVec 6)
  /-- R324 -/
  | stw (gd : Guard) (w : Fin 16) (a : GReg) (off : BitVec 6)
  /-- R324 -/
  | ldwAcq (gd : Guard) (w : Fin 16) (a : GReg) (sc : Scope)
  /-- R324 -/
  | stwRel (gd : Guard) (w : Fin 16) (a : GReg) (sc : Scope)
  /-- R321 -/
  | lds (gd : Guard) (d : GReg) (a : GReg) (sgn : Bool) (off : BitVec 5) (z : Size)
  /-- R321 -/
  | sts (gd : Guard) (off : BitVec 6) (a : GReg) (b : GReg) (z : Size)
  /-- R325 -/
  | ldsAcq (gd : Guard) (d : GReg) (a : GReg) (sc : Scope) (sgn : Bool) (z : Size)
  /-- R325 -/
  | stsRel (gd : Guard) (d : GReg) (a : GReg) (sc : Scope) (z : Size)
  /-- R324 -/
  | ldsw (gd : Guard) (w : Fin 16) (a : GReg) (off : BitVec 6)
  /-- R324 -/
  | stsw (gd : Guard) (w : Fin 16) (a : GReg) (off : BitVec 6)
  /-- R324 -/
  | ldswAcq (gd : Guard) (w : Fin 16) (a : GReg) (sc : Scope)
  /-- R324 -/
  | stswRel (gd : Guard) (w : Fin 16) (a : GReg) (sc : Scope)
  /-- R327 -/
  | gat (gd : Guard) (ord : Option Scope) (w : Fin 16) (a : GReg) (x : Fin 16) (e8 : Bool)
  /-- R327 -/
  | scat (gd : Guard) (ord : Option Scope) (w : Fin 16) (a : GReg) (x : Fin 16) (e8 : Bool)
  /-- R328 -/
  | pf (gd : Guard) (a : GReg) (b : GReg)
  /-- R329 -/
  | ldk (gd : Guard) (k : Fin 16) (a : GReg) (off : BitVec 6)
  /-- R329 -/
  | ldkAcq (gd : Guard) (k : Fin 16) (a : GReg) (sc : Scope)
  /-- R288 -/
  | xld (gd : Guard) (e : Fin 2) (a : GReg) (off : BitVec 6)
  /-- R288 -/
  | xldAcq (gd : Guard) (e : Fin 2) (a : GReg) (sc : Scope)
  /-- R288 -/
  | xst (gd : Guard) (e : Fin 2) (a : GReg) (off : BitVec 6)
  /-- R288 -/
  | xstRel (gd : Guard) (e : Fin 2) (a : GReg) (sc : Scope)
  /-- R331 -/
  | amoAdd (gd : Guard) (d : GReg) (a : GReg) (w64 : Bool) (o : AOrd)
  /-- R331 -/
  | amoAnd (gd : Guard) (d : GReg) (a : GReg) (w64 : Bool) (o : AOrd)
  /-- R331 -/
  | amoOr (gd : Guard) (d : GReg) (a : GReg) (w64 : Bool) (o : AOrd)
  /-- R331 -/
  | amoXor (gd : Guard) (d : GReg) (a : GReg) (w64 : Bool) (o : AOrd)
  /-- R331 -/
  | amoMinI (gd : Guard) (d : GReg) (a : GReg) (w64 : Bool) (o : AOrd)
  /-- R331 -/
  | amoMinN (gd : Guard) (d : GReg) (a : GReg) (w64 : Bool) (o : AOrd)
  /-- R331 -/
  | amoMaxI (gd : Guard) (d : GReg) (a : GReg) (w64 : Bool) (o : AOrd)
  /-- R331 -/
  | amoMaxN (gd : Guard) (d : GReg) (a : GReg) (w64 : Bool) (o : AOrd)
  /-- R331 -/
  | amoSwap (gd : Guard) (d : GReg) (a : GReg) (w64 : Bool) (o : AOrd)
  /-- R331 -/
  | amoPmin (gd : Guard) (d : GReg) (a : GReg) (o : AOrd)
  /-- R333 -/
  | cas (gd : Guard) (d : GReg) (a : GReg) (w64 : Bool) (o : AOrd)
  /-- R334 -/
  | cas2 (gd : Guard) (d : GReg) (a : GReg) (o : AOrd)
  /-- R335 -/
  | amofF32 (gd : Guard) (d : GReg) (a : GReg) (o : AOrd)
  /-- R335 -/
  | amofF64 (gd : Guard) (d : GReg) (a : GReg) (o : AOrd)
  /-- R336 -/
  | amoxF32 (gd : Guard) (d : GReg) (a : GReg) (o : AOrd)
  /-- R336 -/
  | amoxF64 (gd : Guard) (d : GReg) (a : GReg) (o : AOrd)
  /-- R337 -/
  | fenceAcq (gd : Guard) (sc : Scope)
  /-- R337 -/
  | fenceRel (gd : Guard) (sc : Scope)
  /-- R337 -/
  | fenceAr (gd : Guard) (sc : Scope)
  /-- R337 -/
  | fenceSc (gd : Guard) (sc : Scope)
  /-- R339 -/
  | wait (gd : Guard) (d : GReg) (a : GReg) (w64 : Bool) (acq : Option Scope)
  /-- R348 -/
  | cpy (gd : Guard) (rel : Option Scope) (d : Fin 32) (a : Fin 32) (b : Fin 32)
  /-- R348 -/
  | tld (gd : Guard) (rel : Option Scope) (d : Fin 32) (a : Fin 32) (b : Fin 32)
  /-- R353 -/
  | tldm (gd : Guard) (rel : Option Scope) (d : Fin 32) (a : Fin 32) (b : Fin 32)
  /-- R355 -/
  | chase (gd : Guard) (rel : Option Scope) (d : Fin 32) (a : Fin 32) (b : Fin 32)
  /-- R360 -/
  | multicastSub (gd : Guard) (a : GReg)
  /-- R361 -/
  | multicastUnsub (gd : Guard) (a : GReg)
  /-- R365 -/
  | tbinit (gd : Guard) (b : Fin 16) (a : GReg)
  /-- R365 -/
  | tbexp (gd : Guard) (b : Fin 16) (a : GReg)
  /-- R365 -/
  | tbarr (gd : Guard) (b : Fin 16)
  /-- R366 -/
  | tbwait (gd : Guard) (b : Fin 16)
  /-- R366 -/
  | tbtest (gd : Guard) (p : Fin 8) (b : Fin 16)
  /-- R369 -/
  | bbarr (gd : Guard)
  /-- R369 -/
  | bbwait (gd : Guard)
  /-- R372 -/
  | send (gd : Guard) (a : GReg) (w : Fin 16)
  /-- R375 -/
  | recv (gd : Guard) (w : Fin 16)
  /-- R375 -/
  | recvt (gd : Guard) (w : Fin 16) (a : GReg) (p : Fin 8)
  /-- R307 -/
  | mmz (gd : Guard) (c : Fin 4)
  /-- R307 -/
  | mmst (gd : Guard) (c : Fin 4) (a : GReg) (b : GReg)
  /-- R307 -/
  | mmld (gd : Guard) (c : Fin 4) (a : GReg) (b : GReg)
  /-- R312 -/
  | mmpoll (gd : Guard) (d : GReg) (a : GReg)
  /-- R311 -/
  | mmjob (gd : Guard) (d : GReg) (a : GReg) (f : Fmt)
  /-- R376 -/
  | tokq (gd : Guard) (d : GReg)
  /-- R377 -/
  | trap (gd : Guard) (code : BitVec 20)
  /-- R437 -/
  | sysret (gd : Guard)
  /-- R447 -/
  | halt (gd : Guard)
  /-- R379 -/
  | kill (gd : Guard) (a : GReg)
  /-- R380 -/
  | rdsr (gd : Guard) (d : GReg) (srn : BitVec 12)
  /-- R380 -/
  | wrsr (gd : Guard) (d : GReg) (srn : BitVec 12)
  /-- R381 -/
  | tlbinvAll (gd : Guard)
  /-- R381 -/
  | tlbinvAsid (gd : Guard) (a : GReg)
  /-- R381 -/
  | tlbinvPage (gd : Guard) (a : GReg) (b : GReg)
  /-- R382 -/
  | cwb (gd : Guard) (a : GReg) (b : GReg)
  /-- R382 -/
  | cinv (gd : Guard) (a : GReg) (b : GReg)
  /-- R383 -/
  | probe (gd : Guard) (d : GReg) (a : GReg)
  /-- A parked sub, unsub, tlbinv, kill, cwb, cinv or full-queue send of this position completes. (R386) -/
  | syncOpComplete (pos : Nat)
  /-- The scoreboarded result of this number lands. (R46) -/
  | scoreboardResultLands (id : Nat)
  /-- The write of this number is performed at its home. (R159) -/
  | storePerformed (id : Nat)
  /-- The page walk of this number finishes. (R141) -/
  | pageWalkComplete (id : Nat)
  /-- The banking switch of the cell ends. (R109) -/
  | bankingSwitchComplete (cell : Nat)
  /-- The timeout of the partial gang of this descriptor address expires. (R57) -/
  | spawnTimeoutRelease (cell : Nat) (desc : Nat)
  /-- The first waiting gang of the cell is placed. (R59) -/
  | gatheredGangPlace (cell : Nat)
  /-- The turn-holder of the gang has used its 64th unit. (R79) -/
  | pathQuantumExpiry (leader : Nat)
  /-- The lowest orphaned lane of the gang traps with ORPHAN. (R481) -/
  | orphanFault (leader : Nat)
  /-- The bundle this position issues traps with SQNOTE. (R433) -/
  | sqnote (pos : Nat)
  /-- The monitor of this waiting lane fires. (R168) -/
  | monitorFire (pos : Nat)
  /-- The wait of this lane times out. (R339) -/
  | waitTimeout (pos : Nat)
  /-- The recvt of this path times out. (R375) -/
  | recvtTimeout (pos : Nat)
  /-- A delivery packet reaches its consumer. (R351) -/
  | deliveryArrival (id : Nat)
  /-- A transfer reads the next bytes of its source. (R350) -/
  | transferSourceRead (id : Nat)
  /-- The notice of a finished transfer is counted. (R350) -/
  | transferNotice (id : Nat)
  /-- A walk context executes one word. (R356) -/
  | chaseStep (id : Nat)
  /-- A walk that has executed its last allowed word ends. (R359) -/
  | chaseStepLimit (id : Nat)
  /-- The join or leave packets of this number reach the routers. (R127) -/
  | multicastJoinArrival (id : Nat)
  /-- A complete cell forwards the sweep, or a release reaches the cell. (R370) -/
  | blockBarrierSweep (cell : Nat)
  /-- A message reaches its position. (R373) -/
  | messageArrival (id : Nat)
  /-- A refused message is resent. (R485) -/
  | messageResend (id : Nat)
  /-- The running engine operation of the cell ends. (R300) -/
  | matrixOpComplete (cell : Nat)
  /-- The next accepted engine operation of the cell starts. (R300) -/
  | matrixOpStart (cell : Nat)
  /-- The oldest token request of the cell is paid. (R189) -/
  | tokenRequestPaid (cell : Nat)
  /-- A station acts on the arriving ring flit. (R185) -/
  | ringStationStep (die : Nat) (station : Nat)
  /-- A ring revolution of the die ends. (R505) -/
  | ballastRevolution (die : Nat)
  /-- The dispatcher places or restores one block. (R176) -/
  | dispatchPlace
  /-- The quantum of a block ends. (R175) -/
  | quantumExpiry (block : Nat)
  /-- The gang of this leader is saved. (R64) -/
  | strandSave (leader : Nat)
  /-- The save frame of a block is complete. (R174) -/
  | evictionComplete (block : Nat)
  /-- A grid completes. (R400) -/
  | gridComplete (grid : Nat)
  /-- Every position named by this kill is FREE. (R445) -/
  | killComplete (id : Nat)
  /-- A position has been parked for 2^24 die cycles. (R477) -/
  | stallDetect (pos : Nat)
  /-- No position of a block has issued for 2^24 die cycles. (R478) -/
  | blockstallDetect (block : Nat)
  /-- The oldest request of a cell has waited beyond the bound. (R482) -/
  | starveDetect (cell : Nat)
  /-- A write of `size` bytes at offset `off` of a launch window. (R396) -/
  | launch (win : Nat) (off : Nat) (size : Nat) (rec : BitVec 512)
  /-- Power-on or Fundamental Reset. (R401) -/
  | packageReset
  /-- The attestation report is written. (R405) -/
  | attestationReportDone
  /-- The copy of a migration ends. (R197) -/
  | migrationComplete
  /-- The power multiplexers of a cell have switched. (R196) -/
  | railSwitchComplete (cell : Nat)
  /-- A host write to a device or mailbox register. (R391) -/
  | registerWrite (off : Nat) (v : Word)
  /-- The end-to-end timer of an outstanding request expires. (R499) -/
  | e2eRetry (tag : Nat)
  /-- A port leaves TRAINING. (R497) -/
  | portTrainingDone (port : Nat)
  /-- The host link goes down. (R502) -/
  | hostLinkDown
  /-- The host link retrains. (R502) -/
  | hostLinkUp
  /-- The hold of a rail ends. (R508) -/
  | railHoldEnd (die : Nat) (rail : Nat)
  /-- The frozen snapshot of a halted block is written. (R447) -/
  | haltSnapshotComplete (block : Nat)
  /-- A CXL.mem access of the host at an HDM offset. (R390) -/
  | hostMemoryAccess (write : Bool) (addr : Nat) (len : Nat) (data : BitVec 512) (poisoned : Bool)
  /-- A write to RSTCTL. (R402) -/
  | rstctlGo (v : Word)
  /-- A boot stage ends: 0 success, otherwise the failure code of R511. (R403) -/
  | bootStageComplete (code : BitVec 8)
  /-- A write to ATTCTL. (R405) -/
  | attctlGo (v : Word)
  /-- A write to MIGCMD. (R197) -/
  | migcmdGo (v : Word)
  /-- A write to RAILSEL of a cell. (R196) -/
  | railselWrite (cell : Nat) (v : Word)
  /-- A write to SLOTMASK of a cell. (R195) -/
  | slotmaskWrite (cell : Nat) (v : Word)
  /-- A write to CFENCE of a cell. (R394) -/
  | cfenceWrite (cell : Nat) (v : Word)
  /-- A write to RINGCFG of a die. (R186) -/
  | ringcfgWrite (die : Nat) (v : Word)
  /-- A write to FABCFG. (R392) -/
  | fabcfgWrite (v : Word)
  /-- A fabric flit arrives at a port; `op` is the operation of an atomic flit. (R407) -/
  | flitReceive (port : Nat) (flit : BitVec 512) (op : AmoOp)
  /-- A port erases a lane. (R497) -/
  | laneErase (port : Nat) (lane : Nat)
  /-- A hop retries a damaged flit. (R472) -/
  | hopRetry (kind : HopKind) (die : Nat) (hop : Nat) (dir : Nat) (ok : Bool)
  /-- The hottest die sensor now reads `temp` degrees Celsius. (R507) -/
  | thermalWarn (sensor : Nat) (temp : Nat)
  /-- A sensor reaches 110 degrees Celsius. (R507) -/
  | thermalTrip (sensor : Nat)
  /-- A rail of a die leaves tolerance. (R508) -/
  | railFault (die : Nat) (rail : Nat)
  /-- The supply of an HBM4 stack leaves tolerance. (R508) -/
  | hbmSupplyFault (stack : Nat)
  /-- The security engine raises an alarm. (R510) -/
  | securityAlarm (level : Nat) (source : Nat)
  /-- The host takes a host-memory sector from the remote-data caches, and may have written it. (R120) -/
  | hostCxlCacheRequest (addr : Nat) (write : Bool) (data : BitVec 256)
  /-- A switch chip fails. (R501) -/
  | switchPlaneLoss (plane : Nat)
  /-- A rail that left tolerance returns. (R508) -/
  | railReturnsToTolerance (die : Nat) (rail : Nat)
deriving DecidableEq, Repr

end Sys2Proof
end

