-- ==== Sys2Proof/Decode.lean ====
section
/-!
DEFINITION. Decoding of instruction words and bundles, and their encoding (spec/08_isa_formats.md R198 to R216,
spec/18_instruction_faults.md R453 to R457). A word is a natural number below 2^32. A word that is not an instruction is
answered with the lowest ILLEGAL sub-cause that applies (R453, R454). After the decoder stands the encoder, written from the
same tables, and the registers that each form reads and writes.
-/
namespace Sys2Proof

/-- The fields of an instruction word (R202). -/
structure Raw where
  p : Nat
  k : Nat
  major : Nat
  gn : Nat
  gp : Nat
  d : Nat
  s1 : Nat
  s2 : Nat
  min : Nat
deriving DecidableEq, Repr

/-- The fields of a word, most significant first (R202). -/
def unpack (w : Nat) : Raw where
  p := w / 2147483648 % 2
  k := w / 1073741824 % 2
  major := w / 16777216 % 64
  gn := w / 8388608 % 2
  gp := w / 1048576 % 8
  d := w / 16384 % 64
  s1 := w / 256 % 64
  s2 := w / 4 % 64
  min := w % 4

/-- The word with these fields (R202). -/
def packWord (r : Raw) : Nat :=
  r.min + 4 * r.s2 + 256 * r.s1 + 16384 * r.d + 1048576 * r.gp + 8388608 * r.gn
    + 16777216 * r.major + 1073741824 * r.k + 2147483648 * r.p

/-- A decoded word, or the ILLEGAL sub-cause it raises (R454). -/
inductive Dec where
  | ok (i : Instr)
  | bad (code : Nat)
deriving DecidableEq, Repr

/-- `i` unless a check of the list fails; the checks stand in rising order of sub-cause (R453). -/
def checked : List (Bool × Nat) → Instr → Dec
  | [], i => .ok i
  | (true, c) :: _, _ => .bad c
  | (false, _) :: r, i => checked r i

/-- The sub-causes of a word (R454). -/
def cMIN : Nat := 4
def cVALUE : Nat := 5
def cORDER : Nat := 6
def cMBZ : Nat := 7
def cREG : Nat := 8
def cSRN : Nat := 9

/-- Whether a must-be-zero value is set. -/
def nz (n : Nat) : Bool := decide (n ≠ 0)

/-- The order check of R214 and R146: a relaxed form with SC ≠ 0, or SC of 5 to 7. -/
def badOrder (ordered sc : Nat) : Bool := decide ((ordered = 0 ∧ sc ≠ 0) ∨ 5 ≤ sc)

def fin2 (n : Nat) : Fin 2 := ⟨n % 2, Nat.mod_lt _ (by decide)⟩
def fin4 (n : Nat) : Fin 4 := ⟨n % 4, Nat.mod_lt _ (by decide)⟩
def fin5 (n : Nat) : Fin 5 := ⟨n % 5, Nat.mod_lt _ (by decide)⟩
def fin8 (n : Nat) : Fin 8 := ⟨n % 8, Nat.mod_lt _ (by decide)⟩
def fin10 (n : Nat) : Fin 10 := ⟨n % 10, Nat.mod_lt _ (by decide)⟩
def fin12 (n : Nat) : Fin 12 := ⟨n % 12, Nat.mod_lt _ (by decide)⟩
def fin16 (n : Nat) : Fin 16 := ⟨n % 16, Nat.mod_lt _ (by decide)⟩
def fin32 (n : Nat) : Fin 32 := ⟨n % 32, Nat.mod_lt _ (by decide)⟩

/-- A G operand from its 6-bit field (R205). -/
def gOf (n : Nat) : GReg := ⟨if n / 32 % 2 = 1 then .h else .g, fin32 n⟩
/-- The 6-bit field of a G operand (R205). -/
def gCode (r : GReg) : Nat := (match r.bank with | .g => 0 | .h => 32) + r.num.val

def bOf (n : Nat) : Bool := decide (n % 2 = 1)
def bCode (b : Bool) : Nat := match b with | true => 1 | false => 0

/-- The codes of R213, R146 and R205, each with its inverse. -/
def intTyOf : Nat → IntTy
  | 0 => .i32
  | 1 => .n32
  | 2 => .i64
  | _ => .n64
def intTyCode : IntTy → Nat
  | .i32 => 0
  | .n32 => 1
  | .i64 => 2
  | .n64 => 3
def fTyOf : Nat → FTy
  | 0 => .f32
  | 1 => .f64
  | 2 => .f16
  | _ => .bf16
def fTyCode : FTy → Nat
  | .f32 => 0
  | .f64 => 1
  | .f16 => 2
  | .bf16 => 3
def rmOf : Nat → Rm
  | 0 => .rn
  | 1 => .rz
  | 2 => .ru
  | 3 => .rd
  | _ => .rs
def rmCode : Rm → Nat
  | .rn => 0
  | .rz => 1
  | .ru => 2
  | .rd => 3
  | .rs => 4
def rm2Of : Nat → Rm2
  | 0 => .rn
  | 1 => .rz
  | 2 => .ru
  | _ => .rd
def rm2Code : Rm2 → Nat
  | .rn => 0
  | .rz => 1
  | .ru => 2
  | .rd => 3
def ccOf : Nat → CC
  | 0 => .eq
  | 1 => .ne
  | 2 => .lt
  | 3 => .le
  | 4 => .gt
  | 5 => .ge
  | 6 => .un
  | _ => .ord
def ccCode : CC → Nat
  | .eq => 0
  | .ne => 1
  | .lt => 2
  | .le => 3
  | .gt => 4
  | .ge => 5
  | .un => 6
  | .ord => 7
def iccOf : Nat → ICC
  | 0 => .eq
  | 1 => .ne
  | 2 => .lt
  | 3 => .le
  | 4 => .gt
  | _ => .ge
def iccCode : ICC → Nat
  | .eq => 0
  | .ne => 1
  | .lt => 2
  | .le => 3
  | .gt => 4
  | .ge => 5
def sizeOf : Nat → Size
  | 0 => .b1
  | 1 => .b2
  | 2 => .b4
  | _ => .b8
def sizeCode : Size → Nat
  | .b1 => 0
  | .b2 => 1
  | .b4 => 2
  | .b8 => 3
def scopeOf : Nat → Scope
  | 0 => .cell
  | 1 => .die
  | 2 => .pkg
  | 3 => .node
  | _ => .fab
def scopeCode (s : Scope) : Nat := s.rank
def oscOf (on sc : Nat) : Option Scope := if on % 2 = 1 then some (scopeOf sc) else none
def oscOn : Option Scope → Nat
  | none => 0
  | some _ => 1
def oscCode : Option Scope → Nat
  | none => 0
  | some s => scopeCode s
def aordOf (ord sc : Nat) : AOrd :=
  match ord with
  | 0 => .relaxed
  | 1 => .acq (scopeOf sc)
  | 2 => .rel (scopeOf sc)
  | _ => .ar (scopeOf sc)
def aordCode : AOrd → Nat
  | .relaxed => 0
  | .acq _ => 1
  | .rel _ => 2
  | .ar _ => 3
def aordSc : AOrd → Nat
  | .relaxed => 0
  | .acq s => scopeCode s
  | .rel s => scopeCode s
  | .ar s => scopeCode s
def qOf : Nat → QDir
  | 0 => .qn
  | 1 => .qe
  | 2 => .qs
  | _ => .qw
def qCode : QDir → Nat
  | .qn => 0
  | .qe => 1
  | .qs => 2
  | .qw => 3
def tyOf : Nat → TyCode
  | 0 => .f64
  | 1 => .f32
  | 2 => .f16
  | 3 => .bf16
  | 4 => .e4m3
  | 5 => .e5m2
  | 6 => .e2m1
  | 7 => .i4
  | 8 => .i8
  | 9 => .i16
  | 10 => .i32
  | 11 => .i64
  | 12 => .n8
  | 13 => .n16
  | 14 => .n32
  | _ => .n64
def tyCodeNum : TyCode → Nat
  | .f64 => 0
  | .f32 => 1
  | .f16 => 2
  | .bf16 => 3
  | .e4m3 => 4
  | .e5m2 => 5
  | .e2m1 => 6
  | .i4 => 7
  | .i8 => 8
  | .i16 => 9
  | .i32 => 10
  | .i64 => 11
  | .n8 => 12
  | .n16 => 13
  | .n32 => 14
  | .n64 => 15
def fmtOf : Nat → Fmt
  | 0 => .fp16
  | 1 => .bf16
  | 2 => .e4m3
  | 3 => .e5m2
  | 4 => .e2m1
  | 5 => .i8
  | _ => .i4
def fmtCode : Fmt → Nat
  | .fp16 => 0
  | .bf16 => 1
  | .e4m3 => 2
  | .e5m2 => 3
  | .e2m1 => 4
  | .i8 => 5
  | .i4 => 6
def permOf : Nat → PermSz
  | 0 => .b4
  | 1 => .b8
  | _ => .b2
def permCode : PermSz → Nat
  | .b4 => 0
  | .b8 => 1
  | .b2 => 2
/-- The source of xadd from D[5:4] and S1 (R215). -/
def xsrcOf (sel s1 : Nat) : XSrc :=
  match sel with
  | 0 => .f32 (gOf s1)
  | 1 => .f64 (gOf s1)
  | 2 => .f32x8 (fin16 s1)
  | _ => .f64x4 (fin16 s1)
def xsrcSel : XSrc → Nat
  | .f32 _ => 0
  | .f64 _ => 1
  | .f32x8 _ => 2
  | .f64x4 _ => 3
def xsrcS1 : XSrc → Nat
  | .f32 a => gCode a
  | .f64 a => gCode a
  | .f32x8 a => a.val
  | .f64x4 a => a.val

/-- Whether and at which level a register is read by `rdsr` (R218, R438): `some true` in single-lane mode only. -/
def srnRead (n : Nat) : Option Bool :=
  if n ≤ 0x00D then some false
  else if 0x010 ≤ n ∧ n ≤ 0x013 then some false
  else if 0x020 ≤ n ∧ n ≤ 0x02F then some true
  else if 0x100 ≤ n ∧ n ≤ 0x107 then some true
  else if n = 0x110 then some true
  else if 0x118 ≤ n ∧ n ≤ 0x11F then some true
  else if 0x130 ≤ n ∧ n ≤ 0x131 then some true
  else if 0x140 ≤ n ∧ n ≤ 0x1AF then some true
  else none

/-- Whether and at which level a register is written by `wrsr` (R218, R438). -/
def srnWrite (n : Nat) : Option Bool :=
  if n = 0x010 then some false
  else if 0x020 ≤ n ∧ n ≤ 0x02F then some true
  else if n = 0x102 then some true
  else if 0x104 ≤ n ∧ n ≤ 0x107 then some true
  else if n = 0x110 ∨ n = 0x111 then some true
  else if 0x130 ≤ n ∧ n ≤ 0x131 then some true
  else none

/-- The guard of a word (R203). -/
def gdOf (r : Raw) : Guard := ⟨bOf r.gn, fin8 r.gp⟩

/-- Bits [13:0] and [19:0] of a word (R211). -/
def imm14 (r : Raw) : Nat := r.s1 * 256 + r.s2 * 4 + r.min
def low20 (r : Raw) : Nat := r.d * 16384 + r.s1 * 256 + r.s2 * 4 + r.min

/-- Rounding of format F and of format V (R211). -/
def rmF (r : Raw) : Nat := 4 * (r.d / 32) + 2 * (r.s1 / 32) + r.s2 / 32
def rmV (r : Raw) : Nat := 4 * (r.s2 / 16 % 2) + r.s1 / 16
/-- Scope of format Q and of `mma` (R211, R215). -/
def scQ (r : Raw) : Nat := 4 * (r.s1 / 32) + 2 * (r.s2 / 32) + r.min / 2

/-- A-class majors 0x00 to 0x1F (R215). -/
def decodeA1 (r : Raw) : Dec :=
  match r.major with
  | 0 => .ok (.add (gdOf r) (gOf r.d) (gOf r.s1) (gOf r.s2) (intTyOf r.min))
  | 1 => .ok (.sub (gdOf r) (gOf r.d) (gOf r.s1) (gOf r.s2) (intTyOf r.min))
  | 2 => .ok (.mul (gdOf r) (gOf r.d) (gOf r.s1) (gOf r.s2) (intTyOf r.min))
  | 3 => .ok (.mulh (gdOf r) (gOf r.d) (gOf r.s1) (gOf r.s2) (intTyOf r.min))
  | 4 => .ok (.mad (gdOf r) (gOf r.d) (gOf r.s1) (gOf r.s2) (intTyOf r.min))
  | 5 => .ok (.div (gdOf r) (gOf r.d) (gOf r.s1) (gOf r.s2) (intTyOf r.min))
  | 6 => .ok (.rem (gdOf r) (gOf r.d) (gOf r.s1) (gOf r.s2) (intTyOf r.min))
  | 7 => .ok (.and (gdOf r) (gOf r.d) (gOf r.s1) (gOf r.s2) (intTyOf r.min))
  | 8 => .ok (.or (gdOf r) (gOf r.d) (gOf r.s1) (gOf r.s2) (intTyOf r.min))
  | 9 => .ok (.xor (gdOf r) (gOf r.d) (gOf r.s1) (gOf r.s2) (intTyOf r.min))
  | 10 => .ok (.andn (gdOf r) (gOf r.d) (gOf r.s1) (gOf r.s2) (intTyOf r.min))
  | 11 => .ok (.shl (gdOf r) (gOf r.d) (gOf r.s1) (gOf r.s2) (intTyOf r.min))
  | 12 => .ok (.shr (gdOf r) (gOf r.d) (gOf r.s1) (gOf r.s2) (intTyOf r.min))
  | 13 => .ok (.sar (gdOf r) (gOf r.d) (gOf r.s1) (gOf r.s2) (intTyOf r.min))
  | 14 => .ok (.rot (gdOf r) (gOf r.d) (gOf r.s1) (gOf r.s2) (intTyOf r.min))
  | 15 => .ok (.min (gdOf r) (gOf r.d) (gOf r.s1) (gOf r.s2) (intTyOf r.min))
  | 16 => .ok (.max (gdOf r) (gOf r.d) (gOf r.s1) (gOf r.s2) (intTyOf r.min))
  | 17 => .ok (.addi (gdOf r) (gOf r.d) (gOf r.s1) (BitVec.ofNat 6 r.s2) (intTyOf r.min))
  | 18 => .ok (.andi (gdOf r) (gOf r.d) (gOf r.s1) (BitVec.ofNat 6 r.s2) (intTyOf r.min))
  | 19 => .ok (.ori (gdOf r) (gOf r.d) (gOf r.s1) (BitVec.ofNat 6 r.s2) (intTyOf r.min))
  | 20 => .ok (.xori (gdOf r) (gOf r.d) (gOf r.s1) (BitVec.ofNat 6 r.s2) (intTyOf r.min))
  | 21 => .ok (.li (gdOf r) (gOf r.d) (BitVec.ofNat 14 (imm14 r)))
  | 22 => .ok (.lih (gdOf r) (gOf r.d) (BitVec.ofNat 14 (imm14 r)))
  | 23 =>
    match r.s2 with
    | 0 => .ok (.abs (gdOf r) (gOf r.d) (gOf r.s1) (intTyOf r.min))
    | 1 => .ok (.neg (gdOf r) (gOf r.d) (gOf r.s1) (intTyOf r.min))
    | 2 => .ok (.clz (gdOf r) (gOf r.d) (gOf r.s1) (intTyOf r.min))
    | 3 => .ok (.ctz (gdOf r) (gOf r.d) (gOf r.s1) (intTyOf r.min))
    | 4 => .ok (.popc (gdOf r) (gOf r.d) (gOf r.s1) (intTyOf r.min))
    | 5 => .ok (.brev (gdOf r) (gOf r.d) (gOf r.s1) (intTyOf r.min))
    | _ => .bad cVALUE
  | 24 => .ok (.bfx (gdOf r) (gOf r.d) (gOf r.s1) (gOf r.s2) (intTyOf r.min))
  | 25 => .ok (.bfi (gdOf r) (gOf r.d) (gOf r.s1) (gOf r.s2) (intTyOf r.min))
  | 26 => .ok (.sel (gdOf r) (gOf r.d) (gOf r.s1) (gOf r.s2) (fin8 r.min))
  | 27 => .ok (.sel (gdOf r) (gOf r.d) (gOf r.s1) (gOf r.s2) (fin8 (4 + r.min)))
  | 28 => .ok (.lea (gdOf r) (gOf r.d) (gOf r.s1) (gOf r.s2) (fin4 r.min))
  | 29 => checked [(decide (6 ≤ r.d / 8), cVALUE)]
      (.cmp (gdOf r) (iccOf (r.d / 8)) (fin8 r.d) (gOf r.s1) (gOf r.s2) (intTyOf r.min))
  | 30 =>
    match r.min with
    | 0 => checked [(nz (r.d / 8) || nz (r.s1 / 8) || nz (r.s2 / 8), cMBZ)] (.pand (gdOf r) (fin8 r.d) (fin8 r.s1) (fin8 r.s2))
    | 1 => checked [(nz (r.d / 8) || nz (r.s1 / 8) || nz (r.s2 / 8), cMBZ)] (.por (gdOf r) (fin8 r.d) (fin8 r.s1) (fin8 r.s2))
    | 2 => checked [(nz (r.d / 8) || nz (r.s1 / 8) || nz (r.s2 / 8), cMBZ)] (.pxor (gdOf r) (fin8 r.d) (fin8 r.s1) (fin8 r.s2))
    | _ => checked [(nz (r.d / 8) || nz (r.s1 / 8) || nz r.s2, cMBZ)] (.pnot (gdOf r) (fin8 r.d) (fin8 r.s1))
  | 31 =>
    match r.min with
    | 0 => checked [(nz (r.d / 8) || nz (r.s1 / 8) || nz r.s2, cMBZ)] (.voteSome (gdOf r) (fin8 r.d) (fin8 r.s1))
    | 1 => checked [(nz (r.d / 8) || nz (r.s1 / 8) || nz r.s2, cMBZ)] (.voteEvery (gdOf r) (fin8 r.d) (fin8 r.s1))
    | 2 => checked [(nz (r.d / 8) || nz (r.s1 / 8) || nz r.s2, cMBZ)] (.voteAgree (gdOf r) (fin8 r.d) (fin8 r.s1))
    | _ => checked [(nz (r.s1 / 8) || nz r.s2, cMBZ)] (.ballot (gdOf r) (gOf r.d) (fin8 r.s1))
  | _ => .bad 3

/-- A-class majors 0x20 to 0x3F (R215). -/
def decodeA2 (r : Raw) : Dec :=
  match r.major with
  | 32 =>
    match r.min with
    | 0 => .ok (.shflPick (gdOf r) (gOf r.d) (gOf r.s1) (gOf r.s2))
    | 1 => .ok (.shflLo (gdOf r) (gOf r.d) (gOf r.s1) (gOf r.s2))
    | 2 => .ok (.shflHi (gdOf r) (gOf r.d) (gOf r.s1) (gOf r.s2))
    | _ => .ok (.shflMir (gdOf r) (gOf r.d) (gOf r.s1) (gOf r.s2))
  | 33 => checked [(nz r.min, cMIN), (nz (r.s2 / 16), cMBZ)] (.bcast (gdOf r) (gOf r.d) (gOf r.s1) (fin16 r.s2))
  | 34 => checked [(decide (5 ≤ rmF r), cVALUE)] (.fadd (gdOf r) (rmOf (rmF r)) (fin32 r.d) (fin32 r.s1) (fin32 r.s2) (fTyOf r.min))
  | 35 => checked [(decide (5 ≤ rmF r), cVALUE)] (.fsub (gdOf r) (rmOf (rmF r)) (fin32 r.d) (fin32 r.s1) (fin32 r.s2) (fTyOf r.min))
  | 36 => checked [(decide (5 ≤ rmF r), cVALUE)] (.fmul (gdOf r) (rmOf (rmF r)) (fin32 r.d) (fin32 r.s1) (fin32 r.s2) (fTyOf r.min))
  | 37 => checked [(decide (5 ≤ rmF r), cVALUE)] (.fma (gdOf r) (rmOf (rmF r)) (fin32 r.d) (fin32 r.s1) (fin32 r.s2) (fTyOf r.min))
  | 38 => checked [(nz (rmF r), cMBZ)] (.fmin (gdOf r) (fin32 r.d) (fin32 r.s1) (fin32 r.s2) (fTyOf r.min))
  | 39 => checked [(nz (rmF r), cMBZ)] (.fmax (gdOf r) (fin32 r.d) (fin32 r.s1) (fin32 r.s2) (fTyOf r.min))
  | 40 => checked [(decide (5 ≤ rmF r), cVALUE)] (.fdiv (gdOf r) (rmOf (rmF r)) (fin32 r.d) (fin32 r.s1) (fin32 r.s2) (fTyOf r.min))
  | 41 =>
    match r.s2 % 32 with
    | 0 => checked [(decide (5 ≤ rmF r), cVALUE)] (.fsqrt (gdOf r) (rmOf (rmF r)) (fin32 r.d) (fin32 r.s1) (fTyOf r.min))
    | 1 => checked [(nz (rmF r), cMBZ)] (.fabs (gdOf r) (fin32 r.d) (fin32 r.s1) (fTyOf r.min))
    | 2 => checked [(nz (rmF r), cMBZ)] (.fneg (gdOf r) (fin32 r.d) (fin32 r.s1) (fTyOf r.min))
    | _ => .bad cVALUE
  | 42 => checked [(nz (r.s1 / 32) || nz (r.s2 / 32), cMBZ)]
      (.fcmp (gdOf r) (ccOf (r.d / 8)) (fin8 r.d) (fin32 r.s1) (fin32 r.s2) (fTyOf r.min))
  | 43 => checked [(nz r.min, cMIN), (decide (5 ≤ rmV r), cVALUE), (nz (r.s2 / 32), cMBZ)]
      (.vadd (gdOf r) (rmOf (rmV r)) (fin16 r.d) (fin16 r.s1) (fin16 r.s2) (fTyOf (r.d / 16)))
  | 44 => checked [(nz r.min, cMIN), (decide (5 ≤ rmV r), cVALUE), (nz (r.s2 / 32), cMBZ)]
      (.vsub (gdOf r) (rmOf (rmV r)) (fin16 r.d) (fin16 r.s1) (fin16 r.s2) (fTyOf (r.d / 16)))
  | 45 => checked [(nz r.min, cMIN), (decide (5 ≤ rmV r), cVALUE), (nz (r.s2 / 32), cMBZ)]
      (.vmul (gdOf r) (rmOf (rmV r)) (fin16 r.d) (fin16 r.s1) (fin16 r.s2) (fTyOf (r.d / 16)))
  | 46 => checked [(nz r.min, cMIN), (decide (5 ≤ rmV r), cVALUE), (nz (r.s2 / 32), cMBZ)]
      (.vfma (gdOf r) (rmOf (rmV r)) (fin16 r.d) (fin16 r.s1) (fin16 r.s2) (fTyOf (r.d / 16)))
  | 47 => checked [(nz r.min, cMIN), (nz (rmV r) || nz (r.s2 / 32), cMBZ)] (.vmin (gdOf r) (fin16 r.d) (fin16 r.s1) (fin16 r.s2) (fTyOf (r.d / 16)))
  | 48 => checked [(nz r.min, cMIN), (nz (rmV r) || nz (r.s2 / 32), cMBZ)] (.vmax (gdOf r) (fin16 r.d) (fin16 r.s1) (fin16 r.s2) (fTyOf (r.d / 16)))
  | 49 =>
    match r.min with
    | 0 => checked [(nz (r.s1 / 16) || nz r.s2, cMBZ)] (.vabs (gdOf r) (fin16 r.d) (fin16 r.s1) (fTyOf (r.d / 16)))
    | 1 => checked [(nz (r.s1 / 16) || nz r.s2, cMBZ)] (.vneg (gdOf r) (fin16 r.d) (fin16 r.s1) (fTyOf (r.d / 16)))
    | _ => .bad cMIN
  | 50 =>
    match r.s2 % 16 with
    | 0 => checked [(nz r.min, cMIN), (nz (r.s1 / 16) || nz (r.s2 / 16), cMBZ)] (.vrcp (gdOf r) (fin16 r.d) (fin16 r.s1) (fTyOf (r.d / 16)))
    | 1 => checked [(nz r.min, cMIN), (nz (r.s1 / 16) || nz (r.s2 / 16), cMBZ)] (.vrsq (gdOf r) (fin16 r.d) (fin16 r.s1) (fTyOf (r.d / 16)))
    | 2 => checked [(nz r.min, cMIN), (nz (r.s1 / 16) || nz (r.s2 / 16), cMBZ)] (.vsqrt (gdOf r) (fin16 r.d) (fin16 r.s1) (fTyOf (r.d / 16)))
    | 3 => checked [(nz r.min, cMIN), (nz (r.s1 / 16) || nz (r.s2 / 16), cMBZ)] (.vexp2 (gdOf r) (fin16 r.d) (fin16 r.s1) (fTyOf (r.d / 16)))
    | 4 => checked [(nz r.min, cMIN), (nz (r.s1 / 16) || nz (r.s2 / 16), cMBZ)] (.vlog2 (gdOf r) (fin16 r.d) (fin16 r.s1) (fTyOf (r.d / 16)))
    | 5 => checked [(nz r.min, cMIN), (nz (r.s1 / 16) || nz (r.s2 / 16), cMBZ)] (.vsin (gdOf r) (fin16 r.d) (fin16 r.s1) (fTyOf (r.d / 16)))
    | 6 => checked [(nz r.min, cMIN), (nz (r.s1 / 16) || nz (r.s2 / 16), cMBZ)] (.vcos (gdOf r) (fin16 r.d) (fin16 r.s1) (fTyOf (r.d / 16)))
    | _ => checked [(nz r.min, cMIN), (true, cVALUE)] (.vrcp (gdOf r) (fin16 r.d) (fin16 r.s1) (fTyOf (r.d / 16)))
  | 51 => checked [(nz (r.s1 / 16) || nz (r.s2 / 32), cMBZ)]
      (.vcmp (gdOf r) (ccOf (4 * (r.s2 / 16 % 2) + r.min)) (fin16 r.d) (fin16 r.s1) (fin16 r.s2) (fTyOf (r.d / 16)))
  | 52 => checked [(nz r.min, cMIN), (nz (r.d / 16) || nz (r.s1 / 16) || nz (r.s2 / 16), cMBZ)] (.vsel (gdOf r) (fin16 r.d) (fin16 r.s1) (fin16 r.s2))
  | 53 => checked [(nz (r.s1 / 16) || nz r.s2, cMBZ)] (.vsum (gdOf r) (gOf r.d) (fin16 r.s1) (fTyOf r.min))
  | 54 => checked [(nz (r.s1 / 16) || nz (r.s2 / 16), cMBZ)]
      (.vdot (gdOf r) (gOf r.d) (fin16 r.s1) (fin16 r.s2) (fTyOf r.min))
  | 55 => checked [(decide (r.min = 3), cMIN), (nz (r.d / 16) || nz (r.s1 / 16) || nz (r.s2 / 16), cMBZ)]
      (.vperm (gdOf r) (fin16 r.d) (fin16 r.s1) (fin16 r.s2) (permOf r.min))
  | 56 => .ok (.cvtScalar (gdOf r) (fin32 (low20 r / 32768)) (fin32 (low20 r / 1024)) (tyOf (low20 r / 64 % 16))
      (tyOf (r.s2 % 16)) (rm2Of r.min))
  | 57 => checked [(decide (5 ≤ low20 r / 2 % 8), cVALUE), (nz (low20 r % 2), cMBZ)]
      (.cvtWide (gdOf r) (fin16 (low20 r / 65536)) (fin16 (low20 r / 4096)) (tyOf (low20 r / 256 % 16)) (tyOf (low20 r / 16 % 16)) (rmOf (low20 r / 2 % 8)))
  | 58 => checked [(decide (12 ≤ low20 r / 16 % 16) || decide (5 ≤ low20 r / 2 % 8), cVALUE)]
      (.pack (gdOf r) (fin16 (low20 r / 65536)) (fin16 (low20 r / 4096)) (fin16 (low20 r / 256)) (fin12 (low20 r / 16 % 16)) (rmOf (low20 r / 2 % 8)) (bOf (low20 r)))
  | 59 => checked [(decide (12 ≤ low20 r / 16 % 16), cVALUE), (nz (low20 r / 512 % 8) || nz (low20 r / 2 % 8), cMBZ)]
      (.unpk (gdOf r) (fin16 (low20 r / 65536)) (fin16 (low20 r / 4096)) (bOf (low20 r / 256)) (fin12 (low20 r / 16 % 16)) (bOf (low20 r)))
  | 60 => checked [(decide (10 ≤ low20 r / 16 % 16) || decide (5 ≤ low20 r / 2 % 8), cVALUE)]
      (.scl (gdOf r) (fin16 (low20 r / 65536)) (fin16 (low20 r / 4096)) (fin16 (low20 r / 256)) (fin10 (low20 r / 16 % 16)) (rmOf (low20 r / 2 % 8)) (bOf (low20 r)))
  | 61 =>
    match r.min with
    | 0 => checked [(nz (r.d / 2 % 8) || nz r.s2 || (decide (2 ≤ r.d / 16) && nz (r.s1 / 16)), cMBZ)]
        (.xadd (gdOf r) (fin2 r.d) (xsrcOf (r.d / 16) r.s1))
    | 1 => checked [(decide (2 ≤ r.s2 / 16) || decide (5 ≤ r.s2 % 8), cVALUE), (nz (r.s1 / 2) || nz (r.s2 / 8 % 2), cMBZ)]
        (.xget (gdOf r) (gOf r.d) (fin2 r.s1) (bOf (r.s2 / 16)) (rmOf (r.s2 % 8)))
    | 2 => checked [(nz (r.d / 2) || nz r.s1 || nz r.s2, cMBZ)] (.xclr (gdOf r) (fin2 r.d))
    | _ => checked [(nz (r.d / 2) || nz (r.s1 / 2) || nz r.s2, cMBZ)] (.xmrg (gdOf r) (fin2 r.d) (fin2 r.s1))
  | 62 => checked [(decide (r.d / 4 % 8 = 7), cVALUE), (badOrder (r.d / 32) (scQ r), cORDER), (nz (r.min % 2), cMBZ)]
      (.mma (gdOf r) (oscOf (r.d / 32) (scQ r)) (fmtOf (r.d / 4 % 8)) (fin4 r.d) (fin32 r.s1) (fin32 r.s2))
  | 63 =>
    match r.min with
    | 0 => checked [(nz (r.s1 / 4) || nz (r.s2 / 4 % 8) || (decide (r.s2 / 32 = 0) && nz (r.s2 % 4)), cMBZ)]
        (.qrd (gdOf r) (gOf r.d) (qOf (r.s1 % 4)) (if r.s2 / 32 % 2 = 1 then some (qOf (r.s2 % 4)) else none))
    | 1 => checked [(nz (r.d / 4) || nz r.s2, cMBZ)] (.qwr (gdOf r) (qOf (r.d % 4)) (gOf r.s1))
    | 2 => checked [(nz (r.s1 / 16) || nz r.s2, cMBZ)] (.krd (gdOf r) (gOf r.d) (fin16 r.s1))
    | _ => checked [(nz (r.d / 16) || nz r.s2, cMBZ)] (.kwr (gdOf r) (fin16 r.d) (gOf r.s1))
  | _ => .bad 3

/-- C-class majors 0x01 to 0x15; 0x00 is reserved (R216). -/
def decodeC1 (r : Raw) : Dec :=
  match r.major with
  | 1 => .ok (.br (gdOf r) (BitVec.ofNat 20 (low20 r)))
  | 2 => .ok (.call (gdOf r) (BitVec.ofNat 20 (low20 r)))
  | 3 =>
    match r.min with
    | 0 => checked [(nz r.d || nz r.s2, cMBZ)] (.brx (gdOf r) (gOf r.s1))
    | 1 => checked [(nz r.d || nz r.s2, cMBZ)] (.callx (gdOf r) (gOf r.s1))
    | 2 => checked [(nz r.d || nz r.s2, cMBZ)] (.ret (gdOf r) (gOf r.s1))
    | _ => .bad cMIN
  | 4 => .ok (.dbnz (gdOf r) (gOf r.d) (BitVec.ofNat 14 (imm14 r)))
  | 5 =>
    match r.min with
    | 0 => checked [(nz (r.d / 8) || nz r.s1 || nz r.s2, cMBZ)] (.jset (gdOf r) (fin8 r.d))
    | 1 => checked [(nz (r.d / 8) || nz r.s1 || nz r.s2, cMBZ)] (.jadd (gdOf r) (fin8 r.d))
    | 2 => checked [(nz (r.d / 8) || nz r.s1 || nz r.s2, cMBZ)] (.jquit (gdOf r) (fin8 r.d))
    | _ => checked [(nz (r.d / 8) || nz r.s1 || nz r.s2, cMBZ)] (.jwait (gdOf r) (fin8 r.d))
  | 6 =>
    match r.min with
    | 0 => checked [(nz (r.d / 8) || nz (r.s1 / 8) || nz r.s2, cMBZ)] (.jtest (gdOf r) (fin8 r.d) (fin8 r.s1))
    | 1 => checked [(nz (r.s1 / 8) || nz r.s2, cMBZ)] (.jread (gdOf r) (gOf r.d) (fin8 r.s1))
    | 2 => checked [(nz (r.d / 8) || nz r.s2, cMBZ)] (.jwrite (gdOf r) (fin8 r.d) (gOf r.s1))
    | _ => .bad cMIN
  | 7 =>
    match r.min with
    | 0 => checked [(decide (5 ≤ r.s2 % 8), cVALUE), (nz r.d || nz r.s1 || nz (r.s2 / 8), cMBZ)] (.fuse (gdOf r) (fin5 (r.s2 % 8)))
    | 1 => checked [(nz r.d || nz r.s1 || nz r.s2, cMBZ)] (.split (gdOf r))
    | 2 => checked [(nz r.d || nz r.s1 || nz r.s2, cMBZ)] (.detach (gdOf r))
    | _ => checked [(nz r.d || nz r.s1 || nz r.s2, cMBZ)] (.stop (gdOf r))
  | 8 =>
    match r.min with
    | 0 => checked [(nz r.d || nz (r.s2 / 16), cMBZ)] (.spawn (gdOf r) (gOf r.s1) (fin16 r.s2))
    | 1 => checked [(nz r.d || nz r.s2, cMBZ)] (.spawnf (gdOf r) (gOf r.s1))
    | 2 => checked [(nz r.d || nz r.s1 || nz r.s2, cMBZ)] (.yield (gdOf r))
    | _ => checked [(nz r.d || nz r.s2, cMBZ)] (.grid (gdOf r) (gOf r.s1))
  | 9 => checked [(nz (r.s2 / 32) && decide (r.min = 3), cMBZ)]
      (.ld (gdOf r) (gOf r.d) (gOf r.s1) (bOf (r.s2 / 32)) (BitVec.ofNat 5 r.s2) (sizeOf r.min))
  | 10 =>
    match r.s2 / 2 % 2 with
    | 0 => checked [(nz (1 - r.s2 / 4 % 2), cVALUE), (badOrder (r.s2 / 4 % 2) (r.s2 / 8), cORDER),
        (nz (r.s2 % 2) && decide (r.min = 3), cMBZ)]
        (.ldAcq (gdOf r) (gOf r.d) (gOf r.s1) (scopeOf (r.s2 / 8)) (bOf r.s2) (sizeOf r.min))
    | _ => checked [(badOrder (r.s2 / 4 % 2) (r.s2 / 8), cORDER), (nz (r.s2 % 2) && decide (r.min = 3), cMBZ)]
        (.ldDev (gdOf r) (gOf r.d) (gOf r.s1) (oscOf (r.s2 / 4) (r.s2 / 8)) (bOf r.s2) (sizeOf r.min))
  | 11 => .ok (.st (gdOf r) (BitVec.ofNat 6 r.d) (gOf r.s1) (gOf r.s2) (sizeOf r.min))
  | 12 =>
    match r.d / 2 % 2 with
    | 0 => checked [(nz (1 - r.d / 4 % 2), cVALUE), (badOrder (r.d / 4 % 2) (r.d / 8), cORDER), (nz (r.d % 2), cMBZ)]
        (.stRel (gdOf r) (scopeOf (r.d / 8)) (gOf r.s1) (gOf r.s2) (sizeOf r.min))
    | _ => checked [(badOrder (r.d / 4 % 2) (r.d / 8), cORDER), (nz (r.d % 2), cMBZ)]
        (.stDev (gdOf r) (oscOf (r.d / 4) (r.d / 8)) (gOf r.s1) (gOf r.s2) (sizeOf r.min))
  | 13 =>
    match r.min with
    | 0 => checked [(nz (r.d / 16), cMBZ)] (.ldw (gdOf r) (fin16 r.d) (gOf r.s1) (BitVec.ofNat 6 r.s2))
    | 1 => checked [(nz (r.d / 16), cMBZ)] (.stw (gdOf r) (fin16 r.d) (gOf r.s1) (BitVec.ofNat 6 r.s2))
    | 2 => checked [(decide (5 ≤ r.s2 / 8), cORDER), (nz (r.d / 16) || nz (r.s2 % 8), cMBZ)] (.ldwAcq (gdOf r) (fin16 r.d) (gOf r.s1) (scopeOf (r.s2 / 8)))
    | _ => checked [(decide (5 ≤ r.s2 / 8), cORDER), (nz (r.d / 16) || nz (r.s2 % 8), cMBZ)] (.stwRel (gdOf r) (fin16 r.d) (gOf r.s1) (scopeOf (r.s2 / 8)))
  | 14 => checked [(nz (r.s2 / 32) && decide (r.min = 3), cMBZ)]
      (.lds (gdOf r) (gOf r.d) (gOf r.s1) (bOf (r.s2 / 32)) (BitVec.ofNat 5 r.s2) (sizeOf r.min))
  | 15 => .ok (.sts (gdOf r) (BitVec.ofNat 6 r.d) (gOf r.s1) (gOf r.s2) (sizeOf r.min))
  | 16 =>
    match r.s2 / 32 % 2 with
    | 0 => checked [(decide (5 ≤ r.s2 / 4 % 8), cORDER),
        (nz (r.s2 % 2) || (nz (r.s2 / 2 % 2) && decide (r.min = 3)), cMBZ)]
        (.ldsAcq (gdOf r) (gOf r.d) (gOf r.s1) (scopeOf (r.s2 / 4 % 8)) (bOf (r.s2 / 2)) (sizeOf r.min))
    | _ => checked [(decide (5 ≤ r.s2 / 4 % 8), cORDER), (nz (r.s2 % 2) || nz (r.s2 / 2 % 2), cMBZ)]
        (.stsRel (gdOf r) (gOf r.d) (gOf r.s1) (scopeOf (r.s2 / 4 % 8)) (sizeOf r.min))
  | 17 =>
    match r.min with
    | 0 => checked [(nz (r.d / 16), cMBZ)] (.ldsw (gdOf r) (fin16 r.d) (gOf r.s1) (BitVec.ofNat 6 r.s2))
    | 1 => checked [(nz (r.d / 16), cMBZ)] (.stsw (gdOf r) (fin16 r.d) (gOf r.s1) (BitVec.ofNat 6 r.s2))
    | 2 => checked [(decide (5 ≤ r.s2 / 8), cORDER), (nz (r.d / 16) || nz (r.s2 % 8), cMBZ)] (.ldswAcq (gdOf r) (fin16 r.d) (gOf r.s1) (scopeOf (r.s2 / 8)))
    | _ => checked [(decide (5 ≤ r.s2 / 8), cORDER), (nz (r.d / 16) || nz (r.s2 % 8), cMBZ)] (.stswRel (gdOf r) (fin16 r.d) (gOf r.s1) (scopeOf (r.s2 / 8)))
  | 18 =>
    match r.min / 2 with
    | 0 => checked [(badOrder (r.d / 32) (4 * (r.d / 16 % 2) + r.s2 / 16), cORDER)]
        (.gat (gdOf r) (oscOf (r.d / 32) (4 * (r.d / 16 % 2) + r.s2 / 16)) (fin16 r.d) (gOf r.s1) (fin16 r.s2) (bOf r.min))
    | _ => checked [(badOrder (r.d / 32) (4 * (r.d / 16 % 2) + r.s2 / 16), cORDER)]
        (.scat (gdOf r) (oscOf (r.d / 32) (4 * (r.d / 16 % 2) + r.s2 / 16)) (fin16 r.d) (gOf r.s1) (fin16 r.s2) (bOf r.min))
  | 19 => checked [(nz r.min, cMIN), (nz r.d, cMBZ)] (.pf (gdOf r) (gOf r.s1) (gOf r.s2))
  | 20 =>
    match r.d / 16 % 2 with
    | 0 => checked [(nz r.min, cMIN), (nz (r.d / 32), cMBZ)] (.ldk (gdOf r) (fin16 r.d) (gOf r.s1) (BitVec.ofNat 6 r.s2))
    | _ => checked [(nz r.min, cMIN), (decide (5 ≤ r.s2 / 8), cORDER), (nz (r.d / 32) || nz (r.s2 % 8), cMBZ)]
        (.ldkAcq (gdOf r) (fin16 r.d) (gOf r.s1) (scopeOf (r.s2 / 8)))
  | 21 =>
    match r.min, r.d / 2 % 2 with
    | 0, 0 => checked [(badOrder 0 (r.d / 4 % 8), cORDER), (nz (r.d / 32), cMBZ)]
        (.xld (gdOf r) (fin2 r.d) (gOf r.s1) (BitVec.ofNat 6 r.s2))
    | 0, _ => checked [(badOrder 1 (r.d / 4 % 8), cORDER), (nz (r.d / 32) || nz r.s2, cMBZ)]
        (.xldAcq (gdOf r) (fin2 r.d) (gOf r.s1) (scopeOf (r.d / 4 % 8)))
    | 1, 0 => checked [(badOrder 0 (r.d / 4 % 8), cORDER), (nz (r.d / 32), cMBZ)]
        (.xst (gdOf r) (fin2 r.d) (gOf r.s1) (BitVec.ofNat 6 r.s2))
    | 1, _ => checked [(badOrder 1 (r.d / 4 % 8), cORDER), (nz (r.d / 32) || nz r.s2, cMBZ)]
        (.xstRel (gdOf r) (fin2 r.d) (gOf r.s1) (scopeOf (r.d / 4 % 8)))
    | _, _ => .bad cMIN
  | _ => .bad 3

/-- C-class majors 0x16 to 0x2B; 0x2C to 0x3F are reserved (R216). -/
def decodeC2 (r : Raw) : Dec :=
  match r.major with
  | 22 =>
    match r.min with
    | 0 => checked [(badOrder (r.s2 / 8 % 4) (r.s2 % 8), cORDER)] (.amoAdd (gdOf r) (gOf r.d) (gOf r.s1) (bOf (r.s2 / 32)) (aordOf (r.s2 / 8 % 4) (r.s2 % 8)))
    | 1 => checked [(badOrder (r.s2 / 8 % 4) (r.s2 % 8), cORDER)] (.amoAnd (gdOf r) (gOf r.d) (gOf r.s1) (bOf (r.s2 / 32)) (aordOf (r.s2 / 8 % 4) (r.s2 % 8)))
    | 2 => checked [(badOrder (r.s2 / 8 % 4) (r.s2 % 8), cORDER)] (.amoOr (gdOf r) (gOf r.d) (gOf r.s1) (bOf (r.s2 / 32)) (aordOf (r.s2 / 8 % 4) (r.s2 % 8)))
    | _ => checked [(badOrder (r.s2 / 8 % 4) (r.s2 % 8), cORDER)] (.amoXor (gdOf r) (gOf r.d) (gOf r.s1) (bOf (r.s2 / 32)) (aordOf (r.s2 / 8 % 4) (r.s2 % 8)))
  | 23 =>
    match r.min with
    | 0 => checked [(badOrder (r.s2 / 8 % 4) (r.s2 % 8), cORDER)] (.amoMinI (gdOf r) (gOf r.d) (gOf r.s1) (bOf (r.s2 / 32)) (aordOf (r.s2 / 8 % 4) (r.s2 % 8)))
    | 1 => checked [(badOrder (r.s2 / 8 % 4) (r.s2 % 8), cORDER)] (.amoMinN (gdOf r) (gOf r.d) (gOf r.s1) (bOf (r.s2 / 32)) (aordOf (r.s2 / 8 % 4) (r.s2 % 8)))
    | 2 => checked [(badOrder (r.s2 / 8 % 4) (r.s2 % 8), cORDER)] (.amoMaxI (gdOf r) (gOf r.d) (gOf r.s1) (bOf (r.s2 / 32)) (aordOf (r.s2 / 8 % 4) (r.s2 % 8)))
    | _ => checked [(badOrder (r.s2 / 8 % 4) (r.s2 % 8), cORDER)] (.amoMaxN (gdOf r) (gOf r.d) (gOf r.s1) (bOf (r.s2 / 32)) (aordOf (r.s2 / 8 % 4) (r.s2 % 8)))
  | 24 =>
    match r.min with
    | 0 => checked [(badOrder (r.s2 / 8 % 4) (r.s2 % 8), cORDER)] (.amoSwap (gdOf r) (gOf r.d) (gOf r.s1) (bOf (r.s2 / 32)) (aordOf (r.s2 / 8 % 4) (r.s2 % 8)))
    | 1 => checked [(nz (1 - r.s2 / 32), cVALUE), (badOrder (r.s2 / 8 % 4) (r.s2 % 8), cORDER)] (.amoPmin (gdOf r) (gOf r.d) (gOf r.s1) (aordOf (r.s2 / 8 % 4) (r.s2 % 8)))
    | 2 => checked [(badOrder (r.s2 / 8 % 4) (r.s2 % 8), cORDER), (nz (r.d % 2), cREG)]
        (.cas (gdOf r) (gOf r.d) (gOf r.s1) (bOf (r.s2 / 32)) (aordOf (r.s2 / 8 % 4) (r.s2 % 8)))
    | _ => checked [(nz (r.s2 / 32), cVALUE), (badOrder (r.s2 / 8 % 4) (r.s2 % 8), cORDER), (nz (r.d % 4), cREG)] (.cas2 (gdOf r) (gOf r.d) (gOf r.s1) (aordOf (r.s2 / 8 % 4) (r.s2 % 8)))
  | 25 =>
    match r.min with
    | 0 => checked [(badOrder (r.s2 / 8 % 4) (r.s2 % 8), cORDER), (nz (r.s2 / 32), cMBZ)] (.amofF32 (gdOf r) (gOf r.d) (gOf r.s1) (aordOf (r.s2 / 8 % 4) (r.s2 % 8)))
    | 1 => checked [(badOrder (r.s2 / 8 % 4) (r.s2 % 8), cORDER), (nz (r.s2 / 32), cMBZ)] (.amofF64 (gdOf r) (gOf r.d) (gOf r.s1) (aordOf (r.s2 / 8 % 4) (r.s2 % 8)))
    | 2 => checked [(badOrder (r.s2 / 8 % 4) (r.s2 % 8), cORDER), (nz (r.s2 / 32), cMBZ)] (.amoxF32 (gdOf r) (gOf r.d) (gOf r.s1) (aordOf (r.s2 / 8 % 4) (r.s2 % 8)))
    | _ => checked [(badOrder (r.s2 / 8 % 4) (r.s2 % 8), cORDER), (nz (r.s2 / 32), cMBZ)] (.amoxF64 (gdOf r) (gOf r.d) (gOf r.s1) (aordOf (r.s2 / 8 % 4) (r.s2 % 8)))
  | 26 =>
    match r.min with
    | 0 => checked [(decide (5 ≤ r.s2 % 8), cORDER), (nz r.d || nz r.s1 || nz (r.s2 / 8), cMBZ)] (.fenceAcq (gdOf r) (scopeOf (r.s2 % 8)))
    | 1 => checked [(decide (5 ≤ r.s2 % 8), cORDER), (nz r.d || nz r.s1 || nz (r.s2 / 8), cMBZ)] (.fenceRel (gdOf r) (scopeOf (r.s2 % 8)))
    | 2 => checked [(decide (5 ≤ r.s2 % 8), cORDER), (nz r.d || nz r.s1 || nz (r.s2 / 8), cMBZ)] (.fenceAr (gdOf r) (scopeOf (r.s2 % 8)))
    | _ => checked [(decide (5 ≤ r.s2 % 8), cORDER), (nz r.d || nz r.s1 || nz (r.s2 / 8), cMBZ)] (.fenceSc (gdOf r) (scopeOf (r.s2 % 8)))
  | 27 => checked [(nz r.min, cMIN), (badOrder (r.s2 / 16 % 2) (r.s2 % 8), cORDER), (nz (r.s2 / 8 % 2), cMBZ), (nz (r.d % 2), cREG)]
      (.wait (gdOf r) (gOf r.d) (gOf r.s1) (bOf (r.s2 / 32)) (oscOf (r.s2 / 16) (r.s2 % 8)))
  | 28 => checked [(badOrder (r.d / 32) (scQ r), cORDER), (nz (r.min % 2), cMBZ)]
      (.cpy (gdOf r) (oscOf (r.d / 32) (scQ r)) (fin32 r.d) (fin32 r.s1) (fin32 r.s2))
  | 29 => checked [(badOrder (r.d / 32) (scQ r), cORDER), (nz (r.min % 2), cMBZ), (nz (r.d % 2), cREG)]
      (.tld (gdOf r) (oscOf (r.d / 32) (scQ r)) (fin32 r.d) (fin32 r.s1) (fin32 r.s2))
  | 30 => checked [(badOrder (r.d / 32) (scQ r), cORDER), (nz (r.min % 2), cMBZ), (nz (r.d % 2), cREG)]
      (.tldm (gdOf r) (oscOf (r.d / 32) (scQ r)) (fin32 r.d) (fin32 r.s1) (fin32 r.s2))
  | 31 => checked [(badOrder (r.d / 32) (scQ r), cORDER), (nz (r.min % 2), cMBZ), (nz (r.d % 2), cREG)]
      (.chase (gdOf r) (oscOf (r.d / 32) (scQ r)) (fin32 r.d) (fin32 r.s1) (fin32 r.s2))
  | 32 =>
    match r.min with
    | 0 => checked [(nz r.d || nz r.s2, cMBZ)] (.multicastSub (gdOf r) (gOf r.s1))
    | 1 => checked [(nz r.d || nz r.s2, cMBZ)] (.multicastUnsub (gdOf r) (gOf r.s1))
    | _ => .bad cMIN
  | 33 =>
    match r.min with
    | 0 => checked [(nz (r.d / 16) || nz r.s2, cMBZ)] (.tbinit (gdOf r) (fin16 r.d) (gOf r.s1))
    | 1 => checked [(nz (r.d / 16) || nz r.s2, cMBZ)] (.tbexp (gdOf r) (fin16 r.d) (gOf r.s1))
    | 2 => checked [(nz (r.d / 16) || nz r.s1 || nz r.s2, cMBZ)] (.tbarr (gdOf r) (fin16 r.d))
    | _ => checked [(nz (r.d / 16) || nz r.s1 || nz r.s2, cMBZ)] (.tbwait (gdOf r) (fin16 r.d))
  | 34 =>
    match r.min with
    | 0 => checked [(nz (r.d / 8) || nz (r.s1 / 16) || nz r.s2, cMBZ)] (.tbtest (gdOf r) (fin8 r.d) (fin16 r.s1))
    | 1 => checked [(nz r.d || nz r.s1 || nz r.s2, cMBZ)] (.bbarr (gdOf r))
    | 2 => checked [(nz r.d || nz r.s1 || nz r.s2, cMBZ)] (.bbwait (gdOf r))
    | _ => .bad cMIN
  | 35 =>
    match r.min with
    | 0 => checked [(nz r.d || nz (r.s2 / 16), cMBZ)] (.send (gdOf r) (gOf r.s1) (fin16 r.s2))
    | 1 => checked [(nz (r.d / 16) || nz r.s1 || nz r.s2, cMBZ)] (.recv (gdOf r) (fin16 r.d))
    | 2 => checked [(nz (r.d / 16) || nz (r.s2 / 8), cMBZ)] (.recvt (gdOf r) (fin16 r.d) (gOf r.s1) (fin8 r.s2))
    | _ => .bad cMIN
  | 36 =>
    match r.min with
    | 0 => checked [(nz (r.d / 4) || nz r.s1 || nz r.s2, cMBZ)] (.mmz (gdOf r) (fin4 r.d))
    | 1 => checked [(nz (r.d / 4), cMBZ)] (.mmst (gdOf r) (fin4 r.d) (gOf r.s1) (gOf r.s2))
    | 2 => checked [(nz (r.d / 4), cMBZ)] (.mmld (gdOf r) (fin4 r.d) (gOf r.s1) (gOf r.s2))
    | _ => checked [(nz r.s2, cMBZ)] (.mmpoll (gdOf r) (gOf r.d) (gOf r.s1))
  | 37 => checked [(nz r.min, cMIN), (decide (r.s2 % 8 = 7), cVALUE), (nz (r.s2 / 8), cMBZ)] (.mmjob (gdOf r) (gOf r.d) (gOf r.s1) (fmtOf (r.s2 % 8)))
  | 38 => checked [(nz r.min, cMIN), (nz r.s1 || nz r.s2, cMBZ)] (.tokq (gdOf r) (gOf r.d))
  | 39 => .ok (.trap (gdOf r) (BitVec.ofNat 20 (low20 r)))
  | 40 =>
    match r.min with
    | 0 => checked [(nz r.d || nz r.s1 || nz r.s2, cMBZ)] (.sysret (gdOf r))
    | 1 => checked [(nz r.d || nz r.s1 || nz r.s2, cMBZ)] (.halt (gdOf r))
    | 2 => checked [(nz r.d || nz r.s2, cMBZ)] (.kill (gdOf r) (gOf r.s1))
    | _ => .bad cMIN
  | 41 =>
    match r.min with
    | 0 => checked [((srnRead (r.s1 * 64 + r.s2)).isNone, cSRN)] (.rdsr (gdOf r) (gOf r.d) (BitVec.ofNat 12 (r.s1 * 64 + r.s2)))
    | 1 => checked [((srnWrite (r.s1 * 64 + r.s2)).isNone, cSRN)] (.wrsr (gdOf r) (gOf r.d) (BitVec.ofNat 12 (r.s1 * 64 + r.s2)))
    | _ => .bad cMIN
  | 42 =>
    match r.min with
    | 0 => checked [(nz r.d || nz r.s1 || nz r.s2, cMBZ)] (.tlbinvAll (gdOf r))
    | 1 => checked [(nz r.d || nz r.s2, cMBZ)] (.tlbinvAsid (gdOf r) (gOf r.s1))
    | 2 => checked [(nz r.d, cMBZ)] (.tlbinvPage (gdOf r) (gOf r.s1) (gOf r.s2))
    | _ => .bad cMIN
  | 43 =>
    match r.min with
    | 0 => checked [(nz r.d, cMBZ)] (.cwb (gdOf r) (gOf r.s1) (gOf r.s2))
    | 1 => checked [(nz r.d, cMBZ)] (.cinv (gdOf r) (gOf r.s1) (gOf r.s2))
    | 2 => checked [(nz r.s2, cMBZ)] (.probe (gdOf r) (gOf r.d) (gOf r.s1))
    | _ => .bad cMIN
  | _ => .bad 3

/-- The instruction of a word, whatever its P bit (R202, R215, R216). -/
def decodeRaw (r : Raw) : Dec :=
  if r.k % 2 = 1 then (if r.major < 32 then decodeA1 r else decodeA2 r)
  else (if r.major < 22 then decodeC1 r else decodeC2 r)

def decodeWord (w : Nat) : Dec := decodeRaw (unpack w)

/-- The fields of an instruction's lone word, by the same tables; none for a step that no word encodes. -/
def encodeRaw : Instr → Option Raw
  | .add gd d a b t => some ⟨0, 1, 0, bCode gd.neg, gd.p.val, gCode d, gCode a, gCode b, intTyCode t⟩
  | .sub gd d a b t => some ⟨0, 1, 1, bCode gd.neg, gd.p.val, gCode d, gCode a, gCode b, intTyCode t⟩
  | .mul gd d a b t => some ⟨0, 1, 2, bCode gd.neg, gd.p.val, gCode d, gCode a, gCode b, intTyCode t⟩
  | .mulh gd d a b t => some ⟨0, 1, 3, bCode gd.neg, gd.p.val, gCode d, gCode a, gCode b, intTyCode t⟩
  | .mad gd d a b t => some ⟨0, 1, 4, bCode gd.neg, gd.p.val, gCode d, gCode a, gCode b, intTyCode t⟩
  | .div gd d a b t => some ⟨0, 1, 5, bCode gd.neg, gd.p.val, gCode d, gCode a, gCode b, intTyCode t⟩
  | .rem gd d a b t => some ⟨0, 1, 6, bCode gd.neg, gd.p.val, gCode d, gCode a, gCode b, intTyCode t⟩
  | .and gd d a b t => some ⟨0, 1, 7, bCode gd.neg, gd.p.val, gCode d, gCode a, gCode b, intTyCode t⟩
  | .or gd d a b t => some ⟨0, 1, 8, bCode gd.neg, gd.p.val, gCode d, gCode a, gCode b, intTyCode t⟩
  | .xor gd d a b t => some ⟨0, 1, 9, bCode gd.neg, gd.p.val, gCode d, gCode a, gCode b, intTyCode t⟩
  | .andn gd d a b t => some ⟨0, 1, 10, bCode gd.neg, gd.p.val, gCode d, gCode a, gCode b, intTyCode t⟩
  | .shl gd d a b t => some ⟨0, 1, 11, bCode gd.neg, gd.p.val, gCode d, gCode a, gCode b, intTyCode t⟩
  | .shr gd d a b t => some ⟨0, 1, 12, bCode gd.neg, gd.p.val, gCode d, gCode a, gCode b, intTyCode t⟩
  | .sar gd d a b t => some ⟨0, 1, 13, bCode gd.neg, gd.p.val, gCode d, gCode a, gCode b, intTyCode t⟩
  | .rot gd d a b t => some ⟨0, 1, 14, bCode gd.neg, gd.p.val, gCode d, gCode a, gCode b, intTyCode t⟩
  | .min gd d a b t => some ⟨0, 1, 15, bCode gd.neg, gd.p.val, gCode d, gCode a, gCode b, intTyCode t⟩
  | .max gd d a b t => some ⟨0, 1, 16, bCode gd.neg, gd.p.val, gCode d, gCode a, gCode b, intTyCode t⟩
  | .addi gd d a imm t => some ⟨0, 1, 17, bCode gd.neg, gd.p.val, gCode d, gCode a, imm.toNat, intTyCode t⟩
  | .andi gd d a imm t => some ⟨0, 1, 18, bCode gd.neg, gd.p.val, gCode d, gCode a, imm.toNat, intTyCode t⟩
  | .ori gd d a imm t => some ⟨0, 1, 19, bCode gd.neg, gd.p.val, gCode d, gCode a, imm.toNat, intTyCode t⟩
  | .xori gd d a imm t => some ⟨0, 1, 20, bCode gd.neg, gd.p.val, gCode d, gCode a, imm.toNat, intTyCode t⟩
  | .li gd d imm => some ⟨0, 1, 21, bCode gd.neg, gd.p.val, gCode d, imm.toNat / 256, imm.toNat / 4 % 64, imm.toNat % 4⟩
  | .lih gd d imm => some ⟨0, 1, 22, bCode gd.neg, gd.p.val, gCode d, imm.toNat / 256, imm.toNat / 4 % 64, imm.toNat % 4⟩
  | .abs gd d a t => some ⟨0, 1, 23, bCode gd.neg, gd.p.val, gCode d, gCode a, 0, intTyCode t⟩
  | .neg gd d a t => some ⟨0, 1, 23, bCode gd.neg, gd.p.val, gCode d, gCode a, 1, intTyCode t⟩
  | .clz gd d a t => some ⟨0, 1, 23, bCode gd.neg, gd.p.val, gCode d, gCode a, 2, intTyCode t⟩
  | .ctz gd d a t => some ⟨0, 1, 23, bCode gd.neg, gd.p.val, gCode d, gCode a, 3, intTyCode t⟩
  | .popc gd d a t => some ⟨0, 1, 23, bCode gd.neg, gd.p.val, gCode d, gCode a, 4, intTyCode t⟩
  | .brev gd d a t => some ⟨0, 1, 23, bCode gd.neg, gd.p.val, gCode d, gCode a, 5, intTyCode t⟩
  | .bfx gd d a b t => some ⟨0, 1, 24, bCode gd.neg, gd.p.val, gCode d, gCode a, gCode b, intTyCode t⟩
  | .bfi gd d a b t => some ⟨0, 1, 25, bCode gd.neg, gd.p.val, gCode d, gCode a, gCode b, intTyCode t⟩
  | .sel gd d a b q => some ⟨0, 1, 26 + q.val / 4, bCode gd.neg, gd.p.val, gCode d, gCode a, gCode b, q.val % 4⟩
  | .lea gd d a b sh => some ⟨0, 1, 28, bCode gd.neg, gd.p.val, gCode d, gCode a, gCode b, sh.val⟩
  | .cmp gd c p a b t => some ⟨0, 1, 29, bCode gd.neg, gd.p.val, 8 * iccCode c + p.val, gCode a, gCode b, intTyCode t⟩
  | .pand gd p a b => some ⟨0, 1, 30, bCode gd.neg, gd.p.val, p.val, a.val, b.val, 0⟩
  | .por gd p a b => some ⟨0, 1, 30, bCode gd.neg, gd.p.val, p.val, a.val, b.val, 1⟩
  | .pxor gd p a b => some ⟨0, 1, 30, bCode gd.neg, gd.p.val, p.val, a.val, b.val, 2⟩
  | .pnot gd p a => some ⟨0, 1, 30, bCode gd.neg, gd.p.val, p.val, a.val, 0, 3⟩
  | .voteSome gd p a => some ⟨0, 1, 31, bCode gd.neg, gd.p.val, p.val, a.val, 0, 0⟩
  | .voteEvery gd p a => some ⟨0, 1, 31, bCode gd.neg, gd.p.val, p.val, a.val, 0, 1⟩
  | .voteAgree gd p a => some ⟨0, 1, 31, bCode gd.neg, gd.p.val, p.val, a.val, 0, 2⟩
  | .ballot gd d a => some ⟨0, 1, 31, bCode gd.neg, gd.p.val, gCode d, a.val, 0, 3⟩
  | .shflPick gd d a b => some ⟨0, 1, 32, bCode gd.neg, gd.p.val, gCode d, gCode a, gCode b, 0⟩
  | .shflLo gd d a b => some ⟨0, 1, 32, bCode gd.neg, gd.p.val, gCode d, gCode a, gCode b, 1⟩
  | .shflHi gd d a b => some ⟨0, 1, 32, bCode gd.neg, gd.p.val, gCode d, gCode a, gCode b, 2⟩
  | .shflMir gd d a b => some ⟨0, 1, 32, bCode gd.neg, gd.p.val, gCode d, gCode a, gCode b, 3⟩
  | .bcast gd d a lane => some ⟨0, 1, 33, bCode gd.neg, gd.p.val, gCode d, gCode a, lane.val, 0⟩
  | .fadd gd r d a b f => some ⟨0, 1, 34, bCode gd.neg, gd.p.val, 32 * (rmCode r / 4) + d.val, 32 * (rmCode r / 2 % 2) + a.val, 32 * (rmCode r % 2) + b.val, fTyCode f⟩
  | .fsub gd r d a b f => some ⟨0, 1, 35, bCode gd.neg, gd.p.val, 32 * (rmCode r / 4) + d.val, 32 * (rmCode r / 2 % 2) + a.val, 32 * (rmCode r % 2) + b.val, fTyCode f⟩
  | .fmul gd r d a b f => some ⟨0, 1, 36, bCode gd.neg, gd.p.val, 32 * (rmCode r / 4) + d.val, 32 * (rmCode r / 2 % 2) + a.val, 32 * (rmCode r % 2) + b.val, fTyCode f⟩
  | .fma gd r d a b f => some ⟨0, 1, 37, bCode gd.neg, gd.p.val, 32 * (rmCode r / 4) + d.val, 32 * (rmCode r / 2 % 2) + a.val, 32 * (rmCode r % 2) + b.val, fTyCode f⟩
  | .fmin gd d a b f => some ⟨0, 1, 38, bCode gd.neg, gd.p.val, d.val, a.val, b.val, fTyCode f⟩
  | .fmax gd d a b f => some ⟨0, 1, 39, bCode gd.neg, gd.p.val, d.val, a.val, b.val, fTyCode f⟩
  | .fdiv gd r d a b f => some ⟨0, 1, 40, bCode gd.neg, gd.p.val, 32 * (rmCode r / 4) + d.val, 32 * (rmCode r / 2 % 2) + a.val, 32 * (rmCode r % 2) + b.val, fTyCode f⟩
  | .fsqrt gd r d a f => some ⟨0, 1, 41, bCode gd.neg, gd.p.val, 32 * (rmCode r / 4) + d.val, 32 * (rmCode r / 2 % 2) + a.val, 32 * (rmCode r % 2) + 0, fTyCode f⟩
  | .fabs gd d a f => some ⟨0, 1, 41, bCode gd.neg, gd.p.val, d.val, a.val, 1, fTyCode f⟩
  | .fneg gd d a f => some ⟨0, 1, 41, bCode gd.neg, gd.p.val, d.val, a.val, 2, fTyCode f⟩
  | .fcmp gd c p a b f => some ⟨0, 1, 42, bCode gd.neg, gd.p.val, 8 * ccCode c + p.val, a.val, b.val, fTyCode f⟩
  | .vadd gd r d a b e => some ⟨0, 1, 43, bCode gd.neg, gd.p.val, 16 * fTyCode e + d.val, 16 * (rmCode r % 4) + a.val, 16 * (rmCode r / 4) + b.val, 0⟩
  | .vsub gd r d a b e => some ⟨0, 1, 44, bCode gd.neg, gd.p.val, 16 * fTyCode e + d.val, 16 * (rmCode r % 4) + a.val, 16 * (rmCode r / 4) + b.val, 0⟩
  | .vmul gd r d a b e => some ⟨0, 1, 45, bCode gd.neg, gd.p.val, 16 * fTyCode e + d.val, 16 * (rmCode r % 4) + a.val, 16 * (rmCode r / 4) + b.val, 0⟩
  | .vfma gd r d a b e => some ⟨0, 1, 46, bCode gd.neg, gd.p.val, 16 * fTyCode e + d.val, 16 * (rmCode r % 4) + a.val, 16 * (rmCode r / 4) + b.val, 0⟩
  | .vmin gd d a b e => some ⟨0, 1, 47, bCode gd.neg, gd.p.val, 16 * fTyCode e + d.val, a.val, b.val, 0⟩
  | .vmax gd d a b e => some ⟨0, 1, 48, bCode gd.neg, gd.p.val, 16 * fTyCode e + d.val, a.val, b.val, 0⟩
  | .vabs gd d a e => some ⟨0, 1, 49, bCode gd.neg, gd.p.val, 16 * fTyCode e + d.val, a.val, 0, 0⟩
  | .vneg gd d a e => some ⟨0, 1, 49, bCode gd.neg, gd.p.val, 16 * fTyCode e + d.val, a.val, 0, 1⟩
  | .vrcp gd d a e => some ⟨0, 1, 50, bCode gd.neg, gd.p.val, 16 * fTyCode e + d.val, a.val, 0, 0⟩
  | .vrsq gd d a e => some ⟨0, 1, 50, bCode gd.neg, gd.p.val, 16 * fTyCode e + d.val, a.val, 1, 0⟩
  | .vsqrt gd d a e => some ⟨0, 1, 50, bCode gd.neg, gd.p.val, 16 * fTyCode e + d.val, a.val, 2, 0⟩
  | .vexp2 gd d a e => some ⟨0, 1, 50, bCode gd.neg, gd.p.val, 16 * fTyCode e + d.val, a.val, 3, 0⟩
  | .vlog2 gd d a e => some ⟨0, 1, 50, bCode gd.neg, gd.p.val, 16 * fTyCode e + d.val, a.val, 4, 0⟩
  | .vsin gd d a e => some ⟨0, 1, 50, bCode gd.neg, gd.p.val, 16 * fTyCode e + d.val, a.val, 5, 0⟩
  | .vcos gd d a e => some ⟨0, 1, 50, bCode gd.neg, gd.p.val, 16 * fTyCode e + d.val, a.val, 6, 0⟩
  | .vcmp gd c d a b e => some ⟨0, 1, 51, bCode gd.neg, gd.p.val, 16 * fTyCode e + d.val, a.val, 16 * (ccCode c / 4) + b.val, ccCode c % 4⟩
  | .vsel gd d a b => some ⟨0, 1, 52, bCode gd.neg, gd.p.val, d.val, a.val, b.val, 0⟩
  | .vsum gd d a e => some ⟨0, 1, 53, bCode gd.neg, gd.p.val, gCode d, a.val, 0, fTyCode e⟩
  | .vdot gd d a b e => some ⟨0, 1, 54, bCode gd.neg, gd.p.val, gCode d, a.val, b.val, fTyCode e⟩
  | .vperm gd d a b sz => some ⟨0, 1, 55, bCode gd.neg, gd.p.val, d.val, a.val, b.val, permCode sz⟩
  | .cvtScalar gd d a dt st r => some ⟨0, 1, 56, bCode gd.neg, gd.p.val, (32768 * d.val + 1024 * a.val + 64 * tyCodeNum dt + 4 * tyCodeNum st + rm2Code r) / 16384, (32768 * d.val + 1024 * a.val + 64 * tyCodeNum dt + 4 * tyCodeNum st + rm2Code r) / 256 % 64, (32768 * d.val + 1024 * a.val + 64 * tyCodeNum dt + 4 * tyCodeNum st + rm2Code r) / 4 % 64, (32768 * d.val + 1024 * a.val + 64 * tyCodeNum dt + 4 * tyCodeNum st + rm2Code r) % 4⟩
  | .cvtWide gd d a dt st r => some ⟨0, 1, 57, bCode gd.neg, gd.p.val, (65536 * d.val + 4096 * a.val + 256 * tyCodeNum dt + 16 * tyCodeNum st + 2 * rmCode r) / 16384, (65536 * d.val + 4096 * a.val + 256 * tyCodeNum dt + 16 * tyCodeNum st + 2 * rmCode r) / 256 % 64, (65536 * d.val + 4096 * a.val + 256 * tyCodeNum dt + 16 * tyCodeNum st + 2 * rmCode r) / 4 % 64, (65536 * d.val + 4096 * a.val + 256 * tyCodeNum dt + 16 * tyCodeNum st + 2 * rmCode r) % 4⟩
  | .pack gd d a b pair r ks => some ⟨0, 1, 58, bCode gd.neg, gd.p.val, (65536 * d.val + 4096 * a.val + 256 * b.val + 16 * pair.val + 2 * rmCode r + bCode ks) / 16384, (65536 * d.val + 4096 * a.val + 256 * b.val + 16 * pair.val + 2 * rmCode r + bCode ks) / 256 % 64, (65536 * d.val + 4096 * a.val + 256 * b.val + 16 * pair.val + 2 * rmCode r + bCode ks) / 4 % 64, (65536 * d.val + 4096 * a.val + 256 * b.val + 16 * pair.val + 2 * rmCode r + bCode ks) % 4⟩
  | .unpk gd d a hi pair ks => some ⟨0, 1, 59, bCode gd.neg, gd.p.val, (65536 * d.val + 4096 * a.val + 256 * bCode hi + 16 * pair.val + bCode ks) / 16384, (65536 * d.val + 4096 * a.val + 256 * bCode hi + 16 * pair.val + bCode ks) / 256 % 64, (65536 * d.val + 4096 * a.val + 256 * bCode hi + 16 * pair.val + bCode ks) / 4 % 64, (65536 * d.val + 4096 * a.val + 256 * bCode hi + 16 * pair.val + bCode ks) % 4⟩
  | .scl gd d a b pair r ks => some ⟨0, 1, 60, bCode gd.neg, gd.p.val, (65536 * d.val + 4096 * a.val + 256 * b.val + 16 * pair.val + 2 * rmCode r + bCode ks) / 16384, (65536 * d.val + 4096 * a.val + 256 * b.val + 16 * pair.val + 2 * rmCode r + bCode ks) / 256 % 64, (65536 * d.val + 4096 * a.val + 256 * b.val + 16 * pair.val + 2 * rmCode r + bCode ks) / 4 % 64, (65536 * d.val + 4096 * a.val + 256 * b.val + 16 * pair.val + 2 * rmCode r + bCode ks) % 4⟩
  | .xadd gd e src => some ⟨0, 1, 61, bCode gd.neg, gd.p.val, 16 * xsrcSel src + e.val, xsrcS1 src, 0, 0⟩
  | .xget gd d e f64 r => some ⟨0, 1, 61, bCode gd.neg, gd.p.val, gCode d, e.val, 16 * bCode f64 + rmCode r, 1⟩
  | .xclr gd e => some ⟨0, 1, 61, bCode gd.neg, gd.p.val, e.val, 0, 0, 2⟩
  | .xmrg gd e src => some ⟨0, 1, 61, bCode gd.neg, gd.p.val, e.val, src.val, 0, 3⟩
  | .mma gd rel f c a b => some ⟨0, 1, 62, bCode gd.neg, gd.p.val, 32 * oscOn rel + 4 * fmtCode f + c.val, 32 * (oscCode rel / 4) + a.val, 32 * (oscCode rel / 2 % 2) + b.val, 2 * (oscCode rel % 2)⟩
  | .qrd gd d x fwd => some ⟨0, 1, 63, bCode gd.neg, gd.p.val, gCode d, qCode x, match fwd with | none => 0 | some y => 32 + qCode y, 0⟩
  | .qwr gd y a => some ⟨0, 1, 63, bCode gd.neg, gd.p.val, qCode y, gCode a, 0, 1⟩
  | .krd gd d k => some ⟨0, 1, 63, bCode gd.neg, gd.p.val, gCode d, k.val, 0, 2⟩
  | .kwr gd k a => some ⟨0, 1, 63, bCode gd.neg, gd.p.val, k.val, gCode a, 0, 3⟩
  | .br gd disp => some ⟨0, 0, 1, bCode gd.neg, gd.p.val, disp.toNat / 16384, disp.toNat / 256 % 64, disp.toNat / 4 % 64, disp.toNat % 4⟩
  | .call gd disp => some ⟨0, 0, 2, bCode gd.neg, gd.p.val, disp.toNat / 16384, disp.toNat / 256 % 64, disp.toNat / 4 % 64, disp.toNat % 4⟩
  | .brx gd a => some ⟨0, 0, 3, bCode gd.neg, gd.p.val, 0, gCode a, 0, 0⟩
  | .callx gd a => some ⟨0, 0, 3, bCode gd.neg, gd.p.val, 0, gCode a, 0, 1⟩
  | .ret gd a => some ⟨0, 0, 3, bCode gd.neg, gd.p.val, 0, gCode a, 0, 2⟩
  | .dbnz gd d disp => some ⟨0, 0, 4, bCode gd.neg, gd.p.val, gCode d, disp.toNat / 256, disp.toNat / 4 % 64, disp.toNat % 4⟩
  | .jset gd j => some ⟨0, 0, 5, bCode gd.neg, gd.p.val, j.val, 0, 0, 0⟩
  | .jadd gd j => some ⟨0, 0, 5, bCode gd.neg, gd.p.val, j.val, 0, 0, 1⟩
  | .jquit gd j => some ⟨0, 0, 5, bCode gd.neg, gd.p.val, j.val, 0, 0, 2⟩
  | .jwait gd j => some ⟨0, 0, 5, bCode gd.neg, gd.p.val, j.val, 0, 0, 3⟩
  | .jtest gd p j => some ⟨0, 0, 6, bCode gd.neg, gd.p.val, p.val, j.val, 0, 0⟩
  | .jread gd d j => some ⟨0, 0, 6, bCode gd.neg, gd.p.val, gCode d, j.val, 0, 1⟩
  | .jwrite gd j a => some ⟨0, 0, 6, bCode gd.neg, gd.p.val, j.val, gCode a, 0, 2⟩
  | .fuse gd glog => some ⟨0, 0, 7, bCode gd.neg, gd.p.val, 0, 0, glog.val, 0⟩
  | .split gd => some ⟨0, 0, 7, bCode gd.neg, gd.p.val, 0, 0, 0, 1⟩
  | .detach gd => some ⟨0, 0, 7, bCode gd.neg, gd.p.val, 0, 0, 0, 2⟩
  | .stop gd => some ⟨0, 0, 7, bCode gd.neg, gd.p.val, 0, 0, 0, 3⟩
  | .spawn gd a w => some ⟨0, 0, 8, bCode gd.neg, gd.p.val, 0, gCode a, w.val, 0⟩
  | .spawnf gd a => some ⟨0, 0, 8, bCode gd.neg, gd.p.val, 0, gCode a, 0, 1⟩
  | .yield gd => some ⟨0, 0, 8, bCode gd.neg, gd.p.val, 0, 0, 0, 2⟩
  | .grid gd a => some ⟨0, 0, 8, bCode gd.neg, gd.p.val, 0, gCode a, 0, 3⟩
  | .ld gd d a sgn off z => some ⟨0, 0, 9, bCode gd.neg, gd.p.val, gCode d, gCode a, 32 * bCode sgn + off.toNat, sizeCode z⟩
  | .ldAcq gd d a sc sgn z => some ⟨0, 0, 10, bCode gd.neg, gd.p.val, gCode d, gCode a, 8 * scopeCode sc + 4 + bCode sgn, sizeCode z⟩
  | .ldDev gd d a acq sgn z => some ⟨0, 0, 10, bCode gd.neg, gd.p.val, gCode d, gCode a, 8 * oscCode acq + 4 * oscOn acq + 2 + bCode sgn, sizeCode z⟩
  | .st gd off a b z => some ⟨0, 0, 11, bCode gd.neg, gd.p.val, off.toNat, gCode a, gCode b, sizeCode z⟩
  | .stRel gd sc a b z => some ⟨0, 0, 12, bCode gd.neg, gd.p.val, 8 * scopeCode sc + 4, gCode a, gCode b, sizeCode z⟩
  | .stDev gd rel a b z => some ⟨0, 0, 12, bCode gd.neg, gd.p.val, 8 * oscCode rel + 4 * oscOn rel + 2, gCode a, gCode b, sizeCode z⟩
  | .ldw gd w a off => some ⟨0, 0, 13, bCode gd.neg, gd.p.val, w.val, gCode a, off.toNat, 0⟩
  | .stw gd w a off => some ⟨0, 0, 13, bCode gd.neg, gd.p.val, w.val, gCode a, off.toNat, 1⟩
  | .ldwAcq gd w a sc => some ⟨0, 0, 13, bCode gd.neg, gd.p.val, w.val, gCode a, 8 * scopeCode sc, 2⟩
  | .stwRel gd w a sc => some ⟨0, 0, 13, bCode gd.neg, gd.p.val, w.val, gCode a, 8 * scopeCode sc, 3⟩
  | .lds gd d a sgn off z => some ⟨0, 0, 14, bCode gd.neg, gd.p.val, gCode d, gCode a, 32 * bCode sgn + off.toNat, sizeCode z⟩
  | .sts gd off a b z => some ⟨0, 0, 15, bCode gd.neg, gd.p.val, off.toNat, gCode a, gCode b, sizeCode z⟩
  | .ldsAcq gd d a sc sgn z => some ⟨0, 0, 16, bCode gd.neg, gd.p.val, gCode d, gCode a, 4 * scopeCode sc + 2 * bCode sgn, sizeCode z⟩
  | .stsRel gd d a sc z => some ⟨0, 0, 16, bCode gd.neg, gd.p.val, gCode d, gCode a, 32 + 4 * scopeCode sc, sizeCode z⟩
  | .ldsw gd w a off => some ⟨0, 0, 17, bCode gd.neg, gd.p.val, w.val, gCode a, off.toNat, 0⟩
  | .stsw gd w a off => some ⟨0, 0, 17, bCode gd.neg, gd.p.val, w.val, gCode a, off.toNat, 1⟩
  | .ldswAcq gd w a sc => some ⟨0, 0, 17, bCode gd.neg, gd.p.val, w.val, gCode a, 8 * scopeCode sc, 2⟩
  | .stswRel gd w a sc => some ⟨0, 0, 17, bCode gd.neg, gd.p.val, w.val, gCode a, 8 * scopeCode sc, 3⟩
  | .gat gd ord w a x e8 => some ⟨0, 0, 18, bCode gd.neg, gd.p.val, 32 * oscOn ord + 16 * (oscCode ord / 4) + w.val, gCode a, 16 * (oscCode ord % 4) + x.val, 0 + bCode e8⟩
  | .scat gd ord w a x e8 => some ⟨0, 0, 18, bCode gd.neg, gd.p.val, 32 * oscOn ord + 16 * (oscCode ord / 4) + w.val, gCode a, 16 * (oscCode ord % 4) + x.val, 2 + bCode e8⟩
  | .pf gd a b => some ⟨0, 0, 19, bCode gd.neg, gd.p.val, 0, gCode a, gCode b, 0⟩
  | .ldk gd k a off => some ⟨0, 0, 20, bCode gd.neg, gd.p.val, k.val, gCode a, off.toNat, 0⟩
  | .ldkAcq gd k a sc => some ⟨0, 0, 20, bCode gd.neg, gd.p.val, 16 + k.val, gCode a, 8 * scopeCode sc, 0⟩
  | .xld gd e a off => some ⟨0, 0, 21, bCode gd.neg, gd.p.val, e.val, gCode a, off.toNat, 0⟩
  | .xldAcq gd e a sc => some ⟨0, 0, 21, bCode gd.neg, gd.p.val, 4 * scopeCode sc + 2 + e.val, gCode a, 0, 0⟩
  | .xst gd e a off => some ⟨0, 0, 21, bCode gd.neg, gd.p.val, e.val, gCode a, off.toNat, 1⟩
  | .xstRel gd e a sc => some ⟨0, 0, 21, bCode gd.neg, gd.p.val, 4 * scopeCode sc + 2 + e.val, gCode a, 0, 1⟩
  | .amoAdd gd d a w64 o => some ⟨0, 0, 22, bCode gd.neg, gd.p.val, gCode d, gCode a, 32 * bCode w64 + 8 * aordCode o + aordSc o, 0⟩
  | .amoAnd gd d a w64 o => some ⟨0, 0, 22, bCode gd.neg, gd.p.val, gCode d, gCode a, 32 * bCode w64 + 8 * aordCode o + aordSc o, 1⟩
  | .amoOr gd d a w64 o => some ⟨0, 0, 22, bCode gd.neg, gd.p.val, gCode d, gCode a, 32 * bCode w64 + 8 * aordCode o + aordSc o, 2⟩
  | .amoXor gd d a w64 o => some ⟨0, 0, 22, bCode gd.neg, gd.p.val, gCode d, gCode a, 32 * bCode w64 + 8 * aordCode o + aordSc o, 3⟩
  | .amoMinI gd d a w64 o => some ⟨0, 0, 23, bCode gd.neg, gd.p.val, gCode d, gCode a, 32 * bCode w64 + 8 * aordCode o + aordSc o, 0⟩
  | .amoMinN gd d a w64 o => some ⟨0, 0, 23, bCode gd.neg, gd.p.val, gCode d, gCode a, 32 * bCode w64 + 8 * aordCode o + aordSc o, 1⟩
  | .amoMaxI gd d a w64 o => some ⟨0, 0, 23, bCode gd.neg, gd.p.val, gCode d, gCode a, 32 * bCode w64 + 8 * aordCode o + aordSc o, 2⟩
  | .amoMaxN gd d a w64 o => some ⟨0, 0, 23, bCode gd.neg, gd.p.val, gCode d, gCode a, 32 * bCode w64 + 8 * aordCode o + aordSc o, 3⟩
  | .amoSwap gd d a w64 o => some ⟨0, 0, 24, bCode gd.neg, gd.p.val, gCode d, gCode a, 32 * bCode w64 + 8 * aordCode o + aordSc o, 0⟩
  | .amoPmin gd d a o => some ⟨0, 0, 24, bCode gd.neg, gd.p.val, gCode d, gCode a, 32 + 8 * aordCode o + aordSc o, 1⟩
  | .cas gd d a w64 o => some ⟨0, 0, 24, bCode gd.neg, gd.p.val, gCode d, gCode a, 32 * bCode w64 + 8 * aordCode o + aordSc o, 2⟩
  | .cas2 gd d a o => some ⟨0, 0, 24, bCode gd.neg, gd.p.val, gCode d, gCode a, 8 * aordCode o + aordSc o, 3⟩
  | .amofF32 gd d a o => some ⟨0, 0, 25, bCode gd.neg, gd.p.val, gCode d, gCode a, 8 * aordCode o + aordSc o, 0⟩
  | .amofF64 gd d a o => some ⟨0, 0, 25, bCode gd.neg, gd.p.val, gCode d, gCode a, 8 * aordCode o + aordSc o, 1⟩
  | .amoxF32 gd d a o => some ⟨0, 0, 25, bCode gd.neg, gd.p.val, gCode d, gCode a, 8 * aordCode o + aordSc o, 2⟩
  | .amoxF64 gd d a o => some ⟨0, 0, 25, bCode gd.neg, gd.p.val, gCode d, gCode a, 8 * aordCode o + aordSc o, 3⟩
  | .fenceAcq gd sc => some ⟨0, 0, 26, bCode gd.neg, gd.p.val, 0, 0, scopeCode sc, 0⟩
  | .fenceRel gd sc => some ⟨0, 0, 26, bCode gd.neg, gd.p.val, 0, 0, scopeCode sc, 1⟩
  | .fenceAr gd sc => some ⟨0, 0, 26, bCode gd.neg, gd.p.val, 0, 0, scopeCode sc, 2⟩
  | .fenceSc gd sc => some ⟨0, 0, 26, bCode gd.neg, gd.p.val, 0, 0, scopeCode sc, 3⟩
  | .wait gd d a w64 acq => some ⟨0, 0, 27, bCode gd.neg, gd.p.val, gCode d, gCode a, 32 * bCode w64 + 16 * oscOn acq + oscCode acq, 0⟩
  | .cpy gd rel d a b => some ⟨0, 0, 28, bCode gd.neg, gd.p.val, 32 * oscOn rel + d.val, 32 * (oscCode rel / 4) + a.val, 32 * (oscCode rel / 2 % 2) + b.val, 2 * (oscCode rel % 2)⟩
  | .tld gd rel d a b => some ⟨0, 0, 29, bCode gd.neg, gd.p.val, 32 * oscOn rel + d.val, 32 * (oscCode rel / 4) + a.val, 32 * (oscCode rel / 2 % 2) + b.val, 2 * (oscCode rel % 2)⟩
  | .tldm gd rel d a b => some ⟨0, 0, 30, bCode gd.neg, gd.p.val, 32 * oscOn rel + d.val, 32 * (oscCode rel / 4) + a.val, 32 * (oscCode rel / 2 % 2) + b.val, 2 * (oscCode rel % 2)⟩
  | .chase gd rel d a b => some ⟨0, 0, 31, bCode gd.neg, gd.p.val, 32 * oscOn rel + d.val, 32 * (oscCode rel / 4) + a.val, 32 * (oscCode rel / 2 % 2) + b.val, 2 * (oscCode rel % 2)⟩
  | .multicastSub gd a => some ⟨0, 0, 32, bCode gd.neg, gd.p.val, 0, gCode a, 0, 0⟩
  | .multicastUnsub gd a => some ⟨0, 0, 32, bCode gd.neg, gd.p.val, 0, gCode a, 0, 1⟩
  | .tbinit gd b a => some ⟨0, 0, 33, bCode gd.neg, gd.p.val, b.val, gCode a, 0, 0⟩
  | .tbexp gd b a => some ⟨0, 0, 33, bCode gd.neg, gd.p.val, b.val, gCode a, 0, 1⟩
  | .tbarr gd b => some ⟨0, 0, 33, bCode gd.neg, gd.p.val, b.val, 0, 0, 2⟩
  | .tbwait gd b => some ⟨0, 0, 33, bCode gd.neg, gd.p.val, b.val, 0, 0, 3⟩
  | .tbtest gd p b => some ⟨0, 0, 34, bCode gd.neg, gd.p.val, p.val, b.val, 0, 0⟩
  | .bbarr gd => some ⟨0, 0, 34, bCode gd.neg, gd.p.val, 0, 0, 0, 1⟩
  | .bbwait gd => some ⟨0, 0, 34, bCode gd.neg, gd.p.val, 0, 0, 0, 2⟩
  | .send gd a w => some ⟨0, 0, 35, bCode gd.neg, gd.p.val, 0, gCode a, w.val, 0⟩
  | .recv gd w => some ⟨0, 0, 35, bCode gd.neg, gd.p.val, w.val, 0, 0, 1⟩
  | .recvt gd w a p => some ⟨0, 0, 35, bCode gd.neg, gd.p.val, w.val, gCode a, p.val, 2⟩
  | .mmz gd c => some ⟨0, 0, 36, bCode gd.neg, gd.p.val, c.val, 0, 0, 0⟩
  | .mmst gd c a b => some ⟨0, 0, 36, bCode gd.neg, gd.p.val, c.val, gCode a, gCode b, 1⟩
  | .mmld gd c a b => some ⟨0, 0, 36, bCode gd.neg, gd.p.val, c.val, gCode a, gCode b, 2⟩
  | .mmpoll gd d a => some ⟨0, 0, 36, bCode gd.neg, gd.p.val, gCode d, gCode a, 0, 3⟩
  | .mmjob gd d a f => some ⟨0, 0, 37, bCode gd.neg, gd.p.val, gCode d, gCode a, fmtCode f, 0⟩
  | .tokq gd d => some ⟨0, 0, 38, bCode gd.neg, gd.p.val, gCode d, 0, 0, 0⟩
  | .trap gd code => some ⟨0, 0, 39, bCode gd.neg, gd.p.val, code.toNat / 16384, code.toNat / 256 % 64, code.toNat / 4 % 64, code.toNat % 4⟩
  | .sysret gd => some ⟨0, 0, 40, bCode gd.neg, gd.p.val, 0, 0, 0, 0⟩
  | .halt gd => some ⟨0, 0, 40, bCode gd.neg, gd.p.val, 0, 0, 0, 1⟩
  | .kill gd a => some ⟨0, 0, 40, bCode gd.neg, gd.p.val, 0, gCode a, 0, 2⟩
  | .rdsr gd d srn => some ⟨0, 0, 41, bCode gd.neg, gd.p.val, gCode d, srn.toNat / 64, srn.toNat % 64, 0⟩
  | .wrsr gd d srn => some ⟨0, 0, 41, bCode gd.neg, gd.p.val, gCode d, srn.toNat / 64, srn.toNat % 64, 1⟩
  | .tlbinvAll gd => some ⟨0, 0, 42, bCode gd.neg, gd.p.val, 0, 0, 0, 0⟩
  | .tlbinvAsid gd a => some ⟨0, 0, 42, bCode gd.neg, gd.p.val, 0, gCode a, 0, 1⟩
  | .tlbinvPage gd a b => some ⟨0, 0, 42, bCode gd.neg, gd.p.val, 0, gCode a, gCode b, 2⟩
  | .cwb gd a b => some ⟨0, 0, 43, bCode gd.neg, gd.p.val, 0, gCode a, gCode b, 0⟩
  | .cinv gd a b => some ⟨0, 0, 43, bCode gd.neg, gd.p.val, 0, gCode a, gCode b, 1⟩
  | .probe gd d a => some ⟨0, 0, 43, bCode gd.neg, gd.p.val, gCode d, gCode a, 0, 2⟩
  | .syncOpComplete _ => none
  | .scoreboardResultLands _ => none
  | .storePerformed _ => none
  | .pageWalkComplete _ => none
  | .bankingSwitchComplete _ => none
  | .spawnTimeoutRelease _ _ => none
  | .gatheredGangPlace _ => none
  | .pathQuantumExpiry _ => none
  | .orphanFault _ => none
  | .sqnote _ => none
  | .monitorFire _ => none
  | .waitTimeout _ => none
  | .recvtTimeout _ => none
  | .deliveryArrival _ => none
  | .transferSourceRead _ => none
  | .transferNotice _ => none
  | .chaseStep _ => none
  | .chaseStepLimit _ => none
  | .multicastJoinArrival _ => none
  | .blockBarrierSweep _ => none
  | .messageArrival _ => none
  | .messageResend _ => none
  | .matrixOpComplete _ => none
  | .matrixOpStart _ => none
  | .tokenRequestPaid _ => none
  | .ringStationStep _ _ => none
  | .ballastRevolution _ => none
  | .dispatchPlace => none
  | .quantumExpiry _ => none
  | .strandSave _ => none
  | .evictionComplete _ => none
  | .gridComplete _ => none
  | .killComplete _ => none
  | .stallDetect _ => none
  | .blockstallDetect _ => none
  | .starveDetect _ => none
  | .launch _ _ _ _ => none
  | .hostMemoryAccess _ _ _ _ _ => none
  | .packageReset => none
  | .rstctlGo _ => none
  | .bootStageComplete _ => none
  | .attctlGo _ => none
  | .attestationReportDone => none
  | .migcmdGo _ => none
  | .migrationComplete => none
  | .railselWrite _ _ => none
  | .railSwitchComplete _ => none
  | .slotmaskWrite _ _ => none
  | .cfenceWrite _ _ => none
  | .ringcfgWrite _ _ => none
  | .fabcfgWrite _ => none
  | .registerWrite _ _ => none
  | .flitReceive _ _ _ => none
  | .e2eRetry _ => none
  | .laneErase _ _ => none
  | .portTrainingDone _ => none
  | .hopRetry _ _ _ _ _ => none
  | .hostLinkDown => none
  | .hostLinkUp => none
  | .thermalWarn _ _ => none
  | .thermalTrip _ => none
  | .railFault _ _ => none
  | .railHoldEnd _ _ => none
  | .hbmSupplyFault _ => none
  | .securityAlarm _ _ => none
  | .haltSnapshotComplete _ => none
  | .hostCxlCacheRequest _ _ _ => none
  | .switchPlaneLoss _ => none
  | .railReturnsToTolerance _ _ => none

/-- The lone word of an instruction (R198). -/
def encode (i : Instr) : Option Nat := (encodeRaw i).map packWord

/-- A register as an instruction names it, without its lane (R204). -/
inductive OReg where
  | g (n : Nat)
  | h (n : Nat)
  | w (n : Nat)
  | p (n : Nat)
  | k (n : Nat)
  | e (n : Nat)
  /-- accumulator tile n, one of a0 to a3 -/
  | tile (n : Nat)
deriving DecidableEq, Repr

/-- The register of a G operand. -/
def gr (r : GReg) : OReg := match r.bank with | .g => .g r.num.val | .h => .h r.num.val
/-- The i-th register after a G operand, in its bank (R205). -/
def gNext (r : GReg) (i : Nat) : GReg := ⟨r.bank, fin32 (r.num.val + i)⟩
/-- The seed register, read by hashed-stochastic rounding (R208, R265). -/
def seed (r : Rm) : List OReg := match r with | .rs => [.k 15] | _ => []
/-- An operand of format Z (R211). -/
def zr (ks : Bool) (n : Fin 16) : OReg := match ks with | true => .w n.val | false => .g n.val
def xsrcReg : XSrc → OReg
  | .f32 a => gr a
  | .f64 a => gr a
  | .f32x8 a => .w a.val
  | .f64x4 a => .w a.val

/-- The registers a form writes. D + 1 of `cas` and D + 1 to D + 3 of `cas2` are counted, as R454 states under DUPDEST. -/
def dests : Instr → List OReg
  | .add _ d _ _ _ => [gr d]
  | .sub _ d _ _ _ => [gr d]
  | .mul _ d _ _ _ => [gr d]
  | .mulh _ d _ _ _ => [gr d]
  | .mad _ d _ _ _ => [gr d]
  | .div _ d _ _ _ => [gr d]
  | .rem _ d _ _ _ => [gr d]
  | .and _ d _ _ _ => [gr d]
  | .or _ d _ _ _ => [gr d]
  | .xor _ d _ _ _ => [gr d]
  | .andn _ d _ _ _ => [gr d]
  | .shl _ d _ _ _ => [gr d]
  | .shr _ d _ _ _ => [gr d]
  | .sar _ d _ _ _ => [gr d]
  | .rot _ d _ _ _ => [gr d]
  | .min _ d _ _ _ => [gr d]
  | .max _ d _ _ _ => [gr d]
  | .addi _ d _ _ _ => [gr d]
  | .andi _ d _ _ _ => [gr d]
  | .ori _ d _ _ _ => [gr d]
  | .xori _ d _ _ _ => [gr d]
  | .li _ d _ => [gr d]
  | .lih _ d _ => [gr d]
  | .abs _ d _ _ => [gr d]
  | .neg _ d _ _ => [gr d]
  | .clz _ d _ _ => [gr d]
  | .ctz _ d _ _ => [gr d]
  | .popc _ d _ _ => [gr d]
  | .brev _ d _ _ => [gr d]
  | .bfx _ d _ _ _ => [gr d]
  | .bfi _ d _ _ _ => [gr d]
  | .sel _ d _ _ _ => [gr d]
  | .lea _ d _ _ _ => [gr d]
  | .cmp _ _ p _ _ _ => [.p p.val]
  | .pand _ p _ _ => [.p p.val]
  | .por _ p _ _ => [.p p.val]
  | .pxor _ p _ _ => [.p p.val]
  | .pnot _ p _ => [.p p.val]
  | .voteSome _ p _ => [.p p.val]
  | .voteEvery _ p _ => [.p p.val]
  | .voteAgree _ p _ => [.p p.val]
  | .ballot _ d _ => [gr d]
  | .shflPick _ d _ _ => [gr d]
  | .shflLo _ d _ _ => [gr d]
  | .shflHi _ d _ _ => [gr d]
  | .shflMir _ d _ _ => [gr d]
  | .bcast _ d _ _ => [gr d]
  | .fadd _ _ d _ _ _ => [.g d.val]
  | .fsub _ _ d _ _ _ => [.g d.val]
  | .fmul _ _ d _ _ _ => [.g d.val]
  | .fma _ _ d _ _ _ => [.g d.val]
  | .fmin _ d _ _ _ => [.g d.val]
  | .fmax _ d _ _ _ => [.g d.val]
  | .fdiv _ _ d _ _ _ => [.g d.val]
  | .fsqrt _ _ d _ _ => [.g d.val]
  | .fabs _ d _ _ => [.g d.val]
  | .fneg _ d _ _ => [.g d.val]
  | .fcmp _ _ p _ _ _ => [.p p.val]
  | .vadd _ _ d _ _ _ => [.w d.val]
  | .vsub _ _ d _ _ _ => [.w d.val]
  | .vmul _ _ d _ _ _ => [.w d.val]
  | .vfma _ _ d _ _ _ => [.w d.val]
  | .vmin _ d _ _ _ => [.w d.val]
  | .vmax _ d _ _ _ => [.w d.val]
  | .vabs _ d _ _ => [.w d.val]
  | .vneg _ d _ _ => [.w d.val]
  | .vrcp _ d _ _ => [.w d.val]
  | .vrsq _ d _ _ => [.w d.val]
  | .vsqrt _ d _ _ => [.w d.val]
  | .vexp2 _ d _ _ => [.w d.val]
  | .vlog2 _ d _ _ => [.w d.val]
  | .vsin _ d _ _ => [.w d.val]
  | .vcos _ d _ _ => [.w d.val]
  | .vcmp _ _ d _ _ _ => [.w d.val]
  | .vsel _ d _ _ => [.w d.val]
  | .vsum _ d _ _ => [gr d]
  | .vdot _ d _ _ _ => [gr d]
  | .vperm _ d _ _ _ => [.w d.val]
  | .cvtScalar _ d _ _ _ _ => [.g d.val]
  | .cvtWide _ d _ _ _ _ => [.w d.val]
  | .pack _ d _ _ _ _ ks => [zr ks d]
  | .unpk _ d _ _ _ ks => [zr ks d]
  | .scl _ d _ _ _ _ ks => [zr ks d]
  | .xadd _ e _ => [.e e.val]
  | .xget _ d _ _ _ => [gr d]
  | .xclr _ e => [.e e.val]
  | .xmrg _ e _ => [.e e.val]
  | .mma _ _ _ c _ _ => [.tile c.val]
  | .qrd _ d _ _ => [gr d]
  | .qwr _ _ _ => []
  | .krd _ d _ => [gr d]
  | .kwr _ k _ => [.k k.val]
  | .br _ _ => []
  | .call _ _ => [.g 31]
  | .brx _ _ => []
  | .callx _ _ => [.g 31]
  | .ret _ _ => []
  | .dbnz _ d _ => [gr d]
  | .jset _ _ => []
  | .jadd _ _ => []
  | .jquit _ _ => []
  | .jwait _ _ => []
  | .jtest _ p _ => [.p p.val]
  | .jread _ d _ => [gr d]
  | .jwrite _ _ _ => []
  | .fuse _ _ => []
  | .split _ => []
  | .detach _ => []
  | .stop _ => []
  | .spawn _ _ _ => []
  | .spawnf _ _ => []
  | .yield _ => []
  | .grid _ _ => []
  | .ld _ d _ _ _ _ => [gr d]
  | .ldAcq _ d _ _ _ _ => [gr d]
  | .ldDev _ d _ _ _ _ => [gr d]
  | .st _ _ _ _ _ => []
  | .stRel _ _ _ _ _ => []
  | .stDev _ _ _ _ _ => []
  | .ldw _ w _ _ => [.w w.val]
  | .stw _ _ _ _ => []
  | .ldwAcq _ w _ _ => [.w w.val]
  | .stwRel _ _ _ _ => []
  | .lds _ d _ _ _ _ => [gr d]
  | .sts _ _ _ _ _ => []
  | .ldsAcq _ d _ _ _ _ => [gr d]
  | .stsRel _ _ _ _ _ => []
  | .ldsw _ w _ _ => [.w w.val]
  | .stsw _ _ _ _ => []
  | .ldswAcq _ w _ _ => [.w w.val]
  | .stswRel _ _ _ _ => []
  | .gat _ _ w _ _ _ => [.w w.val]
  | .scat _ _ _ _ _ _ => []
  | .pf _ _ _ => []
  | .ldk _ k _ _ => [.k k.val]
  | .ldkAcq _ k _ _ => [.k k.val]
  | .xld _ e _ _ => [.e e.val]
  | .xldAcq _ e _ _ => [.e e.val]
  | .xst _ _ _ _ => []
  | .xstRel _ _ _ _ => []
  | .amoAdd _ d _ _ _ => [gr d]
  | .amoAnd _ d _ _ _ => [gr d]
  | .amoOr _ d _ _ _ => [gr d]
  | .amoXor _ d _ _ _ => [gr d]
  | .amoMinI _ d _ _ _ => [gr d]
  | .amoMinN _ d _ _ _ => [gr d]
  | .amoMaxI _ d _ _ _ => [gr d]
  | .amoMaxN _ d _ _ _ => [gr d]
  | .amoSwap _ d _ _ _ => [gr d]
  | .amoPmin _ d _ _ => [gr d]
  | .cas _ d _ _ _ => [gr d, gr (gNext d 1)]
  | .cas2 _ d _ _ => [gr d, gr (gNext d 1), gr (gNext d 2), gr (gNext d 3)]
  | .amofF32 _ d _ _ => [gr d]
  | .amofF64 _ d _ _ => [gr d]
  | .amoxF32 _ d _ _ => [gr d]
  | .amoxF64 _ d _ _ => [gr d]
  | .fenceAcq _ _ => []
  | .fenceRel _ _ => []
  | .fenceAr _ _ => []
  | .fenceSc _ _ => []
  | .wait _ d _ _ _ => [gr d, gr (gNext d 1)]
  | .cpy _ _ _ _ _ => []
  | .tld _ _ _ _ _ => []
  | .tldm _ _ _ _ _ => []
  | .chase _ _ _ _ _ => []
  | .multicastSub _ _ => []
  | .multicastUnsub _ _ => []
  | .tbinit _ _ _ => []
  | .tbexp _ _ _ => []
  | .tbarr _ _ => []
  | .tbwait _ _ => []
  | .tbtest _ p _ => [.p p.val]
  | .bbarr _ => []
  | .bbwait _ => []
  | .send _ _ _ => []
  | .recv _ w => [.w w.val]
  | .recvt _ w _ p => [.w w.val, .p p.val]
  | .mmz _ c => [.tile c.val]
  | .mmst _ _ _ _ => []
  | .mmld _ c _ _ => [.tile c.val]
  | .mmpoll _ d _ => [gr d]
  | .mmjob _ d _ _ => [gr d]
  | .tokq _ d => [gr d]
  | .trap _ _ => []
  | .sysret _ => []
  | .halt _ => []
  | .kill _ _ => []
  | .rdsr _ d _ => [gr d]
  | .wrsr _ _ _ => []
  | .tlbinvAll _ => []
  | .tlbinvAsid _ _ => []
  | .tlbinvPage _ _ _ => []
  | .cwb _ _ _ => []
  | .cinv _ _ _ => []
  | .probe _ d _ => [gr d]
  | .syncOpComplete _ => []
  | .scoreboardResultLands _ => []
  | .storePerformed _ => []
  | .pageWalkComplete _ => []
  | .bankingSwitchComplete _ => []
  | .spawnTimeoutRelease _ _ => []
  | .gatheredGangPlace _ => []
  | .pathQuantumExpiry _ => []
  | .orphanFault _ => []
  | .sqnote _ => []
  | .monitorFire _ => []
  | .waitTimeout _ => []
  | .recvtTimeout _ => []
  | .deliveryArrival _ => []
  | .transferSourceRead _ => []
  | .transferNotice _ => []
  | .chaseStep _ => []
  | .chaseStepLimit _ => []
  | .multicastJoinArrival _ => []
  | .blockBarrierSweep _ => []
  | .messageArrival _ => []
  | .messageResend _ => []
  | .matrixOpComplete _ => []
  | .matrixOpStart _ => []
  | .tokenRequestPaid _ => []
  | .ringStationStep _ _ => []
  | .ballastRevolution _ => []
  | .dispatchPlace => []
  | .quantumExpiry _ => []
  | .strandSave _ => []
  | .evictionComplete _ => []
  | .gridComplete _ => []
  | .killComplete _ => []
  | .stallDetect _ => []
  | .blockstallDetect _ => []
  | .starveDetect _ => []
  | .launch _ _ _ _ => []
  | .hostMemoryAccess _ _ _ _ _ => []
  | .packageReset => []
  | .rstctlGo _ => []
  | .bootStageComplete _ => []
  | .attctlGo _ => []
  | .attestationReportDone => []
  | .migcmdGo _ => []
  | .migrationComplete => []
  | .railselWrite _ _ => []
  | .railSwitchComplete _ => []
  | .slotmaskWrite _ _ => []
  | .cfenceWrite _ _ => []
  | .ringcfgWrite _ _ => []
  | .fabcfgWrite _ => []
  | .registerWrite _ _ => []
  | .flitReceive _ _ _ => []
  | .e2eRetry _ => []
  | .laneErase _ _ => []
  | .portTrainingDone _ => []
  | .hopRetry _ _ _ _ _ => []
  | .hostLinkDown => []
  | .hostLinkUp => []
  | .thermalWarn _ _ => []
  | .thermalTrip _ => []
  | .railFault _ _ => []
  | .railHoldEnd _ _ => []
  | .hbmSupplyFault _ => []
  | .securityAlarm _ _ => []
  | .haltSnapshotComplete _ => []
  | .hostCxlCacheRequest _ _ _ => []
  | .switchPlaneLoss _ => []
  | .railReturnsToTolerance _ _ => []

/-- The registers a form reads, its guard apart. -/
def srcs : Instr → List OReg
  | .add _ _ a b _ => [gr a, gr b]
  | .sub _ _ a b _ => [gr a, gr b]
  | .mul _ _ a b _ => [gr a, gr b]
  | .mulh _ _ a b _ => [gr a, gr b]
  | .mad _ d a b _ => [gr d, gr a, gr b]
  | .div _ _ a b _ => [gr a, gr b]
  | .rem _ _ a b _ => [gr a, gr b]
  | .and _ _ a b _ => [gr a, gr b]
  | .or _ _ a b _ => [gr a, gr b]
  | .xor _ _ a b _ => [gr a, gr b]
  | .andn _ _ a b _ => [gr a, gr b]
  | .shl _ _ a b _ => [gr a, gr b]
  | .shr _ _ a b _ => [gr a, gr b]
  | .sar _ _ a b _ => [gr a, gr b]
  | .rot _ _ a b _ => [gr a, gr b]
  | .min _ _ a b _ => [gr a, gr b]
  | .max _ _ a b _ => [gr a, gr b]
  | .addi _ _ a _ _ => [gr a]
  | .andi _ _ a _ _ => [gr a]
  | .ori _ _ a _ _ => [gr a]
  | .xori _ _ a _ _ => [gr a]
  | .li _ _ _ => []
  | .lih _ d _ => [gr d]
  | .abs _ _ a _ => [gr a]
  | .neg _ _ a _ => [gr a]
  | .clz _ _ a _ => [gr a]
  | .ctz _ _ a _ => [gr a]
  | .popc _ _ a _ => [gr a]
  | .brev _ _ a _ => [gr a]
  | .bfx _ _ a b _ => [gr a, gr b]
  | .bfi _ d a b _ => [gr d, gr a, gr b]
  | .sel _ _ a b q => [gr a, gr b, .p q.val]
  | .lea _ _ a b _ => [gr a, gr b]
  | .cmp _ _ _ a b _ => [gr a, gr b]
  | .pand _ _ a b => [.p a.val, .p b.val]
  | .por _ _ a b => [.p a.val, .p b.val]
  | .pxor _ _ a b => [.p a.val, .p b.val]
  | .pnot _ _ a => [.p a.val]
  | .voteSome _ _ a => [.p a.val]
  | .voteEvery _ _ a => [.p a.val]
  | .voteAgree _ _ a => [.p a.val]
  | .ballot _ _ a => [.p a.val]
  | .shflPick _ _ a b => [gr a, gr b]
  | .shflLo _ _ a b => [gr a, gr b]
  | .shflHi _ _ a b => [gr a, gr b]
  | .shflMir _ _ a b => [gr a, gr b]
  | .bcast _ _ a _ => [gr a]
  | .fadd _ r _ a b _ => .g a.val :: .g b.val :: seed r
  | .fsub _ r _ a b _ => .g a.val :: .g b.val :: seed r
  | .fmul _ r _ a b _ => .g a.val :: .g b.val :: seed r
  | .fma _ r d a b _ => .g d.val :: .g a.val :: .g b.val :: seed r
  | .fmin _ _ a b _ => [.g a.val, .g b.val]
  | .fmax _ _ a b _ => [.g a.val, .g b.val]
  | .fdiv _ r _ a b _ => .g a.val :: .g b.val :: seed r
  | .fsqrt _ r _ a _ => .g a.val :: seed r
  | .fabs _ _ a _ => [.g a.val]
  | .fneg _ _ a _ => [.g a.val]
  | .fcmp _ _ _ a b _ => [.g a.val, .g b.val]
  | .vadd _ r _ a b _ => .w a.val :: .w b.val :: seed r
  | .vsub _ r _ a b _ => .w a.val :: .w b.val :: seed r
  | .vmul _ r _ a b _ => .w a.val :: .w b.val :: seed r
  | .vfma _ r d a b _ => .w d.val :: .w a.val :: .w b.val :: seed r
  | .vmin _ _ a b _ => [.w a.val, .w b.val]
  | .vmax _ _ a b _ => [.w a.val, .w b.val]
  | .vabs _ _ a _ => [.w a.val]
  | .vneg _ _ a _ => [.w a.val]
  | .vrcp _ _ a _ => [.w a.val]
  | .vrsq _ _ a _ => [.w a.val]
  | .vsqrt _ _ a _ => [.w a.val]
  | .vexp2 _ _ a _ => [.w a.val]
  | .vlog2 _ _ a _ => [.w a.val]
  | .vsin _ _ a _ => [.w a.val]
  | .vcos _ _ a _ => [.w a.val]
  | .vcmp _ _ _ a b _ => [.w a.val, .w b.val]
  | .vsel _ d a b => [.w d.val, .w a.val, .w b.val]
  | .vsum _ _ a _ => [.w a.val]
  | .vdot _ _ a b _ => [.w a.val, .w b.val]
  | .vperm _ _ a b _ => [.w a.val, .w b.val]
  | .cvtScalar _ _ a _ _ _ => [.g a.val]
  | .cvtWide _ _ a _ _ r => .w a.val :: seed r
  | .pack _ _ a b _ r ks => zr ks a :: zr ks b :: seed r
  | .unpk _ _ a _ _ ks => [zr ks a]
  | .scl _ _ a b _ r ks => zr ks a :: zr ks b :: seed r
  | .xadd _ e src => [.e e.val, xsrcReg src]
  | .xget _ _ e _ r => .e e.val :: seed r
  | .xclr _ _ => []
  | .xmrg _ e src => [.e e.val, .e src.val]
  | .mma _ _ _ _ a b => [.g a.val, .g b.val]
  | .qrd _ _ _ _ => []
  | .qwr _ _ a => [gr a]
  | .krd _ _ k => [.k k.val]
  | .kwr _ _ a => [gr a]
  | .br _ _ => []
  | .call _ _ => []
  | .brx _ a => [gr a]
  | .callx _ a => [gr a]
  | .ret _ a => [gr a]
  | .dbnz _ d _ => [gr d]
  | .jset _ _ => []
  | .jadd _ _ => []
  | .jquit _ _ => []
  | .jwait _ _ => []
  | .jtest _ _ _ => []
  | .jread _ _ _ => []
  | .jwrite _ _ a => [gr a]
  | .fuse _ _ => []
  | .split _ => []
  | .detach _ => []
  | .stop _ => []
  | .spawn _ a w => [gr a, .w w.val]
  | .spawnf _ a => [gr a]
  | .yield _ => []
  | .grid _ a => [gr a]
  | .ld _ _ a _ _ _ => [gr a]
  | .ldAcq _ _ a _ _ _ => [gr a]
  | .ldDev _ _ a _ _ _ => [gr a]
  | .st _ _ a b _ => [gr a, gr b]
  | .stRel _ _ a b _ => [gr a, gr b]
  | .stDev _ _ a b _ => [gr a, gr b]
  | .ldw _ _ a _ => [gr a]
  | .stw _ w a _ => [gr a, .w w.val]
  | .ldwAcq _ _ a _ => [gr a]
  | .stwRel _ w a _ => [gr a, .w w.val]
  | .lds _ _ a _ _ _ => [gr a]
  | .sts _ _ a b _ => [gr a, gr b]
  | .ldsAcq _ _ a _ _ _ => [gr a]
  | .stsRel _ d a _ _ => [gr d, gr a]
  | .ldsw _ _ a _ => [gr a]
  | .stsw _ w a _ => [gr a, .w w.val]
  | .ldswAcq _ _ a _ => [gr a]
  | .stswRel _ w a _ => [gr a, .w w.val]
  | .gat _ _ _ a x _ => [gr a, .w x.val]
  | .scat _ _ w a x _ => [gr a, .w x.val, .w w.val]
  | .pf _ a b => [gr a, gr b]
  | .ldk _ _ a _ => [gr a]
  | .ldkAcq _ _ a _ => [gr a]
  | .xld _ _ a _ => [gr a]
  | .xldAcq _ _ a _ => [gr a]
  | .xst _ e a _ => [.e e.val, gr a]
  | .xstRel _ e a _ => [.e e.val, gr a]
  | .amoAdd _ d a _ _ => [gr d, gr a]
  | .amoAnd _ d a _ _ => [gr d, gr a]
  | .amoOr _ d a _ _ => [gr d, gr a]
  | .amoXor _ d a _ _ => [gr d, gr a]
  | .amoMinI _ d a _ _ => [gr d, gr a]
  | .amoMinN _ d a _ _ => [gr d, gr a]
  | .amoMaxI _ d a _ _ => [gr d, gr a]
  | .amoMaxN _ d a _ _ => [gr d, gr a]
  | .amoSwap _ d a _ _ => [gr d, gr a]
  | .amoPmin _ d a _ => [gr d, gr a]
  | .cas _ d a _ _ => [gr d, gr (gNext d 1), gr a]
  | .cas2 _ d a _ => [gr d, gr (gNext d 1), gr (gNext d 2), gr (gNext d 3), gr a]
  | .amofF32 _ d a _ => [gr d, gr a]
  | .amofF64 _ d a _ => [gr d, gr a]
  | .amoxF32 _ d a _ => [gr d, gr a]
  | .amoxF64 _ d a _ => [gr d, gr a]
  | .fenceAcq _ _ => []
  | .fenceRel _ _ => []
  | .fenceAr _ _ => []
  | .fenceSc _ _ => []
  | .wait _ d a _ _ => [gr d, gr (gNext d 1), gr a]
  | .cpy _ _ d a b => [.g d.val, .g a.val, .g b.val]
  | .tld _ _ d a b => [.g d.val, .g (d.val + 1), .g a.val, .g b.val]
  | .tldm _ _ d a b => [.g d.val, .g (d.val + 1), .g a.val, .g b.val]
  | .chase _ _ d a b => [.g d.val, .g (d.val + 1), .g a.val, .g b.val]
  | .multicastSub _ a => [gr a]
  | .multicastUnsub _ a => [gr a]
  | .tbinit _ _ a => [gr a]
  | .tbexp _ _ a => [gr a]
  | .tbarr _ _ => []
  | .tbwait _ _ => []
  | .tbtest _ _ _ => []
  | .bbarr _ => []
  | .bbwait _ => []
  | .send _ a w => [gr a, .w w.val]
  | .recv _ _ => []
  | .recvt _ _ a _ => [gr a]
  | .mmz _ _ => []
  | .mmst _ _ a b => [gr a, gr b]
  | .mmld _ _ a b => [gr a, gr b]
  | .mmpoll _ _ a => [gr a]
  | .mmjob _ _ a _ => [gr a]
  | .tokq _ _ => []
  | .trap _ _ => []
  | .sysret _ => []
  | .halt _ => []
  | .kill _ a => [gr a]
  | .rdsr _ _ _ => []
  | .wrsr _ d _ => [gr d]
  | .tlbinvAll _ => []
  | .tlbinvAsid _ a => [gr a]
  | .tlbinvPage _ a b => [gr a, gr b]
  | .cwb _ a b => [gr a, gr b]
  | .cinv _ a b => [gr a, gr b]
  | .probe _ _ a => [gr a]
  | .syncOpComplete _ => []
  | .scoreboardResultLands _ => []
  | .storePerformed _ => []
  | .pageWalkComplete _ => []
  | .bankingSwitchComplete _ => []
  | .spawnTimeoutRelease _ _ => []
  | .gatheredGangPlace _ => []
  | .pathQuantumExpiry _ => []
  | .orphanFault _ => []
  | .sqnote _ => []
  | .monitorFire _ => []
  | .waitTimeout _ => []
  | .recvtTimeout _ => []
  | .deliveryArrival _ => []
  | .transferSourceRead _ => []
  | .transferNotice _ => []
  | .chaseStep _ => []
  | .chaseStepLimit _ => []
  | .multicastJoinArrival _ => []
  | .blockBarrierSweep _ => []
  | .messageArrival _ => []
  | .messageResend _ => []
  | .matrixOpComplete _ => []
  | .matrixOpStart _ => []
  | .tokenRequestPaid _ => []
  | .ringStationStep _ _ => []
  | .ballastRevolution _ => []
  | .dispatchPlace => []
  | .quantumExpiry _ => []
  | .strandSave _ => []
  | .evictionComplete _ => []
  | .gridComplete _ => []
  | .killComplete _ => []
  | .stallDetect _ => []
  | .blockstallDetect _ => []
  | .starveDetect _ => []
  | .launch _ _ _ _ => []
  | .hostMemoryAccess _ _ _ _ _ => []
  | .packageReset => []
  | .rstctlGo _ => []
  | .bootStageComplete _ => []
  | .attctlGo _ => []
  | .attestationReportDone => []
  | .migcmdGo _ => []
  | .migrationComplete => []
  | .railselWrite _ _ => []
  | .railSwitchComplete _ => []
  | .slotmaskWrite _ _ => []
  | .cfenceWrite _ _ => []
  | .ringcfgWrite _ _ => []
  | .fabcfgWrite _ => []
  | .registerWrite _ _ => []
  | .flitReceive _ _ _ => []
  | .e2eRetry _ => []
  | .laneErase _ _ => []
  | .portTrainingDone _ => []
  | .hopRetry _ _ _ _ _ => []
  | .hostLinkDown => []
  | .hostLinkUp => []
  | .thermalWarn _ _ => []
  | .thermalTrip _ => []
  | .railFault _ _ => []
  | .railHoldEnd _ _ => []
  | .hbmSupplyFault _ => []
  | .securityAlarm _ _ => []
  | .haltSnapshotComplete _ => []
  | .hostCxlCacheRequest _ _ _ => []
  | .switchPlaneLoss _ => []
  | .railReturnsToTolerance _ _ => []

/-- The guard of an encoded form. -/
def guardOf : Instr → Option Guard
  | .add gd _ _ _ _ => some gd
  | .sub gd _ _ _ _ => some gd
  | .mul gd _ _ _ _ => some gd
  | .mulh gd _ _ _ _ => some gd
  | .mad gd _ _ _ _ => some gd
  | .div gd _ _ _ _ => some gd
  | .rem gd _ _ _ _ => some gd
  | .and gd _ _ _ _ => some gd
  | .or gd _ _ _ _ => some gd
  | .xor gd _ _ _ _ => some gd
  | .andn gd _ _ _ _ => some gd
  | .shl gd _ _ _ _ => some gd
  | .shr gd _ _ _ _ => some gd
  | .sar gd _ _ _ _ => some gd
  | .rot gd _ _ _ _ => some gd
  | .min gd _ _ _ _ => some gd
  | .max gd _ _ _ _ => some gd
  | .addi gd _ _ _ _ => some gd
  | .andi gd _ _ _ _ => some gd
  | .ori gd _ _ _ _ => some gd
  | .xori gd _ _ _ _ => some gd
  | .li gd _ _ => some gd
  | .lih gd _ _ => some gd
  | .abs gd _ _ _ => some gd
  | .neg gd _ _ _ => some gd
  | .clz gd _ _ _ => some gd
  | .ctz gd _ _ _ => some gd
  | .popc gd _ _ _ => some gd
  | .brev gd _ _ _ => some gd
  | .bfx gd _ _ _ _ => some gd
  | .bfi gd _ _ _ _ => some gd
  | .sel gd _ _ _ _ => some gd
  | .lea gd _ _ _ _ => some gd
  | .cmp gd _ _ _ _ _ => some gd
  | .pand gd _ _ _ => some gd
  | .por gd _ _ _ => some gd
  | .pxor gd _ _ _ => some gd
  | .pnot gd _ _ => some gd
  | .voteSome gd _ _ => some gd
  | .voteEvery gd _ _ => some gd
  | .voteAgree gd _ _ => some gd
  | .ballot gd _ _ => some gd
  | .shflPick gd _ _ _ => some gd
  | .shflLo gd _ _ _ => some gd
  | .shflHi gd _ _ _ => some gd
  | .shflMir gd _ _ _ => some gd
  | .bcast gd _ _ _ => some gd
  | .fadd gd _ _ _ _ _ => some gd
  | .fsub gd _ _ _ _ _ => some gd
  | .fmul gd _ _ _ _ _ => some gd
  | .fma gd _ _ _ _ _ => some gd
  | .fmin gd _ _ _ _ => some gd
  | .fmax gd _ _ _ _ => some gd
  | .fdiv gd _ _ _ _ _ => some gd
  | .fsqrt gd _ _ _ _ => some gd
  | .fabs gd _ _ _ => some gd
  | .fneg gd _ _ _ => some gd
  | .fcmp gd _ _ _ _ _ => some gd
  | .vadd gd _ _ _ _ _ => some gd
  | .vsub gd _ _ _ _ _ => some gd
  | .vmul gd _ _ _ _ _ => some gd
  | .vfma gd _ _ _ _ _ => some gd
  | .vmin gd _ _ _ _ => some gd
  | .vmax gd _ _ _ _ => some gd
  | .vabs gd _ _ _ => some gd
  | .vneg gd _ _ _ => some gd
  | .vrcp gd _ _ _ => some gd
  | .vrsq gd _ _ _ => some gd
  | .vsqrt gd _ _ _ => some gd
  | .vexp2 gd _ _ _ => some gd
  | .vlog2 gd _ _ _ => some gd
  | .vsin gd _ _ _ => some gd
  | .vcos gd _ _ _ => some gd
  | .vcmp gd _ _ _ _ _ => some gd
  | .vsel gd _ _ _ => some gd
  | .vsum gd _ _ _ => some gd
  | .vdot gd _ _ _ _ => some gd
  | .vperm gd _ _ _ _ => some gd
  | .cvtScalar gd _ _ _ _ _ => some gd
  | .cvtWide gd _ _ _ _ _ => some gd
  | .pack gd _ _ _ _ _ _ => some gd
  | .unpk gd _ _ _ _ _ => some gd
  | .scl gd _ _ _ _ _ _ => some gd
  | .xadd gd _ _ => some gd
  | .xget gd _ _ _ _ => some gd
  | .xclr gd _ => some gd
  | .xmrg gd _ _ => some gd
  | .mma gd _ _ _ _ _ => some gd
  | .qrd gd _ _ _ => some gd
  | .qwr gd _ _ => some gd
  | .krd gd _ _ => some gd
  | .kwr gd _ _ => some gd
  | .br gd _ => some gd
  | .call gd _ => some gd
  | .brx gd _ => some gd
  | .callx gd _ => some gd
  | .ret gd _ => some gd
  | .dbnz gd _ _ => some gd
  | .jset gd _ => some gd
  | .jadd gd _ => some gd
  | .jquit gd _ => some gd
  | .jwait gd _ => some gd
  | .jtest gd _ _ => some gd
  | .jread gd _ _ => some gd
  | .jwrite gd _ _ => some gd
  | .fuse gd _ => some gd
  | .split gd => some gd
  | .detach gd => some gd
  | .stop gd => some gd
  | .spawn gd _ _ => some gd
  | .spawnf gd _ => some gd
  | .yield gd => some gd
  | .grid gd _ => some gd
  | .ld gd _ _ _ _ _ => some gd
  | .ldAcq gd _ _ _ _ _ => some gd
  | .ldDev gd _ _ _ _ _ => some gd
  | .st gd _ _ _ _ => some gd
  | .stRel gd _ _ _ _ => some gd
  | .stDev gd _ _ _ _ => some gd
  | .ldw gd _ _ _ => some gd
  | .stw gd _ _ _ => some gd
  | .ldwAcq gd _ _ _ => some gd
  | .stwRel gd _ _ _ => some gd
  | .lds gd _ _ _ _ _ => some gd
  | .sts gd _ _ _ _ => some gd
  | .ldsAcq gd _ _ _ _ _ => some gd
  | .stsRel gd _ _ _ _ => some gd
  | .ldsw gd _ _ _ => some gd
  | .stsw gd _ _ _ => some gd
  | .ldswAcq gd _ _ _ => some gd
  | .stswRel gd _ _ _ => some gd
  | .gat gd _ _ _ _ _ => some gd
  | .scat gd _ _ _ _ _ => some gd
  | .pf gd _ _ => some gd
  | .ldk gd _ _ _ => some gd
  | .ldkAcq gd _ _ _ => some gd
  | .xld gd _ _ _ => some gd
  | .xldAcq gd _ _ _ => some gd
  | .xst gd _ _ _ => some gd
  | .xstRel gd _ _ _ => some gd
  | .amoAdd gd _ _ _ _ => some gd
  | .amoAnd gd _ _ _ _ => some gd
  | .amoOr gd _ _ _ _ => some gd
  | .amoXor gd _ _ _ _ => some gd
  | .amoMinI gd _ _ _ _ => some gd
  | .amoMinN gd _ _ _ _ => some gd
  | .amoMaxI gd _ _ _ _ => some gd
  | .amoMaxN gd _ _ _ _ => some gd
  | .amoSwap gd _ _ _ _ => some gd
  | .amoPmin gd _ _ _ => some gd
  | .cas gd _ _ _ _ => some gd
  | .cas2 gd _ _ _ => some gd
  | .amofF32 gd _ _ _ => some gd
  | .amofF64 gd _ _ _ => some gd
  | .amoxF32 gd _ _ _ => some gd
  | .amoxF64 gd _ _ _ => some gd
  | .fenceAcq gd _ => some gd
  | .fenceRel gd _ => some gd
  | .fenceAr gd _ => some gd
  | .fenceSc gd _ => some gd
  | .wait gd _ _ _ _ => some gd
  | .cpy gd _ _ _ _ => some gd
  | .tld gd _ _ _ _ => some gd
  | .tldm gd _ _ _ _ => some gd
  | .chase gd _ _ _ _ => some gd
  | .multicastSub gd _ => some gd
  | .multicastUnsub gd _ => some gd
  | .tbinit gd _ _ => some gd
  | .tbexp gd _ _ => some gd
  | .tbarr gd _ => some gd
  | .tbwait gd _ => some gd
  | .tbtest gd _ _ => some gd
  | .bbarr gd => some gd
  | .bbwait gd => some gd
  | .send gd _ _ => some gd
  | .recv gd _ => some gd
  | .recvt gd _ _ _ => some gd
  | .mmz gd _ => some gd
  | .mmst gd _ _ _ => some gd
  | .mmld gd _ _ _ => some gd
  | .mmpoll gd _ _ => some gd
  | .mmjob gd _ _ _ => some gd
  | .tokq gd _ => some gd
  | .trap gd _ => some gd
  | .sysret gd => some gd
  | .halt gd => some gd
  | .kill gd _ => some gd
  | .rdsr gd _ _ => some gd
  | .wrsr gd _ _ => some gd
  | .tlbinvAll gd => some gd
  | .tlbinvAsid gd _ => some gd
  | .tlbinvPage gd _ _ => some gd
  | .cwb gd _ _ => some gd
  | .cinv gd _ _ => some gd
  | .probe gd _ _ => some gd
  | .syncOpComplete _ => none
  | .scoreboardResultLands _ => none
  | .storePerformed _ => none
  | .pageWalkComplete _ => none
  | .bankingSwitchComplete _ => none
  | .spawnTimeoutRelease _ _ => none
  | .gatheredGangPlace _ => none
  | .pathQuantumExpiry _ => none
  | .orphanFault _ => none
  | .sqnote _ => none
  | .monitorFire _ => none
  | .waitTimeout _ => none
  | .recvtTimeout _ => none
  | .deliveryArrival _ => none
  | .transferSourceRead _ => none
  | .transferNotice _ => none
  | .chaseStep _ => none
  | .chaseStepLimit _ => none
  | .multicastJoinArrival _ => none
  | .blockBarrierSweep _ => none
  | .messageArrival _ => none
  | .messageResend _ => none
  | .matrixOpComplete _ => none
  | .matrixOpStart _ => none
  | .tokenRequestPaid _ => none
  | .ringStationStep _ _ => none
  | .ballastRevolution _ => none
  | .dispatchPlace => none
  | .quantumExpiry _ => none
  | .strandSave _ => none
  | .evictionComplete _ => none
  | .gridComplete _ => none
  | .killComplete _ => none
  | .stallDetect _ => none
  | .blockstallDetect _ => none
  | .starveDetect _ => none
  | .launch _ _ _ _ => none
  | .hostMemoryAccess _ _ _ _ _ => none
  | .packageReset => none
  | .rstctlGo _ => none
  | .bootStageComplete _ => none
  | .attctlGo _ => none
  | .attestationReportDone => none
  | .migcmdGo _ => none
  | .migrationComplete => none
  | .railselWrite _ _ => none
  | .railSwitchComplete _ => none
  | .slotmaskWrite _ _ => none
  | .cfenceWrite _ _ => none
  | .ringcfgWrite _ _ => none
  | .fabcfgWrite _ => none
  | .registerWrite _ _ => none
  | .flitReceive _ _ _ => none
  | .e2eRetry _ => none
  | .laneErase _ _ => none
  | .portTrainingDone _ => none
  | .hopRetry _ _ _ _ _ => none
  | .hostLinkDown => none
  | .hostLinkUp => none
  | .thermalWarn _ _ => none
  | .thermalTrip _ => none
  | .railFault _ _ => none
  | .railHoldEnd _ _ => none
  | .hbmSupplyFault _ => none
  | .securityAlarm _ _ => none
  | .haltSnapshotComplete _ => none
  | .hostCxlCacheRequest _ _ _ => none
  | .switchPlaneLoss _ => none
  | .railReturnsToTolerance _ _ => none

/-- The forms that issue only as a lone word (R229). -/
def loneOnlyWord (r : Raw) : Bool :=
  decide ((r.major = 5 ∧ r.min = 3) ∨ (r.major = 7))

/-- Registers that count for DUPDEST: g0 and p0 do not (R201, R454). -/
def counts : OReg → Bool
  | .g 0 => false
  | .p 0 => false
  | _ => true

/-- Whether two instructions name a common destination register (R201, R454). -/
def dupDest (a b : Instr) : Bool := (dests a).any fun r => counts r && (dests b).contains r

/-- A fetched bundle: a lone word, a pair, or no bundle with the sub-cause, the reported word and its slot (R457). -/
inductive Bundle where
  | lone (w : Nat) (i : Instr)
  | pair (wc wa : Nat) (c a : Instr)
  | bad (code word slot : Nat)
deriving DecidableEq, Repr

/-- The bundle at an address whose bit 2 is `odd`, from the word there and the next (R198 to R201, R453, R457). -/
def decodeBundle (odd : Bool) (w0 w1 : Nat) : Bundle :=
  if w0 / 2147483648 % 2 = 0 then
    match decodeWord w0 with
    | .ok i => .lone w0 i
    | .bad c => .bad c w0 0
  else if odd || decide (w0 / 1073741824 % 2 = 1) then .bad 1 w0 0
  else if w1 / 2147483648 % 2 = 1 ∨ w1 / 1073741824 % 2 = 0 then .bad 1 w1 1
  else if loneOnlyWord (unpack w0) then .bad 2 w0 0
  else
    match decodeWord w0 with
    | .bad c => .bad c w0 0
    | .ok ci =>
      match decodeWord w1 with
      | .bad c => .bad c w1 1
      | .ok ai => if dupDest ci ai then .bad 10 w1 1 else .pair w0 w1 ci ai

/-- The instruction the decoder reads from a lone word whose bits are `w`; none where it refuses, and none for a word
with P = 1, whose second word of zeros is no A-slot word (R198, R201). `nbits` is 32 for every row. -/
def decodeTableWord (nbits w : Nat) : Option Instr :=
  if nbits = 32 then
    match decodeBundle false (w % 4294967296) 0 with
    | .lone _ i => some i
    | .pair _ _ _ _ => none
    | .bad _ _ _ => none
  else none

end Sys2Proof
end

