-- ==== Sys2Proof/Machine/Tab.lean ====
section
/-!
DEFINITION. Sparse tables: a list of (key, value) pairs in rising order of key, read with a default value.
Register files, strands, cells and memory are held in this form.
-/
namespace Sys2Proof.Machine

/-- A sparse table of values, keyed by a natural number. -/
abbrev Tab (α : Type) := List (Nat × α)

/-- The value at key `i`, or `d` where the table lists none. -/
def tget {α : Type} (d : α) : Tab α → Nat → α
  | [], _ => d
  | (j, v) :: r, i => if j = i then v else tget d r i

/-- The entry at key `i`, if the table lists one. -/
def tfind {α : Type} : Tab α → Nat → Option α
  | [], _ => none
  | (j, v) :: r, i => if j = i then some v else tfind r i

/-- The table with `v` at key `i`; a table in rising order of key stays in rising order. -/
def tset {α : Type} : Tab α → Nat → α → Tab α
  | [], i, v => [(i, v)]
  | (j, w) :: r, i, v =>
    if i < j then (i, v) :: (j, w) :: r
    else if i = j then (i, v) :: r
    else (j, w) :: tset r i v

/-- The table without any entry at key `i`. -/
def tdel {α : Type} : Tab α → Nat → Tab α
  | [], _ => []
  | (j, v) :: r, i => if j = i then tdel r i else (j, v) :: tdel r i

/-- The entries whose key lies in [lo, hi), in rising order. -/
def trange {α : Type} (lo hi : Nat) : Tab α → Tab α
  | [] => []
  | (j, v) :: r => if lo ≤ j ∧ j < hi then (j, v) :: trange lo hi r else trange lo hi r

/-- The table without the entries whose key lies in [lo, hi). -/
def tclear {α : Type} (lo hi : Nat) : Tab α → Tab α
  | [] => []
  | (j, v) :: r => if lo ≤ j ∧ j < hi then tclear lo hi r else (j, v) :: tclear lo hi r

/-- The keys of a table. -/
def tkeys {α : Type} : Tab α → List Nat
  | [] => []
  | (j, _) :: r => j :: tkeys r

/-- A key above every key of the table: where a new entry goes. -/
def tfresh {α : Type} : Tab α → Nat
  | [] => 0
  | (j, _) :: r => Nat.max (j + 1) (tfresh r)

/-- Rising order of keys. -/
def tsorted {α : Type} : Tab α → Bool
  | [] => true
  | [_] => true
  | (i, _) :: (j, v) :: r => decide (i < j) && tsorted ((j, v) :: r)

end Sys2Proof.Machine
end

