-- ==== Sys2Proof/Machine/Parts.lean ====
section
/-!
DEFINITION. The parts of the package's state, as plain data: strands, gangs, cells, blocks, grids, dies, transfers, walks,
messages and the registers of the package. Positions are numbered over the whole package: position
`64 * cell + 16 * slot + pipe`, where `cell` is the package cell number 160 * die + c (spec/02_execution_model.md R37,
spec/01_device_overview.md R21, spec/17_traps_and_containment.md R440). Every default value of a field is its value in an
entry the tables do not list, which is its value after reset.
-/
namespace Sys2Proof.Machine

open Sys2Proof

/-- STATE of a position (R61). -/
inductive StName where
  | free
  | ready
  | parked
  | frozen
  | supervisor
  | saved
  | retired
deriving DecidableEq, Repr

/-- PARK reason (R62). -/
inductive Park where
  | none
  | data
  | presence
  | token
  | barrier
  | rejoin
  | fuse
  | monitor
  | message
  | spawn
  | translate
  | matrix
deriving DecidableEq, Repr

/-- Lane mode (R73, R93), with the path number of R94 or the awaited set. -/
inductive LMode where
  | inPath (n : Nat)
  | detached
  | retired
  | hollow
  | absent
  | waiting (j : Nat)
deriving DecidableEq, Repr

/-- A register of the package. Strand registers are named by position, h registers by package pipe number
16 * cell + pipe, k registers by the position of the gang's leader (R38, R204). -/
inductive RegId where
  | g (pos n : Nat)
  | h (pipe n : Nat)
  | w (pos n : Nat)
  | p (pos n : Nat)
  | k (lead n : Nat)
  | e (pos n : Nat)
  /-- accumulator tile n of a cell, and its 32-byte sector i of all its tiles -/
  | tile (cell n : Nat)
  | acc (cell i : Nat)
  /-- an Alley link, by its key -/
  | link (key : Nat)
deriving DecidableEq, Repr

/-- A register with a value that lands in it (R46). -/
inductive RegVal where
  | g (pos n : Nat) (v : Word)
  | h (pipe n : Nat) (v : Word)
  | w (pos n : Nat) (v : Wide)
  | p (pos n : Nat) (v : Bool)
  | k (lead n : Nat) (v : Word)
  | e (pos n : Nat) (v : X320) (flags : BitVec 3)
deriving DecidableEq, Repr

/-- What a parked lane waits for: the part of R62 that says when its reason clears. -/
inductive WaitFor where
  /-- nothing of its own; its path waits for other lanes (R47) -/
  | nothing
  /-- registers that have not landed (R46) -/
  | regs (l : List RegId)
  /-- incoming links to be FULL, outgoing links to accept a push (R209) -/
  | alley (pops pushes : List Nat)
  /-- presence bits of these scratchpad sectors (R113) -/
  | presence (sectors : List Nat)
  /-- page walks of these numbers (R141) -/
  | walks (l : List Nat)
  /-- payment of the cell's request of this issuer (R189) -/
  | token
  /-- the phase of transaction barrier b of the cell that holds this lane's arrival; a lane that does not act waits for
  nothing of its own (R366) -/
  | tb (b : Nat) (on : Bool)
  /-- the transfer-table entries that name barrier b (R488) -/
  | tbBusy (b : Nat)
  /-- the phase of the block barrier that holds this lane's arrival (R369) -/
  | bb (on : Bool)
  /-- a block-barrier record of the package (R371) -/
  | bbRecord
  /-- a message (R375) -/
  | message
  /-- the gathering unit to accept n records under these descriptor addresses (R57, R254) -/
  | spawn (n : Nat) (descs : List Nat)
  /-- room for n operations in the job queue (R299) -/
  | jobRoom (n : Nat)
  /-- the engine operations with these numbers (R312) -/
  | jobs (l : List Nat)
  /-- room for n more outstanding requests of the pipe (R319) -/
  | room (n : Nat)
  /-- room for n more entries in the transfer table of the cell (R348) -/
  | table (n : Nat)
  /-- these numbers of work in flight, the earlier events that a fence orders (R337) -/
  | fence (ids : List Nat)
  /-- room for n messages in the injection queue (R372, R386) -/
  | inject (n : Nat)
  /-- the end of these numbers of work in flight, and a die cycle (R386) -/
  | sync (ids : List Nat) (upto : Nat)
  /-- an event that names this position: the last participant of a fuse, a set release, a monitor, a timeout, or the
  completion of a form of R386 -/
  | event
  /-- the host link (R502) -/
  | hostLink
  /-- sectors of other packages, read for the bundle in hand, by their keys (R118, R406) -/
  | fills (keys : List Nat)
deriving DecidableEq, Repr

/-- The error mark of a lane (R468). -/
structure Mark where
  cause : Nat
  code : Nat
  addr : Word
  access : Nat
deriving DecidableEq, Repr

/-- A message (R372), with the package cell number of its sender and the narrowest scope that holds both cells. -/
structure Msg where
  dst : Word
  payload : Wide
  key : BitVec 16
  src : Nat
  scope : Scope
  /-- the position that sent it, and its bundle, for a record about it (R469) -/
  place : Word := 0#64
  lpos : Word := 0#64
  ba : Word := 0#64
deriving DecidableEq, Repr

/-- A `wait` in progress (R168, R339): the storage location of the word, its virtual address, and the cell cycle of its
timeout if it has one. `armed` is false while the home has no monitor entry free (R340). -/
structure Monitor where
  loc : Nat
  addr : Word
  w64 : Bool
  expect : Word
  deadline : Option Nat
  armed : Bool
  stamp : Nat
  /-- the value and the status with which the lane has completed (R339), and the mark of a read that failed (R468) -/
  done : Option (Word × Nat) := none
  bad : Option Mark := none
  /-- a read of the word has been sent to another package -/
  asked : Bool := false
  /-- the block of a scratchpad word's cell at issue, plus 1 (R465) -/
  blk : Nat := 0
deriving DecidableEq, Repr

/-- What a `tlbinv` names: an ASID or every one, and an address or every one (R144). -/
structure Inval where
  asid : Option Nat
  va : Option Nat
deriving DecidableEq, Repr

/-- One slot position and the strand in it. -/
structure Strand where
  /-- STATE and PARK (R61, R62) -/
  st : StName := .free
  park : Park := .none
  wait : WaitFor := .nothing
  /-- the state held before a trap or a freeze; a FROZEN lane keeps its reason in `park` (R55, R63) -/
  heldSt : StName := .free
  pc : Word := 0#64
  /-- address at which a waiting lane goes on (R85, R366) -/
  nba : Word := 0#64
  /-- GEN (R43) -/
  gen : BitVec 8 := 0#8
  /-- LPOS and RANK (R40, R42) -/
  lpos : Word := 0#64
  rank : Word := 0#64
  lmode : LMode := .absent
  scause : Word := 0#64
  sval : Word := 0#64
  sret : Word := 0#64
  sinfo : Word := 0#64
  sscr0 : Word := 0#64
  sscr1 : Word := 0#64
  sscr2 : Word := 0#64
  sscr3 : Word := 0#64
  rbsel : Word := 0#64
  /-- error mark (R468) -/
  mark : Option Mark := none
  /-- receive queue, oldest first (R373) -/
  recvq : List Msg := []
  /-- the `wait` this lane waits in (R339) -/
  mon : Option Monitor := none
  /-- cell cycle at which a recvt or a wait of this lane times out (R375) -/
  deadline : Option Nat := none
  /-- the bundle at `pc` has been paid and not yet issued (R189) -/
  paid : Bool := false
  /-- failed walks held for the re-issue: virtual address and XLATE code (R462) -/
  walkFail : List (Nat × Nat) := []
  /-- the `tlbinv` of this lane that has not retired (R144) -/
  inval : Option Inval := none
  /-- sectors of other packages whose read failed, held in the same way: key and location code (R471, R499) -/
  readFail : List (Nat × Nat) := []
  /-- orders that a fence leaves on later bundles: the numbers of the work in flight that any later memory event, and
  that any later write, waits for (R337) -/
  fenceAny : List Nat := []
  fenceWr : List Nat := []
  /-- die cycle in which the strand last parked, and die cycles counted before (R477) -/
  parkedAt : Nat := 0
  parkedFor : Nat := 0
  stallMade : Bool := false
  /-- the next bundle waits for the banking switch of the cell (R54, R110) -/
  bankHold : Bool := false
  /-- while the lane is FROZEN its reason has cleared: it returns READY, at its next bundle where the flag is set (R435, R440) -/
  woken : Option Bool := none
  /-- the payment of its bundle took QUOTA below zero: the bundle completes before the strand is saved (R193) -/
  charged : Bool := false
  /-- the reason for which the strand was parked when a restore sent its bundle to issue again: if it parks with that reason
  its time goes on counting (R477) -/
  parkedWas : Option Park := none
  /-- CODE and return address with which this lane of a pending mask will trap (R431) -/
  tcode : Word := 0#64
  tnba : Word := 0#64
  /-- the `tbinit` it waits with found its barrier busy (R488) -/
  tbReset : Bool := false
  /-- the operations a parked `mmpoll` waits for are those accepted before this number (R312) -/
  pollTo : Option Nat := none
  /-- gang size asked for by a parked fuse (R51) -/
  fuseG : Nat := 0
  /-- price of the token request that a save has withdrawn (R64, R189) -/
  owed : Nat := 0
  owedFree : Bool := false
deriving DecidableEq, Repr

/-- A rejoin set in the fields of R82, with the bundle addresses of the lanes' `jwait` held in the strands. -/
structure JSet where
  valid : Bool := false
  member : BitVec 16 := 0#16
  quit : BitVec 16 := 0#16
  arrived : BitVec 16 := 0#16
deriving DecidableEq, Repr

/-- An ORPHAN fault due in a gang: the orphaned lanes and the orphan view (R480, R481). -/
structure Orphan where
  lanes : BitVec 16
  view : Word
deriving DecidableEq, Repr

/-- The state of a gang (R38, R92), keyed by the position of its leader. -/
structure Gang where
  splitpol : Word := 16#64
  turn : Bool := false
  cur : Nat := 0
  last : Nat := 0
  qleft : Nat := 0
  /-- the handling lane while the gang is collapsed (R434) -/
  handler : Option Nat := none
  /-- a slot cycle is in progress in which the gang uses its quantum (R78) -/
  counting : Bool := false
  /-- pending mask of a `trap` (R431) -/
  trapMask : BitVec 16 := 0#16
  /-- a `split` of this cycle dissolves the gang at the end of the cycle (R52) -/
  splitting : Bool := false
  /-- another issuer of the gang has trapped in this cycle (R432) -/
  late : Bool := false
  orphans : List Orphan := []
  /-- sets acted on in this cycle, with the views before the event that orphaned them (R480, R88) -/
  orphaning : List (Nat × Word × BitVec 16) := []
deriving DecidableEq, Repr

/-- A translation held by a TLB (R140). `base` is the physical address of the page, `chunk` the 64 present bits. -/
structure TlbEnt where
  asid : Nat
  va : Nat
  span : Nat
  base : Nat
  place : Nat
  x : Bool
  w : Bool
  rd : Bool
  sup : Bool
  dev : Bool
  chunk : Option (BitVec 64)
deriving DecidableEq, Repr

/-- A sector held by an L1: its bytes, which of them the cell holds, which are dirty, when it was filled, and the grid
whose strand wrote it last (R106, R108, R159, R471). -/
structure L1Sector where
  data : BitVec 256
  held : BitVec 32
  dirty : BitVec 32
  filled : Nat
  grid : Nat
  /-- under private banking, the pipes whose partitions hold the sector (R106, R108) -/
  parts : BitVec 16 := BitVec.allOnes 16
  /-- an uncorrectable error in this copy (R471) -/
  bad : Bool := false
deriving DecidableEq, Repr

/-- A transaction barrier (R363). -/
structure Barrier where
  pend : Int := 0
  valid : Bool := false
  phase : Bool := false
  err : Bool := false
  lerr : Bool := false
  expect : Nat := 0
  remain : Nat := 0
  arrived : BitVec 64 := 0#64
  /-- ARRIVED at the end of the previous cell cycle (R366) -/
  before : BitVec 64 := 0#64
  /-- records of R489 to R491 made in this phase -/
  overArrive : Bool := false
  pendRange : Bool := false
  overrun : Bool := false
deriving DecidableEq, Repr

/-- A spawn record (R57). -/
structure SpawnRec where
  desc : Nat
  payload : Wide
  lpos : Word
deriving DecidableEq, Repr

/-- What a bundle submits to the gathering unit: a record with the value of its descriptor, or a `spawnf` of an address (R57). -/
inductive Arrival where
  | spawn (r : SpawnRec) (v : Nat)
  | spawnf (desc : Nat)
deriving DecidableEq, Repr

/-- A partial gang of a gathering unit (R57, R59), in order of creation; `released` gives its place in release order. -/
structure Partial where
  desc : Nat
  entry : Word
  glog : Nat
  timeout : Nat
  first : Nat
  count : Nat
  released : Option Nat
deriving DecidableEq, Repr

/-- Who a transfer or a walk works for (R343, R475). -/
structure Requester where
  pos : Nat := 0
  cell : Nat := 0
  asid : Nat := 0
  key : BitVec 16 := 0#16
  grid : Nat := 0
  lpos : Word := 0#64
  ppos : Word := 0#64
  ba : Word := 0#64
  /-- its block, plus 1 -/
  blk : Nat := 0
deriving DecidableEq, Repr

/-- Where an access goes once translated (R97, R99, R101). -/
inductive Target where
  /-- local HBM or host memory: storage location, home die, 4 for the host -/
  | home (loc : Nat) (die : Nat)
  /-- a scratchpad byte of a package cell -/
  | scr (cell off : Nat)
  /-- a byte of another package, a local-HBM address there under PLACE 0 -/
  | remote (pkg pa : Nat)
  /-- a device-register offset -/
  | dev (off : Nat)
deriving DecidableEq, Repr

/-- An engine operation (R293, R300). -/
inductive MatOp where
  | mma (f : Fmt) (acc : Nat) (a b : Word)
  | mmz (acc : Nat)
  | mmst (acc : Nat) (x : Word) (pitch : Nat) (cnt : Bool) (tb : Nat)
  | mmld (acc : Nat) (x : Word) (pitch : Nat)
deriving DecidableEq, Repr

/-- An accepted engine operation with its number, the job identifier of an `mmjob`, its issuer, and for an accumulator
transfer the 512 sectors of its rows as translated at issue, each with the block of a scratchpad target (0 for none,
otherwise its number plus 1). The values of sectors of other packages stand in `replies` as they come. -/
structure MatJob where
  id : Nat
  num : Nat
  op : MatOp
  ident : Option Nat
  req : Requester
  rows : List (Target × Nat) := []
  asked : Bool := false
  replies : Tab Nat := []
  bad : Bool := false
deriving DecidableEq, Repr

/-- A token request (R189): cell cycle and die cycle of its raising, slot index, pipe, price, issuer. -/
structure TokReq where
  age : Nat
  die : Nat
  slot : Nat
  pipe : Nat
  price : Nat
  pos : Nat
  /-- QuotaAllows always admits the bundle (R193) -/
  exempt : Bool := false
  /-- judged when it became its cell's oldest (R483) -/
  judged : Bool := false
  unpayable : Bool := false
deriving DecidableEq, Repr

/-- A match-table entry (R126), with the block it is held for when it is a held entry (R178). -/
structure MatchEnt where
  tag : Nat
  tb : Nat
  win : Bool
  offset : Nat
deriving DecidableEq, Repr

/-- A containment record (R442). -/
structure Record where
  dbl : Bool := false
  fwd : Bool := false
  kind : Nat
  cause : Nat := 0
  asid : Nat := 0
  pkey : BitVec 16 := 0#16
  seq : Nat := 0
  place : Word := 0#64
  lpos : Word := 0#64
  addr : Word := 0#64
  sval : Word := 0#64
  sinfo : Word := 0#64
  arg : Nat := 0
  grid : Nat := 0
deriving DecidableEq, Repr

/-- A banking switch in progress (R109): the cell's outstanding L1 fills land, the tags are swept until a cell cycle, and the
dirty sectors are written back until another. -/
inductive BankPhase where
  | fills
  | sweep (upto : Nat)
  | back (upto : Nat)
deriving DecidableEq, Repr

/-- One cell. -/
structure CellSt where
  /-- CYCLE is `cycBase` plus the cell cycles since die cycle `cycAt` (R44) -/
  cycBase : Nat := 0
  cycAt : Nat := 0
  /-- RAILSEL (R196) and the rail the cell runs on -/
  high : Bool := false
  railTo : Option Bool := none
  railDue : Nat := 0
  /-- SLOTMASK, CFENCE, OVFCFG (R195, R394, R374) -/
  slotmask : BitVec 4 := 0#4
  fenced : Bool := false
  ovfcfg : Word := 0#64
  /-- the resident block, and CX, CY (R39, R40) -/
  block : Option Nat := none
  cx : Nat := 0
  cy : Nat := 0
  scrsz : Nat := 0
  ter : Nat := 0
  /-- L1 banking: true is Plaza; a switch in progress, with the cell cycle of its t (R104, R109); by bank, the cell cycle from which it is idle (R107) -/
  bank : Bool := false
  bankSw : Option (Nat × BankPhase) := none
  bankBusy : Tab Nat := []
  /-- LCLREQ, RMTREQ (R121) -/
  lclreq : Word := 0#64
  rmtreq : Word := 0#64
  /-- POCKET, the cool-down queue as (die cycle in which they leave it, tokens), HOLD and OWNER (R184, R185) -/
  pocket : Nat := 0
  cool : List (Nat × Nat) := []
  hold : Bool := false
  owner : Bool := false
  /-- unpaid requests, oldest first (R189) -/
  reqs : List TokReq := []
  starveMade : Bool := false
  /-- QUOTA, as a number; none when the quota of the launch record is zero (R192) -/
  quota : Option Int := none
  /-- SUBVA, SUBMAP (R137, R138) -/
  subva : Tab Word := []
  submap : Tab Word := []
  /-- b0 to b15 (R363) -/
  bars : Tab Barrier := []
  /-- match table by index (R126), held entries as (block, index, entry) (R178) -/
  matchTab : Tab MatchEnt := []
  heldTab : List (Nat × Nat × MatchEnt) := []
  /-- gathering unit (R57) -/
  partials : List Partial := []
  spawns : List SpawnRec := []
  /-- what the `spawn`s and `spawnf`s of this cycle submit, with the spawning pipe: it enters the unit at the end of the cycle, in
  increasing pipe number (R57) -/
  arrivals : List (Nat × Arrival) := []
  /-- supervisor queue, oldest first, and SQSTAT.NOTE with a notice due (R444, R433) -/
  sq : List Record := []
  note : Bool := false
  noteDue : Bool := false
  /-- engine: accepted operations, oldest first; the first runs when `engBusy` (R299, R300) -/
  jobs : List MatJob := []
  engBusy : Bool := false
  engDue : Nat := 0
  /-- numbers of accepted operations, and per job identifier whether its latest job ended in error (R312) -/
  jobNum : Nat := 0
  jobErr : Tab Bool := []
  /-- injection queue of messages, oldest first (R372); refused so far (R485); spill state (R374) -/
  inject : List Msg := []
  refused : Nat := 0
  ovfMade : Bool := false
  spillSeq : Nat := 0
  spillNext : Nat := 0
  /-- orphan queue: next slot and messages dropped since the last slot written (R486) -/
  orphNext : Nat := 0
  orphDropped : Nat := 0
  /-- L1 (R106) -/
  l1 : Tab L1Sector := []
  /-- TLBs of the cell and its pipes (R140) -/
  tlb : List TlbEnt := []
  /-- block barrier: arrived mask, whether the sweep has been forwarded, and the die cycle in which a release arrives (R370) -/
  bbArrived : BitVec 64 := 0#64
  bbBefore : BitVec 64 := 0#64
  bbForwarded : Bool := false
  bbFwdAt : Nat := 0
  bbRelease : Option Nat := none
  bbTwice : Bool := false
  /-- blocks that have moved from here, with the place of this cell in their rectangles: what still comes for them is forwarded (R197) -/
  movedOn : List (Nat × Nat) := []
deriving DecidableEq, Repr

/-- What the device keeps of a cell of an evicted block beside its save frame: what no doubleword of the frame holds (LPOS,
RANK, GEN and what a parked lane waits for; entry, size and timeout of a partial gang; the block barrier; what records of a
barrier's phase have been made).
(DEDUCED: notes/assumptions/29.md) -/
structure SavedCell where
  strands : Tab Strand := []
  partials : List Partial := []
  spawns : List SpawnRec := []
  bars : Tab Barrier := []
  bbArrived : BitVec 64 := 0#64
  bbRelease : Option Nat := none
  bbTwice : Bool := false
  jobErr : Tab Bool := []
  note : Bool := false
  /-- the cell in which the block stood -/
  cell : Nat := 0
  /-- barriers whose image calls for a PENDRANGE record at restore (R178) -/
  ranges : List Nat := []
deriving DecidableEq, Repr

/-- What a block is doing (R173 to R178, R194, R447). -/
inductive BlockPhase where
  | running
  /-- being saved; the eviction, the sit-out, the halt or the migration that follows -/
  | preempting
  | evicting
  | sittingOut
  | halting
  | halted
  | evicted
  | migrating
  | gone
deriving DecidableEq, Repr

/-- One block of a grid. -/
structure Block where
  grid : Nat := 0
  b : Nat := 0
  die : Nat := 0
  nw : Nat := 0
  slots : List Nat := []
  phase : BlockPhase := .gone
  /-- what follows once every gang is saved -/
  after : BlockPhase := .running
  /-- a pre-emption that waits for the last `sysret` of the block's handlers, and what follows it (R63, R435) -/
  due : Option BlockPhase := none
  /-- bound to its rectangle while evicted (R49, R394) -/
  bound : Bool := true
  /-- die cycle in which the quantum ends, and the cycles left of it while migrating (R172, R197) -/
  quantumEnd : Nat := 0
  quantumLeft : Nat := 0
  /-- pre-empted for its energy quota: it sits out this quantum, whatever else moves it (R194) -/
  sitting : Bool := false
  /-- consecutive quanta sat out (R194, R484) -/
  satOut : Nat := 0
  /-- die cycle of its last issue (R478) -/
  lastIssue : Nat := 0
  stallMade : Bool := false
  /-- the block-barrier record in use (R371) -/
  bbRecord : Bool := false
  /-- by place in the rectangle, CX + W × CY -/
  saved : Tab SavedCell := []
deriving DecidableEq, Repr

/-- One grid. -/
structure Grid where
  entry : Word := 0#64
  arg : Word := 0#64
  /-- doubleword 2 of the launch record (R398) -/
  shape : Word := 0#64
  asid : Nat := 0
  pkey : BitVec 16 := 0#16
  q : Nat := 0
  doneVa : Word := 0#64
  savebase : Nat := 0
  prio : Nat := 0
  /-- blocks placed so far, and blocks ended -/
  placed : Nat := 0
  ended : Nat := 0
  live : Bool := false
deriving DecidableEq, Repr

/-- One die: the ring (R182 to R186) and the ballast rule (R505). -/
structure DieSt where
  total : Nat := 0
  cap : Nat := 64
  retain : Nat := 0
  wrote : Nat := 0
  /-- tokens of ring flit i; flit i stands at station (i + u) mod 160 in die cycle u, and flit 0 is the lead flit -/
  flits : Tab Nat := []
  own : Option Nat := none
  capReq : Option Nat := none
  inject : Nat := 0
  deficit : Nat := 0
  ringFailed : Bool := false
  floor : Nat := 0
  paid : Nat := 0
  /-- ballast of the last revolution, and the WINDOW and TOTAL that hold for this one (R505) -/
  ballast : Nat := 0
  bwin : Nat := 1024
  btot : Nat := 0
  /-- rails out of tolerance or held, low and high, with the end of the hold (R508) -/
  lowHeld : Bool := false
  highHeld : Bool := false
  lowEnd : Option Nat := none
  highEnd : Option Nat := none
deriving DecidableEq, Repr

/-- Where a transfer or a walk delivers (R345, R347): the issuing cell, a capability's cell, or a multicast tag. -/
inductive Consumer where
  | self (win : Bool)
  | cap (pkg die cell : Nat) (win : Bool) (key : BitVec 16)
  | tag (pkg tag : Nat) (key : BitVec 16)
deriving DecidableEq, Repr

/-- The three transfer forms of the table entry (R441). -/
inductive XferForm where
  | cpy
  | tld
  | tldm
deriving DecidableEq, Repr

/-- Bytes that were not written at a consumer, for its REJECT records (R474, R475): the reason, the consumer's cell in this
package and its block plus 1, TB, the first offset and its source address, the count; `toC` when the consumer's side of this
package is told too. -/
structure Rej where
  reason : Nat
  cell : Nat
  blk : Nat
  tb : Nat
  off : Nat
  src : Word
  n : Nat
  toC : Bool
deriving DecidableEq, Repr

/-- A transfer in the transfer table of its requester's cell (R349, R350). -/
structure Xfer where
  form : XferForm
  req : Requester
  src : Word
  pitch : Nat
  rows : Nat
  rlen : Nat
  cons : Consumer
  tb : Nat
  offset : Nat
  note : Bool
  ntb : Nat
  /-- the source rows as translated at issue: virtual page base, physical base, PLACE (R141, R348) -/
  pages : List TlbEnt
  /-- the blocks of the cells that a window source names (R350), as (cell, block plus 1) -/
  homes : List (Nat × Nat) := []
  /-- source bytes read so far, bytes dealt with at every consumer, deliveries in flight -/
  read : Nat
  dealt : Nat
  inFlight : Nat
  err : Bool
  /-- the subscribers of a `tldm` at its issue: cell, block, entry (R128) -/
  subs : List (Nat × Nat × MatchEnt) := []
  /-- its consumer is the scratchpad of its own cell: it has cleared the presence bits of its destination (R112) -/
  own : Bool := false
  rejects : List Rej := []
  /-- a read of another package is outstanding -/
  away : Bool := false
  due : Nat
deriving DecidableEq, Repr

/-- A delivery packet on its way (R350, R351): bytes of consecutive destination offsets, from one source sector; `bad`
bytes are counted, not written. `xfer` is the number of its transfer, `walk` that of its walk. `only` is the block of a
subscriber. `pres` when presence bits follow the delivery (R112): `last` is the last destination byte of the transfer. `away`
when it has been sent to another package. -/
structure Delivery where
  xfer : Option Nat := none
  walk : Option Nat := none
  req : Requester
  cell : Nat
  self : Bool := false
  only : Option Nat := none
  key : BitVec 16
  win : Bool
  tb : Nat
  offset : Nat
  bytes : List Byte
  bad : Bool
  src : Word
  pres : Bool := false
  last : Nat := 0
  away : Bool := false
  due : Nat
deriving DecidableEq, Repr

/-- A chase walk (R355 to R359). -/
structure Walk where
  req : Requester
  pc : Word
  g : Tab Word
  w : Tab Wide
  p : Tab Bool
  cons : Consumer
  tb : Nat
  offset : Nat
  note : Bool
  ntb : Nat
  stack : Nat
  words : Nat
  delivered : Nat
  inFlight : Nat
  running : Bool
  err : Bool
  ended : Bool
  rejects : List Rej := []
  /-- an access to another package is outstanding; its value, or its failure -/
  away : Bool := false
  got : Option Nat := none
  gotBad : Bool := false
  /-- the granule whose translation a walker of the stack is finding (R143) -/
  miss : Option Nat := none
  /-- the word in hand, fetched from another package -/
  word : Option Nat := none
  /-- the cause with which it has ended in error (R473) -/
  cause : Option Nat := none
  due : Nat
deriving DecidableEq, Repr

/-- A page walk of a cell (R134, R142). -/
structure PageWalk where
  cell : Nat
  asid : Nat
  va : Nat
  waiters : List Nat
  /-- it waits for a walker (R142) -/
  queued : Bool := false
  due : Nat
deriving DecidableEq, Repr

/-- An act performed at a home (R147): a read or a write of n bytes, or a read-modify-write with its operands. -/
inductive HomeOp where
  | read (n : Nat)
  | write (n v : Nat)
  | amo (op : AmoOp) (w64 : Bool) (a b : Nat)
deriving DecidableEq, Repr

/-- One act of an instruction that has issued: its target, its virtual address, and the value its read returned once it has
been performed. A die-window access is still to be performed while it waits for a presence bit (R113), and an access to
another package while it waits for the reply (R408). -/
structure Part where
  tgt : Target
  va : Word
  op : HomeOp
  val : Option Nat
  /-- the block of a scratchpad target at issue, plus 1 (R465) -/
  blk : Nat := 0
  /-- its request to another package has been sent -/
  sent : Bool := false
deriving DecidableEq, Repr

/-- How the values read land (R206): in a G register of so many bits, in two registers of a quad, in a w register by
elements of so many bytes, in a k register, in an e register, or as a status. -/
inductive Shape where
  | none
  | g (r : GReg) (bits : Nat) (sgn : Bool)
  | two (r : GReg)
  | w (n es : Nat)
  | k (lead n : Nat)
  | e (n : Nat)
  | status (r : GReg) (v : Nat)
deriving DecidableEq, Repr

/-- Work that an instruction has started and that has not landed (R46, R320): the registers it will write, the values where
they are known without a memory access, and its acts. A failed read leaves the mark instead (R468). -/
structure Pend where
  pos : Nat
  /-- the number of the first work that the bundle of this entry started: work from there on is of the same bundle -/
  first : Nat := 0
  regs : List RegId
  vals : List RegVal := []
  shape : Shape := .none
  parts : List Part := []
  mark : Option Mark := none
  /-- a relaxed access, which the L1 may serve; an outstanding fill of it (R109, R158); a DEV access (R323) -/
  relaxed : Bool := false
  fill : Bool := false
  dev : Bool := false
  /-- the ORD field of the requests of its acts on other packages (R406) -/
  ord : Nat := 0
  /-- the scope at which this read, or a fence after it, is an acquire: the L1 drops its clean sectors once it is performed (R151,
  R158, R337) -/
  acq : Option Scope := none
  /-- memory read (R337), atomic (R252) -/
  isRead : Bool := false
  atomic : Bool := false
  /-- kind of access for a mark (R439) -/
  access : Nat := 0
  req : Requester := {}
  due : Nat
  /-- cell cycles by which bank conflicts delay the landing, and the cell cycle from which it may land (R107) -/
  late : Nat := 0
  cycDue : Nat := 0
deriving DecidableEq, Repr

/-- A store on its way to its home (R159, R320): the L1 sector that holds its bytes, or the bytes themselves. -/
structure StoreEv where
  cell : Nat
  pos : Nat
  grid : Nat
  sector : Nat
  due : Nat
deriving DecidableEq, Repr

/-- A kill in progress: the grids it ends and the record it makes at the end (R379, R445). -/
structure KillSt where
  grids : List Nat
  record : Record
  waiter : Option Nat
deriving DecidableEq, Repr

/-- Whom the reply to a request serves: an act of an instruction, source bytes of a transfer, the compare of a `wait`, a
sector for the L1 of a cell, an access of a chase walk, a delivery, a notice or a message that has been sent, or the increment
of a completion counter. -/
inductive ReqFor where
  | part (id ix : Nat)
  | xfer (id off : Nat)
  | mon (pos : Nat)
  | fill (cell key : Nat)
  | mat (cell id ix : Nat)
  | walk (id : Nat)
  | deliv (id : Nat)
  | notice (id : Nat)
  | msg (id : Nat)
  | done (grid : Nat)
deriving DecidableEq, Repr

/-- An outstanding request to another package (R407, R408, R499): its destination and key, the plane it was first sent on
and the plane of its latest send, and whether it is held back behind requests that are being resent. -/
structure Request where
  dst : Nat
  orig : Nat
  plane : Nat
  flit : BitVec 512
  who : ReqFor
  resends : Nat := 0
  held : Bool := false
  due : Nat
deriving DecidableEq, Repr

/-- A Preik port (R496). -/
structure Port where
  state : Nat := 0
  elanes : BitVec 5 := 0#5
  replays : Nat := 0
  /-- flits queued while the port trains, oldest first (R497) -/
  queue : List (BitVec 512) := []
deriving DecidableEq, Repr

/-- A request served for another package: TAG, source, die cycle and the stored reply (R500). -/
structure Served where
  src : Nat
  tag : Nat
  time : Nat
  reply : BitVec 512
deriving DecidableEq, Repr

/-- A multicast transfer of another package whose deliveries arrive: the package and the number of the transfer, the die cycle of the
latest delivery, and its subscribers as the first one found them (R128, R353). -/
structure McastIn where
  src : Nat
  num : Nat
  time : Nat
  subs : List (Nat × Nat × MatchEnt)
deriving DecidableEq, Repr

/-- Join or leave packets on their way (R127). -/
structure Join where
  cell : Nat
  tag : Nat
  join : Bool
  due : Nat
deriving DecidableEq, Repr

/-- A message on its way (R372); `refused` when its target could not spill it (R485). -/
structure Flying where
  msg : Msg
  refused : Bool
  due : Nat
deriving DecidableEq, Repr

/-- The registers and queues of the package. -/
structure Pkg where
  /-- FABCFG.EN, PKGNUM (R392) -/
  fabEn : Bool := false
  pkgnum : Nat := 0
  /-- BOOTSTAT.STAGE (R403), BOOTERR (R504) -/
  stage : Nat := 1
  bootErr : Nat := 0
  asidtab : Word := 0#64
  migcmd : Word := 0#64
  migBusy : Option Nat := none
  migTo : Nat × Nat := (0, 0)
  lqcfg : Tab Nat := []
  attBuf : Word := 0#64
  attBusy : Bool := false
  attDue : Nat := 0
  nonce : BitVec 512 := 0#512
  lwbind : Tab Word := []
  /-- DCAPi of ASID a at key 8a + i (R347, R395) -/
  dcap : Tab Word := []
  /-- launch queue of each level, oldest first, as grid numbers (R170) -/
  queues : Tab (List Nat) := []
  returns : List Nat := []
  dseq : Nat := 0
  lastReturn : Bool := false
  /-- the two claims of the dispatcher: block or decision, die, north-west cell, slots, and which is older (R177) -/
  retClaim : Option (Nat × Nat × Nat × List Nat) := none
  lauClaim : Option (Nat × Nat × Nat × List Nat) := none
  retOlder : Bool := true
  /-- containment log: SEQ, LOST, next slot (R442, R444), and MSI-X vector 0 signals sent -/
  seq : Nat := 0
  lost : Nat := 0
  logNext : Nat := 0
  msix : Nat := 0
  /-- records waiting for the host link (R502) -/
  heldRecs : List Record := []
  bbRecords : Nat := 0
  bbRecMade : Bool := false
  /-- mailbox registers (R495, R504) -/
  e2etime : Nat := 262144
  rampWindow : Nat := 1024
  warn : Nat := 95
  tmax : Nat := 0
  warnMade : Bool := false
  alarmErase : Nat := 4
  erased : Bool := false
  alarmLevel : Nat := 0
  trip : Option Nat := none
  dead : Bool := false
  resets : Nat := 0
  hostUp : Bool := true
  ports : Tab Port := []
  reqs : Tab Request := []
  freedTags : List (Nat × Nat × Nat) := []
  served : List Served := []
  /-- planes unusable to a destination: (destination, plane) (R499) -/
  unusable : List (Nat × Nat) := []
  lostPlanes : List Nat := []
  /-- failed hops: kind, die, hop, direction (R472), and retries of the flit each hop holds; of a Crossing, `die` is the die of
  the receiving hop and `hop` the Crossing: 0 North, 1 South, 2 West, 3 East (R17) -/
  failedHops : List (HopKind × Nat × Nat × Nat) := []
  hopTries : List (HopKind × Nat × Nat × Nat × Nat) := []
  /-- HBM4 stacks whose supply has left tolerance (R508) -/
  badStacks : List Nat := []
  /-- chase translation cache of each stack (R143) -/
  chaseTlb : Tab (List TlbEnt) := []
  /-- multicast tags that have reached the routers: (tag, subscribed cell) (R127) -/
  joined : List (Nat × Nat) := []
  mcast : List McastIn := []
  /-- flits sent to the planes, newest first, as an observer of the ports sees them -/
  sent : List (Nat × BitVec 512) := []
  /-- the data of the last host access (R390) -/
  hostData : BitVec 512 := 0#512
deriving DecidableEq, Repr

/-- The issuer of the bundle in hand: its lanes in increasing order, its gang's leader, BA and NBA (R199, R227), the word,
whether the issuer is a path (not a detached lane), and whether it issues in single-lane mode. -/
structure Cur where
  lanes : List Nat := []
  leader : Nat := 0
  ba : Word := 0#64
  nba : Word := 4#64
  word : BitVec 32 := 0#32
  path : Bool := false
  sup : Bool := false
deriving DecidableEq, Repr

/-- How long the model's own schedule lets each kind of work take, in die cycles: the manual fixes none of these
(R46, R110, R149); a log entry names them.
(DESIGN CHOICE: notes/assumptions/7.md) -/
structure Pace where
  fixed : Nat := 8
  load : Nat := 24
  far : Nat := 160
  store : Nat := 48
  walk : Nat := 64
  deliver : Nat := 32
  step : Nat := 8
  msg : Nat := 32
  sync : Nat := 64
  fabric : Nat := 2000
  rail : Nat := 24
deriving DecidableEq, Repr

end Sys2Proof.Machine
end

