-- ==== Sys2Proof/Machine/State.lean ====
section
/-!
DEFINITION. The state of one KL-640 package, its reset value, and the reasons a step can stop. Everything the manual gives
the machine stands here as plain data; INVENTORY.md lists each piece with its rule.
-/
namespace Sys2Proof.Machine

open Sys2Proof

structure State where
  /-- die cycles since reset (R7) -/
  time : Nat
  /-- g registers at key 32 * position + n (R204) -/
  gs : Tab Word
  /-- h registers at key 32 * package pipe + n (R204, R207) -/
  hs : Tab Word
  /-- w registers at key 16 * position + n -/
  ws : Tab Wide
  /-- p registers at key 8 * position + n -/
  ps : Tab Bool
  /-- e registers at key 2 * position + n (R283), the 320-bit value -/
  es : Tab X320
  /-- NAN, PINF, NINF flags of the e registers at the same key (R283) -/
  eflags : Tab (BitVec 3)
  /-- k registers at key 16 * position of the gang's leader + n (R208) -/
  ks : Tab Word
  /-- rejoin sets at key 8 * position of the gang's leader + n (R82) -/
  js : Tab JSet
  /-- Alley links that are FULL, at key 4 * position of the receiver + direction popped (R209) -/
  alley : Tab Word
  /-- the links as they stood at the end of the previous cycle, where they differ now -/
  alleyOld : Tab (Option Word)
  strands : Tab Strand
  gangs : Tab Gang
  cells : Tab CellSt
  blocks : Tab Block
  grids : Tab Grid
  dies : Tab DieSt
  pkg : Pkg
  /-- every byte of HBM4, host memory, scratchpads, Terraces and accumulators (see Machine/Ops.lean for the keys) -/
  mem : List Host.Cell
  /-- scratchpad sectors whose presence bit is clear (R111) -/
  absent : Tab Unit
  /-- sectors whose presence bit a transfer issued in this cycle clears at its end (R112, R114) -/
  clears : List Nat
  /-- sectors whose presence bit a delivery of this cycle sets at its end (R112, R114) -/
  sets : List Nat
  /-- sectors with an uncorrectable error, with the location code of R471 -/
  poison : Tab Nat
  /-- registers and Alley links with an uncorrectable error (R470) -/
  badRegs : List RegId
  /-- what the directories track: by sector, the dies whose remote-data caches hold it, each with the grid that fetched it (R120) -/
  copies : Tab (List (Nat × Nat))
  /-- grids that an uncorrectable error ends as the die cycle does, each with the location code and the location (R471, R472) -/
  doomed : List (Nat × Nat × Nat)
  /-- work in flight -/
  pend : Tab Pend
  stores : Tab StoreEv
  walks : Tab PageWalk
  xfers : Tab Xfer
  delivs : Tab Delivery
  chases : Tab Walk
  joins : Tab Join
  flying : Tab Flying
  kills : Tab KillSt
  /-- the next number for work in flight -/
  fresh : Nat
  /-- the model's own: the bundle in hand, the acts and the issuers still to come in this die
  cycle, and how long the schedule lets work take -/
  cur : Cur
  agenda : List Instr
  queue : List Nat
  /-- the issuers of this die cycle have been listed -/
  filled : Bool
  /-- FULL links that an issuer of this die cycle pops, so that a push of the cycle finds them EMPTY (R209, R88) -/
  foreseen : List Nat
  pace : Pace
deriving DecidableEq, Repr

/-- Why a step stops for good. Nothing of the KL-640 stops the package: a fault of the hardware is a trap, a record or a
kill, each of them a next state.
(DESIGN CHOICE: notes/assumptions/72.md) -/
inductive Fault where
  /-- Raised by no definition: the manual names no condition that stops the package. Safe. -/
  | stopped
deriving DecidableEq, Repr

/-- Why a step has no meaning. -/
inductive Refusal where
  /-- An arm of exec whose instruction has no meaning yet. Safe. -/
  | notModelled (mnemonic : String)
deriving DecidableEq, Repr

/-- The package right after reset (R401, R43, R44, R182 and the reset values of the register tables). Every table is empty:
an entry that a table does not list holds the default value of its type in Machine/Parts.lean. -/
def State.reset : State where
  time := 0
  gs := []
  hs := []
  ws := []
  ps := []
  es := []
  eflags := []
  ks := []
  js := []
  alley := []
  alleyOld := []
  strands := []
  gangs := []
  cells := []
  blocks := []
  grids := []
  dies := []
  pkg := {}
  mem := []
  absent := []
  clears := []
  sets := []
  poison := []
  badRegs := []
  copies := []
  doomed := []
  pend := []
  stores := []
  walks := []
  xfers := []
  delivs := []
  chases := []
  joins := []
  flying := []
  kills := []
  fresh := 0
  cur := {}
  agenda := []
  queue := []
  filled := false
  foreseen := []
  pace := {}

end Sys2Proof.Machine
end

