-- ==== Sys2Proof/Machine/Update.lean ====
section
/-!
DEFINITION. One named update for each field of State. Sys2Proof/Laws/State.lean says of each which fields it leaves.
-/
namespace Sys2Proof.Machine

open Sys2Proof

def State.setTime (s : State) (v : Nat) : State := { s with time := v }
def State.setGs (s : State) (v : Tab Word) : State := { s with gs := v }
def State.setHs (s : State) (v : Tab Word) : State := { s with hs := v }
def State.setWs (s : State) (v : Tab Wide) : State := { s with ws := v }
def State.setPs (s : State) (v : Tab Bool) : State := { s with ps := v }
def State.setEs (s : State) (v : Tab X320) : State := { s with es := v }
def State.setEflags (s : State) (v : Tab (BitVec 3)) : State := { s with eflags := v }
def State.setKs (s : State) (v : Tab Word) : State := { s with ks := v }
def State.setJs (s : State) (v : Tab JSet) : State := { s with js := v }
def State.setAlley (s : State) (v : Tab Word) : State := { s with alley := v }
def State.setAlleyOld (s : State) (v : Tab (Option Word)) : State := { s with alleyOld := v }
def State.setStrands (s : State) (v : Tab Strand) : State := { s with strands := v }
def State.setGangs (s : State) (v : Tab Gang) : State := { s with gangs := v }
def State.setCells (s : State) (v : Tab CellSt) : State := { s with cells := v }
def State.setBlocks (s : State) (v : Tab Block) : State := { s with blocks := v }
def State.setGrids (s : State) (v : Tab Grid) : State := { s with grids := v }
def State.setDies (s : State) (v : Tab DieSt) : State := { s with dies := v }
def State.setPkg (s : State) (v : Pkg) : State := { s with pkg := v }
def State.setMem (s : State) (v : List Host.Cell) : State := { s with mem := v }
def State.setAbsent (s : State) (v : Tab Unit) : State := { s with absent := v }
def State.setClears (s : State) (v : List Nat) : State := { s with clears := v }
def State.setSets (s : State) (v : List Nat) : State := { s with sets := v }
def State.setPoison (s : State) (v : Tab Nat) : State := { s with poison := v }
def State.setBadRegs (s : State) (v : List RegId) : State := { s with badRegs := v }
def State.setCopies (s : State) (v : Tab (List (Nat × Nat))) : State := { s with copies := v }
def State.setDoomed (s : State) (v : List (Nat × Nat × Nat)) : State := { s with doomed := v }
def State.setPend (s : State) (v : Tab Pend) : State := { s with pend := v }
def State.setStores (s : State) (v : Tab StoreEv) : State := { s with stores := v }
def State.setWalks (s : State) (v : Tab PageWalk) : State := { s with walks := v }
def State.setXfers (s : State) (v : Tab Xfer) : State := { s with xfers := v }
def State.setDelivs (s : State) (v : Tab Delivery) : State := { s with delivs := v }
def State.setChases (s : State) (v : Tab Walk) : State := { s with chases := v }
def State.setJoins (s : State) (v : Tab Join) : State := { s with joins := v }
def State.setFlying (s : State) (v : Tab Flying) : State := { s with flying := v }
def State.setKills (s : State) (v : Tab KillSt) : State := { s with kills := v }
def State.setFresh (s : State) (v : Nat) : State := { s with fresh := v }
def State.setCur (s : State) (v : Cur) : State := { s with cur := v }
def State.setAgenda (s : State) (v : List Instr) : State := { s with agenda := v }
def State.setQueue (s : State) (v : List Nat) : State := { s with queue := v }
def State.setFilled (s : State) (v : Bool) : State := { s with filled := v }
def State.setForeseen (s : State) (v : List Nat) : State := { s with foreseen := v }
def State.setPace (s : State) (v : Pace) : State := { s with pace := v }

end Sys2Proof.Machine
end

