-- ==== Sys2Proof/Machine/Ops.lean ====
section
/-!
DEFINITION. The named operations over registers, memory and records, and taking a trap. Every read and write of a register
or of a byte of memory goes through this file.

Keys of `mem`: a byte of HBM4 stands at `die * 2^38 + die offset` (R101, R102), a byte of host memory at 2^52 + host
physical address, a scratchpad byte at 2^53 + cell * 2^20 + offset, a Terrace byte at 2^54 + cell * 2^24 + offset, an
accumulator byte at 2^55 + cell * 2^16 + 16,384 n + 256 i + 4 j (R292).
-/
namespace Sys2Proof.Machine

open Sys2Proof

/-- `n` bits of a number from bit `lo` up. -/
def field (v lo n : Nat) : Nat := v / 2 ^ lo % 2 ^ n

/-- A 64-bit value from a number. -/
def word (n : Nat) : Word := BitVec.ofNat 64 n

/-- Value of the low `n` bits read as two's complement. -/
def sInt (n v : Nat) : Int :=
  if v % 2 ^ n < 2 ^ (n - 1) then (v % 2 ^ n : Nat) else (v % 2 ^ n : Nat) - (2 ^ n : Nat)

/-- SX of R226: the low n bits sign-extended to 64 bits. -/
def sx (n v : Nat) : Word := BitVec.ofInt 64 (sInt n v)

/-- ZX of R226. -/
def zx (n v : Nat) : Word := word (v % 2 ^ n)

/-! ### Positions (R37, R41, R48, R440) -/

def cellOf (pos : Nat) : Nat := pos / 64
def slotOf (pos : Nat) : Nat := pos / 16 % 4
def pipeOf (pos : Nat) : Nat := pos % 16
/-- Package number of the pipe of a position. -/
def gpipe (pos : Nat) : Nat := pos / 64 * 16 + pos % 16
def dieOf (cell : Nat) : Nat := cell / 160
/-- Position number within its cell, 16k + pipe. -/
def posInCell (pos : Nat) : Nat := pos % 64

def State.str (s : State) (pos : Nat) : Strand := tget {} s.strands pos
def State.gang (s : State) (lead : Nat) : Gang := tget {} s.gangs lead
def State.cell (s : State) (c : Nat) : CellSt := tget {} s.cells c
def State.block (s : State) (b : Nat) : Block := tget {} s.blocks b
def State.grid (s : State) (g : Nat) : Grid := tget {} s.grids g
def State.die (s : State) (d : Nat) : DieSt := tget {} s.dies d

def putStr (s : State) (pos : Nat) (t : Strand) : State := s.setStrands (tset s.strands pos t)
def putGang (s : State) (lead : Nat) (g : Gang) : State := s.setGangs (tset s.gangs lead g)
def putCell (s : State) (c : Nat) (x : CellSt) : State := s.setCells (tset s.cells c x)
def putBlock (s : State) (b : Nat) (x : Block) : State := s.setBlocks (tset s.blocks b x)
def putGrid (s : State) (g : Nat) (x : Grid) : State := s.setGrids (tset s.grids g x)
def putDie (s : State) (d : Nat) (x : DieSt) : State := s.setDies (tset s.dies d x)

/-- LANE and GLOG of LPOS (R40). -/
def laneIx (t : Strand) : Nat := field t.lpos.toNat 16 4
def glogOf (t : Strand) : Nat := field t.lpos.toNat 13 3
/-- LPOS with other LANE and GLOG (R40). -/
def withLane (l : Word) (lane glog : Nat) : Word :=
  word (field l.toNat 20 44 * 2 ^ 20 + lane % 16 * 2 ^ 16 + glog % 8 * 2 ^ 13 + l.toNat % 2 ^ 13)

/-- Position of the leader of the gang a position belongs to (R48). -/
def leaderOf (s : State) (pos : Nat) : Nat := pos - laneIx (s.str pos)
/-- The positions of a gang of 2^glog lanes, lane 0 first (R48). -/
def lanesFrom (lead n : Nat) : List Nat := (List.range n).map (lead + ·)
def gangLanes (s : State) (lead : Nat) : List Nat := lanesFrom lead (2 ^ glogOf (s.str lead))
/-- Mask of lane indices of some positions of a gang. -/
def laneMask (lead : Nat) (ls : List Nat) : Nat := ls.foldl (fun m p => m ||| 2 ^ (p - lead)) 0
def inMask (m i : Nat) : Bool := decide (m / 2 ^ i % 2 = 1)

/-- Cell cycles of a cell since reset (R44): one per die cycle on the high rail, one per two on the low rail (R29), none
while a rail switch is in progress (R196). -/
def cyc (s : State) (c : Nat) : Nat :=
  match (s.cell c).railTo with
  | some _ => (s.cell c).cycBase
  | none => (s.cell c).cycBase + (s.time - (s.cell c).cycAt) / (if (s.cell c).high then 1 else 2)

/-- PPOS of a position (R41). -/
def ppos (s : State) (pos : Nat) : Word :=
  word (s.pkg.pkgnum % 512 * 2 ^ 55 + dieOf (cellOf pos) % 4 * 2 ^ 53 + cellOf pos % 160 * 2 ^ 45
    + pipeOf pos * 2 ^ 41 + slotOf pos * 2 ^ 39 + (s.str pos).gen.toNat * 2 ^ 31)

/-- The block, grid, ASID and partition key of a cell (R39, R132, R394). -/
def blockIn (s : State) (c : Nat) : Block := match (s.cell c).block with | some b => s.block b | none => {}
def gridIn (s : State) (c : Nat) : Grid := match (s.cell c).block with | some b => s.grid (s.block b).grid | none => {}
def asidIn (s : State) (c : Nat) : Nat := match (s.cell c).block with | some _ => (gridIn s c).asid | none => 0
def keyIn (s : State) (c : Nat) : BitVec 16 := match (s.cell c).block with | some _ => (gridIn s c).pkey | none => 0#16

/-! ### Registers (R204 to R208) -/

/-- g0 reads zero and writes to it are discarded (R204). -/
def rdG (s : State) (pos n : Nat) : Word := if n = 0 then 0#64 else tget 0#64 s.gs (32 * pos + n)
def wrG (s : State) (pos n : Nat) (v : Word) : State := if n = 0 then s else s.setGs (tset s.gs (32 * pos + n) v)
def rdH (s : State) (pipe n : Nat) : Word := tget 0#64 s.hs (32 * pipe + n)
def wrH (s : State) (pipe n : Nat) (v : Word) : State := s.setHs (tset s.hs (32 * pipe + n) v)
def rdW (s : State) (pos n : Nat) : Wide := tget 0#256 s.ws (16 * pos + n)
def wrW (s : State) (pos n : Nat) (v : Wide) : State := s.setWs (tset s.ws (16 * pos + n) v)
/-- p0 reads true and writes to it are discarded (R204). -/
def rdP (s : State) (pos n : Nat) : Bool := if n = 0 then true else tget false s.ps (8 * pos + n)
def wrP (s : State) (pos n : Nat) (v : Bool) : State := if n = 0 then s else s.setPs (tset s.ps (8 * pos + n) v)
def rdK (s : State) (lead n : Nat) : Word := tget 0#64 s.ks (16 * lead + n)
def wrK (s : State) (lead n : Nat) (v : Word) : State := s.setKs (tset s.ks (16 * lead + n) v)
/-- V and the flags NAN, PINF, NINF (bits 0, 1, 2) of an e register (R283). -/
def rdE (s : State) (pos n : Nat) : X320 := tget 0#320 s.es (2 * pos + n)
def wrE (s : State) (pos n : Nat) (v : X320) : State := s.setEs (tset s.es (2 * pos + n) v)
def rdEf (s : State) (pos n : Nat) : BitVec 3 := tget 0#3 s.eflags (2 * pos + n)
def wrEf (s : State) (pos n : Nat) (v : BitVec 3) : State := s.setEflags (tset s.eflags (2 * pos + n) v)
def rdJ (s : State) (lead n : Nat) : JSet := tget {} s.js (8 * lead + n)
def wrJ (s : State) (lead n : Nat) (v : JSet) : State := s.setJs (tset s.js (8 * lead + n) v)

/-- A G operand of a lane: bank 1 is the h file of the lane's pipe (R205, R207). -/
def rdReg (s : State) (pos : Nat) (r : GReg) : Word :=
  match r.bank with
  | .g => rdG s pos r.num.val
  | .h => rdH s (gpipe pos) r.num.val
def wrReg (s : State) (pos : Nat) (r : GReg) (v : Word) : State :=
  match r.bank with
  | .g => wrG s pos r.num.val v
  | .h => wrH s (gpipe pos) r.num.val v

/-- The register that an operand names for a lane of the gang led from `lead` (R204, R208). -/
def regId (lead pos : Nat) : OReg → RegId
  | .g n => .g pos n
  | .h n => .h (gpipe pos) n
  | .w n => .w pos n
  | .p n => .p pos n
  | .k n => .k lead n
  | .e n => .e pos n
  | .tile n => .tile (cellOf pos) n

/-- Write a landing value (R46). -/
def putVal (s : State) : RegVal → State
  | .g pos n v => wrG s pos n v
  | .h pipe n v => wrH s pipe n v
  | .w pos n v => wrW s pos n v
  | .p pos n v => wrP s pos n v
  | .k lead n v => wrK s lead n v
  | .e pos n v f => wrEf (wrE s pos n v) pos n f

/-- A register that reads a constant is never pending (R204). -/
def markable : RegId → Bool
  | .g _ 0 => false
  | .p _ 0 => false
  | _ => true

/-- Whether a scoreboarded result will still land in a register (R46). An h register is marked only for the strand
whose instruction writes it (R207). -/
def pendingFor (s : State) (pos : Nat) (r : RegId) : Bool :=
  markable r && s.pend.any (fun e => e.2.regs.contains r &&
    (match r with | .h _ _ => decide (e.2.pos = pos) | _ => true))

/-- Whether a register stands in a position, and the cell in which it stands. -/
def RegId.inPos (pos : Nat) : RegId → Bool
  | .g q _ => decide (q = pos)
  | .w q _ => decide (q = pos)
  | .p q _ => decide (q = pos)
  | .k q _ => decide (q = pos)
  | .e q _ => decide (q = pos)
  | .link x => decide (x / 4 = pos)
  | _ => false
def RegId.inCell (c : Nat) : RegId → Bool
  | .g q _ => decide (cellOf q = c)
  | .h q _ => decide (q / 16 = c)
  | .w q _ => decide (cellOf q = c)
  | .p q _ => decide (cellOf q = c)
  | .k q _ => decide (cellOf q = c)
  | .e q _ => decide (cellOf q = c)
  | .tile d _ => decide (d = c)
  | .acc d _ => decide (d = c)
  | .link x => decide (cellOf (x / 4) = c)

/-- The guard of a lane (R203). -/
def acting (s : State) (gd : Guard) (pos : Nat) : Bool := xor (rdP s pos gd.p.val) gd.neg

/-! ### Bytes of memory (R9, R147) -/

def locHbm (die off : Nat) : Nat := die * 2 ^ 38 + off
def locHost (a : Nat) : Nat := 2 ^ 52 + a
def locScr (cell off : Nat) : Nat := 2 ^ 53 + cell * 2 ^ 20 + off
def locTer (cell off : Nat) : Nat := 2 ^ 54 + cell * 2 ^ 24 + off
def locAcc (cell off : Nat) : Nat := 2 ^ 55 + cell * 2 ^ 16 + off

/-- One byte; a byte that the list does not name reads zero (R401).
(DESIGN CHOICE: notes/assumptions/9.md) -/
def memGet (m : List Host.Cell) (a : Nat) : Byte := tget 0#8 m a
/-- One byte written; a zero byte is not listed. -/
def memPut (m : List Host.Cell) (a : Nat) (v : Byte) : List Host.Cell :=
  if v = 0#8 then tdel m a else tset m a v

/-- The canonical form of memory: rising addresses, and no entry that equals what an unlisted address reads as. -/
def memWf (m : List Host.Cell) : Bool := tsorted m && m.all (fun c => decide (c.2 ≠ 0#8))

/-- `n` bytes from `a` up as one little-endian number (R9). -/
def memRead (m : List Host.Cell) (a : Nat) : Nat → Nat
  | 0 => 0
  | n + 1 => (memGet m a).toNat + 256 * memRead m (a + 1) n
def memWrite (m : List Host.Cell) (a : Nat) : Nat → Nat → List Host.Cell
  | 0, _ => m
  | n + 1, v => memWrite (memPut m a (BitVec.ofNat 8 v)) (a + 1) n (v / 256)

def rd (s : State) (a n : Nat) : Nat := memRead s.mem a n
def wr (s : State) (a n v : Nat) : State := s.setMem (memWrite s.mem a n v)

/-- Every byte of [lo, lo + n) becomes zero. -/
def memZero (m : List Host.Cell) (lo n : Nat) : List Host.Cell := tclear lo (lo + n) m

/-- The bytes of [src, src + n) copied to dst, the listed ones alone. -/
def memCopy (m : List Host.Cell) (src dst n : Nat) : List Host.Cell :=
  (trange src (src + n) m).foldl (fun acc c => memPut acc (dst + (c.1 - src)) c.2) (memZero m dst n)

/-- The byte of a location, read by the obligations. -/
def byteAt (s : State) (a : Nat) : Byte := memGet s.mem a

/-- Storage location of a physical address at which the device reads tables and writes records: region 0b000 under
PLACE 0 within that view, or region 0b010 (R99, R101, R131). -/
def xorFold (v : Nat) : Nat → Nat → Nat
  | _, 0 => 0
  | i, n + 1 => Nat.xor (v / 4 ^ i % 4) (xorFold v (i + 1) n)
def f14 (pa : Nat) : Nat := xorFold pa 7 13
def f18 (pa : Nat) : Nat := xorFold pa 9 11
def locPlace0 (pa : Nat) : Nat :=
  locHbm (Nat.xor (pa / 2 ^ 12 % 4) (f14 pa)) (pa / 2 ^ 14 * 2 ^ 12 + pa % 2 ^ 12)
def tableLoc (pa : Nat) : Option Nat :=
  if pa < 0xC000000000 then some (locPlace0 pa)
  else if pa / 2 ^ 49 = 2 then some (locHost (pa % 2 ^ 49))
  else none

/-- Whether a location lies on an HBM4 stack whose supply has left tolerance (R508, R103). -/
def onBadStack (s : State) (loc : Nat) : Bool :=
  decide (loc < 2 ^ 40) && s.pkg.badStacks.contains (3 * (loc / 2 ^ 38) + loc % 2 ^ 38 / 256 % 3)
/-- The location code of an uncorrectable sector (R471). -/
def badAt (s : State) (loc : Nat) : Option Nat :=
  if onBadStack s loc then some 1 else tfind s.poison (loc / 32)

/-! ### Monitors (R168): a write to a monitored word fires it. -/

def monHit (a n : Nat) (t : Strand) : Bool :=
  match t.mon with
  | some m => m.armed && decide (m.loc < a + n ∧ a < m.loc + (if m.w64 then 8 else 4))
  | none => false

/-- The positions whose monitor a write of n bytes at a location fires. -/
def firedBy (s : State) (a n : Nat) : List Nat := tkeys (s.strands.filter (fun e => monHit a n e.2))

/-- The Crossings from die a to its neighbour or its diagonal b, each as the die it leads into and the number of the Crossing:
0 North, 1 South, 2 West, 3 East (R17, R18).
(DESIGN CHOICE: notes/assumptions/66.md) -/
def crossRoute (a b : Nat) : List (Nat × Nat) :=
  let ns := (Nat.xor a 1, a / 2)
  match Nat.xor a b with
  | 0 => []
  | 1 => [ns]
  | 2 => [(b, 2 + a % 2)]
  | _ => [ns, (b, 2 + Nat.xor a 1 % 2)]
/-- Whether a request from die a to location `loc` on die h, or its reply, needs a hop that has failed (R472): a Crossing
direction, or a mesh hop on the way between the requester `src` and the location. The host stands behind die 0 and die 2
(R19), and the one of the two that stands in the row of a die serves it. A cell reaches its own scratchpad without a hop, and a
requester whose place the manual does not give has die 4.
(DESIGN CHOICE: notes/assumptions/66.md) -/
def crossed (s : State) (a h src loc : Nat) : Bool :=
  let b := if h < 4 then h else a / 2 * 2
  decide (a < 4) && !s.pkg.failedHops.isEmpty &&
    ((crossRoute a b ++ crossRoute b a).any (fun q =>
      s.pkg.failedHops.any (fun f => decide (f.1 = .crossing ∧ f.2.1 = q.1 ∧ f.2.2.1 = q.2))) ||
    s.pkg.failedHops.any (fun f =>
      decide (f.1 = .mesh ∧ ¬ (locScr src 0 ≤ loc ∧ loc < locScr (src + 1) 0)) &&
        Config.meshNeeds f.2.1 f.2.2.1 f.2.2.2 src loc))
/-- Home die of a storage location: 4 for host memory (R101). -/
def homeDie (loc : Nat) : Nat :=
  if loc < 2 ^ 40 then loc / 2 ^ 38 else if loc < 2 ^ 53 then 4 else dieOf ((loc - 2 ^ 53) / 2 ^ 20)

/-- The copies of some sectors in the remote-data caches of other dies (R120). -/
def copiesOf (s : State) (a n : Nat) : Tab (List (Nat × Nat)) := trange (a / 32) ((a + n - 1) / 32 + 1) s.copies
/-- The grids that hold copies which no invalidation can reach: each is killed (R472).
(DESIGN CHOICE: notes/assumptions/82.md) -/
def cutCopies (s : State) (a n : Nat) : List (Nat × Nat × Nat) :=
  (copiesOf s a n).flatMap fun e =>
    (e.2.filter (fun q => crossed s (homeDie a) q.1 (640 + q.1) a)).map (fun q => (q.2, 8, 32 * e.1))
/-- Every copy of some sectors is invalidated before a write of them is visible (R120). -/
def dropCopies (s : State) (a n : Nat) : State :=
  if s.copies.isEmpty then s
  else (s.setDoomed (s.doomed ++ cutCopies s a n)).setCopies (tclear (a / 32) ((a + n - 1) / 32 + 1) s.copies)
/-- A sector that a cell of another die fetches is then held in the remote-data cache of that die (R118, R120). -/
def noteCopy (s : State) (die grid sec : Nat) : State :=
  let l := tget [] s.copies sec
  if homeDie (32 * sec) = die ∨ 2 ^ 40 ≤ 32 * sec ∨ l.contains (die, grid) then s
  else s.setCopies (tset s.copies sec ((die, grid) :: l))

/-- A write of n bytes performed at its home (R118, R120, R168). -/
def wrHome (s : State) (a n v : Nat) : State :=
  dropCopies ((wr s a n v).setAgenda ((firedBy s a n).map Instr.monitorFire ++ s.agenda)) a n

/-! ### Containment records (R442 to R444) -/

def recordBytes (r : Record) (lost : Nat) : List Nat :=
  [2 ^ 63 + bCode r.fwd * 2 ^ 62 + bCode r.dbl * 2 ^ 61 + r.kind % 256 * 2 ^ 48 + r.cause % 256 * 2 ^ 40
      + r.asid % 2 ^ 16 * 2 ^ 16 + r.pkey.toNat,
    r.seq, r.place.toNat, r.lpos.toNat, r.addr.toNat, r.sval.toNat, r.sinfo.toNat,
    lost % 2 ^ 32 * 2 ^ 32 + r.arg % 2 ^ 32]

def putDwords (s : State) (a : Nat) : List Nat → State
  | [] => s
  | d :: r => putDwords (wrHome s a 8 d) (a + 8) r
/-- Doublewords that the device writes from a storage location up; they replace the sectors that they fill (R471). -/
def writeDwords (s : State) (a : Nat) (l : List Nat) : State :=
  let t := putDwords s a l
  if t.poison.isEmpty then t else t.setPoison (tclear ((a + 31) / 32) ((a + 8 * l.length) / 32) t.poison)

/-- The first slot from `i` on, within `n` tries of a ring of `size`, whose VALID bit is clear. `base` is physical. -/
def freeSlot (s : State) (base size off : Nat) : Nat → Nat → Option Nat
  | _, 0 => none
  | i, n + 1 =>
    match tableLoc (base + 64 * (i % size)) with
    | none => some (i % size)
    | some a => if rd s (a + off + 7) 1 < 128 then some (i % size) else freeSlot s base size off (i + 1) n

/-- Write a record into a slot of the package log; where there is none, it is lost (R444). -/
def logInto (s : State) (r : Record) : Option Nat → State
  | none => s.setPkg { s.pkg with lost := s.pkg.lost + 1 }
  | some i =>
    match tableLoc (0x80000 + s.pkg.asidtab.toNat + 64 * i) with
    | none => s.setPkg { s.pkg with lost := s.pkg.lost + 1 }
    | some a =>
      (writeDwords s a (recordBytes r s.pkg.lost)).setPkg
        { s.pkg with lost := 0, logNext := (i + 1) % 1024, msix := s.pkg.msix + 1 }

/-- Write a record to the package log, or drop it (R444). While the host link is down it is held (R502). -/
def putLog (s : State) (r : Record) : State :=
  if !s.pkg.hostUp then s.setPkg { s.pkg with heldRecs := s.pkg.heldRecs ++ [r] }
  else logInto s r (freeSlot s (0x80000 + s.pkg.asidtab.toNat) 1024 0 s.pkg.logNext 1024)

/-- A record is made: it takes the next SEQ (R442). -/
def stamped (s : State) (r : Record) : Record := { r with seq := s.pkg.seq }
def bumpSeq (s : State) : State := s.setPkg { s.pkg with seq := s.pkg.seq + 1 }

/-- Make a record for the package log. -/
def postLog (s : State) (r : Record) : State := putLog (bumpSeq s) (stamped s r)

/-- Make a record for the supervisor queue of a cell, which goes to the log when the queue is full; a record posted
while NOTE is set makes SQNOTE due (R444, R433). -/
def postSq (s : State) (c : Nat) (r : Record) : State :=
  if (s.cell c).sq.length < 32 then
    putCell (bumpSeq s) c { s.cell c with
      sq := (s.cell c).sq ++ [stamped s r], noteDue := (s.cell c).noteDue || (s.cell c).note, note := false }
  else postLog s { r with fwd := true }

/-- A record about a position of the package. -/
def recAt (s : State) (pos kind : Nat) : Record :=
  { kind := kind, asid := asidIn s (cellOf pos), pkey := keyIn s (cellOf pos), place := ppos s pos,
    lpos := (s.str pos).lpos, grid := (blockIn s (cellOf pos)).grid }

/-- Move the supervisor queue of a cell to the log, in order (R444). -/
def drainSq (s : State) (c : Nat) : State :=
  (s.cell c).sq.foldl (fun t r => putLog t { r with fwd := true }) (putCell s c { s.cell c with sq := [] })

/-! ### Taking a trap (R428 to R434) -/

/-- Why a lane fails a check: cause and CODE, SVAL, ACCESS (R429, R439), and whether the word is the A-slot word. -/
structure TrapInfo where
  cause : Nat
  code : Nat := 0
  sval : Word := 0#64
  access : Nat := 0
  slotA : Bool := false
deriving DecidableEq, Repr

/-- TRAPENTRY (R434). -/
def trapEntry : Word := 0xFFFFFFFFC0000000#64

/-- SINFO of a trap (R439). -/
def sinfoOf (fmask : Nat) (i : TrapInfo) : Word :=
  word (fmask % 65536 * 65536 + i.code % 256 * 256 + bCode i.slotA * 128 + i.access % 16)

/-- A lane whose reason clears goes on, its bundle to be issued (R63); with `past` at the address after it, its instruction
complete (R366). -/
def goOn (past : Bool) (t : Strand) : Strand :=
  { t with
    pc := if past then t.nba else t.pc, st := if t.st = .parked then .ready else t.st, park := .none, wait := .nothing,
    stallMade := false, parkedFor := 0, parkedWas := none, inval := none }
/-- The same for any lane: a FROZEN one keeps its reason until it returns (R435, R440). -/
def clearReason (past : Bool) (t : Strand) : Strand := if t.st = .frozen then { t with woken := some past } else goOn past t

/-- A lane enters FROZEN and keeps its state and its reason (R434); the time it has been parked stands still (R477). -/
def freezeOne (now : Nat) (t : Strand) : Strand :=
  if t.st = .free ∨ t.st = .frozen then t
  else { t with heldSt := t.st, st := .frozen, parkedFor := if t.st = .parked then t.parkedFor + (now - t.parkedAt) else 0 }

/-- The trapping lane enters SUPERVISOR: SCAUSE, SVAL, SRET and SINFO are written, and its next bundle is fetched at
TRAPENTRY (R434). -/
def enterSup (t : Strand) (lane fmask : Nat) (i : TrapInfo) (ret : Word) : Strand :=
  { t with
    heldSt := .ready, st := .supervisor, park := .none, wait := .nothing, paid := false, charged := false, pc := trapEntry,
    scause := word (lane * 4096 + i.cause), sval := i.sval, sret := ret, sinfo := sinfoOf fmask i }

def modStr (s : State) (pos : Nat) (f : Strand → Strand) : State := putStr s pos (f (s.str pos))
def modStrs (s : State) (ls : List Nat) (f : Strand → Strand) : State := ls.foldl (fun t p => modStr t p f) s

/-- Take a trap: one lane of the gang enters SUPERVISOR, every other lane FROZEN, and the gang stands collapsed
(R434, R435). -/
def takeTrap (s : State) (lead pos fmask : Nat) (i : TrapInfo) (ret : Word) : State :=
  modStr (modStrs (putGang s lead { s.gang lead with handler := some pos })
      ((gangLanes s lead).filter (· ≠ pos)) (freezeOne s.time))
    pos (fun t => enterSup t (pos - lead) fmask i ret)

/-- The lanes of a gang as they return after the last `sysret`: each takes the state it held, and one whose reason has cleared
meanwhile returns READY (R437, R435). -/
def thawOne (now : Nat) (t : Strand) : Strand :=
  if t.st = .frozen then
    let u := { t with st := t.heldSt, parkedAt := now, woken := none }
    match t.woken with
    | none => u
    | some past => goOn past u
  else t

/-- A gang stands collapsed while a lane runs its handler, and while lanes of a `trap` still wait for theirs (R431, R434). -/
def collapsed (g : Gang) : Bool := g.handler.isSome || decide (g.trapMask ≠ 0#16)

/-- Return from a trap (R437): the handling lane resumes at SRET in the state it held; while the pending mask of a `trap`
is not empty it stays frozen, otherwise every FROZEN lane of the gang returns. -/
def trapReturn (s : State) (lead pos : Nat) : State :=
  let s1 := putGang (modStr s pos (fun t => { t with pc := t.sret, st := t.heldSt, park := .none, wait := .nothing })) lead
    { s.gang lead with handler := none }
  if (s.gang lead).trapMask = 0#16 then modStrs s1 (gangLanes s1 lead) (thawOne s.time) else modStr s1 pos (freezeOne s.time)

/-- The next lane of the pending mask enters SUPERVISOR, in the gang's next slot cycle (R431). -/
def servePending (s : State) (lead : Nat) : State :=
  let g := s.gang lead
  match (List.range 16).find? (fun i => inMask g.trapMask.toNat i) with
  | none => s
  | some i =>
    let s1 := putGang s lead { g with handler := some (lead + i), trapMask := g.trapMask &&& ~~~(BitVec.ofNat 16 (2 ^ i)) }
    modStr s1 (lead + i) (fun t => enterSup { t with woken := none } i g.trapMask.toNat { cause := 1, sval := t.tcode } t.tnba)

end Sys2Proof.Machine
end

