-- ==== Sys2Proof/Machine/Mem.lean ====
section
/-!
DEFINITION. Address translation (spec/05_translation.md), the checks of an access at issue in the order of R462, the L1 of
a cell (spec/06_consistency_model.md R158, R159) and accesses performed at their homes (spec/04_memory_hierarchy.md).
-/
namespace Sys2Proof.Machine

open Sys2Proof

/-- Canonical virtual addresses (R96). -/
def canonical (va : Word) : Bool := decide (va.toNat < 2 ^ 56 ∨ 2 ^ 64 - 2 ^ 56 ≤ va.toNat)

/-- The two scratchpad windows (R97): cell number (none: the issuing cell; a number above 639 when the cell field exceeds
159) and offset. -/
inductive Win where
  | no
  | cell (off : Nat)
  | die (die cell off : Nat)
deriving DecidableEq, Repr

def window (va : Word) : Win :=
  if 0xFFFFFFFFFFF00000 ≤ va.toNat then .cell (va.toNat % 2 ^ 20)
  else if 0xFFFFFFFF80000000 ≤ va.toNat ∧ va.toNat < 0xFFFFFFFFC0000000 then
    .die (field va.toNat 28 2) (field va.toNat 20 8) (va.toNat % 2 ^ 20)
  else .no

/-- The storage location of a physical address under a PLACE, or the XLATE sub-cause of R463 (R99, R101). -/
def placeTarget (s : State) (place pa : Nat) : Target ⊕ Nat :=
  let region := pa / 2 ^ 49
  let mid := pa / 2 ^ 40 % 2 ^ 9
  let a := pa % 2 ^ 40
  if 4 ≤ region then .inr 6
  else if region = 3 then (if place = 0 then .inl (.dev (pa % 2 ^ 49)) else .inr 5)
  else if region = 2 then (if place = 6 then .inl (.home (locHost (pa % 2 ^ 49)) 4) else .inr 5)
  else if region = 1 then
    if place ≠ 7 ∨ 0xC000000000 ≤ a then .inr 5
    else if mid = s.pkg.pkgnum then .inl (.home (locPlace0 a) (locPlace0 a / 2 ^ 38))
    else .inl (.remote mid a)
  else if mid ≠ 0 then .inr 5
  else if place = 0 then
    (if a < 0xC000000000 then .inl (.home (locPlace0 a) (locPlace0 a / 2 ^ 38)) else .inr 5)
  else if place ≤ 4 then
    (if a < 0x3000000000 then .inl (.home (locHbm (place - 1) a) (place - 1)) else .inr 5)
  else if place = 5 then
    (if a < 0xC000000000 then
      .inl (.home (locHbm (Nat.xor (a / 2 ^ 16 % 4) (f18 a)) (a / 2 ^ 18 * 2 ^ 16 + a % 2 ^ 16))
        (Nat.xor (a / 2 ^ 16 % 4) (f18 a)))
    else .inr 5)
  else .inr 5

/-- A table, ASID-table or bitmap doubleword, or the walk's fault code (R131, R463). -/
def walkRead (s : State) (die src pa : Nat) : Nat ⊕ Nat :=
  match tableLoc pa with
  | none => .inr 4
  | some a =>
    if crossed s die (homeDie a) src a then .inr 8
    else match badAt s a with | some _ => .inr 8 | none => .inl (rd s a 8)

/-- Whether a table entry is well formed: KIND 0b01 and every leaf-only or reserved field zero (R130). -/
def tableOk (e : Nat) : Bool := decide (e % 4 = 1 ∧ field e 2 10 = 0 ∧ field e 52 12 = 0)
/-- Whether a leaf at this level is well formed (R130). -/
def leafOk (e lvl : Nat) : Bool :=
  decide (e % 4 = 2 ∧ lvl ≤ 1 ∧ field e 2 1 = 0 ∧ field e 4 8 = 0 ∧ field e 56 4 = 0
    ∧ field e 12 (9 + 9 * lvl) = 0 ∧ ¬ (field e 54 1 = 1 ∧ field e 53 1 = 0) ∧ ¬ (field e 3 1 = 1 ∧ field e 55 1 = 1))

/-- The leaf a walk finds from a table at level `lvl`, with its level, or the fault code (R134).
(DEDUCED: notes/assumptions/50.md) -/
def walkFrom (s : State) (die src va : Nat) : Nat → Nat → (Nat × Nat) ⊕ Nat
  | 0, t =>
    match walkRead s die src (t + 8 * field va 21 9) with
    | .inr c => .inr c
    | .inl e => if e % 4 = 0 then .inr 2 else if leafOk e 0 then .inl (e, 0) else .inr 3
  | l + 1, t =>
    match walkRead s die src (t + 8 * field va (21 + 9 * (l + 1)) 9) with
    | .inr c => .inr c
    | .inl e =>
      if e % 4 = 0 then .inr 2
      else if tableOk e then walkFrom s die src va l (field e 12 40 * 4096)
      else if leafOk e (l + 1) then .inl (e, l + 1)
      else .inr 3

/-- The sub-page region of a cell that an address lies in (R139). -/
def regionOf (c : CellSt) (va : Nat) : Option (Nat × Nat) :=
  (List.range 4).findSome? fun n =>
    let r := (tget 0#64 c.subva n).toNat
    let g := field va 21 36
    if r / 2 ^ 63 = 1 ∧ field r 21 36 ≤ g ∧ g - field r 21 36 ≤ r % 2 ^ 16 then some (n, g - field r 21 36) else none

/-- The granule of which the misses of a cell share one walk: a chunk in a region, 2 MiB elsewhere (R142). -/
def walkKey (c : CellSt) (va : Nat) : Nat :=
  if (regionOf c va).isSome then va / 65536 * 65536 else va / 2 ^ 21 * 2 ^ 21
/-- The fault code of a failed walk that is held for an address (R462). -/
def heldFail (c : CellSt) (fails : List (Nat × Nat)) (va : Nat) : Option Nat :=
  (fails.find? (fun f => decide (f.1 = walkKey c va))).map (·.2)

/-- A whole walk for an ASID and an address of a cell, the sub-page doubleword included, or its fault code (R134, R139).
`sub` is the cell whose regions apply; the walk reads from die `die`, for `src`. -/
def walkAll (s : State) (die src : Nat) (sub : CellSt) (asid va : Nat) : TlbEnt ⊕ Nat :=
  match walkRead s die src (s.pkg.asidtab.toNat + 8 * asid) with
  | .inr c => .inr c
  | .inl e0 =>
    if e0 / 2 ^ 63 = 0 then .inr 1
    else if field e0 52 11 ≠ 0 ∨ e0 % 4096 ≠ 0 then .inr 3
    else
      match walkFrom s die src va 3 (field e0 12 40 * 4096) with
      | .inr c => .inr c
      | .inl (e, lvl) =>
        let span := 2 ^ (21 + 9 * lvl)
        match placeTarget s (field e 60 4) (field e 12 40 * 4096) with
        | .inr c => .inr c
        | .inl _ =>
          let ent : TlbEnt := {
            asid := asid, va := va / span * span, span := span, base := field e 12 40 * 4096,
            place := field e 60 4, x := decide (field e 55 1 = 1), w := decide (field e 54 1 = 1),
            rd := decide (field e 53 1 = 1), sup := decide (field e 52 1 = 1),
            dev := decide (field e 3 1 = 1 ∨ field e 49 3 = 3), chunk := none }
          match regionOf sub va with
          | none => .inl ent
          | some (n, g) =>
            match walkRead s die src (field (tget 0#64 sub.submap n).toNat 8 44 * 256 + 256 * g + 8 * (field va 10 11 / 64)) with
            | .inr c => .inr c
            | .inl d => .inl { ent with
                va := va / 65536 * 65536, span := 65536,
                base := ent.base + va / 65536 * 65536 % span, chunk := some (word d) }

/-- The TLB entry of a cell that maps an address (R140).
(DESIGN CHOICE: notes/assumptions/17.md) -/
def tlbFind (l : List TlbEnt) (asid va : Nat) : Option TlbEnt :=
  l.find? fun e => decide (e.asid = asid ∧ e.va ≤ va ∧ va < e.va + e.span)

/-- What a `tlbinv` names (R144). -/
def Inval.hitsAsid (i : Inval) (a : Nat) : Bool := match i.asid with | none => true | some b => decide (a = b)
def Inval.hits (i : Inval) (e : TlbEnt) : Bool :=
  i.hitsAsid e.asid && (match i.va with | none => true | some v => decide (e.va ≤ v ∧ v < e.va + e.span))
/-- Whether it names an address of an ASID, as far as walks go: their granules are 2 MiB at most (R142). -/
def Inval.near (i : Inval) (asid va : Nat) : Bool :=
  i.hitsAsid asid && (match i.va with | none => true | some v => decide (v / 2 ^ 21 = va / 2 ^ 21))
/-- Whether a `tlbinv` that names an address has not retired: no structure takes a new entry for it before (R144). -/
def invalOpen (s : State) (asid va : Nat) : Bool :=
  s.strands.any (fun e => match e.2.inval with | some i => i.near asid va | none => false)

/-- Entries of one TLB at most (R140); an older entry leaves when a new one comes. -/
def tlbAdd (l : List TlbEnt) (e : TlbEnt) : List TlbEnt := e :: l.take 16383

/-- The kinds of access, by the code of SINFO.ACCESS (R439). -/
inductive Acc where
  | fetch
  | load
  | store
  | atomic
  | wait
  | xferSrc
  | chaseStart
  | desc
  | accum (write : Bool)
  | devLoad
  | devStore
deriving DecidableEq, Repr

def Acc.code : Acc → Nat
  | .fetch => 1
  | .load => 2
  | .store => 3
  | .atomic => 4
  | .wait => 5
  | .xferSrc => 6
  | .chaseStart => 7
  | .desc => 8
  | .accum _ => 9
  | .devLoad => 2
  | .devStore => 3

def Acc.isDev : Acc → Bool
  | .devLoad => true
  | .devStore => true
  | _ => false
def Acc.reads : Acc → Bool
  | .fetch => false
  | .store => false
  | .devStore => false
  | .accum w => !w
  | _ => true
def Acc.writes : Acc → Bool
  | .store => true
  | .devStore => true
  | .atomic => true
  | .accum w => w
  | _ => false

/-- The rights check of a translated access (R136, R100, R463). -/
def rightsFail (e : TlbEnt) (k : Acc) (sup : Bool) : Option Nat :=
  if e.sup && !sup then some 4
  else match k with
    | .fetch => if e.x && !e.dev then none else some 1
    | _ =>
      if e.dev && !k.isDev then some 5
      else if k.reads && !e.rd then some 2
      else if k.writes && !e.w then some 3
      else none

/-- The outcome of one lane's access checks (R462). -/
inductive AccRes where
  | ok (t : Target)
  | walk
  | fail (i : TrapInfo)
deriving DecidableEq, Repr

def failAcc (k : Acc) (cause code : Nat) (va : Word) : AccRes := .fail { cause := cause, code := code, sval := va, access := k.code }

/-- A window access of a cell (R98, R463): the target's scratchpad byte. -/
def windowTarget (s : State) (c : Nat) (k : Acc) (va : Word) (n : Nat) (cell off : Nat) (field : Nat) : AccRes :=
  if k = .fetch ∨ k = .chaseStart then failAcc k 9 7 va
  else if k.isDev then failAcc k 9 4 va
  else if 160 ≤ field then failAcc k 9 2 va
  else if (s.cell cell).block.isNone ∨ keyIn s cell ≠ keyIn s c then failAcc k 9 3 va
  else if (s.cell cell).scrsz * 65536 < off + n then failAcc k 9 1 va
  else .ok (.scr cell off)

/-- Steps 1 to 6 of R462 for an access of `n` bytes aligned to `al` at a virtual address. -/
def checkAcc (s : State) (c : Nat) (fails : List (Nat × Nat)) (k : Acc) (sup : Bool) (va : Word) (n al : Nat) : AccRes :=
  if !canonical va then failAcc k 6 7 va
  else if va.toNat % al ≠ 0 then failAcc k 5 1 va
  else match window va with
    | .cell off => windowTarget s c k va n c off 0
    | .die d x off => windowTarget s c k va n (160 * d + x) off x
    | .no =>
      match tlbFind (s.cell c).tlb (asidIn s c) va.toNat with
      | none =>
        match heldFail (s.cell c) fails va.toNat with
        | some code => failAcc k 6 code va
        | none => .walk
      | some e =>
        if (match e.chunk with | some b => b.getLsbD (field va.toNat 10 6) | none => true) then
          match rightsFail e k sup with
          | some r => failAcc k 7 r va
          | none =>
            match placeTarget s e.place (e.base + (va.toNat - e.va)) with
            | .inl t => .ok t
            | .inr r => failAcc k 6 r va
        else failAcc k 8 0 va

/-- The same for a scratchpad offset of the issuing cell (R317, R318). -/
def checkScr (s : State) (c : Nat) (k : Acc) (off : Word) (n al : Nat) : AccRes :=
  if off.toNat % al ≠ 0 then failAcc k 5 1 off
  else if (s.cell c).scrsz * 65536 < off.toNat + n then failAcc k 9 1 off
  else .ok (.scr c off.toNat)

/-! ### The L1 (R106 to R108, R158, R159) -/

/-- `n` bytes at byte `i` of a sector value. -/
def secGet (d : BitVec 256) (i n : Nat) : Nat := d.toNat / 2 ^ (8 * i) % 2 ^ (8 * n)
/-- A sector value with `n` bytes from byte `i` replaced. -/
def secPut (d : BitVec 256) (i n v : Nat) : BitVec 256 :=
  BitVec.ofNat 256 (d.toNat - secGet d i n * 2 ^ (8 * i) + v % 2 ^ (8 * n) * 2 ^ (8 * i))
def byteMask (i n : Nat) : BitVec 32 := BitVec.ofNat 32 ((2 ^ n - 1) * 2 ^ i)

/-- A sector value with the masked bytes of another. -/
def secMerge (base top : BitVec 256) (m : BitVec 32) : Nat → BitVec 256
  | 0 => base
  | n + 1 => let b := secMerge base top m n; if m.getLsbD n then secPut b n 1 (secGet top n 1) else b

/-- Write the dirty bytes of a sector value to its home (R108, R159). -/
def writeDirty (s : State) (loc : Nat) (d : BitVec 256) (m : BitVec 32) : Nat → State
  | 0 => s
  | n + 1 =>
    let t := writeDirty s loc d m n
    if m.getLsbD n then wrHome t (loc + n) 1 (secGet d n 1) else t

/-- The physical address of a location of HBM4, under PLACE 0, or of host memory; the offset of a scratchpad location.
(DEDUCED: notes/assumptions/65.md) -/
def paOf (loc : Nat) : Nat :=
  if loc < 2 ^ 40 then
    let hi := loc % 2 ^ 38 / 4096 * 2 ^ 14
    hi + Nat.xor (loc / 2 ^ 38) (f14 hi) * 4096 + loc % 4096
  else if loc < 2 ^ 53 then 2 ^ 50 + (loc - 2 ^ 52)
  else (loc - 2 ^ 53) % 2 ^ 20

/-- The DATAERR record of a dropped write goes to the cell that made the write while it holds a block of the record's grid, and
to the log otherwise (R469). -/
def dropWrite (s : State) (c : Nat) (rec : Record) (loc code n : Nat) : State :=
  let r := { rec with sval := word (paOf loc), sinfo := word (3 + 256 * code), arg := n }
  if (s.cell c).block.isSome && decide ((blockIn s c).grid = rec.grid) then postSq s c r else postLog s r
/-- A write of less than a whole sector that meets an uncorrectable sector is dropped and makes a DATAERR record; a whole
sector replaces it (R471, R469). A write that needs a failed Crossing is dropped in the same way (R472).
(DEDUCED: notes/assumptions/28.md) -/
def sectorWrite (s : State) (c : Nat) (rec : Record) (loc : Nat) (whole : Bool) (f : State → State) (n : Nat) : State :=
  if crossed s (dieOf c) (homeDie loc) c loc then dropWrite s c rec loc 8 n
  else match badAt s loc with
    | none => f s
    | some code =>
      if whole && !onBadStack s loc then (f s).setPoison (tdel s.poison (loc / 32)) else dropWrite s c rec loc code n

/-- The record of a dropped write of a grid (R469). -/
def dataRec (s : State) (g : Nat) : Record := { kind := 6, cause := 10, asid := (s.grid g).asid, pkey := (s.grid g).pkey, grid := g }

/-- Write back the dirty bytes of one sector of a cell's L1 and drop it from the L1 (R158). An uncorrectable copy is dropped as it is;
if it was dirty, the grid that wrote it last ends (R471). -/
def l1Flush (s : State) (c sec : Nat) : State :=
  match tfind (s.cell c).l1 sec with
  | none => s
  | some l =>
    let t := putCell s c { s.cell c with l1 := tdel (s.cell c).l1 sec }
    if l.dirty = 0#32 then t
    else if l.bad then t.setDoomed (t.doomed ++ [(l.grid, 5, 32 * sec)])
    else sectorWrite t c (dataRec t l.grid) (32 * sec) (l.dirty = BitVec.allOnes 32)
      (fun u => writeDirty u (32 * sec) l.data l.dirty 32) ((List.range 32).countP (fun i => l.dirty.getLsbD i))

/-- Write every dirty byte of a cell's L1 back to its home: the release action at scope die or wider (R158). The
sectors stay in the L1, clean where the cell holds them whole. -/
def l1WriteBack (s : State) (c : Nat) : State :=
  (tkeys ((s.cell c).l1.filter (fun e => decide (e.2.dirty ≠ 0#32)))).foldl (fun t sec => l1Flush t c sec) s

/-- Sectors that the L1 of a cell has room for: what the scratchpad leaves of 1 MiB (R26, R104). -/
def l1Size (x : CellSt) : Nat := 32768 - 2048 * x.scrsz
/-- The sector of an L1 that was filled first. -/
def oldestL1 : Tab L1Sector → Option (Nat × L1Sector)
  | [] => none
  | e :: r => match oldestL1 r with | none => some e | some m => if m.2.filled < e.2.filled then some m else some e
/-- Some sectors more than the L1 has room for leave it, those filled first (R26, R159).
(DESIGN CHOICE: notes/assumptions/16.md) -/
def l1Trim (s : State) (c : Nat) : Nat → State
  | 0 => s
  | n + 1 => match oldestL1 (s.cell c).l1 with | none => s | some e => l1Trim (l1Flush s c e.1) c n

/-- Invalidate every clean sector of a cell's L1: the acquire action at scope die or wider (R158). Of a sector with dirty
bytes those bytes alone stay. -/
def l1DropClean (s : State) (c : Nat) : State :=
  putCell s c { s.cell c with
    l1 := ((s.cell c).l1.filter (fun e => decide (e.2.dirty ≠ 0#32))).map (fun e => (e.1, { e.2 with held := e.2.dirty })) }

/-- Whether a scope reaches beyond the cell (R158). -/
def wide (sc : Scope) : Bool := decide (1 ≤ sc.rank)
/-- The wider of two scopes, as far as the L1 goes. -/
def wider (o : Option Scope) (sc : Scope) : Option Scope := match o with | some x => if wide x then some x else some sc | none => some sc
def acqL1 (s : State) (c : Nat) (o : Option Scope) : State :=
  match o with | some sc => if wide sc then l1DropClean s c else s | none => s
def relL1 (s : State) (c : Nat) (o : Option Scope) : State :=
  match o with | some sc => if wide sc then l1WriteBack s c else s | none => s

/-- Whether an L1 sector can serve `n` bytes: the cell holds them, and a copy with clean bytes was filled no more than
8,192 cycles ago (R159).
(DESIGN CHOICE: notes/assumptions/16.md) -/
def l1Serves (s : State) (l : L1Sector) (i n : Nat) : Bool :=
  decide (l.held &&& byteMask i n = byteMask i n) &&
    (decide (l.dirty &&& byteMask i n = byteMask i n) || decide (s.time ≤ l.filled + 8192))

/-- The mask of one pipe. -/
def onePipe (pipe : Nat) : BitVec 16 := BitVec.ofNat 16 (2 ^ pipe)
/-- Whether a load of a pipe finds a sector of its cell's L1: under private banking in its own partition, or dirty in another, which
then serves it (R106, R108). -/
def l1Mine (x : CellSt) (l : L1Sector) (pipe : Nat) : Bool := x.bank || decide (l.dirty ≠ 0#32) || l.parts.getLsbD pipe
/-- Whether the L1 of a cell serves n bytes at a for a pipe: an uncorrectable copy does not (R471). -/
def l1Hit (s : State) (c pipe a n : Nat) : Bool :=
  match tfind (s.cell c).l1 (a / 32) with
  | some l => !l.bad && l1Serves s l (a % 32) n && l1Mine (s.cell c) l pipe
  | none => false
/-- An uncorrectable copy of a sector leaves the L1 when an access finds it (R471). -/
def l1Check (s : State) (c sec : Nat) : State :=
  match tfind (s.cell c).l1 sec with | some l => if l.bad then l1Flush s c sec else s | none => s

/-- Fill a sector into the L1 for a pipe: the home's bytes under the dirty bytes (R108, R119). -/
def l1Fill (s : State) (c pipe sec : Nat) : State :=
  let home := BitVec.ofNat 256 (rd s (32 * sec) 32)
  let l := tget { data := home, held := 0#32, dirty := 0#32, filled := s.time, grid := 0, parts := 0#16 } (s.cell c).l1 sec
  putCell s c { s.cell c with
    l1 := tset (s.cell c).l1 sec { l with
      data := secMerge home l.data l.dirty 32, held := BitVec.allOnes 32, filled := s.time, parts := l.parts ||| onePipe pipe } }

/-- Bytes [a, a + n) of one sector as a pipe of a cell sees them in the L1, after a fill where the L1 cannot serve them. -/
def l1Load (s : State) (c pipe a n : Nat) : State × Nat :=
  let t := if l1Hit s c pipe a n then s
    else noteCopy (l1Fill (l1Check s c (a / 32)) c pipe (a / 32)) (dieOf c) (blockIn s c).grid (a / 32)
  (t, match tfind (t.cell c).l1 (a / 32) with | some l => secGet l.data (a % 32) n | none => 0)

/-- The next number for work in flight. -/
def takeFresh (s : State) : State := s.setFresh (s.fresh + 1)

/-- A relaxed store of n bytes within a sector into the L1: the bytes are dirty until they are performed at the home
(R108, R159, R320). Under private banking the sector then lies in the partition of the storing pipe alone (R108). -/
def l1Store (s0 : State) (c pos a n v : Nat) : State :=
  let sec := a / 32
  let s := l1Check s0 c sec
  let g := (blockIn s c).grid
  let l := tget { data := 0#256, held := 0#32, dirty := 0#32, filled := s.time, grid := g } (s.cell c).l1 sec
  let t := putCell s c { s.cell c with
    l1 := tset (s.cell c).l1 sec { l with
      data := secPut l.data (a % 32) n v, dirty := l.dirty ||| byteMask (a % 32) n, grid := g, parts := onePipe (pipeOf pos)
      held := (if l1Mine (s.cell c) l (pipeOf pos) then l.held else 0#32) ||| byteMask (a % 32) n } }
  takeFresh (t.setStores (tset t.stores s.fresh { cell := c, pos := pos, grid := g, sector := sec, due := s.time + s.pace.store }))

/-! ### Request counters (R121, R122) -/

/-- Storage sectors of an access with their home die; scratchpad and device accesses are not counted. -/
def countable : Target → Option (Nat × Nat)
  | .home loc d => some (loc / 32, d)
  | .remote p a => some (2 ^ 60 + (p * 2 ^ 40 + a) / 32, 5)
  | .scr _ _ => none
  | .dev _ => none

/-- The sectors that an access of n bytes touches. -/
def sectorsOf (t : Target) (n : Nat) : List (Nat × Nat) :=
  match t with
  | .home loc d => (List.range ((loc + n - 1) / 32 + 1 - loc / 32)).map (fun i => (loc / 32 + i, d))
  | .remote p a => (List.range ((a + n - 1) / 32 + 1 - a / 32)).map (fun i => (2 ^ 60 + p * 2 ^ 35 + a / 32 + i, 5))
  | .scr _ _ => []
  | .dev _ => []

def dedupN : List (Nat × Nat) → List (Nat × Nat)
  | [] => []
  | x :: r => if r.contains x then dedupN r else x :: dedupN r

/-- Count the distinct sectors of one instruction in LCLREQ and RMTREQ of the issuing cell. -/
def countReq (s : State) (c : Nat) (secs : List (Nat × Nat)) : State :=
  let l := dedupN secs
  let near := (l.filter (fun x => decide (x.2 = dieOf c))).length
  putCell s c { s.cell c with
    lclreq := (s.cell c).lclreq + word near, rmtreq := (s.cell c).rmtreq + word (l.length - near) }

end Sys2Proof.Machine
end

