-- ==== Sys2Proof/Machine/Fabric.lean ====
section
/-!
DEFINITION. Flits, planes and outstanding requests of the Preik fabric (spec/14_host_fabric_and_boot.md R406 to R408,
spec/21_fabric_and_link_errors.md R496 to R500).
-/
namespace Sys2Proof.Machine

open Sys2Proof

/-- CRC-32C, one bit and one byte at a time, least significant bit first. -/
def crcBits (c : Nat) : Nat → Nat
  | 0 => c
  | n + 1 => crcBits (if c % 2 = 1 then Nat.xor (c / 2) 0x82F63B78 else c / 2) n
def crcBytes (c v : Nat) : Nat → Nat
  | 0 => c
  | n + 1 => crcBytes (crcBits (Nat.xor c (v % 256)) 8) (v / 256) n
/-- The CRC of the low 60 bytes of a flit (R407). -/
def crcOf (v : Nat) : Nat := Nat.xor (crcBytes 0xFFFFFFFF v 60) 0xFFFFFFFF

/-- Fields of a flit (R407). -/
def flitType (f : BitVec 512) : Nat := field f.toNat 0 8
def flitOrd (f : BitVec 512) : Nat := field f.toNat 8 8
def flitSrc (f : BitVec 512) : Nat := field f.toNat 16 9
def flitDst (f : BitVec 512) : Nat := field f.toNat 32 9
def flitTag (f : BitVec 512) : Nat := field f.toNat 48 16
def flitKey (f : BitVec 512) : BitVec 16 := BitVec.ofNat 16 (field f.toNat 64 16)
def flitAddr (f : BitVec 512) : Nat := field f.toNat 128 64
def flitData (f : BitVec 512) : BitVec 256 := BitVec.ofNat 256 (field f.toNat 192 256)
def flitMask (f : BitVec 512) : BitVec 32 := BitVec.ofNat 32 (field f.toNat 448 32)
/-- Whether a flit carries the CRC of its bytes. -/
def flitGood (f : BitVec 512) : Bool := decide (field f.toNat 480 32 = crcOf (f.toNat % 2 ^ 480))

def mkFlit (ty ord src dst tag : Nat) (key : BitVec 16) (addr : Nat) (data : BitVec 256) (mask : BitVec 32) : BitVec 512 :=
  let v := ty % 256 + ord % 32 * 2 ^ 8 + src % 512 * 2 ^ 16 + dst % 512 * 2 ^ 32 + tag % 65536 * 2 ^ 48
    + key.toNat * 2 ^ 64 + addr % 2 ^ 64 * 2 ^ 128 + data.toNat * 2 ^ 192 + mask.toNat * 2 ^ 448
  BitVec.ofNat 512 (v + crcOf v * 2 ^ 480)

/-- The plane of a memory request (R406). -/
def planeFrom (a : Nat) : Nat → Nat
  | 0 => 0
  | n + 1 => Nat.xor (a % 2 ^ 40 / 2 ^ (5 * n + 8) % 32) (planeFrom a n)
def planeOf (a : Nat) : Nat := planeFrom a 7
/-- The plane of a delivery, a notice or a message (R406). -/
def planeOfCell (die cell : Nat) : Nat := (160 * die + cell) % 32

def portOf (s : State) (n : Nat) : Port := tget {} s.pkg.ports n
def putPort (s : State) (n : Nat) (p : Port) : State := s.setPkg { s.pkg with ports := tset s.pkg.ports n p }
/-- FABCFG.LINKS: the ports that are FULL, ERASED or NARROW (R496). -/
def portUp (p : Port) : Bool := decide (1 ≤ p.state ∧ p.state ≤ 3)
/-- Whether a plane carries requests to a package (R499, R501). -/
def usable (s : State) (dst n : Nat) : Bool :=
  portUp (portOf s n) && !s.pkg.unusable.contains (dst, n) && !s.pkg.lostPlanes.contains n

/-- The plane of R499: the preferred one while its port is up or trains, otherwise the lowest above it, wrapping at 31. -/
def choosePlane (s : State) (dst pref : Nat) : Option Nat :=
  if usable s dst pref ∨ ((portOf s pref).state = 4 ∧ ¬ s.pkg.unusable.contains (dst, pref) ∧ ¬ s.pkg.lostPlanes.contains pref) then
    some pref
  else ((List.range 32).map (fun i => (pref + i) % 32)).find? (usable s dst)

/-- Send a flit on a plane; a port that trains queues it (R497). -/
def sendOn (s : State) (n : Nat) (f : BitVec 512) : State :=
  if (portOf s n).state = 4 then putPort s n { portOf s n with queue := (portOf s n).queue ++ [f] }
  else s.setPkg { s.pkg with sent := (n, f) :: s.pkg.sent }

/-- Key of an outstanding request among the package's (R408). -/
def reqKey (dst tag : Nat) : Nat := dst * 65536 + tag
/-- A TAG that is neither outstanding to a package nor freed within the last 4 × E2ETIME die cycles (R408, R500). -/
def tagFree (s : State) (dst t : Nat) : Bool :=
  (tfind s.pkg.reqs (reqKey dst t)).isNone &&
    !s.pkg.freedTags.any (fun x => decide (x.1 = dst ∧ x.2.1 = t ∧ s.time < x.2.2 + 4 * s.pkg.e2etime))
/-- The first such TAG from `t` on, within n of them (R408). -/
def freeTag (s : State) (dst t : Nat) : Nat → Option Nat
  | 0 => none
  | n + 1 => if tagFree s dst t then some t else freeTag s dst (t + 1) n

/-- Whether new requests for a destination and a plane are held back (R499). -/
def holdsBack (s : State) (dst n : Nat) : Bool :=
  s.pkg.reqs.any (fun e => decide (e.2.dst = dst ∧ e.2.orig = n ∧ e.2.plane ≠ n))

/-- The die at which traffic of a die meets the I/O die of a port: the one attached to that I/O die that the North or South Crossing
joins it with, or the die itself (R18, R19).
(DESIGN CHOICE: notes/assumptions/66.md) -/
def portDie (die n : Nat) : Nat := die / 2 * 2 + n / 16 % 2
/-- Whether the way between a requester on a die and the I/O die of a plane's port needs a hop that has failed (R472). -/
def portCrossed (s : State) (src : Nat × Nat) (n : Nat) : Bool := crossed s src.1 (portDie src.1 n) src.2 (2 ^ 61 + n)
/-- What becomes of a request to another package: it sets out, or fails with a location code (R472, R499). -/
inductive Sent where
  | out (t : State)
  | fail (code : Nat)
def Sent.getD (x : Sent) (s : State) : State := match x with | .out t => t | .fail _ => s
/-- Send a request flit to another package (R406, R499), from a requester `src` on a die: (die, requester).
(DEDUCED: notes/assumptions/23.md) -/
def newRequest (s : State) (src : Nat × Nat) (dst pref ty ord : Nat) (key : BitVec 16) (addr : Nat) (data : BitVec 256)
    (mask : BitVec 32) (who : ReqFor) : Sent :=
  match choosePlane s dst pref, freeTag s dst 0 65536 with
  | some n, some tag =>
    if portCrossed s src n then .fail 8
    else
      let f := mkFlit ty ord s.pkg.pkgnum dst tag key addr data mask
      let held := holdsBack s dst n
      let s1 := s.setPkg { s.pkg with
        reqs := tset s.pkg.reqs (reqKey dst tag) {
          dst := dst, orig := n, plane := n, flit := f, who := who, held := held, due := s.time + s.pkg.e2etime } }
      .out (if held then s1 else sendOn s1 n f)
  | _, _ => .fail 9
/-- A cell as a requester. -/
def fromCell (c : Nat) : Nat × Nat := (dieOf c, c)

/-! ### Sectors of other packages read at issue

A bundle, a descriptor and a launch record are read when the bundle that needs them issues. Where such a read names another
package, the sector is fetched into the cell's L1 first and the bundle waits for it. -/

/-- Key of a sector of another package in an L1. -/
def farKey (pkg pa : Nat) : Nat := (2 ^ 56 + pkg * 2 ^ 40 + pa) / 32

/-- What a read of n bytes at issue meets: the value, an uncorrectable sector with its code and the bytes before it, or
sectors that are not here yet. -/
inductive Peek where
  | val (v : Nat)
  | bad (code skip : Nat)
  | far (keys : List Nat)
deriving DecidableEq, Repr

/-- One sector of another package: its value in the L1, or the failure held for the bundle.
(DESIGN CHOICE: notes/assumptions/15.md)
(DESIGN CHOICE: notes/assumptions/24.md) -/
def farSector (s : State) (c p key : Nat) : Peek :=
  match tfind (s.cell c).l1 key with
  | some l => if l1Serves s l 0 32 then .val l.data.toNat else .far [key]
  | none =>
    match (s.str p).readFail.find? (fun f => decide (f.1 = key)) with
    | some f => .bad f.2 0
    | none => .far [key]

/-- Bytes of a location as a cell's loads see them, without a fill (R119, R471). -/
def nearByte (s : State) (c a : Nat) : Nat :=
  match tfind (s.cell c).l1 (a / 32) with
  | some l => if l1Serves s l (a % 32) 1 then secGet l.data (a % 32) 1 else rd s a 1
  | none => rd s a 1
def nearBytes (s : State) (c a : Nat) : Nat → Nat
  | 0 => 0
  | n + 1 => nearByte s c a + 256 * nearBytes s c (a + 1) n
/-- Whether a cell's L1 serves the whole of a sector. -/
def nearServes (s : State) (c sec : Nat) : Bool :=
  match tfind (s.cell c).l1 sec with | some l => l1Serves s l 0 32 | none => false

/-- Join what a sector meets, `skip` bytes into the read, with what the sectors after it meet. -/
def joinPeek (a : Peek) (skip : Nat) (b : Peek) : Peek :=
  match a, b with
  | .far l, .far m => .far (l ++ m)
  | .far l, _ => .far l
  | _, .far m => .far m
  | .bad code _, _ => .bad code skip
  | .val v, .val w => .val (v + w * 2 ^ 256)
  | .val _, x => x
def farRead (s : State) (c p pkg pa : Nat) : Nat → Nat → Peek
  | _, 0 => .val 0
  | i, n + 1 =>
    joinPeek (farSector s c p (farKey pkg (pa + 32 * i))) (if i = 0 then 0 else 32 * i - pa % 32) (farRead s c p pkg pa (i + 1) n)
/-- The first of the sectors of [loc, loc + n) that is uncorrectable where `hid` does not hide it, as a failed read.
(DEDUCED: notes/assumptions/38.md) -/
def badPeek (s : State) (loc n : Nat) (hid : Nat → Bool) : Option Peek :=
  (List.range ((loc + n - 1) / 32 + 1 - loc / 32)).findSome? fun i =>
    match badAt s (32 * (loc / 32 + i)) with
    | some code => if hid (loc / 32 + i) then none else some (.bad code (if i = 0 then 0 else 32 * i - loc % 32))
    | none => none

/-- Read n bytes, within one aligned 64-byte block, for the bundle that position p issues. -/
def peek (s : State) (c p : Nat) (t : Target) (n : Nat) : Peek :=
  match t with
  | .home loc die =>
    if crossed s (dieOf c) die c loc ∧ !((List.range ((loc + n - 1) / 32 + 1 - loc / 32)).all (fun i => nearServes s c (loc / 32 + i))) then
      .bad 8 0
    else (badPeek s loc n (nearServes s c)).getD (.val (nearBytes s c loc n))
  | .scr cell off =>
    if crossed s (dieOf c) (dieOf cell) c (locScr cell off) then .bad 8 0
    else (badPeek s (locScr cell off) n (fun _ => false)).getD (.val (rd s (locScr cell off) n))
  | .remote pkg pa =>
    (match farRead s c p pkg pa 0 ((pa + n - 1) / 32 + 1 - pa / 32) with
      | .val v => .val (v / 2 ^ (8 * (pa % 32)) % 2 ^ (8 * n))
      | x => x)
  | .dev _ => .val 0

/-- Ask for a sector of another package; a read that cannot be sent fails with location 0x09 (R499). -/
def askFar (s : State) (c p key : Nat) : State :=
  let a := key * 32 - 2 ^ 56
  if s.pkg.reqs.any (fun e => decide (e.2.who = .fill c key)) then s
  else match newRequest s (fromCell c) (a / 2 ^ 40) (planeOf (a % 2 ^ 40)) 1 0 (keyIn s c) (a % 2 ^ 40) 0#256 (BitVec.allOnes 32)
      (.fill c key) with
    | .out t => t
    | .fail code => modStr s p (fun t => { t with readFail := (key, code) :: t.readFail })

/-- A LINK record (R503). -/
def linkRec (ev : Nat) (sval arg : Nat) : Record := { kind := 8, sinfo := word ev, sval := word sval, arg := arg }

end Sys2Proof.Machine
end

