-- ==== Sys2Proof/Machine/Block.lean ====
section
/-!
DEFINITION. Freeing positions, orphaning messages, pre-empting a block and killing a grid
(spec/17_traps_and_containment.md R445, spec/07_scheduling_and_ring_road.md R173, spec/20_progress_failures.md R486).
-/
namespace Sys2Proof.Machine

open Sys2Proof

/-- The package cells of a block, row by row (R49). -/
def rectCells (die nw w h : Nat) : List Nat :=
  (List.range h).flatMap fun y => (List.range w).map fun x => die * 160 + nw + 16 * y + x
/-- Width and height in cells, slots per cell, gang size and the sizes of a grid (R398). -/
def gridW (g : Grid) : Nat := field g.shape.toNat 22 2 + 1
def gridH (g : Grid) : Nat := field g.shape.toNat 20 2 + 1
def gridGlog (g : Grid) : Nat := field g.shape.toNat 17 3
def gridS (g : Grid) : Nat := field g.shape.toNat 15 2 + 1
def gridScr (g : Grid) : Nat := field g.shape.toNat 11 4
def gridTer (g : Grid) : Nat := field g.shape.toNat 7 4
def gridQclass (g : Grid) : Nat := field g.shape.toNat 4 3
def gridGX (g : Grid) : Nat := field g.shape.toNat 48 16 + 1
def gridGY (g : Grid) : Nat := field g.shape.toNat 32 16 + 1
def gridGZ (g : Grid) : Nat := field g.shape.toNat 24 8 + 1
def gridBlocks (g : Grid) : Nat := gridGX g * gridGY g * gridGZ g

def blockCells (s : State) (b : Nat) : List Nat :=
  let x := s.block b
  rectCells x.die x.nw (gridW (s.grid x.grid)) (gridH (s.grid x.grid))

/-- The positions of a block on its rectangle (R49, R50). -/
def blockPositions (s : State) (b : Nat) : List Nat :=
  (blockCells s b).flatMap fun c =>
    (s.block b).slots.flatMap fun k => (List.range 16).map fun p => 64 * c + 16 * k + p

/-- Write a message to the orphan queue of a cell and make its record (R486, R487). -/
def orphanMsg (s : State) (c : Nat) (m : Msg) (why : Nat) : State :=
  let base := 0x90000 + s.pkg.asidtab.toNat + 512 * c
  let drop := putCell s c { s.cell c with orphDropped := (s.cell c).orphDropped + 1 }
  match freeSlot s base 8 32 (s.cell c).orphNext 8 with
  | none => drop
  | some i =>
    match tableLoc (base + 64 * i) with
    | none => drop
    | some a =>
      let pos := field m.dst.toNat 39 2 * 16 + field m.dst.toNat 41 4
      let s1 := writeDwords s a
        [m.payload.toNat % 2 ^ 64, field m.payload.toNat 64 64, field m.payload.toNat 128 64, field m.payload.toNat 192 64,
          2 ^ 63 + why * 2 ^ 60 + m.key.toNat * 2 ^ 32 + field m.dst.toNat 31 8 * 256 + pos,
          s.pkg.seq, (s.cell c).orphDropped % 2 ^ 32, 0]
      let s2 := putCell s1 c { s1.cell c with orphDropped := 0, orphNext := (i + 1) % 8 }
      postLog s2 {
        kind := 7, place := word (m.dst.toNat / 2 ^ 31 * 2 ^ 31), sinfo := 7#64, sval := word (base + 64 * i), arg := i,
        pkey := m.key }

/-- The messages queued for a position, orphaned when its strand becomes FREE or RETIRED (R486).
(DEDUCED: notes/assumptions/45.md) -/
def orphanQueue (s : State) (pos : Nat) : State :=
  let q := (s.str pos).recvq
  q.foldl (fun t m => orphanMsg t (cellOf pos) m 4) (modStr s pos (fun t => { t with recvq := [] }))

/-- A spilled record of a position in a cell's overflow region, oldest first by SEQ: (SEQ, address) (R374). -/
def ovfRecords (s : State) (c : Nat) : List (Nat × Nat) :=
  let cfg := (s.cell c).ovfcfg.toNat
  if cfg % 32 = 0 then [] else
    (List.range (2 ^ (cfg % 32))).filterMap fun i =>
      match tableLoc (cfg / 4096 * 4096 + 64 * i) with
      | none => none
      | some a => if 128 ≤ rd s (a + 39) 1 then some (rd s (a + 40) 8, a) else none

/-- The least of some (SEQ, address) pairs. -/
def leastSeq : List (Nat × Nat) → Option (Nat × Nat)
  | [] => none
  | x :: r => match leastSeq r with | none => some x | some y => if x.1 ≤ y.1 then some x else some y

/-- The oldest spilled message of a position with GEN and key (R373, R374). -/
def oldestSpilled (s : State) (pos : Nat) (gen : Nat) (key : Nat) : Option Nat :=
  (leastSeq ((ovfRecords s (cellOf pos)).filter fun r =>
    decide (rd s (r.2 + 32) 1 % 64 = posInCell pos ∧ rd s (r.2 + 33) 1 = gen ∧ rd s (r.2 + 36) 2 = key))).map (·.2)

/-- The message of an overflow record. -/
def spilledMsg (s : State) (pos a : Nat) : Msg :=
  { dst := word ((ppos s pos).toNat / 2 ^ 39 * 2 ^ 39 + rd s (a + 33) 1 * 2 ^ 31), payload := BitVec.ofNat 256 (rd s a 32),
    key := BitVec.ofNat 16 (rd s (a + 36) 2), src := cellOf pos, scope := .fab }

/-- VALID of an overflow record is cleared (R374). -/
def clearSpill (s : State) (a : Nat) : State := wrHome s (a + 39) 1 (rd s (a + 39) 1 % 128)

/-- Spilled messages of a position with a GEN and a key, orphaned with its strand, oldest first (R486). -/
def orphanSpilled (s : State) (pos gen key : Nat) : Nat → State
  | 0 => s
  | n + 1 =>
    match oldestSpilled s pos gen key with
    | none => s
    | some a => orphanSpilled (orphanMsg (clearSpill s a) (cellOf pos) (spilledMsg s pos a) 4) pos gen key n
/-- Every message of a position, queued or spilled, is orphaned: its strand becomes FREE or RETIRED (R486). -/
def orphanAt (s : State) (pos : Nat) : State :=
  orphanSpilled (orphanQueue s pos) pos (s.str pos).gen.toNat (keyIn s (cellOf pos)).toNat
    (ovfRecords s (cellOf pos)).length

/-- Leave packets of every live entry of a cell's match table (R127, R445). -/
def leaveAll (s : State) (c : Nat) : State :=
  let ents := (s.cell c).matchTab
  let s1 := putCell s c { s.cell c with matchTab := [] }
  ents.foldl (fun t e =>
    takeFresh (t.setJoins (tset t.joins t.fresh { cell := c, tag := e.2.tag, join := false, due := t.time + t.pace.sync }))) s1

/-- The held entries of an evicted block leave a cell, with leave packets (R127, R445). -/
def dropHeld (s : State) (b c : Nat) : State :=
  let ents := (s.cell c).heldTab.filter (fun h => decide (h.1 = b))
  let s1 := putCell s c { s.cell c with heldTab := (s.cell c).heldTab.filter (fun h => decide (h.1 ≠ b)) }
  ents.foldl (fun t h =>
    takeFresh (t.setJoins (tset t.joins t.fresh { cell := c, tag := h.2.2.tag, join := false, due := t.time + t.pace.sync }))) s1

/-- The cell of a scratchpad sector. -/
def presCell (k : Nat) : Nat := (32 * k - locScr 0 0) / 2 ^ 20
/-- A block leaves its cell: the cell's counters of work for it, its queues and its names are cleared; accepted engine
operations run on (R445). -/
def vacate (s : State) (c : Nat) : State :=
  let s0 := (s.setSets (s.sets.filter (fun k => decide (presCell k ≠ c)))).setClears (s.clears.filter (fun k => decide (presCell k ≠ c)))
  let s1 := leaveAll (drainSq (l1WriteBack s0 c) c) c
  putCell s1 c { s1.cell c with
    block := none, reqs := [], starveMade := false, partials := [], spawns := [], arrivals := [], bars := [], note := false,
    noteDue := false, bbArrived := 0#64, bbBefore := 0#64, bbForwarded := false, bbRelease := none, bbTwice := false,
    quota := none }

/-- Whether some act of an entry that writes is still to be performed. -/
def writesLeft (e : Pend) : Bool :=
  e.parts.any fun p => p.val.isNone && (match p.op with | .read _ => false | _ => true)

/-- The loads and walks in flight of some positions land and are discarded; stores and atomics already issued are still
performed (R445, R252). -/
def dropWork (s : State) (ps : List Nat) : State :=
  (s.setPend ((s.pend.filter (fun e => !ps.contains e.2.pos || writesLeft e.2)).map (fun e =>
      if ps.contains e.2.pos then (e.1, { e.2 with regs := [], vals := [], shape := .none, isRead := false, atomic := false })
      else e))).setWalks
    ((s.walks.map (fun e => (e.1, { e.2 with waiters := e.2.waiters.filter (fun p => !ps.contains p) }))).filter
      (fun e => !e.2.waiters.isEmpty))

/-- The registers that a gang holds go with it (R38, R51). -/
def dropGang (s : State) (lead : Nat) : State :=
  ((s.setGangs (tdel s.gangs lead)).setKs (tclear (16 * lead) (16 * lead + 16) s.ks)).setJs
    (tclear (8 * lead) (8 * lead + 8) s.js)
/-- A position becomes FREE; GEN stays (R43, R63). What a gang holds at its leader's position goes too. -/
def freePos (s : State) (pos : Nat) : State :=
  let s1 := dropGang (dropWork (orphanAt s pos) [pos]) pos
  putStr s1 pos { gen := (s1.str pos).gen }

/-- Whether a block stands on its rectangle: it holds positions there (R173, R447). -/
def onCells (p : BlockPhase) : Bool :=
  match p with
  | .running => true
  | .preempting => true
  | .evicting => true
  | .sittingOut => true
  | .halting => true
  | .halted => true
  | .migrating => true
  | .evicted => false
  | .gone => false

/-- The block-barrier record of a block is given back (R371). -/
def dropBbRecord (s : State) (b : Nat) : State :=
  if (s.block b).bbRecord then
    (putBlock s b { s.block b with bbRecord := false }).setPkg
      { s.pkg with bbRecords := s.pkg.bbRecords - 1, bbRecMade := false }
  else s

/-- A gang stands collapsed, or an ORPHAN fault is due in it: what would pre-empt its block waits (R63, R435, R481). -/
def busyGang (g : Gang) : Bool := collapsed g || !g.orphans.isEmpty
/-- A lane of a block is in SUPERVISOR, or a gang of it counts as collapsed (R172, R435). -/
def handling (s : State) (b : Nat) : Bool :=
  (blockPositions s b).any fun p => decide ((s.str p).st = .supervisor) || busyGang (s.gang p)

/-- The spilled messages of the strands of an evicted block whose grid ends are orphaned (R486): those of its key that name a
position which the frame holds. -/
def orphanEvicted (s : State) (b : Nat) : State :=
  let key := (s.grid (s.block b).grid).pkey.toNat
  (s.block b).saved.foldl (fun t k =>
    k.2.strands.foldl (fun u e =>
      orphanSpilled u (64 * k.2.cell + e.1) e.2.gen.toNat key (ovfRecords u k.2.cell).length) t) s

/-- The members of a list that satisfy a test come last. -/
def lastly (f : Nat → Bool) (l : List Nat) : List Nat := l.filter (fun x => !f x) ++ l.filter f
/-- One block of a killed grid ends (R445); a lane that has named its own ASID ends last (R379). -/
def endBlock (s : State) (b : Nat) (last : Option Nat := none) : State :=
  let x := s.block b
  let ps := lastly (fun p => decide (last = some p)) (blockPositions s b)
  let cs := blockCells s b
  let s1 := if onCells x.phase then
      cs.foldl vacate ((ps.filter (fun p => decide ((s.str p).st ≠ .free))).foldl freePos (dropWork s ps))
    else cs.foldl (fun t c => dropHeld t b c) (orphanEvicted s b)
  let s2 := dropBbRecord s1 b
  let s3 := putBlock s2 b { s2.block b with phase := .gone }
  s3.setPkg { s3.pkg with returns := s3.pkg.returns.filter (· ≠ b) }

/-- The blocks of a grid that have not ended. -/
def blocksOf (s : State) (g : Nat) : List Nat :=
  tkeys (s.blocks.filter (fun e => decide (e.2.grid = g ∧ e.2.phase ≠ .gone)))

/-- A grid ends without completing: its blocks end, and its unplaced blocks leave the launch queues (R445, R379). -/
def endGrid (s : State) (g : Nat) (last : Option Nat := none) : State :=
  let own := fun b => match last with | some p => decide ((s.cell (cellOf p)).block = some b) | none => false
  let s1 := (lastly own (blocksOf s g)).foldl (fun t b => endBlock t b last) s
  let s2 := putGrid s1 g { s1.grid g with live := false }
  s2.setPkg { s2.pkg with queues := s2.pkg.queues.map (fun e => (e.1, e.2.filter (· ≠ g))) }

/-- Start a kill of some grids; its record is made when every position named is FREE (R445). The grid and the position of `last`, a
lane that has named its own ASID, end last (R379). -/
def startKill (s : State) (gs : List Nat) (r : Record) (waiter : Option Nat) (last : Option Nat := none) : State :=
  let own := fun g => match last with | some p => decide ((blockIn s (cellOf p)).grid = g) | none => false
  let s1 := (lastly own gs).foldl (fun t g => endGrid t g last) s
  let s2 := takeFresh (s1.setKills (tset s1.kills s1.fresh { grids := gs, record := r, waiter := waiter }))
  s2.setAgenda (s2.agenda ++ [Instr.killComplete s1.fresh])

/-- A context kill by the device (R445). -/
def contextKill (s : State) (g : Nat) (r : Record) : State :=
  if (s.grid g).live then startKill s [g] { r with kind := 1, grid := g, asid := (s.grid g).asid, pkey := (s.grid g).pkey } none
  else s

/-- A double fault kills the context of its lane (R436). -/
def doubleFault (s : State) (pos : Nat) (ba : Word) (cause : Nat) (sval sinfo : Word) : State :=
  contextKill s (blockIn s (cellOf pos)).grid
    { recAt s pos 1 with dbl := true, cause := cause, addr := ba, sval := sval, sinfo := sinfo }

/-- What follows a pre-emption that two causes ask for: to sit out gives way to an eviction or a migration. -/
def joinAfter (a b : BlockPhase) : BlockPhase := if a = .sittingOut then b else a
/-- Start to pre-empt a block: each gang is saved at its next bundle boundary, and the save withdraws its unpaid requests (R64,
R173). While a handler runs in the block the pre-emption is due after its `sysret` (R63, R435). A block whose strands are all saved
goes on to what follows. -/
def preempt (s : State) (b : Nat) (after : BlockPhase) : State :=
  let x := { s.block b with sitting := (s.block b).sitting || decide (after = BlockPhase.sittingOut) }
  match x.phase with
  | .running =>
    if handling s b then putBlock s b { x with due := some (match x.due with | none => after | some d => joinAfter d after) }
    else putBlock s b { x with phase := .preempting, after := after, due := none }
  | .sittingOut => putBlock s b { x with phase := after }
  | .preempting => putBlock s b { x with after := joinAfter x.after after }
  | _ => s
/-- A pre-emption by the energy quota withdraws the unpaid requests of the cell, except those of gangs that stand collapsed: their
lanes are not saved (R193, R435).
(DEDUCED: notes/assumptions/58.md) -/
def sitOut (s : State) (c : Nat) : State :=
  match (s.cell c).block with
  | none => s
  | some b =>
    let t := putCell s c { s.cell c with
      reqs := (s.cell c).reqs.filter (fun r => busyGang (s.gang (leaderOf s r.pos))), starveMade := false }
    preempt t b .sittingOut

end Sys2Proof.Machine
end

