-- ==== Sys2Proof/Machine/Issue.lean ====
section
/-!
DEFINITION. How a bundle issues: the check stages of R450 in order, parking (R47, R62), payment (R189, R193), a precise
fault (R430), and the division of a path by a control transfer (R74, R77, R80). An instruction is a `Form`: its checks by
stage and its effect, which reads every source from the state before the bundle (R200).
-/
namespace Sys2Proof.Machine

open Sys2Proof

/-- The outcome of a check stage (R450): nothing to report, a park with what each lane waits for and the page walks it
starts, or the lanes that fault. -/
inductive Stage where
  | ok
  | park (r : Park) (waits : List (Nat × WaitFor)) (walks : List (Nat × Nat)) (fars : List (Nat × Nat) := [])
  | fault (l : List (Nat × TrapInfo))
  /-- QuotaAllows is false (R193) -/
  | sitOut
deriving DecidableEq, Repr

/-- An instruction as the issue logic sees it. Each function takes the state before the bundle and the acting lanes. -/
structure Form where
  instr : Instr
  /-- PRIV sub-cause of R458, 0 for a form that is not privileged -/
  priv : Nat := 0
  /-- excluded from single-lane mode (R436) -/
  excluded : Bool := false
  /-- what a lane reads besides the registers that its operands name (R470) -/
  reads : State → Nat → List RegId := fun _ _ => []
  /-- ISSUER and ALLEY of R454 -/
  issuer : State → Bool := fun _ => true
  alley : State → Nat → Bool := fun _ _ => true
  /-- the register park for a link that is empty (R46), after the registers of R450 -/
  regs : State → List Nat → Stage := fun _ _ => .ok
  /-- stages 3 to 6 of R450, the price apart -/
  operand : State → List Nat → Stage := fun _ _ => .ok
  access : State → List Nat → Stage := fun _ _ => .ok
  values : State → List Nat → Stage := fun _ _ => .ok
  room : State → List Nat → Stage := fun _ _ => .ok
  /-- the contribution to the price of the bundle (R188), and whether QuotaAllows always admits the form (R193) -/
  price : State → List Nat → Nat := fun _ _ => 0
  quotaFree : Bool := false
  /-- an engine operation (R293): it needs an entry of the job queue -/
  engine : Bool := false
  /-- the last check of `wait`, `recvt` and the like: lanes that have not completed; and what the form does when its bundle
  parks MONITOR, MESSAGE, BARRIER or MATRIX (R339, R375, R493, R312) -/
  holds : State → List Nat → Stage := fun _ _ => .ok
  onHold : State → List Nat → State := fun s _ => s
  /-- the effect: source state, destination state, acting lanes -/
  act : State → State → List Nat → State

/-- A word of a bundle: its form, its guard and whether it is the A-slot word of a pair. -/
structure Issued where
  form : Form
  gd : Guard
  slotA : Bool := false
  /-- its word, where it is not the one in hand -/
  word : Option Nat := none
/-- The word of an instruction as a value (R457). -/
def Issued.wordIn (x : Issued) (s : State) : Word := BitVec.ofNat 64 (x.word.getD s.cur.word.toNat)

/-- The acting lanes of a word (R72, R203). -/
def actingLanes (s : State) (gd : Guard) : List Nat := s.cur.lanes.filter (acting s gd)

/-- The sub-cause that a word raises in every lane: ISSUER, or PRIV outside single-lane mode (R451, R454, R458). -/
def wordFault (cause code : Nat) (s : State) (x : Issued) : List (Nat × TrapInfo) :=
  s.cur.lanes.map fun p =>
    (p, { cause := cause, code := code, sval := x.wordIn s, slotA := x.slotA })

def stage1 (s : State) (x : Issued) : Stage :=
  if !x.form.issuer s then .fault (wordFault 2 0x0B s x)
  else
    let bad := (actingLanes s x.gd).filter (fun p => !x.form.alley s p)
    if bad.isEmpty then .ok
    else .fault (bad.map fun p => (p, { cause := 2, code := 0x0C, sval := x.wordIn s, slotA := x.slotA }))

def stage2 (s : State) (x : Issued) : Stage :=
  if x.form.priv ≠ 0 ∧ !s.cur.sup then .fault (wordFault 3 x.form.priv s x) else .ok

/-- The registers of an acting lane that an instruction reads or writes and that have not landed (R46, R450). -/
def laneWaits (s : State) (x : Issued) (p : Nat) : List RegId :=
  ((srcs x.form.instr ++ dests x.form.instr).map (regId s.cur.leader p)).filter (pendingFor s p)

/-- The register park between stages 2 and 3: the guard predicate in every lane, then the registers of the acting lanes
(R46, R450). -/
def stageRegs (s : State) (x : Issued) : Stage :=
  let gw := (s.cur.lanes.map fun p => (p, [RegId.p p x.gd.p.val].filter (pendingFor s p))).filter (fun q => !q.2.isEmpty)
  if !gw.isEmpty then .park .data (gw.map fun q => (q.1, WaitFor.regs q.2)) []
  else
    let rw := ((actingLanes s x.gd).map fun p => (p, laneWaits s x p)).filter (fun q => !q.2.isEmpty)
    if rw.isEmpty then .ok else .park .data (rw.map fun q => (q.1, WaitFor.regs q.2)) []

/-- Whether a form performs memory reads, and memory writes (R145, R337): the events a fence orders. -/
def memEvents : Instr → Bool × Bool := fun i =>
  match i with
  | .ld .. | .ldAcq .. | .ldDev .. | .ldw .. | .ldwAcq .. | .lds .. | .ldsAcq .. | .ldsw .. | .ldswAcq .. | .gat ..
  | .ldk .. | .ldkAcq .. | .xld .. | .xldAcq .. | .wait .. | .recv .. | .recvt .. | .mmpoll .. => (true, false)
  | .st .. | .stRel .. | .stDev .. | .stw .. | .stwRel .. | .sts .. | .stsRel .. | .stsw .. | .stswRel .. | .scat ..
  | .xst .. | .xstRel .. => (false, true)
  | .amoAdd .. | .amoAnd .. | .amoOr .. | .amoXor .. | .amoMinI .. | .amoMinN .. | .amoMaxI .. | .amoMaxN .. | .amoSwap ..
  | .amoPmin .. | .cas .. | .cas2 .. | .amofF32 .. | .amofF64 .. | .amoxF32 .. | .amoxF64 .. | .spawn .. | .grid ..
  | .cpy .. | .tld .. | .tldm .. | .chase .. | .send .. | .mmst .. | .mmld .. | .mma .. | .mmjob .. | .tbarr .. | .tbexp ..
  | .bbarr .. => (true, true)
  | _ => (false, false)

/-- Whether a store still has bytes to perform at the home. -/
def storeLeft (s : State) (e : StoreEv) : Bool :=
  match tfind (s.cell e.cell).l1 e.sector with | some l => decide (l.dirty ≠ 0#32) | none => false

/-- Numbers of a list that are still in flight. -/
def stillFlying (s : State) (ids : List Nat) : List Nat :=
  ids.filter fun i => (tfind s.pend i).isSome || (match tfind s.stores i with | some e => storeLeft s e | none => false)

/-- Acts of a position that have issued and are still to be performed at another cell or another package. -/
def unperformed (s : State) (p : Nat) : List Nat :=
  tkeys (s.pend.filter fun e => decide (e.2.pos = p) && e.2.parts.any (fun q => q.val.isNone))

def AOrd.rel? : AOrd → Bool
  | .rel _ => true
  | .ar _ => true
  | _ => false

/-- Forms whose work waits for every earlier act of the strand: releases and release kicks (R151 case 2, R152, R367), the engine
operations, which read and write memory at their homes (R165, R309), and the DEV forms, which keep program order among themselves
(R323).
(DEDUCED: notes/assumptions/25.md)
(DEDUCED: notes/assumptions/32.md) -/
def waitsForAll : Instr → Bool := fun i =>
  match i with
  | .ldDev .. | .stDev .. | .stRel .. | .stwRel .. | .stsRel .. | .stswRel .. | .xstRel .. | .send .. | .bbarr .. | .grid ..
  | .spawn .. | .spawnf .. | .tbarr .. | .tbexp .. | .mma .. | .mmjob .. | .mmld .. | .mmst .. => true
  | .scat _ o _ _ _ _ => o.isSome
  | .cpy _ o _ _ _ => o.isSome
  | .tld _ o _ _ _ => o.isSome
  | .tldm _ o _ _ _ => o.isSome
  | .chase _ o _ _ _ => o.isSome
  | .amoAdd _ _ _ _ o => AOrd.rel? o
  | .amoAnd _ _ _ _ o => AOrd.rel? o
  | .amoOr _ _ _ _ o => AOrd.rel? o
  | .amoXor _ _ _ _ o => AOrd.rel? o
  | .amoMinI _ _ _ _ o => AOrd.rel? o
  | .amoMinN _ _ _ _ o => AOrd.rel? o
  | .amoMaxI _ _ _ _ o => AOrd.rel? o
  | .amoMaxN _ _ _ _ o => AOrd.rel? o
  | .amoSwap _ _ _ _ o => AOrd.rel? o
  | .amoPmin _ _ _ o => AOrd.rel? o
  | .cas _ _ _ _ o => AOrd.rel? o
  | .cas2 _ _ _ o => AOrd.rel? o
  | .amofF32 _ _ _ o => AOrd.rel? o
  | .amofF64 _ _ _ o => AOrd.rel? o
  | .amoxF32 _ _ _ o => AOrd.rel? o
  | .amoxF64 _ _ _ o => AOrd.rel? o
  | _ => false

/-- The park that an earlier fence or acquire, or the form's own release, asks for (R337, R151). -/
def stageFence (s : State) (x : Issued) : Stage :=
  let m := memEvents x.form.instr
  let fw := ((actingLanes s x.gd).map fun p =>
    (p, stillFlying s ((if m.1 || m.2 then (s.str p).fenceAny else []) ++ (if m.2 then (s.str p).fenceWr else [])) ++
      (if waitsForAll x.form.instr then unperformed s p else []))).filter (fun q => !q.2.isEmpty)
  if fw.isEmpty then .ok else .park .data (fw.map fun q => (q.1, WaitFor.fence q.2)) []

/-- Join the outcomes of the two words of a pair at one stage: a park before a fault, the C-slot word first (R430,
R450). -/
def joinStage : Stage → Stage → Stage
  | .ok, b => b
  | a, .ok => a
  | .sitOut, _ => .sitOut
  | _, .sitOut => .sitOut
  | .park r w k f, .park _ w' k' f' => .park r (w ++ w') (k ++ k') (f ++ f')
  | .park r w k f, .fault _ => .park r w k f
  | .fault _, .park r w k f => .park r w k f
  | .fault l, .fault l' => .fault (l ++ l')

/-- A later check of a stage is made when the earlier ones pass. -/
def Stage.andThen (a b : Stage) : Stage := match a with | .ok => b | x => x

def stageAll (f : Issued → Stage) (xs : List Issued) : Stage := xs.foldl (fun a x => joinStage a (f x)) .ok

/-- The faults of a stage carry the slot of their word. -/
def markSlot (x : Issued) : Stage → Stage
  | .fault l => .fault (l.map fun q => (q.1, { q.2 with slotA := x.slotA }))
  | t => t

/-- Price of the bundle (R188). -/
def bundlePrice (s : State) (xs : List Issued) : Nat :=
  Nat.min 64 ((xs.map fun x => x.form.price s (actingLanes s x.gd)).foldl (· + ·) 0)

/-- The cell that issues. -/
def curCell (s : State) : Nat := cellOf s.cur.leader
/-- The lowest lane of the issuer, by which it is named. -/
def curPos (s : State) : Nat := s.cur.lanes.headD s.cur.leader

/-- QuotaAllows (R193). -/
def quotaAllows (s : State) (c p : Nat) (free : Bool) : Bool :=
  free || (match (s.cell c).quota with | none => true | some q => decide ((p : Int) ≤ q))

/-- The price check of stage 6 (R189). A bundle that has been paid issues; with the ring of its die stopped, no other one that costs
something does (R472). -/
def stagePrice (s : State) (xs : List Issued) : Stage :=
  let p := bundlePrice s xs
  let c := curCell s
  if p = 0 ∨ (s.str (curPos s)).paid then .ok
  else if !(s.die (dieOf c)).ringFailed && (s.cell c).reqs.isEmpty && decide (p ≤ (s.cell c).pocket) then
    (if quotaAllows s c p (xs.any (·.form.quotaFree)) then .ok else .sitOut)
  else .park .token (s.cur.lanes.map fun q => (q, WaitFor.token)) []

/-- The first stage that does not answer `ok`. -/
def firstOf : List (Unit → Stage) → Stage
  | [] => .ok
  | f :: r => match f () with | .ok => firstOf r | t => t

/-- The MATRIX park (R299): a bundle whose engine operations need more entries than the job queue of 16 has free. -/
def stageEngine (s : State) (xs : List Issued) : Stage :=
  let n := (xs.filter (fun x => x.form.engine && !(actingLanes s x.gd).isEmpty)).length
  if n = 0 ∨ (s.cell (curCell s)).jobs.length + n ≤ 16 then .ok
  else .park .matrix (s.cur.lanes.map fun p => (p, WaitFor.jobRoom n)) []

/-- The check stages of R450, in order, each over both words.
(DEDUCED: notes/assumptions/18.md) -/
def judge (s : State) (xs : List Issued) : Stage :=
  firstOf
    [fun _ => stageAll (stage1 s) xs,
      fun _ => stageAll (stage2 s) xs,
      fun _ => stageAll (stageRegs s) xs,
      fun _ => stageAll (fun x => x.form.regs s (actingLanes s x.gd)) xs,
      fun _ => stageAll (stageFence s) xs,
      fun _ => stageAll (fun x => markSlot x (x.form.operand s (actingLanes s x.gd))) xs,
      fun _ => stageEngine s xs,
      fun _ => stageAll (fun x => markSlot x (x.form.access s (actingLanes s x.gd))) xs,
      fun _ => stageAll (fun x => markSlot x (x.form.values s (actingLanes s x.gd))) xs,
      fun _ => stageAll (fun x => x.form.room s (actingLanes s x.gd)) xs,
      fun _ => stageAll (fun x => x.form.holds s (actingLanes s x.gd)) xs,
      fun _ => stagePrice s xs]

/-! ### Parking -/

/-- The walkers of a cell in use (R142). -/
def walkers (s : State) (c : Nat) : Nat := s.walks.countP (fun e => decide (e.2.cell = c) && !e.2.queued)
/-- Start the walk of a page for a position, or join one of the cell; it waits while every walker of the cell is busy (R142). -/
def startWalk (s : State) (c pos va : Nat) : State × Nat :=
  let v := walkKey (s.cell c) va
  match s.walks.find? (fun e => decide (e.2.cell = c ∧ e.2.asid = asidIn s c ∧ e.2.va = v)) with
  | some e => (s.setWalks (tset s.walks e.1 { e.2 with waiters := pos :: e.2.waiters }), e.1)
  | none =>
    (takeFresh (s.setWalks (tset s.walks s.fresh
      { cell := c, asid := asidIn s c, va := v, waiters := [pos], due := s.time + s.pace.walk
        queued := decide (1024 ≤ walkers s c) })), s.fresh)

def startWalks (s : State) (c : Nat) : List (Nat × Nat) → State × List (Nat × Nat)
  | [] => (s, [])
  | (p, va) :: r =>
    let (t, i) := startWalk s c p va
    let (u, l) := startWalks t c r
    (u, (p, i) :: l)

/-- A lane parks (R62): a lane of single-lane mode keeps STATE 4 and shows the reason in PARK (R435). A lane that parks again with the
reason it had before a save goes on counting (R477). -/
def parkOne (now : Nat) (r : Park) (w : WaitFor) (t : Strand) : Strand :=
  { t with
    st := if t.st = .supervisor then .supervisor else .parked,
    park := r, wait := w, parkedAt := now, parkedWas := none
    stallMade := if t.parkedWas = some r then t.stallMade else false
    parkedFor := if t.parkedWas = some r then t.parkedFor else 0 }

/-- Every lane of the issuer parks with the reason (R47); page walks and reads of other packages start. -/
def parkPath (s : State) (r : Park) (ws : List (Nat × WaitFor)) (walks fars : List (Nat × Nat)) : State :=
  let (t, ids) := startWalks (fars.foldl (fun u q => askFar u (curCell s) q.1 q.2) s) (curCell s) walks
  let mine := fun p => (ids.filter (fun q => decide (q.1 = p))).map (·.2)
  t.cur.lanes.foldl (fun u p =>
    modStr u p (fun x =>
      { parkOne u.time r (if (mine p).isEmpty then tget WaitFor.nothing ws p else .walks (mine p)) x with
        nba := u.cur.nba })) t

/-- Requests stand in order of age, then slot index, then pipe (R189). -/
def insReq (q : TokReq) : List TokReq → List TokReq
  | [] => [q]
  | x :: r =>
    if q.age < x.age ∨ (q.age = x.age ∧ (q.slot < x.slot ∨ (q.slot = x.slot ∧ q.pipe < x.pipe))) then q :: x :: r
    else x :: insReq q r

/-- A bundle that parks TOKEN adds its request (R189). -/
def addRequest (s : State) (price : Nat) (exempt : Bool) : State :=
  let c := curCell s
  let q : TokReq := {
    age := cyc s c, die := s.time, slot := slotOf (curPos s), pipe := pipeOf (curPos s), price := price, pos := curPos s,
    exempt := exempt }
  modStr (putCell s c { s.cell c with reqs := insReq q (s.cell c).reqs }) (curPos s)
    (fun t => { t with owed := price, owedFree := exempt })

/-! ### Payment (R189, R193) -/

/-- The first die cycle of the current cell cycle (R185). -/
def cycleStart (s : State) (c : Nat) : Nat :=
  if (s.cell c).high then s.time else s.time - (s.time - (s.cell c).cycAt) % 2

/-- The tokens of a price leave the pocket for the cool-down queue, and QUOTA is charged. -/
def payTokens (s : State) (c p : Nat) : State :=
  let x := s.cell c
  let s1 := putCell s c { x with
    pocket := x.pocket - p, cool := x.cool ++ [(cycleStart s c + (s.die (dieOf c)).retain + 1, p)], quota := x.quota.map (fun q => q - (p : Int)) }
  putDie s1 (dieOf c) { s1.die (dieOf c) with paid := (s1.die (dieOf c)).paid + p }

/-- Whether QUOTA of a cell stands below zero. -/
def inDebt (s : State) (c : Nat) : Bool := match (s.cell c).quota with | some q => decide (q < 0) | none => false
/-- A payment that leaves QUOTA below zero pre-empts the block (R193). -/
def afterPay (s : State) (c : Nat) : State := if inDebt s c then sitOut s c else s

/-- Pay for the bundle in hand unless it has been paid or costs nothing. -/
def payBundle (s : State) (xs : List Issued) : State :=
  let p := bundlePrice s xs
  if p = 0 ∨ (s.str (curPos s)).paid then s else afterPay (payTokens s (curCell s) p) (curCell s)

/-! ### Issue, and a precise fault -/

/-- A lane whose bundle issues: it goes on at NBA unless the bundle says otherwise. -/
def issueOne (nba : Word) (t : Strand) : Strand :=
  { t with
    pc := nba, st := if t.st = .supervisor then .supervisor else .ready, park := .none, wait := .nothing, paid := false,
    charged := false, walkFail := [], readFail := [], parkedFor := 0, parkedWas := none, stallMade := false, deadline := none,
    mon := none, pollTo := none, tbReset := false, owed := 0 }

/-- Every lane of the issuer issues; the block's last issue is now (R478). -/
def advance (s : State) : State :=
  let t := modStrs s s.cur.lanes (issueOne s.cur.nba)
  match (t.cell (curCell t)).block with
  | some b => putBlock t b { t.block b with lastIssue := t.time, stallMade := false }
  | none => t

/-- The effects of the words of a bundle, every source read from `src` (R200). -/
def perform (src : State) (xs : List Issued) (s : State) : State :=
  xs.foldl (fun t x => x.form.act src t (actingLanes src x.gd)) s

/-- Whether a register is uncorrectable. -/
def broken (s : State) (r : RegId) : Bool :=
  s.badRegs.contains r || (match r with | .acc c i => (badAt s (locAcc c (32 * i))).isSome | _ => false)
/-- The first lane whose bundle reads an uncorrectable register, with the register (R470). -/
def brokenRead (s : State) (xs : List Issued) : Option (Nat × RegId) :=
  xs.findSome? fun x => (actingLanes s x.gd).findSome? fun p =>
    (((srcs x.form.instr).map (regId s.cur.leader p) ++ x.form.reads s p).find? (broken s)).map (fun r => (p, r))
/-- The context of a lane that reads an uncorrectable register ends (R470, R445). -/
def killReg (s : State) (q : Nat × RegId) : State :=
  let r := { recAt s q.1 1 with cause := 10, addr := s.cur.ba }
  contextKill s r.grid (match q.2 with
    | .acc _ i => { r with sval := word (32 * i), sinfo := word (7 * 256) }
    | _ => r)
/-- What a word writes in its acting lanes is correct again. -/
def mendWord (s : State) (ls : List Nat) (i : Instr) (t : State) : State :=
  t.setBadRegs (t.badRegs.filter (fun r => !(ls.any (fun p => ((dests i).map (regId s.cur.leader p)).contains r))))
/-- The same of the words of a bundle. -/
def mend (s : State) (xs : List Issued) (t : State) : State :=
  xs.foldl (fun u x => mendWord s (actingLanes s x.gd) x.form.instr u) t
/-- The bundle is paid for, its lanes advance and its words take effect. -/
def goAhead (s : State) (xs : List Issued) : State := mend s xs (perform s xs (advance (payBundle s xs)))

/-- A sub-page fault removes the chunk entries of the address from the TLBs of the cell (R139). -/
def dropChunk (s : State) (c va : Nat) : State :=
  putCell s c { s.cell c with
    tlb := (s.cell c).tlb.filter fun e => !(e.chunk.isSome && decide (e.va ≤ va ∧ va < e.va + e.span)) }

/-- The faulting lane with the lowest index and why it fails (R430). -/
def lowestFault : List (Nat × TrapInfo) → Option (Nat × TrapInfo)
  | [] => none
  | x :: r => match lowestFault r with | none => some x | some y => if y.1 < x.1 then some y else some x

/-- Take a precise fault of the bundle in hand (R430, R436): no lane performs anything, the lowest lane of the faulting
mask traps with SRET = BA; in single-lane mode the context is killed. -/
def takeFault (s : State) (l : List (Nat × TrapInfo)) : State :=
  match lowestFault l with
  | none => s
  | some (p, i) =>
    let fm := laneMask s.cur.leader (l.map (·.1))
    let s1 := (l.filter (fun q => decide (q.2.cause = 8))).foldl (fun t q => dropChunk t (cellOf q.1) q.2.sval.toNat) s
    let s2 := modStrs s1 s.cur.lanes (fun t => { t with walkFail := [], readFail := [] })
    if s.cur.sup then doubleFault s2 p s.cur.ba i.cause i.sval (sinfoOf fm i)
    else takeTrap s2 s.cur.leader p fm i s.cur.ba

/-- Issue a bundle: judge it, then park it, trap it or perform it (R450). In single-lane mode a word that the mode excludes is a
double fault whatever its guard (R436).
(DESIGN CHOICE: notes/assumptions/74.md) -/
def runBundle (s : State) (xs : List Issued) : State :=
  if s.cur.sup && xs.any (·.form.excluded) then
    (match judge s (xs.map fun x => { x with form := { x.form with
        operand := fun _ _ => .ok, access := fun _ _ => .ok, values := fun _ _ => .ok, room := fun _ _ => .ok,
        holds := fun _ _ => .ok, engine := false, price := fun _ _ => 0 } }) with
      | .fault l => takeFault s l
      | .park r ws k f => parkPath s r ws k f
      | _ =>
        let w := match xs.find? (·.form.excluded) with | some x => x.wordIn s | none => 0#64
        doubleFault s (curPos s) s.cur.ba 0 w 0#64)
  else
    match judge s xs with
    | .ok => (match brokenRead s xs with | some q => killReg s q | none => goAhead s xs)
    | .park r ws k f =>
      let t := parkPath (if r = .token then addRequest s (bundlePrice s xs) (xs.any (·.form.quotaFree)) else s) r ws k f
      if r = .monitor ∨ r = .message ∨ r = .barrier ∨ r = .matrix then xs.foldl (fun u x => x.form.onHold u (actingLanes s x.gd)) t else t
    | .fault l => takeFault s l
    | .sitOut => sitOut s (curCell s)

/-- The meaning of an encoded instruction issued as a lone word. -/
def run (gd : Guard) (f : Form) (s : State) : Host.Outcome State Fault Refusal :=
  .next (runBundle s [{ form := f, gd := gd }])

/-! ### Paths (R73, R74, R77, R80) -/

/-- The path numbers of a gang's lanes. -/
def pathOf (t : Strand) : Option Nat := match t.lmode with | .inPath n => some n | _ => none
def dedup : List Nat → List Nat
  | [] => []
  | x :: r => if r.contains x then dedup r else x :: dedup r
def pathsOf (s : State) (lead : Nat) : List Nat := dedup ((gangLanes s lead).filterMap (fun p => pathOf (s.str p)))

/-- The lanes of a path. -/
def pathLanes (s : State) (lead n : Nat) : List Nat :=
  (gangLanes s lead).filter (fun p => decide ((s.str p).lmode = .inPath n))

/-- Lanes of a path grouped by where they go next, in order of their lowest lanes (R74). -/
def groupBy (tgt : Nat → Word) : List Nat → List (Word × List Nat)
  | [] => []
  | p :: r =>
    let g := groupBy tgt r
    match g.find? (fun q => decide (q.1 = tgt p)) with
    | some q => (tgt p, p :: q.2) :: g.filter (fun x => decide (x.1 ≠ tgt p))
    | none => (tgt p, [p]) :: g

/-- Insert a produced path by size, largest first; among equal sizes the smaller path number comes first (R77). -/
def rankIns (x : Word × List Nat) : List (Word × List Nat) → List (Word × List Nat)
  | [] => [x]
  | y :: r => if y.2.length > x.2.length ∨ (y.2.length = x.2.length ∧ y.2.headD 0 < x.2.headD 0) then y :: rankIns x r
      else x :: y :: r
def ranked (l : List (Word × List Nat)) : List (Word × List Nat) := l.foldr rankIns []

/-- Give the lanes of a produced path its number, or detach them. -/
def placeGroup (lead : Nat) (keep : Bool) (s : State) (g : Word × List Nat) : State :=
  g.2.foldl (fun t p => modStr t p (fun u =>
    { u with pc := g.1, lmode := if keep then .inPath (g.2.headD lead - lead) else .detached })) s

/-- Send each lane of the issuer to its next address; a path that divides follows R74, R77 and R80. -/
def transfer (s : State) (tgt : Nat → Word) : State :=
  let ls := s.cur.lanes
  let gs := groupBy tgt ls
  match gs with
  | [] => s
  | [g] => g.2.foldl (fun t p => modStr t p (fun u => { u with pc := g.1 })) s
  | _ =>
    let lead := s.cur.leader
    let old := (ls.headD lead) - lead
    let others := (pathsOf s lead).filter (· ≠ old)
    let maxp := (s.gang lead).splitpol.toNat % 32
    let r := ranked gs
    let n := Nat.max 1 (maxp - others.length)
    let kept := r.take n
    let s1 := kept.foldl (placeGroup lead true) s
    let s2 := (r.drop n).foldl (placeGroup lead false) s1
    let g := s2.gang lead
    if g.turn && decide (g.cur = old) then
      let heads := kept.map (fun x => x.2.headD lead - lead)
      putGang s2 lead { g with cur := if heads.contains old then old else heads.foldl Nat.min 15 }
    else s2

/-- After lanes left a path, the path is named by its lowest lane again, and so is the turn-holder (R73, R80). -/
def renumber (s : State) (lead n : Nat) : State :=
  match pathLanes s lead n with
  | [] => s
  | p :: r =>
    let m := p - lead
    if m = n then s
    else
      let s1 := modStrs s (p :: r) (fun t => { t with lmode := .inPath m })
      let g := s1.gang lead
      if g.turn && decide (g.cur = n) then putGang s1 lead { g with cur := m } else s1

end Sys2Proof.Machine
end

