-- ==== Sys2Proof/Machine/Numbers.lean ====
section
/-!
DEFINITION. Number formats, exact values and rounding (spec/10_isa_numbers_and_float.md R259 to R265). An exact value is
`± (n / d) * 2^e`, or the square root of that, so that every result of an instruction is held exactly until it is rounded
once.
-/
namespace Sys2Proof.Machine

open Sys2Proof

/-- An exact value before rounding. -/
inductive Exact where
  | nan
  | inf (neg : Bool)
  | zero (neg : Bool)
  /-- ± (n / d) * 2^e, or ± the square root of (n / d) * 2^e; n and d are not zero -/
  | num (neg : Bool) (n d : Nat) (e : Int) (root : Bool)
deriving DecidableEq, Repr

/-- A floating-point format (R259): width, fraction bits, bias, and the largest magnitude code of a finite value. -/
structure FloatFmt where
  width : Nat
  frac : Nat
  bias : Nat
  maxFin : Nat
  hasInf : Bool
  /-- canonical NaN (R261); E2M1 has none and gives 0x0 (R264) -/
  nan : Nat
deriving DecidableEq, Repr

def fp64 : FloatFmt := { width := 64, frac := 52, bias := 1023, maxFin := 0x7FEFFFFFFFFFFFFF, hasInf := true, nan := 0x7FF8000000000000 }
def fp32 : FloatFmt := { width := 32, frac := 23, bias := 127, maxFin := 0x7F7FFFFF, hasInf := true, nan := 0x7FC00000 }
def fp16 : FloatFmt := { width := 16, frac := 10, bias := 15, maxFin := 0x7BFF, hasInf := true, nan := 0x7E00 }
def bf16 : FloatFmt := { width := 16, frac := 7, bias := 127, maxFin := 0x7F7F, hasInf := true, nan := 0x7FC0 }
def e5m2 : FloatFmt := { width := 8, frac := 2, bias := 15, maxFin := 0x7B, hasInf := true, nan := 0x7E }
def e4m3 : FloatFmt := { width := 8, frac := 3, bias := 7, maxFin := 0x7E, hasInf := false, nan := 0x7F }
def e2m1 : FloatFmt := { width := 4, frac := 1, bias := 1, maxFin := 7, hasInf := false, nan := 0 }

/-- The format of a float type (R213). -/
def ftyFmt : FTy → FloatFmt
  | .f32 => fp32
  | .f64 => fp64
  | .f16 => fp16
  | .bf16 => bf16

/-- A type code as a float format, or as an integer type of a width (R213). -/
inductive NumTy where
  | float (f : FloatFmt)
  | int (width : Nat) (signed : Bool)
deriving DecidableEq, Repr

def tyOf : TyCode → NumTy
  | .f64 => .float fp64
  | .f32 => .float fp32
  | .f16 => .float fp16
  | .bf16 => .float bf16
  | .e4m3 => .float e4m3
  | .e5m2 => .float e5m2
  | .e2m1 => .float e2m1
  | .i4 => .int 4 true
  | .i8 => .int 8 true
  | .i16 => .int 16 true
  | .i32 => .int 32 true
  | .i64 => .int 64 true
  | .n8 => .int 8 false
  | .n16 => .int 16 false
  | .n32 => .int 32 false
  | .n64 => .int 64 false

def NumTy.width : NumTy → Nat
  | .float f => f.width
  | .int w _ => w

/-- The value of an encoding (R260). -/
def decodeF (f : FloatFmt) (v : Nat) : Exact :=
  let neg := decide (v / 2 ^ (f.width - 1) % 2 = 1)
  let c := v % 2 ^ (f.width - 1)
  let ex := c / 2 ^ f.frac
  let fr := c % 2 ^ f.frac
  if c ≤ f.maxFin then
    (if c = 0 then .zero neg
    else if ex = 0 then .num neg fr 1 (1 - (f.bias : Int) - f.frac) false
    else .num neg (2 ^ f.frac + fr) 1 ((ex : Int) - f.bias - f.frac) false)
  else if f.hasInf && decide (fr = 0) then .inf neg
  else .nan

/-- The exact value of an integer. -/
def exactInt (i : Int) : Exact := if i = 0 then .zero false else .num (decide (i < 0)) i.natAbs 1 0 false

/-- The value of an encoding of any type. -/
def decodeT (t : NumTy) (v : Nat) : Exact :=
  match t with
  | .float f => decodeF f v
  | .int w true => exactInt (sInt w v)
  | .int w false => exactInt (v % 2 ^ w : Nat)

/-! ### Integer square root, bit by bit -/

def isqrtBits (n : Nat) : Nat → Nat
  | 0 => 0
  | k + 1 =>
    let r := isqrtBits (n / 4) k
    if (2 * r + 1) * (2 * r + 1) ≤ n then 2 * r + 1 else 2 * r
def isqrt (n : Nat) : Nat := isqrtBits n (Nat.log2 n / 2 + 1)

/-- Floor of (n / d) * 2^e, and whether it is exact. -/
def scaled (n d : Nat) (e : Int) : Nat × Bool :=
  if 0 ≤ e then (n * 2 ^ e.toNat / d, decide (n * 2 ^ e.toNat % d = 0))
  else (n / (d * 2 ^ (-e).toNat), decide (n % (d * 2 ^ (-e).toNat) = 0))

/-- Floor of a magnitude in units of 2^q, and whether it is exact. -/
def floorAt (n d : Nat) (e : Int) (root : Bool) (q : Int) : Nat × Bool :=
  if root then
    let x := scaled n d (e - 2 * q)
    (isqrt x.1, x.2 && decide (isqrt x.1 * isqrt x.1 = x.1))
  else scaled n d (e - q)

/-- Floor of the base-2 logarithm of (n / d) * 2^e. -/
def log2Of (n d : Nat) (e : Int) : Int :=
  let k : Int := (Nat.log2 n : Int) - Nat.log2 d
  let ge := if 0 ≤ k then decide (d * 2 ^ k.toNat ≤ n) else decide (d ≤ n * 2 ^ (-k).toNat)
  e + (if ge then k else k - 1)
def log2Mag (n d : Nat) (e : Int) (root : Bool) : Int := if root then log2Of n d e / 2 else log2Of n d e

/-- Whether case 4 of R264 chooses the neighbour farther from zero: `k` is the floor of the magnitude in units of 2^q and
not exact. `draw` is the r of R265. -/
def roundsUp (m : Rm) (draw : Nat) (neg : Bool) (n d : Nat) (e : Int) (root : Bool) (q : Int) (k : Nat) : Bool :=
  match m with
  | .rn =>
    let h := floorAt n d e root (q - 1)
    decide (h.1 % 2 = 1) && (!h.2 || decide (k % 2 = 1))
  | .rz => false
  | .ru => !neg
  | .rd => neg
  | .rs =>
    let h := floorAt n d e root (q - 32)
    let fl := h.1 % 2 ^ 32
    if neg then !(decide (fl < 2 ^ 32 - draw)) else decide (draw < fl + (if h.2 then 0 else 1))

/-- The sign bit of an encoding. -/
def signBit (f : FloatFmt) (neg : Bool) : Nat := if neg then 2 ^ (f.width - 1) else 0

/-- Round(x, F, m) for a float format (R264). -/
def roundF (f : FloatFmt) (m : Rm) (draw : Nat) (x : Exact) : Nat :=
  match x with
  | .nan => f.nan
  | .inf neg => signBit f neg + (if f.hasInf then f.maxFin + 1 else f.maxFin)
  | .zero neg => signBit f neg
  | .num neg n d e root =>
    let lo := (1 : Int) - f.bias - f.frac
    let q := if log2Mag n d e root - f.frac < lo then lo else log2Mag n d e root - f.frac
    let k := floorAt n d e root q
    let up := !k.2 && roundsUp m draw neg n d e root q k.1
    let code := ((q + f.bias + f.frac).toNat - 1) * 2 ^ f.frac + (if up then k.1 + 1 else k.1)
    if code ≤ f.maxFin then signBit f neg + code
    else
      let away := match m with | .rn => true | .rz => false | .ru => !neg | .rd => neg | .rs => up
      signBit f neg + (if f.hasInf && away then f.maxFin + 1 else f.maxFin)

/-- Sat(v, T) of R226: clamp to the range of an integer type, as the bits of its width. -/
def satInt (w : Nat) (signed : Bool) (v : Int) : Nat :=
  let lo : Int := if signed then -(2 ^ (w - 1) : Nat) else 0
  let hi : Int := if signed then (2 ^ (w - 1) : Nat) - 1 else (2 ^ w : Nat) - 1
  ((if v < lo then lo else if hi < v then hi else v) % (2 ^ w : Nat)).toNat

/-- Round(x, F, m) for any type (R264): the result as the bits of its width. -/
def roundT (t : NumTy) (m : Rm) (draw : Nat) (x : Exact) : Nat :=
  match t with
  | .float f => roundF f m draw x
  | .int w sg =>
    match x with
    | .nan => 0
    | .zero _ => 0
    | .inf neg => satInt w sg (if neg then -(2 ^ 70 : Nat) else (2 ^ 70 : Nat))
    | .num neg n d e root =>
      let k := floorAt n d e root 0
      let up := !k.2 && roundsUp m draw neg n d e root 0 k.1
      let a : Int := if up then k.1 + 1 else k.1
      satInt w sg (if neg then -a else a)

/-- The r of R265: a hash of k15 and the strand's logical position with the element index. -/
def rsDraw (k15 lpos : Word) (ix : Nat) : Nat :=
  let c := lpos.toNat / 2 ^ 11 * 2 ^ 11 + ix % 64 * 32
  let z0 := (k15.toNat + c * 0x9E3779B97F4A7C15) % 2 ^ 64
  let z1 := Nat.xor z0 (z0 / 2 ^ 30) * 0xBF58476D1CE4E5B9 % 2 ^ 64
  let z2 := Nat.xor z1 (z1 / 2 ^ 27) * 0x94D049BB133111EB % 2 ^ 64
  Nat.xor z2 (z2 / 2 ^ 31) / 2 ^ 32

/-! ### Exact arithmetic (R266) -/

def negX : Exact → Exact
  | .nan => .nan
  | .inf n => .inf (!n)
  | .zero n => .zero (!n)
  | .num n a d e r => .num (!n) a d e r

def signOf : Exact → Bool
  | .nan => false
  | .inf n => n
  | .zero n => n
  | .num n _ _ _ _ => n

def signedInt (neg : Bool) (n : Nat) : Int := if neg then -(n : Int) else n

/-- a + b of dyadic values; `rd` says an exact zero sum of unlike signs is −0 (IEEE 754-2019). -/
def addX (rd : Bool) (a b : Exact) : Exact :=
  match a, b with
  | .nan, _ => .nan
  | _, .nan => .nan
  | .inf x, .inf y => if x = y then .inf x else .nan
  | .inf x, _ => .inf x
  | _, .inf y => .inf y
  | .zero x, .zero y => if x = y then .zero x else .zero rd
  | .zero _, y => y
  | x, .zero _ => x
  | .num s n _ e _, .num t m _ f _ =>
    let q := if e < f then e else f
    let v := signedInt s (n * 2 ^ (e - q).toNat) + signedInt t (m * 2 ^ (f - q).toNat)
    if v = 0 then .zero rd else .num (decide (v < 0)) v.natAbs 1 q false

/-- a × b of dyadic values. -/
def mulX (a b : Exact) : Exact :=
  match a, b with
  | .nan, _ => .nan
  | _, .nan => .nan
  | .inf _, .zero _ => .nan
  | .zero _, .inf _ => .nan
  | .inf x, y => .inf (xor x (signOf y))
  | x, .inf y => .inf (xor (signOf x) y)
  | .zero x, y => .zero (xor x (signOf y))
  | x, .zero y => .zero (xor (signOf x) y)
  | .num s n _ e _, .num t m _ f _ => .num (xor s t) (n * m) 1 (e + f) false

/-- a ÷ b of dyadic values. -/
def divX (a b : Exact) : Exact :=
  match a, b with
  | .nan, _ => .nan
  | _, .nan => .nan
  | .inf _, .inf _ => .nan
  | .zero _, .zero _ => .nan
  | .inf x, y => .inf (xor x (signOf y))
  | x, .inf y => .zero (xor (signOf x) y)
  | x, .zero y => .inf (xor (signOf x) y)
  | .zero x, y => .zero (xor x (signOf y))
  | .num s n _ e _, .num t m _ f _ => .num (xor s t) n m (e - f) false

/-- √a of a dyadic value (R268). -/
def sqrtX : Exact → Exact
  | .nan => .nan
  | .inf true => .nan
  | .inf false => .inf false
  | .zero n => .zero n
  | .num true _ _ _ _ => .nan
  | .num false n d e _ => .num false n d e true

/-- 1 ÷ √a of a dyadic value (R272). -/
def rsqX : Exact → Exact
  | .nan => .nan
  | .inf true => .nan
  | .inf false => .zero false
  | .zero n => .inf n
  | .num true _ _ _ _ => .nan
  | .num false n d e _ => .num false d n (-e) true

/-- Order of two values that are not NaN: −0 = +0; the answer is the sign of a − b. -/
def cmpX (a b : Exact) : Int :=
  match a, b with
  | .nan, _ => 0
  | _, .nan => 0
  | .inf x, .inf y => if x = y then 0 else if x then -1 else 1
  | .inf x, _ => if x then -1 else 1
  | _, .inf y => if y then 1 else -1
  | x, y =>
    match addX false x (negX y) with
    | .num n _ _ _ _ => if n then -1 else 1
    | _ => 0

def isNan : Exact → Bool
  | .nan => true
  | _ => false

end Sys2Proof.Machine
end

