-- ==== Sys2Proof/Machine/Operands.lean ====
section
/-!
DEFINITION. Operand forms: views of a register value under a type (spec/09_isa_integer_and_control.md R227), scalar and wide
floating-point operands (spec/08_isa_formats.md R206), the values a form writes in each acting lane, and results that land
later (R46).
-/
namespace Sys2Proof.Machine

open Sys2Proof

/-! ### Integer views -/

/-- The view of a register value (R227). -/
def view (t : IntTy) (v : Word) : Int :=
  match t with
  | .i32 => sInt 32 v.toNat
  | .n32 => (v.toNat % 2 ^ 32 : Nat)
  | .i64 => v.toInt
  | .n64 => (v.toNat : Int)

/-- u and i of R227: the unsigned and the signed view, whatever the type says. -/
def uView (t : IntTy) (v : Word) : Nat := v.toNat % 2 ^ t.width
def iView (t : IntTy) (v : Word) : Int := sInt t.width v.toNat

/-- Wrap(r, T), extended into the register (R206, R227). -/
def wrapT (t : IntTy) (r : Int) : Word :=
  match t with
  | .i32 => sx 32 (r % 2 ^ 32).toNat
  | .n32 => zx 32 (r % 2 ^ 32).toNat
  | .i64 => BitVec.ofInt 64 r
  | .n64 => BitVec.ofInt 64 r

/-- SX(IMM6, 6) as a number. -/
def imm6 (c : BitVec 6) : Int := c.toInt

/-! ### Floating-point operands (R206) -/

/-- The value of a scalar operand in its type. -/
def scalarF (f : FTy) (v : Word) : Exact := decodeF (ftyFmt f) (v.toNat % 2 ^ (ftyFmt f).width)

/-- Element i, of `n` bits, of a vector held in a register. -/
def elem (v n i : Nat) : Nat := v / 2 ^ (n * i) % 2 ^ n

/-- A vector from its elements of `n` bits, element 0 first. -/
def fromElems (n : Nat) : List Nat → Nat
  | [] => 0
  | e :: r => e % 2 ^ n + 2 ^ n * fromElems n r

/-- A vector with element i replaced. -/
def setElem (v n i e : Nat) : Nat := v - elem v n i * 2 ^ (n * i) + e % 2 ^ n * 2 ^ (n * i)

/-- The r of R265 for a lane and an element index, drawn from the gang's k15 and the lane's LPOS. -/
def drawFor (s : State) (pos ix : Nat) : Nat := rsDraw (rdK s s.cur.leader 15) (s.str pos).lpos ix

/-! ### Forms that act lane by lane -/

/-- Apply an effect to each acting lane in increasing order; the first state is the one every source is read from (R200). -/
def eachLane (f : State → State → Nat → State) (src t : State) (ls : List Nat) : State := ls.foldl (fun u p => f src u p) t

/-- A form without checks of its own. -/
def laneForm (i : Instr) (f : State → State → Nat → State) : Form := { instr := i, act := eachLane f }

/-- A fixed-latency form that writes a G register in each acting lane (R45). -/
def gForm (i : Instr) (d : GReg) (v : State → Nat → Word) : Form := laneForm i fun src t p => wrReg t p d (v src p)
/-- One that writes a predicate. -/
def pForm (i : Instr) (n : Fin 8) (v : State → Nat → Bool) : Form := laneForm i fun src t p => wrP t p n.val (v src p)
/-- One that writes a w register, at a price for each acting lane (R188). -/
def wForm (i : Instr) (n : Fin 16) (v : State → Nat → Wide) : Form :=
  { laneForm i (fun src t p => wrW t p n.val (v src p)) with price := fun _ ls => ls.length }

/-- Work that lands later takes a number (R46). -/
def land (s : State) (e : Pend) : State := takeFresh (s.setPend (tset s.pend s.fresh e))

/-- A result that no memory access makes, landing in one register of a lane. -/
def landFixed (s : State) (pos : Nat) (r : RegId) (v : RegVal) : State :=
  if markable r then
    land s {
      pos := pos, regs := [r], vals := [v], due := s.time + s.pace.fixed }
  else s

/-- A G register as the register of a lane, and a value for it. -/
def gId (pos : Nat) (r : GReg) : RegId :=
  match r.bank with
  | .g => .g pos r.num.val
  | .h => .h (gpipe pos) r.num.val
def gVal (pos : Nat) (r : GReg) (v : Word) : RegVal :=
  match r.bank with
  | .g => .g pos r.num.val v
  | .h => .h (gpipe pos) r.num.val v

/-- A form whose G result lands later (R46, R231). -/
def gLater (i : Instr) (d : GReg) (v : State → Nat → Word) : Form :=
  laneForm i fun src t p => landFixed t p (gId p d) (gVal p d (v src p))

/-- The g register of an operand field of kind g (R205). -/
def asG (n : Fin 32) : GReg := { bank := .g, num := n }

/-- The lowest acting lane, from which some forms take their operands (R208, R226). -/
def lowestOf (s : State) (ls : List Nat) : Nat := ls.headD s.cur.leader

/-- A fault of one lane with an OPERAND sub-cause (R459). -/
def operandFault (code : Nat) (sval : Word) : TrapInfo := { cause := 4, code := code, sval := sval }

/-- The outcome of a check made in every acting lane: the lanes that fail. -/
def faultsOf (l : List (Nat × Option TrapInfo)) : Stage :=
  let bad := l.filterMap (fun q => q.2.map (fun i => (q.1, i)))
  if bad.isEmpty then .ok else .fault bad

end Sys2Proof.Machine
end

