-- ==== Sys2Proof/Machine/Flags.lean ====
section
/-!
DEFINITION. Flag computations: the conditions of integer and floating-point comparisons (spec/08_isa_formats.md R213,
spec/09_isa_integer_and_control.md R238, spec/10_isa_numbers_and_float.md R269), the votes over predicates (R241) and the
sticky flags of an exact accumulator (R283, R284). The KL-640 has no condition-code register.
-/
namespace Sys2Proof.Machine

open Sys2Proof

/-- x cc y on the views of R227 (R238). -/
def intCond (c : ICC) (x y : Int) : Bool :=
  match c with
  | .eq => decide (x = y)
  | .ne => decide (x ≠ y)
  | .lt => decide (x < y)
  | .le => decide (x ≤ y)
  | .gt => decide (y < x)
  | .ge => decide (y ≤ x)

/-- a cc b (R269): ordered conditions are false, ne and un true, when an operand is NaN. -/
def floatCond (c : CC) (a b : Exact) : Bool :=
  let un := isNan a || isNan b
  match c with
  | .eq => !un && decide (cmpX a b = 0)
  | .ne => un || decide (cmpX a b ≠ 0)
  | .lt => !un && decide (cmpX a b < 0)
  | .le => !un && decide (cmpX a b ≤ 0)
  | .gt => !un && decide (0 < cmpX a b)
  | .ge => !un && decide (0 ≤ cmpX a b)
  | .un => un
  | .ord => !un

/-- The three votes over the exchange set L (R240, R241). -/
def voteSomeOf (s : State) (l : List Nat) (n : Nat) : Bool := l.any (fun p => rdP s p n)
def voteEveryOf (s : State) (l : List Nat) (n : Nat) : Bool := l.all (fun p => rdP s p n)
def voteAgreeOf (s : State) (l : List Nat) (n : Nat) : Bool := voteEveryOf s l n || !(voteSomeOf s l n)

/-- Flags of an X320 value: NAN, PINF and NINF in bits 0, 1 and 2 (R283). -/
def xNan : BitVec 3 := 1#3
def xPinf : BitVec 3 := 2#3
def xNinf : BitVec 3 := 4#3

end Sys2Proof.Machine
end

