-- ==== Sys2Proof/Machine/Arith.lean ====
section
/-!
DEFINITION. Integer arithmetic and logic, bit operations, selection, comparisons, predicates and lane exchange
(spec/09_isa_integer_and_control.md R230 to R243), and the register moves of the Alley and of the gang (R210).
-/
namespace Sys2Proof.Machine

open Sys2Proof

/-- A result of two views x and y (R230). -/
def viewOp (t : IntTy) (a b : GReg) (f : Int → Int → Int) (s : State) (p : Nat) : Word :=
  wrapT t (f (view t (rdReg s p a)) (view t (rdReg s p b)))
/-- A result of two N-bit patterns (R230). -/
def patOp (t : IntTy) (a b : GReg) (f : Nat → Nat → Nat) (s : State) (p : Nat) : Word :=
  wrapT t (f (uView t (rdReg s p a)) (uView t (rdReg s p b)) : Nat)
/-- The shift count s of R230. -/
def shiftOf (t : IntTy) (v : Word) : Nat := v.toNat % t.width
/-- x ÷ y and the remainder of R230, with their results for y = 0. -/
def divOf (x y : Int) : Int := if y = 0 then -1 else Int.tdiv x y
def remOf (x y : Int) : Int := if y = 0 then x else Int.tmod x y
/-- The N-bit pattern u rotated left by s places. -/
def rotOf (n u s : Nat) : Nat := u * 2 ^ s % 2 ^ n + u / 2 ^ (n - s)
/-- Pattern AND NOT pattern. -/
def andnOf (n x y : Nat) : Nat := Nat.land x (Nat.xor y (2 ^ n - 1))
/-- The low N bits of SX(IMM6, 6) (R232). -/
def immPat (t : IntTy) (c : BitVec 6) : Nat := (imm6 c % (2 ^ t.width : Nat)).toNat
/-- A result of one N-bit pattern (R234). -/
def pat1 (t : IntTy) (a : GReg) (f : Nat → Nat) (s : State) (p : Nat) : Word := wrapT t (f (uView t (rdReg s p a)) : Nat)

/-- Counts over an n-bit pattern (R234). -/
def clzOf (n u : Nat) : Nat := if u = 0 then n else n - 1 - Nat.log2 u
def ctzFrom (u : Nat) : Nat → Nat
  | 0 => 0
  | n + 1 => if u % 2 = 1 then 0 else 1 + ctzFrom (u / 2) n
def popcOf (u : Nat) : Nat → Nat
  | 0 => 0
  | n + 1 => u % 2 + popcOf (u / 2) n
def brevOf (u : Nat) : Nat → Nat
  | 0 => 0
  | n + 1 => u % 2 * 2 ^ n + brevOf (u / 2) n

/-- The part of the field that lies inside the width: m of R235. -/
def fieldLen (n pos len : Nat) : Nat := Nat.min len (n - pos)
def bfxOf (t : IntTy) (v c : Word) : Int :=
  let pos := field c.toNat 0 8
  let m := fieldLen t.width pos (field c.toNat 8 8)
  let f := uView t v / 2 ^ pos % 2 ^ m
  if t.signed && decide (1 ≤ m ∧ 2 ^ (m - 1) ≤ f) then (f : Int) - (2 ^ m : Nat) else f
def bfiOf (t : IntTy) (d v c : Word) : Nat :=
  let pos := field c.toNat 0 8
  let m := fieldLen t.width pos (field c.toNat 8 8)
  let pd := uView t d
  pd - pd / 2 ^ pos % 2 ^ m * 2 ^ pos + uView t v % 2 ^ m * 2 ^ pos

/-- The source lane of a shuffle (R242): lane index, gang size and control value. -/
def ringLo (i g c : Nat) : Int :=
  if inMask c 5 then ((i : Int) - (c % 32 : Nat)) % (g : Int) else (i : Int) - (c % 32 : Nat)
def ringHi (i g c : Nat) : Int :=
  if inMask c 5 then ((i : Int) + (c % 32 : Nat)) % (g : Int) else (i : Int) + (c % 32 : Nat)

/-- A shuffle: a lane whose source lies in L takes its S1, and any other lane its own (R242). -/
def shflForm (i : Instr) (d a b : GReg) (src : Nat → Nat → Nat → Int) : Form := {
  instr := i
  act := fun s t ls => ls.foldl (fun u p =>
    let lane := src (p - s.cur.leader) (2 ^ glogOf (s.str p)) (rdReg s p b).toNat
    let q := s.cur.leader + lane.toNat
    wrReg u p d (if 0 ≤ lane ∧ ls.contains q then rdReg s q a else rdReg s p a)) t }

/-- A vote or a ballot over the exchange set (R241). -/
def voteForm (i : Instr) (n : Fin 8) (v : State → List Nat → Bool) : Form := {
  instr := i
  act := fun s t ls => ls.foldl (fun u p => wrP u p n.val (v s ls)) t }

/-! ### The Alley (R209, R210) -/

/-- Column and row steps of a direction, north first. -/
def qNext (p : Nat) : QDir → Option Nat
  | .qn => if 4 ≤ p then some (p - 4) else none
  | .qe => if p % 4 < 3 then some (p + 1) else none
  | .qs => if p < 12 then some (p + 4) else none
  | .qw => if 0 < p % 4 then some (p - 1) else none
def qCode : QDir → Nat
  | .qn => 0
  | .qe => 1
  | .qs => 2
  | .qw => 3
def qBack : QDir → QDir
  | .qn => .qs
  | .qe => .qw
  | .qs => .qn
  | .qw => .qe
/-- Whether the pipe of a position has a neighbour in a direction. -/
def hasNext (pos : Nat) (q : QDir) : Bool := (qNext (pipeOf pos) q).isSome
/-- Key of the incoming link of a position, and of its outgoing link, which is the neighbour's incoming one. -/
def inLink (pos : Nat) (q : QDir) : Nat := 4 * pos + qCode q
def outLink (pos : Nat) (q : QDir) : Nat :=
  match qNext (pipeOf pos) q with
  | some n => 4 * (pos - pipeOf pos + n) + qCode (qBack q)
  | none => 4 * pos + qCode q
/-- A link as it stood at the end of the previous cycle. -/
def linkBefore (s : State) (k : Nat) : Option Word :=
  match tfind s.alleyOld k with
  | some v => v
  | none => tfind s.alley k
/-- Keep what a link held at the end of the previous cycle before it changes. -/
def noteLink (s : State) (k : Nat) : State :=
  match tfind s.alleyOld k with
  | some _ => s
  | none => s.setAlleyOld (tset s.alleyOld k (tfind s.alley k))
/-- A link is popped. What a sender of this cycle has pushed already stays. -/
def popLink (s : State) (k : Nat) : State :=
  let t := s.setForeseen (s.foreseen.filter (· ≠ k))
  match tfind s.alleyOld k with
  | some (some _) => t
  | _ => (noteLink t k).setAlley (tdel s.alley k)
def pushLink (s : State) (k : Nat) (v : Word) : State :=
  ((noteLink s k).setAlley (tset s.alley k v)).setBadRegs (s.badRegs.filter (· ≠ .link k))
/-- A push is accepted when the link was empty at the end of the previous cycle, or when it is popped in this cycle: by this word, by
a bundle before it, or by one that comes after it. -/
def accepts (s : State) (popped : List Nat) (k : Nat) : Bool :=
  ((linkBefore s k).isNone && (tfind s.alley k).isNone) || popped.contains k || s.foreseen.contains k ||
    ((linkBefore s k).isSome && (tfind s.alley k).isNone)

/-- The links that the acting lanes of a word pop, each full at the end of the previous cycle (R46, R209). -/
def popWaits (s : State) (ls : List Nat) (x : QDir) : Stage :=
  let waits := ls.filter (fun p => (linkBefore s (inLink p x)).isNone)
  if waits.isEmpty then .ok else .park .data (waits.map fun p => (p, WaitFor.alley [inLink p x] [])) []
/-- The links that the acting lanes of a word push onto, `popped` being those that it pops (R209). -/
def pushWaits (s : State) (ls : List Nat) (popped : List Nat) (y : QDir) : Stage :=
  let waits := ls.filter (fun p => !accepts s popped (outLink p y))
  if waits.isEmpty then .ok else .park .data (waits.map fun p => (p, WaitFor.alley [] [outLink p y])) []

/-- R230. -/
def formAdd (gd : Guard) (d : GReg) (a : GReg) (b : GReg) (t : IntTy) : Form :=
  gForm (.add gd d a b t) d (viewOp t a b (· + ·))
def execAdd (gd : Guard) (d : GReg) (a : GReg) (b : GReg) (t : IntTy) (s : State) : Host.Outcome State Fault Refusal :=
  run gd (formAdd gd d a b t) s

/-- R230. -/
def formSub (gd : Guard) (d : GReg) (a : GReg) (b : GReg) (t : IntTy) : Form :=
  gForm (.sub gd d a b t) d (viewOp t a b (· - ·))
def execSub (gd : Guard) (d : GReg) (a : GReg) (b : GReg) (t : IntTy) (s : State) : Host.Outcome State Fault Refusal :=
  run gd (formSub gd d a b t) s

/-- R230. -/
def formMul (gd : Guard) (d : GReg) (a : GReg) (b : GReg) (t : IntTy) : Form :=
  gForm (.mul gd d a b t) d (viewOp t a b (· * ·))
def execMul (gd : Guard) (d : GReg) (a : GReg) (b : GReg) (t : IntTy) (s : State) : Host.Outcome State Fault Refusal :=
  run gd (formMul gd d a b t) s

/-- R230. -/
def formMulh (gd : Guard) (d : GReg) (a : GReg) (b : GReg) (t : IntTy) : Form :=
  gForm (.mulh gd d a b t) d (viewOp t a b (fun x y => x * y / (2 ^ t.width : Nat)))
def execMulh (gd : Guard) (d : GReg) (a : GReg) (b : GReg) (t : IntTy) (s : State) : Host.Outcome State Fault Refusal :=
  run gd (formMulh gd d a b t) s

/-- R230: D is read and written. -/
def formMad (gd : Guard) (d : GReg) (a : GReg) (b : GReg) (t : IntTy) : Form :=
  gForm (.mad gd d a b t) d fun s p =>
    wrapT t (view t (rdReg s p d) + view t (rdReg s p a) * view t (rdReg s p b))
def execMad (gd : Guard) (d : GReg) (a : GReg) (b : GReg) (t : IntTy) (s : State) : Host.Outcome State Fault Refusal :=
  run gd (formMad gd d a b t) s

/-- R230, R231: the quotient lands later. -/
def formDiv (gd : Guard) (d : GReg) (a : GReg) (b : GReg) (t : IntTy) : Form :=
  gLater (.div gd d a b t) d (viewOp t a b divOf)
def execDiv (gd : Guard) (d : GReg) (a : GReg) (b : GReg) (t : IntTy) (s : State) : Host.Outcome State Fault Refusal :=
  run gd (formDiv gd d a b t) s

/-- R230, R231: the remainder lands later. -/
def formRem (gd : Guard) (d : GReg) (a : GReg) (b : GReg) (t : IntTy) : Form :=
  gLater (.rem gd d a b t) d (viewOp t a b remOf)
def execRem (gd : Guard) (d : GReg) (a : GReg) (b : GReg) (t : IntTy) (s : State) : Host.Outcome State Fault Refusal :=
  run gd (formRem gd d a b t) s

/-- R230. -/
def formAnd (gd : Guard) (d : GReg) (a : GReg) (b : GReg) (t : IntTy) : Form :=
  gForm (.and gd d a b t) d (patOp t a b Nat.land)
def execAnd (gd : Guard) (d : GReg) (a : GReg) (b : GReg) (t : IntTy) (s : State) : Host.Outcome State Fault Refusal :=
  run gd (formAnd gd d a b t) s

/-- R230. -/
def formOr (gd : Guard) (d : GReg) (a : GReg) (b : GReg) (t : IntTy) : Form :=
  gForm (.or gd d a b t) d (patOp t a b Nat.lor)
def execOr (gd : Guard) (d : GReg) (a : GReg) (b : GReg) (t : IntTy) (s : State) : Host.Outcome State Fault Refusal :=
  run gd (formOr gd d a b t) s

/-- R230. -/
def formXor (gd : Guard) (d : GReg) (a : GReg) (b : GReg) (t : IntTy) : Form :=
  gForm (.xor gd d a b t) d (patOp t a b Nat.xor)
def execXor (gd : Guard) (d : GReg) (a : GReg) (b : GReg) (t : IntTy) (s : State) : Host.Outcome State Fault Refusal :=
  run gd (formXor gd d a b t) s

/-- R230. -/
def formAndn (gd : Guard) (d : GReg) (a : GReg) (b : GReg) (t : IntTy) : Form :=
  gForm (.andn gd d a b t) d (patOp t a b (andnOf t.width))
def execAndn (gd : Guard) (d : GReg) (a : GReg) (b : GReg) (t : IntTy) (s : State) : Host.Outcome State Fault Refusal :=
  run gd (formAndn gd d a b t) s

/-- R230, with the shift count taken modulo N. -/
def formShl (gd : Guard) (d : GReg) (a : GReg) (b : GReg) (t : IntTy) : Form :=
  gForm (.shl gd d a b t) d fun s p =>
    wrapT t (view t (rdReg s p a) * (2 ^ shiftOf t (rdReg s p b) : Nat))
def execShl (gd : Guard) (d : GReg) (a : GReg) (b : GReg) (t : IntTy) (s : State) : Host.Outcome State Fault Refusal :=
  run gd (formShl gd d a b t) s

/-- R230, with the shift count taken modulo N. -/
def formShr (gd : Guard) (d : GReg) (a : GReg) (b : GReg) (t : IntTy) : Form :=
  gForm (.shr gd d a b t) d fun s p =>
    wrapT t ((uView t (rdReg s p a) / 2 ^ shiftOf t (rdReg s p b) : Nat))
def execShr (gd : Guard) (d : GReg) (a : GReg) (b : GReg) (t : IntTy) (s : State) : Host.Outcome State Fault Refusal :=
  run gd (formShr gd d a b t) s

/-- R230, with the shift count taken modulo N. -/
def formSar (gd : Guard) (d : GReg) (a : GReg) (b : GReg) (t : IntTy) : Form :=
  gForm (.sar gd d a b t) d fun s p =>
    wrapT t (iView t (rdReg s p a) / (2 ^ shiftOf t (rdReg s p b) : Nat))
def execSar (gd : Guard) (d : GReg) (a : GReg) (b : GReg) (t : IntTy) (s : State) : Host.Outcome State Fault Refusal :=
  run gd (formSar gd d a b t) s

/-- R230, with the shift count taken modulo N. -/
def formRot (gd : Guard) (d : GReg) (a : GReg) (b : GReg) (t : IntTy) : Form :=
  gForm (.rot gd d a b t) d fun s p =>
    wrapT t ((rotOf t.width (uView t (rdReg s p a)) (shiftOf t (rdReg s p b)) : Nat))
def execRot (gd : Guard) (d : GReg) (a : GReg) (b : GReg) (t : IntTy) (s : State) : Host.Outcome State Fault Refusal :=
  run gd (formRot gd d a b t) s

/-- R230. -/
def formMin (gd : Guard) (d : GReg) (a : GReg) (b : GReg) (t : IntTy) : Form :=
  gForm (.min gd d a b t) d (viewOp t a b (fun x y => if x ≤ y then x else y))
def execMin (gd : Guard) (d : GReg) (a : GReg) (b : GReg) (t : IntTy) (s : State) : Host.Outcome State Fault Refusal :=
  run gd (formMin gd d a b t) s

/-- R230. -/
def formMax (gd : Guard) (d : GReg) (a : GReg) (b : GReg) (t : IntTy) : Form :=
  gForm (.max gd d a b t) d (viewOp t a b (fun x y => if x ≤ y then y else x))
def execMax (gd : Guard) (d : GReg) (a : GReg) (b : GReg) (t : IntTy) (s : State) : Host.Outcome State Fault Refusal :=
  run gd (formMax gd d a b t) s

/-- R232: addition is modulo 2^N, so the view of the immediate may be its signed value. -/
def formAddi (gd : Guard) (d : GReg) (a : GReg) (imm : BitVec 6) (t : IntTy) : Form :=
  gForm (.addi gd d a imm t) d fun s p => wrapT t (view t (rdReg s p a) + imm6 imm)
def execAddi (gd : Guard) (d : GReg) (a : GReg) (imm : BitVec 6) (t : IntTy) (s : State) : Host.Outcome State Fault Refusal :=
  run gd (formAddi gd d a imm t) s

/-- R232. -/
def formAndi (gd : Guard) (d : GReg) (a : GReg) (imm : BitVec 6) (t : IntTy) : Form :=
  gForm (.andi gd d a imm t) d fun s p =>
    wrapT t (Nat.land (uView t (rdReg s p a)) (immPat t imm) : Nat)
def execAndi (gd : Guard) (d : GReg) (a : GReg) (imm : BitVec 6) (t : IntTy) (s : State) : Host.Outcome State Fault Refusal :=
  run gd (formAndi gd d a imm t) s

/-- R232. -/
def formOri (gd : Guard) (d : GReg) (a : GReg) (imm : BitVec 6) (t : IntTy) : Form :=
  gForm (.ori gd d a imm t) d fun s p =>
    wrapT t (Nat.lor (uView t (rdReg s p a)) (immPat t imm) : Nat)
def execOri (gd : Guard) (d : GReg) (a : GReg) (imm : BitVec 6) (t : IntTy) (s : State) : Host.Outcome State Fault Refusal :=
  run gd (formOri gd d a imm t) s

/-- R232. -/
def formXori (gd : Guard) (d : GReg) (a : GReg) (imm : BitVec 6) (t : IntTy) : Form :=
  gForm (.xori gd d a imm t) d fun s p =>
    wrapT t (Nat.xor (uView t (rdReg s p a)) (immPat t imm) : Nat)
def execXori (gd : Guard) (d : GReg) (a : GReg) (imm : BitVec 6) (t : IntTy) (s : State) : Host.Outcome State Fault Refusal :=
  run gd (formXori gd d a imm t) s

/-- R233. -/
def formLi (gd : Guard) (d : GReg) (imm : BitVec 14) : Form :=
  gForm (.li gd d imm) d fun _ _ => BitVec.ofInt 64 imm.toInt
def execLi (gd : Guard) (d : GReg) (imm : BitVec 14) (s : State) : Host.Outcome State Fault Refusal :=
  run gd (formLi gd d imm) s

/-- R233: D is read and written. -/
def formLih (gd : Guard) (d : GReg) (imm : BitVec 14) : Form :=
  gForm (.lih gd d imm) d fun s p => word ((rdReg s p d).toNat * 2 ^ 14 + imm.toNat)
def execLih (gd : Guard) (d : GReg) (imm : BitVec 14) (s : State) : Host.Outcome State Fault Refusal :=
  run gd (formLih gd d imm) s

/-- R234. -/
def formAbs (gd : Guard) (d : GReg) (a : GReg) (t : IntTy) : Form :=
  gForm (.abs gd d a t) d fun s p =>
    wrapT t (if view t (rdReg s p a) < 0 then -view t (rdReg s p a) else view t (rdReg s p a))
def execAbs (gd : Guard) (d : GReg) (a : GReg) (t : IntTy) (s : State) : Host.Outcome State Fault Refusal :=
  run gd (formAbs gd d a t) s

/-- R234. -/
def formNeg (gd : Guard) (d : GReg) (a : GReg) (t : IntTy) : Form :=
  gForm (.neg gd d a t) d fun s p => wrapT t (-view t (rdReg s p a))
def execNeg (gd : Guard) (d : GReg) (a : GReg) (t : IntTy) (s : State) : Host.Outcome State Fault Refusal :=
  run gd (formNeg gd d a t) s

/-- R234. -/
def formClz (gd : Guard) (d : GReg) (a : GReg) (t : IntTy) : Form :=
  gForm (.clz gd d a t) d (pat1 t a (clzOf t.width))
def execClz (gd : Guard) (d : GReg) (a : GReg) (t : IntTy) (s : State) : Host.Outcome State Fault Refusal :=
  run gd (formClz gd d a t) s

/-- R234. -/
def formCtz (gd : Guard) (d : GReg) (a : GReg) (t : IntTy) : Form :=
  gForm (.ctz gd d a t) d (pat1 t a (fun u => ctzFrom u t.width))
def execCtz (gd : Guard) (d : GReg) (a : GReg) (t : IntTy) (s : State) : Host.Outcome State Fault Refusal :=
  run gd (formCtz gd d a t) s

/-- R234. -/
def formPopc (gd : Guard) (d : GReg) (a : GReg) (t : IntTy) : Form :=
  gForm (.popc gd d a t) d (pat1 t a (fun u => popcOf u t.width))
def execPopc (gd : Guard) (d : GReg) (a : GReg) (t : IntTy) (s : State) : Host.Outcome State Fault Refusal :=
  run gd (formPopc gd d a t) s

/-- R234. -/
def formBrev (gd : Guard) (d : GReg) (a : GReg) (t : IntTy) : Form :=
  gForm (.brev gd d a t) d (pat1 t a (fun u => brevOf u t.width))
def execBrev (gd : Guard) (d : GReg) (a : GReg) (t : IntTy) (s : State) : Host.Outcome State Fault Refusal :=
  run gd (formBrev gd d a t) s

/-- R235. -/
def formBfx (gd : Guard) (d : GReg) (a : GReg) (b : GReg) (t : IntTy) : Form :=
  gForm (.bfx gd d a b t) d fun s p => wrapT t (bfxOf t (rdReg s p a) (rdReg s p b))
def execBfx (gd : Guard) (d : GReg) (a : GReg) (b : GReg) (t : IntTy) (s : State) : Host.Outcome State Fault Refusal :=
  run gd (formBfx gd d a b t) s

/-- R235: D is read and written. -/
def formBfi (gd : Guard) (d : GReg) (a : GReg) (b : GReg) (t : IntTy) : Form :=
  gForm (.bfi gd d a b t) d fun s p =>
    wrapT t (bfiOf t (rdReg s p d) (rdReg s p a) (rdReg s p b) : Nat)
def execBfi (gd : Guard) (d : GReg) (a : GReg) (b : GReg) (t : IntTy) (s : State) : Host.Outcome State Fault Refusal :=
  run gd (formBfi gd d a b t) s

/-- R236. -/
def formSel (gd : Guard) (d : GReg) (a : GReg) (b : GReg) (q : Fin 8) : Form :=
  gForm (.sel gd d a b q) d fun s p => if rdP s p q.val then rdReg s p a else rdReg s p b
def execSel (gd : Guard) (d : GReg) (a : GReg) (b : GReg) (q : Fin 8) (s : State) : Host.Outcome State Fault Refusal :=
  run gd (formSel gd d a b q) s

/-- R237. -/
def formLea (gd : Guard) (d : GReg) (a : GReg) (b : GReg) (sh : Fin 4) : Form :=
  gForm (.lea gd d a b sh) d fun s p => word ((rdReg s p a).toNat + (rdReg s p b).toNat * 2 ^ sh.val)
def execLea (gd : Guard) (d : GReg) (a : GReg) (b : GReg) (sh : Fin 4) (s : State) : Host.Outcome State Fault Refusal :=
  run gd (formLea gd d a b sh) s

/-- R238. -/
def formCmp (gd : Guard) (c : ICC) (p : Fin 8) (a : GReg) (b : GReg) (t : IntTy) : Form :=
  pForm (.cmp gd c p a b t) p fun s q => intCond c (view t (rdReg s q a)) (view t (rdReg s q b))
def execCmp (gd : Guard) (c : ICC) (p : Fin 8) (a : GReg) (b : GReg) (t : IntTy) (s : State) : Host.Outcome State Fault Refusal :=
  run gd (formCmp gd c p a b t) s

/-- R239. -/
def formPand (gd : Guard) (p : Fin 8) (a : Fin 8) (b : Fin 8) : Form :=
  pForm (.pand gd p a b) p fun s q => rdP s q a.val && rdP s q b.val
def execPand (gd : Guard) (p : Fin 8) (a : Fin 8) (b : Fin 8) (s : State) : Host.Outcome State Fault Refusal :=
  run gd (formPand gd p a b) s

/-- R239. -/
def formPor (gd : Guard) (p : Fin 8) (a : Fin 8) (b : Fin 8) : Form :=
  pForm (.por gd p a b) p fun s q => rdP s q a.val || rdP s q b.val
def execPor (gd : Guard) (p : Fin 8) (a : Fin 8) (b : Fin 8) (s : State) : Host.Outcome State Fault Refusal :=
  run gd (formPor gd p a b) s

/-- R239. -/
def formPxor (gd : Guard) (p : Fin 8) (a : Fin 8) (b : Fin 8) : Form :=
  pForm (.pxor gd p a b) p fun s q => xor (rdP s q a.val) (rdP s q b.val)
def execPxor (gd : Guard) (p : Fin 8) (a : Fin 8) (b : Fin 8) (s : State) : Host.Outcome State Fault Refusal :=
  run gd (formPxor gd p a b) s

/-- R239. -/
def formPnot (gd : Guard) (p : Fin 8) (a : Fin 8) : Form := pForm (.pnot gd p a) p fun s q => !(rdP s q a.val)
def execPnot (gd : Guard) (p : Fin 8) (a : Fin 8) (s : State) : Host.Outcome State Fault Refusal :=
  run gd (formPnot gd p a) s

/-- R241. -/
def formVoteSome (gd : Guard) (p : Fin 8) (a : Fin 8) : Form :=
  voteForm (.voteSome gd p a) p (fun s l => voteSomeOf s l a.val)
def execVoteSome (gd : Guard) (p : Fin 8) (a : Fin 8) (s : State) : Host.Outcome State Fault Refusal :=
  run gd (formVoteSome gd p a) s

/-- R241. -/
def formVoteEvery (gd : Guard) (p : Fin 8) (a : Fin 8) : Form :=
  voteForm (.voteEvery gd p a) p (fun s l => voteEveryOf s l a.val)
def execVoteEvery (gd : Guard) (p : Fin 8) (a : Fin 8) (s : State) : Host.Outcome State Fault Refusal :=
  run gd (formVoteEvery gd p a) s

/-- R241. -/
def formVoteAgree (gd : Guard) (p : Fin 8) (a : Fin 8) : Form :=
  voteForm (.voteAgree gd p a) p (fun s l => voteAgreeOf s l a.val)
def execVoteAgree (gd : Guard) (p : Fin 8) (a : Fin 8) (s : State) : Host.Outcome State Fault Refusal :=
  run gd (formVoteAgree gd p a) s

/-- R241: bit i is set for each lane i of L whose predicate is true. -/
def formBallot (gd : Guard) (d : GReg) (a : Fin 8) : Form :=
  {
    instr := (.ballot gd d a)
    act := fun s t ls => ls.foldl (fun u p =>
      wrReg u p d (word (laneMask s.cur.leader (ls.filter (fun q => rdP s q a.val))))) t }
def execBallot (gd : Guard) (d : GReg) (a : Fin 8) (s : State) : Host.Outcome State Fault Refusal :=
  run gd (formBallot gd d a) s

/-- R242. -/
def formShflPick (gd : Guard) (d : GReg) (a : GReg) (b : GReg) : Form :=
  shflForm (.shflPick gd d a b) d a b (fun _ _ c => (c % 16 : Nat))
def execShflPick (gd : Guard) (d : GReg) (a : GReg) (b : GReg) (s : State) : Host.Outcome State Fault Refusal :=
  run gd (formShflPick gd d a b) s

/-- R242. -/
def formShflLo (gd : Guard) (d : GReg) (a : GReg) (b : GReg) : Form := shflForm (.shflLo gd d a b) d a b ringLo
def execShflLo (gd : Guard) (d : GReg) (a : GReg) (b : GReg) (s : State) : Host.Outcome State Fault Refusal :=
  run gd (formShflLo gd d a b) s

/-- R242. -/
def formShflHi (gd : Guard) (d : GReg) (a : GReg) (b : GReg) : Form := shflForm (.shflHi gd d a b) d a b ringHi
def execShflHi (gd : Guard) (d : GReg) (a : GReg) (b : GReg) (s : State) : Host.Outcome State Fault Refusal :=
  run gd (formShflHi gd d a b) s

/-- R242. -/
def formShflMir (gd : Guard) (d : GReg) (a : GReg) (b : GReg) : Form :=
  shflForm (.shflMir gd d a b) d a b (fun i _ c => (Nat.xor i (c % 16) : Nat))
def execShflMir (gd : Guard) (d : GReg) (a : GReg) (b : GReg) (s : State) : Host.Outcome State Fault Refusal :=
  run gd (formShflMir gd d a b) s

/-- R243. -/
def formBcast (gd : Guard) (d : GReg) (a : GReg) (lane : Fin 16) : Form :=
  {
    instr := (.bcast gd d a lane)
    act := fun s t ls => ls.foldl (fun u p =>
      let q := s.cur.leader + lane.val
      wrReg u p d (rdReg s (if ls.contains q then q else lowestOf s ls) a)) t }
def execBcast (gd : Guard) (d : GReg) (a : GReg) (lane : Fin 16) (s : State) : Host.Outcome State Fault Refusal :=
  run gd (formBcast gd d a lane) s

/-- R210: pop the incoming link, push the value on where FWD is set, and write D. -/
def formQrd (gd : Guard) (d : GReg) (x : QDir) (fwd : Option QDir) : Form :=
  {
    instr := (.qrd gd d x fwd)
    reads := fun _ p => [.link (inLink p x)]
    alley := fun _ p => hasNext p x && (match fwd with | some y => hasNext p y | none => true)
    regs := fun s ls => popWaits s ls x
    room := fun s ls => match fwd with | some y => pushWaits s ls (ls.map (fun p => inLink p x)) y | none => .ok
    act := fun s t ls => ls.foldl (fun u p =>
      let v := (linkBefore s (inLink p x)).getD 0#64
      wrReg (match fwd with | some y => pushLink u (outLink p y) v | none => u) p d v)
        (ls.foldl (fun u p => popLink u (inLink p x)) t) }
def execQrd (gd : Guard) (d : GReg) (x : QDir) (fwd : Option QDir) (s : State) : Host.Outcome State Fault Refusal :=
  run gd (formQrd gd d x fwd) s

/-- R210: push onto the outgoing link. -/
def formQwr (gd : Guard) (y : QDir) (a : GReg) : Form :=
  {
    instr := (.qwr gd y a)
    alley := fun _ p => hasNext p y
    room := fun s ls => pushWaits s ls [] y
    act := fun s t ls => ls.foldl (fun u p => pushLink u (outLink p y) (rdReg s p a)) t }
def execQwr (gd : Guard) (y : QDir) (a : GReg) (s : State) : Host.Outcome State Fault Refusal :=
  run gd (formQwr gd y a) s

/-- R210. -/
def formKrd (gd : Guard) (d : GReg) (k : Fin 16) : Form := gForm (.krd gd d k) d fun s _ => rdK s s.cur.leader k.val
def execKrd (gd : Guard) (d : GReg) (k : Fin 16) (s : State) : Host.Outcome State Fault Refusal :=
  run gd (formKrd gd d k) s

/-- R208, R210: the value of the lowest acting lane. -/
def formKwr (gd : Guard) (k : Fin 16) (a : GReg) : Form :=
  {
    instr := (.kwr gd k a)
    act := fun s t ls => if ls.isEmpty then t else wrK t s.cur.leader k.val (rdReg s (lowestOf s ls) a) }
def execKwr (gd : Guard) (k : Fin 16) (a : GReg) (s : State) : Host.Outcome State Fault Refusal :=
  run gd (formKwr gd k a) s

end Sys2Proof.Machine
end

