-- ==== Sys2Proof/Machine/Views.lean ====
section
/-!
DEFINITION. The 64-bit views of registers: system registers as `rdsr` reads them (spec/08_isa_formats.md R218,
spec/17_traps_and_containment.md R438 to R441), the records of the save frame
(spec/07_scheduling_and_ring_road.md R180, R181), and the device-register region as it is read
(spec/14_host_fabric_and_boot.md R391 to R395).
-/
namespace Sys2Proof.Machine

open Sys2Proof

/-- A set in the view of R82. -/
def setView (x : JSet) : Word :=
  word (bCode x.valid * 2 ^ 63 + x.quit.toNat * 2 ^ 32 + x.arrived.toNat * 2 ^ 16 + x.member.toNat)

/-- The set of a view, ARRIVED included (R95). -/
def setOfView (v : Word) : JSet :=
  { valid := v.getLsbD 63, quit := BitVec.ofNat 16 (field v.toNat 32 16), arrived := BitVec.ofNat 16 (field v.toNat 16 16),
    member := BitVec.ofNat 16 (field v.toNat 0 16) }

/-- Codes of STATE and PARK (R61, R62). -/
def stCode : StName → Nat
  | .free => 0
  | .ready => 1
  | .parked => 2
  | .frozen => 3
  | .supervisor => 4
  | .saved => 5
  | .retired => 6
def parkCode : Park → Nat
  | .none => 0
  | .data => 1
  | .presence => 2
  | .token => 3
  | .barrier => 4
  | .rejoin => 5
  | .fuse => 6
  | .monitor => 7
  | .message => 8
  | .spawn => 9
  | .translate => 10
  | .matrix => 11
def stOf : Nat → StName
  | 1 => .ready
  | 2 => .parked
  | 3 => .frozen
  | 4 => .supervisor
  | 5 => .saved
  | 6 => .retired
  | _ => .free
def parkOf : Nat → Park
  | 1 => .data
  | 2 => .presence
  | 3 => .token
  | 4 => .barrier
  | 5 => .rejoin
  | 6 => .fuse
  | 7 => .monitor
  | 8 => .message
  | 9 => .spawn
  | 10 => .translate
  | 11 => .matrix
  | _ => .none

/-- A number whose n-bit digits are f 0 (lowest), f 1, ... -/
def digits (n : Nat) (f : Nat → Nat) : Nat → Nat
  | 0 => 0
  | k + 1 => digits n f k + f k % 2 ^ n * 2 ^ (n * k)

/-- The PATHROT, LSTATE and PATHMAP of a gang (R92 to R94). -/
def pathrot (s : State) (lead : Nat) : Word :=
  let g := s.gang lead
  word (g.last * 2 ^ 11 + (if g.turn then 2 ^ 19 + g.cur * 2 ^ 15 + g.qleft else 0))
def lmodeCode : LMode → Nat
  | .inPath _ => 0
  | .detached => 1
  | .retired => 2
  | .hollow => 3
  | .absent => 4
  | .waiting j => 8 + j
def lstate (s : State) (lead : Nat) : Word :=
  word (digits 4 (fun i => if i < 2 ^ glogOf (s.str lead) then lmodeCode (s.str (lead + i)).lmode else 4) 16)
def pathmap (s : State) (lead : Nat) : Word :=
  word (digits 4 (fun i => if i < 2 ^ glogOf (s.str lead) then (pathOf (s.str (lead + i))).getD 0 else 0) 16)

/-! ### Cell registers -/

def cmcfg (x : CellSt) : Word := word (bCode x.bank * 2 ^ 12 + x.ter * 2 ^ 8 + x.scrsz)
def coolSum (x : CellSt) : Nat := (x.cool.map (·.2)).foldl (· + ·) 0
/-- PrioClaim (R190): the oldest unpaid request was raised at least 160 die cycles ago. -/
def prioClaim (s : State) (x : CellSt) : Bool :=
  match x.reqs with
  | [] => false
  | r :: _ => decide (r.die + 160 ≤ s.time)
/-- TOKSTAT (R184). -/
def tokstat (s : State) (x : CellSt) : Word :=
  word (bCode x.owner * 2 ^ 34 + bCode x.hold * 2 ^ 33 + bCode (prioClaim s x) * 2 ^ 32 + coolSum x % 65536 * 65536
    + x.pocket % 65536)
/-- QUOTA (R192). -/
def quotaView (x : CellSt) : Word := match x.quota with | none => 0x7FFFFFFFFFFFFFFF#64 | some q => BitVec.ofInt 64 q
def ringcfg (d : DieSt) : Word := word (d.total * 2 ^ 32 + d.cap * 65536 + d.retain)
def railsel (x : CellSt) : Word :=
  match x.railTo with
  | none => word (bCode x.high)
  | some h => word (2 + bCode h)

/-- A transaction barrier in the view of R363. -/
def tbView0 (b : Barrier) : Word :=
  word ((b.pend % (2 ^ 32 : Nat)).toNat * 2 ^ 32 + bCode b.valid * 2 ^ 31 + bCode b.phase * 2 ^ 30 + bCode b.err * 2 ^ 29
    + bCode b.lerr * 2 ^ 28 + b.expect % 128 * 2 ^ 8 + b.remain % 128)
def barOf (x : CellSt) (i : Nat) : Barrier := tget {} x.bars i
def tbDword (x : CellSt) (i : Nat) : Word := if i % 2 = 0 then tbView0 (barOf x (i / 2)) else (barOf x (i / 2)).arrived
/-- A barrier of a view, as a restore reinstates it (R363, R366). -/
def barOfView (v a : Word) : Barrier := {
  pend := sInt 32 (field v.toNat 32 32), valid := v.getLsbD 31, phase := v.getLsbD 30, err := v.getLsbD 29,
  lerr := v.getLsbD 28, expect := field v.toNat 8 7, remain := field v.toNat 0 7, arrived := a }

/-- A match-table entry in the view of R126. -/
def matchView (m : MatchEnt) : Word :=
  word (2 ^ 63 + m.tag % 4096 * 2 ^ 40 + m.tb % 16 * 2 ^ 36 + bCode m.win * 2 ^ 35 + m.offset % 2 ^ 24)
def matchDword (x : CellSt) (i : Nat) : Word := match tfind x.matchTab i with | some m => matchView m | none => 0#64
def matchOfView (v : Word) : MatchEnt :=
  { tag := field v.toNat 40 12, tb := field v.toNat 36 4, win := v.getLsbD 35, offset := field v.toNat 0 24 }

/-- POSn (R440). -/
def posView (t : Strand) : Word := word (t.gen.toNat * 65536 + parkCode t.park * 256 + stCode t.st)
/-- SQSTAT (R444). -/
def sqstat (x : CellSt) : Word := word (bCode x.note * 128 + x.sq.length % 64)
def sqrec (x : CellSt) (i : Nat) : Word :=
  match x.sq with
  | [] => 0#64
  | r :: _ => word ((recordBytes r 0).getD i 0)

/-! ### Records of the save frame (R180, R181) -/

/-- The state and the park reason that a record of a position holds: never SAVED (R181). -/
def recState (t : Strand) : StName := if t.st = .saved then t.heldSt else t.st
/-- Doubleword i of an X320 image (R283). -/
def xDword (v : X320) (fl : BitVec 3) (i : Nat) : Nat := if i < 5 then field v.toNat (64 * i) 64 else fl.toNat
/-- Doubleword i of a strand record. -/
def strandDw (s : State) (pos i : Nat) : Nat :=
  let t := s.str pos
  if i = 0 then t.pc.toNat
  else if i = 1 then parkCode t.park * 256 + stCode (recState t)
  else if i = 2 then digits 1 (fun n => bCode (rdP s pos n)) 8
  else if i = 3 then 0
  else if i < 36 then (rdG s pos (i - 4)).toNat
  else if i < 100 then field (rdW s pos ((i - 36) / 4)).toNat (64 * ((i - 36) % 4)) 64
  else if i < 112 then xDword (rdE s pos ((i - 100) / 6)) (rdEf s pos ((i - 100) / 6)) ((i - 100) % 6)
  else if i < 120 then
    (match tfind s.alley (4 * pos + (i - 112) / 2) with
      | none => 0
      | some v => if i % 2 = 0 then v.toNat else 1)
  else 0
/-- Whether a position is the leader of a gang that holds it. -/
def isLeader (s : State) (pos : Nat) : Bool := decide ((s.str pos).st ≠ .free) && decide (laneIx (s.str pos) = 0)
/-- Doubleword i of a gang record; zero where no leader stands. -/
def gangDw (s : State) (lead i : Nat) : Nat :=
  if !isLeader s lead then 0
  else if i < 16 then (rdK s lead i).toNat
  else if i < 24 then (setView (rdJ s lead (i - 16))).toNat
  else if i = 24 then (s.gang lead).splitpol.toNat
  else if i = 25 then (pathrot s lead).toNat
  else if i = 26 then (lstate s lead).toNat
  else if i = 27 then (pathmap s lead).toNat
  else 0
def pipeDw (s : State) (c i : Nat) : Nat := (rdH s (16 * c + i / 32) (i % 32)).toNat

/-- The gathering unit: eight partial-gang entries of eight doublewords, then the spawn records (R180). -/
def partialDw (p : Partial) (waiting i : Nat) : Nat :=
  if i = 0 then p.desc
  else if i = 1 then p.count
  else if i = 2 then p.first
  else if i = 3 then (match p.released with | none => 0 | some _ => 1 + waiting % 256 * 256)
  else 0
def spawnDw (r : SpawnRec) (i : Nat) : Nat :=
  if i < 4 then field r.payload.toNat (64 * i) 64 else if i = 4 then r.desc else 0
/-- Place of a released gang among the waiting ones, first 0 (R59). -/
def waitPlace (l : List Partial) (p : Partial) : Nat :=
  (l.filter (fun q => match q.released, p.released with | some a, some b => decide (a < b) | _, _ => false)).length
def gatherDw (x : CellSt) (i : Nat) : Nat :=
  if i < 64 then
    (match x.partials[i / 8]? with | none => 0 | some p => partialDw p (waitPlace x.partials p) (i % 8))
  else if i < 64 + 2048 then
    (match x.spawns[(i - 64) / 8]? with | none => 0 | some r => spawnDw r (i % 8))
  else 0
def accDw (s : State) (c i : Nat) : Nat := rd s (locAcc c (8 * i)) 8
/-- Presence bits of 64 sectors (R180). -/
def presenceDw (s : State) (c i : Nat) : Nat :=
  digits 1 (fun n => if (tfind s.absent ((locScr c 0) / 32 + 64 * i + n)).isSome then 0 else 1) 64
/-- Words that a pre-emption writes: CMCFG, LCLREQ, RMTREQ, QUOTA, SUBVA and SUBMAP (R173). -/
def cellDw (x : CellSt) (i : Nat) : Nat :=
  if i = 0 then (cmcfg x).toNat
  else if i = 1 then x.lclreq.toNat
  else if i = 2 then x.rmtreq.toNat
  else if i = 3 then (quotaView x).toNat
  else if i < 8 then (tget 0#64 x.subva (i - 4)).toNat
  else (tget 0#64 x.submap (i - 8)).toNat

/-! ### The transfer table as RBDATA shows it (R441) -/

def formCode : XferForm → Nat
  | .cpy => 0
  | .tld => 1
  | .tldm => 2
/-- Bytes of some deliveries on their way, the copies of one piece of source bytes counted once. -/
def flyingBytes (l : List (Word × Nat)) : Nat :=
  match l with
  | [] => 0
  | x :: r => (if r.contains x then 0 else x.2) + flyingBytes r
def xferWord (s : State) (id : Nat) (x : Xfer) : Nat :=
  let left := x.rows * x.rlen - x.read +
    flyingBytes ((s.delivs.filter (fun e => decide (e.2.xfer = some id))).map (fun e => (e.2.src, e.2.bytes.length)))
  2 ^ 63 + formCode x.form * 2 ^ 60 + posInCell x.req.pos * 2 ^ 54 + x.tb % 16 * 2 ^ 48 + left % 2 ^ 17
/-- Of a walk, the bytes on their way: how many it will deliver is not known before its end. -/
def walkWord (s : State) (id : Nat) (w : Walk) : Nat :=
  let left := ((s.delivs.filter (fun e => decide (e.2.walk = some id))).map (fun e => e.2.bytes.length)).foldl (· + ·) 0
  2 ^ 63 + 3 * 2 ^ 60 + posInCell w.req.pos * 2 ^ 54 + w.tb % 16 * 2 ^ 48 + left % 2 ^ 17
/-- Entries of a cell, transfers first, each kind in order of issue.
(DESIGN CHOICE: notes/assumptions/27.md) -/
def tableWords (s : State) (c : Nat) : List Nat :=
  (s.xfers.filter (fun e => decide (e.2.req.cell = c))).map (fun e => xferWord s e.1 e.2) ++
    (s.chases.filter (fun e => decide (e.2.req.cell = c) && !e.2.ended)).map (fun e => walkWord s e.1 e.2)

/-- RBDATA (R441) for a selector, in a cell. -/
def rbdata (s : State) (c : Nat) (sel : Word) : Word :=
  let f := field sel.toNat 60 4
  let pos := 64 * c + field sel.toNat 54 6
  let ix := field sel.toNat 0 21
  let x := s.cell c
  word (
    if f = 0 then (if ix < 128 ∧ (s.str pos).st ≠ .free then strandDw s pos ix else 0)
    else if f = 1 then (if ix < 32 then gangDw s pos ix else 0)
    else if f = 2 then (if ix < 32 then (rdH s (16 * c + pos % 16) ix).toNat else 0)
    else if f = 3 then (if ix < 4096 then gatherDw x ix else 0)
    else if f = 4 then (if ix < 8192 then accDw s c ix else 0)
    else if f = 5 then (if ix < x.ter * 131072 then rd s (locTer c (8 * ix)) 8 else 0)
    else if f = 6 then (if ix < 512 then presenceDw s c ix else 0)
    else if f = 7 then (if ix < 256 then (tableWords s c).getD ix 0 else 0)
    else 0)

/-! ### The device-register region (R391 to R395) -/

def fabcfg (p : Pkg) : Nat :=
  bCode p.fabEn * 2 ^ 63 + p.pkgnum * 2 ^ 32 + digits 1 (fun i => bCode (portUp (tget {} p.ports i))) 32
def bootstat (p : Pkg) : Nat := Config.fwver.toNat * 2 ^ 32 + p.stage % 16

/-- A byte of the public identity key, zero once the key is erased (R405, R510). -/
def keyByte (p : Pkg) (k : BitVec 528) (i : Nat) : Nat := if p.erased ∨ 66 ≤ i then 0 else field k.toNat (8 * (65 - i)) 8

/-- Cell registers of the region. -/
def cellReg (x : CellSt) (r : Nat) : Nat :=
  if r = 0 then x.slotmask.toNat
  else if r = 8 then (railsel x).toNat
  else if r = 16 then x.ovfcfg.toNat
  else if r = 24 then bCode x.fenced
  else 0

/-- The doubleword at an offset that is a multiple of 8; what the table of R391 does not name reads zero. While a stage of
the boot has failed only BOOTSTAT is served, and before STAGE 6 nothing is (R402, R511). -/
def devDword (s : State) (off : Nat) : Nat :=
  let p := s.pkg
  if p.stage < 6 then (if p.bootErr ≠ 0 ∧ p.bootErr ≠ 0x10 ∧ off = 8 then bootstat p else 0)
  else if off = 0 then fabcfg p
  else if off = 0x8 then bootstat p
  else if off = 0x18 then p.asidtab.toNat
  else if off = 0x20 then p.migcmd.toNat % 2 ^ 62 + bCode p.migBusy.isSome * 2 ^ 62
  else if 0x40 ≤ off ∧ off < 0x80 then tget 0 p.lqcfg ((off - 0x40) / 8)
  else if off = 0x80 then bCode p.attBusy * 2 ^ 62 + p.attBuf.toNat
  else if 0xC0 ≤ off ∧ off < 0x100 then field p.nonce.toNat (8 * (off - 0xC0)) 64
  else if 0x100 ≤ off ∧ off < 0x148 then digits 8 (fun i => keyByte p Config.idKeyX (off - 0x100 + i)) 8
  else if 0x148 ≤ off ∧ off < 0x190 then digits 8 (fun i => keyByte p Config.idKeyY (off - 0x148 + i)) 8
  else if 0x10000 ≤ off ∧ off < 0x14000 ∧ off % 0x1000 = 0 then (ringcfg (s.die ((off - 0x10000) / 0x1000))).toNat
  else if 0x20000 ≤ off ∧ off < 0x28000 then (tget 0#64 p.lwbind ((off - 0x20000) / 8)).toNat
  else if 0x100000 ≤ off ∧ off < 0x140000 then
    (if (off - 0x100000) % 0x10000 / 0x100 < 160 then
      cellReg (s.cell (160 * ((off - 0x100000) / 0x10000) + (off - 0x100000) % 0x10000 / 0x100)) (off % 0x100)
    else 0)
  else if 0x400000 ≤ off ∧ off < 0x800000 then (tget 0#64 p.dcap ((off - 0x400000) / 8)).toNat
  else 0

/-- Whether a configuration request completes with Request Retry Status (R402), which a failed stage ends (R511). -/
def configRetry (p : Pkg) : Bool := decide (p.stage < 6) && decide (p.bootErr = 0 ∨ p.bootErr = 0x10)

/-! ### The mailbox registers (R495, R496, R504) -/

/-- Where they stand: at offsets of the model's own, above every offset of the region. From there on, FABTIME, RAMPCFG,
THERMSTAT, ALARMCFG, ALARMSTAT and BOOTERR follow each other, and PORTSTAT0 to PORTSTAT31 from 0x100 on.
(DESIGN CHOICE: notes/assumptions/13.md) -/
def mailbox : Nat := 2 ^ 60
/-- PORTSTAT of a port (R496). -/
def portstat (p : Port) : Nat := p.elanes.toNat * 2 ^ 32 + Nat.min p.replays (2 ^ 24 - 1) * 256 + p.state % 8
/-- A mailbox register as it is read: what no field names reads zero. -/
def mailDword (p : Pkg) (r : Nat) : Nat :=
  if r = 0 then 4096 * 2 ^ 32 + p.e2etime % 2 ^ 32
  else if r = 8 then p.rampWindow % 65536
  else if r = 16 then p.warn % 256 * 256 + p.tmax % 256
  else if r = 24 then p.alarmErase % 8
  else if r = 32 then bCode p.erased * 256 + p.alarmLevel % 4
  else if r = 40 then p.bootErr % 256
  else if 0x100 ≤ r ∧ r < 0x200 ∧ r % 8 = 0 then portstat (tget {} p.ports ((r - 0x100) / 8))
  else 0
/-- Who serves it (R504): the root of trust ALARMSTAT and BOOTERR from STAGE 1 on, the management controller the others once
STAGE 4 has started it and until a thermal trip sheds its rails (R507).
(DESIGN CHOICE: notes/assumptions/13.md) -/
def mailServed (p : Pkg) (r : Nat) : Bool := decide (r = 32 ∨ r = 40) || (decide (4 < p.stage) && !p.dead)
/-- What the mailbox answers to a read of a register, where it answers. -/
def mailRead (p : Pkg) (r : Nat) : Option Nat := if mailServed p r then some (mailDword p r) else none

/-- A read of n bytes of the region, n naturally aligned.
(DEDUCED: notes/assumptions/14.md) -/
def devRead (s : State) (off n : Nat) : Nat := field (devDword s (off / 8 * 8)) (8 * (off % 8)) (8 * n)
/-- The doubleword that a write of n bytes makes of the one that stands there. -/
def devMerge (s : State) (off n v : Nat) : Nat := setElem (devDword s (off / 8 * 8)) (8 * n) (off % 8 / n) v

end Sys2Proof.Machine
end

