-- ==== Sys2Proof/Machine/Access.lean ====
section
/-!
DEFINITION. Memory accesses of an instruction: what its lanes ask for, the checks of stage 4 of R450 in the order of R462 and
R319, the acts at the homes (spec/06_consistency_model.md R147, R158), and how read values land
(spec/02_execution_model.md R46, spec/19_memory_and_delivery_faults.md R468).
-/
namespace Sys2Proof.Machine

open Sys2Proof

/-- One access that a lane asks for: a virtual address, or with `scr` an offset into the issuing cell's scratchpad (R317),
its bytes, its alignment (R318) and its kind. -/
structure Ask where
  va : Word
  n : Nat
  al : Nat
  kind : Acc
  scr : Bool := false
deriving DecidableEq, Repr

/-- Steps 1 to 6 of R462 for an access of a lane of the issuing cell. -/
def resolve (s : State) (p : Nat) (a : Ask) : AccRes :=
  if a.scr then checkScr s (cellOf p) a.kind a.va a.n a.al
  else checkAcc s (cellOf p) (s.str p).walkFail a.kind s.cur.sup a.va a.n a.al
def targetOf (s : State) (p : Nat) (a : Ask) : Target :=
  match resolve s p a with
  | .ok t => t
  | _ => .dev 0x2000000

/-- The block that a scratchpad target belongs to, plus 1 (R465). -/
def blockTag (s : State) (t : Target) : Nat :=
  match t with
  | .scr cell _ => (match (s.cell cell).block with | some b => b + 1 | none => 0)
  | _ => 0

def failOf : AccRes → Option TrapInfo
  | .fail i => some i
  | _ => none
def isWalk : AccRes → Bool
  | .walk => true
  | _ => false

/-- Scratchpad sectors of a target whose presence bit is clear (R113). -/
def absentSectors (s : State) (t : Target) (n : Nat) : List Nat :=
  match t with
  | .scr c off =>
    (List.range ((off + n - 1) / 32 + 1 - off / 32)).filterMap fun i =>
      let sec := locScr c 0 / 32 + off / 32 + i
      if (tfind s.absent sec).isSome then some sec else none
  | _ => []
/-- Sectors for which a lane parks PRESENCE: those of its own cell, and those of any cell for `wait` and for what is read at
issue (R113, R339). -/
def parksFor (s : State) (p : Nat) (a : Ask) : List Nat :=
  let t := targetOf s p a
  match t with
  | .scr c _ => if c = cellOf p ∨ a.kind = .wait ∨ a.kind = .desc then absentSectors s t a.n else []
  | _ => []

/-- Outstanding requests of a pipe (R319, R320): those of a load or an atomic until it has landed, each store until it is performed. -/
def pipeLoad (s : State) (gp : Nat) : Nat :=
  ((s.pend.filter (fun e => decide (gpipe e.2.pos = gp))).map (fun e =>
      if e.2.isRead || e.2.atomic then e.2.parts.length else e.2.parts.countP (fun p => p.val.isNone))).foldl (· + ·) 0
    + (s.stores.filter (fun e => decide (gpipe e.2.pos = gp) && storeLeft s e.2)).length
def isHost : Target → Bool
  | .home _ d => decide (d = 4)
  | _ => false

/-- Steps 1 to 6 of R462 for the accesses of the acting lanes: translation, window and rights.
(DEDUCED: notes/assumptions/19.md) -/
def transStage (s : State) (ls : List Nat) (asks : Nat → List Ask) : Stage :=
  let walks := ls.flatMap fun p => ((asks p).filter (fun a => isWalk (resolve s p a))).map (fun a => (p, a.va.toNat))
  if !walks.isEmpty then .park .translate [] walks
  else
    let bad := ls.filterMap fun p => ((asks p).findSome? (fun a => failOf (resolve s p a))).map (fun i => (p, i))
    if bad.isEmpty then .ok else .fault bad

/-- Presence and the host link (R319, R113, R502). -/
def readyStage (s : State) (ls : List Nat) (asks : Nat → List Ask) : Stage :=
  let pres := (ls.map fun p => (p, (asks p).flatMap (parksFor s p))).filter (fun q => !q.2.isEmpty)
  if !pres.isEmpty then .park .presence (pres.map fun q => (q.1, WaitFor.presence q.2)) []
  else
    let down := ls.filter fun p => !s.pkg.hostUp && (asks p).any (fun a => isHost (targetOf s p a))
    if down.isEmpty then .ok else .park .data (down.map fun p => (p, WaitFor.hostLink)) []

/-- Room for the requests of the acting lanes in their pipes (R319, stage 6 of R450). -/
def roomStage (s : State) (ls : List Nat) (asks : Nat → List Ask) : Stage :=
  let full := ls.filter fun p => decide (2048 < pipeLoad s (gpipe p) + (asks p).length ∧ asks p ≠ [])
  if full.isEmpty then .ok else .park .data (full.map fun p => (p, WaitFor.room (asks p).length)) []

/-- The checks of stage 4: translation, window, rights and presence (R462, R319). `asks` gives the accesses of each acting lane. -/
def accessStage (s : State) (ls : List Nat) (asks : Nat → List Ask) : Stage :=
  (transStage s ls asks).andThen (readyStage s ls asks)

/-- Count the sectors of an instruction once (R121, R122). -/
def countAsks (src t : State) (ls : List Nat) (asks : Nat → List Ask) : State :=
  if ls.isEmpty then t
  else countReq t (curCell src) (ls.flatMap fun p => (asks p).flatMap fun a => sectorsOf (targetOf src p a) a.n)

/-- The checks of stage 5 on what each acting lane reads at issue (R450, R471): `check` judges the value. -/
def valueStage (s : State) (ls : List Nat) (ask : Nat → Ask) (check : Nat → Nat → Option TrapInfo) : Stage :=
  let look := fun p => peek s (curCell s) p (targetOf s p (ask p)) (ask p).n
  let fars := (ls.map fun p => (p, match look p with | .far l => l | _ => [])).filter (fun q => !q.2.isEmpty)
  if !fars.isEmpty then
    .park .data (fars.map fun q => (q.1, WaitFor.fills q.2)) [] (fars.flatMap fun q => q.2.map (fun k => (q.1, k)))
  else faultsOf (ls.map fun p => (p, match look p with
    | .bad code skip => some {
        cause := 10, code := code, sval := word (((ask p).va.toNat + skip) / 32 * 32), access := 8 }
    | .val v => check p v
    | .far _ => none))
/-- The value that stage 5 has judged. -/
def valueRead (s : State) (p : Nat) (a : Ask) : Nat :=
  match peek s (curCell s) p (targetOf s p a) a.n with
  | .val v => v
  | _ => 0

/-! ### Read-modify-write operations (R331 to R336) -/

def amoBytes : AmoOp → Bool → Nat
  | .pmin, _ => 8
  | .cas2, _ => 16
  | .fF32, _ => 4
  | .fF64, _ => 8
  | .xF32, _ => 40
  | .xF64, _ => 40
  | _, w64 => if w64 then 8 else 4

/-- The key of `amo.pmin`: signed high half, then unsigned low half (R331). -/
def pminLe (x y : Nat) : Bool :=
  let hx := sInt 32 (x / 2 ^ 32)
  let hy := sInt 32 (y / 2 ^ 32)
  decide (hx < hy ∨ (hx = hy ∧ x % 2 ^ 32 ≤ y % 2 ^ 32))

/-- The value that a read-modify-write writes, none where it writes nothing (R331 to R336). -/
def amoNew (op : AmoOp) (w64 : Bool) (old a b : Nat) : Option Nat :=
  let w := 8 * amoBytes op w64
  match op with
  | .add => some ((old + a) % 2 ^ w)
  | .and => some (Nat.land old a)
  | .or => some (Nat.lor old a)
  | .xor => some (Nat.xor old a)
  | .minI => some (if sInt w old ≤ sInt w a then old else a)
  | .minN => some (if old ≤ a then old else a)
  | .maxI => some (if sInt w old ≤ sInt w a then a else old)
  | .maxN => some (if old ≤ a then a else old)
  | .swap => some a
  | .pmin => some (if pminLe old a then old else a)
  | .cas => if old = a then some b else none
  | .cas2 => if old = a then some b else none
  | .fF32 => some (roundF fp32 .rn 0 (addX false (decodeF fp32 old) (decodeF fp32 a)))
  | .fF64 => some (roundF fp64 .rn 0 (addX false (decodeF fp64 old) (decodeF fp64 a)))
  | .xF32 => some ((old + a) % 2 ^ 320)
  | .xF64 => some ((old + a) % 2 ^ 320)

/-! ### Acts (R147, R158, R159) -/

/-- Who a piece of work acts for. -/
def requesterOf (s : State) (pos : Nat) : Requester := {
  pos := pos, cell := cellOf pos, asid := asidIn s (cellOf pos), key := keyIn s (cellOf pos),
  grid := (blockIn s (cellOf pos)).grid, lpos := (s.str pos).lpos, ppos := ppos s pos, ba := s.cur.ba,
  blk := match (s.cell (cellOf pos)).block with | some b => b + 1 | none => 0 }

/-- A DATAERR record about the work of a requester (R469). -/
def errRec (r : Requester) (code access : Nat) (addr : Word) (n : Nat) : Record := {
  kind := 6, cause := 10, asid := r.asid, pkey := r.key, place := r.ppos, lpos := r.lpos, addr := r.ba, sval := addr,
  sinfo := word (code * 256 + access), arg := n, grid := r.grid }
/-- A record to the supervisor queue of a cell while it holds a block of the record's grid, and to the log otherwise
(R469). -/
def postFor (s : State) (c : Nat) (r : Record) : State :=
  if (s.cell c).block.isSome && decide ((blockIn s c).grid = r.grid) then postSq s c r else postLog s r

/-- A REJECT record about the work of a requester (R475). -/
def rejectRec (r : Requester) (reason tb off : Nat) (src : Word) (n : Nat) : Record := {
  kind := 5, asid := r.asid, pkey := r.key, place := r.ppos, lpos := r.lpos, addr := word off, sval := src,
  sinfo := word (tb * 256 + reason), arg := n, grid := r.grid }

/-- What became of an act: a value read, or a failed access with its location code; an access that met another block in its cell
(R465); or a request that has set out to another package (R407). -/
inductive Done where
  | val (v : Nat)
  | bad (code : Nat)
  | moved
  | sent
deriving DecidableEq, Repr

/-- The first location code among the sectors of [loc, loc + n) that are uncorrectable (R471). -/
def badIn (s : State) (loc n : Nat) : Option Nat :=
  (List.range ((loc + n - 1) / 32 + 1 - loc / 32)).findSome? (fun i => badAt s (32 * (loc / 32 + i)))

/-- Drop a cell's L1 copies of the sectors of [loc, loc + n), their dirty bytes written first (R158). -/
def flushRange (s : State) (c loc n : Nat) : State :=
  (List.range ((loc + n - 1) / 32 + 1 - loc / 32)).foldl (fun t i => l1Flush t c (loc / 32 + i)) s

/-- An act at the home of a location, as one act. -/
def actAt (s : State) (r : Requester) (va : Word) (loc : Nat) (op : HomeOp) : State × Done :=
  match op with
  | .read n => match badIn s loc n with | some c => (s, .bad c) | none => (s, .val (rd s loc n))
  | .write n v =>
    (match badAt s loc with
      | some c =>
        if decide (n = 32) && !onBadStack s loc then ((wrHome s loc n v).setPoison (tdel s.poison (loc / 32)), .val 0)
        else (postFor s r.cell (errRec r c 3 va n), .val 0)
      | none => (wrHome s loc n v, .val 0))
  | .amo o w64 a b =>
    let n := amoBytes o w64
    (match badIn s loc n with
      | some c => (s, .bad c)
      | none =>
        let old := rd s loc n
        (match amoNew o w64 old a b with
          | some v => (wrHome s loc n v, .val old)
          | none => (s, .val old)))

/-- Bytes of an act at its target. -/
def opBytes : HomeOp → Nat
  | .read n => n
  | .write n _ => n
  | .amo o w64 _ _ => amoBytes o w64

/-- Location of a word of another package, above every location of this one. -/
def farLoc (pkg pa : Nat) : Nat := 2 ^ 60 + pkg * 2 ^ 40 + pa
def locOf (t : Target) : Nat :=
  match t with
  | .home loc _ => loc
  | .scr cell off => locScr cell off
  | .remote pkg pa => farLoc pkg pa
  | .dev off => 2 ^ 62 + off
/-- The block that the cell of a location belongs to, plus 1, where the location lies in a scratchpad (R465). -/
def locBlock (s : State) (loc : Nat) : Nat :=
  if 2 ^ 53 ≤ loc ∧ loc < 2 ^ 54 then blockTag s (.scr ((loc - 2 ^ 53) / 2 ^ 20) 0) else 0
/-- Drop a cell's copy of a sector of another package (R158). -/
def dropFar (s : State) (c pkg pa : Nat) : State := putCell s c { s.cell c with l1 := tdel (s.cell c).l1 (farKey pkg pa) }
/-- Whether two acts have a byte in common. -/
def overlap (p q : Part) : Bool :=
  decide (locOf p.tgt < locOf q.tgt + opBytes q.op ∧ locOf q.tgt < locOf p.tgt + opBytes p.op)

/-- Whether an act comes after one that is still to be performed: an earlier act of its strand, or of a lower lane of its
instruction, on a byte of its own, or any earlier one where both are DEV accesses (R149, R154, R321, R323). `prev` are the acts of the
same lane before it. -/
def comesAfter (s : State) (e : Pend) (id : Nat) (prev : List Part) (p : Part) : Bool :=
  prev.any (fun q => q.val.isNone && (e.dev || overlap p q)) ||
    s.pend.any (fun f => decide (f.1 < id ∧ (f.2.pos = e.pos ∨ e.first ≤ f.1)) &&
      f.2.parts.any (fun q => q.val.isNone && ((e.dev && f.2.dev) || overlap p q)))

/-- A cell's new L1 accesses are held: from the cycle after the t of a switch until its end (R109). -/
def l1Held (s : State) (c : Nat) : Bool := match (s.cell c).bankSw with | some p => decide (p.1 < cyc s c) | none => false

/-- Whether an act waits at its target, or on the way to it: behind an earlier one, for the end of a banking switch (R109), for the
host link (R502), or for the presence bits of another cell (R113). A write to a register of the device is performed after the bundle,
each lane's in its turn (R323). -/
def heldPart (s : State) (issuing : Bool) (e : Pend) (id : Nat) (prev : List Part) (p : Part) : Bool :=
  comesAfter s e id prev p ||
  match p.tgt with
  | .home _ die => (e.relaxed && l1Held s e.req.cell) || (decide (die = 4) && !s.pkg.hostUp)
  | .remote _ _ => e.relaxed && l1Held s e.req.cell
  | .scr cell _ => decide (cell ≠ e.req.cell ∧ absentSectors s p.tgt (opBytes p.op) ≠ [])
  | .dev _ => issuing && (match p.op with | .write _ _ => true | _ => false)

/-- The request of an act to another package (R406, R407): the sector's bytes stand at their places in DATA, and MASK names the
bytes read or written; the operands of a read-modify-write stand from byte 0 up, that of an `amox` as the addend.
(DESIGN CHOICE: notes/assumptions/12.md) -/
def partRequest (s : State) (e : Pend) (id ix pkg pa : Nat) (op : HomeOp) : Sent :=
  let i := pa % 32
  let args := match op with
    | .read n => (1, 0, byteMask i n)
    | .write n v => (3, v % 2 ^ (8 * n) * 2 ^ (8 * i), byteMask i n)
    | .amo .xF32 _ _ b => (5, b % 2 ^ 32, byteMask 0 4)
    | .amo .xF64 _ _ b => (5, b % 2 ^ 64, byteMask 0 8)
    | .amo o w64 a b => (5, a % 2 ^ (8 * amoBytes o w64) + b * 2 ^ (8 * amoBytes o w64), byteMask 0 (Nat.min 32 (2 * amoBytes o w64)))
  newRequest s (fromCell e.req.cell) pkg (planeOf pa) args.1 e.ord e.req.key pa (BitVec.ofNat 256 args.2.1) args.2.2 (.part id ix)

/-- Whether a relaxed read calls for a fill of the L1. -/
def wantsFill (s : State) (e : Pend) (p : Part) : Bool :=
  match p.tgt, p.op with
  | .home loc _, .read n => e.relaxed && !l1Hit s e.req.cell (pipeOf e.pos) loc n
  | _, _ => false

/-- One act of an issued instruction (R118, R158, R321, R323). A relaxed access of a cacheable location may use the L1; any access of
another package drops the L1's copy of its sector. A register of the device is written by an event that comes before any other
(R391, R323). An access to another cell finds the cell's block changed or not (R465).
(DEDUCED: notes/assumptions/71.md) -/
def doPart (s : State) (e : Pend) (id ix : Nat) (p : Part) : State × Done :=
  let c := e.req.cell
  match p.tgt with
  | .home loc die =>
    (match e.relaxed, p.op with
      | true, .read n =>
        let miss := wantsFill s e p
        if miss && crossed s (dieOf c) die c loc then (s, .bad 8)
        else
          (match miss, badIn s loc n with
            | true, some code => (s, .bad code)
            | _, _ => let (t, v) := l1Load s c (pipeOf e.pos) loc n; (t, .val v))
      | true, .write n v => (l1Store s c e.pos loc n v, .val 0)
      | _, op => if crossed s (dieOf c) die c loc then (s, .bad 8) else actAt (flushRange s c loc (opBytes op)) e.req p.va loc op)
  | .scr cell off =>
    if crossed s (dieOf c) (dieOf cell) c (locScr cell off) then (s, .bad 8)
    else if p.blk ≠ 0 ∧ blockTag s p.tgt ≠ p.blk then
      (match p.op with
        | .write n _ => (postFor s c (rejectRec e.req 7 0 off p.va n), .val 0)
        | _ => (s, .moved))
    else actAt s e.req p.va (locScr cell off) p.op
  | .remote pkg pa =>
    (match partRequest s e id ix pkg pa p.op with
      | .out t => (dropFar t c pkg pa, .sent)
      | .fail code => (s, .bad code))
  | .dev off =>
    if crossed s (dieOf c) 4 c (2 ^ 62 + off) then (s, .bad 8)
    else match p.op with
      | .read n => (s, .val (devRead s off n))
      | .write n v =>
        if 0x1000000 ≤ off ∧ off < 0x2000000 then
          (s.setAgenda (Instr.launch (field off 12 12) (off % 4096) n (BitVec.ofNat 512 v) :: s.agenda), .val 0)
        else (s.setAgenda (Instr.registerWrite (off / 8 * 8) (word (devMerge s off n v)) :: s.agenda), .val 0)
      | .amo _ _ _ _ => (s, .val 0)

/-! ### Landing (R46, R206, R468) -/

/-- The k-th byte elements of a w register from the values of its parts. -/
def landVals (sh : Shape) (pos : Nat) (vs : List Nat) : List RegVal :=
  let v := vs.getD 0 0
  match sh with
  | .none => []
  | .g r bits sgn => [gVal pos r (if sgn then sx bits v else zx bits v)]
  | .two r => [gVal pos r (word v), gVal pos { r with num := r.num + 1 } (word (v / 2 ^ 64))]
  | .w n es => [.w pos n (BitVec.ofNat 256 (fromElems (8 * es) vs))]
  | .k lead n => [.k lead n (word v)]
  | .e n => [.e pos n (BitVec.ofNat 320 (fromElems 64 (vs.take 5))) (BitVec.ofNat 3 (vs.getD 5 0))]
  | .status r v => [gVal pos r (word v)]

/-- The registers that a shape writes; a register that reads a constant is never pending (R204). -/
def shapeRegs (sh : Shape) (pos : Nat) : List RegId :=
  (match sh with
    | .none => []
    | .g r _ _ => [gId pos r]
    | .two r => [gId pos r, gId pos { r with num := r.num + 1 }]
    | .w n _ => [.w pos n]
    | .k lead n => [.k lead n]
    | .e n => [.e pos n]
    | .status r _ => [gId pos r]).filter markable

/-- How long the model's schedule lets an act at a target take. -/
def paceOf (s : State) (c : Nat) (t : Target) : Nat :=
  match t with
  | .home _ d => if d = dieOf c then s.pace.load else s.pace.far
  | .scr cell _ => if cell = c then s.pace.fixed else s.pace.load
  | .remote _ _ => s.pace.fabric
  | .dev _ => s.pace.far

/-- One act of a lane, unless it has been performed, has set out or waits; a failed one leaves what its mark says (R468). -/
def onePart (s : State) (issuing : Bool) (e : Pend) (id : Nat) (prev : List Part) (p : Part) : State × Part × Option Mark :=
  if p.val.isSome || p.sent || heldPart s issuing e id prev p then (s, p, none)
  else
    match doPart s e id prev.length p with
    | (t, .val v) => (t, { p with val := some v }, none)
    | (t, .sent) => (t, { p with sent := true }, none)
    | (t, .bad code) => (t, { p with val := some 0 }, some { cause := 10, code := code, addr := p.va, access := e.access })
    | (t, .moved) => (t, { p with val := some 0 }, some { cause := 9, code := 6, addr := p.va, access := e.access })

/-- Perform the acts of one lane in order as far as they can be now; the first failure counts. -/
def doParts (s : State) (issuing : Bool) (e : Pend) (id : Nat) (prev : List Part) : List Part → State × List Part × Option Mark
  | [] => (s, [], none)
  | p :: rest =>
    let x := onePart s issuing e id prev p
    let y := doParts x.1 issuing e id (prev ++ [x.2.1]) rest
    (y.1, x.2.1 :: y.2.1, x.2.2.orElse (fun _ => y.2.2))
/-- Whether some act that has now been performed called for a fill of the L1 (R109). -/
def filledNow (s : State) (e : Pend) (before after : List Part) : Bool :=
  (List.zip before after).any (fun x => x.1.val.isNone && x.2.val.isSome && wantsFill s e x.1)

/-- The bytes of the acts of an entry. -/
def partBytes (ps : List Part) : Nat := ps.foldl (fun n p => n + opBytes p.op) 0
/-- Whether an act only reads. -/
def isReadOp (o : HomeOp) : Bool := match o with | .read _ => true | _ => false
/-- A store whose acts are all performed leaves nothing in flight, but a record if one failed (R469); a prefetch leaves nothing. -/
def storeDone (s : State) (e : Pend) (m : Option Mark) : State :=
  match m with
  | some k =>
    if e.parts.all (fun p => isReadOp p.op) then s
    else postFor s e.req.cell (errRec e.req k.code e.access k.addr (partBytes e.parts))
  | none => s

/-- Start the memory work of one lane: its acts are performed as far as they can be now, and its registers stay pending until
the result lands (R46, R320). A write to a register of the device is performed next, after the bundle. -/
def startWork (s : State) (e : Pend) : State :=
  let id := s.fresh
  let x := doParts (takeFresh s) true e id [] e.parts
  if !e.isRead && !e.atomic && x.2.1.all (fun p => p.val.isSome) then storeDone x.1 e x.2.2
  else
    let t := x.1.setPend (tset x.1.pend id { e with
      parts := x.2.1, mark := x.2.2, fill := filledNow s e e.parts x.2.1
      due := x.1.time + (e.parts.map (fun p => paceOf x.1 e.req.cell p.tgt)).foldl Nat.max 1 })
    if e.dev && x.2.1.any (fun p => p.val.isNone) then t.setAgenda (t.agenda ++ [Instr.scoreboardResultLands id]) else t

/-- Order bits of a flit (R407): scope, and the order code of R213. -/
def ordBits (code : Nat) (sc : Option Scope) : Nat := match sc with | some x => code * 8 + x.rank | none => 0

end Sys2Proof.Machine
end

