-- ==== Sys2Proof/Machine/Lanes.lean ====
section
/-!
DEFINITION. What changes the lanes of a gang: rejoin sets, their orphaning and release, the turn of a diverged gang
(spec/03_divergence_and_rejoin.md, spec/20_progress_failures.md R480), forming, dissolving and freeing gangs
(spec/02_execution_model.md R51 to R63), and the banking of the L1 that follows from them
(spec/04_memory_hierarchy.md R109, R110).
-/
namespace Sys2Proof.Machine

open Sys2Proof

/-- The value of STATE that a lane holds or, while it is FROZEN, will hold again (R61, R434). -/
def liveSt (t : Strand) : StName := if t.st = .frozen then t.heldSt else t.st
/-- Leaders of the gangs that hold positions (R48). -/
def leaders (s : State) : List Nat := tkeys (s.strands.filter (fun e => decide (e.2.st ≠ .free ∧ laneIx e.2 = 0)))
/-- Positions of a cell that are not FREE. -/
def heldIn (s : State) (c : Nat) : List Nat :=
  tkeys ((trange (64 * c) (64 * c + 64) s.strands).filter (fun e => decide (e.2.st ≠ .free)))

/-! ### Banking (R54, R109, R110) -/

/-- Whether a cell holds a gang of two or more lanes. -/
def holdsGang (s : State) (c : Nat) : Bool := (heldIn s c).any (fun p => decide (1 ≤ glogOf (s.str p)))
/-- Whether an L1 fill of a cell is outstanding: a load whose sector has not come, or a sector asked of another package. -/
def fillsOut (s : State) (c : Nat) : Bool :=
  s.pend.any (fun e => e.2.fill && decide (cellOf e.2.pos = c)) ||
    s.pkg.reqs.any (fun e => match e.2.who with | .fill k _ => decide (k = c) | _ => false)
/-- Start the banking switch in an event that has `changed` whether a cell holds a gang of two or more: the given positions wait for
its end (R109, R110). A cell without positions keeps its banking, and a switch in progress goes on. -/
def bankCheck (s : State) (c : Nat) (changed : Bool) (held : List Nat) : State :=
  let x := s.cell c
  if !changed || (heldIn s c).isEmpty || (x.bankSw.isNone && decide (holdsGang s c = x.bank)) then s
  else
    modStrs (putCell s c { x with
        bankSw := some (x.bankSw.getD (cyc s c, if fillsOut s c then .fills else .sweep (cyc s c + 33))) })
      held (fun t => { t with bankHold := true })
/-! ### Sets (R82 to R88) -/

/-- Mask of the lanes of a gang (R82). -/
def sizeMask (s : State) (lead : Nat) : BitVec 16 := BitVec.ofNat 16 (2 ^ 2 ^ glogOf (s.str lead) - 1)
/-- Required and pending lanes (R82). -/
def required (x : JSet) : BitVec 16 := x.member &&& ~~~x.quit
def pendingLanes (x : JSet) : BitVec 16 := required x &&& ~~~x.arrived
/-- GATHERING (R83). -/
def gathering (x : JSet) : Bool := x.valid && decide (x.arrived ≠ 0#16)
/-- L of R247. -/
def actMask (lead : Nat) (ls : List Nat) : BitVec 16 := BitVec.ofNat 16 (laneMask lead ls)

/-- Lanes that will never arrive: RETIRED, HOLLOW or FREE ones (R87). -/
def deadMask (s : State) (lead : Nat) : BitVec 16 :=
  actMask lead ((gangLanes s lead).filter fun p =>
    decide ((s.str p).lmode = .retired ∨ (s.str p).lmode = .hollow ∨ (s.str p).st = .free))

/-- A set is orphaned; its view and its arrivals before the event are kept, the first time in a cycle (R480).
(DEDUCED: notes/assumptions/21.md) -/
def noteOrphan (s : State) (lead j : Nat) (x : JSet) : State :=
  let g := s.gang lead
  if g.orphaning.any (fun o => decide (o.1 = j)) then s
  else putGang s lead { g with orphaning := g.orphaning ++ [(j, setView x, x.arrived)] }

/-- The test of R87 on a set, made at its events; `x` is the set as the orphan view shows it. -/
def testOrphan (s : State) (lead j : Nat) (x : JSet) : State :=
  let y := rdJ s lead j
  if gathering y && decide (pendingLanes y &&& deadMask s lead ≠ 0#16) then noteOrphan s lead j x else s

/-- R84, row `jset`. -/
def setStart (s : State) (lead j : Nat) (l : BitVec 16) : State :=
  let x := rdJ s lead j
  let s1 := if gathering x then noteOrphan s lead j x else s
  wrJ s1 lead j { valid := true, member := l, quit := 0#16, arrived := x.arrived }
/-- R84, row `jadd`. -/
def setAdd (s : State) (lead j : Nat) (l : BitVec 16) : State :=
  let x := rdJ s lead j
  if x.valid then testOrphan (wrJ s lead j { x with member := x.member ||| l, quit := x.quit &&& ~~~l }) lead j x
  else wrJ s lead j { valid := true, member := l, quit := 0#16, arrived := 0#16 }
/-- R84, row `jquit`. -/
def setQuit (s : State) (lead j : Nat) (l : BitVec 16) : State :=
  let x := rdJ s lead j
  if x.valid then testOrphan (wrJ s lead j { x with quit := x.quit ||| (l &&& x.member) }) lead j x else s
/-- R84, row `jwrite`. -/
def setWrite (s : State) (lead j : Nat) (v : Word) : State :=
  let x := rdJ s lead j
  let m := sizeMask s lead
  let y : JSet :=
    if v.getLsbD 63 then
      { valid := true, member := (setOfView v).member &&& m, quit := (setOfView v).quit &&& m, arrived := x.arrived }
    else { valid := false, member := 0#16, quit := 0#16, arrived := 0#16 }
  if gathering x then
    (if x.valid = y.valid ∧ x.member = y.member ∧ x.quit = y.quit then s else wrJ (noteOrphan s lead j x) lead j y)
  else wrJ s lead j y
/-- R84, row `jwait`: the lanes have arrived. -/
def setArrive (s : State) (lead j : Nat) (l : BitVec 16) : State :=
  let x := rdJ s lead j
  let y := { x with arrived := x.arrived ||| l }
  testOrphan (wrJ s lead j y) lead j y
/-- R84, row `stop`, for every set of the gang. -/
def setsStop (s : State) (lead : Nat) (l : BitVec 16) (before : Nat → JSet) : State :=
  (List.range 8).foldl (fun t j =>
    let x := before j
    if gathering x && decide (required x &&& l ≠ 0#16) then noteOrphan t lead j x else testOrphan t lead j x) s

/-! ### New paths (R85, R480) -/

/-- The lanes of a list become one new path for each PC. -/
def newPaths (s : State) (lead : Nat) (ls : List Nat) : State :=
  (groupBy (fun p => (s.str p).pc) ls).foldl (fun t g =>
    modStrs t g.2 (fun u => { clearReason false u with lmode := .inPath (g.2.headD lead - lead) })) s

/-- The lanes of a mask that wait on set j. -/
def waiters (s : State) (lead j : Nat) (m : BitVec 16) : List Nat :=
  (gangLanes s lead).filter (fun p => m.getLsbD (p - lead) && decide ((s.str p).lmode = .waiting j))

/-- A set that was orphaned in this cycle is dealt with (R480): its lanes stand at their `jwait` again. `jwait` is a lone
word, so its bundle address is four below the address at which a lane waits. -/
def orphanOne (s : State) (lead : Nat) (o : Nat × Word × BitVec 16) : State :=
  let x := rdJ s lead o.1
  let ls := waiters s lead o.1 (o.2.2 ||| x.arrived)
  let s1 := wrJ s lead o.1 { x with arrived := 0#16 }
  let s2 := modStrs s1 ls (fun t => { t with pc := t.pc - 4#64 })
  let s3 := newPaths s2 lead ls
  if ls.isEmpty then s3
  else putGang s3 lead { s3.gang lead with orphans := (s3.gang lead).orphans ++ [{ lanes := actMask lead ls, view := o.2.1 }] }
def orphanAll (s : State) (lead : Nat) : State :=
  let g := s.gang lead
  if g.orphaning.isEmpty then s
  else g.orphaning.foldl (fun t o => orphanOne t lead o) (putGang s lead { g with orphaning := [] })

/-- The release of R85 for one set. -/
def releaseOne (s : State) (lead j : Nat) : State :=
  let x := rdJ s lead j
  if gathering x && decide (x.arrived = required x) then
    newPaths (wrJ s lead j { x with arrived := 0#16 }) lead (waiters s lead j x.arrived)
  else s
def releaseAll (s : State) (lead : Nat) : State := (List.range 8).foldl (fun t j => releaseOne t lead j) s

/-! ### The turn (R78 to R80) -/

/-- The next holder after LAST among some path numbers (R79). -/
def nextPath (last : Nat) (ps : List Nat) : Option Nat :=
  let above := ps.filter (fun n => decide (last < n))
  match above with
  | [] => (match ps with | [] => none | n :: r => some (r.foldl Nat.min n))
  | n :: r => some (r.foldl Nat.min n)

/-- The turn is given after `last` (R79). -/
def giveTurn (s : State) (lead last : Nat) : State :=
  let g := s.gang lead
  match nextPath last (pathsOf s lead) with
  | some n => putGang s lead { g with turn := true, cur := n, last := last, qleft := 64 }
  | none => putGang s lead { g with turn := false, cur := 0, last := last, qleft := 0 }
/-- The turn passes from its holder (R79). -/
def passTurn (s : State) (lead : Nat) : State := giveTurn s lead (s.gang lead).cur

/-- The turn choice at the end of a cycle, apart from the end of a quantum (R79); `ended` when the holder has ended. -/
def turnCheck (s : State) (lead : Nat) (ended : Bool) : State :=
  let g := s.gang lead
  if g.turn then (if ended then passTurn s lead else s)
  else if (pathsOf s lead).isEmpty then s
  else giveTurn s lead g.last

/-- What the end of a cycle does to the sets and the turn of a gang: orphans, then releases, then the turn (R480, R86). The
turn-holder has ended if none of its lanes is in a path before the releases; a path that a release forms is a new one, whatever
its number (R79, R85). -/
def settleSets (s : State) (lead : Nat) : State :=
  turnCheck (releaseAll (orphanAll s lead) lead) lead (pathLanes s lead (s.gang lead).cur).isEmpty

/-! ### Gangs form, dissolve and end -/

/-- A load or an atomic of a position has not landed (R252). -/
def hasPending (s : State) (p : Nat) : Bool :=
  s.pend.any (fun e => decide (e.2.pos = p) && (e.2.isRead || e.2.atomic))
/-- What a stopped lane still awaits lands and is discarded (R252). -/
def discardLands (s : State) (p : Nat) : State :=
  s.setPend ((s.pend.filter (fun e => decide (e.2.pos ≠ p) || e.2.isRead || e.2.atomic || writesLeft e.2)).map (fun e =>
    if e.2.pos = p then (e.1, { e.2 with regs := [], vals := [], shape := .none, mark := none }) else e))

/-- Positions become FREE; the banking of their cell follows, and the solo strands of the cell wait for it (R63, R110). -/
def freeLanes (s : State) (c : Nat) (ls : List Nat) (lead : Nat) : State :=
  let s1 := dropGang (ls.foldl freePos s) lead
  bankCheck s1 c (decide (holdsGang s c ≠ holdsGang s1 c)) (heldIn s1 c)

/-- A gang whose lanes have all retired becomes FREE once nothing of it is pending; a solo strand is a gang of one (R63). -/
def freeCheck (s : State) (lead : Nat) : State :=
  let ls := gangLanes s lead
  if ls.all (fun p => decide (liveSt (s.str p) = .retired)) && !ls.any (hasPending s) && !collapsed (s.gang lead) then
    freeLanes s (cellOf lead) ls lead
  else s

/-- A lane stops (R252, R63). -/
def stopLane (s : State) (p : Nat) : State :=
  let s1 := discardLands (orphanAt s p) p
  let busy := hasPending s1 p
  modStr s1 p (fun t => { t with
    st := .retired, park := if busy then .data else .none, wait := .nothing, lmode := .retired, mark := none })

/-- After a landing a stopped lane that awaits nothing more is RETIRED without a reason (R63). -/
def retireCheck (s : State) (p : Nat) : State :=
  let t := s.str p
  if t.lmode = .retired ∧ t.park = .data ∧ !hasPending s p then
    freeCheck (modStr s p (fun u => { u with park := .none })) (leaderOf s p)
  else s

/-- The group of positions that a `fuse` of size 2^glog binds (R51). -/
def fuseGroup (pos glog : Nat) : List Nat :=
  lanesFrom (pos / 16 * 16 + pos % 16 / 2 ^ glog * 2 ^ glog) (2 ^ glog)

/-- Results for k registers of lanes that become followers have no register to land in (R51).
(DEDUCED: notes/assumptions/35.md) -/
def dropK (s : State) (ps : List Nat) : State :=
  s.setPend (s.pend.map fun e =>
    if ps.contains e.2.pos then
      (e.1, { e.2 with
        regs := e.2.regs.filter (fun r => match r with | .k _ _ => false | _ => true)
        shape := match e.2.shape with | .k _ _ => .none | x => x })
    else e)

/-- The gang of a `fuse` forms (R51, R81). Its LAST is 0.
(DESIGN CHOICE: notes/assumptions/34.md) -/
def formGang (s : State) (lead glog : Nat) : State :=
  let ls := lanesFrom lead (2 ^ glog)
  let pol := (s.gang lead).splitpol
  let pc := (s.str lead).pc
  let s1 := ls.foldl (fun t p => if p = lead then t else dropGang t p) (dropK s (ls.filter (· ≠ lead)))
  let s2 := ls.foldl (fun t p => modStr t p (fun u => { u with
    lpos := withLane u.lpos (p - lead) glog, lmode := .inPath 0, st := .ready, park := .none, wait := .nothing, pc := pc,
    fuseG := 0 })) s1
  bankCheck (putGang s2 lead { splitpol := pol, turn := true, cur := 0, last := 0, qleft := 64 }) (cellOf lead)
    (!holdsGang s (cellOf lead)) ls

/-- A lane becomes a solo strand (R52, R81).
(DESIGN CHOICE: notes/assumptions/34.md) -/
def soloLane (s : State) (pol : Word) (orphan : List Orphan) (p : Nat) : State :=
  let s1 := putGang (modStr s p (fun u => { u with lpos := withLane u.lpos 0 0 })) p
    { splitpol := pol, turn := true, cur := 0, last := 0, qleft := 64, orphans := orphan }
  if (s.str p).lmode = .retired ∨ (s.str p).lmode = .hollow then s1
  else modStr s1 p (fun u => { u with lmode := .inPath 0 })

/-- A `split` issues: the gang's sets become INVALID, those that lanes wait on orphaned, and the gang dissolves at the end of the
cycle (R52, R84, R480). -/
def startSplit (s : State) (lead : Nat) : State :=
  let t := (List.range 8).foldl (fun u j =>
    let x := rdJ s lead j
    wrJ (if gathering x then noteOrphan u lead j x else u) lead j { valid := false, member := 0#16, quit := 0#16, arrived := 0#16 }) s
  putGang t lead { t.gang lead with splitting := true }

/-- Lanes that waited for the payment of their path's bundle wait for nothing: as solo strands each issues its bundle again, at the
price of its own.
(DESIGN CHOICE: notes/assumptions/34.md) -/
def dropToken (ls : List Nat) (s : State) : State :=
  match ls with
  | [] => s
  | p :: _ =>
    let c := cellOf p
    modStrs (putCell s c { s.cell c with reqs := (s.cell c).reqs.filter (fun r => !ls.contains r.pos) }) ls
      (fun t => if t.wait = .token then { t with wait := .nothing } else t)

/-- The gang dissolves (R52, R480, R481). -/
def splitGang (s : State) (lead : Nat) : State :=
  let ls := gangLanes s lead
  let due := fun p => ((s.gang lead).orphans.filter (fun o => o.lanes.getLsbD (p - lead))).map (fun o => { o with lanes := 1#16 })
  let pol := (s.gang lead).splitpol
  let ks := (List.range 16).map (rdK s lead)
  let view := fun p => match (s.str p).lmode with
    | .waiting j => some (setView (rdJ s lead j))
    | _ => none
  let s1 := dropToken ls (ls.foldl dropGang s)
  let s2 := ls.foldl (fun t p =>
    let u := (List.range 16).foldl (fun v n => wrK v p n (ks.getD n 0#64)) t
    match view p with
    | some w => modStr (soloLane u pol (due p ++ [{ lanes := 1#16, view := w }]) p) p
        (fun x => { clearReason false x with pc := x.pc - 4#64 })
    | none => soloLane u pol (due p) p) s1
  let s3 := ls.foldl (fun t p => freeCheck t p) s2
  bankCheck s3 (cellOf lead) (decide (holdsGang s (cellOf lead) ≠ holdsGang s3 (cellOf lead)))
    (ls.filter (fun p => decide ((s3.str p).st ≠ .free)))

end Sys2Proof.Machine
end

