-- ==== Sys2Proof/Machine/Spawning.lean ====
section
/-!
DEFINITION. The gathering unit of a cell (spec/02_execution_model.md R56 to R59, spec/09_isa_integer_and_control.md R254,
R255) and launch records: their checks and the launch queues (spec/14_host_fabric_and_boot.md R396 to R399,
spec/07_scheduling_and_ring_road.md R170).
-/
namespace Sys2Proof.Machine

open Sys2Proof

/-! ### The gathering unit -/

/-- Whether an entry descriptor, as a 16-byte number, is well formed (R56). -/
def descOk (v : Nat) : Bool := decide (field v 57 7 = 0 ∧ v % 4 = 0 ∧ field v 67 29 = 0 ∧ field v 64 3 ≤ 4)
def descEntry (v : Nat) : Word := word (v % 2 ^ 64)
def descGlog (v : Nat) : Nat := field v 64 3
def descTimeout (v : Nat) : Nat := field v 96 32

/-- The partial gang that still takes records under an address (R57, R59). -/
def forming (p : Partial) (d : Nat) : Bool := decide (p.desc = d) && p.released.isNone
/-- Whether the unit can accept records under these addresses (R254).
(DESIGN CHOICE: notes/assumptions/36.md) -/
def canGather (x : CellSt) (n : Nat) (descs : List Nat) : Bool :=
  decide (x.spawns.length + n ≤ 256 ∧
    (dedup descs).countP (fun d => !x.partials.any (fun p => forming p d)) + x.partials.length ≤ Nat.max 8 x.partials.length)

/-- Place in release order of the next gang that is released (R59). -/
def nextRelease (l : List Partial) : Nat := ((l.map (fun p => match p.released with | some n => n + 1 | none => 0))).foldl Nat.max 0

/-- Release the forming gang under an address, if there is one (R57). -/
def releasePartial (x : CellSt) (d : Nat) : CellSt :=
  { x with partials := x.partials.map fun p => if forming p d then { p with released := some (nextRelease x.partials) } else p }

/-- One record enters the unit in a cell cycle (R57); `v` is the descriptor. The descriptor as the first record of a partial gang read
it governs the gang.
(DESIGN CHOICE: notes/assumptions/36.md) -/
def gatherOne (now : Nat) (x : CellSt) (r : SpawnRec) (v : Nat) : CellSt :=
  let ps :=
    if x.partials.any (fun p => forming p r.desc) then
      x.partials.map (fun p => if forming p r.desc then { p with count := p.count + 1 } else p)
    else x.partials ++ [{
      desc := r.desc, entry := descEntry v, glog := descGlog v, timeout := descTimeout v, first := now, count := 1,
      released := none }]
  let y := { x with partials := ps, spawns := x.spawns ++ [r] }
  if ps.any (fun p => forming p r.desc && decide (2 ^ p.glog ≤ p.count)) then releasePartial y r.desc else y
/-- One arrival at the unit. -/
def arriveOne (now : Nat) (x : CellSt) : Arrival → CellSt
  | .spawn r v => gatherOne now x r v
  | .spawnf d => releasePartial x d

/-- Arrivals in increasing pipe number, those of one pipe as they were submitted (R57, R254). -/
def insArrival (a : Nat × Arrival) : List (Nat × Arrival) → List (Nat × Arrival)
  | [] => [a]
  | b :: r => if a.1 ≤ b.1 then a :: b :: r else b :: insArrival a r
/-- The unit of a cell with the arrivals of the cycle in it (R57). -/
def gathered (s : State) (c : Nat) : CellSt :=
  let x := s.cell c
  ((x.arrivals.foldr insArrival []).map (·.2)).foldl (arriveOne (cyc s c)) { x with arrivals := [] }
/-- A bundle submits to the unit, by the pipe of a lane (R57). -/
def submit (s : State) (p : Nat) (a : Arrival) : State :=
  putCell s (cellOf p) { s.cell (cellOf p) with arrivals := (s.cell (cellOf p)).arrivals ++ [(pipeOf p, a)] }

/-- The waiting gang that was released first (R59). -/
def firstReleased : List Partial → Option Partial
  | [] => none
  | p :: r =>
    match p.released, firstReleased r with
    | none, o => o
    | some _, none => some p
    | some a, some q => (match q.released with | some b => if a < b then some p else some q | none => some p)

/-- The positions of slot k and pipe group a, for a gang of 2^glog (R48). -/
def groupAt (c k glog a : Nat) : List Nat := lanesFrom (64 * c + 16 * k + a * 2 ^ glog) (2 ^ glog)
/-- The lowest slot index and then the lowest pipe group of the block whose positions are all FREE (R58). -/
def gangPlace (s : State) (c glog : Nat) : Option (List Nat) :=
  (blockIn s c).slots.findSome? fun k =>
    ((List.range (16 / 2 ^ glog)).map (groupAt c k glog)).find? (fun l => l.all (fun p => decide ((s.str p).st = .free)))

/-- The first `n` records under an address, and the rest (R57). -/
def takeRecs (d : Nat) : Nat → List SpawnRec → List SpawnRec × List SpawnRec
  | 0, l => ([], l)
  | _, [] => ([], [])
  | n + 1, r :: rest =>
    if r.desc = d then let q := takeRecs d n rest; (r :: q.1, q.2)
    else let q := takeRecs d (n + 1) rest; (q.1, r :: q.2)

/-- Registers of a position as a new strand finds them: zero (R50). -/
def clearRegs (s0 : State) (pos : Nat) : State :=
  let s := s0.setBadRegs (s0.badRegs.filter (fun r => !r.inPos pos))
  (((((s.setGs (tclear (32 * pos) (32 * pos + 32) s.gs)).setWs (tclear (16 * pos) (16 * pos + 16) s.ws)).setPs
    (tclear (8 * pos) (8 * pos + 8) s.ps)).setEs (tclear (2 * pos) (2 * pos + 2) s.es)).setEflags
    (tclear (2 * pos) (2 * pos + 2) s.eflags)).setAlley (tclear (4 * pos) (4 * pos + 4) s.alley)

/-- A new strand in a position (R43, R50, R58). The position of a hollow lane, where no strand runs, takes the next GEN too.
(DESIGN CHOICE: notes/assumptions/36.md) -/
def newStrand (s : State) (pos : Nat) (pc lpos rank : Word) (m : LMode) (hollow : Bool) : State :=
  putStr (clearRegs s pos) pos {
    st := if hollow then .retired else .ready, pc := pc, gen := (s.str pos).gen + 1#8, lpos := lpos, rank := rank, lmode := m }

/-- Place a released gang on its positions (R58, R81). -/
def placeGathered (s : State) (c : Nat) (p : Partial) (ls : List Nat) : State :=
  let q := takeRecs p.desc p.count (s.cell c).spawns
  let lead := ls.headD 0
  let k := slotOf lead
  let sord := ((blockIn s c).slots.filter (fun j => decide (j < k))).length
  let base := match q.1 with | r :: _ => r.lpos | [] => 0#64
  let s1 := putCell s c { s.cell c with
    spawns := q.2, partials := (s.cell c).partials.filter (fun r => decide (r.released ≠ p.released)) }
  let lp := fun (i : Nat) => withLane (word (field base.toNat 20 44 * 2 ^ 20 + sord * 2 ^ 11)) i p.glog
  let s2 := ls.zipIdx.foldl (fun t x =>
    match q.1[x.2]? with
    | some r =>
      let t1 := newStrand t x.1 p.entry (lp x.2) (BitVec.allOnes 64) (.inPath 0) false
      (List.range 4).foldl (fun u i => wrG u x.1 (i + 1) (word (field r.payload.toNat (64 * i) 64))) t1
    | none => newStrand t x.1 p.entry (lp x.2) (BitVec.allOnes 64) .hollow true) (dropGang s1 lead)
  let s3 := putGang s2 lead { turn := true, cur := 0, last := 0, qleft := 64 }
  bankCheck s3 c (decide (holdsGang s3 c ≠ (s3.cell c).bank)) ls

/-! ### Launch records (R398, R399) -/

/-- Doubleword i of a record. -/
def recDw (r i : Nat) : Nat := field r (64 * i) 64
/-- A grid of a record, with its context (R60, R396). -/
def gridOf (r asid : Nat) (pkey : BitVec 16) (prio : Nat) : Grid := {
  entry := word (recDw r 0), arg := word (recDw r 1), shape := word (recDw r 2), asid := asid, pkey := pkey,
  q := field (recDw r 4) 0 48, doneVa := word (recDw r 5), savebase := field (recDw r 6) 21 31 * 2 ^ 21, prio := prio,
  live := true }
def recPrio (r : Nat) : Nat := field (recDw r 2) 1 3
def recAsid (r : Nat) : Nat := field (recDw r 3) 48 16
def recPkey (r : Nat) : BitVec 16 := BitVec.ofNat 16 (field (recDw r 3) 32 16)

/-- Bytes of one frame of a grid's save region (R179). -/
def frameSize (g : Grid) : Nat := gridW g * gridH g * (2 + gridTer g) * 2 ^ 20
/-- Whether [a, a + n) lies where the device writes save frames (R179). -/
def saveFits (a n : Nat) : Bool := decide (a + n ≤ 0xC000000000 ∨ (2 ^ 50 ≤ a ∧ a + n ≤ 2 ^ 50 + 2 ^ 49))

/-- Cells of the dies that a launch queue may use; of every die while it may use none (R399, R392). -/
def queueDies (s : State) (q : Nat) : List Nat :=
  let m := tget 0 s.pkg.lqcfg q
  (List.range 4).filter (fun d => m = 0 || inMask m d)
def openSlots (s : State) (c : Nat) : Nat := 4 - popc4 (s.cell c).slotmask
where popc4 (m : BitVec 4) : Nat := ((List.range 4).filter (fun i => m.getLsbD i)).length

/-- Whether the ASID-table entry of an ASID is valid (R133). -/
def asidValid (s : State) (asid : Nat) : Bool :=
  match walkRead s 4 0 (s.pkg.asidtab.toNat + 8 * asid) with | .inl e => decide (2 ^ 63 ≤ e) | .inr _ => false

/-- The checks of R398 and R399 on a record that will join queue `prio` under `asid`. -/
def recordOk (s : State) (r asid prio : Nat) : Bool :=
  let g := gridOf r asid 0#16 prio
  decide (recDw r 2 % 2 = 0 ∧ recDw r 3 % 2 ^ 32 = 0 ∧ field (recDw r 4) 48 16 = 0 ∧ field (recDw r 6) 52 12 = 0
    ∧ field (recDw r 6) 0 21 = 0 ∧ recDw r 7 = 0) &&
  canonical g.entry && decide (g.entry.toNat % 4 = 0) &&
  decide (gridGlog g ≤ 4 ∧ gridTer g ≤ 12) &&
  (queueDies s prio).any (fun d => (List.range 160).any (fun c => decide (gridS g ≤ openSlots s (160 * d + c)))) &&
  decide (g.doneVa.toNat % 8 = 0) &&
  saveFits g.savebase (gridBlocks g * frameSize g) &&
  asidValid s asid

/-- A grid joins the tail of the launch queue of its priority (R170). -/
def queueGrid (s : State) (g : Grid) : State :=
  let id := tfresh s.grids
  let s1 := putGrid s id g
  s1.setPkg { s1.pkg with queues := tset s1.pkg.queues g.prio (tget [] s1.pkg.queues g.prio ++ [id]) }

end Sys2Proof.Machine
end

