-- ==== Sys2Proof/Machine/Control.lean ====
section
/-!
DEFINITION. Control transfers (spec/09_isa_integer_and_control.md R244 to R246), the rejoin-set instructions (R247, R248)
and the instructions of gangs and strands (R249 to R256).
-/
namespace Sys2Proof.Machine

open Sys2Proof

/-! ### Control transfers -/

/-- BA + 4 × a displacement of n bits (R212). -/
def branchTo (s : State) (n : Nat) (disp : BitVec n) : Word := s.cur.ba + BitVec.ofInt 64 (4 * disp.toInt)
/-- A form by which the acting lanes go to their targets and the others on (R74). -/
def jumpForm (i : Instr) (tgt : State → Nat → Word) (link : Bool) : Form := {
  instr := i
  act := fun s t ls =>
    let t1 := if link then ls.foldl (fun u p => wrG u p 31 s.cur.nba) t else t
    transfer t1 (fun p => if ls.contains p then tgt s p else s.cur.nba) }
/-- TARGET of R459. -/
def targetStage (a : GReg) (s : State) (ls : List Nat) : Stage :=
  faultsOf (ls.map fun p =>
    let v := rdReg s p a
    (p, if v.toNat % 4 ≠ 0 ∨ !canonical v then some (operandFault 1 v) else none))

/-- R244. -/
def formBr (gd : Guard) (disp : BitVec 20) : Form := jumpForm (.br gd disp) (fun s _ => branchTo s 20 disp) false
def execBr (gd : Guard) (disp : BitVec 20) (s : State) : Host.Outcome State Fault Refusal := run gd (formBr gd disp) s

/-- R244: g31 takes NBA in the acting lanes. -/
def formCall (gd : Guard) (disp : BitVec 20) : Form := jumpForm (.call gd disp) (fun s _ => branchTo s 20 disp) true
def execCall (gd : Guard) (disp : BitVec 20) (s : State) : Host.Outcome State Fault Refusal :=
  run gd (formCall gd disp) s

/-- R245. -/
def formBrx (gd : Guard) (a : GReg) : Form :=
  { jumpForm (.brx gd a) (fun s p => rdReg s p a) false with operand := targetStage a }
def execBrx (gd : Guard) (a : GReg) (s : State) : Host.Outcome State Fault Refusal := run gd (formBrx gd a) s

/-- R245: the target is read before g31 takes NBA. -/
def formCallx (gd : Guard) (a : GReg) : Form :=
  { jumpForm (.callx gd a) (fun s p => rdReg s p a) true with operand := targetStage a }
def execCallx (gd : Guard) (a : GReg) (s : State) : Host.Outcome State Fault Refusal := run gd (formCallx gd a) s

/-- R245. -/
def formRet (gd : Guard) (a : GReg) : Form :=
  { jumpForm (.ret gd a) (fun s p => rdReg s p a) false with operand := targetStage a }
def execRet (gd : Guard) (a : GReg) (s : State) : Host.Outcome State Fault Refusal := run gd (formRet gd a) s

/-- R246. -/
def formDbnz (gd : Guard) (d : GReg) (disp : BitVec 14) : Form :=
  {
    instr := (.dbnz gd d disp)
    act := fun s t ls =>
      transfer (ls.foldl (fun u p => wrReg u p d (rdReg s p d - 1#64)) t) (fun p =>
        if ls.contains p ∧ rdReg s p d - 1#64 ≠ 0#64 then branchTo s 14 disp else s.cur.nba) }
def execDbnz (gd : Guard) (d : GReg) (disp : BitVec 14) (s : State) : Host.Outcome State Fault Refusal :=
  run gd (formDbnz gd d disp) s

/-! ### Rejoin sets -/

/-- A form that acts on a set of the gang with the mask of its acting lanes (R247). -/
def setForm (i : Instr) (f : State → Nat → BitVec 16 → State) : Form := {
  instr := i
  excluded := true
  act := fun s t ls => if ls.isEmpty then t else f t s.cur.leader (actMask s.cur.leader ls) }

/-- R247, R84. -/
def formJset (gd : Guard) (j : Fin 8) : Form := setForm (.jset gd j) (fun t lead l => setStart t lead j.val l)
def execJset (gd : Guard) (j : Fin 8) (s : State) : Host.Outcome State Fault Refusal := run gd (formJset gd j) s

/-- R247, R84. -/
def formJadd (gd : Guard) (j : Fin 8) : Form := setForm (.jadd gd j) (fun t lead l => setAdd t lead j.val l)
def execJadd (gd : Guard) (j : Fin 8) (s : State) : Host.Outcome State Fault Refusal := run gd (formJadd gd j) s

/-- R247, R84. -/
def formJquit (gd : Guard) (j : Fin 8) : Form := setForm (.jquit gd j) (fun t lead l => setQuit t lead j.val l)
def execJquit (gd : Guard) (j : Fin 8) (s : State) : Host.Outcome State Fault Refusal := run gd (formJquit gd j) s

/-- After lanes left the issuing path, what remains of it keeps its turn (R80). -/
def leavePath (src t : State) : State :=
  if src.cur.path then renumber t src.cur.leader (src.cur.lanes.headD src.cur.leader - src.cur.leader) else t

/-- R247, R84: the acting lanes wait; the release check is made at the end of the cycle (R88). -/
def formJwait (gd : Guard) (j : Fin 8) : Form :=
  {
    instr := (.jwait gd j)
    excluded := true
    operand := fun s ls =>
      let x := rdJ s s.cur.leader j.val
      faultsOf (ls.map fun p => (p,
        if !x.valid then some (operandFault 3 (setView x))
        else if !(required x).getLsbD (p - s.cur.leader) then some (operandFault 4 (setView x))
        else none))
    act := fun s t ls =>
      if ls.isEmpty then t
      else
        let t1 := modStrs t ls (fun u => { u with
          lmode := .waiting j.val, st := .parked, park := .rejoin, wait := .event, nba := s.cur.nba, parkedAt := s.time })
        leavePath s (setArrive t1 s.cur.leader j.val (actMask s.cur.leader ls)) }
def execJwait (gd : Guard) (j : Fin 8) (s : State) : Host.Outcome State Fault Refusal := run gd (formJwait gd j) s

/-- R248, R84. -/
def formJtest (gd : Guard) (p : Fin 8) (j : Fin 8) : Form :=
  {
    instr := (.jtest gd p j)
    act := fun s t ls =>
      let x := rdJ t s.cur.leader j.val
      let v := x.valid && decide (x.arrived ||| actMask s.cur.leader ls = required x)
      ls.foldl (fun u q => wrP u q p.val v) t }
def execJtest (gd : Guard) (p : Fin 8) (j : Fin 8) (s : State) : Host.Outcome State Fault Refusal :=
  run gd (formJtest gd p j) s

/-- R248, R82. -/
def formJread (gd : Guard) (d : GReg) (j : Fin 8) : Form :=
  {
    instr := (.jread gd d j)
    act := fun s t ls => ls.foldl (fun u p => wrReg u p d (setView (rdJ t s.cur.leader j.val))) t }
def execJread (gd : Guard) (d : GReg) (j : Fin 8) (s : State) : Host.Outcome State Fault Refusal :=
  run gd (formJread gd d j) s

/-- R248, R84: the value of the lowest acting lane. -/
def formJwrite (gd : Guard) (j : Fin 8) (a : GReg) : Form :=
  {
    instr := (.jwrite gd j a)
    excluded := true
    act := fun s t ls => if ls.isEmpty then t else setWrite t s.cur.leader j.val (rdReg s (lowestOf s ls) a) }
def execJwrite (gd : Guard) (j : Fin 8) (a : GReg) (s : State) : Host.Outcome State Fault Refusal :=
  run gd (formJwrite gd j a) s

/-! ### Gangs and strands -/

/-- Whether the issuer belongs to a gang larger than one. -/
def inGang (s : State) : Bool := decide (1 ≤ glogOf (s.str s.cur.leader))

/-- A strand parked FUSE in the slot index of a position whose group overlaps the position's under another size (R460).
(DEDUCED: notes/assumptions/33.md) -/
def fuseClash (s : State) (p glog : Nat) : Option Nat :=
  (lanesFrom (p / 16 * 16) 16).find? fun q =>
    decide (q ≠ p ∧ (s.str q).st = .parked ∧ (s.str q).park = .fuse ∧ (s.str q).fuseG ≠ glog) &&
      (fuseGroup p glog).any (fun r => (fuseGroup q (s.str q).fuseG).contains r)

/-- R249, R51: a participant parks; with the last one the gang forms. -/
def formFuse (gd : Guard) (glog : Fin 5) : Form :=
  {
    instr := (.fuse gd glog)
    excluded := true
    issuer := fun s => !inGang s
    operand := fun s ls => faultsOf (ls.map fun p => (p, (fuseClash s p glog.val).map (fun q =>
      operandFault 5 (word (glog.val + (s.str q).fuseG * 16 + q % 16 * 256)))))
    act := fun s t ls => if glog.val = 0 then t else
      ls.foldl (fun u p =>
        let u1 := modStr u p (fun x => { x with
          st := .parked, park := .fuse, wait := .event, fuseG := glog.val, parkedAt := s.time })
        let g := fuseGroup p glog.val
        if g.all (fun q => decide ((u1.str q).st = .parked ∧ (u1.str q).park = .fuse ∧ (u1.str q).fuseG = glog.val)) then
          formGang u1 (g.headD p) glog.val
        else u1) t }
def execFuse (gd : Guard) (glog : Fin 5) (s : State) : Host.Outcome State Fault Refusal := run gd (formFuse gd glog) s

/-- R250, R52: the lanes go on as solo strands from the gang's next slot cycle. -/
def formSplit (gd : Guard) : Form :=
  {
    instr := (.split gd)
    excluded := true
    act := fun s t ls => if ls.isEmpty ∨ !inGang s then t else startSplit t s.cur.leader }
def execSplit (gd : Guard) (s : State) : Host.Outcome State Fault Refusal := run gd (formSplit gd) s

/-- R251. -/
def formDetach (gd : Guard) : Form :=
  {
    instr := (.detach gd)
    excluded := true
    act := fun s t ls =>
      if ls.isEmpty ∨ !inGang s ∨ !s.cur.path then t
      else leavePath s (modStrs t ls (fun u => { u with lmode := .detached })) }
def execDetach (gd : Guard) (s : State) : Host.Outcome State Fault Refusal := run gd (formDetach gd) s

/-- R252, R63, R84. -/
def formStop (gd : Guard) : Form :=
  {
    instr := (.stop gd)
    excluded := true
    act := fun s t ls =>
      if ls.isEmpty then t
      else
        let lead := s.cur.leader
        let t1 := ls.foldl stopLane t
        freeCheck (leavePath s (setsStop t1 lead (actMask lead ls) (fun j => rdJ t1 lead j))) lead }
def execStop (gd : Guard) (s : State) : Host.Outcome State Fault Refusal := run gd (formStop gd) s

/-- The read of an entry descriptor (R56). -/
def descAsk (s : State) (a : GReg) (p : Nat) : Ask := { va := rdReg s p a, n := 16, al := 16, kind := .desc }
/-- The check of a descriptor address (R459). -/
def descStage (a : GReg) (al code : Nat) (s : State) (ls : List Nat) : Stage :=
  faultsOf (ls.map fun p => (p, if (rdReg s p a).toNat % al ≠ 0 then some (operandFault code (rdReg s p a)) else none))

/-- R254, R57. -/
def formSpawn (gd : Guard) (a : GReg) (w : Fin 16) : Form :=
  {
    instr := (.spawn gd a w)
    excluded := true
    operand := descStage a 16 6
    access := fun s ls =>
      let ds := ls.map (fun p => (rdReg s p a).toNat)
      (accessStage s ls (fun p => [descAsk s a p])).andThen
        (if canGather (gathered s (curCell s)) ls.length ds then .ok
        else .park .spawn (ls.map fun p => (p, WaitFor.spawn ls.length ds)) [])
    room := fun s ls => roomStage s ls (fun p => [descAsk s a p])
    values := fun s ls => valueStage s ls (descAsk s a)
      (fun p v => if descOk v then none else some (operandFault 7 (rdReg s p a)))
    act := fun s t ls =>
      ls.foldl (fun u p => submit u p (.spawn
        { desc := (rdReg s p a).toNat, payload := rdW s p w.val, lpos := (s.str p).lpos } (valueRead s p (descAsk s a p))))
        t }
def execSpawn (gd : Guard) (a : GReg) (w : Fin 16) (s : State) : Host.Outcome State Fault Refusal :=
  run gd (formSpawn gd a w) s

/-- R255. -/
def formSpawnf (gd : Guard) (a : GReg) : Form :=
  {
    instr := (.spawnf gd a)
    excluded := true
    operand := descStage a 16 6
    act := fun s t ls =>
      ls.foldl (fun u p => submit u p (.spawnf (rdReg s p a).toNat)) t }
def execSpawnf (gd : Guard) (a : GReg) (s : State) : Host.Outcome State Fault Refusal := run gd (formSpawnf gd a) s

/-- R253: the turn passes at the end of the slot cycle, as if its 64th unit had been used. -/
def formYield (gd : Guard) : Form :=
  {
    instr := (.yield gd)
    excluded := true
    act := fun s t ls =>
      let g := t.gang s.cur.leader
      if ls.isEmpty ∨ !inGang s ∨ !s.cur.path then t else putGang t s.cur.leader { g with qleft := 1 } }
def execYield (gd : Guard) (s : State) : Host.Outcome State Fault Refusal := run gd (formYield gd) s

/-- The read of a launch record (R256). -/
def recAsk (s : State) (a : GReg) (p : Nat) : Ask := { va := rdReg s p a, n := 64, al := 64, kind := .desc }
/-- The priority of a grid that a grid queues (R60). -/
def gridPrio (s : State) (r : Nat) : Nat := Nat.min (recPrio r) (gridIn s (curCell s)).prio

/-- R256, R60. -/
def formGrid (gd : Guard) (a : GReg) : Form :=
  {
    instr := (.grid gd a)
    excluded := true
    operand := descStage a 64 8
    access := fun s ls => accessStage s ls (fun p => [recAsk s a p])
    room := fun s ls => roomStage s ls (fun p => [recAsk s a p])
    values := fun s ls => valueStage s ls (recAsk s a)
      (fun p v => if recordOk s v (asidIn s (curCell s)) (gridPrio s v) then none else some (operandFault 9 (rdReg s p a)))
    act := fun s t ls =>
      let c := curCell s
      if ls.isEmpty then t
      else ls.foldl (fun u p =>
        let r := valueRead s p (recAsk s a p)
        queueGrid u (gridOf r (asidIn s c) (keyIn s c) (gridPrio s r)))
        (relL1 t c (some .pkg)) }
def execGrid (gd : Guard) (a : GReg) (s : State) : Host.Outcome State Fault Refusal := run gd (formGrid gd a) s

end Sys2Proof.Machine
end

