-- ==== Sys2Proof/Machine/Barrier.lean ====
section
/-!
DEFINITION. Waking parked lanes (spec/02_execution_model.md R63), and the barriers: arrivals and byte counts of a
transaction barrier and its test at the end of a cell cycle (spec/13_isa_async_and_system.md R363 to R366,
spec/20_progress_failures.md R488 to R491), the mask of a block barrier (R368 to R371), and the monitors of `wait`
(spec/12_isa_memory_and_sync.md R339, R340).
-/
namespace Sys2Proof.Machine

open Sys2Proof

/-- A lane that waited in `tbwait` or `bbwait` goes on at NBA, its instruction complete (R366, R369); a pair issues again, as no part of
it has been performed (R200). -/
def wakeBar (t : Strand) : Strand := clearReason (decide (t.nba ≠ t.pc + 8#64)) t

/-- Whether a lane is parked with a reason, FROZEN or not. -/
def parkedWith (t : Strand) (r : Park) : Bool := decide (t.park = r ∧ (liveSt t = .parked ∨ t.st = .supervisor))

/-! ### Transaction barriers -/

def putBar (s : State) (c b : Nat) (x : Barrier) : State := putCell s c { s.cell c with bars := tset (s.cell c).bars b x }
/-- A PROGRESS record about barrier b of a cell (R476); `pos` is the position concerned, if one is.
(DEDUCED: notes/assumptions/70.md) -/
def barRec (s : State) (c b reason : Nat) (pos : Option (Nat × Word)) (x : Barrier) : Record :=
  let r : Record := match pos with
    | some q => { recAt s q.1 7 with addr := q.2 }
    | none => { kind := 7, asid := asidIn s c, pkey := keyIn s c, grid := (blockIn s c).grid }
  { r with sinfo := word reason, sval := tbView0 x, arg := b }

/-- An arrival, or `a` arrivals judged together, of a position at a barrier (R364, R489). -/
def tbArrive (s : State) (c b a pos : Nat) (ba : Word) : State :=
  let x := barOf (s.cell c) b
  let i := posInCell pos
  if x.valid ∧ a ≤ x.remain ∧ x.remain ≠ 0 ∧ !x.arrived.getLsbD i then
    putBar s c b { x with remain := x.remain - a, arrived := x.arrived ||| BitVec.ofNat 64 (2 ^ i) }
  else
    let y := { x with err := x.err || x.valid }
    let t := putBar s c b { y with overArrive := true }
    if x.overArrive then t else postSq t c (barRec t c b 9 (some (pos, ba)) y)

/-- PEND changes by n, within its 32 bits (R364, R490). -/
def tbPend (s : State) (c b : Nat) (n : Int) (err : Bool) (pos : Option (Nat × Word)) : State :=
  let x := barOf (s.cell c) b
  let v := x.pend + n
  if -(2 ^ 31 : Nat) ≤ v ∧ v ≤ (2 ^ 31 - 1 : Nat) then putBar s c b { x with pend := v, err := x.err || err }
  else
    let y := { x with pend := if v < 0 then -(2 ^ 31 : Nat) else (2 ^ 31 - 1 : Nat), err := true }
    let t := putBar s c b { y with pendRange := true }
    if x.pendRange then t else postSq t c (barRec t c b 10 pos y)

/-- Whether a position waits, its reason not cleared; a SAVED lane is judged when it is restored (R64). -/
def waiting (s : State) (p : Nat) (f : WaitFor → Bool) : Bool :=
  decide ((s.str p).st ≠ .saved ∧ (s.str p).woken = none) && f (s.str p).wait
/-- The positions of a cell that are parked on barrier b. -/
def parkedOn (s : State) (c b : Nat) : List Nat :=
  (heldIn s c).filter fun p => waiting s p (fun w => match w with | .tb n _ => decide (n = b) | _ => false)

/-- The test of a barrier at the end of a cell cycle (R364, R491). A lane that was parked on the phase goes on. -/
def tbTest (s : State) (c b : Nat) : State :=
  let x := barOf (s.cell c) b
  if x.valid ∧ x.remain = 0 ∧ x.pend = 0 then
    modStrs (putBar s c b { x with
        phase := !x.phase, lerr := x.err, err := false, remain := x.expect, arrived := 0#64, before := 0#64,
        overArrive := false, pendRange := false, overrun := false })
      (parkedOn s c b) wakeBar
  else if x.valid ∧ x.remain = 0 ∧ x.pend < 0 then
    let y := { x with err := true, before := x.arrived }
    let t := putBar s c b { y with overrun := true }
    if x.overrun then t else postSq t c (barRec t c b 11 none y)
  else putBar s c b { x with before := x.arrived }

/-- Every barrier of a cell, at the end of its cycle. -/
def tbTests (s : State) (c : Nat) : State := (tkeys (s.cell c).bars).foldl (fun t b => tbTest t c b) s

/-- Whether an entry of the transfer table of the block in a cell names barrier b (R488). -/
def entryNames (s : State) (c b : Nat) (r : Requester) (cons : Consumer) (tb : Nat) (note : Bool) (ntb : Nat) : Bool :=
  decide (r.cell = c ∧ r.blk = blockTag s (.scr c 0)) &&
    ((match cons with | .self _ => decide (tb = b) | _ => false) || (note && decide (ntb = b)))
/-- A transfer-table entry of a cell names barrier b (R488). -/
def tableNames (s : State) (c b : Nat) : Bool :=
  s.xfers.any (fun e => entryNames s c b e.2.req e.2.cons e.2.tb e.2.note e.2.ntb) ||
  s.chases.any (fun e => entryNames s c b e.2.req e.2.cons e.2.tb e.2.note e.2.ntb)
/-- A busy barrier (R488). -/
def tbIsBusy (s : State) (c b : Nat) : Bool :=
  let x := barOf (s.cell c) b
  x.valid && (decide (x.pend ≠ 0 ∨ x.remain ≠ x.expect) || !(parkedOn s c b).isEmpty || tableNames s c b)

/-- `tbinit` (R365), with the reset of a barrier that is busy, or was when it parked (R488). -/
def tbInit (s : State) (c b expect pos : Nat) (ba : Word) (found : Bool) : State :=
  let x := barOf (s.cell c) b
  let s1 := if found || tbIsBusy s c b then
      modStrs (postSq s c (barRec s c b 8 (some (pos, ba)) x)) (parkedOn s c b) wakeBar
    else s
  putBar s1 c b { valid := true, expect := expect, remain := expect, before := x.before }

/-! ### Block barriers -/

/-- The participants of a cell (R368). -/
def participants (s : State) (c : Nat) : List Nat :=
  (heldIn s c).filter fun p => decide (liveSt (s.str p) ≠ .retired ∧ (s.str p).heldSt ≠ .retired)
/-- Whether a cell is complete (R368). -/
def cellComplete (s : State) (c : Nat) : Bool :=
  (participants s c).all fun p => (s.cell c).bbArrived.getLsbD (posInCell p)

/-- An arrival at the block barrier (R369, R371, R492). -/
def bbArrive (s : State) (pos : Nat) (ba : Word) : State :=
  let c := cellOf pos
  let x := s.cell c
  let i := posInCell pos
  if x.bbArrived.getLsbD i then
    let t := putCell s c { x with bbTwice := true }
    if x.bbTwice then t
    else postSq t c { recAt t pos 7 with addr := ba, sinfo := 12#64, sval := x.bbArrived }
  else
    let t := putCell s c { x with bbArrived := x.bbArrived ||| BitVec.ofNat 64 (2 ^ i) }
    match x.block with
    | none => t
    | some b =>
      if (t.block b).bbRecord then t
      else (putBlock t b { t.block b with bbRecord := true }).setPkg { t.pkg with bbRecords := t.pkg.bbRecords + 1 }

/-- A block whose next arrival begins a phase while every record is in use (R371). -/
def bbFull (s : State) (c : Nat) : Bool :=
  match (s.cell c).block with
  | none => false
  | some b => !(s.block b).bbRecord && decide (4096 ≤ s.pkg.bbRecords)

/-- A release reaches a cell: its mask clears and its waiting lanes go on, each after the acquire of `bbwait` (R369,
R370). -/
def bbReleaseCell (s : State) (c : Nat) : State :=
  let ls := (heldIn s c).filter fun p => waiting s p (fun w => match w with | .bb _ => true | _ => false)
  let s1 := putCell s c { s.cell c with
    bbArrived := 0#64, bbBefore := 0#64, bbForwarded := false, bbRelease := none, bbTwice := false }
  modStrs (if ls.isEmpty then s1 else l1DropClean s1 c) ls wakeBar

/-! ### Monitors -/

/-- The home agent of a word that a lane of a die waits on (R103, R340). -/
def homeAgent (die loc : Nat) : Nat :=
  if loc < 2 ^ 40 then 160 * (loc / 2 ^ 38) + loc % 2 ^ 38 / 256 % 160
  else if loc < 2 ^ 53 then 640 + die
  else if loc < 2 ^ 54 then 1000 + (loc - 2 ^ 53) / 2 ^ 20
  else 2000
/-- Words for which a home agent holds an entry (R340). A word is named by its address and its width.
(DESIGN CHOICE: notes/assumptions/75.md) -/
def agentWords (s : State) (agent : Nat) : List (Nat × Nat) :=
  dedupN (s.strands.filterMap fun e =>
    match e.2.mon with
    | some m => if m.armed ∧ m.done.isNone ∧ homeAgent (dieOf (cellOf e.1)) m.loc = agent then some (m.loc, bCode m.w64) else none
    | none => none)

def putMon (s : State) (p : Nat) (m : Monitor) : State := modStr s p (fun t => { t with mon := some m })
def Monitor.bytes (m : Monitor) : Nat := if m.w64 then 8 else 4

/-- Whether a wait that has come before is still held at an agent (R340). -/
def heldBefore (s : State) (agent : Nat) (m : Monitor) : Bool :=
  s.strands.any fun e =>
    match e.2.mon with
    | some x => !x.armed && x.done.isNone && decide (x.stamp < m.stamp ∧ homeAgent (dieOf (cellOf e.1)) x.loc = agent)
    | none => false
/-- A `wait` whose read has failed, or has met another block (R465, R468). -/
def monFail (m : Monitor) (status cause code : Nat) : Monitor :=
  { m with done := some (word 0, status), bad := some { cause := cause, code := code, addr := m.addr, access := 5 } }
/-- The read of a `wait` at its home in this package: its value, or the wait as it has failed; the cell's L1 copy of the sector goes
(R158, R168, R339). -/
def monRead (s : State) (p : Nat) (m : Monitor) (status : Nat) : State × (Word ⊕ Monitor) :=
  let c := cellOf p
  if m.blk ≠ 0 ∧ locBlock s m.loc ≠ m.blk then (s, .inr (monFail m status 9 6))
  else if crossed s (dieOf c) (homeDie m.loc) c m.loc then (s, .inr (monFail m status 10 8))
  else
    let t := flushRange s c m.loc m.bytes
    match badIn t m.loc m.bytes with
    | some code => (t, .inr (monFail m status 10 code))
    | none => (t, .inl (word (rd t m.loc m.bytes)))

/-- The compare-and-arm act of a `wait` at the home of its word, or the queue for an entry of it (R339, R340). A word of
another package is compared there, by reads.
(DESIGN CHOICE: notes/assumptions/22.md) -/
def armMonitor (s : State) (p : Nat) (m : Monitor) : State :=
  let c := cellOf p
  if 2 ^ 60 ≤ m.loc then
    let a := m.loc - 2 ^ 60
    match newRequest s (fromCell c) (a / 2 ^ 40) (planeOf (a % 2 ^ 40)) 1 0 (keyIn s c) (a % 2 ^ 40) 0#256
        (byteMask (a % 32) m.bytes) (.mon p) with
    | .out t => putMon (dropFar t c (a / 2 ^ 40) (a % 2 ^ 40)) p { m with asked := true }
    | .fail code => putMon s p (monFail m 0 10 code)
  else
    let agent := homeAgent (dieOf c) m.loc
    let ws := agentWords s agent
    if !ws.contains (m.loc, bCode m.w64) && (decide (256 ≤ ws.length) || heldBefore s agent m) then putMon s p { m with armed := false }
    else match monRead s p m 0 with
      | (t, .inr x) => putMon t p x
      | (t, .inl v) => if v = m.expect then putMon t p { m with armed := true } else putMon t p { m with done := some (v, 0) }

end Sys2Proof.Machine
end

