-- ==== Sys2Proof/Machine/Special.lean ====
section
/-!
DEFINITION. The special functions of the wide unit (spec/10_isa_numbers_and_float.md R272): their special operands, their
values computed to far more bits than any format holds, and the choice of R272 between the value of the part and the bound.
Numbers here are integers in units of 2^-P.
-/
namespace Sys2Proof.Machine

open Sys2Proof

/-- Fraction bits of the working numbers. -/
def wp : Nat := 400

/-- The series z + z^3/3 + z^5/5 + ... of atanh, z below 1/2: `t` is the power of z in hand and `z2` its square. -/
def atanhSum (p z2 t k : Nat) : Nat → Nat
  | 0 => 0
  | n + 1 => t / k + atanhSum p z2 (t * z2 / 2 ^ p) (k + 2) n
/-- ln m for 1 ≤ m ≤ 2. -/
def lnFix (p m : Nat) : Nat :=
  let z := (m - 2 ^ p) * 2 ^ p / (m + 2 ^ p)
  2 * atanhSum p (z * z / 2 ^ p) z 1 140
def ln2Fix : Nat := lnFix wp (2 ^ (wp + 1))

/-- The series of the exponential function. -/
def expSum (p x t k : Nat) : Nat → Nat
  | 0 => 0
  | n + 1 => t + expSum p x (t * x / 2 ^ p / k) (k + 1) n

/-- An alternating series t - t x2/(k(k+1)) + ... of sine or cosine. -/
def trigSum (p x2 t k : Nat) : Nat → Int
  | 0 => 0
  | n + 1 => (t : Int) - trigSum p x2 (t * x2 / 2 ^ p / (k * (k + 1))) (k + 2) n

/-- atan (1 / q) by its series, and π by Machin's formula, with 1,440 fraction bits. -/
def piBits : Nat := 1440
def atanInv (q t k : Nat) : Nat → Int
  | 0 => 0
  | n + 1 => (t / k : Nat) - atanInv q (t / (q * q)) (k + 2) n
def halfPi : Nat := (8 * atanInv 5 (2 ^ (piBits + 16) / 5) 1 330 - 2 * atanInv 239 (2 ^ (piBits + 16) / 239) 1 100).toNat / 2 ^ 16

/-- A value that lies between v and v + 1 units of 2^-p. -/
def between (neg : Bool) (v p : Nat) : Exact := .num neg (2 * v + 1) 1 (-(p : Int) - 1) false

/-- Floor of ± n * 2^e, in units of 2^-wp, e being any exponent. -/
def toFix (neg : Bool) (n : Nat) (e : Int) : Int :=
  let x := scaled n 1 (e + wp)
  if neg then (if x.2 then -(x.1 : Int) else -(x.1 : Int) - 1) else x.1

/-- 2^a for a finite a that is not an integer. -/
def exp2Num (neg : Bool) (n : Nat) (e : Int) : Exact :=
  if 16 ≤ log2Of n 1 e then .num false 1 1 (if neg then -65536 else 65536) false
  else
    let x := toFix neg n e
    let k := x / (2 ^ wp : Nat)
    let f := (x % (2 ^ wp : Nat)).toNat
    match between false (expSum wp (f * ln2Fix / 2 ^ wp) (2 ^ wp) 1 100) wp with
    | .num s m d g r => .num s m d (g + k) r
    | y => y

/-- log2 a for a positive a that is not a power of two. -/
def log2Num (n : Nat) (e : Int) : Exact :=
  let l := Nat.log2 n
  let m := if l ≤ wp then n * 2 ^ (wp - l) else n / 2 ^ (l - wp)
  let v : Int := ((l : Int) + e) * (2 ^ wp : Nat) + (lnFix wp m * 2 ^ wp / ln2Fix : Nat)
  between (decide (v < 0)) (if v < 0 then (-v - 1).toNat else v.toNat) wp

/-- sin and cos of a finite a. -/
def trigNum (cosine neg : Bool) (n : Nat) (e : Int) : Exact :=
  if log2Of n 1 e < -40 then
    (if cosine then between false (2 ^ wp - 1) wp
    else .num neg (n * 2 ^ 80 - 1) 1 (e - 80) false)
  else
    let x := (scaled n 1 (e + piBits)).1
    let q := x / halfPi + (if cosine then 1 else 0)
    let r := x % halfPi / 2 ^ (piBits - wp)
    let x2 := r * r / 2 ^ wp
    let v := if q % 2 = 0 then trigSum wp x2 r 2 60 else trigSum wp x2 (2 ^ wp) 1 60
    between (xor (decide (2 ≤ q % 4)) (neg && !cosine)) v.toNat wp

/-- Whether a finite value is an integer, and that integer. -/
def asInt (n : Nat) (e : Int) : Option Nat :=
  if 0 ≤ e then some (n * 2 ^ e.toNat) else if n % 2 ^ (-e).toNat = 0 then some (n / 2 ^ (-e).toNat) else none
/-- Whether a magnitude is a power of two. -/
def isPow2 (n : Nat) : Bool := decide (n = 2 ^ Nat.log2 n)

/-- The function value (R272), and whether R272 fixes the result for this operand in every format that represents it, or that it
overflows. -/
def specExact (fn : SpecFn) (x : Exact) : Exact × Bool :=
  match fn, x with
  | _, .nan => (.nan, true)
  | .rcp, .num _ n _ _ _ => (divX (.num false 1 1 0 false) x, isPow2 n)
  | .rcp, _ => (divX (.num false 1 1 0 false) x, true)
  | .rsq, .num false _ _ _ _ => (rsqX x, false)
  | .rsq, _ => (rsqX x, true)
  | .sqrt, _ => (sqrtX x, true)
  | .exp2, .inf neg => (if neg then .zero false else .inf false, true)
  | .exp2, .zero _ => (.num false 1 1 0 false, true)
  | .exp2, .num neg n _ e _ =>
    (match asInt n e with
      | some k => (.num false 1 1 (if neg then -(Nat.min k 65536 : Nat) else (Nat.min k 65536 : Nat)) false, true)
      | none => (exp2Num neg n e, false))
  | .log2, .inf neg => (if neg then .nan else .inf false, true)
  | .log2, .zero _ => (.inf true, true)
  | .log2, .num true _ _ _ _ => (.nan, true)
  | .log2, .num false n _ e _ => if isPow2 n then (exactInt ((Nat.log2 n : Int) + e), true) else (log2Num n e, false)
  | .sin, .inf _ => (.nan, true)
  | .sin, .zero neg => (.zero neg, true)
  | .sin, .num neg n _ e _ => (trigNum false neg n e, false)
  | .cos, .inf _ => (.nan, true)
  | .cos, .zero _ => (.num false 1 1 0 false, true)
  | .cos, .num neg n _ e _ => (trigNum true neg n e, false)

/-- A dyadic value within far less than an ulp of a quotient or a root, for the comparison of an error with a bound. -/
def dyadic (f : FloatFmt) (x : Exact) : Exact :=
  match x with
  | .num neg n d e root =>
    let q := log2Mag n d e root - f.frac - 80
    let k := floorAt n d e root q
    if k.2 then .num neg k.1 1 q false else .num neg (2 * k.1 + 1) 1 (q - 1) false
  | y => y

/-- The bound of R272 on the error of a function of an FP32 or FP64 operand, whose exact result is x. -/
def errBound (fn : SpecFn) (f : FloatFmt) (x : Exact) : Exact :=
  match x with
  | .num _ n d e root =>
    let lo := (1 : Int) - f.bias - f.frac
    let q := if log2Mag n d e root - f.frac < lo then lo else log2Mag n d e root - f.frac
    (match fn with
      | .exp2 => .num false 2 1 q false
      | .log2 => .num false 2 1 q false
      | .sin => .num false 1 1 (if f.frac = 23 then -22 else -50) false
      | .cos => .num false 1 1 (if f.frac = 23 then -22 else -50) false
      | _ => .num false 1 1 q false)
  | _ => .zero false

def absX : Exact → Exact
  | .inf _ => .inf false
  | .zero _ => .zero false
  | .num _ n d e r => .num false n d e r
  | .nan => .nan

/-- Whether an encoding lies within the bound of R272 of the exact result: finite, and in the range of the function. -/
def withinBound (fn : SpecFn) (f : FloatFmt) (x : Exact) (c : Nat) : Bool :=
  let v := decodeF f c
  let y := dyadic f x
  (match v with | .num .. => true | .zero neg => decide (fn ≠ .exp2 ∨ neg = false) | _ => false) &&
    decide (cmpX (absX (addX false v (negX y))) (errBound fn f x) ≤ 0) &&
    (match fn with
      | .sin => decide (cmpX (absX v) (.num false 1 1 0 false) ≤ 0)
      | .cos => decide (cmpX (absX v) (.num false 1 1 0 false) ≤ 0)
      | _ => true)

/-- Whether R272 fixes the result of a function of an operand in a format: `vsqrt` is correctly rounded, and of the other fixed values
one that the format does not represent has only its bound.
(DESIGN CHOICE: notes/assumptions/2.md) -/
def specFixed (fn : SpecFn) (f : FloatFmt) (a : Nat) : Bool :=
  let x := specExact fn (decodeF f a)
  x.2 && (decide (fn = .sqrt) || match decodeF f (roundF f .rn 0 x.1) with
    | .nan => true
    | .inf _ => true
    | v => decide (cmpX v (dyadic f x.1) = 0))

/-- The result of a special function (R272): correctly rounded where the rule says so or fixes the value, and otherwise the
value of the part (a free value), where that lies within the bound.
(DESIGN CHOICE: notes/assumptions/2.md) -/
def specResult (fn : SpecFn) (t : FTy) (a : Nat) : Nat :=
  let f := ftyFmt t
  let x := specExact fn (decodeF f a)
  let near := roundF f .rn 0 x.1
  match t with
  | .f16 => near
  | .bf16 => near
  | _ =>
    if specFixed fn f a then near
    else
      let c := (Config.specialValue fn t (BitVec.ofNat 64 a)).toNat % 2 ^ f.width
      if withinBound fn f x.1 c then c else near

end Sys2Proof.Machine
end

