-- ==== Sys2Proof/Machine/Float.lean ====
section
/-!
DEFINITION. Scalar and wide floating-point instructions (spec/10_isa_numbers_and_float.md R267 to R277).
-/
namespace Sys2Proof.Machine

open Sys2Proof

/-! ### Results on encodings -/

/-- A result of exact values, rounded once to the type (R266, R267). -/
def fOp2 (f : FTy) (m : Rm) (draw : Nat) (op : Exact → Exact → Exact) (a b : Nat) : Nat :=
  roundF (ftyFmt f) m draw (op (decodeF (ftyFmt f) a) (decodeF (ftyFmt f) b))
def isRd : Rm → Bool
  | .rd => true
  | _ => false
def subX (rd : Bool) (a b : Exact) : Exact := addX rd a (negX b)
/-- a × b + c with one rounding (R267). -/
def fmaOf (f : FTy) (m : Rm) (draw a b c : Nat) : Nat :=
  let d := decodeF (ftyFmt f)
  roundF (ftyFmt f) m draw (addX (isRd m) (mulX (d a) (d b)) (d c))
/-- Order of `fmin` and `fmax`: −0 stands below +0 (R267). -/
def below (x y : Exact) : Bool :=
  match x, y with
  | .zero a, .zero b => a && !b
  | _, _ => decide (cmpX x y < 0)
def fminOf (f : FTy) (a b : Nat) : Nat :=
  let x := decodeF (ftyFmt f) a
  let y := decodeF (ftyFmt f) b
  if isNan x then (if isNan y then (ftyFmt f).nan else b) else if isNan y then a else if below y x then b else a
def fmaxOf (f : FTy) (a b : Nat) : Nat :=
  let x := decodeF (ftyFmt f) a
  let y := decodeF (ftyFmt f) b
  if isNan x then (if isNan y then (ftyFmt f).nan else b) else if isNan y then a else if below x y then b else a
def fabsOf (f : FTy) (a : Nat) : Nat := a % 2 ^ ((ftyFmt f).width - 1)
def fnegOf (f : FTy) (a : Nat) : Nat := Nat.xor a (2 ^ ((ftyFmt f).width - 1))
def fsqrtOf (f : FTy) (m : Rm) (draw a : Nat) : Nat := roundF (ftyFmt f) m draw (sqrtX (decodeF (ftyFmt f) a))

/-! ### Scalar forms (R206, R267 to R270) -/

/-- The bits of a scalar operand (R206). -/
def fBits (s : State) (p : Nat) (f : FTy) (n : Fin 32) : Nat := (rdG s p n.val).toNat % 2 ^ (ftyFmt f).width
/-- A scalar result of two operands, by mode. -/
def fBin (f : FTy) (m : Rm) (a b : Fin 32) (op : Exact → Exact → Exact) (s : State) (p : Nat) : Word :=
  word (fOp2 f m (drawFor s p 0) op (fBits s p f a) (fBits s p f b))

/-- R267. -/
def formFadd (gd : Guard) (r : Rm) (d : Fin 32) (a : Fin 32) (b : Fin 32) (f : FTy) : Form :=
  gForm (.fadd gd r d a b f) (asG d) (fBin f r a b (addX (isRd r)))
def execFadd (gd : Guard) (r : Rm) (d : Fin 32) (a : Fin 32) (b : Fin 32) (f : FTy) (s : State) : Host.Outcome State Fault Refusal :=
  run gd (formFadd gd r d a b f) s

/-- R267. -/
def formFsub (gd : Guard) (r : Rm) (d : Fin 32) (a : Fin 32) (b : Fin 32) (f : FTy) : Form :=
  gForm (.fsub gd r d a b f) (asG d) (fBin f r a b (subX (isRd r)))
def execFsub (gd : Guard) (r : Rm) (d : Fin 32) (a : Fin 32) (b : Fin 32) (f : FTy) (s : State) : Host.Outcome State Fault Refusal :=
  run gd (formFsub gd r d a b f) s

/-- R267. -/
def formFmul (gd : Guard) (r : Rm) (d : Fin 32) (a : Fin 32) (b : Fin 32) (f : FTy) : Form :=
  gForm (.fmul gd r d a b f) (asG d) (fBin f r a b mulX)
def execFmul (gd : Guard) (r : Rm) (d : Fin 32) (a : Fin 32) (b : Fin 32) (f : FTy) (s : State) : Host.Outcome State Fault Refusal :=
  run gd (formFmul gd r d a b f) s

/-- R267: one rounding; D is read and written. -/
def formFma (gd : Guard) (r : Rm) (d : Fin 32) (a : Fin 32) (b : Fin 32) (f : FTy) : Form :=
  gForm (.fma gd r d a b f) (asG d) fun s p =>
    word (fmaOf f r (drawFor s p 0) (fBits s p f a) (fBits s p f b) (fBits s p f d))
def execFma (gd : Guard) (r : Rm) (d : Fin 32) (a : Fin 32) (b : Fin 32) (f : FTy) (s : State) : Host.Outcome State Fault Refusal :=
  run gd (formFma gd r d a b f) s

/-- R267. -/
def formFmin (gd : Guard) (d : Fin 32) (a : Fin 32) (b : Fin 32) (f : FTy) : Form :=
  gForm (.fmin gd d a b f) (asG d) fun s p => word (fminOf f (fBits s p f a) (fBits s p f b))
def execFmin (gd : Guard) (d : Fin 32) (a : Fin 32) (b : Fin 32) (f : FTy) (s : State) : Host.Outcome State Fault Refusal :=
  run gd (formFmin gd d a b f) s

/-- R267. -/
def formFmax (gd : Guard) (d : Fin 32) (a : Fin 32) (b : Fin 32) (f : FTy) : Form :=
  gForm (.fmax gd d a b f) (asG d) fun s p => word (fmaxOf f (fBits s p f a) (fBits s p f b))
def execFmax (gd : Guard) (d : Fin 32) (a : Fin 32) (b : Fin 32) (f : FTy) (s : State) : Host.Outcome State Fault Refusal :=
  run gd (formFmax gd d a b f) s

/-- R267, R270: the result lands later. -/
def formFdiv (gd : Guard) (r : Rm) (d : Fin 32) (a : Fin 32) (b : Fin 32) (f : FTy) : Form :=
  gLater (.fdiv gd r d a b f) (asG d) (fBin f r a b divX)
def execFdiv (gd : Guard) (r : Rm) (d : Fin 32) (a : Fin 32) (b : Fin 32) (f : FTy) (s : State) : Host.Outcome State Fault Refusal :=
  run gd (formFdiv gd r d a b f) s

/-- R268, R270: the result lands later. -/
def formFsqrt (gd : Guard) (r : Rm) (d : Fin 32) (a : Fin 32) (f : FTy) : Form :=
  gLater (.fsqrt gd r d a f) (asG d) fun s p => word (fsqrtOf f r (drawFor s p 0) (fBits s p f a))
def execFsqrt (gd : Guard) (r : Rm) (d : Fin 32) (a : Fin 32) (f : FTy) (s : State) : Host.Outcome State Fault Refusal :=
  run gd (formFsqrt gd r d a f) s

/-- R268. -/
def formFabs (gd : Guard) (d : Fin 32) (a : Fin 32) (f : FTy) : Form :=
  gForm (.fabs gd d a f) (asG d) fun s p => word (fabsOf f (fBits s p f a))
def execFabs (gd : Guard) (d : Fin 32) (a : Fin 32) (f : FTy) (s : State) : Host.Outcome State Fault Refusal :=
  run gd (formFabs gd d a f) s

/-- R268. -/
def formFneg (gd : Guard) (d : Fin 32) (a : Fin 32) (f : FTy) : Form :=
  gForm (.fneg gd d a f) (asG d) fun s p => word (fnegOf f (fBits s p f a))
def execFneg (gd : Guard) (d : Fin 32) (a : Fin 32) (f : FTy) (s : State) : Host.Outcome State Fault Refusal :=
  run gd (formFneg gd d a f) s

/-- R269. -/
def formFcmp (gd : Guard) (c : CC) (p : Fin 8) (a : Fin 32) (b : Fin 32) (f : FTy) : Form :=
  pForm (.fcmp gd c p a b f) p fun s q => floatCond c (scalarF f (rdG s q a.val)) (scalarF f (rdG s q b.val))
def execFcmp (gd : Guard) (c : CC) (p : Fin 8) (a : Fin 32) (b : Fin 32) (f : FTy) (s : State) : Host.Outcome State Fault Refusal :=
  run gd (formFcmp gd c p a b f) s

/-! ### Wide forms (R271 to R277) -/

/-- Number of elements of a type in a w register, and element i of a register of a lane. -/
def lanesOf (e : FTy) : Nat := 256 / (ftyFmt e).width
def wElem (s : State) (p : Nat) (e : FTy) (n : Fin 16) (i : Nat) : Nat := elem (rdW s p n.val).toNat (ftyFmt e).width i
/-- A w register of results, one for each element index. -/
def mapW (e : FTy) (f : Nat → Nat) : Wide := BitVec.ofNat 256 (fromElems (ftyFmt e).width ((List.range (lanesOf e)).map f))
def wBin (e : FTy) (m : Rm) (a b : Fin 16) (op : Exact → Exact → Exact) (s : State) (p : Nat) : Wide :=
  mapW e fun i => fOp2 e m (drawFor s p i) op (wElem s p e a i) (wElem s p e b i)
/-- A special function: its result lands later, at two tokens for each lane (R273, R187). -/
def specForm (i : Instr) (fn : SpecFn) (d a : Fin 16) (e : FTy) : Form :=
  { laneForm i (fun s t p =>
      landFixed t p (.w p d.val) (.w p d.val (mapW e fun j => specResult fn e (wElem s p e a j)))) with
    price := fun _ ls => 2 * ls.length }

/-- R271. -/
def formVadd (gd : Guard) (r : Rm) (d : Fin 16) (a : Fin 16) (b : Fin 16) (e : FTy) : Form :=
  wForm (.vadd gd r d a b e) d (wBin e r a b (addX (isRd r)))
def execVadd (gd : Guard) (r : Rm) (d : Fin 16) (a : Fin 16) (b : Fin 16) (e : FTy) (s : State) : Host.Outcome State Fault Refusal :=
  run gd (formVadd gd r d a b e) s

/-- R271. -/
def formVsub (gd : Guard) (r : Rm) (d : Fin 16) (a : Fin 16) (b : Fin 16) (e : FTy) : Form :=
  wForm (.vsub gd r d a b e) d (wBin e r a b (subX (isRd r)))
def execVsub (gd : Guard) (r : Rm) (d : Fin 16) (a : Fin 16) (b : Fin 16) (e : FTy) (s : State) : Host.Outcome State Fault Refusal :=
  run gd (formVsub gd r d a b e) s

/-- R271. -/
def formVmul (gd : Guard) (r : Rm) (d : Fin 16) (a : Fin 16) (b : Fin 16) (e : FTy) : Form :=
  wForm (.vmul gd r d a b e) d (wBin e r a b mulX)
def execVmul (gd : Guard) (r : Rm) (d : Fin 16) (a : Fin 16) (b : Fin 16) (e : FTy) (s : State) : Host.Outcome State Fault Refusal :=
  run gd (formVmul gd r d a b e) s

/-- R271: D is read and written. -/
def formVfma (gd : Guard) (r : Rm) (d : Fin 16) (a : Fin 16) (b : Fin 16) (e : FTy) : Form :=
  wForm (.vfma gd r d a b e) d fun s p => mapW e fun i =>
    fmaOf e r (drawFor s p i) (wElem s p e a i) (wElem s p e b i) (wElem s p e d i)
def execVfma (gd : Guard) (r : Rm) (d : Fin 16) (a : Fin 16) (b : Fin 16) (e : FTy) (s : State) : Host.Outcome State Fault Refusal :=
  run gd (formVfma gd r d a b e) s

/-- R271. -/
def formVmin (gd : Guard) (d : Fin 16) (a : Fin 16) (b : Fin 16) (e : FTy) : Form :=
  wForm (.vmin gd d a b e) d fun s p => mapW e fun i => fminOf e (wElem s p e a i) (wElem s p e b i)
def execVmin (gd : Guard) (d : Fin 16) (a : Fin 16) (b : Fin 16) (e : FTy) (s : State) : Host.Outcome State Fault Refusal :=
  run gd (formVmin gd d a b e) s

/-- R271. -/
def formVmax (gd : Guard) (d : Fin 16) (a : Fin 16) (b : Fin 16) (e : FTy) : Form :=
  wForm (.vmax gd d a b e) d fun s p => mapW e fun i => fmaxOf e (wElem s p e a i) (wElem s p e b i)
def execVmax (gd : Guard) (d : Fin 16) (a : Fin 16) (b : Fin 16) (e : FTy) (s : State) : Host.Outcome State Fault Refusal :=
  run gd (formVmax gd d a b e) s

/-- R271. -/
def formVabs (gd : Guard) (d : Fin 16) (a : Fin 16) (e : FTy) : Form :=
  wForm (.vabs gd d a e) d fun s p => mapW e fun i => fabsOf e (wElem s p e a i)
def execVabs (gd : Guard) (d : Fin 16) (a : Fin 16) (e : FTy) (s : State) : Host.Outcome State Fault Refusal :=
  run gd (formVabs gd d a e) s

/-- R271. -/
def formVneg (gd : Guard) (d : Fin 16) (a : Fin 16) (e : FTy) : Form :=
  wForm (.vneg gd d a e) d fun s p => mapW e fun i => fnegOf e (wElem s p e a i)
def execVneg (gd : Guard) (d : Fin 16) (a : Fin 16) (e : FTy) (s : State) : Host.Outcome State Fault Refusal :=
  run gd (formVneg gd d a e) s

/-- R272, R273. -/
def formVrcp (gd : Guard) (d : Fin 16) (a : Fin 16) (e : FTy) : Form := specForm (.vrcp gd d a e) .rcp d a e
def execVrcp (gd : Guard) (d : Fin 16) (a : Fin 16) (e : FTy) (s : State) : Host.Outcome State Fault Refusal :=
  run gd (formVrcp gd d a e) s

/-- R272, R273. -/
def formVrsq (gd : Guard) (d : Fin 16) (a : Fin 16) (e : FTy) : Form := specForm (.vrsq gd d a e) .rsq d a e
def execVrsq (gd : Guard) (d : Fin 16) (a : Fin 16) (e : FTy) (s : State) : Host.Outcome State Fault Refusal :=
  run gd (formVrsq gd d a e) s

/-- R272, R273. -/
def formVsqrt (gd : Guard) (d : Fin 16) (a : Fin 16) (e : FTy) : Form := specForm (.vsqrt gd d a e) .sqrt d a e
def execVsqrt (gd : Guard) (d : Fin 16) (a : Fin 16) (e : FTy) (s : State) : Host.Outcome State Fault Refusal :=
  run gd (formVsqrt gd d a e) s

/-- R272, R273. -/
def formVexp2 (gd : Guard) (d : Fin 16) (a : Fin 16) (e : FTy) : Form := specForm (.vexp2 gd d a e) .exp2 d a e
def execVexp2 (gd : Guard) (d : Fin 16) (a : Fin 16) (e : FTy) (s : State) : Host.Outcome State Fault Refusal :=
  run gd (formVexp2 gd d a e) s

/-- R272, R273. -/
def formVlog2 (gd : Guard) (d : Fin 16) (a : Fin 16) (e : FTy) : Form := specForm (.vlog2 gd d a e) .log2 d a e
def execVlog2 (gd : Guard) (d : Fin 16) (a : Fin 16) (e : FTy) (s : State) : Host.Outcome State Fault Refusal :=
  run gd (formVlog2 gd d a e) s

/-- R272, R273. -/
def formVsin (gd : Guard) (d : Fin 16) (a : Fin 16) (e : FTy) : Form := specForm (.vsin gd d a e) .sin d a e
def execVsin (gd : Guard) (d : Fin 16) (a : Fin 16) (e : FTy) (s : State) : Host.Outcome State Fault Refusal :=
  run gd (formVsin gd d a e) s

/-- R272, R273. -/
def formVcos (gd : Guard) (d : Fin 16) (a : Fin 16) (e : FTy) : Form := specForm (.vcos gd d a e) .cos d a e
def execVcos (gd : Guard) (d : Fin 16) (a : Fin 16) (e : FTy) (s : State) : Host.Outcome State Fault Refusal :=
  run gd (formVcos gd d a e) s

/-- R274. -/
def formVcmp (gd : Guard) (c : CC) (d : Fin 16) (a : Fin 16) (b : Fin 16) (e : FTy) : Form :=
  wForm (.vcmp gd c d a b e) d fun s p => mapW e fun i =>
    if floatCond c (decodeF (ftyFmt e) (wElem s p e a i)) (decodeF (ftyFmt e) (wElem s p e b i)) then 2 ^ (ftyFmt e).width - 1 else 0
def execVcmp (gd : Guard) (c : CC) (d : Fin 16) (a : Fin 16) (b : Fin 16) (e : FTy) (s : State) : Host.Outcome State Fault Refusal :=
  run gd (formVcmp gd c d a b e) s

/-- R275. -/
def formVsel (gd : Guard) (d : Fin 16) (a : Fin 16) (b : Fin 16) : Form :=
  wForm (.vsel gd d a b) d fun s p =>
    (rdW s p a.val &&& rdW s p d.val) ||| (rdW s p b.val &&& ~~~(rdW s p d.val))
def execVsel (gd : Guard) (d : Fin 16) (a : Fin 16) (b : Fin 16) (s : State) : Host.Outcome State Fault Refusal :=
  run gd (formVsel gd d a b) s

/-- Type and format of the result of a reduction (R276). -/
def sumFmt : FTy → FloatFmt
  | .f64 => fp64
  | _ => fp32
/-- The exact sum of some terms, −0 only when every term is −0 (R276). -/
def sumX : List Exact → Exact
  | [] => .zero false
  | [x] => x
  | x :: y :: r => addX false x (sumX (y :: r))

/-- R276. -/
def formVsum (gd : Guard) (d : GReg) (a : Fin 16) (e : FTy) : Form :=
  { gForm (.vsum gd d a e) d (fun s p => word (roundF (sumFmt e) .rn 0 (sumX ((List.range (lanesOf e)).map fun i =>
      decodeF (ftyFmt e) (wElem s p e a i))))) with price := fun _ ls => ls.length }
def execVsum (gd : Guard) (d : GReg) (a : Fin 16) (e : FTy) (s : State) : Host.Outcome State Fault Refusal :=
  run gd (formVsum gd d a e) s

/-- R276. -/
def formVdot (gd : Guard) (d : GReg) (a : Fin 16) (b : Fin 16) (e : FTy) : Form :=
  { gForm (.vdot gd d a b e) d (fun s p => word (roundF (sumFmt e) .rn 0 (sumX ((List.range (lanesOf e)).map fun i =>
      mulX (decodeF (ftyFmt e) (wElem s p e a i)) (decodeF (ftyFmt e) (wElem s p e b i)))))) with
    price := fun _ ls => ls.length }
def execVdot (gd : Guard) (d : GReg) (a : Fin 16) (b : Fin 16) (e : FTy) (s : State) : Host.Outcome State Fault Refusal :=
  run gd (formVdot gd d a b e) s

/-- Bits of an element of `vperm` (R277). -/
def permBits : PermSz → Nat
  | .b4 => 32
  | .b8 => 64
  | .b2 => 16

/-- R277. -/
def formVperm (gd : Guard) (d : Fin 16) (a : Fin 16) (b : Fin 16) (sz : PermSz) : Form :=
  wForm (.vperm gd d a b sz) d fun s p =>
    let k := permBits sz
    BitVec.ofNat 256 (fromElems k ((List.range (256 / k)).map fun i =>
      elem (rdW s p a.val).toNat k (elem (rdW s p b.val).toNat k i % (256 / k))))
def execVperm (gd : Guard) (d : Fin 16) (a : Fin 16) (b : Fin 16) (sz : PermSz) (s : State) : Host.Outcome State Fault Refusal :=
  run gd (formVperm gd d a b sz) s

end Sys2Proof.Machine
end

