-- ==== Sys2Proof/Machine/Convert.lean ====
section
/-!
DEFINITION. Conversions (spec/10_isa_numbers_and_float.md R278 to R282) and the exact accumulators (R283 to R287).
-/
namespace Sys2Proof.Machine

open Sys2Proof

/-- One converted element (R278): an integer source saturates in an integer destination, and every other value is rounded. -/
def convert (dt st : TyCode) (m : Rm) (draw v : Nat) : Nat :=
  match tyOf dt, tyOf st with
  | .int w sg, .int u su => satInt w sg (if su then sInt u v else (v % 2 ^ u : Nat))
  | t, u => roundT t m draw (decodeT u v)
/-- The g register image of a result (R278, R206). -/
def toG (dt : TyCode) (v : Nat) : Word :=
  match tyOf dt with
  | .int w true => sx w v
  | t => zx t.width v
def rm2 : Rm2 → Rm
  | .rn => .rn
  | .rz => .rz
  | .ru => .ru
  | .rd => .rd

/-- R278. -/
def formCvtScalar (gd : Guard) (d : Fin 32) (a : Fin 32) (dt : TyCode) (st : TyCode) (r : Rm2) : Form :=
  gForm (.cvtScalar gd d a dt st r) (asG d) fun s p =>
    toG dt (convert dt st (rm2 r) 0 ((rdG s p a.val).toNat % 2 ^ (tyOf st).width))
def execCvtScalar (gd : Guard) (d : Fin 32) (a : Fin 32) (dt : TyCode) (st : TyCode) (r : Rm2) (s : State) : Host.Outcome State Fault Refusal :=
  run gd (formCvtScalar gd d a dt st r) s

/-- R278. -/
def formCvtWide (gd : Guard) (d : Fin 16) (a : Fin 16) (dt : TyCode) (st : TyCode) (r : Rm) : Form :=
  wForm (.cvtWide gd d a dt st r) d fun s p =>
    let ws := (tyOf st).width
    let wd := (tyOf dt).width
    BitVec.ofNat 256 (fromElems wd ((List.range (256 / Nat.max ws wd)).map fun i =>
      convert dt st r (drawFor s p i) (elem (rdW s p a.val).toNat ws i)))
def execCvtWide (gd : Guard) (d : Fin 16) (a : Fin 16) (dt : TyCode) (st : TyCode) (r : Rm) (s : State) : Host.Outcome State Fault Refusal :=
  run gd (formCvtWide gd d a dt st r) s

/-- Narrow and wide types of PAIR (R279). -/
def pairTypes (n : Fin 12) : TyCode × TyCode :=
  match n.val with
  | 0 => (.f16, .f32)
  | 1 => (.bf16, .f32)
  | 2 => (.e4m3, .f16)
  | 3 => (.e5m2, .f16)
  | 4 => (.e4m3, .bf16)
  | 5 => (.e5m2, .bf16)
  | 6 => (.e2m1, .e4m3)
  | 7 => (.i8, .i16)
  | 8 => (.i4, .i8)
  | 9 => (.n8, .i16)
  | 10 => (.i16, .i32)
  | _ => (.f32, .f64)
/-- Destination and source types of the PAIR of `scl` (R282). -/
def sclTypes (n : Fin 10) : TyCode × TyCode :=
  match n.val with
  | 0 => (.f32, .e2m1)
  | 1 => (.f32, .e4m3)
  | 2 => (.f32, .e5m2)
  | 3 => (.f16, .e2m1)
  | 4 => (.bf16, .e4m3)
  | 5 => (.e2m1, .f32)
  | 6 => (.e4m3, .f32)
  | 7 => (.e5m2, .f32)
  | 8 => (.e2m1, .f16)
  | _ => (.e4m3, .bf16)
/-- A register of format Z: a g register, or a w register with KS (R279). -/
def rdZ (s : State) (p : Nat) (ks : Bool) (n : Fin 16) : Nat := if ks then (rdW s p n.val).toNat else (rdG s p n.val).toNat
def wrZ (s : State) (p : Nat) (ks : Bool) (n : Fin 16) (v : Nat) : State :=
  if ks then wrW s p n.val (BitVec.ofNat 256 v) else wrG s p n.val (word v)
def zWidth (ks : Bool) : Nat := if ks then 256 else 64
/-- A form of format Z: one token for each lane with w registers (R282). -/
def zForm (i : Instr) (ks : Bool) (d : Fin 16) (v : State → Nat → Nat) : Form :=
  { laneForm i (fun s t p => wrZ t p ks d (v s p)) with price := fun _ ls => if ks then ls.length else 0 }

/-- R280. -/
def formPack (gd : Guard) (d : Fin 16) (a : Fin 16) (b : Fin 16) (pair : Fin 12) (r : Rm) (ks : Bool) : Form :=
  zForm (.pack gd d a b pair r ks) ks d fun s p =>
    let nw := (pairTypes pair).1
    let wd := (pairTypes pair).2
    let k := (tyOf wd).width
    let m := zWidth ks / k
    fromElems (tyOf nw).width ((List.range (2 * m)).map fun j =>
      convert nw wd r (drawFor s p j) (if j < m then elem (rdZ s p ks a) k j else elem (rdZ s p ks b) k (j - m)))
def execPack (gd : Guard) (d : Fin 16) (a : Fin 16) (b : Fin 16) (pair : Fin 12) (r : Rm) (ks : Bool) (s : State) : Host.Outcome State Fault Refusal :=
  run gd (formPack gd d a b pair r ks) s

/-- R281: every widening is exact; pair 9 zero-extends because its narrow type is unsigned. -/
def formUnpk (gd : Guard) (d : Fin 16) (a : Fin 16) (hi : Bool) (pair : Fin 12) (ks : Bool) : Form :=
  zForm (.unpk gd d a hi pair ks) ks d fun s p =>
    let nw := (pairTypes pair).1
    let wd := (pairTypes pair).2
    let m := zWidth ks / (tyOf wd).width
    fromElems (tyOf wd).width ((List.range m).map fun j =>
      convert wd nw .rn 0 (elem (rdZ s p ks a) (tyOf nw).width ((if hi then m else 0) + j)))
def execUnpk (gd : Guard) (d : Fin 16) (a : Fin 16) (hi : Bool) (pair : Fin 12) (ks : Bool) (s : State) : Host.Outcome State Fault Refusal :=
  run gd (formUnpk gd d a hi pair ks) s

/-- Scale by 2^(e − 127), NaN for e = 0xFF (R262, R282). -/
def scaleX (e : Nat) (x : Exact) : Exact :=
  if e = 255 then .nan
  else match x with
    | .num s n d g r => .num s n d (g + (e : Int) - 127) r
    | y => y
/-- The elements that `scl` converts, from index `i`, into a destination image (R282). -/
def sclInto (dt st : TyCode) (m : Rm) (draw : Nat → Nat) (e src q n : Nat) (acc : Nat) : Nat → Nat
  | 0 => acc
  | k + 1 =>
    let ws := (tyOf st).width
    let wd := (tyOf dt).width
    let i := n - (k + 1)
    let v := if wd ≤ ws then elem src ws i else elem src ws (q * n + i)
    let t := if wd ≤ ws then q * n + i else i
    sclInto dt st m draw e src q n (setElem acc wd t (roundT (tyOf dt) m (draw t) (scaleX e (decodeT (tyOf st) v)))) k

/-- R282. -/
def formScl (gd : Guard) (d : Fin 16) (a : Fin 16) (b : Fin 16) (pair : Fin 10) (r : Rm) (ks : Bool) : Form :=
  zForm (.scl gd d a b pair r ks) ks d fun s p =>
    let dt := (sclTypes pair).1
    let st := (sclTypes pair).2
    let ws := (tyOf st).width
    let wd := (tyOf dt).width
    let n := zWidth ks / Nat.max ws wd
    let c := rdZ s p ks b
    let q := field c 8 8 % (zWidth ks / (n * Nat.min ws wd))
    sclInto dt st r (drawFor s p) (c % 256) (rdZ s p ks a) q n (if wd ≤ ws then rdZ s p ks d else 0) n
def execScl (gd : Guard) (d : Fin 16) (a : Fin 16) (b : Fin 16) (pair : Fin 10) (r : Rm) (ks : Bool) (s : State) : Host.Outcome State Fault Refusal :=
  run gd (formScl gd d a b pair r ks) s

/-! ### Exact accumulators -/

/-- The flags that an addend sets (R284). -/
def quantFlags (x : Exact) : BitVec 3 :=
  match x with
  | .nan => xNan
  | .inf neg => if neg then xNinf else xPinf
  | .zero _ => 0#3
  | .num neg n d e r => if 169 ≤ log2Mag n d e r then (if neg then xNinf else xPinf) else 0#3
/-- The quantised addend (R284): the nearest multiple of 2^-150, ties to even. -/
def quantVal (x : Exact) : Int :=
  match x with
  | .num neg n d e r =>
    if 169 ≤ log2Mag n d e r then 0
    else
      let k := floorAt n d e r (-150)
      signedInt neg (if !k.2 && roundsUp .rn 0 neg n d e r (-150) k.1 then k.1 + 1 else k.1)
  | _ => 0
/-- V plus an integer, modulo 2^320. -/
def addX320 (v : X320) (i : Int) : X320 := v + BitVec.ofInt 320 i
/-- The addends of `xadd` in a lane (R285). -/
def addends (s : State) (p : Nat) : XSrc → List Exact
  | .f32 a => [scalarF .f32 (rdReg s p a)]
  | .f64 a => [scalarF .f64 (rdReg s p a)]
  | .f32x8 a => (List.range 8).map fun i => decodeF fp32 (elem (rdW s p a.val).toNat 32 i)
  | .f64x4 a => (List.range 4).map fun i => decodeF fp64 (elem (rdW s p a.val).toNat 64 i)
def putE (s : State) (p n : Nat) (v : X320) (fl : BitVec 3) : State := wrEf (wrE s p n v) p n fl

/-- R285. -/
def formXadd (gd : Guard) (e : Fin 2) (src : XSrc) : Form :=
  { laneForm (.xadd gd e src) (fun s t p =>
      let l := addends s p src
      putE t p e.val (l.foldl (fun v x => addX320 v (quantVal x)) (rdE s p e.val))
        (l.foldl (fun f x => f ||| quantFlags x) (rdEf s p e.val))) with price := fun _ ls => ls.length }
def execXadd (gd : Guard) (e : Fin 2) (src : XSrc) (s : State) : Host.Outcome State Fault Refusal :=
  run gd (formXadd gd e src) s

/-- The exact value of an accumulator (R286). -/
def xValue (v : X320) (fl : BitVec 3) : Exact :=
  if fl.getLsbD 0 ∨ (fl.getLsbD 1 ∧ fl.getLsbD 2) then .nan
  else if fl.getLsbD 1 then .inf false
  else if fl.getLsbD 2 then .inf true
  else if v = 0#320 then .zero false
  else .num (decide (v.toInt < 0)) v.toInt.natAbs 1 (-150) false

/-- R286. -/
def formXget (gd : Guard) (d : GReg) (e : Fin 2) (f64 : Bool) (r : Rm) : Form :=
  gForm (.xget gd d e f64 r) d fun s p =>
    word (roundF (if f64 then fp64 else fp32) r (drawFor s p 0) (xValue (rdE s p e.val) (rdEf s p e.val)))
def execXget (gd : Guard) (d : GReg) (e : Fin 2) (f64 : Bool) (r : Rm) (s : State) : Host.Outcome State Fault Refusal :=
  run gd (formXget gd d e f64 r) s

/-- R287. -/
def formXclr (gd : Guard) (e : Fin 2) : Form := laneForm (.xclr gd e) fun _ t p => putE t p e.val 0#320 0#3
def execXclr (gd : Guard) (e : Fin 2) (s : State) : Host.Outcome State Fault Refusal := run gd (formXclr gd e) s

/-- R287. -/
def formXmrg (gd : Guard) (e : Fin 2) (src : Fin 2) : Form :=
  { laneForm (.xmrg gd e src) (fun s t p =>
      putE t p e.val (rdE s p e.val + rdE s p src.val) (rdEf s p e.val ||| rdEf s p src.val)) with
    price := fun _ ls => ls.length }
def execXmrg (gd : Guard) (e : Fin 2) (src : Fin 2) (s : State) : Host.Outcome State Fault Refusal :=
  run gd (formXmrg gd e src) s

end Sys2Proof.Machine
end

