-- ==== Sys2Proof/Machine/Memory.lean ====
section
/-!
DEFINITION. Loads, stores, gather, scatter, prefetch, uniform loads and the images of the exact accumulators
(spec/12_isa_memory_and_sync.md R317 to R329, spec/10_isa_numbers_and_float.md R288), and the atomics (R330 to R336).
-/
namespace Sys2Proof.Machine

open Sys2Proof

/-- What a form does with each of its accesses: the access, and the act at its home. -/
structure Access where
  ask : Ask
  op : HomeOp

/-- How a memory form behaves: the accesses of a lane, where the values read land, and its order (R150, R158). -/
structure MemSpec where
  accs : State → Nat → List Access
  shape : State → Nat → Shape := fun _ _ => .none
  acq : Option Scope := none
  rel : Option Scope := none
  /-- performed at the home whatever its order: a DEV form or an atomic (R323, R330) -/
  atHome : Bool := false
  /-- a DEV form (R323): it counts no request (R122) -/
  dev : Bool := false
  isRead : Bool := false
  atomic : Bool := false
  access : Nat := 2
  /-- the acting lanes that make accesses: all, or the lowest (R329) -/
  who : State → List Nat → List Nat := fun _ l => l

def MemSpec.asks (m : MemSpec) (s : State) (p : Nat) : List Ask := (m.accs s p).map (·.ask)
/-- Lanes that make no access ask for none. -/
def MemSpec.asksOf (m : MemSpec) (s : State) (ls : List Nat) (p : Nat) : List Ask :=
  if (m.who s ls).contains p then m.asks s p else []
def MemSpec.parts (m : MemSpec) (s : State) (p : Nat) : List Part :=
  (m.accs s p).map fun a => { tgt := targetOf s p a.ask, va := a.ask.va, op := a.op, val := none, blk := blockTag s (targetOf s p a.ask) }

/-- Order bits of the flits of a form (R407). -/
def MemSpec.ord (m : MemSpec) : Nat :=
  match m.acq, m.rel with
  | some a, some _ => ordBits 3 (some a)
  | some a, none => ordBits 1 (some a)
  | none, r => ordBits 2 r

/-- A relaxed access of a cell-scope order may use the L1 (R158). -/
def MemSpec.relaxed (m : MemSpec) : Bool :=
  !m.atHome && !(match m.acq with | some x => wide x | none => false) && !(match m.rel with | some x => wide x | none => false)

/-- Later events of the strand wait for an acquire that is still to be performed (R151). -/
def noteAcq (s : State) (p id : Nat) (o : Option Scope) : State :=
  match o with
  | none => s
  | some _ =>
    if (unperformed s p).contains id then modStr s p (fun t => { t with fenceAny := id :: stillFlying s t.fenceAny }) else s

/-- The work of one lane of a form: what it will do and where its values land. `first` is the number of the first work of its
bundle. -/
def memPend (m : MemSpec) (src u : State) (first p : Nat) : Pend := {
  pos := p, first := first, regs := shapeRegs (m.shape src p) p, shape := m.shape src p, parts := m.parts src p
  relaxed := m.relaxed, dev := m.dev, ord := m.ord, acq := m.acq, isRead := m.isRead, atomic := m.atomic, access := m.access
  req := requesterOf u p, due := 0 }
/-- The accesses of one lane of a form that issues. -/
def memLane (m : MemSpec) (src u : State) (p : Nat) : State :=
  noteAcq (startWork u (memPend m src u src.fresh p)) p u.fresh m.acq

/-! ### Banks (R105 to R107) -/

/-- The rows that an act touches, each with its cell and bank (R105, R106). -/
def rowsOf (s : State) (pos : Nat) (relaxed : Bool) (q : Part) : List (Nat × Nat × Nat) :=
  let span := fun a => (List.range ((a + opBytes q.op - 1) / 32 + 1 - a / 32)).map (a / 32 + ·)
  match q.tgt with
  | .scr cell off => (span off).map fun x => (cell, x % 64, x / 64)
  | .home loc _ =>
    if relaxed then
      (span loc).map fun x =>
        (cellOf pos, if (s.cell (cellOf pos)).bank then x % 64 else 4 * pipeOf pos + x % 4, 2 ^ 20 + x)
    else []
  | .remote _ _ => []
  | .dev _ => []
def dedupR : List (Nat × Nat × Nat) → List (Nat × Nat × Nat)
  | [] => []
  | x :: r => if r.contains x then dedupR r else x :: dedupR r
/-- An access occupies one bank for a cycle a row, behind what the bank serves already; with the cycles by which its data lands later
(R107). -/
def occupyOne (rows : List (Nat × Nat × Nat)) (x : State × Nat) (b : Nat × Nat) : State × Nat :=
  let cell := x.1.cell b.1
  let now := cyc x.1 b.1
  let start := Nat.max now (tget 0 cell.bankBusy b.2)
  let n := rows.countP (fun r => decide ((r.1, r.2.1) = b))
  (putCell x.1 b.1 { cell with bankBusy := tset cell.bankBusy b.2 (start + n) }, Nat.max x.2 (start - now + n - 1))
/-- The banks that an access occupies.
(DEDUCED: notes/assumptions/37.md) -/
def occupy (s : State) (rows : List (Nat × Nat × Nat)) : State × Nat :=
  (dedupN ((dedupR rows).map (fun r => (r.1, r.2.1)))).foldl (occupyOne (dedupR rows)) (s, 0)
/-- The data of the work from number n on lands later. -/
def delayFrom (s : State) (n late : Nat) : State :=
  if late = 0 then s else s.setPend (s.pend.map (fun e => if n ≤ e.1 then (e.1, { e.2 with late := late }) else e))

/-- A memory form: its checks in the order of R319, its L1 action (R158), and its lanes' accesses in lane order (R149). -/
def memForm (i : Instr) (m : MemSpec) : Form := {
  instr := i
  access := fun s ls => accessStage s ls (m.asksOf s ls)
  room := fun s ls => roomStage s ls (m.asksOf s ls)
  act := fun src t ls =>
    if ls.isEmpty then t
    else
      let c := curCell src
      let t1 := acqL1 (relL1 (if m.dev then t else countAsks src t ls (m.asksOf src ls)) c m.rel) c m.acq
      let x := occupy t1 ((m.who src ls).flatMap (fun p => (m.parts src p).flatMap (rowsOf src p m.relaxed)))
      delayFrom ((m.who src ls).foldl (memLane m src) x.1) t1.fresh x.2 }

/-! ### Addresses (R317) -/

def baseOff (s : State) (p : Nat) (a : GReg) (off : Int) (size : Nat) : Word := rdReg s p a + BitVec.ofInt 64 (off * size)
def askV (va : Word) (n : Nat) (k : Acc) : Ask := { va := va, n := n, al := n, kind := k }
def askS (va : Word) (n : Nat) (k : Acc) : Ask := { va := va, n := n, al := n, kind := k, scr := true }
/-- The low n bytes of a register. -/
def lowBytes (v : Word) (n : Nat) : Nat := v.toNat % 2 ^ (8 * n)

/-! ### Loads and stores (R321 to R325) -/

def loadSpec (d : GReg) (sgn : Bool) (z : Size) (ask : State → Nat → Ask) : MemSpec := {
  accs := fun s p => [{ ask := ask s p, op := .read z.bytes }]
  shape := fun _ _ => .g d (8 * z.bytes) sgn
  isRead := true }
def storeSpec (b : GReg) (z : Size) (ask : State → Nat → Ask) : MemSpec := {
  accs := fun s p => [{ ask := ask s p, op := .write z.bytes (lowBytes (rdReg s p b) z.bytes) }]
  access := 3 }
def loadWSpec (w : Fin 16) (ask : State → Nat → Ask) : MemSpec := {
  accs := fun s p => [{ ask := ask s p, op := .read 32 }]
  shape := fun _ _ => .w w.val 32
  isRead := true }
def storeWSpec (w : Fin 16) (ask : State → Nat → Ask) : MemSpec := {
  accs := fun s p => [{ ask := ask s p, op := .write 32 (rdW s p w.val).toNat }]
  access := 3 }

/-- R321. -/
def formLd (gd : Guard) (d : GReg) (a : GReg) (sgn : Bool) (off : BitVec 5) (z : Size) : Form :=
  memForm (.ld gd d a sgn off z) (loadSpec d sgn z (fun s p => askV (baseOff s p a off.toInt z.bytes) z.bytes .load))
def execLd (gd : Guard) (d : GReg) (a : GReg) (sgn : Bool) (off : BitVec 5) (z : Size) (s : State) : Host.Outcome State Fault Refusal :=
  run gd (formLd gd d a sgn off z) s

/-- R322. -/
def formLdAcq (gd : Guard) (d : GReg) (a : GReg) (sc : Scope) (sgn : Bool) (z : Size) : Form :=
  memForm (.ldAcq gd d a sc sgn z) { loadSpec d sgn z (fun s p => askV (rdReg s p a) z.bytes .load) with acq := some sc }
def execLdAcq (gd : Guard) (d : GReg) (a : GReg) (sc : Scope) (sgn : Bool) (z : Size) (s : State) : Host.Outcome State Fault Refusal :=
  run gd (formLdAcq gd d a sc sgn z) s

/-- R323. -/
def formLdDev (gd : Guard) (d : GReg) (a : GReg) (acq : Option Scope) (sgn : Bool) (z : Size) : Form :=
  memForm (.ldDev gd d a acq sgn z)
    { loadSpec d sgn z (fun s p => askV (rdReg s p a) z.bytes .devLoad) with acq := acq, atHome := true, dev := true }
def execLdDev (gd : Guard) (d : GReg) (a : GReg) (acq : Option Scope) (sgn : Bool) (z : Size) (s : State) : Host.Outcome State Fault Refusal :=
  run gd (formLdDev gd d a acq sgn z) s

/-- R321. -/
def formSt (gd : Guard) (off : BitVec 6) (a : GReg) (b : GReg) (z : Size) : Form :=
  memForm (.st gd off a b z) (storeSpec b z (fun s p => askV (baseOff s p a off.toInt z.bytes) z.bytes .store))
def execSt (gd : Guard) (off : BitVec 6) (a : GReg) (b : GReg) (z : Size) (s : State) : Host.Outcome State Fault Refusal :=
  run gd (formSt gd off a b z) s

/-- R322. -/
def formStRel (gd : Guard) (sc : Scope) (a : GReg) (b : GReg) (z : Size) : Form :=
  memForm (.stRel gd sc a b z) { storeSpec b z (fun s p => askV (rdReg s p a) z.bytes .store) with rel := some sc }
def execStRel (gd : Guard) (sc : Scope) (a : GReg) (b : GReg) (z : Size) (s : State) : Host.Outcome State Fault Refusal :=
  run gd (formStRel gd sc a b z) s

/-- R323. -/
def formStDev (gd : Guard) (rel : Option Scope) (a : GReg) (b : GReg) (z : Size) : Form :=
  memForm (.stDev gd rel a b z)
    { storeSpec b z (fun s p => askV (rdReg s p a) z.bytes .devStore) with rel := rel, atHome := true, dev := true }
def execStDev (gd : Guard) (rel : Option Scope) (a : GReg) (b : GReg) (z : Size) (s : State) : Host.Outcome State Fault Refusal :=
  run gd (formStDev gd rel a b z) s

/-- R324. -/
def formLdw (gd : Guard) (w : Fin 16) (a : GReg) (off : BitVec 6) : Form :=
  memForm (.ldw gd w a off) (loadWSpec w (fun s p => askV (baseOff s p a off.toInt 32) 32 .load))
def execLdw (gd : Guard) (w : Fin 16) (a : GReg) (off : BitVec 6) (s : State) : Host.Outcome State Fault Refusal :=
  run gd (formLdw gd w a off) s

/-- R324. -/
def formStw (gd : Guard) (w : Fin 16) (a : GReg) (off : BitVec 6) : Form :=
  memForm (.stw gd w a off) (storeWSpec w (fun s p => askV (baseOff s p a off.toInt 32) 32 .store))
def execStw (gd : Guard) (w : Fin 16) (a : GReg) (off : BitVec 6) (s : State) : Host.Outcome State Fault Refusal :=
  run gd (formStw gd w a off) s

/-- R324. -/
def formLdwAcq (gd : Guard) (w : Fin 16) (a : GReg) (sc : Scope) : Form :=
  memForm (.ldwAcq gd w a sc) { loadWSpec w (fun s p => askV (rdReg s p a) 32 .load) with acq := some sc }
def execLdwAcq (gd : Guard) (w : Fin 16) (a : GReg) (sc : Scope) (s : State) : Host.Outcome State Fault Refusal :=
  run gd (formLdwAcq gd w a sc) s

/-- R324. -/
def formStwRel (gd : Guard) (w : Fin 16) (a : GReg) (sc : Scope) : Form :=
  memForm (.stwRel gd w a sc) { storeWSpec w (fun s p => askV (rdReg s p a) 32 .store) with rel := some sc }
def execStwRel (gd : Guard) (w : Fin 16) (a : GReg) (sc : Scope) (s : State) : Host.Outcome State Fault Refusal :=
  run gd (formStwRel gd w a sc) s

/-- R321. -/
def formLds (gd : Guard) (d : GReg) (a : GReg) (sgn : Bool) (off : BitVec 5) (z : Size) : Form :=
  memForm (.lds gd d a sgn off z) (loadSpec d sgn z (fun s p => askS (baseOff s p a off.toInt z.bytes) z.bytes .load))
def execLds (gd : Guard) (d : GReg) (a : GReg) (sgn : Bool) (off : BitVec 5) (z : Size) (s : State) : Host.Outcome State Fault Refusal :=
  run gd (formLds gd d a sgn off z) s

/-- R321. -/
def formSts (gd : Guard) (off : BitVec 6) (a : GReg) (b : GReg) (z : Size) : Form :=
  memForm (.sts gd off a b z) (storeSpec b z (fun s p => askS (baseOff s p a off.toInt z.bytes) z.bytes .store))
def execSts (gd : Guard) (off : BitVec 6) (a : GReg) (b : GReg) (z : Size) (s : State) : Host.Outcome State Fault Refusal :=
  run gd (formSts gd off a b z) s

/-- R325. -/
def formLdsAcq (gd : Guard) (d : GReg) (a : GReg) (sc : Scope) (sgn : Bool) (z : Size) : Form :=
  memForm (.ldsAcq gd d a sc sgn z) { loadSpec d sgn z (fun s p => askS (rdReg s p a) z.bytes .load) with acq := some sc }
def execLdsAcq (gd : Guard) (d : GReg) (a : GReg) (sc : Scope) (sgn : Bool) (z : Size) (s : State) : Host.Outcome State Fault Refusal :=
  run gd (formLdsAcq gd d a sc sgn z) s

/-- R325: D holds the data. -/
def formStsRel (gd : Guard) (d : GReg) (a : GReg) (sc : Scope) (z : Size) : Form :=
  memForm (.stsRel gd d a sc z) { storeSpec d z (fun s p => askS (rdReg s p a) z.bytes .store) with rel := some sc }
def execStsRel (gd : Guard) (d : GReg) (a : GReg) (sc : Scope) (z : Size) (s : State) : Host.Outcome State Fault Refusal :=
  run gd (formStsRel gd d a sc z) s

/-- R324. -/
def formLdsw (gd : Guard) (w : Fin 16) (a : GReg) (off : BitVec 6) : Form :=
  memForm (.ldsw gd w a off) (loadWSpec w (fun s p => askS (baseOff s p a off.toInt 32) 32 .load))
def execLdsw (gd : Guard) (w : Fin 16) (a : GReg) (off : BitVec 6) (s : State) : Host.Outcome State Fault Refusal :=
  run gd (formLdsw gd w a off) s

/-- R324. -/
def formStsw (gd : Guard) (w : Fin 16) (a : GReg) (off : BitVec 6) : Form :=
  memForm (.stsw gd w a off) (storeWSpec w (fun s p => askS (baseOff s p a off.toInt 32) 32 .store))
def execStsw (gd : Guard) (w : Fin 16) (a : GReg) (off : BitVec 6) (s : State) : Host.Outcome State Fault Refusal :=
  run gd (formStsw gd w a off) s

/-- R324. -/
def formLdswAcq (gd : Guard) (w : Fin 16) (a : GReg) (sc : Scope) : Form :=
  memForm (.ldswAcq gd w a sc) { loadWSpec w (fun s p => askS (rdReg s p a) 32 .load) with acq := some sc }
def execLdswAcq (gd : Guard) (w : Fin 16) (a : GReg) (sc : Scope) (s : State) : Host.Outcome State Fault Refusal :=
  run gd (formLdswAcq gd w a sc) s

/-- R324. -/
def formStswRel (gd : Guard) (w : Fin 16) (a : GReg) (sc : Scope) : Form :=
  memForm (.stswRel gd w a sc) { storeWSpec w (fun s p => askS (rdReg s p a) 32 .store) with rel := some sc }
def execStswRel (gd : Guard) (w : Fin 16) (a : GReg) (sc : Scope) (s : State) : Host.Outcome State Fault Refusal :=
  run gd (formStswRel gd w a sc) s

/-! ### Gather and scatter (R326, R327) -/

def idxSize (e8 : Bool) : Nat := if e8 then 8 else 4
/-- a(i) of R327. -/
def idxAddr (s : State) (p : Nat) (a : GReg) (x : Fin 16) (e8 : Bool) (i : Nat) : Word :=
  let z := idxSize e8
  rdReg s p a + BitVec.ofInt 64 (sInt (8 * z) (elem (rdW s p x.val).toNat (8 * z) i) * z)
def idxList (e8 : Bool) : List Nat := List.range (32 / idxSize e8)

/-- R327. -/
def formGat (gd : Guard) (ord : Option Scope) (w : Fin 16) (a : GReg) (x : Fin 16) (e8 : Bool) : Form :=
  memForm (.gat gd ord w a x e8) {
    accs := fun s p => (idxList e8).map fun i =>
      { ask := askV (idxAddr s p a x e8 i) (idxSize e8) .load, op := .read (idxSize e8) }
    shape := fun _ _ => .w w.val (idxSize e8)
    acq := ord
    isRead := true }
def execGat (gd : Guard) (ord : Option Scope) (w : Fin 16) (a : GReg) (x : Fin 16) (e8 : Bool) (s : State) : Host.Outcome State Fault Refusal :=
  run gd (formGat gd ord w a x e8) s

/-- R327: writes to one location take their places by lane and element. -/
def formScat (gd : Guard) (ord : Option Scope) (w : Fin 16) (a : GReg) (x : Fin 16) (e8 : Bool) : Form :=
  memForm (.scat gd ord w a x e8) {
    accs := fun s p => (idxList e8).map fun i => {
      ask := askV (idxAddr s p a x e8 i) (idxSize e8) .store
      op := .write (idxSize e8) (elem (rdW s p w.val).toNat (8 * idxSize e8) i) }
    rel := ord
    access := 3 }
def execScat (gd : Guard) (ord : Option Scope) (w : Fin 16) (a : GReg) (x : Fin 16) (e8 : Bool) (s : State) : Host.Outcome State Fault Refusal :=
  run gd (formScat gd ord w a x e8) s

/-! ### Prefetch and uniform loads (R328, R329) -/

/-- The target of an address for a form that neither parks nor faults: its walk is made at once, and an entry enters the
TLB (R328, R382). None where the address is refused or lies in a window.
(DESIGN CHOICE: notes/assumptions/31.md) -/
def quietTarget (s : State) (c : Nat) (sup : Bool) (ok : TlbEnt → Bool) (va : Word) : State × Option Target :=
  if !canonical va ∨ window va ≠ .no then (s, none)
  else
    let judge := fun (e : TlbEnt) =>
      if ok e && (sup || !e.sup) && (match e.chunk with | some b => b.getLsbD (field va.toNat 10 6) | none => true) then
        (match placeTarget s e.place (e.base + (va.toNat - e.va)) with | .inl t => some t | .inr _ => none)
      else none
    match tlbFind (s.cell c).tlb (asidIn s c) va.toNat with
    | some e => (s, judge e)
    | none =>
      match walkAll s (dieOf c) c (s.cell c) (asidIn s c) va.toNat with
      | .inr _ => (s, none)
      | .inl e =>
        (if invalOpen s (asidIn s c) va.toNat then s else putCell s c { s.cell c with tlb := tlbAdd (s.cell c).tlb e }, judge e)

/-- Fill one sector into the L1 for a position (R160, R328). A fill that a banking switch holds is made at its end (R109). -/
def prefetchAt (s : State) (p : Nat) (va : Word) (t : Option Target) : State :=
  let c := cellOf p
  match t with
  | some (.home loc die) =>
    if (badAt s (loc / 32 * 32)).isSome ∨ crossed s (dieOf c) die c loc ∨ l1Hit s c (pipeOf p) (loc / 32 * 32) 32 then s
    else if l1Held s c then
      startWork s {
        pos := p, first := s.fresh, regs := [], relaxed := true, req := requesterOf s p, due := 0
        parts := [{ tgt := .home (loc / 32 * 32) die, va := va, op := .read 32, val := none }] }
    else l1Fill s c (pipeOf p) (loc / 32)
  | some (.remote pkg pa) =>
    if (tfind (s.cell c).l1 (farKey pkg pa)).isSome then s
    else ((newRequest s (fromCell c) pkg (planeOf pa) 1 0 (keyIn s c) (pa / 32 * 32) 0#256 (BitVec.allOnes 32)
      (.fill c (farKey pkg pa))).getD s)
  | _ => s

def prefetch (sup : Bool) (p : Nat) (s : State) (va : Word) : State :=
  let (t, o) := quietTarget s (cellOf p) sup (fun e => e.rd && !e.dev) va
  prefetchAt t p va o

/-- First addresses of the sectors of [a, a + n). -/
def sectorList (a : Word) (n : Nat) : List Word :=
  if n = 0 then [] else
    (List.range ((a.toNat % 32 + n - 1) / 32 + 1)).map fun i => a - word (a.toNat % 32) + word (32 * i)

/-- R328. -/
def formPf (gd : Guard) (a : GReg) (b : GReg) : Form :=
  laneForm (.pf gd a b) fun s t p =>
    (sectorList (rdReg s p a) (Nat.min (rdReg s p b).toNat 4096)).foldl (prefetch s.cur.sup p) t
def execPf (gd : Guard) (a : GReg) (b : GReg) (s : State) : Host.Outcome State Fault Refusal :=
  run gd (formPf gd a b) s

/-- The one read of a uniform load, made by the lowest acting lane (R329). -/
def ldkSpec (k : Fin 16) (va : State → Nat → Word) : MemSpec := {
  accs := fun s p => [{ ask := askV (va s p) 8 .load, op := .read 8 }]
  shape := fun s _ => .k s.cur.leader k.val
  isRead := true
  who := fun s ls => if ls.isEmpty then [] else [lowestOf s ls] }

/-- R329. -/
def formLdk (gd : Guard) (k : Fin 16) (a : GReg) (off : BitVec 6) : Form :=
  memForm (.ldk gd k a off) (ldkSpec k (fun s p => baseOff s p a off.toInt 8))
def execLdk (gd : Guard) (k : Fin 16) (a : GReg) (off : BitVec 6) (s : State) : Host.Outcome State Fault Refusal :=
  run gd (formLdk gd k a off) s

/-- R329. -/
def formLdkAcq (gd : Guard) (k : Fin 16) (a : GReg) (sc : Scope) : Form :=
  memForm (.ldkAcq gd k a sc) { ldkSpec k (fun s p => rdReg s p a) with acq := some sc }
def execLdkAcq (gd : Guard) (k : Fin 16) (a : GReg) (sc : Scope) (s : State) : Host.Outcome State Fault Refusal :=
  run gd (formLdkAcq gd k a sc) s

/-! ### Images of exact accumulators (R283, R288) -/

def xAsk (va : Word) (i : Nat) (k : Acc) : Ask := { va := va + word (8 * i), n := 8, al := 8, kind := k }
def xldSpec (e : Fin 2) (va : State → Nat → Word) : MemSpec := {
  accs := fun s p => (List.range 6).map fun i => { ask := xAsk (va s p) i .load, op := .read 8 }
  shape := fun _ _ => .e e.val
  isRead := true }
def xstSpec (e : Fin 2) (va : State → Nat → Word) : MemSpec := {
  accs := fun s p => (List.range 6).map fun i =>
    { ask := xAsk (va s p) i .store, op := .write 8 (xDword (rdE s p e.val) (rdEf s p e.val) i) }
  access := 3 }

/-- R288. -/
def formXld (gd : Guard) (e : Fin 2) (a : GReg) (off : BitVec 6) : Form :=
  memForm (.xld gd e a off) (xldSpec e (fun s p => baseOff s p a off.toInt 8))
def execXld (gd : Guard) (e : Fin 2) (a : GReg) (off : BitVec 6) (s : State) : Host.Outcome State Fault Refusal :=
  run gd (formXld gd e a off) s

/-- R288. -/
def formXldAcq (gd : Guard) (e : Fin 2) (a : GReg) (sc : Scope) : Form :=
  memForm (.xldAcq gd e a sc) { xldSpec e (fun s p => rdReg s p a) with acq := some sc }
def execXldAcq (gd : Guard) (e : Fin 2) (a : GReg) (sc : Scope) (s : State) : Host.Outcome State Fault Refusal :=
  run gd (formXldAcq gd e a sc) s

/-- R288. -/
def formXst (gd : Guard) (e : Fin 2) (a : GReg) (off : BitVec 6) : Form :=
  memForm (.xst gd e a off) (xstSpec e (fun s p => baseOff s p a off.toInt 8))
def execXst (gd : Guard) (e : Fin 2) (a : GReg) (off : BitVec 6) (s : State) : Host.Outcome State Fault Refusal :=
  run gd (formXst gd e a off) s

/-- R288. -/
def formXstRel (gd : Guard) (e : Fin 2) (a : GReg) (sc : Scope) : Form :=
  memForm (.xstRel gd e a sc) { xstSpec e (fun s p => rdReg s p a) with rel := some sc }
def execXstRel (gd : Guard) (e : Fin 2) (a : GReg) (sc : Scope) (s : State) : Host.Outcome State Fault Refusal :=
  run gd (formXstRel gd e a sc) s

/-! ### Atomics (R330 to R336) -/

def acqOf : AOrd → Option Scope
  | .acq sc => some sc
  | .ar sc => some sc
  | _ => none
def relOf : AOrd → Option Scope
  | .rel sc => some sc
  | .ar sc => some sc
  | _ => none

/-- An atomic: one read-modify-write at the home, its address aligned to `al` (R318, R330). -/
def amoSpec (o : AOrd) (a : GReg) (al : Nat) (op : State → Nat → HomeOp) (sh : Shape) : MemSpec := {
  accs := fun s p => [{
    ask := { va := rdReg s p a, n := opBytes (op s p), al := al, kind := .atomic }
    op := op s p }]
  shape := fun _ _ => sh
  acq := acqOf o
  rel := relOf o
  atHome := true
  isRead := true
  atomic := true
  access := 4 }

/-- A single-word atomic with its operand and its result in D (R331). -/
def amoForm (i : Instr) (op : AmoOp) (d a : GReg) (w64 : Bool) (o : AOrd) (sgn : Bool) : Form :=
  let n := if w64 then 8 else 4
  memForm i (amoSpec o a n (fun s p => .amo op w64 (lowBytes (rdReg s p d) n) 0) (.g d (8 * n) sgn))

/-- R331. -/
def formAmoAdd (gd : Guard) (d : GReg) (a : GReg) (w64 : Bool) (o : AOrd) : Form :=
  amoForm (.amoAdd gd d a w64 o) .add d a w64 o false
def execAmoAdd (gd : Guard) (d : GReg) (a : GReg) (w64 : Bool) (o : AOrd) (s : State) : Host.Outcome State Fault Refusal :=
  run gd (formAmoAdd gd d a w64 o) s

/-- R331. -/
def formAmoAnd (gd : Guard) (d : GReg) (a : GReg) (w64 : Bool) (o : AOrd) : Form :=
  amoForm (.amoAnd gd d a w64 o) .and d a w64 o false
def execAmoAnd (gd : Guard) (d : GReg) (a : GReg) (w64 : Bool) (o : AOrd) (s : State) : Host.Outcome State Fault Refusal :=
  run gd (formAmoAnd gd d a w64 o) s

/-- R331. -/
def formAmoOr (gd : Guard) (d : GReg) (a : GReg) (w64 : Bool) (o : AOrd) : Form :=
  amoForm (.amoOr gd d a w64 o) .or d a w64 o false
def execAmoOr (gd : Guard) (d : GReg) (a : GReg) (w64 : Bool) (o : AOrd) (s : State) : Host.Outcome State Fault Refusal :=
  run gd (formAmoOr gd d a w64 o) s

/-- R331. -/
def formAmoXor (gd : Guard) (d : GReg) (a : GReg) (w64 : Bool) (o : AOrd) : Form :=
  amoForm (.amoXor gd d a w64 o) .xor d a w64 o false
def execAmoXor (gd : Guard) (d : GReg) (a : GReg) (w64 : Bool) (o : AOrd) (s : State) : Host.Outcome State Fault Refusal :=
  run gd (formAmoXor gd d a w64 o) s

/-- R331. -/
def formAmoMinI (gd : Guard) (d : GReg) (a : GReg) (w64 : Bool) (o : AOrd) : Form :=
  amoForm (.amoMinI gd d a w64 o) .minI d a w64 o true
def execAmoMinI (gd : Guard) (d : GReg) (a : GReg) (w64 : Bool) (o : AOrd) (s : State) : Host.Outcome State Fault Refusal :=
  run gd (formAmoMinI gd d a w64 o) s

/-- R331. -/
def formAmoMinN (gd : Guard) (d : GReg) (a : GReg) (w64 : Bool) (o : AOrd) : Form :=
  amoForm (.amoMinN gd d a w64 o) .minN d a w64 o false
def execAmoMinN (gd : Guard) (d : GReg) (a : GReg) (w64 : Bool) (o : AOrd) (s : State) : Host.Outcome State Fault Refusal :=
  run gd (formAmoMinN gd d a w64 o) s

/-- R331. -/
def formAmoMaxI (gd : Guard) (d : GReg) (a : GReg) (w64 : Bool) (o : AOrd) : Form :=
  amoForm (.amoMaxI gd d a w64 o) .maxI d a w64 o true
def execAmoMaxI (gd : Guard) (d : GReg) (a : GReg) (w64 : Bool) (o : AOrd) (s : State) : Host.Outcome State Fault Refusal :=
  run gd (formAmoMaxI gd d a w64 o) s

/-- R331. -/
def formAmoMaxN (gd : Guard) (d : GReg) (a : GReg) (w64 : Bool) (o : AOrd) : Form :=
  amoForm (.amoMaxN gd d a w64 o) .maxN d a w64 o false
def execAmoMaxN (gd : Guard) (d : GReg) (a : GReg) (w64 : Bool) (o : AOrd) (s : State) : Host.Outcome State Fault Refusal :=
  run gd (formAmoMaxN gd d a w64 o) s

/-- R331. -/
def formAmoSwap (gd : Guard) (d : GReg) (a : GReg) (w64 : Bool) (o : AOrd) : Form :=
  amoForm (.amoSwap gd d a w64 o) .swap d a w64 o false
def execAmoSwap (gd : Guard) (d : GReg) (a : GReg) (w64 : Bool) (o : AOrd) (s : State) : Host.Outcome State Fault Refusal :=
  run gd (formAmoSwap gd d a w64 o) s

/-- R331. -/
def formAmoPmin (gd : Guard) (d : GReg) (a : GReg) (o : AOrd) : Form :=
  amoForm (.amoPmin gd d a o) .pmin d a true o false
def execAmoPmin (gd : Guard) (d : GReg) (a : GReg) (o : AOrd) (s : State) : Host.Outcome State Fault Refusal :=
  run gd (formAmoPmin gd d a o) s

/-- R333. -/
def formCas (gd : Guard) (d : GReg) (a : GReg) (w64 : Bool) (o : AOrd) : Form :=
  let n := if w64 then 8 else 4
  memForm (.cas gd d a w64 o) (amoSpec o a n
    (fun s p => .amo .cas w64 (lowBytes (rdReg s p d) n) (lowBytes (rdReg s p { d with num := d.num + 1 }) n)) (.g d (8 * n) false))
def execCas (gd : Guard) (d : GReg) (a : GReg) (w64 : Bool) (o : AOrd) (s : State) : Host.Outcome State Fault Refusal :=
  run gd (formCas gd d a w64 o) s

/-- Sixteen bytes held in a register and the next one. -/
def pair16 (s : State) (p : Nat) (r : GReg) : Nat :=
  (rdReg s p r).toNat + (rdReg s p { r with num := r.num + 1 }).toNat * 2 ^ 64

/-- R334. -/
def formCas2 (gd : Guard) (d : GReg) (a : GReg) (o : AOrd) : Form :=
  memForm (.cas2 gd d a o) (amoSpec o a 16
    (fun s p => .amo .cas2 true (pair16 s p d) (pair16 s p { d with num := d.num + 2 })) (.two d))
def execCas2 (gd : Guard) (d : GReg) (a : GReg) (o : AOrd) (s : State) : Host.Outcome State Fault Refusal :=
  run gd (formCas2 gd d a o) s

/-- R335. -/
def formAmofF32 (gd : Guard) (d : GReg) (a : GReg) (o : AOrd) : Form :=
  memForm (.amofF32 gd d a o) (amoSpec o a 4 (fun s p => .amo .fF32 false (lowBytes (rdReg s p d) 4) 0) (.g d 32 false))
def execAmofF32 (gd : Guard) (d : GReg) (a : GReg) (o : AOrd) (s : State) : Host.Outcome State Fault Refusal :=
  run gd (formAmofF32 gd d a o) s

/-- R335. -/
def formAmofF64 (gd : Guard) (d : GReg) (a : GReg) (o : AOrd) : Form :=
  memForm (.amofF64 gd d a o) (amoSpec o a 8 (fun s p => .amo .fF64 true (rdReg s p d).toNat 0) (.g d 64 false))
def execAmofF64 (gd : Guard) (d : GReg) (a : GReg) (o : AOrd) (s : State) : Host.Outcome State Fault Refusal :=
  run gd (formAmofF64 gd d a o) s

/-- The addend of an `amox` (R336). -/
def amoxAddend (f : FTy) (s : State) (p : Nat) (d : GReg) : Exact := scalarF f (rdReg s p d)
/-- The status of an addend (R336). -/
def amoxStatus (x : Exact) : Nat :=
  let f := quantFlags x
  if f.getLsbD 0 then 1 else if f.getLsbD 1 then 2 else if f.getLsbD 2 then 3 else 0
/-- An addition to an X320 value in memory; a non-finite addend makes a read alone (R336). -/
def amoxForm (i : Instr) (f : FTy) (op : AmoOp) (d a : GReg) (o : AOrd) : Form :=
  memForm i { amoSpec o a 64 (fun s p =>
      let x := amoxAddend f s p d
      if amoxStatus x = 0 then .amo op false (quantVal x % (2 ^ 320 : Nat)).toNat (rdReg s p d).toNat else .read 40) .none with
    shape := fun s p => .status d (amoxStatus (amoxAddend f s p d)) }

/-- R336. -/
def formAmoxF32 (gd : Guard) (d : GReg) (a : GReg) (o : AOrd) : Form := amoxForm (.amoxF32 gd d a o) .f32 .xF32 d a o
def execAmoxF32 (gd : Guard) (d : GReg) (a : GReg) (o : AOrd) (s : State) : Host.Outcome State Fault Refusal :=
  run gd (formAmoxF32 gd d a o) s

/-- R336. -/
def formAmoxF64 (gd : Guard) (d : GReg) (a : GReg) (o : AOrd) : Form := amoxForm (.amoxF64 gd d a o) .f64 .xF64 d a o
def execAmoxF64 (gd : Guard) (d : GReg) (a : GReg) (o : AOrd) (s : State) : Host.Outcome State Fault Refusal :=
  run gd (formAmoxF64 gd d a o) s

end Sys2Proof.Machine
end

