-- ==== Sys2Proof/Machine/Sync.lean ====
section
/-!
DEFINITION. Fences and `wait` (spec/12_isa_memory_and_sync.md R337 to R340), transaction barriers, block barriers,
subscriptions, messages and `tokq` (spec/13_isa_async_and_system.md R360 to R376).
-/
namespace Sys2Proof.Machine

open Sys2Proof

/-- The lanes of the issuer wait, with their bundle issued, until what their form started is done (R386). -/
def parkDone (src t : State) (w : Nat → WaitFor) : State :=
  src.cur.lanes.foldl (fun u p => modStr u p (fun x => { parkOne u.time .data (w p) x with nba := src.cur.nba })) t

/-! ### Fences (R337) -/

/-- Numbers of the work of a strand that has not landed: its memory reads, or every event of it. -/
def earlierReads (s : State) (p : Nat) : List Nat :=
  tkeys (s.pend.filter fun e => decide (e.2.pos = p) && (e.2.isRead || e.2.atomic))
def earlierAll (s : State) (p : Nat) : List Nat :=
  tkeys (s.pend.filter fun e => decide (e.2.pos = p) && (e.2.isRead || e.2.atomic || e.2.parts.any (fun q => q.val.isNone)))
    ++ tkeys (s.stores.filter fun e => decide (e.2.pos = p) && storeLeft s e.2)

/-- The reads of some lanes that are still to be performed become acquires: once each is performed, the L1 drops its clean sectors
(R151, R158, R337). -/
def markAcq (s : State) (sc : Scope) (ids : List Nat) : State :=
  s.setPend (s.pend.map fun e =>
    if ids.contains e.1 && e.2.parts.any (fun q => q.val.isNone) then (e.1, { e.2 with acq := wider e.2.acq sc }) else e)
/-- What a fence leaves on the later bundles of one strand. -/
def noteFence (any wr : List Nat) (t : Strand) : Strand := { t with fenceAny := t.fenceAny ++ any, fenceWr := t.fenceWr ++ wr }
/-- A fence: the L1 actions of its kinds, then what later events of each acting lane wait for. -/
def fenceForm (i : Instr) (sc : Scope) (acq rel sq : Bool) : Form := {
  instr := i
  act := fun s t ls =>
    if ls.isEmpty then t
    else
      let all := ls.map fun p => (p, earlierAll t p)
      let t0 := acqL1 (relL1 t (curCell s) (if rel then some sc else none)) (curCell s) (if acq then some sc else none)
      let t1 := if acq then markAcq t0 sc (all.flatMap (·.2)) else t0
      all.foldl (fun u q => modStr u q.1 (noteFence
        (if sq then q.2 else if acq then earlierReads t q.1 else []) (if rel && !sq then q.2 else []))) t1 }

/-- R337. -/
def formFenceAcq (gd : Guard) (sc : Scope) : Form := fenceForm (.fenceAcq gd sc) sc true false false
def execFenceAcq (gd : Guard) (sc : Scope) (s : State) : Host.Outcome State Fault Refusal :=
  run gd (formFenceAcq gd sc) s

/-- R337. -/
def formFenceRel (gd : Guard) (sc : Scope) : Form := fenceForm (.fenceRel gd sc) sc false true false
def execFenceRel (gd : Guard) (sc : Scope) (s : State) : Host.Outcome State Fault Refusal :=
  run gd (formFenceRel gd sc) s

/-- R337. -/
def formFenceAr (gd : Guard) (sc : Scope) : Form := fenceForm (.fenceAr gd sc) sc true true false
def execFenceAr (gd : Guard) (sc : Scope) (s : State) : Host.Outcome State Fault Refusal :=
  run gd (formFenceAr gd sc) s

/-- R337. -/
def formFenceSc (gd : Guard) (sc : Scope) : Form := fenceForm (.fenceSc gd sc) sc true true true
def execFenceSc (gd : Guard) (sc : Scope) (s : State) : Host.Outcome State Fault Refusal :=
  run gd (formFenceSc gd sc) s

/-! ### The wait monitor (R338, R339) -/

/-- The second register of a G pair. -/
def pairHi (d : GReg) : GReg := { d with num := d.num + 1 }
def waitAsk (s : State) (p : Nat) (a : GReg) (w64 : Bool) : Ask := askV (rdReg s p a) (if w64 then 8 else 4) .wait
/-- The accesses of a `wait` that has not met its homes yet. -/
def waitAsks (s : State) (a : GReg) (w64 : Bool) (p : Nat) : List Ask :=
  if (s.str p).mon.isSome then [] else [waitAsk s p a w64]
/-- The `wait` of a lane as it first meets its home. -/
def newMonitor (s : State) (p : Nat) (d a : GReg) (w64 : Bool) : Monitor :=
  let t := (rdReg s p (pairHi d)).toNat % 2 ^ 32
  {
    loc := locOf (targetOf s p (waitAsk s p a w64)), addr := rdReg s p a, w64 := w64,
    expect := zx (if w64 then 64 else 32) (rdReg s p d).toNat,
    deadline := if t = 0 then none else some (cyc s (cellOf p) + t), armed := false, stamp := s.fresh
    blk := blockTag s (targetOf s p (waitAsk s p a w64)) }
/-- Whether the `wait` of a lane has completed. -/
def waitDone (s : State) (p : Nat) : Bool := match (s.str p).mon with | some m => m.done.isSome | none => false
/-- The result of a completed `wait` lands in the lane (R339, R468). -/
def waitLand (s t : State) (p : Nat) (d : GReg) : State :=
  match (s.str p).mon with
  | some m =>
    (match m.bad, m.done with
      | some b, _ => modStr t p (fun u => { u with mark := some b })
      | none, some r => wrReg (wrReg t p d r.1) p (pairHi d) (word r.2)
      | none, none => t)
  | none => t

/-- R339: the lanes wait at the homes of their words; when each has completed, the bundle issues with their results. -/
def formWait (gd : Guard) (d : GReg) (a : GReg) (w64 : Bool) (acq : Option Scope) : Form :=
  {
    instr := (.wait gd d a w64 acq)
    access := fun s ls => accessStage s ls (waitAsks s a w64)
    room := fun s ls => roomStage s ls (waitAsks s a w64)
    holds := fun s ls =>
      let todo := ls.filter (fun p => !waitDone s p)
      if todo.isEmpty then .ok else .park .monitor (todo.map fun p => (p, WaitFor.event)) []
    onHold := fun s ls => (ls.filter (fun p => (s.str p).mon.isNone)).foldl (fun u p =>
      takeFresh (armMonitor u p (newMonitor u p d a w64))) (countAsks s s ls (fun p => [waitAsk s p a w64]))
    act := fun s t ls => ls.foldl (fun u p => waitLand s u p d) (acqL1 t (curCell s) (if ls.isEmpty then none else acq)) }
def execWait (gd : Guard) (d : GReg) (a : GReg) (w64 : Bool) (acq : Option Scope) (s : State) : Host.Outcome State Fault Refusal :=
  run gd (formWait gd d a w64 acq) s

/-! ### Transaction barriers (R365 to R367) -/

/-- R365, R488. -/
def formTbinit (gd : Guard) (b : Fin 16) (a : GReg) : Form :=
  {
    instr := (.tbinit gd b a)
    operand := fun s ls => if ls.isEmpty then .ok else
      let v := rdReg s (lowestOf s ls) a
      faultsOf [(lowestOf s ls, if 1 ≤ v.toNat % 128 ∧ v.toNat % 128 ≤ 64 then none else some (operandFault 0x12 v))]
    room := fun s ls =>
      if !ls.isEmpty && tbIsBusy s (curCell s) b.val && tableNames s (curCell s) b.val then
        .park .barrier (s.cur.lanes.map fun p => (p, WaitFor.tbBusy b.val)) []
      else .ok
    onHold := fun s _ => modStrs s s.cur.lanes (fun t => { t with tbReset := true })
    act := fun s t ls =>
      if ls.isEmpty then t
      else tbInit t (curCell s) b.val ((rdReg s (lowestOf s ls) a).toNat % 128) (lowestOf s ls) s.cur.ba (s.str (lowestOf s ls)).tbReset }
def execTbinit (gd : Guard) (b : Fin 16) (a : GReg) (s : State) : Host.Outcome State Fault Refusal :=
  run gd (formTbinit gd b a) s

/-- R365, R364, R489, R490. -/
def formTbexp (gd : Guard) (b : Fin 16) (a : GReg) : Form :=
  {
    instr := (.tbexp gd b a)
    act := fun s t ls => ls.foldl (fun u p =>
      let v := (rdReg s p a).toNat
      let u1 := tbPend u (curCell s) b.val (v % 2 ^ 32 : Nat) false (some (p, s.cur.ba))
      if field v 32 7 = 0 then u1 else tbArrive u1 (curCell s) b.val (field v 32 7) p s.cur.ba) t }
def execTbexp (gd : Guard) (b : Fin 16) (a : GReg) (s : State) : Host.Outcome State Fault Refusal :=
  run gd (formTbexp gd b a) s

/-- R365, R364, R489. -/
def formTbarr (gd : Guard) (b : Fin 16) : Form :=
  {
    instr := (.tbarr gd b)
    act := fun s t ls => ls.foldl (fun u p => tbArrive u (curCell s) b.val 1 p s.cur.ba) t }
def execTbarr (gd : Guard) (b : Fin 16) (s : State) : Host.Outcome State Fault Refusal := run gd (formTbarr gd b) s

/-- Whether a position's bit of ARRIVED was set at the end of the previous cycle (R366). -/
def tbBit (s : State) (b p : Nat) : Bool := (barOf (s.cell (cellOf p)) b).before.getLsbD (posInCell p)
/-- A path waits until the bit of every acting lane is clear. -/
def waitBits (s : State) (ls : List Nat) (bit : Nat → Bool) (w : Bool → WaitFor) : Stage :=
  if ls.any bit then .park .barrier (s.cur.lanes.map fun p => (p, w (ls.contains p && bit p))) [] else .ok

/-- R366: a path that waited goes on at NBA when the phase completes (Machine/Barrier.lean `tbTest`). -/
def formTbwait (gd : Guard) (b : Fin 16) : Form :=
  {
    instr := (.tbwait gd b)
    holds := fun s ls => waitBits s ls (tbBit s b.val) (WaitFor.tb b.val)
    act := fun _ t _ => t }
def execTbwait (gd : Guard) (b : Fin 16) (s : State) : Host.Outcome State Fault Refusal := run gd (formTbwait gd b) s

/-- R366. -/
def formTbtest (gd : Guard) (p : Fin 8) (b : Fin 16) : Form := pForm (.tbtest gd p b) p (fun s q => !tbBit s b.val q)
def execTbtest (gd : Guard) (p : Fin 8) (b : Fin 16) (s : State) : Host.Outcome State Fault Refusal :=
  run gd (formTbtest gd p b) s

/-! ### Block barriers (R369) -/

/-- A position's bit in the mask of its cell at the end of the previous cycle (R366). -/
def bbBit (s : State) (p : Nat) : Bool := (s.cell (cellOf p)).bbBefore.getLsbD (posInCell p)

/-- R369, R371, R492, R493. -/
def formBbarr (gd : Guard) : Form :=
  {
    instr := (.bbarr gd)
    excluded := true
    room := fun s ls =>
      if !ls.isEmpty && bbFull s (curCell s) then
        .park .barrier (s.cur.lanes.map fun p => (p, WaitFor.bbRecord)) []
      else .ok
    onHold := fun s ls =>
      if ls.isEmpty ∨ s.pkg.bbRecMade then s
      else postLog (s.setPkg { s.pkg with bbRecMade := true })
        { recAt s (lowestOf s ls) 7 with addr := s.cur.ba, sinfo := 13#64, sval := 4096#64 }
    act := fun s t ls =>
      if ls.isEmpty then t
      else ls.foldl (fun u p => bbArrive u p s.cur.ba) (relL1 t (curCell s) (some .die)) }
def execBbarr (gd : Guard) (s : State) : Host.Outcome State Fault Refusal := run gd (formBbarr gd) s

/-- R369: a path that waited goes on at NBA when the release reaches its cell (Machine/Barrier.lean `bbReleaseCell`). -/
def formBbwait (gd : Guard) : Form :=
  {
    instr := (.bbwait gd)
    excluded := true
    holds := fun s ls => waitBits s ls (bbBit s) WaitFor.bb
    act := fun s t ls => if ls.isEmpty then t else acqL1 t (curCell s) (some .die) }
def execBbwait (gd : Guard) (s : State) : Host.Outcome State Fault Refusal := run gd (formBbwait gd) s

/-! ### Subscriptions (R360 to R362) -/

/-- The valid entry of a cell that holds a tag. -/
def matchOf (x : CellSt) (tag : Nat) : Option Nat := (x.matchTab.find? (fun e => decide (e.2.tag = tag))).map (·.1)
/-- The acting lanes for which no entry is free, in lane order (R360). -/
def lacking (x : CellSt) (tag : Nat → Nat) : List Nat → List Nat → List Nat
  | _, [] => []
  | seen, p :: r =>
    if (matchOf x (tag p)).isSome ∨ seen.contains (tag p) then lacking x tag seen r
    else if x.matchTab.length + x.heldTab.length + seen.length < 16 then lacking x tag (tag p :: seen) r
    else p :: lacking x tag seen r
/-- Join or leave packets of a cell set out (R127). -/
def sendJoin (s : State) (c tag : Nat) (join : Bool) : State :=
  takeFresh (s.setJoins (tset s.joins s.fresh { cell := c, tag := tag, join := join, due := s.time + s.pace.sync }))
/-- One lane of `sub`. -/
def subOne (s : State) (c : Nat) (v : Word) : State :=
  let e := matchOfView v
  match matchOf (s.cell c) e.tag with
  | some i => putCell s c { s.cell c with matchTab := tset (s.cell c).matchTab i e }
  | none =>
    match (List.range 16).find? (fun i => (tfind (s.cell c).matchTab i).isNone) with
    | some i => sendJoin (putCell s c { s.cell c with matchTab := tset (s.cell c).matchTab i e }) c e.tag true
    | none => s
/-- One lane of `unsub`. -/
def unsubOne (s : State) (c : Nat) (v : Word) : State :=
  match matchOf (s.cell c) (matchOfView v).tag with
  | some i => sendJoin (putCell s c { s.cell c with matchTab := tdel (s.cell c).matchTab i }) c (matchOfView v).tag false
  | none => s
/-- Park the issuer for the work between two numbers, if there is any (R386). -/
def parkSince (src t : State) (n upto : Nat) : State :=
  if t.fresh = n ∧ upto = 0 then t
  else parkDone src t (fun _ => .sync ((List.range (t.fresh - n)).map (n + ·)) upto)

/-- R360, R362. -/
def formMulticastSub (gd : Guard) (a : GReg) : Form :=
  {
    instr := (.multicastSub gd a)
    values := fun s ls =>
      let l := lacking (s.cell (curCell s)) (fun p => (matchOfView (rdReg s p a)).tag) [] ls
      faultsOf (l.map fun p => (p, some { cause := 0x0C, sval := rdReg s p a }))
    act := fun s t ls => parkSince s (ls.foldl (fun u p => subOne u (curCell s) (rdReg s p a)) t) t.fresh 0 }
def execMulticastSub (gd : Guard) (a : GReg) (s : State) : Host.Outcome State Fault Refusal :=
  run gd (formMulticastSub gd a) s

/-- R361, R362. -/
def formMulticastUnsub (gd : Guard) (a : GReg) : Form :=
  {
    instr := (.multicastUnsub gd a)
    act := fun s t ls => parkSince s (ls.foldl (fun u p => unsubOne u (curCell s) (rdReg s p a)) t) t.fresh 0 }
def execMulticastUnsub (gd : Guard) (a : GReg) (s : State) : Host.Outcome State Fault Refusal :=
  run gd (formMulticastUnsub gd a) s

/-! ### Messages (R372 to R375) -/

/-- Package and package cell that a destination word names (R41). -/
def msgPkg (d : Word) : Nat := field d.toNat 55 9
def msgCell (d : Word) : Nat := 160 * field d.toNat 53 2 + field d.toNat 45 8
def msgPos (d : Word) : Nat := 64 * msgCell d + 16 * field d.toNat 39 2 + field d.toNat 41 4
def msgGen (d : Word) : BitVec 8 := BitVec.ofNat 8 (field d.toNat 31 8)
/-- The narrowest scope that holds the sender's cell and the destination (R146). -/
def msgScope (s : State) (c : Nat) (d : Word) : Scope :=
  if msgPkg d ≠ s.pkg.pkgnum then .fab
  else if msgCell d = c then .cell
  else if field d.toNat 53 2 = dieOf c then .die
  else .pkg
/-- Messages of a cell's injection queue, the refused ones among them (R372, R485). -/
def injected (s : State) (c : Nat) : Nat :=
  (s.cell c).inject.length + (s.flying.filter (fun e => decide (e.2.msg.src = c) && e.2.refused)).length

/-- The DELIVERY check of a destination (R463). -/
def sendCheck (s : State) (d : Word) : Option TrapInfo :=
  if msgPkg d ≠ s.pkg.pkgnum ∧ !s.pkg.fabEn then some { cause := 11, code := 1, sval := d, access := 10 }
  else if 160 ≤ field d.toNat 45 8 then some { cause := 11, code := 2, sval := d, access := 10 }
  else none

/-- R372, R386.
(DEDUCED: notes/assumptions/43.md) -/
def formSend (gd : Guard) (a : GReg) (w : Fin 16) : Form :=
  {
    instr := (.send gd a w)
    values := fun s ls => faultsOf (ls.map fun p => (p, sendCheck s (rdReg s p a)))
    room := fun s ls =>
      if ls.isEmpty ∨ injected s (curCell s) + ls.length ≤ 64 then .ok
      else .park .data (s.cur.lanes.map fun p => (p, WaitFor.inject ls.length)) []
    act := fun s t ls =>
      let c := curCell s
      let t1 := ls.foldl (fun u p => relL1 u c (some (msgScope s c (rdReg s p a)))) t
      ls.foldl (fun u p => putCell u c { u.cell c with inject := (u.cell c).inject ++ [{
        dst := word ((rdReg s p a).toNat / 2 ^ 31 * 2 ^ 31), payload := rdW s p w.val, key := keyIn s c, src := c,
        scope := msgScope s c (rdReg s p a), place := ppos s p, lpos := (s.str p).lpos, ba := s.cur.ba }] }) t1 }
def execSend (gd : Guard) (a : GReg) (w : Fin 16) (s : State) : Host.Outcome State Fault Refusal :=
  run gd (formSend gd a w) s

/-- The oldest message of a position leaves its queue, and the oldest one spilled moves in (R373). -/
def takeMsg (s : State) (p : Nat) : State :=
  let t := modStr s p (fun u => { u with recvq := u.recvq.drop 1 })
  match oldestSpilled t p (t.str p).gen.toNat (keyIn t (cellOf p)).toNat with
  | none => t
  | some a => modStr (clearSpill t a) p (fun u => { u with recvq := u.recvq ++ [spilledMsg t p a] })
/-- A lane takes its oldest message, an acquire at the scope of its `send` (R375, R152). -/
def recvOne (s t : State) (p : Nat) (w : Nat) : State :=
  match (s.str p).recvq with
  | [] => t
  | m :: _ => landFixed (acqL1 (takeMsg t p) (cellOf p) (some m.scope)) p (.w p w) (.w p w m.payload)
/-- Lanes without a message. -/
def bare (s : State) (ls : List Nat) : List Nat := ls.filter (fun p => (s.str p).recvq.isEmpty)

/-- R375. -/
def formRecv (gd : Guard) (w : Fin 16) : Form :=
  {
    instr := (.recv gd w)
    holds := fun s ls =>
      if (bare s ls).isEmpty then .ok else .park .message ((bare s ls).map fun p => (p, WaitFor.message)) []
    act := fun s t ls => ls.foldl (fun u p => recvOne s u p w.val) t }
def execRecv (gd : Guard) (w : Fin 16) (s : State) : Host.Outcome State Fault Refusal := run gd (formRecv gd w) s

/-- Lanes of a `recvt` that still wait: no message, and their T cell cycles have not passed (R375). -/
def recvtOpen (s : State) (ls : List Nat) (a : GReg) : List Nat :=
  (bare s ls).filter fun p =>
    decide ((rdReg s p a).toNat % 2 ^ 32 ≠ 0) &&
      (match (s.str p).deadline with | none => true | some d => decide (cyc s (cellOf p) < d))

/-- R375. -/
def formRecvt (gd : Guard) (w : Fin 16) (a : GReg) (p : Fin 8) : Form :=
  {
    instr := (.recvt gd w a p)
    holds := fun s ls =>
      let o := recvtOpen s ls a
      if o.isEmpty then .ok else .park .message (o.map fun q => (q, WaitFor.message)) []
    onHold := fun s ls => ls.foldl (fun u q => modStr u q (fun x =>
      { x with deadline := some (x.deadline.getD (cyc s (cellOf q) + (rdReg s q a).toNat % 2 ^ 32)) })) s
    act := fun s t ls => ls.foldl (fun u q =>
      landFixed (recvOne s u q w.val) q (.p q p.val) (.p q p.val (!(s.str q).recvq.isEmpty))) t }
def execRecvt (gd : Guard) (w : Fin 16) (a : GReg) (p : Fin 8) (s : State) : Host.Outcome State Fault Refusal :=
  run gd (formRecvt gd w a p) s

/-! ### Tokens (R376) -/

/-- The snapshot of `tokq`. -/
def tokqWord (s : State) (c : Nat) : Word :=
  let x := s.cell c
  let q : Int := match x.quota with | none => (2 ^ 31 - 1 : Nat) | some v => max (-(2 ^ 31 : Nat)) (min v (2 ^ 31 - 1 : Nat))
  word ((q % (2 ^ 32 : Nat)).toNat * 2 ^ 32 + x.reqs.length % 256 * 2 ^ 24 + bCode (prioClaim s x) * 2 ^ 16 + x.pocket % 65536)

/-- R376. -/
def formTokq (gd : Guard) (d : GReg) : Form := gLater (.tokq gd d) d (fun s p => tokqWord s (cellOf p))
def execTokq (gd : Guard) (d : GReg) (s : State) : Host.Outcome State Fault Refusal := run gd (formTokq gd d) s

end Sys2Proof.Machine
end

