-- ==== Sys2Proof/Machine/Transfer.lean ====
section
/-!
DEFINITION. Transfers and chase walks as they issue (spec/13_isa_async_and_system.md R343 to R349, R353, R355): their words,
their checks and their entry in the transfer table.
-/
namespace Sys2Proof.Machine

open Sys2Proof

/-! ### Words (R344 to R347) -/

def shPitch (w : Word) : Nat := field w.toNat 40 24
def shRows (w : Word) : Nat := field w.toNat 32 8 + 1
def shLen (w : Word) : Nat := field w.toNat 0 17
/-- L of R344. -/
def shTotal (w : Word) : Nat := shLen w * shRows w
def shapeOk (w : Word) : Bool := decide (1 ≤ shLen w ∧ shTotal w ≤ 65536)

def cwSelf (w : Word) : Bool := w.getLsbD 63
def cwWin (w : Word) : Bool := w.getLsbD 62
def cwCap (w : Word) : Nat := field w.toNat 59 3
def cwTb (w : Word) : Nat := field w.toNat 52 4
def cwOff (w : Word) : Nat := field w.toNat 0 24
def nwNote (w : Word) : Bool := w.getLsbD 63
def nwTb (w : Word) : Nat := field w.toNat 56 4

/-- DCAPi of an ASID (R347). -/
def dcapOf (s : State) (asid i : Nat) : Word := tget 0#64 s.pkg.dcap (8 * asid + i)
def capValid (w : Word) : Bool := w.getLsbD 63
def capMc (w : Word) : Bool := w.getLsbD 62
def capWin (w : Word) : Bool := w.getLsbD 61
def capKey (w : Word) : BitVec 16 := BitVec.ofNat 16 (field w.toNat 45 16)
def capPkg (w : Word) : Nat := field w.toNat 36 9
def capDie (w : Word) : Nat := field w.toNat 34 2
def capCell (w : Word) : Nat := field w.toNat 26 8
def capTag (w : Word) : Nat := field w.toNat 24 12
/-- U of R347. -/
def capUnit (w : Word) : Nat := if capWin w then 2 ^ 20 else 2 ^ 16
/-- Whether [off, off + n) lies in the allowed range. -/
def capRange (w : Word) (off n : Nat) : Bool := decide (field w.toNat 4 4 * capUnit w ≤ off ∧ off + n ≤ w.toNat % 16 * capUnit w)

/-- Bytes of a window of a cell's block (R104, R116). -/
def portion (x : CellSt) (win : Bool) : Nat := if win then x.ter * 2 ^ 20 else x.scrsz * 65536

/-- The checks of R348 on a consumer word for n bytes: CAP, RANGE and DELIVERY (R459, R463). -/
def consumerCheck (s : State) (c : Nat) (multi : Bool) (cw : Word) (n : Nat) : Option TrapInfo :=
  if cwSelf cw then
    (if cwOff cw + n ≤ portion (s.cell c) (cwWin cw) then none else some (operandFault 0x10 cw))
  else
    let k := dcapOf s (asidIn s c) (cwCap cw)
    if !capValid k ∨ capMc k ≠ multi then some (operandFault 0x0F cw)
    else if !multi && !(k.getLsbD (8 + cwTb cw) && capRange k (cwOff cw) n) then some (operandFault 0x0F cw)
    else if capPkg k ≠ s.pkg.pkgnum ∧ !s.pkg.fabEn then some { cause := 11, code := 1, sval := cw, access := 10 }
    else if !multi ∧ 160 ≤ capCell k then some { cause := 11, code := 2, sval := cw, access := 10 }
    else none

/-- The consumer that a consumer word names. -/
def consumerOf (s : State) (c : Nat) (cw : Word) : Consumer :=
  if cwSelf cw then .self (cwWin cw)
  else
    let k := dcapOf s (asidIn s c) (cwCap cw)
    if capMc k then .tag (capPkg k) (capTag k) (capKey k) else .cap (capPkg k) (capDie k) (capCell k) (capWin k) (capKey k)

/-! ### Sources -/

/-- Bytes [a, a + n) cut at the 1 KiB sub-pages (R139, R467), in each of which every sector has one home (R101, R121). -/
def granules (a : Word) (n : Nat) : List (Word × Nat) :=
  let h := 1024 - a.toNat % 1024
  if n ≤ h then [(a, n)]
  else (a, h) :: (List.range ((n - h + 1023) / 1024)).map (fun i => (a + word (h + 1024 * i), Nat.min 1024 (n - h - 1024 * i)))
/-- The address of row r. -/
def rowAt (src sh : Word) (r : Nat) : Word := src + word (r * shPitch sh)
def sourcePieces (src sh : Word) : List (Word × Nat) :=
  (List.range (shRows sh)).flatMap fun r => granules (rowAt src sh r) (shLen sh)
def sourceAsks (src sh : Word) : List Ask :=
  (sourcePieces src sh).map fun x => { va := x.1, n := x.2, al := 1, kind := .xferSrc }

def dedupE : List TlbEnt → List TlbEnt
  | [] => []
  | x :: r => if r.contains x then dedupE r else x :: dedupE r
/-- The translations of a source as they stand at issue (R141). -/
def sourcePages (s : State) (c : Nat) (src sh : Word) : List TlbEnt :=
  dedupE ((sourcePieces src sh).filterMap fun x =>
    if window x.1 = .no then tlbFind (s.cell c).tlb (asidIn s c) x.1.toNat else none)

/-- The blocks of the cells that a window source names (R350). -/
def sourceHomes (s : State) (c : Nat) (src sh : Word) : List (Nat × Nat) :=
  dedupN ((sourcePieces src sh).filterMap fun x =>
    match window x.1 with
    | .no => none
    | .cell _ => some (c, blockTag s (.scr c 0))
    | .die d y _ => some (160 * d + y, blockTag s (.scr (160 * d + y) 0)))

/-! ### The transfer table (R349) -/

/-- Entries in use: those of a cell's transfers, and of its walks until they end. -/
def tableUse (s : State) (c : Nat) : Nat :=
  s.xfers.countP (fun e => decide (e.2.req.cell = c)) + s.chases.countP (fun e => decide (e.2.req.cell = c) && !e.2.ended)
def tableStage (s : State) (ls : List Nat) : Stage :=
  if ls.isEmpty ∨ tableUse s (curCell s) + ls.length ≤ 256 then .ok
  else .park .data (ls.map fun p => (p, WaitFor.table ls.length)) []

/-- Destination sectors of a transfer into its own scratchpad (R112). -/
def destSectors (c off n : Nat) : List Nat :=
  (List.range ((off + n - 1) / 32 + 1 - off / 32)).map (fun i => locScr c 0 / 32 + off / 32 + i)

/-- The subscribers of a tag in this package (R127, R128, R178): cells whose join has reached the routers, with their live and
held entries, as (cell, block, entry). -/
def subscribers (s : State) (tag : Nat) : List (Nat × Nat × MatchEnt) :=
  (dedupN (s.pkg.joined.filter (fun j => decide (j.1 = tag)))).flatMap fun j =>
    let x := s.cell j.2
    (match x.block with
      | some b => (x.matchTab.filter (fun e => decide (e.2.tag = tag))).map (fun e => (j.2, b, e.2))
      | none => []) ++ (x.heldTab.filter (fun h => decide (h.2.2.tag = tag))).map (fun h => (j.2, h.1, h.2.2))

/-- Whether a transfer's consumer is the scratchpad of its own cell, itself or through a capability (R112, R348). -/
def intoOwn (s : State) (c : Nat) (form : XferForm) (cons : Consumer) : Bool :=
  match form, cons with
  | .tldm, _ => false
  | _, .self win => !win
  | _, .cap pkg die cell win _ => !win && decide (pkg = s.pkg.pkgnum ∧ 160 * die + cell = c)
  | _, .tag _ _ _ => false
/-- A `cpy` or `tld` into the scratchpad of its own cell clears the presence bits of its destination (R348, R112). -/
def claimDest (s t : State) (c : Nat) (form : XferForm) (cw sh : Word) : State :=
  if intoOwn s c form (consumerOf s c cw) then t.setClears (t.clears ++ destSectors c (cwOff cw) (shTotal sh)) else t

/-- One lane's transfer starts (R348).
(DEDUCED: notes/assumptions/51.md) -/
def startXfer (s t : State) (p : Nat) (form : XferForm) (cw nw src sh : Word) : State :=
  let c := cellOf p
  let t1 := claimDest s t c form cw sh
  takeFresh (t1.setXfers (tset t1.xfers t1.fresh {
    form := form, req := requesterOf s p, src := src, pitch := shPitch sh, rows := shRows sh, rlen := shLen sh,
    cons := consumerOf s c cw, tb := cwTb cw, offset := cwOff cw, note := nwNote nw, ntb := nwTb nw,
    pages := sourcePages s c src sh, homes := sourceHomes s c src sh, read := 0, dealt := 0,
    inFlight := 0, err := false, due := t1.time + t1.pace.step, own := intoOwn s c form (consumerOf s c cw)
    subs := match consumerOf s c cw with | .tag pkg tag _ => if pkg = s.pkg.pkgnum then subscribers s tag else [] | _ => [] }))

/-- The transfer forms: consumer, notice, source and shape words of a lane. -/
def xferForm (i : Instr) (form : XferForm) (rel : Option Scope) (cw nw src sh : State → Nat → Word) : Form := {
  instr := i
  operand := fun s ls => faultsOf (ls.map fun p => (p,
    if !shapeOk (sh s p) then some (operandFault 0x0D (sh s p))
    else match form with
      | .cpy => if cwSelf (cw s p) then none else some (operandFault 0x0E (cw s p))
      | .tldm => if cwSelf (cw s p) then some (operandFault 0x0E (cw s p)) else none
      | .tld => none))
  access := fun s ls => transStage s ls (fun p => sourceAsks (src s p) (sh s p))
  values := fun s ls => faultsOf (ls.map fun p =>
    (p, consumerCheck s (curCell s) (match form with | .tldm => true | _ => false) (cw s p) (shTotal (sh s p))))
  room := tableStage
  price := fun s ls => (ls.map fun p => (shTotal (sh s p) + 1023) / 1024).foldl (· + ·) 0
  quotaFree := true
  act := fun s t ls =>
    if ls.isEmpty then t
    else
      let t1 := relL1 (countAsks s t ls (fun p => sourceAsks (src s p) (sh s p))) (curCell s) rel
      ls.foldl (fun u p => startXfer s u p form (cw s p) (nw s p) (src s p) (sh s p)) t1 }

/-- R343, R348: a `cpy` has no notice word. -/
def formCpy (gd : Guard) (rel : Option Scope) (d : Fin 32) (a : Fin 32) (b : Fin 32) : Form :=
  xferForm (.cpy gd rel d a b) .cpy rel (fun s p => rdG s p d.val) (fun _ _ => 0#64)
    (fun s p => rdG s p a.val) (fun s p => rdG s p b.val)
def execCpy (gd : Guard) (rel : Option Scope) (d : Fin 32) (a : Fin 32) (b : Fin 32) (s : State) : Host.Outcome State Fault Refusal :=
  run gd (formCpy gd rel d a b) s

/-- R343, R348. -/
def formTld (gd : Guard) (rel : Option Scope) (d : Fin 32) (a : Fin 32) (b : Fin 32) : Form :=
  xferForm (.tld gd rel d a b) .tld rel (fun s p => rdG s p d.val) (fun s p => rdG s p (d.val + 1))
    (fun s p => rdG s p a.val) (fun s p => rdG s p b.val)
def execTld (gd : Guard) (rel : Option Scope) (d : Fin 32) (a : Fin 32) (b : Fin 32) (s : State) : Host.Outcome State Fault Refusal :=
  run gd (formTld gd rel d a b) s

/-- R343, R348, R353. -/
def formTldm (gd : Guard) (rel : Option Scope) (d : Fin 32) (a : Fin 32) (b : Fin 32) : Form :=
  xferForm (.tldm gd rel d a b) .tldm rel (fun s p => rdG s p d.val) (fun s p => rdG s p (d.val + 1))
    (fun s p => rdG s p a.val) (fun s p => rdG s p b.val)
def execTldm (gd : Guard) (rel : Option Scope) (d : Fin 32) (a : Fin 32) (b : Fin 32) (s : State) : Host.Outcome State Fault Refusal :=
  run gd (formTldm gd rel d a b) s

/-! ### Chase walks (R355, R356) -/

/-- The stack whose engines run a walk (R103, R124). -/
def chaseStack (c : Nat) (t : Target) : Nat :=
  match t with
  | .home loc die =>
    if die < 4 then 3 * (loc / 2 ^ 38) + loc % 2 ^ 38 / 256 % 3 else 3 * dieOf c + (loc - 2 ^ 52) % 2 ^ 40 / 256 % 3
  | .remote _ pa => 3 * dieOf c + pa % 2 ^ 40 / 256 % 3
  | _ => 3 * dieOf c
def chaseAsk (s : State) (b : Fin 32) (p : Nat) : Ask := { va := rdG s p b.val, n := 1, al := 1, kind := .chaseStart }
/-- Walks that hold a context of a stack: 16 engines of 128 contexts (R124). -/
def stackLoad (s : State) (k : Nat) : Nat := s.chases.countP (fun e => decide (e.2.stack = k) && e.2.running)
/-- One lane's walk starts; it waits at its stack while every context there is busy (R124, R356). -/
def startWalkOf (s t : State) (p : Nat) (cw nw entry start : Word) (k : Nat) : State :=
  takeFresh (t.setChases (tset t.chases t.fresh {
    req := requesterOf s p, pc := entry, g := tset [] 1 start, w := [], p := [], cons := consumerOf s (cellOf p) cw,
    tb := cwTb cw, offset := cwOff cw, note := nwNote nw, ntb := nwTb nw, stack := k, words := 0, delivered := 0, inFlight := 0,
    running := decide (stackLoad t k < 2048), err := false, ended := false, due := t.time + t.pace.step }))

/-- R355, R348. R193 does not list it among the forms that QuotaAllows always admits, though R348 says so of a transfer.
(DESIGN CHOICE: notes/assumptions/77.md) -/
def formChase (gd : Guard) (rel : Option Scope) (d : Fin 32) (a : Fin 32) (b : Fin 32) : Form :=
  {
    instr := (.chase gd rel d a b)
    operand := fun s ls => faultsOf (ls.map fun p =>
      (p, if (rdG s p a.val).toNat % 4 ≠ 0 then some (operandFault 0x11 (rdG s p a.val)) else none))
    access := fun s ls => transStage s ls (fun p => [chaseAsk s b p])
    values := fun s ls => faultsOf (ls.map fun p => (p, consumerCheck s (curCell s) false (rdG s p d.val) 1))
    room := tableStage
    price := fun _ ls => 4 * ls.length
    act := fun s t ls =>
      if ls.isEmpty then t
      else ls.foldl (fun u p => startWalkOf s u p (rdG s p d.val) (rdG s p (d.val + 1)) (rdG s p a.val) (rdG s p b.val)
        (chaseStack (curCell s) (targetOf s p (chaseAsk s b p)))) (relL1 t (curCell s) rel) }
def execChase (gd : Guard) (rel : Option Scope) (d : Fin 32) (a : Fin 32) (b : Fin 32) (s : State) : Host.Outcome State Fault Refusal :=
  run gd (formChase gd rel d a b) s

end Sys2Proof.Machine
end

