-- ==== Sys2Proof/Machine/Matrix.lean ====
section
/-!
DEFINITION. The matrix engine (spec/11_isa_matrix.md): panels and scale rows, the checks and the acceptance of engine
operations, and the steps of the engine that runs them in order.
-/
namespace Sys2Proof.Machine

open Sys2Proof

/-! ### Panels (R294 to R298) -/

def fmtTy : Fmt → NumTy
  | .fp16 => .float fp16
  | .bf16 => .float bf16
  | .e4m3 => .float e4m3
  | .e5m2 => .float e5m2
  | .e2m1 => .float e2m1
  | .i8 => .int 8 true
  | .i4 => .int 4 true
def fmtScaled : Fmt → Bool
  | .e2m1 => true
  | _ => false
/-- b and e of R295, the rows of a panel, and the price and occupancy of an `mma` (R295, R300, R302). -/
def fmtBits (f : Fmt) : Nat := (fmtTy f).width
def fmtPack (f : Fmt) : Nat := 32 / fmtBits f
def panelRows (f : Fmt) : Nat := 64 / fmtPack f
def mmaPrice (f : Fmt) : Nat := 4 * fmtBits f
def mmaCycles (f : Fmt) : Nat := 2 * panelRows f + (if fmtScaled f then 2 else 0)

def owOff (w : Word) : Nat := field w.toNat 0 24
def owSoff (w : Word) : Nat := field w.toNat 24 24

/-- Element (k, c) of the panel of an operand word, scaled for E2M1 (R295, R296, R303). -/
def panelElem (s : State) (c : Nat) (f : Fmt) (w : Word) (k col : Nat) : Exact :=
  let v := rd s (locTer c (owOff w + 256 * (k / fmtPack f) + 4 * col)) 4
  let x := decodeT (fmtTy f) (elem v (fmtBits f) (k % fmtPack f))
  if fmtScaled f then scaleX (rd s (locTer c (owSoff w + 4 * col + k / 32)) 1) x else x

/-- Terrace ranges of an operand word: its panel and its scale row. -/
def panelRanges (f : Fmt) (w : Word) : List (Nat × Nat) :=
  (owOff w, 256 * panelRows f) :: (if fmtScaled f then [(owSoff w, 256)] else [])
/-- The Terrace-portion check of R298. -/
def terraceCheck (s : State) (c : Nat) (f : Fmt) (w : Word) : Option TrapInfo :=
  ((panelRanges f w).find? (fun r => decide ((s.cell c).ter * 2 ^ 20 < r.1 + r.2))).map
    (fun r => { cause := 9, code := 5, sval := word r.1 })
/-- PANEL of R459. -/
def panelCheck (f : Fmt) (w : Word) : Option TrapInfo :=
  if (panelRanges f w).all (fun r => decide (r.1 % 256 = 0)) then none else some (operandFault 0x0A w)
/-- The first of some checks that fails. -/
def firstFail (l : List (Option TrapInfo)) : Option TrapInfo := l.findSome? id

/-! ### Acceptance (R299) -/

/-- An operation is accepted. -/
def accept (s : State) (c p : Nat) (op : MatOp) (ident : Option Nat) (rows : List (Target × Nat)) : State :=
  let x := s.cell c
  takeFresh (putCell s c { x with
    jobs := x.jobs ++ [{
      id := s.fresh, num := x.jobNum, op := op, ident := ident, req := requesterOf s p, rows := rows }]
    jobNum := x.jobNum + 1 })

/-- A stage in which the lowest acting lane alone is judged (R452). -/
def lowestStage (s : State) (ls : List Nat) (f : Nat → Option TrapInfo) : Stage :=
  if ls.isEmpty then .ok else faultsOf [(lowestOf s ls, f (lowestOf s ls))]

/-- R302, R303, R298. -/
def formMma (gd : Guard) (rel : Option Scope) (f : Fmt) (c : Fin 4) (a : Fin 32) (b : Fin 32) : Form :=
  {
    instr := (.mma gd rel f c a b)
    excluded := true
    issuer := fun s => inGang s && s.cur.path
    engine := true
    access := fun s ls => lowestStage s ls fun p =>
      firstFail [terraceCheck s (curCell s) f (rdG s p a.val), terraceCheck s (curCell s) f (rdG s p b.val)]
    values := fun s ls => lowestStage s ls fun p => firstFail [panelCheck f (rdG s p a.val), panelCheck f (rdG s p b.val)]
    price := fun _ ls => if ls.isEmpty then 0 else mmaPrice f
    quotaFree := true
    act := fun s t ls =>
      if ls.isEmpty then t
      else
        let p := lowestOf s ls
        accept (relL1 t (curCell s) rel) (curCell s) p (.mma f c.val (rdG s p a.val) (rdG s p b.val)) none [] }
def execMma (gd : Guard) (rel : Option Scope) (f : Fmt) (c : Fin 4) (a : Fin 32) (b : Fin 32) (s : State) : Host.Outcome State Fault Refusal :=
  run gd (formMma gd rel f c a b) s

/-- R307. -/
def formMmz (gd : Guard) (c : Fin 4) : Form :=
  {
    instr := (.mmz gd c)
    engine := true
    act := fun s t ls => if ls.isEmpty then t else accept t (curCell s) (lowestOf s ls) (.mmz c.val) none [] }
def execMmz (gd : Guard) (c : Fin 4) (s : State) : Host.Outcome State Fault Refusal := run gd (formMmz gd c) s

/-- PITCH, TB and CNT of a control word (R306). -/
def mcPitch (w : Word) : Nat := field w.toNat 0 16
def mcTb (w : Word) : Nat := field w.toNat 16 4
def mcCnt (w : Word) : Bool := w.getLsbD 20

/-- The 512 sectors of the rows (R307). -/
def rowSectors (x : Word) (pitch : Nat) (write : Bool) : List Ask :=
  (List.range 512).map fun i =>
    { va := x + word (i / 8 * pitch + 32 * (i % 8)), n := 32, al := 1, kind := .accum write }
/-- Steps 1 and 2 of R462 on X and PITCH (R308). A misaligned PITCH reports X.
(DEDUCED: notes/assumptions/20.md) -/
def rowCheck (x : Word) (pitch : Nat) : Option TrapInfo :=
  if !canonical x then some { cause := 6, code := 7, sval := x, access := 9 }
  else if x.toNat % 32 ≠ 0 then some { cause := 5, code := 1, sval := x, access := 9 }
  else if pitch % 32 ≠ 0 ∨ pitch < 256 then some { cause := 5, code := 2, sval := x, access := 9 }
  else none
/-- An accumulator transfer: its checks, and its rows as translated at issue (R141, R308). -/
def rowForm (i : Instr) (a b : GReg) (write : Bool) (op : Word → Word → MatOp) : Form := {
  instr := i
  engine := true
  access := fun s ls =>
    if ls.isEmpty then .ok
    else
      let p := lowestOf s ls
      match rowCheck (rdReg s p a) (mcPitch (rdReg s p b)) with
      | some f => .fault [(p, f)]
      | none => transStage s [p] (fun _ => rowSectors (rdReg s p a) (mcPitch (rdReg s p b)) write)
  act := fun s t ls =>
    if ls.isEmpty then t
    else
      let p := lowestOf s ls
      accept t (curCell s) p (op (rdReg s p a) (rdReg s p b)) none
        ((rowSectors (rdReg s p a) (mcPitch (rdReg s p b)) write).map fun q => (targetOf s p q, blockTag s (targetOf s p q))) }

/-- R306 to R308. -/
def formMmst (gd : Guard) (c : Fin 4) (a : GReg) (b : GReg) : Form :=
  rowForm (.mmst gd c a b) a b true (fun x w => .mmst c.val x (mcPitch w) (mcCnt w) (mcTb w))
def execMmst (gd : Guard) (c : Fin 4) (a : GReg) (b : GReg) (s : State) : Host.Outcome State Fault Refusal :=
  run gd (formMmst gd c a b) s

/-- R306 to R309. -/
def formMmld (gd : Guard) (c : Fin 4) (a : GReg) (b : GReg) : Form :=
  rowForm (.mmld gd c a b) a b false (fun x w => .mmld c.val x (mcPitch w))
def execMmld (gd : Guard) (c : Fin 4) (a : GReg) (b : GReg) (s : State) : Host.Outcome State Fault Refusal :=
  run gd (formMmld gd c a b) s

/-! ### Jobs (R310, R311) -/

def jobAsk (s : State) (p : Nat) (a : GReg) : Ask := { va := rdReg s p a, n := 32, al := 1, kind := .desc, scr := true }
def jrAop (r : Nat) : Word := word (recDw r 0)
def jrBop (r : Nat) : Word := word (recDw r 1)
def jrAcc (r : Nat) : Nat := field (recDw r 2) 0 2
def jrRel (r : Nat) : Option Scope := if field (recDw r 2) 8 1 = 1 then some (scopeOf (field (recDw r 2) 9 3)) else none
/-- Whether a job record is well formed (R310). -/
def jobOk (r : Nat) : Bool :=
  decide (recDw r 3 = 0 ∧ recDw r 2 / 2 ^ 12 = 0 ∧ field (recDw r 2) 2 6 = 0
    ∧ (field (recDw r 2) 8 1 = 1 ∨ field (recDw r 2) 9 3 = 0) ∧ field (recDw r 2) 9 3 ≤ 4)
/-- The stage-5 checks of a job (R459, R298). -/
def jobCheck (s : State) (c : Nat) (f : Fmt) (o : Word) (r : Nat) : Option TrapInfo :=
  if !jobOk r then some (operandFault 0x0C o)
  else firstFail [terraceCheck s c f (jrAop r), terraceCheck s c f (jrBop r), panelCheck f (jrAop r), panelCheck f (jrBop r)]

/-- R310, R311. -/
def formMmjob (gd : Guard) (d : GReg) (a : GReg) (f : Fmt) : Form :=
  {
    instr := (.mmjob gd d a f)
    engine := true
    operand := fun s ls => lowestStage s ls fun p =>
      if (rdReg s p a).toNat % 32 ≠ 0 then some (operandFault 0x0B (rdReg s p a)) else none
    access := fun s ls => if ls.isEmpty then .ok else accessStage s [lowestOf s ls] (fun p => [jobAsk s p a])
    room := fun s ls => if ls.isEmpty then .ok else roomStage s [lowestOf s ls] (fun p => [jobAsk s p a])
    values := fun s ls => if ls.isEmpty then .ok else
      valueStage s [lowestOf s ls] (fun p => jobAsk s p a) (fun p r => jobCheck s (curCell s) f (rdReg s p a) r)
    price := fun _ ls => if ls.isEmpty then 0 else mmaPrice f
    quotaFree := true
    act := fun s t ls =>
      if ls.isEmpty then t
      else
        let p := lowestOf s ls
        let r := valueRead s p (jobAsk s p a)
        let id := (rdReg s p a).toNat / 32
        let t1 := accept (relL1 t (curCell s) (jrRel r)) (curCell s) p (.mma f (jrAcc r) (jrAop r) (jrBop r)) (some id) []
        ls.foldl (fun u q => landFixed u q (gId q d) (gVal q d (word id))) t1 }
def execMmjob (gd : Guard) (d : GReg) (a : GReg) (f : Fmt) (s : State) : Host.Outcome State Fault Refusal :=
  run gd (formMmjob gd d a f) s

/-- WAIT, ALL and ID of a poll word (R312). -/
def mpWait (w : Word) : Bool := w.getLsbD 63
def mpAll (w : Word) : Bool := w.getLsbD 62
def mpId (w : Word) : Nat := w.toNat % 2 ^ 15
/-- The operations that an `mmpoll` of a lane is about: accepted before it, not completed (R312).
(DEDUCED: notes/assumptions/40.md) -/
def pollTargets (s : State) (p : Nat) (w : Word) : List Nat :=
  let x := s.cell (cellOf p)
  (x.jobs.filter (fun j => decide (j.num < (s.str p).pollTo.getD x.jobNum) && (mpAll w || decide (j.ident = some (mpId w))))).map (·.num)
/-- The status word (R312). -/
def pollWord (s : State) (p : Nat) (w : Word) : Word :=
  word (bCode (!mpAll w && tget false (s.cell (cellOf p)).jobErr (mpId w)) * 2 + bCode (pollTargets s p w).isEmpty)

/-- R312. -/
def formMmpoll (gd : Guard) (d : GReg) (a : GReg) : Form :=
  {
    instr := (.mmpoll gd d a)
    holds := fun s ls =>
      if ls.isEmpty then .ok
      else
        let p := lowestOf s ls
        let l := pollTargets s p (rdReg s p a)
        if mpWait (rdReg s p a) && !l.isEmpty then .park .matrix (s.cur.lanes.map fun q => (q, WaitFor.jobs l)) [] else .ok
    onHold := fun s ls =>
      if ls.isEmpty then s
      else modStr s (lowestOf s ls) (fun u => { u with pollTo := some (u.pollTo.getD (s.cell (curCell s)).jobNum) })
    act := fun s t ls =>
      if ls.isEmpty then t
      else
        let v := pollWord s (lowestOf s ls) (rdReg s (lowestOf s ls) a)
        ls.foldl (fun u q => landFixed u q (gId q d) (gVal q d v)) t }
def execMmpoll (gd : Guard) (d : GReg) (a : GReg) (s : State) : Host.Outcome State Fault Refusal :=
  run gd (formMmpoll gd d a) s

/-! ### The engine (R300, R303 to R309) -/

/-- Occupancy in cell cycles (R300). -/
def occupancy : MatOp → Nat
  | .mma f _ _ _ => mmaCycles f
  | .mmz _ => 1
  | .mmst _ _ _ _ _ => 64
  | .mmld _ _ _ => 64

/-- A term of an element of an `mma`: an integer product that is zero has no sign (R304). -/
def termX (f : Fmt) (x y : Exact) : Exact :=
  match fmtTy f, mulX x y with
  | .int _ _, .zero _ => .zero false
  | _, z => z
/-- One element of an `mma` (R303, R304). -/
def mmaElem (s : State) (c : Nat) (f : Fmt) (acc : Nat) (a b : Word) (i j : Nat) : Nat :=
  let x := sumX ((List.range 64).map fun k => termX f (panelElem s c f a k i) (panelElem s c f b k j))
  let t := roundF fp32 .rn 0 x
  let old := rd s (locAcc c (16384 * acc + 256 * i + 4 * j)) 4
  roundF fp32 .rn 0 (addX false (decodeF fp32 old) (decodeF fp32 t))
/-- The whole tile after an `mma`. -/
def runMma (s : State) (c : Nat) (f : Fmt) (acc : Nat) (a b : Word) : State :=
  (List.range 4096).foldl (fun t n =>
    wr t (locAcc c (16384 * acc + 4 * n)) 4 (mmaElem s c f acc a b (n / 64) (n % 64))) s

/-- The first uncorrectable tile element (R469, R471). -/
def tileBad (s : State) (c acc : Nat) : Option Nat :=
  (List.range 512).findSome? fun i => (badAt s (locAcc c (16384 * acc + 32 * i))).map (fun _ => 16384 * acc + 32 * i)
/-- It ends the context of the operation (R471, R445). -/
def killFor (s : State) (r : Requester) (e access : Nat) : State :=
  contextKill s r.grid {
    kind := 1, cause := 10, place := r.ppos, lpos := r.lpos, addr := r.ba, sval := word e, sinfo := word (7 * 256 + access) }
/-- Uncorrectable Terrace bytes of an operand: the first bad sector's offset (R471). -/
def panelBad (s : State) (c : Nat) (f : Fmt) (w : Word) : Option (Nat × Nat) :=
  (panelRanges f w).findSome? fun r =>
    (List.range (r.2 / 32)).findSome? fun i => (badAt s (locTer c (r.1 + 32 * i))).map (fun _ => (r.1 + 32 * i, r.2))

/-- Whether a sector of an accumulator transfer still has the block it was translated for (R308). -/
def rowLive (s : State) (x : Target × Nat) : Bool :=
  match x.1 with
  | .scr _ _ => x.2 ≠ 0 && decide (blockTag s x.1 = x.2)
  | _ => true
/-- Bytes of a tile in a sector of a row. -/
def tileSector (s : State) (c acc i : Nat) : Nat := rd s (locAcc c (16384 * acc + 32 * i)) 32
/-- The record of a dropped row: its first sector is sector 8 r of the transfer (R308, R475). A row of a tile has no source address:
SVAL is the memory address of the row; TB is 0 for an `mmld`.
(DESIGN CHOICE: notes/assumptions/76.md) -/
def rowReject (s : State) (j : MatJob) (tb : Nat) (x : Word) (pitch r : Nat) (t : Target) : State :=
  let off := match t with | .scr _ o => o | _ => 0
  postFor s j.req.cell (rejectRec j.req 7 tb off (x + word (r * pitch)) 256)

/-- One sector of an `mmst` is written at its home (R308). -/
def putSector (s : State) (j : MatJob) (acc i : Nat) (x : Word) : State :=
  match j.rows[i]? with
  | some (.home loc die, _) =>
    if crossed s (dieOf j.req.cell) die j.req.cell loc then postFor s j.req.cell (errRec j.req 8 9 x 32)
    else (actAt (flushRange s j.req.cell loc 32) j.req x loc (.write 32 (tileSector s j.req.cell acc i))).1
  | some (.scr cell off, b) =>
    if crossed s (dieOf j.req.cell) (dieOf cell) j.req.cell (locScr cell off) then postFor s j.req.cell (errRec j.req 8 9 x 32)
    else if rowLive s (.scr cell off, b) then (actAt s j.req x (locScr cell off) (.write 32 (tileSector s j.req.cell acc i))).1 else s
  | _ => s
/-- One sector of an `mmld` comes from its home; an uncorrectable one leaves its elements unchanged and is reported
(R469). -/
def getSector (s : State) (j : MatJob) (acc i : Nat) (x : Word) : State :=
  let c := j.req.cell
  let place := fun (t : State) (die loc : Nat) =>
    match (if crossed t (dieOf c) die c loc then some 8 else badIn t loc 32) with
    | some code => postFor t c (errRec j.req code 9 x 32)
    | none => wr t (locAcc c (16384 * acc + 32 * i)) 32 (rd t loc 32)
  match j.rows[i]? with
  | some (.home loc die, _) => place (flushRange s c loc 32) die loc
  | some (.scr cell off, b) => if rowLive s (.scr cell off, b) then place s (dieOf cell) (locScr cell off) else s
  | some (.remote _ _, _) =>
    (match tfind j.replies i with
      | some v => wr s (locAcc c (16384 * acc + 32 * i)) 32 v
      | none => s)
  | _ => s

/-- Rows whose cell has changed since issue (R308). -/
def deadRows (s : State) (j : MatJob) : List Nat :=
  (List.range 64).filter fun r => (List.range 8).any fun k =>
    match j.rows[8 * r + k]? with | some x => !rowLive s x | none => false
def rejectRows (s : State) (j : MatJob) (tb : Nat) (x : Word) (pitch : Nat) : State :=
  (deadRows s j).foldl (fun t r => rowReject t j tb x pitch r ((j.rows.map (·.1)).getD (8 * r) (.dev 0))) s

/-- The address of sector i of the rows of a transfer (R307). -/
def rowAddr (op : MatOp) (i : Nat) : Word :=
  match op with
  | .mmst _ x pitch _ _ => x + word (i / 8 * pitch + 32 * (i % 8))
  | .mmld _ x pitch => x + word (i / 8 * pitch + 32 * (i % 8))
  | _ => 0#64
/-- Sectors of other packages of a job. -/
def farSectors (j : MatJob) : List (Nat × Nat × Nat) :=
  j.rows.zipIdx.filterMap fun q => match q.1.1 with | .remote pkg pa => some (q.2, pkg, pa) | _ => none
/-- The requests for them (R406). A sector that no plane reaches is dropped or left unread, with its record. -/
def askFarRows (s : State) (j : MatJob) (acc : Nat) (write : Bool) : State :=
  (farSectors j).foldl (fun t q =>
    match newRequest t (fromCell j.req.cell) q.2.1 (planeOf q.2.2) (if write then 3 else 1) 0 j.req.key q.2.2
        (BitVec.ofNat 256 (if write then tileSector s j.req.cell acc q.1 else 0)) (BitVec.allOnes 32) (.mat j.req.cell j.id q.1) with
    | .out u => dropFar u j.req.cell q.2.1 q.2.2
    | .fail code => postFor t j.req.cell (errRec j.req code 9 (rowAddr j.op q.1) 32)) s
/-- Whether requests of a job are still outstanding. -/
def rowsOut (s : State) (j : MatJob) : Bool :=
  s.pkg.reqs.any fun e => match e.2.who with | .mat c id _ => decide (c = j.req.cell ∧ id = j.id) | _ => false

/-- The effect of an operation when its occupancy ends; true when it ended in error (R303, R307, R308, R471). -/
def runOp (s : State) (c : Nat) (j : MatJob) : State × Bool :=
  match j.op with
  | .mma f acc a b =>
    match tileBad s c acc with
    | some e => (killFor s j.req e 0, true)
    | none =>
      (match (panelBad s c f a).orElse (fun _ => panelBad s c f b) with
        | some x => (postFor s c { errRec j.req 6 0 0#64 32 with sval := word x.1 }, true)
        | none => (runMma s c f acc a b, false))
  | .mmz acc => (s.setMem (memZero s.mem (locAcc c (16384 * acc)) 16384), false)
  | .mmst acc x pitch cnt tb =>
    match tileBad s c acc with
    | some e => (killFor s j.req e 9, true)
    | none =>
      let dead := deadRows s j
      let s1 := (List.range 512).foldl (fun t i => putSector t j acc i (rowAddr j.op i)) s
      let s2 := rejectRows s1 j tb x pitch
      (if cnt && (s2.cell c).block.isSome && decide ((blockIn s2 c).grid = j.req.grid) && (barOf (s2.cell c) tb).valid then tbPend s2 c tb (-(16384 : Int)) (!dead.isEmpty || j.bad) none else s2, false)
  | .mmld acc x pitch =>
    let s1 := (List.range 512).foldl (fun t i => getSector t j acc i (rowAddr j.op i)) s
    (rejectRows s1 j 0 x pitch, false)

/-- The next accepted operation starts (R300). -/
def execMatrixOpStart (cell : Nat) (s : State) : Host.Outcome State Fault Refusal :=
  let x := s.cell cell
  match x.jobs with
  | j :: _ =>
    if x.engBusy then .next s
    else .next (putCell s cell { x with engBusy := true, engDue := cyc s cell + occupancy j.op })
  | [] => .next s

/-- The requests of an accumulator transfer to other packages, once. -/
def askOnce (s : State) (cell : Nat) (j : MatJob) : Option State :=
  if j.asked ∨ (farSectors j).isEmpty then none
  else
    let x := s.cell cell
    let s1 := putCell s cell { x with jobs := { j with asked := true } :: x.jobs.drop 1 }
    match j.op with
    | .mmst acc _ _ _ _ => some (askFarRows s1 j acc true)
    | .mmld acc _ _ => some (askFarRows s1 j acc false)
    | _ => none

/-- The running operation ends, its entry is free, and the next one starts at once (R299, R300). An accumulator transfer with rows in other packages
ends when those have been written or read there. -/
def execMatrixOpComplete (cell : Nat) (s : State) : Host.Outcome State Fault Refusal :=
  match (s.cell cell).jobs with
  | [] => .next s
  | j :: _ =>
    if !(s.cell cell).engBusy ∨ cyc s cell < (s.cell cell).engDue then .next s
    else
      match askOnce s cell j with
      | some t => .next t
      | none =>
        if rowsOut s j then .next s
        else
          let (s1, bad) := runOp s cell j
          let x := s1.cell cell
          let t := putCell s1 cell { x with
            jobs := x.jobs.drop 1, engBusy := false
            jobErr := match j.ident with | some id => tset x.jobErr id bad | none => x.jobErr }
          .next (if (t.cell cell).jobs.isEmpty then t else t.setAgenda (Instr.matrixOpStart cell :: t.agenda))

end Sys2Proof.Machine
end

