-- ==== Sys2Proof/Machine/System.lean ====
section
/-!
DEFINITION. The system instructions: `trap`, `sysret`, `halt`, `kill`, system registers, `tlbinv`, cache maintenance and
`probe` (spec/13_isa_async_and_system.md R377 to R383, spec/17_traps_and_containment.md R431, R437 to R441, R447).
-/
namespace Sys2Proof.Machine

open Sys2Proof

/-! ### Traps (R377, R431, R436) -/

/-- R377, R431: the acting lanes trap, the lowest first, after every effect of the bundle. After a trap of another issuer of the
gang in the same cycle all of them join the pending mask (R432). -/
def formTrap (gd : Guard) (code : BitVec 20) : Form :=
  {
    instr := (.trap gd code)
    act := fun s t ls =>
      match ls with
      | [] => t
      | p :: rest =>
        let lead := s.cur.leader
        let c := zx 20 code.toNat
        if s.cur.sup then doubleFault t p s.cur.ba 1 c 0#64
        else
          let t1 := modStrs t ls (fun x => { x with tcode := c, tnba := s.cur.nba })
          if (t.gang lead).late then putGang t1 lead { t1.gang lead with trapMask := actMask lead ls }
          else
            let t2 := takeTrap t1 lead p (laneMask lead ls) { cause := 1, sval := c } s.cur.nba
            putGang t2 lead { t2.gang lead with trapMask := actMask lead rest } }
def execTrap (gd : Guard) (code : BitVec 20) (s : State) : Host.Outcome State Fault Refusal :=
  run gd (formTrap gd code) s

/-- R437. -/
def formSysret (gd : Guard) : Form :=
  {
    instr := (.sysret gd)
    priv := 1
    act := fun s t ls => match ls with | [] => t | p :: _ => trapReturn t s.cur.leader p }
def execSysret (gd : Guard) (s : State) : Host.Outcome State Fault Refusal := run gd (formSysret gd) s

/-- R447: no position of the block issues again; the event `haltSnapshotComplete` writes the frame. -/
def formHalt (gd : Guard) : Form :=
  {
    instr := (.halt gd)
    priv := 1
    act := fun s t ls =>
      match ls, (t.cell (curCell s)).block with
      | _ :: _, some b => putBlock t b { t.block b with phase := .halting }
      | _, _ => t }
def execHalt (gd : Guard) (s : State) : Host.Outcome State Fault Refusal := run gd (formHalt gd) s

/-- Grids of an ASID that have not ended (R379). -/
def gridsOf (s : State) (asid : Nat) : List Nat := tkeys (s.grids.filter (fun e => e.2.live && decide (e.2.asid = asid)))

/-- R378, R379, R386. -/
def formKill (gd : Guard) (a : GReg) : Form :=
  {
    instr := (.kill gd a)
    priv := 1
    act := fun s t ls =>
      match ls with
      | [] => t
      | p :: _ =>
        let asid := (rdReg s p a).toNat % 65536
        let r := { recAt t p 2 with arg := asid }
        let own := asidIn s (curCell s) = asid
        let t1 := startKill t (gridsOf t asid) r (if own then none else some p) (if own then some p else none)
        if own then t1 else parkDone s t1 (fun _ => .event) }
def execKill (gd : Guard) (a : GReg) (s : State) : Host.Outcome State Fault Refusal := run gd (formKill gd a) s

/-! ### System registers (R218, R380, R438 to R441) -/

/-- The view of a system register for the lane at a position (R218, R438). -/
def srView (s : State) (p n : Nat) : Word :=
  let t := s.str p
  let c := cellOf p
  let x := s.cell c
  let lead := leaderOf s p
  if n = 0x000 then t.lpos
  else if n = 0x001 then ppos s p
  else if n = 0x002 then t.rank
  else if n = 0x003 then word (cyc s c)
  else if n = 0x004 then word (asidIn s c)
  else if n = 0x005 then cmcfg x
  else if n = 0x006 then x.lclreq
  else if n = 0x007 then x.rmtreq
  else if n = 0x008 then tokstat s x
  else if n = 0x009 then quotaView x
  else if n = 0x00A then ringcfg (s.die (dieOf c))
  else if n = 0x00B then zx 4 x.slotmask.toNat
  else if n = 0x00C then railsel x
  else if n = 0x00D then zx 16 (keyIn s c).toNat
  else if n = 0x010 then (s.gang lead).splitpol
  else if n = 0x011 then pathrot s lead
  else if n = 0x012 then lstate s lead
  else if n = 0x013 then pathmap s lead
  else if 0x020 ≤ n ∧ n < 0x024 then tget 0#64 x.subva (n - 0x020)
  else if 0x024 ≤ n ∧ n < 0x028 then tget 0#64 x.submap (n - 0x024)
  else if 0x028 ≤ n ∧ n < 0x030 then dcapOf s (asidIn s c) (n - 0x028)
  else if n = 0x100 then t.scause
  else if n = 0x101 then t.sval
  else if n = 0x102 then t.sret
  else if n = 0x103 then t.sinfo
  else if n = 0x104 then t.sscr0
  else if n = 0x105 then t.sscr1
  else if n = 0x106 then t.sscr2
  else if n = 0x107 then t.sscr3
  else if n = 0x110 then sqstat x
  else if 0x118 ≤ n ∧ n < 0x120 then sqrec x (n - 0x118)
  else if n = 0x130 then t.rbsel
  else if n = 0x131 then rbdata s c t.rbsel
  else if 0x140 ≤ n ∧ n < 0x180 then posView (s.str (64 * c + (n - 0x140)))
  else if 0x180 ≤ n ∧ n < 0x1A0 then tbDword x (n - 0x180)
  else if 0x1A0 ≤ n ∧ n < 0x1B0 then matchDword x (n - 0x1A0)
  else 0#64

/-- Whether an `rdsr` reads the accumulators through RBDATA (R441).
(DEDUCED: notes/assumptions/26.md) -/
def readsTiles (s : State) (p n : Nat) : Bool := decide (n = 0x131 ∧ field (s.str p).rbsel.toNat 60 4 = 4)

/-- What RBDATA reads of registers and tiles, for a selector in a cell (R441): R470 protects it. -/
def rbReads (c : Nat) (sel : Word) : List RegId :=
  let pos := 64 * c + field sel.toNat 54 6
  let ix := field sel.toNat 0 21
  match field sel.toNat 60 4 with
  | 0 =>
    if 4 ≤ ix ∧ ix < 36 then [.g pos (ix - 4)]
    else if 36 ≤ ix ∧ ix < 100 then [.w pos ((ix - 36) / 4)]
    else if 100 ≤ ix ∧ ix < 112 then [.e pos ((ix - 100) / 6)]
    else if 112 ≤ ix ∧ ix < 120 then [.link (4 * pos + (ix - 112) / 2)]
    else []
  | 1 => if ix < 16 then [.k pos ix] else []
  | 2 => [.h (16 * c + pos % 16) ix]
  | 4 => [.acc c (ix / 4)]
  | _ => []

/-- R380, R217, R441. -/
def formRdsr (gd : Guard) (d : GReg) (srn : BitVec 12) : Form :=
  {
    gForm (.rdsr gd d srn) d (fun s p => srView s p srn.toNat) with
    reads := fun s p => if srn.toNat = 0x131 then rbReads (cellOf p) (s.str p).rbsel else []
    priv := if srnRead srn.toNat = some true then 2 else 0
    holds := fun s ls =>
      let l := (s.cell (curCell s)).jobs.map (·.num)
      if ls.any (fun p => readsTiles s p srn.toNat) && !l.isEmpty then
        .park .matrix (s.cur.lanes.map fun p => (p, WaitFor.jobs l)) []
      else .ok }
def execRdsr (gd : Guard) (d : GReg) (srn : BitVec 12) (s : State) : Host.Outcome State Fault Refusal :=
  run gd (formRdsr gd d srn) s

/-- The bits of some registers that a write can set (R137, R138, R347, R439, R441). -/
def subvaMask : Word := 0x81FFFFFFFFE0FFFF#64
def submapMask : Word := 0x000FFFFFFFFFFF00#64
def rbselMask : Word := 0xFFC00000001FFFFF#64
def dcapBits (v : Word) : Word := if capMc v then v else v &&& ~~~0x3000000#64
def addrBits (v : Word) : Word := v &&& ~~~3#64

/-- A sibling's PC moves (R441): what it waited for, its path's release from a rejoin set apart, is given up.
(DEDUCED: notes/assumptions/39.md) -/
def movePc (v : Word) (t : Strand) : Strand :=
  { t with
    pc := addrBits v, nba := addrBits v, mon := none, deadline := none, pollTo := none, paid := false
    wait := match t.lmode with | .waiting _ => t.wait | _ => .nothing }
/-- A 64-bit word of a wide value replaced. -/
def putDw (v i : Nat) (w : Word) : Nat := setElem v 64 i w.toNat
/-- A write of doubleword i of a strand record (R441, R181). -/
def writeStrandDw (s : State) (pos i : Nat) (v : Word) : State :=
  if i = 0 then modStr s pos (movePc v)
  else if i = 2 then (List.range 8).foldl (fun t n => wrP t pos n (v.getLsbD n)) s
  else if i < 4 then s
  else if i < 36 then wrG s pos (i - 4) v
  else if i < 100 then wrW s pos ((i - 36) / 4) (BitVec.ofNat 256 (putDw (rdW s pos ((i - 36) / 4)).toNat ((i - 36) % 4) v))
  else if i < 112 then
    (if (i - 100) % 6 < 5 then
      wrE s pos ((i - 100) / 6) (BitVec.ofNat 320 (putDw (rdE s pos ((i - 100) / 6)).toNat ((i - 100) % 6) v))
    else wrEf s pos ((i - 100) / 6) (BitVec.ofNat 3 v.toNat))
  else s
/-- A write to RBDATA by a lane (R441). -/
def writeRb (s : State) (p : Nat) (v : Word) : State :=
  let sel := (s.str p).rbsel.toNat
  let q := 64 * cellOf p + field sel 54 6
  let i := field sel 0 21
  if field sel 60 4 = 0 ∧ i < 128 ∧ (s.str q).st = .frozen ∧ leaderOf s q = leaderOf s p then writeStrandDw s q i v else s

/-- `wrsr` of a register by the lane at a position (R218, R438). -/
def srWrite (s : State) (p n : Nat) (v : Word) : State :=
  let c := cellOf p
  let x := s.cell c
  let lead := leaderOf s p
  if n = 0x010 then putGang s lead { s.gang lead with splitpol := zx 5 v.toNat }
  else if 0x020 ≤ n ∧ n < 0x024 then putCell s c { x with subva := tset x.subva (n - 0x020) (v &&& subvaMask) }
  else if 0x024 ≤ n ∧ n < 0x028 then putCell s c { x with submap := tset x.submap (n - 0x024) (v &&& submapMask) }
  else if 0x028 ≤ n ∧ n < 0x030 then
    s.setPkg { s.pkg with dcap := tset s.pkg.dcap (8 * asidIn s c + (n - 0x028)) (dcapBits v) }
  else if n = 0x102 then modStr s p (fun t => { t with sret := addrBits v })
  else if n = 0x104 then modStr s p (fun t => { t with sscr0 := v })
  else if n = 0x105 then modStr s p (fun t => { t with sscr1 := v })
  else if n = 0x106 then modStr s p (fun t => { t with sscr2 := v })
  else if n = 0x107 then modStr s p (fun t => { t with sscr3 := v })
  else if n = 0x110 then putCell s c { x with note := v.getLsbD 7 }
  else if n = 0x111 then putCell s c { x with sq := x.sq.drop 1 }
  else if n = 0x130 then modStr s p (fun t => { t with rbsel := v &&& rbselMask })
  else if n = 0x131 then writeRb s p v
  else s

/-- SPLITPOL of R459. -/
def splitpolCheck (n : Nat) (v : Word) : Option TrapInfo :=
  if n = 0x010 ∧ (v.toNat % 32 = 0 ∨ 16 < v.toNat % 32) then some (operandFault 2 v) else none

/-- R380, R217, R459. -/
def formWrsr (gd : Guard) (d : GReg) (srn : BitVec 12) : Form :=
  {
    instr := (.wrsr gd d srn)
    priv := if srnWrite srn.toNat = some true then 3 else 0
    operand := fun s ls => lowestStage s ls fun p => splitpolCheck srn.toNat (rdReg s p d)
    act := fun s t ls => if ls.isEmpty then t else srWrite t (lowestOf s ls) srn.toNat (rdReg s (lowestOf s ls) d) }
def execWrsr (gd : Guard) (d : GReg) (srn : BitVec 12) (s : State) : Host.Outcome State Fault Refusal :=
  run gd (formWrsr gd d srn) s

/-! ### tlbinv (R144, R381) -/

/-- Numbers of the work in flight whose accesses a removed entry may have translated (R144).
(DEDUCED: notes/assumptions/42.md) -/
def translated (s : State) (i : Inval) : List Nat :=
  tkeys (s.pend.filter (fun e => i.hitsAsid e.2.req.asid && e.2.parts.any (fun p => p.val.isNone)))
    ++ tkeys (s.stores.filter (fun e => i.hitsAsid (s.grid e.2.grid).asid && storeLeft s e.2))
    ++ tkeys (s.xfers.filter (fun e => i.hitsAsid e.2.req.asid && e.2.pages.any i.hits))
    ++ s.cells.flatMap (fun e => (e.2.jobs.filter (fun j => i.hitsAsid j.req.asid && !j.rows.isEmpty)).map (·.id))
    ++ tkeys (s.chases.filter (fun e => i.hitsAsid e.2.req.asid && e.2.away))
    ++ s.strands.filterMap (fun e => match e.2.mon with
      | some m => if i.hitsAsid (asidIn s (cellOf e.1)) && !m.armed && m.done.isNone then some m.stamp else none
      | none => none)

/-- The entries leave every TLB and chase translation cache, and walks in flight are discarded. -/
def invalidate (s : State) (i : Inval) : State :=
  let s1 := s.setCells (s.cells.map fun e => (e.1, { e.2 with tlb := e.2.tlb.filter (fun t => !i.hits t) }))
  let s2 := s1.setWalks (s1.walks.filter fun e => !i.near e.2.asid e.2.va)
  s2.setPkg { s2.pkg with chaseTlb := s2.pkg.chaseTlb.map fun e => (e.1, e.2.filter (fun t => !i.hits t)) }

/-- The entries go at once, and none comes back before the instruction retires, which is when every access that they translated has
been performed (R144). -/
def tlbForm (i : Instr) (what : State → Nat → Inval) : Form := {
  instr := i
  priv := 1
  act := fun s t ls =>
    if ls.isEmpty then t
    else
      let w := what s (lowestOf s ls)
      modStrs (parkDone s (invalidate t w) (fun _ => .sync (translated t w) (t.time + t.pace.sync))) s.cur.lanes
        (fun x => { x with inval := some w }) }

/-- R381, R144. -/
def formTlbinvAll (gd : Guard) : Form := tlbForm (.tlbinvAll gd) (fun _ _ => { asid := none, va := none })
def execTlbinvAll (gd : Guard) (s : State) : Host.Outcome State Fault Refusal := run gd (formTlbinvAll gd) s

/-- R381, R144. -/
def formTlbinvAsid (gd : Guard) (a : GReg) : Form :=
  tlbForm (.tlbinvAsid gd a) (fun s p => { asid := some ((rdReg s p a).toNat % 65536), va := none })
def execTlbinvAsid (gd : Guard) (a : GReg) (s : State) : Host.Outcome State Fault Refusal :=
  run gd (formTlbinvAsid gd a) s

/-- R381, R144. -/
def formTlbinvPage (gd : Guard) (a : GReg) (b : GReg) : Form :=
  tlbForm (.tlbinvPage gd a b) (fun s p => { asid := some ((rdReg s p a).toNat % 65536), va := some (rdReg s p b).toNat })
def execTlbinvPage (gd : Guard) (a : GReg) (b : GReg) (s : State) : Host.Outcome State Fault Refusal :=
  run gd (formTlbinvPage gd a b) s

/-! ### Cache maintenance (R382) -/

/-- The storage sector or the key of a sector of another package that an address names, its page translated as `pf`
translates it. -/
def lineOf (sup : Bool) (c : Nat) (s : State) (va : Word) : State × Option Nat :=
  match quietTarget s c sup (fun e => e.rd && !e.dev) va with
  | (t, some (.home loc _)) => (t, some (loc / 32))
  | (t, some (.remote pkg pa)) => (t, some (farKey pkg pa))
  | (t, _) => (t, none)
def rangeOf (s : State) (p : Nat) (a b : GReg) : List Word := sectorList (rdReg s p a) (Nat.min (rdReg s p b).toNat (2 ^ 30))
/-- Write back and drop a sector of a cell's L1. With the host link down the dirty bytes of host memory are on their way until it is up
again (R502). -/
def flushLine (s : State) (c sec : Nat) : State :=
  match tfind (s.cell c).l1 sec with
  | none => s
  | some l =>
    if !s.pkg.hostUp && decide (homeDie (32 * sec) = 4 ∧ l.dirty ≠ 0#32) then
      takeFresh (s.setStores (tset s.stores s.fresh { cell := c, pos := 64 * c, grid := l.grid, sector := sec, due := s.time }))
    else l1Flush s c sec
/-- Apply an act to every sector of the ranges of the acting lanes, and wait for its end (R386). -/
def lineForm (i : Instr) (priv : Nat) (a b : GReg) (f : State → Nat → Nat → State) : Form := {
  instr := i
  priv := priv
  act := fun s t ls =>
    if ls.isEmpty then t
    else
      let c := curCell s
      let t1 := ls.foldl (fun u p => (rangeOf s p a b).foldl (fun v va =>
        match lineOf s.cur.sup c v va with
        | (x, some k) => f x c k
        | (x, none) => x) u) t
      parkDone s t1 (fun _ => .sync ((List.range (t1.fresh - t.fresh)).map (t.fresh + ·)) (t1.time + t1.pace.sync)) }

/-- R382. -/
def formCwb (gd : Guard) (a : GReg) (b : GReg) : Form :=
  lineForm (.cwb gd a b) 0 a b (fun s c k => match tfind (s.cell c).l1 k with
    | some l => if l.dirty = 0#32 then s else flushLine s c k
    | none => s)
def execCwb (gd : Guard) (a : GReg) (b : GReg) (s : State) : Host.Outcome State Fault Refusal :=
  run gd (formCwb gd a b) s

/-- R382: every L1 of the package; the model keeps no other cache that holds data of its own. -/
def formCinv (gd : Guard) (a : GReg) (b : GReg) : Form :=
  lineForm (.cinv gd a b) 1 a b (fun s _ k => (tkeys s.cells).foldl (fun t c => flushLine t c k) s)
def execCinv (gd : Guard) (a : GReg) (b : GReg) (s : State) : Host.Outcome State Fault Refusal :=
  run gd (formCinv gd a b) s

/-! ### probe (R383) -/

/-- The entry of the TLB or the held fault code of a probed address. -/
def probeWord (s : State) (p : Nat) (va : Word) : Word :=
  if !canonical va then 7#64
  else if window va ≠ .no then word (2 ^ 53)
  else
    match tlbFind (s.cell (cellOf p)).tlb (asidIn s (cellOf p)) va.toNat with
    | some e =>
      if (match e.chunk with | some b => b.getLsbD (field va.toNat 10 6) | none => true) then
        word (2 ^ 63 + e.place % 16 * 2 ^ 59 + bCode e.x * 2 ^ 58 + bCode e.w * 2 ^ 57 + bCode e.rd * 2 ^ 56
          + bCode e.sup * 2 ^ 55 + bCode e.dev * 2 ^ 54 + (e.base + (va.toNat - e.va)) % 2 ^ 52)
      else 9#64
    | none =>
      (match heldFail (s.cell (cellOf p)) (s.str p).walkFail va.toNat with
        | some code => word code
        | none => 0#64)
/-- Whether a probed address needs a walk. -/
def probeMiss (s : State) (p : Nat) (va : Word) : Bool :=
  canonical va && decide (window va = .no) && (tlbFind (s.cell (cellOf p)).tlb (asidIn s (cellOf p)) va.toNat).isNone
    && (heldFail (s.cell (cellOf p)) (s.str p).walkFail va.toNat).isNone

/-- R383. -/
def formProbe (gd : Guard) (d : GReg) (a : GReg) : Form :=
  {
    gLater (.probe gd d a) d (fun s p => probeWord s p (rdReg s p a)) with
    priv := 1
    access := fun s ls =>
      let l := ls.filter (fun p => probeMiss s p (rdReg s p a))
      if l.isEmpty then .ok else .park .translate [] (l.map fun p => (p, (rdReg s p a).toNat)) }
def execProbe (gd : Guard) (d : GReg) (a : GReg) (s : State) : Host.Outcome State Fault Refusal :=
  run gd (formProbe gd d a) s

end Sys2Proof.Machine
end

