-- ==== Sys2Proof/Machine/FormOf.lean ====
section
/-!
DEFINITION. The form of each encoded instruction (spec/08_isa_formats.md R197 to R203), for the words of a pair and for the
programs of chase walks. An event of the package has none.
-/
namespace Sys2Proof.Machine

open Sys2Proof

def formOf (i : Instr) : Option Form :=
  match i with
  | .add gd d a b t => some (formAdd gd d a b t)
  | .sub gd d a b t => some (formSub gd d a b t)
  | .mul gd d a b t => some (formMul gd d a b t)
  | .mulh gd d a b t => some (formMulh gd d a b t)
  | .mad gd d a b t => some (formMad gd d a b t)
  | .div gd d a b t => some (formDiv gd d a b t)
  | .rem gd d a b t => some (formRem gd d a b t)
  | .and gd d a b t => some (formAnd gd d a b t)
  | .or gd d a b t => some (formOr gd d a b t)
  | .xor gd d a b t => some (formXor gd d a b t)
  | .andn gd d a b t => some (formAndn gd d a b t)
  | .shl gd d a b t => some (formShl gd d a b t)
  | .shr gd d a b t => some (formShr gd d a b t)
  | .sar gd d a b t => some (formSar gd d a b t)
  | .rot gd d a b t => some (formRot gd d a b t)
  | .min gd d a b t => some (formMin gd d a b t)
  | .max gd d a b t => some (formMax gd d a b t)
  | .addi gd d a imm t => some (formAddi gd d a imm t)
  | .andi gd d a imm t => some (formAndi gd d a imm t)
  | .ori gd d a imm t => some (formOri gd d a imm t)
  | .xori gd d a imm t => some (formXori gd d a imm t)
  | .li gd d imm => some (formLi gd d imm)
  | .lih gd d imm => some (formLih gd d imm)
  | .abs gd d a t => some (formAbs gd d a t)
  | .neg gd d a t => some (formNeg gd d a t)
  | .clz gd d a t => some (formClz gd d a t)
  | .ctz gd d a t => some (formCtz gd d a t)
  | .popc gd d a t => some (formPopc gd d a t)
  | .brev gd d a t => some (formBrev gd d a t)
  | .bfx gd d a b t => some (formBfx gd d a b t)
  | .bfi gd d a b t => some (formBfi gd d a b t)
  | .sel gd d a b q => some (formSel gd d a b q)
  | .lea gd d a b sh => some (formLea gd d a b sh)
  | .cmp gd c p a b t => some (formCmp gd c p a b t)
  | .pand gd p a b => some (formPand gd p a b)
  | .por gd p a b => some (formPor gd p a b)
  | .pxor gd p a b => some (formPxor gd p a b)
  | .pnot gd p a => some (formPnot gd p a)
  | .voteSome gd p a => some (formVoteSome gd p a)
  | .voteEvery gd p a => some (formVoteEvery gd p a)
  | .voteAgree gd p a => some (formVoteAgree gd p a)
  | .ballot gd d a => some (formBallot gd d a)
  | .shflPick gd d a b => some (formShflPick gd d a b)
  | .shflLo gd d a b => some (formShflLo gd d a b)
  | .shflHi gd d a b => some (formShflHi gd d a b)
  | .shflMir gd d a b => some (formShflMir gd d a b)
  | .bcast gd d a lane => some (formBcast gd d a lane)
  | .fadd gd r d a b f => some (formFadd gd r d a b f)
  | .fsub gd r d a b f => some (formFsub gd r d a b f)
  | .fmul gd r d a b f => some (formFmul gd r d a b f)
  | .fma gd r d a b f => some (formFma gd r d a b f)
  | .fmin gd d a b f => some (formFmin gd d a b f)
  | .fmax gd d a b f => some (formFmax gd d a b f)
  | .fdiv gd r d a b f => some (formFdiv gd r d a b f)
  | .fsqrt gd r d a f => some (formFsqrt gd r d a f)
  | .fabs gd d a f => some (formFabs gd d a f)
  | .fneg gd d a f => some (formFneg gd d a f)
  | .fcmp gd c p a b f => some (formFcmp gd c p a b f)
  | .vadd gd r d a b e => some (formVadd gd r d a b e)
  | .vsub gd r d a b e => some (formVsub gd r d a b e)
  | .vmul gd r d a b e => some (formVmul gd r d a b e)
  | .vfma gd r d a b e => some (formVfma gd r d a b e)
  | .vmin gd d a b e => some (formVmin gd d a b e)
  | .vmax gd d a b e => some (formVmax gd d a b e)
  | .vabs gd d a e => some (formVabs gd d a e)
  | .vneg gd d a e => some (formVneg gd d a e)
  | .vrcp gd d a e => some (formVrcp gd d a e)
  | .vrsq gd d a e => some (formVrsq gd d a e)
  | .vsqrt gd d a e => some (formVsqrt gd d a e)
  | .vexp2 gd d a e => some (formVexp2 gd d a e)
  | .vlog2 gd d a e => some (formVlog2 gd d a e)
  | .vsin gd d a e => some (formVsin gd d a e)
  | .vcos gd d a e => some (formVcos gd d a e)
  | .vcmp gd c d a b e => some (formVcmp gd c d a b e)
  | .vsel gd d a b => some (formVsel gd d a b)
  | .vsum gd d a e => some (formVsum gd d a e)
  | .vdot gd d a b e => some (formVdot gd d a b e)
  | .vperm gd d a b sz => some (formVperm gd d a b sz)
  | .cvtScalar gd d a dt st r => some (formCvtScalar gd d a dt st r)
  | .cvtWide gd d a dt st r => some (formCvtWide gd d a dt st r)
  | .pack gd d a b pair r ks => some (formPack gd d a b pair r ks)
  | .unpk gd d a hi pair ks => some (formUnpk gd d a hi pair ks)
  | .scl gd d a b pair r ks => some (formScl gd d a b pair r ks)
  | .xadd gd e src => some (formXadd gd e src)
  | .xget gd d e f64 r => some (formXget gd d e f64 r)
  | .xclr gd e => some (formXclr gd e)
  | .xmrg gd e src => some (formXmrg gd e src)
  | .mma gd rel f c a b => some (formMma gd rel f c a b)
  | .qrd gd d x fwd => some (formQrd gd d x fwd)
  | .qwr gd y a => some (formQwr gd y a)
  | .krd gd d k => some (formKrd gd d k)
  | .kwr gd k a => some (formKwr gd k a)
  | .br gd disp => some (formBr gd disp)
  | .call gd disp => some (formCall gd disp)
  | .brx gd a => some (formBrx gd a)
  | .callx gd a => some (formCallx gd a)
  | .ret gd a => some (formRet gd a)
  | .dbnz gd d disp => some (formDbnz gd d disp)
  | .jset gd j => some (formJset gd j)
  | .jadd gd j => some (formJadd gd j)
  | .jquit gd j => some (formJquit gd j)
  | .jwait gd j => some (formJwait gd j)
  | .jtest gd p j => some (formJtest gd p j)
  | .jread gd d j => some (formJread gd d j)
  | .jwrite gd j a => some (formJwrite gd j a)
  | .fuse gd glog => some (formFuse gd glog)
  | .split gd => some (formSplit gd)
  | .detach gd => some (formDetach gd)
  | .stop gd => some (formStop gd)
  | .spawn gd a w => some (formSpawn gd a w)
  | .spawnf gd a => some (formSpawnf gd a)
  | .yield gd => some (formYield gd)
  | .grid gd a => some (formGrid gd a)
  | .ld gd d a sgn off z => some (formLd gd d a sgn off z)
  | .ldAcq gd d a sc sgn z => some (formLdAcq gd d a sc sgn z)
  | .ldDev gd d a acq sgn z => some (formLdDev gd d a acq sgn z)
  | .st gd off a b z => some (formSt gd off a b z)
  | .stRel gd sc a b z => some (formStRel gd sc a b z)
  | .stDev gd rel a b z => some (formStDev gd rel a b z)
  | .ldw gd w a off => some (formLdw gd w a off)
  | .stw gd w a off => some (formStw gd w a off)
  | .ldwAcq gd w a sc => some (formLdwAcq gd w a sc)
  | .stwRel gd w a sc => some (formStwRel gd w a sc)
  | .lds gd d a sgn off z => some (formLds gd d a sgn off z)
  | .sts gd off a b z => some (formSts gd off a b z)
  | .ldsAcq gd d a sc sgn z => some (formLdsAcq gd d a sc sgn z)
  | .stsRel gd d a sc z => some (formStsRel gd d a sc z)
  | .ldsw gd w a off => some (formLdsw gd w a off)
  | .stsw gd w a off => some (formStsw gd w a off)
  | .ldswAcq gd w a sc => some (formLdswAcq gd w a sc)
  | .stswRel gd w a sc => some (formStswRel gd w a sc)
  | .gat gd ord w a x e8 => some (formGat gd ord w a x e8)
  | .scat gd ord w a x e8 => some (formScat gd ord w a x e8)
  | .pf gd a b => some (formPf gd a b)
  | .ldk gd k a off => some (formLdk gd k a off)
  | .ldkAcq gd k a sc => some (formLdkAcq gd k a sc)
  | .xld gd e a off => some (formXld gd e a off)
  | .xldAcq gd e a sc => some (formXldAcq gd e a sc)
  | .xst gd e a off => some (formXst gd e a off)
  | .xstRel gd e a sc => some (formXstRel gd e a sc)
  | .amoAdd gd d a w64 o => some (formAmoAdd gd d a w64 o)
  | .amoAnd gd d a w64 o => some (formAmoAnd gd d a w64 o)
  | .amoOr gd d a w64 o => some (formAmoOr gd d a w64 o)
  | .amoXor gd d a w64 o => some (formAmoXor gd d a w64 o)
  | .amoMinI gd d a w64 o => some (formAmoMinI gd d a w64 o)
  | .amoMinN gd d a w64 o => some (formAmoMinN gd d a w64 o)
  | .amoMaxI gd d a w64 o => some (formAmoMaxI gd d a w64 o)
  | .amoMaxN gd d a w64 o => some (formAmoMaxN gd d a w64 o)
  | .amoSwap gd d a w64 o => some (formAmoSwap gd d a w64 o)
  | .amoPmin gd d a o => some (formAmoPmin gd d a o)
  | .cas gd d a w64 o => some (formCas gd d a w64 o)
  | .cas2 gd d a o => some (formCas2 gd d a o)
  | .amofF32 gd d a o => some (formAmofF32 gd d a o)
  | .amofF64 gd d a o => some (formAmofF64 gd d a o)
  | .amoxF32 gd d a o => some (formAmoxF32 gd d a o)
  | .amoxF64 gd d a o => some (formAmoxF64 gd d a o)
  | .fenceAcq gd sc => some (formFenceAcq gd sc)
  | .fenceRel gd sc => some (formFenceRel gd sc)
  | .fenceAr gd sc => some (formFenceAr gd sc)
  | .fenceSc gd sc => some (formFenceSc gd sc)
  | .wait gd d a w64 acq => some (formWait gd d a w64 acq)
  | .cpy gd rel d a b => some (formCpy gd rel d a b)
  | .tld gd rel d a b => some (formTld gd rel d a b)
  | .tldm gd rel d a b => some (formTldm gd rel d a b)
  | .chase gd rel d a b => some (formChase gd rel d a b)
  | .multicastSub gd a => some (formMulticastSub gd a)
  | .multicastUnsub gd a => some (formMulticastUnsub gd a)
  | .tbinit gd b a => some (formTbinit gd b a)
  | .tbexp gd b a => some (formTbexp gd b a)
  | .tbarr gd b => some (formTbarr gd b)
  | .tbwait gd b => some (formTbwait gd b)
  | .tbtest gd p b => some (formTbtest gd p b)
  | .bbarr gd => some (formBbarr gd)
  | .bbwait gd => some (formBbwait gd)
  | .send gd a w => some (formSend gd a w)
  | .recv gd w => some (formRecv gd w)
  | .recvt gd w a p => some (formRecvt gd w a p)
  | .mmz gd c => some (formMmz gd c)
  | .mmst gd c a b => some (formMmst gd c a b)
  | .mmld gd c a b => some (formMmld gd c a b)
  | .mmpoll gd d a => some (formMmpoll gd d a)
  | .mmjob gd d a f => some (formMmjob gd d a f)
  | .tokq gd d => some (formTokq gd d)
  | .trap gd code => some (formTrap gd code)
  | .sysret gd => some (formSysret gd)
  | .halt gd => some (formHalt gd)
  | .kill gd a => some (formKill gd a)
  | .rdsr gd d srn => some (formRdsr gd d srn)
  | .wrsr gd d srn => some (formWrsr gd d srn)
  | .tlbinvAll gd => some (formTlbinvAll gd)
  | .tlbinvAsid gd a => some (formTlbinvAsid gd a)
  | .tlbinvPage gd a b => some (formTlbinvPage gd a b)
  | .cwb gd a b => some (formCwb gd a b)
  | .cinv gd a b => some (formCinv gd a b)
  | .probe gd d a => some (formProbe gd d a)
  | .syncOpComplete .. => none
  | .scoreboardResultLands .. => none
  | .storePerformed .. => none
  | .pageWalkComplete .. => none
  | .bankingSwitchComplete .. => none
  | .spawnTimeoutRelease .. => none
  | .gatheredGangPlace .. => none
  | .pathQuantumExpiry .. => none
  | .orphanFault .. => none
  | .sqnote .. => none
  | .monitorFire .. => none
  | .waitTimeout .. => none
  | .recvtTimeout .. => none
  | .deliveryArrival .. => none
  | .transferSourceRead .. => none
  | .transferNotice .. => none
  | .chaseStep .. => none
  | .chaseStepLimit .. => none
  | .multicastJoinArrival .. => none
  | .blockBarrierSweep .. => none
  | .messageArrival .. => none
  | .messageResend .. => none
  | .matrixOpComplete .. => none
  | .matrixOpStart .. => none
  | .tokenRequestPaid .. => none
  | .ringStationStep .. => none
  | .ballastRevolution .. => none
  | .dispatchPlace => none
  | .quantumExpiry .. => none
  | .strandSave .. => none
  | .evictionComplete .. => none
  | .gridComplete .. => none
  | .killComplete .. => none
  | .stallDetect .. => none
  | .blockstallDetect .. => none
  | .starveDetect .. => none
  | .launch .. => none
  | .hostMemoryAccess .. => none
  | .packageReset => none
  | .rstctlGo .. => none
  | .bootStageComplete .. => none
  | .attctlGo .. => none
  | .attestationReportDone => none
  | .migcmdGo .. => none
  | .migrationComplete => none
  | .railselWrite .. => none
  | .railSwitchComplete .. => none
  | .slotmaskWrite .. => none
  | .cfenceWrite .. => none
  | .ringcfgWrite .. => none
  | .fabcfgWrite .. => none
  | .registerWrite .. => none
  | .flitReceive .. => none
  | .e2eRetry .. => none
  | .laneErase .. => none
  | .portTrainingDone .. => none
  | .hopRetry .. => none
  | .hostLinkDown => none
  | .hostLinkUp => none
  | .thermalWarn .. => none
  | .thermalTrip .. => none
  | .railFault .. => none
  | .railHoldEnd .. => none
  | .hbmSupplyFault .. => none
  | .securityAlarm .. => none
  | .haltSnapshotComplete .. => none
  | .hostCxlCacheRequest .. => none
  | .switchPlaneLoss .. => none
  | .railReturnsToTolerance .. => none

end Sys2Proof.Machine
end

