-- ==== Sys2Proof/Machine/Landing.lean ====
section
/-!
DEFINITION. When a parked path goes on (spec/02_execution_model.md R46, R47, R62, R63), and the steps by which started work
ends: results that land (R46, spec/19_memory_and_delivery_faults.md R465, R468), stores performed at their homes
(spec/06_consistency_model.md R159), page walks (spec/05_translation.md R141, R142), the completions of
spec/13_isa_async_and_system.md R386, the banking switch (spec/04_memory_hierarchy.md R109), monitors and timeouts
(spec/12_isa_memory_and_sync.md R339, R340), the gathering unit (R57 to R59), the turn (R79), ORPHAN (R481) and SQNOTE (R433).
-/
namespace Sys2Proof.Machine

open Sys2Proof

/-! ### Parked paths -/

/-- Whether the work with a number is still in flight, whatever its kind. -/
def outstanding (s : State) (i : Nat) : Bool :=
  (tfind s.pend i).isSome || (match tfind s.stores i with | some e => storeLeft s e | none => false)
    || (tfind s.xfers i).isSome || (match tfind s.chases i with | some w => w.away | none => false) || (tfind s.joins i).isSome
    || (tfind s.walks i).isSome
    || s.strands.any (fun e => match e.2.mon with | some m => decide (m.stamp = i) && !m.armed && m.done.isNone | none => false)
    || s.cells.any (fun c => c.2.jobs.any (fun j => decide (j.id = i)))

/-- Whether a sector of another package has come for a position, or its read has failed. -/
def filled (s : State) (p key : Nat) : Bool :=
  (tfind (s.cell (cellOf p)).l1 key).isSome || (s.str p).readFail.any (fun f => decide (f.1 = key))

/-- Whether what a lane waits for has come. Barrier phases, and everything that an event names, are dealt with by their
events.
(DESIGN CHOICE: notes/assumptions/11.md) -/
def satisfied (s : State) (p : Nat) : Bool :=
  let c := cellOf p
  match (s.str p).wait with
  | .nothing => true
  | .regs l => l.all (fun r => !pendingFor s p r)
  | .alley pops pushes => pops.all (fun k => (tfind s.alley k).isSome) && pushes.all (fun k => (tfind s.alley k).isNone)
  | .presence l => l.all (fun x => (tfind s.absent x).isNone)
  | .walks l => l.all (fun i => (tfind s.walks i).isNone)
  | .token => (s.str p).paid
  | .tb _ _ => false
  | .tbBusy b => !tableNames s c b
  | .bb _ => false
  | .bbRecord => decide (s.pkg.bbRecords < 4096)
  | .message => !(s.str p).recvq.isEmpty
  | .spawn n l => canGather (s.cell c) n l
  | .jobRoom n => decide ((s.cell c).jobs.length + n ≤ 16)
  | .jobs l => (s.cell c).jobs.all (fun j => !l.contains j.num)
  | .room n => decide (pipeLoad s (gpipe p) + n ≤ 2048)
  | .table n => decide (tableUse s c + n ≤ 256)
  | .fence l => (stillFlying s l).isEmpty
  | .inject n => decide (injected s c + n ≤ 64)
  | .sync l t => decide (t ≤ s.time) && l.all (fun i => !outstanding s i)
  | .event => match (s.str p).mon with | some m => m.done.isSome | none => false
  | .hostLink => s.pkg.hostUp
  | .fills l => l.all (filled s p)

/-- The lanes that park and go on together with a position: its path, or the lane itself (R47, R435). -/
def unit (s : State) (p : Nat) : List Nat :=
  if (s.str p).st = .supervisor then [p]
  else match (s.str p).lmode with
    | .inPath n => (pathLanes s (leaderOf s p) n).filter (fun q => decide ((s.str q).st ≠ .supervisor))
    | _ => [p]

/-- Whether a lane is parked and waits for something that the sweep of a cycle judges. -/
def sweepable (t : Strand) : Bool :=
  decide (t.park ≠ .none ∧ t.park ≠ .rejoin ∧ t.park ≠ .fuse ∧ t.woken = none) &&
    (decide (liveSt t = .parked) || decide (t.st = .supervisor)) && decide (t.lmode ≠ .retired)
/-- A lane does not keep its path waiting. -/
def laneFree (s : State) (p : Nat) : Bool := !sweepable (s.str p) || satisfied s p
/-- A wait whose end is an event of its own (R386). -/
def isSync (w : WaitFor) : Bool :=
  match w with
  | .sync _ _ => true
  | .inject _ => true
  | _ => false
/-- Some lane of a path is parked and every lane's wait is over. -/
def readyToGo (s : State) (p : Nat) : Bool := (unit s p).any (fun q => sweepable (s.str q)) && (unit s p).all (laneFree s)

/-- The lanes of a path go on. -/
def wakeUnit (s : State) (p : Nat) : State :=
  modStrs s ((unit s p).filter (fun q => sweepable (s.str q))) (clearReason false)

/-- Parked positions that are the first of their paths. -/
def parkedHeads (s : State) : List Nat :=
  (tkeys (s.strands.filter (fun e => sweepable e.2))).filter fun p =>
    decide ((((unit s p).filter (fun q => sweepable (s.str q))).headD p) = p)

/-! ### Landing -/

/-- Whether an entry is a store's, or a prefetch's: it has acts, and nothing lands (R46). -/
def isStore (e : Pend) : Bool := !e.isRead && !e.atomic && !e.parts.isEmpty
/-- A failed read leaves its mark; a second one makes a record (R468). -/
def landMark (s : State) (e : Pend) (m : Mark) : State :=
  if e.regs.isEmpty && (match e.shape with | .none => true | _ => false) && !e.isRead then s
  else if (s.str e.pos).lmode = .retired ∨ (s.str e.pos).st = .free then s
  else match (s.str e.pos).mark with
    | none => modStr s e.pos (fun t => { t with mark := some m })
    | some _ => postFor s e.req.cell { errRec e.req m.code m.access m.addr (partBytes e.parts) with cause := m.cause }

/-- The values of an entry land in its registers. -/
def landValues (s : State) (e : Pend) : State :=
  (e.vals ++ landVals e.shape e.pos (e.parts.map (fun p => p.val.getD 0))).foldl putVal s

/-- Whether an entry whose acts are performed lands now: its latency has passed, and the cell cycles by which bank conflicts delay it
(R46, R107). -/
def mayLand (s : State) (e : Pend) : Bool := decide (e.due ≤ s.time ∧ e.late = 0 ∧ e.cycDue ≤ cyc s (cellOf e.pos))
/-- What becomes of an entry: it stays while an act is still to be performed or its time has not come, and then it lands. -/
def landPend (s : State) (id : Nat) (e : Pend) : State :=
  let gone := s.setPend (tdel s.pend id)
  if e.parts.any (fun p => p.val.isNone) then s.setPend (tset s.pend id e)
  else if isStore e then storeDone gone e e.mark
  else if mayLand s e then retireCheck (match e.mark with | some k => landMark gone e k | none => landValues gone e) e.pos
  else
    s.setPend (tset s.pend id
      (if e.due ≤ s.time ∧ e.late ≠ 0 then { e with late := 0, cycDue := cyc s (cellOf e.pos) + e.late } else e))

/-- Whether some act of an entry can be performed now that could not be before. -/
def actReady (s : State) (id : Nat) (e : Pend) : Bool :=
  (List.range e.parts.length).any fun i =>
    match e.parts[i]? with
    | some p => p.val.isNone && !p.sent && !heldPart s false e id (e.parts.take i) p
    | none => false
/-- Whether there is something to do for an entry: an act to perform, or a landing. -/
def landReady (s : State) (id : Nat) (e : Pend) : Bool :=
  if e.parts.any (fun p => p.val.isNone) then actReady s id e
  else isStore e || mayLand s e || decide (e.due ≤ s.time ∧ e.late ≠ 0)

/-- A scoreboarded result lands (R46): acts that waited are performed first, and while one still waits nothing lands. The L1 drops
its clean sectors as an acquire is performed (R158). -/
def execScoreboardResultLands (id : Nat) (s : State) : Host.Outcome State Fault Refusal :=
  match tfind s.pend id with
  | none => .next s
  | some e =>
    let x := doParts s false e id [] e.parts
    let done := (List.zip e.parts x.2.1).any (fun q => q.1.val.isNone && q.2.val.isSome)
    .next (landPend (if done then acqL1 x.1 e.req.cell e.acq else x.1) id
      { e with parts := x.2.1, mark := e.mark.orElse (fun _ => x.2.2), fill := e.fill || filledNow s e e.parts x.2.1 })

/-- The dirty bytes of a store's sector are performed at the home (R159). -/
def execStorePerformed (id : Nat) (s : State) : Host.Outcome State Fault Refusal :=
  match tfind s.stores id with
  | none => .next s
  | some e =>
    let t := s.setStores (tdel s.stores id)
    .next (if storeLeft s e then l1Flush t e.cell e.sector else t)

/-- Whether a walker of a cell is free (R142). -/
def walkerFree (s : State) (c : Nat) : Bool := decide (walkers s c < 1024)
/-- A page walk takes a walker that is free, or ends: its translation enters the cell's TLB, or its fault is held for the re-issue of its waiters (R141,
R142, R462). While a `tlbinv` that names its address has not retired, it is discarded and made again (R144). -/
def execPageWalkComplete (id : Nat) (s : State) : Host.Outcome State Fault Refusal :=
  match tfind s.walks id with
  | none => .next s
  | some w =>
    if w.queued then
      .next (if walkerFree s w.cell then s.setWalks (tset s.walks id { w with queued := false, due := s.time + s.pace.walk }) else s)
    else if invalOpen s w.asid w.va then .next (s.setWalks (tset s.walks id { w with due := s.time + s.pace.walk }))
    else
    let t := s.setWalks (tdel s.walks id)
    match walkAll s (dieOf w.cell) w.cell (s.cell w.cell) w.asid w.va with
    | .inl e => .next (putCell t w.cell { t.cell w.cell with tlb := tlbAdd (t.cell w.cell).tlb e })
    | .inr code => .next (modStrs t w.waiters (fun u => { u with walkFail := (w.va, code) :: u.walkFail }))

/-- The condition of R386 holds: the path goes on. -/
def execSyncOpComplete (pos : Nat) (s : State) : Host.Outcome State Fault Refusal :=
  if (unit s pos).any (fun q => isSync (s.str q).wait) && readyToGo s pos then .next (wakeUnit s pos) else .next s

/-- The banking switch ends: every L1 line is written back and dropped, BANK takes the value the gangs call for (R109,
R110). -/
def endBanking (s : State) (c : Nat) : State :=
  let s1 := l1WriteBack s c
  let s2 := putCell s1 c { s1.cell c with
    l1 := [], bankSw := none, bank := if (heldIn s1 c).isEmpty then (s1.cell c).bank else holdsGang s1 c }
  modStrs s2 (heldIn s2 c) (fun t => { t with bankHold := false })
/-- Whether a phase of the banking switch of a cell is over (R109). -/
def bankReady (s : State) (c : Nat) : Bool :=
  match (s.cell c).bankSw with
  | none => false
  | some (_, .fills) => !fillsOut s c
  | some (_, .sweep u) => decide (u ≤ cyc s c)
  | some (_, .back u) => decide (u ≤ cyc s c)
/-- A phase of the banking switch ends (R109): after the last fill the tags are swept for 32 cell cycles, then the D dirty sectors go
home, one in each, and then the switch is over. -/
def execBankingSwitchComplete (cell : Nat) (s : State) : Host.Outcome State Fault Refusal :=
  if !bankReady s cell then .next s
  else match (s.cell cell).bankSw with
    | none => .next s
    | some (t, .fills) => .next (putCell s cell { s.cell cell with bankSw := some (t, .sweep (cyc s cell + 33)) })
    | some (t, .sweep u) =>
      let d := ((s.cell cell).l1.filter (fun e => decide (e.2.dirty ≠ 0#32))).length
      .next (if d = 0 then endBanking s cell else putCell s cell { s.cell cell with bankSw := some (t, .back (u + d)) })
    | some (_, .back _) => .next (endBanking s cell)

/-! ### Monitors and timeouts -/

/-- The monitor of a lane fires: the word is read at its home again (R339). -/
def execMonitorFire (pos : Nat) (s : State) : Host.Outcome State Fault Refusal :=
  match (s.str pos).mon with
  | none => .next s
  | some m =>
    if m.done.isSome ∨ !m.armed then .next s
    else match monRead s pos m 1 with
      | (t, .inr x) => .next (putMon t pos x)
      | (t, .inl v) => .next (putMon t pos { m with done := some (v, 1) })

/-- A `wait` times out: it completes without a read (R339, R340). -/
def execWaitTimeout (pos : Nat) (s : State) : Host.Outcome State Fault Refusal :=
  match (s.str pos).mon with
  | none => .next s
  | some m => if m.done.isSome then .next s else .next (putMon s pos { m with armed := false, done := some (m.expect, 2) })

/-- The lane's T of a `recvt` has passed (R375). -/
def execRecvtTimeout (pos : Nat) (s : State) : Host.Outcome State Fault Refusal :=
  if (s.str pos).wait = .message ∧ (s.str pos).deadline.isSome then
    .next (modStr s pos (fun t => { t with wait := .nothing }))
  else .next s

/-! ### The gathering unit (R57 to R59) -/

/-- The timeout of the partial gang of a descriptor address: it is released as it stands. -/
def execSpawnTimeoutRelease (cell desc : Nat) (s : State) : Host.Outcome State Fault Refusal :=
  .next (putCell s cell (releasePartial (s.cell cell) desc))

/-- The gang that was released first is placed once positions for it are FREE. -/
def execGatheredGangPlace (cell : Nat) (s : State) : Host.Outcome State Fault Refusal :=
  match firstReleased (s.cell cell).partials with
  | none => .next s
  | some p =>
    match gangPlace s cell p.glog with
    | none => .next s
    | some ls => .next (placeGathered s cell p ls)

/-! ### The turn, ORPHAN and SQNOTE -/

/-- The turn-holder has used its last unit (R79). -/
def execPathQuantumExpiry (leader : Nat) (s : State) : Host.Outcome State Fault Refusal :=
  let g := s.gang leader
  if g.turn ∧ g.qleft = 0 then .next (passTurn s leader) else .next s

/-- The lowest orphaned lane traps (R481). A gang that stands collapsed keeps its fault due. -/
def execOrphanFault (leader : Nat) (s : State) : Host.Outcome State Fault Refusal :=
  let g := s.gang leader
  match g.orphans with
  | [] => .next s
  | o :: r =>
    if collapsed g then .next s
    else
      let s1 := putGang s leader { g with orphans := r }
      match (gangLanes s leader).filter (fun p => o.lanes.getLsbD (p - leader)) with
      | [] => .next s1
      | p :: _ => .next (takeTrap s1 leader p o.lanes.toNat { cause := 13, sval := o.view } (s.str p).pc)

/-- A bundle of the block takes SQNOTE (R433): the lane named traps, and the bundle has no effect. -/
def execSqnote (pos : Nat) (s : State) : Host.Outcome State Fault Refusal :=
  let c := cellOf pos
  let lead := leaderOf s pos
  if !(s.cell c).noteDue ∨ collapsed (s.gang lead) then .next s
  else
    let s1 := putCell s c { s.cell c with noteDue := false }
    .next (takeTrap s1 lead pos (2 ^ (pos - lead)) { cause := 14, sval := sqstat (s1.cell c) } (s.str pos).pc)

end Sys2Proof.Machine
end

