-- ==== Sys2Proof/Machine/Messages.lean ====
section
/-!
DEFINITION. Messages on their way (spec/13_isa_async_and_system.md R352, R372 to R374, spec/20_progress_failures.md R485,
R486): injection, arrival, the overflow region, refusal and resending.
-/
namespace Sys2Proof.Machine

open Sys2Proof

/-! ### Evicted blocks that a cell still holds (R352, R178) -/

/-- Place of a cell in the rectangle of a block, CX + W × CY. -/
def placeIn (s : State) (b c : Nat) : Option Nat := (blockCells s b).findIdx? (fun x => decide (x = c))
/-- The evicted blocks bound to a cell, in the order of the return list. -/
def boundTo (s : State) (c : Nat) : List Nat :=
  s.pkg.returns.filter fun b => (s.block b).bound && decide ((s.block b).phase = .evicted) && (blockCells s b).contains c
def blockKey (s : State) (b : Nat) : BitVec 16 := (s.grid (s.block b).grid).pkey
/-- The saved strand of an evicted block at a position of its rectangle. -/
def savedAt (s : State) (b pos : Nat) : Option Strand :=
  match placeIn s b (cellOf pos) with
  | none => none
  | some i => tfind (tget {} (s.block b).saved i).strands (posInCell pos)

/-! ### The overflow region (R374) -/

/-- Write a message into the next free record of a cell's overflow region. The answer is none where there is no room. -/
def spillTo (s : State) (pos : Nat) (gen : Nat) (key : BitVec 16) (payload : Wide) : Option State :=
  let c := cellOf pos
  let x := s.cell c
  let n := 2 ^ (x.ovfcfg.toNat % 32)
  let base := x.ovfcfg.toNat / 4096 * 4096
  if n = 1 then none
  else match freeSlot s base n 32 x.spillNext n with
    | none => none
    | some i =>
      match tableLoc (base + 64 * i) with
      | none => none
      | some a =>
        let s1 := writeDwords s a ((List.range 4).map (fun k => field payload.toNat (64 * k) 64) ++
          [2 ^ 63 + key.toNat * 2 ^ 32 + gen * 256 + posInCell pos, x.spillSeq % 2 ^ 64, 0, 0])
        some (putCell s1 c { s1.cell c with
          spillSeq := x.spillSeq + 1, spillNext := (i + 1) % n, ovfMade := false })

/-- A message that cannot be spilled is refused, with one OVERFLOW record for an episode, which tells how many the cell has refused so
far (R476, R485). -/
def refuse (s : State) (c : Nat) : State :=
  let x := s.cell c
  let t := putCell s c { x with refused := x.refused + 1, ovfMade := true }
  if x.ovfMade then t
  else postSq t c { kind := 7, asid := asidIn s c, pkey := keyIn s c, grid := (blockIn s c).grid, sinfo := 6#64,
                    sval := x.ovfcfg, arg := x.refused + 1 }

/-- Addresses of the spilled records of a position with a GEN and a key, oldest first. -/
def spilledOf (s : State) (pos gen key : Nat) : Nat → List Nat
  | 0 => []
  | n + 1 =>
    match oldestSpilled s pos gen key with
    | none => []
    | some a => a :: spilledOf (clearSpill s a) pos gen key n

/-- Every queued message of a position goes to the overflow region, those spilled before going behind them, so that the
order of arrival stays (R174, R373). The answer is none where they do not all fit.
(DEDUCED: notes/assumptions/46.md) -/
def spillQueue (s : State) (pos : Nat) : Option State :=
  let t := s.str pos
  if t.recvq.isEmpty then some s
  else
    let key := keyIn s (cellOf pos)
    let old := spilledOf s pos t.gen.toNat key.toNat (ovfRecords s (cellOf pos)).length
    let msgs := t.recvq.map (·.payload) ++ old.map (fun a => BitVec.ofNat 256 (rd s a 32))
    let s1 := old.foldl clearSpill (modStr s pos (fun u => { u with recvq := [] }))
    msgs.foldl (fun o m => o.bind (fun u => spillTo u pos t.gen.toNat key m)) (some s1)

/-! ### Arrival (R373, R486) -/

/-- Whether the overflow region of a cell lies in host memory while the host link is down (R502). -/
def ovfHeld (s : State) (c : Nat) : Bool := !s.pkg.hostUp && decide ((s.cell c).ovfcfg.toNat / 2 ^ 49 = 2)

/-- A message at its cell: it is queued, spilled or orphaned; the answer is false where it is refused. -/
def arrive (s : State) (m : Msg) : State × Bool :=
  let c := msgCell m.dst
  let pos := msgPos m.dst
  let t := s.str pos
  let spill := fun (u : State) =>
    match spillTo u pos (msgGen m.dst).toNat m.key m.payload with
    | some v => (v, true)
    | none => (refuse u c, false)
  let gone := decide (t.st = .free) || decide (liveSt t = .retired) || decide (t.heldSt = .retired ∧ t.st = .saved)
  if (s.cell c).block.isSome ∧ !gone ∧ t.gen = msgGen m.dst ∧ keyIn s c = m.key then
    (if t.recvq.length < 8 ∧ (oldestSpilled s pos t.gen.toNat m.key.toNat).isNone then
      (modStr s pos (fun u => { u with recvq := u.recvq ++ [m] }), true)
    else spill s)
  else if (boundTo s c).any (fun b => decide (blockKey s b = m.key)) then spill s
  else (orphanMsg s c m (if (s.cell c).block.isNone ∨ gone then 3 else if t.gen ≠ msgGen m.dst then 1 else 2), true)

/-- A message that cannot reach its cell is dropped, with a DATAERR record (R472, R499). -/
def dropMsg (s : State) (m : Msg) (code : Nat) : State :=
  postFor s m.src
    { kind := 6, cause := 10, asid := asidIn s m.src, pkey := m.key, sval := m.dst, sinfo := word (code * 256 + 10), arg := 32,
      grid := (blockIn s m.src).grid, place := m.place, lpos := m.lpos, addr := m.ba }
/-- One message of a cell's injection queue sets out (R372). One for another package goes as a flit (R407).
(DESIGN CHOICE: notes/assumptions/66.md) -/
def sendMsg (s : State) (m : Msg) : State :=
  let id := s.fresh
  let s1 := takeFresh (s.setFlying (tset s.flying s.fresh { msg := m, refused := false, due := s.time + s.pace.msg }))
  if msgPkg m.dst = s.pkg.pkgnum then
    (if crossed s (dieOf m.src) (dieOf (msgCell m.dst)) m.src (locScr (msgCell m.dst) 0) then dropMsg s m 8 else s1)
  else match newRequest s1 (fromCell m.src) (msgPkg m.dst) (planeOfCell (field m.dst.toNat 53 2) (field m.dst.toNat 45 8)) 8 0 m.key m.dst.toNat
      m.payload (BitVec.allOnes 32) (.msg id) with
    | .out t => t
    | .fail code => dropMsg (s1.setFlying (tdel s1.flying id)) m code

/-- Whether a message from one cell to another cell is on its way: later ones wait behind it (R485, R167).
(DEDUCED: notes/assumptions/41.md) -/
def pairBusy (s : State) (m : Msg) : Bool :=
  s.flying.any fun e => decide (e.2.msg.src = m.src ∧ e.2.msg.dst.toNat / 2 ^ 45 = m.dst.toNat / 2 ^ 45)

/-- Messages set out in order for each destination cell; those that wait stay, in order. -/
def injectFrom (s : State) : List Msg → State × List Msg
  | [] => (s, [])
  | m :: r =>
    if pairBusy s m then
      let (t, l) := injectFrom s r
      (t, m :: l)
    else injectFrom (sendMsg s m) r
def injectAll (s : State) (c : Nat) : State :=
  let (t, l) := injectFrom s (s.cell c).inject
  putCell t c { t.cell c with inject := l }

/-- A message reaches its cell (R373). -/
def execMessageArrival (id : Nat) (s : State) : Host.Outcome State Fault Refusal :=
  match tfind s.flying id with
  | none => .next s
  | some f =>
    if ovfHeld s (msgCell f.msg.dst) then .next (s.setFlying (tset s.flying id { f with due := s.time + s.pace.msg }))
    else
      let (t, ok) := arrive s f.msg
      .next (t.setFlying (if ok then tdel t.flying id
        else tset t.flying id { f with refused := true, due := s.time + 1024 }))

/-- A refused message is sent again (R485). -/
def execMessageResend (id : Nat) (s : State) : Host.Outcome State Fault Refusal :=
  match tfind s.flying id with
  | none => .next s
  | some f =>
    if !f.refused then .next s
    else if msgPkg f.msg.dst = s.pkg.pkgnum then
      let (t, ok) := arrive s f.msg
      .next (t.setFlying (if ok then tdel t.flying id else tset t.flying id { f with due := s.time + 1024 }))
    else .next (sendMsg (s.setFlying (tdel s.flying id)) f.msg)

end Sys2Proof.Machine
end

