-- ==== Sys2Proof/Machine/Save.lean ====
section
/-!
DEFINITION. The save frame (spec/07_scheduling_and_ring_road.md R179 to R181), saving and restoring strands
(spec/02_execution_model.md R63, R64), pre-emption and eviction (R172 to R175, R178), the frozen snapshot of `halt`
(spec/17_traps_and_containment.md R447), and migration (R197).
-/
namespace Sys2Proof.Machine

open Sys2Proof

/-! ### The frame in memory (R179, R180) -/

/-- Physical address of the frame of a block, and of the record of the cell at place i. -/
def framePa (s : State) (b : Nat) : Nat :=
  let g := s.grid (s.block b).grid
  g.savebase + (s.block b).b * frameSize g
def recPa (s : State) (b i : Nat) : Nat := framePa s b + i * (2 + gridTer (s.grid (s.block b).grid)) * 2 ^ 20
/-- Storage location of a byte of a frame. -/
def frameLoc (pa : Nat) : Nat := (tableLoc pa).getD 0
/-- The frame lies in host memory while the host link is down (R502).
(DEDUCED: notes/assumptions/49.md) -/
def frameHeld (s : State) (b : Nat) : Bool := !s.pkg.hostUp && decide (2 ^ 50 ≤ framePa s b)

/-- The 4 KiB pages of [pa, pa + n): storage location and offset of each. -/
def framePages (pa n : Nat) : List (Nat × Nat) := (List.range (n / 4096)).map fun i => (frameLoc (pa + 4096 * i), 4096 * i)

/-- Every byte of [pa, pa + n) becomes zero, and none of it is uncorrectable any more. -/
def frameZero (s : State) (pa n : Nat) : State :=
  (framePages pa n).foldl (fun t q =>
    (t.setMem (memZero t.mem q.1 4096)).setPoison (tclear (q.1 / 32) (q.1 / 32 + 128) t.poison)) s
/-- Memory from `src` copied into the frame, and out of it. -/
def frameOut (s : State) (pa src n : Nat) : State :=
  (framePages pa n).foldl (fun t q => t.setMem (memCopy t.mem (src + q.2) q.1 4096)) s
def frameIn (s : State) (pa dst n : Nat) : State :=
  (framePages pa n).foldl (fun t q => t.setMem (memCopy t.mem q.1 (dst + q.2) 4096)) s
/-- Doublewords f 0, f 1, ... written from pa up. -/
def frameDws (s : State) (pa n : Nat) (f : Nat → Nat) : State :=
  (List.range n).foldl (fun t i => wr t (frameLoc (pa + 8 * i)) 8 (f i)) s
def frameDw (s : State) (pa : Nat) : Nat := rd s (frameLoc pa) 8
/-- The writes of the device to [pa, pa + n) fire the monitors of the words there (R168). -/
def frameFire (s : State) (pa n : Nat) : State :=
  s.setAgenda (((framePages pa n).flatMap fun q => firedBy s q.1 4096).map Instr.monitorFire ++ s.agenda)
/-- Some sector of [pa, pa + n) is uncorrectable (R471). -/
def frameBad (s : State) (pa n : Nat) : Bool :=
  (framePages pa n).any fun q =>
    !(trange (q.1 / 32) (q.1 / 32 + 128) s.poison).isEmpty ||
      (!s.pkg.badStacks.isEmpty && (List.range 16).any (fun i => onBadStack s (q.1 + 256 * i)))

/-- Doubleword i of the block header (R180). -/
def headerDw (s : State) (b i : Nat) : Nat :=
  let x := s.block b
  let g := s.grid x.grid
  if i = 0 then x.b
  else if i = 1 then
    x.die * 2 ^ 40 + x.nw * 2 ^ 32 + gridW g * 2 ^ 24 + gridH g * 2 ^ 16 + (x.slots.map (2 ^ ·)).foldl (· + ·) 0
  else if i = 2 then g.asid
  else if i = 3 then g.pkey.toNat
  else 0

/-- The strand and gang records of the gang led from a position (R173, R181). -/
def writeGangRecs (s : State) (b i lead : Nat) : State :=
  let pa := recPa s b i
  let q := posInCell lead
  (gangLanes s lead).foldl (fun t p => frameDws t (pa + 0x10000 + 1024 * posInCell p) 128 (strandDw s p))
    (frameDws s (pa + 0x4000 + 256 * q) 32 (gangDw s lead))

/-- What R173 writes for a cell beside its strands and gangs. -/
def writeCellRecs (s : State) (b i c : Nat) : State :=
  let pa := recPa s b i
  let s1 := frameDws s pa 12 (cellDw (s.cell c))
  let s2 := frameDws s1 (pa + 0x2000) 512 (pipeDw s c)
  frameDws s2 (pa + 0x20000) 8192 (accDw s c)

/-- The whole record of a cell (R180, R181). -/
def writeRecord (s : State) (b i c : Nat) : State :=
  let x := s.cell c
  let pa := recPa s b i
  let n := (2 + x.ter) * 2 ^ 20
  let s1 := writeCellRecs (frameZero s pa n) b i c
  let s2 := frameDws (frameDws s1 (pa + 0x60) 32 (fun k => (tbDword x k).toNat)) (pa + 0x160) 16 (fun k => (matchDword x k).toNat)
  let s3 := frameDws s2 (pa + 0x1000) 512 (presenceDw s c)
  let s4 := if i = 0 then frameDws s3 (pa + 0x3000) 4 (headerDw s b) else s3
  let held := heldIn s c
  let s5 := (held.filter (isLeader s)).foldl (fun t p => frameDws t (pa + 0x4000 + 256 * posInCell p) 32 (gangDw s p)) s4
  let s6 := frameDws s5 (pa + 0x8000) 4096 (gatherDw x)
  let s7 := held.foldl (fun t p => frameDws t (pa + 0x10000 + 1024 * posInCell p) 128 (strandDw s p)) s6
  let s8 := frameOut s7 (pa + 0x30000) (locScr c 0) (x.scrsz * 65536)
  frameFire (frameOut s8 (pa + 0x200000) (locTer c 0) (x.ter * 2 ^ 20)) pa n

/-- An uncorrectable register or tile of a cell (R470). -/
def regsBad (s : State) (c : Nat) : Bool :=
  s.badRegs.any (RegId.inCell c) || !(trange (locAcc c 0 / 32) (locAcc c 0 / 32 + 2048) s.poison).isEmpty
/-- An uncorrectable register, tile, or sector of the scratchpad or the Terrace that a save would read (R471, R470).
(DEDUCED: notes/assumptions/48.md) -/
def cellBad (s : State) (c : Nat) : Bool :=
  !(trange (locScr c 0 / 32) (locScr c 0 / 32 + 32768) s.poison).isEmpty ||
    !(trange (locTer c 0 / 32) (locTer c 0 / 32 + 524288) s.poison).isEmpty || regsBad s c
/-- A save that reads an uncorrectable sector ends the context (R471). -/
def killSave (s : State) (b : Nat) : State :=
  contextKill s (s.block b).grid { kind := 1, cause := 10 }

/-! ### Saving (R63, R64, R173) -/

/-- Whether the work and the waits that a save awaits are over for some lanes (R64, R386, R468). -/
def quiet (s : State) (ls : List Nat) : Bool :=
  !s.pend.any (fun e => ls.contains e.2.pos) && !s.walks.any (fun e => e.2.waiters.any (fun p => ls.contains p))
    && ls.all (fun p => (s.str p).mark.isNone && !isSync (s.str p).wait && decide (¬ ((s.str p).park = .data ∧ (s.str p).wait = .event)))
/-- Whether a gang can be saved: it stands at a bundle boundary, not collapsed and with no ORPHAN fault due. A bundle whose
payment took QUOTA below zero completes first (R193). -/
def canSave (s : State) (lead : Nat) : Bool :=
  let ls := (gangLanes s lead).filter (fun p => decide ((s.str p).st ≠ .free))
  !collapsed (s.gang lead) && (s.gang lead).orphans.isEmpty && quiet s ls
    && !ls.any (fun p => (s.str p).charged)
    && ls.all (fun p => decide ((s.str p).st = .ready ∨ (s.str p).st = .parked ∨ (s.str p).st = .retired))

/-- A lane becomes SAVED. DATA and TRANSLATE do not survive, MONITOR is released, a payment is lost (R64, R173). The time it has been
parked stands still (R477). -/
def saveOne (now : Nat) (t : Strand) : Strand :=
  if t.st = .free ∨ t.st = .saved then t
  else
    let wake := decide (t.st = .parked ∧ (t.park = .data ∨ t.park = .translate ∨ t.park = .monitor))
    { t with
      heldSt := if wake then .ready else t.st, st := .saved
      park := if wake then .none else t.park
      wait := if wake then .nothing else t.wait
      mon := none, deadline := none, paid := false, pollTo := none, walkFail := [], readFail := []
      parkedWas := if wake then some t.park else t.parkedWas
      parkedFor := if t.st = .parked then t.parkedFor + (now - t.parkedAt) else t.parkedFor }

/-- Positions of a block that are not FREE. -/
def heldBy (s : State) (b : Nat) : List Nat := (blockPositions s b).filter (fun p => decide ((s.str p).st ≠ .free))
/-- Every strand of a block is saved, and its cells' engines are idle (R313). -/
def allSaved (s : State) (b : Nat) : Bool :=
  (heldBy s b).all (fun p => decide ((s.str p).st = .saved)) && (blockCells s b).all (fun c => (s.cell c).jobs.isEmpty)

/-- The gang records of a cell that no leader stands for are zero (R180). -/
def zeroGangRecs (s : State) (b i c : Nat) : State :=
  ((List.range 64).filter (fun q => !isLeader s (64 * c + q))).foldl
    (fun t q => frameDws t (recPa s b i + 0x4000 + 256 * q) 32 (fun _ => 0)) s
/-- The pre-emption of a block is complete: the records of its cells are written, and what follows begins (R173). -/
def savedCheck (s : State) (b : Nat) : State :=
  if (s.block b).phase = .preempting ∧ allSaved s b ∧ ¬ frameHeld s b then
    if (blockCells s b).any (regsBad s) then killSave s b
    else
      let t := (blockCells s b).zipIdx.foldl (fun u q => zeroGangRecs (writeCellRecs u b q.2 q.1) b q.2 q.1) s
      putBlock t b { t.block b with phase := (t.block b).after }
  else s

/-- The token requests of some lanes of a cell are withdrawn (R64). -/
def withdraw (s : State) (c : Nat) (ls : List Nat) : State :=
  let l := (s.cell c).reqs.filter (fun r => !ls.contains r.pos)
  if l.length = (s.cell c).reqs.length then s
  else putCell s c { s.cell c with
    reqs := l, starveMade := (s.cell c).starveMade && decide (l.head? = (s.cell c).reqs.head?) }
/-- A gang is saved at its bundle boundary once its waits are over (R64). -/
def execStrandSave (leader : Nat) (s : State) : Host.Outcome State Fault Refusal :=
  match (s.cell (cellOf leader)).block with
  | none => .next s
  | some b =>
    if (s.block b).phase ≠ .preempting ∨ frameHeld s b then .next s
    else if (s.str leader).st = .saved then .next (savedCheck s b)
    else if !canSave s leader then .next s
    else
      let s1 := withdraw (l1WriteBack s (cellOf leader)) (cellOf leader) (gangLanes s leader)
      let s2 := modStrs s1 (gangLanes s1 leader) (saveOne s1.time)
      .next (savedCheck (writeGangRecs s2 b ((placeIn s2 b (cellOf leader)).getD 0) leader) b)

/-! ### Eviction (R174, R115) -/

/-- A transfer that has not delivered everything writes the scratchpad or the Terrace of a block. -/
def xferInto (s : State) (b : Nat) (x : Xfer) : Bool :=
  decide (x.dealt < x.rows * x.rlen) &&
    (match x.cons with
      | .self _ => decide (x.req.blk = b + 1)
      | .cap pkg die cell _ key =>
        decide (pkg = s.pkg.pkgnum ∧ key = blockKey s b) && (blockCells s b).contains (160 * die + cell)
      | .tag _ _ _ => x.subs.any (fun t => decide (t.2.1 = b)))
/-- No such transfer, and no other delivery, is on its way to the cells of a block, and no presence bit of them waits for the end of a
cell cycle. -/
def deliveriesDone (s : State) (b : Nat) : Bool :=
  !s.xfers.any (fun e => xferInto s b e.2) && !(s.sets ++ s.clears).any (fun k => (blockCells s b).contains (presCell k)) &&
    !s.delivs.any (fun e => !e.2.away && (blockCells s b).contains e.2.cell)

/-- What the device keeps of a cell beside its frame.
(DEDUCED: notes/assumptions/54.md)
(DEDUCED: notes/assumptions/55.md) -/
def keepCell (s : State) (c : Nat) : SavedCell :=
  let x := s.cell c
  { strands := (heldIn s c).map (fun p => (posInCell p, s.str p)), partials := x.partials, spawns := x.spawns, bars := x.bars,
    bbArrived := x.bbArrived, bbRelease := x.bbRelease, bbTwice := x.bbTwice, jobErr := x.jobErr, note := x.note, cell := c }

/-- An evicted block leaves a cell; its match entries stay as held entries (R174, R178, R444). -/
def clearCell (s : State) (b c : Nat) : State :=
  let s1 := drainSq (l1WriteBack s c) c
  let s2 := ((heldIn s1 c).filter (isLeader s1)).foldl (fun t p => dropGang t p) s1
  let s3 := (heldIn s2 c).foldl (fun t p => putStr t p { gen := (t.str p).gen }) s2
  let x := s3.cell c
  putCell s3 c { x with
    block := none, reqs := [], starveMade := false, partials := [], spawns := [], arrivals := [], bars := [], note := false,
    noteDue := false, bbArrived := 0#64, bbBefore := 0#64, bbForwarded := false, bbRelease := none, bbTwice := false, quota := none,
    matchTab := [], heldTab := x.heldTab ++ x.matchTab.map (fun e => (b, e.1, e.2)), jobErr := [], subva := [], submap := [] }

/-- Spill the receive queues of some positions, as far as there is room (R174, R485). -/
def spillAll (s : State) : List Nat → State × Bool
  | [] => (s, true)
  | p :: r =>
    match spillQueue s p with
    | some t => spillAll t r
    | none =>
      let (t, _) := spillAll (refuse s (cellOf p)) r
      (t, false)

/-- The save frame of an evicted block is complete (R174). -/
def execEvictionComplete (block : Nat) (s : State) : Host.Outcome State Fault Refusal :=
  let b := block
  if (s.block b).phase ≠ .evicting ∨ !deliveriesDone s b ∨ frameHeld s b then .next s
  else if (blockCells s b).any (cellBad s) then .next (killSave s b)
  else
    let (s1, ok) := spillAll s (heldBy s b)
    if !ok then .next s1
    else
      let cs := blockCells s1 b
      let s2 := cs.zipIdx.foldl (fun t q => writeRecord (l1WriteBack t q.1) b q.2 q.1) s1
      let s3 := putBlock s2 b { s2.block b with
        phase := .evicted, saved := cs.zipIdx.map (fun q => (q.2, keepCell s2 q.1)), bound := true }
      let s4 := cs.foldl (fun t c => clearCell t b c) s3
      .next (s4.setPkg { s4.pkg with returns := s4.pkg.returns ++ [b] })

/-! ### Coming back (R64) -/

/-- Whether a barrier still holds the arrival of an acting lane of a path (R64, R366, R369). -/
def stillHeld (s : State) (p : Nat) : Bool :=
  (unit s p).any fun q =>
    match (s.str q).wait with
    | .tb b on => on && (barOf (s.cell (cellOf q)) b).arrived.getLsbD (posInCell q)
    | .bb on => on && (s.cell (cellOf q)).bbArrived.getLsbD (posInCell q)
    | _ => false
/-- A lane goes on, its bundle to be issued again; if it parks with the same reason its time goes on counting (R477). -/
def reissue (t : Strand) : Strand := { t with st := .ready, park := .none, wait := .nothing, parkedWas := some t.park }
/-- The registers of single-lane mode of a restored strand are zero (R438). -/
def zeroSup (t : Strand) : Strand :=
  { t with
    scause := 0#64, sval := 0#64, sret := 0#64, sinfo := 0#64, sscr0 := 0#64, sscr1 := 0#64, sscr2 := 0#64, sscr3 := 0#64
    rbsel := 0#64 }
/-- What the park reason of a lane becomes at restore. -/
def resumeOne (s : State) (p : Nat) (t : Strand) : Strand :=
  let u := { zeroSup t with st := t.heldSt, parkedAt := s.time }
  if u.st ≠ .parked then u
  else match u.park with
    | .token => u
    | .rejoin => u
    | .fuse => u
    | .barrier =>
      (match u.wait with
        | .tb _ _ => if stillHeld s p then u else wakeBar u
        | .bb _ => if stillHeld s p then u else wakeBar u
        | _ => reissue u)
    | _ => reissue u
/-- Token requests withdrawn at the save are raised again (R64, R189). -/
def raiseAgain (s : State) (p : Nat) : State :=
  let t := s.str p
  let c := cellOf p
  if t.st = .parked ∧ t.park = .token ∧ t.owed ≠ 0 then
    let r : TokReq := {
      age := cyc s c, die := s.time, slot := slotOf p, pipe := pipeOf p, price := t.owed, pos := p, exempt := t.owedFree }
    putCell s c { s.cell c with reqs := insReq r (s.cell c).reqs }
  else s
/-- A saved lane whose `bbwait` is over: it goes on after the acquire of `bbwait` (R369). -/
def bbOver (s : State) (p : Nat) : Bool :=
  (match (s.str p).wait with | .bb _ => true | _ => false) && decide ((s.str p).heldSt = .parked) && !stillHeld s p
/-- Every saved strand of a block on its cells goes on. -/
def resumeBlock (s : State) (b : Nat) : State :=
  let ps := (heldBy s b).filter (fun p => decide ((s.str p).st = .saved))
  let s0 := (dedup ((ps.filter (bbOver s)).map cellOf)).foldl l1DropClean s
  let s1 := ps.foldl (fun t p => modStr t p (resumeOne s p)) s0
  let s2 := ps.foldl raiseAgain s1
  putBlock s2 b { s2.block b with phase := .running }

/-! ### Quanta (R172, R175, R192, R194, R484) -/

/-- PPOS of a cell.
(DEDUCED: notes/assumptions/57.md) -/
def cellPlace (s : State) (c : Nat) : Word := word (s.pkg.pkgnum % 512 * 2 ^ 55 + dieOf c % 4 * 2 ^ 53 + c % 160 * 2 ^ 45)
def chargeQuota (s : State) (q c : Nat) : State :=
  putCell s c { s.cell c with quota := if q = 0 then none else some (min ((s.cell c).quota.getD 0) 0 + (q : Int)) }
/-- The cell of a list with the lowest QUOTA, and that QUOTA. -/
def lowestQuota (s : State) : List Nat → Option (Nat × Int)
  | [] => none
  | c :: r =>
    match (s.cell c).quota, lowestQuota s r with
    | none, o => o
    | some v, none => some (c, v)
    | some v, some w => if v ≤ w.2 then some (c, v) else some w

/-- A block runs in the quantum that starts: its saved strands go on. -/
def runQuantum (s : State) (b : Nat) : State :=
  let t := putBlock s b { s.block b with satOut := 0, sitting := false }
  if (t.block b).phase = .running then t else resumeBlock t b
/-- A quantum of a block starts: the block runs in it, or sits it out where QUOTA is zero or less in some cell (R192, R194, R484). -/
def startQuantum (s : State) (b len : Nat) : State :=
  let g := s.grid (s.block b).grid
  let cs := blockCells s b
  let s1 := cs.foldl (fun t c => chargeQuota t g.q c) s
  let s2 := putBlock s1 b { s1.block b with quantumEnd := s1.time + len }
  match lowestQuota s2 cs with
  | some (c, v) =>
    if v ≤ 0 then
      let n := (s2.block b).satOut + 1
      let r : Record := { kind := 7, asid := g.asid, pkey := g.pkey, place := cellPlace s2 c, sinfo := 5#64,
                          sval := BitVec.ofInt 64 v, arg := n, grid := (s2.block b).grid }
      postLog (preempt (putBlock s2 b { s2.block b with satOut := n }) b .sittingOut) r
    else runQuantum s2 b
  | none => runQuantum s2 b
def quantumLen (g : Grid) : Nat := 2 ^ (14 + gridQclass g)

/-- An unplaced block in a launch queue, or an entry in the return list (R175). -/
def waitingWork (s : State) : Bool :=
  !s.pkg.returns.isEmpty || s.pkg.queues.any (fun e => !e.2.isEmpty)
/-- The end of a quantum of a block: it is evicted for waiting work, or its next quantum starts (R175). -/
def endQuantum (s : State) (b : Nat) : State :=
  if waitingWork s then preempt s b .evicting else startQuantum s b (quantumLen (s.grid (s.block b).grid))
/-- A quantum ends (R175), or a pre-emption begins that a handler has delayed (R63, R435). A block that has sat out sixteen quanta in a
row ends its grid (R484). -/
def execQuantumExpiry (block : Nat) (s : State) : Host.Outcome State Fault Refusal :=
  let b := block
  let x := s.block b
  if handling s b then .next s
  else match x.phase, x.due with
    | .running, some d => .next (preempt s b d)
    | .running, none => .next (if s.time < x.quantumEnd then s else endQuantum s b)
    | .sittingOut, _ =>
      .next (if s.time < x.quantumEnd then s
        else if 16 ≤ x.satOut then contextKill s x.grid { kind := 1, sinfo := 5#64 }
        else endQuantum s b)
    | _, _ => .next s

/-! ### Restore (R174, R178, R197) -/

/-- Registers of a strand from its record (R181). -/
def loadStrand (s : State) (pos pa : Nat) : State :=
  let s1 := (List.range 8).foldl (fun t n => wrP t pos n (inMask (frameDw s (pa + 16)) n)) s
  let s2 := (List.range 32).foldl (fun t n => wrG t pos n (word (frameDw s (pa + 32 + 8 * n)))) s1
  let s3 := (List.range 16).foldl (fun t n => wrW t pos n (BitVec.ofNat 256 (rd s (frameLoc (pa + 0x120 + 32 * n)) 32))) s2
  let s4 := (List.range 2).foldl (fun t n =>
    wrEf (wrE t pos n (BitVec.ofNat 320 (digits 64 (fun k => frameDw s (pa + 0x320 + 48 * n + 8 * k)) 5))) pos n
      (BitVec.ofNat 3 (frameDw s (pa + 0x320 + 48 * n + 40)))) s3
  (List.range 4).foldl (fun t k =>
    if frameDw s (pa + 0x380 + 16 * k + 8) % 2 = 1 then
      t.setAlley (tset t.alley (4 * pos + k) (word (frameDw s (pa + 0x380 + 16 * k))))
    else t) s4

/-- The mode of a lane from LSTATE and PATHMAP (R93, R94). -/
def lmodeOf (code path : Nat) : LMode :=
  if code = 0 then .inPath path
  else if code = 1 then .detached
  else if code = 2 then .retired
  else if code = 3 then .hollow
  else if 8 ≤ code then .waiting (code - 8)
  else .absent
/-- Registers of a gang from its record (R95). -/
def loadGang (s : State) (lead pa : Nat) : State :=
  let s1 := (List.range 16).foldl (fun t n => wrK t lead n (word (frameDw s (pa + 8 * n)))) s
  let s2 := (List.range 8).foldl (fun t n => wrJ t lead n (setOfView (word (frameDw s (pa + 128 + 8 * n))))) s1
  let rot := frameDw s (pa + 200)
  let turn := decide (field rot 19 1 = 1)
  let s3 := putGang s2 lead {
    splitpol := word (frameDw s (pa + 192) % 32), turn := turn, cur := if turn then field rot 15 4 else 0,
    last := field rot 11 4, qleft := if turn then field rot 0 7 else 0 }
  (gangLanes s3 lead).foldl (fun t p =>
    modStr t p (fun u => { u with
      lmode := lmodeOf (field (frameDw s (pa + 208)) (4 * (p - lead)) 4) (field (frameDw s (pa + 216)) (4 * (p - lead)) 4) })) s3

/-- Sectors whose presence bit is clear in a record, of 64 sectors from sector 64 k on. -/
def absentOf (base k d : Nat) : List Nat :=
  if d = 2 ^ 64 - 1 then [] else ((List.range 64).filter (fun n => !inMask d n)).map (fun n => base + 64 * k + n)

/-- A slot index of a block's old slots becomes the one with the same ordinal among its new ones (R394). -/
def newSlot (old new : List Nat) (k : Nat) : Nat :=
  match old.findIdx? (fun j => decide (j = k)) with
  | some i => new.getD i k
  | none => k

/-- QUOTA from its view (R192). -/
def quotaOf (v : Nat) : Option Int := if v = 0x7FFFFFFFFFFFFFFF then none else some (sInt 64 v)

/-- A cell's own state from its record. -/
def loadCell (s : State) (b i c cx cy : Nat) (k : SavedCell) : State :=
  let g := s.grid (s.block b).grid
  let pa := recPa s b i
  let dw := fun n => frameDw s (pa + 8 * n)
  let s1 := (s.setMem (memZero (memZero (memZero s.mem (locScr c 0) (2 ^ 20)) (locTer c 0) (2 ^ 24)) (locAcc c 0) 65536)).setPoison
    (tclear (locScr c 0 / 32) (locScr c 0 / 32 + 32768) (tclear (locTer c 0 / 32) (locTer c 0 / 32 + 524288)
      (tclear (locAcc c 0 / 32) (locAcc c 0 / 32 + 2048) s.poison)))
  let s2 := frameIn (frameIn (frameIn s1 (pa + 0x30000) (locScr c 0) (gridScr g * 65536)) (pa + 0x200000) (locTer c 0)
    (gridTer g * 2 ^ 20)) (pa + 0x20000) (locAcc c 0) 65536
  let base := locScr c 0 / 32
  let s3 := s2.setAbsent (((List.range 512).flatMap fun n => absentOf base n (frameDw s (pa + 0x1000 + 8 * n))).foldl
    (fun t x => tset t x ()) (tclear base (base + 32768) s2.absent))
  let s4 := (List.range 512).foldl (fun t n => wrH t (16 * c + n / 32) (n % 32) (word (frameDw s (pa + 0x2000 + 8 * n))))
    (s3.setBadRegs (s3.badRegs.filter (fun r => !r.inCell c)))
  let x := s4.cell c
  let shift := fun (n : Nat) => if k.cell = c then n else n + cyc s c - cyc s k.cell
  putCell s4 c { x with
    block := some b, cx := cx, cy := cy, scrsz := gridScr g, ter := gridTer g
    lclreq := word (dw 1), rmtreq := word (dw 2), quota := quotaOf (dw 3)
    subva := (List.range 4).map (fun n => (n, word (dw (4 + n)))), submap := (List.range 4).map (fun n => (n, word (dw (8 + n))))
    bars := (List.range 16).map (fun n =>
      let y := barOfView (word (dw (12 + 2 * n))) (word (dw (13 + 2 * n)))
      let o := tget {} k.bars n
      (n, { y with before := y.arrived, overArrive := o.overArrive, pendRange := o.pendRange, overrun := o.overrun }))
    matchTab := ((List.range 16).filter (fun n => 2 ^ 63 ≤ dw (44 + n))).map (fun n => (n, matchOfView (word (dw (44 + n)))))
    heldTab := x.heldTab.filter (fun h => decide (h.1 ≠ b))
    partials := k.partials.zipIdx.map (fun q => { q.1 with
      desc := frameDw s (pa + 0x8000 + 64 * q.2), count := frameDw s (pa + 0x8000 + 64 * q.2 + 8)
      first := shift (frameDw s (pa + 0x8000 + 64 * q.2 + 16)) })
    spawns := k.spawns.zipIdx.map (fun q => { q.1 with
      payload := BitVec.ofNat 256 (rd s (frameLoc (pa + 0x8200 + 64 * q.2)) 32), desc := frameDw s (pa + 0x8200 + 64 * q.2 + 32) })
    bbArrived := k.bbArrived, bbBefore := k.bbArrived, bbTwice := k.bbTwice, bbForwarded := false, bbRelease := k.bbRelease
    jobErr := k.jobErr, note := k.note, noteDue := false, sq := [], reqs := [], starveMade := false }

/-- PENDRANGE records that the image of a barrier called for (R178). -/
def rangeRecs (s : State) (c : Nat) (l : List Nat) : State :=
  l.foldl (fun t n => postSq t c (barRec t c n 10 none (barOf (t.cell c) n))) s

/-- The strands and gangs of a cell from its record, each SAVED in place.
(DEDUCED: notes/assumptions/30.md) -/
def loadStrands (s : State) (b i c : Nat) (old new : List Nat) (k : SavedCell) : State :=
  let pa := recPa s b i
  let posOf := fun (q : Nat) => 64 * c + 16 * newSlot old new (q / 16) + q % 16
  let s1 := k.strands.foldl (fun t e =>
    let p := posOf e.1
    let d := frameDw s (pa + 0x10000 + 1024 * e.1 + 8)
    loadStrand (putStr (clearRegs t p) p { zeroSup e.2 with
      pc := addrBits (word (frameDw s (pa + 0x10000 + 1024 * e.1))), st := .saved, heldSt := stOf (d % 8), park := parkOf (field d 8 4)
      }) p (pa + 0x10000 + 1024 * e.1)) s
  (k.strands.filter (fun e => decide (laneIx e.2 = 0))).foldl (fun t e => loadGang t (posOf e.1) (pa + 0x4000 + 256 * e.1)) s1

/-- Messages spilled for a restored position come into its queue. `q` is the position whose records hold them.
(DEDUCED: notes/assumptions/47.md) -/
def pullSpilled (s : State) (p q gen key : Nat) : Nat → State
  | 0 => s
  | n + 1 =>
    if 8 ≤ (s.str p).recvq.length then s
    else match oldestSpilled s q gen key with
      | none => s
      | some a => pullSpilled (modStr (clearSpill s a) p (fun u => { u with recvq := u.recvq ++ [spilledMsg s p a] })) p q gen key n
/-- The spilled messages of a position whose strand has moved there from position q go, in order, to the overflow region of its
new cell, as far as there is room (R373, R374): a message that leaves the queue draws the oldest one spilled for its position. -/
def moveSpilled (s : State) (p q gen : Nat) (key : BitVec 16) : Nat → State
  | 0 => s
  | n + 1 =>
    match oldestSpilled s q gen key.toNat with
    | none => s
    | some a =>
      match spillTo (clearSpill s a) p gen key (BitVec.ofNat 256 (rd s a 32)) with
      | none => s
      | some u => moveSpilled u p q gen key n
/-- The messages of a key that are spilled for a position, those for `gen` apart, fail the check of R373: each is orphaned, unless
another evicted block waits for it. -/
def orphanStale (s : State) (q : Nat) (gen : Option Nat) (key : BitVec 16) (why : Nat) : State :=
  let bad := (ovfRecords s (cellOf q)).filter fun r =>
    decide (rd s (r.2 + 32) 1 % 64 = posInCell q ∧ rd s (r.2 + 36) 2 = key.toNat ∧ gen ≠ some (rd s (r.2 + 33) 1)) &&
      !(boundTo s (cellOf q)).any (fun b => decide (blockKey s b = key) &&
        (match savedAt s b q with | some u => decide (u.gen.toNat = rd s (r.2 + 33) 1) | none => false))
  bad.foldl (fun u r => orphanMsg (clearSpill u r.2) (cellOf q) (spilledMsg u q r.2) why) s
/-- Messages spilled for a restored or moved position come to it, and each that fails the check of R373 now is orphaned. -/
def recheckSpilled (s : State) (p q : Nat) (key : BitVec 16) : State :=
  let t0 := pullSpilled s p q (s.str p).gen.toNat key.toNat 8
  let t := if p = q then t0 else moveSpilled t0 p q (s.str p).gen.toNat key (ovfRecords t0 (cellOf q)).length
  orphanStale t q (some (t.str p).gen.toNat) key 1
/-- The same for the positions of a cell that the saved cell does not hold: their messages find no strand (R373, R486). -/
def recheckFree (s : State) (k : SavedCell) (key : BitVec 16) : State :=
  ((List.range 64).filter (fun q => (tfind k.strands q).isNone)).foldl (fun t q => orphanStale t (64 * k.cell + q) none key 3) s

/-- A block comes back from its frame to a rectangle and slot indices (R174, R176, R394). An uncorrectable frame ends its
grid (R471). Its cells drop the clean sectors of their L1s (R154, R161; DEDUCED, notes/assumptions/73.md).
(DEDUCED: notes/assumptions/73.md) -/
def restoreBlock (s : State) (b die nw : Nat) (slots : List Nat) : State :=
  let x := s.block b
  let g := s.grid x.grid
  let s0 := s.setPkg { s.pkg with returns := s.pkg.returns.filter (· ≠ b) }
  if frameBad s0 (framePa s0 b) (frameSize g) then contextKill s0 x.grid { kind := 1, cause := 10 }
  else
    let oldCells := blockCells s0 b
    let moved := decide (x.die ≠ die ∨ x.nw ≠ nw)
    let s1 := if moved then oldCells.foldl (fun t c => dropHeld t b c) s0 else s0
    let s2 := putBlock s1 b { s1.block b with die := die, nw := nw, slots := slots, bound := true, phase := .sittingOut, saved := [] }
    let cs := rectCells die nw (gridW g) (gridH g)
    let s3 := cs.zipIdx.foldl (fun t q =>
      let k := tget {} x.saved q.2
      l1DropClean (loadStrands (loadCell t b q.2 q.1 (q.2 % gridW g) (q.2 / gridW g) k) b q.2 q.1 x.slots slots k) q.1) s2
    let s4 := if moved then cs.foldl (fun t c => (t.cell c).matchTab.foldl (fun u e => sendJoin u c e.2.tag true) t) s3 else s3
    let s5 := cs.zipIdx.foldl (fun t q => rangeRecs t q.1 (tget {} x.saved q.2).ranges) s4
    let s6 := cs.foldl (fun t c => bankCheck t c (decide (holdsGang t c ≠ (t.cell c).bank)) (heldIn t c)) s5
    let s7 := cs.zipIdx.foldl (fun t q =>
      let k := tget {} x.saved q.2
      k.strands.foldl (fun u e =>
        recheckSpilled u (64 * q.1 + 16 * newSlot x.slots slots (e.1 / 16) + e.1 % 16) (64 * k.cell + e.1) g.pkey)
        (recheckFree t k g.pkey)) s6
    startQuantum s7 b (quantumLen g)

/-! ### The frozen snapshot (R447) -/

/-- Every position of a halting block has stopped, and what a save awaits is over (R447, R64, R115, R313). -/
def haltReady (s : State) (b : Nat) : Bool :=
  quiet s (heldBy s b) && deliveriesDone s b && (blockCells s b).all (fun c => (s.cell c).jobs.isEmpty) && !frameHeld s b
/-- The device writes the frame of a halted block, and makes its record. -/
def execHaltSnapshotComplete (block : Nat) (s : State) : Host.Outcome State Fault Refusal :=
  let b := block
  if (s.block b).phase ≠ .halting ∨ !haltReady s b then .next s
  else if (blockCells s b).any (cellBad s) then .next (killSave s b)
  else
    let s1 := (blockCells s b).zipIdx.foldl (fun t q => writeRecord (l1WriteBack t q.1) b q.2 q.1) s
    let g := s.grid (s.block b).grid
    .next (postLog (putBlock s1 b { s1.block b with phase := .halted })
      { kind := 3, asid := g.asid, pkey := g.pkey, sval := word (s.block b).b, sinfo := word (framePa s b), grid := (s.block b).grid })

/-! ### Migration (R197) -/

/-- Entries with a key in [lo, lo + n) move to dst and up. -/
def tmove {α : Type} (lo dst n : Nat) (t : Tab α) : Tab α :=
  (trange lo (lo + n) t).foldl (fun u e => tset u (dst + (e.1 - lo)) e.2) (tclear lo (lo + n) (tclear dst (dst + n) t))
/-- Everything the frame would hold of a cell, moved to the cell at the same place of the target (R197). Clean
sectors of the target's L1 are dropped (DEDUCED, notes/assumptions/73.md). -/
def moveCell (s : State) (b c d : Nat) : State :=
  let s1 := l1WriteBack s c
  let s2 := s1.setMem (memZero (memZero (memZero
    (memCopy (memCopy (memCopy s1.mem (locScr c 0) (locScr d 0) (2 ^ 20)) (locTer c 0) (locTer d 0) (2 ^ 24)) (locAcc c 0) (locAcc d 0) 65536)
    (locScr c 0) (2 ^ 20)) (locTer c 0) (2 ^ 24)) (locAcc c 0) 65536)
  let s3 := s2.setAbsent (tmove (locScr c 0 / 32) (locScr d 0 / 32) 32768 s2.absent)
  let s4 := s3.setPoison (tclear (locScr d 0 / 32) (locScr d 0 / 32 + 32768) (tclear (locTer d 0 / 32) (locTer d 0 / 32 + 524288)
    (tclear (locAcc d 0 / 32) (locAcc d 0 / 32 + 2048) s3.poison)))
  let s5 := ((((((((s4.setHs (tmove (512 * c) (512 * d) 512 s4.hs)).setGs (tmove (2048 * c) (2048 * d) 2048 s4.gs)).setWs
    (tmove (1024 * c) (1024 * d) 1024 s4.ws)).setPs (tmove (512 * c) (512 * d) 512 s4.ps)).setEs
    (tmove (128 * c) (128 * d) 128 s4.es)).setEflags (tmove (128 * c) (128 * d) 128 s4.eflags)).setKs
    (tmove (1024 * c) (1024 * d) 1024 s4.ks)).setJs (tmove (512 * c) (512 * d) 512 s4.js)).setAlley
    (tmove (256 * c) (256 * d) 256 s4.alley)
  let gens := (List.range 64).map (fun q => (s.str (64 * c + q)).gen)
  let s6 := (s5.setStrands (tmove (64 * c) (64 * d) 64 s5.strands)).setGangs (tmove (64 * c) (64 * d) 64 s5.gangs)
  let s7 := (List.range 64).foldl (fun t q => if gens.getD q 0#8 = 0#8 then t else putStr t (64 * c + q) { gen := gens.getD q 0#8 }) s6
  let x := s7.cell c
  let y := (l1DropClean s7 d).cell d
  let s8 := putCell s7 d { y with
    block := some b, cx := x.cx, cy := x.cy, scrsz := x.scrsz, ter := x.ter, lclreq := x.lclreq, rmtreq := x.rmtreq
    quota := x.quota, subva := x.subva, submap := x.submap, bars := x.bars, matchTab := x.matchTab
    partials := x.partials.map (fun p => { p with first := p.first + cyc s d - cyc s c }), spawns := x.spawns, sq := x.sq
    note := x.note, noteDue := x.noteDue, bbArrived := x.bbArrived, bbBefore := x.bbBefore, bbForwarded := x.bbForwarded
    bbRelease := x.bbRelease, bbTwice := x.bbTwice, jobErr := x.jobErr
    movedOn := y.movedOn.filter (fun q => decide (q.1 ≠ b)) }
  let s9 := putCell s8 c { s8.cell c with
    block := none, reqs := [], starveMade := false, partials := [], spawns := [], arrivals := [], bars := [], note := false
    noteDue := false, sq := []
    movedOn := (b, (placeIn s b c).getD 0) :: (s8.cell c).movedOn.filter (fun q => decide (q.1 ≠ b ∧ (s.block q.1).phase ≠ .gone))
    bbArrived := 0#64, bbBefore := 0#64, bbForwarded := false, bbRelease := none, bbTwice := false, quota := none, matchTab := []
    jobErr := [], subva := [], submap := [] }
  x.matchTab.foldl (fun t e => sendJoin (sendJoin t d e.2.tag true) c e.2.tag false) s9

/-- Work that names a migrated block follows it: what the block has started, and what is being delivered to it.
(DESIGN CHOICE: notes/assumptions/53.md) -/
def followReq (b : Nat) (there : Nat → Nat) (r : Requester) : Requester :=
  if r.blk = b + 1 then { r with cell := there r.cell, pos := 64 * there r.cell + posInCell r.pos } else r
def followCons (num : Nat) (key : BitVec 16) (there : Nat → Nat) (k : Consumer) : Consumer :=
  match k with
  | .cap pkg die cell win kk =>
    if pkg = num ∧ kk = key then .cap pkg (there (160 * die + cell) / 160) (there (160 * die + cell) % 160) win kk else k
  | _ => k
def follow (s : State) (b : Nat) (there : Nat → Nat) : State :=
  let key := blockKey s b
  let fc := followCons s.pkg.pkgnum key there
  let s1 := s.setXfers (s.xfers.map fun e => (e.1, { e.2 with req := followReq b there e.2.req, cons := fc e.2.cons }))
  let s2 := s1.setChases (s1.chases.map fun e => (e.1, { e.2 with req := followReq b there e.2.req, cons := fc e.2.cons }))
  s2.setDelivs (s2.delivs.map fun e => (e.1, { e.2 with
    req := followReq b there e.2.req, cell := if !e.2.away && decide (e.2.key = key) then there e.2.cell else e.2.cell }))

/-- Whether a rectangle and slot indices can take a block that moves: unfenced, free of blocks other than itself, and no slot
index removed (R197, R49); the engines there have ended their work.
(DEDUCED: notes/assumptions/81.md) -/
def targetFree (s : State) (b die nw : Nat) : Bool :=
  let x := s.block b
  let g := s.grid x.grid
  decide (nw / 16 + gridH g ≤ 10 ∧ nw % 16 + gridW g ≤ 16 ∧ nw < 160 ∧ die < 4) &&
    (rectCells die nw (gridW g) (gridH g)).all (fun c =>
      ((s.cell c).block.isNone) && !(s.cell c).fenced && (s.cell c).jobs.isEmpty &&
        x.slots.all (fun k => !(s.cell c).slotmask.getLsbD k))

/-- The copy ends, and the block goes on at the target with what is left of its quantum (R197). -/
def execMigrationComplete (s : State) : Host.Outcome State Fault Refusal :=
  match s.pkg.migBusy with
  | none => .next s
  | some b =>
    let done := fun (t : State) => t.setPkg { t.pkg with migBusy := none }
    if (s.block b).phase = .gone then .next (done s)
    else if (s.block b).phase ≠ .migrating ∨ !deliveriesDone s b then .next s
    else
      let x := s.block b
      let (die, nw) := s.pkg.migTo
      let src := blockCells s b
      let dst := rectCells die nw (gridW (s.grid x.grid)) (gridH (s.grid x.grid))
      let there := fun c => (((src.zip dst).find? (fun q => decide (q.1 = c))).map (·.2)).getD c
      if src.any (cellBad s) then .next (done (killSave s b))
      else
        let s1 := (src.zip dst).foldl (fun t q => moveCell t b q.1 q.2) s
        let s2 := follow (putBlock s1 b { s1.block b with
          die := die, nw := nw, bound := true, quantumEnd := s1.time + x.quantumLeft }) b there
        let s3 := dst.foldl (fun t c => bankCheck t c (decide (holdsGang t c ≠ (t.cell c).bank)) (heldIn t c)) s2
        let s4 := (heldBy s3 b).foldl (fun t p =>
          let c := cellOf p
          let o := (((src.zip dst).find? (fun q => decide (q.2 = c))).map (·.1)).getD c
          recheckSpilled t p (64 * o + posInCell p) (blockKey t b)) s3
        let s5 := if x.sitting then putBlock s4 b { s4.block b with phase := .sittingOut } else resumeBlock s4 b
        .next (done (if dst.any (fun c => x.slots.any (fun k => (s5.cell c).slotmask.getLsbD k)) then preempt s5 b .evicting else s5))

end Sys2Proof.Machine
end

