-- ==== Sys2Proof/Machine/Deliver.lean ====
section
/-!
DEFINITION. Transfers as agents (spec/13_isa_async_and_system.md R350 to R353): source reads, deliveries at their consumers
(R351, R352, R178), and the reports of spec/19_memory_and_delivery_faults.md R473 to R475; multicast joins
(spec/04_memory_hierarchy.md R127) and the sweep of a block barrier (R370).
-/
namespace Sys2Proof.Machine

open Sys2Proof

/-! ### At a consumer (R351, R352, R474) -/

/-- What a consumer answers: the reason of R475, 0 where nothing was refused; the first refused offset; the bytes refused. -/
structure Verdict where
  reason : Nat := 0
  off : Nat := 0
  n : Nat := 0
deriving DecidableEq, Repr

/-- Bytes at consecutive addresses as one number (R9). -/
def bytesNum (l : List Byte) : Nat := l.foldr (fun b n => b.toNat + 256 * n) 0
/-- The bytes of a number. -/
def numBytes (n v : Nat) : List Byte := (List.range n).map (fun i => BitVec.ofNat 8 (v / 256 ^ i))

/-- Write bytes at addresses from `a` up, `loc` giving the storage location of an address, a piece for each sector (R147, R471). -/
def putBytes (s : State) (r : Requester) (va : Word) (loc : Nat → Nat) (a : Nat) (l : List Byte) : State :=
  let h := Nat.min l.length (32 - a % 32)
  let s1 := if h = 0 then s else (actAt s r va (loc a) (.write h (bytesNum (l.take h)))).1
  if (l.drop h).isEmpty then s1 else (actAt s1 r va (loc (a + h)) (.write (l.drop h).length (bytesNum (l.drop h)))).1

/-- Bytes [off, off + n) of a window that lie in a block's portion. -/
def inPortion (size off n : Nat) : Nat := Nat.min n (size - off)

/-- A delivery into a block on its cells (R351, R364). -/
def deliverLive (s : State) (d : Delivery) (c : Nat) (win : Bool) (tb off : Nat) : State × Verdict :=
  let x := s.cell c
  let n := d.bytes.length
  if !(barOf x tb).valid then (s, { reason := 3, off := off, n := n })
  else
    let k := inPortion (portion x win) off n
    let s1 := if d.bad ∨ k = 0 then s
      else putBytes s d.req d.src ((if win then locTer c 0 else locScr c 0) + ·) off (d.bytes.take k)
    let s2 := tbPend s1 c tb (-(n : Int)) (d.bad || decide (k < n)) none
    (s2, if k < n then { reason := 2, off := off + k, n := n - k } else {})

/-- The image of a barrier in a frame takes a count for a requester, within its 32 bits (R178, R490). -/
def imagePend (s : State) (r : Requester) (b i tb : Nat) (n : Int) (err : Bool) : State :=
  let pa := recPa s b i + 0x60 + 16 * tb
  let y := barOfView (word (frameDw s pa)) 0#64
  let v := y.pend + n
  let fits := decide (-(2 ^ 31 : Nat) ≤ v ∧ v ≤ (2 ^ 31 - 1 : Nat))
  let z := { y with
    pend := if v < -(2 ^ 31 : Nat) then -(2 ^ 31 : Nat) else if (2 ^ 31 - 1 : Nat) < v then (2 ^ 31 - 1 : Nat) else v
    err := y.err || err || !fits }
  let s1 := (actAt s r (word pa) (frameLoc pa) (.write 8 (tbView0 z).toNat)).1
  if fits then s1
  else
    let k := tget {} (s1.block b).saved i
    let had := k.ranges.contains tb || (tget {} k.bars tb).pendRange
    putBlock s1 b { s1.block b with
      saved := tset (s1.block b).saved i { k with
        ranges := if had then k.ranges else k.ranges ++ [tb]
        bars := tset k.bars tb { tget {} k.bars tb with pendRange := true } } }
/-- A delivery into the frame image of an evicted block (R178). -/
def deliverImage (s : State) (d : Delivery) (b i : Nat) (win : Bool) (tb off : Nat) : State × Verdict :=
  let g := s.grid (s.block b).grid
  let n := d.bytes.length
  let pa := recPa s b i
  if !(word (frameDw s (pa + 0x60 + 16 * tb))).getLsbD 31 then (s, { reason := 3, off := off, n := n })
  else
    let k := inPortion (if win then gridTer g * 2 ^ 20 else gridScr g * 65536) off n
    let s1 := if d.bad then s
      else putBytes s d.req d.src frameLoc (pa + (if win then 0x200000 else 0x30000) + off) (d.bytes.take k)
    let s2 := imagePend s1 d.req b i tb (-(n : Int)) (d.bad || decide (k < n))
    (s2, if k < n then { reason := 2, off := off + k, n := n - k } else {})

/-- A delivery into a block, wherever it stands; `i` is the place of the cell in its rectangle. -/
def deliverTo (s : State) (d : Delivery) (b i : Nat) (win : Bool) (tb off : Nat) : State × Verdict :=
  match (s.block b).phase with
  | .gone => (s, { reason := 4, off := off, n := d.bytes.length })
  | .evicted => deliverImage s d b i win tb off
  | _ => deliverLive s d ((blockCells s b).getD i 0) win tb off

/-- The frame that a delivery would write lies in host memory while the host link is down (R502). -/
def imageHeld (s : State) (c : Nat) : Bool := (s.cell c).block.isNone && (boundTo s c).any (frameHeld s)

/-- The block that a unicast delivery with a key meets at a cell, and its place there: the resident one, the bound evicted one that
entered the return list earliest (R352), or one that has moved from the cell (R197).
(DESIGN CHOICE: notes/assumptions/53.md) -/
def meets (s : State) (c : Nat) (key : BitVec 16) : Option (Nat × Nat) :=
  (((match (s.cell c).block with | some b => [b] | none => []) ++ boundTo s c).map (fun b => (b, (placeIn s b c).getD 0)) ++
    (s.cell c).movedOn.filter (fun q => decide ((s.block q.1).phase ≠ .gone))).find? (fun q => decide (blockKey s q.1 = key))
/-- Whether a grid has been ended before its last block was (R445). -/
def killed (s : State) (g : Nat) : Bool := !(s.grid g).live && decide ((s.grid g).ended < gridBlocks (s.grid g))
/-- Whether a delivery is one of an ended grid to a cell of its own (R445). -/
def ownEnded (s : State) (d : Delivery) : Bool :=
  killed s d.req.grid &&
    (match d.only with
      | some b => decide ((s.block b).grid = d.req.grid)
      | none => s.blocks.any (fun e => decide (e.2.grid = d.req.grid) && (blockCells s e.1).contains d.cell))
/-- A delivery of a transfer or a walk at its consumer (R351, R352, R353). One that a transfer makes to its own cell meets the block
that started it, which stays while the transfer is in flight (R115); what an ended grid sends to its own cells is discarded (R445). -/
def deliverAt (s : State) (d : Delivery) : State × Verdict :=
  let none4 : Verdict := { reason := 4, off := d.offset, n := d.bytes.length }
  let key1 : Verdict := { reason := 1, off := d.offset, n := d.bytes.length }
  let meet := fun b i => deliverTo s d b i d.win d.tb d.offset
  let refuse := fun v => (s, if ownEnded s d then {} else v)
  match d.only with
  | some b => if (s.block b).phase = .gone then refuse none4 else if blockKey s b ≠ d.key then refuse key1
    else meet b ((placeIn s b d.cell).getD 0)
  | none =>
    if d.self ∧ (s.block (d.req.blk - 1)).phase = .gone then (s, {})
    else if d.self ∧ d.walk.isNone then meet (d.req.blk - 1) ((placeIn s (d.req.blk - 1) d.cell).getD 0)
    else match meets s d.cell d.key with
      | some q => meet q.1 q.2
      | none => refuse (if (s.cell d.cell).block.isNone && (boundTo s d.cell).isEmpty then none4 else key1)

/-! ### Reports (R474, R475) -/

/-- Note refused bytes with those refused before for the same reason at the same consumer.
(DEDUCED: notes/assumptions/52.md) -/
def addRej (r : Rej) : List Rej → List Rej
  | [] => [r]
  | x :: l =>
    if x.reason = r.reason ∧ x.cell = r.cell ∧ x.blk = r.blk ∧ x.tb = r.tb then { x with n := x.n + r.n } :: l
    else x :: addRej r l

/-- The block of a requester's cell, and where it stands now: its cell in this package. -/
def homeCell (s : State) (r : Requester) : Nat :=
  if r.blk = 0 then r.cell
  else
    let b := r.blk - 1
    if onCells (s.block b).phase then
      (blockCells s b).getD (field r.lpos.toNat 20 2 + gridW (s.grid (s.block b).grid) * field r.lpos.toNat 22 2) r.cell
    else r.cell

/-- The REJECT records of one refusal: to the requester's queue, and on the consumer's side to its queue, or for a key or an
absent block to the package log. -/
def postRej (s : State) (r : Requester) (ntb : Nat) (j : Rej) : State :=
  let s1 := postFor s (homeCell s r) (rejectRec r j.reason ntb j.off j.src j.n)
  if !j.toC then s1
  else
    let c := rejectRec r j.reason j.tb j.off j.src j.n
    if j.reason = 1 ∨ j.reason = 4 ∨ blockTag s1 (.scr j.cell 0) ≠ j.blk ∨ j.blk = 0 then postLog s1 c else postSq s1 j.cell c

/-- Bytes are counted on the requester's barrier NTB: the notice of R350, which carries the requester's key. A block that has
ended takes no notice (R445). -/
def notice (s : State) (r : Requester) (ntb n : Nat) (err : Bool) : State :=
  let b := r.blk - 1
  match (s.block b).phase with
  | .gone => s
  | .evicted =>
    imagePend s r b (field r.lpos.toNat 20 2 + gridW (s.grid (s.block b).grid) * field r.lpos.toNat 22 2) ntb (-(n : Int)) err
  | _ => tbPend s (homeCell s r) ntb (-(n : Int)) err none

/-- What consumers have refused of one delivery, with what they refused before; each consumer of another package is told apart by its
place in the answer. -/
def noteRejs (s : State) (d : Delivery) (vs : List Verdict) (far : Bool) (src : Verdict → Word) (l : List Rej) : List Rej :=
  (vs.zipIdx.filter (fun q => decide (q.1.reason ≠ 0))).foldl (fun r q =>
    addRej { reason := q.1.reason, cell := if far then 40960 + q.2 else d.cell, blk := if far then 0 else blockTag s (.scr d.cell 0)
             tb := d.tb, off := q.1.off, src := src q.1, n := q.1.n, toC := !far } r) l
/-- What came of one delivery of a transfer: how many of its bytes are dealt with, and what was refused. -/
def settleXfer (s : State) (id : Nat) (d : Delivery) (vs : List Verdict) (far : Bool) : State :=
  match tfind s.xfers id with
  | none => s
  | some x =>
    s.setXfers (tset s.xfers id { x with
      dealt := x.dealt + (if d.only.isSome then 0 else d.bytes.length), inFlight := x.inFlight - 1
      rejects := noteRejs s d vs far (fun v => d.src + word (v.off - d.offset)) x.rejects
      err := x.err || vs.any (fun v => decide (v.reason ≠ 0)), due := s.time + s.pace.step })
/-- The same for a delivery of a walk; an ended walk is finished with its last delivery, so that the error of R473 reaches the
consumer's barrier with the bytes that stand. -/
def settleWalk (s : State) (id : Nat) (d : Delivery) (vs : List Verdict) (far : Bool) : State :=
  match tfind s.chases id with
  | none => s
  | some w =>
    let t := s.setChases (tset s.chases id { w with
      inFlight := w.inFlight - 1, rejects := noteRejs s d vs far (fun _ => d.src) w.rejects
      err := w.err || vs.any (fun v => decide (v.reason ≠ 0)) })
    if w.ended ∧ w.inFlight = 1 then t.setAgenda (Instr.chaseStep id :: t.agenda) else t
def settle (s : State) (d : Delivery) (vs : List Verdict) (far : Bool) : State :=
  match d.xfer, d.walk with
  | some i, _ => settleXfer s i d vs far
  | none, some i => settleWalk s i d vs far
  | none, none => s

/-- Presence bits that a delivery's bytes set in its requester's cell: those of the sectors whose last byte of the transfer it brings
(R112). -/
def presSectors (c : Nat) (d : Delivery) : List Nat :=
  if !d.pres then []
  else
    let n := d.bytes.length
    ((List.range ((d.offset + n - 1) / 32 + 1 - d.offset / 32)).map (fun i => d.offset / 32 + i)).filterMap fun k =>
      let e := Nat.min (32 * k + 31) d.last
      if d.offset ≤ e ∧ e < d.offset + n then some (locScr c 0 / 32 + k) else none

/-- Transfer or walk bytes reach their consumer cell (R351). -/
def execDeliveryArrival (id : Nat) (s : State) : Host.Outcome State Fault Refusal :=
  match tfind s.delivs id with
  | none => .next s
  | some d =>
    if d.away then .next s
    else if imageHeld s d.cell then .next (s.setDelivs (tset s.delivs id { d with due := s.time + s.pace.deliver }))
    else
      let (s1, v) := deliverAt (s.setDelivs (tdel s.delivs id)) d
      .next (settle (s1.setSets (s1.sets ++ presSectors (homeCell s d.req) d)) d [v] false)

/-! ### Sending -/

/-- ADDR of a delivery flit in the model's own layout: the consumer's die, cell, TB, window and offset, or a tag with the low bits of
the number of the transfer; a bit for bytes that are counted and not written.
(DESIGN CHOICE: notes/assumptions/12.md) -/
def delivAddr (die cell tb off : Nat) (win bad : Bool) (tag : Option Nat) (num : Nat) : Nat :=
  match tag with
  | none => die * 2 ^ 53 + cell * 2 ^ 45 + bCode bad * 2 ^ 36 + tb * 2 ^ 32 + bCode win * 2 ^ 31 + off
  | some t => num % 2 ^ 7 * 2 ^ 57 + t * 2 ^ 45 + num / 2 ^ 7 % 2 ^ 7 * 2 ^ 38 + 2 ^ 37 + bCode bad * 2 ^ 36 + off

/-- The transfer or walk of a delivery has met an error: its barrier NTB will take ERR (R474). -/
def markErr (s : State) (d : Delivery) : State :=
  match d.xfer, d.walk with
  | some i, _ => (match tfind s.xfers i with | some x => s.setXfers (tset s.xfers i { x with err := true }) | none => s)
  | _, some i => (match tfind s.chases i with | some w => s.setChases (tset s.chases i { w with err := true }) | none => s)
  | _, _ => s
/-- A delivery sets out within the package, from a die and a location there. Where it needs a failed hop its bytes are counted and not written,
as those of an unreadable source are (R472, R474). -/
def sendLocal (s : State) (source : Option (Nat × Nat)) (d : Delivery) : State :=
  if !d.bad && (match source with | some q => crossed s (dieOf d.cell) q.1 d.cell q.2 | none => false) then
    let t := markErr (postFor s (homeCell s d.req) (errRec d.req 8 6 d.src 32)) d
    takeFresh (t.setDelivs (tset t.delivs t.fresh { d with bad := true, due := t.time + t.pace.deliver }))
  else takeFresh (s.setDelivs (tset s.delivs s.fresh { d with due := s.time + s.pace.deliver }))
/-- A delivery sets out for another package (R406), from a die and a place there; where no plane reaches it, its bytes are lost, which the requester's cell
learns by a DATAERR record (R499, R474). -/
def sendFar (s : State) (source : Nat × Nat) (d : Delivery) (pkg die cell : Nat) (tag : Option Nat) : State :=
  let id := s.fresh
  let s1 := takeFresh (s.setDelivs (tset s.delivs s.fresh { d with away := true }))
  match newRequest s1 source pkg (planeOfCell die cell) 7 0 d.key (delivAddr die cell d.tb d.offset d.win d.bad tag (d.xfer.getD 0))
      (BitVec.ofNat 256 (bytesNum d.bytes)) (byteMask 0 d.bytes.length) (.deliv id) with
  | .out t => t
  | .fail code =>
    let t := s1.setDelivs (tdel s1.delivs id)
    let u := settle (postFor t (homeCell t d.req) (errRec d.req code 6 d.src 32)) d [] true
    markErr u d

/-- How many deliveries carry one piece of a transfer or walk. -/
def fanOut (x : Xfer) : Nat := match x.cons with | .tag _ _ _ => Nat.max 1 x.subs.length | _ => 1

/-- Where a source byte stands: as its page was translated at issue, or in a window. -/
def srcTarget (s : State) (x : Xfer) (va : Word) : Option Target :=
  match window va with
  | .cell off => some (.scr x.req.cell off)
  | .die die cell off => some (.scr (160 * die + cell) off)
  | .no =>
    match tlbFind x.pages x.req.asid va.toNat with
    | none => none
    | some e => (match placeTarget s e.place (e.base + (va.toNat - e.va)) with | .inl t => some t | .inr _ => none)

/-- The home die and the location from which the bytes of a source address are pushed (R350); none for another package. -/
def srcPlace (s : State) (x : Xfer) (va : Word) : Option (Nat × Nat) :=
  match srcTarget s x va with
  | some (.home loc die) => some (die, loc)
  | some (.scr cell off) => some (dieOf cell, locScr cell off)
  | _ => none

/-- One piece of a transfer sets out for its consumers (R350, R353). -/
def sendPiece (s : State) (id : Nat) (x : Xfer) (at_ : Nat) (src : Word) (l : List Byte) (bad : Bool) : State :=
  let d : Delivery := {
    xfer := some id, req := x.req, cell := x.req.cell, key := x.req.key, win := false, tb := x.tb, offset := x.offset + at_,
    bytes := l, bad := bad, src := src, due := 0 }
  let last := x.offset + x.rows * x.rlen - 1
  let here := (srcPlace s x src).getD (fromCell (homeCell s x.req))
  match x.cons with
  | .self win =>
    sendLocal s (srcPlace s x src) { d with self := true, win := win, cell := homeCell s x.req, pres := x.own, last := last }
  | .cap pkg die cell win key =>
    if pkg = s.pkg.pkgnum then
      sendLocal s (srcPlace s x src) { d with cell := 160 * die + cell, win := win, key := key, pres := x.own, last := last }
    else sendFar s here { d with cell := 160 * die + cell, win := win, key := key } pkg die cell none
  | .tag pkg tag key =>
    if pkg = s.pkg.pkgnum then
      x.subs.foldl (fun t q =>
        sendLocal t (srcPlace s x src) { d with cell := q.1, only := some q.2.1, key := key, win := q.2.2.win, tb := q.2.2.tb, offset := q.2.2.offset + at_ }) s
    else sendFar s here { d with key := key, offset := at_, only := some 0 } pkg 0 0 (some tag)

/-! ### Source reads (R350) -/

/-- The transfer goes on after the piece of n bytes that starts at byte `at_`. -/
def tookPiece (s : State) (id : Nat) (x : Xfer) (n : Nat) (err : Bool) : State :=
  s.setXfers (tset s.xfers id { x with
    read := x.read + n, inFlight := x.inFlight + fanOut x, err := x.err || err, away := false, due := s.time + s.pace.step
    dealt := x.dealt + (match x.cons with | .tag _ _ _ => n | _ => 0) })

/-- A piece of a transfer whose bytes have been read, or are unreadable with the record `rec`. -/
def pieceRead (s : State) (id : Nat) (x : Xfer) (src : Word) (l : List Byte) (bad : Bool) (rec : Option Record) : State :=
  let s1 := match rec with | some r => postFor s (homeCell s x.req) r | none => s
  let y := match tfind s1.xfers id with | some z => z | none => x
  sendPiece (tookPiece s1 id y l.length bad) id x x.read src l bad

/-- The bytes of a window whose cell has changed are unreadable: the REJECT is kept with the others (R350, R474). -/
def noteMoved (s : State) (id : Nat) (x : Xfer) (src : Word) (n : Nat) : State :=
  s.setXfers (tset s.xfers id { x with
    rejects := addRej { reason := 7, cell := 0, blk := 0, tb := 0, off := x.offset + x.read, src := src, n := n, toC := false } x.rejects })

/-- Whether a presence bit is one that a transfer has cleared itself: a byte that its source and its destination share is read before or
after its own write of it (R350). -/
def ownSector (s : State) (x : Xfer) (k : Nat) : Bool :=
  x.own && (destSectors (homeCell s x.req) x.offset (x.rows * x.rlen)).contains k
/-- A transfer reads its next source bytes, those of one sector of one row, at their home (R350, R162). -/
def execTransferSourceRead (id : Nat) (s : State) : Host.Outcome State Fault Refusal :=
  match tfind s.xfers id with
  | none => .next s
  | some x =>
    let later := s.setXfers (tset s.xfers id { x with due := s.time + s.pace.step })
    if x.away ∨ x.rows * x.rlen ≤ x.read then .next s
    else if (match x.cons with | .tag pkg _ _ => decide (pkg = s.pkg.pkgnum) && x.subs.isEmpty | _ => false) then
      -- no subscriber: no data is delivered (R127, R474)
      .next (s.setXfers (tset s.xfers id { x with
        read := x.rows * x.rlen, dealt := x.rows * x.rlen, err := true, due := s.time + s.pace.step
        rejects := addRej { reason := 5, cell := 0, blk := 0, tb := 0, off := x.offset, src := x.src, n := x.rows * x.rlen,
                            toC := false } x.rejects }))
    else
      let va := x.src + word (x.read / x.rlen * x.pitch + x.read % x.rlen)
      let n := Nat.min (32 - va.toNat % 32) (x.rlen - x.read % x.rlen)
      let dead := List.replicate n (0#8 : Byte)
      match srcTarget s x va with
      | none => .next (pieceRead s id x va dead true (some (errRec x.req 0 6 va 32)))
      | some (.dev _) => .next (pieceRead s id x va dead true (some (errRec x.req 0 6 va 32)))
      | some (.home loc die) =>
        if die = 4 ∧ !s.pkg.hostUp then .next later
        else
          (match (if crossed s (dieOf (homeCell s x.req)) die (homeCell s x.req) loc then some 8 else badIn s loc n) with
            | some code => .next (pieceRead s id x va dead true (some (errRec x.req code 6 (word (va.toNat / 32 * 32)) 32)))
            | none => .next (pieceRead s id x va (numBytes n (rd s loc n)) false none))
      | some (.scr cell off) =>
        let t : Target := .scr cell off
        if tget 0 x.homes cell ≠ blockTag s t ∨ tget 0 x.homes cell = 0 then
          .next (pieceRead (noteMoved s id x va n) id x va dead true none)
        else if (absentSectors s t n).any (fun k => !ownSector s x k) then .next later
        else
          (match (if crossed s (dieOf (homeCell s x.req)) (dieOf cell) (homeCell s x.req) (locScr cell off) then some 8 else badIn s (locScr cell off) n) with
            | some code => .next (pieceRead s id x va dead true (some (errRec x.req code 6 (word (va.toNat / 32 * 32)) 32)))
            | none => .next (pieceRead s id x va (numBytes n (rd s (locScr cell off) n)) false none))
      | some (.remote pkg pa) =>
        (match newRequest s (fromCell (homeCell s x.req)) pkg (planeOf pa) 1 0 x.req.key pa 0#256 (byteMask (pa % 32) n) (.xfer id x.read) with
          | .out t => .next (t.setXfers (tset t.xfers id { x with away := true }))
          | .fail code => .next (pieceRead s id x va dead true (some (errRec x.req code 6 (word (va.toNat / 32 * 32)) 32))))

/-- Source bytes of another package have come, or a location code (R407). -/
def xferReply (s : State) (id : Nat) (data : BitVec 256) (bad : Option Nat) : State :=
  match tfind s.xfers id with
  | none => s
  | some x =>
    let va := x.src + word (x.read / x.rlen * x.pitch + x.read % x.rlen)
    let n := Nat.min (32 - va.toNat % 32) (x.rlen - x.read % x.rlen)
    match bad with
    | some code => pieceRead s id x va (List.replicate n (0#8 : Byte)) true (some (errRec x.req code 6 (word (va.toNat / 32 * 32)) 32))
    | none => pieceRead s id x va (numBytes n (secGet data (va.toNat % 32) n)) false none

/-- A transfer has dealt with every byte. -/
def xferDone (x : Xfer) : Bool := decide (x.rows * x.rlen ≤ x.read ∧ x.inFlight = 0) && !x.away

/-- Whether the notice of a transfer cannot pass from one of its consumers in this package: its bytes are then counted with ERR, and a
DATAERR record tells of it (R472, R474).
(DESIGN CHOICE: notes/assumptions/66.md) -/
def noticeCut (s : State) (x : Xfer) : Bool :=
  let h := homeCell s x.req
  let cs : List Nat := match x.cons with
    | .self _ => []
    | .cap pkg die cell _ _ => if pkg = s.pkg.pkgnum then [160 * die + cell] else []
    | .tag _ _ _ => x.subs.map (fun q => q.1)
  cs.any (fun c => crossed s (dieOf c) (dieOf h) h (locScr c 0))

/-- The notice of a transfer is counted, its reports are made, and its entry is free (R349, R350, R474). -/
def execTransferNotice (id : Nat) (s : State) : Host.Outcome State Fault Refusal :=
  match tfind s.xfers id with
  | none => .next s
  | some x =>
    if !xferDone x then .next s
    else
      let s1 := x.rejects.foldl (fun t j => postRej t x.req (if x.note then x.ntb else 0) j) s
      let s2 := s1.setXfers (tdel s1.xfers id)
      .next (if !x.note then s2
        else if noticeCut s2 x then
          notice (postFor s2 (homeCell s2 x.req) (errRec x.req 8 6 x.src 32)) x.req x.ntb (x.rows * x.rlen) true
        else notice s2 x.req x.ntb (x.rows * x.rlen) x.err)

/-! ### Multicast joins (R127) -/

/-- Whether a cell still holds an entry for a tag, live or held. -/
def holdsTag (x : CellSt) (tag : Nat) : Bool :=
  x.matchTab.any (fun e => decide (e.2.tag = tag)) || x.heldTab.any (fun h => decide (h.2.2.tag = tag))
/-- Join or leave packets reach the routers. -/
def execMulticastJoinArrival (id : Nat) (s : State) : Host.Outcome State Fault Refusal :=
  match tfind s.joins id with
  | none => .next s
  | some j =>
    let t := s.setJoins (tdel s.joins id)
    let rest := t.pkg.joined.filter (fun q => decide (q ≠ (j.tag, j.cell)))
    if j.join then .next (t.setPkg { t.pkg with joined := rest ++ [(j.tag, j.cell)] })
    else if holdsTag (t.cell j.cell) j.tag then .next t
    else .next (t.setPkg { t.pkg with joined := rest })

/-! ### The sweep of a block barrier (R370) -/

/-- Whether a cell may forward the sweep: it is complete, its western neighbour's sweep has come, and on the eastern edge that
of the cell to its north; a hop takes 2 die cycles. -/
def mayForward (s : State) (b c : Nat) : Bool :=
  let x := s.cell c
  let w := gridW (s.grid (s.block b).grid)
  let fwd := fun (cx cy : Nat) => match (blockCells s b)[cx + w * cy]? with | some d => (s.cell d).bbForwarded && decide ((s.cell d).bbFwdAt + 2 ≤ s.time) | none => true
  cellComplete s c && (decide (x.cx = 0) || fwd (x.cx - 1) x.cy)
    && (decide (x.cx + 1 ≠ w ∨ x.cy = 0) || fwd x.cx (x.cy - 1))
/-- A phase is in progress: some participant of the block has arrived. -/
def bbOpen (s : State) (b : Nat) : Bool := (s.block b).bbRecord && (blockCells s b).any (fun c => decide ((s.cell c).bbArrived ≠ 0#64))

/-- The release sets out from the corner cell: each cell's copy comes 2 die cycles a hop later (R370). -/
def bbReleaseAll (s : State) (b : Nat) : State :=
  let g := s.grid (s.block b).grid
  let t := (blockCells s b).foldl (fun u c =>
    let x := u.cell c
    putCell u c { x with bbRelease := some (u.time + 2 * ((gridW g - 1 - x.cx) + (gridH g - 1 - x.cy))), bbForwarded := false }) s
  dropBbRecord t b

/-- A cell forwards the sweep, or its release has come (R370). -/
def execBlockBarrierSweep (cell : Nat) (s : State) : Host.Outcome State Fault Refusal :=
  let x := s.cell cell
  match x.block with
  | none => .next s
  | some b =>
    match x.bbRelease with
    | some t => if t ≤ s.time then .next (bbReleaseCell s cell) else .next s
    | none =>
      if x.bbForwarded ∨ !bbOpen s b ∨ !mayForward s b cell then .next s
      else
        let s1 := putCell s cell { x with bbForwarded := true, bbFwdAt := s.time }
        let g := s.grid (s.block b).grid
        if x.cx + 1 = gridW g ∧ x.cy + 1 = gridH g then .next (bbReleaseCell (bbReleaseAll s1 b) cell) else .next s1

end Sys2Proof.Machine
end

