-- ==== Sys2Proof/Machine/Chase.lean ====
section
/-!
DEFINITION. Chase walks (spec/13_isa_async_and_system.md R356 to R359, spec/04_memory_hierarchy.md R124, R125,
spec/05_translation.md R143, spec/19_memory_and_delivery_faults.md R473). A walk's word runs as that of a gang of one at a
position that no cell has; what it does to the registers there goes back into its context.
-/
namespace Sys2Proof.Machine

open Sys2Proof

/-- The position at which the words of walks are evaluated: the first of a cell above the last of the package. -/
def engPos : Nat := 40960

/-- The context of a walk laid out as a strand (R356). -/
def engState (s : State) (w : Walk) : State :=
  let s1 := w.g.foldl (fun t e => wrG t engPos e.1 e.2) s
  let s2 := w.w.foldl (fun t e => wrW t engPos e.1 e.2) s1
  let s3 := w.p.foldl (fun t e => wrP t engPos e.1 e.2) s2
  (putStr s3 engPos { st := .ready, pc := w.pc, lmode := .inPath 0 }).setCur
    { lanes := [engPos], leader := engPos, ba := w.pc, nba := w.pc + 4#64, word := 0#32, path := false, sup := false }
/-- Its registers and PC back in the context. -/
def engWalk (t : State) (w : Walk) : Walk :=
  { w with
    pc := (t.str engPos).pc
    g := (List.range 32).map (fun n => (n, rdG t engPos n))
    w := (List.range 4).map (fun n => (n, rdW t engPos n))
    p := (List.range 8).map (fun n => (n, rdP t engPos n)) }
/-- Results that would land later land at once. -/
def engSettle (t : State) : State :=
  (t.pend.filter (fun e => decide (e.2.pos = engPos))).foldl (fun u e => landValues u e.2) t

/-! ### The forms of a chase program (R357) -/

def lowW (n : Fin 16) : Bool := decide (n.val < 4)
/-- Operands of a form name no h register, and w0 to w3 alone. -/
def engRegs (i : Instr) : Bool := (srcs i ++ dests i).all fun r =>
  match r with
  | .h _ => false
  | .w n => decide (n < 4)
  | .k _ => false
  | .e _ => false
  | _ => true
/-- The memory forms, each with what it asks for. -/
def engMem : Instr → Option MemSpec
  | .ld _ d a sgn off z => some (loadSpec d sgn z (fun s p => askV (baseOff s p a off.toInt z.bytes) z.bytes .load))
  | .st _ off a b z => some (storeSpec b z (fun s p => askV (baseOff s p a off.toInt z.bytes) z.bytes .store))
  | .ldAcq _ d a _ sgn z => some (loadSpec d sgn z (fun s p => askV (rdReg s p a) z.bytes .load))
  | .stRel _ _ a b z => some (storeSpec b z (fun s p => askV (rdReg s p a) z.bytes .store))
  | .ldw _ w a off => some (loadWSpec w (fun s p => askV (baseOff s p a off.toInt 32) 32 .load))
  | .stw _ w a off => some (storeWSpec w (fun s p => askV (baseOff s p a off.toInt 32) 32 .store))
  | .ldwAcq _ w a _ => some (loadWSpec w (fun s p => askV (rdReg s p a) 32 .load))
  | .stwRel _ w a _ => some (storeWSpec w (fun s p => askV (rdReg s p a) 32 .store))
  | .sts _ off a b z => some (storeSpec b z (fun s p => askS (baseOff s p a off.toInt z.bytes) z.bytes .store))
  | .stsw _ w a off => some (storeWSpec w (fun s p => askS (baseOff s p a off.toInt 32) 32 .store))
  | _ => none
def engFence : Instr → Bool
  | .fenceAcq .. => true
  | .fenceRel .. => true
  | .fenceAr .. => true
  | .fenceSc .. => true
  | _ => false
def engStop : Instr → Bool
  | .stop _ => true
  | _ => false
def engBranch : Instr → Bool
  | .br .. => true
  | .dbnz .. => true
  | _ => false
/-- Whether a word is one a chase program may hold. -/
def engOk (v : Nat) (i : Instr) : Bool :=
  engRegs i &&
    (decide ((unpack v).k = 1 ∧ (unpack v).major ≤ 0x1E) || engBranch i || engStop i || engFence i || (engMem i).isSome)

/-! ### Translation (R143) -/

/-- What an access of a walk meets: its target, or the cause with which it ends. -/
inductive EngAcc where
  | ok (t : Target)
  | fail (cause : Nat)
  | wait

def putWalk (s : State) (id : Nat) (w : Walk) : State := s.setChases (tset s.chases id w)
/-- The region registers that apply to a walk: those of its requester's cell, or of the frame of its evicted block (R139, R143). A
block that has ended leaves none.
(DESIGN CHOICE: notes/assumptions/79.md) -/
def engRegions (s : State) (r : Requester) : CellSt :=
  let b := r.blk - 1
  if onCells (s.block b).phase then s.cell (homeCell s r)
  else if (s.block b).phase = .evicted then
    let i := field r.lpos.toNat 20 2 + gridW (s.grid (s.block b).grid) * field r.lpos.toNat 22 2
    let dw := fun n => word (frameDw s (recPa s b i + 8 * n))
    { subva := (List.range 4).map (fun n => (n, dw (4 + n))), submap := (List.range 4).map (fun n => (n, dw (8 + n))) }
  else {}
/-- Walkers of a stack in use (R143). -/
def stackWalkers (s : State) (k : Nat) : Nat := s.chases.countP (fun e => decide (e.2.stack = k) && e.2.miss.isSome)

/-- The checks of R462 in their order. A miss suspends the walk until one of the 64 walkers of its stack has found the translation,
which enters the stack's cache (R143). -/
def engTranslate (s : State) (id : Nat) (w : Walk) (va : Word) (al : Nat) (k : Acc) : State × EngAcc :=
  if !canonical va then (s, .fail 6)
  else if va.toNat % al ≠ 0 then (s, .fail 5)
  else if window va ≠ .no then (s, .fail 9)
  else
    let l := tget [] s.pkg.chaseTlb w.stack
    let x := engRegions s w.req
    let found : Option (TlbEnt ⊕ Nat) := match tlbFind l w.req.asid va.toNat with
      | some e => some (.inl e)
      | none =>
        if w.miss = some (walkKey x va.toNat) ∧ !invalOpen s w.req.asid va.toNat then
          some (walkAll s (w.stack / 3) (640 + w.stack) x w.req.asid va.toNat)
        else none
    match found with
    | none =>
      if w.miss.isSome ∨ stackWalkers s w.stack < 64 then
        (putWalk s id { w with miss := some (walkKey x va.toNat), due := s.time + s.pace.walk }, .wait)
      else (putWalk s id { w with due := s.time + s.pace.step }, .wait)
    | some (.inr _) => (s, .fail 6)
    | some (.inl e) =>
      let s1 := if l.contains e then s
        else s.setPkg { s.pkg with chaseTlb := tset s.pkg.chaseTlb w.stack (e :: l.take 2047) }
      if (match e.chunk with | some b => b.getLsbD (field va.toNat 10 6) | none => true) then
        (match rightsFail e k false with
          | some _ => (s1, .fail 7)
          | none =>
            (match placeTarget s e.place (e.base + (va.toNat - e.va)) with
              | .inl t => (s1, .ok t)
              | .inr _ => (s1, .fail 6)))
      else
        (s1.setPkg { s1.pkg with
          chaseTlb := tset s1.pkg.chaseTlb w.stack ((tget [] s1.pkg.chaseTlb w.stack).filter (fun x => decide (x ≠ e))) }, .fail 8)

/-! ### The end of a walk (R359, R473) -/

/-- The walk ends, in error where a cause is given; its context is free for the walk that has waited longest (R124). -/
def endWalk (s : State) (id : Nat) (w : Walk) (cause : Option Nat) : State :=
  let s1 := putWalk s id { w with
    ended := true, running := false, cause := cause, err := w.err || cause.isSome, away := false, miss := none, due := s.time + s.pace.step }
  match s1.chases.find? (fun e => decide (e.2.stack = w.stack) && !e.2.running && !e.2.ended) with
  | some e => putWalk s1 e.1 { e.2 with running := true, due := s1.time + s1.pace.step }
  | none => s1

/-- The consumer's barrier of a walk that ended in error: ERR := 1 and PEND := 0 (R473). -/
def breakLive (s : State) (c tb : Nat) : State :=
  let x := barOf (s.cell c) tb
  if x.valid then putBar s c tb { x with err := true, pend := 0 } else s
def breakBarrier (s : State) (b i tb : Nat) : State :=
  match (s.block b).phase with
  | .gone => s
  | .evicted =>
    let pa := recPa s b i + 0x60 + 16 * tb
    let y := barOfView (word (frameDw s pa)) 0#64
    if y.valid then wrHome s (frameLoc pa) 8 (tbView0 { y with err := true, pend := 0 }).toNat else s
  | _ => breakLive s ((blockCells s b).getD i 0) tb
def breakAt (s : State) (c tb : Nat) (key : BitVec 16) : State :=
  match meets s c key with
  | some q => breakBarrier s q.1 q.2 tb
  | none => s
def breakConsumer (s : State) (w : Walk) : State :=
  match w.cons with
  | .self _ => if (s.block (w.req.blk - 1)).phase = .gone then s
      else breakBarrier s (w.req.blk - 1) ((placeIn s (w.req.blk - 1) (homeCell s w.req)).getD 0) w.tb
  | .cap pkg die cell win key =>
    if pkg = s.pkg.pkgnum then breakAt s (160 * die + cell) w.tb key
    else
      -- a delivery of no bytes, marked bad
      ((newRequest s (w.stack / 3, 640 + w.stack) pkg (planeOfCell die cell) 7 0 key (delivAddr die cell w.tb 0 win true none 0) 0#256 0#32
        (.deliv s.fresh)).getD s)
  | .tag _ _ _ => s

/-- Once every byte of an ended walk has been written or refused, its reports and its notice are made (R359, R473, R474). -/
def finishWalk (s : State) (id : Nat) (w : Walk) : State :=
  let s1 := match w.cause with
    | none => s
    | some c =>
      postFor (breakConsumer s w) (homeCell s w.req)
        { rejectRec w.req 6 0 w.offset w.pc 0 with sinfo := word (c * 256 + 6) }
  let s2 := w.rejects.foldl (fun t j => postRej t w.req (if w.note then w.ntb else 0) j) s1
  let s3 := s2.setChases (tdel s2.chases id)
  if !w.note then s3
  else if crossed s3 (dieOf (homeCell s3 w.req)) (w.stack / 3) (homeCell s3 w.req) (2 ^ 56 + w.stack) then
    notice (postFor s3 (homeCell s3 w.req) (errRec w.req 8 6 w.pc 32)) w.req w.ntb w.delivered true
  else notice s3 w.req w.ntb w.delivered w.err

/-! ### One word (R356) -/

/-- `sts` and `stsw` deliver (R358). -/
def engDeliver (s : State) (id : Nat) (w : Walk) (a : Nat) (l : List Byte) : State :=
  let d : Delivery := {
    walk := some id, req := w.req, cell := w.req.cell, key := w.req.key, win := false, tb := w.tb
    offset := Nat.min (w.offset + a) (2 ^ 31 - 1), bytes := l, bad := false, src := w.pc, due := 0 }
  let s1 := putWalk s id { w with delivered := w.delivered + l.length, inFlight := w.inFlight + 1 }
  match w.cons with
  | .self win => sendLocal s1 (some (w.stack / 3, 2 ^ 56 + w.stack)) { d with self := true, win := win, cell := homeCell s w.req }
  | .cap pkg die cell win key =>
    if pkg = s.pkg.pkgnum then sendLocal s1 (some (w.stack / 3, 2 ^ 56 + w.stack)) { d with cell := 160 * die + cell, win := win, key := key }
    else sendFar s1 (w.stack / 3, 640 + w.stack) { d with cell := 160 * die + cell, win := win, key := key } pkg die cell none
  | .tag _ _ _ => s1

/-- An access of a walk at its home (R125): done, failed, to be tried again, or on its way to another package. -/
inductive EngDone where
  | done (s : State) (v : Nat)
  | fail (s : State)
  | wait (s : State)

def engAccess (s : State) (id : Nat) (w : Walk) (va : Word) (t : Target) (op : HomeOp) : EngDone :=
  match t with
  | .home loc die =>
    if die = 4 ∧ !s.pkg.hostUp then .wait (putWalk s id { w with due := s.time + s.pace.fabric })
    else if crossed s (w.stack / 3) die (640 + w.stack) loc then .fail s
    else
      (match actAt s w.req va loc op with
        | (u, .val v) => .done u v
        | (u, _) => .fail u)
  | .remote pkg pa =>
    (match w.got with
      | some v => if w.gotBad then .fail s else .done s v
      | none =>
        let i := pa % 32
        let (ty, data, mask) := match op with
          | .write n v => (3, v % 2 ^ (8 * n) * 2 ^ (8 * i), byteMask i n)
          | _ => (1, 0, byteMask i (opBytes op))
        (match newRequest s (w.stack / 3, 640 + w.stack) pkg (planeOf pa) ty 0 w.req.key pa (BitVec.ofNat 256 data) mask (.walk id) with
          | .out u => .wait (putWalk u id { w with away := true, miss := none })
          | .fail _ => .fail s))
  | _ => .fail s

/-- The word goes on to the next one. -/
def engNext (s : State) (id : Nat) (w : Walk) : State :=
  putWalk s id { w with words := w.words + 1, got := none, gotBad := false, word := none, miss := none, due := s.time + s.pace.step }

/-- A memory form of a chase program. -/
def engMemory (s : State) (id : Nat) (w : Walk) (m : MemSpec) : State :=
  let env := engState s w
  match m.accs env engPos with
  | [] => s
  | a :: _ =>
    let go := { w with pc := w.pc + 4#64 }
    if a.ask.scr then
      (if a.ask.va.toNat % a.ask.al ≠ 0 then endWalk s id w (some 5)
      else match a.op with
        | .write n v =>
          let s1 := engDeliver s id w a.ask.va.toNat (numBytes n v)
          let w1 := tget w s1.chases id
          engNext s1 id { w1 with pc := w.pc + 4#64 }
        | _ => s)
    else
      let (s1, r) := engTranslate s id w a.ask.va a.ask.al a.ask.kind
      match r with
      | .wait => s1
      | .fail c => endWalk s1 id w (some c)
      | .ok t =>
        match engAccess s1 id w a.ask.va t a.op with
        | .wait u => u
        | .fail u => endWalk u id w (some 10)
        | .done u v =>
          let env2 := (landVals (m.shape env engPos) engPos [v]).foldl putVal env
          engNext u id { engWalk env2 w with pc := go.pc }

/-- A form without a memory access: its value checks, and its effect on the context. -/
def engPlain (s : State) (id : Nat) (w : Walk) (f : Form) : State :=
  let env := engState s w
  match f.operand env [engPos] with
  | .fault l => endWalk s id w (some (match l with | q :: _ => q.2.cause | [] => 2))
  | _ =>
    let t := engSettle (f.act env (modStr env engPos (issueOne (w.pc + 4#64))) [engPos])
    engNext (s.setFresh t.fresh) id (engWalk t w)

/-- One word of a walk, fetched: judge it and run it. -/
def engWord (s : State) (id : Nat) (w : Walk) (v : Nat) : State :=
  match decodeWord v with
  | .bad _ => endWalk s id w (some 2)
  | .ok i =>
    if v / 2 ^ 31 = 1 ∨ !engOk v i then endWalk s id w (some 2)
    else
      let runs := match guardOf i with | some gd => acting (engState s w) gd engPos | none => true
      if !runs then engNext s id { w with pc := w.pc + 4#64 }
      else if engStop i then endWalk s id { w with words := w.words + 1 } none
      else if engFence i then engNext s id { w with pc := w.pc + 4#64 }
      else match engMem i with
        | some m => engMemory s id w m
        | none => (match formOf i with | some f => engPlain s id w f | none => endWalk s id w (some 2))

/-- Fetch the word at the PC of a walk, unless it is in hand. -/
def engFetch (s : State) (id : Nat) (w : Walk) : State :=
  let (s1, r) := engTranslate s id w w.pc 4 .fetch
  match r with
  | .wait => s1
  | .fail c => endWalk s1 id w (some c)
  | .ok t =>
    match engAccess s1 id w w.pc t (.read 4), t with
    | .wait u, _ => u
    | .fail u, _ => endWalk u id w (some 10)
    | .done u v, .remote _ _ => engWord u id { w with got := none, gotBad := false, word := some v } v
    | .done u v, _ => engWord u id w v

/-- A walk context executes one word of its program (R356), or an ended walk is finished. -/
def execChaseStep (id : Nat) (s : State) : Host.Outcome State Fault Refusal :=
  match tfind s.chases id with
  | none => .next s
  | some w =>
    if w.ended then (if w.inFlight = 0 then .next (finishWalk s id w) else .next s)
    else if w.away ∨ !w.running then .next s
    else match w.word with
      | some v => .next (engWord s id w v)
      | none => .next (engFetch s id w)

/-- A walk reaches 1,048,576 words (R359). -/
def execChaseStepLimit (id : Nat) (s : State) : Host.Outcome State Fault Refusal :=
  match tfind s.chases id with
  | none => .next s
  | some w => if w.ended ∨ w.words < 1048576 then .next s else .next (endWalk s id w (some 0))

/-- The reply to an access of a walk (R407). -/
def walkReply (s : State) (id : Nat) (v : Nat) (bad : Bool) : State :=
  match tfind s.chases id with
  | none => s
  | some w => putWalk s id { w with away := false, got := some v, gotBad := bad, due := s.time + s.pace.step }

end Sys2Proof.Machine
end

