-- ==== Sys2Proof/Machine/Ring.lean ====
section
/-!
DEFINITION. The Ring Road (spec/07_scheduling_and_ring_road.md R182 to R191), paying token requests (R189, R193), the records
of stalls and starvation (spec/20_progress_failures.md R477, R478, R482, R483) and the ballast rule
(spec/22_power_and_security_failures.md R505, R506).
-/
namespace Sys2Proof.Machine

open Sys2Proof

/-! ### Payment at the start of a cell cycle (R189) -/

/-- The lanes of a paid request go on, paid (R63); where the payment took QUOTA below zero, their bundle completes before they are saved
(R193). -/
def wakePaid (s : State) (p : Nat) (debt : Bool) : State :=
  wakeUnit (modStrs s (unit s p) (fun t => { t with paid := true, charged := debt })) p
/-- Pay the oldest request while POCKET covers it; a request that QUOTA does not allow pre-empts the block (R193). A paid issuer
issues in its slot's first cycle at or after the payment (R65).
(DEDUCED: notes/assumptions/78.md) -/
def payRequests (s : State) (c : Nat) : Nat → State
  | 0 => s
  | n + 1 =>
    match (s.cell c).reqs with
    | [] => s
    | r :: rest =>
      if (s.cell c).pocket < r.price then s
      else if !quotaAllows s c r.price r.exempt then sitOut s c
      else
        let s1 := payTokens s c r.price
        let s2 := putCell s1 c { s1.cell c with reqs := rest, starveMade := false }
        payRequests (afterPay (wakePaid s2 r.pos (inDebt s2 c)) c) c n

/-- The requests of a cell are paid, the oldest first (R189). -/
def execTokenRequestPaid (cell : Nat) (s : State) : Host.Outcome State Fault Refusal :=
  .next (payRequests s cell (s.cell cell).reqs.length)

/-! ### Stations (R182, R185, R186) -/

/-- The package cell of a station of a die, and the station of a package cell. -/
def stationCell (die st : Nat) : Nat :=
  160 * die + (if st / 16 % 2 = 0 then st else st / 16 * 16 + 15 - st % 16)
def cellStation (c : Nat) : Nat :=
  let k := c % 160
  if k / 16 % 2 = 0 then k else k / 16 * 16 + 15 - k % 16
/-- The flit that a station acts on in die cycle u. -/
def flitAt (u st : Nat) : Nat := (st + 160 - u % 160) % 160

/-- What names a request to Done: its issuer and when it was raised. -/
def reqName (r : TokReq) : Nat := r.die * 65536 + r.pos
def reqDone (x : CellSt) (n : Option Nat) : Bool :=
  match n with | none => true | some k => !x.reqs.any (fun r => decide (reqName r = k))
/-- PrioClaim in die cycle u (R190). -/
def claims (x : CellSt) (u : Nat) : Bool :=
  match x.reqs with | [] => false | r :: _ => decide (r.die + 160 ≤ u)

/-- Adjust of R186, made at station 0: the flit's count and the die after it. -/
def adjust (d : DieSt) (count : Nat) : DieSt × Nat :=
  let add := Nat.min d.inject (65535 - count)
  let cut := Nat.min d.deficit (count + add)
  ({ d with inject := d.inject - add, deficit := d.deficit - cut }, count + add - cut)

/-- What the lead flit does at a station: the die, the cell and the flit's count after it. -/
def leadStep (d : DieSt) (x : CellSt) (st u count : Nat) : DieSt × CellSt × Nat :=
  let d1 :=
    if d.own = some st ∧ reqDone x d.capReq then { d with own := none, capReq := none }
    else if d.own = none ∧ claims x u then { d with own := some st, capReq := x.reqs.head?.map reqName }
    else d
  let hold := decide (d1.own ≠ none ∧ d1.own ≠ some st)
  let y := { x with hold := hold, owner := decide (d1.own = some st) }
  if hold then (d1, { y with pocket := 0 }, count + y.pocket) else (d1, y, count)

/-- What a station does with the flit that has come, once the lead flit has been dealt with. -/
def passStep (cap u : Nat) (x : CellSt) (count : Nat) : CellSt × Nat :=
  let cooled := ((x.cool.filter (fun q => decide (q.1 ≤ u))).map (·.2)).foldl (· + ·) 0
  let x1 := { x with cool := x.cool.filter (fun q => decide (u < q.1)) }
  let c1 := count + cooled
  let (x2, c2) := if cap < x1.pocket then ({ x1 with pocket := cap }, c1 + x1.pocket - cap) else (x1, c1)
  if x2.block.isNone then ({ x2 with pocket := 0 }, c2 + x2.pocket)
  else if x2.hold then (x2, c2)
  else
    let take := Nat.min c2 (cap - x2.pocket)
    ({ x2 with pocket := x2.pocket + take }, c2 - take)

/-- A station acts on its flit (R185). The ring acts at the end of a die cycle, so the die cycle concerned is the one before
the model's clock: what a station takes there is in POCKET for every later cell cycle. -/
def execRingStationStep (die station : Nat) (s : State) : Host.Outcome State Fault Refusal :=
  let d := s.die die
  if d.ringFailed then .next s
  else
    let u := s.time - 1
    let f := flitAt u station
    let c := stationCell die station
    let (d1, c1) := if station = 0 then adjust d (tget 0 d.flits f) else (d, tget 0 d.flits f)
    let (d2, x2, c2) := if f = 0 then leadStep d1 (s.cell c) station u c1 else (d1, s.cell c, c1)
    let (x3, c3) := passStep d2.cap u x2 c2
    .next (putDie (putCell s c x3) die { d2 with flits := if c3 = 0 then tdel d2.flits f else tset d2.flits f c3 })

/-- Whether a station has anything to do in die cycle u. -/
def stationBusy (s : State) (die st u : Nat) : Bool :=
  let d := s.die die
  let x := s.cell (stationCell die st)
  let f := flitAt u st
  !d.ringFailed &&
    (decide (tget 0 d.flits f ≠ 0) && (x.block.isSome && !x.hold && decide (x.pocket < d.cap) || decide (f = 0 ∨ st = 0))
      || decide (d.cap < x.pocket) || (x.block.isNone && decide (x.pocket ≠ 0)) || x.cool.any (fun q => decide (q.1 ≤ u))
      || (decide (st = 0) && decide (d.inject ≠ 0 ∨ d.deficit ≠ 0))
      || (decide (f = 0) && (d.own.isSome || claims x u || x.hold || x.owner)))

/-! ### Stalls and starvation -/

/-- Die cycles for which a position has been parked with its reason (R477). -/
def parkedTime (s : State) (t : Strand) : Nat := t.parkedFor + (s.time - t.parkedAt)
/-- A position is parked, or waits in SUPERVISOR. -/
def isParked (t : Strand) : Bool := decide (t.st = .parked) || (decide (t.st = .supervisor) && decide (t.park ≠ .none))

/-- R477. -/
def execStallDetect (pos : Nat) (s : State) : Host.Outcome State Fault Refusal :=
  let t := s.str pos
  if !isParked t ∨ t.stallMade ∨ parkedTime s t < 2 ^ 24 then .next s
  else .next (postSq (modStr s pos (fun u => { u with stallMade := true })) (cellOf pos)
    { recAt s pos 7 with addr := t.pc, sinfo := 1#64, sval := word (parkCode t.park), arg := Nat.min (parkedTime s t) (2 ^ 32 - 1) })

/-- R478. -/
def execBlockstallDetect (block : Nat) (s : State) : Host.Outcome State Fault Refusal :=
  let x := s.block block
  if !onCells x.phase ∨ x.stallMade ∨ s.time - x.lastIssue < 2 ^ 24 then .next s
  else
    let p := 64 * (x.die * 160 + x.nw) + 16 * x.slots.headD 0
    let n := (heldBy s block).countP (fun q => decide (liveSt (s.str q) ≠ .retired))
    .next (postLog (putBlock s block { x with stallMade := true })
      { recAt s p 7 with sinfo := 2#64, sval := word x.b, arg := n })

/-- B of R482. -/
def starveBound (retain : Nat) : Nat := 641 + retain + 159 * (160 * ((retain + 322 + 159) / 160))
/-- When a request's age begins to count (R482). -/
def starveFrom (s : State) (c : Nat) (r : TokReq) : Nat := Nat.max r.die (s.die (dieOf c)).wrote
def starveRec (s : State) (c reason : Nat) (r : TokReq) : Record :=
  { recAt s r.pos 7 with sinfo := word reason, sval := ringcfg (s.die (dieOf c)), arg := r.price }

/-- The oldest request of a cell is judged as it becomes the oldest (R483), and for its age (R482). -/
def execStarveDetect (cell : Nat) (s : State) : Host.Outcome State Fault Refusal :=
  let x := s.cell cell
  let d := s.die (dieOf cell)
  match x.reqs with
  | [] => .next s
  | r :: rest =>
    if !r.judged then
      let bad := decide (d.total < r.price ∨ d.cap < r.price)
      let t := putCell s cell { x with reqs := { r with judged := true, unpayable := bad } :: rest, starveMade := false }
      .next (if bad then postLog t (starveRec s cell 4 r) else t)
    else if r.unpayable ∨ x.starveMade ∨ s.time ≤ starveFrom s cell r + starveBound d.retain then .next s
    else .next (postLog (putCell s cell { x with starveMade := true }) (starveRec s cell 3 r))

/-! ### Ballast (R505, R506) -/

/-- Whether the rail a cell draws from is held (R508). -/
def railHeld (s : State) (c : Nat) : Bool :=
  let d := s.die (dieOf c)
  if (s.cell c).high then d.highHeld else d.lowHeld
/-- Capacity of an engine for a revolution.
(DEDUCED: notes/assumptions/56.md) -/
def engineCap (s : State) (c : Nat) : Nat :=
  let x := s.cell c
  if x.railTo.isSome ∨ railHeld s c ∨ s.pkg.dead ∨ !x.jobs.isEmpty then 0 else if x.high then 160 else 80
/-- Capacity of a die: every engine that the table does not list is idle on the low rail. -/
def dieCap (s : State) (d : Nat) : Nat := ((List.range 160).map (fun c => engineCap s (160 * d + c))).foldl (· + ·) 0

/-- A revolution of a die ends: its ballast was what the floor of the revolution before asked for, as far as the engines
could (R505, R506). -/
def execBallastRevolution (die : Nat) (s : State) : Host.Outcome State Fault Refusal :=
  let d := s.die die
  let need := if d.bwin = 0 then 0 else d.floor - d.paid
  let cap := dieCap s die
  let floor := if d.bwin = 0 then d.paid else Nat.max d.paid (d.floor - (d.btot + d.bwin - 1) / d.bwin)
  let t := putDie s die { d with
    floor := floor, paid := 0, ballast := Nat.min need cap, bwin := s.pkg.rampWindow, btot := d.total }
  .next (if cap < need then postLog t { kind := 9, sinfo := 1#64, sval := word die, arg := need - cap } else t)

end Sys2Proof.Machine
end

