-- ==== Sys2Proof/Machine/Placement.lean ====
section
/-!
DEFINITION. The dispatcher (spec/02_execution_model.md R49, R50, spec/07_scheduling_and_ring_road.md R171, R176, R177), the end
of blocks and grids (spec/14_host_fabric_and_boot.md R400), the end of a kill (spec/17_traps_and_containment.md R445) and
launch records (R396, R446).
-/
namespace Sys2Proof.Machine

open Sys2Proof

/-! ### Rectangles (R49) -/

/-- The cells of the target of a migration in progress; they are kept for it. -/
def migCells (s : State) : List Nat :=
  match s.pkg.migBusy with
  | none => []
  | some b => rectCells s.pkg.migTo.1 s.pkg.migTo.2 (gridW (s.grid (s.block b).grid)) (gridH (s.grid (s.block b).grid))
/-- Whether a cell can take a block now; with `loose`, whether it could if every position that no halted block holds were
FREE (R177). A cell whose engine still runs operations of a block that has been killed takes none, nor does a cell that a migration is
on its way to.
(DEDUCED: notes/assumptions/81.md) -/
def cellOpen (s : State) (loose : Bool) (c : Nat) : Bool :=
  let x := s.cell c
  !x.fenced &&
    (match x.block with
      | none => loose || (x.jobs.isEmpty && !(migCells s).contains c)
      | some b => loose && decide ((s.block b).phase ≠ .halted ∧ (s.block b).phase ≠ .halting))
/-- The slot indices that the host has removed in none of some cells. -/
def commonSlots (s : State) (cs : List Nat) : List Nat :=
  (List.range 4).filter (fun k => cs.all (fun c => !(s.cell c).slotmask.getLsbD k))
def dieEnabled (s : State) (q d : Nat) : Bool := inMask (tget 0 s.pkg.lqcfg q) d
/-- The first rectangle for a block of a grid, and its slot indices. `kept` are positions that another claim holds. -/
def findRect (s : State) (g : Grid) (loose : Bool) (kept : Nat → Nat → Bool) : Option (Nat × Nat × List Nat) :=
  (List.range 4).findSome? fun d =>
    if !dieEnabled s g.prio d then none
    else (List.range 160).findSome? fun nw =>
      if 16 < nw % 16 + gridW g ∨ 10 < nw / 16 + gridH g then none
      else
        let cs := rectCells d nw (gridW g) (gridH g)
        if !cs.all (cellOpen s loose) then none
        else
          let ks := (commonSlots s cs).take (gridS g)
          if ks.length = gridS g ∧ !cs.any (fun c => ks.any (kept c)) then some (d, nw, ks) else none

/-! ### Claims (R177) -/

/-- Whether a claim of a block of a grid covers a position. -/
def claimHas (g : Grid) (cl : Nat × Nat × Nat × List Nat) (c k : Nat) : Bool :=
  (rectCells cl.2.1 cl.2.2.1 (gridW g) (gridH g)).contains c && cl.2.2.2.contains k
def retHas (s : State) (c k : Nat) : Bool :=
  match s.pkg.retClaim with | some r => claimHas (s.grid (s.block r.1).grid) r c k | none => false
def lauHas (s : State) (c k : Nat) : Bool :=
  match s.pkg.lauClaim with | some l => claimHas (s.grid l.1) l c k | none => false
/-- Positions kept from the block of the return claim, from the block of the launch claim, and from any other block: the
older claim holds what both cover. -/
def keptFromRet (s : State) (c k : Nat) : Bool := lauHas s c k && (!retHas s c k || !s.pkg.retOlder)
def keptFromLau (s : State) (c k : Nat) : Bool := retHas s c k && (!lauHas s c k || s.pkg.retOlder)
def keptFromAll (s : State) (c k : Nat) : Bool := retHas s c k || lauHas s c k

def gridFor (s : State) (b : Nat) : Grid := s.grid (s.block b).grid
/-- Whether an evicted block can return in the end: its rectangle is unfenced, its slot indices are not removed and its die is
enabled; for an unbound one, some rectangle could hold it.
(DEDUCED: notes/assumptions/63.md) -/
def eligible (s : State) (b : Nat) : Bool :=
  let x := s.block b
  if x.bound then
    dieEnabled s (gridFor s b).prio x.die &&
      (blockCells s b).all (fun c => !(s.cell c).fenced && x.slots.all (fun k => !(s.cell c).slotmask.getLsbD k))
  else (findRect s (gridFor s b) true (fun _ _ => false)).isSome
/-- What the return claim covers for a block. -/
def retClaimOf (s : State) (b : Nat) : Nat × Nat × Nat × List Nat :=
  let x := s.block b
  if x.bound then (b, x.die, x.nw, x.slots)
  else match findRect s (gridFor s b) true (fun _ _ => false) with
    | some r => (b, r)
    | none => (b, 0, 0, [])
/-- The return claim is made when its entry becomes the oldest that qualifies, and lasts until its block is restored or ends. -/
def claimRet (s : State) : State :=
  let keep := match s.pkg.retClaim with | some r => s.pkg.returns.contains r.1 | none => false
  if keep then s
  else match s.pkg.returns.find? (eligible s) with
    | some b => s.setPkg { s.pkg with retClaim := some (retClaimOf s b), retOlder := s.pkg.lauClaim.isNone }
    | none => s.setPkg { s.pkg with retClaim := none }

/-- Trailing zeros of a number below 2^n. -/
def trailing (v : Nat) : Nat → Nat
  | 0 => 0
  | n + 1 => if v % 2 = 1 then 0 else trailing (v / 2) n + 1
/-- The grid at the head of a launch queue. -/
def queueHead (s : State) (l : Nat) : Option Nat := (tget [] s.pkg.queues l).head?
/-- The grid of the decision DSEQ (R171).
(DEDUCED: notes/assumptions/62.md) -/
def decided (s : State) : Option Nat :=
  match queueHead s (7 - trailing (s.pkg.dseq + 1) 8) with
  | some g => some g
  | none => (List.range 8).findSome? (fun i => queueHead s (7 - i))
/-- What the launch claim covers for a block of a grid: nothing while no rectangle could hold it. -/
def lauClaimOf (s : State) (g : Nat) : Nat × Nat × Nat × List Nat :=
  match findRect s (s.grid g) true (fun _ _ => false) with
  | some r => (g, r)
  | none => (g, 0, 0, [])
/-- The decision is made, and with it the launch claim, when there is none pending; it lasts until its block is placed or its grid ends,
and is tried again till then (R171). A claim that covers nothing is made anew at each try. A decision whose queue has no die enabled
is not held: it is drawn again, from the same DSEQ.
(DEDUCED: notes/assumptions/62.md) -/
def claimLau (s : State) : State :=
  let held := s.pkg.lauClaim.filter (fun l => s.pkg.queues.any (fun e => e.2.contains l.1) &&
    decide (tget 0 s.pkg.lqcfg (s.grid l.1).prio ≠ 0))
  match held with
  | some l =>
    if l.2.2.2.isEmpty then s.setPkg { s.pkg with lauClaim := some (lauClaimOf s l.1), retOlder := s.pkg.retClaim.isSome } else s
  | none => (match decided s with
    | some g => s.setPkg { s.pkg with lauClaim := some (lauClaimOf s g), retOlder := s.pkg.retClaim.isSome }
    | none => s.setPkg { s.pkg with lauClaim := none })

/-! ### Placement (R50, R81, R111, R123) -/

/-- LPOS and RANK of a strand of a placed block (R40, R42). -/
def lposOf (g : Grid) (b cx cy lane sord : Nat) : Word :=
  word (b % gridGX g * 2 ^ 48 + b / gridGX g % gridGY g * 2 ^ 32 + b / (gridGX g * gridGY g) * 2 ^ 24 + cy * 2 ^ 22 + cx * 2 ^ 20
    + lane * 2 ^ 16 + gridGlog g * 2 ^ 13 + sord * 2 ^ 11)
def rankOf (g : Grid) (b cx cy sord pipe : Nat) : Word :=
  word (((b * (gridW g * gridH g) + cx + gridW g * cy) * gridS g + sord) * 16 + pipe)

/-- The cell of a placed block: its memories, tiles and tables are empty, and its L1 keeps no clean sector (R397;
DEDUCED, notes/assumptions/73.md). -/
def freshCell (s : State) (blk : Nat) (g : Grid) (c cx cy : Nat) : State :=
  let s1 := (s.setMem (memZero (memZero (memZero s.mem (locScr c 0) (2 ^ 20)) (locTer c 0) (2 ^ 24)) (locAcc c 0) 65536)).setPoison
    (tclear (locScr c 0 / 32) (locScr c 0 / 32 + 32768) (tclear (locTer c 0 / 32) (locTer c 0 / 32 + 524288)
      (tclear (locAcc c 0 / 32) (locAcc c 0 / 32 + 2048) s.poison)))
  let s2 := (s1.setAbsent (tclear (locScr c 0 / 32) (locScr c 0 / 32 + 32768) s1.absent)).setHs (tclear (512 * c) (512 * c + 512) s1.hs) |>.setBadRegs (s1.badRegs.filter (fun r => !r.inCell c))
  let x := s2.cell c
  putCell s2 c { x with
    block := some blk, cx := cx, cy := cy, scrsz := gridScr g, ter := gridTer g, lclreq := 0#64, rmtreq := 0#64
    quota := if g.q = 0 then none else some (g.q : Int), subva := [], submap := [], bars := [], matchTab := [], partials := []
    spawns := [], sq := [], note := true, noteDue := false, reqs := [], starveMade := false, jobErr := []
    bbArrived := 0#64, bbBefore := 0#64, bbForwarded := false, bbRelease := none, bbTwice := false, arrivals := []
    l1 := (l1DropClean s2 c |>.cell c).l1 }
/-- The strands of one slot of a cell. -/
def freshSlot (s : State) (g : Grid) (b c cx cy k sord : Nat) : State :=
  let n := 2 ^ gridGlog g
  (List.range 16).foldl (fun t p =>
    let pos := 64 * c + 16 * k + p
    let t1 := wrG (newStrand t pos g.entry (lposOf g b cx cy (p % n) sord) (rankOf g b cx cy sord p) (.inPath 0) false) pos 1 g.arg
    if p % n = 0 then putGang (dropGang t1 pos) pos { turn := true, cur := 0, last := 0, qleft := 64 } else t1) s

/-- A grid with a position on a held cell ends, with CAUSE zero; SINFO of the record is the event code of RAILFAULT (R508).
(DEDUCED: notes/assumptions/59.md) -/
def killHeld (s : State) (b : Nat) : State :=
  if (blockCells s b).any (railHeld s) then contextKill s (s.block b).grid { kind := 1, sinfo := 3#64 } else s

/-- The next block of a grid is placed on a rectangle (R50). -/
def placeBlock (s : State) (gid die nw : Nat) (slots : List Nat) : State :=
  let g := s.grid gid
  let b := tfresh s.blocks
  let s1 := putGrid (putBlock s b {
    grid := gid, b := g.placed, die := die, nw := nw, slots := slots, phase := .running
    quantumEnd := s.time + quantumLen g, lastIssue := s.time }) gid { g with placed := g.placed + 1 }
  let cs := rectCells die nw (gridW g) (gridH g)
  let s2 := cs.zipIdx.foldl (fun t q =>
    slots.zipIdx.foldl (fun u k => freshSlot u g g.placed q.1 (q.2 % gridW g) (q.2 / gridW g) k.1 k.2)
      (freshCell t b g q.1 (q.2 % gridW g) (q.2 / gridW g))) s1
  let s3 := cs.foldl (fun t c => bankCheck t c (decide (holdsGang t c ≠ (t.cell c).bank)) (heldIn t c)) s2
  killHeld s3 b

/-- The return list offers its oldest entry that can be restored (R176). -/
def tryReturn (s : State) : Option State :=
  s.pkg.returns.findSome? fun b =>
    let x := s.block b
    let kept := match s.pkg.retClaim with | some r => if r.1 = b then keptFromRet s else keptFromAll s | none => keptFromAll s
    if frameHeld s b then none
    else
      let spot :=
        if x.bound then
          (if eligible s b ∧ (blockCells s b).all (cellOpen s false) ∧ !(blockCells s b).any (fun c => x.slots.any (kept c)) then
            some (x.die, x.nw, x.slots) else none)
        else findRect s (gridFor s b) false kept
      spot.map fun r =>
        let t := restoreBlock s b r.1 r.2.1 r.2.2
        killHeld (t.setPkg { t.pkg with
          lastReturn := true
          retClaim := match t.pkg.retClaim with | some q => if q.1 = b then none else some q | none => none }) b
/-- The launch queues offer the pending decision (R171). -/
def tryLaunch (s : State) : Option State :=
  match s.pkg.lauClaim with
  | none => none
  | some l =>
    (findRect s (s.grid l.1) false (keptFromLau s)).map fun r =>
      let t := s.setPkg { s.pkg with lauClaim := none, lastReturn := false, dseq := (s.pkg.dseq + 1) % 255 }
      let u := placeBlock t l.1 r.1 r.2.1 r.2.2
      let g := u.grid l.1
      if gridBlocks g ≤ g.placed then u.setPkg { u.pkg with queues := u.pkg.queues.map (fun e => (e.1, e.2.filter (· ≠ l.1))) } else u

/-- The dispatcher places or restores one block, and goes on until neither source can (R176). -/
def execDispatchPlace (s : State) : Host.Outcome State Fault Refusal :=
  let t := claimLau (claimRet s)
  let r := if t.pkg.lastReturn then (tryLaunch t).orElse (fun _ => tryReturn t) else (tryReturn t).orElse (fun _ => tryLaunch t)
  match r with
  | some u => .next (u.setAgenda (Instr.dispatchPlace :: u.agenda))
  | none => .next t

/-! ### The end of blocks and grids (R63, R400) -/

/-- A block whose positions are all FREE and whose gathering units are empty has ended. -/
def blockDone (s : State) (b : Nat) : Bool :=
  onCells (s.block b).phase && (blockPositions s b).all (fun p => decide ((s.str p).st = .free)) &&
    (blockCells s b).all (fun c => (s.cell c).partials.isEmpty)
def finishBlock (s : State) (b : Nat) : State :=
  let t := endBlock s b
  putGrid t (s.block b).grid { t.grid (s.block b).grid with ended := (t.grid (s.block b).grid).ended + 1 }

/-- Some write of a grid has not been performed at its home. -/
def writesOpen (s : State) (g : Nat) : Bool :=
  s.stores.any (fun e => decide (e.2.grid = g) && storeLeft s e.2)
    || s.pend.any (fun e => decide (e.2.req.grid = g) && writesLeft e.2)
    || s.xfers.any (fun e => decide (e.2.req.grid = g)) || s.chases.any (fun e => decide (e.2.req.grid = g))
    || s.delivs.any (fun e => decide (e.2.req.grid = g))
    || s.cells.any (fun e => e.2.jobs.any (fun j => decide (j.req.grid = g)) ||
        e.2.l1.any (fun l => decide (l.2.grid = g ∧ l.2.dirty ≠ 0#32)))

/-- A completion counter cannot be incremented, for a cause of R429 (R400, R446). -/
def doneRefused (s : State) (g : Nat) (cause : Nat) : State :=
  let x := s.grid g
  postLog s { kind := 4, asid := x.asid, pkey := x.pkey, sval := x.doneVa, sinfo := word (5 + 256 * cause), grid := g }
/-- Where the counter of a grid stands, or the cause for which it cannot be reached.
(DEDUCED: notes/assumptions/61.md) -/
def doneTarget (s : State) (g : Nat) : Target ⊕ Nat :=
  let x := s.grid g
  if !canonical x.doneVa then .inr 6
  else match window x.doneVa with
    | .cell _ => .inr 9
    | .die _ _ _ => .inr 9
    | .no =>
      match walkAll s 4 0 {} x.asid x.doneVa.toNat with
      | .inr _ => .inr 6
      | .inl e =>
        match rightsFail e .atomic false with
        | some _ => .inr 7
        | none => (match placeTarget s e.place (e.base + (x.doneVa.toNat - e.va)) with | .inl t => .inl t | .inr _ => .inr 6)
/-- The counter lies in host memory while the host link is down (R502). -/
def doneHeld (s : State) (g : Nat) : Bool :=
  !s.pkg.hostUp && decide ((s.grid g).doneVa ≠ 0#64) && (match doneTarget s g with | .inl (.home _ 4) => true | _ => false)
/-- 1 is added to the completion counter (R400). -/
def addDone (s : State) (g : Nat) : State :=
  if (s.grid g).doneVa = 0#64 then s
  else match doneTarget s g with
    | .inr cause => doneRefused s g cause
    | .inl (.home loc _) =>
      (match badIn s loc 8 with
        | some _ => doneRefused s g 10
        | none => wrHome s loc 8 (rd s loc 8 + 1))
    | .inl (.remote pkg pa) =>
      (match newRequest s (4, 0) pkg (planeOf pa) 5 (ordBits 2 (some .node)) (s.grid g).pkey pa 1#256 (byteMask 0 16) (.done g) with
        | .out t => t
        | .fail _ => doneRefused s g 10)
    | .inl _ => doneRefused s g 7

/-- Whether a grid completes: every block has ended and every write has been performed. -/
def gridDone (s : State) (g : Nat) : Bool :=
  let x := s.grid g
  x.live && decide (gridBlocks x ≤ x.ended) && !writesOpen s g
def execGridComplete (grid : Nat) (s : State) : Host.Outcome State Fault Refusal :=
  if !gridDone s grid ∨ doneHeld s grid then .next s
  else .next (addDone (putGrid s grid { s.grid grid with live := false }) grid)

/-- Every position a kill names is FREE: its record is made, and the lane whose `kill` it was goes on (R379, R386, R445). -/
def execKillComplete (id : Nat) (s : State) : Host.Outcome State Fault Refusal :=
  match tfind s.kills id with
  | none => .next s
  | some k =>
    let t := postLog (s.setKills (tdel s.kills id)) k.record
    match k.waiter with
    | none => .next t
    | some p =>
      if (t.str p).wait = .event then
        let u := modStr t p (fun x => { x with wait := .sync [] 0 })
        .next (u.setAgenda (u.agenda ++ [Instr.syncOpComplete p]))
      else .next t

/-! ### Launch windows (R393, R396, R446) -/

/-- A write to a launch window that does not launch (R446). -/
def launchRefused (s : State) (win reason : Nat) (sval : Word) : State :=
  let b := (tget 0#64 s.pkg.lwbind win).toNat
  postLog s { kind := 4, asid := b % 65536, pkey := BitVec.ofNat 16 (field b 32 16), sinfo := word reason, sval := sval, arg := win }
/-- A write of `size` bytes at offset `off` of launch window `win`. Before STAGE 6 no window is served (R403); after an alarm of
level 3 every window stands as unbound (R510).
(DESIGN CHOICE: notes/assumptions/8.md)
(DEDUCED: notes/assumptions/60.md) -/
def execLaunch (win off size : Nat) (rec : BitVec 512) (s : State) : Host.Outcome State Fault Refusal :=
  let r := rec.toNat
  let b := (tget 0#64 s.pkg.lwbind win).toNat
  if s.pkg.stage < 6 then .next s
  else if size ≠ 64 ∨ off ≠ 0 then .next (launchRefused s win 1 0#64)
  else if b < 2 ^ 63 ∨ 3 ≤ s.pkg.alarmLevel then .next (launchRefused s win 2 (word (recDw r 0)))
  else if recAsid r ≠ b % 65536 ∨ (recPkey r).toNat ≠ field b 32 16 then .next (launchRefused s win 3 (word (recDw r 0)))
  else
    let prio := Nat.min (recPrio r) (field b 48 3)
    if recordOk s r (recAsid r) prio then .next (queueGrid s (gridOf r (recAsid r) (recPkey r) prio))
    else .next (launchRefused s win 4 (word (recDw r 0)))

end Sys2Proof.Machine
end

