-- ==== Sys2Proof/Machine/Power.lean ====
section
/-!
DEFINITION. Power, thermal and security events (spec/22_power_and_security_failures.md R504 to R512), hop failures
(spec/19_memory_and_delivery_faults.md R472) and accesses of the host to memory (spec/14_host_fabric_and_boot.md R390,
spec/04_memory_hierarchy.md R120, spec/21_fabric_and_link_errors.md R502).
-/
namespace Sys2Proof.Machine

open Sys2Proof

/-! ### Records (R512) -/

def powerRec (ev : Nat) (sval arg : Nat) : Record := { kind := 9, sinfo := word ev, sval := word sval, arg := arg }

/-! ### Thermal (R507) -/

/-- The thermal trip: every cell stops for good, and the attestation in progress ends without a report. -/
def tripNow (s : State) (sensor : Nat) : State :=
  if s.pkg.dead then s
  else s.setPkg { s.pkg with dead := true, trip := some sensor, bootErr := 0x10, attBusy := false }

/-- The hottest sensor now reads `temp` (R504, R507): one WARN record until it has fallen 5 degrees below WARN, and the trip at
110 degrees. -/
def execThermalWarn (sensor temp : Nat) (s : State) : Host.Outcome State Fault Refusal :=
  let p := s.pkg
  let s1 := s.setPkg { p with tmax := temp % 256 }
  let s2 :=
    if p.warn ≤ temp then
      (if p.warnMade then s1 else postLog (s1.setPkg { s1.pkg with warnMade := true }) (powerRec 2 sensor (temp % 256)))
    else if temp + 5 ≤ p.warn then s1.setPkg { s1.pkg with warnMade := false }
    else s1
  .next (if 110 ≤ temp then tripNow s2 sensor else s2)

/-- A sensor reaches 110 degrees (R507). -/
def execThermalTrip (sensor : Nat) (s : State) : Host.Outcome State Fault Refusal := .next (tripNow s sensor)

/-! ### Rails (R508) -/

/-- Cells of a die that draw from a rail. -/
def railCells (s : State) (die : Nat) (high : Bool) : List Nat :=
  ((List.range 160).map (fun c => 160 * die + c)).filter (fun c => decide ((s.cell c).high = high) && (s.cell c).railTo.isNone)
def putRail (s : State) (die rail : Nat) (held : Bool) (upto : Option Nat) : State :=
  let d := s.die die
  putDie s die (if rail = 1 then { d with highHeld := held, highEnd := upto } else { d with lowHeld := held, lowEnd := upto })
def railIsHeld (s : State) (die rail : Nat) : Bool := if rail = 1 then (s.die die).highHeld else (s.die die).lowHeld
def railEnd (s : State) (die rail : Nat) : Option Nat := if rail = 1 then (s.die die).highEnd else (s.die die).lowEnd

/-- A rail leaves tolerance: the cells that draw from it are held, the grids with a position there end, with a RAILFAULT
record. -/
def execRailFault (die rail : Nat) (s : State) : Host.Outcome State Fault Refusal :=
  let cs := railCells s die (decide (rail = 1))
  let gs := dedup ((cs.filterMap (fun c => (s.cell c).block)).map (fun b => (s.block b).grid))
  let s1 := postLog (putRail s die rail true none) (powerRec 3 (die % 4 * 256 + rail % 2) cs.length)
  .next (gs.foldl (fun t g => contextKill t g { kind := 1, sinfo := 3#64 }) s1)

/-- The rail is back within tolerance: the hold has 1,200,000 die cycles left. The RAILOK record is made here. -/
def execRailReturnsToTolerance (die rail : Nat) (s : State) : Host.Outcome State Fault Refusal :=
  if railIsHeld s die rail ∧ railEnd s die rail = none then
    .next (postLog (putRail s die rail true (some (s.time + 1200000))) (powerRec 4 (die % 4 * 256 + rail % 2) 0))
  else .next s

/-- The hold of a rail ends. -/
def execRailHoldEnd (die rail : Nat) (s : State) : Host.Outcome State Fault Refusal :=
  match railEnd s die rail with
  | some t => if t ≤ s.time then .next (putRail s die rail false none) else .next s
  | none => .next s

/-- The supply of an HBM4 stack leaves tolerance: every access to it is uncorrectable until a reset. -/
def execHbmSupplyFault (stack : Nat) (s : State) : Host.Outcome State Fault Refusal :=
  if 12 ≤ stack ∨ s.pkg.badStacks.contains stack then .next s
  else .next (s.setPkg { s.pkg with badStacks := stack :: s.pkg.badStacks })

/-! ### Security (R510) -/

/-- An alarm of level 1, 2 or 3: the key is erased where ALARMCFG selects the level, a record is made, and from level 2 on every
grid ends. -/
def alarm (s : State) (level source : Nat) : State :=
  if level = 0 ∨ 3 < level then s
  else
    let erase := inMask s.pkg.alarmErase (level - 1)
    let s1 := s.setPkg { s.pkg with
      alarmLevel := Nat.max s.pkg.alarmLevel level, erased := s.pkg.erased || erase }
    let s2 := postLog s1 { kind := 10, sinfo := word level, sval := word source, arg := bCode erase }
    if level = 1 then s2
    else (tkeys (s2.grids.filter (fun e => e.2.live))).foldl (fun t g => contextKill t g { kind := 1, sinfo := word level }) s2

/-- The security engine raises an alarm. -/
def execSecurityAlarm (level source : Nat) (s : State) : Host.Outcome State Fault Refusal := .next (alarm s level source)

/-! ### Hops (R472) -/

def hopTriesOf (s : State) (kind : HopKind) (die hop dir : Nat) : Nat :=
  match s.pkg.hopTries.find? (fun h => decide (h.1 = kind ∧ h.2.1 = die ∧ h.2.2.1 = hop ∧ h.2.2.2.1 = dir)) with
  | some h => h.2.2.2.2
  | none => 0
def putTries (s : State) (kind : HopKind) (die hop dir n : Nat) : State :=
  let rest := s.pkg.hopTries.filter (fun h => !decide (h.1 = kind ∧ h.2.1 = die ∧ h.2.2.1 = hop ∧ h.2.2.2.1 = dir))
  s.setPkg { s.pkg with hopTries := if n = 0 then rest else (kind, die, hop, dir, n) :: rest }

/-- A hop asks again for a damaged flit; after 16 failed retries of it the hop has failed, and a failed Ring Road hop stops the
ring of its die. -/
def execHopRetry (kind : HopKind) (die hop dir : Nat) (ok : Bool) (s : State) : Host.Outcome State Fault Refusal :=
  if s.pkg.failedHops.contains (kind, die, hop, dir) then .next s
  else if ok then .next (putTries s kind die hop dir 0)
  else
    let n := hopTriesOf s kind die hop dir + 1
    if n < 16 then .next (putTries s kind die hop dir n)
    else
      let s1 := putTries s kind die hop dir 0
      let s2 := s1.setPkg { s1.pkg with failedHops := (kind, die, hop, dir) :: s1.pkg.failedHops }
      let s3 := match kind with | .ring => putDie s2 die { s2.die die with ringFailed := true } | _ => s2
      .next (postLog s3 (linkRec 7 (dir % 4 * 1024 + die % 4 * 256 + hop % 256) 16))

/-! ### The host and memory -/

/-- Whether the host can reach the package. -/
def hostReaches (s : State) : Bool := decide (s.pkg.stage = 6) && !s.pkg.dead && s.pkg.hostUp
/-- The pieces of [a, a + n), one for each sector: offset from a, and length. -/
def hostPieces (a n : Nat) : List (Nat × Nat) :=
  (List.range ((a + n + 31) / 32 - a / 32)).filterMap fun i =>
    let lo := Nat.max a ((a / 32 + i) * 32)
    let hi := Nat.min (a + n) ((a / 32 + i + 1) * 32)
    if lo < hi then some (lo - a, hi - lo) else none
/-- A DATAERR record about a write of the host (R469, R502). -/
def hostErr (s : State) (code a n : Nat) : State :=
  postLog s { kind := 6, cause := 10, sval := word a, sinfo := word (code * 256 + 3), arg := n }
/-- The location code that a host access to a location meets (R471, R472). -/
def hostBad (s : State) (loc : Nat) : Option Nat := if crossed s (homeDie loc) 4 700 loc then some 8 else badAt s loc
/-- One piece of a host write at its home agent (R390, R471). -/
def hostPiece (s : State) (a n v : Nat) : State :=
  let loc := locPlace0 a
  if crossed s (homeDie loc) 4 700 loc then hostErr s 8 a n
  else match badAt s loc with
  | none => wrHome s loc n v
  | some code =>
    if n = 32 ∧ !onBadStack s loc then (wrHome s loc n v).setPoison (tdel s.poison (loc / 32)) else hostErr s code a n

/-- A CXL.mem access of the host to at most 64 bytes at an HDM offset (R390, R502). -/
def execHostMemoryAccess (write : Bool) (addr len : Nat) (data : BitVec 512) (poisoned : Bool) (s : State) :
    Host.Outcome State Fault Refusal :=
  if !hostReaches s ∨ 64 < len ∨ 0xC000000000 < addr + len then .next s
  else if write then
    (if poisoned then .next (hostErr s 0x0A addr len)
    else .next ((hostPieces addr len).foldl (fun t q => hostPiece t (addr + q.1) q.2 (field data.toNat (8 * q.1) (8 * q.2))) s))
  else
    let v := (hostPieces addr len).foldl (fun k q =>
      match hostBad s (locPlace0 (addr + q.1)) with
      | some _ => k
      | none => k + rd s (locPlace0 (addr + q.1)) q.2 * 2 ^ (8 * q.1)) 0
    .next (s.setPkg { s.pkg with hostData := BitVec.ofNat 512 v })

/-- Write the bytes that a new sector value changes. -/
def changeBytes (s : State) (loc : Nat) (d : BitVec 256) : Nat → State
  | 0 => s
  | n + 1 =>
    let t := changeBytes s loc d n
    if rd t (loc + n) 1 = secGet d n 1 then t else wrHome t (loc + n) 1 (secGet d n 1)
/-- The host takes a sector of its memory from the remote-data caches, and may have written it (R120): a write to a word with a
monitor fires it (R339). A sector that it has not written changes nothing. -/
def execHostCxlCacheRequest (addr : Nat) (write : Bool) (data : BitVec 256) (s : State) : Host.Outcome State Fault Refusal :=
  if !hostReaches s ∨ 2 ^ 49 ≤ addr ∨ !write then .next s
  else .next (changeBytes s (locHost (addr / 32 * 32)) data 32)

end Sys2Proof.Machine
end

