-- ==== Sys2Proof/Machine/Device.lean ====
section
/-!
DEFINITION. Writes to the device registers (spec/14_host_fabric_and_boot.md R391 to R395,
spec/07_scheduling_and_ring_road.md R183, R186, R195 to R197) and to the mailbox registers (R495, R504), reset and boot
(R401 to R403, R511), and attestation (R405).
-/
namespace Sys2Proof.Machine

open Sys2Proof

/-- Whether the device registers are served (R402, R403). -/
def served (s : State) : Bool := decide (s.pkg.stage = 6)

/-! ### Reset and boot -/

/-- The state that a reset leaves (R401). What a reset does not touch: the host's memory, the count of resets, an erased key (R510), the
warmest sensor, the state of the host link, and after a thermal trip the code that BOOTERR keeps until STAGE 6 (R507).
(DEDUCED: notes/assumptions/68.md) -/
def resetAll (s : State) : State :=
  let t := State.reset.setPkg { State.reset.pkg with
    resets := s.pkg.resets + 1, erased := s.pkg.erased, tmax := s.pkg.tmax, hostUp := s.pkg.hostUp
    bootErr := if s.pkg.bootErr = 0x10 then 0x10 else 0 }
  (t.setMem (trange (locHost 0) (locScr 0 0) s.mem)).setPoison (trange (locHost 0 / 32) (locScr 0 0 / 32) s.poison)
/-- Power-on or a Fundamental Reset. -/
def execPackageReset (s : State) : Host.Outcome State Fault Refusal := .next (resetAll s)
/-- A write to RSTCTL: during a reset it has no effect. -/
def putRstctl (s : State) (v : Word) : State := if served s && v.getLsbD 0 then resetAll s else s
def execRstctlGo (v : Word) (s : State) : Host.Outcome State Fault Refusal := .next (putRstctl s v)

/-! A firmware image (R404): a header of 64 bytes, the code, and r, then s, of the signature. -/

/-- A number from bytes, the first the lowest. -/
def leNat : List (BitVec 8) → Nat
  | [] => 0
  | b :: r => b.toNat + 256 * leNat r
def imgVersion (l : List (BitVec 8)) : Nat := leNat (l.take 8)
def imgCodeLen (l : List (BitVec 8)) : Nat := leNat ((l.drop 8).take 8)
/-- What the signature covers: the header and the code. -/
def imgSigned (l : List (BitVec 8)) : List (BitVec 8) := l.take (64 + imgCodeLen l)
/-- r, then s, each 66 bytes big-endian. -/
def imgSig (l : List (BitVec 8)) : BitVec 1056 :=
  BitVec.ofNat 1056 (leNat ((l.drop (64 + imgCodeLen l)).take 132).reverse)
/-- The bytes are those of an image: the rest of the header is zero, and nothing follows the signature. -/
def imgForm (l : List (BitVec 8)) : Bool :=
  decide (l.length = 64 + imgCodeLen l + 132) && ((l.take 64).drop 16).all (fun b => decide (b = 0#8))
/-- The bytes of a public key X, then Y, each 66 bytes big-endian. -/
def keyBytes (k : BitVec 1056) : List (BitVec 8) := (List.range 132).map (fun i => BitVec.ofNat 8 (field k.toNat (8 * (131 - i)) 8))
/-- Why an image is refused, 0 where it is accepted: a code for its signature and key, another for its version (R404, R511). An
image that has not the form of R404 has no signature to verify.
(DESIGN CHOICE: notes/assumptions/3.md) -/
def imgRefused (m : FwImage) (sig version : Nat) : Nat :=
  if !imgForm m.bytes || !Config.ecdsaOk m.key (Config.sha512 (imgSigned m.bytes)) (imgSig m.bytes) then sig
  else if Config.sha512 (keyBytes m.key) ≠ Config.keyHash then sig
  else if imgVersion m.bytes < Config.minVersion.toNat then version
  else 0

/-- The code with which the stage that runs fails, 0 where it ends well (R511): the images decide STAGE 2 and STAGE 4, and what
the training of STAGE 3 meets is `code` = 3.
(DESIGN CHOICE: notes/assumptions/3.md) -/
def stageFails (stage : Nat) (code : BitVec 8) : Nat :=
  if stage = 2 then imgRefused Config.bootImage 1 2
  else if stage = 3 then (if code = 3#8 then 3 else 0)
  else if stage = 4 then imgRefused Config.devImage 4 5
  else 0

/-- A stage of the boot ends (R403), or fails with a code (R511), after which no later stage runs. -/
def execBootStageComplete (code : BitVec 8) (s : State) : Host.Outcome State Fault Refusal :=
  let p := s.pkg
  let e := stageFails p.stage code
  if served s ∨ p.dead ∨ (p.bootErr ≠ 0 ∧ p.bootErr ≠ 0x10) then .next s
  else if e ≠ 0 then .next (s.setPkg { p with bootErr := e })
  else .next (s.setPkg { p with stage := p.stage + 1, bootErr := if p.stage + 1 = 6 then 0 else p.bootErr })

/-! ### Registers of the die and of the cells -/

/-- A write to RINGCFG of a die (R183, R186). -/
def putRingcfg (s : State) (die : Nat) (v : Word) : State :=
  let d := s.die die
  let n := field v.toNat 32 16
  let d1 :=
    if d.total ≤ n then
      { d with deficit := d.deficit - (n - d.total), inject := d.inject + ((n - d.total) - d.deficit) }
    else { d with inject := d.inject - (d.total - n), deficit := d.deficit + ((d.total - n) - d.inject) }
  putDie s die { d1 with total := n, cap := field v.toNat 16 16, retain := v.toNat % 65536, wrote := s.time }
def execRingcfgWrite (die : Nat) (v : Word) (s : State) : Host.Outcome State Fault Refusal :=
  .next (if served s ∧ die < 4 then putRingcfg s die v else s)

/-- A write to SLOTMASK of a cell (R195): the block that holds a removed slot index is evicted. -/
def putSlotmask (s : State) (c : Nat) (v : Word) : State :=
  let m := BitVec.ofNat 4 v.toNat
  let new := m &&& ~~~(s.cell c).slotmask
  let t := putCell s c { s.cell c with slotmask := m }
  match (s.cell c).block with
  | some b => if (s.block b).slots.any (fun k => new.getLsbD k) then preempt t b .evicting else t
  | none => t
def execSlotmaskWrite (cell : Nat) (v : Word) (s : State) : Host.Outcome State Fault Refusal :=
  .next (if served s ∧ cell < 640 then putSlotmask s cell v else s)

/-- A write to CFENCE of a cell (R394): as it sets FENCED, evicted blocks whose rectangles hold a fenced cell are unbound, to the head
of the return list. A return claim of such a block is made anew (R177). -/
def putCfence (s : State) (c : Nat) (v : Word) : State :=
  let t := putCell s c { s.cell c with fenced := v.getLsbD 0 }
  if !v.getLsbD 0 then t
  else
    let out := t.pkg.returns.filter (fun b => (t.block b).bound && (blockCells t b).any (fun d => (t.cell d).fenced))
    let u := out.foldl (fun w b => putBlock w b { w.block b with bound := false }) t
    u.setPkg { u.pkg with
      returns := out ++ u.pkg.returns.filter (fun b => !out.contains b)
      retClaim := match u.pkg.retClaim with | some r => if out.contains r.1 then none else some r | none => none }
def execCfenceWrite (cell : Nat) (v : Word) (s : State) : Host.Outcome State Fault Refusal :=
  .next (if served s ∧ cell < 640 then putCfence s cell v else s)

/-- A write to RAILSEL of a cell (R196): a change of HIGH starts a switch, during which CYCLE stands still. -/
def putRailsel (s : State) (c : Nat) (v : Word) : State :=
  let x := s.cell c
  if x.railTo.isSome ∨ v.getLsbD 0 = x.high then s
  else putCell s c { x with cycBase := cyc s c, railTo := some (v.getLsbD 0), railDue := s.time + s.pace.rail }
def execRailselWrite (cell : Nat) (v : Word) (s : State) : Host.Outcome State Fault Refusal :=
  .next (if served s ∧ cell < 640 then putRailsel s cell v else s)
/-- The multiplexers of a cell have switched (R196); a block that now stands on a held cell ends (R508). -/
def execRailSwitchComplete (cell : Nat) (s : State) : Host.Outcome State Fault Refusal :=
  let x := s.cell cell
  match x.railTo with
  | none => .next s
  | some h =>
    if s.time < x.railDue then .next s
    else
      let t := putCell s cell { x with high := h, railTo := none, cycBase := x.cycBase + 24, cycAt := s.time }
      match x.block with
      | some b => .next (killHeld t b)
      | none => .next t

/-! ### Migration (R197, R509) -/

/-- The resident block whose north-west cell is cell `nw` of a die, unless it is halted or already on its way out. -/
def blockAtCorner (s : State) (die nw : Nat) : Option Nat :=
  match (s.cell (160 * die + nw)).block with
  | none => none
  | some b =>
    let x := s.block b
    let stays := match x.phase with
      | .running => true
      | .sittingOut => true
      | .preempting => decide (x.after = .sittingOut)
      | _ => false
    if decide (nw < 160 ∧ x.die = die ∧ x.nw = nw) && stays then some b else none
/-- Why a command is refused (R509). -/
def migRefused (s : State) (b : Option Nat) (die nw : Nat) : Option Nat :=
  if s.pkg.migBusy.isSome then some 1
  else match b with
    | none => some 2
    | some k =>
      let g := gridFor s k
      let cs := rectCells die nw (gridW g) (gridH g)
      if 160 ≤ nw ∨ 16 < nw % 16 + gridW g ∨ 10 < nw / 16 + gridH g ∨ cs.any (fun c => (s.cell c).block.isSome || !(s.cell c).jobs.isEmpty) then
        some 3
      else if cs.any (fun c => (s.cell c).fenced) then some 4
      else if cs.any (fun c => (s.block k).slots.any (fun j => (s.cell c).slotmask.getLsbD j)) then some 5
      else none
/-- A write to MIGCMD. -/
def putMigcmd (s : State) (v : Word) : State :=
  let t := s.setPkg { s.pkg with migcmd := v &&& 0xFFFFF000#64 }
  if !v.getLsbD 63 then t
  else
    let b := blockAtCorner s (field v.toNat 30 2) (field v.toNat 22 8)
    let die := field v.toNat 20 2
    let nw := field v.toNat 12 8
    match migRefused s b die nw, b with
    | none, some k =>
      let t1 := t.setPkg { t.pkg with migBusy := some k, migTo := (die, nw) }
      preempt (putBlock t1 k { t1.block k with quantumLeft := (t1.block k).quantumEnd - t1.time }) k .migrating
    | r, _ => postLog t (powerRec 5 v.toNat (r.getD 2))
def execMigcmdGo (v : Word) (s : State) : Host.Outcome State Fault Refusal := .next (if served s then putMigcmd s v else s)

/-! ### Attestation (R405, R510) -/

/-- A write to ATTCTL: a buffer outside region 0b000 or 0b010 raises an alarm of level 1 and starts nothing. -/
def putAttctl (s : State) (v : Word) : State :=
  if s.pkg.attBusy then s
  else
    let t := s.setPkg { s.pkg with attBuf := v &&& 0xFFFFFFFFFF000#64 }
    if !v.getLsbD 63 then t
    else if (tableLoc t.pkg.attBuf.toNat).isNone then alarm t 1 0
    else t.setPkg { t.pkg with attBusy := true, attDue := t.time + t.pace.fabric }
def execAttctlGo (v : Word) (s : State) : Host.Outcome State Fault Refusal := .next (if served s then putAttctl s v else s)

/-- A number of n bits read with its bytes in the other order. -/
def swapBytes (v : Nat) : Nat → Nat
  | 0 => 0
  | n + 1 => v % 256 * 256 ^ n + swapBytes (v / 256) n
/-- The measurements M0, M1 and M2 that the boot records (R403): SHA-512 of the two images, and of the fused configuration with
FWVER after it.
(DESIGN CHOICE: notes/assumptions/64.md) -/
def measure0 : BitVec 512 := Config.sha512 Config.bootImage.bytes
def measure1 : BitVec 512 := Config.sha512 Config.devImage.bytes
def measure2 : BitVec 512 :=
  Config.sha512 (Config.fusedConfig ++ (List.range 4).map (fun i => BitVec.ofNat 8 (field Config.fwver.toNat (8 * i) 8)))
/-- The first 280 bytes of a report, as one little-endian number.
(DESIGN CHOICE: notes/assumptions/3.md)
(DESIGN CHOICE: notes/assumptions/64.md) -/
def reportHead (s : State) : Nat :=
  (if s.pkg.erased then 2 else 1) + Config.serial.toNat * 2 ^ 64 + measure0.toNat * 2 ^ 128 + measure1.toNat * 2 ^ 640
    + measure2.toNat * 2 ^ 1152 + s.pkg.nonce.toNat * 2 ^ 1664
    + (Config.resetsBefore.toNat + 1 + s.pkg.resets) % 2 ^ 64 * 2 ^ 2176
/-- The whole report: r and s stand big-endian after the head, and are zero once the key is erased. -/
def reportBytes (s : State) : Nat :=
  let head := reportHead s
  if s.pkg.erased then head
  else
    let g := (Config.signature (BitVec.ofNat 2240 head)).toNat
    head + (swapBytes (g / 2 ^ 528) 66 + swapBytes (g % 2 ^ 528) 66 * 2 ^ 528) * 2 ^ 2240
/-- The report lies in its buffer, and BUSY reads 0. While the host link is down a report to host memory is held (R502). -/
def execAttestationReportDone (s : State) : Host.Outcome State Fault Refusal :=
  if !s.pkg.attBusy then .next s
  else match tableLoc s.pkg.attBuf.toNat with
    | none => .next (s.setPkg { s.pkg with attBusy := false })
    | some a =>
      if !s.pkg.hostUp ∧ 2 ^ 50 ≤ s.pkg.attBuf.toNat then .next s
      else
        let v := reportBytes s
        let t := writeDwords s a ((List.range 52).map (fun i => field v (64 * i) 64))
        .next (t.setPkg { t.pkg with attBusy := false })

/-! ### FABCFG (R392, R497) -/

/-- A port takes a state, with the LINK record of the change (R497, R503). -/
def portTo (s : State) (n state : Nat) : State :=
  if (portOf s n).state = state then s
  else
    let t := putPort s n { portOf s n with state := state }
    match state with
    | 2 => postLog t (linkRec 1 (portstat (portOf t n)) n)
    | 4 => postLog t (linkRec 2 (portstat (portOf t n)) n)
    | 3 => postLog t (linkRec 3 (portstat (portOf t n)) n)
    | 0 => postLog (putPort t n { portOf t n with queue := [] }) (linkRec 4 (portstat (portOf t n)) n)
    | _ => t
/-- A write to FABCFG: EN from 0 to 1 trains every port, EN from 1 to 0 takes every port down; PKGNUM takes a value only while
EN is 0. -/
def putFabcfg (s : State) (v : Word) : State :=
  let en := v.getLsbD 63
  let t := s.setPkg { s.pkg with fabEn := en, pkgnum := if s.pkg.fabEn then s.pkg.pkgnum else field v.toNat 32 9 }
  if en = s.pkg.fabEn then t else (List.range 32).foldl (fun u n => portTo u n (if en then 4 else 0)) t
def execFabcfgWrite (v : Word) (s : State) : Host.Outcome State Fault Refusal := .next (if served s then putFabcfg s v else s)

/-! ### Every other register (R391, R495, R504) -/

/-- A cell register of the region. -/
def putCellReg (s : State) (c r : Nat) (v : Word) : State :=
  if r = 0 then putSlotmask s c v
  else if r = 8 then putRailsel s c v
  else if r = 16 then putCell s c { s.cell c with ovfcfg := v &&& 0xFFFFFFFFFF01F#64 }
  else if r = 24 then putCfence s c v
  else s
def putMailbox (s : State) (r : Nat) (v : Word) : State :=
  let p := s.pkg
  if r = 0 then s.setPkg { p with e2etime := if v.toNat % 2 ^ 32 < 8192 then 8192 else v.toNat % 2 ^ 32 }
  else if r = 8 then s.setPkg { p with rampWindow := v.toNat % 65536 }
  else if r = 16 then s.setPkg { p with warn := field v.toNat 8 8 }
  else if r = 24 then s.setPkg { p with alarmErase := v.toNat % 8 }
  else s
/-- A write of a doubleword at an offset of the region. -/
def putRegister (s : State) (off : Nat) (v : Word) : State :=
  let p := s.pkg
  if off = 0 then putFabcfg s v
  else if off = 0x10 then putRstctl s v
  else if off = 0x18 then s.setPkg { p with asidtab := v &&& 0xFFFFFFFFFF000#64 }
  else if off = 0x20 then putMigcmd s v
  else if 0x40 ≤ off ∧ off < 0x80 then s.setPkg { p with lqcfg := tset p.lqcfg ((off - 0x40) / 8) (v.toNat % 16) }
  else if off = 0x80 then putAttctl s v
  else if 0xC0 ≤ off ∧ off < 0x100 then
    (if p.attBusy then s else s.setPkg { p with nonce := BitVec.ofNat 512 (setElem p.nonce.toNat 64 ((off - 0xC0) / 8) v.toNat) })
  else if 0x10000 ≤ off ∧ off < 0x14000 ∧ off % 0x1000 = 0 then putRingcfg s ((off - 0x10000) / 0x1000) v
  else if 0x20000 ≤ off ∧ off < 0x28000 then
    s.setPkg { p with lwbind := tset p.lwbind ((off - 0x20000) / 8) (v &&& 0x8007FFFF0000FFFF#64) }
  else if 0x100000 ≤ off ∧ off < 0x140000 ∧ (off - 0x100000) % 0x10000 / 0x100 < 160 then
    putCellReg s (160 * ((off - 0x100000) / 0x10000) + (off - 0x100000) % 0x10000 / 0x100) (off % 0x100) v
  else if 0x400000 ≤ off ∧ off < 0x800000 then s.setPkg { p with dcap := tset p.dcap ((off - 0x400000) / 8) (dcapBits v) }
  else if 0x1000000 ≤ off ∧ off < 0x2000000 then launchRefused s (field off 12 12) 1 0#64
  else s
/-- A write to a register: the mailboxes are served once STAGE 4 has started the management controller (R403, R504), the region from
STAGE 6 on. A write to an offset that R391 does not name is ignored. -/
def execRegisterWrite (off : Nat) (v : Word) (s : State) : Host.Outcome State Fault Refusal :=
  if s.pkg.dead ∧ off ≠ 0x10 then .next s
  else if mailbox ≤ off then .next (if mailServed s.pkg (off - mailbox) then putMailbox s (off - mailbox) v else s)
  else if served s ∧ off % 8 = 0 then .next (putRegister s off v)
  else .next s

end Sys2Proof.Machine
end

