-- ==== Sys2Proof/Machine/Link.lean ====
section
/-!
DEFINITION. The Preik ports and the host link (spec/21_fabric_and_link_errors.md R496 to R503): flits that arrive
(spec/14_host_fabric_and_boot.md R406 to R408), replies, retries and unusable planes, lanes, training and lost planes.
-/
namespace Sys2Proof.Machine

open Sys2Proof

/-! ### Replies to requests of this package (R407, R408) -/

def maskCount (m : BitVec 32) : Nat := ((List.range 32).filter (fun i => m.getLsbD i)).length
/-- The bytes that a request named, out of the DATA of its reply; the old value of a read-modify-write stands from byte 0 up. -/
def replyVal (q : Request) (data : BitVec 256) : Nat :=
  if flitType q.flit = 5 then data.toNat
  else secGet data (flitAddr q.flit % 32) (Nat.min (maskCount (flitMask q.flit)) (32 - flitAddr q.flit % 32))

/-- An act of an instruction has been performed, or has failed (R468); the cell's L1 keeps no copy of its sector, and with an acquire
none of any clean sector (R158). -/
def partReply (s : State) (id ix v : Nat) (bad : Option Nat) : State :=
  match tfind s.pend id with
  | none => s
  | some e =>
    match e.parts[ix]? with
    | none => s
    | some p =>
      let m := bad.map (fun c => ({ cause := 10, code := c, addr := p.va, access := e.access } : Mark))
      let k := match p.op with | .read n => v % 2 ^ (8 * n) | .write _ _ => 0 | .amo o w64 _ _ => v % 2 ^ (8 * amoBytes o w64)
      let t := s.setPend (tset s.pend id { e with
        parts := e.parts.set ix { p with val := some (if bad.isSome then 0 else k) }, mark := e.mark.orElse (fun _ => m), due := s.time })
      acqL1 (match p.tgt with | .remote pkg pa => dropFar t e.req.cell pkg pa | _ => t) e.req.cell e.acq
/-- The word of a `wait` has been read in another package: the lane completes unless it still holds the value expected (R339). -/
def monReply (s : State) (pos v : Nat) (bad : Option Nat) : State :=
  match (s.str pos).mon with
  | none => s
  | some m =>
    let st := bCode m.armed
    let t := dropFar s (cellOf pos) ((m.loc - 2 ^ 60) / 2 ^ 40) ((m.loc - 2 ^ 60) % 2 ^ 40)
    if m.done.isSome then s
    else match bad with
      | some c => putMon t pos { monFail m st 10 c with asked := false }
      | none =>
        let x := word (v % 2 ^ (8 * m.bytes))
        if x = m.expect then putMon t pos { m with asked := false, armed := true }
        else putMon t pos { m with asked := false, done := some (x, st) }
/-- A sector of another package has come for the bundles of a cell, or its read has failed. -/
def fillReply (s : State) (c key : Nat) (data : BitVec 256) (bad : Option Nat) : State :=
  match bad with
  | none => putCell s c { s.cell c with
      l1 := tset (s.cell c).l1 key { data := data, held := BitVec.allOnes 32, dirty := 0#32, filled := s.time, grid := 0 } }
  | some code =>
    let ps := (heldIn s c).filter (fun p => match (s.str p).wait with | .fills l => l.contains key | _ => false)
    modStrs s ps (fun t => { t with readFail := (key, code) :: t.readFail })
/-- A sector of an accumulator transfer has been read or written in another package. -/
def matReply (s : State) (c id ix : Nat) (data : BitVec 256) (bad : Option Nat) : State :=
  match (s.cell c).jobs.find? (fun j => decide (j.id = id)) with
  | none => s
  | some j =>
    let k := match bad with
      | none => { j with replies := tset j.replies ix data.toNat }
      | some _ => { j with bad := true }
    let t := putCell s c { s.cell c with jobs := (s.cell c).jobs.map (fun i => if i.id = id then k else i) }
    match bad with
    | none => t
    | some code => postFor t c (errRec j.req code 9 (rowAddr j.op ix) 32)
/-- The answer to a delivery in the model's own layout: what up to seven consumers refused.
(DESIGN CHOICE: notes/assumptions/12.md) -/
def answerData (vs : List Verdict) : Nat :=
  ((vs.filter (fun v => decide (v.reason ≠ 0))).take 7).zipIdx.foldl (fun n q =>
    n + (q.1.reason % 16 + q.1.off % 2 ^ 24 * 16 + q.1.n % 256 * 2 ^ 28) * 2 ^ (36 * q.2)) 0
def answerOf (data : BitVec 256) : List Verdict :=
  (List.range 7).map fun i =>
    { reason := field data.toNat (36 * i) 4, off := field data.toNat (36 * i + 4) 24, n := field data.toNat (36 * i + 28) 8 }
/-- A delivery has been dealt with in another package: what its consumer answered stands in DATA. -/
def delivReply (s : State) (id : Nat) (data : BitVec 256) (bad : Option Nat) : State :=
  match tfind s.delivs id with
  | none => s
  | some d =>
    let t := s.setDelivs (tdel s.delivs id)
    match bad with
    | none => settle t d (answerOf data) true
    | some code =>
      let u := settle (postFor t (homeCell t d.req) (errRec d.req code 6 d.src 32)) d [] true
      match d.xfer, d.walk with
      | some i, _ => (match tfind u.xfers i with | some x => u.setXfers (tset u.xfers i { x with err := true }) | none => u)
      | none, some i => (match tfind u.chases i with | some w => u.setChases (tset u.chases i { w with err := true }) | none => u)
      | none, none => u
/-- A message has been taken in another package, or refused there (R485). -/
def msgReply (s : State) (id : Nat) (data : BitVec 256) (bad : Option Nat) : State :=
  match tfind s.flying id with
  | none => s
  | some f =>
    match bad with
    | some code =>
      dropMsg (s.setFlying (tdel s.flying id)) f.msg code
    | none =>
      if data.toNat % 256 = 1 then s.setFlying (tset s.flying id { f with refused := true, due := s.time + 1024 })
      else s.setFlying (tdel s.flying id)

/-- A request is complete: what it served takes its data, or a location code (R407, R499). -/
def answer (s : State) (q : Request) (data : BitVec 256) (bad : Option Nat) : State :=
  let v := replyVal q data
  match q.who with
  | .part id ix => partReply s id ix v bad
  | .xfer id _ => xferReply s id data bad
  | .mon pos => monReply s pos v bad
  | .fill cell key => fillReply s cell key data bad
  | .mat cell id ix => matReply s cell id ix data bad
  | .walk id => walkReply s id (match bad with | none => v | some _ => 0) bad.isSome
  | .deliv id => delivReply s id data bad
  | .notice _ => s
  | .msg id => msgReply s id data bad
  | .done g => (match bad with | some _ => doneRefused s g 10 | none => s)

/-- Requests that were held back behind resent ones set out, once none of those is left (R499). -/
def releaseHeld (s : State) (dst orig : Nat) : State :=
  if holdsBack s dst orig then s
  else
    (s.pkg.reqs.filter (fun e => e.2.held && decide (e.2.dst = dst ∧ e.2.orig = orig))).foldl (fun t e =>
      let n := (choosePlane t dst orig).getD e.2.plane
      sendOn (t.setPkg { t.pkg with
        reqs := tset t.pkg.reqs e.1 { e.2 with held := false, plane := n, due := t.time + t.pkg.e2etime } }) n e.2.flit) s
/-- A request is complete: its TAG is freed, and is not used again for four timer lengths (R500). -/
def completeReq (s : State) (key : Nat) (q : Request) (data : BitVec 256) (bad : Option Nat) : State :=
  let old := s.pkg.freedTags.filter (fun x => decide (s.time < x.2.2 + 4 * s.pkg.e2etime))
  let s1 := s.setPkg { s.pkg with reqs := tdel s.pkg.reqs key, freedTags := (q.dst, flitTag q.flit, s.time) :: old }
  releaseHeld (answer s1 q data bad) q.dst q.orig

/-! ### Requests of other packages (R406, R407, R500) -/

/-- Send a reply and keep it in the tag window. -/
def replyWith (s : State) (port : Nat) (f : BitVec 512) (ty : Nat) (data : BitVec 256) (mask : BitVec 32) : State :=
  let r := mkFlit ty (flitOrd f) s.pkg.pkgnum (flitSrc f) (flitTag f) (flitKey f) (flitAddr f) data mask
  let old := s.pkg.served.filter (fun x => decide (s.time < x.time + 4 * s.pkg.e2etime))
  sendOn (s.setPkg { s.pkg with served := { src := flitSrc f, tag := flitTag f, time := s.time, reply := r } :: old }) port r
/-- The reply to a request that has met uncorrectable data: MASK names no byte, DATA holds the location code. -/
def replyBad (s : State) (port : Nat) (f : BitVec 512) (ty code : Nat) : State := replyWith s port f ty (BitVec.ofNat 256 code) 0#32

/-- The operands of an atomic flit, for the operation named with it. -/
def flitOperands (f : BitVec 512) (op : AmoOp) : Bool × Nat × Nat :=
  let d := (flitData f).toNat
  let w64 := (flitMask f).getLsbD 8
  let n := amoBytes op w64
  match op with
  | .xF32 => (false, (quantVal (decodeF fp32 (d % 2 ^ 32)) % (2 ^ 320 : Nat)).toNat, 0)
  | .xF64 => (true, (quantVal (decodeF fp64 (d % 2 ^ 64)) % (2 ^ 320 : Nat)).toNat, 0)
  | _ => (w64, d % 2 ^ (8 * n), d / 2 ^ (8 * n) % 2 ^ (8 * n))

/-- A read, a write or a read-modify-write at its home in this package (R118). Ports 0 to 15 stand behind die 0 and die 2, the
others behind die 1 and die 3 (R19). -/
def serveMemory (s : State) (port : Nat) (f : BitVec 512) (op : AmoOp) : State :=
  let a := flitAddr f
  let loc := locPlace0 a
  let sec := loc / 32 * 32
  if 0xC000000000 ≤ a then replyBad s port f (flitType f + 1) 9
  else if crossed s (homeDie loc / 2 * 2 + port / 16 % 2) (homeDie loc) (701 + port / 16 % 2) loc then replyBad s port f (flitType f + 1) 8
  else if flitType f = 1 then
    (match badAt s loc with
      | some code => replyBad s port f 2 code
      | none => replyWith s port f 2 (BitVec.ofNat 256 (rd s sec 32)) (flitMask f))
  else if flitType f = 3 then
    (match badAt s loc with
      | some code =>
        if flitMask f = BitVec.allOnes 32 ∧ !onBadStack s loc then
          replyWith ((writeDirty s sec (flitData f) (flitMask f) 32).setPoison (tdel s.poison (loc / 32))) port f 4 0#256 (flitMask f)
        else replyBad s port f 4 code
      | none => replyWith (writeDirty s sec (flitData f) (flitMask f) 32) port f 4 0#256 (flitMask f))
  else
    let x := flitOperands f op
    (match actAt s {} 0#64 loc (.amo op x.1 x.2.1 x.2.2) with
      | (t, .val v) => replyWith t port f 6 (BitVec.ofNat 256 v) (flitMask f)
      | (t, .bad code) => replyBad t port f 6 code
      | (t, _) => t)

/-- The record on the consumer's side of a refused delivery from another package (R474). The flit of R407 names no requester: the record
holds the key that the delivery carried, and no place or source address.
(DESIGN CHOICE: notes/assumptions/80.md) -/
def rejectAtC (s : State) (d : Delivery) (v : Verdict) : State :=
  if v.reason = 0 then s
  else
    let c := rejectRec d.req v.reason d.tb v.off 0#64 v.n
    if v.reason = 1 ∨ v.reason = 4 ∨ (s.cell d.cell).block.isNone then postLog s c else postSq s d.cell c
/-- The subscribers of a transfer of another package: those that its first delivery found (R128, R353). -/
def mcastSubs (s : State) (src num tag : Nat) : State × List (Nat × Nat × MatchEnt) :=
  let old := s.pkg.mcast.filter (fun m => decide (s.time < m.time + 4 * s.pkg.e2etime))
  let subs := match old.find? (fun m => decide (m.src = src ∧ m.num = num)) with
    | some m => m.subs
    | none => subscribers s tag
  (s.setPkg { s.pkg with
    mcast := { src := src, num := num, time := s.time, subs := subs } :: old.filter (fun m => decide (¬(m.src = src ∧ m.num = num))) }, subs)
/-- A delivery from another package at its consumers (R351, R353). Bytes that need a failed hop on the way from the port are counted and
not written (R472, R474). -/
def serveDelivery (s : State) (port : Nat) (f : BitVec 512) : State :=
  let a := flitAddr f
  let n := maskCount (flitMask f)
  let bad := inMask a 36
  let d : Delivery := {
    req := { key := flitKey f }, cell := 160 * field a 53 2 + field a 45 8, key := flitKey f, win := inMask a 31, tb := field a 32 4
    offset := field a 0 24, bytes := numBytes n (flitData f).toNat, bad := bad, src := 0#64, due := s.time }
  let cut := fun c => portCrossed s (dieOf c, c) port
  let ack := fun (t : State) (vs : List Verdict) (lost : Bool) =>
    if lost then replyBad t port f 4 8 else replyWith t port f 4 (BitVec.ofNat 256 (answerData vs)) (BitVec.allOnes 32)
  if inMask a 37 then
    let m := mcastSubs s (flitSrc f) (field a 57 7 + field a 38 7 * 2 ^ 7) (field a 45 12)
    if m.2.isEmpty then ack m.1 [{ reason := 5, off := d.offset, n := n }] false
    else
      let r := m.2.foldl (fun (x : State × List Verdict) q =>
        let e := { d with
          cell := q.1, only := some q.2.1, win := q.2.2.win, tb := q.2.2.tb, offset := q.2.2.offset + d.offset, bad := bad || cut q.1 }
        let (t, v) := deliverAt x.1 e
        (rejectAtC t e v, x.2 ++ [v])) (m.1, [])
      ack r.1 r.2 (m.2.any (fun q => cut q.1))
  else if imageHeld s d.cell then s
  else if bad ∧ n = 0 then ack (breakAt s d.cell d.tb d.key) [] false
  else
    let (t, v) := deliverAt s { d with bad := bad || cut d.cell }
    ack (rejectAtC t d v) [v] (cut d.cell)

/-- A notice from another package: DATA holds the bytes counted on the barrier it names (R350), with ERR where it has met a failed hop
(R472, R474). -/
def serveNotice (s : State) (port : Nat) (f : BitVec 512) : State :=
  let a := flitAddr f
  let c := 160 * field a 53 2 + field a 45 8
  let t :=
    if (s.cell c).block.isSome ∧ keyIn s c = flitKey f then
      tbPend s c (field a 32 4) (-(((flitData f).toNat % 2 ^ 32 : Nat) : Int)) (inMask a 36 || portCrossed s (dieOf c, c) port) none
    else s
  replyWith t port f 4 0#256 (BitVec.allOnes 32)
/-- A message from another package (R373): DATA of the acknowledgement is 1 where it is refused (R485). -/
def serveMessage (s : State) (port : Nat) (f : BitVec 512) : State :=
  let m : Msg := { dst := word (flitAddr f), payload := flitData f, key := flitKey f, src := 2 ^ 20 + flitSrc f, scope := .fab }
  if ovfHeld s (msgCell m.dst) then s
  else if portCrossed s (dieOf (msgCell m.dst), msgCell m.dst) port then replyBad s port f 4 8
  else
    let (t, ok) := arrive s m
    replyWith t port f 4 (if ok then 0#256 else 1#256) (BitVec.allOnes 32)

/-- A flit arrives at a port (R407, R498, R500). One that fails its CRC is discarded, and will be replayed. -/
def execFlitReceive (port : Nat) (flit : BitVec 512) (op : AmoOp) (s : State) : Host.Outcome State Fault Refusal :=
  let ty := flitType flit
  let p := portOf s port
  if !s.pkg.fabEn ∨ !portUp p ∨ s.pkg.dead then .next s
  else if !flitGood flit then .next (putPort s port { p with replays := p.replays + 1 })
  else if flitDst flit ≠ s.pkg.pkgnum then .next s
  else if ty = 2 ∨ ty = 4 ∨ ty = 6 then
    (match tfind s.pkg.reqs (reqKey (flitSrc flit) (flitTag flit)) with
      | none => .next s
      | some q =>
        let bad := if flitMask flit = 0#32 ∧ flitMask q.flit ≠ 0#32 then some ((flitData flit).toNat % 256) else none
        .next (completeReq s (reqKey q.dst (flitTag q.flit)) q (flitData flit) bad))
  else
    match s.pkg.served.find? (fun x => decide (x.src = flitSrc flit ∧ x.tag = flitTag flit ∧ s.time < x.time + 4 * s.pkg.e2etime)) with
    | some x => .next (sendOn s port x.reply)
    | none =>
      if ty = 1 ∨ ty = 3 ∨ ty = 5 then .next (serveMemory s port flit op)
      else if ty = 7 then .next (serveDelivery s port flit)
      else if ty = 8 then .next (serveMessage s port flit)
      else if ty = 9 then .next (replyWith s port flit 4 0#256 (BitVec.allOnes 32))
      else if ty = 10 then .next (serveNotice s port flit)
      else .next s

/-! ### End-to-end retry (R499) -/

/-- The plane of a resend: the request's own while its port is up, otherwise the lowest above it that is usable.
(DEDUCED: notes/assumptions/69.md) -/
def resendPlane (s : State) (q : Request) : Option Nat := ((List.range 32).map (fun i => (q.orig + i) % 32)).find? (usable s q.dst)
/-- A port trains that could carry a destination's requests again. -/
def trainsFor (s : State) (dst : Nat) : Bool :=
  (List.range 32).any (fun n => decide ((portOf s n).state = 4) && !s.pkg.unusable.contains (dst, n) && !s.pkg.lostPlanes.contains n)
/-- Every request to a destination fails: no plane reaches it (R499). -/
def failAll (s : State) (dst : Nat) : State :=
  let l := s.pkg.reqs.filter (fun e => decide (e.2.dst = dst))
  let t := postLog s (linkRec 6 dst l.length)
  l.foldl (fun u e => match tfind u.pkg.reqs e.1 with | some q => completeReq u e.1 q 0#256 (some 9) | none => u) t

/-- The timer of the request with this key expires. -/
def execE2eRetry (tag : Nat) (s : State) : Host.Outcome State Fault Refusal :=
  match tfind s.pkg.reqs tag with
  | none => .next s
  | some q =>
    if s.time < q.due ∨ q.held then .next s
    else
      let s1 := if 3 ≤ q.resends ∧ !s.pkg.unusable.contains (q.dst, q.plane) then
          postLog (s.setPkg { s.pkg with unusable := (q.dst, q.plane) :: s.pkg.unusable }) (linkRec 5 q.dst q.plane)
        else s
      match resendPlane s1 q with
      | some n =>
        let r := { q with plane := n, resends := if n = q.plane then q.resends + 1 else 1, due := s1.time + s1.pkg.e2etime }
        .next (sendOn (s1.setPkg { s1.pkg with reqs := tset s1.pkg.reqs tag r }) n q.flit)
      | none =>
        if trainsFor s1 q.dst then
          .next (s1.setPkg { s1.pkg with reqs := tset s1.pkg.reqs tag { q with due := s1.time + s1.pkg.e2etime } })
        else .next (failAll s1 q.dst)

/-! ### Lanes, training and planes (R497, R501) -/

def lanesLost (p : Port) : Nat := ((List.range 5).filter (fun i => p.elanes.getLsbD i)).length
/-- A port erases a lane. -/
def execLaneErase (port lane : Nat) (s : State) : Host.Outcome State Fault Refusal :=
  let p := portOf s port
  if 32 ≤ port ∨ 5 ≤ lane ∨ p.elanes.getLsbD lane then .next s
  else
    let t := putPort s port { p with elanes := p.elanes ||| BitVec.ofNat 5 (2 ^ lane) }
    if p.state = 1 then .next (portTo t port 2)
    else if p.state = 2 then .next (portTo t port 4)
    else if p.state = 3 then .next (portTo t port 0)
    else .next t
/-- A port leaves TRAINING in the best state its lanes allow, and the flits that wait for it go out in order. -/
def execPortTrainingDone (port : Nat) (s : State) : Host.Outcome State Fault Refusal :=
  let p := portOf s port
  if p.state ≠ 4 then .next s
  else
    let best := match lanesLost p with
      | 0 => 1
      | 1 => 2
      | 2 => 3
      | _ => 0
    let t := portTo (putPort s port { p with queue := [] }) port best
    .next (if best = 0 then t else p.queue.foldl (fun u f => sendOn u port f) t)
/-- A switch chip fails: the port to that plane goes DOWN, and the plane carries no new request until a reset. -/
def execSwitchPlaneLoss (plane : Nat) (s : State) : Host.Outcome State Fault Refusal :=
  if 32 ≤ plane ∨ s.pkg.lostPlanes.contains plane then .next s
  else .next (portTo (s.setPkg { s.pkg with lostPlanes := plane :: s.pkg.lostPlanes }) plane 0)

/-! ### The host link (R502) -/

/-- DL_Down: what is bound for the host is held from now on, this record included. -/
def execHostLinkDown (s : State) : Host.Outcome State Fault Refusal :=
  if !s.pkg.hostUp then .next s else .next (postLog (s.setPkg { s.pkg with hostUp := false }) (linkRec 8 0 0))
/-- Lanes whose accesses to host memory are held.
(DEDUCED: notes/assumptions/67.md) -/
def heldAccesses (s : State) : Nat := s.strands.countP (fun e => decide (e.2.wait = .hostLink))
/-- The link has retrained: held records are written in order, and held accesses proceed. -/
def execHostLinkUp (s : State) : Host.Outcome State Fault Refusal :=
  if s.pkg.hostUp then .next s
  else
    let t := s.setPkg { s.pkg with hostUp := true, heldRecs := [] }
    let u := s.pkg.heldRecs.foldl putLog t
    .next (postLog u (linkRec 9 0 (s.pkg.heldRecs.length + heldAccesses s)))

end Sys2Proof.Machine
end

