-- ==== Sys2Proof/WellFormed.lean ====
section
/-!
DEFINITION. Which terms of the instruction type are instructions of the part: an encoded form whose operands its word can
hold (spec/18_instruction_faults.md R454 to R456), and a step of the device that names a unit the package has
(spec/01_device_overview.md R21: 640 cells of 64 positions on four dies).
-/
namespace Sys2Proof

/-- SGN is clear for an 8-byte load (R321, R325). -/
def sgnOk (sgn : Bool) (z : Size) : Bool := !(sgn && decide (z = .b8))

def wellFormed : Instr → Bool
  | .add _ _ _ _ _ => true
  | .sub _ _ _ _ _ => true
  | .mul _ _ _ _ _ => true
  | .mulh _ _ _ _ _ => true
  | .mad _ _ _ _ _ => true
  | .div _ _ _ _ _ => true
  | .rem _ _ _ _ _ => true
  | .and _ _ _ _ _ => true
  | .or _ _ _ _ _ => true
  | .xor _ _ _ _ _ => true
  | .andn _ _ _ _ _ => true
  | .shl _ _ _ _ _ => true
  | .shr _ _ _ _ _ => true
  | .sar _ _ _ _ _ => true
  | .rot _ _ _ _ _ => true
  | .min _ _ _ _ _ => true
  | .max _ _ _ _ _ => true
  | .addi _ _ _ _ _ => true
  | .andi _ _ _ _ _ => true
  | .ori _ _ _ _ _ => true
  | .xori _ _ _ _ _ => true
  | .li _ _ _ => true
  | .lih _ _ _ => true
  | .abs _ _ _ _ => true
  | .neg _ _ _ _ => true
  | .clz _ _ _ _ => true
  | .ctz _ _ _ _ => true
  | .popc _ _ _ _ => true
  | .brev _ _ _ _ => true
  | .bfx _ _ _ _ _ => true
  | .bfi _ _ _ _ _ => true
  | .sel _ _ _ _ _ => true
  | .lea _ _ _ _ _ => true
  | .cmp _ _ _ _ _ _ => true
  | .pand _ _ _ _ => true
  | .por _ _ _ _ => true
  | .pxor _ _ _ _ => true
  | .pnot _ _ _ => true
  | .voteSome _ _ _ => true
  | .voteEvery _ _ _ => true
  | .voteAgree _ _ _ => true
  | .ballot _ _ _ => true
  | .shflPick _ _ _ _ => true
  | .shflLo _ _ _ _ => true
  | .shflHi _ _ _ _ => true
  | .shflMir _ _ _ _ => true
  | .bcast _ _ _ _ => true
  | .fadd _ _ _ _ _ _ => true
  | .fsub _ _ _ _ _ _ => true
  | .fmul _ _ _ _ _ _ => true
  | .fma _ _ _ _ _ _ => true
  | .fmin _ _ _ _ _ => true
  | .fmax _ _ _ _ _ => true
  | .fdiv _ _ _ _ _ _ => true
  | .fsqrt _ _ _ _ _ => true
  | .fabs _ _ _ _ => true
  | .fneg _ _ _ _ => true
  | .fcmp _ _ _ _ _ _ => true
  | .vadd _ _ _ _ _ _ => true
  | .vsub _ _ _ _ _ _ => true
  | .vmul _ _ _ _ _ _ => true
  | .vfma _ _ _ _ _ _ => true
  | .vmin _ _ _ _ _ => true
  | .vmax _ _ _ _ _ => true
  | .vabs _ _ _ _ => true
  | .vneg _ _ _ _ => true
  | .vrcp _ _ _ _ => true
  | .vrsq _ _ _ _ => true
  | .vsqrt _ _ _ _ => true
  | .vexp2 _ _ _ _ => true
  | .vlog2 _ _ _ _ => true
  | .vsin _ _ _ _ => true
  | .vcos _ _ _ _ => true
  | .vcmp _ _ _ _ _ _ => true
  | .vsel _ _ _ _ => true
  | .vsum _ _ _ _ => true
  | .vdot _ _ _ _ _ => true
  | .vperm _ _ _ _ _ => true
  | .cvtScalar _ _ _ _ _ _ => true
  | .cvtWide _ _ _ _ _ _ => true
  | .pack _ _ _ _ _ _ _ => true
  | .unpk _ _ _ _ _ _ => true
  | .scl _ _ _ _ _ _ _ => true
  | .xadd _ _ _ => true
  | .xget _ _ _ _ _ => true
  | .xclr _ _ => true
  | .xmrg _ _ _ => true
  | .mma _ _ _ _ _ _ => true
  | .qrd _ _ _ _ => true
  | .qwr _ _ _ => true
  | .krd _ _ _ => true
  | .kwr _ _ _ => true
  | .br _ _ => true
  | .call _ _ => true
  | .brx _ _ => true
  | .callx _ _ => true
  | .ret _ _ => true
  | .dbnz _ _ _ => true
  | .jset _ _ => true
  | .jadd _ _ => true
  | .jquit _ _ => true
  | .jwait _ _ => true
  | .jtest _ _ _ => true
  | .jread _ _ _ => true
  | .jwrite _ _ _ => true
  | .fuse _ _ => true
  | .split _ => true
  | .detach _ => true
  | .stop _ => true
  | .spawn _ _ _ => true
  | .spawnf _ _ => true
  | .yield _ => true
  | .grid _ _ => true
  | .ld _ _ _ sgn _ z => sgnOk sgn z
  | .ldAcq _ _ _ _ sgn z => sgnOk sgn z
  | .ldDev _ _ _ _ sgn z => sgnOk sgn z
  | .st _ _ _ _ _ => true
  | .stRel _ _ _ _ _ => true
  | .stDev _ _ _ _ _ => true
  | .ldw _ _ _ _ => true
  | .stw _ _ _ _ => true
  | .ldwAcq _ _ _ _ => true
  | .stwRel _ _ _ _ => true
  | .lds _ _ _ sgn _ z => sgnOk sgn z
  | .sts _ _ _ _ _ => true
  | .ldsAcq _ _ _ _ sgn z => sgnOk sgn z
  | .stsRel _ _ _ _ _ => true
  | .ldsw _ _ _ _ => true
  | .stsw _ _ _ _ => true
  | .ldswAcq _ _ _ _ => true
  | .stswRel _ _ _ _ => true
  | .gat _ _ _ _ _ _ => true
  | .scat _ _ _ _ _ _ => true
  | .pf _ _ _ => true
  | .ldk _ _ _ _ => true
  | .ldkAcq _ _ _ _ => true
  | .xld _ _ _ _ => true
  | .xldAcq _ _ _ _ => true
  | .xst _ _ _ _ => true
  | .xstRel _ _ _ _ => true
  | .amoAdd _ _ _ _ _ => true
  | .amoAnd _ _ _ _ _ => true
  | .amoOr _ _ _ _ _ => true
  | .amoXor _ _ _ _ _ => true
  | .amoMinI _ _ _ _ _ => true
  | .amoMinN _ _ _ _ _ => true
  | .amoMaxI _ _ _ _ _ => true
  | .amoMaxN _ _ _ _ _ => true
  | .amoSwap _ _ _ _ _ => true
  | .amoPmin _ _ _ _ => true
  | .cas _ d _ _ _ => decide (d.num.val % 2 = 0)
  | .cas2 _ d _ _ => decide (d.num.val % 4 = 0)
  | .amofF32 _ _ _ _ => true
  | .amofF64 _ _ _ _ => true
  | .amoxF32 _ _ _ _ => true
  | .amoxF64 _ _ _ _ => true
  | .fenceAcq _ _ => true
  | .fenceRel _ _ => true
  | .fenceAr _ _ => true
  | .fenceSc _ _ => true
  | .wait _ d _ _ _ => decide (d.num.val % 2 = 0)
  | .cpy _ _ _ _ _ => true
  | .tld _ _ d _ _ => decide (d.val % 2 = 0)
  | .tldm _ _ d _ _ => decide (d.val % 2 = 0)
  | .chase _ _ d _ _ => decide (d.val % 2 = 0)
  | .multicastSub _ _ => true
  | .multicastUnsub _ _ => true
  | .tbinit _ _ _ => true
  | .tbexp _ _ _ => true
  | .tbarr _ _ => true
  | .tbwait _ _ => true
  | .tbtest _ _ _ => true
  | .bbarr _ => true
  | .bbwait _ => true
  | .send _ _ _ => true
  | .recv _ _ => true
  | .recvt _ _ _ _ => true
  | .mmz _ _ => true
  | .mmst _ _ _ _ => true
  | .mmld _ _ _ _ => true
  | .mmpoll _ _ _ => true
  | .mmjob _ _ _ _ => true
  | .tokq _ _ => true
  | .trap _ _ => true
  | .sysret _ => true
  | .halt _ => true
  | .kill _ _ => true
  | .rdsr _ _ srn => (srnRead srn.toNat).isSome
  | .wrsr _ _ srn => (srnWrite srn.toNat).isSome
  | .tlbinvAll _ => true
  | .tlbinvAsid _ _ => true
  | .tlbinvPage _ _ _ => true
  | .cwb _ _ _ => true
  | .cinv _ _ _ => true
  | .probe _ _ _ => true
  | .syncOpComplete pos => decide (pos < 40960)
  | .scoreboardResultLands _ => true
  | .storePerformed _ => true
  | .pageWalkComplete _ => true
  | .bankingSwitchComplete cell => decide (cell < 640)
  | .spawnTimeoutRelease cell _ => decide (cell < 640)
  | .gatheredGangPlace cell => decide (cell < 640)
  | .pathQuantumExpiry leader => decide (leader < 40960)
  | .orphanFault leader => decide (leader < 40960)
  | .sqnote pos => decide (pos < 40960)
  | .monitorFire pos => decide (pos < 40960)
  | .waitTimeout pos => decide (pos < 40960)
  | .recvtTimeout pos => decide (pos < 40960)
  | .deliveryArrival _ => true
  | .transferSourceRead _ => true
  | .transferNotice _ => true
  | .chaseStep _ => true
  | .chaseStepLimit _ => true
  | .multicastJoinArrival _ => true
  | .blockBarrierSweep cell => decide (cell < 640)
  | .messageArrival _ => true
  | .messageResend _ => true
  | .matrixOpComplete cell => decide (cell < 640)
  | .matrixOpStart cell => decide (cell < 640)
  | .tokenRequestPaid cell => decide (cell < 640)
  | .ringStationStep die station => decide (die < 4 ∧ station < 160)
  | .ballastRevolution die => decide (die < 4)
  | .dispatchPlace => true
  | .quantumExpiry _ => true
  | .strandSave leader => decide (leader < 40960)
  | .evictionComplete _ => true
  | .gridComplete _ => true
  | .killComplete _ => true
  | .stallDetect pos => decide (pos < 40960)
  | .blockstallDetect _ => true
  | .starveDetect cell => decide (cell < 640)
  | .launch win off size _ => decide (win < 4096 ∧ off < 4096 ∧ 1 ≤ size ∧ size ≤ 64 ∧ off + size ≤ 4096)
  | .hostMemoryAccess _ addr len _ _ => decide (1 ≤ len ∧ len ≤ 64 ∧ addr + len ≤ 824633720832)
  | .packageReset => true
  | .rstctlGo _ => true
  | .bootStageComplete code => decide (code.toNat ≤ 5)
  | .attctlGo _ => true
  | .attestationReportDone => true
  | .migcmdGo _ => true
  | .migrationComplete => true
  | .railselWrite cell _ => decide (cell < 640)
  | .railSwitchComplete cell => decide (cell < 640)
  | .slotmaskWrite cell _ => decide (cell < 640)
  | .cfenceWrite cell _ => decide (cell < 640)
  | .ringcfgWrite die _ => decide (die < 4)
  | .fabcfgWrite _ => true
  | .registerWrite off _ => decide (off < 2305843009213693952)
  | .flitReceive port _ _ => decide (port < 32)
  | .e2eRetry _ => true
  | .laneErase port lane => decide (port < 32 ∧ lane < 5)
  | .portTrainingDone port => decide (port < 32)
  | .hopRetry _ die hop dir _ => decide (die < 4 ∧ hop < 160 ∧ dir < 4)
  | .hostLinkDown => true
  | .hostLinkUp => true
  | .thermalWarn _ temp => decide (temp < 256)
  | .thermalTrip _ => true
  | .railFault die rail => decide (die < 4 ∧ rail < 2)
  | .railHoldEnd die rail => decide (die < 4 ∧ rail < 2)
  | .hbmSupplyFault stack => decide (stack < 12)
  | .securityAlarm level _ => decide (1 ≤ level ∧ level ≤ 3)
  | .haltSnapshotComplete _ => true
  | .hostCxlCacheRequest addr _ _ => decide (addr % 32 = 0 ∧ addr + 32 ≤ 562949953421312)
  | .switchPlaneLoss plane => decide (plane < 32)
  | .railReturnsToTolerance die rail => decide (die < 4 ∧ rail < 2)

end Sys2Proof
end

