-- ==== Sys2Proof/Machine/Cycle.lean ====
section
/-!
DEFINITION. What a die cycle holds besides the instructions and the events themselves: which positions issue in it
(spec/02_execution_model.md R44 to R48, R53, R65, spec/03_divergence_and_rejoin.md R78), fetching and decoding a bundle
(spec/08_isa_formats.md R197 to R201, spec/19_memory_and_delivery_faults.md R462, R468,
spec/17_traps_and_containment.md R430 to R436), and the end of the cycle with the events that fall due.
-/
namespace Sys2Proof.Machine

open Sys2Proof

/-! ### Issuers of a cycle -/

/-- Whether a cell issues at all: not while its rail switches or is held, nor after a thermal trip (R196, R507, R508). -/
def cellRuns (s : State) (c : Nat) : Bool := !s.pkg.dead && (s.cell c).railTo.isNone && !railHeld s c && (s.cell c).block.isSome
/-- Whether a cell cycle of a cell starts in this die cycle (R29, R44). -/
def cycleStarts (s : State) (c : Nat) : Bool := (s.cell c).high || decide ((s.time - (s.cell c).cycAt) % 2 = 0)
/-- Whether it ends with this die cycle. -/
def cycleEnds (s : State) (c : Nat) : Bool := (s.cell c).high || decide ((s.time - (s.cell c).cycAt) % 2 = 1)

/-- Whether the phase of the block lets some lanes of a gang issue: until the gang is saved or stopped, a handler, a lane with an
error mark, and a lane whose payment took QUOTA below zero still issue (R63, R193, R447, R468). -/
def mayIssue (s : State) (p : Nat) (ls : List Nat) : Bool :=
  let marked := ls.any (fun q => (s.str q).mark.isSome)
  match (blockIn s (cellOf p)).phase with
  | .running => true
  | .preempting => busyGang (s.gang (leaderOf s p)) || marked || ls.any (fun q => (s.str q).charged)
  | .halting => marked
  | _ => false

/-- The lanes that issue with a position, if it can issue now. -/
def issuerAt (s : State) (p : Nat) : Option (List Nat) :=
  let t := s.str p
  let g := s.gang (leaderOf s p)
  let ls := unit s p
  let ok :=
    match g.handler with
    | some h => decide (h = p ∧ t.st = .supervisor ∧ t.park = .none)
    | none =>
      decide (g.trapMask = 0#16) && g.orphans.isEmpty && ls.all (fun q => decide ((s.str q).st = .ready)) &&
        (match t.lmode with
          | .inPath n => g.turn && decide (g.cur = n ∧ ls.headD p = p)
          | .detached => true
          | _ => false)
  let held := (s.cell (cellOf p)).bankSw.isSome && ls.any (fun q => (s.str q).bankHold)
  if ok && !held && mayIssue s p ls then some ls else none

/-- The leaders of a cell in the slot that its cycle serves (R44). -/
def slotLeaders (s : State) (c : Nat) : List Nat :=
  let k := cyc s c % 4
  (tkeys (trange (64 * c + 16 * k) (64 * c + 16 * k + 16) s.strands)).filter (isLeader s)
/-- The issuers of a cell in this cycle, by slot and pipe; each is named by its lowest lane. -/
def cellIssuers (s : State) (c : Nat) : List Nat :=
  if cellRuns s c && cycleStarts s c then (slotLeaders s c).flatMap (fun lead => (gangLanes s lead).filter (fun p => (issuerAt s p).isSome))
  else []
/-- The cells that hold blocks. -/
def busyCells (s : State) : List Nat := tkeys (s.cells.filter (fun e => e.2.block.isSome))
/-- A slot cycle of a gang in which its turn-holder uses its quantum: none while the gang is SAVED or its lanes FROZEN, and each other
one, whether the turn-holder issues in it or not (R78). -/
def countTurn (s : State) (lead : Nat) : State :=
  let g := s.gang lead
  if g.turn && !collapsed g && decide ((s.str lead).st ≠ .saved) then putGang s lead { g with counting := true } else s
/-- The lanes of a `trap` that wait for their handlers, in the slot cycles of their gangs (R431); a lane that enters SUPERVISOR in one issues in the
next (R434). -/
def servePendings (s : State) : State :=
  (busyCells s).foldl (fun t c =>
    if cellRuns t c && cycleStarts t c then
      (slotLeaders t c).foldl (fun u lead =>
        if (u.gang lead).handler.isNone && decide ((u.gang lead).trapMask ≠ 0#16) then servePending u lead else u) t
    else t) s

/-! ### Fetch (R118, R136, R197, R462) -/

/-- What the fetch of a bundle meets. -/
inductive Fetched where
  | words (w0 w1 : Nat)
  | park (r : Park) (waits : List (Nat × WaitFor)) (walks : List (Nat × Nat)) (fars : List (Nat × Nat))
  | fault (i : TrapInfo)

/-- Fetch for the bundle in hand, on the pipe of its lowest lane (R48). -/
def fetch (s : State) : Fetched :=
  let p := curPos s
  let c := cellOf p
  let ba := s.cur.ba
  let n := if ba.toNat % 8 = 0 then 8 else 4
  match checkAcc s c (s.str p).walkFail .fetch s.cur.sup ba 4 4 with
  | .walk => .park .translate [] [(p, ba.toNat)] []
  | .fail i => .fault i
  | .ok t =>
    if isHost t && !s.pkg.hostUp then .park .data [(p, WaitFor.hostLink)] [] []
    else match peek s c p t n with
      | .val v => .words (v % 2 ^ 32) (v / 2 ^ 32)
      | .bad code _ => .fault { cause := 10, code := code, sval := ba, access := 1 }
      | .far keys => .park .data [(p, WaitFor.fills keys)] [] (keys.map (fun k => (p, k)))

/-! ### Issue -/

/-- The issuer of a bundle: its lanes, and where it stands. -/
def curOf (s : State) (ls : List Nat) : Cur :=
  let p := ls.headD 0
  let t := s.str p
  {
    lanes := ls, leader := leaderOf s p, ba := t.pc, nba := t.pc + 4#64
    path := (match t.lmode with | .inPath _ => true | _ => false), sup := decide (t.st = .supervisor) }

/-- The error marks of the lanes in hand are taken before anything else: every marked lane is named, the lowest traps and loses
its mark (R468). In single-lane mode this is a double fault (R436). -/
def takeMark (s : State) : Option State :=
  match s.cur.lanes.filter (fun p => (s.str p).mark.isSome) with
  | [] => none
  | p :: r =>
    let i := (s.str p).mark.map (fun m => ({ cause := m.cause, code := m.code, sval := m.addr, access := m.access } : TrapInfo))
    match i with
    | none => none
    | some i =>
      let fm := laneMask s.cur.leader (p :: r)
      let t := modStr s p (fun u => { u with mark := none })
      some (if s.cur.sup then doubleFault t p s.cur.ba i.cause i.sval (sinfoOf fm i) else takeTrap t s.cur.leader p fm i s.cur.ba)

/-- A fault of every lane in hand (R452). -/
def faultAll (s : State) (i : TrapInfo) : State := takeFault s (s.cur.lanes.map (fun p => (p, i)))

/-- A word of a pair as the issue logic sees it. -/
def issuedOf (i : Instr) (w : Nat) (a : Bool) : Option Issued :=
  match formOf i, guardOf i with
  | some f, some g => some { form := f, gd := g, slotA := a, word := some w }
  | _, _ => none

/-- The lane that SQNOTE names for a bundle: its lowest acting lane, or its lowest lane (R433).
(DEDUCED: notes/assumptions/44.md) -/
def noteLane (s : State) (gs : List Guard) : Nat := (s.cur.lanes.find? (fun p => gs.any (fun g => acting s g p))).getD (curPos s)
/-- A notice of the supervisor queue is due, and a bundle outside single-lane mode issues (R433). -/
def noteFor (s : State) : Bool := (s.cell (curCell s)).noteDue && !s.cur.sup
def raiseNote (s : State) (p : Nat) : State := s.setAgenda (Instr.sqnote p :: s.agenda)

/-- Fetch, decode and run the bundle in hand. `run1` is the meaning of a lone word. -/
def issueBundle (run1 : Instr → State → Host.Outcome State Fault Refusal) (s : State) : Host.Outcome State Fault Refusal :=
  match fetch s with
  | .park r ws wk fr => .next (parkPath s r ws wk fr)
  | .fault i => if noteFor s then .next (raiseNote s (curPos s)) else .next (faultAll s i)
  | .words w0 w1 =>
    match decodeBundle (s.cur.ba.getLsbD 2) w0 w1 with
    | .bad code w slot =>
      if noteFor s then .next (raiseNote s (curPos s))
      else .next (faultAll s { cause := 2, code := code, sval := word w, slotA := decide (slot = 1) })
    | .lone w i =>
      if noteFor s then .next (raiseNote s (noteLane s (guardOf i).toList))
      else run1 i (s.setCur { s.cur with word := BitVec.ofNat 32 w })
    | .pair wc wa c a =>
      if noteFor s then .next (raiseNote s (noteLane s ((guardOf c).toList ++ (guardOf a).toList)))
      else
        .next (runBundle (s.setCur { s.cur with word := BitVec.ofNat 32 wc, nba := s.cur.ba + 8#64 })
          ((issuedOf c wc false).toList ++ (issuedOf a wa true).toList))

/-- The lanes of a path whose PCs a handler has moved apart divide as by a control transfer (R74); the group that holds the turn
goes on. -/
def divideMoved (s : State) (p : Nat) (ls : List Nat) : State × List Nat :=
  if ls.all (fun q => decide ((s.str q).pc = (s.str p).pc)) then (s, ls)
  else
    let t := transfer (s.setCur (curOf s ls)) (fun q => (s.str q).pc)
    (t, pathLanes t (leaderOf s p) (t.gang (leaderOf s p)).cur)

/-- One issuer issues. -/
def issueUnit (run1 : Instr → State → Host.Outcome State Fault Refusal) (s : State) (p : Nat) (ls : List Nat) :
    Host.Outcome State Fault Refusal :=
  let (s1, l1) := divideMoved s p ls
  let s2 := s1.setCur (curOf s1 l1)
  match takeMark s2 with
  | some t => .next t
  | none => issueBundle run1 s2

/-- An issuer of a gang in which another issuer has trapped in this cycle: its bundle takes effect unless it faults too, and the lanes
of a `trap` join the pending mask (R431, R432). -/
def issueLate (run1 : Instr → State → Host.Outcome State Fault Refusal) (s : State) (p : Nat) : Host.Outcome State Fault Refusal :=
  let lead := leaderOf s p
  let g := s.gang lead
  let ls := (unit s p).filter (fun q => decide ((s.str q).st = .frozen ∧ (s.str q).heldSt = .ready))
  if ls.isEmpty then .next s
  else
    let s1 := putGang (modStrs s ls (fun t => { t with st := .ready })) lead { g with handler := none, trapMask := 0#16, late := true }
    match issueUnit run1 s1 p ls with
    | .next t =>
      if (t.gang lead).handler.isSome ∨ (t.str p).st = .free then .next s
      else
        let u := putGang t lead { t.gang lead with handler := g.handler, trapMask := (t.gang lead).trapMask ||| g.trapMask, late := false }
        .next (modStrs u ((gangLanes u lead).filter (fun q => decide (some q ≠ g.handler))) (freezeOne u.time))
    | x => x

/-- The next entry of the queue issues. -/
def issue (run1 : Instr → State → Host.Outcome State Fault Refusal) (s : State) (p : Nat) (rest : List Nat) :
    Host.Outcome State Fault Refusal :=
  let s0 := s.setQueue rest
  match issuerAt s0 p with
  | some ls => issueUnit run1 s0 p ls
  | none => if (s.str p).st = .frozen ∧ collapsed (s.gang (leaderOf s p)) then issueLate run1 s0 p else .next s0

/-- One step within a cycle: the next event due, if its operands are well formed, or the next issuer's bundle; nothing once both are
done. -/
def stepIn (run1 : Instr → State → Host.Outcome State Fault Refusal) (s : State) : Option (Host.Outcome State Fault Refusal) :=
  match s.agenda with
  | e :: r => some (if wellFormed e then run1 e (s.setAgenda r) else .next (s.setAgenda r))
  | [] => (match s.queue with | q :: r => some (issue run1 s q r) | [] => none)

/-! ### Links that are popped in the cycle (R209) -/

/-- The rest of a cycle, as far as some number of steps take it. -/
def runCycle (run1 : Instr → State → Host.Outcome State Fault Refusal) : Nat → State → State
  | 0, s => s
  | n + 1, s => (match stepIn run1 s with | some (.next t) => runCycle run1 n t | _ => s)
/-- The full links whose two ends both issue in the cycle: those that a push may find popped in it. -/
def contested (s : State) (q : List Nat) : List Nat :=
  let ls := q.flatMap (unit s)
  (ls.flatMap (fun p => [QDir.qn, QDir.qe, QDir.qs, QDir.qw].filterMap (fun d =>
    match qNext (pipeOf p) d with
    | some _ => some (outLink p d)
    | none => none))).filter (fun k => (tfind s.alley k).isSome && ls.contains (k / 4))
/-- The links that the cycle pops, of those it is thought to pop: while the cycle, run so, leaves some of them full, those are taken
away and it is run again.
(DEDUCED: notes/assumptions/10.md) -/
def poppedIn (run1 : Instr → State → Host.Outcome State Fault Refusal) (s : State) : Nat → List Nat → List Nat
  | 0, _ => []
  | n + 1, l =>
    if l.isEmpty then []
    else
      let left := (runCycle run1 (8 * s.queue.length + 64) (s.setForeseen l)).foreseen
      if left.isEmpty then l else poppedIn run1 s n (l.filter (fun k => !left.contains k))

/-! ### The end of a cycle -/

/-- Presence bits at the end of a cell cycle: those that deliveries set, then those that transfers issued in the cycle clear (R112,
R114). -/
def endPresence (s : State) : State :=
  let now := fun k => cycleEnds s (presCell k) || (s.cell (presCell k)).railTo.isSome
  let a := (s.sets.filter now).foldl (fun t k => tdel t k) s.absent
  ((s.setAbsent ((s.clears.filter now).foldl (fun t k => tset t k ()) a)).setSets (s.sets.filter (fun k => !now k))).setClears
    (s.clears.filter (fun k => !now k))

/-- The quantum, the sets and the turn of a gang at the end of its slot cycle, the split of a gang, and its freeing (R52, R63, R78,
R79, R86). -/
def endGang (s : State) (lead : Nat) : State :=
  let g := s.gang lead
  let s1 := settleSets (if g.counting then putGang s lead { g with counting := false, qleft := g.qleft - 1 } else s) lead
  if (s1.gang lead).splitting && !collapsed (s1.gang lead) then splitGang s1 lead else freeCheck s1 lead
/-- The end of the cycle for one cell: its gangs, its gathering unit, the size of its L1, its barriers and the arrivals at the block
barrier (R26, R57, R364, R369). -/
def endCell (s : State) (c : Nat) : State :=
  let s1 := if cycleStarts s c then (slotLeaders s c).foldl endGang s else s
  let s2 := if (s1.cell c).arrivals.isEmpty then s1 else putCell s1 c (gathered s1 c)
  let s3 := l1Trim s2 c ((s2.cell c).l1.length - l1Size (s2.cell c))
  if cycleEnds s3 c then
    let s4 := tbTests s3 c
    putCell s4 c { s4.cell c with bbBefore := (s4.cell c).bbArrived }
  else s3
/-- Blocks whose strands have all ended leave their cells. -/
def endBlocks (s : State) : State := ((tkeys s.blocks).filter (blockDone s)).foldl finishBlock s

/-- Parked paths whose waits are over go on; those of R386 by their event. -/
def wakeSweep (s : State) : State :=
  (parkedHeads s).foldl (fun t p =>
    if !readyToGo t p then t
    else if (unit t p).any (fun q => isSync (t.str q).wait) then t.setAgenda (t.agenda ++ [Instr.syncOpComplete p])
    else wakeUnit t p) s

/-- Monitors held for want of an entry, in order of arrival, and the reads of words of other packages (R339, R340). -/
def openMonitors (s : State) : List (Nat × Monitor) :=
  s.strands.filterMap fun e => match e.2.mon with
    | some m => if m.done.isNone ∧ !m.asked ∧ (!m.armed ∨ 2 ^ 60 ≤ m.loc) then some (e.1, m) else none
    | none => none
def insMon (x : Nat × Monitor) : List (Nat × Monitor) → List (Nat × Monitor)
  | [] => [x]
  | y :: r => if x.2.stamp < y.2.stamp then x :: y :: r else y :: insMon x r
def armHeld (s : State) : State := ((openMonitors s).foldr insMon []).foldl (fun t e => armMonitor t e.1 e.2) s

/-! ### Events that fall due -/

/-- Results that land and acts that need not wait any more, in increasing slot index (R207). -/
def dueLandings (s : State) : List Instr :=
  (List.range 4).flatMap fun k =>
    (s.pend.filter (fun e => decide (slotOf e.2.pos = k) && landReady s e.1 e.2)).map (fun e => Instr.scoreboardResultLands e.1)
def dueStores (s : State) : List Instr :=
  (s.stores.filter (fun e => decide (e.2.due ≤ s.time) && (s.pkg.hostUp || decide (homeDie (32 * e.2.sector) ≠ 4)))).map
    (fun e => Instr.storePerformed e.1)
def dueWork (s : State) : List Instr :=
  dueLandings s ++ dueStores s
    ++ (s.walks.filter (fun e => if e.2.queued then walkerFree s e.2.cell else decide (e.2.due ≤ s.time))).map (fun e => Instr.pageWalkComplete e.1)
    ++ (s.delivs.filter (fun e => decide (e.2.due ≤ s.time) && !e.2.away)).map (fun e => Instr.deliveryArrival e.1)
    ++ (s.xfers.filter (fun e => decide (e.2.due ≤ s.time) && (xferDone e.2 || (!e.2.away && decide (e.2.read < e.2.rows * e.2.rlen))))).map
      (fun e => if xferDone e.2 then Instr.transferNotice e.1 else Instr.transferSourceRead e.1)
    ++ (s.chases.filter (fun e => decide (e.2.due ≤ s.time) && (if e.2.ended then decide (e.2.inFlight = 0) else e.2.running && !e.2.away))).map
      (fun e => if !e.2.ended ∧ 1048576 ≤ e.2.words then Instr.chaseStepLimit e.1 else Instr.chaseStep e.1)
    ++ (s.joins.filter (fun e => decide (e.2.due ≤ s.time))).map (fun e => Instr.multicastJoinArrival e.1)
    ++ (s.flying.filter (fun e => decide (e.2.due ≤ s.time) && (e.2.refused || decide (msgPkg e.2.msg.dst = s.pkg.pkgnum)))).map
      (fun e => if e.2.refused then Instr.messageResend e.1 else Instr.messageArrival e.1)

/-- Timeouts of `wait` and `recvt` (R339, R375). -/
def pastDeadline (s : State) (p : Nat) (d : Option Nat) : Bool := match d with | some n => decide (n ≤ cyc s (cellOf p)) | none => false
def dueTimeouts (s : State) : List Instr :=
  s.strands.flatMap fun e =>
    (match e.2.mon with
      | some m => if m.done.isNone ∧ pastDeadline s e.1 m.deadline then [Instr.waitTimeout e.1] else []
      | none => []) ++
    (if e.2.wait = .message ∧ pastDeadline s e.1 e.2.deadline then [Instr.recvtTimeout e.1] else [])
/-- Stalls of positions (R477). -/
def dueStalls (s : State) : List Instr :=
  (s.strands.filter (fun e => isParked e.2 && !e.2.stallMade && decide (2 ^ 24 ≤ parkedTime s e.2))).map (fun e => Instr.stallDetect e.1)

/-- Events of the gangs of a cell: the end of a quantum, and a due ORPHAN in the gang's slot cycle (R79, R481). -/
def dueGangs (s : State) (c : Nat) : List Instr :=
  (heldIn s c).flatMap fun p =>
    if !isLeader s p then []
    else
      let g := s.gang p
      (if g.turn ∧ g.qleft = 0 then [Instr.pathQuantumExpiry p] else []) ++
        (if !g.orphans.isEmpty ∧ !collapsed g ∧ cellRuns s c ∧ cycleStarts s c ∧ slotOf p = cyc s c % 4 ∧ mayIssue s p [] then
          [Instr.orphanFault p] else [])
/-- The partial gangs of a cell that time out, in the order of their timeouts (R57). -/
def insTimeout (p : Partial) : List Partial → List Partial
  | [] => [p]
  | q :: r => if p.first + p.timeout ≤ q.first + q.timeout then p :: q :: r else q :: insTimeout p r
def timedOut (now : Nat) (l : List Partial) : List Partial :=
  (l.filter (fun p => p.released.isNone && decide (p.timeout ≠ 0 ∧ p.first + p.timeout ≤ now))).foldr insTimeout []
/-- Events of a cell. -/
def dueCell (s : State) (c : Nat) : List Instr :=
  let x := s.cell c
  (if x.jobs.isEmpty then []
      else if x.engBusy then (if x.engDue ≤ cyc s c then [Instr.matrixOpComplete c] else []) else if cycleStarts s c then [Instr.matrixOpStart c] else [])
    ++ (if x.block.isSome then (timedOut (cyc s c) x.partials).map (fun p => Instr.spawnTimeoutRelease c p.desc) else [])
    ++ (match x.block with
      | some b =>
        (match x.bbRelease with
          | some t => if t ≤ s.time then [Instr.blockBarrierSweep c] else []
          | none => if !x.bbForwarded ∧ bbOpen s b ∧ mayForward s b c then [Instr.blockBarrierSweep c] else [])
      | none => [])
    ++ (match x.railTo with | some _ => if x.railDue ≤ s.time then [Instr.railSwitchComplete c] else [] | none => [])
    ++ (match x.reqs with
      | r :: _ =>
        if !r.judged ∨ (!r.unpayable ∧ !x.starveMade ∧ starveFrom s c r + starveBound (s.die (dieOf c)).retain < s.time) then
          [Instr.starveDetect c] else []
      | [] => [])
/-- Events of a block. -/
def dueBlock (s : State) (b : Nat) (x : Block) : List Instr :=
  (match x.phase with
    | .running => if (x.quantumEnd ≤ s.time ∨ x.due.isSome) ∧ !handling s b then [Instr.quantumExpiry b] else []
    | .sittingOut => if x.quantumEnd ≤ s.time then [Instr.quantumExpiry b] else []
    | .preempting => ((heldBy s b).filter (fun p => isLeader s p && (decide ((s.str p).st = .saved) || canSave s p))).map Instr.strandSave
    | .evicting => if deliveriesDone s b then [Instr.evictionComplete b] else []
    | .halting => if haltReady s b then [Instr.haltSnapshotComplete b] else []
    | _ => [])
    ++ (if onCells x.phase ∧ !x.stallMade ∧ x.lastIssue + 2 ^ 24 ≤ s.time then [Instr.blockstallDetect b] else [])
/-- Ring and rail events of a die; the stations act for the die cycle before (R185). -/
def dueDie (s : State) (d : Nat) : List Instr :=
  let x := s.die d
  ((List.range 160).filter (fun st => stationBusy s d st (s.time - 1))).map (fun st => Instr.ringStationStep d st)
    ++ (if s.time % 160 = 0 ∧ (x.paid ≠ 0 ∨ x.floor ≠ 0 ∨ x.ballast ≠ 0 ∨ x.bwin ≠ s.pkg.rampWindow ∨ x.btot ≠ x.total) then
        [Instr.ballastRevolution d] else [])
    ++ (match x.lowEnd with | some t => if t ≤ s.time then [Instr.railHoldEnd d 0] else [] | none => [])
    ++ (match x.highEnd with | some t => if t ≤ s.time then [Instr.railHoldEnd d 1] else [] | none => [])
/-- Events of the package. -/
def duePkg (s : State) : List Instr :=
  (if s.pkg.migBusy.isSome then [Instr.migrationComplete] else [])
    ++ (if waitingWork s then [Instr.dispatchPlace] else [])
    ++ ((tkeys s.grids).filter (gridDone s)).map Instr.gridComplete
    ++ (if s.pkg.attBusy ∧ s.pkg.attDue ≤ s.time then [Instr.attestationReportDone] else [])
    ++ (s.pkg.reqs.filter (fun e => decide (e.2.due ≤ s.time) && !e.2.held)).map (fun e => Instr.e2eRetry e.1)
/-- Everything that falls due as a die cycle begins. -/
def dueEvents (s : State) : List Instr :=
  let cs := tkeys s.cells
  (List.range 4).flatMap (dueDie s) ++ dueWork s ++ dueTimeouts s ++ cs.flatMap (dueCell s) ++ (busyCells s).flatMap (dueGangs s)
    ++ dueStalls s ++ s.blocks.flatMap (fun e => dueBlock s e.1 e.2) ++ duePkg s

/-! ### The issuers of a cycle, and what comes just before them -/

/-- What a cell cycle does before its issuers: a phase of a banking switch ends (R109), the first waiting gang is placed (R59), the
oldest requests are paid (R189). -/
def lateCell (s : State) (c : Nat) : List Instr :=
  let x := s.cell c
  let ph := (blockIn s c).phase
  let runs := decide (ph = .running ∨ ph = .preempting)
  (if bankReady s c then [Instr.bankingSwitchComplete c] else [])
    ++ (if runs && (match firstReleased x.partials with | some p => (gangPlace s c p.glog).isSome | none => false) then
        [Instr.gatheredGangPlace c] else [])
    ++ (match x.reqs with
      | r :: _ =>
        if runs && cycleStarts s c && x.railTo.isNone && !(s.die (dieOf c)).ringFailed && decide (r.price ≤ x.pocket) &&
            (quotaAllows s c r.price r.exempt || !busyGang (s.gang (leaderOf s r.pos))) then
          [Instr.tokenRequestPaid c] else []
      | [] => [])
/-- The landings of the cycle let parked paths go on, and what comes before the issuers takes place; then the issuers of the die cycle
are listed, and the links that they pop. -/
def fillQueue (run1 : Instr → State → Host.Outcome State Fault Refusal) (s : State) : State :=
  let s1 := wakeSweep s
  let late := s1.agenda ++ (tkeys s1.cells).flatMap (lateCell s1)
  if !late.isEmpty then s1.setAgenda late
  else
    let cs := busyCells s1
    let q := cs.flatMap (cellIssuers s1)
    let t := cs.foldl (fun u c => if cellRuns u c && cycleStarts u c then (slotLeaders u c).foldl countTurn u else u) s1
    let u := ((servePendings t).setQueue q).setFilled true
    let l := contested u q
    u.setForeseen (poppedIn run1 u (l.length + 1) l)

/-- The grids that an uncorrectable error has ended in the cycle are killed (R471, R472). -/
def reap (s : State) : State :=
  s.doomed.foldl (fun t q => contextKill t q.1 { kind := 1, cause := 10, sval := word (paOf q.2.2), sinfo := word (256 * q.2.1) })
    (s.setDoomed [])
/-- The end of a die cycle, and the events that fall due as the next one begins. After a thermal trip nothing happens (R507). -/
def tick (s : State) : State :=
  if s.pkg.dead then (s.setTime (s.time + 1)).setFilled false
  else
    let s0 := reap (endPresence s)
    let s1 := (busyCells s0).foldl endCell s0
    let s2 := endBlocks s1
    let s3 := (((s2.setAlleyOld []).setForeseen []).setTime (s2.time + 1)).setFilled false
    let s4 := armHeld s3
    let s5 := (tkeys (s4.cells.filter (fun e => !e.2.inject.isEmpty))).foldl injectAll s4
    s5.setAgenda (s5.agenda ++ dueEvents s5)

end Sys2Proof.Machine
end

