-- ==== Sys2Proof/Machine/Dispatch.lean ====
section
/-!
DEFINITION. The meaning of every instruction and of every step of the device: one arm per constructor.
-/
namespace Sys2Proof.Machine

open Sys2Proof

def exec (i : Instr) (s : State) : Host.Outcome State Fault Refusal :=
  match i with
  | .add gd d a b t => Sys2Proof.Machine.execAdd gd d a b t s
  | .sub gd d a b t => Sys2Proof.Machine.execSub gd d a b t s
  | .mul gd d a b t => Sys2Proof.Machine.execMul gd d a b t s
  | .mulh gd d a b t => Sys2Proof.Machine.execMulh gd d a b t s
  | .mad gd d a b t => Sys2Proof.Machine.execMad gd d a b t s
  | .div gd d a b t => Sys2Proof.Machine.execDiv gd d a b t s
  | .rem gd d a b t => Sys2Proof.Machine.execRem gd d a b t s
  | .and gd d a b t => Sys2Proof.Machine.execAnd gd d a b t s
  | .or gd d a b t => Sys2Proof.Machine.execOr gd d a b t s
  | .xor gd d a b t => Sys2Proof.Machine.execXor gd d a b t s
  | .andn gd d a b t => Sys2Proof.Machine.execAndn gd d a b t s
  | .shl gd d a b t => Sys2Proof.Machine.execShl gd d a b t s
  | .shr gd d a b t => Sys2Proof.Machine.execShr gd d a b t s
  | .sar gd d a b t => Sys2Proof.Machine.execSar gd d a b t s
  | .rot gd d a b t => Sys2Proof.Machine.execRot gd d a b t s
  | .min gd d a b t => Sys2Proof.Machine.execMin gd d a b t s
  | .max gd d a b t => Sys2Proof.Machine.execMax gd d a b t s
  | .addi gd d a imm t => Sys2Proof.Machine.execAddi gd d a imm t s
  | .andi gd d a imm t => Sys2Proof.Machine.execAndi gd d a imm t s
  | .ori gd d a imm t => Sys2Proof.Machine.execOri gd d a imm t s
  | .xori gd d a imm t => Sys2Proof.Machine.execXori gd d a imm t s
  | .li gd d imm => Sys2Proof.Machine.execLi gd d imm s
  | .lih gd d imm => Sys2Proof.Machine.execLih gd d imm s
  | .abs gd d a t => Sys2Proof.Machine.execAbs gd d a t s
  | .neg gd d a t => Sys2Proof.Machine.execNeg gd d a t s
  | .clz gd d a t => Sys2Proof.Machine.execClz gd d a t s
  | .ctz gd d a t => Sys2Proof.Machine.execCtz gd d a t s
  | .popc gd d a t => Sys2Proof.Machine.execPopc gd d a t s
  | .brev gd d a t => Sys2Proof.Machine.execBrev gd d a t s
  | .bfx gd d a b t => Sys2Proof.Machine.execBfx gd d a b t s
  | .bfi gd d a b t => Sys2Proof.Machine.execBfi gd d a b t s
  | .sel gd d a b q => Sys2Proof.Machine.execSel gd d a b q s
  | .lea gd d a b sh => Sys2Proof.Machine.execLea gd d a b sh s
  | .cmp gd c p a b t => Sys2Proof.Machine.execCmp gd c p a b t s
  | .pand gd p a b => Sys2Proof.Machine.execPand gd p a b s
  | .por gd p a b => Sys2Proof.Machine.execPor gd p a b s
  | .pxor gd p a b => Sys2Proof.Machine.execPxor gd p a b s
  | .pnot gd p a => Sys2Proof.Machine.execPnot gd p a s
  | .voteSome gd p a => Sys2Proof.Machine.execVoteSome gd p a s
  | .voteEvery gd p a => Sys2Proof.Machine.execVoteEvery gd p a s
  | .voteAgree gd p a => Sys2Proof.Machine.execVoteAgree gd p a s
  | .ballot gd d a => Sys2Proof.Machine.execBallot gd d a s
  | .shflPick gd d a b => Sys2Proof.Machine.execShflPick gd d a b s
  | .shflLo gd d a b => Sys2Proof.Machine.execShflLo gd d a b s
  | .shflHi gd d a b => Sys2Proof.Machine.execShflHi gd d a b s
  | .shflMir gd d a b => Sys2Proof.Machine.execShflMir gd d a b s
  | .bcast gd d a lane => Sys2Proof.Machine.execBcast gd d a lane s
  | .fadd gd r d a b f => Sys2Proof.Machine.execFadd gd r d a b f s
  | .fsub gd r d a b f => Sys2Proof.Machine.execFsub gd r d a b f s
  | .fmul gd r d a b f => Sys2Proof.Machine.execFmul gd r d a b f s
  | .fma gd r d a b f => Sys2Proof.Machine.execFma gd r d a b f s
  | .fmin gd d a b f => Sys2Proof.Machine.execFmin gd d a b f s
  | .fmax gd d a b f => Sys2Proof.Machine.execFmax gd d a b f s
  | .fdiv gd r d a b f => Sys2Proof.Machine.execFdiv gd r d a b f s
  | .fsqrt gd r d a f => Sys2Proof.Machine.execFsqrt gd r d a f s
  | .fabs gd d a f => Sys2Proof.Machine.execFabs gd d a f s
  | .fneg gd d a f => Sys2Proof.Machine.execFneg gd d a f s
  | .fcmp gd c p a b f => Sys2Proof.Machine.execFcmp gd c p a b f s
  | .vadd gd r d a b e => Sys2Proof.Machine.execVadd gd r d a b e s
  | .vsub gd r d a b e => Sys2Proof.Machine.execVsub gd r d a b e s
  | .vmul gd r d a b e => Sys2Proof.Machine.execVmul gd r d a b e s
  | .vfma gd r d a b e => Sys2Proof.Machine.execVfma gd r d a b e s
  | .vmin gd d a b e => Sys2Proof.Machine.execVmin gd d a b e s
  | .vmax gd d a b e => Sys2Proof.Machine.execVmax gd d a b e s
  | .vabs gd d a e => Sys2Proof.Machine.execVabs gd d a e s
  | .vneg gd d a e => Sys2Proof.Machine.execVneg gd d a e s
  | .vrcp gd d a e => Sys2Proof.Machine.execVrcp gd d a e s
  | .vrsq gd d a e => Sys2Proof.Machine.execVrsq gd d a e s
  | .vsqrt gd d a e => Sys2Proof.Machine.execVsqrt gd d a e s
  | .vexp2 gd d a e => Sys2Proof.Machine.execVexp2 gd d a e s
  | .vlog2 gd d a e => Sys2Proof.Machine.execVlog2 gd d a e s
  | .vsin gd d a e => Sys2Proof.Machine.execVsin gd d a e s
  | .vcos gd d a e => Sys2Proof.Machine.execVcos gd d a e s
  | .vcmp gd c d a b e => Sys2Proof.Machine.execVcmp gd c d a b e s
  | .vsel gd d a b => Sys2Proof.Machine.execVsel gd d a b s
  | .vsum gd d a e => Sys2Proof.Machine.execVsum gd d a e s
  | .vdot gd d a b e => Sys2Proof.Machine.execVdot gd d a b e s
  | .vperm gd d a b sz => Sys2Proof.Machine.execVperm gd d a b sz s
  | .cvtScalar gd d a dt st r => Sys2Proof.Machine.execCvtScalar gd d a dt st r s
  | .cvtWide gd d a dt st r => Sys2Proof.Machine.execCvtWide gd d a dt st r s
  | .pack gd d a b pair r ks => Sys2Proof.Machine.execPack gd d a b pair r ks s
  | .unpk gd d a hi pair ks => Sys2Proof.Machine.execUnpk gd d a hi pair ks s
  | .scl gd d a b pair r ks => Sys2Proof.Machine.execScl gd d a b pair r ks s
  | .xadd gd e src => Sys2Proof.Machine.execXadd gd e src s
  | .xget gd d e f64 r => Sys2Proof.Machine.execXget gd d e f64 r s
  | .xclr gd e => Sys2Proof.Machine.execXclr gd e s
  | .xmrg gd e src => Sys2Proof.Machine.execXmrg gd e src s
  | .mma gd rel f c a b => Sys2Proof.Machine.execMma gd rel f c a b s
  | .qrd gd d x fwd => Sys2Proof.Machine.execQrd gd d x fwd s
  | .qwr gd y a => Sys2Proof.Machine.execQwr gd y a s
  | .krd gd d k => Sys2Proof.Machine.execKrd gd d k s
  | .kwr gd k a => Sys2Proof.Machine.execKwr gd k a s
  | .br gd disp => Sys2Proof.Machine.execBr gd disp s
  | .call gd disp => Sys2Proof.Machine.execCall gd disp s
  | .brx gd a => Sys2Proof.Machine.execBrx gd a s
  | .callx gd a => Sys2Proof.Machine.execCallx gd a s
  | .ret gd a => Sys2Proof.Machine.execRet gd a s
  | .dbnz gd d disp => Sys2Proof.Machine.execDbnz gd d disp s
  | .jset gd j => Sys2Proof.Machine.execJset gd j s
  | .jadd gd j => Sys2Proof.Machine.execJadd gd j s
  | .jquit gd j => Sys2Proof.Machine.execJquit gd j s
  | .jwait gd j => Sys2Proof.Machine.execJwait gd j s
  | .jtest gd p j => Sys2Proof.Machine.execJtest gd p j s
  | .jread gd d j => Sys2Proof.Machine.execJread gd d j s
  | .jwrite gd j a => Sys2Proof.Machine.execJwrite gd j a s
  | .fuse gd glog => Sys2Proof.Machine.execFuse gd glog s
  | .split gd => Sys2Proof.Machine.execSplit gd s
  | .detach gd => Sys2Proof.Machine.execDetach gd s
  | .stop gd => Sys2Proof.Machine.execStop gd s
  | .spawn gd a w => Sys2Proof.Machine.execSpawn gd a w s
  | .spawnf gd a => Sys2Proof.Machine.execSpawnf gd a s
  | .yield gd => Sys2Proof.Machine.execYield gd s
  | .grid gd a => Sys2Proof.Machine.execGrid gd a s
  | .ld gd d a sgn off z => Sys2Proof.Machine.execLd gd d a sgn off z s
  | .ldAcq gd d a sc sgn z => Sys2Proof.Machine.execLdAcq gd d a sc sgn z s
  | .ldDev gd d a acq sgn z => Sys2Proof.Machine.execLdDev gd d a acq sgn z s
  | .st gd off a b z => Sys2Proof.Machine.execSt gd off a b z s
  | .stRel gd sc a b z => Sys2Proof.Machine.execStRel gd sc a b z s
  | .stDev gd rel a b z => Sys2Proof.Machine.execStDev gd rel a b z s
  | .ldw gd w a off => Sys2Proof.Machine.execLdw gd w a off s
  | .stw gd w a off => Sys2Proof.Machine.execStw gd w a off s
  | .ldwAcq gd w a sc => Sys2Proof.Machine.execLdwAcq gd w a sc s
  | .stwRel gd w a sc => Sys2Proof.Machine.execStwRel gd w a sc s
  | .lds gd d a sgn off z => Sys2Proof.Machine.execLds gd d a sgn off z s
  | .sts gd off a b z => Sys2Proof.Machine.execSts gd off a b z s
  | .ldsAcq gd d a sc sgn z => Sys2Proof.Machine.execLdsAcq gd d a sc sgn z s
  | .stsRel gd d a sc z => Sys2Proof.Machine.execStsRel gd d a sc z s
  | .ldsw gd w a off => Sys2Proof.Machine.execLdsw gd w a off s
  | .stsw gd w a off => Sys2Proof.Machine.execStsw gd w a off s
  | .ldswAcq gd w a sc => Sys2Proof.Machine.execLdswAcq gd w a sc s
  | .stswRel gd w a sc => Sys2Proof.Machine.execStswRel gd w a sc s
  | .gat gd ord w a x e8 => Sys2Proof.Machine.execGat gd ord w a x e8 s
  | .scat gd ord w a x e8 => Sys2Proof.Machine.execScat gd ord w a x e8 s
  | .pf gd a b => Sys2Proof.Machine.execPf gd a b s
  | .ldk gd k a off => Sys2Proof.Machine.execLdk gd k a off s
  | .ldkAcq gd k a sc => Sys2Proof.Machine.execLdkAcq gd k a sc s
  | .xld gd e a off => Sys2Proof.Machine.execXld gd e a off s
  | .xldAcq gd e a sc => Sys2Proof.Machine.execXldAcq gd e a sc s
  | .xst gd e a off => Sys2Proof.Machine.execXst gd e a off s
  | .xstRel gd e a sc => Sys2Proof.Machine.execXstRel gd e a sc s
  | .amoAdd gd d a w64 o => Sys2Proof.Machine.execAmoAdd gd d a w64 o s
  | .amoAnd gd d a w64 o => Sys2Proof.Machine.execAmoAnd gd d a w64 o s
  | .amoOr gd d a w64 o => Sys2Proof.Machine.execAmoOr gd d a w64 o s
  | .amoXor gd d a w64 o => Sys2Proof.Machine.execAmoXor gd d a w64 o s
  | .amoMinI gd d a w64 o => Sys2Proof.Machine.execAmoMinI gd d a w64 o s
  | .amoMinN gd d a w64 o => Sys2Proof.Machine.execAmoMinN gd d a w64 o s
  | .amoMaxI gd d a w64 o => Sys2Proof.Machine.execAmoMaxI gd d a w64 o s
  | .amoMaxN gd d a w64 o => Sys2Proof.Machine.execAmoMaxN gd d a w64 o s
  | .amoSwap gd d a w64 o => Sys2Proof.Machine.execAmoSwap gd d a w64 o s
  | .amoPmin gd d a o => Sys2Proof.Machine.execAmoPmin gd d a o s
  | .cas gd d a w64 o => Sys2Proof.Machine.execCas gd d a w64 o s
  | .cas2 gd d a o => Sys2Proof.Machine.execCas2 gd d a o s
  | .amofF32 gd d a o => Sys2Proof.Machine.execAmofF32 gd d a o s
  | .amofF64 gd d a o => Sys2Proof.Machine.execAmofF64 gd d a o s
  | .amoxF32 gd d a o => Sys2Proof.Machine.execAmoxF32 gd d a o s
  | .amoxF64 gd d a o => Sys2Proof.Machine.execAmoxF64 gd d a o s
  | .fenceAcq gd sc => Sys2Proof.Machine.execFenceAcq gd sc s
  | .fenceRel gd sc => Sys2Proof.Machine.execFenceRel gd sc s
  | .fenceAr gd sc => Sys2Proof.Machine.execFenceAr gd sc s
  | .fenceSc gd sc => Sys2Proof.Machine.execFenceSc gd sc s
  | .wait gd d a w64 acq => Sys2Proof.Machine.execWait gd d a w64 acq s
  | .cpy gd rel d a b => Sys2Proof.Machine.execCpy gd rel d a b s
  | .tld gd rel d a b => Sys2Proof.Machine.execTld gd rel d a b s
  | .tldm gd rel d a b => Sys2Proof.Machine.execTldm gd rel d a b s
  | .chase gd rel d a b => Sys2Proof.Machine.execChase gd rel d a b s
  | .multicastSub gd a => Sys2Proof.Machine.execMulticastSub gd a s
  | .multicastUnsub gd a => Sys2Proof.Machine.execMulticastUnsub gd a s
  | .tbinit gd b a => Sys2Proof.Machine.execTbinit gd b a s
  | .tbexp gd b a => Sys2Proof.Machine.execTbexp gd b a s
  | .tbarr gd b => Sys2Proof.Machine.execTbarr gd b s
  | .tbwait gd b => Sys2Proof.Machine.execTbwait gd b s
  | .tbtest gd p b => Sys2Proof.Machine.execTbtest gd p b s
  | .bbarr gd => Sys2Proof.Machine.execBbarr gd s
  | .bbwait gd => Sys2Proof.Machine.execBbwait gd s
  | .send gd a w => Sys2Proof.Machine.execSend gd a w s
  | .recv gd w => Sys2Proof.Machine.execRecv gd w s
  | .recvt gd w a p => Sys2Proof.Machine.execRecvt gd w a p s
  | .mmz gd c => Sys2Proof.Machine.execMmz gd c s
  | .mmst gd c a b => Sys2Proof.Machine.execMmst gd c a b s
  | .mmld gd c a b => Sys2Proof.Machine.execMmld gd c a b s
  | .mmpoll gd d a => Sys2Proof.Machine.execMmpoll gd d a s
  | .mmjob gd d a f => Sys2Proof.Machine.execMmjob gd d a f s
  | .tokq gd d => Sys2Proof.Machine.execTokq gd d s
  | .trap gd code => Sys2Proof.Machine.execTrap gd code s
  | .sysret gd => Sys2Proof.Machine.execSysret gd s
  | .halt gd => Sys2Proof.Machine.execHalt gd s
  | .kill gd a => Sys2Proof.Machine.execKill gd a s
  | .rdsr gd d srn => Sys2Proof.Machine.execRdsr gd d srn s
  | .wrsr gd d srn => Sys2Proof.Machine.execWrsr gd d srn s
  | .tlbinvAll gd => Sys2Proof.Machine.execTlbinvAll gd s
  | .tlbinvAsid gd a => Sys2Proof.Machine.execTlbinvAsid gd a s
  | .tlbinvPage gd a b => Sys2Proof.Machine.execTlbinvPage gd a b s
  | .cwb gd a b => Sys2Proof.Machine.execCwb gd a b s
  | .cinv gd a b => Sys2Proof.Machine.execCinv gd a b s
  | .probe gd d a => Sys2Proof.Machine.execProbe gd d a s
  | .syncOpComplete pos => Sys2Proof.Machine.execSyncOpComplete pos s
  | .scoreboardResultLands id => Sys2Proof.Machine.execScoreboardResultLands id s
  | .storePerformed id => Sys2Proof.Machine.execStorePerformed id s
  | .pageWalkComplete id => Sys2Proof.Machine.execPageWalkComplete id s
  | .bankingSwitchComplete cell => Sys2Proof.Machine.execBankingSwitchComplete cell s
  | .spawnTimeoutRelease cell desc => Sys2Proof.Machine.execSpawnTimeoutRelease cell desc s
  | .gatheredGangPlace cell => Sys2Proof.Machine.execGatheredGangPlace cell s
  | .pathQuantumExpiry leader => Sys2Proof.Machine.execPathQuantumExpiry leader s
  | .orphanFault leader => Sys2Proof.Machine.execOrphanFault leader s
  | .sqnote pos => Sys2Proof.Machine.execSqnote pos s
  | .monitorFire pos => Sys2Proof.Machine.execMonitorFire pos s
  | .waitTimeout pos => Sys2Proof.Machine.execWaitTimeout pos s
  | .recvtTimeout pos => Sys2Proof.Machine.execRecvtTimeout pos s
  | .deliveryArrival id => Sys2Proof.Machine.execDeliveryArrival id s
  | .transferSourceRead id => Sys2Proof.Machine.execTransferSourceRead id s
  | .transferNotice id => Sys2Proof.Machine.execTransferNotice id s
  | .chaseStep id => Sys2Proof.Machine.execChaseStep id s
  | .chaseStepLimit id => Sys2Proof.Machine.execChaseStepLimit id s
  | .multicastJoinArrival id => Sys2Proof.Machine.execMulticastJoinArrival id s
  | .blockBarrierSweep cell => Sys2Proof.Machine.execBlockBarrierSweep cell s
  | .messageArrival id => Sys2Proof.Machine.execMessageArrival id s
  | .messageResend id => Sys2Proof.Machine.execMessageResend id s
  | .matrixOpComplete cell => Sys2Proof.Machine.execMatrixOpComplete cell s
  | .matrixOpStart cell => Sys2Proof.Machine.execMatrixOpStart cell s
  | .tokenRequestPaid cell => Sys2Proof.Machine.execTokenRequestPaid cell s
  | .ringStationStep die station => Sys2Proof.Machine.execRingStationStep die station s
  | .ballastRevolution die => Sys2Proof.Machine.execBallastRevolution die s
  | .dispatchPlace => Sys2Proof.Machine.execDispatchPlace s
  | .quantumExpiry block => Sys2Proof.Machine.execQuantumExpiry block s
  | .strandSave leader => Sys2Proof.Machine.execStrandSave leader s
  | .evictionComplete block => Sys2Proof.Machine.execEvictionComplete block s
  | .gridComplete grid => Sys2Proof.Machine.execGridComplete grid s
  | .killComplete id => Sys2Proof.Machine.execKillComplete id s
  | .stallDetect pos => Sys2Proof.Machine.execStallDetect pos s
  | .blockstallDetect block => Sys2Proof.Machine.execBlockstallDetect block s
  | .starveDetect cell => Sys2Proof.Machine.execStarveDetect cell s
  | .launch win off size rec => Sys2Proof.Machine.execLaunch win off size rec s
  | .hostMemoryAccess write addr len data poisoned => Sys2Proof.Machine.execHostMemoryAccess write addr len data poisoned s
  | .packageReset => Sys2Proof.Machine.execPackageReset s
  | .rstctlGo v => Sys2Proof.Machine.execRstctlGo v s
  | .bootStageComplete code => Sys2Proof.Machine.execBootStageComplete code s
  | .attctlGo v => Sys2Proof.Machine.execAttctlGo v s
  | .attestationReportDone => Sys2Proof.Machine.execAttestationReportDone s
  | .migcmdGo v => Sys2Proof.Machine.execMigcmdGo v s
  | .migrationComplete => Sys2Proof.Machine.execMigrationComplete s
  | .railselWrite cell v => Sys2Proof.Machine.execRailselWrite cell v s
  | .railSwitchComplete cell => Sys2Proof.Machine.execRailSwitchComplete cell s
  | .slotmaskWrite cell v => Sys2Proof.Machine.execSlotmaskWrite cell v s
  | .cfenceWrite cell v => Sys2Proof.Machine.execCfenceWrite cell v s
  | .ringcfgWrite die v => Sys2Proof.Machine.execRingcfgWrite die v s
  | .fabcfgWrite v => Sys2Proof.Machine.execFabcfgWrite v s
  | .registerWrite off v => Sys2Proof.Machine.execRegisterWrite off v s
  | .flitReceive port flit op => Sys2Proof.Machine.execFlitReceive port flit op s
  | .e2eRetry tag => Sys2Proof.Machine.execE2eRetry tag s
  | .laneErase port lane => Sys2Proof.Machine.execLaneErase port lane s
  | .portTrainingDone port => Sys2Proof.Machine.execPortTrainingDone port s
  | .hopRetry kind die hop dir ok => Sys2Proof.Machine.execHopRetry kind die hop dir ok s
  | .hostLinkDown => Sys2Proof.Machine.execHostLinkDown s
  | .hostLinkUp => Sys2Proof.Machine.execHostLinkUp s
  | .thermalWarn sensor temp => Sys2Proof.Machine.execThermalWarn sensor temp s
  | .thermalTrip sensor => Sys2Proof.Machine.execThermalTrip sensor s
  | .railFault die rail => Sys2Proof.Machine.execRailFault die rail s
  | .railHoldEnd die rail => Sys2Proof.Machine.execRailHoldEnd die rail s
  | .hbmSupplyFault stack => Sys2Proof.Machine.execHbmSupplyFault stack s
  | .securityAlarm level source => Sys2Proof.Machine.execSecurityAlarm level source s
  | .haltSnapshotComplete block => Sys2Proof.Machine.execHaltSnapshotComplete block s
  | .hostCxlCacheRequest addr write data => Sys2Proof.Machine.execHostCxlCacheRequest addr write data s
  | .switchPlaneLoss plane => Sys2Proof.Machine.execSwitchPlaneLoss plane s
  | .railReturnsToTolerance die rail => Sys2Proof.Machine.execRailReturnsToTolerance die rail s

end Sys2Proof.Machine
end

