-- ==== Sys2Proof/Machine/Step.lean ====
section
/-!
DEFINITION. One step of the package. A die cycle is a run of steps: first the events that fall due as it begins, one step
each; then one step that lists the issuers of the cycle, or the events that come just before them; then one step for each
issuer; then one step that ends the cycle and finds the events of the next one (notes/assumptions/1.md).
-/
namespace Sys2Proof.Machine

open Sys2Proof

/-- One step: the next event due, or the list of the cycle's issuers, or the next issuer's bundle, or the end of the cycle.
(DESIGN CHOICE: notes/assumptions/1.md) -/
def step (s : State) : Host.Outcome State Fault Refusal :=
  if s.agenda.isEmpty && !s.filled then .next (fillQueue exec s)
  else match stepIn exec s with
    | some x => x
    | none => .next (tick s)

/-- The virtual address at which `withFetchWord` places an instruction, and its storage location: die 0, offset 2 MiB. -/
def fetchVa : Nat := 0x200000
def fetchLoc : Nat := locHbm 0 fetchVa

/-- The strand, gang and translation under which position 0 fetches at `fetchVa`. -/
def fetchStrand (t : Strand) : Strand :=
  { t with
    st := .ready, park := .none, wait := .nothing, pc := word fetchVa, lpos := withLane t.lpos 0 0, lmode := .inPath 0
    mark := none, bankHold := false, paid := true }
def fetchGang (g : Gang) : Gang := { g with turn := true, cur := 0, handler := none, trapMask := 0#16, orphans := [] }
def fetchEntry (asid : Nat) : TlbEnt :=
  {
    asid := asid, va := fetchVa, span := 2097152, base := fetchVa, place := 1
    x := true, w := true, rd := true, sup := false, dev := false, chunk := none }

/-- The state with an instruction as the next that `step` fetches: position 0 runs alone in cell 0 with the turn, its bundle
paid for, and fetches at `fetchVa`, which cell 0 translates to die 0 of the HBM4; the word stands there with a word of zeros
after it, and position 0 is the next issuer of the die cycle. -/
def State.withFetchWord (s : State) (nbits w : Nat) : State :=
  let b := (s.cell 0).block.getD 0
  let s1 := putStr s 0 (fetchStrand (s.str 0))
  let s2 := putGang s1 0 (fetchGang (s.gang 0))
  let s3 := putBlock s2 b { s.block b with phase := .running }
  let s4 := putDie s3 0 { s.die 0 with lowHeld := false, highHeld := false }
  let s5 := putCell s4 0 { s.cell 0 with
    block := some b, railTo := none, noteDue := false, tlb := [fetchEntry (s.grid (s.block b).grid).asid]
    l1 := tdel (s.cell 0).l1 (fetchLoc / 32) }
  let s6 := (s5.setPkg { s.pkg with dead := false, badStacks := [] }).setPoison (tdel s.poison (fetchLoc / 32))
  let s7 := wr s6 fetchLoc 8 (w % 2 ^ nbits % 2 ^ 32)
  ((s7.setAgenda []).setQueue [0]).setFilled true

end Sys2Proof.Machine
end

