-- ==== Sys2Proof/Laws/Encoding.lean ====
section
/-!
SUPPORT. Laws of the encoding: the fields of a word come back from the word, and each code comes back from its number.
-/
namespace Sys2Proof

/-- The fields of a word whose fields fit their bits (R202). -/
theorem unpack_packWord (r : Raw) (hp : r.p < 2) (hk : r.k < 2) (hm : r.major < 64) (hgn : r.gn < 2) (hgp : r.gp < 8)
    (hd : r.d < 64) (h1 : r.s1 < 64) (h2 : r.s2 < 64) (hmin : r.min < 4) : unpack (packWord r) = r := by
  cases r
  simp only [unpack, packWord, Raw.mk.injEq] at *
  omega

theorem gCode_lt (r : GReg) : gCode r < 64 := by
  rcases r with ⟨b, n, h⟩
  cases b <;> simp only [gCode] <;> omega
theorem gCode_mod (r : GReg) : gCode r % 4 = r.num.val % 4 := by
  rcases r with ⟨b, n, h⟩
  cases b <;> simp only [gCode] <;> omega
theorem gOf_of {n : Nat} {r : GReg} (h : n % 64 = gCode r) : gOf n = r := by
  rcases r with ⟨b, m, hm⟩
  cases b <;> simp only [gCode] at h <;> simp only [gOf, fin32, GReg.mk.injEq, Fin.mk.injEq]
  · exact ⟨if_neg (by omega), by omega⟩
  · exact ⟨if_pos (by omega), by omega⟩
theorem bCode_true : bCode true = 1 := rfl
theorem bCode_false : bCode false = 0 := rfl
theorem bCode_lt (b : Bool) : bCode b < 2 := by cases b <;> decide
theorem bOf_of {n : Nat} {b : Bool} (h : n % 2 = bCode b) : bOf n = b := by
  cases b <;> simp only [bCode] at h <;> simp [bOf, h]
theorem fin2_of {n : Nat} {x : Fin 2} (h : n % 2 = x.val) : fin2 n = x := Fin.ext h
theorem fin4_of {n : Nat} {x : Fin 4} (h : n % 4 = x.val) : fin4 n = x := Fin.ext h
theorem fin5_of {n : Nat} {x : Fin 5} (h : n % 5 = x.val) : fin5 n = x := Fin.ext h
theorem fin8_of {n : Nat} {x : Fin 8} (h : n % 8 = x.val) : fin8 n = x := Fin.ext h
theorem fin10_of {n : Nat} {x : Fin 10} (h : n % 10 = x.val) : fin10 n = x := Fin.ext h
theorem fin12_of {n : Nat} {x : Fin 12} (h : n % 12 = x.val) : fin12 n = x := Fin.ext h
theorem fin16_of {n : Nat} {x : Fin 16} (h : n % 16 = x.val) : fin16 n = x := Fin.ext h
theorem fin32_of {n : Nat} {x : Fin 32} (h : n % 32 = x.val) : fin32 n = x := Fin.ext h
theorem bv_of {k n : Nat} {x : BitVec k} (h : n % 2 ^ k = x.toNat) : BitVec.ofNat k n = x :=
  BitVec.eq_of_toNat_eq (by rw [BitVec.toNat_ofNat]; exact h)

theorem intTyCode_lt (t : IntTy) : intTyCode t < 4 := by cases t <;> decide
theorem fTyCode_lt (t : FTy) : fTyCode t < 4 := by cases t <;> decide
theorem rmCode_lt (t : Rm) : rmCode t < 5 := by cases t <;> decide
theorem rm2Code_lt (t : Rm2) : rm2Code t < 4 := by cases t <;> decide
theorem ccCode_lt (t : CC) : ccCode t < 8 := by cases t <;> decide
theorem iccCode_lt (t : ICC) : iccCode t < 6 := by cases t <;> decide
theorem sizeCode_lt (t : Size) : sizeCode t < 4 := by cases t <;> decide
theorem scopeCode_lt (t : Scope) : scopeCode t < 5 := by cases t <;> decide
theorem qCode_lt (t : QDir) : qCode t < 4 := by cases t <;> decide
theorem tyCodeNum_lt (t : TyCode) : tyCodeNum t < 16 := by cases t <;> decide
theorem fmtCode_lt (t : Fmt) : fmtCode t < 7 := by cases t <;> decide
theorem permCode_lt (t : PermSz) : permCode t < 3 := by cases t <;> decide
theorem oscCode_lt (t : Option Scope) : oscCode t < 5 := by
  cases t with
  | none => decide
  | some s => exact scopeCode_lt s
theorem oscOn_lt (t : Option Scope) : oscOn t < 2 := by cases t <;> simp [oscOn]
theorem oscCode_zero (t : Option Scope) (h : oscOn t = 0) : oscCode t = 0 := by cases t <;> first | rfl | exact absurd h (by simp [oscOn])
theorem aordCode_lt (t : AOrd) : aordCode t < 4 := by cases t <;> simp only [aordCode] <;> decide
theorem aordSc_lt (t : AOrd) : aordSc t < 5 := by
  cases t with
  | relaxed => decide
  | acq s => exact scopeCode_lt s
  | rel s => exact scopeCode_lt s
  | ar s => exact scopeCode_lt s
theorem aordSc_zero (t : AOrd) (h : aordCode t = 0) : aordSc t = 0 := by
  cases t <;> first | rfl | exact absurd h (by simp [aordCode])

theorem intTyOf_of {n : Nat} {t : IntTy} (h : n = intTyCode t) : intTyOf n = t := by subst h; cases t <;> rfl
theorem fTyOf_of {n : Nat} {t : FTy} (h : n = fTyCode t) : fTyOf n = t := by subst h; cases t <;> rfl
theorem rmOf_of {n : Nat} {t : Rm} (h : n = rmCode t) : rmOf n = t := by subst h; cases t <;> rfl
theorem rm2Of_of {n : Nat} {t : Rm2} (h : n = rm2Code t) : rm2Of n = t := by subst h; cases t <;> rfl
theorem ccOf_of {n : Nat} {t : CC} (h : n = ccCode t) : ccOf n = t := by subst h; cases t <;> rfl
theorem iccOf_of {n : Nat} {t : ICC} (h : n = iccCode t) : iccOf n = t := by subst h; cases t <;> rfl
theorem sizeOf_of {n : Nat} {t : Size} (h : n = sizeCode t) : sizeOf n = t := by subst h; cases t <;> rfl
theorem scopeOf_of {n : Nat} {t : Scope} (h : n = scopeCode t) : scopeOf n = t := by subst h; cases t <;> rfl
theorem qOf_of {n : Nat} {t : QDir} (h : n = qCode t) : qOf n = t := by subst h; cases t <;> rfl
theorem tyOf_of {n : Nat} {t : TyCode} (h : n = tyCodeNum t) : tyOf n = t := by subst h; cases t <;> rfl
theorem fmtOf_of {n : Nat} {t : Fmt} (h : n = fmtCode t) : fmtOf n = t := by subst h; cases t <;> rfl
theorem permOf_of {n : Nat} {t : PermSz} (h : n = permCode t) : permOf n = t := by subst h; cases t <;> rfl
theorem oscOf_of {on sc : Nat} {t : Option Scope} (h : on % 2 = oscOn t) (h2 : sc = oscCode t) : oscOf on sc = t := by
  subst h2
  cases t with
  | none => simp only [oscOn] at h; simp [oscOf, h]
  | some s => simp only [oscOn] at h; simp only [oscOf, if_pos h, oscCode, scopeOf_of rfl]
theorem aordOf_of {c sc : Nat} {t : AOrd} (h : c = aordCode t) (h2 : sc = aordSc t) : aordOf c sc = t := by
  subst h h2
  cases t <;> simp only [aordOf, aordCode, aordSc, scopeOf_of rfl]
theorem gdOf_of {r : Raw} {gd : Guard} (h1 : r.gn = bCode gd.neg) (h2 : r.gp = gd.p.val) : gdOf r = gd := by
  rcases gd with ⟨n, p⟩
  simp only [gdOf, Guard.mk.injEq]
  exact ⟨bOf_of (by rw [h1]; have := bCode_lt n; simp only; omega), fin8_of (by rw [h2]; simp only; omega)⟩
theorem xsrcSel_lt (x : XSrc) : xsrcSel x < 4 := by cases x <;> simp [xsrcSel]
theorem xsrcS1_lt (x : XSrc) : xsrcS1 x < 64 := by
  cases x <;> simp only [xsrcS1] <;> first | exact gCode_lt _ | omega
theorem xsrcS1_wide (x : XSrc) (h : 2 ≤ xsrcSel x) : xsrcS1 x < 16 := by
  cases x <;> simp only [xsrcSel] at h <;> simp only [xsrcS1] <;> omega
theorem xsrcOf_of {sel s1 : Nat} {x : XSrc} (h : sel = xsrcSel x) (h2 : s1 = xsrcS1 x) : xsrcOf sel s1 = x := by
  subst h h2
  cases x <;> simp only [xsrcOf, xsrcSel, xsrcS1, XSrc.f32.injEq, XSrc.f64.injEq, XSrc.f32x8.injEq, XSrc.f64x4.injEq]
  · exact gOf_of (Nat.mod_eq_of_lt (gCode_lt _))
  · exact gOf_of (Nat.mod_eq_of_lt (gCode_lt _))
  · exact fin16_of (Nat.mod_eq_of_lt (Fin.isLt _))
  · exact fin16_of (Nat.mod_eq_of_lt (Fin.isLt _))
theorem badOrder_of {o sc : Nat} (h1 : o = 0 → sc = 0) (h2 : sc < 5) : badOrder o sc = false := by
  simp only [badOrder, decide_eq_false_iff_not, not_or]
  omega
theorem nz_of {n : Nat} (h : n = 0) : nz n = false := by subst h; rfl

theorem and_of {a b : Prop} [Decidable a] [Decidable b] (h : ¬(a ∧ b)) : (decide a && decide b) = false := by
  rw [← Bool.decide_and]
  exact decide_eq_false h
theorem sgn_codes {sgn : Bool} {z : Size} (h : sgnOk sgn z = true) : bCode sgn = 0 ∨ sizeCode z < 3 := by
  cases sgn <;> cases z <;> first | exact Or.inl rfl | exact Or.inr (by decide) | exact absurd h (by decide)

theorem srnRead_of {m n : Nat} (e : m = n) (h : (srnRead n).isSome = true) : (srnRead m).isNone = false := by
  subst e
  cases hh : srnRead m <;> rw [hh] at h <;> first | exact absurd h (by decide) | rfl
theorem srnWrite_of {m n : Nat} (e : m = n) (h : (srnWrite n).isSome = true) : (srnWrite m).isNone = false := by
  subst e
  cases hh : srnWrite m <;> rw [hh] at h <;> first | exact absurd h (by decide) | rfl

theorem checked1 {c1 : Bool} {n1 : Nat} {i j : Instr} (h1 : c1 = false) (h : i = j) : checked [(c1, n1)] i = .ok j := by
  subst h1 h; rfl
theorem checked2 {c1 c2 : Bool} {n1 n2 : Nat} {i j : Instr} (h1 : c1 = false) (h2 : c2 = false) (h : i = j) :
    checked [(c1, n1), (c2, n2)] i = .ok j := by
  subst h1 h2 h; rfl
theorem checked3 {c1 c2 c3 : Bool} {n1 n2 n3 : Nat} {i j : Instr} (h1 : c1 = false) (h2 : c2 = false) (h3 : c3 = false) (h : i = j) :
    checked [(c1, n1), (c2, n2), (c3, n3)] i = .ok j := by
  subst h1 h2 h3 h; rfl
theorem checked4 {c1 c2 c3 c4 : Bool} {n1 n2 n3 n4 : Nat} {i j : Instr} (h1 : c1 = false) (h2 : c2 = false) (h3 : c3 = false)
    (h4 : c4 = false) (h : i = j) : checked [(c1, n1), (c2, n2), (c3, n3), (c4, n4)] i = .ok j := by
  subst h1 h2 h3 h4 h; rfl

end Sys2Proof
end

