-- ==== Sys2Proof/Laws/PerInstr.lean ====
section
/-!
SUPPORT. The round trip of the encoding, instruction by instruction: the word of a well-formed instruction decodes to it
(R202, R210 to R216).
-/
namespace Sys2Proof.Laws.RoundTrip

open Sys2Proof

set_option linter.unusedSimpArgs false

/-- The lone word of the instruction decodes to the instruction. -/
def Statement (i : Instr) : Prop := wellFormed i = true → ∀ w, encode i = some w → decodeWord w = .ok i

theorem of_raw {i : Instr} {r : Raw} (he : encodeRaw i = some r)
    (hr : r.p < 2 ∧ r.k < 2 ∧ r.major < 64 ∧ r.gn < 2 ∧ r.gp < 8 ∧ r.d < 64 ∧ r.s1 < 64 ∧ r.s2 < 64 ∧ r.min < 4)
    (hd : wellFormed i = true → decodeRaw r = .ok i) : Statement i := by
  intro hw w h
  simp only [encode, he, Option.map_some, Option.some.injEq] at h
  subst h
  obtain ⟨h1, h2, h3, h4, h5, h6, h7, h8, h9⟩ := hr
  rw [decodeWord, unpack_packWord r h1 h2 h3 h4 h5 h6 h7 h8 h9]
  exact hd hw
/-- A step of the device that no word encodes. -/
theorem of_none {i : Instr} (h : encodeRaw i = none) : Statement i := fun _ w e => by
  simp [encode, h] at e

theorem add (gd : Guard) (d : GReg) (a : GReg) (b : GReg) (t : IntTy) : Statement (.add gd d a b t) := by
  have f0 := bCode_lt gd.neg
  have f1 := gd.p.isLt
  have f2 := gCode_lt d
  have f3 := gCode_lt a
  have f4 := gCode_lt b
  have f5 := intTyCode_lt t
  refine of_raw rfl ⟨?_, ?_, ?_, ?_, ?_, ?_, ?_, ?_, ?_⟩ fun hw => ?_
  iterate 9 (dsimp only; omega)
  · refine congrArg Dec.ok ?_
    · congr 1
      all_goals first | exact gdOf_of rfl rfl | exact gOf_of (by dsimp only <;> omega) | exact intTyOf_of rfl

theorem sub (gd : Guard) (d : GReg) (a : GReg) (b : GReg) (t : IntTy) : Statement (.sub gd d a b t) := by
  have f0 := bCode_lt gd.neg
  have f1 := gd.p.isLt
  have f2 := gCode_lt d
  have f3 := gCode_lt a
  have f4 := gCode_lt b
  have f5 := intTyCode_lt t
  refine of_raw rfl ⟨?_, ?_, ?_, ?_, ?_, ?_, ?_, ?_, ?_⟩ fun hw => ?_
  iterate 9 (dsimp only; omega)
  · refine congrArg Dec.ok ?_
    · congr 1
      all_goals first | exact gdOf_of rfl rfl | exact gOf_of (by dsimp only <;> omega) | exact intTyOf_of rfl

theorem mul (gd : Guard) (d : GReg) (a : GReg) (b : GReg) (t : IntTy) : Statement (.mul gd d a b t) := by
  have f0 := bCode_lt gd.neg
  have f1 := gd.p.isLt
  have f2 := gCode_lt d
  have f3 := gCode_lt a
  have f4 := gCode_lt b
  have f5 := intTyCode_lt t
  refine of_raw rfl ⟨?_, ?_, ?_, ?_, ?_, ?_, ?_, ?_, ?_⟩ fun hw => ?_
  iterate 9 (dsimp only; omega)
  · refine congrArg Dec.ok ?_
    · congr 1
      all_goals first | exact gdOf_of rfl rfl | exact gOf_of (by dsimp only <;> omega) | exact intTyOf_of rfl

theorem mulh (gd : Guard) (d : GReg) (a : GReg) (b : GReg) (t : IntTy) : Statement (.mulh gd d a b t) := by
  have f0 := bCode_lt gd.neg
  have f1 := gd.p.isLt
  have f2 := gCode_lt d
  have f3 := gCode_lt a
  have f4 := gCode_lt b
  have f5 := intTyCode_lt t
  refine of_raw rfl ⟨?_, ?_, ?_, ?_, ?_, ?_, ?_, ?_, ?_⟩ fun hw => ?_
  iterate 9 (dsimp only; omega)
  · refine congrArg Dec.ok ?_
    · congr 1
      all_goals first | exact gdOf_of rfl rfl | exact gOf_of (by dsimp only <;> omega) | exact intTyOf_of rfl

theorem mad (gd : Guard) (d : GReg) (a : GReg) (b : GReg) (t : IntTy) : Statement (.mad gd d a b t) := by
  have f0 := bCode_lt gd.neg
  have f1 := gd.p.isLt
  have f2 := gCode_lt d
  have f3 := gCode_lt a
  have f4 := gCode_lt b
  have f5 := intTyCode_lt t
  refine of_raw rfl ⟨?_, ?_, ?_, ?_, ?_, ?_, ?_, ?_, ?_⟩ fun hw => ?_
  iterate 9 (dsimp only; omega)
  · refine congrArg Dec.ok ?_
    · congr 1
      all_goals first | exact gdOf_of rfl rfl | exact gOf_of (by dsimp only <;> omega) | exact intTyOf_of rfl

theorem div (gd : Guard) (d : GReg) (a : GReg) (b : GReg) (t : IntTy) : Statement (.div gd d a b t) := by
  have f0 := bCode_lt gd.neg
  have f1 := gd.p.isLt
  have f2 := gCode_lt d
  have f3 := gCode_lt a
  have f4 := gCode_lt b
  have f5 := intTyCode_lt t
  refine of_raw rfl ⟨?_, ?_, ?_, ?_, ?_, ?_, ?_, ?_, ?_⟩ fun hw => ?_
  iterate 9 (dsimp only; omega)
  · refine congrArg Dec.ok ?_
    · congr 1
      all_goals first | exact gdOf_of rfl rfl | exact gOf_of (by dsimp only <;> omega) | exact intTyOf_of rfl

theorem rem (gd : Guard) (d : GReg) (a : GReg) (b : GReg) (t : IntTy) : Statement (.rem gd d a b t) := by
  have f0 := bCode_lt gd.neg
  have f1 := gd.p.isLt
  have f2 := gCode_lt d
  have f3 := gCode_lt a
  have f4 := gCode_lt b
  have f5 := intTyCode_lt t
  refine of_raw rfl ⟨?_, ?_, ?_, ?_, ?_, ?_, ?_, ?_, ?_⟩ fun hw => ?_
  iterate 9 (dsimp only; omega)
  · refine congrArg Dec.ok ?_
    · congr 1
      all_goals first | exact gdOf_of rfl rfl | exact gOf_of (by dsimp only <;> omega) | exact intTyOf_of rfl

theorem and (gd : Guard) (d : GReg) (a : GReg) (b : GReg) (t : IntTy) : Statement (.and gd d a b t) := by
  have f0 := bCode_lt gd.neg
  have f1 := gd.p.isLt
  have f2 := gCode_lt d
  have f3 := gCode_lt a
  have f4 := gCode_lt b
  have f5 := intTyCode_lt t
  refine of_raw rfl ⟨?_, ?_, ?_, ?_, ?_, ?_, ?_, ?_, ?_⟩ fun hw => ?_
  iterate 9 (dsimp only; omega)
  · refine congrArg Dec.ok ?_
    · congr 1
      all_goals first | exact gdOf_of rfl rfl | exact gOf_of (by dsimp only <;> omega) | exact intTyOf_of rfl

theorem or (gd : Guard) (d : GReg) (a : GReg) (b : GReg) (t : IntTy) : Statement (.or gd d a b t) := by
  have f0 := bCode_lt gd.neg
  have f1 := gd.p.isLt
  have f2 := gCode_lt d
  have f3 := gCode_lt a
  have f4 := gCode_lt b
  have f5 := intTyCode_lt t
  refine of_raw rfl ⟨?_, ?_, ?_, ?_, ?_, ?_, ?_, ?_, ?_⟩ fun hw => ?_
  iterate 9 (dsimp only; omega)
  · refine congrArg Dec.ok ?_
    · congr 1
      all_goals first | exact gdOf_of rfl rfl | exact gOf_of (by dsimp only <;> omega) | exact intTyOf_of rfl

theorem xor (gd : Guard) (d : GReg) (a : GReg) (b : GReg) (t : IntTy) : Statement (.xor gd d a b t) := by
  have f0 := bCode_lt gd.neg
  have f1 := gd.p.isLt
  have f2 := gCode_lt d
  have f3 := gCode_lt a
  have f4 := gCode_lt b
  have f5 := intTyCode_lt t
  refine of_raw rfl ⟨?_, ?_, ?_, ?_, ?_, ?_, ?_, ?_, ?_⟩ fun hw => ?_
  iterate 9 (dsimp only; omega)
  · refine congrArg Dec.ok ?_
    · congr 1
      all_goals first | exact gdOf_of rfl rfl | exact gOf_of (by dsimp only <;> omega) | exact intTyOf_of rfl

theorem andn (gd : Guard) (d : GReg) (a : GReg) (b : GReg) (t : IntTy) : Statement (.andn gd d a b t) := by
  have f0 := bCode_lt gd.neg
  have f1 := gd.p.isLt
  have f2 := gCode_lt d
  have f3 := gCode_lt a
  have f4 := gCode_lt b
  have f5 := intTyCode_lt t
  refine of_raw rfl ⟨?_, ?_, ?_, ?_, ?_, ?_, ?_, ?_, ?_⟩ fun hw => ?_
  iterate 9 (dsimp only; omega)
  · refine congrArg Dec.ok ?_
    · congr 1
      all_goals first | exact gdOf_of rfl rfl | exact gOf_of (by dsimp only <;> omega) | exact intTyOf_of rfl

theorem shl (gd : Guard) (d : GReg) (a : GReg) (b : GReg) (t : IntTy) : Statement (.shl gd d a b t) := by
  have f0 := bCode_lt gd.neg
  have f1 := gd.p.isLt
  have f2 := gCode_lt d
  have f3 := gCode_lt a
  have f4 := gCode_lt b
  have f5 := intTyCode_lt t
  refine of_raw rfl ⟨?_, ?_, ?_, ?_, ?_, ?_, ?_, ?_, ?_⟩ fun hw => ?_
  iterate 9 (dsimp only; omega)
  · refine congrArg Dec.ok ?_
    · congr 1
      all_goals first | exact gdOf_of rfl rfl | exact gOf_of (by dsimp only <;> omega) | exact intTyOf_of rfl

theorem shr (gd : Guard) (d : GReg) (a : GReg) (b : GReg) (t : IntTy) : Statement (.shr gd d a b t) := by
  have f0 := bCode_lt gd.neg
  have f1 := gd.p.isLt
  have f2 := gCode_lt d
  have f3 := gCode_lt a
  have f4 := gCode_lt b
  have f5 := intTyCode_lt t
  refine of_raw rfl ⟨?_, ?_, ?_, ?_, ?_, ?_, ?_, ?_, ?_⟩ fun hw => ?_
  iterate 9 (dsimp only; omega)
  · refine congrArg Dec.ok ?_
    · congr 1
      all_goals first | exact gdOf_of rfl rfl | exact gOf_of (by dsimp only <;> omega) | exact intTyOf_of rfl

theorem sar (gd : Guard) (d : GReg) (a : GReg) (b : GReg) (t : IntTy) : Statement (.sar gd d a b t) := by
  have f0 := bCode_lt gd.neg
  have f1 := gd.p.isLt
  have f2 := gCode_lt d
  have f3 := gCode_lt a
  have f4 := gCode_lt b
  have f5 := intTyCode_lt t
  refine of_raw rfl ⟨?_, ?_, ?_, ?_, ?_, ?_, ?_, ?_, ?_⟩ fun hw => ?_
  iterate 9 (dsimp only; omega)
  · refine congrArg Dec.ok ?_
    · congr 1
      all_goals first | exact gdOf_of rfl rfl | exact gOf_of (by dsimp only <;> omega) | exact intTyOf_of rfl

theorem rot (gd : Guard) (d : GReg) (a : GReg) (b : GReg) (t : IntTy) : Statement (.rot gd d a b t) := by
  have f0 := bCode_lt gd.neg
  have f1 := gd.p.isLt
  have f2 := gCode_lt d
  have f3 := gCode_lt a
  have f4 := gCode_lt b
  have f5 := intTyCode_lt t
  refine of_raw rfl ⟨?_, ?_, ?_, ?_, ?_, ?_, ?_, ?_, ?_⟩ fun hw => ?_
  iterate 9 (dsimp only; omega)
  · refine congrArg Dec.ok ?_
    · congr 1
      all_goals first | exact gdOf_of rfl rfl | exact gOf_of (by dsimp only <;> omega) | exact intTyOf_of rfl

theorem min (gd : Guard) (d : GReg) (a : GReg) (b : GReg) (t : IntTy) : Statement (.min gd d a b t) := by
  have f0 := bCode_lt gd.neg
  have f1 := gd.p.isLt
  have f2 := gCode_lt d
  have f3 := gCode_lt a
  have f4 := gCode_lt b
  have f5 := intTyCode_lt t
  refine of_raw rfl ⟨?_, ?_, ?_, ?_, ?_, ?_, ?_, ?_, ?_⟩ fun hw => ?_
  iterate 9 (dsimp only; omega)
  · refine congrArg Dec.ok ?_
    · congr 1
      all_goals first | exact gdOf_of rfl rfl | exact gOf_of (by dsimp only <;> omega) | exact intTyOf_of rfl

theorem max (gd : Guard) (d : GReg) (a : GReg) (b : GReg) (t : IntTy) : Statement (.max gd d a b t) := by
  have f0 := bCode_lt gd.neg
  have f1 := gd.p.isLt
  have f2 := gCode_lt d
  have f3 := gCode_lt a
  have f4 := gCode_lt b
  have f5 := intTyCode_lt t
  refine of_raw rfl ⟨?_, ?_, ?_, ?_, ?_, ?_, ?_, ?_, ?_⟩ fun hw => ?_
  iterate 9 (dsimp only; omega)
  · refine congrArg Dec.ok ?_
    · congr 1
      all_goals first | exact gdOf_of rfl rfl | exact gOf_of (by dsimp only <;> omega) | exact intTyOf_of rfl

theorem addi (gd : Guard) (d : GReg) (a : GReg) (imm : BitVec 6) (t : IntTy) : Statement (.addi gd d a imm t) := by
  have f0 := bCode_lt gd.neg
  have f1 := gd.p.isLt
  have f2 := gCode_lt d
  have f3 := gCode_lt a
  have f4 := imm.isLt
  have f5 := intTyCode_lt t
  refine of_raw rfl ⟨?_, ?_, ?_, ?_, ?_, ?_, ?_, ?_, ?_⟩ fun hw => ?_
  iterate 9 (dsimp only; omega)
  · refine congrArg Dec.ok ?_
    · congr 1
      all_goals first | exact gdOf_of rfl rfl | exact gOf_of (by dsimp only <;> omega) | exact bv_of (by dsimp only [low20, imm14] <;> omega) | exact intTyOf_of rfl

theorem andi (gd : Guard) (d : GReg) (a : GReg) (imm : BitVec 6) (t : IntTy) : Statement (.andi gd d a imm t) := by
  have f0 := bCode_lt gd.neg
  have f1 := gd.p.isLt
  have f2 := gCode_lt d
  have f3 := gCode_lt a
  have f4 := imm.isLt
  have f5 := intTyCode_lt t
  refine of_raw rfl ⟨?_, ?_, ?_, ?_, ?_, ?_, ?_, ?_, ?_⟩ fun hw => ?_
  iterate 9 (dsimp only; omega)
  · refine congrArg Dec.ok ?_
    · congr 1
      all_goals first | exact gdOf_of rfl rfl | exact gOf_of (by dsimp only <;> omega) | exact bv_of (by dsimp only [low20, imm14] <;> omega) | exact intTyOf_of rfl

theorem ori (gd : Guard) (d : GReg) (a : GReg) (imm : BitVec 6) (t : IntTy) : Statement (.ori gd d a imm t) := by
  have f0 := bCode_lt gd.neg
  have f1 := gd.p.isLt
  have f2 := gCode_lt d
  have f3 := gCode_lt a
  have f4 := imm.isLt
  have f5 := intTyCode_lt t
  refine of_raw rfl ⟨?_, ?_, ?_, ?_, ?_, ?_, ?_, ?_, ?_⟩ fun hw => ?_
  iterate 9 (dsimp only; omega)
  · refine congrArg Dec.ok ?_
    · congr 1
      all_goals first | exact gdOf_of rfl rfl | exact gOf_of (by dsimp only <;> omega) | exact bv_of (by dsimp only [low20, imm14] <;> omega) | exact intTyOf_of rfl

theorem xori (gd : Guard) (d : GReg) (a : GReg) (imm : BitVec 6) (t : IntTy) : Statement (.xori gd d a imm t) := by
  have f0 := bCode_lt gd.neg
  have f1 := gd.p.isLt
  have f2 := gCode_lt d
  have f3 := gCode_lt a
  have f4 := imm.isLt
  have f5 := intTyCode_lt t
  refine of_raw rfl ⟨?_, ?_, ?_, ?_, ?_, ?_, ?_, ?_, ?_⟩ fun hw => ?_
  iterate 9 (dsimp only; omega)
  · refine congrArg Dec.ok ?_
    · congr 1
      all_goals first | exact gdOf_of rfl rfl | exact gOf_of (by dsimp only <;> omega) | exact bv_of (by dsimp only [low20, imm14] <;> omega) | exact intTyOf_of rfl

theorem li (gd : Guard) (d : GReg) (imm : BitVec 14) : Statement (.li gd d imm) := by
  have f0 := bCode_lt gd.neg
  have f1 := gd.p.isLt
  have f2 := gCode_lt d
  have f3 := imm.isLt
  refine of_raw rfl ⟨?_, ?_, ?_, ?_, ?_, ?_, ?_, ?_, ?_⟩ fun hw => ?_
  iterate 9 (dsimp only; omega)
  · refine congrArg Dec.ok ?_
    · congr 1
      all_goals first | exact gdOf_of rfl rfl | exact gOf_of (by dsimp only <;> omega) | exact bv_of (by dsimp only [low20, imm14] <;> omega)

theorem lih (gd : Guard) (d : GReg) (imm : BitVec 14) : Statement (.lih gd d imm) := by
  have f0 := bCode_lt gd.neg
  have f1 := gd.p.isLt
  have f2 := gCode_lt d
  have f3 := imm.isLt
  refine of_raw rfl ⟨?_, ?_, ?_, ?_, ?_, ?_, ?_, ?_, ?_⟩ fun hw => ?_
  iterate 9 (dsimp only; omega)
  · refine congrArg Dec.ok ?_
    · congr 1
      all_goals first | exact gdOf_of rfl rfl | exact gOf_of (by dsimp only <;> omega) | exact bv_of (by dsimp only [low20, imm14] <;> omega)

theorem abs (gd : Guard) (d : GReg) (a : GReg) (t : IntTy) : Statement (.abs gd d a t) := by
  have f0 := bCode_lt gd.neg
  have f1 := gd.p.isLt
  have f2 := gCode_lt d
  have f3 := gCode_lt a
  have f4 := intTyCode_lt t
  refine of_raw rfl ⟨?_, ?_, ?_, ?_, ?_, ?_, ?_, ?_, ?_⟩ fun hw => ?_
  iterate 9 (dsimp only; omega)
  · refine congrArg Dec.ok ?_
    · congr 1
      all_goals first | exact gdOf_of rfl rfl | exact gOf_of (by dsimp only <;> omega) | exact intTyOf_of rfl

theorem neg (gd : Guard) (d : GReg) (a : GReg) (t : IntTy) : Statement (.neg gd d a t) := by
  have f0 := bCode_lt gd.neg
  have f1 := gd.p.isLt
  have f2 := gCode_lt d
  have f3 := gCode_lt a
  have f4 := intTyCode_lt t
  refine of_raw rfl ⟨?_, ?_, ?_, ?_, ?_, ?_, ?_, ?_, ?_⟩ fun hw => ?_
  iterate 9 (dsimp only; omega)
  · refine congrArg Dec.ok ?_
    · congr 1
      all_goals first | exact gdOf_of rfl rfl | exact gOf_of (by dsimp only <;> omega) | exact intTyOf_of rfl

theorem clz (gd : Guard) (d : GReg) (a : GReg) (t : IntTy) : Statement (.clz gd d a t) := by
  have f0 := bCode_lt gd.neg
  have f1 := gd.p.isLt
  have f2 := gCode_lt d
  have f3 := gCode_lt a
  have f4 := intTyCode_lt t
  refine of_raw rfl ⟨?_, ?_, ?_, ?_, ?_, ?_, ?_, ?_, ?_⟩ fun hw => ?_
  iterate 9 (dsimp only; omega)
  · refine congrArg Dec.ok ?_
    · congr 1
      all_goals first | exact gdOf_of rfl rfl | exact gOf_of (by dsimp only <;> omega) | exact intTyOf_of rfl

theorem ctz (gd : Guard) (d : GReg) (a : GReg) (t : IntTy) : Statement (.ctz gd d a t) := by
  have f0 := bCode_lt gd.neg
  have f1 := gd.p.isLt
  have f2 := gCode_lt d
  have f3 := gCode_lt a
  have f4 := intTyCode_lt t
  refine of_raw rfl ⟨?_, ?_, ?_, ?_, ?_, ?_, ?_, ?_, ?_⟩ fun hw => ?_
  iterate 9 (dsimp only; omega)
  · refine congrArg Dec.ok ?_
    · congr 1
      all_goals first | exact gdOf_of rfl rfl | exact gOf_of (by dsimp only <;> omega) | exact intTyOf_of rfl

theorem popc (gd : Guard) (d : GReg) (a : GReg) (t : IntTy) : Statement (.popc gd d a t) := by
  have f0 := bCode_lt gd.neg
  have f1 := gd.p.isLt
  have f2 := gCode_lt d
  have f3 := gCode_lt a
  have f4 := intTyCode_lt t
  refine of_raw rfl ⟨?_, ?_, ?_, ?_, ?_, ?_, ?_, ?_, ?_⟩ fun hw => ?_
  iterate 9 (dsimp only; omega)
  · refine congrArg Dec.ok ?_
    · congr 1
      all_goals first | exact gdOf_of rfl rfl | exact gOf_of (by dsimp only <;> omega) | exact intTyOf_of rfl

theorem brev (gd : Guard) (d : GReg) (a : GReg) (t : IntTy) : Statement (.brev gd d a t) := by
  have f0 := bCode_lt gd.neg
  have f1 := gd.p.isLt
  have f2 := gCode_lt d
  have f3 := gCode_lt a
  have f4 := intTyCode_lt t
  refine of_raw rfl ⟨?_, ?_, ?_, ?_, ?_, ?_, ?_, ?_, ?_⟩ fun hw => ?_
  iterate 9 (dsimp only; omega)
  · refine congrArg Dec.ok ?_
    · congr 1
      all_goals first | exact gdOf_of rfl rfl | exact gOf_of (by dsimp only <;> omega) | exact intTyOf_of rfl

theorem bfx (gd : Guard) (d : GReg) (a : GReg) (b : GReg) (t : IntTy) : Statement (.bfx gd d a b t) := by
  have f0 := bCode_lt gd.neg
  have f1 := gd.p.isLt
  have f2 := gCode_lt d
  have f3 := gCode_lt a
  have f4 := gCode_lt b
  have f5 := intTyCode_lt t
  refine of_raw rfl ⟨?_, ?_, ?_, ?_, ?_, ?_, ?_, ?_, ?_⟩ fun hw => ?_
  iterate 9 (dsimp only; omega)
  · refine congrArg Dec.ok ?_
    · congr 1
      all_goals first | exact gdOf_of rfl rfl | exact gOf_of (by dsimp only <;> omega) | exact intTyOf_of rfl

theorem bfi (gd : Guard) (d : GReg) (a : GReg) (b : GReg) (t : IntTy) : Statement (.bfi gd d a b t) := by
  have f0 := bCode_lt gd.neg
  have f1 := gd.p.isLt
  have f2 := gCode_lt d
  have f3 := gCode_lt a
  have f4 := gCode_lt b
  have f5 := intTyCode_lt t
  refine of_raw rfl ⟨?_, ?_, ?_, ?_, ?_, ?_, ?_, ?_, ?_⟩ fun hw => ?_
  iterate 9 (dsimp only; omega)
  · refine congrArg Dec.ok ?_
    · congr 1
      all_goals first | exact gdOf_of rfl rfl | exact gOf_of (by dsimp only <;> omega) | exact intTyOf_of rfl

theorem sel (gd : Guard) (d : GReg) (a : GReg) (b : GReg) (q : Fin 8) : Statement (.sel gd d a b q) := by
  have f0 := bCode_lt gd.neg
  have f1 := gd.p.isLt
  have f2 := gCode_lt d
  have f3 := gCode_lt a
  have f4 := gCode_lt b
  have f5 := q.isLt
  rcases (show q = ⟨0, by decide⟩ ∨ q = ⟨1, by decide⟩ ∨ q = ⟨2, by decide⟩ ∨ q = ⟨3, by decide⟩ ∨ q = ⟨4, by decide⟩ ∨ q = ⟨5, by decide⟩ ∨ q = ⟨6, by decide⟩ ∨ q = ⟨7, by decide⟩ by rcases q with ⟨n, hn⟩; simp only [Fin.mk.injEq]; omega) with rfl | rfl | rfl | rfl | rfl | rfl | rfl | rfl <;>
    (
      refine of_raw rfl ⟨?_, ?_, ?_, ?_, ?_, ?_, ?_, ?_, ?_⟩ fun hw => ?_
      iterate 9 (dsimp only [rmCode, scopeCode, Scope.rank, bCode_true, bCode_false, oscOn, oscCode, Nat.reduceMul, Nat.reduceAdd, Nat.reduceDiv, Nat.reduceMod] <;> omega)
      · simp only [decodeRaw, decodeA1, rmCode, scopeCode, Scope.rank, bCode_true, bCode_false, oscOn, oscCode, Nat.reduceMul, Nat.reduceAdd, Nat.reduceDiv, Nat.reduceMod, Nat.reduceLT, Nat.zero_mod, reduceIte]
        refine congrArg Dec.ok ?_
        · congr 1
          all_goals first | exact gdOf_of rfl rfl | exact gOf_of (by (try dsimp only) <;> omega) | exact fin8_of (by (try dsimp only [rmCode, scopeCode, Scope.rank, bCode_true, bCode_false, oscOn, oscCode, Nat.reduceMul, Nat.reduceAdd, Nat.reduceDiv, Nat.reduceMod, low20]) <;> omega))

theorem lea (gd : Guard) (d : GReg) (a : GReg) (b : GReg) (sh : Fin 4) : Statement (.lea gd d a b sh) := by
  have f0 := bCode_lt gd.neg
  have f1 := gd.p.isLt
  have f2 := gCode_lt d
  have f3 := gCode_lt a
  have f4 := gCode_lt b
  have f5 := sh.isLt
  refine of_raw rfl ⟨?_, ?_, ?_, ?_, ?_, ?_, ?_, ?_, ?_⟩ fun hw => ?_
  iterate 9 (dsimp only; omega)
  · refine congrArg Dec.ok ?_
    · congr 1
      all_goals first | exact gdOf_of rfl rfl | exact gOf_of (by dsimp only <;> omega) | exact fin4_of (by dsimp only [low20] <;> omega)

theorem cmp (gd : Guard) (c : ICC) (p : Fin 8) (a : GReg) (b : GReg) (t : IntTy) : Statement (.cmp gd c p a b t) := by
  have f0 := bCode_lt gd.neg
  have f1 := gd.p.isLt
  have f2 := iccCode_lt c
  have f3 := p.isLt
  have f4 := gCode_lt a
  have f5 := gCode_lt b
  have f6 := intTyCode_lt t
  refine of_raw rfl ⟨?_, ?_, ?_, ?_, ?_, ?_, ?_, ?_, ?_⟩ fun hw => ?_
  iterate 9 (dsimp only; omega)
  · refine checked1 ?_ ?_
    · try simp only [Bool.or_eq_false_iff]
      repeat' apply And.intro
      all_goals first | exact decide_eq_false (by (try dsimp only [rmF, rmV, scQ, low20]) <;> omega) | exact and_of (by (try dsimp only) <;> omega)
    · congr 1
      all_goals first | exact gdOf_of rfl rfl | exact iccOf_of (by dsimp only <;> omega) | exact fin8_of (by dsimp only [low20] <;> omega) | exact gOf_of (by dsimp only <;> omega) | exact intTyOf_of rfl

theorem pand (gd : Guard) (p : Fin 8) (a : Fin 8) (b : Fin 8) : Statement (.pand gd p a b) := by
  have f0 := bCode_lt gd.neg
  have f1 := gd.p.isLt
  have f2 := p.isLt
  have f3 := a.isLt
  have f4 := b.isLt
  refine of_raw rfl ⟨?_, ?_, ?_, ?_, ?_, ?_, ?_, ?_, ?_⟩ fun hw => ?_
  iterate 9 (dsimp only; omega)
  · refine checked1 ?_ ?_
    · try simp only [Bool.or_eq_false_iff]
      repeat' apply And.intro
      all_goals first | exact decide_eq_false (by (try dsimp only [rmF, rmV, scQ, low20]) <;> omega) | exact and_of (by (try dsimp only) <;> omega)
    · congr 1
      all_goals first | exact gdOf_of rfl rfl | exact fin8_of (by dsimp only [low20] <;> omega)

theorem por (gd : Guard) (p : Fin 8) (a : Fin 8) (b : Fin 8) : Statement (.por gd p a b) := by
  have f0 := bCode_lt gd.neg
  have f1 := gd.p.isLt
  have f2 := p.isLt
  have f3 := a.isLt
  have f4 := b.isLt
  refine of_raw rfl ⟨?_, ?_, ?_, ?_, ?_, ?_, ?_, ?_, ?_⟩ fun hw => ?_
  iterate 9 (dsimp only; omega)
  · refine checked1 ?_ ?_
    · try simp only [Bool.or_eq_false_iff]
      repeat' apply And.intro
      all_goals first | exact decide_eq_false (by (try dsimp only [rmF, rmV, scQ, low20]) <;> omega) | exact and_of (by (try dsimp only) <;> omega)
    · congr 1
      all_goals first | exact gdOf_of rfl rfl | exact fin8_of (by dsimp only [low20] <;> omega)

theorem pxor (gd : Guard) (p : Fin 8) (a : Fin 8) (b : Fin 8) : Statement (.pxor gd p a b) := by
  have f0 := bCode_lt gd.neg
  have f1 := gd.p.isLt
  have f2 := p.isLt
  have f3 := a.isLt
  have f4 := b.isLt
  refine of_raw rfl ⟨?_, ?_, ?_, ?_, ?_, ?_, ?_, ?_, ?_⟩ fun hw => ?_
  iterate 9 (dsimp only; omega)
  · refine checked1 ?_ ?_
    · try simp only [Bool.or_eq_false_iff]
      repeat' apply And.intro
      all_goals first | exact decide_eq_false (by (try dsimp only [rmF, rmV, scQ, low20]) <;> omega) | exact and_of (by (try dsimp only) <;> omega)
    · congr 1
      all_goals first | exact gdOf_of rfl rfl | exact fin8_of (by dsimp only [low20] <;> omega)

theorem pnot (gd : Guard) (p : Fin 8) (a : Fin 8) : Statement (.pnot gd p a) := by
  have f0 := bCode_lt gd.neg
  have f1 := gd.p.isLt
  have f2 := p.isLt
  have f3 := a.isLt
  refine of_raw rfl ⟨?_, ?_, ?_, ?_, ?_, ?_, ?_, ?_, ?_⟩ fun hw => ?_
  iterate 9 (dsimp only; omega)
  · refine checked1 ?_ ?_
    · try simp only [Bool.or_eq_false_iff]
      repeat' apply And.intro
      all_goals first | exact decide_eq_false (by (try dsimp only [rmF, rmV, scQ, low20]) <;> omega) | exact and_of (by (try dsimp only) <;> omega)
    · congr 1
      all_goals first | exact gdOf_of rfl rfl | exact fin8_of (by dsimp only [low20] <;> omega)

theorem voteSome (gd : Guard) (p : Fin 8) (a : Fin 8) : Statement (.voteSome gd p a) := by
  have f0 := bCode_lt gd.neg
  have f1 := gd.p.isLt
  have f2 := p.isLt
  have f3 := a.isLt
  refine of_raw rfl ⟨?_, ?_, ?_, ?_, ?_, ?_, ?_, ?_, ?_⟩ fun hw => ?_
  iterate 9 (dsimp only; omega)
  · refine checked1 ?_ ?_
    · try simp only [Bool.or_eq_false_iff]
      repeat' apply And.intro
      all_goals first | exact decide_eq_false (by (try dsimp only [rmF, rmV, scQ, low20]) <;> omega) | exact and_of (by (try dsimp only) <;> omega)
    · congr 1
      all_goals first | exact gdOf_of rfl rfl | exact fin8_of (by dsimp only [low20] <;> omega)

theorem voteEvery (gd : Guard) (p : Fin 8) (a : Fin 8) : Statement (.voteEvery gd p a) := by
  have f0 := bCode_lt gd.neg
  have f1 := gd.p.isLt
  have f2 := p.isLt
  have f3 := a.isLt
  refine of_raw rfl ⟨?_, ?_, ?_, ?_, ?_, ?_, ?_, ?_, ?_⟩ fun hw => ?_
  iterate 9 (dsimp only; omega)
  · refine checked1 ?_ ?_
    · try simp only [Bool.or_eq_false_iff]
      repeat' apply And.intro
      all_goals first | exact decide_eq_false (by (try dsimp only [rmF, rmV, scQ, low20]) <;> omega) | exact and_of (by (try dsimp only) <;> omega)
    · congr 1
      all_goals first | exact gdOf_of rfl rfl | exact fin8_of (by dsimp only [low20] <;> omega)

theorem voteAgree (gd : Guard) (p : Fin 8) (a : Fin 8) : Statement (.voteAgree gd p a) := by
  have f0 := bCode_lt gd.neg
  have f1 := gd.p.isLt
  have f2 := p.isLt
  have f3 := a.isLt
  refine of_raw rfl ⟨?_, ?_, ?_, ?_, ?_, ?_, ?_, ?_, ?_⟩ fun hw => ?_
  iterate 9 (dsimp only; omega)
  · refine checked1 ?_ ?_
    · try simp only [Bool.or_eq_false_iff]
      repeat' apply And.intro
      all_goals first | exact decide_eq_false (by (try dsimp only [rmF, rmV, scQ, low20]) <;> omega) | exact and_of (by (try dsimp only) <;> omega)
    · congr 1
      all_goals first | exact gdOf_of rfl rfl | exact fin8_of (by dsimp only [low20] <;> omega)

theorem ballot (gd : Guard) (d : GReg) (a : Fin 8) : Statement (.ballot gd d a) := by
  have f0 := bCode_lt gd.neg
  have f1 := gd.p.isLt
  have f2 := gCode_lt d
  have f3 := a.isLt
  refine of_raw rfl ⟨?_, ?_, ?_, ?_, ?_, ?_, ?_, ?_, ?_⟩ fun hw => ?_
  iterate 9 (dsimp only; omega)
  · refine checked1 ?_ ?_
    · try simp only [Bool.or_eq_false_iff]
      repeat' apply And.intro
      all_goals first | exact decide_eq_false (by (try dsimp only [rmF, rmV, scQ, low20]) <;> omega) | exact and_of (by (try dsimp only) <;> omega)
    · congr 1
      all_goals first | exact gdOf_of rfl rfl | exact gOf_of (by dsimp only <;> omega) | exact fin8_of (by dsimp only [low20] <;> omega)

theorem shflPick (gd : Guard) (d : GReg) (a : GReg) (b : GReg) : Statement (.shflPick gd d a b) := by
  have f0 := bCode_lt gd.neg
  have f1 := gd.p.isLt
  have f2 := gCode_lt d
  have f3 := gCode_lt a
  have f4 := gCode_lt b
  refine of_raw rfl ⟨?_, ?_, ?_, ?_, ?_, ?_, ?_, ?_, ?_⟩ fun hw => ?_
  iterate 9 (dsimp only; omega)
  · refine congrArg Dec.ok ?_
    · congr 1
      all_goals first | exact gdOf_of rfl rfl | exact gOf_of (by dsimp only <;> omega)

theorem shflLo (gd : Guard) (d : GReg) (a : GReg) (b : GReg) : Statement (.shflLo gd d a b) := by
  have f0 := bCode_lt gd.neg
  have f1 := gd.p.isLt
  have f2 := gCode_lt d
  have f3 := gCode_lt a
  have f4 := gCode_lt b
  refine of_raw rfl ⟨?_, ?_, ?_, ?_, ?_, ?_, ?_, ?_, ?_⟩ fun hw => ?_
  iterate 9 (dsimp only; omega)
  · refine congrArg Dec.ok ?_
    · congr 1
      all_goals first | exact gdOf_of rfl rfl | exact gOf_of (by dsimp only <;> omega)

theorem shflHi (gd : Guard) (d : GReg) (a : GReg) (b : GReg) : Statement (.shflHi gd d a b) := by
  have f0 := bCode_lt gd.neg
  have f1 := gd.p.isLt
  have f2 := gCode_lt d
  have f3 := gCode_lt a
  have f4 := gCode_lt b
  refine of_raw rfl ⟨?_, ?_, ?_, ?_, ?_, ?_, ?_, ?_, ?_⟩ fun hw => ?_
  iterate 9 (dsimp only; omega)
  · refine congrArg Dec.ok ?_
    · congr 1
      all_goals first | exact gdOf_of rfl rfl | exact gOf_of (by dsimp only <;> omega)

theorem shflMir (gd : Guard) (d : GReg) (a : GReg) (b : GReg) : Statement (.shflMir gd d a b) := by
  have f0 := bCode_lt gd.neg
  have f1 := gd.p.isLt
  have f2 := gCode_lt d
  have f3 := gCode_lt a
  have f4 := gCode_lt b
  refine of_raw rfl ⟨?_, ?_, ?_, ?_, ?_, ?_, ?_, ?_, ?_⟩ fun hw => ?_
  iterate 9 (dsimp only; omega)
  · refine congrArg Dec.ok ?_
    · congr 1
      all_goals first | exact gdOf_of rfl rfl | exact gOf_of (by dsimp only <;> omega)

theorem bcast (gd : Guard) (d : GReg) (a : GReg) (lane : Fin 16) : Statement (.bcast gd d a lane) := by
  have f0 := bCode_lt gd.neg
  have f1 := gd.p.isLt
  have f2 := gCode_lt d
  have f3 := gCode_lt a
  have f4 := lane.isLt
  refine of_raw rfl ⟨?_, ?_, ?_, ?_, ?_, ?_, ?_, ?_, ?_⟩ fun hw => ?_
  iterate 9 (dsimp only; omega)
  · refine checked2 ?_ ?_ ?_
    · try simp only [Bool.or_eq_false_iff]
      repeat' apply And.intro
      all_goals first | exact decide_eq_false (by (try dsimp only [rmF, rmV, scQ, low20]) <;> omega) | exact and_of (by (try dsimp only) <;> omega)
    · try simp only [Bool.or_eq_false_iff]
      repeat' apply And.intro
      all_goals first | exact decide_eq_false (by (try dsimp only [rmF, rmV, scQ, low20]) <;> omega) | exact and_of (by (try dsimp only) <;> omega)
    · congr 1
      all_goals first | exact gdOf_of rfl rfl | exact gOf_of (by dsimp only <;> omega) | exact fin16_of (by dsimp only [low20] <;> omega)

theorem fadd (gd : Guard) (r : Rm) (d : Fin 32) (a : Fin 32) (b : Fin 32) (f : FTy) : Statement (.fadd gd r d a b f) := by
  have f0 := bCode_lt gd.neg
  have f1 := gd.p.isLt
  have f2 := rmCode_lt r
  have f3 := d.isLt
  have f4 := a.isLt
  have f5 := b.isLt
  have f6 := fTyCode_lt f
  refine of_raw rfl ⟨?_, ?_, ?_, ?_, ?_, ?_, ?_, ?_, ?_⟩ fun hw => ?_
  iterate 9 (dsimp only; omega)
  · refine checked1 ?_ ?_
    · try simp only [Bool.or_eq_false_iff]
      repeat' apply And.intro
      all_goals first | exact decide_eq_false (by (try dsimp only [rmF, rmV, scQ, low20]) <;> omega) | exact and_of (by (try dsimp only) <;> omega)
    · congr 1
      all_goals first | exact gdOf_of rfl rfl | exact rmOf_of (by dsimp only [rmF, rmV, low20] <;> omega) | exact fin32_of (by dsimp only [low20] <;> omega) | exact fTyOf_of (by dsimp only <;> omega)

theorem fsub (gd : Guard) (r : Rm) (d : Fin 32) (a : Fin 32) (b : Fin 32) (f : FTy) : Statement (.fsub gd r d a b f) := by
  have f0 := bCode_lt gd.neg
  have f1 := gd.p.isLt
  have f2 := rmCode_lt r
  have f3 := d.isLt
  have f4 := a.isLt
  have f5 := b.isLt
  have f6 := fTyCode_lt f
  refine of_raw rfl ⟨?_, ?_, ?_, ?_, ?_, ?_, ?_, ?_, ?_⟩ fun hw => ?_
  iterate 9 (dsimp only; omega)
  · refine checked1 ?_ ?_
    · try simp only [Bool.or_eq_false_iff]
      repeat' apply And.intro
      all_goals first | exact decide_eq_false (by (try dsimp only [rmF, rmV, scQ, low20]) <;> omega) | exact and_of (by (try dsimp only) <;> omega)
    · congr 1
      all_goals first | exact gdOf_of rfl rfl | exact rmOf_of (by dsimp only [rmF, rmV, low20] <;> omega) | exact fin32_of (by dsimp only [low20] <;> omega) | exact fTyOf_of (by dsimp only <;> omega)

theorem fmul (gd : Guard) (r : Rm) (d : Fin 32) (a : Fin 32) (b : Fin 32) (f : FTy) : Statement (.fmul gd r d a b f) := by
  have f0 := bCode_lt gd.neg
  have f1 := gd.p.isLt
  have f2 := rmCode_lt r
  have f3 := d.isLt
  have f4 := a.isLt
  have f5 := b.isLt
  have f6 := fTyCode_lt f
  refine of_raw rfl ⟨?_, ?_, ?_, ?_, ?_, ?_, ?_, ?_, ?_⟩ fun hw => ?_
  iterate 9 (dsimp only; omega)
  · refine checked1 ?_ ?_
    · try simp only [Bool.or_eq_false_iff]
      repeat' apply And.intro
      all_goals first | exact decide_eq_false (by (try dsimp only [rmF, rmV, scQ, low20]) <;> omega) | exact and_of (by (try dsimp only) <;> omega)
    · congr 1
      all_goals first | exact gdOf_of rfl rfl | exact rmOf_of (by dsimp only [rmF, rmV, low20] <;> omega) | exact fin32_of (by dsimp only [low20] <;> omega) | exact fTyOf_of (by dsimp only <;> omega)

theorem fma (gd : Guard) (r : Rm) (d : Fin 32) (a : Fin 32) (b : Fin 32) (f : FTy) : Statement (.fma gd r d a b f) := by
  have f0 := bCode_lt gd.neg
  have f1 := gd.p.isLt
  have f2 := rmCode_lt r
  have f3 := d.isLt
  have f4 := a.isLt
  have f5 := b.isLt
  have f6 := fTyCode_lt f
  refine of_raw rfl ⟨?_, ?_, ?_, ?_, ?_, ?_, ?_, ?_, ?_⟩ fun hw => ?_
  iterate 9 (dsimp only; omega)
  · refine checked1 ?_ ?_
    · try simp only [Bool.or_eq_false_iff]
      repeat' apply And.intro
      all_goals first | exact decide_eq_false (by (try dsimp only [rmF, rmV, scQ, low20]) <;> omega) | exact and_of (by (try dsimp only) <;> omega)
    · congr 1
      all_goals first | exact gdOf_of rfl rfl | exact rmOf_of (by dsimp only [rmF, rmV, low20] <;> omega) | exact fin32_of (by dsimp only [low20] <;> omega) | exact fTyOf_of (by dsimp only <;> omega)

theorem fmin (gd : Guard) (d : Fin 32) (a : Fin 32) (b : Fin 32) (f : FTy) : Statement (.fmin gd d a b f) := by
  have f0 := bCode_lt gd.neg
  have f1 := gd.p.isLt
  have f2 := d.isLt
  have f3 := a.isLt
  have f4 := b.isLt
  have f5 := fTyCode_lt f
  refine of_raw rfl ⟨?_, ?_, ?_, ?_, ?_, ?_, ?_, ?_, ?_⟩ fun hw => ?_
  iterate 9 (dsimp only; omega)
  · refine checked1 ?_ ?_
    · try simp only [Bool.or_eq_false_iff]
      repeat' apply And.intro
      all_goals first | exact decide_eq_false (by (try dsimp only [rmF, rmV, scQ, low20]) <;> omega) | exact and_of (by (try dsimp only) <;> omega)
    · congr 1
      all_goals first | exact gdOf_of rfl rfl | exact fin32_of (by dsimp only [low20] <;> omega) | exact fTyOf_of (by dsimp only <;> omega)

theorem fmax (gd : Guard) (d : Fin 32) (a : Fin 32) (b : Fin 32) (f : FTy) : Statement (.fmax gd d a b f) := by
  have f0 := bCode_lt gd.neg
  have f1 := gd.p.isLt
  have f2 := d.isLt
  have f3 := a.isLt
  have f4 := b.isLt
  have f5 := fTyCode_lt f
  refine of_raw rfl ⟨?_, ?_, ?_, ?_, ?_, ?_, ?_, ?_, ?_⟩ fun hw => ?_
  iterate 9 (dsimp only; omega)
  · refine checked1 ?_ ?_
    · try simp only [Bool.or_eq_false_iff]
      repeat' apply And.intro
      all_goals first | exact decide_eq_false (by (try dsimp only [rmF, rmV, scQ, low20]) <;> omega) | exact and_of (by (try dsimp only) <;> omega)
    · congr 1
      all_goals first | exact gdOf_of rfl rfl | exact fin32_of (by dsimp only [low20] <;> omega) | exact fTyOf_of (by dsimp only <;> omega)

theorem fdiv (gd : Guard) (r : Rm) (d : Fin 32) (a : Fin 32) (b : Fin 32) (f : FTy) : Statement (.fdiv gd r d a b f) := by
  have f0 := bCode_lt gd.neg
  have f1 := gd.p.isLt
  have f2 := rmCode_lt r
  have f3 := d.isLt
  have f4 := a.isLt
  have f5 := b.isLt
  have f6 := fTyCode_lt f
  refine of_raw rfl ⟨?_, ?_, ?_, ?_, ?_, ?_, ?_, ?_, ?_⟩ fun hw => ?_
  iterate 9 (dsimp only; omega)
  · refine checked1 ?_ ?_
    · try simp only [Bool.or_eq_false_iff]
      repeat' apply And.intro
      all_goals first | exact decide_eq_false (by (try dsimp only [rmF, rmV, scQ, low20]) <;> omega) | exact and_of (by (try dsimp only) <;> omega)
    · congr 1
      all_goals first | exact gdOf_of rfl rfl | exact rmOf_of (by dsimp only [rmF, rmV, low20] <;> omega) | exact fin32_of (by dsimp only [low20] <;> omega) | exact fTyOf_of (by dsimp only <;> omega)

theorem fsqrt (gd : Guard) (r : Rm) (d : Fin 32) (a : Fin 32) (f : FTy) : Statement (.fsqrt gd r d a f) := by
  have f0 := bCode_lt gd.neg
  have f1 := gd.p.isLt
  have f2 := rmCode_lt r
  have f3 := d.isLt
  have f4 := a.isLt
  have f5 := fTyCode_lt f
  cases r <;>
    (
      refine of_raw rfl ⟨?_, ?_, ?_, ?_, ?_, ?_, ?_, ?_, ?_⟩ fun hw => ?_
      iterate 9 (dsimp only [rmCode, scopeCode, Scope.rank, bCode_true, bCode_false, oscOn, oscCode, Nat.reduceMul, Nat.reduceAdd, Nat.reduceDiv, Nat.reduceMod] <;> omega)
      · simp only [decodeRaw, decodeA2, rmCode, scopeCode, Scope.rank, bCode_true, bCode_false, oscOn, oscCode, Nat.reduceMul, Nat.reduceAdd, Nat.reduceDiv, Nat.reduceMod, Nat.reduceLT, Nat.zero_mod, reduceIte]
        refine checked1 ?_ ?_
        · try simp only [Bool.or_eq_false_iff]
          repeat' apply And.intro
          all_goals first | exact decide_eq_false (by (try dsimp only [rmCode, scopeCode, Scope.rank, bCode_true, bCode_false, oscOn, oscCode, Nat.reduceMul, Nat.reduceAdd, Nat.reduceDiv, Nat.reduceMod, rmF, rmV, scQ, low20]) <;> omega) | exact and_of (by (try dsimp only) <;> omega)
        · congr 1
          all_goals first | exact gdOf_of rfl rfl | exact rmOf_of (by (try dsimp only [rmCode, scopeCode, Scope.rank, bCode_true, bCode_false, oscOn, oscCode, Nat.reduceMul, Nat.reduceAdd, Nat.reduceDiv, Nat.reduceMod, rmF, rmV, low20]) <;> omega) | exact fin32_of (by (try dsimp only [rmCode, scopeCode, Scope.rank, bCode_true, bCode_false, oscOn, oscCode, Nat.reduceMul, Nat.reduceAdd, Nat.reduceDiv, Nat.reduceMod, low20]) <;> omega) | exact fTyOf_of (by (try dsimp only) <;> omega))

theorem fabs (gd : Guard) (d : Fin 32) (a : Fin 32) (f : FTy) : Statement (.fabs gd d a f) := by
  have f0 := bCode_lt gd.neg
  have f1 := gd.p.isLt
  have f2 := d.isLt
  have f3 := a.isLt
  have f4 := fTyCode_lt f
  refine of_raw rfl ⟨?_, ?_, ?_, ?_, ?_, ?_, ?_, ?_, ?_⟩ fun hw => ?_
  iterate 9 (dsimp only; omega)
  · refine checked1 ?_ ?_
    · try simp only [Bool.or_eq_false_iff]
      repeat' apply And.intro
      all_goals first | exact decide_eq_false (by (try dsimp only [rmF, rmV, scQ, low20]) <;> omega) | exact and_of (by (try dsimp only) <;> omega)
    · congr 1
      all_goals first | exact gdOf_of rfl rfl | exact fin32_of (by dsimp only [low20] <;> omega) | exact fTyOf_of (by dsimp only <;> omega)

theorem fneg (gd : Guard) (d : Fin 32) (a : Fin 32) (f : FTy) : Statement (.fneg gd d a f) := by
  have f0 := bCode_lt gd.neg
  have f1 := gd.p.isLt
  have f2 := d.isLt
  have f3 := a.isLt
  have f4 := fTyCode_lt f
  refine of_raw rfl ⟨?_, ?_, ?_, ?_, ?_, ?_, ?_, ?_, ?_⟩ fun hw => ?_
  iterate 9 (dsimp only; omega)
  · refine checked1 ?_ ?_
    · try simp only [Bool.or_eq_false_iff]
      repeat' apply And.intro
      all_goals first | exact decide_eq_false (by (try dsimp only [rmF, rmV, scQ, low20]) <;> omega) | exact and_of (by (try dsimp only) <;> omega)
    · congr 1
      all_goals first | exact gdOf_of rfl rfl | exact fin32_of (by dsimp only [low20] <;> omega) | exact fTyOf_of (by dsimp only <;> omega)

theorem fcmp (gd : Guard) (c : CC) (p : Fin 8) (a : Fin 32) (b : Fin 32) (f : FTy) : Statement (.fcmp gd c p a b f) := by
  have f0 := bCode_lt gd.neg
  have f1 := gd.p.isLt
  have f2 := ccCode_lt c
  have f3 := p.isLt
  have f4 := a.isLt
  have f5 := b.isLt
  have f6 := fTyCode_lt f
  refine of_raw rfl ⟨?_, ?_, ?_, ?_, ?_, ?_, ?_, ?_, ?_⟩ fun hw => ?_
  iterate 9 (dsimp only; omega)
  · refine checked1 ?_ ?_
    · try simp only [Bool.or_eq_false_iff]
      repeat' apply And.intro
      all_goals first | exact decide_eq_false (by (try dsimp only [rmF, rmV, scQ, low20]) <;> omega) | exact and_of (by (try dsimp only) <;> omega)
    · congr 1
      all_goals first | exact gdOf_of rfl rfl | exact ccOf_of (by dsimp only <;> omega) | exact fin8_of (by dsimp only [low20] <;> omega) | exact fin32_of (by dsimp only [low20] <;> omega) | exact fTyOf_of (by dsimp only <;> omega)

theorem vadd (gd : Guard) (r : Rm) (d : Fin 16) (a : Fin 16) (b : Fin 16) (e : FTy) : Statement (.vadd gd r d a b e) := by
  have f0 := bCode_lt gd.neg
  have f1 := gd.p.isLt
  have f2 := rmCode_lt r
  have f3 := d.isLt
  have f4 := a.isLt
  have f5 := b.isLt
  have f6 := fTyCode_lt e
  refine of_raw rfl ⟨?_, ?_, ?_, ?_, ?_, ?_, ?_, ?_, ?_⟩ fun hw => ?_
  iterate 9 (dsimp only; omega)
  · refine checked3 ?_ ?_ ?_ ?_
    · try simp only [Bool.or_eq_false_iff]
      repeat' apply And.intro
      all_goals first | exact decide_eq_false (by (try dsimp only [rmF, rmV, scQ, low20]) <;> omega) | exact and_of (by (try dsimp only) <;> omega)
    · try simp only [Bool.or_eq_false_iff]
      repeat' apply And.intro
      all_goals first | exact decide_eq_false (by (try dsimp only [rmF, rmV, scQ, low20]) <;> omega) | exact and_of (by (try dsimp only) <;> omega)
    · try simp only [Bool.or_eq_false_iff]
      repeat' apply And.intro
      all_goals first | exact decide_eq_false (by (try dsimp only [rmF, rmV, scQ, low20]) <;> omega) | exact and_of (by (try dsimp only) <;> omega)
    · congr 1
      all_goals first | exact gdOf_of rfl rfl | exact rmOf_of (by dsimp only [rmF, rmV, low20] <;> omega) | exact fin16_of (by dsimp only [low20] <;> omega) | exact fTyOf_of (by dsimp only <;> omega)

theorem vsub (gd : Guard) (r : Rm) (d : Fin 16) (a : Fin 16) (b : Fin 16) (e : FTy) : Statement (.vsub gd r d a b e) := by
  have f0 := bCode_lt gd.neg
  have f1 := gd.p.isLt
  have f2 := rmCode_lt r
  have f3 := d.isLt
  have f4 := a.isLt
  have f5 := b.isLt
  have f6 := fTyCode_lt e
  refine of_raw rfl ⟨?_, ?_, ?_, ?_, ?_, ?_, ?_, ?_, ?_⟩ fun hw => ?_
  iterate 9 (dsimp only; omega)
  · refine checked3 ?_ ?_ ?_ ?_
    · try simp only [Bool.or_eq_false_iff]
      repeat' apply And.intro
      all_goals first | exact decide_eq_false (by (try dsimp only [rmF, rmV, scQ, low20]) <;> omega) | exact and_of (by (try dsimp only) <;> omega)
    · try simp only [Bool.or_eq_false_iff]
      repeat' apply And.intro
      all_goals first | exact decide_eq_false (by (try dsimp only [rmF, rmV, scQ, low20]) <;> omega) | exact and_of (by (try dsimp only) <;> omega)
    · try simp only [Bool.or_eq_false_iff]
      repeat' apply And.intro
      all_goals first | exact decide_eq_false (by (try dsimp only [rmF, rmV, scQ, low20]) <;> omega) | exact and_of (by (try dsimp only) <;> omega)
    · congr 1
      all_goals first | exact gdOf_of rfl rfl | exact rmOf_of (by dsimp only [rmF, rmV, low20] <;> omega) | exact fin16_of (by dsimp only [low20] <;> omega) | exact fTyOf_of (by dsimp only <;> omega)

theorem vmul (gd : Guard) (r : Rm) (d : Fin 16) (a : Fin 16) (b : Fin 16) (e : FTy) : Statement (.vmul gd r d a b e) := by
  have f0 := bCode_lt gd.neg
  have f1 := gd.p.isLt
  have f2 := rmCode_lt r
  have f3 := d.isLt
  have f4 := a.isLt
  have f5 := b.isLt
  have f6 := fTyCode_lt e
  refine of_raw rfl ⟨?_, ?_, ?_, ?_, ?_, ?_, ?_, ?_, ?_⟩ fun hw => ?_
  iterate 9 (dsimp only; omega)
  · refine checked3 ?_ ?_ ?_ ?_
    · try simp only [Bool.or_eq_false_iff]
      repeat' apply And.intro
      all_goals first | exact decide_eq_false (by (try dsimp only [rmF, rmV, scQ, low20]) <;> omega) | exact and_of (by (try dsimp only) <;> omega)
    · try simp only [Bool.or_eq_false_iff]
      repeat' apply And.intro
      all_goals first | exact decide_eq_false (by (try dsimp only [rmF, rmV, scQ, low20]) <;> omega) | exact and_of (by (try dsimp only) <;> omega)
    · try simp only [Bool.or_eq_false_iff]
      repeat' apply And.intro
      all_goals first | exact decide_eq_false (by (try dsimp only [rmF, rmV, scQ, low20]) <;> omega) | exact and_of (by (try dsimp only) <;> omega)
    · congr 1
      all_goals first | exact gdOf_of rfl rfl | exact rmOf_of (by dsimp only [rmF, rmV, low20] <;> omega) | exact fin16_of (by dsimp only [low20] <;> omega) | exact fTyOf_of (by dsimp only <;> omega)

theorem vfma (gd : Guard) (r : Rm) (d : Fin 16) (a : Fin 16) (b : Fin 16) (e : FTy) : Statement (.vfma gd r d a b e) := by
  have f0 := bCode_lt gd.neg
  have f1 := gd.p.isLt
  have f2 := rmCode_lt r
  have f3 := d.isLt
  have f4 := a.isLt
  have f5 := b.isLt
  have f6 := fTyCode_lt e
  refine of_raw rfl ⟨?_, ?_, ?_, ?_, ?_, ?_, ?_, ?_, ?_⟩ fun hw => ?_
  iterate 9 (dsimp only; omega)
  · refine checked3 ?_ ?_ ?_ ?_
    · try simp only [Bool.or_eq_false_iff]
      repeat' apply And.intro
      all_goals first | exact decide_eq_false (by (try dsimp only [rmF, rmV, scQ, low20]) <;> omega) | exact and_of (by (try dsimp only) <;> omega)
    · try simp only [Bool.or_eq_false_iff]
      repeat' apply And.intro
      all_goals first | exact decide_eq_false (by (try dsimp only [rmF, rmV, scQ, low20]) <;> omega) | exact and_of (by (try dsimp only) <;> omega)
    · try simp only [Bool.or_eq_false_iff]
      repeat' apply And.intro
      all_goals first | exact decide_eq_false (by (try dsimp only [rmF, rmV, scQ, low20]) <;> omega) | exact and_of (by (try dsimp only) <;> omega)
    · congr 1
      all_goals first | exact gdOf_of rfl rfl | exact rmOf_of (by dsimp only [rmF, rmV, low20] <;> omega) | exact fin16_of (by dsimp only [low20] <;> omega) | exact fTyOf_of (by dsimp only <;> omega)

theorem vmin (gd : Guard) (d : Fin 16) (a : Fin 16) (b : Fin 16) (e : FTy) : Statement (.vmin gd d a b e) := by
  have f0 := bCode_lt gd.neg
  have f1 := gd.p.isLt
  have f2 := d.isLt
  have f3 := a.isLt
  have f4 := b.isLt
  have f5 := fTyCode_lt e
  refine of_raw rfl ⟨?_, ?_, ?_, ?_, ?_, ?_, ?_, ?_, ?_⟩ fun hw => ?_
  iterate 9 (dsimp only; omega)
  · refine checked2 ?_ ?_ ?_
    · try simp only [Bool.or_eq_false_iff]
      repeat' apply And.intro
      all_goals first | exact decide_eq_false (by (try dsimp only [rmF, rmV, scQ, low20]) <;> omega) | exact and_of (by (try dsimp only) <;> omega)
    · try simp only [Bool.or_eq_false_iff]
      repeat' apply And.intro
      all_goals first | exact decide_eq_false (by (try dsimp only [rmF, rmV, scQ, low20]) <;> omega) | exact and_of (by (try dsimp only) <;> omega)
    · congr 1
      all_goals first | exact gdOf_of rfl rfl | exact fin16_of (by dsimp only [low20] <;> omega) | exact fTyOf_of (by dsimp only <;> omega)

theorem vmax (gd : Guard) (d : Fin 16) (a : Fin 16) (b : Fin 16) (e : FTy) : Statement (.vmax gd d a b e) := by
  have f0 := bCode_lt gd.neg
  have f1 := gd.p.isLt
  have f2 := d.isLt
  have f3 := a.isLt
  have f4 := b.isLt
  have f5 := fTyCode_lt e
  refine of_raw rfl ⟨?_, ?_, ?_, ?_, ?_, ?_, ?_, ?_, ?_⟩ fun hw => ?_
  iterate 9 (dsimp only; omega)
  · refine checked2 ?_ ?_ ?_
    · try simp only [Bool.or_eq_false_iff]
      repeat' apply And.intro
      all_goals first | exact decide_eq_false (by (try dsimp only [rmF, rmV, scQ, low20]) <;> omega) | exact and_of (by (try dsimp only) <;> omega)
    · try simp only [Bool.or_eq_false_iff]
      repeat' apply And.intro
      all_goals first | exact decide_eq_false (by (try dsimp only [rmF, rmV, scQ, low20]) <;> omega) | exact and_of (by (try dsimp only) <;> omega)
    · congr 1
      all_goals first | exact gdOf_of rfl rfl | exact fin16_of (by dsimp only [low20] <;> omega) | exact fTyOf_of (by dsimp only <;> omega)

theorem vabs (gd : Guard) (d : Fin 16) (a : Fin 16) (e : FTy) : Statement (.vabs gd d a e) := by
  have f0 := bCode_lt gd.neg
  have f1 := gd.p.isLt
  have f2 := d.isLt
  have f3 := a.isLt
  have f4 := fTyCode_lt e
  refine of_raw rfl ⟨?_, ?_, ?_, ?_, ?_, ?_, ?_, ?_, ?_⟩ fun hw => ?_
  iterate 9 (dsimp only; omega)
  · refine checked1 ?_ ?_
    · try simp only [Bool.or_eq_false_iff]
      repeat' apply And.intro
      all_goals first | exact decide_eq_false (by (try dsimp only [rmF, rmV, scQ, low20]) <;> omega) | exact and_of (by (try dsimp only) <;> omega)
    · congr 1
      all_goals first | exact gdOf_of rfl rfl | exact fin16_of (by dsimp only [low20] <;> omega) | exact fTyOf_of (by dsimp only <;> omega)

theorem vneg (gd : Guard) (d : Fin 16) (a : Fin 16) (e : FTy) : Statement (.vneg gd d a e) := by
  have f0 := bCode_lt gd.neg
  have f1 := gd.p.isLt
  have f2 := d.isLt
  have f3 := a.isLt
  have f4 := fTyCode_lt e
  refine of_raw rfl ⟨?_, ?_, ?_, ?_, ?_, ?_, ?_, ?_, ?_⟩ fun hw => ?_
  iterate 9 (dsimp only; omega)
  · refine checked1 ?_ ?_
    · try simp only [Bool.or_eq_false_iff]
      repeat' apply And.intro
      all_goals first | exact decide_eq_false (by (try dsimp only [rmF, rmV, scQ, low20]) <;> omega) | exact and_of (by (try dsimp only) <;> omega)
    · congr 1
      all_goals first | exact gdOf_of rfl rfl | exact fin16_of (by dsimp only [low20] <;> omega) | exact fTyOf_of (by dsimp only <;> omega)

theorem vrcp (gd : Guard) (d : Fin 16) (a : Fin 16) (e : FTy) : Statement (.vrcp gd d a e) := by
  have f0 := bCode_lt gd.neg
  have f1 := gd.p.isLt
  have f2 := d.isLt
  have f3 := a.isLt
  have f4 := fTyCode_lt e
  refine of_raw rfl ⟨?_, ?_, ?_, ?_, ?_, ?_, ?_, ?_, ?_⟩ fun hw => ?_
  iterate 9 (dsimp only; omega)
  · refine checked2 ?_ ?_ ?_
    · try simp only [Bool.or_eq_false_iff]
      repeat' apply And.intro
      all_goals first | exact decide_eq_false (by (try dsimp only [rmF, rmV, scQ, low20]) <;> omega) | exact and_of (by (try dsimp only) <;> omega)
    · try simp only [Bool.or_eq_false_iff]
      repeat' apply And.intro
      all_goals first | exact decide_eq_false (by (try dsimp only [rmF, rmV, scQ, low20]) <;> omega) | exact and_of (by (try dsimp only) <;> omega)
    · congr 1
      all_goals first | exact gdOf_of rfl rfl | exact fin16_of (by dsimp only [low20] <;> omega) | exact fTyOf_of (by dsimp only <;> omega)

theorem vrsq (gd : Guard) (d : Fin 16) (a : Fin 16) (e : FTy) : Statement (.vrsq gd d a e) := by
  have f0 := bCode_lt gd.neg
  have f1 := gd.p.isLt
  have f2 := d.isLt
  have f3 := a.isLt
  have f4 := fTyCode_lt e
  refine of_raw rfl ⟨?_, ?_, ?_, ?_, ?_, ?_, ?_, ?_, ?_⟩ fun hw => ?_
  iterate 9 (dsimp only; omega)
  · refine checked2 ?_ ?_ ?_
    · try simp only [Bool.or_eq_false_iff]
      repeat' apply And.intro
      all_goals first | exact decide_eq_false (by (try dsimp only [rmF, rmV, scQ, low20]) <;> omega) | exact and_of (by (try dsimp only) <;> omega)
    · try simp only [Bool.or_eq_false_iff]
      repeat' apply And.intro
      all_goals first | exact decide_eq_false (by (try dsimp only [rmF, rmV, scQ, low20]) <;> omega) | exact and_of (by (try dsimp only) <;> omega)
    · congr 1
      all_goals first | exact gdOf_of rfl rfl | exact fin16_of (by dsimp only [low20] <;> omega) | exact fTyOf_of (by dsimp only <;> omega)

theorem vsqrt (gd : Guard) (d : Fin 16) (a : Fin 16) (e : FTy) : Statement (.vsqrt gd d a e) := by
  have f0 := bCode_lt gd.neg
  have f1 := gd.p.isLt
  have f2 := d.isLt
  have f3 := a.isLt
  have f4 := fTyCode_lt e
  refine of_raw rfl ⟨?_, ?_, ?_, ?_, ?_, ?_, ?_, ?_, ?_⟩ fun hw => ?_
  iterate 9 (dsimp only; omega)
  · refine checked2 ?_ ?_ ?_
    · try simp only [Bool.or_eq_false_iff]
      repeat' apply And.intro
      all_goals first | exact decide_eq_false (by (try dsimp only [rmF, rmV, scQ, low20]) <;> omega) | exact and_of (by (try dsimp only) <;> omega)
    · try simp only [Bool.or_eq_false_iff]
      repeat' apply And.intro
      all_goals first | exact decide_eq_false (by (try dsimp only [rmF, rmV, scQ, low20]) <;> omega) | exact and_of (by (try dsimp only) <;> omega)
    · congr 1
      all_goals first | exact gdOf_of rfl rfl | exact fin16_of (by dsimp only [low20] <;> omega) | exact fTyOf_of (by dsimp only <;> omega)

theorem vexp2 (gd : Guard) (d : Fin 16) (a : Fin 16) (e : FTy) : Statement (.vexp2 gd d a e) := by
  have f0 := bCode_lt gd.neg
  have f1 := gd.p.isLt
  have f2 := d.isLt
  have f3 := a.isLt
  have f4 := fTyCode_lt e
  refine of_raw rfl ⟨?_, ?_, ?_, ?_, ?_, ?_, ?_, ?_, ?_⟩ fun hw => ?_
  iterate 9 (dsimp only; omega)
  · refine checked2 ?_ ?_ ?_
    · try simp only [Bool.or_eq_false_iff]
      repeat' apply And.intro
      all_goals first | exact decide_eq_false (by (try dsimp only [rmF, rmV, scQ, low20]) <;> omega) | exact and_of (by (try dsimp only) <;> omega)
    · try simp only [Bool.or_eq_false_iff]
      repeat' apply And.intro
      all_goals first | exact decide_eq_false (by (try dsimp only [rmF, rmV, scQ, low20]) <;> omega) | exact and_of (by (try dsimp only) <;> omega)
    · congr 1
      all_goals first | exact gdOf_of rfl rfl | exact fin16_of (by dsimp only [low20] <;> omega) | exact fTyOf_of (by dsimp only <;> omega)

theorem vlog2 (gd : Guard) (d : Fin 16) (a : Fin 16) (e : FTy) : Statement (.vlog2 gd d a e) := by
  have f0 := bCode_lt gd.neg
  have f1 := gd.p.isLt
  have f2 := d.isLt
  have f3 := a.isLt
  have f4 := fTyCode_lt e
  refine of_raw rfl ⟨?_, ?_, ?_, ?_, ?_, ?_, ?_, ?_, ?_⟩ fun hw => ?_
  iterate 9 (dsimp only; omega)
  · refine checked2 ?_ ?_ ?_
    · try simp only [Bool.or_eq_false_iff]
      repeat' apply And.intro
      all_goals first | exact decide_eq_false (by (try dsimp only [rmF, rmV, scQ, low20]) <;> omega) | exact and_of (by (try dsimp only) <;> omega)
    · try simp only [Bool.or_eq_false_iff]
      repeat' apply And.intro
      all_goals first | exact decide_eq_false (by (try dsimp only [rmF, rmV, scQ, low20]) <;> omega) | exact and_of (by (try dsimp only) <;> omega)
    · congr 1
      all_goals first | exact gdOf_of rfl rfl | exact fin16_of (by dsimp only [low20] <;> omega) | exact fTyOf_of (by dsimp only <;> omega)

theorem vsin (gd : Guard) (d : Fin 16) (a : Fin 16) (e : FTy) : Statement (.vsin gd d a e) := by
  have f0 := bCode_lt gd.neg
  have f1 := gd.p.isLt
  have f2 := d.isLt
  have f3 := a.isLt
  have f4 := fTyCode_lt e
  refine of_raw rfl ⟨?_, ?_, ?_, ?_, ?_, ?_, ?_, ?_, ?_⟩ fun hw => ?_
  iterate 9 (dsimp only; omega)
  · refine checked2 ?_ ?_ ?_
    · try simp only [Bool.or_eq_false_iff]
      repeat' apply And.intro
      all_goals first | exact decide_eq_false (by (try dsimp only [rmF, rmV, scQ, low20]) <;> omega) | exact and_of (by (try dsimp only) <;> omega)
    · try simp only [Bool.or_eq_false_iff]
      repeat' apply And.intro
      all_goals first | exact decide_eq_false (by (try dsimp only [rmF, rmV, scQ, low20]) <;> omega) | exact and_of (by (try dsimp only) <;> omega)
    · congr 1
      all_goals first | exact gdOf_of rfl rfl | exact fin16_of (by dsimp only [low20] <;> omega) | exact fTyOf_of (by dsimp only <;> omega)

theorem vcos (gd : Guard) (d : Fin 16) (a : Fin 16) (e : FTy) : Statement (.vcos gd d a e) := by
  have f0 := bCode_lt gd.neg
  have f1 := gd.p.isLt
  have f2 := d.isLt
  have f3 := a.isLt
  have f4 := fTyCode_lt e
  refine of_raw rfl ⟨?_, ?_, ?_, ?_, ?_, ?_, ?_, ?_, ?_⟩ fun hw => ?_
  iterate 9 (dsimp only; omega)
  · refine checked2 ?_ ?_ ?_
    · try simp only [Bool.or_eq_false_iff]
      repeat' apply And.intro
      all_goals first | exact decide_eq_false (by (try dsimp only [rmF, rmV, scQ, low20]) <;> omega) | exact and_of (by (try dsimp only) <;> omega)
    · try simp only [Bool.or_eq_false_iff]
      repeat' apply And.intro
      all_goals first | exact decide_eq_false (by (try dsimp only [rmF, rmV, scQ, low20]) <;> omega) | exact and_of (by (try dsimp only) <;> omega)
    · congr 1
      all_goals first | exact gdOf_of rfl rfl | exact fin16_of (by dsimp only [low20] <;> omega) | exact fTyOf_of (by dsimp only <;> omega)

theorem vcmp (gd : Guard) (c : CC) (d : Fin 16) (a : Fin 16) (b : Fin 16) (e : FTy) : Statement (.vcmp gd c d a b e) := by
  have f0 := bCode_lt gd.neg
  have f1 := gd.p.isLt
  have f2 := ccCode_lt c
  have f3 := d.isLt
  have f4 := a.isLt
  have f5 := b.isLt
  have f6 := fTyCode_lt e
  refine of_raw rfl ⟨?_, ?_, ?_, ?_, ?_, ?_, ?_, ?_, ?_⟩ fun hw => ?_
  iterate 9 (dsimp only; omega)
  · refine checked1 ?_ ?_
    · try simp only [Bool.or_eq_false_iff]
      repeat' apply And.intro
      all_goals first | exact decide_eq_false (by (try dsimp only [rmF, rmV, scQ, low20]) <;> omega) | exact and_of (by (try dsimp only) <;> omega)
    · congr 1
      all_goals first | exact gdOf_of rfl rfl | exact ccOf_of (by dsimp only <;> omega) | exact fin16_of (by dsimp only [low20] <;> omega) | exact fTyOf_of (by dsimp only <;> omega)

theorem vsel (gd : Guard) (d : Fin 16) (a : Fin 16) (b : Fin 16) : Statement (.vsel gd d a b) := by
  have f0 := bCode_lt gd.neg
  have f1 := gd.p.isLt
  have f2 := d.isLt
  have f3 := a.isLt
  have f4 := b.isLt
  refine of_raw rfl ⟨?_, ?_, ?_, ?_, ?_, ?_, ?_, ?_, ?_⟩ fun hw => ?_
  iterate 9 (dsimp only; omega)
  · refine checked2 ?_ ?_ ?_
    · try simp only [Bool.or_eq_false_iff]
      repeat' apply And.intro
      all_goals first | exact decide_eq_false (by (try dsimp only [rmF, rmV, scQ, low20]) <;> omega) | exact and_of (by (try dsimp only) <;> omega)
    · try simp only [Bool.or_eq_false_iff]
      repeat' apply And.intro
      all_goals first | exact decide_eq_false (by (try dsimp only [rmF, rmV, scQ, low20]) <;> omega) | exact and_of (by (try dsimp only) <;> omega)
    · congr 1
      all_goals first | exact gdOf_of rfl rfl | exact fin16_of (by dsimp only [low20] <;> omega)

theorem vsum (gd : Guard) (d : GReg) (a : Fin 16) (e : FTy) : Statement (.vsum gd d a e) := by
  have f0 := bCode_lt gd.neg
  have f1 := gd.p.isLt
  have f2 := gCode_lt d
  have f3 := a.isLt
  have f4 := fTyCode_lt e
  refine of_raw rfl ⟨?_, ?_, ?_, ?_, ?_, ?_, ?_, ?_, ?_⟩ fun hw => ?_
  iterate 9 (dsimp only; omega)
  · refine checked1 ?_ ?_
    · try simp only [Bool.or_eq_false_iff]
      repeat' apply And.intro
      all_goals first | exact decide_eq_false (by (try dsimp only [rmF, rmV, scQ, low20]) <;> omega) | exact and_of (by (try dsimp only) <;> omega)
    · congr 1
      all_goals first | exact gdOf_of rfl rfl | exact gOf_of (by dsimp only <;> omega) | exact fin16_of (by dsimp only [low20] <;> omega) | exact fTyOf_of (by dsimp only <;> omega)

theorem vdot (gd : Guard) (d : GReg) (a : Fin 16) (b : Fin 16) (e : FTy) : Statement (.vdot gd d a b e) := by
  have f0 := bCode_lt gd.neg
  have f1 := gd.p.isLt
  have f2 := gCode_lt d
  have f3 := a.isLt
  have f4 := b.isLt
  have f5 := fTyCode_lt e
  refine of_raw rfl ⟨?_, ?_, ?_, ?_, ?_, ?_, ?_, ?_, ?_⟩ fun hw => ?_
  iterate 9 (dsimp only; omega)
  · refine checked1 ?_ ?_
    · try simp only [Bool.or_eq_false_iff]
      repeat' apply And.intro
      all_goals first | exact decide_eq_false (by (try dsimp only [rmF, rmV, scQ, low20]) <;> omega) | exact and_of (by (try dsimp only) <;> omega)
    · congr 1
      all_goals first | exact gdOf_of rfl rfl | exact gOf_of (by dsimp only <;> omega) | exact fin16_of (by dsimp only [low20] <;> omega) | exact fTyOf_of (by dsimp only <;> omega)

theorem vperm (gd : Guard) (d : Fin 16) (a : Fin 16) (b : Fin 16) (sz : PermSz) : Statement (.vperm gd d a b sz) := by
  have f0 := bCode_lt gd.neg
  have f1 := gd.p.isLt
  have f2 := d.isLt
  have f3 := a.isLt
  have f4 := b.isLt
  have f5 := permCode_lt sz
  refine of_raw rfl ⟨?_, ?_, ?_, ?_, ?_, ?_, ?_, ?_, ?_⟩ fun hw => ?_
  iterate 9 (dsimp only; omega)
  · refine checked2 ?_ ?_ ?_
    · try simp only [Bool.or_eq_false_iff]
      repeat' apply And.intro
      all_goals first | exact decide_eq_false (by (try dsimp only [rmF, rmV, scQ, low20]) <;> omega) | exact and_of (by (try dsimp only) <;> omega)
    · try simp only [Bool.or_eq_false_iff]
      repeat' apply And.intro
      all_goals first | exact decide_eq_false (by (try dsimp only [rmF, rmV, scQ, low20]) <;> omega) | exact and_of (by (try dsimp only) <;> omega)
    · congr 1
      all_goals first | exact gdOf_of rfl rfl | exact fin16_of (by dsimp only [low20] <;> omega) | exact permOf_of rfl

theorem cvtScalar (gd : Guard) (d : Fin 32) (a : Fin 32) (dt : TyCode) (st : TyCode) (r : Rm2) : Statement (.cvtScalar gd d a dt st r) := by
  have f0 := bCode_lt gd.neg
  have f1 := gd.p.isLt
  have f2 := d.isLt
  have f3 := a.isLt
  have f4 := tyCodeNum_lt dt
  have f5 := tyCodeNum_lt st
  have f6 := rm2Code_lt r
  refine of_raw rfl ⟨?_, ?_, ?_, ?_, ?_, ?_, ?_, ?_, ?_⟩ fun hw => ?_
  iterate 9 (dsimp only; omega)
  · refine congrArg Dec.ok ?_
    · congr 1
      all_goals first | exact gdOf_of rfl rfl | exact fin32_of (by dsimp only [low20] <;> omega) | exact tyOf_of (by dsimp only [low20] <;> omega) | exact rm2Of_of (by dsimp only <;> omega)

theorem cvtWide (gd : Guard) (d : Fin 16) (a : Fin 16) (dt : TyCode) (st : TyCode) (r : Rm) : Statement (.cvtWide gd d a dt st r) := by
  have f0 := bCode_lt gd.neg
  have f1 := gd.p.isLt
  have f2 := d.isLt
  have f3 := a.isLt
  have f4 := tyCodeNum_lt dt
  have f5 := tyCodeNum_lt st
  have f6 := rmCode_lt r
  refine of_raw rfl ⟨?_, ?_, ?_, ?_, ?_, ?_, ?_, ?_, ?_⟩ fun hw => ?_
  iterate 9 (dsimp only; omega)
  · refine checked2 ?_ ?_ ?_
    · try simp only [Bool.or_eq_false_iff]
      repeat' apply And.intro
      all_goals first | exact decide_eq_false (by (try dsimp only [rmF, rmV, scQ, low20]) <;> omega) | exact and_of (by (try dsimp only) <;> omega)
    · try simp only [Bool.or_eq_false_iff]
      repeat' apply And.intro
      all_goals first | exact decide_eq_false (by (try dsimp only [rmF, rmV, scQ, low20]) <;> omega) | exact and_of (by (try dsimp only) <;> omega)
    · congr 1
      all_goals first | exact gdOf_of rfl rfl | exact fin16_of (by dsimp only [low20] <;> omega) | exact tyOf_of (by dsimp only [low20] <;> omega) | exact rmOf_of (by dsimp only [rmF, rmV, low20] <;> omega)

theorem pack (gd : Guard) (d : Fin 16) (a : Fin 16) (b : Fin 16) (pair : Fin 12) (r : Rm) (ks : Bool) : Statement (.pack gd d a b pair r ks) := by
  have f0 := bCode_lt gd.neg
  have f1 := gd.p.isLt
  have f2 := d.isLt
  have f3 := a.isLt
  have f4 := b.isLt
  have f5 := pair.isLt
  have f6 := rmCode_lt r
  have f7 := bCode_lt ks
  refine of_raw rfl ⟨?_, ?_, ?_, ?_, ?_, ?_, ?_, ?_, ?_⟩ fun hw => ?_
  iterate 9 (dsimp only; omega)
  · refine checked1 ?_ ?_
    · try simp only [Bool.or_eq_false_iff]
      repeat' apply And.intro
      all_goals first | exact decide_eq_false (by (try dsimp only [rmF, rmV, scQ, low20]) <;> omega) | exact and_of (by (try dsimp only) <;> omega)
    · congr 1
      all_goals first | exact gdOf_of rfl rfl | exact fin16_of (by dsimp only [low20] <;> omega) | exact fin12_of (by dsimp only [low20] <;> omega) | exact rmOf_of (by dsimp only [rmF, rmV, low20] <;> omega) | exact bOf_of (by dsimp only [low20] <;> omega)

theorem unpk (gd : Guard) (d : Fin 16) (a : Fin 16) (hi : Bool) (pair : Fin 12) (ks : Bool) : Statement (.unpk gd d a hi pair ks) := by
  have f0 := bCode_lt gd.neg
  have f1 := gd.p.isLt
  have f2 := d.isLt
  have f3 := a.isLt
  have f4 := bCode_lt hi
  have f5 := pair.isLt
  have f6 := bCode_lt ks
  refine of_raw rfl ⟨?_, ?_, ?_, ?_, ?_, ?_, ?_, ?_, ?_⟩ fun hw => ?_
  iterate 9 (dsimp only; omega)
  · refine checked2 ?_ ?_ ?_
    · try simp only [Bool.or_eq_false_iff]
      repeat' apply And.intro
      all_goals first | exact decide_eq_false (by (try dsimp only [rmF, rmV, scQ, low20]) <;> omega) | exact and_of (by (try dsimp only) <;> omega)
    · try simp only [Bool.or_eq_false_iff]
      repeat' apply And.intro
      all_goals first | exact decide_eq_false (by (try dsimp only [rmF, rmV, scQ, low20]) <;> omega) | exact and_of (by (try dsimp only) <;> omega)
    · congr 1
      all_goals first | exact gdOf_of rfl rfl | exact fin16_of (by dsimp only [low20] <;> omega) | exact bOf_of (by dsimp only [low20] <;> omega) | exact fin12_of (by dsimp only [low20] <;> omega)

theorem scl (gd : Guard) (d : Fin 16) (a : Fin 16) (b : Fin 16) (pair : Fin 10) (r : Rm) (ks : Bool) : Statement (.scl gd d a b pair r ks) := by
  have f0 := bCode_lt gd.neg
  have f1 := gd.p.isLt
  have f2 := d.isLt
  have f3 := a.isLt
  have f4 := b.isLt
  have f5 := pair.isLt
  have f6 := rmCode_lt r
  have f7 := bCode_lt ks
  refine of_raw rfl ⟨?_, ?_, ?_, ?_, ?_, ?_, ?_, ?_, ?_⟩ fun hw => ?_
  iterate 9 (dsimp only; omega)
  · refine checked1 ?_ ?_
    · try simp only [Bool.or_eq_false_iff]
      repeat' apply And.intro
      all_goals first | exact decide_eq_false (by (try dsimp only [rmF, rmV, scQ, low20]) <;> omega) | exact and_of (by (try dsimp only) <;> omega)
    · congr 1
      all_goals first | exact gdOf_of rfl rfl | exact fin16_of (by dsimp only [low20] <;> omega) | exact fin10_of (by dsimp only [low20] <;> omega) | exact rmOf_of (by dsimp only [rmF, rmV, low20] <;> omega) | exact bOf_of (by dsimp only [low20] <;> omega)

theorem xadd (gd : Guard) (e : Fin 2) (src : XSrc) : Statement (.xadd gd e src) := by
  have f0 := bCode_lt gd.neg
  have f1 := gd.p.isLt
  have f2 := e.isLt
  have f3 := xsrcSel_lt src
  have f4 := xsrcS1_lt src
  have f5 := xsrcS1_wide src
  refine of_raw rfl ⟨?_, ?_, ?_, ?_, ?_, ?_, ?_, ?_, ?_⟩ fun hw => ?_
  iterate 9 (dsimp only; omega)
  · refine checked1 ?_ ?_
    · try simp only [Bool.or_eq_false_iff]
      repeat' apply And.intro
      all_goals first | exact decide_eq_false (by (try dsimp only [rmF, rmV, scQ, low20]) <;> omega) | exact and_of (by (try dsimp only) <;> omega)
    · congr 1
      all_goals first | exact gdOf_of rfl rfl | exact fin2_of (by dsimp only [low20] <;> omega) | exact xsrcOf_of (by (try dsimp only) <;> omega) rfl

theorem xget (gd : Guard) (d : GReg) (e : Fin 2) (f64 : Bool) (r : Rm) : Statement (.xget gd d e f64 r) := by
  have f0 := bCode_lt gd.neg
  have f1 := gd.p.isLt
  have f2 := gCode_lt d
  have f3 := e.isLt
  have f4 := bCode_lt f64
  have f5 := rmCode_lt r
  refine of_raw rfl ⟨?_, ?_, ?_, ?_, ?_, ?_, ?_, ?_, ?_⟩ fun hw => ?_
  iterate 9 (dsimp only; omega)
  · refine checked2 ?_ ?_ ?_
    · try simp only [Bool.or_eq_false_iff]
      repeat' apply And.intro
      all_goals first | exact decide_eq_false (by (try dsimp only [rmF, rmV, scQ, low20]) <;> omega) | exact and_of (by (try dsimp only) <;> omega)
    · try simp only [Bool.or_eq_false_iff]
      repeat' apply And.intro
      all_goals first | exact decide_eq_false (by (try dsimp only [rmF, rmV, scQ, low20]) <;> omega) | exact and_of (by (try dsimp only) <;> omega)
    · congr 1
      all_goals first | exact gdOf_of rfl rfl | exact gOf_of (by dsimp only <;> omega) | exact fin2_of (by dsimp only [low20] <;> omega) | exact bOf_of (by dsimp only [low20] <;> omega) | exact rmOf_of (by dsimp only [rmF, rmV, low20] <;> omega)

theorem xclr (gd : Guard) (e : Fin 2) : Statement (.xclr gd e) := by
  have f0 := bCode_lt gd.neg
  have f1 := gd.p.isLt
  have f2 := e.isLt
  refine of_raw rfl ⟨?_, ?_, ?_, ?_, ?_, ?_, ?_, ?_, ?_⟩ fun hw => ?_
  iterate 9 (dsimp only; omega)
  · refine checked1 ?_ ?_
    · try simp only [Bool.or_eq_false_iff]
      repeat' apply And.intro
      all_goals first | exact decide_eq_false (by (try dsimp only [rmF, rmV, scQ, low20]) <;> omega) | exact and_of (by (try dsimp only) <;> omega)
    · congr 1
      all_goals first | exact gdOf_of rfl rfl | exact fin2_of (by dsimp only [low20] <;> omega)

theorem xmrg (gd : Guard) (e : Fin 2) (src : Fin 2) : Statement (.xmrg gd e src) := by
  have f0 := bCode_lt gd.neg
  have f1 := gd.p.isLt
  have f2 := e.isLt
  have f3 := src.isLt
  refine of_raw rfl ⟨?_, ?_, ?_, ?_, ?_, ?_, ?_, ?_, ?_⟩ fun hw => ?_
  iterate 9 (dsimp only; omega)
  · refine checked1 ?_ ?_
    · try simp only [Bool.or_eq_false_iff]
      repeat' apply And.intro
      all_goals first | exact decide_eq_false (by (try dsimp only [rmF, rmV, scQ, low20]) <;> omega) | exact and_of (by (try dsimp only) <;> omega)
    · congr 1
      all_goals first | exact gdOf_of rfl rfl | exact fin2_of (by dsimp only [low20] <;> omega)

theorem mma (gd : Guard) (rel : Option Scope) (f : Fmt) (c : Fin 4) (a : Fin 32) (b : Fin 32) : Statement (.mma gd rel f c a b) := by
  have f0 := bCode_lt gd.neg
  have f1 := gd.p.isLt
  have f2 := oscCode_lt rel
  have f3 := oscOn_lt rel
  have f4 := oscCode_zero rel
  have f5 := fmtCode_lt f
  have f6 := c.isLt
  have f7 := a.isLt
  have f8 := b.isLt
  refine of_raw rfl ⟨?_, ?_, ?_, ?_, ?_, ?_, ?_, ?_, ?_⟩ fun hw => ?_
  iterate 9 (dsimp only; omega)
  · refine checked3 ?_ ?_ ?_ ?_
    · try simp only [Bool.or_eq_false_iff]
      repeat' apply And.intro
      all_goals first | exact decide_eq_false (by (try dsimp only [rmF, rmV, scQ, low20]) <;> omega) | exact and_of (by (try dsimp only) <;> omega)
    · try simp only [Bool.or_eq_false_iff]
      repeat' apply And.intro
      all_goals first | exact decide_eq_false (by (try dsimp only [rmF, rmV, scQ, low20]) <;> omega) | exact and_of (by (try dsimp only) <;> omega)
    · try simp only [Bool.or_eq_false_iff]
      repeat' apply And.intro
      all_goals first | exact decide_eq_false (by (try dsimp only [rmF, rmV, scQ, low20]) <;> omega) | exact and_of (by (try dsimp only) <;> omega)
    · congr 1
      all_goals first | exact gdOf_of rfl rfl | exact oscOf_of (by dsimp only <;> omega) (by dsimp only [scQ] <;> omega) | exact fmtOf_of (by dsimp only <;> omega) | exact fin4_of (by dsimp only [low20] <;> omega) | exact fin32_of (by dsimp only [low20] <;> omega)

theorem qrd (gd : Guard) (d : GReg) (x : QDir) (fwd : Option QDir) : Statement (.qrd gd d x fwd) := by
  have f0 := bCode_lt gd.neg
  have f1 := gd.p.isLt
  have f2 := gCode_lt d
  have f3 := qCode_lt x
  rcases fwd with _ | y <;> (try have fy := qCode_lt y) <;>
    (
      refine of_raw rfl ⟨?_, ?_, ?_, ?_, ?_, ?_, ?_, ?_, ?_⟩ fun hw => ?_
      iterate 9 (dsimp only [rmCode, scopeCode, Scope.rank, bCode_true, bCode_false, oscOn, oscCode, Nat.reduceMul, Nat.reduceAdd, Nat.reduceDiv, Nat.reduceMod] <;> omega)
      · simp only [decodeRaw, decodeA2, rmCode, scopeCode, Scope.rank, bCode_true, bCode_false, oscOn, oscCode, Nat.reduceMul, Nat.reduceAdd, Nat.reduceDiv, Nat.reduceMod, Nat.reduceLT, Nat.zero_mod, reduceIte]
        refine checked1 ?_ ?_
        · try simp only [Bool.or_eq_false_iff]
          repeat' apply And.intro
          all_goals first | exact decide_eq_false (by (try dsimp only [rmCode, scopeCode, Scope.rank, bCode_true, bCode_false, oscOn, oscCode, Nat.reduceMul, Nat.reduceAdd, Nat.reduceDiv, Nat.reduceMod, rmF, rmV, scQ, low20]) <;> omega) | exact and_of (by (try dsimp only) <;> omega)
        · congr 1
          all_goals first | exact gdOf_of rfl rfl | exact gOf_of (by (try dsimp only) <;> omega) | exact qOf_of (by (try dsimp only) <;> omega) | rfl | (simp; done) | exact if_neg (by decide) | exact (if_pos (by (try dsimp only) <;> omega)).trans (congrArg some (qOf_of (by (try dsimp only) <;> omega))))

theorem qwr (gd : Guard) (y : QDir) (a : GReg) : Statement (.qwr gd y a) := by
  have f0 := bCode_lt gd.neg
  have f1 := gd.p.isLt
  have f2 := qCode_lt y
  have f3 := gCode_lt a
  refine of_raw rfl ⟨?_, ?_, ?_, ?_, ?_, ?_, ?_, ?_, ?_⟩ fun hw => ?_
  iterate 9 (dsimp only; omega)
  · refine checked1 ?_ ?_
    · try simp only [Bool.or_eq_false_iff]
      repeat' apply And.intro
      all_goals first | exact decide_eq_false (by (try dsimp only [rmF, rmV, scQ, low20]) <;> omega) | exact and_of (by (try dsimp only) <;> omega)
    · congr 1
      all_goals first | exact gdOf_of rfl rfl | exact qOf_of (by dsimp only <;> omega) | exact gOf_of (by dsimp only <;> omega)

theorem krd (gd : Guard) (d : GReg) (k : Fin 16) : Statement (.krd gd d k) := by
  have f0 := bCode_lt gd.neg
  have f1 := gd.p.isLt
  have f2 := gCode_lt d
  have f3 := k.isLt
  refine of_raw rfl ⟨?_, ?_, ?_, ?_, ?_, ?_, ?_, ?_, ?_⟩ fun hw => ?_
  iterate 9 (dsimp only; omega)
  · refine checked1 ?_ ?_
    · try simp only [Bool.or_eq_false_iff]
      repeat' apply And.intro
      all_goals first | exact decide_eq_false (by (try dsimp only [rmF, rmV, scQ, low20]) <;> omega) | exact and_of (by (try dsimp only) <;> omega)
    · congr 1
      all_goals first | exact gdOf_of rfl rfl | exact gOf_of (by dsimp only <;> omega) | exact fin16_of (by dsimp only [low20] <;> omega)

theorem kwr (gd : Guard) (k : Fin 16) (a : GReg) : Statement (.kwr gd k a) := by
  have f0 := bCode_lt gd.neg
  have f1 := gd.p.isLt
  have f2 := k.isLt
  have f3 := gCode_lt a
  refine of_raw rfl ⟨?_, ?_, ?_, ?_, ?_, ?_, ?_, ?_, ?_⟩ fun hw => ?_
  iterate 9 (dsimp only; omega)
  · refine checked1 ?_ ?_
    · try simp only [Bool.or_eq_false_iff]
      repeat' apply And.intro
      all_goals first | exact decide_eq_false (by (try dsimp only [rmF, rmV, scQ, low20]) <;> omega) | exact and_of (by (try dsimp only) <;> omega)
    · congr 1
      all_goals first | exact gdOf_of rfl rfl | exact fin16_of (by dsimp only [low20] <;> omega) | exact gOf_of (by dsimp only <;> omega)

theorem br (gd : Guard) (disp : BitVec 20) : Statement (.br gd disp) := by
  have f0 := bCode_lt gd.neg
  have f1 := gd.p.isLt
  have f2 := disp.isLt
  refine of_raw rfl ⟨?_, ?_, ?_, ?_, ?_, ?_, ?_, ?_, ?_⟩ fun hw => ?_
  iterate 9 (dsimp only; omega)
  · refine congrArg Dec.ok ?_
    · congr 1
      all_goals first | exact gdOf_of rfl rfl | exact bv_of (by dsimp only [low20, imm14] <;> omega)

theorem call (gd : Guard) (disp : BitVec 20) : Statement (.call gd disp) := by
  have f0 := bCode_lt gd.neg
  have f1 := gd.p.isLt
  have f2 := disp.isLt
  refine of_raw rfl ⟨?_, ?_, ?_, ?_, ?_, ?_, ?_, ?_, ?_⟩ fun hw => ?_
  iterate 9 (dsimp only; omega)
  · refine congrArg Dec.ok ?_
    · congr 1
      all_goals first | exact gdOf_of rfl rfl | exact bv_of (by dsimp only [low20, imm14] <;> omega)

theorem brx (gd : Guard) (a : GReg) : Statement (.brx gd a) := by
  have f0 := bCode_lt gd.neg
  have f1 := gd.p.isLt
  have f2 := gCode_lt a
  refine of_raw rfl ⟨?_, ?_, ?_, ?_, ?_, ?_, ?_, ?_, ?_⟩ fun hw => ?_
  iterate 9 (dsimp only; omega)
  · refine checked1 ?_ ?_
    · try simp only [Bool.or_eq_false_iff]
      repeat' apply And.intro
      all_goals first | exact decide_eq_false (by (try dsimp only [rmF, rmV, scQ, low20]) <;> omega) | exact and_of (by (try dsimp only) <;> omega)
    · congr 1
      all_goals first | exact gdOf_of rfl rfl | exact gOf_of (by dsimp only <;> omega)

theorem callx (gd : Guard) (a : GReg) : Statement (.callx gd a) := by
  have f0 := bCode_lt gd.neg
  have f1 := gd.p.isLt
  have f2 := gCode_lt a
  refine of_raw rfl ⟨?_, ?_, ?_, ?_, ?_, ?_, ?_, ?_, ?_⟩ fun hw => ?_
  iterate 9 (dsimp only; omega)
  · refine checked1 ?_ ?_
    · try simp only [Bool.or_eq_false_iff]
      repeat' apply And.intro
      all_goals first | exact decide_eq_false (by (try dsimp only [rmF, rmV, scQ, low20]) <;> omega) | exact and_of (by (try dsimp only) <;> omega)
    · congr 1
      all_goals first | exact gdOf_of rfl rfl | exact gOf_of (by dsimp only <;> omega)

theorem ret (gd : Guard) (a : GReg) : Statement (.ret gd a) := by
  have f0 := bCode_lt gd.neg
  have f1 := gd.p.isLt
  have f2 := gCode_lt a
  refine of_raw rfl ⟨?_, ?_, ?_, ?_, ?_, ?_, ?_, ?_, ?_⟩ fun hw => ?_
  iterate 9 (dsimp only; omega)
  · refine checked1 ?_ ?_
    · try simp only [Bool.or_eq_false_iff]
      repeat' apply And.intro
      all_goals first | exact decide_eq_false (by (try dsimp only [rmF, rmV, scQ, low20]) <;> omega) | exact and_of (by (try dsimp only) <;> omega)
    · congr 1
      all_goals first | exact gdOf_of rfl rfl | exact gOf_of (by dsimp only <;> omega)

theorem dbnz (gd : Guard) (d : GReg) (disp : BitVec 14) : Statement (.dbnz gd d disp) := by
  have f0 := bCode_lt gd.neg
  have f1 := gd.p.isLt
  have f2 := gCode_lt d
  have f3 := disp.isLt
  refine of_raw rfl ⟨?_, ?_, ?_, ?_, ?_, ?_, ?_, ?_, ?_⟩ fun hw => ?_
  iterate 9 (dsimp only; omega)
  · refine congrArg Dec.ok ?_
    · congr 1
      all_goals first | exact gdOf_of rfl rfl | exact gOf_of (by dsimp only <;> omega) | exact bv_of (by dsimp only [low20, imm14] <;> omega)

theorem jset (gd : Guard) (j : Fin 8) : Statement (.jset gd j) := by
  have f0 := bCode_lt gd.neg
  have f1 := gd.p.isLt
  have f2 := j.isLt
  refine of_raw rfl ⟨?_, ?_, ?_, ?_, ?_, ?_, ?_, ?_, ?_⟩ fun hw => ?_
  iterate 9 (dsimp only; omega)
  · refine checked1 ?_ ?_
    · try simp only [Bool.or_eq_false_iff]
      repeat' apply And.intro
      all_goals first | exact decide_eq_false (by (try dsimp only [rmF, rmV, scQ, low20]) <;> omega) | exact and_of (by (try dsimp only) <;> omega)
    · congr 1
      all_goals first | exact gdOf_of rfl rfl | exact fin8_of (by dsimp only [low20] <;> omega)

theorem jadd (gd : Guard) (j : Fin 8) : Statement (.jadd gd j) := by
  have f0 := bCode_lt gd.neg
  have f1 := gd.p.isLt
  have f2 := j.isLt
  refine of_raw rfl ⟨?_, ?_, ?_, ?_, ?_, ?_, ?_, ?_, ?_⟩ fun hw => ?_
  iterate 9 (dsimp only; omega)
  · refine checked1 ?_ ?_
    · try simp only [Bool.or_eq_false_iff]
      repeat' apply And.intro
      all_goals first | exact decide_eq_false (by (try dsimp only [rmF, rmV, scQ, low20]) <;> omega) | exact and_of (by (try dsimp only) <;> omega)
    · congr 1
      all_goals first | exact gdOf_of rfl rfl | exact fin8_of (by dsimp only [low20] <;> omega)

theorem jquit (gd : Guard) (j : Fin 8) : Statement (.jquit gd j) := by
  have f0 := bCode_lt gd.neg
  have f1 := gd.p.isLt
  have f2 := j.isLt
  refine of_raw rfl ⟨?_, ?_, ?_, ?_, ?_, ?_, ?_, ?_, ?_⟩ fun hw => ?_
  iterate 9 (dsimp only; omega)
  · refine checked1 ?_ ?_
    · try simp only [Bool.or_eq_false_iff]
      repeat' apply And.intro
      all_goals first | exact decide_eq_false (by (try dsimp only [rmF, rmV, scQ, low20]) <;> omega) | exact and_of (by (try dsimp only) <;> omega)
    · congr 1
      all_goals first | exact gdOf_of rfl rfl | exact fin8_of (by dsimp only [low20] <;> omega)

theorem jwait (gd : Guard) (j : Fin 8) : Statement (.jwait gd j) := by
  have f0 := bCode_lt gd.neg
  have f1 := gd.p.isLt
  have f2 := j.isLt
  refine of_raw rfl ⟨?_, ?_, ?_, ?_, ?_, ?_, ?_, ?_, ?_⟩ fun hw => ?_
  iterate 9 (dsimp only; omega)
  · refine checked1 ?_ ?_
    · try simp only [Bool.or_eq_false_iff]
      repeat' apply And.intro
      all_goals first | exact decide_eq_false (by (try dsimp only [rmF, rmV, scQ, low20]) <;> omega) | exact and_of (by (try dsimp only) <;> omega)
    · congr 1
      all_goals first | exact gdOf_of rfl rfl | exact fin8_of (by dsimp only [low20] <;> omega)

theorem jtest (gd : Guard) (p : Fin 8) (j : Fin 8) : Statement (.jtest gd p j) := by
  have f0 := bCode_lt gd.neg
  have f1 := gd.p.isLt
  have f2 := p.isLt
  have f3 := j.isLt
  refine of_raw rfl ⟨?_, ?_, ?_, ?_, ?_, ?_, ?_, ?_, ?_⟩ fun hw => ?_
  iterate 9 (dsimp only; omega)
  · refine checked1 ?_ ?_
    · try simp only [Bool.or_eq_false_iff]
      repeat' apply And.intro
      all_goals first | exact decide_eq_false (by (try dsimp only [rmF, rmV, scQ, low20]) <;> omega) | exact and_of (by (try dsimp only) <;> omega)
    · congr 1
      all_goals first | exact gdOf_of rfl rfl | exact fin8_of (by dsimp only [low20] <;> omega)

theorem jread (gd : Guard) (d : GReg) (j : Fin 8) : Statement (.jread gd d j) := by
  have f0 := bCode_lt gd.neg
  have f1 := gd.p.isLt
  have f2 := gCode_lt d
  have f3 := j.isLt
  refine of_raw rfl ⟨?_, ?_, ?_, ?_, ?_, ?_, ?_, ?_, ?_⟩ fun hw => ?_
  iterate 9 (dsimp only; omega)
  · refine checked1 ?_ ?_
    · try simp only [Bool.or_eq_false_iff]
      repeat' apply And.intro
      all_goals first | exact decide_eq_false (by (try dsimp only [rmF, rmV, scQ, low20]) <;> omega) | exact and_of (by (try dsimp only) <;> omega)
    · congr 1
      all_goals first | exact gdOf_of rfl rfl | exact gOf_of (by dsimp only <;> omega) | exact fin8_of (by dsimp only [low20] <;> omega)

theorem jwrite (gd : Guard) (j : Fin 8) (a : GReg) : Statement (.jwrite gd j a) := by
  have f0 := bCode_lt gd.neg
  have f1 := gd.p.isLt
  have f2 := j.isLt
  have f3 := gCode_lt a
  refine of_raw rfl ⟨?_, ?_, ?_, ?_, ?_, ?_, ?_, ?_, ?_⟩ fun hw => ?_
  iterate 9 (dsimp only; omega)
  · refine checked1 ?_ ?_
    · try simp only [Bool.or_eq_false_iff]
      repeat' apply And.intro
      all_goals first | exact decide_eq_false (by (try dsimp only [rmF, rmV, scQ, low20]) <;> omega) | exact and_of (by (try dsimp only) <;> omega)
    · congr 1
      all_goals first | exact gdOf_of rfl rfl | exact fin8_of (by dsimp only [low20] <;> omega) | exact gOf_of (by dsimp only <;> omega)

theorem fuse (gd : Guard) (glog : Fin 5) : Statement (.fuse gd glog) := by
  have f0 := bCode_lt gd.neg
  have f1 := gd.p.isLt
  have f2 := glog.isLt
  refine of_raw rfl ⟨?_, ?_, ?_, ?_, ?_, ?_, ?_, ?_, ?_⟩ fun hw => ?_
  iterate 9 (dsimp only; omega)
  · refine checked2 ?_ ?_ ?_
    · try simp only [Bool.or_eq_false_iff]
      repeat' apply And.intro
      all_goals first | exact decide_eq_false (by (try dsimp only [rmF, rmV, scQ, low20]) <;> omega) | exact and_of (by (try dsimp only) <;> omega)
    · try simp only [Bool.or_eq_false_iff]
      repeat' apply And.intro
      all_goals first | exact decide_eq_false (by (try dsimp only [rmF, rmV, scQ, low20]) <;> omega) | exact and_of (by (try dsimp only) <;> omega)
    · congr 1
      all_goals first | exact gdOf_of rfl rfl | exact fin5_of (by dsimp only [low20] <;> omega)

theorem split (gd : Guard) : Statement (.split gd) := by
  have f0 := bCode_lt gd.neg
  have f1 := gd.p.isLt
  refine of_raw rfl ⟨?_, ?_, ?_, ?_, ?_, ?_, ?_, ?_, ?_⟩ fun hw => ?_
  iterate 9 (dsimp only; omega)
  · refine checked1 ?_ ?_
    · try simp only [Bool.or_eq_false_iff]
      repeat' apply And.intro
      all_goals first | exact decide_eq_false (by (try dsimp only [rmF, rmV, scQ, low20]) <;> omega) | exact and_of (by (try dsimp only) <;> omega)
    · congr 1
      all_goals first | exact gdOf_of rfl rfl

theorem detach (gd : Guard) : Statement (.detach gd) := by
  have f0 := bCode_lt gd.neg
  have f1 := gd.p.isLt
  refine of_raw rfl ⟨?_, ?_, ?_, ?_, ?_, ?_, ?_, ?_, ?_⟩ fun hw => ?_
  iterate 9 (dsimp only; omega)
  · refine checked1 ?_ ?_
    · try simp only [Bool.or_eq_false_iff]
      repeat' apply And.intro
      all_goals first | exact decide_eq_false (by (try dsimp only [rmF, rmV, scQ, low20]) <;> omega) | exact and_of (by (try dsimp only) <;> omega)
    · congr 1
      all_goals first | exact gdOf_of rfl rfl

theorem stop (gd : Guard) : Statement (.stop gd) := by
  have f0 := bCode_lt gd.neg
  have f1 := gd.p.isLt
  refine of_raw rfl ⟨?_, ?_, ?_, ?_, ?_, ?_, ?_, ?_, ?_⟩ fun hw => ?_
  iterate 9 (dsimp only; omega)
  · refine checked1 ?_ ?_
    · try simp only [Bool.or_eq_false_iff]
      repeat' apply And.intro
      all_goals first | exact decide_eq_false (by (try dsimp only [rmF, rmV, scQ, low20]) <;> omega) | exact and_of (by (try dsimp only) <;> omega)
    · congr 1
      all_goals first | exact gdOf_of rfl rfl

theorem spawn (gd : Guard) (a : GReg) (w : Fin 16) : Statement (.spawn gd a w) := by
  have f0 := bCode_lt gd.neg
  have f1 := gd.p.isLt
  have f2 := gCode_lt a
  have f3 := w.isLt
  refine of_raw rfl ⟨?_, ?_, ?_, ?_, ?_, ?_, ?_, ?_, ?_⟩ fun hw => ?_
  iterate 9 (dsimp only; omega)
  · refine checked1 ?_ ?_
    · try simp only [Bool.or_eq_false_iff]
      repeat' apply And.intro
      all_goals first | exact decide_eq_false (by (try dsimp only [rmF, rmV, scQ, low20]) <;> omega) | exact and_of (by (try dsimp only) <;> omega)
    · congr 1
      all_goals first | exact gdOf_of rfl rfl | exact gOf_of (by dsimp only <;> omega) | exact fin16_of (by dsimp only [low20] <;> omega)

theorem spawnf (gd : Guard) (a : GReg) : Statement (.spawnf gd a) := by
  have f0 := bCode_lt gd.neg
  have f1 := gd.p.isLt
  have f2 := gCode_lt a
  refine of_raw rfl ⟨?_, ?_, ?_, ?_, ?_, ?_, ?_, ?_, ?_⟩ fun hw => ?_
  iterate 9 (dsimp only; omega)
  · refine checked1 ?_ ?_
    · try simp only [Bool.or_eq_false_iff]
      repeat' apply And.intro
      all_goals first | exact decide_eq_false (by (try dsimp only [rmF, rmV, scQ, low20]) <;> omega) | exact and_of (by (try dsimp only) <;> omega)
    · congr 1
      all_goals first | exact gdOf_of rfl rfl | exact gOf_of (by dsimp only <;> omega)

theorem yield (gd : Guard) : Statement (.yield gd) := by
  have f0 := bCode_lt gd.neg
  have f1 := gd.p.isLt
  refine of_raw rfl ⟨?_, ?_, ?_, ?_, ?_, ?_, ?_, ?_, ?_⟩ fun hw => ?_
  iterate 9 (dsimp only; omega)
  · refine checked1 ?_ ?_
    · try simp only [Bool.or_eq_false_iff]
      repeat' apply And.intro
      all_goals first | exact decide_eq_false (by (try dsimp only [rmF, rmV, scQ, low20]) <;> omega) | exact and_of (by (try dsimp only) <;> omega)
    · congr 1
      all_goals first | exact gdOf_of rfl rfl

theorem grid (gd : Guard) (a : GReg) : Statement (.grid gd a) := by
  have f0 := bCode_lt gd.neg
  have f1 := gd.p.isLt
  have f2 := gCode_lt a
  refine of_raw rfl ⟨?_, ?_, ?_, ?_, ?_, ?_, ?_, ?_, ?_⟩ fun hw => ?_
  iterate 9 (dsimp only; omega)
  · refine checked1 ?_ ?_
    · try simp only [Bool.or_eq_false_iff]
      repeat' apply And.intro
      all_goals first | exact decide_eq_false (by (try dsimp only [rmF, rmV, scQ, low20]) <;> omega) | exact and_of (by (try dsimp only) <;> omega)
    · congr 1
      all_goals first | exact gdOf_of rfl rfl | exact gOf_of (by dsimp only <;> omega)

theorem ld (gd : Guard) (d : GReg) (a : GReg) (sgn : Bool) (off : BitVec 5) (z : Size) : Statement (.ld gd d a sgn off z) := by
  have f0 := bCode_lt gd.neg
  have f1 := gd.p.isLt
  have f2 := gCode_lt d
  have f3 := gCode_lt a
  have f4 := bCode_lt sgn
  have f5 := off.isLt
  have f6 := sizeCode_lt z
  refine of_raw rfl ⟨?_, ?_, ?_, ?_, ?_, ?_, ?_, ?_, ?_⟩ fun hw => ?_
  iterate 9 (dsimp only; omega)
  · have hz := sgn_codes hw
    have hb := bCode_true
    have hb2 := bCode_false
    refine checked1 ?_ ?_
    · try simp only [Bool.or_eq_false_iff]
      repeat' apply And.intro
      all_goals first | exact decide_eq_false (by (try dsimp only [rmF, rmV, scQ, low20]) <;> omega) | exact and_of (by (try dsimp only) <;> omega)
    · congr 1
      all_goals first | exact gdOf_of rfl rfl | exact gOf_of (by dsimp only <;> omega) | exact bOf_of (by dsimp only [low20] <;> omega) | exact bv_of (by dsimp only [low20, imm14] <;> omega) | exact sizeOf_of rfl

theorem ldAcq (gd : Guard) (d : GReg) (a : GReg) (sc : Scope) (sgn : Bool) (z : Size) : Statement (.ldAcq gd d a sc sgn z) := by
  have f0 := bCode_lt gd.neg
  have f1 := gd.p.isLt
  have f2 := gCode_lt d
  have f3 := gCode_lt a
  have f4 := scopeCode_lt sc
  have f5 := bCode_lt sgn
  have f6 := sizeCode_lt z
  cases sc <;> cases sgn  <;>
    (
      refine of_raw rfl ⟨?_, ?_, ?_, ?_, ?_, ?_, ?_, ?_, ?_⟩ fun hw => ?_
      iterate 9 (dsimp only [rmCode, scopeCode, Scope.rank, bCode_true, bCode_false, oscOn, oscCode, Nat.reduceMul, Nat.reduceAdd, Nat.reduceDiv, Nat.reduceMod] <;> omega)
      · have hz := sgn_codes hw
        have hb := bCode_true
        have hb2 := bCode_false
        simp only [decodeRaw, decodeC1, rmCode, scopeCode, Scope.rank, bCode_true, bCode_false, oscOn, oscCode, Nat.reduceMul, Nat.reduceAdd, Nat.reduceDiv, Nat.reduceMod, Nat.reduceLT, Nat.zero_mod, reduceIte]
        refine checked3 ?_ ?_ ?_ ?_
        · try simp only [Bool.or_eq_false_iff]
          repeat' apply And.intro
          all_goals first | exact decide_eq_false (by (try dsimp only [rmCode, scopeCode, Scope.rank, bCode_true, bCode_false, oscOn, oscCode, Nat.reduceMul, Nat.reduceAdd, Nat.reduceDiv, Nat.reduceMod, rmF, rmV, scQ, low20]) <;> omega) | exact and_of (by (try dsimp only) <;> omega) | (simp [nz]; done) | rfl | exact badOrder_of (by (try dsimp only) <;> omega) (by (try dsimp only) <;> omega)
        · try simp only [Bool.or_eq_false_iff]
          repeat' apply And.intro
          all_goals first | exact decide_eq_false (by (try dsimp only [rmCode, scopeCode, Scope.rank, bCode_true, bCode_false, oscOn, oscCode, Nat.reduceMul, Nat.reduceAdd, Nat.reduceDiv, Nat.reduceMod, rmF, rmV, scQ, low20]) <;> omega) | exact and_of (by (try dsimp only) <;> omega) | (simp [nz]; done) | rfl | exact badOrder_of (by (try dsimp only) <;> omega) (by (try dsimp only) <;> omega)
        · try simp only [Bool.or_eq_false_iff]
          repeat' apply And.intro
          all_goals first | exact decide_eq_false (by (try dsimp only [rmCode, scopeCode, Scope.rank, bCode_true, bCode_false, oscOn, oscCode, Nat.reduceMul, Nat.reduceAdd, Nat.reduceDiv, Nat.reduceMod, rmF, rmV, scQ, low20]) <;> omega) | exact and_of (by (try dsimp only) <;> omega) | (simp [nz]; done) | rfl | exact badOrder_of (by (try dsimp only) <;> omega) (by (try dsimp only) <;> omega)
        · congr 1
          all_goals first | exact gdOf_of rfl rfl | exact gOf_of (by (try dsimp only) <;> omega) | exact scopeOf_of (by (try dsimp only) <;> omega) | exact bOf_of (by (try dsimp only [rmCode, scopeCode, Scope.rank, bCode_true, bCode_false, oscOn, oscCode, Nat.reduceMul, Nat.reduceAdd, Nat.reduceDiv, Nat.reduceMod, low20]) <;> omega) | exact sizeOf_of rfl)

theorem ldDev (gd : Guard) (d : GReg) (a : GReg) (acq : Option Scope) (sgn : Bool) (z : Size) : Statement (.ldDev gd d a acq sgn z) := by
  have f0 := bCode_lt gd.neg
  have f1 := gd.p.isLt
  have f2 := gCode_lt d
  have f3 := gCode_lt a
  have f4 := oscCode_lt acq
  have f5 := oscOn_lt acq
  have f6 := oscCode_zero acq
  have f7 := bCode_lt sgn
  have f8 := sizeCode_lt z
  rcases acq with _ | sc <;> (try cases sc) <;> cases sgn  <;>
    (
      refine of_raw rfl ⟨?_, ?_, ?_, ?_, ?_, ?_, ?_, ?_, ?_⟩ fun hw => ?_
      iterate 9 (dsimp only [rmCode, scopeCode, Scope.rank, bCode_true, bCode_false, oscOn, oscCode, Nat.reduceMul, Nat.reduceAdd, Nat.reduceDiv, Nat.reduceMod] <;> omega)
      · have hz := sgn_codes hw
        have hb := bCode_true
        have hb2 := bCode_false
        simp only [decodeRaw, decodeC1, rmCode, scopeCode, Scope.rank, bCode_true, bCode_false, oscOn, oscCode, Nat.reduceMul, Nat.reduceAdd, Nat.reduceDiv, Nat.reduceMod, Nat.reduceLT, Nat.zero_mod, reduceIte]
        refine checked2 ?_ ?_ ?_
        · try simp only [Bool.or_eq_false_iff]
          repeat' apply And.intro
          all_goals first | exact decide_eq_false (by (try dsimp only [rmCode, scopeCode, Scope.rank, bCode_true, bCode_false, oscOn, oscCode, Nat.reduceMul, Nat.reduceAdd, Nat.reduceDiv, Nat.reduceMod, rmF, rmV, scQ, low20]) <;> omega) | exact and_of (by (try dsimp only) <;> omega) | (simp [nz]; done) | rfl | exact badOrder_of (by (try dsimp only) <;> omega) (by (try dsimp only) <;> omega)
        · try simp only [Bool.or_eq_false_iff]
          repeat' apply And.intro
          all_goals first | exact decide_eq_false (by (try dsimp only [rmCode, scopeCode, Scope.rank, bCode_true, bCode_false, oscOn, oscCode, Nat.reduceMul, Nat.reduceAdd, Nat.reduceDiv, Nat.reduceMod, rmF, rmV, scQ, low20]) <;> omega) | exact and_of (by (try dsimp only) <;> omega) | (simp [nz]; done) | rfl | exact badOrder_of (by (try dsimp only) <;> omega) (by (try dsimp only) <;> omega)
        · congr 1
          all_goals first | exact gdOf_of rfl rfl | exact gOf_of (by (try dsimp only) <;> omega) | exact oscOf_of (by (try dsimp only) <;> omega) (by (try dsimp only [rmCode, scopeCode, Scope.rank, bCode_true, bCode_false, oscOn, oscCode, Nat.reduceMul, Nat.reduceAdd, Nat.reduceDiv, Nat.reduceMod, scQ]) <;> omega) | exact bOf_of (by (try dsimp only [rmCode, scopeCode, Scope.rank, bCode_true, bCode_false, oscOn, oscCode, Nat.reduceMul, Nat.reduceAdd, Nat.reduceDiv, Nat.reduceMod, low20]) <;> omega) | exact sizeOf_of rfl)

theorem st (gd : Guard) (off : BitVec 6) (a : GReg) (b : GReg) (z : Size) : Statement (.st gd off a b z) := by
  have f0 := bCode_lt gd.neg
  have f1 := gd.p.isLt
  have f2 := off.isLt
  have f3 := gCode_lt a
  have f4 := gCode_lt b
  have f5 := sizeCode_lt z
  refine of_raw rfl ⟨?_, ?_, ?_, ?_, ?_, ?_, ?_, ?_, ?_⟩ fun hw => ?_
  iterate 9 (dsimp only; omega)
  · refine congrArg Dec.ok ?_
    · congr 1
      all_goals first | exact gdOf_of rfl rfl | exact bv_of (by dsimp only [low20, imm14] <;> omega) | exact gOf_of (by dsimp only <;> omega) | exact sizeOf_of rfl

theorem stRel (gd : Guard) (sc : Scope) (a : GReg) (b : GReg) (z : Size) : Statement (.stRel gd sc a b z) := by
  have f0 := bCode_lt gd.neg
  have f1 := gd.p.isLt
  have f2 := scopeCode_lt sc
  have f3 := gCode_lt a
  have f4 := gCode_lt b
  have f5 := sizeCode_lt z
  cases sc <;>
    (
      refine of_raw rfl ⟨?_, ?_, ?_, ?_, ?_, ?_, ?_, ?_, ?_⟩ fun hw => ?_
      iterate 9 (dsimp only [rmCode, scopeCode, Scope.rank, bCode_true, bCode_false, oscOn, oscCode, Nat.reduceMul, Nat.reduceAdd, Nat.reduceDiv, Nat.reduceMod] <;> omega)
      · simp only [decodeRaw, decodeC1, rmCode, scopeCode, Scope.rank, bCode_true, bCode_false, oscOn, oscCode, Nat.reduceMul, Nat.reduceAdd, Nat.reduceDiv, Nat.reduceMod, Nat.reduceLT, Nat.zero_mod, reduceIte]
        refine checked3 ?_ ?_ ?_ ?_
        · try simp only [Bool.or_eq_false_iff]
          repeat' apply And.intro
          all_goals first | exact decide_eq_false (by (try dsimp only [rmCode, scopeCode, Scope.rank, bCode_true, bCode_false, oscOn, oscCode, Nat.reduceMul, Nat.reduceAdd, Nat.reduceDiv, Nat.reduceMod, rmF, rmV, scQ, low20]) <;> omega) | exact and_of (by (try dsimp only) <;> omega) | (simp [nz]; done) | rfl | exact badOrder_of (by (try dsimp only) <;> omega) (by (try dsimp only) <;> omega)
        · try simp only [Bool.or_eq_false_iff]
          repeat' apply And.intro
          all_goals first | exact decide_eq_false (by (try dsimp only [rmCode, scopeCode, Scope.rank, bCode_true, bCode_false, oscOn, oscCode, Nat.reduceMul, Nat.reduceAdd, Nat.reduceDiv, Nat.reduceMod, rmF, rmV, scQ, low20]) <;> omega) | exact and_of (by (try dsimp only) <;> omega) | (simp [nz]; done) | rfl | exact badOrder_of (by (try dsimp only) <;> omega) (by (try dsimp only) <;> omega)
        · try simp only [Bool.or_eq_false_iff]
          repeat' apply And.intro
          all_goals first | exact decide_eq_false (by (try dsimp only [rmCode, scopeCode, Scope.rank, bCode_true, bCode_false, oscOn, oscCode, Nat.reduceMul, Nat.reduceAdd, Nat.reduceDiv, Nat.reduceMod, rmF, rmV, scQ, low20]) <;> omega) | exact and_of (by (try dsimp only) <;> omega) | (simp [nz]; done) | rfl | exact badOrder_of (by (try dsimp only) <;> omega) (by (try dsimp only) <;> omega)
        · congr 1
          all_goals first | exact gdOf_of rfl rfl | exact scopeOf_of (by (try dsimp only) <;> omega) | exact gOf_of (by (try dsimp only) <;> omega) | exact sizeOf_of rfl)

theorem stDev (gd : Guard) (rel : Option Scope) (a : GReg) (b : GReg) (z : Size) : Statement (.stDev gd rel a b z) := by
  have f0 := bCode_lt gd.neg
  have f1 := gd.p.isLt
  have f2 := oscCode_lt rel
  have f3 := oscOn_lt rel
  have f4 := oscCode_zero rel
  have f5 := gCode_lt a
  have f6 := gCode_lt b
  have f7 := sizeCode_lt z
  rcases rel with _ | sc <;> (try cases sc) <;>
    (
      refine of_raw rfl ⟨?_, ?_, ?_, ?_, ?_, ?_, ?_, ?_, ?_⟩ fun hw => ?_
      iterate 9 (dsimp only [rmCode, scopeCode, Scope.rank, bCode_true, bCode_false, oscOn, oscCode, Nat.reduceMul, Nat.reduceAdd, Nat.reduceDiv, Nat.reduceMod] <;> omega)
      · simp only [decodeRaw, decodeC1, rmCode, scopeCode, Scope.rank, bCode_true, bCode_false, oscOn, oscCode, Nat.reduceMul, Nat.reduceAdd, Nat.reduceDiv, Nat.reduceMod, Nat.reduceLT, Nat.zero_mod, reduceIte]
        refine checked2 ?_ ?_ ?_
        · try simp only [Bool.or_eq_false_iff]
          repeat' apply And.intro
          all_goals first | exact decide_eq_false (by (try dsimp only [rmCode, scopeCode, Scope.rank, bCode_true, bCode_false, oscOn, oscCode, Nat.reduceMul, Nat.reduceAdd, Nat.reduceDiv, Nat.reduceMod, rmF, rmV, scQ, low20]) <;> omega) | exact and_of (by (try dsimp only) <;> omega) | (simp [nz]; done) | rfl | exact badOrder_of (by (try dsimp only) <;> omega) (by (try dsimp only) <;> omega)
        · try simp only [Bool.or_eq_false_iff]
          repeat' apply And.intro
          all_goals first | exact decide_eq_false (by (try dsimp only [rmCode, scopeCode, Scope.rank, bCode_true, bCode_false, oscOn, oscCode, Nat.reduceMul, Nat.reduceAdd, Nat.reduceDiv, Nat.reduceMod, rmF, rmV, scQ, low20]) <;> omega) | exact and_of (by (try dsimp only) <;> omega) | (simp [nz]; done) | rfl | exact badOrder_of (by (try dsimp only) <;> omega) (by (try dsimp only) <;> omega)
        · congr 1
          all_goals first | exact gdOf_of rfl rfl | exact oscOf_of (by (try dsimp only) <;> omega) (by (try dsimp only [rmCode, scopeCode, Scope.rank, bCode_true, bCode_false, oscOn, oscCode, Nat.reduceMul, Nat.reduceAdd, Nat.reduceDiv, Nat.reduceMod, scQ]) <;> omega) | exact gOf_of (by (try dsimp only) <;> omega) | exact sizeOf_of rfl)

theorem ldw (gd : Guard) (w : Fin 16) (a : GReg) (off : BitVec 6) : Statement (.ldw gd w a off) := by
  have f0 := bCode_lt gd.neg
  have f1 := gd.p.isLt
  have f2 := w.isLt
  have f3 := gCode_lt a
  have f4 := off.isLt
  refine of_raw rfl ⟨?_, ?_, ?_, ?_, ?_, ?_, ?_, ?_, ?_⟩ fun hw => ?_
  iterate 9 (dsimp only; omega)
  · refine checked1 ?_ ?_
    · try simp only [Bool.or_eq_false_iff]
      repeat' apply And.intro
      all_goals first | exact decide_eq_false (by (try dsimp only [rmF, rmV, scQ, low20]) <;> omega) | exact and_of (by (try dsimp only) <;> omega)
    · congr 1
      all_goals first | exact gdOf_of rfl rfl | exact fin16_of (by dsimp only [low20] <;> omega) | exact gOf_of (by dsimp only <;> omega) | exact bv_of (by dsimp only [low20, imm14] <;> omega)

theorem stw (gd : Guard) (w : Fin 16) (a : GReg) (off : BitVec 6) : Statement (.stw gd w a off) := by
  have f0 := bCode_lt gd.neg
  have f1 := gd.p.isLt
  have f2 := w.isLt
  have f3 := gCode_lt a
  have f4 := off.isLt
  refine of_raw rfl ⟨?_, ?_, ?_, ?_, ?_, ?_, ?_, ?_, ?_⟩ fun hw => ?_
  iterate 9 (dsimp only; omega)
  · refine checked1 ?_ ?_
    · try simp only [Bool.or_eq_false_iff]
      repeat' apply And.intro
      all_goals first | exact decide_eq_false (by (try dsimp only [rmF, rmV, scQ, low20]) <;> omega) | exact and_of (by (try dsimp only) <;> omega)
    · congr 1
      all_goals first | exact gdOf_of rfl rfl | exact fin16_of (by dsimp only [low20] <;> omega) | exact gOf_of (by dsimp only <;> omega) | exact bv_of (by dsimp only [low20, imm14] <;> omega)

theorem ldwAcq (gd : Guard) (w : Fin 16) (a : GReg) (sc : Scope) : Statement (.ldwAcq gd w a sc) := by
  have f0 := bCode_lt gd.neg
  have f1 := gd.p.isLt
  have f2 := w.isLt
  have f3 := gCode_lt a
  have f4 := scopeCode_lt sc
  refine of_raw rfl ⟨?_, ?_, ?_, ?_, ?_, ?_, ?_, ?_, ?_⟩ fun hw => ?_
  iterate 9 (dsimp only; omega)
  · refine checked2 ?_ ?_ ?_
    · try simp only [Bool.or_eq_false_iff]
      repeat' apply And.intro
      all_goals first | exact decide_eq_false (by (try dsimp only [rmF, rmV, scQ, low20]) <;> omega) | exact and_of (by (try dsimp only) <;> omega)
    · try simp only [Bool.or_eq_false_iff]
      repeat' apply And.intro
      all_goals first | exact decide_eq_false (by (try dsimp only [rmF, rmV, scQ, low20]) <;> omega) | exact and_of (by (try dsimp only) <;> omega)
    · congr 1
      all_goals first | exact gdOf_of rfl rfl | exact fin16_of (by dsimp only [low20] <;> omega) | exact gOf_of (by dsimp only <;> omega) | exact scopeOf_of (by dsimp only <;> omega)

theorem stwRel (gd : Guard) (w : Fin 16) (a : GReg) (sc : Scope) : Statement (.stwRel gd w a sc) := by
  have f0 := bCode_lt gd.neg
  have f1 := gd.p.isLt
  have f2 := w.isLt
  have f3 := gCode_lt a
  have f4 := scopeCode_lt sc
  refine of_raw rfl ⟨?_, ?_, ?_, ?_, ?_, ?_, ?_, ?_, ?_⟩ fun hw => ?_
  iterate 9 (dsimp only; omega)
  · refine checked2 ?_ ?_ ?_
    · try simp only [Bool.or_eq_false_iff]
      repeat' apply And.intro
      all_goals first | exact decide_eq_false (by (try dsimp only [rmF, rmV, scQ, low20]) <;> omega) | exact and_of (by (try dsimp only) <;> omega)
    · try simp only [Bool.or_eq_false_iff]
      repeat' apply And.intro
      all_goals first | exact decide_eq_false (by (try dsimp only [rmF, rmV, scQ, low20]) <;> omega) | exact and_of (by (try dsimp only) <;> omega)
    · congr 1
      all_goals first | exact gdOf_of rfl rfl | exact fin16_of (by dsimp only [low20] <;> omega) | exact gOf_of (by dsimp only <;> omega) | exact scopeOf_of (by dsimp only <;> omega)

theorem lds (gd : Guard) (d : GReg) (a : GReg) (sgn : Bool) (off : BitVec 5) (z : Size) : Statement (.lds gd d a sgn off z) := by
  have f0 := bCode_lt gd.neg
  have f1 := gd.p.isLt
  have f2 := gCode_lt d
  have f3 := gCode_lt a
  have f4 := bCode_lt sgn
  have f5 := off.isLt
  have f6 := sizeCode_lt z
  refine of_raw rfl ⟨?_, ?_, ?_, ?_, ?_, ?_, ?_, ?_, ?_⟩ fun hw => ?_
  iterate 9 (dsimp only; omega)
  · have hz := sgn_codes hw
    have hb := bCode_true
    have hb2 := bCode_false
    refine checked1 ?_ ?_
    · try simp only [Bool.or_eq_false_iff]
      repeat' apply And.intro
      all_goals first | exact decide_eq_false (by (try dsimp only [rmF, rmV, scQ, low20]) <;> omega) | exact and_of (by (try dsimp only) <;> omega)
    · congr 1
      all_goals first | exact gdOf_of rfl rfl | exact gOf_of (by dsimp only <;> omega) | exact bOf_of (by dsimp only [low20] <;> omega) | exact bv_of (by dsimp only [low20, imm14] <;> omega) | exact sizeOf_of rfl

theorem sts (gd : Guard) (off : BitVec 6) (a : GReg) (b : GReg) (z : Size) : Statement (.sts gd off a b z) := by
  have f0 := bCode_lt gd.neg
  have f1 := gd.p.isLt
  have f2 := off.isLt
  have f3 := gCode_lt a
  have f4 := gCode_lt b
  have f5 := sizeCode_lt z
  refine of_raw rfl ⟨?_, ?_, ?_, ?_, ?_, ?_, ?_, ?_, ?_⟩ fun hw => ?_
  iterate 9 (dsimp only; omega)
  · refine congrArg Dec.ok ?_
    · congr 1
      all_goals first | exact gdOf_of rfl rfl | exact bv_of (by dsimp only [low20, imm14] <;> omega) | exact gOf_of (by dsimp only <;> omega) | exact sizeOf_of rfl

theorem ldsAcq (gd : Guard) (d : GReg) (a : GReg) (sc : Scope) (sgn : Bool) (z : Size) : Statement (.ldsAcq gd d a sc sgn z) := by
  have f0 := bCode_lt gd.neg
  have f1 := gd.p.isLt
  have f2 := gCode_lt d
  have f3 := gCode_lt a
  have f4 := scopeCode_lt sc
  have f5 := bCode_lt sgn
  have f6 := sizeCode_lt z
  cases sc <;> cases sgn  <;>
    (
      refine of_raw rfl ⟨?_, ?_, ?_, ?_, ?_, ?_, ?_, ?_, ?_⟩ fun hw => ?_
      iterate 9 (dsimp only [rmCode, scopeCode, Scope.rank, bCode_true, bCode_false, oscOn, oscCode, Nat.reduceMul, Nat.reduceAdd, Nat.reduceDiv, Nat.reduceMod] <;> omega)
      · have hz := sgn_codes hw
        have hb := bCode_true
        have hb2 := bCode_false
        simp only [decodeRaw, decodeC1, rmCode, scopeCode, Scope.rank, bCode_true, bCode_false, oscOn, oscCode, Nat.reduceMul, Nat.reduceAdd, Nat.reduceDiv, Nat.reduceMod, Nat.reduceLT, Nat.zero_mod, reduceIte]
        refine checked2 ?_ ?_ ?_
        · try simp only [Bool.or_eq_false_iff]
          repeat' apply And.intro
          all_goals first | exact decide_eq_false (by (try dsimp only [rmCode, scopeCode, Scope.rank, bCode_true, bCode_false, oscOn, oscCode, Nat.reduceMul, Nat.reduceAdd, Nat.reduceDiv, Nat.reduceMod, rmF, rmV, scQ, low20]) <;> omega) | exact and_of (by (try dsimp only) <;> omega) | (simp [nz]; done) | rfl | exact badOrder_of (by (try dsimp only) <;> omega) (by (try dsimp only) <;> omega)
        · try simp only [Bool.or_eq_false_iff]
          repeat' apply And.intro
          all_goals first | exact decide_eq_false (by (try dsimp only [rmCode, scopeCode, Scope.rank, bCode_true, bCode_false, oscOn, oscCode, Nat.reduceMul, Nat.reduceAdd, Nat.reduceDiv, Nat.reduceMod, rmF, rmV, scQ, low20]) <;> omega) | exact and_of (by (try dsimp only) <;> omega) | (simp [nz]; done) | rfl | exact badOrder_of (by (try dsimp only) <;> omega) (by (try dsimp only) <;> omega)
        · congr 1
          all_goals first | exact gdOf_of rfl rfl | exact gOf_of (by (try dsimp only) <;> omega) | exact scopeOf_of (by (try dsimp only) <;> omega) | exact bOf_of (by (try dsimp only [rmCode, scopeCode, Scope.rank, bCode_true, bCode_false, oscOn, oscCode, Nat.reduceMul, Nat.reduceAdd, Nat.reduceDiv, Nat.reduceMod, low20]) <;> omega) | exact sizeOf_of rfl)

theorem stsRel (gd : Guard) (d : GReg) (a : GReg) (sc : Scope) (z : Size) : Statement (.stsRel gd d a sc z) := by
  have f0 := bCode_lt gd.neg
  have f1 := gd.p.isLt
  have f2 := gCode_lt d
  have f3 := gCode_lt a
  have f4 := scopeCode_lt sc
  have f5 := sizeCode_lt z
  cases sc <;>
    (
      refine of_raw rfl ⟨?_, ?_, ?_, ?_, ?_, ?_, ?_, ?_, ?_⟩ fun hw => ?_
      iterate 9 (dsimp only [rmCode, scopeCode, Scope.rank, bCode_true, bCode_false, oscOn, oscCode, Nat.reduceMul, Nat.reduceAdd, Nat.reduceDiv, Nat.reduceMod] <;> omega)
      · simp only [decodeRaw, decodeC1, rmCode, scopeCode, Scope.rank, bCode_true, bCode_false, oscOn, oscCode, Nat.reduceMul, Nat.reduceAdd, Nat.reduceDiv, Nat.reduceMod, Nat.reduceLT, Nat.zero_mod, reduceIte]
        refine checked2 ?_ ?_ ?_
        · try simp only [Bool.or_eq_false_iff]
          repeat' apply And.intro
          all_goals first | exact decide_eq_false (by (try dsimp only [rmCode, scopeCode, Scope.rank, bCode_true, bCode_false, oscOn, oscCode, Nat.reduceMul, Nat.reduceAdd, Nat.reduceDiv, Nat.reduceMod, rmF, rmV, scQ, low20]) <;> omega) | exact and_of (by (try dsimp only) <;> omega) | (simp [nz]; done) | rfl | exact badOrder_of (by (try dsimp only) <;> omega) (by (try dsimp only) <;> omega)
        · try simp only [Bool.or_eq_false_iff]
          repeat' apply And.intro
          all_goals first | exact decide_eq_false (by (try dsimp only [rmCode, scopeCode, Scope.rank, bCode_true, bCode_false, oscOn, oscCode, Nat.reduceMul, Nat.reduceAdd, Nat.reduceDiv, Nat.reduceMod, rmF, rmV, scQ, low20]) <;> omega) | exact and_of (by (try dsimp only) <;> omega) | (simp [nz]; done) | rfl | exact badOrder_of (by (try dsimp only) <;> omega) (by (try dsimp only) <;> omega)
        · congr 1
          all_goals first | exact gdOf_of rfl rfl | exact gOf_of (by (try dsimp only) <;> omega) | exact scopeOf_of (by (try dsimp only) <;> omega) | exact sizeOf_of rfl)

theorem ldsw (gd : Guard) (w : Fin 16) (a : GReg) (off : BitVec 6) : Statement (.ldsw gd w a off) := by
  have f0 := bCode_lt gd.neg
  have f1 := gd.p.isLt
  have f2 := w.isLt
  have f3 := gCode_lt a
  have f4 := off.isLt
  refine of_raw rfl ⟨?_, ?_, ?_, ?_, ?_, ?_, ?_, ?_, ?_⟩ fun hw => ?_
  iterate 9 (dsimp only; omega)
  · refine checked1 ?_ ?_
    · try simp only [Bool.or_eq_false_iff]
      repeat' apply And.intro
      all_goals first | exact decide_eq_false (by (try dsimp only [rmF, rmV, scQ, low20]) <;> omega) | exact and_of (by (try dsimp only) <;> omega)
    · congr 1
      all_goals first | exact gdOf_of rfl rfl | exact fin16_of (by dsimp only [low20] <;> omega) | exact gOf_of (by dsimp only <;> omega) | exact bv_of (by dsimp only [low20, imm14] <;> omega)

theorem stsw (gd : Guard) (w : Fin 16) (a : GReg) (off : BitVec 6) : Statement (.stsw gd w a off) := by
  have f0 := bCode_lt gd.neg
  have f1 := gd.p.isLt
  have f2 := w.isLt
  have f3 := gCode_lt a
  have f4 := off.isLt
  refine of_raw rfl ⟨?_, ?_, ?_, ?_, ?_, ?_, ?_, ?_, ?_⟩ fun hw => ?_
  iterate 9 (dsimp only; omega)
  · refine checked1 ?_ ?_
    · try simp only [Bool.or_eq_false_iff]
      repeat' apply And.intro
      all_goals first | exact decide_eq_false (by (try dsimp only [rmF, rmV, scQ, low20]) <;> omega) | exact and_of (by (try dsimp only) <;> omega)
    · congr 1
      all_goals first | exact gdOf_of rfl rfl | exact fin16_of (by dsimp only [low20] <;> omega) | exact gOf_of (by dsimp only <;> omega) | exact bv_of (by dsimp only [low20, imm14] <;> omega)

theorem ldswAcq (gd : Guard) (w : Fin 16) (a : GReg) (sc : Scope) : Statement (.ldswAcq gd w a sc) := by
  have f0 := bCode_lt gd.neg
  have f1 := gd.p.isLt
  have f2 := w.isLt
  have f3 := gCode_lt a
  have f4 := scopeCode_lt sc
  refine of_raw rfl ⟨?_, ?_, ?_, ?_, ?_, ?_, ?_, ?_, ?_⟩ fun hw => ?_
  iterate 9 (dsimp only; omega)
  · refine checked2 ?_ ?_ ?_
    · try simp only [Bool.or_eq_false_iff]
      repeat' apply And.intro
      all_goals first | exact decide_eq_false (by (try dsimp only [rmF, rmV, scQ, low20]) <;> omega) | exact and_of (by (try dsimp only) <;> omega)
    · try simp only [Bool.or_eq_false_iff]
      repeat' apply And.intro
      all_goals first | exact decide_eq_false (by (try dsimp only [rmF, rmV, scQ, low20]) <;> omega) | exact and_of (by (try dsimp only) <;> omega)
    · congr 1
      all_goals first | exact gdOf_of rfl rfl | exact fin16_of (by dsimp only [low20] <;> omega) | exact gOf_of (by dsimp only <;> omega) | exact scopeOf_of (by dsimp only <;> omega)

theorem stswRel (gd : Guard) (w : Fin 16) (a : GReg) (sc : Scope) : Statement (.stswRel gd w a sc) := by
  have f0 := bCode_lt gd.neg
  have f1 := gd.p.isLt
  have f2 := w.isLt
  have f3 := gCode_lt a
  have f4 := scopeCode_lt sc
  refine of_raw rfl ⟨?_, ?_, ?_, ?_, ?_, ?_, ?_, ?_, ?_⟩ fun hw => ?_
  iterate 9 (dsimp only; omega)
  · refine checked2 ?_ ?_ ?_
    · try simp only [Bool.or_eq_false_iff]
      repeat' apply And.intro
      all_goals first | exact decide_eq_false (by (try dsimp only [rmF, rmV, scQ, low20]) <;> omega) | exact and_of (by (try dsimp only) <;> omega)
    · try simp only [Bool.or_eq_false_iff]
      repeat' apply And.intro
      all_goals first | exact decide_eq_false (by (try dsimp only [rmF, rmV, scQ, low20]) <;> omega) | exact and_of (by (try dsimp only) <;> omega)
    · congr 1
      all_goals first | exact gdOf_of rfl rfl | exact fin16_of (by dsimp only [low20] <;> omega) | exact gOf_of (by dsimp only <;> omega) | exact scopeOf_of (by dsimp only <;> omega)

theorem gat (gd : Guard) (ord : Option Scope) (w : Fin 16) (a : GReg) (x : Fin 16) (e8 : Bool) : Statement (.gat gd ord w a x e8) := by
  have f0 := bCode_lt gd.neg
  have f1 := gd.p.isLt
  have f2 := oscCode_lt ord
  have f3 := oscOn_lt ord
  have f4 := oscCode_zero ord
  have f5 := w.isLt
  have f6 := gCode_lt a
  have f7 := x.isLt
  have f8 := bCode_lt e8
  cases e8 <;>
    (
      refine of_raw rfl ⟨?_, ?_, ?_, ?_, ?_, ?_, ?_, ?_, ?_⟩ fun hw => ?_
      iterate 9 (dsimp only [bCode_true, bCode_false, Nat.reduceMul, Nat.reduceAdd, Nat.reduceDiv, Nat.reduceMod, bCode_true, bCode_false, Nat.reduceMul, Nat.reduceAdd, Nat.reduceDiv, Nat.reduceMod] <;> omega)
      · simp only [decodeRaw, decodeC1, bCode_true, bCode_false, Nat.reduceMul, Nat.reduceAdd, Nat.reduceDiv, Nat.reduceMod, Nat.reduceLT, Nat.zero_mod, reduceIte]
        refine checked1 ?_ ?_
        · try simp only [Bool.or_eq_false_iff]
          repeat' apply And.intro
          all_goals first | exact decide_eq_false (by (try dsimp only [bCode_true, bCode_false, Nat.reduceMul, Nat.reduceAdd, Nat.reduceDiv, Nat.reduceMod, rmF, rmV, scQ, low20]) <;> omega) | exact and_of (by (try dsimp only) <;> omega) | (simp [nz]; done) | rfl | exact badOrder_of (by (try dsimp only) <;> omega) (by (try dsimp only) <;> omega)
        · congr 1
          all_goals first | exact gdOf_of rfl rfl | exact oscOf_of (by (try dsimp only) <;> omega) (by (try dsimp only [bCode_true, bCode_false, Nat.reduceMul, Nat.reduceAdd, Nat.reduceDiv, Nat.reduceMod, scQ]) <;> omega) | exact fin16_of (by (try dsimp only [bCode_true, bCode_false, Nat.reduceMul, Nat.reduceAdd, Nat.reduceDiv, Nat.reduceMod, low20]) <;> omega) | exact gOf_of (by (try dsimp only) <;> omega) | exact bOf_of (by (try dsimp only [bCode_true, bCode_false, Nat.reduceMul, Nat.reduceAdd, Nat.reduceDiv, Nat.reduceMod, low20]) <;> omega))

theorem scat (gd : Guard) (ord : Option Scope) (w : Fin 16) (a : GReg) (x : Fin 16) (e8 : Bool) : Statement (.scat gd ord w a x e8) := by
  have f0 := bCode_lt gd.neg
  have f1 := gd.p.isLt
  have f2 := oscCode_lt ord
  have f3 := oscOn_lt ord
  have f4 := oscCode_zero ord
  have f5 := w.isLt
  have f6 := gCode_lt a
  have f7 := x.isLt
  have f8 := bCode_lt e8
  cases e8 <;>
    (
      refine of_raw rfl ⟨?_, ?_, ?_, ?_, ?_, ?_, ?_, ?_, ?_⟩ fun hw => ?_
      iterate 9 (dsimp only [bCode_true, bCode_false, Nat.reduceMul, Nat.reduceAdd, Nat.reduceDiv, Nat.reduceMod, bCode_true, bCode_false, Nat.reduceMul, Nat.reduceAdd, Nat.reduceDiv, Nat.reduceMod] <;> omega)
      · simp only [decodeRaw, decodeC1, bCode_true, bCode_false, Nat.reduceMul, Nat.reduceAdd, Nat.reduceDiv, Nat.reduceMod, Nat.reduceLT, Nat.zero_mod, reduceIte]
        refine checked1 ?_ ?_
        · try simp only [Bool.or_eq_false_iff]
          repeat' apply And.intro
          all_goals first | exact decide_eq_false (by (try dsimp only [bCode_true, bCode_false, Nat.reduceMul, Nat.reduceAdd, Nat.reduceDiv, Nat.reduceMod, rmF, rmV, scQ, low20]) <;> omega) | exact and_of (by (try dsimp only) <;> omega) | (simp [nz]; done) | rfl | exact badOrder_of (by (try dsimp only) <;> omega) (by (try dsimp only) <;> omega)
        · congr 1
          all_goals first | exact gdOf_of rfl rfl | exact oscOf_of (by (try dsimp only) <;> omega) (by (try dsimp only [bCode_true, bCode_false, Nat.reduceMul, Nat.reduceAdd, Nat.reduceDiv, Nat.reduceMod, scQ]) <;> omega) | exact fin16_of (by (try dsimp only [bCode_true, bCode_false, Nat.reduceMul, Nat.reduceAdd, Nat.reduceDiv, Nat.reduceMod, low20]) <;> omega) | exact gOf_of (by (try dsimp only) <;> omega) | exact bOf_of (by (try dsimp only [bCode_true, bCode_false, Nat.reduceMul, Nat.reduceAdd, Nat.reduceDiv, Nat.reduceMod, low20]) <;> omega))

theorem pf (gd : Guard) (a : GReg) (b : GReg) : Statement (.pf gd a b) := by
  have f0 := bCode_lt gd.neg
  have f1 := gd.p.isLt
  have f2 := gCode_lt a
  have f3 := gCode_lt b
  refine of_raw rfl ⟨?_, ?_, ?_, ?_, ?_, ?_, ?_, ?_, ?_⟩ fun hw => ?_
  iterate 9 (dsimp only; omega)
  · refine checked2 ?_ ?_ ?_
    · try simp only [Bool.or_eq_false_iff]
      repeat' apply And.intro
      all_goals first | exact decide_eq_false (by (try dsimp only [rmF, rmV, scQ, low20]) <;> omega) | exact and_of (by (try dsimp only) <;> omega)
    · try simp only [Bool.or_eq_false_iff]
      repeat' apply And.intro
      all_goals first | exact decide_eq_false (by (try dsimp only [rmF, rmV, scQ, low20]) <;> omega) | exact and_of (by (try dsimp only) <;> omega)
    · congr 1
      all_goals first | exact gdOf_of rfl rfl | exact gOf_of (by dsimp only <;> omega)

theorem ldk (gd : Guard) (k : Fin 16) (a : GReg) (off : BitVec 6) : Statement (.ldk gd k a off) := by
  have f0 := bCode_lt gd.neg
  have f1 := gd.p.isLt
  have f2 := k.isLt
  have f3 := gCode_lt a
  have f4 := off.isLt
  rcases (show k = ⟨0, by decide⟩ ∨ k = ⟨1, by decide⟩ ∨ k = ⟨2, by decide⟩ ∨ k = ⟨3, by decide⟩ ∨ k = ⟨4, by decide⟩ ∨ k = ⟨5, by decide⟩ ∨ k = ⟨6, by decide⟩ ∨ k = ⟨7, by decide⟩ ∨ k = ⟨8, by decide⟩ ∨ k = ⟨9, by decide⟩ ∨ k = ⟨10, by decide⟩ ∨ k = ⟨11, by decide⟩ ∨ k = ⟨12, by decide⟩ ∨ k = ⟨13, by decide⟩ ∨ k = ⟨14, by decide⟩ ∨ k = ⟨15, by decide⟩ by rcases k with ⟨n, hn⟩; simp only [Fin.mk.injEq]; omega) with rfl | rfl | rfl | rfl | rfl | rfl | rfl | rfl | rfl | rfl | rfl | rfl | rfl | rfl | rfl | rfl <;>
    (
      refine of_raw rfl ⟨?_, ?_, ?_, ?_, ?_, ?_, ?_, ?_, ?_⟩ fun hw => ?_
      iterate 9 (dsimp only [bCode_true, bCode_false, Nat.reduceMul, Nat.reduceAdd, Nat.reduceDiv, Nat.reduceMod, bCode_true, bCode_false, Nat.reduceMul, Nat.reduceAdd, Nat.reduceDiv, Nat.reduceMod] <;> omega)
      · simp only [decodeRaw, decodeC1, bCode_true, bCode_false, Nat.reduceMul, Nat.reduceAdd, Nat.reduceDiv, Nat.reduceMod, Nat.reduceLT, Nat.zero_mod, reduceIte]
        refine checked2 ?_ ?_ ?_
        · try simp only [Bool.or_eq_false_iff]
          repeat' apply And.intro
          all_goals first | exact decide_eq_false (by (try dsimp only [bCode_true, bCode_false, Nat.reduceMul, Nat.reduceAdd, Nat.reduceDiv, Nat.reduceMod, rmF, rmV, scQ, low20]) <;> omega) | exact and_of (by (try dsimp only) <;> omega)
        · try simp only [Bool.or_eq_false_iff]
          repeat' apply And.intro
          all_goals first | exact decide_eq_false (by (try dsimp only [bCode_true, bCode_false, Nat.reduceMul, Nat.reduceAdd, Nat.reduceDiv, Nat.reduceMod, rmF, rmV, scQ, low20]) <;> omega) | exact and_of (by (try dsimp only) <;> omega)
        · congr 1
          all_goals first | exact gdOf_of rfl rfl | exact fin16_of (by (try dsimp only [bCode_true, bCode_false, Nat.reduceMul, Nat.reduceAdd, Nat.reduceDiv, Nat.reduceMod, low20]) <;> omega) | exact gOf_of (by (try dsimp only) <;> omega) | exact bv_of (by (try dsimp only [bCode_true, bCode_false, Nat.reduceMul, Nat.reduceAdd, Nat.reduceDiv, Nat.reduceMod, low20, imm14]) <;> omega))

theorem ldkAcq (gd : Guard) (k : Fin 16) (a : GReg) (sc : Scope) : Statement (.ldkAcq gd k a sc) := by
  have f0 := bCode_lt gd.neg
  have f1 := gd.p.isLt
  have f2 := k.isLt
  have f3 := gCode_lt a
  have f4 := scopeCode_lt sc
  rcases (show k = ⟨0, by decide⟩ ∨ k = ⟨1, by decide⟩ ∨ k = ⟨2, by decide⟩ ∨ k = ⟨3, by decide⟩ ∨ k = ⟨4, by decide⟩ ∨ k = ⟨5, by decide⟩ ∨ k = ⟨6, by decide⟩ ∨ k = ⟨7, by decide⟩ ∨ k = ⟨8, by decide⟩ ∨ k = ⟨9, by decide⟩ ∨ k = ⟨10, by decide⟩ ∨ k = ⟨11, by decide⟩ ∨ k = ⟨12, by decide⟩ ∨ k = ⟨13, by decide⟩ ∨ k = ⟨14, by decide⟩ ∨ k = ⟨15, by decide⟩ by rcases k with ⟨n, hn⟩; simp only [Fin.mk.injEq]; omega) with rfl | rfl | rfl | rfl | rfl | rfl | rfl | rfl | rfl | rfl | rfl | rfl | rfl | rfl | rfl | rfl <;>
    (
      refine of_raw rfl ⟨?_, ?_, ?_, ?_, ?_, ?_, ?_, ?_, ?_⟩ fun hw => ?_
      iterate 9 (dsimp only [bCode_true, bCode_false, Nat.reduceMul, Nat.reduceAdd, Nat.reduceDiv, Nat.reduceMod, bCode_true, bCode_false, Nat.reduceMul, Nat.reduceAdd, Nat.reduceDiv, Nat.reduceMod] <;> omega)
      · simp only [decodeRaw, decodeC1, bCode_true, bCode_false, Nat.reduceMul, Nat.reduceAdd, Nat.reduceDiv, Nat.reduceMod, Nat.reduceLT, Nat.zero_mod, reduceIte]
        refine checked3 ?_ ?_ ?_ ?_
        · try simp only [Bool.or_eq_false_iff]
          repeat' apply And.intro
          all_goals first | exact decide_eq_false (by (try dsimp only [bCode_true, bCode_false, Nat.reduceMul, Nat.reduceAdd, Nat.reduceDiv, Nat.reduceMod, rmF, rmV, scQ, low20]) <;> omega) | exact and_of (by (try dsimp only) <;> omega) | (simp [nz]; done) | rfl | exact badOrder_of (by (try dsimp only) <;> omega) (by (try dsimp only) <;> omega)
        · try simp only [Bool.or_eq_false_iff]
          repeat' apply And.intro
          all_goals first | exact decide_eq_false (by (try dsimp only [bCode_true, bCode_false, Nat.reduceMul, Nat.reduceAdd, Nat.reduceDiv, Nat.reduceMod, rmF, rmV, scQ, low20]) <;> omega) | exact and_of (by (try dsimp only) <;> omega) | (simp [nz]; done) | rfl | exact badOrder_of (by (try dsimp only) <;> omega) (by (try dsimp only) <;> omega)
        · try simp only [Bool.or_eq_false_iff]
          repeat' apply And.intro
          all_goals first | exact decide_eq_false (by (try dsimp only [bCode_true, bCode_false, Nat.reduceMul, Nat.reduceAdd, Nat.reduceDiv, Nat.reduceMod, rmF, rmV, scQ, low20]) <;> omega) | exact and_of (by (try dsimp only) <;> omega) | (simp [nz]; done) | rfl | exact badOrder_of (by (try dsimp only) <;> omega) (by (try dsimp only) <;> omega)
        · congr 1
          all_goals first | exact gdOf_of rfl rfl | exact fin16_of (by (try dsimp only [bCode_true, bCode_false, Nat.reduceMul, Nat.reduceAdd, Nat.reduceDiv, Nat.reduceMod, low20]) <;> omega) | exact gOf_of (by (try dsimp only) <;> omega) | exact scopeOf_of (by (try dsimp only) <;> omega))

theorem xld (gd : Guard) (e : Fin 2) (a : GReg) (off : BitVec 6) : Statement (.xld gd e a off) := by
  have f0 := bCode_lt gd.neg
  have f1 := gd.p.isLt
  have f2 := e.isLt
  have f3 := gCode_lt a
  have f4 := off.isLt
  rcases (show e = ⟨0, by decide⟩ ∨ e = ⟨1, by decide⟩ by rcases e with ⟨n, hn⟩; simp only [Fin.mk.injEq]; omega) with rfl | rfl <;>
    (
      refine of_raw rfl ⟨?_, ?_, ?_, ?_, ?_, ?_, ?_, ?_, ?_⟩ fun hw => ?_
      iterate 9 (dsimp only [rmCode, scopeCode, Scope.rank, bCode_true, bCode_false, oscOn, oscCode, Nat.reduceMul, Nat.reduceAdd, Nat.reduceDiv, Nat.reduceMod] <;> omega)
      · simp only [decodeRaw, decodeC1, rmCode, scopeCode, Scope.rank, bCode_true, bCode_false, oscOn, oscCode, Nat.reduceMul, Nat.reduceAdd, Nat.reduceDiv, Nat.reduceMod, Nat.reduceLT, Nat.zero_mod, reduceIte]
        refine checked2 ?_ ?_ ?_
        · try simp only [Bool.or_eq_false_iff]
          repeat' apply And.intro
          all_goals first | exact decide_eq_false (by (try dsimp only [rmCode, scopeCode, Scope.rank, bCode_true, bCode_false, oscOn, oscCode, Nat.reduceMul, Nat.reduceAdd, Nat.reduceDiv, Nat.reduceMod, rmF, rmV, scQ, low20]) <;> omega) | exact and_of (by (try dsimp only) <;> omega) | (simp [nz]; done) | rfl | exact badOrder_of (by (try dsimp only) <;> omega) (by (try dsimp only) <;> omega)
        · try simp only [Bool.or_eq_false_iff]
          repeat' apply And.intro
          all_goals first | exact decide_eq_false (by (try dsimp only [rmCode, scopeCode, Scope.rank, bCode_true, bCode_false, oscOn, oscCode, Nat.reduceMul, Nat.reduceAdd, Nat.reduceDiv, Nat.reduceMod, rmF, rmV, scQ, low20]) <;> omega) | exact and_of (by (try dsimp only) <;> omega) | (simp [nz]; done) | rfl | exact badOrder_of (by (try dsimp only) <;> omega) (by (try dsimp only) <;> omega)
        · congr 1
          all_goals first | exact gdOf_of rfl rfl | exact fin2_of (by (try dsimp only [rmCode, scopeCode, Scope.rank, bCode_true, bCode_false, oscOn, oscCode, Nat.reduceMul, Nat.reduceAdd, Nat.reduceDiv, Nat.reduceMod, low20]) <;> omega) | exact gOf_of (by (try dsimp only) <;> omega) | exact bv_of (by (try dsimp only [rmCode, scopeCode, Scope.rank, bCode_true, bCode_false, oscOn, oscCode, Nat.reduceMul, Nat.reduceAdd, Nat.reduceDiv, Nat.reduceMod, low20, imm14]) <;> omega))

theorem xldAcq (gd : Guard) (e : Fin 2) (a : GReg) (sc : Scope) : Statement (.xldAcq gd e a sc) := by
  have f0 := bCode_lt gd.neg
  have f1 := gd.p.isLt
  have f2 := e.isLt
  have f3 := gCode_lt a
  have f4 := scopeCode_lt sc
  cases sc <;> rcases (show e = ⟨0, by decide⟩ ∨ e = ⟨1, by decide⟩ by rcases e with ⟨n, hn⟩; simp only [Fin.mk.injEq]; omega) with rfl | rfl <;>
    (
      refine of_raw rfl ⟨?_, ?_, ?_, ?_, ?_, ?_, ?_, ?_, ?_⟩ fun hw => ?_
      iterate 9 (dsimp only [rmCode, scopeCode, Scope.rank, bCode_true, bCode_false, oscOn, oscCode, Nat.reduceMul, Nat.reduceAdd, Nat.reduceDiv, Nat.reduceMod] <;> omega)
      · simp only [decodeRaw, decodeC1, rmCode, scopeCode, Scope.rank, bCode_true, bCode_false, oscOn, oscCode, Nat.reduceMul, Nat.reduceAdd, Nat.reduceDiv, Nat.reduceMod, Nat.reduceLT, Nat.zero_mod, reduceIte]
        refine checked2 ?_ ?_ ?_
        · try simp only [Bool.or_eq_false_iff]
          repeat' apply And.intro
          all_goals first | exact decide_eq_false (by (try dsimp only [rmCode, scopeCode, Scope.rank, bCode_true, bCode_false, oscOn, oscCode, Nat.reduceMul, Nat.reduceAdd, Nat.reduceDiv, Nat.reduceMod, rmF, rmV, scQ, low20]) <;> omega) | exact and_of (by (try dsimp only) <;> omega) | (simp [nz]; done) | rfl | exact badOrder_of (by (try dsimp only) <;> omega) (by (try dsimp only) <;> omega)
        · try simp only [Bool.or_eq_false_iff]
          repeat' apply And.intro
          all_goals first | exact decide_eq_false (by (try dsimp only [rmCode, scopeCode, Scope.rank, bCode_true, bCode_false, oscOn, oscCode, Nat.reduceMul, Nat.reduceAdd, Nat.reduceDiv, Nat.reduceMod, rmF, rmV, scQ, low20]) <;> omega) | exact and_of (by (try dsimp only) <;> omega) | (simp [nz]; done) | rfl | exact badOrder_of (by (try dsimp only) <;> omega) (by (try dsimp only) <;> omega)
        · congr 1
          all_goals first | exact gdOf_of rfl rfl | exact fin2_of (by (try dsimp only [rmCode, scopeCode, Scope.rank, bCode_true, bCode_false, oscOn, oscCode, Nat.reduceMul, Nat.reduceAdd, Nat.reduceDiv, Nat.reduceMod, low20]) <;> omega) | exact gOf_of (by (try dsimp only) <;> omega) | exact scopeOf_of (by (try dsimp only) <;> omega))

theorem xst (gd : Guard) (e : Fin 2) (a : GReg) (off : BitVec 6) : Statement (.xst gd e a off) := by
  have f0 := bCode_lt gd.neg
  have f1 := gd.p.isLt
  have f2 := e.isLt
  have f3 := gCode_lt a
  have f4 := off.isLt
  rcases (show e = ⟨0, by decide⟩ ∨ e = ⟨1, by decide⟩ by rcases e with ⟨n, hn⟩; simp only [Fin.mk.injEq]; omega) with rfl | rfl <;>
    (
      refine of_raw rfl ⟨?_, ?_, ?_, ?_, ?_, ?_, ?_, ?_, ?_⟩ fun hw => ?_
      iterate 9 (dsimp only [rmCode, scopeCode, Scope.rank, bCode_true, bCode_false, oscOn, oscCode, Nat.reduceMul, Nat.reduceAdd, Nat.reduceDiv, Nat.reduceMod] <;> omega)
      · simp only [decodeRaw, decodeC1, rmCode, scopeCode, Scope.rank, bCode_true, bCode_false, oscOn, oscCode, Nat.reduceMul, Nat.reduceAdd, Nat.reduceDiv, Nat.reduceMod, Nat.reduceLT, Nat.zero_mod, reduceIte]
        refine checked2 ?_ ?_ ?_
        · try simp only [Bool.or_eq_false_iff]
          repeat' apply And.intro
          all_goals first | exact decide_eq_false (by (try dsimp only [rmCode, scopeCode, Scope.rank, bCode_true, bCode_false, oscOn, oscCode, Nat.reduceMul, Nat.reduceAdd, Nat.reduceDiv, Nat.reduceMod, rmF, rmV, scQ, low20]) <;> omega) | exact and_of (by (try dsimp only) <;> omega) | (simp [nz]; done) | rfl | exact badOrder_of (by (try dsimp only) <;> omega) (by (try dsimp only) <;> omega)
        · try simp only [Bool.or_eq_false_iff]
          repeat' apply And.intro
          all_goals first | exact decide_eq_false (by (try dsimp only [rmCode, scopeCode, Scope.rank, bCode_true, bCode_false, oscOn, oscCode, Nat.reduceMul, Nat.reduceAdd, Nat.reduceDiv, Nat.reduceMod, rmF, rmV, scQ, low20]) <;> omega) | exact and_of (by (try dsimp only) <;> omega) | (simp [nz]; done) | rfl | exact badOrder_of (by (try dsimp only) <;> omega) (by (try dsimp only) <;> omega)
        · congr 1
          all_goals first | exact gdOf_of rfl rfl | exact fin2_of (by (try dsimp only [rmCode, scopeCode, Scope.rank, bCode_true, bCode_false, oscOn, oscCode, Nat.reduceMul, Nat.reduceAdd, Nat.reduceDiv, Nat.reduceMod, low20]) <;> omega) | exact gOf_of (by (try dsimp only) <;> omega) | exact bv_of (by (try dsimp only [rmCode, scopeCode, Scope.rank, bCode_true, bCode_false, oscOn, oscCode, Nat.reduceMul, Nat.reduceAdd, Nat.reduceDiv, Nat.reduceMod, low20, imm14]) <;> omega))

theorem xstRel (gd : Guard) (e : Fin 2) (a : GReg) (sc : Scope) : Statement (.xstRel gd e a sc) := by
  have f0 := bCode_lt gd.neg
  have f1 := gd.p.isLt
  have f2 := e.isLt
  have f3 := gCode_lt a
  have f4 := scopeCode_lt sc
  cases sc <;> rcases (show e = ⟨0, by decide⟩ ∨ e = ⟨1, by decide⟩ by rcases e with ⟨n, hn⟩; simp only [Fin.mk.injEq]; omega) with rfl | rfl <;>
    (
      refine of_raw rfl ⟨?_, ?_, ?_, ?_, ?_, ?_, ?_, ?_, ?_⟩ fun hw => ?_
      iterate 9 (dsimp only [rmCode, scopeCode, Scope.rank, bCode_true, bCode_false, oscOn, oscCode, Nat.reduceMul, Nat.reduceAdd, Nat.reduceDiv, Nat.reduceMod] <;> omega)
      · simp only [decodeRaw, decodeC1, rmCode, scopeCode, Scope.rank, bCode_true, bCode_false, oscOn, oscCode, Nat.reduceMul, Nat.reduceAdd, Nat.reduceDiv, Nat.reduceMod, Nat.reduceLT, Nat.zero_mod, reduceIte]
        refine checked2 ?_ ?_ ?_
        · try simp only [Bool.or_eq_false_iff]
          repeat' apply And.intro
          all_goals first | exact decide_eq_false (by (try dsimp only [rmCode, scopeCode, Scope.rank, bCode_true, bCode_false, oscOn, oscCode, Nat.reduceMul, Nat.reduceAdd, Nat.reduceDiv, Nat.reduceMod, rmF, rmV, scQ, low20]) <;> omega) | exact and_of (by (try dsimp only) <;> omega) | (simp [nz]; done) | rfl | exact badOrder_of (by (try dsimp only) <;> omega) (by (try dsimp only) <;> omega)
        · try simp only [Bool.or_eq_false_iff]
          repeat' apply And.intro
          all_goals first | exact decide_eq_false (by (try dsimp only [rmCode, scopeCode, Scope.rank, bCode_true, bCode_false, oscOn, oscCode, Nat.reduceMul, Nat.reduceAdd, Nat.reduceDiv, Nat.reduceMod, rmF, rmV, scQ, low20]) <;> omega) | exact and_of (by (try dsimp only) <;> omega) | (simp [nz]; done) | rfl | exact badOrder_of (by (try dsimp only) <;> omega) (by (try dsimp only) <;> omega)
        · congr 1
          all_goals first | exact gdOf_of rfl rfl | exact fin2_of (by (try dsimp only [rmCode, scopeCode, Scope.rank, bCode_true, bCode_false, oscOn, oscCode, Nat.reduceMul, Nat.reduceAdd, Nat.reduceDiv, Nat.reduceMod, low20]) <;> omega) | exact gOf_of (by (try dsimp only) <;> omega) | exact scopeOf_of (by (try dsimp only) <;> omega))

theorem amoAdd (gd : Guard) (d : GReg) (a : GReg) (w64 : Bool) (o : AOrd) : Statement (.amoAdd gd d a w64 o) := by
  have f0 := bCode_lt gd.neg
  have f1 := gd.p.isLt
  have f2 := gCode_lt d
  have f3 := gCode_lt a
  have f4 := bCode_lt w64
  have f5 := aordCode_lt o
  have f6 := aordSc_lt o
  have f7 := aordSc_zero o
  refine of_raw rfl ⟨?_, ?_, ?_, ?_, ?_, ?_, ?_, ?_, ?_⟩ fun hw => ?_
  iterate 9 (dsimp only; omega)
  · refine checked1 ?_ ?_
    · try simp only [Bool.or_eq_false_iff]
      repeat' apply And.intro
      all_goals first | exact decide_eq_false (by (try dsimp only [rmF, rmV, scQ, low20]) <;> omega) | exact and_of (by (try dsimp only) <;> omega)
    · congr 1
      all_goals first | exact gdOf_of rfl rfl | exact gOf_of (by dsimp only <;> omega) | exact bOf_of (by dsimp only [low20] <;> omega) | exact aordOf_of (by dsimp only <;> omega) (by dsimp only <;> omega)

theorem amoAnd (gd : Guard) (d : GReg) (a : GReg) (w64 : Bool) (o : AOrd) : Statement (.amoAnd gd d a w64 o) := by
  have f0 := bCode_lt gd.neg
  have f1 := gd.p.isLt
  have f2 := gCode_lt d
  have f3 := gCode_lt a
  have f4 := bCode_lt w64
  have f5 := aordCode_lt o
  have f6 := aordSc_lt o
  have f7 := aordSc_zero o
  refine of_raw rfl ⟨?_, ?_, ?_, ?_, ?_, ?_, ?_, ?_, ?_⟩ fun hw => ?_
  iterate 9 (dsimp only; omega)
  · refine checked1 ?_ ?_
    · try simp only [Bool.or_eq_false_iff]
      repeat' apply And.intro
      all_goals first | exact decide_eq_false (by (try dsimp only [rmF, rmV, scQ, low20]) <;> omega) | exact and_of (by (try dsimp only) <;> omega)
    · congr 1
      all_goals first | exact gdOf_of rfl rfl | exact gOf_of (by dsimp only <;> omega) | exact bOf_of (by dsimp only [low20] <;> omega) | exact aordOf_of (by dsimp only <;> omega) (by dsimp only <;> omega)

theorem amoOr (gd : Guard) (d : GReg) (a : GReg) (w64 : Bool) (o : AOrd) : Statement (.amoOr gd d a w64 o) := by
  have f0 := bCode_lt gd.neg
  have f1 := gd.p.isLt
  have f2 := gCode_lt d
  have f3 := gCode_lt a
  have f4 := bCode_lt w64
  have f5 := aordCode_lt o
  have f6 := aordSc_lt o
  have f7 := aordSc_zero o
  refine of_raw rfl ⟨?_, ?_, ?_, ?_, ?_, ?_, ?_, ?_, ?_⟩ fun hw => ?_
  iterate 9 (dsimp only; omega)
  · refine checked1 ?_ ?_
    · try simp only [Bool.or_eq_false_iff]
      repeat' apply And.intro
      all_goals first | exact decide_eq_false (by (try dsimp only [rmF, rmV, scQ, low20]) <;> omega) | exact and_of (by (try dsimp only) <;> omega)
    · congr 1
      all_goals first | exact gdOf_of rfl rfl | exact gOf_of (by dsimp only <;> omega) | exact bOf_of (by dsimp only [low20] <;> omega) | exact aordOf_of (by dsimp only <;> omega) (by dsimp only <;> omega)

theorem amoXor (gd : Guard) (d : GReg) (a : GReg) (w64 : Bool) (o : AOrd) : Statement (.amoXor gd d a w64 o) := by
  have f0 := bCode_lt gd.neg
  have f1 := gd.p.isLt
  have f2 := gCode_lt d
  have f3 := gCode_lt a
  have f4 := bCode_lt w64
  have f5 := aordCode_lt o
  have f6 := aordSc_lt o
  have f7 := aordSc_zero o
  refine of_raw rfl ⟨?_, ?_, ?_, ?_, ?_, ?_, ?_, ?_, ?_⟩ fun hw => ?_
  iterate 9 (dsimp only; omega)
  · refine checked1 ?_ ?_
    · try simp only [Bool.or_eq_false_iff]
      repeat' apply And.intro
      all_goals first | exact decide_eq_false (by (try dsimp only [rmF, rmV, scQ, low20]) <;> omega) | exact and_of (by (try dsimp only) <;> omega)
    · congr 1
      all_goals first | exact gdOf_of rfl rfl | exact gOf_of (by dsimp only <;> omega) | exact bOf_of (by dsimp only [low20] <;> omega) | exact aordOf_of (by dsimp only <;> omega) (by dsimp only <;> omega)

theorem amoMinI (gd : Guard) (d : GReg) (a : GReg) (w64 : Bool) (o : AOrd) : Statement (.amoMinI gd d a w64 o) := by
  have f0 := bCode_lt gd.neg
  have f1 := gd.p.isLt
  have f2 := gCode_lt d
  have f3 := gCode_lt a
  have f4 := bCode_lt w64
  have f5 := aordCode_lt o
  have f6 := aordSc_lt o
  have f7 := aordSc_zero o
  refine of_raw rfl ⟨?_, ?_, ?_, ?_, ?_, ?_, ?_, ?_, ?_⟩ fun hw => ?_
  iterate 9 (dsimp only; omega)
  · refine checked1 ?_ ?_
    · try simp only [Bool.or_eq_false_iff]
      repeat' apply And.intro
      all_goals first | exact decide_eq_false (by (try dsimp only [rmF, rmV, scQ, low20]) <;> omega) | exact and_of (by (try dsimp only) <;> omega)
    · congr 1
      all_goals first | exact gdOf_of rfl rfl | exact gOf_of (by dsimp only <;> omega) | exact bOf_of (by dsimp only [low20] <;> omega) | exact aordOf_of (by dsimp only <;> omega) (by dsimp only <;> omega)

theorem amoMinN (gd : Guard) (d : GReg) (a : GReg) (w64 : Bool) (o : AOrd) : Statement (.amoMinN gd d a w64 o) := by
  have f0 := bCode_lt gd.neg
  have f1 := gd.p.isLt
  have f2 := gCode_lt d
  have f3 := gCode_lt a
  have f4 := bCode_lt w64
  have f5 := aordCode_lt o
  have f6 := aordSc_lt o
  have f7 := aordSc_zero o
  refine of_raw rfl ⟨?_, ?_, ?_, ?_, ?_, ?_, ?_, ?_, ?_⟩ fun hw => ?_
  iterate 9 (dsimp only; omega)
  · refine checked1 ?_ ?_
    · try simp only [Bool.or_eq_false_iff]
      repeat' apply And.intro
      all_goals first | exact decide_eq_false (by (try dsimp only [rmF, rmV, scQ, low20]) <;> omega) | exact and_of (by (try dsimp only) <;> omega)
    · congr 1
      all_goals first | exact gdOf_of rfl rfl | exact gOf_of (by dsimp only <;> omega) | exact bOf_of (by dsimp only [low20] <;> omega) | exact aordOf_of (by dsimp only <;> omega) (by dsimp only <;> omega)

theorem amoMaxI (gd : Guard) (d : GReg) (a : GReg) (w64 : Bool) (o : AOrd) : Statement (.amoMaxI gd d a w64 o) := by
  have f0 := bCode_lt gd.neg
  have f1 := gd.p.isLt
  have f2 := gCode_lt d
  have f3 := gCode_lt a
  have f4 := bCode_lt w64
  have f5 := aordCode_lt o
  have f6 := aordSc_lt o
  have f7 := aordSc_zero o
  refine of_raw rfl ⟨?_, ?_, ?_, ?_, ?_, ?_, ?_, ?_, ?_⟩ fun hw => ?_
  iterate 9 (dsimp only; omega)
  · refine checked1 ?_ ?_
    · try simp only [Bool.or_eq_false_iff]
      repeat' apply And.intro
      all_goals first | exact decide_eq_false (by (try dsimp only [rmF, rmV, scQ, low20]) <;> omega) | exact and_of (by (try dsimp only) <;> omega)
    · congr 1
      all_goals first | exact gdOf_of rfl rfl | exact gOf_of (by dsimp only <;> omega) | exact bOf_of (by dsimp only [low20] <;> omega) | exact aordOf_of (by dsimp only <;> omega) (by dsimp only <;> omega)

theorem amoMaxN (gd : Guard) (d : GReg) (a : GReg) (w64 : Bool) (o : AOrd) : Statement (.amoMaxN gd d a w64 o) := by
  have f0 := bCode_lt gd.neg
  have f1 := gd.p.isLt
  have f2 := gCode_lt d
  have f3 := gCode_lt a
  have f4 := bCode_lt w64
  have f5 := aordCode_lt o
  have f6 := aordSc_lt o
  have f7 := aordSc_zero o
  refine of_raw rfl ⟨?_, ?_, ?_, ?_, ?_, ?_, ?_, ?_, ?_⟩ fun hw => ?_
  iterate 9 (dsimp only; omega)
  · refine checked1 ?_ ?_
    · try simp only [Bool.or_eq_false_iff]
      repeat' apply And.intro
      all_goals first | exact decide_eq_false (by (try dsimp only [rmF, rmV, scQ, low20]) <;> omega) | exact and_of (by (try dsimp only) <;> omega)
    · congr 1
      all_goals first | exact gdOf_of rfl rfl | exact gOf_of (by dsimp only <;> omega) | exact bOf_of (by dsimp only [low20] <;> omega) | exact aordOf_of (by dsimp only <;> omega) (by dsimp only <;> omega)

theorem amoSwap (gd : Guard) (d : GReg) (a : GReg) (w64 : Bool) (o : AOrd) : Statement (.amoSwap gd d a w64 o) := by
  have f0 := bCode_lt gd.neg
  have f1 := gd.p.isLt
  have f2 := gCode_lt d
  have f3 := gCode_lt a
  have f4 := bCode_lt w64
  have f5 := aordCode_lt o
  have f6 := aordSc_lt o
  have f7 := aordSc_zero o
  refine of_raw rfl ⟨?_, ?_, ?_, ?_, ?_, ?_, ?_, ?_, ?_⟩ fun hw => ?_
  iterate 9 (dsimp only; omega)
  · refine checked1 ?_ ?_
    · try simp only [Bool.or_eq_false_iff]
      repeat' apply And.intro
      all_goals first | exact decide_eq_false (by (try dsimp only [rmF, rmV, scQ, low20]) <;> omega) | exact and_of (by (try dsimp only) <;> omega)
    · congr 1
      all_goals first | exact gdOf_of rfl rfl | exact gOf_of (by dsimp only <;> omega) | exact bOf_of (by dsimp only [low20] <;> omega) | exact aordOf_of (by dsimp only <;> omega) (by dsimp only <;> omega)

theorem amoPmin (gd : Guard) (d : GReg) (a : GReg) (o : AOrd) : Statement (.amoPmin gd d a o) := by
  have f0 := bCode_lt gd.neg
  have f1 := gd.p.isLt
  have f2 := gCode_lt d
  have f3 := gCode_lt a
  have f4 := aordCode_lt o
  have f5 := aordSc_lt o
  have f6 := aordSc_zero o
  refine of_raw rfl ⟨?_, ?_, ?_, ?_, ?_, ?_, ?_, ?_, ?_⟩ fun hw => ?_
  iterate 9 (dsimp only; omega)
  · refine checked2 ?_ ?_ ?_
    · try simp only [Bool.or_eq_false_iff]
      repeat' apply And.intro
      all_goals first | exact decide_eq_false (by (try dsimp only [rmF, rmV, scQ, low20]) <;> omega) | exact and_of (by (try dsimp only) <;> omega)
    · try simp only [Bool.or_eq_false_iff]
      repeat' apply And.intro
      all_goals first | exact decide_eq_false (by (try dsimp only [rmF, rmV, scQ, low20]) <;> omega) | exact and_of (by (try dsimp only) <;> omega)
    · congr 1
      all_goals first | exact gdOf_of rfl rfl | exact gOf_of (by dsimp only <;> omega) | exact aordOf_of (by dsimp only <;> omega) (by dsimp only <;> omega)

theorem cas (gd : Guard) (d : GReg) (a : GReg) (w64 : Bool) (o : AOrd) : Statement (.cas gd d a w64 o) := by
  have f0 := bCode_lt gd.neg
  have f1 := gd.p.isLt
  have f2 := gCode_lt d
  have f3 := gCode_lt a
  have f4 := bCode_lt w64
  have f5 := aordCode_lt o
  have f6 := aordSc_lt o
  have f7 := aordSc_zero o
  refine of_raw rfl ⟨?_, ?_, ?_, ?_, ?_, ?_, ?_, ?_, ?_⟩ fun hw => ?_
  iterate 9 (dsimp only; omega)
  · have hq : d.num.val % 2 = 0 := of_decide_eq_true hw
    have hg := gCode_mod d
    refine checked2 ?_ ?_ ?_
    · try simp only [Bool.or_eq_false_iff]
      repeat' apply And.intro
      all_goals first | exact decide_eq_false (by (try dsimp only [rmF, rmV, scQ, low20]) <;> omega) | exact and_of (by (try dsimp only) <;> omega)
    · try simp only [Bool.or_eq_false_iff]
      repeat' apply And.intro
      all_goals first | exact decide_eq_false (by (try dsimp only [rmF, rmV, scQ, low20]) <;> omega) | exact and_of (by (try dsimp only) <;> omega)
    · congr 1
      all_goals first | exact gdOf_of rfl rfl | exact gOf_of (by dsimp only <;> omega) | exact bOf_of (by dsimp only [low20] <;> omega) | exact aordOf_of (by dsimp only <;> omega) (by dsimp only <;> omega)

theorem cas2 (gd : Guard) (d : GReg) (a : GReg) (o : AOrd) : Statement (.cas2 gd d a o) := by
  have f0 := bCode_lt gd.neg
  have f1 := gd.p.isLt
  have f2 := gCode_lt d
  have f3 := gCode_lt a
  have f4 := aordCode_lt o
  have f5 := aordSc_lt o
  have f6 := aordSc_zero o
  refine of_raw rfl ⟨?_, ?_, ?_, ?_, ?_, ?_, ?_, ?_, ?_⟩ fun hw => ?_
  iterate 9 (dsimp only; omega)
  · have hq : d.num.val % 4 = 0 := of_decide_eq_true hw
    have hg := gCode_mod d
    refine checked3 ?_ ?_ ?_ ?_
    · try simp only [Bool.or_eq_false_iff]
      repeat' apply And.intro
      all_goals first | exact decide_eq_false (by (try dsimp only [rmF, rmV, scQ, low20]) <;> omega) | exact and_of (by (try dsimp only) <;> omega)
    · try simp only [Bool.or_eq_false_iff]
      repeat' apply And.intro
      all_goals first | exact decide_eq_false (by (try dsimp only [rmF, rmV, scQ, low20]) <;> omega) | exact and_of (by (try dsimp only) <;> omega)
    · try simp only [Bool.or_eq_false_iff]
      repeat' apply And.intro
      all_goals first | exact decide_eq_false (by (try dsimp only [rmF, rmV, scQ, low20]) <;> omega) | exact and_of (by (try dsimp only) <;> omega)
    · congr 1
      all_goals first | exact gdOf_of rfl rfl | exact gOf_of (by dsimp only <;> omega) | exact aordOf_of (by dsimp only <;> omega) (by dsimp only <;> omega)

theorem amofF32 (gd : Guard) (d : GReg) (a : GReg) (o : AOrd) : Statement (.amofF32 gd d a o) := by
  have f0 := bCode_lt gd.neg
  have f1 := gd.p.isLt
  have f2 := gCode_lt d
  have f3 := gCode_lt a
  have f4 := aordCode_lt o
  have f5 := aordSc_lt o
  have f6 := aordSc_zero o
  refine of_raw rfl ⟨?_, ?_, ?_, ?_, ?_, ?_, ?_, ?_, ?_⟩ fun hw => ?_
  iterate 9 (dsimp only; omega)
  · refine checked2 ?_ ?_ ?_
    · try simp only [Bool.or_eq_false_iff]
      repeat' apply And.intro
      all_goals first | exact decide_eq_false (by (try dsimp only [rmF, rmV, scQ, low20]) <;> omega) | exact and_of (by (try dsimp only) <;> omega)
    · try simp only [Bool.or_eq_false_iff]
      repeat' apply And.intro
      all_goals first | exact decide_eq_false (by (try dsimp only [rmF, rmV, scQ, low20]) <;> omega) | exact and_of (by (try dsimp only) <;> omega)
    · congr 1
      all_goals first | exact gdOf_of rfl rfl | exact gOf_of (by dsimp only <;> omega) | exact aordOf_of (by dsimp only <;> omega) (by dsimp only <;> omega)

theorem amofF64 (gd : Guard) (d : GReg) (a : GReg) (o : AOrd) : Statement (.amofF64 gd d a o) := by
  have f0 := bCode_lt gd.neg
  have f1 := gd.p.isLt
  have f2 := gCode_lt d
  have f3 := gCode_lt a
  have f4 := aordCode_lt o
  have f5 := aordSc_lt o
  have f6 := aordSc_zero o
  refine of_raw rfl ⟨?_, ?_, ?_, ?_, ?_, ?_, ?_, ?_, ?_⟩ fun hw => ?_
  iterate 9 (dsimp only; omega)
  · refine checked2 ?_ ?_ ?_
    · try simp only [Bool.or_eq_false_iff]
      repeat' apply And.intro
      all_goals first | exact decide_eq_false (by (try dsimp only [rmF, rmV, scQ, low20]) <;> omega) | exact and_of (by (try dsimp only) <;> omega)
    · try simp only [Bool.or_eq_false_iff]
      repeat' apply And.intro
      all_goals first | exact decide_eq_false (by (try dsimp only [rmF, rmV, scQ, low20]) <;> omega) | exact and_of (by (try dsimp only) <;> omega)
    · congr 1
      all_goals first | exact gdOf_of rfl rfl | exact gOf_of (by dsimp only <;> omega) | exact aordOf_of (by dsimp only <;> omega) (by dsimp only <;> omega)

theorem amoxF32 (gd : Guard) (d : GReg) (a : GReg) (o : AOrd) : Statement (.amoxF32 gd d a o) := by
  have f0 := bCode_lt gd.neg
  have f1 := gd.p.isLt
  have f2 := gCode_lt d
  have f3 := gCode_lt a
  have f4 := aordCode_lt o
  have f5 := aordSc_lt o
  have f6 := aordSc_zero o
  refine of_raw rfl ⟨?_, ?_, ?_, ?_, ?_, ?_, ?_, ?_, ?_⟩ fun hw => ?_
  iterate 9 (dsimp only; omega)
  · refine checked2 ?_ ?_ ?_
    · try simp only [Bool.or_eq_false_iff]
      repeat' apply And.intro
      all_goals first | exact decide_eq_false (by (try dsimp only [rmF, rmV, scQ, low20]) <;> omega) | exact and_of (by (try dsimp only) <;> omega)
    · try simp only [Bool.or_eq_false_iff]
      repeat' apply And.intro
      all_goals first | exact decide_eq_false (by (try dsimp only [rmF, rmV, scQ, low20]) <;> omega) | exact and_of (by (try dsimp only) <;> omega)
    · congr 1
      all_goals first | exact gdOf_of rfl rfl | exact gOf_of (by dsimp only <;> omega) | exact aordOf_of (by dsimp only <;> omega) (by dsimp only <;> omega)

theorem amoxF64 (gd : Guard) (d : GReg) (a : GReg) (o : AOrd) : Statement (.amoxF64 gd d a o) := by
  have f0 := bCode_lt gd.neg
  have f1 := gd.p.isLt
  have f2 := gCode_lt d
  have f3 := gCode_lt a
  have f4 := aordCode_lt o
  have f5 := aordSc_lt o
  have f6 := aordSc_zero o
  refine of_raw rfl ⟨?_, ?_, ?_, ?_, ?_, ?_, ?_, ?_, ?_⟩ fun hw => ?_
  iterate 9 (dsimp only; omega)
  · refine checked2 ?_ ?_ ?_
    · try simp only [Bool.or_eq_false_iff]
      repeat' apply And.intro
      all_goals first | exact decide_eq_false (by (try dsimp only [rmF, rmV, scQ, low20]) <;> omega) | exact and_of (by (try dsimp only) <;> omega)
    · try simp only [Bool.or_eq_false_iff]
      repeat' apply And.intro
      all_goals first | exact decide_eq_false (by (try dsimp only [rmF, rmV, scQ, low20]) <;> omega) | exact and_of (by (try dsimp only) <;> omega)
    · congr 1
      all_goals first | exact gdOf_of rfl rfl | exact gOf_of (by dsimp only <;> omega) | exact aordOf_of (by dsimp only <;> omega) (by dsimp only <;> omega)

theorem fenceAcq (gd : Guard) (sc : Scope) : Statement (.fenceAcq gd sc) := by
  have f0 := bCode_lt gd.neg
  have f1 := gd.p.isLt
  have f2 := scopeCode_lt sc
  refine of_raw rfl ⟨?_, ?_, ?_, ?_, ?_, ?_, ?_, ?_, ?_⟩ fun hw => ?_
  iterate 9 (dsimp only; omega)
  · refine checked2 ?_ ?_ ?_
    · try simp only [Bool.or_eq_false_iff]
      repeat' apply And.intro
      all_goals first | exact decide_eq_false (by (try dsimp only [rmF, rmV, scQ, low20]) <;> omega) | exact and_of (by (try dsimp only) <;> omega)
    · try simp only [Bool.or_eq_false_iff]
      repeat' apply And.intro
      all_goals first | exact decide_eq_false (by (try dsimp only [rmF, rmV, scQ, low20]) <;> omega) | exact and_of (by (try dsimp only) <;> omega)
    · congr 1
      all_goals first | exact gdOf_of rfl rfl | exact scopeOf_of (by dsimp only <;> omega)

theorem fenceRel (gd : Guard) (sc : Scope) : Statement (.fenceRel gd sc) := by
  have f0 := bCode_lt gd.neg
  have f1 := gd.p.isLt
  have f2 := scopeCode_lt sc
  refine of_raw rfl ⟨?_, ?_, ?_, ?_, ?_, ?_, ?_, ?_, ?_⟩ fun hw => ?_
  iterate 9 (dsimp only; omega)
  · refine checked2 ?_ ?_ ?_
    · try simp only [Bool.or_eq_false_iff]
      repeat' apply And.intro
      all_goals first | exact decide_eq_false (by (try dsimp only [rmF, rmV, scQ, low20]) <;> omega) | exact and_of (by (try dsimp only) <;> omega)
    · try simp only [Bool.or_eq_false_iff]
      repeat' apply And.intro
      all_goals first | exact decide_eq_false (by (try dsimp only [rmF, rmV, scQ, low20]) <;> omega) | exact and_of (by (try dsimp only) <;> omega)
    · congr 1
      all_goals first | exact gdOf_of rfl rfl | exact scopeOf_of (by dsimp only <;> omega)

theorem fenceAr (gd : Guard) (sc : Scope) : Statement (.fenceAr gd sc) := by
  have f0 := bCode_lt gd.neg
  have f1 := gd.p.isLt
  have f2 := scopeCode_lt sc
  refine of_raw rfl ⟨?_, ?_, ?_, ?_, ?_, ?_, ?_, ?_, ?_⟩ fun hw => ?_
  iterate 9 (dsimp only; omega)
  · refine checked2 ?_ ?_ ?_
    · try simp only [Bool.or_eq_false_iff]
      repeat' apply And.intro
      all_goals first | exact decide_eq_false (by (try dsimp only [rmF, rmV, scQ, low20]) <;> omega) | exact and_of (by (try dsimp only) <;> omega)
    · try simp only [Bool.or_eq_false_iff]
      repeat' apply And.intro
      all_goals first | exact decide_eq_false (by (try dsimp only [rmF, rmV, scQ, low20]) <;> omega) | exact and_of (by (try dsimp only) <;> omega)
    · congr 1
      all_goals first | exact gdOf_of rfl rfl | exact scopeOf_of (by dsimp only <;> omega)

theorem fenceSc (gd : Guard) (sc : Scope) : Statement (.fenceSc gd sc) := by
  have f0 := bCode_lt gd.neg
  have f1 := gd.p.isLt
  have f2 := scopeCode_lt sc
  refine of_raw rfl ⟨?_, ?_, ?_, ?_, ?_, ?_, ?_, ?_, ?_⟩ fun hw => ?_
  iterate 9 (dsimp only; omega)
  · refine checked2 ?_ ?_ ?_
    · try simp only [Bool.or_eq_false_iff]
      repeat' apply And.intro
      all_goals first | exact decide_eq_false (by (try dsimp only [rmF, rmV, scQ, low20]) <;> omega) | exact and_of (by (try dsimp only) <;> omega)
    · try simp only [Bool.or_eq_false_iff]
      repeat' apply And.intro
      all_goals first | exact decide_eq_false (by (try dsimp only [rmF, rmV, scQ, low20]) <;> omega) | exact and_of (by (try dsimp only) <;> omega)
    · congr 1
      all_goals first | exact gdOf_of rfl rfl | exact scopeOf_of (by dsimp only <;> omega)

theorem wait (gd : Guard) (d : GReg) (a : GReg) (w64 : Bool) (acq : Option Scope) : Statement (.wait gd d a w64 acq) := by
  have f0 := bCode_lt gd.neg
  have f1 := gd.p.isLt
  have f2 := gCode_lt d
  have f3 := gCode_lt a
  have f4 := bCode_lt w64
  have f5 := oscCode_lt acq
  have f6 := oscOn_lt acq
  have f7 := oscCode_zero acq
  refine of_raw rfl ⟨?_, ?_, ?_, ?_, ?_, ?_, ?_, ?_, ?_⟩ fun hw => ?_
  iterate 9 (dsimp only; omega)
  · have hq : d.num.val % 2 = 0 := of_decide_eq_true hw
    have hg := gCode_mod d
    refine checked4 ?_ ?_ ?_ ?_ ?_
    · try simp only [Bool.or_eq_false_iff]
      repeat' apply And.intro
      all_goals first | exact decide_eq_false (by (try dsimp only [rmF, rmV, scQ, low20]) <;> omega) | exact and_of (by (try dsimp only) <;> omega)
    · try simp only [Bool.or_eq_false_iff]
      repeat' apply And.intro
      all_goals first | exact decide_eq_false (by (try dsimp only [rmF, rmV, scQ, low20]) <;> omega) | exact and_of (by (try dsimp only) <;> omega)
    · try simp only [Bool.or_eq_false_iff]
      repeat' apply And.intro
      all_goals first | exact decide_eq_false (by (try dsimp only [rmF, rmV, scQ, low20]) <;> omega) | exact and_of (by (try dsimp only) <;> omega)
    · try simp only [Bool.or_eq_false_iff]
      repeat' apply And.intro
      all_goals first | exact decide_eq_false (by (try dsimp only [rmF, rmV, scQ, low20]) <;> omega) | exact and_of (by (try dsimp only) <;> omega)
    · congr 1
      all_goals first | exact gdOf_of rfl rfl | exact gOf_of (by dsimp only <;> omega) | exact bOf_of (by dsimp only [low20] <;> omega) | exact oscOf_of (by dsimp only <;> omega) (by dsimp only [scQ] <;> omega)

theorem cpy (gd : Guard) (rel : Option Scope) (d : Fin 32) (a : Fin 32) (b : Fin 32) : Statement (.cpy gd rel d a b) := by
  have f0 := bCode_lt gd.neg
  have f1 := gd.p.isLt
  have f2 := oscCode_lt rel
  have f3 := oscOn_lt rel
  have f4 := oscCode_zero rel
  have f5 := d.isLt
  have f6 := a.isLt
  have f7 := b.isLt
  refine of_raw rfl ⟨?_, ?_, ?_, ?_, ?_, ?_, ?_, ?_, ?_⟩ fun hw => ?_
  iterate 9 (dsimp only; omega)
  · refine checked2 ?_ ?_ ?_
    · try simp only [Bool.or_eq_false_iff]
      repeat' apply And.intro
      all_goals first | exact decide_eq_false (by (try dsimp only [rmF, rmV, scQ, low20]) <;> omega) | exact and_of (by (try dsimp only) <;> omega)
    · try simp only [Bool.or_eq_false_iff]
      repeat' apply And.intro
      all_goals first | exact decide_eq_false (by (try dsimp only [rmF, rmV, scQ, low20]) <;> omega) | exact and_of (by (try dsimp only) <;> omega)
    · congr 1
      all_goals first | exact gdOf_of rfl rfl | exact oscOf_of (by dsimp only <;> omega) (by dsimp only [scQ] <;> omega) | exact fin32_of (by dsimp only [low20] <;> omega)

theorem tld (gd : Guard) (rel : Option Scope) (d : Fin 32) (a : Fin 32) (b : Fin 32) : Statement (.tld gd rel d a b) := by
  have f0 := bCode_lt gd.neg
  have f1 := gd.p.isLt
  have f2 := oscCode_lt rel
  have f3 := oscOn_lt rel
  have f4 := oscCode_zero rel
  have f5 := d.isLt
  have f6 := a.isLt
  have f7 := b.isLt
  refine of_raw rfl ⟨?_, ?_, ?_, ?_, ?_, ?_, ?_, ?_, ?_⟩ fun hw => ?_
  iterate 9 (dsimp only; omega)
  · have hq : d.val % 2 = 0 := of_decide_eq_true hw
    refine checked3 ?_ ?_ ?_ ?_
    · try simp only [Bool.or_eq_false_iff]
      repeat' apply And.intro
      all_goals first | exact decide_eq_false (by (try dsimp only [rmF, rmV, scQ, low20]) <;> omega) | exact and_of (by (try dsimp only) <;> omega)
    · try simp only [Bool.or_eq_false_iff]
      repeat' apply And.intro
      all_goals first | exact decide_eq_false (by (try dsimp only [rmF, rmV, scQ, low20]) <;> omega) | exact and_of (by (try dsimp only) <;> omega)
    · try simp only [Bool.or_eq_false_iff]
      repeat' apply And.intro
      all_goals first | exact decide_eq_false (by (try dsimp only [rmF, rmV, scQ, low20]) <;> omega) | exact and_of (by (try dsimp only) <;> omega)
    · congr 1
      all_goals first | exact gdOf_of rfl rfl | exact oscOf_of (by dsimp only <;> omega) (by dsimp only [scQ] <;> omega) | exact fin32_of (by dsimp only [low20] <;> omega)

theorem tldm (gd : Guard) (rel : Option Scope) (d : Fin 32) (a : Fin 32) (b : Fin 32) : Statement (.tldm gd rel d a b) := by
  have f0 := bCode_lt gd.neg
  have f1 := gd.p.isLt
  have f2 := oscCode_lt rel
  have f3 := oscOn_lt rel
  have f4 := oscCode_zero rel
  have f5 := d.isLt
  have f6 := a.isLt
  have f7 := b.isLt
  refine of_raw rfl ⟨?_, ?_, ?_, ?_, ?_, ?_, ?_, ?_, ?_⟩ fun hw => ?_
  iterate 9 (dsimp only; omega)
  · have hq : d.val % 2 = 0 := of_decide_eq_true hw
    refine checked3 ?_ ?_ ?_ ?_
    · try simp only [Bool.or_eq_false_iff]
      repeat' apply And.intro
      all_goals first | exact decide_eq_false (by (try dsimp only [rmF, rmV, scQ, low20]) <;> omega) | exact and_of (by (try dsimp only) <;> omega)
    · try simp only [Bool.or_eq_false_iff]
      repeat' apply And.intro
      all_goals first | exact decide_eq_false (by (try dsimp only [rmF, rmV, scQ, low20]) <;> omega) | exact and_of (by (try dsimp only) <;> omega)
    · try simp only [Bool.or_eq_false_iff]
      repeat' apply And.intro
      all_goals first | exact decide_eq_false (by (try dsimp only [rmF, rmV, scQ, low20]) <;> omega) | exact and_of (by (try dsimp only) <;> omega)
    · congr 1
      all_goals first | exact gdOf_of rfl rfl | exact oscOf_of (by dsimp only <;> omega) (by dsimp only [scQ] <;> omega) | exact fin32_of (by dsimp only [low20] <;> omega)

theorem chase (gd : Guard) (rel : Option Scope) (d : Fin 32) (a : Fin 32) (b : Fin 32) : Statement (.chase gd rel d a b) := by
  have f0 := bCode_lt gd.neg
  have f1 := gd.p.isLt
  have f2 := oscCode_lt rel
  have f3 := oscOn_lt rel
  have f4 := oscCode_zero rel
  have f5 := d.isLt
  have f6 := a.isLt
  have f7 := b.isLt
  refine of_raw rfl ⟨?_, ?_, ?_, ?_, ?_, ?_, ?_, ?_, ?_⟩ fun hw => ?_
  iterate 9 (dsimp only; omega)
  · have hq : d.val % 2 = 0 := of_decide_eq_true hw
    refine checked3 ?_ ?_ ?_ ?_
    · try simp only [Bool.or_eq_false_iff]
      repeat' apply And.intro
      all_goals first | exact decide_eq_false (by (try dsimp only [rmF, rmV, scQ, low20]) <;> omega) | exact and_of (by (try dsimp only) <;> omega)
    · try simp only [Bool.or_eq_false_iff]
      repeat' apply And.intro
      all_goals first | exact decide_eq_false (by (try dsimp only [rmF, rmV, scQ, low20]) <;> omega) | exact and_of (by (try dsimp only) <;> omega)
    · try simp only [Bool.or_eq_false_iff]
      repeat' apply And.intro
      all_goals first | exact decide_eq_false (by (try dsimp only [rmF, rmV, scQ, low20]) <;> omega) | exact and_of (by (try dsimp only) <;> omega)
    · congr 1
      all_goals first | exact gdOf_of rfl rfl | exact oscOf_of (by dsimp only <;> omega) (by dsimp only [scQ] <;> omega) | exact fin32_of (by dsimp only [low20] <;> omega)

theorem multicastSub (gd : Guard) (a : GReg) : Statement (.multicastSub gd a) := by
  have f0 := bCode_lt gd.neg
  have f1 := gd.p.isLt
  have f2 := gCode_lt a
  refine of_raw rfl ⟨?_, ?_, ?_, ?_, ?_, ?_, ?_, ?_, ?_⟩ fun hw => ?_
  iterate 9 (dsimp only; omega)
  · refine checked1 ?_ ?_
    · try simp only [Bool.or_eq_false_iff]
      repeat' apply And.intro
      all_goals first | exact decide_eq_false (by (try dsimp only [rmF, rmV, scQ, low20]) <;> omega) | exact and_of (by (try dsimp only) <;> omega)
    · congr 1
      all_goals first | exact gdOf_of rfl rfl | exact gOf_of (by dsimp only <;> omega)

theorem multicastUnsub (gd : Guard) (a : GReg) : Statement (.multicastUnsub gd a) := by
  have f0 := bCode_lt gd.neg
  have f1 := gd.p.isLt
  have f2 := gCode_lt a
  refine of_raw rfl ⟨?_, ?_, ?_, ?_, ?_, ?_, ?_, ?_, ?_⟩ fun hw => ?_
  iterate 9 (dsimp only; omega)
  · refine checked1 ?_ ?_
    · try simp only [Bool.or_eq_false_iff]
      repeat' apply And.intro
      all_goals first | exact decide_eq_false (by (try dsimp only [rmF, rmV, scQ, low20]) <;> omega) | exact and_of (by (try dsimp only) <;> omega)
    · congr 1
      all_goals first | exact gdOf_of rfl rfl | exact gOf_of (by dsimp only <;> omega)

theorem tbinit (gd : Guard) (b : Fin 16) (a : GReg) : Statement (.tbinit gd b a) := by
  have f0 := bCode_lt gd.neg
  have f1 := gd.p.isLt
  have f2 := b.isLt
  have f3 := gCode_lt a
  refine of_raw rfl ⟨?_, ?_, ?_, ?_, ?_, ?_, ?_, ?_, ?_⟩ fun hw => ?_
  iterate 9 (dsimp only; omega)
  · refine checked1 ?_ ?_
    · try simp only [Bool.or_eq_false_iff]
      repeat' apply And.intro
      all_goals first | exact decide_eq_false (by (try dsimp only [rmF, rmV, scQ, low20]) <;> omega) | exact and_of (by (try dsimp only) <;> omega)
    · congr 1
      all_goals first | exact gdOf_of rfl rfl | exact fin16_of (by dsimp only [low20] <;> omega) | exact gOf_of (by dsimp only <;> omega)

theorem tbexp (gd : Guard) (b : Fin 16) (a : GReg) : Statement (.tbexp gd b a) := by
  have f0 := bCode_lt gd.neg
  have f1 := gd.p.isLt
  have f2 := b.isLt
  have f3 := gCode_lt a
  refine of_raw rfl ⟨?_, ?_, ?_, ?_, ?_, ?_, ?_, ?_, ?_⟩ fun hw => ?_
  iterate 9 (dsimp only; omega)
  · refine checked1 ?_ ?_
    · try simp only [Bool.or_eq_false_iff]
      repeat' apply And.intro
      all_goals first | exact decide_eq_false (by (try dsimp only [rmF, rmV, scQ, low20]) <;> omega) | exact and_of (by (try dsimp only) <;> omega)
    · congr 1
      all_goals first | exact gdOf_of rfl rfl | exact fin16_of (by dsimp only [low20] <;> omega) | exact gOf_of (by dsimp only <;> omega)

theorem tbarr (gd : Guard) (b : Fin 16) : Statement (.tbarr gd b) := by
  have f0 := bCode_lt gd.neg
  have f1 := gd.p.isLt
  have f2 := b.isLt
  refine of_raw rfl ⟨?_, ?_, ?_, ?_, ?_, ?_, ?_, ?_, ?_⟩ fun hw => ?_
  iterate 9 (dsimp only; omega)
  · refine checked1 ?_ ?_
    · try simp only [Bool.or_eq_false_iff]
      repeat' apply And.intro
      all_goals first | exact decide_eq_false (by (try dsimp only [rmF, rmV, scQ, low20]) <;> omega) | exact and_of (by (try dsimp only) <;> omega)
    · congr 1
      all_goals first | exact gdOf_of rfl rfl | exact fin16_of (by dsimp only [low20] <;> omega)

theorem tbwait (gd : Guard) (b : Fin 16) : Statement (.tbwait gd b) := by
  have f0 := bCode_lt gd.neg
  have f1 := gd.p.isLt
  have f2 := b.isLt
  refine of_raw rfl ⟨?_, ?_, ?_, ?_, ?_, ?_, ?_, ?_, ?_⟩ fun hw => ?_
  iterate 9 (dsimp only; omega)
  · refine checked1 ?_ ?_
    · try simp only [Bool.or_eq_false_iff]
      repeat' apply And.intro
      all_goals first | exact decide_eq_false (by (try dsimp only [rmF, rmV, scQ, low20]) <;> omega) | exact and_of (by (try dsimp only) <;> omega)
    · congr 1
      all_goals first | exact gdOf_of rfl rfl | exact fin16_of (by dsimp only [low20] <;> omega)

theorem tbtest (gd : Guard) (p : Fin 8) (b : Fin 16) : Statement (.tbtest gd p b) := by
  have f0 := bCode_lt gd.neg
  have f1 := gd.p.isLt
  have f2 := p.isLt
  have f3 := b.isLt
  refine of_raw rfl ⟨?_, ?_, ?_, ?_, ?_, ?_, ?_, ?_, ?_⟩ fun hw => ?_
  iterate 9 (dsimp only; omega)
  · refine checked1 ?_ ?_
    · try simp only [Bool.or_eq_false_iff]
      repeat' apply And.intro
      all_goals first | exact decide_eq_false (by (try dsimp only [rmF, rmV, scQ, low20]) <;> omega) | exact and_of (by (try dsimp only) <;> omega)
    · congr 1
      all_goals first | exact gdOf_of rfl rfl | exact fin8_of (by dsimp only [low20] <;> omega) | exact fin16_of (by dsimp only [low20] <;> omega)

theorem bbarr (gd : Guard) : Statement (.bbarr gd) := by
  have f0 := bCode_lt gd.neg
  have f1 := gd.p.isLt
  refine of_raw rfl ⟨?_, ?_, ?_, ?_, ?_, ?_, ?_, ?_, ?_⟩ fun hw => ?_
  iterate 9 (dsimp only; omega)
  · refine checked1 ?_ ?_
    · try simp only [Bool.or_eq_false_iff]
      repeat' apply And.intro
      all_goals first | exact decide_eq_false (by (try dsimp only [rmF, rmV, scQ, low20]) <;> omega) | exact and_of (by (try dsimp only) <;> omega)
    · congr 1
      all_goals first | exact gdOf_of rfl rfl

theorem bbwait (gd : Guard) : Statement (.bbwait gd) := by
  have f0 := bCode_lt gd.neg
  have f1 := gd.p.isLt
  refine of_raw rfl ⟨?_, ?_, ?_, ?_, ?_, ?_, ?_, ?_, ?_⟩ fun hw => ?_
  iterate 9 (dsimp only; omega)
  · refine checked1 ?_ ?_
    · try simp only [Bool.or_eq_false_iff]
      repeat' apply And.intro
      all_goals first | exact decide_eq_false (by (try dsimp only [rmF, rmV, scQ, low20]) <;> omega) | exact and_of (by (try dsimp only) <;> omega)
    · congr 1
      all_goals first | exact gdOf_of rfl rfl

theorem send (gd : Guard) (a : GReg) (w : Fin 16) : Statement (.send gd a w) := by
  have f0 := bCode_lt gd.neg
  have f1 := gd.p.isLt
  have f2 := gCode_lt a
  have f3 := w.isLt
  refine of_raw rfl ⟨?_, ?_, ?_, ?_, ?_, ?_, ?_, ?_, ?_⟩ fun hw => ?_
  iterate 9 (dsimp only; omega)
  · refine checked1 ?_ ?_
    · try simp only [Bool.or_eq_false_iff]
      repeat' apply And.intro
      all_goals first | exact decide_eq_false (by (try dsimp only [rmF, rmV, scQ, low20]) <;> omega) | exact and_of (by (try dsimp only) <;> omega)
    · congr 1
      all_goals first | exact gdOf_of rfl rfl | exact gOf_of (by dsimp only <;> omega) | exact fin16_of (by dsimp only [low20] <;> omega)

theorem recv (gd : Guard) (w : Fin 16) : Statement (.recv gd w) := by
  have f0 := bCode_lt gd.neg
  have f1 := gd.p.isLt
  have f2 := w.isLt
  refine of_raw rfl ⟨?_, ?_, ?_, ?_, ?_, ?_, ?_, ?_, ?_⟩ fun hw => ?_
  iterate 9 (dsimp only; omega)
  · refine checked1 ?_ ?_
    · try simp only [Bool.or_eq_false_iff]
      repeat' apply And.intro
      all_goals first | exact decide_eq_false (by (try dsimp only [rmF, rmV, scQ, low20]) <;> omega) | exact and_of (by (try dsimp only) <;> omega)
    · congr 1
      all_goals first | exact gdOf_of rfl rfl | exact fin16_of (by dsimp only [low20] <;> omega)

theorem recvt (gd : Guard) (w : Fin 16) (a : GReg) (p : Fin 8) : Statement (.recvt gd w a p) := by
  have f0 := bCode_lt gd.neg
  have f1 := gd.p.isLt
  have f2 := w.isLt
  have f3 := gCode_lt a
  have f4 := p.isLt
  refine of_raw rfl ⟨?_, ?_, ?_, ?_, ?_, ?_, ?_, ?_, ?_⟩ fun hw => ?_
  iterate 9 (dsimp only; omega)
  · refine checked1 ?_ ?_
    · try simp only [Bool.or_eq_false_iff]
      repeat' apply And.intro
      all_goals first | exact decide_eq_false (by (try dsimp only [rmF, rmV, scQ, low20]) <;> omega) | exact and_of (by (try dsimp only) <;> omega)
    · congr 1
      all_goals first | exact gdOf_of rfl rfl | exact fin16_of (by dsimp only [low20] <;> omega) | exact gOf_of (by dsimp only <;> omega) | exact fin8_of (by dsimp only [low20] <;> omega)

theorem mmz (gd : Guard) (c : Fin 4) : Statement (.mmz gd c) := by
  have f0 := bCode_lt gd.neg
  have f1 := gd.p.isLt
  have f2 := c.isLt
  refine of_raw rfl ⟨?_, ?_, ?_, ?_, ?_, ?_, ?_, ?_, ?_⟩ fun hw => ?_
  iterate 9 (dsimp only; omega)
  · refine checked1 ?_ ?_
    · try simp only [Bool.or_eq_false_iff]
      repeat' apply And.intro
      all_goals first | exact decide_eq_false (by (try dsimp only [rmF, rmV, scQ, low20]) <;> omega) | exact and_of (by (try dsimp only) <;> omega)
    · congr 1
      all_goals first | exact gdOf_of rfl rfl | exact fin4_of (by dsimp only [low20] <;> omega)

theorem mmst (gd : Guard) (c : Fin 4) (a : GReg) (b : GReg) : Statement (.mmst gd c a b) := by
  have f0 := bCode_lt gd.neg
  have f1 := gd.p.isLt
  have f2 := c.isLt
  have f3 := gCode_lt a
  have f4 := gCode_lt b
  refine of_raw rfl ⟨?_, ?_, ?_, ?_, ?_, ?_, ?_, ?_, ?_⟩ fun hw => ?_
  iterate 9 (dsimp only; omega)
  · refine checked1 ?_ ?_
    · try simp only [Bool.or_eq_false_iff]
      repeat' apply And.intro
      all_goals first | exact decide_eq_false (by (try dsimp only [rmF, rmV, scQ, low20]) <;> omega) | exact and_of (by (try dsimp only) <;> omega)
    · congr 1
      all_goals first | exact gdOf_of rfl rfl | exact fin4_of (by dsimp only [low20] <;> omega) | exact gOf_of (by dsimp only <;> omega)

theorem mmld (gd : Guard) (c : Fin 4) (a : GReg) (b : GReg) : Statement (.mmld gd c a b) := by
  have f0 := bCode_lt gd.neg
  have f1 := gd.p.isLt
  have f2 := c.isLt
  have f3 := gCode_lt a
  have f4 := gCode_lt b
  refine of_raw rfl ⟨?_, ?_, ?_, ?_, ?_, ?_, ?_, ?_, ?_⟩ fun hw => ?_
  iterate 9 (dsimp only; omega)
  · refine checked1 ?_ ?_
    · try simp only [Bool.or_eq_false_iff]
      repeat' apply And.intro
      all_goals first | exact decide_eq_false (by (try dsimp only [rmF, rmV, scQ, low20]) <;> omega) | exact and_of (by (try dsimp only) <;> omega)
    · congr 1
      all_goals first | exact gdOf_of rfl rfl | exact fin4_of (by dsimp only [low20] <;> omega) | exact gOf_of (by dsimp only <;> omega)

theorem mmpoll (gd : Guard) (d : GReg) (a : GReg) : Statement (.mmpoll gd d a) := by
  have f0 := bCode_lt gd.neg
  have f1 := gd.p.isLt
  have f2 := gCode_lt d
  have f3 := gCode_lt a
  refine of_raw rfl ⟨?_, ?_, ?_, ?_, ?_, ?_, ?_, ?_, ?_⟩ fun hw => ?_
  iterate 9 (dsimp only; omega)
  · refine checked1 ?_ ?_
    · try simp only [Bool.or_eq_false_iff]
      repeat' apply And.intro
      all_goals first | exact decide_eq_false (by (try dsimp only [rmF, rmV, scQ, low20]) <;> omega) | exact and_of (by (try dsimp only) <;> omega)
    · congr 1
      all_goals first | exact gdOf_of rfl rfl | exact gOf_of (by dsimp only <;> omega)

theorem mmjob (gd : Guard) (d : GReg) (a : GReg) (f : Fmt) : Statement (.mmjob gd d a f) := by
  have f0 := bCode_lt gd.neg
  have f1 := gd.p.isLt
  have f2 := gCode_lt d
  have f3 := gCode_lt a
  have f4 := fmtCode_lt f
  refine of_raw rfl ⟨?_, ?_, ?_, ?_, ?_, ?_, ?_, ?_, ?_⟩ fun hw => ?_
  iterate 9 (dsimp only; omega)
  · refine checked3 ?_ ?_ ?_ ?_
    · try simp only [Bool.or_eq_false_iff]
      repeat' apply And.intro
      all_goals first | exact decide_eq_false (by (try dsimp only [rmF, rmV, scQ, low20]) <;> omega) | exact and_of (by (try dsimp only) <;> omega)
    · try simp only [Bool.or_eq_false_iff]
      repeat' apply And.intro
      all_goals first | exact decide_eq_false (by (try dsimp only [rmF, rmV, scQ, low20]) <;> omega) | exact and_of (by (try dsimp only) <;> omega)
    · try simp only [Bool.or_eq_false_iff]
      repeat' apply And.intro
      all_goals first | exact decide_eq_false (by (try dsimp only [rmF, rmV, scQ, low20]) <;> omega) | exact and_of (by (try dsimp only) <;> omega)
    · congr 1
      all_goals first | exact gdOf_of rfl rfl | exact gOf_of (by dsimp only <;> omega) | exact fmtOf_of (by dsimp only <;> omega)

theorem tokq (gd : Guard) (d : GReg) : Statement (.tokq gd d) := by
  have f0 := bCode_lt gd.neg
  have f1 := gd.p.isLt
  have f2 := gCode_lt d
  refine of_raw rfl ⟨?_, ?_, ?_, ?_, ?_, ?_, ?_, ?_, ?_⟩ fun hw => ?_
  iterate 9 (dsimp only; omega)
  · refine checked2 ?_ ?_ ?_
    · try simp only [Bool.or_eq_false_iff]
      repeat' apply And.intro
      all_goals first | exact decide_eq_false (by (try dsimp only [rmF, rmV, scQ, low20]) <;> omega) | exact and_of (by (try dsimp only) <;> omega)
    · try simp only [Bool.or_eq_false_iff]
      repeat' apply And.intro
      all_goals first | exact decide_eq_false (by (try dsimp only [rmF, rmV, scQ, low20]) <;> omega) | exact and_of (by (try dsimp only) <;> omega)
    · congr 1
      all_goals first | exact gdOf_of rfl rfl | exact gOf_of (by dsimp only <;> omega)

theorem trap (gd : Guard) (code : BitVec 20) : Statement (.trap gd code) := by
  have f0 := bCode_lt gd.neg
  have f1 := gd.p.isLt
  have f2 := code.isLt
  refine of_raw rfl ⟨?_, ?_, ?_, ?_, ?_, ?_, ?_, ?_, ?_⟩ fun hw => ?_
  iterate 9 (dsimp only; omega)
  · refine congrArg Dec.ok ?_
    · congr 1
      all_goals first | exact gdOf_of rfl rfl | exact bv_of (by dsimp only [low20, imm14] <;> omega)

theorem sysret (gd : Guard) : Statement (.sysret gd) := by
  have f0 := bCode_lt gd.neg
  have f1 := gd.p.isLt
  refine of_raw rfl ⟨?_, ?_, ?_, ?_, ?_, ?_, ?_, ?_, ?_⟩ fun hw => ?_
  iterate 9 (dsimp only; omega)
  · refine checked1 ?_ ?_
    · try simp only [Bool.or_eq_false_iff]
      repeat' apply And.intro
      all_goals first | exact decide_eq_false (by (try dsimp only [rmF, rmV, scQ, low20]) <;> omega) | exact and_of (by (try dsimp only) <;> omega)
    · congr 1
      all_goals first | exact gdOf_of rfl rfl

theorem halt (gd : Guard) : Statement (.halt gd) := by
  have f0 := bCode_lt gd.neg
  have f1 := gd.p.isLt
  refine of_raw rfl ⟨?_, ?_, ?_, ?_, ?_, ?_, ?_, ?_, ?_⟩ fun hw => ?_
  iterate 9 (dsimp only; omega)
  · refine checked1 ?_ ?_
    · try simp only [Bool.or_eq_false_iff]
      repeat' apply And.intro
      all_goals first | exact decide_eq_false (by (try dsimp only [rmF, rmV, scQ, low20]) <;> omega) | exact and_of (by (try dsimp only) <;> omega)
    · congr 1
      all_goals first | exact gdOf_of rfl rfl

theorem kill (gd : Guard) (a : GReg) : Statement (.kill gd a) := by
  have f0 := bCode_lt gd.neg
  have f1 := gd.p.isLt
  have f2 := gCode_lt a
  refine of_raw rfl ⟨?_, ?_, ?_, ?_, ?_, ?_, ?_, ?_, ?_⟩ fun hw => ?_
  iterate 9 (dsimp only; omega)
  · refine checked1 ?_ ?_
    · try simp only [Bool.or_eq_false_iff]
      repeat' apply And.intro
      all_goals first | exact decide_eq_false (by (try dsimp only [rmF, rmV, scQ, low20]) <;> omega) | exact and_of (by (try dsimp only) <;> omega)
    · congr 1
      all_goals first | exact gdOf_of rfl rfl | exact gOf_of (by dsimp only <;> omega)

theorem rdsr (gd : Guard) (d : GReg) (srn : BitVec 12) : Statement (.rdsr gd d srn) := by
  have f0 := bCode_lt gd.neg
  have f1 := gd.p.isLt
  have f2 := gCode_lt d
  have f3 := srn.isLt
  refine of_raw rfl ⟨?_, ?_, ?_, ?_, ?_, ?_, ?_, ?_, ?_⟩ fun hw => ?_
  iterate 9 (dsimp only; omega)
  · refine checked1 ?_ ?_
    · try simp only [Bool.or_eq_false_iff]
      repeat' apply And.intro
      all_goals first | exact decide_eq_false (by (try dsimp only [rmF, rmV, scQ, low20]) <;> omega) | exact and_of (by (try dsimp only) <;> omega) | exact srnRead_of (by (try dsimp only) <;> omega) hw
    · congr 1
      all_goals first | exact gdOf_of rfl rfl | exact gOf_of (by dsimp only <;> omega) | exact bv_of (by dsimp only [low20, imm14] <;> omega)

theorem wrsr (gd : Guard) (d : GReg) (srn : BitVec 12) : Statement (.wrsr gd d srn) := by
  have f0 := bCode_lt gd.neg
  have f1 := gd.p.isLt
  have f2 := gCode_lt d
  have f3 := srn.isLt
  refine of_raw rfl ⟨?_, ?_, ?_, ?_, ?_, ?_, ?_, ?_, ?_⟩ fun hw => ?_
  iterate 9 (dsimp only; omega)
  · refine checked1 ?_ ?_
    · try simp only [Bool.or_eq_false_iff]
      repeat' apply And.intro
      all_goals first | exact decide_eq_false (by (try dsimp only [rmF, rmV, scQ, low20]) <;> omega) | exact and_of (by (try dsimp only) <;> omega) | exact srnWrite_of (by (try dsimp only) <;> omega) hw
    · congr 1
      all_goals first | exact gdOf_of rfl rfl | exact gOf_of (by dsimp only <;> omega) | exact bv_of (by dsimp only [low20, imm14] <;> omega)

theorem tlbinvAll (gd : Guard) : Statement (.tlbinvAll gd) := by
  have f0 := bCode_lt gd.neg
  have f1 := gd.p.isLt
  refine of_raw rfl ⟨?_, ?_, ?_, ?_, ?_, ?_, ?_, ?_, ?_⟩ fun hw => ?_
  iterate 9 (dsimp only; omega)
  · refine checked1 ?_ ?_
    · try simp only [Bool.or_eq_false_iff]
      repeat' apply And.intro
      all_goals first | exact decide_eq_false (by (try dsimp only [rmF, rmV, scQ, low20]) <;> omega) | exact and_of (by (try dsimp only) <;> omega)
    · congr 1
      all_goals first | exact gdOf_of rfl rfl

theorem tlbinvAsid (gd : Guard) (a : GReg) : Statement (.tlbinvAsid gd a) := by
  have f0 := bCode_lt gd.neg
  have f1 := gd.p.isLt
  have f2 := gCode_lt a
  refine of_raw rfl ⟨?_, ?_, ?_, ?_, ?_, ?_, ?_, ?_, ?_⟩ fun hw => ?_
  iterate 9 (dsimp only; omega)
  · refine checked1 ?_ ?_
    · try simp only [Bool.or_eq_false_iff]
      repeat' apply And.intro
      all_goals first | exact decide_eq_false (by (try dsimp only [rmF, rmV, scQ, low20]) <;> omega) | exact and_of (by (try dsimp only) <;> omega)
    · congr 1
      all_goals first | exact gdOf_of rfl rfl | exact gOf_of (by dsimp only <;> omega)

theorem tlbinvPage (gd : Guard) (a : GReg) (b : GReg) : Statement (.tlbinvPage gd a b) := by
  have f0 := bCode_lt gd.neg
  have f1 := gd.p.isLt
  have f2 := gCode_lt a
  have f3 := gCode_lt b
  refine of_raw rfl ⟨?_, ?_, ?_, ?_, ?_, ?_, ?_, ?_, ?_⟩ fun hw => ?_
  iterate 9 (dsimp only; omega)
  · refine checked1 ?_ ?_
    · try simp only [Bool.or_eq_false_iff]
      repeat' apply And.intro
      all_goals first | exact decide_eq_false (by (try dsimp only [rmF, rmV, scQ, low20]) <;> omega) | exact and_of (by (try dsimp only) <;> omega)
    · congr 1
      all_goals first | exact gdOf_of rfl rfl | exact gOf_of (by dsimp only <;> omega)

theorem cwb (gd : Guard) (a : GReg) (b : GReg) : Statement (.cwb gd a b) := by
  have f0 := bCode_lt gd.neg
  have f1 := gd.p.isLt
  have f2 := gCode_lt a
  have f3 := gCode_lt b
  refine of_raw rfl ⟨?_, ?_, ?_, ?_, ?_, ?_, ?_, ?_, ?_⟩ fun hw => ?_
  iterate 9 (dsimp only; omega)
  · refine checked1 ?_ ?_
    · try simp only [Bool.or_eq_false_iff]
      repeat' apply And.intro
      all_goals first | exact decide_eq_false (by (try dsimp only [rmF, rmV, scQ, low20]) <;> omega) | exact and_of (by (try dsimp only) <;> omega)
    · congr 1
      all_goals first | exact gdOf_of rfl rfl | exact gOf_of (by dsimp only <;> omega)

theorem cinv (gd : Guard) (a : GReg) (b : GReg) : Statement (.cinv gd a b) := by
  have f0 := bCode_lt gd.neg
  have f1 := gd.p.isLt
  have f2 := gCode_lt a
  have f3 := gCode_lt b
  refine of_raw rfl ⟨?_, ?_, ?_, ?_, ?_, ?_, ?_, ?_, ?_⟩ fun hw => ?_
  iterate 9 (dsimp only; omega)
  · refine checked1 ?_ ?_
    · try simp only [Bool.or_eq_false_iff]
      repeat' apply And.intro
      all_goals first | exact decide_eq_false (by (try dsimp only [rmF, rmV, scQ, low20]) <;> omega) | exact and_of (by (try dsimp only) <;> omega)
    · congr 1
      all_goals first | exact gdOf_of rfl rfl | exact gOf_of (by dsimp only <;> omega)

theorem probe (gd : Guard) (d : GReg) (a : GReg) : Statement (.probe gd d a) := by
  have f0 := bCode_lt gd.neg
  have f1 := gd.p.isLt
  have f2 := gCode_lt d
  have f3 := gCode_lt a
  refine of_raw rfl ⟨?_, ?_, ?_, ?_, ?_, ?_, ?_, ?_, ?_⟩ fun hw => ?_
  iterate 9 (dsimp only; omega)
  · refine checked1 ?_ ?_
    · try simp only [Bool.or_eq_false_iff]
      repeat' apply And.intro
      all_goals first | exact decide_eq_false (by (try dsimp only [rmF, rmV, scQ, low20]) <;> omega) | exact and_of (by (try dsimp only) <;> omega)
    · congr 1
      all_goals first | exact gdOf_of rfl rfl | exact gOf_of (by dsimp only <;> omega)

theorem syncOpComplete x0 : Statement (.syncOpComplete x0) := of_none rfl

theorem scoreboardResultLands x0 : Statement (.scoreboardResultLands x0) := of_none rfl

theorem storePerformed x0 : Statement (.storePerformed x0) := of_none rfl

theorem pageWalkComplete x0 : Statement (.pageWalkComplete x0) := of_none rfl

theorem bankingSwitchComplete x0 : Statement (.bankingSwitchComplete x0) := of_none rfl

theorem spawnTimeoutRelease x0 x1 : Statement (.spawnTimeoutRelease x0 x1) := of_none rfl

theorem gatheredGangPlace x0 : Statement (.gatheredGangPlace x0) := of_none rfl

theorem pathQuantumExpiry x0 : Statement (.pathQuantumExpiry x0) := of_none rfl

theorem orphanFault x0 : Statement (.orphanFault x0) := of_none rfl

theorem sqnote x0 : Statement (.sqnote x0) := of_none rfl

theorem monitorFire x0 : Statement (.monitorFire x0) := of_none rfl

theorem waitTimeout x0 : Statement (.waitTimeout x0) := of_none rfl

theorem recvtTimeout x0 : Statement (.recvtTimeout x0) := of_none rfl

theorem deliveryArrival x0 : Statement (.deliveryArrival x0) := of_none rfl

theorem transferSourceRead x0 : Statement (.transferSourceRead x0) := of_none rfl

theorem transferNotice x0 : Statement (.transferNotice x0) := of_none rfl

theorem chaseStep x0 : Statement (.chaseStep x0) := of_none rfl

theorem chaseStepLimit x0 : Statement (.chaseStepLimit x0) := of_none rfl

theorem multicastJoinArrival x0 : Statement (.multicastJoinArrival x0) := of_none rfl

theorem blockBarrierSweep x0 : Statement (.blockBarrierSweep x0) := of_none rfl

theorem messageArrival x0 : Statement (.messageArrival x0) := of_none rfl

theorem messageResend x0 : Statement (.messageResend x0) := of_none rfl

theorem matrixOpComplete x0 : Statement (.matrixOpComplete x0) := of_none rfl

theorem matrixOpStart x0 : Statement (.matrixOpStart x0) := of_none rfl

theorem tokenRequestPaid x0 : Statement (.tokenRequestPaid x0) := of_none rfl

theorem ringStationStep x0 x1 : Statement (.ringStationStep x0 x1) := of_none rfl

theorem ballastRevolution x0 : Statement (.ballastRevolution x0) := of_none rfl

theorem dispatchPlace : Statement .dispatchPlace := of_none rfl

theorem quantumExpiry x0 : Statement (.quantumExpiry x0) := of_none rfl

theorem strandSave x0 : Statement (.strandSave x0) := of_none rfl

theorem evictionComplete x0 : Statement (.evictionComplete x0) := of_none rfl

theorem gridComplete x0 : Statement (.gridComplete x0) := of_none rfl

theorem killComplete x0 : Statement (.killComplete x0) := of_none rfl

theorem stallDetect x0 : Statement (.stallDetect x0) := of_none rfl

theorem blockstallDetect x0 : Statement (.blockstallDetect x0) := of_none rfl

theorem starveDetect x0 : Statement (.starveDetect x0) := of_none rfl

theorem launch x0 x1 x2 x3 : Statement (.launch x0 x1 x2 x3) := of_none rfl

theorem hostMemoryAccess x0 x1 x2 x3 x4 : Statement (.hostMemoryAccess x0 x1 x2 x3 x4) := of_none rfl

theorem packageReset : Statement .packageReset := of_none rfl

theorem rstctlGo x0 : Statement (.rstctlGo x0) := of_none rfl

theorem bootStageComplete x0 : Statement (.bootStageComplete x0) := of_none rfl

theorem attctlGo x0 : Statement (.attctlGo x0) := of_none rfl

theorem attestationReportDone : Statement .attestationReportDone := of_none rfl

theorem migcmdGo x0 : Statement (.migcmdGo x0) := of_none rfl

theorem migrationComplete : Statement .migrationComplete := of_none rfl

theorem railselWrite x0 x1 : Statement (.railselWrite x0 x1) := of_none rfl

theorem railSwitchComplete x0 : Statement (.railSwitchComplete x0) := of_none rfl

theorem slotmaskWrite x0 x1 : Statement (.slotmaskWrite x0 x1) := of_none rfl

theorem cfenceWrite x0 x1 : Statement (.cfenceWrite x0 x1) := of_none rfl

theorem ringcfgWrite x0 x1 : Statement (.ringcfgWrite x0 x1) := of_none rfl

theorem fabcfgWrite x0 : Statement (.fabcfgWrite x0) := of_none rfl

theorem registerWrite x0 x1 : Statement (.registerWrite x0 x1) := of_none rfl

theorem flitReceive x0 x1 x2 : Statement (.flitReceive x0 x1 x2) := of_none rfl

theorem e2eRetry x0 : Statement (.e2eRetry x0) := of_none rfl

theorem laneErase x0 x1 : Statement (.laneErase x0 x1) := of_none rfl

theorem portTrainingDone x0 : Statement (.portTrainingDone x0) := of_none rfl

theorem hopRetry x0 x1 x2 x3 x4 : Statement (.hopRetry x0 x1 x2 x3 x4) := of_none rfl

theorem hostLinkDown : Statement .hostLinkDown := of_none rfl

theorem hostLinkUp : Statement .hostLinkUp := of_none rfl

theorem thermalWarn x0 x1 : Statement (.thermalWarn x0 x1) := of_none rfl

theorem thermalTrip x0 : Statement (.thermalTrip x0) := of_none rfl

theorem railFault x0 x1 : Statement (.railFault x0 x1) := of_none rfl

theorem railHoldEnd x0 x1 : Statement (.railHoldEnd x0 x1) := of_none rfl

theorem hbmSupplyFault x0 : Statement (.hbmSupplyFault x0) := of_none rfl

theorem securityAlarm x0 x1 : Statement (.securityAlarm x0 x1) := of_none rfl

theorem haltSnapshotComplete x0 : Statement (.haltSnapshotComplete x0) := of_none rfl

theorem hostCxlCacheRequest x0 x1 x2 : Statement (.hostCxlCacheRequest x0 x1 x2) := of_none rfl

theorem switchPlaneLoss x0 : Statement (.switchPlaneLoss x0) := of_none rfl

theorem railReturnsToTolerance x0 x1 : Statement (.railReturnsToTolerance x0 x1) := of_none rfl

end Sys2Proof.Laws.RoundTrip
end

