-- ==== Sys2Proof/Safety.lean ====
section
/-!
DEFINITION. What counts as a safe run of the package, and the terms in which the obligations speak. A step always answers a
next state, for a fault of the hardware is a trap, a record, a kill or a reset, never an end of the machine
(spec/17_traps_and_containment.md R428 to R447); and memory keeps its canonical form.
-/
namespace Sys2Proof.Machine

open Sys2Proof

/-- Memory stands in its canonical form: rising addresses, no byte listed that equals what an unlisted address reads as. -/
def memCanonical (s : State) : Prop := memWf s.mem = true

/-- A step goes on. -/
def goesOn (s : State) : Prop := ∃ t, step s = .next t

/-! ### When a word of the bundle in hand issues -/

/-- The registers of a word have landed (R46, R450): its guard predicate in every lane of the issuer, and in every acting
lane each register that the word reads or writes; and what it reads is correct (R470). -/
def RegsLanded (s : State) (gd : Guard) (i : Instr) : Prop :=
  (∀ p ∈ s.cur.lanes, pendingFor s p (.p p gd.p.val) = false) ∧
  (∀ p ∈ actingLanes s gd, ∀ r ∈ srcs i ++ dests i, pendingFor s p (regId s.cur.leader p r) = false) ∧
  (∀ p ∈ actingLanes s gd, ∀ r ∈ srcs i, broken s (regId s.cur.leader p r) = false)

/-- The bundle in hand can be paid for (R189, R193, R472): it has been, or it costs nothing, or the ring of the die runs and the
pocket covers its price with no request before it and QUOTA admits it. -/
def Payable (s : State) (price : Nat) (free : Bool) : Prop :=
  price = 0 ∨ (s.str (curPos s)).paid = true ∨
    ((s.die (dieOf (curCell s))).ringFailed = false ∧ (s.cell (curCell s)).reqs = [] ∧ price ≤ (s.cell (curCell s)).pocket ∧ quotaAllows s (curCell s) price free = true)

/-- No earlier fence or acquire of an acting lane still waits (R337, R151); with `all`, neither does any earlier act of the
strand that is to be performed elsewhere. -/
def OrderMet (s : State) (gd : Guard) (all : Bool) : Prop :=
  ∀ p ∈ actingLanes s gd,
    stillFlying s (s.str p).fenceAny = [] ∧ stillFlying s (s.str p).fenceWr = [] ∧ (all = true → unperformed s p = [])

/-- The accesses of the acting lanes pass the checks of R462, meet their sectors present (R113), the host link up where they
need it (R502) and room in their pipes (R319). -/
structure Reaches (s : State) (ls : List Nat) (asks : Nat → List Ask) : Prop where
  resolved : ∀ p ∈ ls, ∀ a ∈ asks p, ∃ t, resolve s p a = .ok t
  present : ∀ p ∈ ls, ∀ a ∈ asks p, parksFor s p a = []
  host : s.pkg.hostUp = true ∨ ∀ p ∈ ls, ∀ a ∈ asks p, isHost (targetOf s p a) = false
  room : ∀ p ∈ ls, asks p = [] ∨ pipeLoad s (gpipe p) + (asks p).length ≤ 2048

/-! ### What an issued word leaves alone -/

/-- Every register that `hit` does not name reads as before. -/
structure RegsKept (s t : State) (hit : RegId → Prop) : Prop where
  g : ∀ p n, n < 32 → ¬hit (.g p n) → rdG t p n = rdG s p n
  h : ∀ q n, n < 32 → ¬hit (.h q n) → rdH t q n = rdH s q n
  w : ∀ p n, n < 16 → ¬hit (.w p n) → rdW t p n = rdW s p n
  p : ∀ p n, n < 8 → ¬hit (.p p n) → rdP t p n = rdP s p n
  k : ∀ l n, n < 16 → ¬hit (.k l n) → rdK t l n = rdK s l n
  e : ∀ p n, n < 2 → ¬hit (.e p n) → rdE t p n = rdE s p n ∧ rdEf t p n = rdEf s p n

/-- No register is named. -/
def noReg : RegId → Prop := fun _ => False

/-- Every byte of memory reads as before. -/
def BytesKept (s t : State) : Prop := ∀ a, byteAt t a = byteAt s a

/-- Each lane of the issuer goes on at NBA and every other strand is as before (R434: no trap register changes). -/
def LanesIssue (s t : State) : Prop :=
  ∀ p, t.str p = if p ∈ s.cur.lanes then issueOne s.cur.nba (s.str p) else s.str p

/-- A cell without the fields that a payment and a pre-emption of its block change (R189, R193). -/
def unpaidCell (x : CellSt) : CellSt := { x with pocket := 0, cool := [], quota := none, reqs := [], starveMade := false }

/-- Rejoin sets, gangs, grids, the registers of the package, the Alley, presence bits and uncorrectable sectors are as before;
so is every cell, its payments apart (R189); no register has become uncorrectable (R470), and no directory has changed (R120). -/
structure RestKept (s t : State) : Prop where
  sets : ∀ l n, rdJ t l n = rdJ s l n
  gangs : ∀ l, t.gang l = s.gang l
  cells : ∀ c, unpaidCell (t.cell c) = unpaidCell (s.cell c)
  grids : ∀ g, t.grid g = s.grid g
  pkg : t.pkg = s.pkg
  alley : t.alley = s.alley
  absent : t.absent = s.absent
  poison : t.poison = s.poison
  bad : ∀ r ∈ t.badRegs, r ∈ s.badRegs
  copies : t.copies = s.copies
  doomed : t.doomed = s.doomed

/-- The value that a G register holds after a write: g0 stays zero (R204). -/
def heldG (d : GReg) (v : Word) : Word :=
  match d.bank with
  | .g => if d.num.val = 0 then 0#64 else v
  | .h => v
/-- The value that a predicate holds after a write: p0 stays true (R204). -/
def heldP (n : Fin 8) (v : Bool) : Bool := if n.val = 0 then true else v

/-- No other acting lane writes the register that lane p writes. Lanes of one gang always stand on distinct pipes (R48). -/
def SoleWriter (s : State) (gd : Guard) (d : GReg) (p : Nat) : Prop :=
  ∀ q ∈ actingLanes s gd, gId q d = gId p d → q = p

/-! ### Shapes of completion: in every state in which the word issues, exec answers the next state that the rules give -/

/-- A word that writes a G register of each acting lane, at a price of `price` tokens, and changes nothing else. -/
def CompletesG (i : Instr) (gd : Guard) (d : GReg) (price : State → Nat) (v : State → Nat → Word) : Prop :=
  ∀ s : State, RegsLanded s gd i → Payable s (Nat.min 64 (price s)) false →
    ∃ t, exec i s = .next t ∧
      (∀ p ∈ actingLanes s gd, SoleWriter s gd d p → rdReg t p d = heldG d (v s p)) ∧
      RegsKept s t (fun r => ∃ p ∈ actingLanes s gd, r = gId p d) ∧
      BytesKept s t ∧ LanesIssue s t ∧ RestKept s t ∧ t.pend = s.pend

/-- A word that writes a predicate of each acting lane. -/
def CompletesP (i : Instr) (gd : Guard) (n : Fin 8) (v : State → Nat → Bool) : Prop :=
  ∀ s : State, RegsLanded s gd i →
    ∃ t, exec i s = .next t ∧
      (∀ p ∈ actingLanes s gd, rdP t p n.val = heldP n (v s p)) ∧
      RegsKept s t (fun r => ∃ p ∈ actingLanes s gd, r = .p p n.val) ∧
      BytesKept s t ∧ LanesIssue s t ∧ RestKept s t ∧ t.pend = s.pend

/-- A word that writes a w register of each acting lane, at one token a lane. -/
def CompletesW (i : Instr) (gd : Guard) (d : Fin 16) (v : State → Nat → Wide) : Prop :=
  ∀ s : State, RegsLanded s gd i → Payable s (Nat.min 64 (actingLanes s gd).length) false →
    ∃ t, exec i s = .next t ∧
      (∀ p ∈ actingLanes s gd, rdW t p d.val = v s p) ∧
      RegsKept s t (fun r => ∃ p ∈ actingLanes s gd, r = .w p d.val) ∧
      BytesKept s t ∧ LanesIssue s t ∧ RestKept s t ∧ t.pend = s.pend

/-- A word whose result lands later in one register of each acting lane (R46): the work in flight gains an entry with the
value for each of them, due after the fixed latency, and nothing else changes. -/
def CompletesLater (i : Instr) (gd : Guard) (price : State → Nat) (r : Nat → RegId) (v : State → Nat → RegVal) : Prop :=
  ∀ s : State, RegsLanded s gd i → Payable s (Nat.min 64 (price s)) false →
    ∃ t, exec i s = .next t ∧
      (∀ p ∈ actingLanes s gd, markable (r p) = true →
        ∃ id, s.fresh ≤ id ∧ tfind t.pend id = some
          { pos := p, regs := [r p], vals := [v s p], due := s.time + s.pace.fixed }) ∧
      (∀ id, id < s.fresh → tfind t.pend id = tfind s.pend id) ∧
      RegsKept s t noReg ∧ BytesKept s t ∧ LanesIssue s t ∧ RestKept s t

/-- A word of format Z: it writes a g register of each acting lane, or with KS a w register at one token a lane (R279, R282). -/
def CompletesZ (i : Instr) (gd : Guard) (ks : Bool) (d : Fin 16) (v : State → Nat → Nat) : Prop :=
  ∀ s : State, RegsLanded s gd i → Payable s (if ks then Nat.min 64 (actingLanes s gd).length else 0) false →
    ∃ t, exec i s = .next t ∧
      (∀ p ∈ actingLanes s gd, rdZ t p ks d = if ks then v s p % 2 ^ 256 else if d.val = 0 then 0 else v s p % 2 ^ 64) ∧
      RegsKept s t (fun r => ∃ p ∈ actingLanes s gd, r = if ks then .w p d.val else .g p d.val) ∧
      BytesKept s t ∧ LanesIssue s t ∧ RestKept s t ∧ t.pend = s.pend

/-- A word that writes the value and the flags of an exact accumulator of each acting lane. -/
def CompletesE (i : Instr) (gd : Guard) (e : Fin 2) (price : State → Nat) (v : State → Nat → X320) (f : State → Nat → BitVec 3) : Prop :=
  ∀ s : State, RegsLanded s gd i → Payable s (Nat.min 64 (price s)) false →
    ∃ t, exec i s = .next t ∧
      (∀ p ∈ actingLanes s gd, rdE t p e.val = v s p ∧ rdEf t p e.val = f s p) ∧
      RegsKept s t (fun r => ∃ p ∈ actingLanes s gd, r = .e p e.val) ∧
      BytesKept s t ∧ LanesIssue s t ∧ RestKept s t ∧ t.pend = s.pend

/-- A control transfer: in states that meet `ok`, the acting lanes go to `tgt`, the other lanes of the issuer to NBA, and register
`link` of each acting lane, if there is one, takes `v`. Of the strands nothing else changes but the paths of a path that divides; the
gang is as before unless it divides. -/
def CompletesJump (i : Instr) (gd : Guard) (ok : State → Prop) (tgt : State → Nat → Word) (link : Option GReg)
    (v : State → Nat → Word) : Prop :=
  ∀ s : State, RegsLanded s gd i → ok s →
    ∃ t, exec i s = .next t ∧
      (∀ p ∈ s.cur.lanes, (t.str p).pc = if acting s gd p then tgt s p else s.cur.nba) ∧
      (∀ p ∈ s.cur.lanes, ∀ m, { t.str p with pc := 0#64, lmode := m } = { issueOne s.cur.nba (s.str p) with pc := 0#64, lmode := m }) ∧
      (∀ p, p ∉ s.cur.lanes → t.str p = s.str p) ∧
      (∀ d, link = some d → ∀ p ∈ actingLanes s gd, SoleWriter s gd d p → rdReg t p d = heldG d (v s p)) ∧
      RegsKept s t (fun r => ∃ d, link = some d ∧ ∃ p ∈ actingLanes s gd, r = gId p d) ∧
      (∀ l, l ≠ s.cur.leader → t.gang l = s.gang l) ∧
      ((∃ x, ∀ p ∈ s.cur.lanes, (if acting s gd p then tgt s p else s.cur.nba) = x) → t.gang s.cur.leader = s.gang s.cur.leader) ∧
      BytesKept s t ∧ (∀ l n, rdJ t l n = rdJ s l n) ∧ t.pkg = s.pkg ∧ ∀ c, t.cell c = s.cell c

/-- A set instruction completes in a state: set j of the gang holds `y`, its lanes issue, and no register, no other set and no byte
changes; of the gang's record nothing but the sets orphaned in the cycle. -/
def CompletesSet (i : Instr) (s : State) (j : Fin 8) (y : JSet) : Prop :=
  ∃ t, exec i s = .next t ∧ rdJ t s.cur.leader j.val = y ∧ (∀ n, n < 8 → n ≠ j.val → rdJ t s.cur.leader n = rdJ s s.cur.leader n) ∧
    (∀ l, { t.gang l with orphaning := [] } = { s.gang l with orphaning := [] }) ∧
    LanesIssue s t ∧ RegsKept s t noReg ∧ BytesKept s t ∧ t.pkg = s.pkg ∧ ∀ c, t.cell c = s.cell c

/-! ### Memory forms (R319 to R336) -/

/-- The accesses of a memory instruction: the acting lanes that make some, each access with its act, the register that takes the
result, whether it has one, whether it is performed past the L1 (R158, R323, R330), whether it waits for every earlier act of its
strand (R151), whether later work waits for it, and whether it is a DEV form (R323). -/
structure MemUse where
  who : State → List Nat
  accs : State → Nat → List (Ask × HomeOp)
  shape : State → Nat → Shape := fun _ _ => .none
  reads : Bool
  home : Bool := false
  all : Bool := false
  acq : Bool := false
  dev : Bool := false

/-- The cell that issues, and the cells of its lanes: they are one (R48). -/
def ownCell (s : State) (c : Nat) : Prop := c = curCell s ∨ ∃ p ∈ s.cur.lanes, c = cellOf p

/-- The L1 of the issuing cell holds no dirty byte. -/
def CleanL1 (s : State) : Prop := ∀ c, ownCell s c → ∀ e ∈ (s.cell c).l1, e.2.dirty = 0#32

/-- The location of a target of this package, none for a register of the device and for another package. -/
def placeOf : Target → Option Nat
  | .home loc _ => some loc
  | .scr cell off => some (locScr cell off)
  | .remote _ _ => none
  | .dev _ => none

/-- Whether an act writes. -/
def writesOf : HomeOp → Bool
  | .read _ => false
  | .write _ _ => true
  | .amo _ _ _ _ => true

/-- The location whose bytes an act writes in memory when its instruction issues: a relaxed store to a home stays in the L1. -/
def storedAt (home : Bool) (t : Target) (op : HomeOp) : Option Nat :=
  match t with
  | .home loc _ => if home && writesOf op then some loc else none
  | .scr cell off => if writesOf op then some (locScr cell off) else none
  | .remote _ _ => none
  | .dev _ => none

/-- A target of this package answers: its Crossings stand (R472), its sectors are sound (R471) and present (R113), and no access of
up to 32 bytes leaves its sector (R318). -/
def Answers (s : State) (c : Nat) (t : Target) (n : Nat) : Prop :=
  match t with
  | .home loc die => crossed s (dieOf c) die c loc = false ∧ badIn s loc n = none ∧ (n ≤ 32 → loc % 32 + n ≤ 32)
  | .scr cell off => crossed s (dieOf c) (dieOf cell) c (locScr cell off) = false ∧ badIn s (locScr cell off) n = none ∧
      (cell = c ∨ absentSectors s t n = [])
  | .remote _ _ => False
  | .dev off => crossed s (dieOf c) 4 c (2 ^ 62 + off) = false

/-- A write to a register of the device: it is performed after the bundle (R323, R391). -/
def devWrite (t : Target) (op : HomeOp) : Bool :=
  match t, op with
  | .dev _, .write _ _ => true
  | _, _ => false

/-- The L1 of a cell holds no uncorrectable copy of the sector of a home location (R471). -/
def SoundL1 (s : State) (c : Nat) (t : Target) : Prop :=
  ∀ loc die, t = .home loc die → ∀ l, tfind (s.cell c).l1 (loc / 32) = some l → l.bad = false

/-- Every act of the instruction can be performed when it issues: its target answers and is no register to be written; no lane stands
twice; no act that one of the lanes has issued is still to be performed, and work in flight has the numbers that have been given (R149);
no banking switch holds the accesses of the cell (R109); where acts go past the L1, that holds no dirty byte, and elsewhere no
uncorrectable copy of what they name. -/
structure AllAnswer (s : State) (m : MemUse) : Prop where
  lanes : (m.who s).Nodup
  clean : m.home = true → CleanL1 s
  numbers : ∀ e ∈ s.pend, e.1 < s.fresh
  done : ∀ p ∈ m.who s, unperformed s p = []
  free : ∀ p ∈ m.who s, l1Held s (cellOf p) = false
  answers : ∀ p ∈ m.who s, ∀ a ∈ m.accs s p, Answers s (cellOf p) (targetOf s p a.1) (opBytes a.2)
  plain : ∀ p ∈ m.who s, ∀ a ∈ m.accs s p, devWrite (targetOf s p a.1) a.2 = false
  sound : m.home = false → ∀ p ∈ m.who s, ∀ a ∈ m.accs s p, SoundL1 s (cellOf p) (targetOf s p a.1)

/-- No other write of the instruction touches the bytes of access k of lane p. -/
def Apart (s : State) (m : MemUse) (p k : Nat) : Prop :=
  ∀ q ∈ m.who s, ∀ j, ¬(q = p ∧ j = k) → ∀ a b x y, (m.accs s p)[k]? = some a → (m.accs s q)[j]? = some b →
    writesOf b.2 = true → placeOf (targetOf s p a.1) = some x → placeOf (targetOf s q b.1) = some y →
    x + opBytes a.2 ≤ y ∨ y + opBytes b.2 ≤ x

/-- Byte a as a relaxed load of the cell may see it: the dirty byte of the cell's L1 where there is one, and otherwise the home's
byte or that of a copy filled no more than 8,192 cycles ago (R119, R159). -/
def MaySee (s : State) (c a b : Nat) : Prop :=
  match tfind (s.cell c).l1 (a / 32) with
  | none => b = (byteAt s a).toNat
  | some l =>
    if l.dirty.getLsbD (a % 32) then b = secGet l.data (a % 32) 1
    else b = (byteAt s a).toNat ∨ (l.held.getLsbD (a % 32) = true ∧ s.time ≤ l.filled + 8192 ∧ b = secGet l.data (a % 32) 1)

/-- What an act that is performed at issue reads, and what stands at its place afterwards. -/
def Reads (s t : State) (m : MemUse) (c : Nat) (tgt : Target) (op : HomeOp) (v : Option Nat) : Prop :=
  match tgt, op with
  | .home loc _, .read n =>
    if m.home then v = some (rd s loc n)
    else loc % 32 + n ≤ 32 → ∃ x, v = some x ∧ ∀ i, i < n → MaySee s c (loc + i) (field x (8 * i) 8)
  | .scr cell off, .read n => v = some (rd s (locScr cell off) n)
  | .dev off, .read n => v = some (devRead s off n)
  | .home loc _, .amo o w64 a b => m.home = true → v = some (rd s loc (amoBytes o w64)) ∧
      rd t loc (amoBytes o w64) = (amoNew o w64 (rd s loc (amoBytes o w64)) a b).getD (rd s loc (amoBytes o w64)) % 256 ^ amoBytes o w64
  | .scr cell off, .amo o w64 a b => v = some (rd s (locScr cell off) (amoBytes o w64)) ∧
      rd t (locScr cell off) (amoBytes o w64) =
        (amoNew o w64 (rd s (locScr cell off) (amoBytes o w64)) a b).getD (rd s (locScr cell off) (amoBytes o w64)) % 256 ^ amoBytes o w64
  | _, _ => True

/-- What a write that is performed at issue leaves: at its place in memory, or for a relaxed store to a home as dirty bytes of the
cell's L1, with the store on its way (R108, R159, R320). -/
def Stands (s t : State) (m : MemUse) (p : Nat) (tgt : Target) (op : HomeOp) : Prop :=
  match tgt, op with
  | .home loc _, .write n v =>
    if m.home then rd t loc n = v % 256 ^ n
    else loc % 32 + n ≤ 32 →
      (∃ l, tfind (t.cell (cellOf p)).l1 (loc / 32) = some l ∧ ∀ i, i < n → l.dirty.getLsbD (loc % 32 + i) = true ∧
        l.held.getLsbD (loc % 32 + i) = true ∧ secGet l.data (loc % 32 + i) 1 = field v (8 * i) 8) ∧
      ∃ id e, s.fresh ≤ id ∧ tfind t.stores id = some e ∧ e.cell = cellOf p ∧ e.pos = p ∧ e.sector = loc / 32
  | .scr cell off, .write n v => rd t (locScr cell off) n = v % 256 ^ n
  | _, _ => True

/-- An act that is not performed when its instruction issues: lane p has an entry in flight with it, still to be performed. -/
def Waits (s t : State) (p k : Nat) (tgt : Target) (op : HomeOp) (id : Nat) : Prop :=
  ∃ e q, s.fresh ≤ id ∧ tfind t.pend id = some e ∧ e.pos = p ∧ e.parts[k]? = some q ∧ q.tgt = tgt ∧ q.op = op ∧ q.val = none

/-- A cell but for the cycles in which its banks are busy (R107). -/
def noBank (x : CellSt) : CellSt := { x with bankBusy := [] }

/-- What every memory form leaves alone: registers, work in flight, rejoin sets, gangs, the Alley, grids and other cells, the cycles
in which their banks are busy apart (R107); its lanes issue, and a fence of theirs may come to wait for its reads. -/
structure WorkIssues (s t : State) : Prop where
  regs : RegsKept s t noReg
  strands : ∀ p, { t.str p with fenceAny := [] } =
    { (if p ∈ s.cur.lanes then issueOne s.cur.nba (s.str p) else s.str p) with fenceAny := [] }
  older : ∀ id, id < s.fresh → tfind t.pend id = tfind s.pend id
  sets : ∀ l n, rdJ t l n = rdJ s l n
  gangs : ∀ l, t.gang l = s.gang l
  grids : ∀ g, t.grid g = s.grid g
  alley : t.alley = s.alley
  absent : t.absent = s.absent
  cells : ∀ d, ¬ownCell s d → noBank (t.cell d) = noBank (s.cell d)
  bad : ∀ r ∈ t.badRegs, r ∈ s.badRegs

/-- A memory instruction issues once its registers have landed, its order is met and its accesses reach their targets (R319). A form
with a result puts one entry for each of its lanes in flight, whose registers are pending until it lands (R46, R320); a read of another
package is then still to be performed, or has failed and left a mark (R468). A write to a register of the device is performed after the
bundle, by the event that comes to be due (R323). Where every act can be performed at issue, the acts read and write what R118, R158
and R331 say, and no other byte of memory changes. -/
def CompletesMem (i : Instr) (gd : Guard) (m : MemUse) : Prop :=
  ∀ s : State, RegsLanded s gd i → OrderMet s gd m.all →
    Reaches s (actingLanes s gd) (fun p => if p ∈ m.who s then (m.accs s p).map (·.1) else []) →
    ∃ t, exec i s = .next t ∧ WorkIssues s t ∧ (m.acq = false → LanesIssue s t) ∧
      (m.reads = true → ∀ p ∈ m.who s, ∃ id e, s.fresh ≤ id ∧ tfind t.pend id = some e ∧ e.pos = p ∧ e.shape = m.shape s p ∧
        e.regs = shapeRegs (m.shape s p) p ∧
        e.parts.map (fun q => (q.tgt, q.va, q.op)) = (m.accs s p).map (fun a => (targetOf s p a.1, a.1.va, a.2)) ∧
        (∀ (k : Nat) (a : Ask × HomeOp) (q : Part) (g x : Nat), (m.accs s p)[k]? = some a → e.parts[k]? = some q →
          targetOf s p a.1 = .remote g x → q.val = none ∨ e.mark.isSome = true) ∧
        (AllAnswer s m → ∀ k a q, (m.accs s p)[k]? = some a → e.parts[k]? = some q → Apart s m p k →
          Reads s t m (cellOf p) (targetOf s p a.1) a.2 q.val)) ∧
      (m.dev = true → ∀ p ∈ m.who s, ∀ k a, (m.accs s p)[k]? = some a → devWrite (targetOf s p a.1) a.2 = true →
        ∃ id, Waits s t p k (targetOf s p a.1) a.2 id ∧ Instr.scoreboardResultLands id ∈ t.agenda) ∧
      (AllAnswer s m →
        (∀ p ∈ m.who s, ∀ k a, (m.accs s p)[k]? = some a → Apart s m p k → Stands s t m p (targetOf s p a.1) a.2) ∧
        (∀ a, (∀ p ∈ m.who s, ∀ x ∈ m.accs s p, ∀ l, storedAt m.home (targetOf s p x.1) x.2 = some l → a < l ∨ l + opBytes x.2 ≤ a) →
          byteAt t a = byteAt s a) ∧
        t.poison = s.poison ∧ t.pkg = s.pkg)

/-- A form in which every acting lane reads. -/
def readUse (gd : Guard) (shape : Shape) (accs : State → Nat → List (Ask × HomeOp)) (home all acq : Bool)
    (dev : Bool := false) : MemUse :=
  { who := fun s => actingLanes s gd, accs := accs, shape := fun _ _ => shape, reads := true, home := home, all := all, acq := acq
    dev := dev }
/-- A form in which every acting lane writes. -/
def writeUse (gd : Guard) (accs : State → Nat → List (Ask × HomeOp)) (home all : Bool)
    (dev : Bool := false) : MemUse :=
  { who := fun s => actingLanes s gd, accs := accs, reads := false, home := home, all := all, dev := dev }
/-- A uniform load: the lowest acting lane reads eight bytes into a gang register (R329). -/
def uniformUse (gd : Guard) (k : Fin 16) (va : State → Nat → Word) (home acq : Bool) : MemUse :=
  { who := fun s => (actingLanes s gd).take 1, accs := fun s p => [(askV (va s p) 8 .load, .read 8)]
    shape := fun s _ => .k s.cur.leader k.val, reads := true, home := home, acq := acq }
/-- An atomic: each acting lane reads and writes at the home in one act (R330). -/
def atomicUse (gd : Guard) (a : GReg) (al : Nat) (shape : State → Nat → Shape) (op : State → Nat → HomeOp) (o : AOrd) : MemUse :=
  { who := fun s => actingLanes s gd
    accs := fun s p => [({ va := rdReg s p a, n := opBytes (op s p), al := al, kind := .atomic }, op s p)]
    shape := shape, reads := true, home := true, all := (relOf o).isSome, acq := (acqOf o).isSome }

/-! ### Forms with an effect of their own -/

/-- A block without the fields that the issue of a bundle changes (R193, R478). -/
def unissuedBlock (b : Block) : Block := { b with lastIssue := 0, stallMade := false, phase := .gone, after := .gone, due := none, sitting := false }

/-- u is s once the bundle in hand has issued and has changed nothing else: its lanes stand at NBA, the last issue of the block is
now, and where the bundle has a price it has been paid (R189). -/
structure Issues (paid : Bool) (s u : State) : Prop where
  rest : (((u.setStrands s.strands).setCells s.cells).setBlocks s.blocks).setDies s.dies = s
  lanes : LanesIssue s u
  cells : ∀ c, unpaidCell (u.cell c) = unpaidCell (s.cell c)
  blocks : ∀ b, unissuedBlock (u.block b) = unissuedBlock (s.block b)
  free : paid = false → u.cells = s.cells ∧ u.dies = s.dies

/-- In every state that meets `ok` and in which its registers have landed, the word issues and does `effect`, from the state before
it and the state with its lanes issued; the registers that it writes are correct again (R470). Whatever `effect` does not change is
as `Issues` leaves it. -/
def CompletesBy (i : Instr) (gd : Guard) (paid : Bool) (ok : State → Prop) (effect : State → State → State) : Prop :=
  ∀ s : State, RegsLanded s gd i → ok s →
    ∃ u, Issues paid s u ∧ exec i s = .next (mendWord s (actingLanes s gd) i (effect s u))

/-- The words of the acting lanes of a form with a price, paid for. -/
def PaidFor (gd : Guard) (price : State → List Nat → Nat) (free : Bool) (s : State) : Prop :=
  Payable s (Nat.min 64 (price s (actingLanes s gd))) free

/-! ### Values that several statements name -/

/-- The value that a shuffle or a `bcast` gives lane p: the S1 of the source lane where that lies in the exchange set L, and of
`other` elsewhere. -/
def exchanged (s : State) (gd : Guard) (a : GReg) (lane : Int) (other : Nat) : Word :=
  if 0 ≤ lane ∧ s.cur.leader + lane.toNat ∈ actingLanes s gd then rdReg s (s.cur.leader + lane.toNat) a else rdReg s other a

end Sys2Proof.Machine
end

