-- ==== Sys2Proof/Certificates/Slice0/Obligations.lean ====
section
/-!
DEFINITION. The statements for the provers. Every statement about an instruction gives the next state that exec answers, in
every state that meets the conditions which the spec names for its issue, and what that state leaves alone; Sys2Proof/Safety.lean
holds the terms.
-/
section

open Sys2Proof Sys2Proof.Machine

/-! ### Integer and predicate instructions (spec/09_isa_integer_and_control.md) -/

/-- R230, R227, R206: the forms of integer arithmetic and logic whose result lands at once, over every type and both register
banks. N is the width of the type, x and y are the views of S1 and S2, and the shift count is S2 modulo N. -/
def Obligations.IntegerArithmeticResults : Prop := ∀ (gd : Guard) (d a b : GReg) (t : IntTy),
  CompletesG (.add gd d a b t) gd d (fun _ => 0) (fun s p => wrapT t (view t (rdReg s p a) + view t (rdReg s p b))) ∧
  CompletesG (.sub gd d a b t) gd d (fun _ => 0) (fun s p => wrapT t (view t (rdReg s p a) - view t (rdReg s p b))) ∧
  CompletesG (.mul gd d a b t) gd d (fun _ => 0) (fun s p => wrapT t (view t (rdReg s p a) * view t (rdReg s p b))) ∧
  CompletesG (.mulh gd d a b t) gd d (fun _ => 0)
    (fun s p => wrapT t (view t (rdReg s p a) * view t (rdReg s p b) / (2 ^ t.width : Nat))) ∧
  CompletesG (.mad gd d a b t) gd d (fun _ => 0)
    (fun s p => wrapT t (view t (rdReg s p d) + view t (rdReg s p a) * view t (rdReg s p b))) ∧
  CompletesG (.and gd d a b t) gd d (fun _ => 0)
    (fun s p => wrapT t (Nat.land (uView t (rdReg s p a)) (uView t (rdReg s p b)) : Nat)) ∧
  CompletesG (.or gd d a b t) gd d (fun _ => 0)
    (fun s p => wrapT t (Nat.lor (uView t (rdReg s p a)) (uView t (rdReg s p b)) : Nat)) ∧
  CompletesG (.xor gd d a b t) gd d (fun _ => 0)
    (fun s p => wrapT t (Nat.xor (uView t (rdReg s p a)) (uView t (rdReg s p b)) : Nat)) ∧
  CompletesG (.andn gd d a b t) gd d (fun _ => 0)
    (fun s p => wrapT t (Nat.land (uView t (rdReg s p a)) (Nat.xor (uView t (rdReg s p b)) (2 ^ t.width - 1)) : Nat)) ∧
  CompletesG (.shl gd d a b t) gd d (fun _ => 0)
    (fun s p => wrapT t (view t (rdReg s p a) * (2 ^ ((rdReg s p b).toNat % t.width) : Nat))) ∧
  CompletesG (.shr gd d a b t) gd d (fun _ => 0)
    (fun s p => wrapT t (uView t (rdReg s p a) / 2 ^ ((rdReg s p b).toNat % t.width) : Nat)) ∧
  CompletesG (.sar gd d a b t) gd d (fun _ => 0)
    (fun s p => wrapT t (iView t (rdReg s p a) / (2 ^ ((rdReg s p b).toNat % t.width) : Nat))) ∧
  CompletesG (.rot gd d a b t) gd d (fun _ => 0)
    (fun s p => wrapT t (uView t (rdReg s p a) * 2 ^ ((rdReg s p b).toNat % t.width) % 2 ^ t.width
      + uView t (rdReg s p a) / 2 ^ (t.width - (rdReg s p b).toNat % t.width) : Nat)) ∧
  CompletesG (.min gd d a b t) gd d (fun _ => 0)
    (fun s p => wrapT t (if view t (rdReg s p a) ≤ view t (rdReg s p b) then view t (rdReg s p a) else view t (rdReg s p b))) ∧
  CompletesG (.max gd d a b t) gd d (fun _ => 0)
    (fun s p => wrapT t (if view t (rdReg s p a) ≤ view t (rdReg s p b) then view t (rdReg s p b) else view t (rdReg s p a)))

/-- R232, R233: the immediate forms. `addi` adds the signed immediate, the logical forms take the low N bits of its sign
extension, `li` loads a sign-extended immediate, and `lih` shifts D left by 14 places and adds one. -/
def Obligations.ImmediateResults : Prop := ∀ (gd : Guard) (d a : GReg) (t : IntTy) (c : BitVec 6) (m : BitVec 14),
  CompletesG (.addi gd d a c t) gd d (fun _ => 0) (fun s p => wrapT t (view t (rdReg s p a) + c.toInt)) ∧
  CompletesG (.andi gd d a c t) gd d (fun _ => 0)
    (fun s p => wrapT t (Nat.land (uView t (rdReg s p a)) (c.toInt % (2 ^ t.width : Nat)).toNat : Nat)) ∧
  CompletesG (.ori gd d a c t) gd d (fun _ => 0)
    (fun s p => wrapT t (Nat.lor (uView t (rdReg s p a)) (c.toInt % (2 ^ t.width : Nat)).toNat : Nat)) ∧
  CompletesG (.xori gd d a c t) gd d (fun _ => 0)
    (fun s p => wrapT t (Nat.xor (uView t (rdReg s p a)) (c.toInt % (2 ^ t.width : Nat)).toNat : Nat)) ∧
  CompletesG (.li gd d m) gd d (fun _ => 0) (fun _ _ => m.signExtend 64) ∧
  CompletesG (.lih gd d m) gd d (fun _ => 0) (fun s p => rdReg s p d * 16384#64 + m.zeroExtend 64)

/-- R234 to R237: bit operations, selection and addresses. `abs` leaves an unsigned view alone, the counts run over the N-bit
pattern, bit j of `brev` is bit N − 1 − j, `sel` moves all 64 bits, and `lea` shifts the index by 0 to 3 places. -/
def Obligations.BitOperationResults : Prop := ∀ (gd : Guard) (d a b : GReg) (t : IntTy) (q : Fin 8) (sh : Fin 4),
  CompletesG (.abs gd d a t) gd d (fun _ => 0) (fun s p => wrapT t (view t (rdReg s p a)).natAbs) ∧
  CompletesG (.neg gd d a t) gd d (fun _ => 0) (fun s p => wrapT t (-view t (rdReg s p a))) ∧
  CompletesG (.clz gd d a t) gd d (fun _ => 0)
    (fun s p => wrapT t (clzOf t.width (uView t (rdReg s p a)) : Nat)) ∧
  CompletesG (.ctz gd d a t) gd d (fun _ => 0) (fun s p => wrapT t (ctzFrom (uView t (rdReg s p a)) t.width : Nat)) ∧
  CompletesG (.popc gd d a t) gd d (fun _ => 0) (fun s p => wrapT t (popcOf (uView t (rdReg s p a)) t.width : Nat)) ∧
  CompletesG (.brev gd d a t) gd d (fun _ => 0) (fun s p => wrapT t (brevOf (uView t (rdReg s p a)) t.width : Nat)) ∧
  (∀ u j, j < t.width → (brevOf u t.width).testBit j = u.testBit (t.width - 1 - j)) ∧
  CompletesG (.bfx gd d a b t) gd d (fun _ => 0) (fun s p => wrapT t (bfxOf t (rdReg s p a) (rdReg s p b))) ∧
  CompletesG (.bfi gd d a b t) gd d (fun _ => 0)
    (fun s p => wrapT t (bfiOf t (rdReg s p d) (rdReg s p a) (rdReg s p b) : Nat)) ∧
  CompletesG (.sel gd d a b q) gd d (fun _ => 0) (fun s p => if rdP s p q.val then rdReg s p a else rdReg s p b) ∧
  CompletesG (.lea gd d a b sh) gd d (fun _ => 0) (fun s p => rdReg s p a + rdReg s p b <<< sh.val)

/-- R238, R239, R269: comparisons and predicate logic write one predicate of each acting lane. An ordered floating-point
condition is false, and ne and un are true, when an operand is NaN. -/
def Obligations.ComparisonResults : Prop :=
  ∀ (gd : Guard) (p : Fin 8) (a b : GReg) (t : IntTy) (x y : Fin 8) (f : FTy) (m n : Fin 32),
  CompletesP (.cmp gd .eq p a b t) gd p (fun s q => decide (view t (rdReg s q a) = view t (rdReg s q b))) ∧
  CompletesP (.cmp gd .ne p a b t) gd p (fun s q => decide (view t (rdReg s q a) ≠ view t (rdReg s q b))) ∧
  CompletesP (.cmp gd .lt p a b t) gd p (fun s q => decide (view t (rdReg s q a) < view t (rdReg s q b))) ∧
  CompletesP (.cmp gd .le p a b t) gd p (fun s q => decide (view t (rdReg s q a) ≤ view t (rdReg s q b))) ∧
  CompletesP (.cmp gd .gt p a b t) gd p (fun s q => decide (view t (rdReg s q a) > view t (rdReg s q b))) ∧
  CompletesP (.cmp gd .ge p a b t) gd p (fun s q => decide (view t (rdReg s q a) ≥ view t (rdReg s q b))) ∧
  CompletesP (.pand gd p x y) gd p (fun s q => rdP s q x.val && rdP s q y.val) ∧
  CompletesP (.por gd p x y) gd p (fun s q => rdP s q x.val || rdP s q y.val) ∧
  CompletesP (.pxor gd p x y) gd p (fun s q => xor (rdP s q x.val) (rdP s q y.val)) ∧
  CompletesP (.pnot gd p x) gd p (fun s q => !(rdP s q x.val)) ∧
  (∀ c, CompletesP (.fcmp gd c p m n f) gd p (fun s q =>
    let u := scalarF f (rdG s q m.val)
    let v := scalarF f (rdG s q n.val)
    if isNan u || isNan v then decide (c = .ne ∨ c = .un)
    else match c with
      | .eq => decide (cmpX u v = 0)
      | .ne => decide (cmpX u v ≠ 0)
      | .lt => decide (cmpX u v < 0)
      | .le => decide (cmpX u v ≤ 0)
      | .gt => decide (cmpX u v > 0)
      | .ge => decide (cmpX u v ≥ 0)
      | .un => false
      | .ord => true))

/-- R240 to R243: votes, `ballot`, the four shuffles and `bcast`, over the exchange set, which is the acting lanes of the issuing path. Lane i
of a gang of G lanes takes S1 of the source lane that its control value names, where that lane acts, and its own S1 otherwise; a `bcast` falls
back on the lowest acting lane. -/
def Obligations.VotesAndShuffles : Prop :=
  (∀ (gd : Guard) (p a : Fin 8) (d : GReg),
    CompletesP (.voteSome gd p a) gd p (fun s _ => (actingLanes s gd).any (fun q => rdP s q a.val)) ∧
    CompletesP (.voteEvery gd p a) gd p (fun s _ => (actingLanes s gd).all (fun q => rdP s q a.val)) ∧
    CompletesP (.voteAgree gd p a) gd p (fun s _ =>
      (actingLanes s gd).all (fun q => rdP s q a.val) || (actingLanes s gd).all (fun q => !rdP s q a.val)) ∧
    CompletesG (.ballot gd d a) gd d (fun _ => 0) (fun s _ =>
      word (laneMask s.cur.leader ((actingLanes s gd).filter (fun q => rdP s q a.val))))) ∧
  (∀ (gd : Guard) (d a b : GReg) (n : Fin 16),
    CompletesG (.shflPick gd d a b) gd d (fun _ => 0) (fun s p =>
      exchanged s gd a ((rdReg s p b).toNat % 16 : Nat) p) ∧
    CompletesG (.shflLo gd d a b) gd d (fun _ => 0) (fun s p =>
      let i : Int := (p - s.cur.leader : Nat) - ((rdReg s p b).toNat % 32 : Nat)
      exchanged s gd a (if (rdReg s p b).getLsbD 5 then i % (2 ^ glogOf (s.str p) : Nat) else i) p) ∧
    CompletesG (.shflHi gd d a b) gd d (fun _ => 0) (fun s p =>
      let i : Int := (p - s.cur.leader : Nat) + ((rdReg s p b).toNat % 32 : Nat)
      exchanged s gd a (if (rdReg s p b).getLsbD 5 then i % (2 ^ glogOf (s.str p) : Nat) else i) p) ∧
    CompletesG (.shflMir gd d a b) gd d (fun _ => 0) (fun s p =>
      exchanged s gd a (Nat.xor (p - s.cur.leader) ((rdReg s p b).toNat % 16) : Nat) p) ∧
    CompletesG (.bcast gd d a n) gd d (fun _ => 0) (fun s _ =>
      exchanged s gd a (n.val : Int) ((actingLanes s gd).headD s.cur.leader)))

/-- R208, R210: `krd` copies a gang register into each acting lane; `kwr` writes the value of the lowest acting lane into it, and
with no acting lane writes nothing. -/
def Obligations.GangRegisterMoves : Prop := ∀ (gd : Guard) (d a : GReg) (k : Fin 16),
  CompletesG (.krd gd d k) gd d (fun _ => 0) (fun s _ => rdK s s.cur.leader k.val) ∧
  ∀ s : State, RegsLanded s gd (.kwr gd k a) →
    ∃ t, exec (.kwr gd k a) s = .next t ∧
      (∀ p, (actingLanes s gd).head? = some p → rdK t s.cur.leader k.val = rdReg s p a) ∧
      RegsKept s t (fun r => actingLanes s gd ≠ [] ∧ r = .k s.cur.leader k.val) ∧
      BytesKept s t ∧ LanesIssue s t ∧ RestKept s t ∧ t.pend = s.pend

/-! ### Floating-point, wide and exact forms (spec/10_isa_numbers_and_float.md) -/

/-- R206, R265 to R268, R270: the scalar floating-point forms that are fixed-latency. A result is the exact one rounded once by the
mode; `fma` rounds once, the smaller or the larger number wins over a NaN in `fmin` and `fmax`, and `fabs` and `fneg` change the
sign bit alone. -/
def Obligations.ScalarFloatResults : Prop := ∀ (gd : Guard) (m : Rm) (d a b : Fin 32) (f : FTy),
  let x := fun (s : State) p => decodeF (ftyFmt f) ((rdG s p a.val).toNat % 2 ^ (ftyFmt f).width)
  let y := fun (s : State) p => decodeF (ftyFmt f) ((rdG s p b.val).toNat % 2 ^ (ftyFmt f).width)
  let z := fun (s : State) p => decodeF (ftyFmt f) ((rdG s p d.val).toNat % 2 ^ (ftyFmt f).width)
  let round := fun (s : State) p (v : Exact) => word (roundF (ftyFmt f) m (drawFor s p 0) v)
  CompletesG (.fadd gd m d a b f) gd (asG d) (fun _ => 0) (fun s p => round s p (addX (decide (m = .rd)) (x s p) (y s p))) ∧
  CompletesG (.fsub gd m d a b f) gd (asG d) (fun _ => 0) (fun s p => round s p (addX (decide (m = .rd)) (x s p) (negX (y s p)))) ∧
  CompletesG (.fmul gd m d a b f) gd (asG d) (fun _ => 0) (fun s p => round s p (mulX (x s p) (y s p))) ∧
  CompletesG (.fma gd m d a b f) gd (asG d) (fun _ => 0)
    (fun s p => round s p (addX (decide (m = .rd)) (mulX (x s p) (y s p)) (z s p))) ∧
  CompletesG (.fmin gd d a b f) gd (asG d) (fun _ => 0) (fun s p => word
    (if isNan (x s p) ∧ isNan (y s p) then (ftyFmt f).nan
    else if isNan (x s p) ∨ !isNan (y s p) ∧ below (y s p) (x s p) then (rdG s p b.val).toNat % 2 ^ (ftyFmt f).width
    else (rdG s p a.val).toNat % 2 ^ (ftyFmt f).width)) ∧
  CompletesG (.fmax gd d a b f) gd (asG d) (fun _ => 0) (fun s p => word
    (if isNan (x s p) ∧ isNan (y s p) then (ftyFmt f).nan
    else if isNan (x s p) ∨ !isNan (y s p) ∧ below (x s p) (y s p) then (rdG s p b.val).toNat % 2 ^ (ftyFmt f).width
    else (rdG s p a.val).toNat % 2 ^ (ftyFmt f).width)) ∧
  CompletesG (.fabs gd d a f) gd (asG d) (fun _ => 0)
    (fun s p => word ((rdG s p a.val).toNat % 2 ^ ((ftyFmt f).width - 1))) ∧
  CompletesG (.fneg gd d a f) gd (asG d) (fun _ => 0)
    (fun s p => word (Nat.xor ((rdG s p a.val).toNat % 2 ^ (ftyFmt f).width) (2 ^ ((ftyFmt f).width - 1))))

/-- R230, R231, R46, R267, R268, R270: the divisions land later, in the register that the form marks pending at issue. An integer
quotient truncates toward zero and is −1 for a zero divisor; the remainder belongs to that quotient and is the dividend for a
zero divisor. `fdiv` and `fsqrt` round the exact quotient and root once. (When work ends is the model's own schedule, a field
of the state: notes/assumptions/7.md.) -/
def Obligations.DivisionsLandLater : Prop :=
  (∀ (gd : Guard) (d a b : GReg) (t : IntTy),
    CompletesLater (.div gd d a b t) gd (fun _ => 0) (fun p => gId p d) (fun s p => gVal p d (wrapT t
      (if view t (rdReg s p b) = 0 then -1 else Int.tdiv (view t (rdReg s p a)) (view t (rdReg s p b))))) ∧
    CompletesLater (.rem gd d a b t) gd (fun _ => 0) (fun p => gId p d) (fun s p => gVal p d (wrapT t
      (if view t (rdReg s p b) = 0 then view t (rdReg s p a)
      else view t (rdReg s p a) - view t (rdReg s p b) * Int.tdiv (view t (rdReg s p a)) (view t (rdReg s p b)))))) ∧
  (∀ (gd : Guard) (m : Rm) (d a b : Fin 32) (f : FTy),
    let x := fun (s : State) p => decodeF (ftyFmt f) ((rdG s p a.val).toNat % 2 ^ (ftyFmt f).width)
    let y := fun (s : State) p => decodeF (ftyFmt f) ((rdG s p b.val).toNat % 2 ^ (ftyFmt f).width)
    CompletesLater (.fdiv gd m d a b f) gd (fun _ => 0) (fun p => .g p d.val)
      (fun s p => .g p d.val (word (roundF (ftyFmt f) m (drawFor s p 0) (divX (x s p) (y s p))))) ∧
    CompletesLater (.fsqrt gd m d a f) gd (fun _ => 0) (fun p => .g p d.val)
      (fun s p => .g p d.val (word (roundF (ftyFmt f) m (drawFor s p 0) (sqrtX (x s p))))))

/-- R276, R278, R286: the forms that bring a wide or an exact value into a g register. A reduction rounds the exact sum once, at one
token a lane; a scalar `cvt` saturates or rounds once; `xget` rounds the exact value of an accumulator. -/
def Obligations.ReductionResults : Prop :=
  ∀ (gd : Guard) (d : GReg) (a b : Fin 16) (f : FTy) (c n : Fin 32) (dt st : TyCode) (m2 : Rm2) (e : Fin 2) (w : Bool) (m : Rm),
  CompletesG (.vsum gd d a f) gd d (fun s => (actingLanes s gd).length) (fun s p => word (roundF (sumFmt f) .rn 0
    (sumX ((List.range (256 / (ftyFmt f).width)).map fun i => decodeF (ftyFmt f) (wElem s p f a i))))) ∧
  CompletesG (.vdot gd d a b f) gd d (fun s => (actingLanes s gd).length) (fun s p => word (roundF (sumFmt f) .rn 0
    (sumX ((List.range (256 / (ftyFmt f).width)).map fun i =>
      mulX (decodeF (ftyFmt f) (wElem s p f a i)) (decodeF (ftyFmt f) (wElem s p f b i)))))) ∧
  CompletesG (.cvtScalar gd c n dt st m2) gd (asG c) (fun _ => 0)
    (fun s p => toG dt (convert dt st (rm2 m2) 0 ((rdG s p n.val).toNat % 2 ^ (tyOf st).width))) ∧
  CompletesG (.xget gd d e w m) gd d (fun _ => 0)
    (fun s p => word (roundF (if w then fp64 else fp32) m (drawFor s p 0) (xValue (rdE s p e.val) (rdEf s p e.val))))

/-- R271, R274, R275, R277, R278: the wide forms whose result lands at once, element by element, at one token a lane. -/
def Obligations.WideResults : Prop :=
  ∀ (gd : Guard) (m : Rm) (d a b : Fin 16) (f : FTy) (c : CC) (sz : PermSz) (dt st : TyCode),
  let x := fun (s : State) p i => decodeF (ftyFmt f) (wElem s p f a i)
  let y := fun (s : State) p i => decodeF (ftyFmt f) (wElem s p f b i)
  let z := fun (s : State) p i => decodeF (ftyFmt f) (wElem s p f d i)
  let round := fun (s : State) p i (v : Exact) => roundF (ftyFmt f) m (drawFor s p i) v
  CompletesW (.vadd gd m d a b f) gd d (fun s p => mapW f fun i => round s p i (addX (decide (m = .rd)) (x s p i) (y s p i))) ∧
  CompletesW (.vsub gd m d a b f) gd d (fun s p => mapW f fun i => round s p i (addX (decide (m = .rd)) (x s p i) (negX (y s p i)))) ∧
  CompletesW (.vmul gd m d a b f) gd d (fun s p => mapW f fun i => round s p i (mulX (x s p i) (y s p i))) ∧
  CompletesW (.vfma gd m d a b f) gd d
    (fun s p => mapW f fun i => round s p i (addX (decide (m = .rd)) (mulX (x s p i) (y s p i)) (z s p i))) ∧
  CompletesW (.vmin gd d a b f) gd d (fun s p => mapW f fun i => fminOf f (wElem s p f a i) (wElem s p f b i)) ∧
  CompletesW (.vmax gd d a b f) gd d (fun s p => mapW f fun i => fmaxOf f (wElem s p f a i) (wElem s p f b i)) ∧
  CompletesW (.vabs gd d a f) gd d (fun s p => mapW f fun i => wElem s p f a i % 2 ^ ((ftyFmt f).width - 1)) ∧
  CompletesW (.vneg gd d a f) gd d (fun s p => mapW f fun i => Nat.xor (wElem s p f a i) (2 ^ ((ftyFmt f).width - 1))) ∧
  CompletesW (.vcmp gd c d a b f) gd d
    (fun s p => mapW f fun i => if floatCond c (x s p i) (y s p i) then 2 ^ (ftyFmt f).width - 1 else 0) ∧
  CompletesW (.vsel gd d a b) gd d (fun s p => (rdW s p a.val &&& rdW s p d.val) ||| (rdW s p b.val &&& ~~~(rdW s p d.val))) ∧
  CompletesW (.vperm gd d a b sz) gd d (fun s p => BitVec.ofNat 256 (fromElems (permBits sz)
    ((List.range (256 / permBits sz)).map fun i => elem (rdW s p a.val).toNat (permBits sz)
      (elem (rdW s p b.val).toNat (permBits sz) i % (256 / permBits sz))))) ∧
  CompletesW (.cvtWide gd d a dt st m) gd d (fun s p => BitVec.ofNat 256 (fromElems (tyOf dt).width
    ((List.range (256 / Nat.max (tyOf st).width (tyOf dt).width)).map fun i =>
      convert dt st m (drawFor s p i) (elem (rdW s p a.val).toNat (tyOf st).width i))))

/-- R272, R273, R187: `vrcp`, `vrsq`, `vsqrt`, `vexp2`, `vlog2`, `vsin` and `vcos` give each element of S1 the result of R272, land
later, and cost two tokens a lane. A result of FP16 or BF16, one of `vsqrt` and one that R272 fixes is the function's value rounded
once; any other of FP32 and FP64 is a free value of the part (notes/assumptions/2.md) where that lies within the bound of R272,
and otherwise the rounded value. The special operands have the results of R272's table. (When work ends is the model's own
schedule, a field of the state: notes/assumptions/7.md.) -/
def Obligations.SpecialFunctionsLandLater : Prop := ∀ (gd : Guard) (d a : Fin 16) (f : FTy),
  let price := fun (s : State) => 2 * (actingLanes s gd).length
  let result := fun fn (s : State) p => RegVal.w p d.val (mapW f fun i => specResult fn f (wElem s p f a i))
  CompletesLater (.vrcp gd d a f) gd price (fun p => .w p d.val) (result .rcp) ∧
  CompletesLater (.vrsq gd d a f) gd price (fun p => .w p d.val) (result .rsq) ∧
  CompletesLater (.vsqrt gd d a f) gd price (fun p => .w p d.val) (result .sqrt) ∧
  CompletesLater (.vexp2 gd d a f) gd price (fun p => .w p d.val) (result .exp2) ∧
  CompletesLater (.vlog2 gd d a f) gd price (fun p => .w p d.val) (result .log2) ∧
  CompletesLater (.vsin gd d a f) gd price (fun p => .w p d.val) (result .sin) ∧
  CompletesLater (.vcos gd d a f) gd price (fun p => .w p d.val) (result .cos) ∧
  (∀ fn x,
    let F := ftyFmt f
    let y := (specExact fn (decodeF F x)).1
    let part := (Config.specialValue fn f (BitVec.ofNat 64 x)).toNat % 2 ^ F.width
    (f = .f16 ∨ f = .bf16 ∨ specFixed fn F x = true → specResult fn f x = roundF F .rn 0 y) ∧
    (f = .f32 ∨ f = .f64 → specFixed fn F x = false →
      specResult fn f x = if withinBound fn F y part then part else roundF F .rn 0 y) ∧
    (∀ c, withinBound fn F y c = true → cmpX (absX (addX false (decodeF F c) (negX (dyadic F y)))) (errBound fn F y) ≤ 0 ∧
      (fn = .sin ∨ fn = .cos → cmpX (absX (decodeF F c)) (.num false 1 1 0 false) ≤ 0)) ∧
    (fn = .sqrt → specFixed fn F x = true)) ∧
  (let one : Exact := .num false 1 1 0 false
    let row := fun x => [SpecFn.rcp, .rsq, .sqrt, .exp2, .log2, .sin, .cos].map fun fn => specExact fn x
    row .nan = List.replicate 7 (.nan, true) ∧
    row (.inf false) = [.zero false, .zero false, .inf false, .inf false, .inf false, .nan, .nan].map (·, true) ∧
    row (.inf true) = [.zero true, .nan, .nan, .zero false, .nan, .nan, .nan].map (·, true) ∧
    row (.zero false) = [.inf false, .inf false, .zero false, one, .inf true, .zero false, one].map (·, true) ∧
    row (.zero true) = [.inf true, .inf true, .zero true, one, .inf true, .zero true, one].map (·, true) ∧
    ∀ n d e, specExact .rsq (.num true n d e false) = (.nan, true) ∧ specExact .sqrt (.num true n d e false) = (.nan, true) ∧
      specExact .log2 (.num true n d e false) = (.nan, true))

/-- R279 to R282: `pack`, `unpk` and `scl` on a g register, or with KS on a w register at one token a lane. -/
def Obligations.PackResults : Prop := ∀ (gd : Guard) (d a b : Fin 16) (pr : Fin 12) (sc : Fin 10) (m : Rm) (hi ks : Bool),
  let wd := (tyOf (pairTypes pr).2).width
  let n := zWidth ks / wd
  CompletesZ (.pack gd d a b pr m ks) gd ks d (fun s p => fromElems (tyOf (pairTypes pr).1).width ((List.range (2 * n)).map fun j =>
    convert (pairTypes pr).1 (pairTypes pr).2 m (drawFor s p j)
      (if j < n then elem (rdZ s p ks a) wd j else elem (rdZ s p ks b) wd (j - n)))) ∧
  CompletesZ (.unpk gd d a hi pr ks) gd ks d (fun s p => fromElems wd ((List.range n).map fun j =>
    convert (pairTypes pr).2 (pairTypes pr).1 .rn 0
      (elem (rdZ s p ks a) (tyOf (pairTypes pr).1).width ((if hi then n else 0) + j)))) ∧
  CompletesZ (.scl gd d a b sc m ks) gd ks d (fun s p =>
    let ws := (tyOf (sclTypes sc).2).width
    let wz := (tyOf (sclTypes sc).1).width
    let k := zWidth ks / Nat.max ws wz
    sclInto (sclTypes sc).1 (sclTypes sc).2 m (drawFor s p) (rdZ s p ks b % 256) (rdZ s p ks a)
      (field (rdZ s p ks b) 8 8 % (zWidth ks / (k * Nat.min ws wz))) k (if wz ≤ ws then rdZ s p ks d else 0) k)

/-- R283 to R285, R287: the exact accumulators. `xadd` adds the quantised operands, modulo 2^320, and sets the flags of those that
no multiple of 2^-150 stands for; `xclr` clears value and flags, and `xmrg` adds values and joins flags. -/
def Obligations.ExactAccumulatorResults : Prop := ∀ (gd : Guard) (e c : Fin 2) (src : XSrc),
  CompletesE (.xadd gd e src) gd e (fun s => (actingLanes s gd).length)
    (fun s p => (addends s p src).foldl (fun v x => v + BitVec.ofInt 320 (quantVal x)) (rdE s p e.val))
    (fun s p => (addends s p src).foldl (fun f x => f ||| quantFlags x) (rdEf s p e.val)) ∧
  CompletesE (.xclr gd e) gd e (fun _ => 0) (fun _ _ => 0#320) (fun _ _ => 0#3) ∧
  CompletesE (.xmrg gd e c) gd e (fun s => (actingLanes s gd).length)
    (fun s p => rdE s p e.val + rdE s p c.val) (fun s p => rdEf s p e.val ||| rdEf s p c.val)

/-! ### The Alley (R209, R210) -/

/-- R209, R210, R470: in a path whose lanes all have the neighbours named and whose links are correct and allow it, `qrd` takes the
value of its incoming link into D, empties the link and with a second direction pushes the value on, and `qwr` pushes S1; no register
but D changes. What a sender has pushed onto the link before it in the same cycle stays there. -/
def Obligations.AlleyMoves : Prop := ∀ (gd : Guard) (d a : GReg) (x : QDir) (fwd : Option QDir) (s : State),
  let ls := actingLanes s gd
  let v := fun p => (linkBefore s (inLink p x)).getD 0#64
  (RegsLanded s gd (.qrd gd d x fwd) →
    (∀ p ∈ ls, hasNext p x = true ∧ (linkBefore s (inLink p x)).isSome = true ∧ broken s (.link (inLink p x)) = false ∧
      ∀ y, fwd = some y → hasNext p y = true ∧ accepts s (ls.map (inLink · x)) (outLink p y) = true) →
    ∃ t, exec (.qrd gd d x fwd) s = .next t ∧
      (∀ p ∈ ls, SoleWriter s gd d p → rdReg t p d = heldG d (v p)) ∧
      (∀ p ∈ ls, ∀ y, fwd = some y → (∀ q ∈ ls, outLink q y = outLink p y → q = p) → tfind t.alley (outLink p y) = some (v p)) ∧
      (∀ p ∈ ls, (∀ q ∈ ls, ∀ y, fwd = some y → outLink q y ≠ inLink p x) → tfind t.alley (inLink p x) =
        if tfind s.alleyOld (inLink p x) = none then none else tfind s.alley (inLink p x)) ∧
      (∀ k, (∀ p ∈ ls, k ≠ inLink p x ∧ ∀ y, fwd = some y → k ≠ outLink p y) → tfind t.alley k = tfind s.alley k) ∧
      RegsKept s t (fun r => ∃ p ∈ ls, r = gId p d) ∧ BytesKept s t ∧ LanesIssue s t ∧ ∀ c, t.cell c = s.cell c) ∧
  (RegsLanded s gd (.qwr gd x a) →
    (∀ p ∈ ls, hasNext p x = true ∧ accepts s [] (outLink p x) = true) →
    ∃ t, exec (.qwr gd x a) s = .next t ∧
      (∀ p ∈ ls, (∀ q ∈ ls, outLink q x = outLink p x → q = p) → tfind t.alley (outLink p x) = some (rdReg s p a)) ∧
      (∀ k, (∀ p ∈ ls, k ≠ outLink p x) → tfind t.alley k = tfind s.alley k) ∧
      RegsKept s t noReg ∧ BytesKept s t ∧ LanesIssue s t ∧ ∀ c, t.cell c = s.cell c)

/-! ### Control transfers, rejoin sets and gangs (spec/09_isa_integer_and_control.md, spec/03_divergence_and_rejoin.md) -/

/-- R212, R244 to R246, R74: every control transfer sends its acting lanes to their targets and the other lanes of the issuer to NBA;
`call` and `callx` leave NBA in g31, and `dbnz` counts D down and goes on once it is zero. A register target is a canonical address
that is a multiple of 4 (R459). -/
def Obligations.ControlTransfers : Prop := ∀ (gd : Guard) (a : GReg) (disp : BitVec 20) (near : BitVec 14),
  let good := fun (s : State) => ∀ p ∈ actingLanes s gd, (rdReg s p a).toNat % 4 = 0 ∧ canonical (rdReg s p a) = true
  let far := fun (s : State) (_ : Nat) => s.cur.ba + BitVec.ofInt 64 (4 * disp.toInt)
  CompletesJump (.br gd disp) gd (fun _ => True) far none (fun _ _ => 0#64) ∧
  CompletesJump (.call gd disp) gd (fun _ => True) far (some (asG 31)) (fun s _ => s.cur.nba) ∧
  CompletesJump (.brx gd a) gd good (fun s p => rdReg s p a) none (fun _ _ => 0#64) ∧
  CompletesJump (.callx gd a) gd good (fun s p => rdReg s p a) (some (asG 31)) (fun s _ => s.cur.nba) ∧
  CompletesJump (.ret gd a) gd good (fun s p => rdReg s p a) none (fun _ _ => 0#64) ∧
  CompletesJump (.dbnz gd a near) gd (fun _ => True)
    (fun s p => if rdReg s p a = 1#64 then s.cur.nba else s.cur.ba + BitVec.ofInt 64 (4 * near.toInt))
    (some a) (fun s p => rdReg s p a - 1#64)

/-- R73, R74, R77: a `br` that some lanes of a path take and others do not makes two paths, where SPLITPOL has room for one more: each
lane's path is numbered by the lowest lane that goes where it goes. -/
def Obligations.DivergentBranchMakesPaths : Prop := ∀ (gd : Guard) (disp : BitVec 20) (s : State),
  let on := s.cur.lanes.filter (fun p => !acting s gd p)
  let target := s.cur.ba + BitVec.ofInt 64 (4 * disp.toInt)
  RegsLanded s gd (.br gd disp) → actingLanes s gd ≠ [] → on ≠ [] → target ≠ s.cur.nba →
    ((pathsOf s s.cur.leader).filter (· ≠ s.cur.lanes.headD s.cur.leader - s.cur.leader)).length + 2
      ≤ (s.gang s.cur.leader).splitpol.toNat % 32 →
    (∀ p ∈ s.cur.lanes, (s.str p).lmode = .inPath (s.cur.lanes.headD s.cur.leader - s.cur.leader)) →
    ∃ t, exec (.br gd disp) s = .next t ∧
      (∀ p ∈ actingLanes s gd, (t.str p).pc = target ∧
        (t.str p).lmode = .inPath ((actingLanes s gd).headD s.cur.leader - s.cur.leader)) ∧
      (∀ p ∈ on, (t.str p).pc = s.cur.nba ∧ (t.str p).lmode = .inPath (on.headD s.cur.leader - s.cur.leader)) ∧
      RegsKept s t noReg ∧ BytesKept s t

/-- R82, R84, R247: what the set instructions make of the set they name, with L the mask of their acting lanes. No other set changes. -/
def Obligations.SetInstructionResults : Prop := ∀ (gd : Guard) (j : Fin 8) (a : GReg) (s : State),
  let lead := s.cur.leader
  let l := actMask lead (actingLanes s gd)
  let x := rdJ s lead j.val
  s.cur.sup = false → actingLanes s gd ≠ [] →
    (RegsLanded s gd (.jset gd j) →
      CompletesSet (.jset gd j) s j { valid := true, member := l, quit := 0#16, arrived := x.arrived }) ∧
    (RegsLanded s gd (.jadd gd j) →
      CompletesSet (.jadd gd j) s j (if x.valid then { x with member := x.member ||| l, quit := x.quit &&& ~~~l }
        else { valid := true, member := l, quit := 0#16, arrived := 0#16 })) ∧
    (RegsLanded s gd (.jquit gd j) →
      CompletesSet (.jquit gd j) s j (if x.valid then { x with quit := x.quit ||| (l &&& x.member) } else x)) ∧
    (RegsLanded s gd (.jwrite gd j a) →
      let v := rdReg s ((actingLanes s gd).headD lead) a
      let m := sizeMask s lead
      CompletesSet (.jwrite gd j a) s j
        (if v.getLsbD 63 then
          { valid := true, member := (setOfView v).member &&& m, quit := (setOfView v).quit &&& m, arrived := x.arrived }
        else { valid := false, member := 0#16, quit := 0#16, arrived := 0#16 }))

/-- R84, R85, R88, R247: at a `jwait` on a valid set of which every acting lane is a required lane, the acting lanes are WAITING and
parked REJOIN, to go on at NBA, and their bits join ARRIVED. -/
def Obligations.WaitingJoinsTheSet : Prop := ∀ (gd : Guard) (j : Fin 8) (s : State),
  let lead := s.cur.leader
  let x := rdJ s lead j.val
  s.cur.sup = false → RegsLanded s gd (.jwait gd j) → x.valid = true → actingLanes s gd ≠ [] →
    (∀ p ∈ actingLanes s gd, (x.member &&& ~~~x.quit).getLsbD (p - lead) = true) →
    ∃ t, exec (.jwait gd j) s = .next t ∧
      (∀ p ∈ actingLanes s gd, (t.str p).lmode = .waiting j.val ∧ (t.str p).st = .parked ∧ (t.str p).park = .rejoin ∧
        (t.str p).pc = s.cur.nba) ∧
      (rdJ t lead j.val).arrived = x.arrived ||| actMask lead (actingLanes s gd) ∧
      (∀ n, n < 8 → n ≠ j.val → rdJ t lead n = rdJ s lead n) ∧ RegsKept s t noReg ∧ BytesKept s t ∧ ∀ c, t.cell c = s.cell c

/-- R82, R84, R248: `jtest` says whether the arrival of its acting lanes would complete the set, and `jread` reads its view. -/
def Obligations.SetReads : Prop := ∀ (gd : Guard) (p j : Fin 8) (d : GReg),
  CompletesP (.jtest gd p j) gd p (fun s _ =>
    let x := rdJ s s.cur.leader j.val
    x.valid && decide (x.arrived ||| actMask s.cur.leader (actingLanes s gd) = x.member &&& ~~~x.quit)) ∧
  CompletesG (.jread gd d j) gd d (fun _ => 0) (fun s _ =>
    let x := rdJ s s.cur.leader j.val
    word (bCode x.valid * 2 ^ 63 + x.quit.toNat * 2 ^ 32 + x.arrived.toNat * 2 ^ 16 + x.member.toNat))

/-- R51, R249: a solo strand at a `fuse` of 2^n lanes parks FUSE; when every other strand of its aligned group is parked FUSE for the
same size, the group is a gang: each lane has its index and the size, is in path 0, and goes on where the lowest lane goes. -/
def Obligations.FuseFormsAGang : Prop := ∀ (gd : Guard) (n : Fin 5) (p : Nat) (s : State),
  let group := fuseGroup p n.val
  let waits := fun q => (s.str q).st = .parked ∧ (s.str q).park = .fuse ∧ (s.str q).fuseG = n.val
  s.cur.sup = false → s.cur.lanes = [p] → s.cur.leader = p → glogOf (s.str p) = 0 → acting s gd p = true →
    RegsLanded s gd (.fuse gd n) → n.val ≠ 0 → fuseClash s p n.val = none →
    ∃ t, exec (.fuse gd n) s = .next t ∧
      ((∃ q ∈ group, q ≠ p ∧ ¬waits q) →
        (t.str p).st = .parked ∧ (t.str p).park = .fuse ∧ (t.str p).fuseG = n.val ∧ (t.str p).pc = s.cur.nba ∧
        (∀ q, q ≠ p → t.str q = s.str q) ∧ RestKept s t ∧ RegsKept s t noReg) ∧
      ((∀ q ∈ group, q ≠ p → waits q) → ∀ q ∈ group,
        laneIx (t.str q) = q - group.headD p ∧ glogOf (t.str q) = n.val ∧ (t.str q).st = .ready ∧ (t.str q).park = .none ∧
        (t.str q).lmode = .inPath 0 ∧ (t.str q).pc = if group.headD p = p then s.cur.nba else (s.str (group.headD p)).pc) ∧
      BytesKept s t

/-- R52, R53, R77, R80, R84, R250, R251, R253: `split`, `detach` and `yield`, in and outside a gang. A `split` of a gang makes its sets
INVALID, those on which lanes wait being orphaned, and the gang dissolves at the end of the cycle in which it does not stand collapsed:
each lane that has not retired is then a solo strand, a gang of one in path 0 with the turn, a full quantum and a copy of the gang's
k registers, and a lane that waited on a set stands at its `jwait`. A `detach` takes its acting lanes out of their path, which is then
named by the lowest lane that stays and keeps its turn. A `yield` leaves the turn-holder one unit of its quantum. With no acting
lane, in a gang of one lane, and for the last two in a detached lane, each does nothing. (LAST of a solo strand: notes/assumptions/34.md.) -/
def Obligations.SplitDetachAndYield : Prop :=
  (∀ (gd : Guard) (s : State),
    let lead := s.cur.leader
    let ls := actingLanes s gd
    let rest := s.cur.lanes.filter (fun p => !acting s gd p)
    let n := s.cur.lanes.headD lead - lead
    let completes := fun (i : Instr) (more : State → Prop) => ∃ t, exec i s = .next t ∧ more t ∧
      RegsKept s t noReg ∧ BytesKept s t ∧ t.pkg = s.pkg ∧ (∀ l, l ≠ lead → t.gang l = s.gang l) ∧
      (∀ l m, l ≠ lead → m < 8 → rdJ t l m = rdJ s l m) ∧ ∀ c, t.cell c = s.cell c
    let plain := fun (t : State) => LanesIssue s t ∧ t.gang lead = s.gang lead ∧ ∀ m, m < 8 → rdJ t lead m = rdJ s lead m
    let acts := ls ≠ [] ∧ 1 ≤ glogOf (s.str lead)
    s.cur.sup = false →
    (RegsLanded s gd (.split gd) →
      (¬acts → completes (.split gd) plain) ∧
      (acts → completes (.split gd) fun t => LanesIssue s t ∧
        (t.gang lead).splitting = true ∧
        (∀ o, { t.gang lead with splitting := true, orphaning := o } = { s.gang lead with splitting := true, orphaning := o }) ∧
        ∀ m, m < 8 → rdJ t lead m = { valid := false, member := 0#16, quit := 0#16, arrived := 0#16 } ∧
          (gathering (rdJ s lead m) = true → ∃ o ∈ (t.gang lead).orphaning, o.1 = m))) ∧
    (RegsLanded s gd (.detach gd) →
      (¬(acts ∧ s.cur.path = true) → completes (.detach gd) plain) ∧
      (acts ∧ s.cur.path = true → s.cur.lanes = pathLanes s lead n → completes (.detach gd) fun t =>
        (∀ p ∈ ls, t.str p = { issueOne s.cur.nba (s.str p) with lmode := .detached }) ∧
        (∀ p ∈ rest, t.str p = { issueOne s.cur.nba (s.str p) with lmode := .inPath (rest.headD lead - lead) }) ∧
        (∀ p, p ∉ s.cur.lanes → t.str p = s.str p) ∧
        t.gang lead = (if (s.gang lead).turn = true ∧ (s.gang lead).cur = n ∧ rest ≠ [] then
          { s.gang lead with cur := rest.headD lead - lead } else s.gang lead) ∧
        ∀ m, m < 8 → rdJ t lead m = rdJ s lead m)) ∧
    (RegsLanded s gd (.yield gd) →
      (¬(acts ∧ s.cur.path = true) → completes (.yield gd) plain) ∧
      (acts ∧ s.cur.path = true → completes (.yield gd) fun t =>
        LanesIssue s t ∧ t.gang lead = { s.gang lead with qleft := 1 } ∧ ∀ m, m < 8 → rdJ t lead m = rdJ s lead m))) ∧
  (∀ (s : State) (lead : Nat),
    let g := s.gang lead
    let u := settleSets (if g.counting then putGang s lead { g with counting := false, qleft := g.qleft - 1 } else s) lead
    (u.gang lead).splitting = true → collapsed (u.gang lead) = false → endGang s lead = splitGang u lead) ∧
  ∀ (s : State) (lead q : Nat),
    let t := splitGang s lead
    q ∈ gangLanes s lead → liveSt (s.str q) ≠ .retired → (s.str q).lmode ≠ .retired → (s.str q).lmode ≠ .hollow →
      laneIx (t.str q) = 0 ∧ glogOf (t.str q) = 0 ∧ (t.str q).lmode = .inPath 0 ∧
      (t.gang q).turn = true ∧ (t.gang q).cur = 0 ∧ (t.gang q).last = 0 ∧ (t.gang q).qleft = 64 ∧
      (t.gang q).splitpol = (s.gang lead).splitpol ∧
      (∀ k, k < 16 → rdK t q k = rdK s lead k) ∧
      ((∀ j, (s.str q).lmode ≠ .waiting j) → (t.str q).pc = (s.str q).pc) ∧
      ∀ j, (s.str q).lmode = .waiting j → (t.str q).pc = (s.str q).pc - 4#64

/-- R63, R252: a lane that stops is RETIRED while another lane of its gang lives on. Where no message waits for it, no register and no
byte of memory changes. -/
def Obligations.StopRetiresTheLane : Prop := ∀ (gd : Guard) (s : State),
  s.cur.sup = false → RegsLanded s gd (.stop gd) →
    (∃ q ∈ gangLanes s s.cur.leader, q ∉ actingLanes s gd ∧ liveSt (s.str q) ≠ .retired) →
    ∃ t, exec (.stop gd) s = .next t ∧
      (∀ p ∈ actingLanes s gd, (t.str p).st = .retired ∧ (t.str p).lmode = .retired) ∧
      ((∀ p ∈ actingLanes s gd, (s.str p).recvq = [] ∧
          oldestSpilled s p (s.str p).gen.toNat (keyIn s (cellOf p)).toNat = none) →
        RegsKept s t noReg ∧ BytesKept s t ∧ t.pkg = s.pkg)

/-- R56, R57, R254, R255: `spawn` submits one record for each acting lane to the gathering unit of its cell, with the descriptor's
address, the descriptor as it reads it, its payload register and its LPOS, and `spawnf` submits the addresses of its acting lanes.
They enter the unit at the end of the cycle, in order of pipe. A record joins the gang that forms under its address, or starts one
with the descriptor's ENTRY, GLOG and TIMEOUT; a gang with all its records is released, and a `spawnf` releases the gang of its
address as it stands. (Which descriptor governs a gang, and room for several lanes: notes/assumptions/36.md.) -/
def Obligations.SpawnGathersRecords : Prop :=
  (∀ (gd : Guard) (a : GReg) (w : Fin 16) (s : State),
    let ls := actingLanes s gd
    let c := curCell s
    let ask := fun p => ({ va := rdReg s p a, n := 16, al := 16, kind := .desc } : Ask)
    let submits := fun (i : Instr) (f : Nat → Arrival) => ∃ t, exec i s = .next t ∧
      (t.cell c).arrivals = (s.cell c).arrivals ++ ls.map (fun p => (pipeOf p, f p)) ∧
      { t.cell c with arrivals := [] } = { s.cell c with arrivals := [] } ∧ (∀ d, d ≠ c → t.cell d = s.cell d) ∧
      RegsKept s t noReg ∧ BytesKept s t ∧ LanesIssue s t ∧ t.pkg = s.pkg ∧ (∀ l, t.gang l = s.gang l) ∧ ∀ l n, rdJ t l n = rdJ s l n
    s.cur.sup = false → (∀ p ∈ ls, cellOf p = c ∧ (rdReg s p a).toNat % 16 = 0) → OrderMet s gd true →
      (RegsLanded s gd (.spawn gd a w) → Reaches s ls (fun p => [ask p]) →
        canGather (gathered s c) ls.length (ls.map fun p => (rdReg s p a).toNat) = true →
        (∀ p ∈ ls, ∃ v, peek s c p (targetOf s p (ask p)) 16 = .val v ∧ descOk v = true) →
        submits (.spawn gd a w) fun p => .spawn { desc := (rdReg s p a).toNat, payload := rdW s p w.val, lpos := (s.str p).lpos }
          (valueRead s p (ask p))) ∧
      (RegsLanded s gd (.spawnf gd a) → submits (.spawnf gd a) fun p => .spawnf (rdReg s p a).toNat)) ∧
  (∀ (s : State) (c : Nat),
    let l := (s.cell c).arrivals.foldr insArrival []
    l.Pairwise (fun x y => x.1 ≤ y.1) ∧ l.Perm (s.cell c).arrivals ∧
    gathered s c = (l.map (·.2)).foldl (arriveOne (cyc s c)) { s.cell c with arrivals := [] }) ∧
  ∀ (now : Nat) (x : CellSt) (r : SpawnRec) (v d : Nat),
    let y := arriveOne now x (.spawn r v)
    let first : Partial := {
      desc := r.desc, entry := word (v % 2 ^ 64), glog := field v 64 3, timeout := field v 96 32, first := now, count := 1, released := none }
    let place := some (nextRelease x.partials)
    y.spawns = x.spawns ++ [r] ∧
    ((∀ q ∈ x.partials, forming q r.desc = false) → y.partials = x.partials ++
      [if field v 64 3 = 0 then { first with released := place } else first]) ∧
    (∀ q ∈ x.partials, forming q r.desc = true → (∀ z ∈ x.partials, forming z r.desc = true → z = q) →
      y.partials = x.partials.map fun z => if forming z r.desc then
        { z with count := z.count + 1, released := if 2 ^ z.glog ≤ z.count + 1 then place else none } else z) ∧
    arriveOne now x (.spawnf d) = { x with partials := x.partials.map fun q => if forming q d then { q with released := place } else q }

/-- R60, R256: `grid` queues one grid for each acting lane from its launch record, under the context of the issuer and at a priority
not above its own. -/
def Obligations.GridQueuesWork : Prop := ∀ (gd : Guard) (a : GReg) (s : State),
  let ls := actingLanes s gd
  let c := curCell s
  let ask := fun p => ({ va := rdReg s p a, n := 64, al := 64, kind := .desc } : Ask)
  s.cur.sup = false → RegsLanded s gd (.grid gd a) → OrderMet s gd true → (∀ p ∈ ls, (rdReg s p a).toNat % 64 = 0) →
    Reaches s ls (fun p => [ask p]) →
    (∀ p ∈ ls, ∃ v, peek s c p (targetOf s p (ask p)) 64 = .val v ∧ recordOk s v (asidIn s c) (gridPrio s v) = true) →
    ∃ t, exec (.grid gd a) s = .next t ∧
      (∀ p ∈ ls, ∀ v, peek s c p (targetOf s p (ask p)) 64 = .val v →
        ∃ id, tfind t.grids id = some (gridOf v (asidIn s c) (keyIn s c) (gridPrio s v)) ∧
          id ∈ tget [] t.pkg.queues (gridPrio s v)) ∧
      (∀ id g, tfind s.grids id = some g → tfind t.grids id = some g) ∧
      RegsKept s t noReg ∧ LanesIssue s t

/-! ### Loads, stores and atomics (spec/12_isa_memory_and_sync.md) -/

/-- R317 to R321, R324, R329: the relaxed loads. Each acting lane reads its bytes at S1 plus the scaled offset, from memory or
from the scratchpad of its cell, and D waits for them; `ldk` reads eight bytes at the address of the lowest acting lane into
a gang register. (When work ends is the model's own schedule, a field of the state: notes/assumptions/7.md.) -/
def Obligations.LoadsReadMemory : Prop :=
  ∀ (gd : Guard) (d a : GReg) (w k : Fin 16) (sgn : Bool) (off : BitVec 5) (o6 : BitVec 6) (z : Size),
  let near := fun (s : State) p => rdReg s p a + BitVec.ofInt 64 (off.toInt * z.bytes)
  let wide := fun (s : State) p => rdReg s p a + BitVec.ofInt 64 (o6.toInt * 32)
  CompletesMem (.ld gd d a sgn off z) gd
    (readUse gd (.g d (8 * z.bytes) sgn) (fun s p => [(askV (near s p) z.bytes .load, .read z.bytes)]) false false false) ∧
  CompletesMem (.lds gd d a sgn off z) gd
    (readUse gd (.g d (8 * z.bytes) sgn) (fun s p => [(askS (near s p) z.bytes .load, .read z.bytes)]) false false false) ∧
  CompletesMem (.ldw gd w a o6) gd (readUse gd (.w w.val 32) (fun s p => [(askV (wide s p) 32 .load, .read 32)]) false false false) ∧
  CompletesMem (.ldsw gd w a o6) gd (readUse gd (.w w.val 32) (fun s p => [(askS (wide s p) 32 .load, .read 32)]) false false false) ∧
  CompletesMem (.ldk gd k a o6) gd (uniformUse gd k (fun s p => rdReg s p a + BitVec.ofInt 64 (o6.toInt * 8)) false false)

/-- R150, R158, R322 to R325, R329: the acquiring loads read at S1, past the L1 at scope die or wider; `ld.dev` reads at its
home, once every earlier act of its strand is performed (R323). (When work ends is the model's own schedule, a field of the
state: notes/assumptions/7.md.) -/
def Obligations.AcquiringLoadsReadTheHome : Prop :=
  ∀ (gd : Guard) (d a : GReg) (w k : Fin 16) (sgn : Bool) (sc : Scope) (o : Option Scope) (z : Size),
  CompletesMem (.ldAcq gd d a sc sgn z) gd
    (readUse gd (.g d (8 * z.bytes) sgn) (fun s p => [(askV (rdReg s p a) z.bytes .load, .read z.bytes)]) (wide sc) false true) ∧
  CompletesMem (.ldsAcq gd d a sc sgn z) gd
    (readUse gd (.g d (8 * z.bytes) sgn) (fun s p => [(askS (rdReg s p a) z.bytes .load, .read z.bytes)]) (wide sc) false true) ∧
  CompletesMem (.ldwAcq gd w a sc) gd
    (readUse gd (.w w.val 32) (fun s p => [(askV (rdReg s p a) 32 .load, .read 32)]) (wide sc) false true) ∧
  CompletesMem (.ldswAcq gd w a sc) gd
    (readUse gd (.w w.val 32) (fun s p => [(askS (rdReg s p a) 32 .load, .read 32)]) (wide sc) false true) ∧
  CompletesMem (.ldkAcq gd k a sc) gd (uniformUse gd k (fun s p => rdReg s p a) (wide sc) true) ∧
  CompletesMem (.ldDev gd d a o sgn z) gd
    (readUse gd (.g d (8 * z.bytes) sgn) (fun s p => [(askV (rdReg s p a) z.bytes .devLoad, .read z.bytes)]) true true o.isSome true)

/-- R317 to R321, R324: the relaxed stores write the low bytes of S2, or a w register, at S1 plus the scaled offset: into the L1
of the cell for an address of memory, and into the scratchpad at once. (When work ends is the model's own schedule, a field
of the state: notes/assumptions/7.md.) -/
def Obligations.StoresWriteMemory : Prop :=
  ∀ (gd : Guard) (a b : GReg) (w : Fin 16) (off : BitVec 6) (z : Size),
  let near := fun (s : State) p => rdReg s p a + BitVec.ofInt 64 (off.toInt * z.bytes)
  let wide := fun (s : State) p => rdReg s p a + BitVec.ofInt 64 (off.toInt * 32)
  let low := fun (s : State) p => (rdReg s p b).toNat % 2 ^ (8 * z.bytes)
  CompletesMem (.st gd off a b z) gd
    (writeUse gd (fun s p => [(askV (near s p) z.bytes .store, .write z.bytes (low s p))]) false false) ∧
  CompletesMem (.sts gd off a b z) gd
    (writeUse gd (fun s p => [(askS (near s p) z.bytes .store, .write z.bytes (low s p))]) false false) ∧
  CompletesMem (.stw gd w a off) gd
    (writeUse gd (fun s p => [(askV (wide s p) 32 .store, .write 32 (rdW s p w.val).toNat)]) false false) ∧
  CompletesMem (.stsw gd w a off) gd
    (writeUse gd (fun s p => [(askS (wide s p) 32 .store, .write 32 (rdW s p w.val).toNat)]) false false)

/-- R150, R151, R158, R322 to R325: a releasing store waits for every earlier act of its strand and at scope die or wider writes
its home; `st.dev` always does, and a register of the device is written by the event that comes next. (When work ends is the
model's own schedule, a field of the state: notes/assumptions/7.md.) -/
def Obligations.ReleasingStoresWriteTheHome : Prop :=
  ∀ (gd : Guard) (d a b : GReg) (w : Fin 16) (sc : Scope) (o : Option Scope) (z : Size),
  let low := fun (r : GReg) (s : State) p => (rdReg s p r).toNat % 2 ^ (8 * z.bytes)
  CompletesMem (.stRel gd sc a b z) gd
    (writeUse gd (fun s p => [(askV (rdReg s p a) z.bytes .store, .write z.bytes (low b s p))]) (wide sc) true) ∧
  CompletesMem (.stsRel gd d a sc z) gd
    (writeUse gd (fun s p => [(askS (rdReg s p a) z.bytes .store, .write z.bytes (low d s p))]) (wide sc) true) ∧
  CompletesMem (.stwRel gd w a sc) gd
    (writeUse gd (fun s p => [(askV (rdReg s p a) 32 .store, .write 32 (rdW s p w.val).toNat)]) (wide sc) true) ∧
  CompletesMem (.stswRel gd w a sc) gd
    (writeUse gd (fun s p => [(askS (rdReg s p a) 32 .store, .write 32 (rdW s p w.val).toNat)]) (wide sc) true) ∧
  CompletesMem (.stDev gd o a b z) gd
    (writeUse gd (fun s p => [(askV (rdReg s p a) z.bytes .devStore, .write z.bytes (low b s p))]) true true true)

/-- R326, R327: `gat` and `scat` make one access for each 32-bit or 64-bit element, at S1 plus the sign-extended index times its
size. (When work ends is the model's own schedule, a field of the state: notes/assumptions/7.md.) -/
def Obligations.GatherAndScatter : Prop := ∀ (gd : Guard) (ord : Option Scope) (w x : Fin 16) (a : GReg) (e8 : Bool),
  let z := if e8 then 8 else 4
  let far := match ord with | some sc => wide sc | none => false
  let addr := fun (s : State) p i => rdReg s p a + BitVec.ofInt 64 (sInt (8 * z) (elem (rdW s p x.val).toNat (8 * z) i) * z)
  CompletesMem (.gat gd ord w a x e8) gd (readUse gd (.w w.val z)
    (fun s p => (List.range (32 / z)).map fun i => (askV (addr s p i) z .load, .read z)) far false ord.isSome) ∧
  CompletesMem (.scat gd ord w a x e8) gd (writeUse gd
    (fun s p => (List.range (32 / z)).map fun i => (askV (addr s p i) z .store, .write z (elem (rdW s p w.val).toNat (8 * z) i)))
    far ord.isSome)

/-- R283, R288: the image of an exact accumulator is six doublewords: the value in five, then the flags. (When work ends is the
model's own schedule, a field of the state: notes/assumptions/7.md.) -/
def Obligations.AccumulatorImages : Prop := ∀ (gd : Guard) (e : Fin 2) (a : GReg) (off : BitVec 6) (sc : Scope),
  let base := fun (s : State) p => rdReg s p a + BitVec.ofInt 64 (off.toInt * 8)
  let loads := fun (va : State → Nat → Word) (s : State) p => (List.range 6).map fun i =>
    (({ va := va s p + word (8 * i), n := 8, al := 8, kind := .load } : Ask), HomeOp.read 8)
  let stores := fun (va : State → Nat → Word) (s : State) p => (List.range 6).map fun i =>
    (({ va := va s p + word (8 * i), n := 8, al := 8, kind := .store } : Ask),
      HomeOp.write 8 (if i < 5 then (rdE s p e.val).toNat / 2 ^ (64 * i) % 2 ^ 64 else (rdEf s p e.val).toNat))
  CompletesMem (.xld gd e a off) gd (readUse gd (.e e.val) (loads base) false false false) ∧
  CompletesMem (.xldAcq gd e a sc) gd (readUse gd (.e e.val) (loads (fun s p => rdReg s p a)) (wide sc) false true) ∧
  CompletesMem (.xst gd e a off) gd (writeUse gd (stores base) false false) ∧
  CompletesMem (.xstRel gd e a sc) gd (writeUse gd (stores (fun s p => rdReg s p a)) (wide sc) true)

/-- R330 to R332: an atomic of 4 or 8 bytes reads its location, combines the value with the low bytes of D and writes the result,
as one act at the home; D takes the value read, sign-extended for the signed minimum and maximum. (When work ends is the
model's own schedule, a field of the state: notes/assumptions/7.md.) -/
def Obligations.AtomicsCombine : Prop := ∀ (gd : Guard) (d a : GReg) (w64 : Bool) (o : AOrd),
  let n := if w64 then 8 else 4
  let use := fun op sgn => atomicUse gd a n (fun _ _ => .g d (8 * n) sgn) (fun s p => .amo op w64 ((rdReg s p d).toNat % 2 ^ (8 * n)) 0) o
  CompletesMem (.amoAdd gd d a w64 o) gd (use .add false) ∧
  CompletesMem (.amoAnd gd d a w64 o) gd (use .and false) ∧
  CompletesMem (.amoOr gd d a w64 o) gd (use .or false) ∧
  CompletesMem (.amoXor gd d a w64 o) gd (use .xor false) ∧
  CompletesMem (.amoMinI gd d a w64 o) gd (use .minI true) ∧
  CompletesMem (.amoMinN gd d a w64 o) gd (use .minN false) ∧
  CompletesMem (.amoMaxI gd d a w64 o) gd (use .maxI true) ∧
  CompletesMem (.amoMaxN gd d a w64 o) gd (use .maxN false) ∧
  CompletesMem (.amoSwap gd d a w64 o) gd (use .swap false) ∧
  CompletesMem (.amoPmin gd d a o) gd
    (atomicUse gd a 8 (fun _ _ => .g d 64 false) (fun s p => .amo .pmin true ((rdReg s p d).toNat % 2 ^ 64) 0) o) ∧
  ∀ old x y, amoNew .add w64 old x y = some ((old + x) % 2 ^ (8 * n)) ∧ amoNew .and w64 old x y = some (Nat.land old x) ∧
    amoNew .or w64 old x y = some (Nat.lor old x) ∧ amoNew .xor w64 old x y = some (Nat.xor old x) ∧
    amoNew .minI w64 old x y = some (if sInt (8 * n) old ≤ sInt (8 * n) x then old else x) ∧
    amoNew .minN w64 old x y = some (Nat.min old x) ∧
    amoNew .maxI w64 old x y = some (if sInt (8 * n) old ≤ sInt (8 * n) x then x else old) ∧
    amoNew .maxN w64 old x y = some (Nat.max old x) ∧ amoNew .swap w64 old x y = some x ∧
    amoNew .pmin true old x y = some (if sInt 32 (old / 2 ^ 32) < sInt 32 (x / 2 ^ 32) ∨
      sInt 32 (old / 2 ^ 32) = sInt 32 (x / 2 ^ 32) ∧ old % 2 ^ 32 ≤ x % 2 ^ 32 then old else x)

/-- R333, R334: `cas` compares with D and writes the register after D where the value read is equal; `cas2` does so with sixteen
bytes, held in D and the next register, and writes the two after them. (When work ends is the model's own schedule, a field
of the state: notes/assumptions/7.md.) -/
def Obligations.CompareAndSwap : Prop := ∀ (gd : Guard) (d a : GReg) (w64 : Bool) (o : AOrd),
  let n := if w64 then 8 else 4
  let r := fun (j : Fin 32) => ({ d with num := d.num + j } : GReg)
  CompletesMem (.cas gd d a w64 o) gd (atomicUse gd a n (fun _ _ => .g d (8 * n) false)
    (fun s p => .amo .cas w64 ((rdReg s p d).toNat % 2 ^ (8 * n)) ((rdReg s p (r 1)).toNat % 2 ^ (8 * n))) o) ∧
  CompletesMem (.cas2 gd d a o) gd (atomicUse gd a 16 (fun _ _ => .two d)
    (fun s p => .amo .cas2 true ((rdReg s p d).toNat + (rdReg s p (r 1)).toNat * 2 ^ 64)
      ((rdReg s p (r 2)).toNat + (rdReg s p (r 3)).toNat * 2 ^ 64)) o) ∧
  ∀ old x y, (amoNew .cas w64 old x y = if old = x then some y else none) ∧
    (amoNew .cas2 true old x y = if old = x then some y else none)

/-- R335, R336: `amof` adds in FP32 or FP64 and rounds to nearest; `amox` adds a finite number to the exact accumulator that
stands in forty bytes of memory and gives status 0, and a NaN or an infinity changes nothing and gives status 1, 2 or 3.
(When work ends is the model's own schedule, a field of the state: notes/assumptions/7.md.) -/
def Obligations.FloatAtomicsAdd : Prop := ∀ (gd : Guard) (d a : GReg) (o : AOrd),
  let amox := fun (f : FTy) op => atomicUse gd a 64
    (fun s p => .status d (amoxStatus (scalarF f (rdReg s p d))))
    (fun s p => if amoxStatus (scalarF f (rdReg s p d)) = 0 then
        .amo op false (quantVal (scalarF f (rdReg s p d)) % (2 ^ 320 : Nat)).toNat (rdReg s p d).toNat
      else .read 40) o
  CompletesMem (.amofF32 gd d a o) gd (atomicUse gd a 4 (fun _ _ => .g d 32 false)
    (fun s p => .amo .fF32 false ((rdReg s p d).toNat % 2 ^ 32) 0) o) ∧
  CompletesMem (.amofF64 gd d a o) gd (atomicUse gd a 8 (fun _ _ => .g d 64 false) (fun s p => .amo .fF64 true (rdReg s p d).toNat 0) o) ∧
  CompletesMem (.amoxF32 gd d a o) gd (amox .f32 .xF32) ∧
  CompletesMem (.amoxF64 gd d a o) gd (amox .f64 .xF64) ∧
  ∀ old x y, amoNew .fF32 false old x y = some (roundF fp32 .rn 0 (addX false (decodeF fp32 old) (decodeF fp32 x))) ∧
    amoNew .fF64 true old x y = some (roundF fp64 .rn 0 (addX false (decodeF fp64 old) (decodeF fp64 x))) ∧
    amoNew .xF32 false old x y = some ((old + x) % 2 ^ 320) ∧ amoNew .xF64 false old x y = some ((old + x) % 2 ^ 320)

/-! ### Ordering, transfers, barriers, messages, the matrix engine and the system (spec/11_isa_matrix.md to spec/13_isa_async_and_system.md) -/

/-- R151, R158, R337, R328, R382, R386, R502: a fence acts on the L1 of the cell by its kinds and scope; with an acquire the earlier
reads of its strand that are still to be performed become acquires; and it leaves on the acting lanes the work that later events wait
for: the strand's reads in flight for an acquire, its stores too for a release, every earlier event for `.sc`. `pf` fills sectors, `cwb`
writes dirty sectors of the L1 back, `cinv` does so in every L1, and the lanes of these two wait until that is done. A sector that
leaves the L1 writes its dirty bytes at their home and no other; while the host link is down those of host memory are kept as a store
on its way; an acquire keeps dirty bytes alone. (When work ends is the model's own schedule, a field of the state:
notes/assumptions/7.md. Prefetch and cache maintenance: 15.md and 31.md.) -/
def Obligations.FencesAndCacheMaintenance : Prop := ∀ (gd : Guard) (sc : Scope) (a b : GReg),
  let any := fun (_ : State) => True
  let fence := fun (i : Instr) (acq rel sq : Bool) => CompletesBy i gd false any (fun s u =>
    let all := (actingLanes s gd).map fun p => (p, earlierAll u p)
    let v := acqL1 (relL1 u (curCell s) (if rel then some sc else none)) (curCell s) (if acq then some sc else none)
    if actingLanes s gd = [] then u
    else all.foldl (fun x q => modStr x q.1 (fun y => { y with
        fenceAny := y.fenceAny ++ (if sq then q.2 else if acq then earlierReads u q.1 else [])
        fenceWr := y.fenceWr ++ (if rel && !sq then q.2 else []) }))
      (if acq then markAcq v sc (all.flatMap (·.2)) else v))
  let lines := fun (f : State → Nat → State) (s u : State) =>
    let v := (actingLanes s gd).foldl (fun v p =>
      (sectorList (rdReg s p a) (Nat.min (rdReg s p b).toNat (2 ^ 30))).foldl (fun w va =>
        match lineOf s.cur.sup (curCell s) w va with
        | (x, some k) => f x k
        | (x, none) => x) v) u
    if actingLanes s gd = [] then u
    else parkDone s v (fun _ => .sync ((List.range (v.fresh - u.fresh)).map (u.fresh + ·)) (v.time + v.pace.sync))
  fence (.fenceAcq gd sc) true false false ∧ fence (.fenceRel gd sc) false true false ∧
  fence (.fenceAr gd sc) true true false ∧ fence (.fenceSc gd sc) true true true ∧
  CompletesBy (.pf gd a b) gd false any (fun s u => (actingLanes s gd).foldl (fun v p =>
    (sectorList (rdReg s p a) (Nat.min (rdReg s p b).toNat 4096)).foldl (prefetch s.cur.sup p) v) u) ∧
  CompletesBy (.cwb gd a b) gd false any (fun s u => lines (fun x k =>
    match tfind (x.cell (curCell s)).l1 k with
    | some l => if l.dirty = 0#32 then x else flushLine x (curCell s) k
    | none => x) s u) ∧
  CompletesBy (.cinv gd a b) gd false (fun s => s.cur.sup = true) (lines fun x k =>
    (tkeys x.cells).foldl (fun y c => flushLine y c k) x) ∧
  (∀ (s : State) (c k : Nat) (l : L1Sector), tfind (s.cell c).l1 k = some l →
    ((s.pkg.hostUp = true ∨ homeDie (32 * k) ≠ 4 ∨ l.dirty = 0#32) → flushLine s c k = l1Flush s c k) ∧
    (s.pkg.hostUp = false → homeDie (32 * k) = 4 → l.dirty ≠ 0#32 →
      tfind (flushLine s c k).stores s.fresh = some { cell := c, pos := 64 * c, grid := l.grid, sector := k, due := s.time } ∧
      (∀ d, (flushLine s c k).cell d = s.cell d) ∧ BytesKept s (flushLine s c k)) ∧
    (crossed s (dieOf c) (homeDie (32 * k)) c (32 * k) = false → badAt s (32 * k) = none → l.bad = false →
      tfind ((l1Flush s c k).cell c).l1 k = none ∧
      (∀ i, i < 32 → byteAt (l1Flush s c k) (32 * k + i) =
        if l.dirty.getLsbD i then BitVec.ofNat 8 (secGet l.data i 1) else byteAt s (32 * k + i)) ∧
      ∀ x, x < 32 * k ∨ 32 * k + 32 ≤ x → byteAt (l1Flush s c k) x = byteAt s x)) ∧
  (∀ (s : State) (c k : Nat) (l : L1Sector), tfind ((l1DropClean s c).cell c).l1 k = some l → l.dirty ≠ 0#32 ∧ l.held = l.dirty) ∧
  (∀ (s : State) (ids : List Nat) (id : Nat) (e : Pend), tfind s.pend id = some e → tfind (markAcq s sc ids).pend id =
    some (if id ∈ ids ∧ (∃ q ∈ e.parts, q.val = none) then { e with acq := wider e.acq sc } else e)) ∧
  ∀ (s : State) (p id : Nat),
    (id ∈ earlierReads s p ↔ ∃ e, (id, e) ∈ s.pend ∧ e.pos = p ∧ (e.isRead = true ∨ e.atomic = true)) ∧
    (id ∈ earlierAll s p ↔ (∃ e, (id, e) ∈ s.pend ∧ e.pos = p ∧ (e.isRead = true ∨ e.atomic = true ∨ ∃ q ∈ e.parts, q.val = none)) ∨
      ∃ e, (id, e) ∈ s.stores ∧ e.pos = p ∧ storeLeft s e = true)

/-- R338, R339, R468: a `wait` issues once every acting lane's monitor has an outcome. D takes the word's value as the home read
it and the next register the status; a read that failed leaves a mark instead. (Waits on words of other packages:
notes/assumptions/22.md.) -/
def Obligations.WaitCompletesWithItsMonitors : Prop := ∀ (gd : Guard) (d a : GReg) (w64 : Bool) (acq : Option Scope),
  CompletesBy (.wait gd d a w64 acq) gd false
    (fun s => OrderMet s gd false ∧ ∀ p ∈ actingLanes s gd, ∃ m r, (s.str p).mon = some m ∧ m.done = some r)
    (fun s u => (actingLanes s gd).foldl (fun v p =>
        match (s.str p).mon with
        | some m => (match m.bad, m.done with
          | some b, _ => modStr v p (fun x => { x with mark := some b })
          | none, some r => wrReg (wrReg v p d r.1) p { d with num := d.num + 1 } (word r.2)
          | none, none => v)
        | none => v)
      (acqL1 u (curCell s) (if actingLanes s gd = [] then none else acq)))

/-- R112, R124, R188, R193, R343 to R349, R355: `cpy`, `tld`, `tldm` and `chase`. A transfer issues when its words pass their checks,
its source is translated, the transfer table has an entry for every acting lane and the bundle is paid; its source sectors are counted,
with a release the L1 is written back, and each acting lane's entry holds all that the source, shape, consumer and notice words and
the capability say, the translations and the subscribers as they stand, and nothing read or delivered yet. A `cpy` or `tld` into the
scratchpad of its own cell, itself or through a capability, clears the presence bits of its destination at the end of the cycle, and
no other transfer does. A `chase` starts a walk at its entry with the start pointer in g1; it runs while its stack has a context
free. (When work ends is the model's own schedule, a field of the state: notes/assumptions/7.md. QuotaAllows and a `chase`: 77.md.) -/
def Obligations.TransfersStart : Prop :=
  (∀ (gd : Guard) (rel : Option Scope) (d a b : Fin 32),
    let cw := fun s p => rdG s p d.val
    let nw := fun s p => rdG s p (d.val + 1)
    let src := fun s p => rdG s p a.val
    let sh := fun s p => rdG s p b.val
    let space := fun s => actingLanes s gd = [] ∨ tableUse s (curCell s) + (actingLanes s gd).length ≤ 256
    let xfer := fun (i : Instr) (form : XferForm) (self : Word → Bool) (multi : Bool) (nw : State → Nat → Word) =>
      CompletesBy i gd true
        (fun s => OrderMet s gd rel.isSome ∧ space s ∧
          PaidFor gd (fun s ls => (ls.map fun p => (shTotal (sh s p) + 1023) / 1024).foldl (· + ·) 0) true s ∧
          ∀ p ∈ actingLanes s gd, (1 ≤ shLen (sh s p) ∧ shLen (sh s p) * shRows (sh s p) ≤ 65536) ∧ self (cw s p) = true ∧
            (∀ x ∈ sourceAsks (src s p) (sh s p), ∃ t, resolve s p x = .ok t) ∧
            consumerCheck s (curCell s) multi (cw s p) (shTotal (sh s p)) = none)
        (fun s u =>
          if actingLanes s gd = [] then u
          else (actingLanes s gd).foldl (fun v p => startXfer s v p form (cw s p) (nw s p) (src s p) (sh s p))
            (relL1 (countAsks s u (actingLanes s gd) (fun p => sourceAsks (src s p) (sh s p))) (curCell s) rel))
    xfer (.cpy gd rel d a b) .cpy (fun w => w.getLsbD 63) false (fun _ _ => 0#64) ∧
    xfer (.tld gd rel d a b) .tld (fun _ => true) false nw ∧
    xfer (.tldm gd rel d a b) .tldm (fun w => !w.getLsbD 63) true nw ∧
    CompletesBy (.chase gd rel d a b) gd true
      (fun s => OrderMet s gd rel.isSome ∧ space s ∧ PaidFor gd (fun _ ls => 4 * ls.length) false s ∧
        ∀ p ∈ actingLanes s gd, (rdG s p a.val).toNat % 4 = 0 ∧ (∃ t, resolve s p (chaseAsk s b p) = .ok t) ∧
          consumerCheck s (curCell s) false (cw s p) 1 = none)
      (fun s u =>
        if actingLanes s gd = [] then u
        else (actingLanes s gd).foldl (fun v p => startWalkOf s v p (cw s p) (nw s p) (rdG s p a.val) (rdG s p b.val)
          (chaseStack (curCell s) (targetOf s p (chaseAsk s b p)))) (relL1 u (curCell s) rel))) ∧
  ∀ (s t : State) (p k : Nat) (form : XferForm) (c n x y : Word),
    let home := cellOf p
    let cap := (tget 0#64 s.pkg.dcap (8 * asidIn s home + field c.toNat 59 3)).toNat
    let key := BitVec.ofNat 16 (field cap 45 16)
    let cons : Consumer := if c.getLsbD 63 then .self (c.getLsbD 62)
      else if cap.testBit 62 then .tag (field cap 36 9) (field cap 24 12) key
      else .cap (field cap 36 9) (field cap 34 2) (field cap 26 8) (cap.testBit 61) key
    let u := startXfer s t p form c n x y
    let v := startWalkOf s t p c n x y k
    (intoOwn s home form cons = true ↔ form ≠ .tldm ∧ (cons = .self false ∨
      ∃ pkg die cell z, cons = .cap pkg die cell false z ∧ pkg = s.pkg.pkgnum ∧ 160 * die + cell = home)) ∧
    u.xfers = tset t.xfers t.fresh {
      form := form, req := requesterOf s p, src := x, pitch := field y.toNat 40 24, rows := field y.toNat 32 8 + 1
      rlen := field y.toNat 0 17, cons := cons, tb := field c.toNat 52 4, offset := field c.toNat 0 24, note := n.getLsbD 63
      ntb := field n.toNat 56 4, pages := sourcePages s home x y, homes := sourceHomes s home x y, read := 0, dealt := 0, inFlight := 0
      err := false, due := t.time + t.pace.step, own := intoOwn s home form cons
      subs := match cons with
        | .tag pkg tag _ => if pkg = s.pkg.pkgnum then subscribers s tag else []
        | _ => [] } ∧
    u.clears = (if intoOwn s home form cons then t.clears ++ destSectors home (field c.toNat 0 24) (shTotal y) else t.clears) ∧
    u.fresh = t.fresh + 1 ∧ takeFresh ((t.setXfers u.xfers).setClears u.clears) = u ∧
    v.chases = tset t.chases t.fresh {
      req := requesterOf s p, pc := x, g := tset [] 1 y, w := [], p := [], cons := cons, tb := field c.toNat 52 4
      offset := field c.toNat 0 24, note := n.getLsbD 63, ntb := field n.toNat 56 4, stack := k, words := 0, delivered := 0, inFlight := 0
      running := decide (t.chases.countP (fun e => decide (e.2.stack = k) && e.2.running) < 2048), err := false, ended := false
      due := t.time + t.pace.step } ∧
    v = takeFresh (t.setChases v.chases)

/-- R152, R364 to R369, R488, R489: what `tbinit`, `tbexp`, `tbarr`, `tbwait`, `tbtest`, `bbarr` and `bbwait` do to the barrier they
name or to the mask of the cell; an arrival that is due, a count that stays within 32 bits, the completion of a phase, which lets the
lanes parked on it go on, and the reset of a busy barrier, which makes a TBRESET record and lets them go on too. An arrival waits for
every earlier act of its strand. -/
def Obligations.BarriersCount : Prop := ∀ (gd : Guard) (b : Fin 16) (a : GReg) (q : Fin 8),
  CompletesBy (.tbinit gd b a) gd false
    (fun s => actingLanes s gd ≠ [] → (let n := (rdReg s (lowestOf s (actingLanes s gd)) a).toNat % 128; 1 ≤ n ∧ n ≤ 64) ∧
      (tbIsBusy s (curCell s) b.val = false ∨ tableNames s (curCell s) b.val = false))
    (fun s u =>
      let p := lowestOf s (actingLanes s gd)
      if actingLanes s gd = [] then u else tbInit u (curCell s) b.val ((rdReg s p a).toNat % 128) p s.cur.ba (s.str p).tbReset) ∧
  CompletesBy (.tbexp gd b a) gd false (fun s => OrderMet s gd true)
    (fun s u => (actingLanes s gd).foldl (fun v p =>
      let n := (rdReg s p a).toNat
      let w := tbPend v (curCell s) b.val (n % 2 ^ 32 : Nat) false (some (p, s.cur.ba))
      if field n 32 7 = 0 then w else tbArrive w (curCell s) b.val (field n 32 7) p s.cur.ba) u) ∧
  CompletesBy (.tbarr gd b) gd false (fun s => OrderMet s gd true)
    (fun s u => (actingLanes s gd).foldl (fun v p => tbArrive v (curCell s) b.val 1 p s.cur.ba) u) ∧
  CompletesBy (.tbwait gd b) gd false
    (fun s => ∀ p ∈ actingLanes s gd, (barOf (s.cell (cellOf p)) b.val).before.getLsbD (posInCell p) = false) (fun _ u => u) ∧
  CompletesP (.tbtest gd q b) gd q (fun s p => !(barOf (s.cell (cellOf p)) b.val).before.getLsbD (posInCell p)) ∧
  CompletesBy (.bbarr gd) gd false
    (fun s => s.cur.sup = false ∧ OrderMet s gd true ∧ (actingLanes s gd = [] ∨ bbFull s (curCell s) = false))
    (fun s u =>
      if actingLanes s gd = [] then u
      else (actingLanes s gd).foldl (fun v p => bbArrive v p s.cur.ba) (relL1 u (curCell s) (some .die))) ∧
  CompletesBy (.bbwait gd) gd false
    (fun s => s.cur.sup = false ∧ ∀ p ∈ actingLanes s gd, (s.cell (cellOf p)).bbBefore.getLsbD (posInCell p) = false)
    (fun s u => if actingLanes s gd = [] then u else acqL1 u (curCell s) (some .die)) ∧
  ∀ (s : State) (c n p : Nat) (ba : Word) (k : Int),
    let x := barOf (s.cell c) b.val
    let bit := BitVec.ofNat 64 (2 ^ posInCell p)
    let fresh : Barrier := {
      valid := true, expect := n, remain := n, pend := 0, arrived := 0#64, phase := false, err := false, lerr := false, before := x.before }
    (tbIsBusy s c b.val = false → tbInit s c b.val n p ba false = putBar s c b.val fresh) ∧
    (∀ found, found = true ∨ tbIsBusy s c b.val = true → tbInit s c b.val n p ba found =
      putBar (modStrs (postSq s c { recAt s p 7 with addr := ba, sinfo := 8#64, sval := tbView0 x, arg := b.val }) (parkedOn s c b.val) wakeBar)
        c b.val fresh) ∧
    (x.valid = true → x.remain ≠ 0 → n ≤ x.remain → x.arrived.getLsbD (posInCell p) = false →
      tbArrive s c b.val n p ba = putBar s c b.val { x with remain := x.remain - n, arrived := x.arrived ||| bit }) ∧
    (-(2 ^ 31 : Int) ≤ x.pend + k → x.pend + k < 2 ^ 31 →
      tbPend s c b.val k false (some (p, ba)) = putBar s c b.val { x with pend := x.pend + k }) ∧
    (x.valid = true → x.remain = 0 → x.pend = 0 → barOf ((tbTest s c b.val).cell c) b.val =
      { valid := true, phase := !x.phase, lerr := x.err, expect := x.expect, remain := x.expect } ∧
      ∀ q ∈ parkedOn s c b.val, (tbTest s c b.val).str q = wakeBar (s.str q)) ∧
    ((s.cell (cellOf p)).bbArrived.getLsbD (posInCell p) = false →
      ((bbArrive s p ba).cell (cellOf p)).bbArrived = (s.cell (cellOf p)).bbArrived ||| bit)

/-- R372, R373, R375, R360 to R362: `send` puts a message of each acting lane at the end of the injection queue, after the release at
its scope; `recv` takes the oldest message of each lane; `recvt` also goes on when its time has passed, and says in a predicate whether a
lane has taken one. `sub` rewrites the entry that holds its tag or fills the lowest free one, `unsub` clears it, and join or leave
packets set out. -/
def Obligations.MessagesAndSubscriptions : Prop := ∀ (gd : Guard) (a : GReg) (w : Fin 16) (q : Fin 8),
  let take := fun (s v : State) (p : Nat) =>
    match (s.str p).recvq with
    | [] => v
    | m :: _ => landFixed (acqL1 (takeMsg v p) (cellOf p) (some m.scope)) p (.w p w.val) (.w p w.val m.payload)
  CompletesBy (.send gd a w) gd false
    (fun s => OrderMet s gd true ∧ (∀ p ∈ actingLanes s gd, sendCheck s (rdReg s p a) = none) ∧
      (actingLanes s gd = [] ∨ injected s (curCell s) + (actingLanes s gd).length ≤ 64))
    (fun s u =>
      let c := curCell s
      (actingLanes s gd).foldl (fun v p => putCell v c { v.cell c with inject := (v.cell c).inject ++ [{
          dst := word ((rdReg s p a).toNat / 2 ^ 31 * 2 ^ 31), payload := rdW s p w.val, key := keyIn s c, src := c,
          scope := msgScope s c (rdReg s p a), place := ppos s p, lpos := (s.str p).lpos, ba := s.cur.ba }] })
        ((actingLanes s gd).foldl (fun v p => relL1 v c (some (msgScope s c (rdReg s p a)))) u)) ∧
  CompletesBy (.recv gd w) gd false
    (fun s => OrderMet s gd false ∧ ∀ p ∈ actingLanes s gd, (s.str p).recvq ≠ [])
    (fun s u => (actingLanes s gd).foldl (take s) u) ∧
  CompletesBy (.recvt gd w a q) gd false
    (fun s => OrderMet s gd false ∧ ∀ p ∈ actingLanes s gd, (s.str p).recvq ≠ [] ∨ (rdReg s p a).toNat % 2 ^ 32 = 0 ∨
      ∃ x, (s.str p).deadline = some x ∧ x ≤ cyc s (cellOf p))
    (fun s u => (actingLanes s gd).foldl (fun v p =>
      landFixed (take s v p) p (.p p q.val) (.p p q.val (!(s.str p).recvq.isEmpty))) u) ∧
  CompletesBy (.multicastSub gd a) gd false
    (fun s => lacking (s.cell (curCell s)) (fun p => field (rdReg s p a).toNat 40 12) [] (actingLanes s gd) = [])
    (fun s u => parkSince s ((actingLanes s gd).foldl (fun v p => subOne v (curCell s) (rdReg s p a)) u) u.fresh 0) ∧
  CompletesBy (.multicastUnsub gd a) gd false (fun _ => True)
    (fun s u => parkSince s ((actingLanes s gd).foldl (fun v p => unsubOne v (curCell s) (rdReg s p a)) u) u.fresh 0) ∧
  ∀ (s : State) (c : Nat) (v : Word),
    let e : MatchEnt := { tag := field v.toNat 40 12, tb := field v.toNat 36 4, win := v.getLsbD 35, offset := field v.toNat 0 24 }
    let put := fun (m : Tab MatchEnt) => putCell s c { s.cell c with matchTab := m }
    (∀ i, matchOf (s.cell c) e.tag = some i →
      subOne s c v = put (tset (s.cell c).matchTab i e) ∧ unsubOne s c v = sendJoin (put (tdel (s.cell c).matchTab i)) c e.tag false) ∧
    (matchOf (s.cell c) e.tag = none → unsubOne s c v = s ∧
      ∀ i, i < 16 → tfind (s.cell c).matchTab i = none → (∀ j, j < i → tfind (s.cell c).matchTab j ≠ none) →
        subOne s c v = sendJoin (put (tset (s.cell c).matchTab i e)) c e.tag true)

/-- R165, R298 to R300, R302, R307 to R312: an engine operation (`mma`, `mmz`, `mmst`, `mmld`, `mmjob`) is accepted when its checks pass
and the job queue has room, those that read or write memory once the earlier acts of their strand are performed, with its operands and
the translations of its rows as they stand at issue; `mmjob` answers the number of its record. `mmpoll` says whether the operations it
names have completed, and with ALL clear whether its job ended in error. (When work ends is the model's own schedule, a field of the
state: notes/assumptions/7.md.) -/
def Obligations.TheEngineAccepts : Prop := ∀ (gd : Guard) (rel : Option Scope) (f : Fmt) (c : Fin 4) (a b : Fin 32) (d x y : GReg),
  let entry := fun s => actingLanes s gd = [] ∨ (s.cell (curCell s)).jobs.length + 1 ≤ 16
  let low := fun s => lowestOf s (actingLanes s gd)
  let job := fun (s u : State) (op : MatOp) => if actingLanes s gd = [] then u else accept u (curCell s) (low s) op none []
  let fits := fun (s : State) (w : Word) => terraceCheck s (curCell s) f w = none ∧ panelCheck f w = none
  let rows := fun (i : Instr) (write : Bool) (op : Word → Word → MatOp) => CompletesBy i gd false
    (fun s => OrderMet s gd true ∧ entry s ∧ (actingLanes s gd ≠ [] → rowCheck (rdReg s (low s) x) (mcPitch (rdReg s (low s) y)) = none ∧
      ∀ k ∈ rowSectors (rdReg s (low s) x) (mcPitch (rdReg s (low s) y)) write, ∃ t, resolve s (low s) k = .ok t))
    (fun s u =>
      if actingLanes s gd = [] then u
      else accept u (curCell s) (low s) (op (rdReg s (low s) x) (rdReg s (low s) y)) none
        ((rowSectors (rdReg s (low s) x) (mcPitch (rdReg s (low s) y)) write).map fun k =>
          (targetOf s (low s) k, blockTag s (targetOf s (low s) k))))
  CompletesBy (.mma gd rel f c a b) gd true
    (fun s => s.cur.sup = false ∧ inGang s = true ∧ s.cur.path = true ∧ OrderMet s gd true ∧ entry s ∧
      PaidFor gd (fun _ ls => if ls = [] then 0 else 4 * fmtBits f) true s ∧
      (actingLanes s gd ≠ [] → fits s (rdG s (low s) a.val) ∧ fits s (rdG s (low s) b.val)))
    (fun s u =>
      if actingLanes s gd = [] then u
      else accept (relL1 u (curCell s) rel) (curCell s) (low s)
        (.mma f c.val (rdG s (low s) a.val) (rdG s (low s) b.val)) none []) ∧
  CompletesBy (.mmz gd c) gd false entry (fun s u => job s u (.mmz c.val)) ∧
  rows (.mmst gd c x y) true (fun v w => .mmst c.val v (field w.toNat 0 16) (w.getLsbD 20) (field w.toNat 16 4)) ∧
  rows (.mmld gd c x y) false (fun v w => .mmld c.val v (field w.toNat 0 16)) ∧
  (∀ r : State → Nat, CompletesBy (.mmjob gd d x f) gd true
    (fun s => OrderMet s gd true ∧ entry s ∧ PaidFor gd (fun _ ls => if ls = [] then 0 else 4 * fmtBits f) true s ∧
      Reaches s ((actingLanes s gd).take 1) (fun p => [jobAsk s p x]) ∧
      (actingLanes s gd ≠ [] → (rdReg s (low s) x).toNat % 32 = 0 ∧
        peek s (curCell s) (low s) (targetOf s (low s) (jobAsk s (low s) x)) 32 = .val (r s) ∧
        jobOk (r s) = true ∧ fits s (jrAop (r s)) ∧ fits s (jrBop (r s))))
    (fun s u =>
      if actingLanes s gd = [] then u
      else (actingLanes s gd).foldl (fun v p => landFixed v p (gId p d) (gVal p d (word ((rdReg s (low s) x).toNat / 32))))
        (accept (relL1 u (curCell s) (jrRel (r s))) (curCell s) (low s)
          (.mma f (jrAcc (r s)) (jrAop (r s)) (jrBop (r s))) (some ((rdReg s (low s) x).toNat / 32)) []))) ∧
  CompletesBy (.mmpoll gd d x) gd false
    (fun s => OrderMet s gd false ∧ (actingLanes s gd ≠ [] → (rdReg s (low s) x).getLsbD 63 = true → pollTargets s (low s) (rdReg s (low s) x) = []))
    (fun s u => (actingLanes s gd).foldl (fun v p => landFixed v p (gId p d) (gVal p d (pollWord s (low s) (rdReg s (low s) x)))) u) ∧
  ∀ (s : State) (k p : Nat) (op : MatOp) (n : Option Nat) (l : List (Target × Nat)),
    ((accept s k p op n l).cell k).jobs = (s.cell k).jobs ++
      [{ id := s.fresh, num := (s.cell k).jobNum, op := op, ident := n, req := requesterOf s p, rows := l }]

/-- R380, R217, R438 to R441, R470, R376, R383: `rdsr` reads the view of the register that its number names, `wrsr` writes with the value of the
lowest acting lane the bits that the register lets it; a register marked S takes a lane of single-lane mode. `tokq` and `probe` answer later. -/
def Obligations.SystemRegisters : Prop := ∀ (gd : Guard) (d a : GReg) (n : BitVec 12),
  CompletesBy (.rdsr gd d n) gd false
    (fun s => (srnRead n.toNat = some true → s.cur.sup = true) ∧
      (n.toNat = 0x131 → ∀ p ∈ actingLanes s gd, ∀ r ∈ rbReads (cellOf p) (s.str p).rbsel, broken s r = false) ∧
      ((∃ p ∈ actingLanes s gd, readsTiles s p n.toNat = true) → (s.cell (curCell s)).jobs = []))
    (fun s u => (actingLanes s gd).foldl (fun v p => wrReg v p d (srView s p n.toNat)) u) ∧
  CompletesBy (.wrsr gd d n) gd false
    (fun s => (srnWrite n.toNat = some true → s.cur.sup = true) ∧
      (actingLanes s gd ≠ [] → n.toNat = 0x010 →
        let v := (rdReg s (lowestOf s (actingLanes s gd)) d).toNat % 32
        1 ≤ v ∧ v ≤ 16))
    (fun s u =>
      let p := lowestOf s (actingLanes s gd)
      if actingLanes s gd = [] then u else srWrite u p n.toNat (rdReg s p d)) ∧
  CompletesLater (.tokq gd d) gd (fun _ => 0) (fun p => gId p d) (fun s p => gVal p d
    (let x := s.cell (cellOf p)
     let q : Int := match x.quota with | none => 2 ^ 31 - 1 | some v => max (-(2 ^ 31)) (min v (2 ^ 31 - 1))
     word ((q % 2 ^ 32).toNat * 2 ^ 32 + x.reqs.length % 256 * 2 ^ 24 + bCode (prioClaim s x) * 2 ^ 16 + x.pocket % 65536))) ∧
  CompletesBy (.probe gd d a) gd false
    (fun s => s.cur.sup = true ∧ ∀ p ∈ actingLanes s gd, probeMiss s p (rdReg s p a) = false)
    (fun s u => (actingLanes s gd).foldl (fun v p => landFixed v p (gId p d) (gVal p d (probeWord s p (rdReg s p a)))) u) ∧
  ∀ (s : State) (p : Nat) (v : Word),
    let t := s.str p
    let c := cellOf p
    (srView s p 0x000 = t.lpos ∧ srView s p 0x001 = ppos s p ∧ srView s p 0x002 = t.rank ∧ srView s p 0x003 = word (cyc s c) ∧
      srView s p 0x004 = word (asidIn s c) ∧ srView s p 0x100 = t.scause ∧ srView s p 0x101 = t.sval ∧ srView s p 0x102 = t.sret ∧
      srView s p 0x103 = t.sinfo ∧ srView s p 0x104 = t.sscr0 ∧ srView s p 0x105 = t.sscr1 ∧ srView s p 0x106 = t.sscr2 ∧
      srView s p 0x107 = t.sscr3 ∧ srView s p 0x130 = t.rbsel ∧ srView s p 0x010 = (s.gang (leaderOf s p)).splitpol ∧
      srView s p 0x006 = (s.cell c).lclreq ∧ srView s p 0x007 = (s.cell c).rmtreq ∧ srView s p 0x00D = word (keyIn s c).toNat) ∧
    (∀ k, k < 4 → srView s p (0x020 + k) = tget 0#64 (s.cell c).subva k ∧ srView s p (0x024 + k) = tget 0#64 (s.cell c).submap k ∧
      srWrite s p (0x020 + k) v = putCell s c { s.cell c with subva := tset (s.cell c).subva k (v &&& 0x81FFFFFFFFE0FFFF#64) } ∧
      srWrite s p (0x024 + k) v = putCell s c { s.cell c with submap := tset (s.cell c).submap k (v &&& 0x000FFFFFFFFFFF00#64) }) ∧
    (∀ k, k < 64 → let x := s.str (64 * c + k)
      srView s p (0x140 + k) = word (x.gen.toNat * 2 ^ 16 + parkCode x.park * 2 ^ 8 + stCode x.st)) ∧
    srWrite s p 0x010 v = putGang s (leaderOf s p) { s.gang (leaderOf s p) with splitpol := word (v.toNat % 32) } ∧
    srWrite s p 0x102 v = modStr s p (fun x => { x with sret := v &&& ~~~3#64 }) ∧
    srWrite s p 0x104 v = modStr s p (fun x => { x with sscr0 := v }) ∧ srWrite s p 0x105 v = modStr s p (fun x => { x with sscr1 := v }) ∧
    srWrite s p 0x106 v = modStr s p (fun x => { x with sscr2 := v }) ∧ srWrite s p 0x107 v = modStr s p (fun x => { x with sscr3 := v }) ∧
    srWrite s p 0x111 v = putCell s c { s.cell c with sq := (s.cell c).sq.drop 1 } ∧
    srWrite s p 0x110 v = putCell s c { s.cell c with note := v.getLsbD 7 } ∧
    srWrite s p 0x130 v = modStr s p (fun x => { x with rbsel := v &&& 0xFFC00000001FFFFF#64 }) ∧
    ∀ k, k < 8 → srWrite s p (0x028 + k) v = s.setPkg { s.pkg with
      dcap := tset s.pkg.dcap (8 * asidIn s c + k) (if v.getLsbD 62 then v else v &&& ~~~0x3000000#64) }

/-- R377, R429 to R432, R434 to R437, R439: the lowest acting lane of a `trap` enters the handler at TRAPENTRY with CAUSE 1, CODE in
SVAL, NBA in SRET and the mask of the acting lanes in FMASK; the others of the gang are FROZEN in the state they hold, and the other
acting lanes stand in the pending mask with the CODE and the NBA they will trap with. When another issuer of the gang has trapped in
the same cycle, all of them join the pending mask. In single-lane mode a `trap` is a double fault. `sysret` sends the handling lane to SRET
in the state it held: the gang's lanes return, those READY whose reason has cleared meanwhile, unless a lane of the pending mask is
still to trap. -/
def Obligations.TrapsAndReturns : Prop := ∀ (gd : Guard) (code : BitVec 20) (s : State) (p : Nat) (r : List Nat),
  let lead := s.cur.leader
  let owes := fun (x : Strand) => { x with tcode := word code.toNat, tnba := s.cur.nba }
  actingLanes s gd = p :: r →
    (RegsLanded s gd (.trap gd code) → s.cur.sup = false → (s.gang lead).late = false →
      ∃ t u, Issues false s u ∧ exec (.trap gd code) s = .next t ∧
        t.str p = { owes (u.str p) with
          heldSt := .ready, st := .supervisor, park := .none, wait := .nothing, paid := false, charged := false, pc := 0xFFFFFFFFC0000000#64,
          scause := word ((p - lead) * 2 ^ 12 + 1), sval := word code.toNat, sret := s.cur.nba,
          sinfo := word (laneMask lead (p :: r) % 2 ^ 16 * 2 ^ 16) } ∧
        (∀ q ∈ gangLanes u lead, q ≠ p → t.str q = freezeOne s.time (if q ∈ r then owes (u.str q) else u.str q)) ∧
        (∀ q, q ∉ gangLanes u lead → q ≠ p → t.str q = if q ∈ r then owes (u.str q) else u.str q) ∧
        t.gang lead = { s.gang lead with handler := some p, trapMask := BitVec.ofNat 16 (laneMask lead r) } ∧
        (∀ l, l ≠ lead → t.gang l = s.gang l) ∧ (t.setStrands u.strands).setGangs u.gangs = u) ∧
    (RegsLanded s gd (.trap gd code) → s.cur.sup = false → (s.gang lead).late = true →
      ∃ t u, Issues false s u ∧ exec (.trap gd code) s = .next t ∧
        (∀ q, t.str q = if q ∈ p :: r then owes (u.str q) else u.str q) ∧
        t.gang lead = { s.gang lead with trapMask := BitVec.ofNat 16 (laneMask lead (p :: r)) } ∧
        (∀ l, l ≠ lead → t.gang l = s.gang l) ∧ (t.setStrands u.strands).setGangs u.gangs = u) ∧
    (RegsLanded s gd (.trap gd code) → s.cur.sup = true →
      ∃ u, Issues false s u ∧ exec (.trap gd code) s = .next (doubleFault u p s.cur.ba 1 (word code.toNat) 0#64)) ∧
    (RegsLanded s gd (.sysret gd) → s.cur.sup = true → ∃ t u, Issues false s u ∧ exec (.sysret gd) s = .next t ∧
      let back := fun (x : Strand) => { x with pc := x.sret, st := x.heldSt, park := .none, wait := .nothing }
      let here := fun q => if q = p then back (u.str p) else u.str q
      let thaw := fun (x : Strand) =>
        let y := { x with st := x.heldSt, parkedAt := s.time, woken := none }
        match x.woken with
        | none => y
        | some past => goOn past y
      ((s.str p).heldSt ≠ .frozen → (t.str p).pc = (s.str p).sret) ∧
      ((s.gang lead).trapMask = 0#16 →
        (∀ q ∈ gangLanes u lead, t.str q = if (here q).st = .frozen then thaw (here q) else here q) ∧
        ∀ q, q ∉ gangLanes u lead → t.str q = here q) ∧
      ((s.gang lead).trapMask ≠ 0#16 → ∀ q, t.str q = if q = p then freezeOne s.time (back (u.str p)) else u.str q) ∧
      t.gang lead = { s.gang lead with handler := none } ∧
      (∀ l, l ≠ lead → t.gang l = s.gang l) ∧ (t.setStrands u.strands).setGangs u.gangs = u)

/-- R144, R378, R379, R381, R386, R445, R447: a lane of single-lane mode may `halt` its block, `kill` the grids of an ASID and remove
translations with `tlbinv`; the two that work elsewhere wait until it is done, and no walk brings back what a `tlbinv` removes before it
goes on. A kill of the lane's own ASID ends its own position last. A grid that is killed is over and in no launch queue. (When work
ends is the model's own schedule, a field of the state: notes/assumptions/7.md. What a tlbinv waits for: 42.md.) -/
def Obligations.PrivilegedOperations : Prop := ∀ (gd : Guard) (a b : GReg),
  let sup := fun (s : State) => s.cur.sup = true
  let low := fun s => lowestOf s (actingLanes s gd)
  let inval := fun (i : Instr) (w : State → Inval) => CompletesBy i gd false sup (fun s u =>
    if actingLanes s gd = [] then u
    else modStrs (parkDone s (invalidate u (w s)) (fun _ => .sync (translated u (w s)) (u.time + u.pace.sync))) s.cur.lanes
      (fun x => { x with inval := some (w s) }))
  CompletesBy (.halt gd) gd false sup (fun s u =>
    match actingLanes s gd, (u.cell (curCell s)).block with
    | _ :: _, some x => putBlock u x { u.block x with phase := .halting }
    | _, _ => u) ∧
  CompletesBy (.kill gd a) gd false sup (fun s u =>
    if actingLanes s gd = [] then u
    else
      let x := (rdReg s (low s) a).toNat % 65536
      let own := asidIn s (curCell s) = x
      let t := startKill u (tkeys (u.grids.filter (fun e => e.2.live && decide (e.2.asid = x)))) { recAt u (low s) 2 with arg := x }
        (if own then none else some (low s)) (if own then some (low s) else none)
      if own then t else parkDone s t (fun _ => .event)) ∧
  inval (.tlbinvAll gd) (fun _ => { asid := none, va := none }) ∧
  inval (.tlbinvAsid gd a) (fun s => { asid := some ((rdReg s (low s) a).toNat % 65536), va := none }) ∧
  inval (.tlbinvPage gd a b) (fun s => { asid := some ((rdReg s (low s) a).toNat % 65536), va := some (rdReg s (low s) b).toNat }) ∧
  (∀ (s : State) (i : Inval) (c : Nat) (e : TlbEnt), e ∈ ((invalidate s i).cell c).tlb ↔
    e ∈ (s.cell c).tlb ∧ ¬((∀ x, i.asid = some x → x = e.asid) ∧ ∀ v, i.va = some v → e.va ≤ v ∧ v < e.va + e.span)) ∧
  (∀ (s : State) (i : Inval) (k : Nat) (e : TlbEnt), e ∈ tget [] (invalidate s i).pkg.chaseTlb k ↔
    e ∈ tget [] s.pkg.chaseTlb k ∧ ¬((∀ x, i.asid = some x → x = e.asid) ∧ ∀ v, i.va = some v → e.va ≤ v ∧ v < e.va + e.span)) ∧
  (∀ (s : State) (gs : List Nat) (r : Record) (w : Option Nat) (last : Option Nat),
    let t := startKill s gs r w last
    (∃ id, Instr.killComplete id ∈ t.agenda ∧ tfind t.kills id = some { grids := gs, record := r, waiter := w }) ∧
    ∀ g ∈ gs, (t.grid g).live = false) ∧
  ∀ (s : State) (g k : Nat) (last : Option Nat), ((endGrid s g last).grid g).live = false ∧ g ∉ tget [] (endGrid s g last).pkg.queues k

/-! ### The rows of the opcode table that have no word: what happens beside the instructions, each as it falls due -/

/-- R46, R107, R109, R110, R141, R142, R144, R151, R158, R159, R379, R386, R445, R462, R468: what has been under way comes to its end.
`scoreboardResultLands` first performs the acts of its entry that can be performed, and the L1 drops its clean sectors after one that
is an acquire; while one still waits the entry stays, with its registers pending; a store leaves nothing but the record of a failure; and
a result whose time has come lands in its registers or leaves its mark. `storePerformed` brings a store's dirty bytes home.
`pageWalkComplete` gives a queued walk a free walker, makes a walk again that a `tlbinv` meets, and otherwise fills the TLB or leaves the
fault with the waiters. `syncOpComplete` lets a path that waited for work elsewhere go on. `bankingSwitchComplete` ends one phase of a
banking switch: the fills, the sweep of the tags, the write-back of the dirty sectors, after which the L1 is empty. `killComplete` makes
the record of a kill and ends the wait of its lane. With nothing under way each does nothing. (When work ends is the model's own
schedule, a field of the state: notes/assumptions/7.md.) -/
def Obligations.WorkUnderWayEnds : Prop := ∀ (s : State) (id p c : Nat),
  let idle := fun (i : Instr) => exec i s = .next s
  (tfind s.pend id = none → idle (.scoreboardResultLands id)) ∧
  (∀ e, tfind s.pend id = some e →
    let x := doParts s false e id [] e.parts
    let acted := (List.zip e.parts x.2.1).any (fun q => q.1.val.isNone && q.2.val.isSome)
    let y := { e with
      parts := x.2.1, mark := e.mark.orElse (fun _ => x.2.2), fill := e.fill || filledNow s e e.parts x.2.1 }
    exec (.scoreboardResultLands id) s = .next (landPend (if acted then acqL1 x.1 e.req.cell e.acq else x.1) id y) ∧
    RegsKept s x.1 noReg ∧
    ((∀ q ∈ e.parts, q.val ≠ none) → exec (.scoreboardResultLands id) s = .next (landPend s id e))) ∧
  (∀ e : Pend,
    let gone := s.setPend (tdel s.pend id)
    let ready := e.due ≤ s.time ∧ e.late = 0 ∧ e.cycDue ≤ cyc s (cellOf e.pos)
    ((∃ q ∈ e.parts, q.val = none) → landPend s id e = s.setPend (tset s.pend id e)) ∧
    ((∀ q ∈ e.parts, q.val ≠ none) →
      (isStore e = true → landPend s id e = match e.mark with
        | some k => if e.parts.all (fun q => isReadOp q.op) then gone
          else postFor gone e.req.cell (errRec e.req k.code e.access k.addr (partBytes e.parts))
        | none => gone) ∧
      (isStore e = false → ready → landPend s id e = retireCheck (match e.mark with
        | none => (e.vals ++ landVals e.shape e.pos (e.parts.map (fun q => q.val.getD 0))).foldl putVal gone
        | some m => landMark gone e m) e.pos) ∧
      (isStore e = false → ¬ready → landPend s id e = s.setPend (tset s.pend id
        (if e.due ≤ s.time ∧ e.late ≠ 0 then { e with late := 0, cycDue := cyc s (cellOf e.pos) + e.late } else e))))) ∧
  (tfind s.stores id = none → idle (.storePerformed id)) ∧
  (∀ e, tfind s.stores id = some e → exec (.storePerformed id) s =
    .next (let t := s.setStores (tdel s.stores id); if storeLeft s e then l1Flush t e.cell e.sector else t)) ∧
  (tfind s.walks id = none → idle (.pageWalkComplete id)) ∧
  (∀ w, tfind s.walks id = some w →
    let t := s.setWalks (tdel s.walks id)
    let again := s.setWalks (tset s.walks id { w with queued := false, due := s.time + s.pace.walk })
    (w.queued = true → exec (.pageWalkComplete id) s = .next (if walkers s w.cell < 1024 then again else s)) ∧
    (w.queued = false → invalOpen s w.asid w.va = true → exec (.pageWalkComplete id) s = .next again) ∧
    (w.queued = false → invalOpen s w.asid w.va = false →
      (∀ e, walkAll s (dieOf w.cell) w.cell (s.cell w.cell) w.asid w.va = .inl e → exec (.pageWalkComplete id) s =
        .next (putCell t w.cell { s.cell w.cell with tlb := e :: (s.cell w.cell).tlb.take 16383 })) ∧
      (∀ code, walkAll s (dieOf w.cell) w.cell (s.cell w.cell) w.asid w.va = .inr code → exec (.pageWalkComplete id) s =
        .next (modStrs t w.waiters (fun u => { u with walkFail := (w.va, code) :: u.walkFail }))))) ∧
  (exec (.syncOpComplete p) s = .next
    (if (∃ q ∈ unit s p, isSync (s.str q).wait = true) ∧ readyToGo s p = true then
      modStrs s ((unit s p).filter (fun q => sweepable (s.str q))) (clearReason false)
    else s)) ∧
  (let k := s.cell c
    let put := fun x => exec (.bankingSwitchComplete c) s = .next (putCell s c { k with bankSw := some x })
    let ends := exec (.bankingSwitchComplete c) s = .next
      (let t := l1WriteBack s c
        let u := putCell t c { t.cell c with
          l1 := [], bankSw := none, bank := if (heldIn t c).isEmpty then (t.cell c).bank else holdsGang t c }
        modStrs u (heldIn u c) (fun x => { x with bankHold := false }))
    let dirty := (k.l1.filter (fun e => decide (e.2.dirty ≠ 0#32))).length
    (k.bankSw = none → idle (.bankingSwitchComplete c)) ∧
    (∀ d, k.bankSw = some (d, .fills) → if fillsOut s c then idle (.bankingSwitchComplete c) else put (d, .sweep (cyc s c + 33))) ∧
    (∀ d u, k.bankSw = some (d, .sweep u) → if cyc s c < u then idle (.bankingSwitchComplete c)
      else if dirty = 0 then ends else put (d, .back (u + dirty))) ∧
    (∀ d u, k.bankSw = some (d, .back u) → if cyc s c < u then idle (.bankingSwitchComplete c) else ends)) ∧
  (tfind s.kills id = none → idle (.killComplete id)) ∧
  (∀ k, tfind s.kills id = some k → exec (.killComplete id) s =
    .next (let t := postLog (s.setKills (tdel s.kills id)) k.record
      match k.waiter with
      | none => t
      | some q =>
        if (t.str q).wait = .event then
          let u := modStr t q (fun x => { x with wait := .sync [] 0 })
          u.setAgenda (u.agenda ++ [Instr.syncOpComplete q])
        else t))

/-- R57 to R59, R78, R79, R81, R339, R340, R375, R433 to R435, R465, R468, R472, R481: a monitor that fires (`monitorFire`) reads its
word again with status 1, past the cell's L1, or fails by the code that the read meets; a `wait` that times out (`waitTimeout`) answers
the value it expected with status 2; a `recvt` whose time has passed (`recvtTimeout`) goes on; a partial gang is released
(`spawnTimeoutRelease`), and the gang released first is placed once positions are free (`gatheredGangPlace`): a strand for each record,
in lane order, with its payload in g1 to g4, the other lanes hollow; the turn passes to the path next after its holder
(`pathQuantumExpiry`); and in a gang that does not stand collapsed the lane that an orphaned set names (`orphanFault`), or the lane
named for a notice (`sqnote`), traps with the return address of its bundle. (The orphan view and the lane of SQNOTE:
notes/assumptions/21.md and 44.md. GEN of a hollow lane: 36.md.) -/
def Obligations.WaitsAndTurnsEnd : Prop := ∀ (s : State) (p c desc l : Nat),
  let idle := fun (i : Instr) => exec i s = .next s
  let collapsed := (s.gang l).handler ≠ none ∨ (s.gang l).trapMask ≠ 0#16
  let traps := fun (i : Instr) (r : State) (lead q mask cause : Nat) (sval : Word) => ∃ t, exec i s = .next t ∧
    t.str q = { s.str q with
      heldSt := .ready, st := .supervisor, park := .none, wait := .nothing, paid := false, charged := false, pc := 0xFFFFFFFFC0000000#64
      scause := word ((q - lead) * 2 ^ 12 + cause), sval := sval, sret := (s.str q).pc, sinfo := word (mask % 2 ^ 16 * 2 ^ 16) } ∧
    (∀ x ∈ gangLanes s lead, x ≠ q → t.str x = freezeOne s.time (s.str x)) ∧
    (∀ x, x ∉ gangLanes s lead → x ≠ q → t.str x = s.str x) ∧
    t.gang lead = { r.gang lead with handler := some q } ∧ (∀ x, x ≠ lead → t.gang x = s.gang x) ∧
    (t.setStrands s.strands).setGangs s.gangs = r.setGangs s.gangs
  ((s.str p).mon = none → idle (.monitorFire p) ∧ idle (.waitTimeout p)) ∧
  (∀ m, (s.str p).mon = some m →
    let n := if m.w64 then 8 else 4
    let t := flushRange s (cellOf p) m.loc n
    let ends := fun (t : State) x => exec (.monitorFire p) s = .next (modStr t p (fun y => { y with mon := some x }))
    let fails := fun (t : State) (cause code : Nat) =>
      ends t { m with done := some (0#64, 1), bad := some { cause := cause, code := code, addr := m.addr, access := 5 } }
    (m.done ≠ none ∨ m.armed = false → idle (.monitorFire p)) ∧
    (m.done = none → m.armed = true →
      let moved := m.blk ≠ 0 ∧ locBlock s m.loc ≠ m.blk
      let cut := crossed s (dieOf (cellOf p)) (homeDie m.loc) (cellOf p) m.loc
      (moved → fails s 9 6) ∧ (¬moved → cut = true → fails s 10 8) ∧
      (¬moved → cut = false →
        (∀ code, badIn t m.loc n = some code → fails t 10 code) ∧
        (badIn t m.loc n = none → ends t { m with done := some (word (rd t m.loc n), 1) }))) ∧
    (m.done ≠ none → idle (.waitTimeout p)) ∧
    (m.done = none → exec (.waitTimeout p) s =
      .next (modStr s p (fun y => { y with mon := some { m with armed := false, done := some (m.expect, 2) } })))) ∧
  (exec (.recvtTimeout p) s = .next
    (if (s.str p).wait = .message ∧ (s.str p).deadline ≠ none then modStr s p (fun t => { t with wait := .nothing }) else s)) ∧
  (exec (.spawnTimeoutRelease c desc) s = .next (putCell s c { s.cell c with
    partials := (s.cell c).partials.map (fun q =>
      if (forming q desc) = true then { q with released := some (nextRelease (s.cell c).partials) } else q) })) ∧
  ((firstReleased (s.cell c).partials = none ∨
      ∃ x, firstReleased (s.cell c).partials = some x ∧ gangPlace s c x.glog = none) → idle (.gatheredGangPlace c)) ∧
  (∀ x ls, firstReleased (s.cell c).partials = some x → gangPlace s c x.glog = some ls → ls.Nodup →
    ∃ t, exec (.gatheredGangPlace c) s = .next t ∧
      let q := takeRecs x.desc x.count (s.cell c).spawns
      let sord := ((blockIn s c).slots.filter (fun j => decide (j < slotOf (ls.headD 0)))).length
      let base := (q.1.head?.map (fun r => field r.lpos.toNat 20 44 * 2 ^ 20)).getD 0
      (t.cell c).spawns = q.2 ∧ (t.cell c).partials = (s.cell c).partials.filter (fun r => decide (r.released ≠ x.released)) ∧
      t.gang (ls.headD 0) = { turn := true, cur := 0, last := 0, qleft := 64 } ∧
      (∀ i q', ls[i]? = some q' →
        { t.str q' with bankHold := false } = {
          st := if (q.1[i]?).isSome then .ready else .retired, pc := x.entry, gen := (s.str q').gen + 1#8
          lpos := withLane (word (base + sord * 2 ^ 11)) i x.glog, rank := BitVec.allOnes 64
          lmode := if (q.1[i]?).isSome then .inPath 0 else .hollow } ∧
        ∀ r, q.1[i]? = some r → ∀ n, n < 4 → rdG t q' (n + 1) = word (field r.payload.toNat (64 * n) 64)) ∧
      (∀ q', q' ∉ ls → { t.str q' with bankHold := false } = { s.str q' with bankHold := false }) ∧ BytesKept s t) ∧
  (exec (.pathQuantumExpiry l) s = .next (
    let g := s.gang l
    if g.turn = true ∧ g.qleft = 0 then
      putGang s l (match nextPath g.cur (pathsOf s l) with
        | some n => { g with turn := true, cur := n, last := g.cur, qleft := 64 }
        | none => { g with turn := false, cur := 0, last := g.cur, qleft := 0 })
    else s)) ∧
  (∀ last ps n, nextPath last ps = some n → n ∈ ps ∧
    ((∃ m ∈ ps, last < m) → last < n ∧ ∀ m ∈ ps, last < m → n ≤ m) ∧ ((∀ m ∈ ps, m ≤ last) → ∀ m ∈ ps, n ≤ m)) ∧
  ((s.gang l).orphans = [] ∨ collapsed → idle (.orphanFault l)) ∧
  (∀ o r, (s.gang l).orphans = o :: r → ¬collapsed →
    let u := putGang s l { s.gang l with orphans := r }
    ((gangLanes s l).filter (fun x => o.lanes.getLsbD (x - l)) = [] → exec (.orphanFault l) s = .next u) ∧
    ∀ q rest, (gangLanes s l).filter (fun x => o.lanes.getLsbD (x - l)) = q :: rest →
      traps (.orphanFault l) u l q o.lanes.toNat 0x0D o.view) ∧
  (l = leaderOf s p →
    ((s.cell (cellOf p)).noteDue = false ∨ collapsed → idle (.sqnote p)) ∧
    ((s.cell (cellOf p)).noteDue = true → ¬collapsed →
      traps (.sqnote p) (putCell s (cellOf p) { s.cell (cellOf p) with noteDue := false }) l p (2 ^ (p - l)) 0x0E
        (word (bCode (s.cell (cellOf p)).note * 2 ^ 7 + (s.cell (cellOf p)).sq.length % 64))))

/-- R112, R127, R349, R350, R351, R356, R359, R370, R472 to R474: the work of transfers, walks, joins and block barriers as it ends. A
transfer reads the next piece of one sector of one row and sends it to its consumer, or waits, or sends bytes that are counted and not
written (`transferSourceRead`); a delivery is dealt with at its consumer, and its presence bits follow at the end of the cell cycle
(`deliveryArrival`); a transfer with every byte dealt with makes its reports and its notice and frees its entry (`transferNotice`); a walk
executes its next word, or, ended, is finished (`chaseStep`), and one that has made 1,048,576 words ends with cause 0 (`chaseStepLimit`);
joins and leaves reach the routers (`multicastJoinArrival`); and the sweep of a block barrier goes on, or its release arrives
(`blockBarrierSweep`). (When work ends is the model's own schedule, a field of the state: notes/assumptions/7.md. How refused bytes are
gathered: 52.md. What a notice meets on a failed hop: 66.md.) -/
def Obligations.TransfersDeliver : Prop := ∀ (s : State) (id c : Nat),
  let idle := fun (i : Instr) => exec i s = .next s
  (tfind s.delivs id = none → idle (.deliveryArrival id)) ∧
  (∀ d, tfind s.delivs id = some d →
    (d.away = true → idle (.deliveryArrival id)) ∧
    (d.away = false → imageHeld s d.cell = true →
      exec (.deliveryArrival id) s = .next (s.setDelivs (tset s.delivs id { d with due := s.time + s.pace.deliver }))) ∧
    (d.away = false → imageHeld s d.cell = false → exec (.deliveryArrival id) s =
      .next (let r := deliverAt (s.setDelivs (tdel s.delivs id)) d
        settle (r.1.setSets (r.1.sets ++ presSectors (homeCell s d.req) d)) d [r.2] false))) ∧
  (tfind s.xfers id = none → idle (.transferSourceRead id) ∧ idle (.transferNotice id)) ∧
  (∀ x, tfind s.xfers id = some x →
    (x.away = true ∨ x.rows * x.rlen ≤ x.read → idle (.transferSourceRead id)) ∧
    (x.away = false → x.read < x.rows * x.rlen →
      let unheard := ∃ tag key, x.cons = .tag s.pkg.pkgnum tag key ∧ x.subs = []
      (unheard → exec (.transferSourceRead id) s = .next (s.setXfers (tset s.xfers id { x with
        read := x.rows * x.rlen, dealt := x.rows * x.rlen, err := true, due := s.time + s.pace.step
        rejects := addRej { reason := 5, cell := 0, blk := 0, tb := 0, off := x.offset, src := x.src, n := x.rows * x.rlen,
                            toC := false } x.rejects }))) ∧
      (¬unheard →
        let va := x.src + word (x.read / x.rlen * x.pitch + x.read % x.rlen)
        let n := Nat.min (32 - va.toNat % 32) (x.rlen - x.read % x.rlen)
        let h := homeCell s x.req
        let reads := fun (t : State) => exec (.transferSourceRead id) s = .next t
        let later := reads (s.setXfers (tset s.xfers id { x with due := s.time + s.pace.step }))
        let zeros := List.replicate n (0#8 : Byte)
        let dead := fun code a => reads (pieceRead s id x va zeros true (some (errRec x.req code 6 a 32)))
        let sent := fun loc => reads (sendPiece (tookPiece s id x n false) id x x.read va (numBytes n (rd s loc n)) false)
        let sector := word (va.toNat / 32 * 32)
        let atHome := fun loc die =>
          (crossed s (dieOf h) die h loc = true → dead 8 sector) ∧
          (crossed s (dieOf h) die h loc = false →
            (∀ code, badIn s loc n = some code → dead code sector) ∧ (badIn s loc n = none → sent loc))
        (srcTarget s x va = none ∨ (∃ o, srcTarget s x va = some (.dev o)) → dead 0 va) ∧
        (∀ loc die, srcTarget s x va = some (.home loc die) →
          (die = 4 ∧ s.pkg.hostUp = false → later) ∧ (¬(die = 4 ∧ s.pkg.hostUp = false) → atHome loc die)) ∧
        (∀ cell off, srcTarget s x va = some (.scr cell off) →
          let moved := tget 0 x.homes cell ≠ blockTag s (.scr cell off) ∨ tget 0 x.homes cell = 0
          let waits := ∃ k ∈ absentSectors s (.scr cell off) n, ownSector s x k = false
          (moved → reads (pieceRead (noteMoved s id x va n) id x va zeros true none)) ∧
          (¬moved → waits → later) ∧ (¬moved → ¬waits → atHome (locScr cell off) (dieOf cell))) ∧
        (∀ pkg pa, srcTarget s x va = some (.remote pkg pa) →
          let ask := newRequest s (fromCell h) pkg (planeOf pa) 1 0 x.req.key pa 0#256 (byteMask (pa % 32) n) (.xfer id x.read)
          (∀ t, ask = .out t → reads (t.setXfers (tset t.xfers id { x with away := true }))) ∧
          (∀ code, ask = .fail code → dead code sector)))) ∧
    (xferDone x = false → idle (.transferNotice id)) ∧
    (xferDone x = true →
      let t := x.rejects.foldl (fun t j => postRej t x.req (if x.note then x.ntb else 0) j) s
      let u := t.setXfers (tdel t.xfers id)
      let ends := fun v => exec (.transferNotice id) s = .next v
      (x.note = false → ends u) ∧
      (x.note = true → noticeCut u x = false → ends (notice u x.req x.ntb (x.rows * x.rlen) x.err)) ∧
      (x.note = true → noticeCut u x = true →
        ends (notice (postFor u (homeCell u x.req) (errRec x.req 8 6 x.src 32)) x.req x.ntb (x.rows * x.rlen) true)))) ∧
  (tfind s.chases id = none → idle (.chaseStep id) ∧ idle (.chaseStepLimit id)) ∧
  (∀ w, tfind s.chases id = some w →
    let goes := fun t => exec (.chaseStep id) s = .next t
    (w.ended = true → w.inFlight ≠ 0 → idle (.chaseStep id)) ∧
    (w.ended = true → w.inFlight = 0 → goes (finishWalk s id w)) ∧
    (w.ended = false → w.away = true ∨ w.running = false → idle (.chaseStep id)) ∧
    (w.ended = false → w.away = false → w.running = true → ∀ v, w.word = some v → goes (engWord s id w v)) ∧
    (w.ended = false → w.away = false → w.running = true → w.word = none → goes (engFetch s id w)) ∧
    (w.ended = true ∨ w.words < 1048576 → idle (.chaseStepLimit id)) ∧
    (w.ended = false → 1048576 ≤ w.words → exec (.chaseStepLimit id) s = .next (endWalk s id w (some 0)))) ∧
  (tfind s.joins id = none → idle (.multicastJoinArrival id)) ∧
  (∀ j, tfind s.joins id = some j →
    let t := s.setJoins (tdel s.joins id)
    let rest := s.pkg.joined.filter (fun q => decide (q ≠ (j.tag, j.cell)))
    let goes := fun u => exec (.multicastJoinArrival id) s = .next u
    (j.join = true → goes (t.setPkg { s.pkg with joined := rest ++ [(j.tag, j.cell)] })) ∧
    (j.join = false → holdsTag (s.cell j.cell) j.tag = true → goes t) ∧
    (j.join = false → holdsTag (s.cell j.cell) j.tag = false → goes (t.setPkg { s.pkg with joined := rest }))) ∧
  ((s.cell c).block = none → idle (.blockBarrierSweep c)) ∧
  (∀ b, (s.cell c).block = some b →
    (∀ u, (s.cell c).bbRelease = some u →
      (u ≤ s.time → exec (.blockBarrierSweep c) s = .next (bbReleaseCell s c)) ∧ (s.time < u → idle (.blockBarrierSweep c))) ∧
    ((s.cell c).bbRelease = none →
      ((s.cell c).bbForwarded = true ∨ bbOpen s b = false ∨ mayForward s b c = false → idle (.blockBarrierSweep c)) ∧
      ((s.cell c).bbForwarded = false → bbOpen s b = true → mayForward s b c = true →
        let g := s.grid (s.block b).grid
        let t := putCell s c { s.cell c with bbForwarded := true, bbFwdAt := s.time }
        exec (.blockBarrierSweep c) s =
          .next (if (s.cell c).cx + 1 = gridW g ∧ (s.cell c).cy + 1 = gridH g then bbReleaseCell (bbReleaseAll t b) c else t))))

/-- R299, R300, R303, R307, R308, R372, R373, R374, R485, R486, R502: a message that reaches its cell (`messageArrival`) is queued, spilled or
orphaned, and stays on its way, to be sent again, where it is refused; a refused one is tried again (`messageResend`), one of another package
by a new request. The engine starts the oldest accepted operation (`matrixOpStart`); when the occupancy ends (`matrixOpComplete`) an
accumulator transfer asks for its rows in other packages, once, and waits for them; then the result stands, the entry is free, a job's error bit
is what came of it, and the next operation starts. With no entry, or before its time, nothing happens. (When work ends is the model's own
schedule, a field of the state: notes/assumptions/7.md. One message of a pair at a time: 41.md.) -/
def Obligations.MessagesArriveAndTheEngineRuns : Prop := ∀ (s : State) (id c : Nat),
  let idle := fun (i : Instr) => exec i s = .next s
  (tfind s.flying id = none → idle (.messageArrival id) ∧ idle (.messageResend id)) ∧
  (∀ f, tfind s.flying id = some f →
    let r := arrive s f.msg
    let gone := r.1.setFlying (tdel r.1.flying id)
    let back := fun (b : Bool) => r.1.setFlying (tset r.1.flying id { f with refused := b, due := s.time + 1024 })
    (ovfHeld s (msgCell f.msg.dst) = true →
      exec (.messageArrival id) s = .next (s.setFlying (tset s.flying id { f with due := s.time + s.pace.msg }))) ∧
    (ovfHeld s (msgCell f.msg.dst) = false → exec (.messageArrival id) s = .next (if r.2 then gone else back true)) ∧
    (f.refused = false → idle (.messageResend id)) ∧
    (f.refused = true →
      (msgPkg f.msg.dst = s.pkg.pkgnum → exec (.messageResend id) s = .next (if r.2 then gone else back f.refused)) ∧
      (msgPkg f.msg.dst ≠ s.pkg.pkgnum → exec (.messageResend id) s = .next (sendMsg (s.setFlying (tdel s.flying id)) f.msg)))) ∧
  (∀ m : Msg,
    let p := msgPos m.dst
    let k := msgCell m.dst
    let gone := (s.str p).st = .free ∨ liveSt (s.str p) = .retired ∨ ((s.str p).heldSt = .retired ∧ (s.str p).st = .saved)
    let mine := (s.cell k).block ≠ none ∧ ¬gone ∧ (s.str p).gen = msgGen m.dst ∧ keyIn s k = m.key
    let room := (s.str p).recvq.length < 8 ∧ oldestSpilled s p (s.str p).gen.toNat m.key.toNat = none
    let held := ∃ b ∈ boundTo s k, blockKey s b = m.key
    let spills :=
      (∀ t, spillTo s p (msgGen m.dst).toNat m.key m.payload = some t → arrive s m = (t, true)) ∧
      (spillTo s p (msgGen m.dst).toNat m.key m.payload = none → arrive s m = (refuse s k, false))
    (mine → room → arrive s m = (modStr s p (fun t => { t with recvq := t.recvq ++ [m] }), true)) ∧
    (mine → ¬room → spills) ∧ (¬mine → held → spills) ∧
    (¬mine → ¬held → ((s.cell k).block = none ∨ gone → arrive s m = (orphanMsg s k m 3, true)) ∧
      ((s.cell k).block ≠ none → ¬gone →
        arrive s m = (orphanMsg s k m (if (s.str p).gen ≠ msgGen m.dst then 1 else 2), true)))) ∧
  ((s.cell c).jobs = [] → idle (.matrixOpStart c) ∧ idle (.matrixOpComplete c)) ∧
  ∀ j r, (s.cell c).jobs = j :: r →
    ((s.cell c).engBusy = true → idle (.matrixOpStart c)) ∧
    ((s.cell c).engBusy = false → exec (.matrixOpStart c) s =
      .next (putCell s c { s.cell c with engBusy := true, engDue := cyc s c + occupancy j.op })) ∧
    ((s.cell c).engBusy = false ∨ cyc s c < (s.cell c).engDue → idle (.matrixOpComplete c)) ∧
    ((s.cell c).engBusy = true → (s.cell c).engDue ≤ cyc s c →
      let ask := fun acc write => exec (.matrixOpComplete c) s =
        .next (askFarRows (putCell s c { s.cell c with jobs := { j with asked := true } :: r }) j acc write)
      let store := ∃ acc x pitch cnt tb, j.op = .mmst acc x pitch cnt tb
      let load := ∃ acc x pitch, j.op = .mmld acc x pitch
      let first := j.asked = false ∧ farSectors j ≠ [] ∧ (store ∨ load)
      (first → (∀ acc x pitch cnt tb, j.op = .mmst acc x pitch cnt tb → ask acc true) ∧
        (∀ acc x pitch, j.op = .mmld acc x pitch → ask acc false)) ∧
      (¬first → rowsOut s j = true → idle (.matrixOpComplete c)) ∧
      (¬first → rowsOut s j = false → exec (.matrixOpComplete c) s =
        .next (let x := (runOp s c j).1
          let t := putCell x c { x.cell c with
            jobs := (x.cell c).jobs.drop 1, engBusy := false
            jobErr := match j.ident with | some n => tset (x.cell c).jobErr n (runOp s c j).2 | none => (x.cell c).jobErr }
          if (t.cell c).jobs = [] then t else t.setAgenda (Instr.matrixOpStart c :: t.agenda)))) ∧
    (∀ a, j.op = .mmz a → ∀ i, i < 16384 → byteAt (runOp s c j).1 (locAcc c (16384 * a) + i) = 0#8)

/-- R185, R189, R193, R505 to R508, R510, R512: the oldest requests of a cell are paid while POCKET covers them (`tokenRequestPaid`), and
one that QUOTA does not allow pre-empts the block; a station acts on the flit that is there (`ringStationStep`); a revolution sets the
floor and the ballast of the next (`ballastRevolution`); and each power, thermal or security event is recorded and has its effect
(`thermalWarn`, `thermalTrip`, `railFault`, `railReturnsToTolerance`, `railHoldEnd`, `hbmSupplyFault`, `securityAlarm`); an event that finds
nothing to do changes nothing. (When ballast is settled, and the reasons of kills: notes/assumptions/56.md and 59.md.) -/
def Obligations.TokensPowerAndSecurity : Prop := ∀ (s : State) (c die st sensor temp rail stack level source : Nat),
  let d := s.die die
  let idle := fun (i : Instr) => exec i s = .next s
  ((s.cell c).reqs = [] → idle (.tokenRequestPaid c)) ∧
  (∀ r rest, (s.cell c).reqs = r :: rest →
    ((s.cell c).pocket < r.price → idle (.tokenRequestPaid c)) ∧
    (r.price ≤ (s.cell c).pocket → quotaAllows s c r.price r.exempt = false → exec (.tokenRequestPaid c) s = .next (sitOut s c)) ∧
    (r.price ≤ (s.cell c).pocket → quotaAllows s c r.price r.exempt = true → exec (.tokenRequestPaid c) s =
      .next (let t := payTokens s c r.price
        let u := putCell t c { t.cell c with reqs := rest, starveMade := false }
        payRequests (afterPay (wakePaid u r.pos (inDebt u c)) c) c rest.length))) ∧
  (d.ringFailed = true → idle (.ringStationStep die st)) ∧
  (d.ringFailed = false → exec (.ringStationStep die st) s =
    .next (let u := s.time - 1
      let k := stationCell die st
      let f := (st + 160 - u % 160) % 160
      let x := if st = 0 then adjust d (tget 0 d.flits f) else (d, tget 0 d.flits f)
      let y := if f = 0 then leadStep x.1 (s.cell k) st u x.2 else (x.1, s.cell k, x.2)
      let z := passStep y.1.cap u y.2.1 y.2.2
      putDie (putCell s k z.1) die { y.1 with flits := if z.2 = 0 then tdel y.1.flits f else tset y.1.flits f z.2 })) ∧
  (exec (.ballastRevolution die) s =
    .next (let need := if d.bwin = 0 then 0 else d.floor - d.paid
      let t := putDie s die { d with
        floor := if d.bwin = 0 then d.paid else Nat.max d.paid (d.floor - (d.btot + d.bwin - 1) / d.bwin)
        paid := 0, ballast := Nat.min need (dieCap s die), bwin := s.pkg.rampWindow, btot := d.total }
      if dieCap s die < need then postLog t { kind := 9, sinfo := 1#64, sval := word die, arg := need - dieCap s die } else t)) ∧
  (let warms := fun t => exec (.thermalWarn sensor temp) s = .next (if 110 ≤ temp then tripNow t sensor else t);
    (s.pkg.warn ≤ temp → s.pkg.warnMade = false → warms (postLog (s.setPkg { s.pkg with tmax := temp % 256, warnMade := true })
      { kind := 9, sinfo := 2#64, sval := word sensor, arg := temp % 256 })) ∧
    (s.pkg.warn ≤ temp → s.pkg.warnMade = true → warms (s.setPkg { s.pkg with tmax := temp % 256 })) ∧
    (temp < s.pkg.warn → temp + 5 ≤ s.pkg.warn → warms (s.setPkg { s.pkg with tmax := temp % 256, warnMade := false })) ∧
    (temp < s.pkg.warn → s.pkg.warn < temp + 5 → warms (s.setPkg { s.pkg with tmax := temp % 256 }))) ∧
  (s.pkg.dead = true → idle (.thermalTrip sensor)) ∧
  (s.pkg.dead = false → exec (.thermalTrip sensor) s =
    .next (s.setPkg { s.pkg with dead := true, trip := some sensor, bootErr := 0x10, attBusy := false })) ∧
  (let cs := railCells s die (decide (rail = 1));
    exec (.railFault die rail) s =
      .next ((dedup ((cs.filterMap (fun k => (s.cell k).block)).map (fun b => (s.block b).grid))).foldl
        (fun t g => contextKill t g { kind := 1, sinfo := 3#64 })
        (postLog (putRail s die rail true none) { kind := 9, sinfo := 3#64, sval := word (die % 4 * 256 + rail % 2), arg := cs.length }))) ∧
  (railIsHeld s die rail = true → railEnd s die rail = none → exec (.railReturnsToTolerance die rail) s =
    .next (postLog (putRail s die rail true (some (s.time + 1200000))) { kind := 9, sinfo := 4#64, sval := word (die % 4 * 256 + rail % 2) })) ∧
  (railIsHeld s die rail = false ∨ railEnd s die rail ≠ none → idle (.railReturnsToTolerance die rail)) ∧
  (∀ t, railEnd s die rail = some t → t ≤ s.time → exec (.railHoldEnd die rail) s = .next (putRail s die rail false none)) ∧
  ((∀ t, railEnd s die rail = some t → s.time < t) → idle (.railHoldEnd die rail)) ∧
  (12 ≤ stack ∨ stack ∈ s.pkg.badStacks → idle (.hbmSupplyFault stack)) ∧
  (stack < 12 → ¬stack ∈ s.pkg.badStacks → exec (.hbmSupplyFault stack) s =
    .next (s.setPkg { s.pkg with badStacks := stack :: s.pkg.badStacks })) ∧
  (level = 0 ∨ 3 < level → idle (.securityAlarm level source)) ∧
  (1 ≤ level → level ≤ 3 → exec (.securityAlarm level source) s =
    .next (let erase := inMask s.pkg.alarmErase (level - 1)
      let t := postLog (s.setPkg { s.pkg with alarmLevel := Nat.max s.pkg.alarmLevel level, erased := s.pkg.erased || erase })
        { kind := 10, sinfo := word level, sval := word source, arg := bCode erase }
      if level = 1 then t
      else (tkeys (t.grids.filter (fun e => e.2.live))).foldl (fun u g => contextKill u g { kind := 1, sinfo := word level }) t))

/-- R64, R171 to R177, R192 to R197, R396, R400, R435, R445 to R447, R471, R477 to R484: a block is placed or restored
(`dispatchPlace`), pre-empted as its quantum ends, or sits the next one out (`quantumExpiry`), its gangs are saved (`strandSave`), and it is
evicted, halted or migrated when its turn comes (`evictionComplete`, `haltSnapshotComplete`, `migrationComplete`), or its grid is killed where
the save meets uncorrectable data; a grid with nothing left to do completes (`gridComplete`); what has stood still for 2^24 cycles and what
cannot be paid is reported (`stallDetect`, `blockstallDetect`, `starveDetect`); and a record written whole to a bound window queues its
grid, or is refused with its reason (`launch`). Before its time an event changes nothing. (What a frame has no place for, spilled messages,
migration and the launch claim: notes/assumptions/29.md, 46.md, 47.md, 53.md and 62.md.) -/
def Obligations.BlocksAndGrids : Prop := ∀ (s : State) (b p c g l win off size : Nat) (rec : BitVec 512),
  let idle := fun (i : Instr) => exec i s = .next s
  let x := s.block b
  let q := s.grid x.grid
  let cells := blockCells s b
  let bad := ∃ k ∈ cells, cellBad s k = true
  (let t := claimLau (claimRet s);
    exec .dispatchPlace s = .next (match
        (if t.pkg.lastReturn then (tryLaunch t).orElse (fun _ => tryReturn t) else (tryReturn t).orElse (fun _ => tryLaunch t)) with
      | some u => u.setAgenda (Instr.dispatchPlace :: u.agenda)
      | none => t)) ∧
  (let goes := fun t => exec (.quantumExpiry b) s = .next t;
    let ends :=
      (waitingWork s = true → goes (preempt s b .evicting)) ∧
      (waitingWork s = false →
        let t := cells.foldl (fun t k => chargeQuota t q.q k) s
        let u := putBlock t b { t.block b with quantumEnd := t.time + quantumLen q }
        ((∀ k v, lowestQuota u cells = some (k, v) → 0 < v) →
          let w := putBlock u b { u.block b with satOut := 0, sitting := false }
          goes (if (w.block b).phase = .running then w else resumeBlock w b)) ∧
        (∀ k v, lowestQuota u cells = some (k, v) → v ≤ 0 →
          let n := (u.block b).satOut + 1
          goes (postLog (preempt (putBlock u b { u.block b with satOut := n }) b .sittingOut)
            { kind := 7, asid := q.asid, pkey := q.pkey, place := cellPlace u k, sinfo := 5#64, sval := BitVec.ofInt 64 v, arg := n,
              grid := (u.block b).grid })))
    (handling s b = true ∨ (x.phase ≠ .running ∧ x.phase ≠ .sittingOut) → idle (.quantumExpiry b)) ∧
    (handling s b = false →
      (∀ d, x.phase = .running → x.due = some d → goes (preempt s b d)) ∧
      ((x.phase = .running ∧ x.due = none) ∨ x.phase = .sittingOut → s.time < x.quantumEnd → idle (.quantumExpiry b)) ∧
      (x.phase = .running → x.due = none → x.quantumEnd ≤ s.time → ends) ∧
      (x.phase = .sittingOut → x.quantumEnd ≤ s.time →
        (16 ≤ x.satOut → goes (contextKill s x.grid { kind := 1, sinfo := 5#64 })) ∧ (x.satOut < 16 → ends)))) ∧
  (let k := cellOf l;
    ((s.cell k).block = none → idle (.strandSave l)) ∧
    ((s.cell k).block = some b →
      let ready := x.phase = .preempting ∧ frameHeld s b = false
      (¬ready → idle (.strandSave l)) ∧
      (ready → (s.str l).st = .saved → exec (.strandSave l) s = .next (savedCheck s b)) ∧
      (ready → (s.str l).st ≠ .saved → canSave s l = false → idle (.strandSave l)) ∧
      (ready → (s.str l).st ≠ .saved → canSave s l = true → exec (.strandSave l) s =
        .next (let t := withdraw (l1WriteBack s k) k (gangLanes s l)
          let u := modStrs t (gangLanes t l) (saveOne t.time)
          savedCheck (writeGangRecs u b ((placeIn u b k).getD 0) l) b)))) ∧
  (let ready := x.phase = .evicting ∧ deliveriesDone s b = true ∧ frameHeld s b = false;
    let goes := fun t => exec (.evictionComplete b) s = .next t;
    let r := spillAll s (heldBy s b)
    (¬ready → idle (.evictionComplete b)) ∧ (ready → bad → goes (killSave s b)) ∧
    (ready → ¬bad → r.2 = false → goes r.1) ∧
    (ready → ¬bad → r.2 = true → goes
      (let t := r.1
        let cs := blockCells t b
        let u := cs.zipIdx.foldl (fun u q => writeRecord (l1WriteBack u q.1) b q.2 q.1) t
        let v := cs.foldl (fun v k => clearCell v b k) (putBlock u b { u.block b with
          phase := .evicted, saved := cs.zipIdx.map (fun q => (q.2, keepCell u q.1)), bound := true })
        v.setPkg { v.pkg with returns := v.pkg.returns ++ [b] }))) ∧
  (let ready := x.phase = .halting ∧ haltReady s b = true;
    let goes := fun t => exec (.haltSnapshotComplete b) s = .next t
    (¬ready → idle (.haltSnapshotComplete b)) ∧ (ready → bad → goes (killSave s b)) ∧
    (ready → ¬bad → goes
      (let t := cells.zipIdx.foldl (fun t q => writeRecord (l1WriteBack t q.1) b q.2 q.1) s;
        postLog (putBlock t b { t.block b with phase := .halted })
          { kind := 3, asid := q.asid, pkey := q.pkey, sval := word x.b, sinfo := word (framePa s b), grid := x.grid }))) ∧
  (let goes := fun t => exec .migrationComplete s = .next t;
    let done := fun (t : State) => t.setPkg { t.pkg with migBusy := none }
    (s.pkg.migBusy = none → idle .migrationComplete) ∧
    (s.pkg.migBusy = some b →
      (x.phase = .gone → goes (done s)) ∧
      (x.phase ≠ .gone → x.phase ≠ .migrating ∨ deliveriesDone s b = false → idle .migrationComplete) ∧
      (x.phase = .migrating → deliveriesDone s b = true → bad → goes (done (killSave s b))) ∧
      (x.phase = .migrating → deliveriesDone s b = true → ¬bad →
        let dst := rectCells s.pkg.migTo.1 s.pkg.migTo.2 (gridW q) (gridH q)
        let moved := cells.zip dst
        let there := fun k => ((moved.find? (fun q => decide (q.1 = k))).map (·.2)).getD k
        let t1 := moved.foldl (fun t q => moveCell t b q.1 q.2) s
        let t2 := follow (putBlock t1 b { t1.block b with
          die := s.pkg.migTo.1, nw := s.pkg.migTo.2, bound := true, quantumEnd := t1.time + x.quantumLeft }) b there
        let t3 := dst.foldl (fun t k => bankCheck t k (decide (holdsGang t k ≠ (t.cell k).bank)) (heldIn t k)) t2
        let t4 := (heldBy t3 b).foldl (fun t q =>
          let o := ((moved.find? (fun z => decide (z.2 = cellOf q))).map (·.1)).getD (cellOf q)
          recheckSpilled t q (64 * o + posInCell q) (blockKey t b)) t3
        let t5 := if x.sitting = true then putBlock t4 b { t4.block b with phase := .sittingOut } else resumeBlock t4 b
        let removed := ∃ k ∈ dst, ∃ i ∈ x.slots, (t5.cell k).slotmask.getLsbD i = true
        (removed → goes (done (preempt t5 b .evicting))) ∧ (¬removed → goes (done t5))))) ∧
  (gridDone s g = false ∨ doneHeld s g = true → idle (.gridComplete g)) ∧
  (gridDone s g = true → doneHeld s g = false →
    exec (.gridComplete g) s = .next (addDone (putGrid s g { s.grid g with live := false }) g)) ∧
  (let due := isParked (s.str p) = true ∧ (s.str p).stallMade = false ∧ 2 ^ 24 ≤ parkedTime s (s.str p);
    (¬due → idle (.stallDetect p)) ∧
    (due → exec (.stallDetect p) s =
      .next (postSq (modStr s p (fun u => { u with stallMade := true })) (cellOf p) { recAt s p 7 with
        addr := (s.str p).pc, sinfo := 1#64, sval := word (parkCode (s.str p).park), arg := Nat.min (parkedTime s (s.str p)) (2 ^ 32 - 1) }))) ∧
  (let due := onCells x.phase = true ∧ x.stallMade = false ∧ 2 ^ 24 ≤ s.time - x.lastIssue;
    (¬due → idle (.blockstallDetect b)) ∧
    (due → exec (.blockstallDetect b) s = .next (postLog (putBlock s b { x with stallMade := true })
      { recAt s (64 * (x.die * 160 + x.nw) + 16 * x.slots.headD 0) 7 with
        sinfo := 2#64, sval := word x.b, arg := (heldBy s b).countP (fun q => decide (liveSt (s.str q) ≠ .retired)) }))) ∧
  ((s.cell c).reqs = [] → idle (.starveDetect c)) ∧
  (∀ r rest, (s.cell c).reqs = r :: rest →
    let bad := decide ((s.die (dieOf c)).total < r.price ∨ (s.die (dieOf c)).cap < r.price)
    let t := putCell s c { s.cell c with reqs := { r with judged := true, unpayable := bad } :: rest, starveMade := false }
    let due := r.unpayable = false ∧ (s.cell c).starveMade = false ∧
      starveFrom s c r + starveBound (s.die (dieOf c)).retain < s.time
    (r.judged = false → exec (.starveDetect c) s = .next (if bad then postLog t (starveRec s c 4 r) else t)) ∧
    (r.judged = true → ¬due → idle (.starveDetect c)) ∧
    (r.judged = true → due →
      exec (.starveDetect c) s = .next (postLog (putCell s c { s.cell c with starveMade := true }) (starveRec s c 3 r)))) ∧
  (let r := rec.toNat;
    let w := (tget 0#64 s.pkg.lwbind win).toNat
    let prio := Nat.min (recPrio r) (field w 48 3)
    let goes := fun t => exec (.launch win off size rec) s = .next t
    let whole := size = 64 ∧ off = 0
    let bound := 2 ^ 63 ≤ w ∧ s.pkg.alarmLevel < 3
    let same := recAsid r = w % 65536 ∧ (recPkey r).toNat = field w 32 16
    let dw := word (recDw r 0)
    (s.pkg.stage < 6 → idle (.launch win off size rec)) ∧
    (6 ≤ s.pkg.stage →
      (¬whole → goes (launchRefused s win 1 0#64)) ∧
      (whole → ¬bound → goes (launchRefused s win 2 dw)) ∧
      (whole → bound → ¬same → goes (launchRefused s win 3 dw)) ∧
      (whole → bound → same → recordOk s r (recAsid r) prio = false → goes (launchRefused s win 4 dw)) ∧
      (whole → bound → same → recordOk s r (recAsid r) prio = true →
        goes (queueGrid s (gridOf r (recAsid r) (recPkey r) prio)))))

/-- R183, R186, R195 to R197, R391 to R395, R401 to R405, R495, R504, R507 to R511: a reset (`packageReset`, `rstctlGo`); a stage of the boot,
which goes on or fails with a code (`bootStageComplete`); a write to a register of the device once STAGE 6 serves it (`attctlGo`, `migcmdGo`,
`railselWrite`, `slotmaskWrite`, `cfenceWrite`, `ringcfgWrite`, `fabcfgWrite`, `registerWrite`), which has no effect before; and the end of
what a register has started (`attestationReportDone`, `railSwitchComplete`). (When work ends is the model's own schedule, a field of the
state: notes/assumptions/7.md. The offsets of the mailbox registers and when they are served are the model's: 13.md; the images, and the code with which
STAGE 3 fails: 3.md; what a reset keeps: 68.md; the bytes of a report: 64.md.) -/
def Obligations.DeviceRegisters : Prop := ∀ (s : State) (v : Word) (c die off : Nat) (code : BitVec 8),
  let on := s.pkg.stage = 6
  let idle := fun (i : Instr) => exec i s = .next s
  exec .packageReset s = .next (resetAll s) ∧
  (on → v.getLsbD 0 = true → exec (.rstctlGo v) s = .next (resetAll s)) ∧
  (¬on ∨ v.getLsbD 0 = false → idle (.rstctlGo v)) ∧
  (let n := s.pkg.stage;
    let stopped := on ∨ s.pkg.dead = true ∨ (s.pkg.bootErr ≠ 0 ∧ s.pkg.bootErr ≠ 16)
    let fails := fun k => exec (.bootStageComplete code) s = .next (s.setPkg { s.pkg with bootErr := k })
    let image := fun (m : FwImage) (sig version : Nat) =>
      (imgRefused m sig version = 0 → exec (.bootStageComplete code) s = .next (s.setPkg { s.pkg with stage := n + 1 })) ∧
      (imgRefused m sig version ≠ 0 → fails (imgRefused m sig version))
    (stopped → idle (.bootStageComplete code)) ∧
    (¬stopped →
      (n = 2 → image Config.bootImage 1 2) ∧ (n = 4 → image Config.devImage 4 5) ∧
      (n = 3 → code = 3#8 → fails 3) ∧
      (n ≠ 2 → n ≠ 4 → ¬(n = 3 ∧ code = 3#8) → exec (.bootStageComplete code) s =
        .next (s.setPkg { s.pkg with stage := n + 1, bootErr := if n = 5 then 0 else s.pkg.bootErr })))) ∧
  (∀ (m : FwImage) (sig version : Nat),
    let signed := imgForm m.bytes = true ∧ Config.ecdsaOk m.key (Config.sha512 (imgSigned m.bytes)) (imgSig m.bytes) = true ∧
      Config.sha512 (keyBytes m.key) = Config.keyHash
    (¬signed → imgRefused m sig version = sig) ∧
    (signed → imgVersion m.bytes < Config.minVersion.toNat → imgRefused m sig version = version) ∧
    (signed → Config.minVersion.toNat ≤ imgVersion m.bytes → imgRefused m sig version = 0)) ∧
  (¬on → idle (.attctlGo v) ∧ idle (.migcmdGo v) ∧ idle (.railselWrite c v) ∧ idle (.slotmaskWrite c v) ∧ idle (.cfenceWrite c v) ∧
    idle (.ringcfgWrite die v) ∧ idle (.fabcfgWrite v) ∧ (off < mailbox → idle (.registerWrite off v))) ∧
  (on → s.pkg.attBusy = true → idle (.attctlGo v)) ∧
  (on → s.pkg.attBusy = false →
    let t := s.setPkg { s.pkg with attBuf := v &&& 0xFFFFFFFFFF000#64 }
    (v.getLsbD 63 = false → exec (.attctlGo v) s = .next t) ∧
    (v.getLsbD 63 = true → tableLoc t.pkg.attBuf.toNat = none → exec (.attctlGo v) s = .next (alarm t 1 0)) ∧
    (v.getLsbD 63 = true → tableLoc t.pkg.attBuf.toNat ≠ none →
      exec (.attctlGo v) s = .next (t.setPkg { t.pkg with attBusy := true, attDue := s.time + s.pace.fabric }))) ∧
  (s.pkg.attBusy = false → idle .attestationReportDone) ∧
  (s.pkg.attBusy = true → tableLoc s.pkg.attBuf.toNat = none →
    exec .attestationReportDone s = .next (s.setPkg { s.pkg with attBusy := false })) ∧
  (∀ a, s.pkg.attBusy = true → tableLoc s.pkg.attBuf.toNat = some a →
    (s.pkg.hostUp = false ∧ 2 ^ 50 ≤ s.pkg.attBuf.toNat → idle .attestationReportDone) ∧
    (s.pkg.hostUp = true ∨ s.pkg.attBuf.toNat < 2 ^ 50 → exec .attestationReportDone s =
      .next (let t := writeDwords s a ((List.range 52).map (fun i => field (reportBytes s) (64 * i) 64))
        t.setPkg { t.pkg with attBusy := false }))) ∧
  (on →
    (let t := s.setPkg { s.pkg with migcmd := v &&& 0xFFFFF000#64 };
      let k := blockAtCorner s (field v.toNat 30 2) (field v.toNat 22 8)
      let why := migRefused s k (field v.toNat 20 2) (field v.toNat 12 8)
      (v.getLsbD 63 = false → exec (.migcmdGo v) s = .next t) ∧
      (∀ r, v.getLsbD 63 = true → why = some r →
        exec (.migcmdGo v) s = .next (postLog t { kind := 9, sinfo := 5#64, sval := word v.toNat, arg := r })) ∧
      (∀ b, v.getLsbD 63 = true → why = none → k = some b →
        let u := t.setPkg { t.pkg with migBusy := some b, migTo := (field v.toNat 20 2, field v.toNat 12 8) }
        exec (.migcmdGo v) s =
          .next (preempt (putBlock u b { u.block b with quantumLeft := (u.block b).quantumEnd - u.time }) b .migrating))) ∧
    (c < 640 → (s.cell c).railTo ≠ none ∨ v.getLsbD 0 = (s.cell c).high → idle (.railselWrite c v)) ∧
    (c < 640 → (s.cell c).railTo = none → v.getLsbD 0 ≠ (s.cell c).high → exec (.railselWrite c v) s =
      .next (putCell s c { s.cell c with cycBase := cyc s c, railTo := some (v.getLsbD 0), railDue := s.time + s.pace.rail })) ∧
    (c < 640 → exec (.slotmaskWrite c v) s =
      .next (let t := putCell s c { s.cell c with slotmask := BitVec.ofNat 4 v.toNat }
        match (s.cell c).block with
        | some b => if (s.block b).slots.any (fun k => (BitVec.ofNat 4 v.toNat &&& ~~~(s.cell c).slotmask).getLsbD k) then preempt t b .evicting else t
        | none => t)) ∧
    (c < 640 → v.getLsbD 0 = false → exec (.cfenceWrite c v) s = .next (putCell s c { s.cell c with fenced := false })) ∧
    (c < 640 → v.getLsbD 0 = true → exec (.cfenceWrite c v) s =
      .next (let t := putCell s c { s.cell c with fenced := true }
        let out := t.pkg.returns.filter (fun b => (t.block b).bound && (blockCells t b).any (fun d => (t.cell d).fenced))
        let u := out.foldl (fun w b => putBlock w b { w.block b with bound := false }) t
        u.setPkg { u.pkg with
          returns := out ++ u.pkg.returns.filter (fun b => !out.contains b)
          retClaim := match u.pkg.retClaim with | some r => if out.contains r.1 then none else some r | none => none })) ∧
    (640 ≤ c → idle (.railselWrite c v) ∧ idle (.slotmaskWrite c v) ∧ idle (.cfenceWrite c v)) ∧
    (4 ≤ die → idle (.ringcfgWrite die v)) ∧
    (die < 4 → exec (.ringcfgWrite die v) s =
      .next (let d := s.die die
        let m := field v.toNat 32 16
        let e := if d.total ≤ m then { d with deficit := d.deficit - (m - d.total), inject := d.inject + ((m - d.total) - d.deficit) }
          else { d with inject := d.inject - (d.total - m), deficit := d.deficit + ((d.total - m) - d.inject) }
        putDie s die { e with total := m, cap := field v.toNat 16 16, retain := v.toNat % 65536, wrote := s.time })) ∧
    (exec (.fabcfgWrite v) s =
      .next (let t := s.setPkg { s.pkg with fabEn := v.getLsbD 63, pkgnum := if s.pkg.fabEn then s.pkg.pkgnum else field v.toNat 32 9 }
        if v.getLsbD 63 = s.pkg.fabEn then t else (List.range 32).foldl (fun u n => portTo u n (if v.getLsbD 63 then 4 else 0)) t)) ∧
    (s.pkg.dead = false →
      exec (.registerWrite 0x18 v) s = .next (s.setPkg { s.pkg with asidtab := v &&& 0xFFFFFFFFFF000#64 }) ∧
      ((off = 0x40 ∨ off = 0x48 ∨ off = 0x50 ∨ off = 0x58 ∨ off = 0x60 ∨ off = 0x68 ∨ off = 0x70 ∨ off = 0x78) →
        exec (.registerWrite off v) s = .next (s.setPkg { s.pkg with lqcfg := tset s.pkg.lqcfg ((off - 0x40) / 8) (v.toNat % 16) })) ∧
      (0x20000 ≤ off → off < 0x28000 → off % 8 = 0 → exec (.registerWrite off v) s =
        .next (s.setPkg { s.pkg with lwbind := tset s.pkg.lwbind ((off - 0x20000) / 8) (v &&& 0x8007FFFF0000FFFF#64) })) ∧
      (0x400000 ≤ off → off < 0x800000 → off % 8 = 0 → exec (.registerWrite off v) s = .next (s.setPkg { s.pkg with
        dcap := tset s.pkg.dcap ((off - 0x400000) / 8) (if v.getLsbD 62 then v else v &&& ~~~0x3000000#64) })))) ∧
  (s.pkg.dead = true → off ≠ 0x10 → idle (.registerWrite off v)) ∧
  (s.pkg.dead = false → mailbox ≤ off → mailServed s.pkg (off - mailbox) = false → idle (.registerWrite off v)) ∧
  ((s.cell c).railTo = none ∨ s.time < (s.cell c).railDue → idle (.railSwitchComplete c)) ∧
  (∀ h, (s.cell c).railTo = some h → (s.cell c).railDue ≤ s.time → exec (.railSwitchComplete c) s =
    .next (let t := putCell s c { s.cell c with high := h, railTo := none, cycBase := (s.cell c).cycBase + 24, cycAt := s.time }
      match (s.cell c).block with
      | some b => killHeld t b
      | none => t))

/-- R120, R390, R406, R407, R472, R496 to R502: a flit is served, answered or discarded (`flitReceive`); a timer sends a request again, by
another plane where its own has failed (`e2eRetry`); ports lose lanes, train and go down (`laneErase`, `portTrainingDone`,
`switchPlaneLoss`); a hop that fails sixteen times has failed (`hopRetry`); the host link goes down and comes up (`hostLinkDown`, `hostLinkUp`);
and the host reads and writes the memory of the package and its own (`hostMemoryAccess`, `hostCxlCacheRequest`). An event that finds nothing to do
changes nothing. (What R407 leaves open of a flit, unreachable packages and failed hops are the model's: notes/assumptions/12.md, 23.md, 66.md
and 69.md.) -/
def Obligations.FabricAndHost : Prop := ∀ (s : State) (port lane plane tag die hop dir a n : Nat) (kind : HopKind) (f : BitVec 512) (op : AmoOp)
    (w : Bool) (data : BitVec 512) (sector : BitVec 256),
  let x := portOf s port
  let idle := fun (i : Instr) => exec i s = .next s
  (let goes := fun t => exec (.flitReceive port f op) s = .next t;
    let ty := flitType f
    let answers := ty = 2 ∨ ty = 4 ∨ ty = 6
    let known := fun (q : Served) => q ∈ s.pkg.served ∧ q.src = flitSrc f ∧ q.tag = flitTag f ∧ s.time < q.time + 4 * s.pkg.e2etime
    (s.pkg.fabEn = false ∨ portUp x = false ∨ s.pkg.dead = true → goes s) ∧
    (s.pkg.fabEn = true → portUp x = true → s.pkg.dead = false →
      (flitGood f = false → goes (putPort s port { x with replays := x.replays + 1 })) ∧
      (flitGood f = true → flitDst f ≠ s.pkg.pkgnum → goes s) ∧
      (flitGood f = true → flitDst f = s.pkg.pkgnum →
        (answers → tfind s.pkg.reqs (reqKey (flitSrc f) (flitTag f)) = none → goes s) ∧
        (∀ q, answers → tfind s.pkg.reqs (reqKey (flitSrc f) (flitTag f)) = some q →
          goes (completeReq s (reqKey q.dst (flitTag q.flit)) q (flitData f)
            (if flitMask f = 0#32 ∧ flitMask q.flit ≠ 0#32 then some ((flitData f).toNat % 256) else none))) ∧
        (¬answers → (∃ q, known q) → ∃ q, known q ∧ goes (sendOn s port q.reply)) ∧
        (¬answers → (∀ q, ¬known q) →
          (ty = 1 ∨ ty = 3 ∨ ty = 5 → goes (serveMemory s port f op)) ∧ (ty = 7 → goes (serveDelivery s port f)) ∧
          (ty = 8 → goes (serveMessage s port f)) ∧ (ty = 9 → goes (replyWith s port f 4 0#256 (BitVec.allOnes 32))) ∧
          (ty = 10 → goes (serveNotice s port f)) ∧ (ty = 0 ∨ 11 ≤ ty → goes s))))) ∧
  (tfind s.pkg.reqs tag = none → idle (.e2eRetry tag)) ∧
  (∀ q, tfind s.pkg.reqs tag = some q →
    (s.time < q.due ∨ q.held = true → idle (.e2eRetry tag)) ∧
    (q.due ≤ s.time → q.held = false →
      let t := if 3 ≤ q.resends ∧ (q.dst, q.plane) ∉ s.pkg.unusable then
          postLog (s.setPkg { s.pkg with unusable := (q.dst, q.plane) :: s.pkg.unusable }) (linkRec 5 q.dst q.plane) else s
      (∀ m, resendPlane t q = some m → exec (.e2eRetry tag) s = .next (sendOn (t.setPkg { t.pkg with reqs := tset t.pkg.reqs tag { q with
          plane := m, resends := if m = q.plane then q.resends + 1 else 1, due := t.time + t.pkg.e2etime } }) m q.flit)) ∧
      (resendPlane t q = none → trainsFor t q.dst = true → exec (.e2eRetry tag) s =
        .next (t.setPkg { t.pkg with reqs := tset t.pkg.reqs tag { q with due := t.time + t.pkg.e2etime } })) ∧
      (resendPlane t q = none → trainsFor t q.dst = false → exec (.e2eRetry tag) s = .next (failAll t q.dst)))) ∧
  (32 ≤ port ∨ 5 ≤ lane ∨ x.elanes.getLsbD lane = true → idle (.laneErase port lane)) ∧
  (port < 32 → lane < 5 → x.elanes.getLsbD lane = false → exec (.laneErase port lane) s =
    .next (let t := putPort s port { x with elanes := x.elanes ||| BitVec.ofNat 5 (2 ^ lane) }
      if x.state = 1 then portTo t port 2 else if x.state = 2 then portTo t port 4 else if x.state = 3 then portTo t port 0 else t)) ∧
  (x.state ≠ 4 → idle (.portTrainingDone port)) ∧
  (x.state = 4 → exec (.portTrainingDone port) s =
    .next (let best := if lanesLost x = 0 then 1 else if lanesLost x = 1 then 2 else if lanesLost x = 2 then 3 else 0
      let t := portTo (putPort s port { x with queue := [] }) port best
      if best = 0 then t else x.queue.foldl (fun u y => sendOn u port y) t)) ∧
  (32 ≤ plane ∨ plane ∈ s.pkg.lostPlanes → idle (.switchPlaneLoss plane)) ∧
  (plane < 32 → plane ∉ s.pkg.lostPlanes → exec (.switchPlaneLoss plane) s =
    .next (portTo (s.setPkg { s.pkg with lostPlanes := plane :: s.pkg.lostPlanes }) plane 0)) ∧
  ((kind, die, hop, dir) ∈ s.pkg.failedHops → idle (.hopRetry kind die hop dir w)) ∧
  ((kind, die, hop, dir) ∉ s.pkg.failedHops →
    exec (.hopRetry kind die hop dir true) s = .next (putTries s kind die hop dir 0) ∧
    (hopTriesOf s kind die hop dir + 1 < 16 →
      exec (.hopRetry kind die hop dir false) s = .next (putTries s kind die hop dir (hopTriesOf s kind die hop dir + 1))) ∧
    (16 ≤ hopTriesOf s kind die hop dir + 1 → exec (.hopRetry kind die hop dir false) s =
      .next (let t := putTries s kind die hop dir 0
        let u := t.setPkg { t.pkg with failedHops := (kind, die, hop, dir) :: t.pkg.failedHops }
        postLog (match kind with | .ring => putDie u die { u.die die with ringFailed := true } | _ => u)
          (linkRec 7 (dir % 4 * 1024 + die % 4 * 256 + hop % 256) 16)))) ∧
  (s.pkg.hostUp = false → idle .hostLinkDown) ∧ (s.pkg.hostUp = true → idle .hostLinkUp) ∧
  (s.pkg.hostUp = true → exec .hostLinkDown s = .next (postLog (s.setPkg { s.pkg with hostUp := false }) (linkRec 8 0 0))) ∧
  (s.pkg.hostUp = false → exec .hostLinkUp s = .next (postLog
    (s.pkg.heldRecs.foldl putLog (s.setPkg { s.pkg with hostUp := true, heldRecs := [] })) (linkRec 9 0 (s.pkg.heldRecs.length + heldAccesses s)))) ∧
  (let reached := hostReaches s = true ∧ n ≤ 64 ∧ a + n ≤ 0xC000000000;
    (¬reached → idle (.hostMemoryAccess w a n data true) ∧ idle (.hostMemoryAccess w a n data false)) ∧
    (reached →
      exec (.hostMemoryAccess true a n data true) s = .next (hostErr s 0x0A a n) ∧
      exec (.hostMemoryAccess true a n data false) s =
        .next ((hostPieces a n).foldl (fun t q => hostPiece t (a + q.1) q.2 (field data.toNat (8 * q.1) (8 * q.2))) s) ∧
      exec (.hostMemoryAccess false a n data w) s = .next (s.setPkg { s.pkg with
        hostData := BitVec.ofNat 512 ((hostPieces a n).foldl (fun k q =>
          match hostBad s (locPlace0 (a + q.1)) with
          | some _ => k
          | none => k + rd s (locPlace0 (a + q.1)) q.2 * 2 ^ (8 * q.1)) 0) }))) ∧
  (hostReaches s = false ∨ 2 ^ 49 ≤ a ∨ w = false → idle (.hostCxlCacheRequest a w sector)) ∧
  (hostReaches s = true → a < 2 ^ 49 → ∃ t, exec (.hostCxlCacheRequest a true sector) s = .next t ∧
    (∀ i, i < 32 → byteAt t (locHost (a / 32 * 32) + i) = BitVec.ofNat 8 (secGet sector i 1)) ∧
    ∀ y, y < locHost (a / 32 * 32) ∨ locHost (a / 32 * 32) + 32 ≤ y → byteAt t y = byteAt s y)

/-! ### When a bundle does not issue -/

/-- R46, R47, R62, R189: while a register of a word is pending every lane of the issuer parks with reason DATA, and a priced word that the
pocket does not cover, or that comes after an unpaid request, parks TOKEN and adds its request in order of age, slot and pipe. The lanes stay at
their bundle, and nothing else changes. -/
def Obligations.BundlesPark : Prop := ∀ (gd : Guard) (d a b : GReg) (t : IntTy) (x y z : Fin 16) (m : Rm) (f : FTy) (s : State),
  let parked := fun (r : Park) (u : State) =>
    (∀ p ∈ s.cur.lanes, (u.str p).park = r ∧ (u.str p).pc = (s.str p).pc ∧
      (u.str p).st = if (s.str p).st = .supervisor then .supervisor else .parked) ∧
    ∀ p, p ∉ s.cur.lanes → u.str p = s.str p
  let pending := fun (i : Instr) => (∃ p ∈ s.cur.lanes, pendingFor s p (.p p gd.p.val) = true) ∨
    ∃ p ∈ actingLanes s gd, ∃ r ∈ srcs i ++ dests i, pendingFor s p (regId s.cur.leader p r) = true
  let waits := fun (i : Instr) => pending i → ∃ u, exec i s = .next u ∧ parked .data u ∧ u.setStrands s.strands = s
  waits (.add gd d a b t) ∧ waits (.vadd gd m x y z f) ∧ waits (.callx gd a) ∧
  (RegsLanded s gd (.vadd gd m x y z f) → actingLanes s gd ≠ [] → (s.str (curPos s)).paid = false →
    let price := Nat.min 64 (actingLanes s gd).length
    let c := curCell s
    let q : TokReq :=
      { age := cyc s c, die := s.time, slot := slotOf (curPos s), pipe := pipeOf (curPos s), price := price, pos := curPos s }
    (s.cell c).reqs ≠ [] ∨ (s.cell c).pocket < price →
      ∃ u, exec (.vadd gd m x y z f) s = .next u ∧ parked .token u ∧ (u.setStrands s.strands).setCells s.cells = s ∧
        (∀ k, k ≠ c → u.cell k = s.cell k) ∧
        u.cell c = { s.cell c with reqs := insReq q (s.cell c).reqs })

/-- R430, R434, R439, R451, R458, R459, R436: a precise fault. A privileged word outside single-lane mode, whatever its guard, and a `brx` whose
target is no word address, have no effect: the lowest lane of the faulting mask enters the handler at TRAPENTRY with BA in SRET, the other
lanes of the gang are FROZEN at their PCs, and no register and no byte of memory changes. In single-lane mode the fault ends the context. -/
def Obligations.PreciseFaultsTrap : Prop := ∀ (gd : Guard) (d a b : GReg) (s : State) (p : Nat),
  let lead := s.cur.leader
  let traps := fun (i : Instr) (ls : List Nat) (cause code : Nat) (sval : Word) =>
    ∃ u, exec i s = .next u ∧
      (u.str p).st = .supervisor ∧ (u.str p).park = .none ∧ (u.str p).pc = 0xFFFFFFFFC0000000#64 ∧ (u.str p).sret = s.cur.ba ∧
      (u.str p).scause = word ((p - lead) * 2 ^ 12 + cause) ∧ (u.str p).sval = sval ∧
      (u.str p).sinfo = word (laneMask lead ls % 2 ^ 16 * 2 ^ 16 + code * 2 ^ 8) ∧
      (∀ q ∈ gangLanes s lead, q ≠ p → (u.str q).pc = (s.str q).pc ∧ ((s.str q).st ≠ .free → (u.str q).st = .frozen)) ∧
      u.gang lead = { s.gang lead with handler := some p } ∧ (∀ l, l ≠ lead → u.gang l = s.gang l) ∧
      (u.setStrands s.strands).setGangs s.gangs = s
  (s.cur.sup = false → p ∈ s.cur.lanes → (∀ q ∈ s.cur.lanes, p ≤ q) →
    ∀ i ∈ [Instr.sysret gd, .halt gd, .kill gd a, .tlbinvAll gd, .tlbinvAsid gd a, .tlbinvPage gd a b, .cinv gd a b, .probe gd d a],
      traps i s.cur.lanes 3 1 (word s.cur.word.toNat)) ∧
  (let bad := (actingLanes s gd).filter (fun q => decide ((rdReg s q a).toNat % 4 ≠ 0));
    RegsLanded s gd (.brx gd a) → (∀ q ∈ actingLanes s gd, q ∉ bad → canonical (rdReg s q a) = true) → p ∈ bad → (∀ q ∈ bad, p ≤ q) →
      (s.cur.sup = false → traps (.brx gd a) bad 4 1 (rdReg s p a)) ∧
      (s.cur.sup = true → ∃ u, exec (.brx gd a) s =
        .next (doubleFault u p s.cur.ba 4 (rdReg s p a) (word (laneMask lead bad % 2 ^ 16 * 2 ^ 16 + 2 ^ 8))) ∧
        u.setStrands s.strands = s))

/-! ### Registers that read constants, and views -/

/-- R204, R207: g0 reads zero and p0 reads true, and writes to them are discarded; any other register holds what is written to it. -/
def Obligations.RegistersHoldValues : Prop := ∀ (s : State) (p n q m : Nat) (v : Word) (b : Bool),
  rdG s p 0 = 0#64 ∧ rdP s p 0 = true ∧ wrG s p 0 v = s ∧ wrP s p 0 b = s ∧
  (0 < n → n < 32 → m < 32 →
    rdG (wrG s p n v) q m = (if q = p ∧ m = n then v else rdG s q m) ∧ rdH (wrH s p n v) q m = if q = p ∧ m = n then v else rdH s q m) ∧
  (0 < n → n < 8 → m < 8 → rdP (wrP s p n b) q m = if q = p ∧ m = n then b else rdP s q m) ∧
  (n < 32 → m < 32 → rdG (wrH s p n v) q m = rdG s q m ∧ rdH (wrG s p n v) q m = rdH s q m)

/-- R93, R94, R440: LSTATE, PATHMAP and POSn, which no `wrsr` writes. Field Li of LSTATE is the mode of lane i, ABSENT above the gang's
size; Li of PATHMAP is the path of a lane in a path and zero otherwise; POSn holds GEN, the park reason and the state of position n. -/
def Obligations.LaneAndPositionViews : Prop := ∀ (s : State) (p i n k : Nat),
  let lead := leaderOf s p
  let mode := (s.str (lead + i)).lmode
  let li := fun r => field (srView s p r).toNat (4 * i) 4
  let q := s.str (64 * cellOf p + n)
  let pos := fun lo len => field (srView s p (0x140 + n)).toNat lo len
  srnRead 0x012 = some false ∧ srnWrite 0x012 = none ∧ srnRead 0x013 = some false ∧ srnWrite 0x013 = none ∧
  (i < 16 →
    (2 ^ glogOf (s.str lead) ≤ i → li 0x012 = 4 ∧ li 0x013 = 0) ∧
    (i < 2 ^ glogOf (s.str lead) →
      (mode = .inPath k → k < 16 → li 0x012 = 0 ∧ li 0x013 = k) ∧
      (mode = .detached → li 0x012 = 1 ∧ li 0x013 = 0) ∧ (mode = .retired → li 0x012 = 2 ∧ li 0x013 = 0) ∧
      (mode = .hollow → li 0x012 = 3 ∧ li 0x013 = 0) ∧ (mode = .absent → li 0x012 = 4 ∧ li 0x013 = 0) ∧
      (mode = .waiting k → k < 8 → li 0x012 = 8 + k ∧ li 0x013 = 0))) ∧
  (n < 64 → srnWrite (0x140 + n) = none ∧
    pos 24 40 = 0 ∧ pos 16 8 = q.gen.toNat ∧ pos 12 4 = 0 ∧ pos 8 4 = parkCode q.park ∧ pos 3 5 = 0 ∧ pos 0 3 = stCode q.st)

/-- R490, R491: PEND saturates at the ends of its 32 bits. A `tbexp` that would raise it above 2^31 - 1, or a byte count that would lower
it below -2^31, leaves it there, sets ERR and makes a PENDRANGE record; any other leaves the exact sum. A barrier with VALID = 1, REMAIN = 0 and
PEND < 0 at the end-of-cycle test sets ERR and makes an OVERRUN record, and its phase completes only if PEND is zero. Each record is made once
in a phase (R476). -/
def Obligations.BarrierCountsKeepTheirLimits : Prop := ∀ (s : State) (c k : Nat) (n : Int) (e : Bool) (pos : Option (Nat × Word)),
  let x := barOf (s.cell c) k
  let y := fun (t : State) => barOf (t.cell c) k
  (-(2 ^ 31 : Int) ≤ x.pend + n → x.pend + n ≤ 2 ^ 31 - 1 → tbPend s c k n e pos = putBar s c k { x with pend := x.pend + n, err := x.err || e }) ∧
  (2 ^ 31 - 1 < x.pend + n → (y (tbPend s c k n e pos)).pend = 2 ^ 31 - 1 ∧ (y (tbPend s c k n e pos)).err = true) ∧
  (x.pend + n < -(2 ^ 31 : Int) → (y (tbPend s c k n e pos)).pend = -(2 ^ 31) ∧ (y (tbPend s c k n e pos)).err = true) ∧
  (∀ v, (2 ^ 31 - 1 < x.pend + n ∧ v = 2 ^ 31 - 1) ∨ (x.pend + n < -(2 ^ 31 : Int) ∧ v = -(2 ^ 31)) →
    let z := { x with pend := v, err := true }
    let t := putBar s c k { z with pendRange := true }
    tbPend s c k n e pos = if x.pendRange then t else postSq t c (barRec t c k 10 pos z)) ∧
  (x.valid = true → x.remain = 0 → x.pend < 0 →
    let z := { x with err := true, before := x.arrived }
    let t := putBar s c k { z with overrun := true }
    tbTest s c k = if x.overrun then t else postSq t c (barRec t c k 11 none z)) ∧
  (x.valid = true → x.remain = 0 → x.pend ≠ 0 → (y (tbTest s c k)).phase = x.phase) ∧
  (x.valid = true → x.remain = 0 → x.pend = 0 → (y (tbTest s c k)).phase = !x.phase)

/-! ### The encoding, a step, and the whole machine -/

/-- R198, R202, R210 to R216: for every well-formed instruction with a word, of either class and with every operand at every value its
encoding admits, the decoder reads the instruction back from that word. -/
def Obligations.DecodeOfEncode : Prop := ∀ i : Instr, Sys2Proof.Laws.RoundTrip.Statement i

/-- Words that the spec writes out, with what they stand for (R257, R290, R315, R341, R387, R427, R521). -/
def Obligations.SpecWords : Prop :=
  let always : Guard := ⟨false, 0⟩
  let g := fun (n : Fin 32) => (⟨.g, n⟩ : GReg)
  decodeWord 0x4101078A = .ok (.sub always (g 4) (g 7) ⟨.h, 2⟩ .i64) ∧
  decodeWord 0x5100C3FD = .ok (.addi always (g 3) (g 3) 63#6 .n32) ∧
  decodeWord 0x5D148108 = .ok (.cmp ⟨false, 1⟩ .lt 2 (g 1) (g 2) .i32) ∧
  decodeWord 0x6001451B = .ok (.shflMir always (g 5) (g 5) (g 6)) ∧
  decodeWord 0x04033FF0 = .ok (.dbnz always (g 12) (BitVec.ofInt 14 (-16))) ∧
  decodeWord 0x0500C003 = .ok (.jwait always 3) ∧
  decodeWord 0x08000408 = .ok (.spawn always (g 4) 2) ∧
  decodeWord 0x65024AAD = .ok (.fma always .rz 9 10 11 .f64) ∧
  decodeWord 0x7D014141 = .ok (.xget always (g 5) 1 true .rn) ∧
  decodeWord 0x6E008350 = .ok (.vfma always .rs 2 3 4 .f32) ∧
  decodeWord 0x7E0A4416 = .ok (.mma always (some .die) .e4m3 1 4 5) ∧
  decodeWord 0x0900C4F5 = .ok (.ld always (g 3) (g 4) true (BitVec.ofInt 5 (-3)) .b2) ∧
  decodeWord 0x1208C250 = .ok (.gat always (some .die) 3 (g 2) 4 false) ∧
  decodeWord 0x18010AA6 = .ok (.cas always (g 4) (g 10) true (.acq .die)) ∧
  decodeWord 0x1D09820E = .ok (.tld always (some .die) 6 2 3) ∧
  decodeWord 0x2300850E = .ok (.recvt always 2 (g 5) 3) ∧
  decodeWord 0x2901400C = .ok (.rdsr always (g 5) 0x003#12) ∧
  decodeWord 0x07900003 = .ok (.stop ⟨true, 1⟩)

/-- R44, R65, R78, R198 to R200, R203, R433, R452, R468: a step runs what falls due next. The first event of the agenda runs as its own
instruction, if it is well formed; with none, the issuers of the die cycle are listed; once they are, the next issuer's bundle is fetched at its
PC: a lone word runs as the instruction that it decodes to, with BA at that PC and NBA four bytes on, and a pair runs its two words as one, with
NBA eight bytes on; a word that decodes to nothing, or a fetch that fails, is a fault of every lane of the issuer; a fetch that must wait
parks them; an issuer that may not issue is passed over; and with no issuer left the cycle ends. (The order of the steps of a die cycle is the model's:
notes/assumptions/1.md.) -/
def Obligations.StepRunsDecoded : Prop := ∀ (s : State) (q : Nat) (rest : List Nat) (ls : List Nat) (w0 w1 : Nat),
  let u := (s.setQueue rest).setCur {
    lanes := ls, leader := leaderOf s q, ba := (s.str q).pc, nba := (s.str q).pc + 4#64
    path := match (s.str q).lmode with | .inPath _ => true | _ => false
    sup := decide ((s.str q).st = .supervisor) }
  let slot := (s.str q).pc.getLsbD 2
  (∀ e r, s.agenda = e :: r →
    (wellFormed e = true → step s = exec e (s.setAgenda r)) ∧ (wellFormed e = false → step s = .next (s.setAgenda r))) ∧
  (s.agenda = [] → s.filled = false → step s = .next (fillQueue exec s)) ∧
  (s.agenda = [] → s.filled = true → s.queue = [] → step s = .next (tick s)) ∧
  (s.agenda = [] → s.filled = true → s.queue = q :: rest →
    (issuerAt (s.setQueue rest) q = none → ¬((s.str q).st = .frozen ∧ collapsed (s.gang (leaderOf s q)) = true) →
      step s = .next (s.setQueue rest)) ∧
    (issuerAt (s.setQueue rest) q = some ls → ls.headD 0 = q → (∀ x ∈ ls, (s.str x).pc = (s.str q).pc ∧ (s.str x).mark = none) →
      (fetch u = .words w0 w1 → noteFor u = false →
        (∀ w i, decodeBundle slot w0 w1 = .lone w i → step s = exec i (u.setCur { u.cur with word := BitVec.ofNat 32 w })) ∧
        (∀ i, wellFormed i = true → encode i = some w0 → step s = exec i (u.setCur { u.cur with word := BitVec.ofNat 32 w0 })) ∧
        (∀ wc wa c a, decodeBundle slot w0 w1 = .pair wc wa c a →
          step s = .next (runBundle (u.setCur { u.cur with word := BitVec.ofNat 32 wc, nba := (s.str q).pc + 8#64 })
            ((issuedOf c wc false).toList ++ (issuedOf a wa true).toList))) ∧
        (∀ code w n, decodeBundle slot w0 w1 = .bad code w n →
          step s = .next (faultAll u { cause := 2, code := code, sval := word w, slotA := decide (n = 1) }))) ∧
      (∀ i, fetch u = .fault i → noteFor u = false → step s = .next (faultAll u i)) ∧
      (∀ r ws walks fars, fetch u = .park r ws walks fars → step s = .next (parkPath u r ws walks fars)))) ∧
  (∀ t v, checkAcc u (cellOf (curPos u)) (u.str (curPos u)).walkFail .fetch u.cur.sup u.cur.ba 4 4 = .ok t →
    (isHost t = true → s.pkg.hostUp = true) →
    peek u (cellOf (curPos u)) (curPos u) t (if u.cur.ba.toNat % 8 = 0 then 8 else 4) = .val v →
      fetch u = .words (v % 2 ^ 32) (v / 2 ^ 32))

/-- R43, R44, R182, R401, R442: what a reset leaves, at power-on and from any state: no block, no strand and no work in flight; every
cell on the low rail with its cycle count zero; RINGCFG with TOTAL 0, POCKETCAP 64, RETAIN 0; the device registers and the
queues empty; and every byte of the device's memories zero, in canonical form. A reset of the package leaves the host's memory as it
stands. (Fields without a reset value, host memory at power-on and the accumulator tiles: the model's zeros, notes/assumptions/5.md and
9.md. What a reset does not touch: 68.md.) -/
def Obligations.ResetState : Prop :=
  let device := fun (a : Nat) => a < locHost 0 ∨ locScr 0 0 ≤ a
  let clean := fun (t : State) =>
    (∀ a, device a → byteAt t a = 0#8) ∧ (∀ a, device a → tfind t.poison (a / 32) = none) ∧ t.badRegs = [] ∧ t.copies = [] ∧
    (∀ c, (t.cell c).high = false ∧ (t.cell c).slotmask = 0#4 ∧ (t.cell c).fenced = false ∧ (t.cell c).ovfcfg = 0#64 ∧
      (t.cell c).block = none ∧ (t.cell c).l1 = [] ∧ (t.cell c).jobs = [] ∧ cyc t c = 0) ∧
    (∀ d, (t.die d).total = 0 ∧ (t.die d).cap = 64 ∧ (t.die d).retain = 0 ∧ ∀ f, tget 0 (t.die d).flits f = 0) ∧
    (∀ p, (t.str p).st = .free ∧ (t.str p).gen = 0#8) ∧
    (t.pkg.lqcfg = [] ∧ t.pkg.lwbind = [] ∧ t.pkg.asidtab = 0#64 ∧ t.pkg.dcap = [] ∧ t.pkg.fabEn = false ∧ t.pkg.pkgnum = 0 ∧
      t.pkg.queues = [] ∧ t.pkg.returns = [] ∧ t.pkg.dseq = 0 ∧ t.pkg.heldRecs = [] ∧ t.pkg.reqs = []) ∧
    t.pend = [] ∧ t.stores = [] ∧ t.walks = [] ∧ t.xfers = [] ∧ t.delivs = [] ∧ t.chases = [] ∧ t.flying = [] ∧ t.agenda = []
  clean State.reset ∧ memCanonical State.reset ∧ State.reset.poison = [] ∧
  ∀ s : State, ∃ t, exec .packageReset s = .next t ∧ clean t ∧ (memCanonical s → memCanonical t) ∧ t.pkg.resets = s.pkg.resets + 1 ∧
    ∀ a, locHost 0 ≤ a → a < locScr 0 0 → byteAt t a = byteAt s a

/-- Every step goes on, whatever its event or its bundle, and memory keeps its canonical form: addresses strictly rising, and no byte
listed that an unlisted address reads as. No rule names a condition that stops the package (R401, R507). -/
def Obligations.StepKeepsMemoryCanonical : Prop := ∀ s : State, memCanonical s → ∃ t, step s = .next t ∧ memCanonical t

end
end

