-- ==== Sys2Proof/Laws/State.lean ====
section
/-!
SUPPORT. What each named update of State does to each field: the field it names takes the value, every other keeps its own.
-/
namespace Sys2Proof.Machine

variable (s : State)

@[simp] theorem State.setTime_time (v : Nat) : (s.setTime v).time = v := rfl
@[simp] theorem State.setTime_gs (v : Nat) : (s.setTime v).gs = s.gs := rfl
@[simp] theorem State.setTime_hs (v : Nat) : (s.setTime v).hs = s.hs := rfl
@[simp] theorem State.setTime_ws (v : Nat) : (s.setTime v).ws = s.ws := rfl
@[simp] theorem State.setTime_ps (v : Nat) : (s.setTime v).ps = s.ps := rfl
@[simp] theorem State.setTime_es (v : Nat) : (s.setTime v).es = s.es := rfl
@[simp] theorem State.setTime_eflags (v : Nat) : (s.setTime v).eflags = s.eflags := rfl
@[simp] theorem State.setTime_ks (v : Nat) : (s.setTime v).ks = s.ks := rfl
@[simp] theorem State.setTime_js (v : Nat) : (s.setTime v).js = s.js := rfl
@[simp] theorem State.setTime_alley (v : Nat) : (s.setTime v).alley = s.alley := rfl
@[simp] theorem State.setTime_alleyOld (v : Nat) : (s.setTime v).alleyOld = s.alleyOld := rfl
@[simp] theorem State.setTime_strands (v : Nat) : (s.setTime v).strands = s.strands := rfl
@[simp] theorem State.setTime_gangs (v : Nat) : (s.setTime v).gangs = s.gangs := rfl
@[simp] theorem State.setTime_cells (v : Nat) : (s.setTime v).cells = s.cells := rfl
@[simp] theorem State.setTime_blocks (v : Nat) : (s.setTime v).blocks = s.blocks := rfl
@[simp] theorem State.setTime_grids (v : Nat) : (s.setTime v).grids = s.grids := rfl
@[simp] theorem State.setTime_dies (v : Nat) : (s.setTime v).dies = s.dies := rfl
@[simp] theorem State.setTime_pkg (v : Nat) : (s.setTime v).pkg = s.pkg := rfl
@[simp] theorem State.setTime_mem (v : Nat) : (s.setTime v).mem = s.mem := rfl
@[simp] theorem State.setTime_absent (v : Nat) : (s.setTime v).absent = s.absent := rfl
@[simp] theorem State.setTime_clears (v : Nat) : (s.setTime v).clears = s.clears := rfl
@[simp] theorem State.setTime_sets (v : Nat) : (s.setTime v).sets = s.sets := rfl
@[simp] theorem State.setTime_poison (v : Nat) : (s.setTime v).poison = s.poison := rfl
@[simp] theorem State.setTime_badRegs (v : Nat) : (s.setTime v).badRegs = s.badRegs := rfl
@[simp] theorem State.setTime_copies (v : Nat) : (s.setTime v).copies = s.copies := rfl
@[simp] theorem State.setTime_doomed (v : Nat) : (s.setTime v).doomed = s.doomed := rfl
@[simp] theorem State.setTime_pend (v : Nat) : (s.setTime v).pend = s.pend := rfl
@[simp] theorem State.setTime_stores (v : Nat) : (s.setTime v).stores = s.stores := rfl
@[simp] theorem State.setTime_walks (v : Nat) : (s.setTime v).walks = s.walks := rfl
@[simp] theorem State.setTime_xfers (v : Nat) : (s.setTime v).xfers = s.xfers := rfl
@[simp] theorem State.setTime_delivs (v : Nat) : (s.setTime v).delivs = s.delivs := rfl
@[simp] theorem State.setTime_chases (v : Nat) : (s.setTime v).chases = s.chases := rfl
@[simp] theorem State.setTime_joins (v : Nat) : (s.setTime v).joins = s.joins := rfl
@[simp] theorem State.setTime_flying (v : Nat) : (s.setTime v).flying = s.flying := rfl
@[simp] theorem State.setTime_kills (v : Nat) : (s.setTime v).kills = s.kills := rfl
@[simp] theorem State.setTime_fresh (v : Nat) : (s.setTime v).fresh = s.fresh := rfl
@[simp] theorem State.setTime_cur (v : Nat) : (s.setTime v).cur = s.cur := rfl
@[simp] theorem State.setTime_agenda (v : Nat) : (s.setTime v).agenda = s.agenda := rfl
@[simp] theorem State.setTime_queue (v : Nat) : (s.setTime v).queue = s.queue := rfl
@[simp] theorem State.setTime_filled (v : Nat) : (s.setTime v).filled = s.filled := rfl
@[simp] theorem State.setTime_foreseen (v : Nat) : (s.setTime v).foreseen = s.foreseen := rfl
@[simp] theorem State.setTime_pace (v : Nat) : (s.setTime v).pace = s.pace := rfl
@[simp] theorem State.setGs_time (v : Tab Word) : (s.setGs v).time = s.time := rfl
@[simp] theorem State.setGs_gs (v : Tab Word) : (s.setGs v).gs = v := rfl
@[simp] theorem State.setGs_hs (v : Tab Word) : (s.setGs v).hs = s.hs := rfl
@[simp] theorem State.setGs_ws (v : Tab Word) : (s.setGs v).ws = s.ws := rfl
@[simp] theorem State.setGs_ps (v : Tab Word) : (s.setGs v).ps = s.ps := rfl
@[simp] theorem State.setGs_es (v : Tab Word) : (s.setGs v).es = s.es := rfl
@[simp] theorem State.setGs_eflags (v : Tab Word) : (s.setGs v).eflags = s.eflags := rfl
@[simp] theorem State.setGs_ks (v : Tab Word) : (s.setGs v).ks = s.ks := rfl
@[simp] theorem State.setGs_js (v : Tab Word) : (s.setGs v).js = s.js := rfl
@[simp] theorem State.setGs_alley (v : Tab Word) : (s.setGs v).alley = s.alley := rfl
@[simp] theorem State.setGs_alleyOld (v : Tab Word) : (s.setGs v).alleyOld = s.alleyOld := rfl
@[simp] theorem State.setGs_strands (v : Tab Word) : (s.setGs v).strands = s.strands := rfl
@[simp] theorem State.setGs_gangs (v : Tab Word) : (s.setGs v).gangs = s.gangs := rfl
@[simp] theorem State.setGs_cells (v : Tab Word) : (s.setGs v).cells = s.cells := rfl
@[simp] theorem State.setGs_blocks (v : Tab Word) : (s.setGs v).blocks = s.blocks := rfl
@[simp] theorem State.setGs_grids (v : Tab Word) : (s.setGs v).grids = s.grids := rfl
@[simp] theorem State.setGs_dies (v : Tab Word) : (s.setGs v).dies = s.dies := rfl
@[simp] theorem State.setGs_pkg (v : Tab Word) : (s.setGs v).pkg = s.pkg := rfl
@[simp] theorem State.setGs_mem (v : Tab Word) : (s.setGs v).mem = s.mem := rfl
@[simp] theorem State.setGs_absent (v : Tab Word) : (s.setGs v).absent = s.absent := rfl
@[simp] theorem State.setGs_clears (v : Tab Word) : (s.setGs v).clears = s.clears := rfl
@[simp] theorem State.setGs_sets (v : Tab Word) : (s.setGs v).sets = s.sets := rfl
@[simp] theorem State.setGs_poison (v : Tab Word) : (s.setGs v).poison = s.poison := rfl
@[simp] theorem State.setGs_badRegs (v : Tab Word) : (s.setGs v).badRegs = s.badRegs := rfl
@[simp] theorem State.setGs_copies (v : Tab Word) : (s.setGs v).copies = s.copies := rfl
@[simp] theorem State.setGs_doomed (v : Tab Word) : (s.setGs v).doomed = s.doomed := rfl
@[simp] theorem State.setGs_pend (v : Tab Word) : (s.setGs v).pend = s.pend := rfl
@[simp] theorem State.setGs_stores (v : Tab Word) : (s.setGs v).stores = s.stores := rfl
@[simp] theorem State.setGs_walks (v : Tab Word) : (s.setGs v).walks = s.walks := rfl
@[simp] theorem State.setGs_xfers (v : Tab Word) : (s.setGs v).xfers = s.xfers := rfl
@[simp] theorem State.setGs_delivs (v : Tab Word) : (s.setGs v).delivs = s.delivs := rfl
@[simp] theorem State.setGs_chases (v : Tab Word) : (s.setGs v).chases = s.chases := rfl
@[simp] theorem State.setGs_joins (v : Tab Word) : (s.setGs v).joins = s.joins := rfl
@[simp] theorem State.setGs_flying (v : Tab Word) : (s.setGs v).flying = s.flying := rfl
@[simp] theorem State.setGs_kills (v : Tab Word) : (s.setGs v).kills = s.kills := rfl
@[simp] theorem State.setGs_fresh (v : Tab Word) : (s.setGs v).fresh = s.fresh := rfl
@[simp] theorem State.setGs_cur (v : Tab Word) : (s.setGs v).cur = s.cur := rfl
@[simp] theorem State.setGs_agenda (v : Tab Word) : (s.setGs v).agenda = s.agenda := rfl
@[simp] theorem State.setGs_queue (v : Tab Word) : (s.setGs v).queue = s.queue := rfl
@[simp] theorem State.setGs_filled (v : Tab Word) : (s.setGs v).filled = s.filled := rfl
@[simp] theorem State.setGs_foreseen (v : Tab Word) : (s.setGs v).foreseen = s.foreseen := rfl
@[simp] theorem State.setGs_pace (v : Tab Word) : (s.setGs v).pace = s.pace := rfl
@[simp] theorem State.setHs_time (v : Tab Word) : (s.setHs v).time = s.time := rfl
@[simp] theorem State.setHs_gs (v : Tab Word) : (s.setHs v).gs = s.gs := rfl
@[simp] theorem State.setHs_hs (v : Tab Word) : (s.setHs v).hs = v := rfl
@[simp] theorem State.setHs_ws (v : Tab Word) : (s.setHs v).ws = s.ws := rfl
@[simp] theorem State.setHs_ps (v : Tab Word) : (s.setHs v).ps = s.ps := rfl
@[simp] theorem State.setHs_es (v : Tab Word) : (s.setHs v).es = s.es := rfl
@[simp] theorem State.setHs_eflags (v : Tab Word) : (s.setHs v).eflags = s.eflags := rfl
@[simp] theorem State.setHs_ks (v : Tab Word) : (s.setHs v).ks = s.ks := rfl
@[simp] theorem State.setHs_js (v : Tab Word) : (s.setHs v).js = s.js := rfl
@[simp] theorem State.setHs_alley (v : Tab Word) : (s.setHs v).alley = s.alley := rfl
@[simp] theorem State.setHs_alleyOld (v : Tab Word) : (s.setHs v).alleyOld = s.alleyOld := rfl
@[simp] theorem State.setHs_strands (v : Tab Word) : (s.setHs v).strands = s.strands := rfl
@[simp] theorem State.setHs_gangs (v : Tab Word) : (s.setHs v).gangs = s.gangs := rfl
@[simp] theorem State.setHs_cells (v : Tab Word) : (s.setHs v).cells = s.cells := rfl
@[simp] theorem State.setHs_blocks (v : Tab Word) : (s.setHs v).blocks = s.blocks := rfl
@[simp] theorem State.setHs_grids (v : Tab Word) : (s.setHs v).grids = s.grids := rfl
@[simp] theorem State.setHs_dies (v : Tab Word) : (s.setHs v).dies = s.dies := rfl
@[simp] theorem State.setHs_pkg (v : Tab Word) : (s.setHs v).pkg = s.pkg := rfl
@[simp] theorem State.setHs_mem (v : Tab Word) : (s.setHs v).mem = s.mem := rfl
@[simp] theorem State.setHs_absent (v : Tab Word) : (s.setHs v).absent = s.absent := rfl
@[simp] theorem State.setHs_clears (v : Tab Word) : (s.setHs v).clears = s.clears := rfl
@[simp] theorem State.setHs_sets (v : Tab Word) : (s.setHs v).sets = s.sets := rfl
@[simp] theorem State.setHs_poison (v : Tab Word) : (s.setHs v).poison = s.poison := rfl
@[simp] theorem State.setHs_badRegs (v : Tab Word) : (s.setHs v).badRegs = s.badRegs := rfl
@[simp] theorem State.setHs_copies (v : Tab Word) : (s.setHs v).copies = s.copies := rfl
@[simp] theorem State.setHs_doomed (v : Tab Word) : (s.setHs v).doomed = s.doomed := rfl
@[simp] theorem State.setHs_pend (v : Tab Word) : (s.setHs v).pend = s.pend := rfl
@[simp] theorem State.setHs_stores (v : Tab Word) : (s.setHs v).stores = s.stores := rfl
@[simp] theorem State.setHs_walks (v : Tab Word) : (s.setHs v).walks = s.walks := rfl
@[simp] theorem State.setHs_xfers (v : Tab Word) : (s.setHs v).xfers = s.xfers := rfl
@[simp] theorem State.setHs_delivs (v : Tab Word) : (s.setHs v).delivs = s.delivs := rfl
@[simp] theorem State.setHs_chases (v : Tab Word) : (s.setHs v).chases = s.chases := rfl
@[simp] theorem State.setHs_joins (v : Tab Word) : (s.setHs v).joins = s.joins := rfl
@[simp] theorem State.setHs_flying (v : Tab Word) : (s.setHs v).flying = s.flying := rfl
@[simp] theorem State.setHs_kills (v : Tab Word) : (s.setHs v).kills = s.kills := rfl
@[simp] theorem State.setHs_fresh (v : Tab Word) : (s.setHs v).fresh = s.fresh := rfl
@[simp] theorem State.setHs_cur (v : Tab Word) : (s.setHs v).cur = s.cur := rfl
@[simp] theorem State.setHs_agenda (v : Tab Word) : (s.setHs v).agenda = s.agenda := rfl
@[simp] theorem State.setHs_queue (v : Tab Word) : (s.setHs v).queue = s.queue := rfl
@[simp] theorem State.setHs_filled (v : Tab Word) : (s.setHs v).filled = s.filled := rfl
@[simp] theorem State.setHs_foreseen (v : Tab Word) : (s.setHs v).foreseen = s.foreseen := rfl
@[simp] theorem State.setHs_pace (v : Tab Word) : (s.setHs v).pace = s.pace := rfl
@[simp] theorem State.setWs_time (v : Tab Wide) : (s.setWs v).time = s.time := rfl
@[simp] theorem State.setWs_gs (v : Tab Wide) : (s.setWs v).gs = s.gs := rfl
@[simp] theorem State.setWs_hs (v : Tab Wide) : (s.setWs v).hs = s.hs := rfl
@[simp] theorem State.setWs_ws (v : Tab Wide) : (s.setWs v).ws = v := rfl
@[simp] theorem State.setWs_ps (v : Tab Wide) : (s.setWs v).ps = s.ps := rfl
@[simp] theorem State.setWs_es (v : Tab Wide) : (s.setWs v).es = s.es := rfl
@[simp] theorem State.setWs_eflags (v : Tab Wide) : (s.setWs v).eflags = s.eflags := rfl
@[simp] theorem State.setWs_ks (v : Tab Wide) : (s.setWs v).ks = s.ks := rfl
@[simp] theorem State.setWs_js (v : Tab Wide) : (s.setWs v).js = s.js := rfl
@[simp] theorem State.setWs_alley (v : Tab Wide) : (s.setWs v).alley = s.alley := rfl
@[simp] theorem State.setWs_alleyOld (v : Tab Wide) : (s.setWs v).alleyOld = s.alleyOld := rfl
@[simp] theorem State.setWs_strands (v : Tab Wide) : (s.setWs v).strands = s.strands := rfl
@[simp] theorem State.setWs_gangs (v : Tab Wide) : (s.setWs v).gangs = s.gangs := rfl
@[simp] theorem State.setWs_cells (v : Tab Wide) : (s.setWs v).cells = s.cells := rfl
@[simp] theorem State.setWs_blocks (v : Tab Wide) : (s.setWs v).blocks = s.blocks := rfl
@[simp] theorem State.setWs_grids (v : Tab Wide) : (s.setWs v).grids = s.grids := rfl
@[simp] theorem State.setWs_dies (v : Tab Wide) : (s.setWs v).dies = s.dies := rfl
@[simp] theorem State.setWs_pkg (v : Tab Wide) : (s.setWs v).pkg = s.pkg := rfl
@[simp] theorem State.setWs_mem (v : Tab Wide) : (s.setWs v).mem = s.mem := rfl
@[simp] theorem State.setWs_absent (v : Tab Wide) : (s.setWs v).absent = s.absent := rfl
@[simp] theorem State.setWs_clears (v : Tab Wide) : (s.setWs v).clears = s.clears := rfl
@[simp] theorem State.setWs_sets (v : Tab Wide) : (s.setWs v).sets = s.sets := rfl
@[simp] theorem State.setWs_poison (v : Tab Wide) : (s.setWs v).poison = s.poison := rfl
@[simp] theorem State.setWs_badRegs (v : Tab Wide) : (s.setWs v).badRegs = s.badRegs := rfl
@[simp] theorem State.setWs_copies (v : Tab Wide) : (s.setWs v).copies = s.copies := rfl
@[simp] theorem State.setWs_doomed (v : Tab Wide) : (s.setWs v).doomed = s.doomed := rfl
@[simp] theorem State.setWs_pend (v : Tab Wide) : (s.setWs v).pend = s.pend := rfl
@[simp] theorem State.setWs_stores (v : Tab Wide) : (s.setWs v).stores = s.stores := rfl
@[simp] theorem State.setWs_walks (v : Tab Wide) : (s.setWs v).walks = s.walks := rfl
@[simp] theorem State.setWs_xfers (v : Tab Wide) : (s.setWs v).xfers = s.xfers := rfl
@[simp] theorem State.setWs_delivs (v : Tab Wide) : (s.setWs v).delivs = s.delivs := rfl
@[simp] theorem State.setWs_chases (v : Tab Wide) : (s.setWs v).chases = s.chases := rfl
@[simp] theorem State.setWs_joins (v : Tab Wide) : (s.setWs v).joins = s.joins := rfl
@[simp] theorem State.setWs_flying (v : Tab Wide) : (s.setWs v).flying = s.flying := rfl
@[simp] theorem State.setWs_kills (v : Tab Wide) : (s.setWs v).kills = s.kills := rfl
@[simp] theorem State.setWs_fresh (v : Tab Wide) : (s.setWs v).fresh = s.fresh := rfl
@[simp] theorem State.setWs_cur (v : Tab Wide) : (s.setWs v).cur = s.cur := rfl
@[simp] theorem State.setWs_agenda (v : Tab Wide) : (s.setWs v).agenda = s.agenda := rfl
@[simp] theorem State.setWs_queue (v : Tab Wide) : (s.setWs v).queue = s.queue := rfl
@[simp] theorem State.setWs_filled (v : Tab Wide) : (s.setWs v).filled = s.filled := rfl
@[simp] theorem State.setWs_foreseen (v : Tab Wide) : (s.setWs v).foreseen = s.foreseen := rfl
@[simp] theorem State.setWs_pace (v : Tab Wide) : (s.setWs v).pace = s.pace := rfl
@[simp] theorem State.setPs_time (v : Tab Bool) : (s.setPs v).time = s.time := rfl
@[simp] theorem State.setPs_gs (v : Tab Bool) : (s.setPs v).gs = s.gs := rfl
@[simp] theorem State.setPs_hs (v : Tab Bool) : (s.setPs v).hs = s.hs := rfl
@[simp] theorem State.setPs_ws (v : Tab Bool) : (s.setPs v).ws = s.ws := rfl
@[simp] theorem State.setPs_ps (v : Tab Bool) : (s.setPs v).ps = v := rfl
@[simp] theorem State.setPs_es (v : Tab Bool) : (s.setPs v).es = s.es := rfl
@[simp] theorem State.setPs_eflags (v : Tab Bool) : (s.setPs v).eflags = s.eflags := rfl
@[simp] theorem State.setPs_ks (v : Tab Bool) : (s.setPs v).ks = s.ks := rfl
@[simp] theorem State.setPs_js (v : Tab Bool) : (s.setPs v).js = s.js := rfl
@[simp] theorem State.setPs_alley (v : Tab Bool) : (s.setPs v).alley = s.alley := rfl
@[simp] theorem State.setPs_alleyOld (v : Tab Bool) : (s.setPs v).alleyOld = s.alleyOld := rfl
@[simp] theorem State.setPs_strands (v : Tab Bool) : (s.setPs v).strands = s.strands := rfl
@[simp] theorem State.setPs_gangs (v : Tab Bool) : (s.setPs v).gangs = s.gangs := rfl
@[simp] theorem State.setPs_cells (v : Tab Bool) : (s.setPs v).cells = s.cells := rfl
@[simp] theorem State.setPs_blocks (v : Tab Bool) : (s.setPs v).blocks = s.blocks := rfl
@[simp] theorem State.setPs_grids (v : Tab Bool) : (s.setPs v).grids = s.grids := rfl
@[simp] theorem State.setPs_dies (v : Tab Bool) : (s.setPs v).dies = s.dies := rfl
@[simp] theorem State.setPs_pkg (v : Tab Bool) : (s.setPs v).pkg = s.pkg := rfl
@[simp] theorem State.setPs_mem (v : Tab Bool) : (s.setPs v).mem = s.mem := rfl
@[simp] theorem State.setPs_absent (v : Tab Bool) : (s.setPs v).absent = s.absent := rfl
@[simp] theorem State.setPs_clears (v : Tab Bool) : (s.setPs v).clears = s.clears := rfl
@[simp] theorem State.setPs_sets (v : Tab Bool) : (s.setPs v).sets = s.sets := rfl
@[simp] theorem State.setPs_poison (v : Tab Bool) : (s.setPs v).poison = s.poison := rfl
@[simp] theorem State.setPs_badRegs (v : Tab Bool) : (s.setPs v).badRegs = s.badRegs := rfl
@[simp] theorem State.setPs_copies (v : Tab Bool) : (s.setPs v).copies = s.copies := rfl
@[simp] theorem State.setPs_doomed (v : Tab Bool) : (s.setPs v).doomed = s.doomed := rfl
@[simp] theorem State.setPs_pend (v : Tab Bool) : (s.setPs v).pend = s.pend := rfl
@[simp] theorem State.setPs_stores (v : Tab Bool) : (s.setPs v).stores = s.stores := rfl
@[simp] theorem State.setPs_walks (v : Tab Bool) : (s.setPs v).walks = s.walks := rfl
@[simp] theorem State.setPs_xfers (v : Tab Bool) : (s.setPs v).xfers = s.xfers := rfl
@[simp] theorem State.setPs_delivs (v : Tab Bool) : (s.setPs v).delivs = s.delivs := rfl
@[simp] theorem State.setPs_chases (v : Tab Bool) : (s.setPs v).chases = s.chases := rfl
@[simp] theorem State.setPs_joins (v : Tab Bool) : (s.setPs v).joins = s.joins := rfl
@[simp] theorem State.setPs_flying (v : Tab Bool) : (s.setPs v).flying = s.flying := rfl
@[simp] theorem State.setPs_kills (v : Tab Bool) : (s.setPs v).kills = s.kills := rfl
@[simp] theorem State.setPs_fresh (v : Tab Bool) : (s.setPs v).fresh = s.fresh := rfl
@[simp] theorem State.setPs_cur (v : Tab Bool) : (s.setPs v).cur = s.cur := rfl
@[simp] theorem State.setPs_agenda (v : Tab Bool) : (s.setPs v).agenda = s.agenda := rfl
@[simp] theorem State.setPs_queue (v : Tab Bool) : (s.setPs v).queue = s.queue := rfl
@[simp] theorem State.setPs_filled (v : Tab Bool) : (s.setPs v).filled = s.filled := rfl
@[simp] theorem State.setPs_foreseen (v : Tab Bool) : (s.setPs v).foreseen = s.foreseen := rfl
@[simp] theorem State.setPs_pace (v : Tab Bool) : (s.setPs v).pace = s.pace := rfl
@[simp] theorem State.setEs_time (v : Tab X320) : (s.setEs v).time = s.time := rfl
@[simp] theorem State.setEs_gs (v : Tab X320) : (s.setEs v).gs = s.gs := rfl
@[simp] theorem State.setEs_hs (v : Tab X320) : (s.setEs v).hs = s.hs := rfl
@[simp] theorem State.setEs_ws (v : Tab X320) : (s.setEs v).ws = s.ws := rfl
@[simp] theorem State.setEs_ps (v : Tab X320) : (s.setEs v).ps = s.ps := rfl
@[simp] theorem State.setEs_es (v : Tab X320) : (s.setEs v).es = v := rfl
@[simp] theorem State.setEs_eflags (v : Tab X320) : (s.setEs v).eflags = s.eflags := rfl
@[simp] theorem State.setEs_ks (v : Tab X320) : (s.setEs v).ks = s.ks := rfl
@[simp] theorem State.setEs_js (v : Tab X320) : (s.setEs v).js = s.js := rfl
@[simp] theorem State.setEs_alley (v : Tab X320) : (s.setEs v).alley = s.alley := rfl
@[simp] theorem State.setEs_alleyOld (v : Tab X320) : (s.setEs v).alleyOld = s.alleyOld := rfl
@[simp] theorem State.setEs_strands (v : Tab X320) : (s.setEs v).strands = s.strands := rfl
@[simp] theorem State.setEs_gangs (v : Tab X320) : (s.setEs v).gangs = s.gangs := rfl
@[simp] theorem State.setEs_cells (v : Tab X320) : (s.setEs v).cells = s.cells := rfl
@[simp] theorem State.setEs_blocks (v : Tab X320) : (s.setEs v).blocks = s.blocks := rfl
@[simp] theorem State.setEs_grids (v : Tab X320) : (s.setEs v).grids = s.grids := rfl
@[simp] theorem State.setEs_dies (v : Tab X320) : (s.setEs v).dies = s.dies := rfl
@[simp] theorem State.setEs_pkg (v : Tab X320) : (s.setEs v).pkg = s.pkg := rfl
@[simp] theorem State.setEs_mem (v : Tab X320) : (s.setEs v).mem = s.mem := rfl
@[simp] theorem State.setEs_absent (v : Tab X320) : (s.setEs v).absent = s.absent := rfl
@[simp] theorem State.setEs_clears (v : Tab X320) : (s.setEs v).clears = s.clears := rfl
@[simp] theorem State.setEs_sets (v : Tab X320) : (s.setEs v).sets = s.sets := rfl
@[simp] theorem State.setEs_poison (v : Tab X320) : (s.setEs v).poison = s.poison := rfl
@[simp] theorem State.setEs_badRegs (v : Tab X320) : (s.setEs v).badRegs = s.badRegs := rfl
@[simp] theorem State.setEs_copies (v : Tab X320) : (s.setEs v).copies = s.copies := rfl
@[simp] theorem State.setEs_doomed (v : Tab X320) : (s.setEs v).doomed = s.doomed := rfl
@[simp] theorem State.setEs_pend (v : Tab X320) : (s.setEs v).pend = s.pend := rfl
@[simp] theorem State.setEs_stores (v : Tab X320) : (s.setEs v).stores = s.stores := rfl
@[simp] theorem State.setEs_walks (v : Tab X320) : (s.setEs v).walks = s.walks := rfl
@[simp] theorem State.setEs_xfers (v : Tab X320) : (s.setEs v).xfers = s.xfers := rfl
@[simp] theorem State.setEs_delivs (v : Tab X320) : (s.setEs v).delivs = s.delivs := rfl
@[simp] theorem State.setEs_chases (v : Tab X320) : (s.setEs v).chases = s.chases := rfl
@[simp] theorem State.setEs_joins (v : Tab X320) : (s.setEs v).joins = s.joins := rfl
@[simp] theorem State.setEs_flying (v : Tab X320) : (s.setEs v).flying = s.flying := rfl
@[simp] theorem State.setEs_kills (v : Tab X320) : (s.setEs v).kills = s.kills := rfl
@[simp] theorem State.setEs_fresh (v : Tab X320) : (s.setEs v).fresh = s.fresh := rfl
@[simp] theorem State.setEs_cur (v : Tab X320) : (s.setEs v).cur = s.cur := rfl
@[simp] theorem State.setEs_agenda (v : Tab X320) : (s.setEs v).agenda = s.agenda := rfl
@[simp] theorem State.setEs_queue (v : Tab X320) : (s.setEs v).queue = s.queue := rfl
@[simp] theorem State.setEs_filled (v : Tab X320) : (s.setEs v).filled = s.filled := rfl
@[simp] theorem State.setEs_foreseen (v : Tab X320) : (s.setEs v).foreseen = s.foreseen := rfl
@[simp] theorem State.setEs_pace (v : Tab X320) : (s.setEs v).pace = s.pace := rfl
@[simp] theorem State.setEflags_time (v : Tab (BitVec 3)) : (s.setEflags v).time = s.time := rfl
@[simp] theorem State.setEflags_gs (v : Tab (BitVec 3)) : (s.setEflags v).gs = s.gs := rfl
@[simp] theorem State.setEflags_hs (v : Tab (BitVec 3)) : (s.setEflags v).hs = s.hs := rfl
@[simp] theorem State.setEflags_ws (v : Tab (BitVec 3)) : (s.setEflags v).ws = s.ws := rfl
@[simp] theorem State.setEflags_ps (v : Tab (BitVec 3)) : (s.setEflags v).ps = s.ps := rfl
@[simp] theorem State.setEflags_es (v : Tab (BitVec 3)) : (s.setEflags v).es = s.es := rfl
@[simp] theorem State.setEflags_eflags (v : Tab (BitVec 3)) : (s.setEflags v).eflags = v := rfl
@[simp] theorem State.setEflags_ks (v : Tab (BitVec 3)) : (s.setEflags v).ks = s.ks := rfl
@[simp] theorem State.setEflags_js (v : Tab (BitVec 3)) : (s.setEflags v).js = s.js := rfl
@[simp] theorem State.setEflags_alley (v : Tab (BitVec 3)) : (s.setEflags v).alley = s.alley := rfl
@[simp] theorem State.setEflags_alleyOld (v : Tab (BitVec 3)) : (s.setEflags v).alleyOld = s.alleyOld := rfl
@[simp] theorem State.setEflags_strands (v : Tab (BitVec 3)) : (s.setEflags v).strands = s.strands := rfl
@[simp] theorem State.setEflags_gangs (v : Tab (BitVec 3)) : (s.setEflags v).gangs = s.gangs := rfl
@[simp] theorem State.setEflags_cells (v : Tab (BitVec 3)) : (s.setEflags v).cells = s.cells := rfl
@[simp] theorem State.setEflags_blocks (v : Tab (BitVec 3)) : (s.setEflags v).blocks = s.blocks := rfl
@[simp] theorem State.setEflags_grids (v : Tab (BitVec 3)) : (s.setEflags v).grids = s.grids := rfl
@[simp] theorem State.setEflags_dies (v : Tab (BitVec 3)) : (s.setEflags v).dies = s.dies := rfl
@[simp] theorem State.setEflags_pkg (v : Tab (BitVec 3)) : (s.setEflags v).pkg = s.pkg := rfl
@[simp] theorem State.setEflags_mem (v : Tab (BitVec 3)) : (s.setEflags v).mem = s.mem := rfl
@[simp] theorem State.setEflags_absent (v : Tab (BitVec 3)) : (s.setEflags v).absent = s.absent := rfl
@[simp] theorem State.setEflags_clears (v : Tab (BitVec 3)) : (s.setEflags v).clears = s.clears := rfl
@[simp] theorem State.setEflags_sets (v : Tab (BitVec 3)) : (s.setEflags v).sets = s.sets := rfl
@[simp] theorem State.setEflags_poison (v : Tab (BitVec 3)) : (s.setEflags v).poison = s.poison := rfl
@[simp] theorem State.setEflags_badRegs (v : Tab (BitVec 3)) : (s.setEflags v).badRegs = s.badRegs := rfl
@[simp] theorem State.setEflags_copies (v : Tab (BitVec 3)) : (s.setEflags v).copies = s.copies := rfl
@[simp] theorem State.setEflags_doomed (v : Tab (BitVec 3)) : (s.setEflags v).doomed = s.doomed := rfl
@[simp] theorem State.setEflags_pend (v : Tab (BitVec 3)) : (s.setEflags v).pend = s.pend := rfl
@[simp] theorem State.setEflags_stores (v : Tab (BitVec 3)) : (s.setEflags v).stores = s.stores := rfl
@[simp] theorem State.setEflags_walks (v : Tab (BitVec 3)) : (s.setEflags v).walks = s.walks := rfl
@[simp] theorem State.setEflags_xfers (v : Tab (BitVec 3)) : (s.setEflags v).xfers = s.xfers := rfl
@[simp] theorem State.setEflags_delivs (v : Tab (BitVec 3)) : (s.setEflags v).delivs = s.delivs := rfl
@[simp] theorem State.setEflags_chases (v : Tab (BitVec 3)) : (s.setEflags v).chases = s.chases := rfl
@[simp] theorem State.setEflags_joins (v : Tab (BitVec 3)) : (s.setEflags v).joins = s.joins := rfl
@[simp] theorem State.setEflags_flying (v : Tab (BitVec 3)) : (s.setEflags v).flying = s.flying := rfl
@[simp] theorem State.setEflags_kills (v : Tab (BitVec 3)) : (s.setEflags v).kills = s.kills := rfl
@[simp] theorem State.setEflags_fresh (v : Tab (BitVec 3)) : (s.setEflags v).fresh = s.fresh := rfl
@[simp] theorem State.setEflags_cur (v : Tab (BitVec 3)) : (s.setEflags v).cur = s.cur := rfl
@[simp] theorem State.setEflags_agenda (v : Tab (BitVec 3)) : (s.setEflags v).agenda = s.agenda := rfl
@[simp] theorem State.setEflags_queue (v : Tab (BitVec 3)) : (s.setEflags v).queue = s.queue := rfl
@[simp] theorem State.setEflags_filled (v : Tab (BitVec 3)) : (s.setEflags v).filled = s.filled := rfl
@[simp] theorem State.setEflags_foreseen (v : Tab (BitVec 3)) : (s.setEflags v).foreseen = s.foreseen := rfl
@[simp] theorem State.setEflags_pace (v : Tab (BitVec 3)) : (s.setEflags v).pace = s.pace := rfl
@[simp] theorem State.setKs_time (v : Tab Word) : (s.setKs v).time = s.time := rfl
@[simp] theorem State.setKs_gs (v : Tab Word) : (s.setKs v).gs = s.gs := rfl
@[simp] theorem State.setKs_hs (v : Tab Word) : (s.setKs v).hs = s.hs := rfl
@[simp] theorem State.setKs_ws (v : Tab Word) : (s.setKs v).ws = s.ws := rfl
@[simp] theorem State.setKs_ps (v : Tab Word) : (s.setKs v).ps = s.ps := rfl
@[simp] theorem State.setKs_es (v : Tab Word) : (s.setKs v).es = s.es := rfl
@[simp] theorem State.setKs_eflags (v : Tab Word) : (s.setKs v).eflags = s.eflags := rfl
@[simp] theorem State.setKs_ks (v : Tab Word) : (s.setKs v).ks = v := rfl
@[simp] theorem State.setKs_js (v : Tab Word) : (s.setKs v).js = s.js := rfl
@[simp] theorem State.setKs_alley (v : Tab Word) : (s.setKs v).alley = s.alley := rfl
@[simp] theorem State.setKs_alleyOld (v : Tab Word) : (s.setKs v).alleyOld = s.alleyOld := rfl
@[simp] theorem State.setKs_strands (v : Tab Word) : (s.setKs v).strands = s.strands := rfl
@[simp] theorem State.setKs_gangs (v : Tab Word) : (s.setKs v).gangs = s.gangs := rfl
@[simp] theorem State.setKs_cells (v : Tab Word) : (s.setKs v).cells = s.cells := rfl
@[simp] theorem State.setKs_blocks (v : Tab Word) : (s.setKs v).blocks = s.blocks := rfl
@[simp] theorem State.setKs_grids (v : Tab Word) : (s.setKs v).grids = s.grids := rfl
@[simp] theorem State.setKs_dies (v : Tab Word) : (s.setKs v).dies = s.dies := rfl
@[simp] theorem State.setKs_pkg (v : Tab Word) : (s.setKs v).pkg = s.pkg := rfl
@[simp] theorem State.setKs_mem (v : Tab Word) : (s.setKs v).mem = s.mem := rfl
@[simp] theorem State.setKs_absent (v : Tab Word) : (s.setKs v).absent = s.absent := rfl
@[simp] theorem State.setKs_clears (v : Tab Word) : (s.setKs v).clears = s.clears := rfl
@[simp] theorem State.setKs_sets (v : Tab Word) : (s.setKs v).sets = s.sets := rfl
@[simp] theorem State.setKs_poison (v : Tab Word) : (s.setKs v).poison = s.poison := rfl
@[simp] theorem State.setKs_badRegs (v : Tab Word) : (s.setKs v).badRegs = s.badRegs := rfl
@[simp] theorem State.setKs_copies (v : Tab Word) : (s.setKs v).copies = s.copies := rfl
@[simp] theorem State.setKs_doomed (v : Tab Word) : (s.setKs v).doomed = s.doomed := rfl
@[simp] theorem State.setKs_pend (v : Tab Word) : (s.setKs v).pend = s.pend := rfl
@[simp] theorem State.setKs_stores (v : Tab Word) : (s.setKs v).stores = s.stores := rfl
@[simp] theorem State.setKs_walks (v : Tab Word) : (s.setKs v).walks = s.walks := rfl
@[simp] theorem State.setKs_xfers (v : Tab Word) : (s.setKs v).xfers = s.xfers := rfl
@[simp] theorem State.setKs_delivs (v : Tab Word) : (s.setKs v).delivs = s.delivs := rfl
@[simp] theorem State.setKs_chases (v : Tab Word) : (s.setKs v).chases = s.chases := rfl
@[simp] theorem State.setKs_joins (v : Tab Word) : (s.setKs v).joins = s.joins := rfl
@[simp] theorem State.setKs_flying (v : Tab Word) : (s.setKs v).flying = s.flying := rfl
@[simp] theorem State.setKs_kills (v : Tab Word) : (s.setKs v).kills = s.kills := rfl
@[simp] theorem State.setKs_fresh (v : Tab Word) : (s.setKs v).fresh = s.fresh := rfl
@[simp] theorem State.setKs_cur (v : Tab Word) : (s.setKs v).cur = s.cur := rfl
@[simp] theorem State.setKs_agenda (v : Tab Word) : (s.setKs v).agenda = s.agenda := rfl
@[simp] theorem State.setKs_queue (v : Tab Word) : (s.setKs v).queue = s.queue := rfl
@[simp] theorem State.setKs_filled (v : Tab Word) : (s.setKs v).filled = s.filled := rfl
@[simp] theorem State.setKs_foreseen (v : Tab Word) : (s.setKs v).foreseen = s.foreseen := rfl
@[simp] theorem State.setKs_pace (v : Tab Word) : (s.setKs v).pace = s.pace := rfl
@[simp] theorem State.setJs_time (v : Tab JSet) : (s.setJs v).time = s.time := rfl
@[simp] theorem State.setJs_gs (v : Tab JSet) : (s.setJs v).gs = s.gs := rfl
@[simp] theorem State.setJs_hs (v : Tab JSet) : (s.setJs v).hs = s.hs := rfl
@[simp] theorem State.setJs_ws (v : Tab JSet) : (s.setJs v).ws = s.ws := rfl
@[simp] theorem State.setJs_ps (v : Tab JSet) : (s.setJs v).ps = s.ps := rfl
@[simp] theorem State.setJs_es (v : Tab JSet) : (s.setJs v).es = s.es := rfl
@[simp] theorem State.setJs_eflags (v : Tab JSet) : (s.setJs v).eflags = s.eflags := rfl
@[simp] theorem State.setJs_ks (v : Tab JSet) : (s.setJs v).ks = s.ks := rfl
@[simp] theorem State.setJs_js (v : Tab JSet) : (s.setJs v).js = v := rfl
@[simp] theorem State.setJs_alley (v : Tab JSet) : (s.setJs v).alley = s.alley := rfl
@[simp] theorem State.setJs_alleyOld (v : Tab JSet) : (s.setJs v).alleyOld = s.alleyOld := rfl
@[simp] theorem State.setJs_strands (v : Tab JSet) : (s.setJs v).strands = s.strands := rfl
@[simp] theorem State.setJs_gangs (v : Tab JSet) : (s.setJs v).gangs = s.gangs := rfl
@[simp] theorem State.setJs_cells (v : Tab JSet) : (s.setJs v).cells = s.cells := rfl
@[simp] theorem State.setJs_blocks (v : Tab JSet) : (s.setJs v).blocks = s.blocks := rfl
@[simp] theorem State.setJs_grids (v : Tab JSet) : (s.setJs v).grids = s.grids := rfl
@[simp] theorem State.setJs_dies (v : Tab JSet) : (s.setJs v).dies = s.dies := rfl
@[simp] theorem State.setJs_pkg (v : Tab JSet) : (s.setJs v).pkg = s.pkg := rfl
@[simp] theorem State.setJs_mem (v : Tab JSet) : (s.setJs v).mem = s.mem := rfl
@[simp] theorem State.setJs_absent (v : Tab JSet) : (s.setJs v).absent = s.absent := rfl
@[simp] theorem State.setJs_clears (v : Tab JSet) : (s.setJs v).clears = s.clears := rfl
@[simp] theorem State.setJs_sets (v : Tab JSet) : (s.setJs v).sets = s.sets := rfl
@[simp] theorem State.setJs_poison (v : Tab JSet) : (s.setJs v).poison = s.poison := rfl
@[simp] theorem State.setJs_badRegs (v : Tab JSet) : (s.setJs v).badRegs = s.badRegs := rfl
@[simp] theorem State.setJs_copies (v : Tab JSet) : (s.setJs v).copies = s.copies := rfl
@[simp] theorem State.setJs_doomed (v : Tab JSet) : (s.setJs v).doomed = s.doomed := rfl
@[simp] theorem State.setJs_pend (v : Tab JSet) : (s.setJs v).pend = s.pend := rfl
@[simp] theorem State.setJs_stores (v : Tab JSet) : (s.setJs v).stores = s.stores := rfl
@[simp] theorem State.setJs_walks (v : Tab JSet) : (s.setJs v).walks = s.walks := rfl
@[simp] theorem State.setJs_xfers (v : Tab JSet) : (s.setJs v).xfers = s.xfers := rfl
@[simp] theorem State.setJs_delivs (v : Tab JSet) : (s.setJs v).delivs = s.delivs := rfl
@[simp] theorem State.setJs_chases (v : Tab JSet) : (s.setJs v).chases = s.chases := rfl
@[simp] theorem State.setJs_joins (v : Tab JSet) : (s.setJs v).joins = s.joins := rfl
@[simp] theorem State.setJs_flying (v : Tab JSet) : (s.setJs v).flying = s.flying := rfl
@[simp] theorem State.setJs_kills (v : Tab JSet) : (s.setJs v).kills = s.kills := rfl
@[simp] theorem State.setJs_fresh (v : Tab JSet) : (s.setJs v).fresh = s.fresh := rfl
@[simp] theorem State.setJs_cur (v : Tab JSet) : (s.setJs v).cur = s.cur := rfl
@[simp] theorem State.setJs_agenda (v : Tab JSet) : (s.setJs v).agenda = s.agenda := rfl
@[simp] theorem State.setJs_queue (v : Tab JSet) : (s.setJs v).queue = s.queue := rfl
@[simp] theorem State.setJs_filled (v : Tab JSet) : (s.setJs v).filled = s.filled := rfl
@[simp] theorem State.setJs_foreseen (v : Tab JSet) : (s.setJs v).foreseen = s.foreseen := rfl
@[simp] theorem State.setJs_pace (v : Tab JSet) : (s.setJs v).pace = s.pace := rfl
@[simp] theorem State.setAlley_time (v : Tab Word) : (s.setAlley v).time = s.time := rfl
@[simp] theorem State.setAlley_gs (v : Tab Word) : (s.setAlley v).gs = s.gs := rfl
@[simp] theorem State.setAlley_hs (v : Tab Word) : (s.setAlley v).hs = s.hs := rfl
@[simp] theorem State.setAlley_ws (v : Tab Word) : (s.setAlley v).ws = s.ws := rfl
@[simp] theorem State.setAlley_ps (v : Tab Word) : (s.setAlley v).ps = s.ps := rfl
@[simp] theorem State.setAlley_es (v : Tab Word) : (s.setAlley v).es = s.es := rfl
@[simp] theorem State.setAlley_eflags (v : Tab Word) : (s.setAlley v).eflags = s.eflags := rfl
@[simp] theorem State.setAlley_ks (v : Tab Word) : (s.setAlley v).ks = s.ks := rfl
@[simp] theorem State.setAlley_js (v : Tab Word) : (s.setAlley v).js = s.js := rfl
@[simp] theorem State.setAlley_alley (v : Tab Word) : (s.setAlley v).alley = v := rfl
@[simp] theorem State.setAlley_alleyOld (v : Tab Word) : (s.setAlley v).alleyOld = s.alleyOld := rfl
@[simp] theorem State.setAlley_strands (v : Tab Word) : (s.setAlley v).strands = s.strands := rfl
@[simp] theorem State.setAlley_gangs (v : Tab Word) : (s.setAlley v).gangs = s.gangs := rfl
@[simp] theorem State.setAlley_cells (v : Tab Word) : (s.setAlley v).cells = s.cells := rfl
@[simp] theorem State.setAlley_blocks (v : Tab Word) : (s.setAlley v).blocks = s.blocks := rfl
@[simp] theorem State.setAlley_grids (v : Tab Word) : (s.setAlley v).grids = s.grids := rfl
@[simp] theorem State.setAlley_dies (v : Tab Word) : (s.setAlley v).dies = s.dies := rfl
@[simp] theorem State.setAlley_pkg (v : Tab Word) : (s.setAlley v).pkg = s.pkg := rfl
@[simp] theorem State.setAlley_mem (v : Tab Word) : (s.setAlley v).mem = s.mem := rfl
@[simp] theorem State.setAlley_absent (v : Tab Word) : (s.setAlley v).absent = s.absent := rfl
@[simp] theorem State.setAlley_clears (v : Tab Word) : (s.setAlley v).clears = s.clears := rfl
@[simp] theorem State.setAlley_sets (v : Tab Word) : (s.setAlley v).sets = s.sets := rfl
@[simp] theorem State.setAlley_poison (v : Tab Word) : (s.setAlley v).poison = s.poison := rfl
@[simp] theorem State.setAlley_badRegs (v : Tab Word) : (s.setAlley v).badRegs = s.badRegs := rfl
@[simp] theorem State.setAlley_copies (v : Tab Word) : (s.setAlley v).copies = s.copies := rfl
@[simp] theorem State.setAlley_doomed (v : Tab Word) : (s.setAlley v).doomed = s.doomed := rfl
@[simp] theorem State.setAlley_pend (v : Tab Word) : (s.setAlley v).pend = s.pend := rfl
@[simp] theorem State.setAlley_stores (v : Tab Word) : (s.setAlley v).stores = s.stores := rfl
@[simp] theorem State.setAlley_walks (v : Tab Word) : (s.setAlley v).walks = s.walks := rfl
@[simp] theorem State.setAlley_xfers (v : Tab Word) : (s.setAlley v).xfers = s.xfers := rfl
@[simp] theorem State.setAlley_delivs (v : Tab Word) : (s.setAlley v).delivs = s.delivs := rfl
@[simp] theorem State.setAlley_chases (v : Tab Word) : (s.setAlley v).chases = s.chases := rfl
@[simp] theorem State.setAlley_joins (v : Tab Word) : (s.setAlley v).joins = s.joins := rfl
@[simp] theorem State.setAlley_flying (v : Tab Word) : (s.setAlley v).flying = s.flying := rfl
@[simp] theorem State.setAlley_kills (v : Tab Word) : (s.setAlley v).kills = s.kills := rfl
@[simp] theorem State.setAlley_fresh (v : Tab Word) : (s.setAlley v).fresh = s.fresh := rfl
@[simp] theorem State.setAlley_cur (v : Tab Word) : (s.setAlley v).cur = s.cur := rfl
@[simp] theorem State.setAlley_agenda (v : Tab Word) : (s.setAlley v).agenda = s.agenda := rfl
@[simp] theorem State.setAlley_queue (v : Tab Word) : (s.setAlley v).queue = s.queue := rfl
@[simp] theorem State.setAlley_filled (v : Tab Word) : (s.setAlley v).filled = s.filled := rfl
@[simp] theorem State.setAlley_foreseen (v : Tab Word) : (s.setAlley v).foreseen = s.foreseen := rfl
@[simp] theorem State.setAlley_pace (v : Tab Word) : (s.setAlley v).pace = s.pace := rfl
@[simp] theorem State.setAlleyOld_time (v : Tab (Option Word)) : (s.setAlleyOld v).time = s.time := rfl
@[simp] theorem State.setAlleyOld_gs (v : Tab (Option Word)) : (s.setAlleyOld v).gs = s.gs := rfl
@[simp] theorem State.setAlleyOld_hs (v : Tab (Option Word)) : (s.setAlleyOld v).hs = s.hs := rfl
@[simp] theorem State.setAlleyOld_ws (v : Tab (Option Word)) : (s.setAlleyOld v).ws = s.ws := rfl
@[simp] theorem State.setAlleyOld_ps (v : Tab (Option Word)) : (s.setAlleyOld v).ps = s.ps := rfl
@[simp] theorem State.setAlleyOld_es (v : Tab (Option Word)) : (s.setAlleyOld v).es = s.es := rfl
@[simp] theorem State.setAlleyOld_eflags (v : Tab (Option Word)) : (s.setAlleyOld v).eflags = s.eflags := rfl
@[simp] theorem State.setAlleyOld_ks (v : Tab (Option Word)) : (s.setAlleyOld v).ks = s.ks := rfl
@[simp] theorem State.setAlleyOld_js (v : Tab (Option Word)) : (s.setAlleyOld v).js = s.js := rfl
@[simp] theorem State.setAlleyOld_alley (v : Tab (Option Word)) : (s.setAlleyOld v).alley = s.alley := rfl
@[simp] theorem State.setAlleyOld_alleyOld (v : Tab (Option Word)) : (s.setAlleyOld v).alleyOld = v := rfl
@[simp] theorem State.setAlleyOld_strands (v : Tab (Option Word)) : (s.setAlleyOld v).strands = s.strands := rfl
@[simp] theorem State.setAlleyOld_gangs (v : Tab (Option Word)) : (s.setAlleyOld v).gangs = s.gangs := rfl
@[simp] theorem State.setAlleyOld_cells (v : Tab (Option Word)) : (s.setAlleyOld v).cells = s.cells := rfl
@[simp] theorem State.setAlleyOld_blocks (v : Tab (Option Word)) : (s.setAlleyOld v).blocks = s.blocks := rfl
@[simp] theorem State.setAlleyOld_grids (v : Tab (Option Word)) : (s.setAlleyOld v).grids = s.grids := rfl
@[simp] theorem State.setAlleyOld_dies (v : Tab (Option Word)) : (s.setAlleyOld v).dies = s.dies := rfl
@[simp] theorem State.setAlleyOld_pkg (v : Tab (Option Word)) : (s.setAlleyOld v).pkg = s.pkg := rfl
@[simp] theorem State.setAlleyOld_mem (v : Tab (Option Word)) : (s.setAlleyOld v).mem = s.mem := rfl
@[simp] theorem State.setAlleyOld_absent (v : Tab (Option Word)) : (s.setAlleyOld v).absent = s.absent := rfl
@[simp] theorem State.setAlleyOld_clears (v : Tab (Option Word)) : (s.setAlleyOld v).clears = s.clears := rfl
@[simp] theorem State.setAlleyOld_sets (v : Tab (Option Word)) : (s.setAlleyOld v).sets = s.sets := rfl
@[simp] theorem State.setAlleyOld_poison (v : Tab (Option Word)) : (s.setAlleyOld v).poison = s.poison := rfl
@[simp] theorem State.setAlleyOld_badRegs (v : Tab (Option Word)) : (s.setAlleyOld v).badRegs = s.badRegs := rfl
@[simp] theorem State.setAlleyOld_copies (v : Tab (Option Word)) : (s.setAlleyOld v).copies = s.copies := rfl
@[simp] theorem State.setAlleyOld_doomed (v : Tab (Option Word)) : (s.setAlleyOld v).doomed = s.doomed := rfl
@[simp] theorem State.setAlleyOld_pend (v : Tab (Option Word)) : (s.setAlleyOld v).pend = s.pend := rfl
@[simp] theorem State.setAlleyOld_stores (v : Tab (Option Word)) : (s.setAlleyOld v).stores = s.stores := rfl
@[simp] theorem State.setAlleyOld_walks (v : Tab (Option Word)) : (s.setAlleyOld v).walks = s.walks := rfl
@[simp] theorem State.setAlleyOld_xfers (v : Tab (Option Word)) : (s.setAlleyOld v).xfers = s.xfers := rfl
@[simp] theorem State.setAlleyOld_delivs (v : Tab (Option Word)) : (s.setAlleyOld v).delivs = s.delivs := rfl
@[simp] theorem State.setAlleyOld_chases (v : Tab (Option Word)) : (s.setAlleyOld v).chases = s.chases := rfl
@[simp] theorem State.setAlleyOld_joins (v : Tab (Option Word)) : (s.setAlleyOld v).joins = s.joins := rfl
@[simp] theorem State.setAlleyOld_flying (v : Tab (Option Word)) : (s.setAlleyOld v).flying = s.flying := rfl
@[simp] theorem State.setAlleyOld_kills (v : Tab (Option Word)) : (s.setAlleyOld v).kills = s.kills := rfl
@[simp] theorem State.setAlleyOld_fresh (v : Tab (Option Word)) : (s.setAlleyOld v).fresh = s.fresh := rfl
@[simp] theorem State.setAlleyOld_cur (v : Tab (Option Word)) : (s.setAlleyOld v).cur = s.cur := rfl
@[simp] theorem State.setAlleyOld_agenda (v : Tab (Option Word)) : (s.setAlleyOld v).agenda = s.agenda := rfl
@[simp] theorem State.setAlleyOld_queue (v : Tab (Option Word)) : (s.setAlleyOld v).queue = s.queue := rfl
@[simp] theorem State.setAlleyOld_filled (v : Tab (Option Word)) : (s.setAlleyOld v).filled = s.filled := rfl
@[simp] theorem State.setAlleyOld_foreseen (v : Tab (Option Word)) : (s.setAlleyOld v).foreseen = s.foreseen := rfl
@[simp] theorem State.setAlleyOld_pace (v : Tab (Option Word)) : (s.setAlleyOld v).pace = s.pace := rfl
@[simp] theorem State.setStrands_time (v : Tab Strand) : (s.setStrands v).time = s.time := rfl
@[simp] theorem State.setStrands_gs (v : Tab Strand) : (s.setStrands v).gs = s.gs := rfl
@[simp] theorem State.setStrands_hs (v : Tab Strand) : (s.setStrands v).hs = s.hs := rfl
@[simp] theorem State.setStrands_ws (v : Tab Strand) : (s.setStrands v).ws = s.ws := rfl
@[simp] theorem State.setStrands_ps (v : Tab Strand) : (s.setStrands v).ps = s.ps := rfl
@[simp] theorem State.setStrands_es (v : Tab Strand) : (s.setStrands v).es = s.es := rfl
@[simp] theorem State.setStrands_eflags (v : Tab Strand) : (s.setStrands v).eflags = s.eflags := rfl
@[simp] theorem State.setStrands_ks (v : Tab Strand) : (s.setStrands v).ks = s.ks := rfl
@[simp] theorem State.setStrands_js (v : Tab Strand) : (s.setStrands v).js = s.js := rfl
@[simp] theorem State.setStrands_alley (v : Tab Strand) : (s.setStrands v).alley = s.alley := rfl
@[simp] theorem State.setStrands_alleyOld (v : Tab Strand) : (s.setStrands v).alleyOld = s.alleyOld := rfl
@[simp] theorem State.setStrands_strands (v : Tab Strand) : (s.setStrands v).strands = v := rfl
@[simp] theorem State.setStrands_gangs (v : Tab Strand) : (s.setStrands v).gangs = s.gangs := rfl
@[simp] theorem State.setStrands_cells (v : Tab Strand) : (s.setStrands v).cells = s.cells := rfl
@[simp] theorem State.setStrands_blocks (v : Tab Strand) : (s.setStrands v).blocks = s.blocks := rfl
@[simp] theorem State.setStrands_grids (v : Tab Strand) : (s.setStrands v).grids = s.grids := rfl
@[simp] theorem State.setStrands_dies (v : Tab Strand) : (s.setStrands v).dies = s.dies := rfl
@[simp] theorem State.setStrands_pkg (v : Tab Strand) : (s.setStrands v).pkg = s.pkg := rfl
@[simp] theorem State.setStrands_mem (v : Tab Strand) : (s.setStrands v).mem = s.mem := rfl
@[simp] theorem State.setStrands_absent (v : Tab Strand) : (s.setStrands v).absent = s.absent := rfl
@[simp] theorem State.setStrands_clears (v : Tab Strand) : (s.setStrands v).clears = s.clears := rfl
@[simp] theorem State.setStrands_sets (v : Tab Strand) : (s.setStrands v).sets = s.sets := rfl
@[simp] theorem State.setStrands_poison (v : Tab Strand) : (s.setStrands v).poison = s.poison := rfl
@[simp] theorem State.setStrands_badRegs (v : Tab Strand) : (s.setStrands v).badRegs = s.badRegs := rfl
@[simp] theorem State.setStrands_copies (v : Tab Strand) : (s.setStrands v).copies = s.copies := rfl
@[simp] theorem State.setStrands_doomed (v : Tab Strand) : (s.setStrands v).doomed = s.doomed := rfl
@[simp] theorem State.setStrands_pend (v : Tab Strand) : (s.setStrands v).pend = s.pend := rfl
@[simp] theorem State.setStrands_stores (v : Tab Strand) : (s.setStrands v).stores = s.stores := rfl
@[simp] theorem State.setStrands_walks (v : Tab Strand) : (s.setStrands v).walks = s.walks := rfl
@[simp] theorem State.setStrands_xfers (v : Tab Strand) : (s.setStrands v).xfers = s.xfers := rfl
@[simp] theorem State.setStrands_delivs (v : Tab Strand) : (s.setStrands v).delivs = s.delivs := rfl
@[simp] theorem State.setStrands_chases (v : Tab Strand) : (s.setStrands v).chases = s.chases := rfl
@[simp] theorem State.setStrands_joins (v : Tab Strand) : (s.setStrands v).joins = s.joins := rfl
@[simp] theorem State.setStrands_flying (v : Tab Strand) : (s.setStrands v).flying = s.flying := rfl
@[simp] theorem State.setStrands_kills (v : Tab Strand) : (s.setStrands v).kills = s.kills := rfl
@[simp] theorem State.setStrands_fresh (v : Tab Strand) : (s.setStrands v).fresh = s.fresh := rfl
@[simp] theorem State.setStrands_cur (v : Tab Strand) : (s.setStrands v).cur = s.cur := rfl
@[simp] theorem State.setStrands_agenda (v : Tab Strand) : (s.setStrands v).agenda = s.agenda := rfl
@[simp] theorem State.setStrands_queue (v : Tab Strand) : (s.setStrands v).queue = s.queue := rfl
@[simp] theorem State.setStrands_filled (v : Tab Strand) : (s.setStrands v).filled = s.filled := rfl
@[simp] theorem State.setStrands_foreseen (v : Tab Strand) : (s.setStrands v).foreseen = s.foreseen := rfl
@[simp] theorem State.setStrands_pace (v : Tab Strand) : (s.setStrands v).pace = s.pace := rfl
@[simp] theorem State.setGangs_time (v : Tab Gang) : (s.setGangs v).time = s.time := rfl
@[simp] theorem State.setGangs_gs (v : Tab Gang) : (s.setGangs v).gs = s.gs := rfl
@[simp] theorem State.setGangs_hs (v : Tab Gang) : (s.setGangs v).hs = s.hs := rfl
@[simp] theorem State.setGangs_ws (v : Tab Gang) : (s.setGangs v).ws = s.ws := rfl
@[simp] theorem State.setGangs_ps (v : Tab Gang) : (s.setGangs v).ps = s.ps := rfl
@[simp] theorem State.setGangs_es (v : Tab Gang) : (s.setGangs v).es = s.es := rfl
@[simp] theorem State.setGangs_eflags (v : Tab Gang) : (s.setGangs v).eflags = s.eflags := rfl
@[simp] theorem State.setGangs_ks (v : Tab Gang) : (s.setGangs v).ks = s.ks := rfl
@[simp] theorem State.setGangs_js (v : Tab Gang) : (s.setGangs v).js = s.js := rfl
@[simp] theorem State.setGangs_alley (v : Tab Gang) : (s.setGangs v).alley = s.alley := rfl
@[simp] theorem State.setGangs_alleyOld (v : Tab Gang) : (s.setGangs v).alleyOld = s.alleyOld := rfl
@[simp] theorem State.setGangs_strands (v : Tab Gang) : (s.setGangs v).strands = s.strands := rfl
@[simp] theorem State.setGangs_gangs (v : Tab Gang) : (s.setGangs v).gangs = v := rfl
@[simp] theorem State.setGangs_cells (v : Tab Gang) : (s.setGangs v).cells = s.cells := rfl
@[simp] theorem State.setGangs_blocks (v : Tab Gang) : (s.setGangs v).blocks = s.blocks := rfl
@[simp] theorem State.setGangs_grids (v : Tab Gang) : (s.setGangs v).grids = s.grids := rfl
@[simp] theorem State.setGangs_dies (v : Tab Gang) : (s.setGangs v).dies = s.dies := rfl
@[simp] theorem State.setGangs_pkg (v : Tab Gang) : (s.setGangs v).pkg = s.pkg := rfl
@[simp] theorem State.setGangs_mem (v : Tab Gang) : (s.setGangs v).mem = s.mem := rfl
@[simp] theorem State.setGangs_absent (v : Tab Gang) : (s.setGangs v).absent = s.absent := rfl
@[simp] theorem State.setGangs_clears (v : Tab Gang) : (s.setGangs v).clears = s.clears := rfl
@[simp] theorem State.setGangs_sets (v : Tab Gang) : (s.setGangs v).sets = s.sets := rfl
@[simp] theorem State.setGangs_poison (v : Tab Gang) : (s.setGangs v).poison = s.poison := rfl
@[simp] theorem State.setGangs_badRegs (v : Tab Gang) : (s.setGangs v).badRegs = s.badRegs := rfl
@[simp] theorem State.setGangs_copies (v : Tab Gang) : (s.setGangs v).copies = s.copies := rfl
@[simp] theorem State.setGangs_doomed (v : Tab Gang) : (s.setGangs v).doomed = s.doomed := rfl
@[simp] theorem State.setGangs_pend (v : Tab Gang) : (s.setGangs v).pend = s.pend := rfl
@[simp] theorem State.setGangs_stores (v : Tab Gang) : (s.setGangs v).stores = s.stores := rfl
@[simp] theorem State.setGangs_walks (v : Tab Gang) : (s.setGangs v).walks = s.walks := rfl
@[simp] theorem State.setGangs_xfers (v : Tab Gang) : (s.setGangs v).xfers = s.xfers := rfl
@[simp] theorem State.setGangs_delivs (v : Tab Gang) : (s.setGangs v).delivs = s.delivs := rfl
@[simp] theorem State.setGangs_chases (v : Tab Gang) : (s.setGangs v).chases = s.chases := rfl
@[simp] theorem State.setGangs_joins (v : Tab Gang) : (s.setGangs v).joins = s.joins := rfl
@[simp] theorem State.setGangs_flying (v : Tab Gang) : (s.setGangs v).flying = s.flying := rfl
@[simp] theorem State.setGangs_kills (v : Tab Gang) : (s.setGangs v).kills = s.kills := rfl
@[simp] theorem State.setGangs_fresh (v : Tab Gang) : (s.setGangs v).fresh = s.fresh := rfl
@[simp] theorem State.setGangs_cur (v : Tab Gang) : (s.setGangs v).cur = s.cur := rfl
@[simp] theorem State.setGangs_agenda (v : Tab Gang) : (s.setGangs v).agenda = s.agenda := rfl
@[simp] theorem State.setGangs_queue (v : Tab Gang) : (s.setGangs v).queue = s.queue := rfl
@[simp] theorem State.setGangs_filled (v : Tab Gang) : (s.setGangs v).filled = s.filled := rfl
@[simp] theorem State.setGangs_foreseen (v : Tab Gang) : (s.setGangs v).foreseen = s.foreseen := rfl
@[simp] theorem State.setGangs_pace (v : Tab Gang) : (s.setGangs v).pace = s.pace := rfl
@[simp] theorem State.setCells_time (v : Tab CellSt) : (s.setCells v).time = s.time := rfl
@[simp] theorem State.setCells_gs (v : Tab CellSt) : (s.setCells v).gs = s.gs := rfl
@[simp] theorem State.setCells_hs (v : Tab CellSt) : (s.setCells v).hs = s.hs := rfl
@[simp] theorem State.setCells_ws (v : Tab CellSt) : (s.setCells v).ws = s.ws := rfl
@[simp] theorem State.setCells_ps (v : Tab CellSt) : (s.setCells v).ps = s.ps := rfl
@[simp] theorem State.setCells_es (v : Tab CellSt) : (s.setCells v).es = s.es := rfl
@[simp] theorem State.setCells_eflags (v : Tab CellSt) : (s.setCells v).eflags = s.eflags := rfl
@[simp] theorem State.setCells_ks (v : Tab CellSt) : (s.setCells v).ks = s.ks := rfl
@[simp] theorem State.setCells_js (v : Tab CellSt) : (s.setCells v).js = s.js := rfl
@[simp] theorem State.setCells_alley (v : Tab CellSt) : (s.setCells v).alley = s.alley := rfl
@[simp] theorem State.setCells_alleyOld (v : Tab CellSt) : (s.setCells v).alleyOld = s.alleyOld := rfl
@[simp] theorem State.setCells_strands (v : Tab CellSt) : (s.setCells v).strands = s.strands := rfl
@[simp] theorem State.setCells_gangs (v : Tab CellSt) : (s.setCells v).gangs = s.gangs := rfl
@[simp] theorem State.setCells_cells (v : Tab CellSt) : (s.setCells v).cells = v := rfl
@[simp] theorem State.setCells_blocks (v : Tab CellSt) : (s.setCells v).blocks = s.blocks := rfl
@[simp] theorem State.setCells_grids (v : Tab CellSt) : (s.setCells v).grids = s.grids := rfl
@[simp] theorem State.setCells_dies (v : Tab CellSt) : (s.setCells v).dies = s.dies := rfl
@[simp] theorem State.setCells_pkg (v : Tab CellSt) : (s.setCells v).pkg = s.pkg := rfl
@[simp] theorem State.setCells_mem (v : Tab CellSt) : (s.setCells v).mem = s.mem := rfl
@[simp] theorem State.setCells_absent (v : Tab CellSt) : (s.setCells v).absent = s.absent := rfl
@[simp] theorem State.setCells_clears (v : Tab CellSt) : (s.setCells v).clears = s.clears := rfl
@[simp] theorem State.setCells_sets (v : Tab CellSt) : (s.setCells v).sets = s.sets := rfl
@[simp] theorem State.setCells_poison (v : Tab CellSt) : (s.setCells v).poison = s.poison := rfl
@[simp] theorem State.setCells_badRegs (v : Tab CellSt) : (s.setCells v).badRegs = s.badRegs := rfl
@[simp] theorem State.setCells_copies (v : Tab CellSt) : (s.setCells v).copies = s.copies := rfl
@[simp] theorem State.setCells_doomed (v : Tab CellSt) : (s.setCells v).doomed = s.doomed := rfl
@[simp] theorem State.setCells_pend (v : Tab CellSt) : (s.setCells v).pend = s.pend := rfl
@[simp] theorem State.setCells_stores (v : Tab CellSt) : (s.setCells v).stores = s.stores := rfl
@[simp] theorem State.setCells_walks (v : Tab CellSt) : (s.setCells v).walks = s.walks := rfl
@[simp] theorem State.setCells_xfers (v : Tab CellSt) : (s.setCells v).xfers = s.xfers := rfl
@[simp] theorem State.setCells_delivs (v : Tab CellSt) : (s.setCells v).delivs = s.delivs := rfl
@[simp] theorem State.setCells_chases (v : Tab CellSt) : (s.setCells v).chases = s.chases := rfl
@[simp] theorem State.setCells_joins (v : Tab CellSt) : (s.setCells v).joins = s.joins := rfl
@[simp] theorem State.setCells_flying (v : Tab CellSt) : (s.setCells v).flying = s.flying := rfl
@[simp] theorem State.setCells_kills (v : Tab CellSt) : (s.setCells v).kills = s.kills := rfl
@[simp] theorem State.setCells_fresh (v : Tab CellSt) : (s.setCells v).fresh = s.fresh := rfl
@[simp] theorem State.setCells_cur (v : Tab CellSt) : (s.setCells v).cur = s.cur := rfl
@[simp] theorem State.setCells_agenda (v : Tab CellSt) : (s.setCells v).agenda = s.agenda := rfl
@[simp] theorem State.setCells_queue (v : Tab CellSt) : (s.setCells v).queue = s.queue := rfl
@[simp] theorem State.setCells_filled (v : Tab CellSt) : (s.setCells v).filled = s.filled := rfl
@[simp] theorem State.setCells_foreseen (v : Tab CellSt) : (s.setCells v).foreseen = s.foreseen := rfl
@[simp] theorem State.setCells_pace (v : Tab CellSt) : (s.setCells v).pace = s.pace := rfl
@[simp] theorem State.setBlocks_time (v : Tab Block) : (s.setBlocks v).time = s.time := rfl
@[simp] theorem State.setBlocks_gs (v : Tab Block) : (s.setBlocks v).gs = s.gs := rfl
@[simp] theorem State.setBlocks_hs (v : Tab Block) : (s.setBlocks v).hs = s.hs := rfl
@[simp] theorem State.setBlocks_ws (v : Tab Block) : (s.setBlocks v).ws = s.ws := rfl
@[simp] theorem State.setBlocks_ps (v : Tab Block) : (s.setBlocks v).ps = s.ps := rfl
@[simp] theorem State.setBlocks_es (v : Tab Block) : (s.setBlocks v).es = s.es := rfl
@[simp] theorem State.setBlocks_eflags (v : Tab Block) : (s.setBlocks v).eflags = s.eflags := rfl
@[simp] theorem State.setBlocks_ks (v : Tab Block) : (s.setBlocks v).ks = s.ks := rfl
@[simp] theorem State.setBlocks_js (v : Tab Block) : (s.setBlocks v).js = s.js := rfl
@[simp] theorem State.setBlocks_alley (v : Tab Block) : (s.setBlocks v).alley = s.alley := rfl
@[simp] theorem State.setBlocks_alleyOld (v : Tab Block) : (s.setBlocks v).alleyOld = s.alleyOld := rfl
@[simp] theorem State.setBlocks_strands (v : Tab Block) : (s.setBlocks v).strands = s.strands := rfl
@[simp] theorem State.setBlocks_gangs (v : Tab Block) : (s.setBlocks v).gangs = s.gangs := rfl
@[simp] theorem State.setBlocks_cells (v : Tab Block) : (s.setBlocks v).cells = s.cells := rfl
@[simp] theorem State.setBlocks_blocks (v : Tab Block) : (s.setBlocks v).blocks = v := rfl
@[simp] theorem State.setBlocks_grids (v : Tab Block) : (s.setBlocks v).grids = s.grids := rfl
@[simp] theorem State.setBlocks_dies (v : Tab Block) : (s.setBlocks v).dies = s.dies := rfl
@[simp] theorem State.setBlocks_pkg (v : Tab Block) : (s.setBlocks v).pkg = s.pkg := rfl
@[simp] theorem State.setBlocks_mem (v : Tab Block) : (s.setBlocks v).mem = s.mem := rfl
@[simp] theorem State.setBlocks_absent (v : Tab Block) : (s.setBlocks v).absent = s.absent := rfl
@[simp] theorem State.setBlocks_clears (v : Tab Block) : (s.setBlocks v).clears = s.clears := rfl
@[simp] theorem State.setBlocks_sets (v : Tab Block) : (s.setBlocks v).sets = s.sets := rfl
@[simp] theorem State.setBlocks_poison (v : Tab Block) : (s.setBlocks v).poison = s.poison := rfl
@[simp] theorem State.setBlocks_badRegs (v : Tab Block) : (s.setBlocks v).badRegs = s.badRegs := rfl
@[simp] theorem State.setBlocks_copies (v : Tab Block) : (s.setBlocks v).copies = s.copies := rfl
@[simp] theorem State.setBlocks_doomed (v : Tab Block) : (s.setBlocks v).doomed = s.doomed := rfl
@[simp] theorem State.setBlocks_pend (v : Tab Block) : (s.setBlocks v).pend = s.pend := rfl
@[simp] theorem State.setBlocks_stores (v : Tab Block) : (s.setBlocks v).stores = s.stores := rfl
@[simp] theorem State.setBlocks_walks (v : Tab Block) : (s.setBlocks v).walks = s.walks := rfl
@[simp] theorem State.setBlocks_xfers (v : Tab Block) : (s.setBlocks v).xfers = s.xfers := rfl
@[simp] theorem State.setBlocks_delivs (v : Tab Block) : (s.setBlocks v).delivs = s.delivs := rfl
@[simp] theorem State.setBlocks_chases (v : Tab Block) : (s.setBlocks v).chases = s.chases := rfl
@[simp] theorem State.setBlocks_joins (v : Tab Block) : (s.setBlocks v).joins = s.joins := rfl
@[simp] theorem State.setBlocks_flying (v : Tab Block) : (s.setBlocks v).flying = s.flying := rfl
@[simp] theorem State.setBlocks_kills (v : Tab Block) : (s.setBlocks v).kills = s.kills := rfl
@[simp] theorem State.setBlocks_fresh (v : Tab Block) : (s.setBlocks v).fresh = s.fresh := rfl
@[simp] theorem State.setBlocks_cur (v : Tab Block) : (s.setBlocks v).cur = s.cur := rfl
@[simp] theorem State.setBlocks_agenda (v : Tab Block) : (s.setBlocks v).agenda = s.agenda := rfl
@[simp] theorem State.setBlocks_queue (v : Tab Block) : (s.setBlocks v).queue = s.queue := rfl
@[simp] theorem State.setBlocks_filled (v : Tab Block) : (s.setBlocks v).filled = s.filled := rfl
@[simp] theorem State.setBlocks_foreseen (v : Tab Block) : (s.setBlocks v).foreseen = s.foreseen := rfl
@[simp] theorem State.setBlocks_pace (v : Tab Block) : (s.setBlocks v).pace = s.pace := rfl
@[simp] theorem State.setGrids_time (v : Tab Grid) : (s.setGrids v).time = s.time := rfl
@[simp] theorem State.setGrids_gs (v : Tab Grid) : (s.setGrids v).gs = s.gs := rfl
@[simp] theorem State.setGrids_hs (v : Tab Grid) : (s.setGrids v).hs = s.hs := rfl
@[simp] theorem State.setGrids_ws (v : Tab Grid) : (s.setGrids v).ws = s.ws := rfl
@[simp] theorem State.setGrids_ps (v : Tab Grid) : (s.setGrids v).ps = s.ps := rfl
@[simp] theorem State.setGrids_es (v : Tab Grid) : (s.setGrids v).es = s.es := rfl
@[simp] theorem State.setGrids_eflags (v : Tab Grid) : (s.setGrids v).eflags = s.eflags := rfl
@[simp] theorem State.setGrids_ks (v : Tab Grid) : (s.setGrids v).ks = s.ks := rfl
@[simp] theorem State.setGrids_js (v : Tab Grid) : (s.setGrids v).js = s.js := rfl
@[simp] theorem State.setGrids_alley (v : Tab Grid) : (s.setGrids v).alley = s.alley := rfl
@[simp] theorem State.setGrids_alleyOld (v : Tab Grid) : (s.setGrids v).alleyOld = s.alleyOld := rfl
@[simp] theorem State.setGrids_strands (v : Tab Grid) : (s.setGrids v).strands = s.strands := rfl
@[simp] theorem State.setGrids_gangs (v : Tab Grid) : (s.setGrids v).gangs = s.gangs := rfl
@[simp] theorem State.setGrids_cells (v : Tab Grid) : (s.setGrids v).cells = s.cells := rfl
@[simp] theorem State.setGrids_blocks (v : Tab Grid) : (s.setGrids v).blocks = s.blocks := rfl
@[simp] theorem State.setGrids_grids (v : Tab Grid) : (s.setGrids v).grids = v := rfl
@[simp] theorem State.setGrids_dies (v : Tab Grid) : (s.setGrids v).dies = s.dies := rfl
@[simp] theorem State.setGrids_pkg (v : Tab Grid) : (s.setGrids v).pkg = s.pkg := rfl
@[simp] theorem State.setGrids_mem (v : Tab Grid) : (s.setGrids v).mem = s.mem := rfl
@[simp] theorem State.setGrids_absent (v : Tab Grid) : (s.setGrids v).absent = s.absent := rfl
@[simp] theorem State.setGrids_clears (v : Tab Grid) : (s.setGrids v).clears = s.clears := rfl
@[simp] theorem State.setGrids_sets (v : Tab Grid) : (s.setGrids v).sets = s.sets := rfl
@[simp] theorem State.setGrids_poison (v : Tab Grid) : (s.setGrids v).poison = s.poison := rfl
@[simp] theorem State.setGrids_badRegs (v : Tab Grid) : (s.setGrids v).badRegs = s.badRegs := rfl
@[simp] theorem State.setGrids_copies (v : Tab Grid) : (s.setGrids v).copies = s.copies := rfl
@[simp] theorem State.setGrids_doomed (v : Tab Grid) : (s.setGrids v).doomed = s.doomed := rfl
@[simp] theorem State.setGrids_pend (v : Tab Grid) : (s.setGrids v).pend = s.pend := rfl
@[simp] theorem State.setGrids_stores (v : Tab Grid) : (s.setGrids v).stores = s.stores := rfl
@[simp] theorem State.setGrids_walks (v : Tab Grid) : (s.setGrids v).walks = s.walks := rfl
@[simp] theorem State.setGrids_xfers (v : Tab Grid) : (s.setGrids v).xfers = s.xfers := rfl
@[simp] theorem State.setGrids_delivs (v : Tab Grid) : (s.setGrids v).delivs = s.delivs := rfl
@[simp] theorem State.setGrids_chases (v : Tab Grid) : (s.setGrids v).chases = s.chases := rfl
@[simp] theorem State.setGrids_joins (v : Tab Grid) : (s.setGrids v).joins = s.joins := rfl
@[simp] theorem State.setGrids_flying (v : Tab Grid) : (s.setGrids v).flying = s.flying := rfl
@[simp] theorem State.setGrids_kills (v : Tab Grid) : (s.setGrids v).kills = s.kills := rfl
@[simp] theorem State.setGrids_fresh (v : Tab Grid) : (s.setGrids v).fresh = s.fresh := rfl
@[simp] theorem State.setGrids_cur (v : Tab Grid) : (s.setGrids v).cur = s.cur := rfl
@[simp] theorem State.setGrids_agenda (v : Tab Grid) : (s.setGrids v).agenda = s.agenda := rfl
@[simp] theorem State.setGrids_queue (v : Tab Grid) : (s.setGrids v).queue = s.queue := rfl
@[simp] theorem State.setGrids_filled (v : Tab Grid) : (s.setGrids v).filled = s.filled := rfl
@[simp] theorem State.setGrids_foreseen (v : Tab Grid) : (s.setGrids v).foreseen = s.foreseen := rfl
@[simp] theorem State.setGrids_pace (v : Tab Grid) : (s.setGrids v).pace = s.pace := rfl
@[simp] theorem State.setDies_time (v : Tab DieSt) : (s.setDies v).time = s.time := rfl
@[simp] theorem State.setDies_gs (v : Tab DieSt) : (s.setDies v).gs = s.gs := rfl
@[simp] theorem State.setDies_hs (v : Tab DieSt) : (s.setDies v).hs = s.hs := rfl
@[simp] theorem State.setDies_ws (v : Tab DieSt) : (s.setDies v).ws = s.ws := rfl
@[simp] theorem State.setDies_ps (v : Tab DieSt) : (s.setDies v).ps = s.ps := rfl
@[simp] theorem State.setDies_es (v : Tab DieSt) : (s.setDies v).es = s.es := rfl
@[simp] theorem State.setDies_eflags (v : Tab DieSt) : (s.setDies v).eflags = s.eflags := rfl
@[simp] theorem State.setDies_ks (v : Tab DieSt) : (s.setDies v).ks = s.ks := rfl
@[simp] theorem State.setDies_js (v : Tab DieSt) : (s.setDies v).js = s.js := rfl
@[simp] theorem State.setDies_alley (v : Tab DieSt) : (s.setDies v).alley = s.alley := rfl
@[simp] theorem State.setDies_alleyOld (v : Tab DieSt) : (s.setDies v).alleyOld = s.alleyOld := rfl
@[simp] theorem State.setDies_strands (v : Tab DieSt) : (s.setDies v).strands = s.strands := rfl
@[simp] theorem State.setDies_gangs (v : Tab DieSt) : (s.setDies v).gangs = s.gangs := rfl
@[simp] theorem State.setDies_cells (v : Tab DieSt) : (s.setDies v).cells = s.cells := rfl
@[simp] theorem State.setDies_blocks (v : Tab DieSt) : (s.setDies v).blocks = s.blocks := rfl
@[simp] theorem State.setDies_grids (v : Tab DieSt) : (s.setDies v).grids = s.grids := rfl
@[simp] theorem State.setDies_dies (v : Tab DieSt) : (s.setDies v).dies = v := rfl
@[simp] theorem State.setDies_pkg (v : Tab DieSt) : (s.setDies v).pkg = s.pkg := rfl
@[simp] theorem State.setDies_mem (v : Tab DieSt) : (s.setDies v).mem = s.mem := rfl
@[simp] theorem State.setDies_absent (v : Tab DieSt) : (s.setDies v).absent = s.absent := rfl
@[simp] theorem State.setDies_clears (v : Tab DieSt) : (s.setDies v).clears = s.clears := rfl
@[simp] theorem State.setDies_sets (v : Tab DieSt) : (s.setDies v).sets = s.sets := rfl
@[simp] theorem State.setDies_poison (v : Tab DieSt) : (s.setDies v).poison = s.poison := rfl
@[simp] theorem State.setDies_badRegs (v : Tab DieSt) : (s.setDies v).badRegs = s.badRegs := rfl
@[simp] theorem State.setDies_copies (v : Tab DieSt) : (s.setDies v).copies = s.copies := rfl
@[simp] theorem State.setDies_doomed (v : Tab DieSt) : (s.setDies v).doomed = s.doomed := rfl
@[simp] theorem State.setDies_pend (v : Tab DieSt) : (s.setDies v).pend = s.pend := rfl
@[simp] theorem State.setDies_stores (v : Tab DieSt) : (s.setDies v).stores = s.stores := rfl
@[simp] theorem State.setDies_walks (v : Tab DieSt) : (s.setDies v).walks = s.walks := rfl
@[simp] theorem State.setDies_xfers (v : Tab DieSt) : (s.setDies v).xfers = s.xfers := rfl
@[simp] theorem State.setDies_delivs (v : Tab DieSt) : (s.setDies v).delivs = s.delivs := rfl
@[simp] theorem State.setDies_chases (v : Tab DieSt) : (s.setDies v).chases = s.chases := rfl
@[simp] theorem State.setDies_joins (v : Tab DieSt) : (s.setDies v).joins = s.joins := rfl
@[simp] theorem State.setDies_flying (v : Tab DieSt) : (s.setDies v).flying = s.flying := rfl
@[simp] theorem State.setDies_kills (v : Tab DieSt) : (s.setDies v).kills = s.kills := rfl
@[simp] theorem State.setDies_fresh (v : Tab DieSt) : (s.setDies v).fresh = s.fresh := rfl
@[simp] theorem State.setDies_cur (v : Tab DieSt) : (s.setDies v).cur = s.cur := rfl
@[simp] theorem State.setDies_agenda (v : Tab DieSt) : (s.setDies v).agenda = s.agenda := rfl
@[simp] theorem State.setDies_queue (v : Tab DieSt) : (s.setDies v).queue = s.queue := rfl
@[simp] theorem State.setDies_filled (v : Tab DieSt) : (s.setDies v).filled = s.filled := rfl
@[simp] theorem State.setDies_foreseen (v : Tab DieSt) : (s.setDies v).foreseen = s.foreseen := rfl
@[simp] theorem State.setDies_pace (v : Tab DieSt) : (s.setDies v).pace = s.pace := rfl
@[simp] theorem State.setPkg_time (v : Pkg) : (s.setPkg v).time = s.time := rfl
@[simp] theorem State.setPkg_gs (v : Pkg) : (s.setPkg v).gs = s.gs := rfl
@[simp] theorem State.setPkg_hs (v : Pkg) : (s.setPkg v).hs = s.hs := rfl
@[simp] theorem State.setPkg_ws (v : Pkg) : (s.setPkg v).ws = s.ws := rfl
@[simp] theorem State.setPkg_ps (v : Pkg) : (s.setPkg v).ps = s.ps := rfl
@[simp] theorem State.setPkg_es (v : Pkg) : (s.setPkg v).es = s.es := rfl
@[simp] theorem State.setPkg_eflags (v : Pkg) : (s.setPkg v).eflags = s.eflags := rfl
@[simp] theorem State.setPkg_ks (v : Pkg) : (s.setPkg v).ks = s.ks := rfl
@[simp] theorem State.setPkg_js (v : Pkg) : (s.setPkg v).js = s.js := rfl
@[simp] theorem State.setPkg_alley (v : Pkg) : (s.setPkg v).alley = s.alley := rfl
@[simp] theorem State.setPkg_alleyOld (v : Pkg) : (s.setPkg v).alleyOld = s.alleyOld := rfl
@[simp] theorem State.setPkg_strands (v : Pkg) : (s.setPkg v).strands = s.strands := rfl
@[simp] theorem State.setPkg_gangs (v : Pkg) : (s.setPkg v).gangs = s.gangs := rfl
@[simp] theorem State.setPkg_cells (v : Pkg) : (s.setPkg v).cells = s.cells := rfl
@[simp] theorem State.setPkg_blocks (v : Pkg) : (s.setPkg v).blocks = s.blocks := rfl
@[simp] theorem State.setPkg_grids (v : Pkg) : (s.setPkg v).grids = s.grids := rfl
@[simp] theorem State.setPkg_dies (v : Pkg) : (s.setPkg v).dies = s.dies := rfl
@[simp] theorem State.setPkg_pkg (v : Pkg) : (s.setPkg v).pkg = v := rfl
@[simp] theorem State.setPkg_mem (v : Pkg) : (s.setPkg v).mem = s.mem := rfl
@[simp] theorem State.setPkg_absent (v : Pkg) : (s.setPkg v).absent = s.absent := rfl
@[simp] theorem State.setPkg_clears (v : Pkg) : (s.setPkg v).clears = s.clears := rfl
@[simp] theorem State.setPkg_sets (v : Pkg) : (s.setPkg v).sets = s.sets := rfl
@[simp] theorem State.setPkg_poison (v : Pkg) : (s.setPkg v).poison = s.poison := rfl
@[simp] theorem State.setPkg_badRegs (v : Pkg) : (s.setPkg v).badRegs = s.badRegs := rfl
@[simp] theorem State.setPkg_copies (v : Pkg) : (s.setPkg v).copies = s.copies := rfl
@[simp] theorem State.setPkg_doomed (v : Pkg) : (s.setPkg v).doomed = s.doomed := rfl
@[simp] theorem State.setPkg_pend (v : Pkg) : (s.setPkg v).pend = s.pend := rfl
@[simp] theorem State.setPkg_stores (v : Pkg) : (s.setPkg v).stores = s.stores := rfl
@[simp] theorem State.setPkg_walks (v : Pkg) : (s.setPkg v).walks = s.walks := rfl
@[simp] theorem State.setPkg_xfers (v : Pkg) : (s.setPkg v).xfers = s.xfers := rfl
@[simp] theorem State.setPkg_delivs (v : Pkg) : (s.setPkg v).delivs = s.delivs := rfl
@[simp] theorem State.setPkg_chases (v : Pkg) : (s.setPkg v).chases = s.chases := rfl
@[simp] theorem State.setPkg_joins (v : Pkg) : (s.setPkg v).joins = s.joins := rfl
@[simp] theorem State.setPkg_flying (v : Pkg) : (s.setPkg v).flying = s.flying := rfl
@[simp] theorem State.setPkg_kills (v : Pkg) : (s.setPkg v).kills = s.kills := rfl
@[simp] theorem State.setPkg_fresh (v : Pkg) : (s.setPkg v).fresh = s.fresh := rfl
@[simp] theorem State.setPkg_cur (v : Pkg) : (s.setPkg v).cur = s.cur := rfl
@[simp] theorem State.setPkg_agenda (v : Pkg) : (s.setPkg v).agenda = s.agenda := rfl
@[simp] theorem State.setPkg_queue (v : Pkg) : (s.setPkg v).queue = s.queue := rfl
@[simp] theorem State.setPkg_filled (v : Pkg) : (s.setPkg v).filled = s.filled := rfl
@[simp] theorem State.setPkg_foreseen (v : Pkg) : (s.setPkg v).foreseen = s.foreseen := rfl
@[simp] theorem State.setPkg_pace (v : Pkg) : (s.setPkg v).pace = s.pace := rfl
@[simp] theorem State.setMem_time (v : List Host.Cell) : (s.setMem v).time = s.time := rfl
@[simp] theorem State.setMem_gs (v : List Host.Cell) : (s.setMem v).gs = s.gs := rfl
@[simp] theorem State.setMem_hs (v : List Host.Cell) : (s.setMem v).hs = s.hs := rfl
@[simp] theorem State.setMem_ws (v : List Host.Cell) : (s.setMem v).ws = s.ws := rfl
@[simp] theorem State.setMem_ps (v : List Host.Cell) : (s.setMem v).ps = s.ps := rfl
@[simp] theorem State.setMem_es (v : List Host.Cell) : (s.setMem v).es = s.es := rfl
@[simp] theorem State.setMem_eflags (v : List Host.Cell) : (s.setMem v).eflags = s.eflags := rfl
@[simp] theorem State.setMem_ks (v : List Host.Cell) : (s.setMem v).ks = s.ks := rfl
@[simp] theorem State.setMem_js (v : List Host.Cell) : (s.setMem v).js = s.js := rfl
@[simp] theorem State.setMem_alley (v : List Host.Cell) : (s.setMem v).alley = s.alley := rfl
@[simp] theorem State.setMem_alleyOld (v : List Host.Cell) : (s.setMem v).alleyOld = s.alleyOld := rfl
@[simp] theorem State.setMem_strands (v : List Host.Cell) : (s.setMem v).strands = s.strands := rfl
@[simp] theorem State.setMem_gangs (v : List Host.Cell) : (s.setMem v).gangs = s.gangs := rfl
@[simp] theorem State.setMem_cells (v : List Host.Cell) : (s.setMem v).cells = s.cells := rfl
@[simp] theorem State.setMem_blocks (v : List Host.Cell) : (s.setMem v).blocks = s.blocks := rfl
@[simp] theorem State.setMem_grids (v : List Host.Cell) : (s.setMem v).grids = s.grids := rfl
@[simp] theorem State.setMem_dies (v : List Host.Cell) : (s.setMem v).dies = s.dies := rfl
@[simp] theorem State.setMem_pkg (v : List Host.Cell) : (s.setMem v).pkg = s.pkg := rfl
@[simp] theorem State.setMem_mem (v : List Host.Cell) : (s.setMem v).mem = v := rfl
@[simp] theorem State.setMem_absent (v : List Host.Cell) : (s.setMem v).absent = s.absent := rfl
@[simp] theorem State.setMem_clears (v : List Host.Cell) : (s.setMem v).clears = s.clears := rfl
@[simp] theorem State.setMem_sets (v : List Host.Cell) : (s.setMem v).sets = s.sets := rfl
@[simp] theorem State.setMem_poison (v : List Host.Cell) : (s.setMem v).poison = s.poison := rfl
@[simp] theorem State.setMem_badRegs (v : List Host.Cell) : (s.setMem v).badRegs = s.badRegs := rfl
@[simp] theorem State.setMem_copies (v : List Host.Cell) : (s.setMem v).copies = s.copies := rfl
@[simp] theorem State.setMem_doomed (v : List Host.Cell) : (s.setMem v).doomed = s.doomed := rfl
@[simp] theorem State.setMem_pend (v : List Host.Cell) : (s.setMem v).pend = s.pend := rfl
@[simp] theorem State.setMem_stores (v : List Host.Cell) : (s.setMem v).stores = s.stores := rfl
@[simp] theorem State.setMem_walks (v : List Host.Cell) : (s.setMem v).walks = s.walks := rfl
@[simp] theorem State.setMem_xfers (v : List Host.Cell) : (s.setMem v).xfers = s.xfers := rfl
@[simp] theorem State.setMem_delivs (v : List Host.Cell) : (s.setMem v).delivs = s.delivs := rfl
@[simp] theorem State.setMem_chases (v : List Host.Cell) : (s.setMem v).chases = s.chases := rfl
@[simp] theorem State.setMem_joins (v : List Host.Cell) : (s.setMem v).joins = s.joins := rfl
@[simp] theorem State.setMem_flying (v : List Host.Cell) : (s.setMem v).flying = s.flying := rfl
@[simp] theorem State.setMem_kills (v : List Host.Cell) : (s.setMem v).kills = s.kills := rfl
@[simp] theorem State.setMem_fresh (v : List Host.Cell) : (s.setMem v).fresh = s.fresh := rfl
@[simp] theorem State.setMem_cur (v : List Host.Cell) : (s.setMem v).cur = s.cur := rfl
@[simp] theorem State.setMem_agenda (v : List Host.Cell) : (s.setMem v).agenda = s.agenda := rfl
@[simp] theorem State.setMem_queue (v : List Host.Cell) : (s.setMem v).queue = s.queue := rfl
@[simp] theorem State.setMem_filled (v : List Host.Cell) : (s.setMem v).filled = s.filled := rfl
@[simp] theorem State.setMem_foreseen (v : List Host.Cell) : (s.setMem v).foreseen = s.foreseen := rfl
@[simp] theorem State.setMem_pace (v : List Host.Cell) : (s.setMem v).pace = s.pace := rfl
@[simp] theorem State.setAbsent_time (v : Tab Unit) : (s.setAbsent v).time = s.time := rfl
@[simp] theorem State.setAbsent_gs (v : Tab Unit) : (s.setAbsent v).gs = s.gs := rfl
@[simp] theorem State.setAbsent_hs (v : Tab Unit) : (s.setAbsent v).hs = s.hs := rfl
@[simp] theorem State.setAbsent_ws (v : Tab Unit) : (s.setAbsent v).ws = s.ws := rfl
@[simp] theorem State.setAbsent_ps (v : Tab Unit) : (s.setAbsent v).ps = s.ps := rfl
@[simp] theorem State.setAbsent_es (v : Tab Unit) : (s.setAbsent v).es = s.es := rfl
@[simp] theorem State.setAbsent_eflags (v : Tab Unit) : (s.setAbsent v).eflags = s.eflags := rfl
@[simp] theorem State.setAbsent_ks (v : Tab Unit) : (s.setAbsent v).ks = s.ks := rfl
@[simp] theorem State.setAbsent_js (v : Tab Unit) : (s.setAbsent v).js = s.js := rfl
@[simp] theorem State.setAbsent_alley (v : Tab Unit) : (s.setAbsent v).alley = s.alley := rfl
@[simp] theorem State.setAbsent_alleyOld (v : Tab Unit) : (s.setAbsent v).alleyOld = s.alleyOld := rfl
@[simp] theorem State.setAbsent_strands (v : Tab Unit) : (s.setAbsent v).strands = s.strands := rfl
@[simp] theorem State.setAbsent_gangs (v : Tab Unit) : (s.setAbsent v).gangs = s.gangs := rfl
@[simp] theorem State.setAbsent_cells (v : Tab Unit) : (s.setAbsent v).cells = s.cells := rfl
@[simp] theorem State.setAbsent_blocks (v : Tab Unit) : (s.setAbsent v).blocks = s.blocks := rfl
@[simp] theorem State.setAbsent_grids (v : Tab Unit) : (s.setAbsent v).grids = s.grids := rfl
@[simp] theorem State.setAbsent_dies (v : Tab Unit) : (s.setAbsent v).dies = s.dies := rfl
@[simp] theorem State.setAbsent_pkg (v : Tab Unit) : (s.setAbsent v).pkg = s.pkg := rfl
@[simp] theorem State.setAbsent_mem (v : Tab Unit) : (s.setAbsent v).mem = s.mem := rfl
@[simp] theorem State.setAbsent_absent (v : Tab Unit) : (s.setAbsent v).absent = v := rfl
@[simp] theorem State.setAbsent_clears (v : Tab Unit) : (s.setAbsent v).clears = s.clears := rfl
@[simp] theorem State.setAbsent_sets (v : Tab Unit) : (s.setAbsent v).sets = s.sets := rfl
@[simp] theorem State.setAbsent_poison (v : Tab Unit) : (s.setAbsent v).poison = s.poison := rfl
@[simp] theorem State.setAbsent_badRegs (v : Tab Unit) : (s.setAbsent v).badRegs = s.badRegs := rfl
@[simp] theorem State.setAbsent_copies (v : Tab Unit) : (s.setAbsent v).copies = s.copies := rfl
@[simp] theorem State.setAbsent_doomed (v : Tab Unit) : (s.setAbsent v).doomed = s.doomed := rfl
@[simp] theorem State.setAbsent_pend (v : Tab Unit) : (s.setAbsent v).pend = s.pend := rfl
@[simp] theorem State.setAbsent_stores (v : Tab Unit) : (s.setAbsent v).stores = s.stores := rfl
@[simp] theorem State.setAbsent_walks (v : Tab Unit) : (s.setAbsent v).walks = s.walks := rfl
@[simp] theorem State.setAbsent_xfers (v : Tab Unit) : (s.setAbsent v).xfers = s.xfers := rfl
@[simp] theorem State.setAbsent_delivs (v : Tab Unit) : (s.setAbsent v).delivs = s.delivs := rfl
@[simp] theorem State.setAbsent_chases (v : Tab Unit) : (s.setAbsent v).chases = s.chases := rfl
@[simp] theorem State.setAbsent_joins (v : Tab Unit) : (s.setAbsent v).joins = s.joins := rfl
@[simp] theorem State.setAbsent_flying (v : Tab Unit) : (s.setAbsent v).flying = s.flying := rfl
@[simp] theorem State.setAbsent_kills (v : Tab Unit) : (s.setAbsent v).kills = s.kills := rfl
@[simp] theorem State.setAbsent_fresh (v : Tab Unit) : (s.setAbsent v).fresh = s.fresh := rfl
@[simp] theorem State.setAbsent_cur (v : Tab Unit) : (s.setAbsent v).cur = s.cur := rfl
@[simp] theorem State.setAbsent_agenda (v : Tab Unit) : (s.setAbsent v).agenda = s.agenda := rfl
@[simp] theorem State.setAbsent_queue (v : Tab Unit) : (s.setAbsent v).queue = s.queue := rfl
@[simp] theorem State.setAbsent_filled (v : Tab Unit) : (s.setAbsent v).filled = s.filled := rfl
@[simp] theorem State.setAbsent_foreseen (v : Tab Unit) : (s.setAbsent v).foreseen = s.foreseen := rfl
@[simp] theorem State.setAbsent_pace (v : Tab Unit) : (s.setAbsent v).pace = s.pace := rfl
@[simp] theorem State.setClears_time (v : List Nat) : (s.setClears v).time = s.time := rfl
@[simp] theorem State.setClears_gs (v : List Nat) : (s.setClears v).gs = s.gs := rfl
@[simp] theorem State.setClears_hs (v : List Nat) : (s.setClears v).hs = s.hs := rfl
@[simp] theorem State.setClears_ws (v : List Nat) : (s.setClears v).ws = s.ws := rfl
@[simp] theorem State.setClears_ps (v : List Nat) : (s.setClears v).ps = s.ps := rfl
@[simp] theorem State.setClears_es (v : List Nat) : (s.setClears v).es = s.es := rfl
@[simp] theorem State.setClears_eflags (v : List Nat) : (s.setClears v).eflags = s.eflags := rfl
@[simp] theorem State.setClears_ks (v : List Nat) : (s.setClears v).ks = s.ks := rfl
@[simp] theorem State.setClears_js (v : List Nat) : (s.setClears v).js = s.js := rfl
@[simp] theorem State.setClears_alley (v : List Nat) : (s.setClears v).alley = s.alley := rfl
@[simp] theorem State.setClears_alleyOld (v : List Nat) : (s.setClears v).alleyOld = s.alleyOld := rfl
@[simp] theorem State.setClears_strands (v : List Nat) : (s.setClears v).strands = s.strands := rfl
@[simp] theorem State.setClears_gangs (v : List Nat) : (s.setClears v).gangs = s.gangs := rfl
@[simp] theorem State.setClears_cells (v : List Nat) : (s.setClears v).cells = s.cells := rfl
@[simp] theorem State.setClears_blocks (v : List Nat) : (s.setClears v).blocks = s.blocks := rfl
@[simp] theorem State.setClears_grids (v : List Nat) : (s.setClears v).grids = s.grids := rfl
@[simp] theorem State.setClears_dies (v : List Nat) : (s.setClears v).dies = s.dies := rfl
@[simp] theorem State.setClears_pkg (v : List Nat) : (s.setClears v).pkg = s.pkg := rfl
@[simp] theorem State.setClears_mem (v : List Nat) : (s.setClears v).mem = s.mem := rfl
@[simp] theorem State.setClears_absent (v : List Nat) : (s.setClears v).absent = s.absent := rfl
@[simp] theorem State.setClears_clears (v : List Nat) : (s.setClears v).clears = v := rfl
@[simp] theorem State.setClears_sets (v : List Nat) : (s.setClears v).sets = s.sets := rfl
@[simp] theorem State.setClears_poison (v : List Nat) : (s.setClears v).poison = s.poison := rfl
@[simp] theorem State.setClears_badRegs (v : List Nat) : (s.setClears v).badRegs = s.badRegs := rfl
@[simp] theorem State.setClears_copies (v : List Nat) : (s.setClears v).copies = s.copies := rfl
@[simp] theorem State.setClears_doomed (v : List Nat) : (s.setClears v).doomed = s.doomed := rfl
@[simp] theorem State.setClears_pend (v : List Nat) : (s.setClears v).pend = s.pend := rfl
@[simp] theorem State.setClears_stores (v : List Nat) : (s.setClears v).stores = s.stores := rfl
@[simp] theorem State.setClears_walks (v : List Nat) : (s.setClears v).walks = s.walks := rfl
@[simp] theorem State.setClears_xfers (v : List Nat) : (s.setClears v).xfers = s.xfers := rfl
@[simp] theorem State.setClears_delivs (v : List Nat) : (s.setClears v).delivs = s.delivs := rfl
@[simp] theorem State.setClears_chases (v : List Nat) : (s.setClears v).chases = s.chases := rfl
@[simp] theorem State.setClears_joins (v : List Nat) : (s.setClears v).joins = s.joins := rfl
@[simp] theorem State.setClears_flying (v : List Nat) : (s.setClears v).flying = s.flying := rfl
@[simp] theorem State.setClears_kills (v : List Nat) : (s.setClears v).kills = s.kills := rfl
@[simp] theorem State.setClears_fresh (v : List Nat) : (s.setClears v).fresh = s.fresh := rfl
@[simp] theorem State.setClears_cur (v : List Nat) : (s.setClears v).cur = s.cur := rfl
@[simp] theorem State.setClears_agenda (v : List Nat) : (s.setClears v).agenda = s.agenda := rfl
@[simp] theorem State.setClears_queue (v : List Nat) : (s.setClears v).queue = s.queue := rfl
@[simp] theorem State.setClears_filled (v : List Nat) : (s.setClears v).filled = s.filled := rfl
@[simp] theorem State.setClears_foreseen (v : List Nat) : (s.setClears v).foreseen = s.foreseen := rfl
@[simp] theorem State.setClears_pace (v : List Nat) : (s.setClears v).pace = s.pace := rfl
@[simp] theorem State.setSets_time (v : List Nat) : (s.setSets v).time = s.time := rfl
@[simp] theorem State.setSets_gs (v : List Nat) : (s.setSets v).gs = s.gs := rfl
@[simp] theorem State.setSets_hs (v : List Nat) : (s.setSets v).hs = s.hs := rfl
@[simp] theorem State.setSets_ws (v : List Nat) : (s.setSets v).ws = s.ws := rfl
@[simp] theorem State.setSets_ps (v : List Nat) : (s.setSets v).ps = s.ps := rfl
@[simp] theorem State.setSets_es (v : List Nat) : (s.setSets v).es = s.es := rfl
@[simp] theorem State.setSets_eflags (v : List Nat) : (s.setSets v).eflags = s.eflags := rfl
@[simp] theorem State.setSets_ks (v : List Nat) : (s.setSets v).ks = s.ks := rfl
@[simp] theorem State.setSets_js (v : List Nat) : (s.setSets v).js = s.js := rfl
@[simp] theorem State.setSets_alley (v : List Nat) : (s.setSets v).alley = s.alley := rfl
@[simp] theorem State.setSets_alleyOld (v : List Nat) : (s.setSets v).alleyOld = s.alleyOld := rfl
@[simp] theorem State.setSets_strands (v : List Nat) : (s.setSets v).strands = s.strands := rfl
@[simp] theorem State.setSets_gangs (v : List Nat) : (s.setSets v).gangs = s.gangs := rfl
@[simp] theorem State.setSets_cells (v : List Nat) : (s.setSets v).cells = s.cells := rfl
@[simp] theorem State.setSets_blocks (v : List Nat) : (s.setSets v).blocks = s.blocks := rfl
@[simp] theorem State.setSets_grids (v : List Nat) : (s.setSets v).grids = s.grids := rfl
@[simp] theorem State.setSets_dies (v : List Nat) : (s.setSets v).dies = s.dies := rfl
@[simp] theorem State.setSets_pkg (v : List Nat) : (s.setSets v).pkg = s.pkg := rfl
@[simp] theorem State.setSets_mem (v : List Nat) : (s.setSets v).mem = s.mem := rfl
@[simp] theorem State.setSets_absent (v : List Nat) : (s.setSets v).absent = s.absent := rfl
@[simp] theorem State.setSets_clears (v : List Nat) : (s.setSets v).clears = s.clears := rfl
@[simp] theorem State.setSets_sets (v : List Nat) : (s.setSets v).sets = v := rfl
@[simp] theorem State.setSets_poison (v : List Nat) : (s.setSets v).poison = s.poison := rfl
@[simp] theorem State.setSets_badRegs (v : List Nat) : (s.setSets v).badRegs = s.badRegs := rfl
@[simp] theorem State.setSets_copies (v : List Nat) : (s.setSets v).copies = s.copies := rfl
@[simp] theorem State.setSets_doomed (v : List Nat) : (s.setSets v).doomed = s.doomed := rfl
@[simp] theorem State.setSets_pend (v : List Nat) : (s.setSets v).pend = s.pend := rfl
@[simp] theorem State.setSets_stores (v : List Nat) : (s.setSets v).stores = s.stores := rfl
@[simp] theorem State.setSets_walks (v : List Nat) : (s.setSets v).walks = s.walks := rfl
@[simp] theorem State.setSets_xfers (v : List Nat) : (s.setSets v).xfers = s.xfers := rfl
@[simp] theorem State.setSets_delivs (v : List Nat) : (s.setSets v).delivs = s.delivs := rfl
@[simp] theorem State.setSets_chases (v : List Nat) : (s.setSets v).chases = s.chases := rfl
@[simp] theorem State.setSets_joins (v : List Nat) : (s.setSets v).joins = s.joins := rfl
@[simp] theorem State.setSets_flying (v : List Nat) : (s.setSets v).flying = s.flying := rfl
@[simp] theorem State.setSets_kills (v : List Nat) : (s.setSets v).kills = s.kills := rfl
@[simp] theorem State.setSets_fresh (v : List Nat) : (s.setSets v).fresh = s.fresh := rfl
@[simp] theorem State.setSets_cur (v : List Nat) : (s.setSets v).cur = s.cur := rfl
@[simp] theorem State.setSets_agenda (v : List Nat) : (s.setSets v).agenda = s.agenda := rfl
@[simp] theorem State.setSets_queue (v : List Nat) : (s.setSets v).queue = s.queue := rfl
@[simp] theorem State.setSets_filled (v : List Nat) : (s.setSets v).filled = s.filled := rfl
@[simp] theorem State.setSets_foreseen (v : List Nat) : (s.setSets v).foreseen = s.foreseen := rfl
@[simp] theorem State.setSets_pace (v : List Nat) : (s.setSets v).pace = s.pace := rfl
@[simp] theorem State.setPoison_time (v : Tab Nat) : (s.setPoison v).time = s.time := rfl
@[simp] theorem State.setPoison_gs (v : Tab Nat) : (s.setPoison v).gs = s.gs := rfl
@[simp] theorem State.setPoison_hs (v : Tab Nat) : (s.setPoison v).hs = s.hs := rfl
@[simp] theorem State.setPoison_ws (v : Tab Nat) : (s.setPoison v).ws = s.ws := rfl
@[simp] theorem State.setPoison_ps (v : Tab Nat) : (s.setPoison v).ps = s.ps := rfl
@[simp] theorem State.setPoison_es (v : Tab Nat) : (s.setPoison v).es = s.es := rfl
@[simp] theorem State.setPoison_eflags (v : Tab Nat) : (s.setPoison v).eflags = s.eflags := rfl
@[simp] theorem State.setPoison_ks (v : Tab Nat) : (s.setPoison v).ks = s.ks := rfl
@[simp] theorem State.setPoison_js (v : Tab Nat) : (s.setPoison v).js = s.js := rfl
@[simp] theorem State.setPoison_alley (v : Tab Nat) : (s.setPoison v).alley = s.alley := rfl
@[simp] theorem State.setPoison_alleyOld (v : Tab Nat) : (s.setPoison v).alleyOld = s.alleyOld := rfl
@[simp] theorem State.setPoison_strands (v : Tab Nat) : (s.setPoison v).strands = s.strands := rfl
@[simp] theorem State.setPoison_gangs (v : Tab Nat) : (s.setPoison v).gangs = s.gangs := rfl
@[simp] theorem State.setPoison_cells (v : Tab Nat) : (s.setPoison v).cells = s.cells := rfl
@[simp] theorem State.setPoison_blocks (v : Tab Nat) : (s.setPoison v).blocks = s.blocks := rfl
@[simp] theorem State.setPoison_grids (v : Tab Nat) : (s.setPoison v).grids = s.grids := rfl
@[simp] theorem State.setPoison_dies (v : Tab Nat) : (s.setPoison v).dies = s.dies := rfl
@[simp] theorem State.setPoison_pkg (v : Tab Nat) : (s.setPoison v).pkg = s.pkg := rfl
@[simp] theorem State.setPoison_mem (v : Tab Nat) : (s.setPoison v).mem = s.mem := rfl
@[simp] theorem State.setPoison_absent (v : Tab Nat) : (s.setPoison v).absent = s.absent := rfl
@[simp] theorem State.setPoison_clears (v : Tab Nat) : (s.setPoison v).clears = s.clears := rfl
@[simp] theorem State.setPoison_sets (v : Tab Nat) : (s.setPoison v).sets = s.sets := rfl
@[simp] theorem State.setPoison_poison (v : Tab Nat) : (s.setPoison v).poison = v := rfl
@[simp] theorem State.setPoison_badRegs (v : Tab Nat) : (s.setPoison v).badRegs = s.badRegs := rfl
@[simp] theorem State.setPoison_copies (v : Tab Nat) : (s.setPoison v).copies = s.copies := rfl
@[simp] theorem State.setPoison_doomed (v : Tab Nat) : (s.setPoison v).doomed = s.doomed := rfl
@[simp] theorem State.setPoison_pend (v : Tab Nat) : (s.setPoison v).pend = s.pend := rfl
@[simp] theorem State.setPoison_stores (v : Tab Nat) : (s.setPoison v).stores = s.stores := rfl
@[simp] theorem State.setPoison_walks (v : Tab Nat) : (s.setPoison v).walks = s.walks := rfl
@[simp] theorem State.setPoison_xfers (v : Tab Nat) : (s.setPoison v).xfers = s.xfers := rfl
@[simp] theorem State.setPoison_delivs (v : Tab Nat) : (s.setPoison v).delivs = s.delivs := rfl
@[simp] theorem State.setPoison_chases (v : Tab Nat) : (s.setPoison v).chases = s.chases := rfl
@[simp] theorem State.setPoison_joins (v : Tab Nat) : (s.setPoison v).joins = s.joins := rfl
@[simp] theorem State.setPoison_flying (v : Tab Nat) : (s.setPoison v).flying = s.flying := rfl
@[simp] theorem State.setPoison_kills (v : Tab Nat) : (s.setPoison v).kills = s.kills := rfl
@[simp] theorem State.setPoison_fresh (v : Tab Nat) : (s.setPoison v).fresh = s.fresh := rfl
@[simp] theorem State.setPoison_cur (v : Tab Nat) : (s.setPoison v).cur = s.cur := rfl
@[simp] theorem State.setPoison_agenda (v : Tab Nat) : (s.setPoison v).agenda = s.agenda := rfl
@[simp] theorem State.setPoison_queue (v : Tab Nat) : (s.setPoison v).queue = s.queue := rfl
@[simp] theorem State.setPoison_filled (v : Tab Nat) : (s.setPoison v).filled = s.filled := rfl
@[simp] theorem State.setPoison_foreseen (v : Tab Nat) : (s.setPoison v).foreseen = s.foreseen := rfl
@[simp] theorem State.setPoison_pace (v : Tab Nat) : (s.setPoison v).pace = s.pace := rfl
@[simp] theorem State.setBadRegs_time (v : List RegId) : (s.setBadRegs v).time = s.time := rfl
@[simp] theorem State.setBadRegs_gs (v : List RegId) : (s.setBadRegs v).gs = s.gs := rfl
@[simp] theorem State.setBadRegs_hs (v : List RegId) : (s.setBadRegs v).hs = s.hs := rfl
@[simp] theorem State.setBadRegs_ws (v : List RegId) : (s.setBadRegs v).ws = s.ws := rfl
@[simp] theorem State.setBadRegs_ps (v : List RegId) : (s.setBadRegs v).ps = s.ps := rfl
@[simp] theorem State.setBadRegs_es (v : List RegId) : (s.setBadRegs v).es = s.es := rfl
@[simp] theorem State.setBadRegs_eflags (v : List RegId) : (s.setBadRegs v).eflags = s.eflags := rfl
@[simp] theorem State.setBadRegs_ks (v : List RegId) : (s.setBadRegs v).ks = s.ks := rfl
@[simp] theorem State.setBadRegs_js (v : List RegId) : (s.setBadRegs v).js = s.js := rfl
@[simp] theorem State.setBadRegs_alley (v : List RegId) : (s.setBadRegs v).alley = s.alley := rfl
@[simp] theorem State.setBadRegs_alleyOld (v : List RegId) : (s.setBadRegs v).alleyOld = s.alleyOld := rfl
@[simp] theorem State.setBadRegs_strands (v : List RegId) : (s.setBadRegs v).strands = s.strands := rfl
@[simp] theorem State.setBadRegs_gangs (v : List RegId) : (s.setBadRegs v).gangs = s.gangs := rfl
@[simp] theorem State.setBadRegs_cells (v : List RegId) : (s.setBadRegs v).cells = s.cells := rfl
@[simp] theorem State.setBadRegs_blocks (v : List RegId) : (s.setBadRegs v).blocks = s.blocks := rfl
@[simp] theorem State.setBadRegs_grids (v : List RegId) : (s.setBadRegs v).grids = s.grids := rfl
@[simp] theorem State.setBadRegs_dies (v : List RegId) : (s.setBadRegs v).dies = s.dies := rfl
@[simp] theorem State.setBadRegs_pkg (v : List RegId) : (s.setBadRegs v).pkg = s.pkg := rfl
@[simp] theorem State.setBadRegs_mem (v : List RegId) : (s.setBadRegs v).mem = s.mem := rfl
@[simp] theorem State.setBadRegs_absent (v : List RegId) : (s.setBadRegs v).absent = s.absent := rfl
@[simp] theorem State.setBadRegs_clears (v : List RegId) : (s.setBadRegs v).clears = s.clears := rfl
@[simp] theorem State.setBadRegs_sets (v : List RegId) : (s.setBadRegs v).sets = s.sets := rfl
@[simp] theorem State.setBadRegs_poison (v : List RegId) : (s.setBadRegs v).poison = s.poison := rfl
@[simp] theorem State.setBadRegs_badRegs (v : List RegId) : (s.setBadRegs v).badRegs = v := rfl
@[simp] theorem State.setBadRegs_copies (v : List RegId) : (s.setBadRegs v).copies = s.copies := rfl
@[simp] theorem State.setBadRegs_doomed (v : List RegId) : (s.setBadRegs v).doomed = s.doomed := rfl
@[simp] theorem State.setBadRegs_pend (v : List RegId) : (s.setBadRegs v).pend = s.pend := rfl
@[simp] theorem State.setBadRegs_stores (v : List RegId) : (s.setBadRegs v).stores = s.stores := rfl
@[simp] theorem State.setBadRegs_walks (v : List RegId) : (s.setBadRegs v).walks = s.walks := rfl
@[simp] theorem State.setBadRegs_xfers (v : List RegId) : (s.setBadRegs v).xfers = s.xfers := rfl
@[simp] theorem State.setBadRegs_delivs (v : List RegId) : (s.setBadRegs v).delivs = s.delivs := rfl
@[simp] theorem State.setBadRegs_chases (v : List RegId) : (s.setBadRegs v).chases = s.chases := rfl
@[simp] theorem State.setBadRegs_joins (v : List RegId) : (s.setBadRegs v).joins = s.joins := rfl
@[simp] theorem State.setBadRegs_flying (v : List RegId) : (s.setBadRegs v).flying = s.flying := rfl
@[simp] theorem State.setBadRegs_kills (v : List RegId) : (s.setBadRegs v).kills = s.kills := rfl
@[simp] theorem State.setBadRegs_fresh (v : List RegId) : (s.setBadRegs v).fresh = s.fresh := rfl
@[simp] theorem State.setBadRegs_cur (v : List RegId) : (s.setBadRegs v).cur = s.cur := rfl
@[simp] theorem State.setBadRegs_agenda (v : List RegId) : (s.setBadRegs v).agenda = s.agenda := rfl
@[simp] theorem State.setBadRegs_queue (v : List RegId) : (s.setBadRegs v).queue = s.queue := rfl
@[simp] theorem State.setBadRegs_filled (v : List RegId) : (s.setBadRegs v).filled = s.filled := rfl
@[simp] theorem State.setBadRegs_foreseen (v : List RegId) : (s.setBadRegs v).foreseen = s.foreseen := rfl
@[simp] theorem State.setBadRegs_pace (v : List RegId) : (s.setBadRegs v).pace = s.pace := rfl
@[simp] theorem State.setCopies_time (v : Tab (List (Nat × Nat))) : (s.setCopies v).time = s.time := rfl
@[simp] theorem State.setCopies_gs (v : Tab (List (Nat × Nat))) : (s.setCopies v).gs = s.gs := rfl
@[simp] theorem State.setCopies_hs (v : Tab (List (Nat × Nat))) : (s.setCopies v).hs = s.hs := rfl
@[simp] theorem State.setCopies_ws (v : Tab (List (Nat × Nat))) : (s.setCopies v).ws = s.ws := rfl
@[simp] theorem State.setCopies_ps (v : Tab (List (Nat × Nat))) : (s.setCopies v).ps = s.ps := rfl
@[simp] theorem State.setCopies_es (v : Tab (List (Nat × Nat))) : (s.setCopies v).es = s.es := rfl
@[simp] theorem State.setCopies_eflags (v : Tab (List (Nat × Nat))) : (s.setCopies v).eflags = s.eflags := rfl
@[simp] theorem State.setCopies_ks (v : Tab (List (Nat × Nat))) : (s.setCopies v).ks = s.ks := rfl
@[simp] theorem State.setCopies_js (v : Tab (List (Nat × Nat))) : (s.setCopies v).js = s.js := rfl
@[simp] theorem State.setCopies_alley (v : Tab (List (Nat × Nat))) : (s.setCopies v).alley = s.alley := rfl
@[simp] theorem State.setCopies_alleyOld (v : Tab (List (Nat × Nat))) : (s.setCopies v).alleyOld = s.alleyOld := rfl
@[simp] theorem State.setCopies_strands (v : Tab (List (Nat × Nat))) : (s.setCopies v).strands = s.strands := rfl
@[simp] theorem State.setCopies_gangs (v : Tab (List (Nat × Nat))) : (s.setCopies v).gangs = s.gangs := rfl
@[simp] theorem State.setCopies_cells (v : Tab (List (Nat × Nat))) : (s.setCopies v).cells = s.cells := rfl
@[simp] theorem State.setCopies_blocks (v : Tab (List (Nat × Nat))) : (s.setCopies v).blocks = s.blocks := rfl
@[simp] theorem State.setCopies_grids (v : Tab (List (Nat × Nat))) : (s.setCopies v).grids = s.grids := rfl
@[simp] theorem State.setCopies_dies (v : Tab (List (Nat × Nat))) : (s.setCopies v).dies = s.dies := rfl
@[simp] theorem State.setCopies_pkg (v : Tab (List (Nat × Nat))) : (s.setCopies v).pkg = s.pkg := rfl
@[simp] theorem State.setCopies_mem (v : Tab (List (Nat × Nat))) : (s.setCopies v).mem = s.mem := rfl
@[simp] theorem State.setCopies_absent (v : Tab (List (Nat × Nat))) : (s.setCopies v).absent = s.absent := rfl
@[simp] theorem State.setCopies_clears (v : Tab (List (Nat × Nat))) : (s.setCopies v).clears = s.clears := rfl
@[simp] theorem State.setCopies_sets (v : Tab (List (Nat × Nat))) : (s.setCopies v).sets = s.sets := rfl
@[simp] theorem State.setCopies_poison (v : Tab (List (Nat × Nat))) : (s.setCopies v).poison = s.poison := rfl
@[simp] theorem State.setCopies_badRegs (v : Tab (List (Nat × Nat))) : (s.setCopies v).badRegs = s.badRegs := rfl
@[simp] theorem State.setCopies_copies (v : Tab (List (Nat × Nat))) : (s.setCopies v).copies = v := rfl
@[simp] theorem State.setCopies_doomed (v : Tab (List (Nat × Nat))) : (s.setCopies v).doomed = s.doomed := rfl
@[simp] theorem State.setCopies_pend (v : Tab (List (Nat × Nat))) : (s.setCopies v).pend = s.pend := rfl
@[simp] theorem State.setCopies_stores (v : Tab (List (Nat × Nat))) : (s.setCopies v).stores = s.stores := rfl
@[simp] theorem State.setCopies_walks (v : Tab (List (Nat × Nat))) : (s.setCopies v).walks = s.walks := rfl
@[simp] theorem State.setCopies_xfers (v : Tab (List (Nat × Nat))) : (s.setCopies v).xfers = s.xfers := rfl
@[simp] theorem State.setCopies_delivs (v : Tab (List (Nat × Nat))) : (s.setCopies v).delivs = s.delivs := rfl
@[simp] theorem State.setCopies_chases (v : Tab (List (Nat × Nat))) : (s.setCopies v).chases = s.chases := rfl
@[simp] theorem State.setCopies_joins (v : Tab (List (Nat × Nat))) : (s.setCopies v).joins = s.joins := rfl
@[simp] theorem State.setCopies_flying (v : Tab (List (Nat × Nat))) : (s.setCopies v).flying = s.flying := rfl
@[simp] theorem State.setCopies_kills (v : Tab (List (Nat × Nat))) : (s.setCopies v).kills = s.kills := rfl
@[simp] theorem State.setCopies_fresh (v : Tab (List (Nat × Nat))) : (s.setCopies v).fresh = s.fresh := rfl
@[simp] theorem State.setCopies_cur (v : Tab (List (Nat × Nat))) : (s.setCopies v).cur = s.cur := rfl
@[simp] theorem State.setCopies_agenda (v : Tab (List (Nat × Nat))) : (s.setCopies v).agenda = s.agenda := rfl
@[simp] theorem State.setCopies_queue (v : Tab (List (Nat × Nat))) : (s.setCopies v).queue = s.queue := rfl
@[simp] theorem State.setCopies_filled (v : Tab (List (Nat × Nat))) : (s.setCopies v).filled = s.filled := rfl
@[simp] theorem State.setCopies_foreseen (v : Tab (List (Nat × Nat))) : (s.setCopies v).foreseen = s.foreseen := rfl
@[simp] theorem State.setCopies_pace (v : Tab (List (Nat × Nat))) : (s.setCopies v).pace = s.pace := rfl
@[simp] theorem State.setDoomed_time (v : List (Nat × Nat × Nat)) : (s.setDoomed v).time = s.time := rfl
@[simp] theorem State.setDoomed_gs (v : List (Nat × Nat × Nat)) : (s.setDoomed v).gs = s.gs := rfl
@[simp] theorem State.setDoomed_hs (v : List (Nat × Nat × Nat)) : (s.setDoomed v).hs = s.hs := rfl
@[simp] theorem State.setDoomed_ws (v : List (Nat × Nat × Nat)) : (s.setDoomed v).ws = s.ws := rfl
@[simp] theorem State.setDoomed_ps (v : List (Nat × Nat × Nat)) : (s.setDoomed v).ps = s.ps := rfl
@[simp] theorem State.setDoomed_es (v : List (Nat × Nat × Nat)) : (s.setDoomed v).es = s.es := rfl
@[simp] theorem State.setDoomed_eflags (v : List (Nat × Nat × Nat)) : (s.setDoomed v).eflags = s.eflags := rfl
@[simp] theorem State.setDoomed_ks (v : List (Nat × Nat × Nat)) : (s.setDoomed v).ks = s.ks := rfl
@[simp] theorem State.setDoomed_js (v : List (Nat × Nat × Nat)) : (s.setDoomed v).js = s.js := rfl
@[simp] theorem State.setDoomed_alley (v : List (Nat × Nat × Nat)) : (s.setDoomed v).alley = s.alley := rfl
@[simp] theorem State.setDoomed_alleyOld (v : List (Nat × Nat × Nat)) : (s.setDoomed v).alleyOld = s.alleyOld := rfl
@[simp] theorem State.setDoomed_strands (v : List (Nat × Nat × Nat)) : (s.setDoomed v).strands = s.strands := rfl
@[simp] theorem State.setDoomed_gangs (v : List (Nat × Nat × Nat)) : (s.setDoomed v).gangs = s.gangs := rfl
@[simp] theorem State.setDoomed_cells (v : List (Nat × Nat × Nat)) : (s.setDoomed v).cells = s.cells := rfl
@[simp] theorem State.setDoomed_blocks (v : List (Nat × Nat × Nat)) : (s.setDoomed v).blocks = s.blocks := rfl
@[simp] theorem State.setDoomed_grids (v : List (Nat × Nat × Nat)) : (s.setDoomed v).grids = s.grids := rfl
@[simp] theorem State.setDoomed_dies (v : List (Nat × Nat × Nat)) : (s.setDoomed v).dies = s.dies := rfl
@[simp] theorem State.setDoomed_pkg (v : List (Nat × Nat × Nat)) : (s.setDoomed v).pkg = s.pkg := rfl
@[simp] theorem State.setDoomed_mem (v : List (Nat × Nat × Nat)) : (s.setDoomed v).mem = s.mem := rfl
@[simp] theorem State.setDoomed_absent (v : List (Nat × Nat × Nat)) : (s.setDoomed v).absent = s.absent := rfl
@[simp] theorem State.setDoomed_clears (v : List (Nat × Nat × Nat)) : (s.setDoomed v).clears = s.clears := rfl
@[simp] theorem State.setDoomed_sets (v : List (Nat × Nat × Nat)) : (s.setDoomed v).sets = s.sets := rfl
@[simp] theorem State.setDoomed_poison (v : List (Nat × Nat × Nat)) : (s.setDoomed v).poison = s.poison := rfl
@[simp] theorem State.setDoomed_badRegs (v : List (Nat × Nat × Nat)) : (s.setDoomed v).badRegs = s.badRegs := rfl
@[simp] theorem State.setDoomed_copies (v : List (Nat × Nat × Nat)) : (s.setDoomed v).copies = s.copies := rfl
@[simp] theorem State.setDoomed_doomed (v : List (Nat × Nat × Nat)) : (s.setDoomed v).doomed = v := rfl
@[simp] theorem State.setDoomed_pend (v : List (Nat × Nat × Nat)) : (s.setDoomed v).pend = s.pend := rfl
@[simp] theorem State.setDoomed_stores (v : List (Nat × Nat × Nat)) : (s.setDoomed v).stores = s.stores := rfl
@[simp] theorem State.setDoomed_walks (v : List (Nat × Nat × Nat)) : (s.setDoomed v).walks = s.walks := rfl
@[simp] theorem State.setDoomed_xfers (v : List (Nat × Nat × Nat)) : (s.setDoomed v).xfers = s.xfers := rfl
@[simp] theorem State.setDoomed_delivs (v : List (Nat × Nat × Nat)) : (s.setDoomed v).delivs = s.delivs := rfl
@[simp] theorem State.setDoomed_chases (v : List (Nat × Nat × Nat)) : (s.setDoomed v).chases = s.chases := rfl
@[simp] theorem State.setDoomed_joins (v : List (Nat × Nat × Nat)) : (s.setDoomed v).joins = s.joins := rfl
@[simp] theorem State.setDoomed_flying (v : List (Nat × Nat × Nat)) : (s.setDoomed v).flying = s.flying := rfl
@[simp] theorem State.setDoomed_kills (v : List (Nat × Nat × Nat)) : (s.setDoomed v).kills = s.kills := rfl
@[simp] theorem State.setDoomed_fresh (v : List (Nat × Nat × Nat)) : (s.setDoomed v).fresh = s.fresh := rfl
@[simp] theorem State.setDoomed_cur (v : List (Nat × Nat × Nat)) : (s.setDoomed v).cur = s.cur := rfl
@[simp] theorem State.setDoomed_agenda (v : List (Nat × Nat × Nat)) : (s.setDoomed v).agenda = s.agenda := rfl
@[simp] theorem State.setDoomed_queue (v : List (Nat × Nat × Nat)) : (s.setDoomed v).queue = s.queue := rfl
@[simp] theorem State.setDoomed_filled (v : List (Nat × Nat × Nat)) : (s.setDoomed v).filled = s.filled := rfl
@[simp] theorem State.setDoomed_foreseen (v : List (Nat × Nat × Nat)) : (s.setDoomed v).foreseen = s.foreseen := rfl
@[simp] theorem State.setDoomed_pace (v : List (Nat × Nat × Nat)) : (s.setDoomed v).pace = s.pace := rfl
@[simp] theorem State.setPend_time (v : Tab Pend) : (s.setPend v).time = s.time := rfl
@[simp] theorem State.setPend_gs (v : Tab Pend) : (s.setPend v).gs = s.gs := rfl
@[simp] theorem State.setPend_hs (v : Tab Pend) : (s.setPend v).hs = s.hs := rfl
@[simp] theorem State.setPend_ws (v : Tab Pend) : (s.setPend v).ws = s.ws := rfl
@[simp] theorem State.setPend_ps (v : Tab Pend) : (s.setPend v).ps = s.ps := rfl
@[simp] theorem State.setPend_es (v : Tab Pend) : (s.setPend v).es = s.es := rfl
@[simp] theorem State.setPend_eflags (v : Tab Pend) : (s.setPend v).eflags = s.eflags := rfl
@[simp] theorem State.setPend_ks (v : Tab Pend) : (s.setPend v).ks = s.ks := rfl
@[simp] theorem State.setPend_js (v : Tab Pend) : (s.setPend v).js = s.js := rfl
@[simp] theorem State.setPend_alley (v : Tab Pend) : (s.setPend v).alley = s.alley := rfl
@[simp] theorem State.setPend_alleyOld (v : Tab Pend) : (s.setPend v).alleyOld = s.alleyOld := rfl
@[simp] theorem State.setPend_strands (v : Tab Pend) : (s.setPend v).strands = s.strands := rfl
@[simp] theorem State.setPend_gangs (v : Tab Pend) : (s.setPend v).gangs = s.gangs := rfl
@[simp] theorem State.setPend_cells (v : Tab Pend) : (s.setPend v).cells = s.cells := rfl
@[simp] theorem State.setPend_blocks (v : Tab Pend) : (s.setPend v).blocks = s.blocks := rfl
@[simp] theorem State.setPend_grids (v : Tab Pend) : (s.setPend v).grids = s.grids := rfl
@[simp] theorem State.setPend_dies (v : Tab Pend) : (s.setPend v).dies = s.dies := rfl
@[simp] theorem State.setPend_pkg (v : Tab Pend) : (s.setPend v).pkg = s.pkg := rfl
@[simp] theorem State.setPend_mem (v : Tab Pend) : (s.setPend v).mem = s.mem := rfl
@[simp] theorem State.setPend_absent (v : Tab Pend) : (s.setPend v).absent = s.absent := rfl
@[simp] theorem State.setPend_clears (v : Tab Pend) : (s.setPend v).clears = s.clears := rfl
@[simp] theorem State.setPend_sets (v : Tab Pend) : (s.setPend v).sets = s.sets := rfl
@[simp] theorem State.setPend_poison (v : Tab Pend) : (s.setPend v).poison = s.poison := rfl
@[simp] theorem State.setPend_badRegs (v : Tab Pend) : (s.setPend v).badRegs = s.badRegs := rfl
@[simp] theorem State.setPend_copies (v : Tab Pend) : (s.setPend v).copies = s.copies := rfl
@[simp] theorem State.setPend_doomed (v : Tab Pend) : (s.setPend v).doomed = s.doomed := rfl
@[simp] theorem State.setPend_pend (v : Tab Pend) : (s.setPend v).pend = v := rfl
@[simp] theorem State.setPend_stores (v : Tab Pend) : (s.setPend v).stores = s.stores := rfl
@[simp] theorem State.setPend_walks (v : Tab Pend) : (s.setPend v).walks = s.walks := rfl
@[simp] theorem State.setPend_xfers (v : Tab Pend) : (s.setPend v).xfers = s.xfers := rfl
@[simp] theorem State.setPend_delivs (v : Tab Pend) : (s.setPend v).delivs = s.delivs := rfl
@[simp] theorem State.setPend_chases (v : Tab Pend) : (s.setPend v).chases = s.chases := rfl
@[simp] theorem State.setPend_joins (v : Tab Pend) : (s.setPend v).joins = s.joins := rfl
@[simp] theorem State.setPend_flying (v : Tab Pend) : (s.setPend v).flying = s.flying := rfl
@[simp] theorem State.setPend_kills (v : Tab Pend) : (s.setPend v).kills = s.kills := rfl
@[simp] theorem State.setPend_fresh (v : Tab Pend) : (s.setPend v).fresh = s.fresh := rfl
@[simp] theorem State.setPend_cur (v : Tab Pend) : (s.setPend v).cur = s.cur := rfl
@[simp] theorem State.setPend_agenda (v : Tab Pend) : (s.setPend v).agenda = s.agenda := rfl
@[simp] theorem State.setPend_queue (v : Tab Pend) : (s.setPend v).queue = s.queue := rfl
@[simp] theorem State.setPend_filled (v : Tab Pend) : (s.setPend v).filled = s.filled := rfl
@[simp] theorem State.setPend_foreseen (v : Tab Pend) : (s.setPend v).foreseen = s.foreseen := rfl
@[simp] theorem State.setPend_pace (v : Tab Pend) : (s.setPend v).pace = s.pace := rfl
@[simp] theorem State.setStores_time (v : Tab StoreEv) : (s.setStores v).time = s.time := rfl
@[simp] theorem State.setStores_gs (v : Tab StoreEv) : (s.setStores v).gs = s.gs := rfl
@[simp] theorem State.setStores_hs (v : Tab StoreEv) : (s.setStores v).hs = s.hs := rfl
@[simp] theorem State.setStores_ws (v : Tab StoreEv) : (s.setStores v).ws = s.ws := rfl
@[simp] theorem State.setStores_ps (v : Tab StoreEv) : (s.setStores v).ps = s.ps := rfl
@[simp] theorem State.setStores_es (v : Tab StoreEv) : (s.setStores v).es = s.es := rfl
@[simp] theorem State.setStores_eflags (v : Tab StoreEv) : (s.setStores v).eflags = s.eflags := rfl
@[simp] theorem State.setStores_ks (v : Tab StoreEv) : (s.setStores v).ks = s.ks := rfl
@[simp] theorem State.setStores_js (v : Tab StoreEv) : (s.setStores v).js = s.js := rfl
@[simp] theorem State.setStores_alley (v : Tab StoreEv) : (s.setStores v).alley = s.alley := rfl
@[simp] theorem State.setStores_alleyOld (v : Tab StoreEv) : (s.setStores v).alleyOld = s.alleyOld := rfl
@[simp] theorem State.setStores_strands (v : Tab StoreEv) : (s.setStores v).strands = s.strands := rfl
@[simp] theorem State.setStores_gangs (v : Tab StoreEv) : (s.setStores v).gangs = s.gangs := rfl
@[simp] theorem State.setStores_cells (v : Tab StoreEv) : (s.setStores v).cells = s.cells := rfl
@[simp] theorem State.setStores_blocks (v : Tab StoreEv) : (s.setStores v).blocks = s.blocks := rfl
@[simp] theorem State.setStores_grids (v : Tab StoreEv) : (s.setStores v).grids = s.grids := rfl
@[simp] theorem State.setStores_dies (v : Tab StoreEv) : (s.setStores v).dies = s.dies := rfl
@[simp] theorem State.setStores_pkg (v : Tab StoreEv) : (s.setStores v).pkg = s.pkg := rfl
@[simp] theorem State.setStores_mem (v : Tab StoreEv) : (s.setStores v).mem = s.mem := rfl
@[simp] theorem State.setStores_absent (v : Tab StoreEv) : (s.setStores v).absent = s.absent := rfl
@[simp] theorem State.setStores_clears (v : Tab StoreEv) : (s.setStores v).clears = s.clears := rfl
@[simp] theorem State.setStores_sets (v : Tab StoreEv) : (s.setStores v).sets = s.sets := rfl
@[simp] theorem State.setStores_poison (v : Tab StoreEv) : (s.setStores v).poison = s.poison := rfl
@[simp] theorem State.setStores_badRegs (v : Tab StoreEv) : (s.setStores v).badRegs = s.badRegs := rfl
@[simp] theorem State.setStores_copies (v : Tab StoreEv) : (s.setStores v).copies = s.copies := rfl
@[simp] theorem State.setStores_doomed (v : Tab StoreEv) : (s.setStores v).doomed = s.doomed := rfl
@[simp] theorem State.setStores_pend (v : Tab StoreEv) : (s.setStores v).pend = s.pend := rfl
@[simp] theorem State.setStores_stores (v : Tab StoreEv) : (s.setStores v).stores = v := rfl
@[simp] theorem State.setStores_walks (v : Tab StoreEv) : (s.setStores v).walks = s.walks := rfl
@[simp] theorem State.setStores_xfers (v : Tab StoreEv) : (s.setStores v).xfers = s.xfers := rfl
@[simp] theorem State.setStores_delivs (v : Tab StoreEv) : (s.setStores v).delivs = s.delivs := rfl
@[simp] theorem State.setStores_chases (v : Tab StoreEv) : (s.setStores v).chases = s.chases := rfl
@[simp] theorem State.setStores_joins (v : Tab StoreEv) : (s.setStores v).joins = s.joins := rfl
@[simp] theorem State.setStores_flying (v : Tab StoreEv) : (s.setStores v).flying = s.flying := rfl
@[simp] theorem State.setStores_kills (v : Tab StoreEv) : (s.setStores v).kills = s.kills := rfl
@[simp] theorem State.setStores_fresh (v : Tab StoreEv) : (s.setStores v).fresh = s.fresh := rfl
@[simp] theorem State.setStores_cur (v : Tab StoreEv) : (s.setStores v).cur = s.cur := rfl
@[simp] theorem State.setStores_agenda (v : Tab StoreEv) : (s.setStores v).agenda = s.agenda := rfl
@[simp] theorem State.setStores_queue (v : Tab StoreEv) : (s.setStores v).queue = s.queue := rfl
@[simp] theorem State.setStores_filled (v : Tab StoreEv) : (s.setStores v).filled = s.filled := rfl
@[simp] theorem State.setStores_foreseen (v : Tab StoreEv) : (s.setStores v).foreseen = s.foreseen := rfl
@[simp] theorem State.setStores_pace (v : Tab StoreEv) : (s.setStores v).pace = s.pace := rfl
@[simp] theorem State.setWalks_time (v : Tab PageWalk) : (s.setWalks v).time = s.time := rfl
@[simp] theorem State.setWalks_gs (v : Tab PageWalk) : (s.setWalks v).gs = s.gs := rfl
@[simp] theorem State.setWalks_hs (v : Tab PageWalk) : (s.setWalks v).hs = s.hs := rfl
@[simp] theorem State.setWalks_ws (v : Tab PageWalk) : (s.setWalks v).ws = s.ws := rfl
@[simp] theorem State.setWalks_ps (v : Tab PageWalk) : (s.setWalks v).ps = s.ps := rfl
@[simp] theorem State.setWalks_es (v : Tab PageWalk) : (s.setWalks v).es = s.es := rfl
@[simp] theorem State.setWalks_eflags (v : Tab PageWalk) : (s.setWalks v).eflags = s.eflags := rfl
@[simp] theorem State.setWalks_ks (v : Tab PageWalk) : (s.setWalks v).ks = s.ks := rfl
@[simp] theorem State.setWalks_js (v : Tab PageWalk) : (s.setWalks v).js = s.js := rfl
@[simp] theorem State.setWalks_alley (v : Tab PageWalk) : (s.setWalks v).alley = s.alley := rfl
@[simp] theorem State.setWalks_alleyOld (v : Tab PageWalk) : (s.setWalks v).alleyOld = s.alleyOld := rfl
@[simp] theorem State.setWalks_strands (v : Tab PageWalk) : (s.setWalks v).strands = s.strands := rfl
@[simp] theorem State.setWalks_gangs (v : Tab PageWalk) : (s.setWalks v).gangs = s.gangs := rfl
@[simp] theorem State.setWalks_cells (v : Tab PageWalk) : (s.setWalks v).cells = s.cells := rfl
@[simp] theorem State.setWalks_blocks (v : Tab PageWalk) : (s.setWalks v).blocks = s.blocks := rfl
@[simp] theorem State.setWalks_grids (v : Tab PageWalk) : (s.setWalks v).grids = s.grids := rfl
@[simp] theorem State.setWalks_dies (v : Tab PageWalk) : (s.setWalks v).dies = s.dies := rfl
@[simp] theorem State.setWalks_pkg (v : Tab PageWalk) : (s.setWalks v).pkg = s.pkg := rfl
@[simp] theorem State.setWalks_mem (v : Tab PageWalk) : (s.setWalks v).mem = s.mem := rfl
@[simp] theorem State.setWalks_absent (v : Tab PageWalk) : (s.setWalks v).absent = s.absent := rfl
@[simp] theorem State.setWalks_clears (v : Tab PageWalk) : (s.setWalks v).clears = s.clears := rfl
@[simp] theorem State.setWalks_sets (v : Tab PageWalk) : (s.setWalks v).sets = s.sets := rfl
@[simp] theorem State.setWalks_poison (v : Tab PageWalk) : (s.setWalks v).poison = s.poison := rfl
@[simp] theorem State.setWalks_badRegs (v : Tab PageWalk) : (s.setWalks v).badRegs = s.badRegs := rfl
@[simp] theorem State.setWalks_copies (v : Tab PageWalk) : (s.setWalks v).copies = s.copies := rfl
@[simp] theorem State.setWalks_doomed (v : Tab PageWalk) : (s.setWalks v).doomed = s.doomed := rfl
@[simp] theorem State.setWalks_pend (v : Tab PageWalk) : (s.setWalks v).pend = s.pend := rfl
@[simp] theorem State.setWalks_stores (v : Tab PageWalk) : (s.setWalks v).stores = s.stores := rfl
@[simp] theorem State.setWalks_walks (v : Tab PageWalk) : (s.setWalks v).walks = v := rfl
@[simp] theorem State.setWalks_xfers (v : Tab PageWalk) : (s.setWalks v).xfers = s.xfers := rfl
@[simp] theorem State.setWalks_delivs (v : Tab PageWalk) : (s.setWalks v).delivs = s.delivs := rfl
@[simp] theorem State.setWalks_chases (v : Tab PageWalk) : (s.setWalks v).chases = s.chases := rfl
@[simp] theorem State.setWalks_joins (v : Tab PageWalk) : (s.setWalks v).joins = s.joins := rfl
@[simp] theorem State.setWalks_flying (v : Tab PageWalk) : (s.setWalks v).flying = s.flying := rfl
@[simp] theorem State.setWalks_kills (v : Tab PageWalk) : (s.setWalks v).kills = s.kills := rfl
@[simp] theorem State.setWalks_fresh (v : Tab PageWalk) : (s.setWalks v).fresh = s.fresh := rfl
@[simp] theorem State.setWalks_cur (v : Tab PageWalk) : (s.setWalks v).cur = s.cur := rfl
@[simp] theorem State.setWalks_agenda (v : Tab PageWalk) : (s.setWalks v).agenda = s.agenda := rfl
@[simp] theorem State.setWalks_queue (v : Tab PageWalk) : (s.setWalks v).queue = s.queue := rfl
@[simp] theorem State.setWalks_filled (v : Tab PageWalk) : (s.setWalks v).filled = s.filled := rfl
@[simp] theorem State.setWalks_foreseen (v : Tab PageWalk) : (s.setWalks v).foreseen = s.foreseen := rfl
@[simp] theorem State.setWalks_pace (v : Tab PageWalk) : (s.setWalks v).pace = s.pace := rfl
@[simp] theorem State.setXfers_time (v : Tab Xfer) : (s.setXfers v).time = s.time := rfl
@[simp] theorem State.setXfers_gs (v : Tab Xfer) : (s.setXfers v).gs = s.gs := rfl
@[simp] theorem State.setXfers_hs (v : Tab Xfer) : (s.setXfers v).hs = s.hs := rfl
@[simp] theorem State.setXfers_ws (v : Tab Xfer) : (s.setXfers v).ws = s.ws := rfl
@[simp] theorem State.setXfers_ps (v : Tab Xfer) : (s.setXfers v).ps = s.ps := rfl
@[simp] theorem State.setXfers_es (v : Tab Xfer) : (s.setXfers v).es = s.es := rfl
@[simp] theorem State.setXfers_eflags (v : Tab Xfer) : (s.setXfers v).eflags = s.eflags := rfl
@[simp] theorem State.setXfers_ks (v : Tab Xfer) : (s.setXfers v).ks = s.ks := rfl
@[simp] theorem State.setXfers_js (v : Tab Xfer) : (s.setXfers v).js = s.js := rfl
@[simp] theorem State.setXfers_alley (v : Tab Xfer) : (s.setXfers v).alley = s.alley := rfl
@[simp] theorem State.setXfers_alleyOld (v : Tab Xfer) : (s.setXfers v).alleyOld = s.alleyOld := rfl
@[simp] theorem State.setXfers_strands (v : Tab Xfer) : (s.setXfers v).strands = s.strands := rfl
@[simp] theorem State.setXfers_gangs (v : Tab Xfer) : (s.setXfers v).gangs = s.gangs := rfl
@[simp] theorem State.setXfers_cells (v : Tab Xfer) : (s.setXfers v).cells = s.cells := rfl
@[simp] theorem State.setXfers_blocks (v : Tab Xfer) : (s.setXfers v).blocks = s.blocks := rfl
@[simp] theorem State.setXfers_grids (v : Tab Xfer) : (s.setXfers v).grids = s.grids := rfl
@[simp] theorem State.setXfers_dies (v : Tab Xfer) : (s.setXfers v).dies = s.dies := rfl
@[simp] theorem State.setXfers_pkg (v : Tab Xfer) : (s.setXfers v).pkg = s.pkg := rfl
@[simp] theorem State.setXfers_mem (v : Tab Xfer) : (s.setXfers v).mem = s.mem := rfl
@[simp] theorem State.setXfers_absent (v : Tab Xfer) : (s.setXfers v).absent = s.absent := rfl
@[simp] theorem State.setXfers_clears (v : Tab Xfer) : (s.setXfers v).clears = s.clears := rfl
@[simp] theorem State.setXfers_sets (v : Tab Xfer) : (s.setXfers v).sets = s.sets := rfl
@[simp] theorem State.setXfers_poison (v : Tab Xfer) : (s.setXfers v).poison = s.poison := rfl
@[simp] theorem State.setXfers_badRegs (v : Tab Xfer) : (s.setXfers v).badRegs = s.badRegs := rfl
@[simp] theorem State.setXfers_copies (v : Tab Xfer) : (s.setXfers v).copies = s.copies := rfl
@[simp] theorem State.setXfers_doomed (v : Tab Xfer) : (s.setXfers v).doomed = s.doomed := rfl
@[simp] theorem State.setXfers_pend (v : Tab Xfer) : (s.setXfers v).pend = s.pend := rfl
@[simp] theorem State.setXfers_stores (v : Tab Xfer) : (s.setXfers v).stores = s.stores := rfl
@[simp] theorem State.setXfers_walks (v : Tab Xfer) : (s.setXfers v).walks = s.walks := rfl
@[simp] theorem State.setXfers_xfers (v : Tab Xfer) : (s.setXfers v).xfers = v := rfl
@[simp] theorem State.setXfers_delivs (v : Tab Xfer) : (s.setXfers v).delivs = s.delivs := rfl
@[simp] theorem State.setXfers_chases (v : Tab Xfer) : (s.setXfers v).chases = s.chases := rfl
@[simp] theorem State.setXfers_joins (v : Tab Xfer) : (s.setXfers v).joins = s.joins := rfl
@[simp] theorem State.setXfers_flying (v : Tab Xfer) : (s.setXfers v).flying = s.flying := rfl
@[simp] theorem State.setXfers_kills (v : Tab Xfer) : (s.setXfers v).kills = s.kills := rfl
@[simp] theorem State.setXfers_fresh (v : Tab Xfer) : (s.setXfers v).fresh = s.fresh := rfl
@[simp] theorem State.setXfers_cur (v : Tab Xfer) : (s.setXfers v).cur = s.cur := rfl
@[simp] theorem State.setXfers_agenda (v : Tab Xfer) : (s.setXfers v).agenda = s.agenda := rfl
@[simp] theorem State.setXfers_queue (v : Tab Xfer) : (s.setXfers v).queue = s.queue := rfl
@[simp] theorem State.setXfers_filled (v : Tab Xfer) : (s.setXfers v).filled = s.filled := rfl
@[simp] theorem State.setXfers_foreseen (v : Tab Xfer) : (s.setXfers v).foreseen = s.foreseen := rfl
@[simp] theorem State.setXfers_pace (v : Tab Xfer) : (s.setXfers v).pace = s.pace := rfl
@[simp] theorem State.setDelivs_time (v : Tab Delivery) : (s.setDelivs v).time = s.time := rfl
@[simp] theorem State.setDelivs_gs (v : Tab Delivery) : (s.setDelivs v).gs = s.gs := rfl
@[simp] theorem State.setDelivs_hs (v : Tab Delivery) : (s.setDelivs v).hs = s.hs := rfl
@[simp] theorem State.setDelivs_ws (v : Tab Delivery) : (s.setDelivs v).ws = s.ws := rfl
@[simp] theorem State.setDelivs_ps (v : Tab Delivery) : (s.setDelivs v).ps = s.ps := rfl
@[simp] theorem State.setDelivs_es (v : Tab Delivery) : (s.setDelivs v).es = s.es := rfl
@[simp] theorem State.setDelivs_eflags (v : Tab Delivery) : (s.setDelivs v).eflags = s.eflags := rfl
@[simp] theorem State.setDelivs_ks (v : Tab Delivery) : (s.setDelivs v).ks = s.ks := rfl
@[simp] theorem State.setDelivs_js (v : Tab Delivery) : (s.setDelivs v).js = s.js := rfl
@[simp] theorem State.setDelivs_alley (v : Tab Delivery) : (s.setDelivs v).alley = s.alley := rfl
@[simp] theorem State.setDelivs_alleyOld (v : Tab Delivery) : (s.setDelivs v).alleyOld = s.alleyOld := rfl
@[simp] theorem State.setDelivs_strands (v : Tab Delivery) : (s.setDelivs v).strands = s.strands := rfl
@[simp] theorem State.setDelivs_gangs (v : Tab Delivery) : (s.setDelivs v).gangs = s.gangs := rfl
@[simp] theorem State.setDelivs_cells (v : Tab Delivery) : (s.setDelivs v).cells = s.cells := rfl
@[simp] theorem State.setDelivs_blocks (v : Tab Delivery) : (s.setDelivs v).blocks = s.blocks := rfl
@[simp] theorem State.setDelivs_grids (v : Tab Delivery) : (s.setDelivs v).grids = s.grids := rfl
@[simp] theorem State.setDelivs_dies (v : Tab Delivery) : (s.setDelivs v).dies = s.dies := rfl
@[simp] theorem State.setDelivs_pkg (v : Tab Delivery) : (s.setDelivs v).pkg = s.pkg := rfl
@[simp] theorem State.setDelivs_mem (v : Tab Delivery) : (s.setDelivs v).mem = s.mem := rfl
@[simp] theorem State.setDelivs_absent (v : Tab Delivery) : (s.setDelivs v).absent = s.absent := rfl
@[simp] theorem State.setDelivs_clears (v : Tab Delivery) : (s.setDelivs v).clears = s.clears := rfl
@[simp] theorem State.setDelivs_sets (v : Tab Delivery) : (s.setDelivs v).sets = s.sets := rfl
@[simp] theorem State.setDelivs_poison (v : Tab Delivery) : (s.setDelivs v).poison = s.poison := rfl
@[simp] theorem State.setDelivs_badRegs (v : Tab Delivery) : (s.setDelivs v).badRegs = s.badRegs := rfl
@[simp] theorem State.setDelivs_copies (v : Tab Delivery) : (s.setDelivs v).copies = s.copies := rfl
@[simp] theorem State.setDelivs_doomed (v : Tab Delivery) : (s.setDelivs v).doomed = s.doomed := rfl
@[simp] theorem State.setDelivs_pend (v : Tab Delivery) : (s.setDelivs v).pend = s.pend := rfl
@[simp] theorem State.setDelivs_stores (v : Tab Delivery) : (s.setDelivs v).stores = s.stores := rfl
@[simp] theorem State.setDelivs_walks (v : Tab Delivery) : (s.setDelivs v).walks = s.walks := rfl
@[simp] theorem State.setDelivs_xfers (v : Tab Delivery) : (s.setDelivs v).xfers = s.xfers := rfl
@[simp] theorem State.setDelivs_delivs (v : Tab Delivery) : (s.setDelivs v).delivs = v := rfl
@[simp] theorem State.setDelivs_chases (v : Tab Delivery) : (s.setDelivs v).chases = s.chases := rfl
@[simp] theorem State.setDelivs_joins (v : Tab Delivery) : (s.setDelivs v).joins = s.joins := rfl
@[simp] theorem State.setDelivs_flying (v : Tab Delivery) : (s.setDelivs v).flying = s.flying := rfl
@[simp] theorem State.setDelivs_kills (v : Tab Delivery) : (s.setDelivs v).kills = s.kills := rfl
@[simp] theorem State.setDelivs_fresh (v : Tab Delivery) : (s.setDelivs v).fresh = s.fresh := rfl
@[simp] theorem State.setDelivs_cur (v : Tab Delivery) : (s.setDelivs v).cur = s.cur := rfl
@[simp] theorem State.setDelivs_agenda (v : Tab Delivery) : (s.setDelivs v).agenda = s.agenda := rfl
@[simp] theorem State.setDelivs_queue (v : Tab Delivery) : (s.setDelivs v).queue = s.queue := rfl
@[simp] theorem State.setDelivs_filled (v : Tab Delivery) : (s.setDelivs v).filled = s.filled := rfl
@[simp] theorem State.setDelivs_foreseen (v : Tab Delivery) : (s.setDelivs v).foreseen = s.foreseen := rfl
@[simp] theorem State.setDelivs_pace (v : Tab Delivery) : (s.setDelivs v).pace = s.pace := rfl
@[simp] theorem State.setChases_time (v : Tab Walk) : (s.setChases v).time = s.time := rfl
@[simp] theorem State.setChases_gs (v : Tab Walk) : (s.setChases v).gs = s.gs := rfl
@[simp] theorem State.setChases_hs (v : Tab Walk) : (s.setChases v).hs = s.hs := rfl
@[simp] theorem State.setChases_ws (v : Tab Walk) : (s.setChases v).ws = s.ws := rfl
@[simp] theorem State.setChases_ps (v : Tab Walk) : (s.setChases v).ps = s.ps := rfl
@[simp] theorem State.setChases_es (v : Tab Walk) : (s.setChases v).es = s.es := rfl
@[simp] theorem State.setChases_eflags (v : Tab Walk) : (s.setChases v).eflags = s.eflags := rfl
@[simp] theorem State.setChases_ks (v : Tab Walk) : (s.setChases v).ks = s.ks := rfl
@[simp] theorem State.setChases_js (v : Tab Walk) : (s.setChases v).js = s.js := rfl
@[simp] theorem State.setChases_alley (v : Tab Walk) : (s.setChases v).alley = s.alley := rfl
@[simp] theorem State.setChases_alleyOld (v : Tab Walk) : (s.setChases v).alleyOld = s.alleyOld := rfl
@[simp] theorem State.setChases_strands (v : Tab Walk) : (s.setChases v).strands = s.strands := rfl
@[simp] theorem State.setChases_gangs (v : Tab Walk) : (s.setChases v).gangs = s.gangs := rfl
@[simp] theorem State.setChases_cells (v : Tab Walk) : (s.setChases v).cells = s.cells := rfl
@[simp] theorem State.setChases_blocks (v : Tab Walk) : (s.setChases v).blocks = s.blocks := rfl
@[simp] theorem State.setChases_grids (v : Tab Walk) : (s.setChases v).grids = s.grids := rfl
@[simp] theorem State.setChases_dies (v : Tab Walk) : (s.setChases v).dies = s.dies := rfl
@[simp] theorem State.setChases_pkg (v : Tab Walk) : (s.setChases v).pkg = s.pkg := rfl
@[simp] theorem State.setChases_mem (v : Tab Walk) : (s.setChases v).mem = s.mem := rfl
@[simp] theorem State.setChases_absent (v : Tab Walk) : (s.setChases v).absent = s.absent := rfl
@[simp] theorem State.setChases_clears (v : Tab Walk) : (s.setChases v).clears = s.clears := rfl
@[simp] theorem State.setChases_sets (v : Tab Walk) : (s.setChases v).sets = s.sets := rfl
@[simp] theorem State.setChases_poison (v : Tab Walk) : (s.setChases v).poison = s.poison := rfl
@[simp] theorem State.setChases_badRegs (v : Tab Walk) : (s.setChases v).badRegs = s.badRegs := rfl
@[simp] theorem State.setChases_copies (v : Tab Walk) : (s.setChases v).copies = s.copies := rfl
@[simp] theorem State.setChases_doomed (v : Tab Walk) : (s.setChases v).doomed = s.doomed := rfl
@[simp] theorem State.setChases_pend (v : Tab Walk) : (s.setChases v).pend = s.pend := rfl
@[simp] theorem State.setChases_stores (v : Tab Walk) : (s.setChases v).stores = s.stores := rfl
@[simp] theorem State.setChases_walks (v : Tab Walk) : (s.setChases v).walks = s.walks := rfl
@[simp] theorem State.setChases_xfers (v : Tab Walk) : (s.setChases v).xfers = s.xfers := rfl
@[simp] theorem State.setChases_delivs (v : Tab Walk) : (s.setChases v).delivs = s.delivs := rfl
@[simp] theorem State.setChases_chases (v : Tab Walk) : (s.setChases v).chases = v := rfl
@[simp] theorem State.setChases_joins (v : Tab Walk) : (s.setChases v).joins = s.joins := rfl
@[simp] theorem State.setChases_flying (v : Tab Walk) : (s.setChases v).flying = s.flying := rfl
@[simp] theorem State.setChases_kills (v : Tab Walk) : (s.setChases v).kills = s.kills := rfl
@[simp] theorem State.setChases_fresh (v : Tab Walk) : (s.setChases v).fresh = s.fresh := rfl
@[simp] theorem State.setChases_cur (v : Tab Walk) : (s.setChases v).cur = s.cur := rfl
@[simp] theorem State.setChases_agenda (v : Tab Walk) : (s.setChases v).agenda = s.agenda := rfl
@[simp] theorem State.setChases_queue (v : Tab Walk) : (s.setChases v).queue = s.queue := rfl
@[simp] theorem State.setChases_filled (v : Tab Walk) : (s.setChases v).filled = s.filled := rfl
@[simp] theorem State.setChases_foreseen (v : Tab Walk) : (s.setChases v).foreseen = s.foreseen := rfl
@[simp] theorem State.setChases_pace (v : Tab Walk) : (s.setChases v).pace = s.pace := rfl
@[simp] theorem State.setJoins_time (v : Tab Join) : (s.setJoins v).time = s.time := rfl
@[simp] theorem State.setJoins_gs (v : Tab Join) : (s.setJoins v).gs = s.gs := rfl
@[simp] theorem State.setJoins_hs (v : Tab Join) : (s.setJoins v).hs = s.hs := rfl
@[simp] theorem State.setJoins_ws (v : Tab Join) : (s.setJoins v).ws = s.ws := rfl
@[simp] theorem State.setJoins_ps (v : Tab Join) : (s.setJoins v).ps = s.ps := rfl
@[simp] theorem State.setJoins_es (v : Tab Join) : (s.setJoins v).es = s.es := rfl
@[simp] theorem State.setJoins_eflags (v : Tab Join) : (s.setJoins v).eflags = s.eflags := rfl
@[simp] theorem State.setJoins_ks (v : Tab Join) : (s.setJoins v).ks = s.ks := rfl
@[simp] theorem State.setJoins_js (v : Tab Join) : (s.setJoins v).js = s.js := rfl
@[simp] theorem State.setJoins_alley (v : Tab Join) : (s.setJoins v).alley = s.alley := rfl
@[simp] theorem State.setJoins_alleyOld (v : Tab Join) : (s.setJoins v).alleyOld = s.alleyOld := rfl
@[simp] theorem State.setJoins_strands (v : Tab Join) : (s.setJoins v).strands = s.strands := rfl
@[simp] theorem State.setJoins_gangs (v : Tab Join) : (s.setJoins v).gangs = s.gangs := rfl
@[simp] theorem State.setJoins_cells (v : Tab Join) : (s.setJoins v).cells = s.cells := rfl
@[simp] theorem State.setJoins_blocks (v : Tab Join) : (s.setJoins v).blocks = s.blocks := rfl
@[simp] theorem State.setJoins_grids (v : Tab Join) : (s.setJoins v).grids = s.grids := rfl
@[simp] theorem State.setJoins_dies (v : Tab Join) : (s.setJoins v).dies = s.dies := rfl
@[simp] theorem State.setJoins_pkg (v : Tab Join) : (s.setJoins v).pkg = s.pkg := rfl
@[simp] theorem State.setJoins_mem (v : Tab Join) : (s.setJoins v).mem = s.mem := rfl
@[simp] theorem State.setJoins_absent (v : Tab Join) : (s.setJoins v).absent = s.absent := rfl
@[simp] theorem State.setJoins_clears (v : Tab Join) : (s.setJoins v).clears = s.clears := rfl
@[simp] theorem State.setJoins_sets (v : Tab Join) : (s.setJoins v).sets = s.sets := rfl
@[simp] theorem State.setJoins_poison (v : Tab Join) : (s.setJoins v).poison = s.poison := rfl
@[simp] theorem State.setJoins_badRegs (v : Tab Join) : (s.setJoins v).badRegs = s.badRegs := rfl
@[simp] theorem State.setJoins_copies (v : Tab Join) : (s.setJoins v).copies = s.copies := rfl
@[simp] theorem State.setJoins_doomed (v : Tab Join) : (s.setJoins v).doomed = s.doomed := rfl
@[simp] theorem State.setJoins_pend (v : Tab Join) : (s.setJoins v).pend = s.pend := rfl
@[simp] theorem State.setJoins_stores (v : Tab Join) : (s.setJoins v).stores = s.stores := rfl
@[simp] theorem State.setJoins_walks (v : Tab Join) : (s.setJoins v).walks = s.walks := rfl
@[simp] theorem State.setJoins_xfers (v : Tab Join) : (s.setJoins v).xfers = s.xfers := rfl
@[simp] theorem State.setJoins_delivs (v : Tab Join) : (s.setJoins v).delivs = s.delivs := rfl
@[simp] theorem State.setJoins_chases (v : Tab Join) : (s.setJoins v).chases = s.chases := rfl
@[simp] theorem State.setJoins_joins (v : Tab Join) : (s.setJoins v).joins = v := rfl
@[simp] theorem State.setJoins_flying (v : Tab Join) : (s.setJoins v).flying = s.flying := rfl
@[simp] theorem State.setJoins_kills (v : Tab Join) : (s.setJoins v).kills = s.kills := rfl
@[simp] theorem State.setJoins_fresh (v : Tab Join) : (s.setJoins v).fresh = s.fresh := rfl
@[simp] theorem State.setJoins_cur (v : Tab Join) : (s.setJoins v).cur = s.cur := rfl
@[simp] theorem State.setJoins_agenda (v : Tab Join) : (s.setJoins v).agenda = s.agenda := rfl
@[simp] theorem State.setJoins_queue (v : Tab Join) : (s.setJoins v).queue = s.queue := rfl
@[simp] theorem State.setJoins_filled (v : Tab Join) : (s.setJoins v).filled = s.filled := rfl
@[simp] theorem State.setJoins_foreseen (v : Tab Join) : (s.setJoins v).foreseen = s.foreseen := rfl
@[simp] theorem State.setJoins_pace (v : Tab Join) : (s.setJoins v).pace = s.pace := rfl
@[simp] theorem State.setFlying_time (v : Tab Flying) : (s.setFlying v).time = s.time := rfl
@[simp] theorem State.setFlying_gs (v : Tab Flying) : (s.setFlying v).gs = s.gs := rfl
@[simp] theorem State.setFlying_hs (v : Tab Flying) : (s.setFlying v).hs = s.hs := rfl
@[simp] theorem State.setFlying_ws (v : Tab Flying) : (s.setFlying v).ws = s.ws := rfl
@[simp] theorem State.setFlying_ps (v : Tab Flying) : (s.setFlying v).ps = s.ps := rfl
@[simp] theorem State.setFlying_es (v : Tab Flying) : (s.setFlying v).es = s.es := rfl
@[simp] theorem State.setFlying_eflags (v : Tab Flying) : (s.setFlying v).eflags = s.eflags := rfl
@[simp] theorem State.setFlying_ks (v : Tab Flying) : (s.setFlying v).ks = s.ks := rfl
@[simp] theorem State.setFlying_js (v : Tab Flying) : (s.setFlying v).js = s.js := rfl
@[simp] theorem State.setFlying_alley (v : Tab Flying) : (s.setFlying v).alley = s.alley := rfl
@[simp] theorem State.setFlying_alleyOld (v : Tab Flying) : (s.setFlying v).alleyOld = s.alleyOld := rfl
@[simp] theorem State.setFlying_strands (v : Tab Flying) : (s.setFlying v).strands = s.strands := rfl
@[simp] theorem State.setFlying_gangs (v : Tab Flying) : (s.setFlying v).gangs = s.gangs := rfl
@[simp] theorem State.setFlying_cells (v : Tab Flying) : (s.setFlying v).cells = s.cells := rfl
@[simp] theorem State.setFlying_blocks (v : Tab Flying) : (s.setFlying v).blocks = s.blocks := rfl
@[simp] theorem State.setFlying_grids (v : Tab Flying) : (s.setFlying v).grids = s.grids := rfl
@[simp] theorem State.setFlying_dies (v : Tab Flying) : (s.setFlying v).dies = s.dies := rfl
@[simp] theorem State.setFlying_pkg (v : Tab Flying) : (s.setFlying v).pkg = s.pkg := rfl
@[simp] theorem State.setFlying_mem (v : Tab Flying) : (s.setFlying v).mem = s.mem := rfl
@[simp] theorem State.setFlying_absent (v : Tab Flying) : (s.setFlying v).absent = s.absent := rfl
@[simp] theorem State.setFlying_clears (v : Tab Flying) : (s.setFlying v).clears = s.clears := rfl
@[simp] theorem State.setFlying_sets (v : Tab Flying) : (s.setFlying v).sets = s.sets := rfl
@[simp] theorem State.setFlying_poison (v : Tab Flying) : (s.setFlying v).poison = s.poison := rfl
@[simp] theorem State.setFlying_badRegs (v : Tab Flying) : (s.setFlying v).badRegs = s.badRegs := rfl
@[simp] theorem State.setFlying_copies (v : Tab Flying) : (s.setFlying v).copies = s.copies := rfl
@[simp] theorem State.setFlying_doomed (v : Tab Flying) : (s.setFlying v).doomed = s.doomed := rfl
@[simp] theorem State.setFlying_pend (v : Tab Flying) : (s.setFlying v).pend = s.pend := rfl
@[simp] theorem State.setFlying_stores (v : Tab Flying) : (s.setFlying v).stores = s.stores := rfl
@[simp] theorem State.setFlying_walks (v : Tab Flying) : (s.setFlying v).walks = s.walks := rfl
@[simp] theorem State.setFlying_xfers (v : Tab Flying) : (s.setFlying v).xfers = s.xfers := rfl
@[simp] theorem State.setFlying_delivs (v : Tab Flying) : (s.setFlying v).delivs = s.delivs := rfl
@[simp] theorem State.setFlying_chases (v : Tab Flying) : (s.setFlying v).chases = s.chases := rfl
@[simp] theorem State.setFlying_joins (v : Tab Flying) : (s.setFlying v).joins = s.joins := rfl
@[simp] theorem State.setFlying_flying (v : Tab Flying) : (s.setFlying v).flying = v := rfl
@[simp] theorem State.setFlying_kills (v : Tab Flying) : (s.setFlying v).kills = s.kills := rfl
@[simp] theorem State.setFlying_fresh (v : Tab Flying) : (s.setFlying v).fresh = s.fresh := rfl
@[simp] theorem State.setFlying_cur (v : Tab Flying) : (s.setFlying v).cur = s.cur := rfl
@[simp] theorem State.setFlying_agenda (v : Tab Flying) : (s.setFlying v).agenda = s.agenda := rfl
@[simp] theorem State.setFlying_queue (v : Tab Flying) : (s.setFlying v).queue = s.queue := rfl
@[simp] theorem State.setFlying_filled (v : Tab Flying) : (s.setFlying v).filled = s.filled := rfl
@[simp] theorem State.setFlying_foreseen (v : Tab Flying) : (s.setFlying v).foreseen = s.foreseen := rfl
@[simp] theorem State.setFlying_pace (v : Tab Flying) : (s.setFlying v).pace = s.pace := rfl
@[simp] theorem State.setKills_time (v : Tab KillSt) : (s.setKills v).time = s.time := rfl
@[simp] theorem State.setKills_gs (v : Tab KillSt) : (s.setKills v).gs = s.gs := rfl
@[simp] theorem State.setKills_hs (v : Tab KillSt) : (s.setKills v).hs = s.hs := rfl
@[simp] theorem State.setKills_ws (v : Tab KillSt) : (s.setKills v).ws = s.ws := rfl
@[simp] theorem State.setKills_ps (v : Tab KillSt) : (s.setKills v).ps = s.ps := rfl
@[simp] theorem State.setKills_es (v : Tab KillSt) : (s.setKills v).es = s.es := rfl
@[simp] theorem State.setKills_eflags (v : Tab KillSt) : (s.setKills v).eflags = s.eflags := rfl
@[simp] theorem State.setKills_ks (v : Tab KillSt) : (s.setKills v).ks = s.ks := rfl
@[simp] theorem State.setKills_js (v : Tab KillSt) : (s.setKills v).js = s.js := rfl
@[simp] theorem State.setKills_alley (v : Tab KillSt) : (s.setKills v).alley = s.alley := rfl
@[simp] theorem State.setKills_alleyOld (v : Tab KillSt) : (s.setKills v).alleyOld = s.alleyOld := rfl
@[simp] theorem State.setKills_strands (v : Tab KillSt) : (s.setKills v).strands = s.strands := rfl
@[simp] theorem State.setKills_gangs (v : Tab KillSt) : (s.setKills v).gangs = s.gangs := rfl
@[simp] theorem State.setKills_cells (v : Tab KillSt) : (s.setKills v).cells = s.cells := rfl
@[simp] theorem State.setKills_blocks (v : Tab KillSt) : (s.setKills v).blocks = s.blocks := rfl
@[simp] theorem State.setKills_grids (v : Tab KillSt) : (s.setKills v).grids = s.grids := rfl
@[simp] theorem State.setKills_dies (v : Tab KillSt) : (s.setKills v).dies = s.dies := rfl
@[simp] theorem State.setKills_pkg (v : Tab KillSt) : (s.setKills v).pkg = s.pkg := rfl
@[simp] theorem State.setKills_mem (v : Tab KillSt) : (s.setKills v).mem = s.mem := rfl
@[simp] theorem State.setKills_absent (v : Tab KillSt) : (s.setKills v).absent = s.absent := rfl
@[simp] theorem State.setKills_clears (v : Tab KillSt) : (s.setKills v).clears = s.clears := rfl
@[simp] theorem State.setKills_sets (v : Tab KillSt) : (s.setKills v).sets = s.sets := rfl
@[simp] theorem State.setKills_poison (v : Tab KillSt) : (s.setKills v).poison = s.poison := rfl
@[simp] theorem State.setKills_badRegs (v : Tab KillSt) : (s.setKills v).badRegs = s.badRegs := rfl
@[simp] theorem State.setKills_copies (v : Tab KillSt) : (s.setKills v).copies = s.copies := rfl
@[simp] theorem State.setKills_doomed (v : Tab KillSt) : (s.setKills v).doomed = s.doomed := rfl
@[simp] theorem State.setKills_pend (v : Tab KillSt) : (s.setKills v).pend = s.pend := rfl
@[simp] theorem State.setKills_stores (v : Tab KillSt) : (s.setKills v).stores = s.stores := rfl
@[simp] theorem State.setKills_walks (v : Tab KillSt) : (s.setKills v).walks = s.walks := rfl
@[simp] theorem State.setKills_xfers (v : Tab KillSt) : (s.setKills v).xfers = s.xfers := rfl
@[simp] theorem State.setKills_delivs (v : Tab KillSt) : (s.setKills v).delivs = s.delivs := rfl
@[simp] theorem State.setKills_chases (v : Tab KillSt) : (s.setKills v).chases = s.chases := rfl
@[simp] theorem State.setKills_joins (v : Tab KillSt) : (s.setKills v).joins = s.joins := rfl
@[simp] theorem State.setKills_flying (v : Tab KillSt) : (s.setKills v).flying = s.flying := rfl
@[simp] theorem State.setKills_kills (v : Tab KillSt) : (s.setKills v).kills = v := rfl
@[simp] theorem State.setKills_fresh (v : Tab KillSt) : (s.setKills v).fresh = s.fresh := rfl
@[simp] theorem State.setKills_cur (v : Tab KillSt) : (s.setKills v).cur = s.cur := rfl
@[simp] theorem State.setKills_agenda (v : Tab KillSt) : (s.setKills v).agenda = s.agenda := rfl
@[simp] theorem State.setKills_queue (v : Tab KillSt) : (s.setKills v).queue = s.queue := rfl
@[simp] theorem State.setKills_filled (v : Tab KillSt) : (s.setKills v).filled = s.filled := rfl
@[simp] theorem State.setKills_foreseen (v : Tab KillSt) : (s.setKills v).foreseen = s.foreseen := rfl
@[simp] theorem State.setKills_pace (v : Tab KillSt) : (s.setKills v).pace = s.pace := rfl
@[simp] theorem State.setFresh_time (v : Nat) : (s.setFresh v).time = s.time := rfl
@[simp] theorem State.setFresh_gs (v : Nat) : (s.setFresh v).gs = s.gs := rfl
@[simp] theorem State.setFresh_hs (v : Nat) : (s.setFresh v).hs = s.hs := rfl
@[simp] theorem State.setFresh_ws (v : Nat) : (s.setFresh v).ws = s.ws := rfl
@[simp] theorem State.setFresh_ps (v : Nat) : (s.setFresh v).ps = s.ps := rfl
@[simp] theorem State.setFresh_es (v : Nat) : (s.setFresh v).es = s.es := rfl
@[simp] theorem State.setFresh_eflags (v : Nat) : (s.setFresh v).eflags = s.eflags := rfl
@[simp] theorem State.setFresh_ks (v : Nat) : (s.setFresh v).ks = s.ks := rfl
@[simp] theorem State.setFresh_js (v : Nat) : (s.setFresh v).js = s.js := rfl
@[simp] theorem State.setFresh_alley (v : Nat) : (s.setFresh v).alley = s.alley := rfl
@[simp] theorem State.setFresh_alleyOld (v : Nat) : (s.setFresh v).alleyOld = s.alleyOld := rfl
@[simp] theorem State.setFresh_strands (v : Nat) : (s.setFresh v).strands = s.strands := rfl
@[simp] theorem State.setFresh_gangs (v : Nat) : (s.setFresh v).gangs = s.gangs := rfl
@[simp] theorem State.setFresh_cells (v : Nat) : (s.setFresh v).cells = s.cells := rfl
@[simp] theorem State.setFresh_blocks (v : Nat) : (s.setFresh v).blocks = s.blocks := rfl
@[simp] theorem State.setFresh_grids (v : Nat) : (s.setFresh v).grids = s.grids := rfl
@[simp] theorem State.setFresh_dies (v : Nat) : (s.setFresh v).dies = s.dies := rfl
@[simp] theorem State.setFresh_pkg (v : Nat) : (s.setFresh v).pkg = s.pkg := rfl
@[simp] theorem State.setFresh_mem (v : Nat) : (s.setFresh v).mem = s.mem := rfl
@[simp] theorem State.setFresh_absent (v : Nat) : (s.setFresh v).absent = s.absent := rfl
@[simp] theorem State.setFresh_clears (v : Nat) : (s.setFresh v).clears = s.clears := rfl
@[simp] theorem State.setFresh_sets (v : Nat) : (s.setFresh v).sets = s.sets := rfl
@[simp] theorem State.setFresh_poison (v : Nat) : (s.setFresh v).poison = s.poison := rfl
@[simp] theorem State.setFresh_badRegs (v : Nat) : (s.setFresh v).badRegs = s.badRegs := rfl
@[simp] theorem State.setFresh_copies (v : Nat) : (s.setFresh v).copies = s.copies := rfl
@[simp] theorem State.setFresh_doomed (v : Nat) : (s.setFresh v).doomed = s.doomed := rfl
@[simp] theorem State.setFresh_pend (v : Nat) : (s.setFresh v).pend = s.pend := rfl
@[simp] theorem State.setFresh_stores (v : Nat) : (s.setFresh v).stores = s.stores := rfl
@[simp] theorem State.setFresh_walks (v : Nat) : (s.setFresh v).walks = s.walks := rfl
@[simp] theorem State.setFresh_xfers (v : Nat) : (s.setFresh v).xfers = s.xfers := rfl
@[simp] theorem State.setFresh_delivs (v : Nat) : (s.setFresh v).delivs = s.delivs := rfl
@[simp] theorem State.setFresh_chases (v : Nat) : (s.setFresh v).chases = s.chases := rfl
@[simp] theorem State.setFresh_joins (v : Nat) : (s.setFresh v).joins = s.joins := rfl
@[simp] theorem State.setFresh_flying (v : Nat) : (s.setFresh v).flying = s.flying := rfl
@[simp] theorem State.setFresh_kills (v : Nat) : (s.setFresh v).kills = s.kills := rfl
@[simp] theorem State.setFresh_fresh (v : Nat) : (s.setFresh v).fresh = v := rfl
@[simp] theorem State.setFresh_cur (v : Nat) : (s.setFresh v).cur = s.cur := rfl
@[simp] theorem State.setFresh_agenda (v : Nat) : (s.setFresh v).agenda = s.agenda := rfl
@[simp] theorem State.setFresh_queue (v : Nat) : (s.setFresh v).queue = s.queue := rfl
@[simp] theorem State.setFresh_filled (v : Nat) : (s.setFresh v).filled = s.filled := rfl
@[simp] theorem State.setFresh_foreseen (v : Nat) : (s.setFresh v).foreseen = s.foreseen := rfl
@[simp] theorem State.setFresh_pace (v : Nat) : (s.setFresh v).pace = s.pace := rfl
@[simp] theorem State.setCur_time (v : Cur) : (s.setCur v).time = s.time := rfl
@[simp] theorem State.setCur_gs (v : Cur) : (s.setCur v).gs = s.gs := rfl
@[simp] theorem State.setCur_hs (v : Cur) : (s.setCur v).hs = s.hs := rfl
@[simp] theorem State.setCur_ws (v : Cur) : (s.setCur v).ws = s.ws := rfl
@[simp] theorem State.setCur_ps (v : Cur) : (s.setCur v).ps = s.ps := rfl
@[simp] theorem State.setCur_es (v : Cur) : (s.setCur v).es = s.es := rfl
@[simp] theorem State.setCur_eflags (v : Cur) : (s.setCur v).eflags = s.eflags := rfl
@[simp] theorem State.setCur_ks (v : Cur) : (s.setCur v).ks = s.ks := rfl
@[simp] theorem State.setCur_js (v : Cur) : (s.setCur v).js = s.js := rfl
@[simp] theorem State.setCur_alley (v : Cur) : (s.setCur v).alley = s.alley := rfl
@[simp] theorem State.setCur_alleyOld (v : Cur) : (s.setCur v).alleyOld = s.alleyOld := rfl
@[simp] theorem State.setCur_strands (v : Cur) : (s.setCur v).strands = s.strands := rfl
@[simp] theorem State.setCur_gangs (v : Cur) : (s.setCur v).gangs = s.gangs := rfl
@[simp] theorem State.setCur_cells (v : Cur) : (s.setCur v).cells = s.cells := rfl
@[simp] theorem State.setCur_blocks (v : Cur) : (s.setCur v).blocks = s.blocks := rfl
@[simp] theorem State.setCur_grids (v : Cur) : (s.setCur v).grids = s.grids := rfl
@[simp] theorem State.setCur_dies (v : Cur) : (s.setCur v).dies = s.dies := rfl
@[simp] theorem State.setCur_pkg (v : Cur) : (s.setCur v).pkg = s.pkg := rfl
@[simp] theorem State.setCur_mem (v : Cur) : (s.setCur v).mem = s.mem := rfl
@[simp] theorem State.setCur_absent (v : Cur) : (s.setCur v).absent = s.absent := rfl
@[simp] theorem State.setCur_clears (v : Cur) : (s.setCur v).clears = s.clears := rfl
@[simp] theorem State.setCur_sets (v : Cur) : (s.setCur v).sets = s.sets := rfl
@[simp] theorem State.setCur_poison (v : Cur) : (s.setCur v).poison = s.poison := rfl
@[simp] theorem State.setCur_badRegs (v : Cur) : (s.setCur v).badRegs = s.badRegs := rfl
@[simp] theorem State.setCur_copies (v : Cur) : (s.setCur v).copies = s.copies := rfl
@[simp] theorem State.setCur_doomed (v : Cur) : (s.setCur v).doomed = s.doomed := rfl
@[simp] theorem State.setCur_pend (v : Cur) : (s.setCur v).pend = s.pend := rfl
@[simp] theorem State.setCur_stores (v : Cur) : (s.setCur v).stores = s.stores := rfl
@[simp] theorem State.setCur_walks (v : Cur) : (s.setCur v).walks = s.walks := rfl
@[simp] theorem State.setCur_xfers (v : Cur) : (s.setCur v).xfers = s.xfers := rfl
@[simp] theorem State.setCur_delivs (v : Cur) : (s.setCur v).delivs = s.delivs := rfl
@[simp] theorem State.setCur_chases (v : Cur) : (s.setCur v).chases = s.chases := rfl
@[simp] theorem State.setCur_joins (v : Cur) : (s.setCur v).joins = s.joins := rfl
@[simp] theorem State.setCur_flying (v : Cur) : (s.setCur v).flying = s.flying := rfl
@[simp] theorem State.setCur_kills (v : Cur) : (s.setCur v).kills = s.kills := rfl
@[simp] theorem State.setCur_fresh (v : Cur) : (s.setCur v).fresh = s.fresh := rfl
@[simp] theorem State.setCur_cur (v : Cur) : (s.setCur v).cur = v := rfl
@[simp] theorem State.setCur_agenda (v : Cur) : (s.setCur v).agenda = s.agenda := rfl
@[simp] theorem State.setCur_queue (v : Cur) : (s.setCur v).queue = s.queue := rfl
@[simp] theorem State.setCur_filled (v : Cur) : (s.setCur v).filled = s.filled := rfl
@[simp] theorem State.setCur_foreseen (v : Cur) : (s.setCur v).foreseen = s.foreseen := rfl
@[simp] theorem State.setCur_pace (v : Cur) : (s.setCur v).pace = s.pace := rfl
@[simp] theorem State.setAgenda_time (v : List Instr) : (s.setAgenda v).time = s.time := rfl
@[simp] theorem State.setAgenda_gs (v : List Instr) : (s.setAgenda v).gs = s.gs := rfl
@[simp] theorem State.setAgenda_hs (v : List Instr) : (s.setAgenda v).hs = s.hs := rfl
@[simp] theorem State.setAgenda_ws (v : List Instr) : (s.setAgenda v).ws = s.ws := rfl
@[simp] theorem State.setAgenda_ps (v : List Instr) : (s.setAgenda v).ps = s.ps := rfl
@[simp] theorem State.setAgenda_es (v : List Instr) : (s.setAgenda v).es = s.es := rfl
@[simp] theorem State.setAgenda_eflags (v : List Instr) : (s.setAgenda v).eflags = s.eflags := rfl
@[simp] theorem State.setAgenda_ks (v : List Instr) : (s.setAgenda v).ks = s.ks := rfl
@[simp] theorem State.setAgenda_js (v : List Instr) : (s.setAgenda v).js = s.js := rfl
@[simp] theorem State.setAgenda_alley (v : List Instr) : (s.setAgenda v).alley = s.alley := rfl
@[simp] theorem State.setAgenda_alleyOld (v : List Instr) : (s.setAgenda v).alleyOld = s.alleyOld := rfl
@[simp] theorem State.setAgenda_strands (v : List Instr) : (s.setAgenda v).strands = s.strands := rfl
@[simp] theorem State.setAgenda_gangs (v : List Instr) : (s.setAgenda v).gangs = s.gangs := rfl
@[simp] theorem State.setAgenda_cells (v : List Instr) : (s.setAgenda v).cells = s.cells := rfl
@[simp] theorem State.setAgenda_blocks (v : List Instr) : (s.setAgenda v).blocks = s.blocks := rfl
@[simp] theorem State.setAgenda_grids (v : List Instr) : (s.setAgenda v).grids = s.grids := rfl
@[simp] theorem State.setAgenda_dies (v : List Instr) : (s.setAgenda v).dies = s.dies := rfl
@[simp] theorem State.setAgenda_pkg (v : List Instr) : (s.setAgenda v).pkg = s.pkg := rfl
@[simp] theorem State.setAgenda_mem (v : List Instr) : (s.setAgenda v).mem = s.mem := rfl
@[simp] theorem State.setAgenda_absent (v : List Instr) : (s.setAgenda v).absent = s.absent := rfl
@[simp] theorem State.setAgenda_clears (v : List Instr) : (s.setAgenda v).clears = s.clears := rfl
@[simp] theorem State.setAgenda_sets (v : List Instr) : (s.setAgenda v).sets = s.sets := rfl
@[simp] theorem State.setAgenda_poison (v : List Instr) : (s.setAgenda v).poison = s.poison := rfl
@[simp] theorem State.setAgenda_badRegs (v : List Instr) : (s.setAgenda v).badRegs = s.badRegs := rfl
@[simp] theorem State.setAgenda_copies (v : List Instr) : (s.setAgenda v).copies = s.copies := rfl
@[simp] theorem State.setAgenda_doomed (v : List Instr) : (s.setAgenda v).doomed = s.doomed := rfl
@[simp] theorem State.setAgenda_pend (v : List Instr) : (s.setAgenda v).pend = s.pend := rfl
@[simp] theorem State.setAgenda_stores (v : List Instr) : (s.setAgenda v).stores = s.stores := rfl
@[simp] theorem State.setAgenda_walks (v : List Instr) : (s.setAgenda v).walks = s.walks := rfl
@[simp] theorem State.setAgenda_xfers (v : List Instr) : (s.setAgenda v).xfers = s.xfers := rfl
@[simp] theorem State.setAgenda_delivs (v : List Instr) : (s.setAgenda v).delivs = s.delivs := rfl
@[simp] theorem State.setAgenda_chases (v : List Instr) : (s.setAgenda v).chases = s.chases := rfl
@[simp] theorem State.setAgenda_joins (v : List Instr) : (s.setAgenda v).joins = s.joins := rfl
@[simp] theorem State.setAgenda_flying (v : List Instr) : (s.setAgenda v).flying = s.flying := rfl
@[simp] theorem State.setAgenda_kills (v : List Instr) : (s.setAgenda v).kills = s.kills := rfl
@[simp] theorem State.setAgenda_fresh (v : List Instr) : (s.setAgenda v).fresh = s.fresh := rfl
@[simp] theorem State.setAgenda_cur (v : List Instr) : (s.setAgenda v).cur = s.cur := rfl
@[simp] theorem State.setAgenda_agenda (v : List Instr) : (s.setAgenda v).agenda = v := rfl
@[simp] theorem State.setAgenda_queue (v : List Instr) : (s.setAgenda v).queue = s.queue := rfl
@[simp] theorem State.setAgenda_filled (v : List Instr) : (s.setAgenda v).filled = s.filled := rfl
@[simp] theorem State.setAgenda_foreseen (v : List Instr) : (s.setAgenda v).foreseen = s.foreseen := rfl
@[simp] theorem State.setAgenda_pace (v : List Instr) : (s.setAgenda v).pace = s.pace := rfl
@[simp] theorem State.setQueue_time (v : List Nat) : (s.setQueue v).time = s.time := rfl
@[simp] theorem State.setQueue_gs (v : List Nat) : (s.setQueue v).gs = s.gs := rfl
@[simp] theorem State.setQueue_hs (v : List Nat) : (s.setQueue v).hs = s.hs := rfl
@[simp] theorem State.setQueue_ws (v : List Nat) : (s.setQueue v).ws = s.ws := rfl
@[simp] theorem State.setQueue_ps (v : List Nat) : (s.setQueue v).ps = s.ps := rfl
@[simp] theorem State.setQueue_es (v : List Nat) : (s.setQueue v).es = s.es := rfl
@[simp] theorem State.setQueue_eflags (v : List Nat) : (s.setQueue v).eflags = s.eflags := rfl
@[simp] theorem State.setQueue_ks (v : List Nat) : (s.setQueue v).ks = s.ks := rfl
@[simp] theorem State.setQueue_js (v : List Nat) : (s.setQueue v).js = s.js := rfl
@[simp] theorem State.setQueue_alley (v : List Nat) : (s.setQueue v).alley = s.alley := rfl
@[simp] theorem State.setQueue_alleyOld (v : List Nat) : (s.setQueue v).alleyOld = s.alleyOld := rfl
@[simp] theorem State.setQueue_strands (v : List Nat) : (s.setQueue v).strands = s.strands := rfl
@[simp] theorem State.setQueue_gangs (v : List Nat) : (s.setQueue v).gangs = s.gangs := rfl
@[simp] theorem State.setQueue_cells (v : List Nat) : (s.setQueue v).cells = s.cells := rfl
@[simp] theorem State.setQueue_blocks (v : List Nat) : (s.setQueue v).blocks = s.blocks := rfl
@[simp] theorem State.setQueue_grids (v : List Nat) : (s.setQueue v).grids = s.grids := rfl
@[simp] theorem State.setQueue_dies (v : List Nat) : (s.setQueue v).dies = s.dies := rfl
@[simp] theorem State.setQueue_pkg (v : List Nat) : (s.setQueue v).pkg = s.pkg := rfl
@[simp] theorem State.setQueue_mem (v : List Nat) : (s.setQueue v).mem = s.mem := rfl
@[simp] theorem State.setQueue_absent (v : List Nat) : (s.setQueue v).absent = s.absent := rfl
@[simp] theorem State.setQueue_clears (v : List Nat) : (s.setQueue v).clears = s.clears := rfl
@[simp] theorem State.setQueue_sets (v : List Nat) : (s.setQueue v).sets = s.sets := rfl
@[simp] theorem State.setQueue_poison (v : List Nat) : (s.setQueue v).poison = s.poison := rfl
@[simp] theorem State.setQueue_badRegs (v : List Nat) : (s.setQueue v).badRegs = s.badRegs := rfl
@[simp] theorem State.setQueue_copies (v : List Nat) : (s.setQueue v).copies = s.copies := rfl
@[simp] theorem State.setQueue_doomed (v : List Nat) : (s.setQueue v).doomed = s.doomed := rfl
@[simp] theorem State.setQueue_pend (v : List Nat) : (s.setQueue v).pend = s.pend := rfl
@[simp] theorem State.setQueue_stores (v : List Nat) : (s.setQueue v).stores = s.stores := rfl
@[simp] theorem State.setQueue_walks (v : List Nat) : (s.setQueue v).walks = s.walks := rfl
@[simp] theorem State.setQueue_xfers (v : List Nat) : (s.setQueue v).xfers = s.xfers := rfl
@[simp] theorem State.setQueue_delivs (v : List Nat) : (s.setQueue v).delivs = s.delivs := rfl
@[simp] theorem State.setQueue_chases (v : List Nat) : (s.setQueue v).chases = s.chases := rfl
@[simp] theorem State.setQueue_joins (v : List Nat) : (s.setQueue v).joins = s.joins := rfl
@[simp] theorem State.setQueue_flying (v : List Nat) : (s.setQueue v).flying = s.flying := rfl
@[simp] theorem State.setQueue_kills (v : List Nat) : (s.setQueue v).kills = s.kills := rfl
@[simp] theorem State.setQueue_fresh (v : List Nat) : (s.setQueue v).fresh = s.fresh := rfl
@[simp] theorem State.setQueue_cur (v : List Nat) : (s.setQueue v).cur = s.cur := rfl
@[simp] theorem State.setQueue_agenda (v : List Nat) : (s.setQueue v).agenda = s.agenda := rfl
@[simp] theorem State.setQueue_queue (v : List Nat) : (s.setQueue v).queue = v := rfl
@[simp] theorem State.setQueue_filled (v : List Nat) : (s.setQueue v).filled = s.filled := rfl
@[simp] theorem State.setQueue_foreseen (v : List Nat) : (s.setQueue v).foreseen = s.foreseen := rfl
@[simp] theorem State.setQueue_pace (v : List Nat) : (s.setQueue v).pace = s.pace := rfl
@[simp] theorem State.setFilled_time (v : Bool) : (s.setFilled v).time = s.time := rfl
@[simp] theorem State.setFilled_gs (v : Bool) : (s.setFilled v).gs = s.gs := rfl
@[simp] theorem State.setFilled_hs (v : Bool) : (s.setFilled v).hs = s.hs := rfl
@[simp] theorem State.setFilled_ws (v : Bool) : (s.setFilled v).ws = s.ws := rfl
@[simp] theorem State.setFilled_ps (v : Bool) : (s.setFilled v).ps = s.ps := rfl
@[simp] theorem State.setFilled_es (v : Bool) : (s.setFilled v).es = s.es := rfl
@[simp] theorem State.setFilled_eflags (v : Bool) : (s.setFilled v).eflags = s.eflags := rfl
@[simp] theorem State.setFilled_ks (v : Bool) : (s.setFilled v).ks = s.ks := rfl
@[simp] theorem State.setFilled_js (v : Bool) : (s.setFilled v).js = s.js := rfl
@[simp] theorem State.setFilled_alley (v : Bool) : (s.setFilled v).alley = s.alley := rfl
@[simp] theorem State.setFilled_alleyOld (v : Bool) : (s.setFilled v).alleyOld = s.alleyOld := rfl
@[simp] theorem State.setFilled_strands (v : Bool) : (s.setFilled v).strands = s.strands := rfl
@[simp] theorem State.setFilled_gangs (v : Bool) : (s.setFilled v).gangs = s.gangs := rfl
@[simp] theorem State.setFilled_cells (v : Bool) : (s.setFilled v).cells = s.cells := rfl
@[simp] theorem State.setFilled_blocks (v : Bool) : (s.setFilled v).blocks = s.blocks := rfl
@[simp] theorem State.setFilled_grids (v : Bool) : (s.setFilled v).grids = s.grids := rfl
@[simp] theorem State.setFilled_dies (v : Bool) : (s.setFilled v).dies = s.dies := rfl
@[simp] theorem State.setFilled_pkg (v : Bool) : (s.setFilled v).pkg = s.pkg := rfl
@[simp] theorem State.setFilled_mem (v : Bool) : (s.setFilled v).mem = s.mem := rfl
@[simp] theorem State.setFilled_absent (v : Bool) : (s.setFilled v).absent = s.absent := rfl
@[simp] theorem State.setFilled_clears (v : Bool) : (s.setFilled v).clears = s.clears := rfl
@[simp] theorem State.setFilled_sets (v : Bool) : (s.setFilled v).sets = s.sets := rfl
@[simp] theorem State.setFilled_poison (v : Bool) : (s.setFilled v).poison = s.poison := rfl
@[simp] theorem State.setFilled_badRegs (v : Bool) : (s.setFilled v).badRegs = s.badRegs := rfl
@[simp] theorem State.setFilled_copies (v : Bool) : (s.setFilled v).copies = s.copies := rfl
@[simp] theorem State.setFilled_doomed (v : Bool) : (s.setFilled v).doomed = s.doomed := rfl
@[simp] theorem State.setFilled_pend (v : Bool) : (s.setFilled v).pend = s.pend := rfl
@[simp] theorem State.setFilled_stores (v : Bool) : (s.setFilled v).stores = s.stores := rfl
@[simp] theorem State.setFilled_walks (v : Bool) : (s.setFilled v).walks = s.walks := rfl
@[simp] theorem State.setFilled_xfers (v : Bool) : (s.setFilled v).xfers = s.xfers := rfl
@[simp] theorem State.setFilled_delivs (v : Bool) : (s.setFilled v).delivs = s.delivs := rfl
@[simp] theorem State.setFilled_chases (v : Bool) : (s.setFilled v).chases = s.chases := rfl
@[simp] theorem State.setFilled_joins (v : Bool) : (s.setFilled v).joins = s.joins := rfl
@[simp] theorem State.setFilled_flying (v : Bool) : (s.setFilled v).flying = s.flying := rfl
@[simp] theorem State.setFilled_kills (v : Bool) : (s.setFilled v).kills = s.kills := rfl
@[simp] theorem State.setFilled_fresh (v : Bool) : (s.setFilled v).fresh = s.fresh := rfl
@[simp] theorem State.setFilled_cur (v : Bool) : (s.setFilled v).cur = s.cur := rfl
@[simp] theorem State.setFilled_agenda (v : Bool) : (s.setFilled v).agenda = s.agenda := rfl
@[simp] theorem State.setFilled_queue (v : Bool) : (s.setFilled v).queue = s.queue := rfl
@[simp] theorem State.setFilled_filled (v : Bool) : (s.setFilled v).filled = v := rfl
@[simp] theorem State.setFilled_foreseen (v : Bool) : (s.setFilled v).foreseen = s.foreseen := rfl
@[simp] theorem State.setFilled_pace (v : Bool) : (s.setFilled v).pace = s.pace := rfl
@[simp] theorem State.setForeseen_time (v : List Nat) : (s.setForeseen v).time = s.time := rfl
@[simp] theorem State.setForeseen_gs (v : List Nat) : (s.setForeseen v).gs = s.gs := rfl
@[simp] theorem State.setForeseen_hs (v : List Nat) : (s.setForeseen v).hs = s.hs := rfl
@[simp] theorem State.setForeseen_ws (v : List Nat) : (s.setForeseen v).ws = s.ws := rfl
@[simp] theorem State.setForeseen_ps (v : List Nat) : (s.setForeseen v).ps = s.ps := rfl
@[simp] theorem State.setForeseen_es (v : List Nat) : (s.setForeseen v).es = s.es := rfl
@[simp] theorem State.setForeseen_eflags (v : List Nat) : (s.setForeseen v).eflags = s.eflags := rfl
@[simp] theorem State.setForeseen_ks (v : List Nat) : (s.setForeseen v).ks = s.ks := rfl
@[simp] theorem State.setForeseen_js (v : List Nat) : (s.setForeseen v).js = s.js := rfl
@[simp] theorem State.setForeseen_alley (v : List Nat) : (s.setForeseen v).alley = s.alley := rfl
@[simp] theorem State.setForeseen_alleyOld (v : List Nat) : (s.setForeseen v).alleyOld = s.alleyOld := rfl
@[simp] theorem State.setForeseen_strands (v : List Nat) : (s.setForeseen v).strands = s.strands := rfl
@[simp] theorem State.setForeseen_gangs (v : List Nat) : (s.setForeseen v).gangs = s.gangs := rfl
@[simp] theorem State.setForeseen_cells (v : List Nat) : (s.setForeseen v).cells = s.cells := rfl
@[simp] theorem State.setForeseen_blocks (v : List Nat) : (s.setForeseen v).blocks = s.blocks := rfl
@[simp] theorem State.setForeseen_grids (v : List Nat) : (s.setForeseen v).grids = s.grids := rfl
@[simp] theorem State.setForeseen_dies (v : List Nat) : (s.setForeseen v).dies = s.dies := rfl
@[simp] theorem State.setForeseen_pkg (v : List Nat) : (s.setForeseen v).pkg = s.pkg := rfl
@[simp] theorem State.setForeseen_mem (v : List Nat) : (s.setForeseen v).mem = s.mem := rfl
@[simp] theorem State.setForeseen_absent (v : List Nat) : (s.setForeseen v).absent = s.absent := rfl
@[simp] theorem State.setForeseen_clears (v : List Nat) : (s.setForeseen v).clears = s.clears := rfl
@[simp] theorem State.setForeseen_sets (v : List Nat) : (s.setForeseen v).sets = s.sets := rfl
@[simp] theorem State.setForeseen_poison (v : List Nat) : (s.setForeseen v).poison = s.poison := rfl
@[simp] theorem State.setForeseen_badRegs (v : List Nat) : (s.setForeseen v).badRegs = s.badRegs := rfl
@[simp] theorem State.setForeseen_copies (v : List Nat) : (s.setForeseen v).copies = s.copies := rfl
@[simp] theorem State.setForeseen_doomed (v : List Nat) : (s.setForeseen v).doomed = s.doomed := rfl
@[simp] theorem State.setForeseen_pend (v : List Nat) : (s.setForeseen v).pend = s.pend := rfl
@[simp] theorem State.setForeseen_stores (v : List Nat) : (s.setForeseen v).stores = s.stores := rfl
@[simp] theorem State.setForeseen_walks (v : List Nat) : (s.setForeseen v).walks = s.walks := rfl
@[simp] theorem State.setForeseen_xfers (v : List Nat) : (s.setForeseen v).xfers = s.xfers := rfl
@[simp] theorem State.setForeseen_delivs (v : List Nat) : (s.setForeseen v).delivs = s.delivs := rfl
@[simp] theorem State.setForeseen_chases (v : List Nat) : (s.setForeseen v).chases = s.chases := rfl
@[simp] theorem State.setForeseen_joins (v : List Nat) : (s.setForeseen v).joins = s.joins := rfl
@[simp] theorem State.setForeseen_flying (v : List Nat) : (s.setForeseen v).flying = s.flying := rfl
@[simp] theorem State.setForeseen_kills (v : List Nat) : (s.setForeseen v).kills = s.kills := rfl
@[simp] theorem State.setForeseen_fresh (v : List Nat) : (s.setForeseen v).fresh = s.fresh := rfl
@[simp] theorem State.setForeseen_cur (v : List Nat) : (s.setForeseen v).cur = s.cur := rfl
@[simp] theorem State.setForeseen_agenda (v : List Nat) : (s.setForeseen v).agenda = s.agenda := rfl
@[simp] theorem State.setForeseen_queue (v : List Nat) : (s.setForeseen v).queue = s.queue := rfl
@[simp] theorem State.setForeseen_filled (v : List Nat) : (s.setForeseen v).filled = s.filled := rfl
@[simp] theorem State.setForeseen_foreseen (v : List Nat) : (s.setForeseen v).foreseen = v := rfl
@[simp] theorem State.setForeseen_pace (v : List Nat) : (s.setForeseen v).pace = s.pace := rfl
@[simp] theorem State.setPace_time (v : Pace) : (s.setPace v).time = s.time := rfl
@[simp] theorem State.setPace_gs (v : Pace) : (s.setPace v).gs = s.gs := rfl
@[simp] theorem State.setPace_hs (v : Pace) : (s.setPace v).hs = s.hs := rfl
@[simp] theorem State.setPace_ws (v : Pace) : (s.setPace v).ws = s.ws := rfl
@[simp] theorem State.setPace_ps (v : Pace) : (s.setPace v).ps = s.ps := rfl
@[simp] theorem State.setPace_es (v : Pace) : (s.setPace v).es = s.es := rfl
@[simp] theorem State.setPace_eflags (v : Pace) : (s.setPace v).eflags = s.eflags := rfl
@[simp] theorem State.setPace_ks (v : Pace) : (s.setPace v).ks = s.ks := rfl
@[simp] theorem State.setPace_js (v : Pace) : (s.setPace v).js = s.js := rfl
@[simp] theorem State.setPace_alley (v : Pace) : (s.setPace v).alley = s.alley := rfl
@[simp] theorem State.setPace_alleyOld (v : Pace) : (s.setPace v).alleyOld = s.alleyOld := rfl
@[simp] theorem State.setPace_strands (v : Pace) : (s.setPace v).strands = s.strands := rfl
@[simp] theorem State.setPace_gangs (v : Pace) : (s.setPace v).gangs = s.gangs := rfl
@[simp] theorem State.setPace_cells (v : Pace) : (s.setPace v).cells = s.cells := rfl
@[simp] theorem State.setPace_blocks (v : Pace) : (s.setPace v).blocks = s.blocks := rfl
@[simp] theorem State.setPace_grids (v : Pace) : (s.setPace v).grids = s.grids := rfl
@[simp] theorem State.setPace_dies (v : Pace) : (s.setPace v).dies = s.dies := rfl
@[simp] theorem State.setPace_pkg (v : Pace) : (s.setPace v).pkg = s.pkg := rfl
@[simp] theorem State.setPace_mem (v : Pace) : (s.setPace v).mem = s.mem := rfl
@[simp] theorem State.setPace_absent (v : Pace) : (s.setPace v).absent = s.absent := rfl
@[simp] theorem State.setPace_clears (v : Pace) : (s.setPace v).clears = s.clears := rfl
@[simp] theorem State.setPace_sets (v : Pace) : (s.setPace v).sets = s.sets := rfl
@[simp] theorem State.setPace_poison (v : Pace) : (s.setPace v).poison = s.poison := rfl
@[simp] theorem State.setPace_badRegs (v : Pace) : (s.setPace v).badRegs = s.badRegs := rfl
@[simp] theorem State.setPace_copies (v : Pace) : (s.setPace v).copies = s.copies := rfl
@[simp] theorem State.setPace_doomed (v : Pace) : (s.setPace v).doomed = s.doomed := rfl
@[simp] theorem State.setPace_pend (v : Pace) : (s.setPace v).pend = s.pend := rfl
@[simp] theorem State.setPace_stores (v : Pace) : (s.setPace v).stores = s.stores := rfl
@[simp] theorem State.setPace_walks (v : Pace) : (s.setPace v).walks = s.walks := rfl
@[simp] theorem State.setPace_xfers (v : Pace) : (s.setPace v).xfers = s.xfers := rfl
@[simp] theorem State.setPace_delivs (v : Pace) : (s.setPace v).delivs = s.delivs := rfl
@[simp] theorem State.setPace_chases (v : Pace) : (s.setPace v).chases = s.chases := rfl
@[simp] theorem State.setPace_joins (v : Pace) : (s.setPace v).joins = s.joins := rfl
@[simp] theorem State.setPace_flying (v : Pace) : (s.setPace v).flying = s.flying := rfl
@[simp] theorem State.setPace_kills (v : Pace) : (s.setPace v).kills = s.kills := rfl
@[simp] theorem State.setPace_fresh (v : Pace) : (s.setPace v).fresh = s.fresh := rfl
@[simp] theorem State.setPace_cur (v : Pace) : (s.setPace v).cur = s.cur := rfl
@[simp] theorem State.setPace_agenda (v : Pace) : (s.setPace v).agenda = s.agenda := rfl
@[simp] theorem State.setPace_queue (v : Pace) : (s.setPace v).queue = s.queue := rfl
@[simp] theorem State.setPace_filled (v : Pace) : (s.setPace v).filled = s.filled := rfl
@[simp] theorem State.setPace_foreseen (v : Pace) : (s.setPace v).foreseen = s.foreseen := rfl
@[simp] theorem State.setPace_pace (v : Pace) : (s.setPace v).pace = v := rfl

end Sys2Proof.Machine
end

