-- ==== Sys2Proof/Laws/Tab.lean ====
section
/-!
SUPPORT. Laws of sparse tables: what a read finds after a write, a deletion or a clearing, and that each keeps rising order.
-/
namespace Sys2Proof.Machine

variable {α : Type}

@[simp] theorem tget_tset_self (d : α) (t : Tab α) (i : Nat) (v : α) : tget d (tset t i v) i = v := by
  induction t with
  | nil => simp [tset, tget]
  | cons x r ih =>
    obtain ⟨j, w⟩ := x
    simp only [tset]
    split
    · simp [tget]
    · split
      · simp [tget]
      · rename_i h1 h2
        simp only [tget]
        rw [if_neg (fun h => h2 h.symm)]
        exact ih

theorem tget_tset_ne (d : α) (t : Tab α) {i k : Nat} (v : α) (h : k ≠ i) : tget d (tset t i v) k = tget d t k := by
  induction t with
  | nil => simp [tset, tget, Ne.symm h]
  | cons x r ih =>
    obtain ⟨j, w⟩ := x
    simp only [tset]
    split
    · simp [tget, Ne.symm h]
    · split
      · rename_i h1 h2
        subst h2
        simp [tget, Ne.symm h]
      · simp only [tget, ih]

theorem tget_tset (d : α) (t : Tab α) (i k : Nat) (v : α) : tget d (tset t i v) k = if k = i then v else tget d t k := by
  split
  · rename_i h; subst h; exact tget_tset_self d t k v
  · rename_i h; exact tget_tset_ne d t v h

@[simp] theorem tget_tdel_self (d : α) (t : Tab α) (i : Nat) : tget d (tdel t i) i = d := by
  induction t with
  | nil => rfl
  | cons x r ih =>
    obtain ⟨j, w⟩ := x
    simp only [tdel]
    split
    · exact ih
    · rename_i h
      simp only [tget, if_neg h, ih]

theorem tget_tdel_ne (d : α) (t : Tab α) {i k : Nat} (h : k ≠ i) : tget d (tdel t i) k = tget d t k := by
  induction t with
  | nil => rfl
  | cons x r ih =>
    obtain ⟨j, w⟩ := x
    simp only [tdel]
    split
    · rename_i h1
      subst h1
      simp only [tget, if_neg (Ne.symm h), ih]
    · simp only [tget, ih]

theorem tget_tclear (d : α) (lo hi : Nat) (t : Tab α) (k : Nat) :
    tget d (tclear lo hi t) k = if lo ≤ k ∧ k < hi then d else tget d t k := by
  induction t with
  | nil => simp [tclear, tget]
  | cons x r ih =>
    obtain ⟨j, w⟩ := x
    simp only [tclear]
    split
    · rename_i h1
      rw [ih]
      split
      · rfl
      · rename_i h2
        simp only [tget]
        rw [if_neg]
        intro h3
        subst h3
        exact h2 h1
    · rename_i h1
      simp only [tget, ih]
      by_cases h3 : j = k
      · subst h3
        simp only [if_neg h1]
      · simp only [if_neg h3]

@[simp] theorem tfind_tset_self (t : Tab α) (i : Nat) (v : α) : tfind (tset t i v) i = some v := by
  induction t with
  | nil => simp [tset, tfind]
  | cons x r ih =>
    obtain ⟨j, w⟩ := x
    simp only [tset]
    split
    · simp [tfind]
    · split
      · simp [tfind]
      · rename_i h1 h2
        simp only [tfind]
        rw [if_neg (fun h => h2 h.symm)]
        exact ih

theorem tfind_tset_ne (t : Tab α) {i k : Nat} (v : α) (h : k ≠ i) : tfind (tset t i v) k = tfind t k := by
  induction t with
  | nil => simp [tset, tfind, Ne.symm h]
  | cons x r ih =>
    obtain ⟨j, w⟩ := x
    simp only [tset]
    split
    · simp [tfind, Ne.symm h]
    · split
      · rename_i h1 h2
        subst h2
        simp [tfind, Ne.symm h]
      · simp only [tfind, ih]

@[simp] theorem tfind_tdel_self (t : Tab α) (i : Nat) : tfind (tdel t i) i = none := by
  induction t with
  | nil => rfl
  | cons x r ih =>
    obtain ⟨j, w⟩ := x
    simp only [tdel]
    split
    · exact ih
    · rename_i h
      simp only [tfind, if_neg h, ih]

theorem tfind_tdel_ne (t : Tab α) {i k : Nat} (h : k ≠ i) : tfind (tdel t i) k = tfind t k := by
  induction t with
  | nil => rfl
  | cons x r ih =>
    obtain ⟨j, w⟩ := x
    simp only [tdel]
    split
    · rename_i h1
      subst h1
      simp only [tfind, if_neg (Ne.symm h), ih]
    · simp only [tfind, ih]

/-- What a table lists is what it reads as. -/
theorem tget_of_tfind {d : α} {t : Tab α} {i : Nat} {v : α} (h : tfind t i = some v) : tget d t i = v := by
  induction t with
  | nil => simp [tfind] at h
  | cons x r ih =>
    obtain ⟨j, w⟩ := x
    simp only [tfind, tget] at h ⊢
    split
    · rename_i e; rw [if_pos e] at h; simpa using h
    · rename_i e; rw [if_neg e] at h; exact ih h
theorem tget_of_none {d : α} {t : Tab α} {i : Nat} (h : tfind t i = none) : tget d t i = d := by
  induction t with
  | nil => rfl
  | cons x r ih =>
    obtain ⟨j, w⟩ := x
    simp only [tfind, tget] at h ⊢
    split
    · rename_i e; rw [if_pos e] at h; exact absurd h (by simp)
    · rename_i e; rw [if_neg e] at h; exact ih h

theorem mem_of_tfind {t : Tab α} {i : Nat} {v : α} (h : tfind t i = some v) : (i, v) ∈ t := by
  induction t with
  | nil => simp [tfind] at h
  | cons x r ih =>
    obtain ⟨j, w⟩ := x
    simp only [tfind] at h
    split at h
    · rename_i e
      simp only [Option.some.injEq] at h
      rw [e, h]
      exact List.mem_cons_self
    · exact List.mem_cons_of_mem _ (ih h)

theorem mem_tset {t : Tab α} {i : Nat} {v : α} {x : Nat × α} (h : x ∈ tset t i v) : x = (i, v) ∨ x ∈ t := by
  induction t with
  | nil => simp [tset] at h; exact Or.inl h
  | cons y r ih =>
    obtain ⟨j, w⟩ := y
    simp only [tset] at h
    split at h
    · simp only [List.mem_cons] at h ⊢
      exact h
    · split at h
      · simp only [List.mem_cons] at h ⊢
        rcases h with h | h
        · exact Or.inl h
        · exact Or.inr (Or.inr h)
      · simp only [List.mem_cons] at h ⊢
        rcases h with h | h
        · exact Or.inr (Or.inl h)
        · rcases ih h with h | h
          · exact Or.inl h
          · exact Or.inr (Or.inr h)

theorem mem_tset_self (t : Tab α) (i : Nat) (v : α) : (i, v) ∈ tset t i v := by
  induction t with
  | nil => simp [tset]
  | cons y r ih =>
    obtain ⟨j, w⟩ := y
    simp only [tset]
    split
    · simp
    · split
      · simp
      · simp [ih]

theorem mem_tdel {t : Tab α} {i : Nat} {x : Nat × α} (h : x ∈ tdel t i) : x ∈ t := by
  induction t with
  | nil => exact h
  | cons y r ih =>
    obtain ⟨j, w⟩ := y
    simp only [tdel] at h
    split at h
    · exact List.mem_cons_of_mem _ (ih h)
    · simp only [List.mem_cons] at h ⊢
      exact h.imp id ih

theorem mem_tclear {lo hi : Nat} {t : Tab α} {x : Nat × α} (h : x ∈ tclear lo hi t) : x ∈ t := by
  induction t with
  | nil => exact h
  | cons y r ih =>
    obtain ⟨j, w⟩ := y
    simp only [tclear] at h
    split at h
    · exact List.mem_cons_of_mem _ (ih h)
    · simp only [List.mem_cons] at h ⊢
      exact h.imp id ih

/-- Rising order, said of the head and the rest. -/
theorem tsorted_cons (x : Nat × α) (r : Tab α) :
    tsorted (x :: r) = true ↔ (∀ y ∈ r, x.1 < y.1) ∧ tsorted r = true := by
  induction r generalizing x with
  | nil => simp [tsorted]
  | cons y r ih =>
    obtain ⟨i, v⟩ := x
    obtain ⟨j, w⟩ := y
    simp only [tsorted, Bool.and_eq_true, decide_eq_true_eq]
    constructor
    · rintro ⟨h1, h2⟩
      refine ⟨?_, h2⟩
      intro z hz
      rcases List.mem_cons.1 hz with h | h
      · subst h; exact h1
      · exact Nat.lt_trans h1 (((ih (j, w)).1 h2).1 z h)
    · rintro ⟨h1, h2⟩
      exact ⟨h1 (j, w) List.mem_cons_self, h2⟩

theorem tsorted_tset {t : Tab α} (h : tsorted t = true) (i : Nat) (v : α) : tsorted (tset t i v) = true := by
  induction t with
  | nil => rfl
  | cons y r ih =>
    obtain ⟨j, w⟩ := y
    obtain ⟨h1, h2⟩ := (tsorted_cons (j, w) r).1 h
    simp only [tset]
    split
    · rename_i hlt
      refine (tsorted_cons _ _).2 ⟨?_, h⟩
      intro z hz
      rcases List.mem_cons.1 hz with hz | hz
      · subst hz; exact hlt
      · exact Nat.lt_trans hlt (h1 z hz)
    · split
      · rename_i heq
        subst heq
        exact (tsorted_cons _ _).2 ⟨h1, h2⟩
      · rename_i hn1 hn2
        refine (tsorted_cons _ _).2 ⟨?_, ih h2⟩
        intro z hz
        rcases mem_tset hz with hz | hz
        · subst hz; simp only; omega
        · exact h1 z hz

theorem tsorted_tdel {t : Tab α} (h : tsorted t = true) (i : Nat) : tsorted (tdel t i) = true := by
  induction t with
  | nil => rfl
  | cons y r ih =>
    obtain ⟨j, w⟩ := y
    obtain ⟨h1, h2⟩ := (tsorted_cons (j, w) r).1 h
    simp only [tdel]
    split
    · exact ih h2
    · exact (tsorted_cons _ _).2 ⟨fun z hz => h1 z (mem_tdel hz), ih h2⟩

theorem tsorted_tclear {t : Tab α} (h : tsorted t = true) (lo hi : Nat) : tsorted (tclear lo hi t) = true := by
  induction t with
  | nil => rfl
  | cons y r ih =>
    obtain ⟨j, w⟩ := y
    obtain ⟨h1, h2⟩ := (tsorted_cons (j, w) r).1 h
    simp only [tclear]
    split
    · exact ih h2
    · exact (tsorted_cons _ _).2 ⟨fun z hz => h1 z (mem_tclear hz), ih h2⟩

end Sys2Proof.Machine
end

