-- ==== Sys2Proof/Laws/Issue.lean ====
section
/-!
SUPPORT. Laws of issue: when the check stages of R450 all pass, what paying for a bundle and issuing its lanes leave alone,
and the next state of a lone word that passes.
-/
namespace Sys2Proof.Machine

open Sys2Proof

/-! ### Lookups -/

@[simp] theorem str_putStr_self (s : State) (p : Nat) (x : Strand) : (putStr s p x).str p = x := tget_tset_self _ _ _ _
theorem str_putStr (s : State) (p q : Nat) (x : Strand) : (putStr s p x).str q = if q = p then x else s.str q := tget_tset _ _ _ _ _
theorem gang_putGang (s : State) (l m : Nat) (x : Gang) : (putGang s l x).gang m = if m = l then x else s.gang m := tget_tset _ _ _ _ _
theorem cell_putCell (s : State) (c d : Nat) (x : CellSt) : (putCell s c x).cell d = if d = c then x else s.cell d := tget_tset _ _ _ _ _
theorem block_putBlock (s : State) (b d : Nat) (x : Block) : (putBlock s b x).block d = if d = b then x else s.block d := tget_tset _ _ _ _ _
theorem die_putDie (s : State) (d e : Nat) (x : DieSt) : (putDie s d x).die e = if e = d then x else s.die e := tget_tset _ _ _ _ _
theorem str_modStr (s : State) (p q : Nat) (f : Strand → Strand) : (modStr s p f).str q = if q = p then f (s.str p) else s.str q :=
  str_putStr _ _ _ _

/-- A list of strands changed one after the other by a function that is its own repetition. -/
theorem str_modStrs {f : Strand → Strand} (hf : ∀ t, f (f t) = f t) (ls : List Nat) (s : State) (q : Nat) :
    (modStrs s ls f).str q = if q ∈ ls then f (s.str q) else s.str q := by
  induction ls generalizing s with
  | nil => simp [modStrs]
  | cons p r ih =>
    have h := ih (modStr s p f)
    simp only [modStrs, List.foldl_cons] at h ⊢
    rw [h, str_modStr]
    by_cases h1 : q = p
    · subst h1; simp [hf]
    · by_cases h2 : q ∈ r <;> simp [h1, h2]

/-- Changing strands changes nothing else. -/
theorem modStrs_eq (f : Strand → Strand) (ls : List Nat) (s : State) : ∃ v, modStrs s ls f = s.setStrands v := by
  induction ls generalizing s with
  | nil => exact ⟨s.strands, rfl⟩
  | cons p r ih =>
    obtain ⟨v, h⟩ := ih (modStr s p f)
    exact ⟨v, h⟩

/-! ### The stages -/

theorem stageAll_one (f : Issued → Stage) (x : Issued) : stageAll f [x] = f x := by
  simp only [stageAll, List.foldl_cons, List.foldl_nil, joinStage]

theorem filter_eq_nil {α : Type} {f : α → Bool} {l : List α} (h : ∀ a ∈ l, f a = false) : l.filter f = [] :=
  List.filter_eq_nil_iff.2 fun a ha => by simp [h a ha]

theorem stageRegs_ok {s : State} {x : Issued} (h : RegsLanded s x.gd x.form.instr) : stageRegs s x = .ok := by
  obtain ⟨h1, h2, _⟩ := h
  have e1 : ((s.cur.lanes.map fun p => (p, [RegId.p p x.gd.p.val].filter (pendingFor s p))).filter (fun q => !q.2.isEmpty)) = [] := by
    apply filter_eq_nil
    intro a ha
    obtain ⟨p, hp, rfl⟩ := List.mem_map.1 ha
    simp [h1 p hp]
  have e2 : (((actingLanes s x.gd).map fun p => (p, laneWaits s x p)).filter (fun q => !q.2.isEmpty)) = [] := by
    apply filter_eq_nil
    intro a ha
    obtain ⟨p, hp, rfl⟩ := List.mem_map.1 ha
    have : laneWaits s x p = [] := by
      apply filter_eq_nil
      intro r hr
      obtain ⟨o, ho, rfl⟩ := List.mem_map.1 hr
      exact h2 p hp o ho
    simp [this]
  simp [stageRegs, e1, e2]

/-- A form that performs no memory event meets no fence (R337). -/
theorem stageFence_plain {s : State} {x : Issued} (h1 : memEvents x.form.instr = (false, false))
    (h2 : waitsForAll x.form.instr = false) : stageFence s x = .ok := by
  have e : (((actingLanes s x.gd).map fun p =>
      (p, ([] : List Nat))).filter (fun q => !q.2.isEmpty)) = [] := by
    apply filter_eq_nil
    intro a ha
    obtain ⟨p, _, rfl⟩ := List.mem_map.1 ha
    rfl
  simp [stageFence, h1, h2, stillFlying]

theorem stillFlying_append (s : State) (a b : List Nat) : stillFlying s (a ++ b) = stillFlying s a ++ stillFlying s b :=
  List.filter_append ..

theorem stageFence_met {s : State} {x : Issued} (h : OrderMet s x.gd (waitsForAll x.form.instr)) : stageFence s x = .ok := by
  have e : ∀ p ∈ actingLanes s x.gd,
      (stillFlying s ((if (memEvents x.form.instr).1 || (memEvents x.form.instr).2 then (s.str p).fenceAny else []) ++
        (if (memEvents x.form.instr).2 then (s.str p).fenceWr else [])) ++
        (if waitsForAll x.form.instr then unperformed s p else [])) = [] := by
    intro p hp
    obtain ⟨a, b, c⟩ := h p hp
    rw [stillFlying_append]
    have k1 : stillFlying s (if (memEvents x.form.instr).1 || (memEvents x.form.instr).2 then (s.str p).fenceAny else []) = [] := by
      split
      · exact a
      · rfl
    have k2 : stillFlying s (if (memEvents x.form.instr).2 then (s.str p).fenceWr else []) = [] := by
      split
      · exact b
      · rfl
    have k3 : (if waitsForAll x.form.instr then unperformed s p else []) = [] := by
      split
      · rename_i hw; exact c hw
      · rfl
    rw [k1, k2, k3]; rfl
  unfold stageFence
  simp only
  rw [filter_eq_nil]
  · rfl
  · intro a ha
    obtain ⟨p, hp, rfl⟩ := List.mem_map.1 ha
    simp only [e p hp, List.isEmpty_nil, Bool.not_true]

theorem bundlePrice_one (s : State) (x : Issued) :
    bundlePrice s [x] = Nat.min 64 (x.form.price s (actingLanes s x.gd)) := by
  simp [bundlePrice]

theorem stagePrice_ok {s : State} {x : Issued}
    (h : Payable s (Nat.min 64 (x.form.price s (actingLanes s x.gd))) x.form.quotaFree) : stagePrice s [x] = .ok := by
  unfold stagePrice
  simp only [bundlePrice_one]
  rcases h with h | h | ⟨h0, h1, h2, h3⟩
  · rw [if_pos (Or.inl h)]
  · rw [if_pos (Or.inr h)]
  · split
    · rfl
    · have hq : ([x].any fun y => y.form.quotaFree) = x.form.quotaFree := by simp
      rw [hq, h0, h1, h3]
      simp [h2]

theorem stageEngine_none {s : State} {x : Issued} (h : x.form.engine = false) : stageEngine s [x] = .ok := by
  have hf : ([x].filter (fun x => x.form.engine && !(actingLanes s x.gd).isEmpty)) = [] := by
    apply filter_eq_nil
    intro a ha
    rw [List.mem_singleton] at ha
    subst ha
    simp [h]
  simp [stageEngine, hf]

/-- Everything the check stages of R450 ask of a lone word. -/
structure Clear (s : State) (x : Issued) : Prop where
  excluded : (s.cur.sup && x.form.excluded) = false
  issuer : x.form.issuer s = true
  alley : ∀ p ∈ actingLanes s x.gd, x.form.alley s p = true
  priv : x.form.priv = 0 ∨ s.cur.sup = true
  regs : RegsLanded s x.gd x.form.instr
  reads : ∀ p ∈ actingLanes s x.gd, ∀ r ∈ x.form.reads s p, broken s r = false
  links : x.form.regs s (actingLanes s x.gd) = .ok
  fence : stageFence s x = .ok
  operand : x.form.operand s (actingLanes s x.gd) = .ok
  engine : stageEngine s [x] = .ok
  access : x.form.access s (actingLanes s x.gd) = .ok
  values : x.form.values s (actingLanes s x.gd) = .ok
  room : x.form.room s (actingLanes s x.gd) = .ok
  holds : x.form.holds s (actingLanes s x.gd) = .ok
  price : Payable s (Nat.min 64 (x.form.price s (actingLanes s x.gd))) x.form.quotaFree

theorem judge_clear {s : State} {x : Issued} (h : Clear s x) : judge s [x] = .ok := by
  have h1 : stage1 s x = .ok := by
    have : (actingLanes s x.gd).filter (fun p => !x.form.alley s p) = [] :=
      filter_eq_nil fun p hp => by simp [h.alley p hp]
    simp [stage1, h.issuer, this]
  have h2 : stage2 s x = .ok := by
    unfold stage2
    rw [if_neg]
    rintro ⟨a, b⟩
    rcases h.priv with c | c
    · exact a c
    · simp [c] at b
  simp only [judge, firstOf, stageAll_one, h1, h2, stageRegs_ok h.regs, h.links, h.fence, h.operand, h.engine, h.access, h.values,
    h.room, h.holds, stagePrice_ok h.price, markSlot]

/-- A word that reads no uncorrectable register ends no context (R470). -/
theorem brokenRead_none {s : State} {x : Issued} (h : Clear s x) : brokenRead s [x] = none := by
  unfold brokenRead
  simp only [List.findSome?_cons, List.findSome?_nil]
  have : (actingLanes s x.gd).findSome? (fun p =>
      (((srcs x.form.instr).map (regId s.cur.leader p) ++ x.form.reads s p).find? (broken s)).map (fun r => (p, r))) = none := by
    rw [List.findSome?_eq_none_iff]
    intro p hp
    rw [Option.map_eq_none_iff, List.find?_eq_none]
    intro r hr
    rcases List.mem_append.1 hr with hr | hr
    · obtain ⟨o, ho, rfl⟩ := List.mem_map.1 hr
      simp [h.regs.2.2 p hp o ho]
    · simp [h.reads p hp r hr]
  rw [this]

/-- Mending changes the list of uncorrectable registers alone, and adds none. -/
theorem mendWord_eq (s : State) (ls : List Nat) (i : Instr) (t : State) :
    ∃ b, mendWord s ls i t = t.setBadRegs b ∧ ∀ r ∈ b, r ∈ t.badRegs :=
  ⟨_, rfl, fun _ hr => (List.mem_filter.1 hr).1⟩

/-- A lone word that every check stage passes issues: it pays, its lanes go on, and it acts. -/
theorem run_clear {gd : Guard} {f : Form} {s : State} (h : Clear s { form := f, gd := gd }) :
    run gd f s = .next (mendWord s (actingLanes s gd) f.instr
      (f.act s (advance (payBundle s [{ form := f, gd := gd }])) (actingLanes s gd))) := by
  have he : ([{ form := f, gd := gd }] : List Issued).any (·.form.excluded) = f.excluded := by simp
  have h0 := h.excluded
  simp only [run, runBundle, he]
  rw [if_neg (by simpa using h0), judge_clear h, brokenRead_none h]
  rfl

/-! ### Paying -/

theorem foldl_putCell_eq (g : State → Nat → CellSt) (ls : List Nat) (s : State) :
    ∃ v, ls.foldl (fun t c => putCell t c (g t c)) s = s.setCells v := by
  induction ls generalizing s with
  | nil => exact ⟨s.cells, rfl⟩
  | cons p r ih =>
    obtain ⟨v, h⟩ := ih (putCell s p (g s p))
    exact ⟨v, h⟩

/-- Putting cells that differ in nothing but payments. -/
theorem unpaid_foldl (g : State → Nat → CellSt) (hg : ∀ t c, unpaidCell (g t c) = unpaidCell (t.cell c)) (ls : List Nat) (s : State)
    (c : Nat) : unpaidCell ((ls.foldl (fun t c => putCell t c (g t c)) s).cell c) = unpaidCell (s.cell c) := by
  induction ls generalizing s with
  | nil => rfl
  | cons p r ih =>
    simp only [List.foldl_cons]
    rw [ih, cell_putCell]
    split
    · rename_i h; subst h; exact hg s c
    · rfl

/-- Starting a pre-emption changes one block alone. -/
theorem preempt_eq (s : State) (b : Nat) (a : BlockPhase) :
    preempt s b a = s ∨ ∃ x, preempt s b a = putBlock s b x ∧ unissuedBlock x = unissuedBlock (s.block b) := by
  unfold preempt
  simp only
  split
  · split
    · exact Or.inr ⟨_, rfl, rfl⟩
    · exact Or.inr ⟨_, rfl, rfl⟩
  · exact Or.inr ⟨_, rfl, rfl⟩
  · exact Or.inr ⟨_, rfl, rfl⟩
  · exact Or.inl rfl

/-- A pre-emption by the energy quota changes cells and blocks, and of a cell its requests alone. -/
theorem sitOut_eq (s : State) (c : Nat) :
    ∃ cs bs, sitOut s c = (s.setCells cs).setBlocks bs ∧
      ∀ d, unpaidCell ((sitOut s c).cell d) = unpaidCell (s.cell d) := by
  have hu : ∀ (x : CellSt) d, unpaidCell x = unpaidCell (s.cell c) →
      unpaidCell ((putCell s c x).cell d) = unpaidCell (s.cell d) := by
    intro x d hx
    rw [cell_putCell]
    split
    · rename_i h; rw [h]; exact hx
    · rfl
  unfold sitOut
  split
  · exact ⟨s.cells, s.blocks, rfl, fun d => rfl⟩
  · rename_i b _
    simp only
    generalize hx : ({ s.cell c with
      reqs := (s.cell c).reqs.filter (fun r => busyGang (s.gang (leaderOf s r.pos))), starveMade := false } : CellSt) = x
    have k : unpaidCell x = unpaidCell (s.cell c) := by rw [← hx]; rfl
    rcases preempt_eq (putCell s c x) b .sittingOut with h | ⟨y, h, _⟩
    · rw [h]; exact ⟨tset s.cells c x, s.blocks, rfl, fun d => hu x d k⟩
    · rw [h]; exact ⟨tset s.cells c x, tset s.blocks b y, rfl, fun d => hu x d k⟩

/-- Paying changes cells, blocks and dies alone, and of a cell its payments alone. -/
theorem payBundle_eq (s : State) (xs : List Issued) :
    ∃ cs bs ds, payBundle s xs = ((s.setCells cs).setBlocks bs).setDies ds ∧
      ∀ c, unpaidCell ((payBundle s xs).cell c) = unpaidCell (s.cell c) := by
  unfold payBundle
  simp only
  split
  · exact ⟨s.cells, s.blocks, s.dies, rfl, fun c => rfl⟩
  · unfold afterPay
    have hp : ∃ cs ds, payTokens s (curCell s) (bundlePrice s xs) = (s.setCells cs).setDies ds ∧
        ∀ c, unpaidCell ((payTokens s (curCell s) (bundlePrice s xs)).cell c) = unpaidCell (s.cell c) := by
      refine ⟨_, _, rfl, fun c => ?_⟩
      have : (payTokens s (curCell s) (bundlePrice s xs)).cell c =
        (putCell s (curCell s) { s.cell (curCell s) with
          pocket := (s.cell (curCell s)).pocket - bundlePrice s xs
          cool := (s.cell (curCell s)).cool ++ [(cycleStart s (curCell s) + (s.die (dieOf (curCell s))).retain + 1, bundlePrice s xs)]
          quota := (s.cell (curCell s)).quota.map (fun q => q - (bundlePrice s xs : Int)) }).cell c := rfl
      rw [this, cell_putCell]
      split
      · rename_i h; subst h; rfl
      · rfl
    obtain ⟨cs, ds, h1, h2⟩ := hp
    split
    · obtain ⟨cs', bs', h3, h4⟩ := sitOut_eq (payTokens s (curCell s) (bundlePrice s xs)) (curCell s)
      refine ⟨cs', bs', ds, ?_, fun c => (h4 c).trans (h2 c)⟩
      rw [h3, h1]; rfl
    · exact ⟨cs, s.blocks, ds, by rw [h1]; rfl, h2⟩

/-- A bundle without a price pays nothing. -/
theorem payBundle_free {s : State} {x : Issued} (h : x.form.price s (actingLanes s x.gd) = 0) : payBundle s [x] = s := by
  have : bundlePrice s [x] = 0 := by rw [bundlePrice_one, h]; rfl
  simp [payBundle, this]

/-! ### Issuing -/

theorem issueOne_twice (n : Word) (t : Strand) : issueOne n (issueOne n t) = issueOne n t := by
  unfold issueOne
  by_cases h : t.st = .supervisor <;> simp [h]

/-- Issuing changes strands and blocks alone. -/
theorem advance_eq (s : State) : ∃ v bs, advance s = (s.setStrands v).setBlocks bs := by
  unfold advance
  obtain ⟨v, h⟩ := modStrs_eq (issueOne s.cur.nba) s.cur.lanes s
  simp only
  split
  · rw [h]; exact ⟨v, _, rfl⟩
  · rw [h]; exact ⟨v, s.blocks, rfl⟩

theorem str_advance (s : State) (p : Nat) :
    (advance s).str p = if p ∈ s.cur.lanes then issueOne s.cur.nba (s.str p) else s.str p := by
  have h := str_modStrs (issueOne_twice s.cur.nba) s.cur.lanes s p
  unfold advance
  simp only
  split
  · exact h
  · exact h

/-- What paying and issuing leave: the lanes issue and nothing else changes but blocks, dies and payments. -/
theorem issued_eq (s : State) (xs : List Issued) :
    ∃ st cs bs ds, advance (payBundle s xs) = (((s.setStrands st).setCells cs).setBlocks bs).setDies ds ∧
      LanesIssue s (advance (payBundle s xs)) ∧
      ∀ c, unpaidCell ((advance (payBundle s xs)).cell c) = unpaidCell (s.cell c) := by
  obtain ⟨cs, bs, ds, h, hc⟩ := payBundle_eq s xs
  obtain ⟨v, bs', h'⟩ := advance_eq (payBundle s xs)
  refine ⟨v, cs, bs', ds, ?_, ?_, ?_⟩
  · rw [h', h]; rfl
  · intro p
    rw [str_advance, h]; rfl
  · intro c
    have : (advance (payBundle s xs)).cell c = (payBundle s xs).cell c := by rw [h']; rfl
    rw [this]; exact hc c

/-! ### What an issued bundle leaves of blocks -/

theorem unissued_putBlock (s : State) (b d : Nat) (x : Block) (h : unissuedBlock x = unissuedBlock (s.block b)) :
    unissuedBlock ((putBlock s b x).block d) = unissuedBlock (s.block d) := by
  rw [block_putBlock]
  split
  · rename_i e; rw [e]; exact h
  · rfl

theorem unissued_sitOut (s : State) (c : Nat) (d : Nat) : unissuedBlock ((sitOut s c).block d) = unissuedBlock (s.block d) := by
  unfold sitOut
  split
  · rfl
  · rename_i b _
    simp only
    rcases preempt_eq (putCell s c { s.cell c with
      reqs := (s.cell c).reqs.filter (fun r => busyGang (s.gang (leaderOf s r.pos))), starveMade := false }) b .sittingOut
      with h | ⟨x, h, hx⟩
    · rw [h]; rfl
    · rw [h, unissued_putBlock _ _ _ _ hx]; rfl

theorem payTokens_blocks (s : State) (c p : Nat) : (payTokens s c p).blocks = s.blocks := by
  simp [payTokens, putCell, putDie]
theorem block_congr {s t : State} (h : t.blocks = s.blocks) (b : Nat) : t.block b = s.block b := by unfold State.block; rw [h]

theorem unissued_pay (s : State) (xs : List Issued) (d : Nat) :
    unissuedBlock ((payBundle s xs).block d) = unissuedBlock (s.block d) := by
  have e := block_congr (payTokens_blocks s (curCell s) (bundlePrice s xs)) d
  unfold payBundle afterPay
  simp only
  split
  · rfl
  · split
    · rw [unissued_sitOut, e]
    · rw [e]

theorem set_back (s : State) (st cs bs ds) :
    ((((((((s.setStrands st).setCells cs).setBlocks bs).setDies ds).setStrands s.strands).setCells s.cells).setBlocks s.blocks).setDies
      s.dies) = s := by
  cases s; rfl

/-- Paying and issuing a bundle, in the terms of Sys2Proof/Safety.lean. -/
theorem issues_of (s : State) (xs : List Issued) (paid : Bool) (h : paid = false → payBundle s xs = s) :
    Issues paid s (advance (payBundle s xs)) := by
  obtain ⟨st, cs, bs, ds, e, hl, hc⟩ := issued_eq s xs
  refine ⟨by rw [e]; exact set_back s st cs bs ds, hl, hc, ?_, ?_⟩
  · intro b
    unfold advance
    simp only
    obtain ⟨v, h'⟩ := modStrs_eq (issueOne (payBundle s xs).cur.nba) (payBundle s xs).cur.lanes (payBundle s xs)
    split
    · rw [unissued_putBlock]
      · rw [h']; exact unissued_pay s xs b
      · rfl
    · rw [h']; exact unissued_pay s xs b
  · intro hp
    rw [h hp]
    obtain ⟨v, bs', h'⟩ := advance_eq s
    rw [h']; exact ⟨rfl, rfl⟩

/-- A word that passes every check answers its effect on the state with its lanes issued. -/
theorem run_issues {gd : Guard} {f : Form} {s : State} (h : Clear s { form := f, gd := gd }) (paid : Bool)
    (hp : paid = false → f.price s (actingLanes s gd) = 0) :
    ∃ u, Issues paid s u ∧ run gd f s = .next (mendWord s (actingLanes s gd) f.instr (f.act s u (actingLanes s gd))) :=
  ⟨_, issues_of s _ paid fun e => payBundle_free (hp e), run_clear h⟩

/-! ### The tables that an issued bundle leaves as they stand -/

theorem Issues.gs {b : Bool} {s u : State} (h : Issues b s u) : u.gs = s.gs := by
  have e := congrArg State.gs h.rest; exact e
theorem Issues.hs {b : Bool} {s u : State} (h : Issues b s u) : u.hs = s.hs := by
  have e := congrArg State.hs h.rest; exact e
theorem Issues.ws {b : Bool} {s u : State} (h : Issues b s u) : u.ws = s.ws := by
  have e := congrArg State.ws h.rest; exact e
theorem Issues.ps {b : Bool} {s u : State} (h : Issues b s u) : u.ps = s.ps := by
  have e := congrArg State.ps h.rest; exact e
theorem Issues.ks {b : Bool} {s u : State} (h : Issues b s u) : u.ks = s.ks := by
  have e := congrArg State.ks h.rest; exact e
theorem Issues.es {b : Bool} {s u : State} (h : Issues b s u) : u.es = s.es := by
  have e := congrArg State.es h.rest; exact e
theorem Issues.eflags {b : Bool} {s u : State} (h : Issues b s u) : u.eflags = s.eflags := by
  have e := congrArg State.eflags h.rest; exact e
theorem Issues.js {b : Bool} {s u : State} (h : Issues b s u) : u.js = s.js := by
  have e := congrArg State.js h.rest; exact e
theorem Issues.gangs {b : Bool} {s u : State} (h : Issues b s u) : u.gangs = s.gangs := by
  have e := congrArg State.gangs h.rest; exact e
theorem Issues.grids {b : Bool} {s u : State} (h : Issues b s u) : u.grids = s.grids := by
  have e := congrArg State.grids h.rest; exact e
theorem Issues.pkg {b : Bool} {s u : State} (h : Issues b s u) : u.pkg = s.pkg := by
  have e := congrArg State.pkg h.rest; exact e
theorem Issues.alley {b : Bool} {s u : State} (h : Issues b s u) : u.alley = s.alley := by
  have e := congrArg State.alley h.rest; exact e
theorem Issues.absent {b : Bool} {s u : State} (h : Issues b s u) : u.absent = s.absent := by
  have e := congrArg State.absent h.rest; exact e
theorem Issues.poison {b : Bool} {s u : State} (h : Issues b s u) : u.poison = s.poison := by
  have e := congrArg State.poison h.rest; exact e
theorem Issues.badRegs {b : Bool} {s u : State} (h : Issues b s u) : u.badRegs = s.badRegs := by
  have e := congrArg State.badRegs h.rest; exact e
theorem Issues.copies {b : Bool} {s u : State} (h : Issues b s u) : u.copies = s.copies := by
  have e := congrArg State.copies h.rest; exact e
theorem Issues.doomed {b : Bool} {s u : State} (h : Issues b s u) : u.doomed = s.doomed := by
  have e := congrArg State.doomed h.rest; exact e
theorem Issues.time {b : Bool} {s u : State} (h : Issues b s u) : u.time = s.time := by
  have e := congrArg State.time h.rest; exact e
theorem Issues.pace {b : Bool} {s u : State} (h : Issues b s u) : u.pace = s.pace := by
  have e := congrArg State.pace h.rest; exact e
theorem Issues.cur {b : Bool} {s u : State} (h : Issues b s u) : u.cur = s.cur := by
  have e := congrArg State.cur h.rest; exact e
theorem Issues.fresh {b : Bool} {s u : State} (h : Issues b s u) : u.fresh = s.fresh := by
  have e := congrArg State.fresh h.rest; exact e
theorem Issues.pend {b : Bool} {s u : State} (h : Issues b s u) : u.pend = s.pend := by
  have e := congrArg State.pend h.rest; exact e
theorem Issues.stores {b : Bool} {s u : State} (h : Issues b s u) : u.stores = s.stores := by
  have e := congrArg State.stores h.rest; exact e
theorem Issues.mem {b : Bool} {s u : State} (h : Issues b s u) : u.mem = s.mem := by
  have e := congrArg State.mem h.rest; exact e
theorem Issues.xfers {b : Bool} {s u : State} (h : Issues b s u) : u.xfers = s.xfers := by
  have e := congrArg State.xfers h.rest; exact e
theorem Issues.chases {b : Bool} {s u : State} (h : Issues b s u) : u.chases = s.chases := by
  have e := congrArg State.chases h.rest; exact e
theorem Issues.agenda {b : Bool} {s u : State} (h : Issues b s u) : u.agenda = s.agenda := by
  have e := congrArg State.agenda h.rest; exact e
theorem Issues.kills {b : Bool} {s u : State} (h : Issues b s u) : u.kills = s.kills := by
  have e := congrArg State.kills h.rest; exact e
theorem Issues.walks {b : Bool} {s u : State} (h : Issues b s u) : u.walks = s.walks := by
  have e := congrArg State.walks h.rest; exact e
theorem Issues.clears {b : Bool} {s u : State} (h : Issues b s u) : u.clears = s.clears := by
  have e := congrArg State.clears h.rest; exact e
theorem Issues.joins {b : Bool} {s u : State} (h : Issues b s u) : u.joins = s.joins := by
  have e := congrArg State.joins h.rest; exact e

end Sys2Proof.Machine
end

