-- ==== Sys2Proof/Laws/Regs.lean ====
section
/-!
SUPPORT. Laws of registers: a read after a write, what a write of one register leaves, and the completion of the forms that
write one register in each acting lane.
-/
namespace Sys2Proof.Machine

open Sys2Proof

/-! ### One write -/

theorem rdG_wrG (s : State) {p q n m : Nat} (v : Word) (hn : n < 32) (hm : m < 32) :
    rdG (wrG s p n v) q m = if q = p ∧ m = n then (if n = 0 then 0#64 else v) else rdG s q m := by
  unfold rdG wrG
  by_cases h0 : m = 0
  · subst h0
    by_cases h1 : n = 0
    · subst h1; simp
    · have h2 : ¬(0 : Nat) = n := fun h => h1 h.symm
      simp [h2]
  · by_cases h1 : n = 0
    · subst h1; simp [h0]
    · simp only [if_neg h0, if_neg h1, State.setGs_gs, tget_tset]
      by_cases h2 : q = p ∧ m = n
      · obtain ⟨rfl, rfl⟩ := h2; simp
      · rw [if_neg h2, if_neg (by omega)]

theorem rdH_wrH (s : State) {p q n m : Nat} (v : Word) (hn : n < 32) (hm : m < 32) :
    rdH (wrH s p n v) q m = if q = p ∧ m = n then v else rdH s q m := by
  unfold rdH wrH
  simp only [State.setHs_hs, tget_tset]
  by_cases h2 : q = p ∧ m = n
  · obtain ⟨rfl, rfl⟩ := h2; simp
  · rw [if_neg h2, if_neg (by omega)]

theorem rdW_wrW (s : State) {p q n m : Nat} (v : Wide) (hn : n < 16) (hm : m < 16) :
    rdW (wrW s p n v) q m = if q = p ∧ m = n then v else rdW s q m := by
  unfold rdW wrW
  simp only [State.setWs_ws, tget_tset]
  by_cases h2 : q = p ∧ m = n
  · obtain ⟨rfl, rfl⟩ := h2; simp
  · rw [if_neg h2, if_neg (by omega)]

theorem rdP_wrP (s : State) {p q n m : Nat} (v : Bool) (hn : n < 8) (hm : m < 8) :
    rdP (wrP s p n v) q m = if q = p ∧ m = n then (if n = 0 then true else v) else rdP s q m := by
  unfold rdP wrP
  by_cases h0 : m = 0
  · subst h0
    by_cases h1 : n = 0
    · subst h1; simp
    · have h2 : ¬(0 : Nat) = n := fun h => h1 h.symm
      simp [h2]
  · by_cases h1 : n = 0
    · subst h1; simp [h0]
    · simp only [if_neg h0, if_neg h1, State.setPs_ps, tget_tset]
      by_cases h2 : q = p ∧ m = n
      · obtain ⟨rfl, rfl⟩ := h2; simp
      · rw [if_neg h2, if_neg (by omega)]

theorem rdK_wrK (s : State) {p q n m : Nat} (v : Word) (hn : n < 16) (hm : m < 16) :
    rdK (wrK s p n v) q m = if q = p ∧ m = n then v else rdK s q m := by
  unfold rdK wrK
  simp only [State.setKs_ks, tget_tset]
  by_cases h2 : q = p ∧ m = n
  · obtain ⟨rfl, rfl⟩ := h2; simp
  · rw [if_neg h2, if_neg (by omega)]

theorem rdE_putE (s : State) {p q n m : Nat} (v : X320) (f : BitVec 3) (hn : n < 2) (hm : m < 2) :
    rdE (putE s p n v f) q m = if q = p ∧ m = n then v else rdE s q m := by
  unfold rdE putE wrEf wrE
  simp only [State.setEflags_es, State.setEs_es, tget_tset]
  by_cases h2 : q = p ∧ m = n
  · obtain ⟨rfl, rfl⟩ := h2; simp
  · rw [if_neg h2, if_neg (by omega)]

theorem rdEf_putE (s : State) {p q n m : Nat} (v : X320) (f : BitVec 3) (hn : n < 2) (hm : m < 2) :
    rdEf (putE s p n v f) q m = if q = p ∧ m = n then f else rdEf s q m := by
  unfold rdEf putE wrEf wrE
  simp only [State.setEflags_eflags, State.setEs_eflags, tget_tset]
  by_cases h2 : q = p ∧ m = n
  · obtain ⟨rfl, rfl⟩ := h2; simp
  · rw [if_neg h2, if_neg (by omega)]

/-! ### Lanes one after the other -/

/-- What every act of a list of lanes keeps, the whole list keeps. -/
theorem foldl_keep {β : Type} (obs : State → β) (f : State → Nat → State) (ls : List Nat) (s : State)
    (h : ∀ u, ∀ q ∈ ls, obs (f u q) = obs u) : obs (ls.foldl f s) = obs s := by
  induction ls generalizing s with
  | nil => rfl
  | cons q r ih =>
    simp only [List.foldl_cons]
    rw [ih (f s q) (fun u x hx => h u x (List.mem_cons_of_mem _ hx)), h s q List.mem_cons_self]

/-- What lane p alone determines stands at the end as lane p leaves it. -/
theorem foldl_value {β : Type} (obs : State → β) (v : β) (f : State → Nat → State) (ls : List Nat) (s : State) (p : Nat)
    (hp : p ∈ ls) (h1 : ∀ u, obs (f u p) = v) (h2 : ∀ u, ∀ q ∈ ls, q ≠ p → obs (f u q) = obs u) :
    obs (ls.foldl f s) = v := by
  induction ls generalizing s with
  | nil => simp at hp
  | cons q r ih =>
    simp only [List.foldl_cons]
    by_cases hr : p ∈ r
    · exact ih (f s q) hr (fun u x hx => h2 u x (List.mem_cons_of_mem _ hx))
    · have hq : p = q := by
        rcases List.mem_cons.1 hp with h | h
        · exact h
        · exact absurd h hr
      subst hq
      rw [foldl_keep obs f r (f s p) fun u x hx => h2 u x (List.mem_cons_of_mem _ hx) fun hxp => hr (hxp ▸ hx)]
      exact h1 s

/-! ### One G register -/

theorem wrReg_eq (s : State) (p : Nat) (d : GReg) (v : Word) : ∃ a b, wrReg s p d v = (s.setGs a).setHs b := by
  unfold wrReg wrG wrH
  cases d.bank
  · simp only
    split
    · exact ⟨s.gs, s.hs, rfl⟩
    · exact ⟨tset s.gs (32 * p + d.num.val) v, s.hs, rfl⟩
  · exact ⟨s.gs, tset s.hs (32 * gpipe p + d.num.val) v, rfl⟩

theorem foldl_wrReg_eq (d : GReg) (v : Nat → Word) (ls : List Nat) (s : State) :
    ∃ a b, ls.foldl (fun t p => wrReg t p d (v p)) s = (s.setGs a).setHs b := by
  induction ls generalizing s with
  | nil => exact ⟨s.gs, s.hs, rfl⟩
  | cons p r ih =>
    obtain ⟨a, b, h⟩ := wrReg_eq s p d (v p)
    obtain ⟨a', b', h'⟩ := ih (wrReg s p d (v p))
    refine ⟨a', b', ?_⟩
    simp only [List.foldl_cons]
    rw [h', h]; rfl

theorem gId_g {p q n : Nat} {d : GReg} (h : gId p d ≠ .g q n) (hb : d.bank = .g) : ¬(q = p ∧ n = d.num.val) := by
  rintro ⟨rfl, rfl⟩
  exact h (by simp [gId, hb])
theorem gId_h {p q n : Nat} {d : GReg} (h : gId p d ≠ .h q n) (hb : d.bank = .h) : ¬(q = gpipe p ∧ n = d.num.val) := by
  rintro ⟨rfl, rfl⟩
  exact h (by simp [gId, hb])

theorem rdG_wrReg_ne (s : State) {p q n : Nat} {d : GReg} (v : Word) (hn : n < 32) (h : gId p d ≠ .g q n) :
    rdG (wrReg s p d v) q n = rdG s q n := by
  unfold wrReg
  cases hb : d.bank with
  | g => simp only [rdG_wrG s v d.num.isLt hn, if_neg (gId_g h hb)]
  | h => rfl
theorem rdH_wrReg_ne (s : State) {p q n : Nat} {d : GReg} (v : Word) (hn : n < 32) (h : gId p d ≠ .h q n) :
    rdH (wrReg s p d v) q n = rdH s q n := by
  unfold wrReg
  cases hb : d.bank with
  | g => simp only [wrG]; split <;> rfl
  | h => simp only [rdH_wrH s v d.num.isLt hn, if_neg (gId_h h hb)]

theorem rdReg_wrReg_self (s : State) (p : Nat) (d : GReg) (v : Word) : rdReg (wrReg s p d v) p d = heldG d v := by
  unfold rdReg wrReg heldG
  cases d.bank with
  | g => simp only [rdG_wrG s v d.num.isLt d.num.isLt]; simp
  | h => simp only [rdH_wrH s v d.num.isLt d.num.isLt]; simp

theorem rdReg_wrReg_ne (s : State) {p q : Nat} {d : GReg} (v : Word) (h : gId p d ≠ gId q d) :
    rdReg (wrReg s p d v) q d = rdReg s q d := by
  have hd := d.num.isLt
  unfold rdReg wrReg
  cases hb : d.bank with
  | g =>
    have : ¬(q = p) := by rintro rfl; exact h rfl
    simp only [rdG_wrG s v hd hd, this, false_and, if_false]
  | h =>
    have : ¬(gpipe q = gpipe p) := by intro e; exact h (by simp [gId, hb, e])
    simp only [rdH_wrH s v hd hd, this, false_and, if_false]

/-- What a form that writes register d of each of some lanes leaves, and what they hold. -/
theorem wrRegs_kept (s : State) (d : GReg) (v : Nat → Word) (ls : List Nat) :
    RegsKept s (ls.foldl (fun t p => wrReg t p d (v p)) s) (fun r => ∃ p ∈ ls, r = gId p d) := by
  obtain ⟨a, b, h⟩ := foldl_wrReg_eq d v ls s
  constructor
  · intro p n hn hx
    exact foldl_keep (fun t => rdG t p n) _ ls s fun u q hq => rdG_wrReg_ne u (v q) hn fun e => hx ⟨q, hq, e.symm⟩
  · intro p n hn hx
    exact foldl_keep (fun t => rdH t p n) _ ls s fun u q hq => rdH_wrReg_ne u (v q) hn fun e => hx ⟨q, hq, e.symm⟩
  · intro p n _ _; rw [h]; rfl
  · intro p n _ _; rw [h]; rfl
  · intro p n _ _; rw [h]; rfl
  · intro p n _ _; rw [h]; exact ⟨rfl, rfl⟩

theorem wrRegs_value (s : State) (d : GReg) (v : Nat → Word) (ls : List Nat) (p : Nat) (hp : p ∈ ls)
    (hs : ∀ q ∈ ls, gId q d = gId p d → q = p) :
    rdReg (ls.foldl (fun t p => wrReg t p d (v p)) s) p d = heldG d (v p) :=
  foldl_value (fun t => rdReg t p d) _ _ ls s p hp (fun u => rdReg_wrReg_self u p d (v p))
    fun u q hq hne => rdReg_wrReg_ne u (v q) fun e => hne (hs q hq e)

/-! ### Kept, composed -/

theorem RegsKept.refl (s : State) : RegsKept s s noReg :=
  ⟨fun _ _ _ _ => rfl, fun _ _ _ _ => rfl, fun _ _ _ _ => rfl, fun _ _ _ _ => rfl, fun _ _ _ _ => rfl, fun _ _ _ _ => ⟨rfl, rfl⟩⟩

/-- Registers are read from the register tables alone. -/
theorem RegsKept.congr {s s' t : State} {hit : RegId → Prop} (h : RegsKept s' t hit) (hg : s'.gs = s.gs) (hh : s'.hs = s.hs)
    (hw : s'.ws = s.ws) (hp : s'.ps = s.ps) (hk : s'.ks = s.ks) (he : s'.es = s.es) (hf : s'.eflags = s.eflags) :
    RegsKept s t hit := by
  constructor
  · intro p n a b; rw [h.g p n a b]; unfold rdG; rw [hg]
  · intro p n a b; rw [h.h p n a b]; unfold rdH; rw [hh]
  · intro p n a b; rw [h.w p n a b]; unfold rdW; rw [hw]
  · intro p n a b; rw [h.p p n a b]; unfold rdP; rw [hp]
  · intro p n a b; rw [h.k p n a b]; unfold rdK; rw [hk]
  · intro p n a b
    obtain ⟨x, y⟩ := h.e p n a b
    rw [x, y]; unfold rdE rdEf; rw [he, hf]; exact ⟨rfl, rfl⟩

/-- The same tables hold the same registers. -/
theorem RegsKept.of_tables {s t : State} {hit : RegId → Prop} (hg : t.gs = s.gs) (hh : t.hs = s.hs) (hw : t.ws = s.ws)
    (hp : t.ps = s.ps) (hk : t.ks = s.ks) (he : t.es = s.es) (hf : t.eflags = s.eflags) : RegsKept s t hit := by
  constructor
  · intro p n _ _; unfold rdG; rw [hg]
  · intro p n _ _; unfold rdH; rw [hh]
  · intro p n _ _; unfold rdW; rw [hw]
  · intro p n _ _; unfold rdP; rw [hp]
  · intro p n _ _; unfold rdK; rw [hk]
  · intro p n _ _; unfold rdE rdEf; rw [he, hf]; exact ⟨rfl, rfl⟩

/-- A word without checks of its own passes once its registers have landed and it can be paid for. -/
theorem clear_plain {s : State} {gd : Guard} {f : Form} (hex : f.excluded = false) (his : ∀ s, f.issuer s = true)
    (hal : ∀ s p, f.alley s p = true) (hpr : f.priv = 0) (hm : memEvents f.instr = (false, false))
    (hw : waitsForAll f.instr = false) (hop : ∀ s l, f.operand s l = .ok) (hac : ∀ s l, f.access s l = .ok)
    (hva : ∀ s l, f.values s l = .ok) (hro : ∀ s l, f.room s l = .ok) (hho : ∀ s l, f.holds s l = .ok)
    (hen : f.engine = false) (hli : ∀ s l, f.regs s l = .ok) (hre : ∀ s p, f.reads s p = []) (hr : RegsLanded s gd f.instr)
    (hp : Payable s (Nat.min 64 (f.price s (actingLanes s gd))) f.quotaFree) : Clear s { form := f, gd := gd } :=
  { excluded := by simp [hex], issuer := his s, alley := fun p _ => hal s p, priv := Or.inl hpr, regs := hr
    reads := fun p _ r h => absurd h (by simp [hre]), links := hli _ _
    fence := stageFence_plain hm hw, operand := hop _ _, engine := stageEngine_none hen, access := hac _ _
    values := hva _ _, room := hro _ _, holds := hho _ _, price := hp }

end Sys2Proof.Machine
end

