-- ==== Sys2Proof/Laws/Forms.lean ====
section
/-!
SUPPORT. Completion of the forms that write one register in each acting lane, now or later, from what their definitions say:
one law for each shape of Sys2Proof/Safety.lean.
-/
namespace Sys2Proof.Machine

open Sys2Proof

/-- A form with no check of its own but its price, which only its acting lanes decide. -/
structure Plain (f : Form) (i : Instr) : Prop where
  instr : f.instr = i
  excluded : f.excluded = false
  issuer : ∀ s, f.issuer s = true
  alley : ∀ s p, f.alley s p = true
  priv : f.priv = 0
  mem : memEvents i = (false, false)
  waits : waitsForAll i = false
  operand : ∀ s l, f.operand s l = .ok
  access : ∀ s l, f.access s l = .ok
  values : ∀ s l, f.values s l = .ok
  room : ∀ s l, f.room s l = .ok
  holds : ∀ s l, f.holds s l = .ok
  engine : f.engine = false
  links : ∀ s l, f.regs s l = .ok
  reads : ∀ s p, f.reads s p = []

/-- A form whose only parts beside its effect are its price and its instruction. -/
theorem Plain.of_eq {f : Form} {i : Instr} (h : f = { instr := i, act := f.act, price := f.price })
    (hm : memEvents i = (false, false)) (hw : waitsForAll i = false) : Plain f i := by
  rw [h]
  exact ⟨rfl, rfl, fun _ => rfl, fun _ _ => rfl, rfl, hm, hw, fun _ _ => rfl, fun _ _ => rfl, fun _ _ => rfl, fun _ _ => rfl,
    fun _ _ => rfl, rfl, fun _ _ => rfl, fun _ _ => rfl⟩

theorem Plain.clear {f : Form} {i : Instr} (h : Plain f i) {s : State} {gd : Guard} (hr : RegsLanded s gd i)
    (hp : Payable s (Nat.min 64 (f.price s (actingLanes s gd))) f.quotaFree) : Clear s { form := f, gd := gd } := by
  obtain ⟨rfl, h1, h2, h3, h4, h5, h6, h7, h8, h9, h10, h11, h12, h13, h14⟩ := h
  exact clear_plain h1 h2 h3 h4 h5 h6 h7 h8 h9 h10 h11 h12 h13 h14 hr hp

/-- The bundle in hand after payment and issue, as far as the frames of the obligations go. -/
theorem issued_rest (s : State) (xs : List Issued) : RestKept s (advance (payBundle s xs)) := by
  obtain ⟨st, cs, bs, ds, h, _, hc⟩ := issued_eq s xs
  exact {
    sets := fun l n => by rw [h]; rfl
    gangs := fun l => by rw [h]; rfl
    cells := hc
    grids := fun g => by rw [h]; rfl
    pkg := by rw [h]; rfl
    alley := by rw [h]; rfl
    absent := by rw [h]; rfl
    poison := by rw [h]; rfl
    bad := fun r hr => by rw [h] at hr; exact hr
    copies := by rw [h]; rfl
    doomed := by rw [h]; rfl }

/-- The same tables hold the same rest. -/
theorem RestKept.after {s u t : State} (h : RestKept s u) (h1 : t.js = u.js) (h2 : t.gangs = u.gangs) (h3 : t.cells = u.cells)
    (h4 : t.grids = u.grids) (h5 : t.pkg = u.pkg) (h6 : t.alley = u.alley) (h7 : t.absent = u.absent)
    (h8 : t.poison = u.poison) (h9 : ∀ r ∈ t.badRegs, r ∈ u.badRegs) (h10 : t.copies = u.copies) (h11 : t.doomed = u.doomed) :
    RestKept s t :=
  {
    sets := fun l n => by rw [← h.sets l n]; unfold rdJ; rw [h1]
    gangs := fun l => by rw [← h.gangs l]; unfold State.gang; rw [h2]
    cells := fun c => by rw [← h.cells c]; unfold State.cell; rw [h3]
    grids := fun g => by rw [← h.grids g]; unfold State.grid; rw [h4]
    pkg := by rw [h5, h.pkg]
    alley := by rw [h6, h.alley]
    absent := by rw [h7, h.absent]
    poison := by rw [h8, h.poison]
    bad := fun r hr => h.bad r (h9 r hr)
    copies := by rw [h10, h.copies]
    doomed := by rw [h11, h.doomed] }

/-- The same strands stand as the issue of the lanes left them. -/
theorem LanesIssue.after {s u t : State} (h : LanesIssue s u) (h1 : t.strands = u.strands) : LanesIssue s t := by
  intro p
  rw [← h p]
  unfold State.str
  rw [h1]

/-- Mending registers changes none of their values. -/
theorem RegsKept.mend {s t : State} {hit : RegId → Prop} (h : RegsKept s t hit) (r : State) (ls : List Nat) (i : Instr) :
    RegsKept s (mendWord r ls i t) hit := ⟨h.g, h.h, h.w, h.p, h.k, h.e⟩
theorem RestKept.mend {s t : State} (h : RestKept s t) (r : State) (ls : List Nat) (i : Instr) :
    RestKept s (mendWord r ls i t) :=
  ⟨h.sets, h.gangs, h.cells, h.grids, h.pkg, h.alley, h.absent, h.poison, fun x hx => h.bad x (List.mem_filter.1 hx).1, h.copies,
    h.doomed⟩

/-- The same memory. -/
theorem BytesKept.of_mem {s t : State} (h : t.mem = s.mem) : BytesKept s t := fun a => by unfold byteAt; rw [h]

theorem completesG_of {i : Instr} {gd : Guard} {d : GReg} {price : State → Nat} {v : State → Nat → Word} (f : Form)
    (he : ∀ s, exec i s = run gd f s) (hf : Plain f i)
    (ha : ∀ src t, f.act src t (actingLanes src gd) = (actingLanes src gd).foldl (fun u p => wrReg u p d (v src p)) t)
    (hp : ∀ s, f.price s (actingLanes s gd) = price s) (hq : f.quotaFree = false) : CompletesG i gd d price v := by
  intro s hr hpay
  have hc : Clear s { form := f, gd := gd } := hf.clear hr (by rw [hp, hq]; exact hpay)
  obtain ⟨st, cs, bs, ds, h, hl, _⟩ := issued_eq s [{ form := f, gd := gd }]
  obtain ⟨a, b, h'⟩ := foldl_wrReg_eq d (v s) (actingLanes s gd) (advance (payBundle s [{ form := f, gd := gd }]))
  have hrest := issued_rest s [{ form := f, gd := gd }]
  let X := (actingLanes s gd).foldl (fun u p => wrReg u p d (v s p))
      (advance (payBundle s [{ form := f, gd := gd }]))
  change X = _ at h'
  have hx : exec i s = .next (mendWord s (actingLanes s gd) f.instr X) := by rw [he, run_clear hc, ha]
  refine ⟨_, hx, ?_, RegsKept.mend ?_ _ _ _, (?_ : BytesKept s X), (?_ : LanesIssue s X), RestKept.mend ?_ _ _ _,
    (?_ : X.pend = s.pend)⟩
  · intro p hp' hs; exact wrRegs_value _ d (v s) _ p hp' hs
  · refine (wrRegs_kept _ d (v s) _).congr ?_ ?_ ?_ ?_ ?_ ?_ ?_ <;> rw [h] <;> simp
  · refine BytesKept.of_mem ?_
    rw [h', h]; simp
  · exact hl.after (by rw [h']; simp)
  · refine hrest.after ?_ ?_ ?_ ?_ ?_ ?_ ?_ ?_ ?_ ?_ ?_ <;> rw [h'] <;> simp
  · rw [h', h]; simp

/-! ### Predicates -/

theorem wrP_eq (s : State) (p n : Nat) (v : Bool) : ∃ a, wrP s p n v = s.setPs a := by
  unfold wrP
  split
  · exact ⟨s.ps, rfl⟩
  · exact ⟨_, rfl⟩

theorem foldl_wrP_eq (n : Nat) (v : Nat → Bool) (ls : List Nat) (s : State) :
    ∃ a, ls.foldl (fun t p => wrP t p n (v p)) s = s.setPs a := by
  induction ls generalizing s with
  | nil => exact ⟨s.ps, rfl⟩
  | cons p r ih =>
    obtain ⟨a, h⟩ := wrP_eq s p n (v p)
    obtain ⟨a', h'⟩ := ih (wrP s p n (v p))
    refine ⟨a', ?_⟩
    simp only [List.foldl_cons]
    rw [h', h]; rfl

theorem wrPs_kept (s : State) (n : Fin 8) (v : Nat → Bool) (ls : List Nat) :
    RegsKept s (ls.foldl (fun t p => wrP t p n.val (v p)) s) (fun r => ∃ p ∈ ls, r = .p p n.val) := by
  obtain ⟨a, h⟩ := foldl_wrP_eq n.val v ls s
  refine ⟨fun _ _ _ _ => by rw [h]; rfl, fun _ _ _ _ => by rw [h]; rfl, fun _ _ _ _ => by rw [h]; rfl, ?_,
    fun _ _ _ _ => by rw [h]; rfl, fun _ _ _ _ => by rw [h]; exact ⟨rfl, rfl⟩⟩
  intro p m hm hx
  exact foldl_keep (fun t => rdP t p m) _ ls s fun u q hq => by
    rw [rdP_wrP u (v q) n.isLt hm, if_neg]
    rintro ⟨rfl, rfl⟩
    exact hx ⟨p, hq, rfl⟩

theorem wrPs_value (s : State) (n : Fin 8) (v : Nat → Bool) (ls : List Nat) (p : Nat) (hp : p ∈ ls) :
    rdP (ls.foldl (fun t p => wrP t p n.val (v p)) s) p n.val = heldP n (v p) :=
  foldl_value (fun t => rdP t p n.val) _ _ ls s p hp
    (fun u => by rw [rdP_wrP u (v p) n.isLt n.isLt]; simp [heldP])
    fun u q _ hne => by rw [rdP_wrP u (v q) n.isLt n.isLt, if_neg (fun h => hne h.1.symm)]

theorem completesP_of {i : Instr} {gd : Guard} {n : Fin 8} {v : State → Nat → Bool} (f : Form)
    (he : ∀ s, exec i s = run gd f s) (hf : Plain f i)
    (ha : ∀ src t, f.act src t (actingLanes src gd) = (actingLanes src gd).foldl (fun u p => wrP u p n.val (v src p)) t)
    (hp : ∀ s l, f.price s l = 0) : CompletesP i gd n v := by
  intro s hr
  have hc : Clear s { form := f, gd := gd } := hf.clear hr (Or.inl (by rw [hp]; rfl))
  obtain ⟨st, cs, bs, ds, h, hl, _⟩ := issued_eq s [{ form := f, gd := gd }]
  obtain ⟨a, h'⟩ := foldl_wrP_eq n.val (v s) (actingLanes s gd) (advance (payBundle s [{ form := f, gd := gd }]))
  have hrest := issued_rest s [{ form := f, gd := gd }]
  let X := (actingLanes s gd).foldl (fun u p => wrP u p n.val (v s p))
      (advance (payBundle s [{ form := f, gd := gd }]))
  change X = _ at h'
  have hx : exec i s = .next (mendWord s (actingLanes s gd) f.instr X) := by rw [he, run_clear hc, ha]
  refine ⟨_, hx, ?_, RegsKept.mend ?_ _ _ _, (?_ : BytesKept s X), (?_ : LanesIssue s X), RestKept.mend ?_ _ _ _,
    (?_ : X.pend = s.pend)⟩
  · intro p hp'; exact wrPs_value _ n (v s) _ p hp'
  · refine (wrPs_kept _ n (v s) _).congr ?_ ?_ ?_ ?_ ?_ ?_ ?_ <;> rw [h] <;> simp
  · refine BytesKept.of_mem ?_
    rw [h', h]; simp
  · exact hl.after (by rw [h']; simp)
  · refine hrest.after ?_ ?_ ?_ ?_ ?_ ?_ ?_ ?_ ?_ ?_ ?_ <;> rw [h'] <;> simp
  · rw [h', h]; simp

/-! ### Wide registers -/

theorem foldl_wrW_eq (n : Nat) (v : Nat → Wide) (ls : List Nat) (s : State) :
    ∃ a, ls.foldl (fun t p => wrW t p n (v p)) s = s.setWs a := by
  induction ls generalizing s with
  | nil => exact ⟨s.ws, rfl⟩
  | cons p r ih =>
    obtain ⟨a', h'⟩ := ih (wrW s p n (v p))
    exact ⟨a', h'⟩

theorem wrWs_kept (s : State) (n : Fin 16) (v : Nat → Wide) (ls : List Nat) :
    RegsKept s (ls.foldl (fun t p => wrW t p n.val (v p)) s) (fun r => ∃ p ∈ ls, r = .w p n.val) := by
  obtain ⟨a, h⟩ := foldl_wrW_eq n.val v ls s
  refine ⟨fun _ _ _ _ => by rw [h]; rfl, fun _ _ _ _ => by rw [h]; rfl, ?_, fun _ _ _ _ => by rw [h]; rfl,
    fun _ _ _ _ => by rw [h]; rfl, fun _ _ _ _ => by rw [h]; exact ⟨rfl, rfl⟩⟩
  intro p m hm hx
  exact foldl_keep (fun t => rdW t p m) _ ls s fun u q hq => by
    rw [rdW_wrW u (v q) n.isLt hm, if_neg]
    rintro ⟨rfl, rfl⟩
    exact hx ⟨p, hq, rfl⟩

theorem wrWs_value (s : State) (n : Fin 16) (v : Nat → Wide) (ls : List Nat) (p : Nat) (hp : p ∈ ls) :
    rdW (ls.foldl (fun t p => wrW t p n.val (v p)) s) p n.val = v p :=
  foldl_value (fun t => rdW t p n.val) _ _ ls s p hp
    (fun u => by rw [rdW_wrW u (v p) n.isLt n.isLt]; simp)
    fun u q _ hne => by rw [rdW_wrW u (v q) n.isLt n.isLt, if_neg (fun h => hne h.1.symm)]

theorem completesW_of {i : Instr} {gd : Guard} {d : Fin 16} {v : State → Nat → Wide} (f : Form)
    (he : ∀ s, exec i s = run gd f s) (hf : Plain f i)
    (ha : ∀ src t, f.act src t (actingLanes src gd) = (actingLanes src gd).foldl (fun u p => wrW u p d.val (v src p)) t)
    (hp : ∀ s l, f.price s l = l.length) (hq : f.quotaFree = false) : CompletesW i gd d v := by
  intro s hr hpay
  have hc : Clear s { form := f, gd := gd } := hf.clear hr (by rw [hp, hq]; exact hpay)
  obtain ⟨st, cs, bs, ds, h, hl, _⟩ := issued_eq s [{ form := f, gd := gd }]
  obtain ⟨a, h'⟩ := foldl_wrW_eq d.val (v s) (actingLanes s gd) (advance (payBundle s [{ form := f, gd := gd }]))
  have hrest := issued_rest s [{ form := f, gd := gd }]
  let X := (actingLanes s gd).foldl (fun u p => wrW u p d.val (v s p))
      (advance (payBundle s [{ form := f, gd := gd }]))
  change X = _ at h'
  have hx : exec i s = .next (mendWord s (actingLanes s gd) f.instr X) := by rw [he, run_clear hc, ha]
  refine ⟨_, hx, ?_, RegsKept.mend ?_ _ _ _, (?_ : BytesKept s X), (?_ : LanesIssue s X), RestKept.mend ?_ _ _ _,
    (?_ : X.pend = s.pend)⟩
  · intro p hp'; exact wrWs_value _ d (v s) _ p hp'
  · refine (wrWs_kept _ d (v s) _).congr ?_ ?_ ?_ ?_ ?_ ?_ ?_ <;> rw [h] <;> simp
  · refine BytesKept.of_mem ?_
    rw [h', h]; simp
  · exact hl.after (by rw [h']; simp)
  · refine hrest.after ?_ ?_ ?_ ?_ ?_ ?_ ?_ ?_ ?_ ?_ ?_ <;> rw [h'] <;> simp
  · rw [h', h]; simp

/-! ### Results that land later -/

theorem landFixed_eq (s : State) (p : Nat) (r : RegId) (v : RegVal) :
    ∃ a n, landFixed s p r v = (s.setPend a).setFresh n ∧ s.fresh ≤ n ∧ (∀ id, id < s.fresh → tfind a id = tfind s.pend id) ∧
      (markable r = true → s.fresh < n ∧
        tfind a s.fresh = some { pos := p, regs := [r], vals := [v], due := s.time + s.pace.fixed }) := by
  unfold landFixed
  split
  · refine ⟨tset s.pend s.fresh { pos := p, regs := [r], vals := [v], due := s.time + s.pace.fixed }, s.fresh + 1, rfl,
      by omega, ?_, fun _ => ⟨by omega, tfind_tset_self _ _ _⟩⟩
    intro id h
    exact tfind_tset_ne _ _ (by omega)
  · rename_i h
    exact ⟨s.pend, s.fresh, rfl, by omega, fun _ _ => rfl, fun h' => absurd h' h⟩

theorem foldl_land (r : Nat → RegId) (v : Nat → RegVal) (ls : List Nat) (s : State) :
    ∃ a n, ls.foldl (fun t p => landFixed t p (r p) (v p)) s = (s.setPend a).setFresh n ∧ s.fresh ≤ n ∧
      (∀ id, id < s.fresh → tfind a id = tfind s.pend id) ∧
      (∀ p ∈ ls, markable (r p) = true → ∃ id, s.fresh ≤ id ∧
        tfind a id = some { pos := p, regs := [r p], vals := [v p], due := s.time + s.pace.fixed }) := by
  induction ls generalizing s with
  | nil => exact ⟨s.pend, s.fresh, rfl, by omega, fun _ _ => rfl, fun p hp => absurd hp (by simp)⟩
  | cons q l ih =>
    obtain ⟨a, n, h1, h2, h3, h4⟩ := landFixed_eq s q (r q) (v q)
    obtain ⟨a', n', h1', h2', h3', h4'⟩ := ih (landFixed s q (r q) (v q))
    have e1 : (landFixed s q (r q) (v q)).fresh = n := by rw [h1]; rfl
    have e2 : (landFixed s q (r q) (v q)).pend = a := by rw [h1]; rfl
    have e3 : (landFixed s q (r q) (v q)).time = s.time := by rw [h1]; rfl
    have e4 : (landFixed s q (r q) (v q)).pace = s.pace := by rw [h1]; rfl
    rw [e1] at h2' h3' h4'
    rw [e2] at h3'
    rw [e3, e4] at h4'
    refine ⟨a', n', ?_, by omega, ?_, ?_⟩
    · simp only [List.foldl_cons]; rw [h1', h1]; rfl
    · intro id hid; rw [h3' id (by omega), h3 id hid]
    · intro p hp hm
      by_cases hl : p ∈ l
      · obtain ⟨id, hi, he⟩ := h4' p hl hm
        exact ⟨id, by omega, he⟩
      · have : p = q := by
          rcases List.mem_cons.1 hp with h | h
          · exact h
          · exact absurd h hl
        subst this
        obtain ⟨h5, h6⟩ := h4 hm
        exact ⟨s.fresh, Nat.le_refl _, by rw [h3' _ h5, h6]⟩

theorem completesLater_of {i : Instr} {gd : Guard} {price : State → Nat} {r : Nat → RegId} {v : State → Nat → RegVal} (f : Form)
    (he : ∀ s, exec i s = run gd f s) (hf : Plain f i)
    (ha : ∀ src t, f.act src t (actingLanes src gd) = (actingLanes src gd).foldl (fun u p => landFixed u p (r p) (v src p)) t)
    (hp : ∀ s, f.price s (actingLanes s gd) = price s) (hq : f.quotaFree = false) : CompletesLater i gd price r v := by
  intro s hr hpay
  have hc : Clear s { form := f, gd := gd } := hf.clear hr (by rw [hp, hq]; exact hpay)
  obtain ⟨st, cs, bs, ds, h, hl, _⟩ := issued_eq s [{ form := f, gd := gd }]
  obtain ⟨a, n, h1, _, h3, h4⟩ := foldl_land r (v s) (actingLanes s gd) (advance (payBundle s [{ form := f, gd := gd }]))
  have hrest := issued_rest s [{ form := f, gd := gd }]
  have e1 : (advance (payBundle s [{ form := f, gd := gd }])).fresh = s.fresh := by rw [h]; rfl
  have e2 : (advance (payBundle s [{ form := f, gd := gd }])).pend = s.pend := by rw [h]; rfl
  have e3 : (advance (payBundle s [{ form := f, gd := gd }])).time = s.time := by rw [h]; rfl
  have e4 : (advance (payBundle s [{ form := f, gd := gd }])).pace = s.pace := by rw [h]; rfl
  rw [e1, e3, e4] at h4
  rw [e1, e2] at h3
  let X := (actingLanes s gd).foldl (fun u p => landFixed u p (r p) (v s p))
      (advance (payBundle s [{ form := f, gd := gd }]))
  change X = _ at h1
  have hx : exec i s = .next (mendWord s (actingLanes s gd) f.instr X) := by rw [he, run_clear hc, ha]
  refine ⟨_, hx, ?_, ?_, RegsKept.mend ?_ _ _ _, (?_ : BytesKept s X), (?_ : LanesIssue s X), RestKept.mend ?_ _ _ _⟩
  · intro p hp' hm
    have e : (mendWord s (actingLanes s gd) f.instr X).pend = a := congrArg State.pend h1
    rw [e]
    exact h4 p hp' hm
  · intro id hid
    have e : (mendWord s (actingLanes s gd) f.instr X).pend = a := congrArg State.pend h1
    rw [e]
    exact h3 id hid
  · have hT := h1
    rw [h] at hT
    rw [hT]
    apply RegsKept.of_tables <;> simp
  · refine BytesKept.of_mem ?_
    rw [h1, h]; simp
  · exact hl.after (by rw [h1]; simp)
  · refine hrest.after ?_ ?_ ?_ ?_ ?_ ?_ ?_ ?_ ?_ ?_ ?_ <;> rw [h1] <;> simp

end Sys2Proof.Machine
end

