-- ==== Sys2Proof/Laws/Memory.lean ====
section
/-!
SUPPORT. Laws of memory: a byte read after a write, the bytes that a write, a clearing or a copy leaves, and that every
memory operation keeps the canonical form.
-/
namespace Sys2Proof.Machine

open Sys2Proof

@[simp] theorem memGet_memPut_self (m : List Host.Cell) (a : Nat) (v : Byte) : memGet (memPut m a v) a = v := by
  unfold memPut memGet
  split
  · rename_i h; rw [tget_tdel_self, h]
  · exact tget_tset_self _ _ _ _

theorem memGet_memPut_ne (m : List Host.Cell) {a b : Nat} (v : Byte) (h : b ≠ a) : memGet (memPut m a v) b = memGet m b := by
  unfold memPut memGet
  split
  · exact tget_tdel_ne _ _ h
  · exact tget_tset_ne _ _ _ h

theorem memGet_memPut (m : List Host.Cell) (a b : Nat) (v : Byte) :
    memGet (memPut m a v) b = if b = a then v else memGet m b := by
  split
  · rename_i h; subst h; exact memGet_memPut_self m b v
  · rename_i h; exact memGet_memPut_ne m v h

theorem memWf_iff (m : List Host.Cell) : memWf m = true ↔ tsorted m = true ∧ ∀ c ∈ m, c.2 ≠ 0#8 := by
  simp [memWf]

theorem memWf_memPut {m : List Host.Cell} (h : memWf m = true) (a : Nat) (v : Byte) : memWf (memPut m a v) = true := by
  obtain ⟨h1, h2⟩ := (memWf_iff m).1 h
  unfold memPut
  split
  · exact (memWf_iff _).2 ⟨tsorted_tdel h1 a, fun c hc => h2 c (mem_tdel hc)⟩
  · rename_i hv
    refine (memWf_iff _).2 ⟨tsorted_tset h1 a v, fun c hc => ?_⟩
    rcases mem_tset hc with hc | hc
    · subst hc; exact hv
    · exact h2 c hc

theorem memWf_memWrite {m : List Host.Cell} (h : memWf m = true) (a n v : Nat) : memWf (memWrite m a n v) = true := by
  induction n generalizing m a v with
  | zero => exact h
  | succ n ih => exact ih (memWf_memPut h a _) (a + 1) (v / 256)

theorem memWf_memZero {m : List Host.Cell} (h : memWf m = true) (lo n : Nat) : memWf (memZero m lo n) = true := by
  obtain ⟨h1, h2⟩ := (memWf_iff m).1 h
  exact (memWf_iff _).2 ⟨tsorted_tclear h1 lo (lo + n), fun c hc => h2 c (mem_tclear hc)⟩

theorem memWf_foldl_put (l : List Host.Cell) (f : Host.Cell → Nat) {m : List Host.Cell} (h : memWf m = true) :
    memWf (l.foldl (fun acc c => memPut acc (f c) c.2) m) = true := by
  induction l generalizing m with
  | nil => exact h
  | cons c r ih => exact ih (memWf_memPut h _ _)

theorem memWf_memCopy {m : List Host.Cell} (h : memWf m = true) (src dst n : Nat) : memWf (memCopy m src dst n) = true :=
  memWf_foldl_put _ (fun c => dst + (c.1 - src)) (memWf_memZero h dst n)

/-- A write of n bytes at a leaves every byte outside [a, a + n). -/
theorem memGet_memWrite_out (m : List Host.Cell) (a n v : Nat) {b : Nat} (h : b < a ∨ a + n ≤ b) :
    memGet (memWrite m a n v) b = memGet m b := by
  induction n generalizing m a v with
  | zero => rfl
  | succ n ih =>
    rw [memWrite, ih _ (a + 1) (v / 256) (by omega)]
    exact memGet_memPut_ne m _ (by omega)

/-- Byte i of a written value. -/
theorem memGet_memWrite_in (m : List Host.Cell) (a n v i : Nat) (h : i < n) :
    memGet (memWrite m a n v) (a + i) = BitVec.ofNat 8 (v / 256 ^ i) := by
  induction n generalizing m a v i with
  | zero => omega
  | succ n ih =>
    rw [memWrite]
    cases i with
    | zero =>
      rw [memGet_memWrite_out _ _ _ _ (Or.inl (by omega))]
      simp
    | succ i =>
      have := ih (memPut m a (BitVec.ofNat 8 v)) (a + 1) (v / 256) i (by omega)
      rw [show a + (i + 1) = a + 1 + i by omega, this, Nat.div_div_eq_div_mul, Nat.pow_succ, Nat.mul_comm]

theorem memRead_congr {m m' : List Host.Cell} (a n : Nat) (h : ∀ b, a ≤ b → b < a + n → memGet m b = memGet m' b) :
    memRead m a n = memRead m' a n := by
  induction n generalizing a with
  | zero => rfl
  | succ n ih =>
    simp only [memRead]
    rw [h a (by omega) (by omega), ih (a + 1) (fun b h1 h2 => h b (by omega) (by omega))]

/-- The value written comes back, taken to its n bytes. -/
theorem memRead_memWrite_self (m : List Host.Cell) (a n v : Nat) : memRead (memWrite m a n v) a n = v % 256 ^ n := by
  induction n generalizing m a v with
  | zero => simp [memRead, Nat.mod_one]
  | succ n ih =>
    simp only [memRead, memWrite]
    rw [memGet_memWrite_out _ _ _ _ (Or.inl (by omega)), memGet_memPut_self, ih]
    rw [BitVec.toNat_ofNat, show 256 ^ (n + 1) = 256 * 256 ^ n by rw [Nat.pow_succ, Nat.mul_comm], Nat.mod_mul]

theorem memRead_memWrite_out (m : List Host.Cell) (a n v b k : Nat) (h : b + k ≤ a ∨ a + n ≤ b) :
    memRead (memWrite m a n v) b k = memRead m b k :=
  memRead_congr b k fun c h1 h2 => memGet_memWrite_out m a n v (by omega)

theorem memGet_memZero (m : List Host.Cell) (lo n b : Nat) :
    memGet (memZero m lo n) b = if lo ≤ b ∧ b < lo + n then 0#8 else memGet m b := tget_tclear _ _ _ _ _

theorem memRead_lt (m : List Host.Cell) (a n : Nat) : memRead m a n < 256 ^ n := by
  induction n generalizing a with
  | zero => simp [memRead]
  | succ n ih =>
    have h1 := ih (a + 1)
    have h2 := (memGet m a).isLt
    simp only [memRead, Nat.pow_succ]
    omega

/-! ### The same of a state -/

@[simp] theorem wr_mem (s : State) (a n v : Nat) : (wr s a n v).mem = memWrite s.mem a n v := rfl
/-- Invalidating copies changes the directories alone. -/
theorem dropCopies_eq (s : State) (a n : Nat) : ∃ d c, dropCopies s a n = (s.setDoomed d).setCopies c := by
  unfold dropCopies
  split
  · exact ⟨s.doomed, s.copies, rfl⟩
  · exact ⟨_, _, rfl⟩
/-- A write at its home changes memory, the events to come and the directories. -/
theorem wrHome_eq (s : State) (a n v : Nat) : ∃ d c, wrHome s a n v =
    (((s.setMem (memWrite s.mem a n v)).setAgenda ((firedBy s a n).map Instr.monitorFire ++ s.agenda)).setDoomed d).setCopies c :=
  dropCopies_eq _ a n
@[simp] theorem wrHome_mem (s : State) (a n v : Nat) : (wrHome s a n v).mem = memWrite s.mem a n v := by
  obtain ⟨d, c, h⟩ := wrHome_eq s a n v
  rw [h]; rfl
theorem rd_wr_self (s : State) (a n v : Nat) : rd (wr s a n v) a n = v % 256 ^ n := memRead_memWrite_self _ _ _ _
theorem rd_wrHome_self (s : State) (a n v : Nat) : rd (wrHome s a n v) a n = v % 256 ^ n := by
  unfold rd
  rw [wrHome_mem]
  exact memRead_memWrite_self _ _ _ _
theorem byteAt_wr_out (s : State) (a n v : Nat) {b : Nat} (h : b < a ∨ a + n ≤ b) : byteAt (wr s a n v) b = byteAt s b :=
  memGet_memWrite_out _ _ _ _ h
theorem byteAt_wrHome_out (s : State) (a n v : Nat) {b : Nat} (h : b < a ∨ a + n ≤ b) :
    byteAt (wrHome s a n v) b = byteAt s b := by
  unfold byteAt
  rw [wrHome_mem]
  exact memGet_memWrite_out _ _ _ _ h
theorem byteAt_congr {s t : State} (h : t.mem = s.mem) (a : Nat) : byteAt t a = byteAt s a := by
  unfold byteAt; rw [h]

end Sys2Proof.Machine
end

