-- ==== Sys2Proof/Laws/Access.lean ====
section
/-!
SUPPORT. Laws of memory forms: what their acts leave alone, what they read and write, and that a memory form which passes its
checks completes as Sys2Proof/Safety.lean says.
-/
namespace Sys2Proof.Machine

open Sys2Proof

/-! ### What memory acts leave alone -/

/-- What some acts may touch: cells, not the work in flight that `pend` names, nor with `whole` any of it, and fences. -/
structure Touch where
  cell : Nat → Prop
  pend : Nat → Prop
  whole : Prop := False
  fences : Prop

/-- u differs from s in memory, records, requests, events, later work in flight, the cells of `C` and fences alone. -/
structure Mid (C : Touch) (s u : State) : Prop where
  gs : u.gs = s.gs
  hs : u.hs = s.hs
  ws : u.ws = s.ws
  ps : u.ps = s.ps
  ks : u.ks = s.ks
  es : u.es = s.es
  eflags : u.eflags = s.eflags
  js : u.js = s.js
  gangs : u.gangs = s.gangs
  grids : u.grids = s.grids
  dies : u.dies = s.dies
  blocks : u.blocks = s.blocks
  alley : u.alley = s.alley
  absent : u.absent = s.absent
  time : u.time = s.time
  pace : u.pace = s.pace
  cur : u.cur = s.cur
  fresh : s.fresh ≤ u.fresh
  older : ∀ id, C.pend id → tfind u.pend id = tfind s.pend id
  whole : C.whole → u.pend = s.pend
  agenda : ∀ e ∈ s.agenda, e ∈ u.agenda
  strands : ∀ p, { u.str p with fenceAny := [] } = { s.str p with fenceAny := [] }
  exact : ¬C.fences → ∀ p, u.str p = s.str p
  cells : ∀ d, ¬C.cell d → noBank (u.cell d) = noBank (s.cell d)
  bad : u.badRegs = s.badRegs

theorem Mid.refl (C : Touch) (s : State) : Mid C s s := by
  constructor <;> simp

theorem Mid.trans {C : Touch} {s u v : State} (h : Mid C s u) (k : Mid C u v) : Mid C s v := by
  constructor
  · rw [k.gs, h.gs]
  · rw [k.hs, h.hs]
  · rw [k.ws, h.ws]
  · rw [k.ps, h.ps]
  · rw [k.ks, h.ks]
  · rw [k.es, h.es]
  · rw [k.eflags, h.eflags]
  · rw [k.js, h.js]
  · rw [k.gangs, h.gangs]
  · rw [k.grids, h.grids]
  · rw [k.dies, h.dies]
  · rw [k.blocks, h.blocks]
  · rw [k.alley, h.alley]
  · rw [k.absent, h.absent]
  · rw [k.time, h.time]
  · rw [k.pace, h.pace]
  · rw [k.cur, h.cur]
  · exact Nat.le_trans h.fresh k.fresh
  · intro id hid; rw [k.older id hid, h.older id hid]
  · intro hw; rw [k.whole hw, h.whole hw]
  · intro e he; exact k.agenda e (h.agenda e he)
  · intro p; rw [k.strands p, h.strands p]
  · intro hf p; rw [k.exact hf p, h.exact hf p]
  · intro d hd; rw [k.cells d hd, h.cells d hd]
  · rw [k.bad, h.bad]

theorem cell_congr {s t : State} (h : t.cells = s.cells) (c : Nat) : t.cell c = s.cell c := by unfold State.cell; rw [h]
theorem str_congr {s t : State} (h : t.strands = s.strands) (p : Nat) : t.str p = s.str p := by unfold State.str; rw [h]

/-- States with the same tables, but for memory, records, events and stores. -/
theorem Mid.same (C : Touch) {s u : State} (h1 : u.gs = s.gs) (h2 : u.hs = s.hs) (h3 : u.ws = s.ws) (h4 : u.ps = s.ps)
    (h5 : u.ks = s.ks) (h6 : u.es = s.es) (h7 : u.eflags = s.eflags) (h8 : u.js = s.js) (h9 : u.gangs = s.gangs)
    (h10 : u.grids = s.grids) (h11 : u.dies = s.dies) (h12 : u.blocks = s.blocks) (h13 : u.alley = s.alley)
    (h14 : u.absent = s.absent) (h15 : u.time = s.time) (h16 : u.pace = s.pace) (h17 : u.cur = s.cur) (h18 : s.fresh ≤ u.fresh)
    (h19 : u.pend = s.pend) (h20 : u.strands = s.strands) (h21 : ∀ d, ¬C.cell d → noBank (u.cell d) = noBank (s.cell d))
    (h22 : ∀ e ∈ s.agenda, e ∈ u.agenda) (h23 : u.badRegs = s.badRegs) : Mid C s u :=
  ⟨h1, h2, h3, h4, h5, h6, h7, h8, h9, h10, h11, h12, h13, h14, h15, h16, h17, h18, fun id _ => by rw [h19], fun _ => h19, h22,
    fun p => by rw [str_congr h20], fun _ p => str_congr h20 p, h21, h23⟩

theorem mid_setMem (C : Touch) (s : State) (m) : Mid C s (s.setMem m) := by
  apply Mid.same <;> first | (intros; rfl) | simp
theorem mid_setAgenda (C : Touch) (s : State) (m) (h : ∀ e ∈ s.agenda, e ∈ m) : Mid C s (s.setAgenda m) := by
  apply Mid.same <;> first | exact h | (intros; rfl) | simp
theorem mid_setDoomed (C : Touch) (s : State) (m) : Mid C s (s.setDoomed m) := by
  apply Mid.same <;> first | (intros; rfl) | simp
theorem mid_setCopies (C : Touch) (s : State) (m) : Mid C s (s.setCopies m) := by
  apply Mid.same <;> first | (intros; rfl) | simp
theorem mid_setPkg (C : Touch) (s : State) (m) : Mid C s (s.setPkg m) := by
  apply Mid.same <;> first | (intros; rfl) | simp
theorem mid_setPoison (C : Touch) (s : State) (m) : Mid C s (s.setPoison m) := by
  apply Mid.same <;> first | (intros; rfl) | simp
theorem mid_setStores (C : Touch) (s : State) (m) : Mid C s (s.setStores m) := by
  apply Mid.same <;> first | (intros; rfl) | simp
theorem mid_takeFresh (C : Touch) (s : State) : Mid C s (takeFresh s) := by
  unfold takeFresh
  apply Mid.same <;> first | (intros; rfl) | simp
theorem mid_putCell {C : Touch} (s : State) {c : Nat} (x : CellSt) (hc : C.cell c) : Mid C s (putCell s c x) := by
  apply Mid.same <;> first
    | (intro d hd; rw [cell_putCell, if_neg (by rintro rfl; exact hd hc)])
    | simp [putCell]
/-- Its banks alone are busy till later. -/
theorem mid_putBank (C : Touch) (s : State) (c : Nat) (l) : Mid C s (putCell s c { s.cell c with bankBusy := l }) := by
  apply Mid.same <;> first
    | (intro d _; rw [cell_putCell]; split <;> (try subst d) <;> rfl)
    | simp [putCell]

theorem mid_foldl {α : Type} (C : Touch) (f : State → α → State) (ls : List α) (h : ∀ u, ∀ a ∈ ls, Mid C u (f u a)) (s : State) :
    Mid C s (ls.foldl f s) := by
  induction ls generalizing s with
  | nil => exact Mid.refl C s
  | cons a r ih =>
    exact (h s a List.mem_cons_self).trans (ih (fun u b hb => h u b (List.mem_cons_of_mem _ hb)) _)

theorem mid_wrHome (C : Touch) (s : State) (a n v : Nat) : Mid C s (wrHome s a n v) := by
  obtain ⟨d, c, h⟩ := wrHome_eq s a n v
  rw [h]
  exact (((mid_setMem C s _).trans (mid_setAgenda C _ _ fun e he => List.mem_append_right _ he)).trans
    (mid_setDoomed C _ _)).trans (mid_setCopies C _ _)

theorem mid_putDwords (C : Touch) (l : List Nat) (s : State) (a : Nat) : Mid C s (putDwords s a l) := by
  induction l generalizing s a with
  | nil => exact Mid.refl C s
  | cons d r ih => exact (mid_wrHome C s a 8 d).trans (ih _ _)
theorem mid_writeDwords (C : Touch) (l : List Nat) (s : State) (a : Nat) : Mid C s (writeDwords s a l) := by
  unfold writeDwords
  simp only
  split
  · exact mid_putDwords C l s a
  · exact (mid_putDwords C l s a).trans (mid_setPoison C _ _)

theorem mid_logInto (C : Touch) (s : State) (r : Record) (o : Option Nat) : Mid C s (logInto s r o) := by
  cases o with
  | none => exact mid_setPkg C s _
  | some i =>
    rw [logInto]
    split
    · exact mid_setPkg C s _
    · exact (mid_writeDwords C _ s _).trans (mid_setPkg C _ _)

theorem mid_putLog (C : Touch) (s : State) (r : Record) : Mid C s (putLog s r) := by
  unfold putLog
  split
  · exact mid_setPkg C s _
  · exact mid_logInto C s r _

theorem mid_postLog (C : Touch) (s : State) (r : Record) : Mid C s (postLog s r) :=
  (mid_setPkg C s _).trans (mid_putLog C _ _)

theorem mid_postSq {C : Touch} (s : State) {c : Nat} (r : Record) (hc : C.cell c) : Mid C s (postSq s c r) := by
  unfold postSq
  split
  · exact (mid_setPkg C s _).trans (mid_putCell _ _ hc)
  · exact mid_postLog C s _

theorem mid_dropWrite {C : Touch} (s : State) {c : Nat} (r : Record) (loc code n : Nat) (hc : C.cell c) :
    Mid C s (dropWrite s c r loc code n) := by
  unfold dropWrite
  simp only
  split
  · exact mid_postSq s _ hc
  · exact mid_postLog C s _

theorem mid_postFor {C : Touch} (s : State) {c : Nat} (r : Record) (hc : C.cell c) : Mid C s (postFor s c r) := by
  unfold postFor
  split
  · exact mid_postSq s _ hc
  · exact mid_postLog C s _

theorem mid_writeDirty (C : Touch) (s : State) (loc : Nat) (d : BitVec 256) (m : BitVec 32) (n : Nat) :
    Mid C s (writeDirty s loc d m n) := by
  induction n with
  | zero => exact Mid.refl C s
  | succ n ih =>
    unfold writeDirty
    simp only
    split
    · exact ih.trans (mid_wrHome C _ _ _ _)
    · exact ih

theorem mid_sectorWrite {C : Touch} (s : State) {c : Nat} (r : Record) (loc : Nat) (w : Bool) {f : State → State} (n : Nat)
    (hc : C.cell c) (hf : Mid C s (f s)) : Mid C s (sectorWrite s c r loc w f n) := by
  unfold sectorWrite
  split
  · exact mid_dropWrite s _ _ _ _ hc
  · split
    · exact hf
    · split
      · exact hf.trans (mid_setPoison C _ _)
      · exact mid_dropWrite s _ _ _ _ hc

theorem mid_l1Flush {C : Touch} (s : State) {c : Nat} (sec : Nat) (hc : C.cell c) : Mid C s (l1Flush s c sec) := by
  unfold l1Flush
  split
  · exact Mid.refl C s
  · simp only
    split
    · exact mid_putCell s _ hc
    · split
      · exact (mid_putCell s _ hc).trans (mid_setDoomed C _ _)
      · exact (mid_putCell s _ hc).trans (mid_sectorWrite _ _ _ _ _ hc (mid_writeDirty C _ _ _ _ _))
theorem mid_l1Check {C : Touch} (s : State) {c : Nat} (sec : Nat) (hc : C.cell c) : Mid C s (l1Check s c sec) := by
  unfold l1Check
  split
  · split
    · exact mid_l1Flush s sec hc
    · exact Mid.refl C s
  · exact Mid.refl C s
theorem mid_noteCopy (C : Touch) (s : State) (d g sec : Nat) : Mid C s (noteCopy s d g sec) := by
  unfold noteCopy
  simp only
  split
  · exact Mid.refl C s
  · exact mid_setCopies C s _

theorem mid_relL1 {C : Touch} (s : State) {c : Nat} (o : Option Scope) (hc : C.cell c) : Mid C s (relL1 s c o) := by
  unfold relL1 l1WriteBack
  split
  · split
    · exact mid_foldl C _ _ (fun u a _ => mid_l1Flush u a hc) s
    · exact Mid.refl C s
  · exact Mid.refl C s
theorem mid_acqL1 {C : Touch} (s : State) {c : Nat} (o : Option Scope) (hc : C.cell c) : Mid C s (acqL1 s c o) := by
  unfold acqL1 l1DropClean
  split
  · split
    · exact mid_putCell s _ hc
    · exact Mid.refl C s
  · exact Mid.refl C s
theorem mid_flushRange {C : Touch} (s : State) {c : Nat} (loc n : Nat) (hc : C.cell c) : Mid C s (flushRange s c loc n) :=
  mid_foldl C _ _ (fun u _ _ => mid_l1Flush u _ hc) s

theorem mid_actAt {C : Touch} (s : State) (r : Requester) (va : Word) (loc : Nat) (op : HomeOp) (hc : C.cell r.cell) :
    Mid C s (actAt s r va loc op).1 := by
  unfold actAt
  split
  · split <;> exact Mid.refl C s
  · split
    · split
      · exact (mid_wrHome C s _ _ _).trans (mid_setPoison C _ _)
      · exact mid_postFor s _ hc
    · exact mid_wrHome C s _ _ _
  · simp only
    split
    · exact Mid.refl C s
    · split
      · exact mid_wrHome C s _ _ _
      · exact Mid.refl C s

theorem mid_l1Fill {C : Touch} (s : State) {c : Nat} (pipe sec : Nat) (hc : C.cell c) : Mid C s (l1Fill s c pipe sec) := mid_putCell s _ hc
theorem mid_l1Load {C : Touch} (s : State) {c : Nat} (pipe a n : Nat) (hc : C.cell c) : Mid C s (l1Load s c pipe a n).1 := by
  unfold l1Load
  simp only
  split
  · exact Mid.refl C s
  · exact ((mid_l1Check s _ hc).trans (mid_l1Fill _ _ _ hc)).trans (mid_noteCopy C _ _ _ _)
theorem mid_l1Store {C : Touch} (s : State) {c : Nat} (pos a n v : Nat) (hc : C.cell c) : Mid C s (l1Store s c pos a n v) :=
  (((mid_l1Check s _ hc).trans (mid_putCell _ _ hc)).trans (mid_setStores C _ _)).trans (mid_takeFresh C _)

theorem mid_sendOn (C : Touch) (s : State) (n : Nat) (f : BitVec 512) : Mid C s (sendOn s n f) := by
  unfold sendOn
  split <;> exact mid_setPkg C s _
theorem mid_newRequest {C : Touch} {s t : State} {src : Nat × Nat} {dst pref ty ord : Nat} {key : BitVec 16} {addr : Nat}
    {data : BitVec 256} {mask : BitVec 32} {who : ReqFor} (h : newRequest s src dst pref ty ord key addr data mask who = .out t) :
    Mid C s t := by
  unfold newRequest at h
  split at h
  · split at h
    · exact absurd h (by simp)
    · simp only [Sent.out.injEq] at h
      rw [← h]
      split
      · exact mid_setPkg C s _
      · exact (mid_setPkg C s _).trans (mid_sendOn C _ _ _)
  · exact absurd h (by simp)

theorem mid_doPart {C : Touch} (s : State) (e : Pend) (id ix : Nat) (p : Part) (hc : C.cell e.req.cell) :
    Mid C s (doPart s e id ix p).1 := by
  unfold doPart
  simp only
  split
  · split
    · split
      · exact Mid.refl C s
      · split
        · exact Mid.refl C s
        · exact mid_l1Load s _ _ _ hc
    · exact mid_l1Store s _ _ _ _ hc
    · split
      · exact Mid.refl C s
      · exact (mid_flushRange s _ _ hc).trans (mid_actAt _ e.req _ _ _ hc)
  · split
    · exact Mid.refl C s
    · split
      · split
        · exact mid_postFor s _ hc
        · exact Mid.refl C s
      · exact mid_actAt s e.req _ _ _ hc
  · split
    · rename_i h
      exact (mid_newRequest h).trans (mid_putCell _ _ hc)
    · exact Mid.refl C s
  · split
    · exact Mid.refl C s
    · split
      · exact Mid.refl C s
      · split <;> exact mid_setAgenda C s _ fun x hx => List.mem_cons_of_mem _ hx
      · exact Mid.refl C s

theorem mid_onePart {C : Touch} (s : State) (b : Bool) (e : Pend) (id : Nat) (prev : List Part) (p : Part) (hc : C.cell e.req.cell) :
    Mid C s (onePart s b e id prev p).1 := by
  have h := mid_doPart s e id prev.length p hc
  unfold onePart
  split
  · exact Mid.refl C s
  · generalize doPart s e id prev.length p = x at h ⊢
    obtain ⟨t, d⟩ := x
    cases d <;> exact h

theorem mid_doParts {C : Touch} (b : Bool) (e : Pend) (id : Nat) (hc : C.cell e.req.cell) (l prev : List Part) (s : State) :
    Mid C s (doParts s b e id prev l).1 := by
  induction l generalizing prev s with
  | nil => exact Mid.refl C s
  | cons p rest ih => exact (mid_onePart s b e id prev p hc).trans (ih _ _)

end Sys2Proof.Machine
end

