-- ==== Sys2Proof/Laws/Acts.lean ====
section
/-!
SUPPORT. Laws of single acts of a memory form, and of runs of them: the bytes of a sector, what an act whose access answers changes, dirty
bytes of the L1, and what relaxed loads see.
-/
namespace Sys2Proof.Machine

open Sys2Proof

/-! ### Bytes of a sector -/

theorem testBit_field (v lo n j : Nat) : (v / 2 ^ lo % 2 ^ n).testBit j = (decide (j < n) && v.testBit (lo + j)) := by
  rw [Nat.testBit_mod_two_pow, Nat.testBit_div_two_pow, Nat.add_comm]

theorem getLsbD_secPut (d : BitVec 256) (i n v b : Nat) (_ : i + n ≤ 32) (hb : b < 256) :
    (secPut d i n v).getLsbD b = if 8 * i ≤ b ∧ b < 8 * (i + n) then v.testBit (b - 8 * i) else d.getLsbD b := by
  have e0 : secGet d i n * 2 ^ (8 * i) ≤ d.toNat := by
    unfold secGet
    calc d.toNat / 2 ^ (8 * i) % 2 ^ (8 * n) * 2 ^ (8 * i) ≤ d.toNat / 2 ^ (8 * i) * 2 ^ (8 * i) :=
          Nat.mul_le_mul_right _ (Nat.mod_le _ _)
      _ ≤ d.toNat := Nat.div_mul_le_self _ _
  have e1 : d.toNat - secGet d i n * 2 ^ (8 * i) + v % 2 ^ (8 * n) * 2 ^ (8 * i) =
      2 ^ (8 * i) * (2 ^ (8 * n) * (d.toNat / 2 ^ (8 * i) / 2 ^ (8 * n)) + v % 2 ^ (8 * n)) + d.toNat % 2 ^ (8 * i) := by
    unfold secGet
    have h1 := Nat.div_add_mod d.toNat (2 ^ (8 * i))
    have h2 := Nat.div_add_mod (d.toNat / 2 ^ (8 * i)) (2 ^ (8 * n))
    have h3 : 2 ^ (8 * i) * (d.toNat / 2 ^ (8 * i)) =
        2 ^ (8 * i) * (2 ^ (8 * n) * (d.toNat / 2 ^ (8 * i) / 2 ^ (8 * n))) + 2 ^ (8 * i) * (d.toNat / 2 ^ (8 * i) % 2 ^ (8 * n)) := by
      rw [← Nat.mul_add, h2]
    rw [Nat.mul_add, Nat.mul_comm (d.toNat / 2 ^ (8 * i) % 2 ^ (8 * n)), Nat.mul_comm (v % 2 ^ (8 * n))]
    omega
  unfold secPut
  rw [e1, BitVec.getLsbD_ofNat, Nat.testBit_two_pow_mul_add _ (Nat.mod_lt _ (Nat.two_pow_pos _))]
  simp only [hb, decide_true, Bool.true_and]
  by_cases c1 : b < 8 * i
  · rw [if_pos c1, if_neg (by omega), Nat.testBit_mod_two_pow]
    simp [c1, BitVec.getLsbD]
  · rw [if_neg c1, Nat.testBit_two_pow_mul_add _ (Nat.mod_lt _ (Nat.two_pow_pos _))]
    by_cases c2 : b - 8 * i < 8 * n
    · rw [if_pos c2, if_pos (by omega), Nat.testBit_mod_two_pow]
      simp [c2]
    · rw [if_neg c2, if_neg (by omega), Nat.testBit_div_two_pow, Nat.testBit_div_two_pow]
      simp only [BitVec.getLsbD]
      congr 1; omega

theorem testBit_secGet (d : BitVec 256) (i n b : Nat) : (secGet d i n).testBit b = (decide (b < 8 * n) && d.getLsbD (8 * i + b)) := by
  unfold secGet
  rw [testBit_field]
  simp [BitVec.getLsbD]

/-- A byte that a replacement names. -/
theorem secGet_secPut_in (d : BitVec 256) (i n v k : Nat) (h : i + n ≤ 32) (hk : k < n) :
    secGet (secPut d i n v) (i + k) 1 = field v (8 * k) 8 := by
  apply Nat.eq_of_testBit_eq
  intro b
  rw [testBit_secGet]
  unfold field
  rw [testBit_field]
  by_cases hb : b < 8
  · rw [getLsbD_secPut d i n v _ h (by omega), if_pos (by omega)]
    simp only [Nat.mul_one, hb, decide_true, Bool.true_and]
    congr 1; omega
  · simp [hb]

/-- A byte that it does not name. -/
theorem secGet_secPut_out (d : BitVec 256) (i n v j : Nat) (h : i + n ≤ 32) (hj : j < 32) (ho : j < i ∨ i + n ≤ j) :
    secGet (secPut d i n v) j 1 = secGet d j 1 := by
  apply Nat.eq_of_testBit_eq
  intro b
  rw [testBit_secGet, testBit_secGet]
  by_cases hb : b < 8
  · rw [getLsbD_secPut d i n v _ h (by omega), if_neg (by omega)]
  · simp [hb]

theorem secGet_byte (d : BitVec 256) (i n k : Nat) (hk : k < n) : field (secGet d i n) (8 * k) 8 = secGet d (i + k) 1 := by
  apply Nat.eq_of_testBit_eq
  intro b
  unfold field
  rw [testBit_field, testBit_secGet, testBit_secGet]
  by_cases hb : b < 8
  · simp only [hb, decide_true, Bool.true_and, Nat.mul_one]
    rw [show (decide (8 * k + b < 8 * n)) = true by simp; omega]
    simp only [Bool.true_and]
    congr 1; omega
  · simp [hb]

/-- A merged sector, byte by byte. -/
theorem secGet_secMerge (base top : BitVec 256) (m : BitVec 32) (n j : Nat) (hn : n ≤ 32) (hj : j < 32) :
    secGet (secMerge base top m n) j 1 = if j < n ∧ m.getLsbD j = true then secGet top j 1 else secGet base j 1 := by
  induction n with
  | zero => simp [secMerge]
  | succ n ih =>
    have ih := ih (by omega)
    unfold secMerge
    simp only
    by_cases hm : m.getLsbD n = true
    · rw [if_pos hm]
      by_cases hjn : j = n
      · subst hjn
        rw [if_pos ⟨by omega, hm⟩]
        have := secGet_secPut_in (secMerge base top m j) j 1 (secGet top j 1) 0 (by omega) (by omega)
        simp only [Nat.add_zero] at this
        rw [this]
        exact secGet_byte top j 1 0 (by omega)
      · rw [secGet_secPut_out _ _ _ _ _ (by omega) hj (by omega), ih]
        by_cases h : j < n ∧ m.getLsbD j = true
        · rw [if_pos h, if_pos ⟨by omega, h.2⟩]
        · rw [if_neg h, if_neg]
          rintro ⟨a, b⟩; exact h ⟨by omega, b⟩
    · rw [if_neg hm, ih]
      by_cases h : j < n ∧ m.getLsbD j = true
      · rw [if_pos h, if_pos ⟨by omega, h.2⟩]
      · rw [if_neg h, if_neg]
        rintro ⟨a, b⟩
        by_cases hjn : j = n
        · subst hjn; exact hm b
        · exact h ⟨by omega, b⟩

theorem getLsbD_byteMask (i n j : Nat) (hj : j < 32) : (byteMask i n).getLsbD j = decide (i ≤ j ∧ j < i + n) := by
  unfold byteMask
  rw [BitVec.getLsbD_ofNat, Nat.mul_comm, Nat.testBit_two_pow_mul, Nat.testBit_two_pow_sub_one]
  simp only [hj, decide_true, Bool.true_and, ge_iff_le]
  by_cases h1 : i ≤ j <;> by_cases h2 : j < i + n <;> simp [h1, h2] <;> omega

/-- A mask lies within another. -/
theorem mask_within {m : BitVec 32} {i n k : Nat} (h : m &&& byteMask i n = byteMask i n) (hi : i + n ≤ 32) (hk : k < n) :
    m.getLsbD (i + k) = true := by
  have := congrArg (fun x => x.getLsbD (i + k)) h
  simp only [BitVec.getLsbD_and, getLsbD_byteMask i n (i + k) (by omega)] at this
  rw [show decide (i ≤ i + k ∧ i + k < i + n) = true by simp; omega] at this
  simpa using this

/-! ### Acts that answer -/

/-- A cell without its L1, the work of its banks and its request counters. -/
def core (x : CellSt) : CellSt := { x with l1 := [], bankBusy := [], lclreq := 0#64, rmtreq := 0#64 }

/-- `Mid`, and nothing that decides whether an access answers has changed. -/
structure Calm (C : Touch) (s u : State) : Prop where
  mid : Mid C s u
  poison : u.poison = s.poison
  pkg : u.pkg = s.pkg
  cells : ∀ d, core (u.cell d) = core (s.cell d)
  sound : ∀ d k l, tfind (u.cell d).l1 k = some l → l.bad = true → ∃ m, tfind (s.cell d).l1 k = some m ∧ m.bad = true

theorem Calm.trans {C : Touch} {s u v : State} (h : Calm C s u) (k : Calm C u v) : Calm C s v := by
  refine ⟨h.mid.trans k.mid, by rw [k.poison, h.poison], by rw [k.pkg, h.pkg], fun d => by rw [k.cells, h.cells], ?_⟩
  intro d i l hl hb
  obtain ⟨m, hm, hb'⟩ := k.sound d i l hl hb
  exact h.sound d i m hm hb'

/-- The cells stand. -/
theorem Calm.of_cells {C : Touch} {s u : State} (h : Mid C s u) (h1 : u.poison = s.poison) (h2 : u.pkg = s.pkg)
    (h3 : ∀ d, u.cell d = s.cell d) : Calm C s u :=
  ⟨h, h1, h2, fun d => by rw [h3], fun d i l hl hb => ⟨l, by rw [h3] at hl; exact hl, hb⟩⟩

theorem Calm.refl (C : Touch) (s : State) : Calm C s s := Calm.of_cells (Mid.refl C s) rfl rfl fun _ => rfl

theorem badAt_congr {s u : State} (h1 : u.poison = s.poison) (h2 : u.pkg = s.pkg) (a : Nat) : badAt u a = badAt s a := by
  unfold badAt onBadStack
  rw [h1, h2]
theorem badIn_congr {s u : State} (h1 : u.poison = s.poison) (h2 : u.pkg = s.pkg) (a n : Nat) : badIn u a n = badIn s a n := by
  unfold badIn
  simp only [badAt_congr h1 h2]
theorem crossed_congr {s u : State} (h : u.pkg = s.pkg) (a b c d : Nat) : crossed u a b c d = crossed s a b c d := by
  unfold crossed
  rw [h]
theorem absent_congr {s u : State} (h : u.absent = s.absent) (t : Target) (n : Nat) : absentSectors u t n = absentSectors s t n := by
  unfold absentSectors
  rw [h]
theorem answers_congr {s u : State} (h1 : u.poison = s.poison) (h2 : u.pkg = s.pkg) (h3 : u.absent = s.absent) {c : Nat} {t : Target}
    {n : Nat} (h : Answers s c t n) : Answers u c t n := by
  cases t with
  | home loc die => exact ⟨by rw [crossed_congr h2]; exact h.1, by rw [badIn_congr h1 h2]; exact h.2.1, h.2.2⟩
  | scr cell off => exact ⟨by rw [crossed_congr h2]; exact h.1, by rw [badIn_congr h1 h2]; exact h.2.1, by rw [absent_congr h3]; exact h.2.2⟩
  | remote g x => exact h
  | dev off => show crossed u _ _ _ _ = false; rw [crossed_congr h2]; exact h

/-- What `core` keeps of a cell. -/
theorem core_get {β : Type} {x y : CellSt} (h : core x = core y) (f : CellSt → β) (hf : ∀ x, f (core x) = f x) : f x = f y := by
  rw [← hf x, h, hf]
theorem core_block {x y : CellSt} (h : core x = core y) : x.block = y.block := core_get h CellSt.block fun _ => rfl
theorem blockTag_congr {s u : State} (h : ∀ d, core (u.cell d) = core (s.cell d)) (t : Target) : blockTag u t = blockTag s t := by
  unfold blockTag
  split
  · rw [core_block (h _)]
  · rfl
theorem l1Held_congr {s u : State} (h : ∀ d, core (u.cell d) = core (s.cell d)) (ht : u.time = s.time) (c : Nat) : l1Held u c = l1Held s c := by
  have e1 : (u.cell c).bankSw = (s.cell c).bankSw := core_get (h c) CellSt.bankSw fun _ => rfl
  have e2 : (u.cell c).railTo = (s.cell c).railTo := core_get (h c) CellSt.railTo fun _ => rfl
  have e3 : (u.cell c).cycBase = (s.cell c).cycBase := core_get (h c) CellSt.cycBase fun _ => rfl
  have e4 : (u.cell c).cycAt = (s.cell c).cycAt := core_get (h c) CellSt.cycAt fun _ => rfl
  have e5 : (u.cell c).high = (s.cell c).high := core_get (h c) CellSt.high fun _ => rfl
  unfold l1Held cyc
  rw [e1, e2, e3, e4, e5, ht]

theorem devRead_congr {s u : State} (h1 : u.pkg = s.pkg) (h2 : u.dies = s.dies) (h3 : ∀ d, core (u.cell d) = core (s.cell d))
    (off n : Nat) : devRead u off n = devRead s off n := by
  have hd : ∀ d, u.die d = s.die d := fun d => by unfold State.die; rw [h2]
  have hc : ∀ d r, cellReg (u.cell d) r = cellReg (s.cell d) r := by
    intro d r
    have e1 : (u.cell d).slotmask = (s.cell d).slotmask := core_get (h3 d) CellSt.slotmask fun _ => rfl
    have e2 : (u.cell d).railTo = (s.cell d).railTo := core_get (h3 d) CellSt.railTo fun _ => rfl
    have e3 : (u.cell d).high = (s.cell d).high := core_get (h3 d) CellSt.high fun _ => rfl
    have e4 : (u.cell d).ovfcfg = (s.cell d).ovfcfg := core_get (h3 d) CellSt.ovfcfg fun _ => rfl
    have e5 : (u.cell d).fenced = (s.cell d).fenced := core_get (h3 d) CellSt.fenced fun _ => rfl
    unfold cellReg railsel
    rw [e1, e2, e3, e4, e5]
  unfold devRead devDword
  simp only [h1, hd, hc]

/-- An act that can be performed when its instruction issues. -/
structure Fit (relaxed : Bool) (c : Nat) (s : State) (p : Part) : Prop where
  answers : Answers s c p.tgt (opBytes p.op)
  size : 0 < opBytes p.op
  amo : relaxed = true → ∀ o w a b, p.op ≠ .amo o w a b
  plain : devWrite p.tgt p.op = false
  tag : blockTag s p.tgt = p.blk
  host : isHost p.tgt = true → s.pkg.hostUp = true
  free : relaxed = true → l1Held s c = false
  sound : relaxed = true → SoundL1 s c p.tgt
  undone : p.val = none ∧ p.sent = false

theorem Calm.fit {C : Touch} {s u : State} (h : Calm C s u) {relaxed : Bool} {c : Nat} {p : Part} (k : Fit relaxed c s p) :
    Fit relaxed c u p where
  answers := answers_congr h.poison h.pkg h.mid.absent k.answers
  size := k.size
  amo := k.amo
  plain := k.plain
  tag := by rw [blockTag_congr h.cells]; exact k.tag
  host := by rw [h.pkg]; exact k.host
  free := fun hr => by rw [l1Held_congr h.cells h.mid.time]; exact k.free hr
  sound := by
    intro hr loc die ht l hl
    cases hb : l.bad with
    | false => rfl
    | true =>
      obtain ⟨m, hm, hb'⟩ := h.sound c _ l hl hb
      rw [k.sound hr loc die ht m hm] at hb'
      exact absurd hb' (by simp)
  undone := k.undone

/-- One act, or a note beside the acts, of an instruction whose accesses answer: the state after it differs in the L1 of cell c, in
the bytes that `w` names and in events. -/
structure Act (C : Touch) (c : Nat) (w : Option (Nat × Nat)) (s u : State) : Prop where
  calm : Calm C s u
  bytes : ∀ a, (∀ l n, w = some (l, n) → a < l ∨ l + n ≤ a) → byteAt u a = byteAt s a
  cells : ∀ d, d ≠ c → u.cell d = s.cell d
  stores : ∀ id, id < s.fresh → tfind u.stores id = tfind s.stores id
  pend : u.pend = s.pend

theorem Act.trans {C : Touch} {c : Nat} {w : Option (Nat × Nat)} {s u v : State} (h : Act C c w s u) (k : Act C c w u v) :
    Act C c w s v :=
  ⟨h.calm.trans k.calm, fun a ha => by rw [k.bytes a ha, h.bytes a ha],
    fun d hd => by rw [k.cells d hd, h.cells d hd],
    fun id hid => by rw [k.stores id (Nat.lt_of_lt_of_le hid h.calm.mid.fresh), h.stores id hid], by rw [k.pend, h.pend]⟩
theorem Act.refl (C : Touch) (c : Nat) (w : Option (Nat × Nat)) (s : State) : Act C c w s s :=
  ⟨Calm.refl C s, fun _ _ => rfl, fun _ _ => rfl, fun _ _ => rfl, rfl⟩
theorem Act.weaken {C : Touch} {c : Nat} {w : Option (Nat × Nat)} {s u : State} (h : Act C c none s u) : Act C c w s u :=
  ⟨h.calm, fun a _ => h.bytes a (fun _ _ e => absurd e (by simp)), h.cells, h.stores, h.pend⟩

/-- Only the L1 of cell c differs, and no sector of it has become uncorrectable. -/
theorem act_putL1 {C : Touch} (s : State) {c : Nat} (l : Tab L1Sector) (hc : C.cell c)
    (hb : ∀ k x, tfind l k = some x → x.bad = true → ∃ m, tfind (s.cell c).l1 k = some m ∧ m.bad = true) :
    Act C c none s (putCell s c { s.cell c with l1 := l }) := by
  refine ⟨⟨mid_putCell s _ hc, rfl, rfl, ?_, ?_⟩, fun _ _ => rfl, ?_, fun _ _ => rfl, rfl⟩
  · intro d
    rw [cell_putCell]
    split
    · rename_i h; rw [h]; rfl
    · rfl
  · intro d k x hx hxb
    rw [cell_putCell] at hx
    split at hx
    · rename_i h; rw [h]; exact hb k x hx hxb
    · exact ⟨x, hx, hxb⟩
  · intro d hd; rw [cell_putCell, if_neg hd]

theorem wrHome_pend (s : State) (a n v : Nat) : (wrHome s a n v).poison = s.poison ∧ (wrHome s a n v).pkg = s.pkg ∧
    (wrHome s a n v).cells = s.cells ∧ (wrHome s a n v).stores = s.stores ∧ (wrHome s a n v).pend = s.pend := by
  obtain ⟨d, c, h⟩ := wrHome_eq s a n v
  rw [h]
  exact ⟨rfl, rfl, rfl, rfl, rfl⟩

theorem act_wrHome (C : Touch) (s : State) (c a n v : Nat) : Act C c (some (a, n)) s (wrHome s a n v) := by
  obtain ⟨h1, h2, h3, h4, h5⟩ := wrHome_pend s a n v
  exact ⟨Calm.of_cells (mid_wrHome C s a n v) h1 h2 fun d => cell_congr h3 d,
    fun b hb => byteAt_wrHome_out s a n v (hb a n rfl), fun d _ => cell_congr h3 d, fun id _ => by rw [h4], h5⟩

/-- The sectors of a clean L1 leave it without a write. -/
theorem act_l1Flush {C : Touch} (s : State) {c : Nat} (sec : Nat) (hc : C.cell c) (hl : ∀ e ∈ (s.cell c).l1, e.2.dirty = 0#32) :
    Act C c none s (l1Flush s c sec) ∧ (∀ e ∈ ((l1Flush s c sec).cell c).l1, e ∈ (s.cell c).l1) ∧ (l1Flush s c sec).mem = s.mem := by
  unfold l1Flush
  split
  · exact ⟨Act.refl _ _ _ _, fun e h => h, rfl⟩
  · rename_i l hf
    have := hl _ (mem_of_tfind hf)
    simp only at this
    simp only [this, if_true]
    refine ⟨act_putL1 s _ hc ?_, ?_, rfl⟩
    · intro k x hx hb
      by_cases hk : k = sec
      · subst hk
        rw [tfind_tdel_self] at hx
        exact absurd hx (by simp)
      · rw [tfind_tdel_ne _ hk] at hx
        exact ⟨x, hx, hb⟩
    · intro e he
      rw [cell_putCell, if_pos rfl] at he
      exact mem_tdel he

theorem act_flushAll {C : Touch} {c : Nat} (hc : C.cell c) (l : List Nat) (s : State) (hl : ∀ e ∈ (s.cell c).l1, e.2.dirty = 0#32) :
    let u := l.foldl (fun t i => l1Flush t c i) s
    Act C c none s u ∧ (∀ e ∈ (u.cell c).l1, e ∈ (s.cell c).l1) ∧ u.mem = s.mem := by
  induction l generalizing s with
  | nil => exact ⟨Act.refl _ _ _ _, fun _ h => h, rfl⟩
  | cons i r ih =>
    obtain ⟨h1, h2, h3⟩ := act_l1Flush s i hc hl
    obtain ⟨k1, k2, k3⟩ := ih (l1Flush s c i) fun e he => hl e (h2 e he)
    exact ⟨h1.trans k1, fun e he => h2 e (k2 e he), by rw [List.foldl_cons, k3, h3]⟩

theorem foldl_map_nat (f : State → Nat → State) (g : Nat → Nat) (l : List Nat) (s : State) :
    l.foldl (fun t i => f t (g i)) s = (l.map g).foldl f s := by rw [List.foldl_map]

theorem act_flushRange {C : Touch} {c : Nat} (hc : C.cell c) (s : State) (loc n : Nat) (hl : ∀ e ∈ (s.cell c).l1, e.2.dirty = 0#32) :
    let u := flushRange s c loc n
    Act C c none s u ∧ (∀ e ∈ (u.cell c).l1, e ∈ (s.cell c).l1) ∧ u.mem = s.mem := by
  unfold flushRange
  rw [foldl_map_nat (fun t i => l1Flush t c i)]
  exact act_flushAll hc _ s hl

/-- The bytes that a part writes in memory at once. -/
def partWrites (home : Bool) (p : Part) : Option (Nat × Nat) := (storedAt home p.tgt p.op).map fun l => (l, opBytes p.op)

theorem badAt_of_badIn {s : State} {loc n : Nat} (h : badIn s loc n = none) (hn : 0 < n) : badAt s loc = none := by
  unfold badIn at h
  rw [List.findSome?_eq_none_iff] at h
  have h0 := h 0 (by
    rw [List.mem_range]
    have : loc / 32 ≤ (loc + n - 1) / 32 := Nat.div_le_div_right (by omega)
    omega)
  rw [Nat.add_zero] at h0
  unfold badAt at h0 ⊢
  have e1 : onBadStack s (32 * (loc / 32)) = onBadStack s loc := by
    unfold onBadStack
    have e2 : 32 * (loc / 32) < 2 ^ 40 ↔ loc < 2 ^ 40 := by omega
    have e3 : 32 * (loc / 32) / 2 ^ 38 = loc / 2 ^ 38 := by omega
    have e4 : 32 * (loc / 32) % 2 ^ 38 / 256 = loc % 2 ^ 38 / 256 := by omega
    rw [e3, e4]
    simp only [e2]
  rw [e1, show 32 * (loc / 32) / 32 = loc / 32 by omega] at h0
  exact h0

/-- The state after an act at a sound location. -/
def actState (s : State) (loc : Nat) (op : HomeOp) : State :=
  match op with
  | .read _ => s
  | .write n v => wrHome s loc n v
  | .amo o w a b =>
    match amoNew o w (rd s loc (amoBytes o w)) a b with
    | some v => wrHome s loc (amoBytes o w) v
    | none => s
/-- The value that it answers. -/
def actVal (s : State) (loc : Nat) (op : HomeOp) : Nat :=
  match op with
  | .read n => rd s loc n
  | .write _ _ => 0
  | .amo o w _ _ => rd s loc (amoBytes o w)

theorem actAt_sound (s : State) (r : Requester) (va : Word) (loc : Nat) (op : HomeOp) (h : badIn s loc (opBytes op) = none)
    (hn : 0 < opBytes op) : actAt s r va loc op = (actState s loc op, .val (actVal s loc op)) := by
  cases op with
  | read n => simp only [actAt, opBytes] at h ⊢; rw [h]; rfl
  | write n v =>
    simp only [opBytes] at h hn
    simp only [actAt]
    rw [badAt_of_badIn h hn]; rfl
  | amo o w a b =>
    simp only [opBytes] at h
    simp only [actAt]
    rw [h]
    simp only [actState, actVal]
    cases amoNew o w (rd s loc (amoBytes o w)) a b <;> rfl

theorem act_actState (C : Touch) (s : State) (c loc : Nat) (op : HomeOp) :
    Act C c (if writesOf op then some (loc, opBytes op) else none) s (actState s loc op) := by
  cases op with
  | read n => exact Act.refl _ _ _ _
  | write n v => exact act_wrHome C s c loc n v
  | amo o w a b =>
    simp only [actState, writesOf, opBytes, if_true]
    split
    · exact act_wrHome C s c loc _ _
    · exact Act.refl _ _ _ _

theorem actState_cells (s : State) (loc : Nat) (op : HomeOp) : (actState s loc op).cells = s.cells := by
  cases op with
  | read n => rfl
  | write n v => exact (wrHome_pend s loc n v).2.2.1
  | amo o w a b =>
    simp only [actState]
    split
    · exact (wrHome_pend s loc _ _).2.2.1
    · rfl
theorem rd_congr {s u : State} (h : u.mem = s.mem) (a n : Nat) : rd u a n = rd s a n := by unfold rd; rw [h]
theorem actVal_congr {s u : State} (h : u.mem = s.mem) (loc : Nat) (op : HomeOp) : actVal u loc op = actVal s loc op := by
  cases op <;> simp only [actVal, rd_congr h]

/-- A read at a place sees the bytes of that place alone. -/
theorem rd_of_bytes {s u : State} {a n : Nat} (h : ∀ b, a ≤ b → b < a + n → byteAt u b = byteAt s b) : rd u a n = rd s a n :=
  memRead_congr a n h

theorem rd_actState (s : State) (loc : Nat) (op : HomeOp) :
    (∀ n v, op = .write n v → rd (actState s loc op) loc (opBytes op) = v % 256 ^ n) ∧
    (∀ o w a b, op = .amo o w a b → rd (actState s loc op) loc (opBytes op) =
      (amoNew o w (rd s loc (opBytes op)) a b).getD (rd s loc (opBytes op)) % 256 ^ amoBytes o w) := by
  cases op with
  | read n => exact ⟨fun _ _ h => absurd h (by simp), fun _ _ _ _ h => absurd h (by simp)⟩
  | write n v =>
    refine ⟨?_, fun _ _ _ _ h => absurd h (by simp)⟩
    intro n' v' h
    simp only [HomeOp.write.injEq] at h
    obtain ⟨rfl, rfl⟩ := h
    exact rd_wrHome_self _ _ _ _
  | amo o w a b =>
    refine ⟨fun _ _ h => absurd h (by simp), ?_⟩
    intro o' w' a' b' h
    simp only [HomeOp.amo.injEq] at h
    obtain ⟨rfl, rfl, rfl, rfl⟩ := h
    simp only [actState, opBytes]
    cases h : amoNew o w (rd s loc (amoBytes o w)) a b with
    | none =>
      simp only [Option.getD_none]
      exact (Nat.mod_eq_of_lt (memRead_lt _ _ _)).symm
    | some v => exact rd_wrHome_self _ _ _ _

/-- An uncorrectable copy alone leaves the L1 when an access finds it. -/
theorem l1Check_sound {s : State} {c sec : Nat} (h : ∀ l, tfind (s.cell c).l1 sec = some l → l.bad = false) : l1Check s c sec = s := by
  unfold l1Check
  split
  · rename_i l hl
    rw [h l hl]
    rfl
  · rfl

/-- A relaxed store to a home where the L1 holds no uncorrectable copy: one sector of the L1, and the store on its way. -/
theorem l1Store_eq (s : State) (c pos a n v : Nat) (hs : ∀ l, tfind (s.cell c).l1 (a / 32) = some l → l.bad = false) :
    ∃ l : L1Sector, ∃ e : StoreEv,
      l1Store s c pos a n v =
        takeFresh ((putCell s c { s.cell c with l1 := tset (s.cell c).l1 (a / 32) l }).setStores (tset s.stores s.fresh e)) ∧
      e.cell = c ∧ e.pos = pos ∧ e.sector = a / 32 ∧ l.bad = false ∧
      (∃ d : L1Sector, (∀ l', tfind (s.cell c).l1 (a / 32) = some l' → d = l') ∧
        l.data = secPut d.data (a % 32) n v ∧
        l.held = (if l1Mine (s.cell c) d (pipeOf pos) then d.held else 0#32) ||| byteMask (a % 32) n ∧
        l.dirty = d.dirty ||| byteMask (a % 32) n) := by
  unfold l1Store
  simp only
  rw [l1Check_sound hs]
  have hd : ∀ (d0 l' : L1Sector), tfind (s.cell c).l1 (a / 32) = some l' → tget d0 (s.cell c).l1 (a / 32) = l' :=
    fun d0 l' h => tget_of_tfind h
  refine ⟨_, _, rfl, rfl, rfl, rfl, ?_, _, hd _, rfl, rfl, rfl⟩
  cases h : tfind (s.cell c).l1 (a / 32) with
  | none => rw [tget_of_none h]
  | some l => rw [hd _ l h]; exact hs l h

theorem act_l1Store {C : Touch} (s : State) {c : Nat} (pos a n v : Nat) (hc : C.cell c)
    (hs : ∀ l, tfind (s.cell c).l1 (a / 32) = some l → l.bad = false) : Act C c none s (l1Store s c pos a n v) := by
  obtain ⟨l, e, h, _, _, _, hb, _⟩ := l1Store_eq s c pos a n v hs
  rw [h]
  refine (act_putL1 s (tset (s.cell c).l1 (a / 32) l) hc ?_).trans ?_
  · intro k x hx hxb
    by_cases hk : k = a / 32
    · subst hk
      rw [tfind_tset_self] at hx
      simp only [Option.some.injEq] at hx
      subst hx
      rw [hb] at hxb
      exact absurd hxb (by simp)
    · rw [tfind_tset_ne _ _ hk] at hx
      exact ⟨x, hx, hxb⟩
  · refine ⟨Calm.of_cells ((mid_setStores C _ _).trans (mid_takeFresh C _)) rfl rfl fun _ => rfl, fun _ _ => rfl,
      fun _ _ => rfl, ?_, rfl⟩
    intro id hid
    exact tfind_tset_ne _ _ (by simp only [putCell, State.setCells_fresh] at hid; omega)

/-- A load of a sector that the L1 holds no uncorrectable copy of. -/
theorem l1Load_eq (s : State) (c pipe a n : Nat) (hs : ∀ l, tfind (s.cell c).l1 (a / 32) = some l → l.bad = false) :
    (l1Load s c pipe a n).1 = (if l1Hit s c pipe a n then s
      else noteCopy (l1Fill s c pipe (a / 32)) (dieOf c) (blockIn s c).grid (a / 32)) ∧
    (l1Load s c pipe a n).2 = (match tfind (((l1Load s c pipe a n).1).cell c).l1 (a / 32) with
      | some l => secGet l.data (a % 32) n | none => 0) := by
  unfold l1Load
  simp only
  rw [l1Check_sound hs]
  exact ⟨by trivial, by trivial⟩

theorem noteCopy_eq (s : State) (d g sec : Nat) : ∃ c, noteCopy s d g sec = s.setCopies c := by
  unfold noteCopy
  simp only
  split
  · exact ⟨s.copies, rfl⟩
  · exact ⟨_, rfl⟩

theorem act_l1Fill {C : Touch} (s : State) {c : Nat} (pipe sec : Nat) (hc : C.cell c) : Act C c none s (l1Fill s c pipe sec) := by
  refine act_putL1 s _ hc ?_
  intro k x hx hb
  by_cases hk : k = sec
  · subst hk
    rw [tfind_tset_self] at hx
    simp only [Option.some.injEq] at hx
    subst hx
    simp only at hb
    cases h : tfind (s.cell c).l1 k with
    | none => rw [tget_of_none h] at hb; exact absurd hb (by simp)
    | some l => rw [tget_of_tfind h] at hb; exact ⟨l, rfl, hb⟩
  · rw [tfind_tset_ne _ _ hk] at hx
    exact ⟨x, hx, hb⟩

theorem act_l1Load {C : Touch} (s : State) {c : Nat} (pipe a n : Nat) (hc : C.cell c)
    (hs : ∀ l, tfind (s.cell c).l1 (a / 32) = some l → l.bad = false) : Act C c none s (l1Load s c pipe a n).1 := by
  rw [(l1Load_eq s c pipe a n hs).1]
  split
  · exact Act.refl _ _ _ _
  · obtain ⟨d, h⟩ := noteCopy_eq (l1Fill s c pipe (a / 32)) (dieOf c) (blockIn s c).grid (a / 32)
    rw [h]
    refine (act_l1Fill s pipe (a / 32) hc).trans ?_
    exact ⟨Calm.of_cells (mid_setCopies C _ _) rfl rfl fun _ => rfl, fun _ _ => rfl, fun _ _ => rfl, fun _ _ => rfl, rfl⟩

section
variable {s : State} {e : Pend} {id ix : Nat} {tgt : Target} {va : Word} {op : HomeOp} {val : Option Nat} {blk : Nat} {sent : Bool}

/-- What an act past the L1 is, where it can be performed. -/
theorem doPart_home {loc die : Nat} {C : Touch} (hc : C.cell e.req.cell)
    (hf : Fit false e.req.cell s { tgt := .home loc die, va := va, op := op, val := val, blk := blk, sent := sent })
    (hr : e.relaxed = false) (hl : ∀ x ∈ (s.cell e.req.cell).l1, x.2.dirty = 0#32) :
    doPart s e id ix { tgt := .home loc die, va := va, op := op, val := val, blk := blk, sent := sent } =
      (actState (flushRange s e.req.cell loc (opBytes op)) loc op, .val (actVal (flushRange s e.req.cell loc (opBytes op)) loc op)) := by
  obtain ⟨h1, h2, _⟩ := hf.answers
  obtain ⟨k1, _, _⟩ := act_flushRange hc s loc (opBytes op) hl
  simp only [doPart, h1, hr]
  exact actAt_sound _ e.req va loc op (by rw [badIn_congr k1.calm.poison k1.calm.pkg]; exact h2) hf.size

/-- A relaxed load. -/
theorem doPart_load {loc die n : Nat}
    (hf : Fit true e.req.cell s { tgt := .home loc die, va := va, op := .read n, val := val, blk := blk, sent := sent })
    (hr : e.relaxed = true) :
    doPart s e id ix { tgt := .home loc die, va := va, op := .read n, val := val, blk := blk, sent := sent } =
      ((l1Load s e.req.cell (pipeOf e.pos) loc n).1, .val (l1Load s e.req.cell (pipeOf e.pos) loc n).2) := by
  obtain ⟨h1, h2, _⟩ := hf.answers
  simp only [opBytes] at h2
  simp only [doPart, h1, hr, Bool.and_false, Bool.false_eq_true, if_false]
  rw [h2]
  split
  · rename_i h; exact absurd h (by simp)
  · rfl

/-- An act on a scratchpad. -/
theorem doPart_scr {relaxed : Bool} {cell off : Nat}
    (hf : Fit relaxed e.req.cell s { tgt := .scr cell off, va := va, op := op, val := val, blk := blk, sent := sent }) :
    doPart s e id ix { tgt := .scr cell off, va := va, op := op, val := val, blk := blk, sent := sent } =
      (actState s (locScr cell off) op, .val (actVal s (locScr cell off) op)) := by
  obtain ⟨h1, h2, _⟩ := hf.answers
  have h3 := hf.tag
  simp only at h3
  simp only [doPart, h1]
  rw [if_neg (by simp), if_neg (by rw [h3]; simp)]
  exact actAt_sound _ e.req va _ op h2 hf.size

/-- An act on the registers of the device. -/
theorem doPart_dev {relaxed : Bool} {off : Nat}
    (hf : Fit relaxed e.req.cell s { tgt := .dev off, va := va, op := op, val := val, blk := blk, sent := sent }) :
    ∃ v, doPart s e id ix { tgt := .dev off, va := va, op := op, val := val, blk := blk, sent := sent } = (s, .val v) ∧
      ∀ n, op = .read n → v = devRead s off n := by
  have h1 : crossed s (dieOf e.req.cell) 4 e.req.cell (2 ^ 62 + off) = false := hf.answers
  have h2 := hf.plain
  simp only [doPart, h1, Bool.false_eq_true, if_false]
  cases op with
  | read n => exact ⟨_, rfl, fun m h => by simp only [HomeOp.read.injEq] at h; rw [h]⟩
  | write n v => exact absurd h2 (by simp [devWrite])
  | amo o w a b => exact ⟨0, rfl, fun m h => absurd h (by simp)⟩
end

/-- An act that can be performed answers a value. -/
theorem doPart_act {C : Touch} (s : State) (e : Pend) (id ix : Nat) (p : Part) (hc : C.cell e.req.cell)
    (hf : Fit e.relaxed e.req.cell s p) (hl : e.relaxed = false → ∀ x ∈ (s.cell e.req.cell).l1, x.2.dirty = 0#32) :
    Act C e.req.cell (partWrites (!e.relaxed) p) s (doPart s e id ix p).1 ∧
      (e.relaxed = false → ∀ x ∈ ((doPart s e id ix p).1.cell e.req.cell).l1, x.2.dirty = 0#32) ∧
      ∃ v, (doPart s e id ix p).2 = .val v := by
  obtain ⟨tgt, va, op, val, blk, sent⟩ := p
  cases tgt with
  | home loc die =>
    cases hr : e.relaxed with
    | false =>
      rw [hr] at hf
      rw [doPart_home hc hf hr (hl hr)]
      obtain ⟨k1, k2, _⟩ := act_flushRange hc s loc (opBytes op) (hl hr)
      refine ⟨?_, ?_, _, rfl⟩
      · have : partWrites (!false) { tgt := .home loc die, va := va, op := op, val := val, blk := blk, sent := sent } =
            (if writesOf op then some (loc, opBytes op) else none) := by
          simp only [partWrites, storedAt, Bool.not_false, Bool.true_and]
          split <;> simp
        rw [this]
        exact k1.weaken.trans (act_actState C _ _ _ _)
      · intro _ x hx
        rw [cell_congr (actState_cells _ _ _)] at hx
        exact hl hr x (k2 x hx)
    | true =>
      rw [hr] at hf
      have ew : partWrites (!true) { tgt := .home loc die, va := va, op := op, val := val, blk := blk, sent := sent } = none := by
        simp [partWrites, storedAt]
      rw [ew]
      have hs := hf.sound rfl loc die rfl
      cases op with
      | read n =>
        rw [doPart_load hf hr]
        exact ⟨act_l1Load s _ _ _ hc hs, fun h => absurd h (by simp), _, rfl⟩
      | write n v =>
        have : doPart s e id ix { tgt := .home loc die, va := va, op := .write n v, val := val, blk := blk, sent := sent } =
            (l1Store s e.req.cell e.pos loc n v, .val 0) := by simp only [doPart, hr]
        rw [this]
        exact ⟨act_l1Store s _ _ _ _ hc hs, fun h => absurd h (by simp), _, rfl⟩
      | amo o w a b => exact absurd rfl (hf.amo rfl o w a b)
  | scr cell off =>
    rw [doPart_scr hf]
    have : partWrites (!e.relaxed) { tgt := .scr cell off, va := va, op := op, val := val, blk := blk, sent := sent } =
        (if writesOf op then some (locScr cell off, opBytes op) else none) := by
      simp only [partWrites, storedAt]
      split <;> simp
    rw [this]
    refine ⟨act_actState C _ _ _ _, ?_, _, rfl⟩
    intro hr x hx
    rw [cell_congr (actState_cells _ _ _)] at hx
    exact hl hr x hx
  | remote g x => exact absurd hf.answers (by simp [Answers])
  | dev off =>
    obtain ⟨v, h, _⟩ := doPart_dev (id := id) (ix := ix) hf
    rw [h]
    exact ⟨Act.refl _ _ _ _, hl, v, rfl⟩

/-! ### Several acts -/

/-- u is reached from s by acts of parts that `S` admits, each for the cell named, and notes beside them. -/
inductive Run (C : Touch) (relaxed : Bool) (S : Nat → Part → Prop) (s : State) : State → Prop where
  | refl : Run C relaxed S s s
  | part {u : State} (e : Pend) (id ix : Nat) (p : Part) : Run C relaxed S s u → C.cell e.req.cell → e.relaxed = relaxed →
      S e.req.cell p → Run C relaxed S s (doPart u e id ix p).1
  | note {u v : State} : Run C relaxed S s u → Mid C u v → v.mem = u.mem → v.pkg = u.pkg →
      v.cells = u.cells → v.stores = u.stores → v.poison = u.poison → Run C relaxed S s v

theorem Run.trans {C : Touch} {relaxed : Bool} {S : Nat → Part → Prop} {s u v : State} (h : Run C relaxed S s u)
    (k : Run C relaxed S u v) : Run C relaxed S s v := by
  induction k with
  | refl => exact h
  | part e i x p _ a b c ih => exact .part e i x p ih a b c
  | note _ a b c d e f ih => exact .note ih a b c d e f

/-- What a run whose accesses answer keeps. -/
structure Ran (C : Touch) (relaxed : Bool) (S : Nat → Part → Prop) (s u : State) : Prop where
  calm : Calm C s u
  clean : relaxed = false → ∀ c, C.cell c → ∀ e ∈ (u.cell c).l1, e.2.dirty = 0#32
  bytes : ∀ a, (∀ c p, S c p → ∀ l n, partWrites (!relaxed) p = some (l, n) → a < l ∨ l + n ≤ a) → byteAt u a = byteAt s a
  stores : ∀ id, id < s.fresh → tfind u.stores id = tfind s.stores id

/-- The parts that `S` admits can be performed in s. -/
def Sound (relaxed : Bool) (S : Nat → Part → Prop) (s : State) : Prop := ∀ c p, S c p → Fit relaxed c s p

theorem Calm.sound_of {C : Touch} {s u : State} (h : Calm C s u) {relaxed : Bool} {S : Nat → Part → Prop} (k : Sound relaxed S s) :
    Sound relaxed S u := fun c p hp => h.fit (k c p hp)

theorem run_ran {C : Touch} {relaxed : Bool} {S : Nat → Part → Prop} {s u : State} (h : Run C relaxed S s u)
    (hS : Sound relaxed S s) (hl : relaxed = false → ∀ c, C.cell c → ∀ e ∈ (s.cell c).l1, e.2.dirty = 0#32) : Ran C relaxed S s u := by
  induction h with
  | refl => exact ⟨Calm.refl C s, hl, fun _ _ => rfl, fun _ _ => rfl⟩
  | @part u e id ix p _ hc hr hp ih =>
    subst hr
    obtain ⟨k1, k2, _⟩ := doPart_act u e id ix p hc (ih.calm.fit (hS _ _ hp)) fun hr => ih.clean hr _ hc
    refine ⟨ih.calm.trans k1.calm, ?_, ?_, ?_⟩
    · intro hr c hc' x hx
      by_cases hcc : c = e.req.cell
      · subst hcc; exact k2 hr x hx
      · rw [k1.cells c hcc] at hx; exact ih.clean hr c hc' x hx
    · intro a ha
      rw [k1.bytes a (ha _ _ hp), ih.bytes a ha]
    · intro id hid
      rw [k1.stores id (Nat.lt_of_lt_of_le hid ih.calm.mid.fresh), ih.stores id hid]
  | @note u v _ a b c d e f ih =>
    refine ⟨ih.calm.trans (Calm.of_cells a f c fun x => cell_congr d x), ?_, ?_, ?_⟩
    · intro hr x hx y hy
      rw [cell_congr d] at hy; exact ih.clean hr x hx y hy
    · intro x hx
      rw [byteAt_congr b, ih.bytes x hx]
    · intro id hid
      rw [e, ih.stores id hid]

/-! ### Dirty bytes of the L1 -/

/-- Byte a is a dirty byte b of the L1 of cell c. -/
def DirtyByte (s : State) (c a b : Nat) : Prop :=
  ∃ l, tfind (s.cell c).l1 (a / 32) = some l ∧ l.dirty.getLsbD (a % 32) = true ∧ l.held.getLsbD (a % 32) = true ∧
    secGet l.data (a % 32) 1 = b

theorem DirtyByte.congr {s u : State} {c a b : Nat} (h : (u.cell c).l1 = (s.cell c).l1) (k : DirtyByte s c a b) : DirtyByte u c a b := by
  obtain ⟨l, h1, h2⟩ := k
  exact ⟨l, by rw [h]; exact h1, h2⟩

theorem l1Fill_dirty (s : State) (c d pipe sec a b : Nat) (h : DirtyByte s c a b) : DirtyByte (l1Fill s d pipe sec) c a b := by
  obtain ⟨l, h1, h2, h3, h4⟩ := h
  by_cases hcd : c = d
  · subst hcd
    by_cases hs : a / 32 = sec
    · subst hs
      refine ⟨{ l with
        data := secMerge (BitVec.ofNat 256 (rd s (32 * (a / 32)) 32)) l.data l.dirty 32
        held := BitVec.allOnes 32
        filled := s.time
        parts := l.parts ||| onePipe pipe }, ?_, h2, ?_, ?_⟩
      · unfold l1Fill
        simp only [cell_putCell, if_true]
        rw [tfind_tset_self, tget_of_tfind h1]
      · show (BitVec.allOnes 32).getLsbD (a % 32) = true
        rw [BitVec.getLsbD_allOnes]
        simp only [decide_eq_true_eq]
        omega
      · simp only
        rw [secGet_secMerge _ _ _ _ _ (by omega) (Nat.mod_lt _ (by omega)), if_pos ⟨Nat.mod_lt _ (by omega), h2⟩]
        exact h4
    · refine ⟨l, ?_, h2, h3, h4⟩
      unfold l1Fill
      simp only [cell_putCell, if_true]
      rw [tfind_tset_ne _ _ hs]
      exact h1
  · exact DirtyByte.congr (s := s) (by unfold l1Fill; rw [cell_putCell, if_neg hcd]) ⟨l, h1, h2, h3, h4⟩

theorem l1Load_dirty (s : State) (c d pipe loc n a b : Nat) (hs : ∀ l, tfind (s.cell d).l1 (loc / 32) = some l → l.bad = false)
    (h : DirtyByte s c a b) : DirtyByte (l1Load s d pipe loc n).1 c a b := by
  rw [(l1Load_eq s d pipe loc n hs).1]
  split
  · exact h
  · obtain ⟨x, hx⟩ := noteCopy_eq (l1Fill s d pipe (loc / 32)) (dieOf d) (blockIn s d).grid (loc / 32)
    rw [hx]
    exact l1Fill_dirty s c d pipe _ a b h

theorem l1Store_dirty (s : State) (c d pos loc n v a b : Nat) (hb : ∀ l, tfind (s.cell d).l1 (loc / 32) = some l → l.bad = false)
    (h : DirtyByte s c a b) (hn : loc % 32 + n ≤ 32)
    (ho : c = d → a < loc ∨ loc + n ≤ a) : DirtyByte (l1Store s d pos loc n v) c a b := by
  obtain ⟨l, h1, h2, h3, h4⟩ := h
  obtain ⟨l', e, hq, _, _, _, _, d', k1, k2, k3, k4⟩ := l1Store_eq s d pos loc n v hb
  have hcell : ((l1Store s d pos loc n v).cell c).l1 = if c = d then tset (s.cell d).l1 (loc / 32) l' else (s.cell c).l1 := by
    rw [hq]
    show ((putCell s d _).cell c).l1 = _
    rw [cell_putCell]
    split <;> rfl
  by_cases hcd : c = d
  · subst hcd
    rw [if_pos rfl] at hcell
    by_cases hs : a / 32 = loc / 32
    · have hd := k1 l (by rw [← hs]; exact h1)
      subst hd
      have hmine : l1Mine (s.cell c) d' (pipeOf pos) = true := by
        have : d'.dirty ≠ 0#32 := by
          intro h0; rw [h0] at h2; simp at h2
        simp [l1Mine, this]
      refine ⟨l', ?_, ?_, ?_, ?_⟩
      · rw [hcell, hs, tfind_tset_self]
      · rw [k4, BitVec.getLsbD_or, h2]; rfl
      · rw [k3, hmine, if_pos rfl, BitVec.getLsbD_or, h3]; rfl
      · rw [k2, secGet_secPut_out _ _ _ _ _ hn (Nat.mod_lt _ (by omega)) (by rcases ho rfl with h | h <;> omega)]
        exact h4
    · exact ⟨l, by rw [hcell, tfind_tset_ne _ _ hs]; exact h1, h2, h3, h4⟩
  · rw [if_neg hcd] at hcell
    exact DirtyByte.congr hcell ⟨l, h1, h2, h3, h4⟩

theorem l1Store_makes (s : State) (c pos loc n v i : Nat) (hb : ∀ l, tfind (s.cell c).l1 (loc / 32) = some l → l.bad = false)
    (hn : loc % 32 + n ≤ 32) (hi : i < n) :
    DirtyByte (l1Store s c pos loc n v) c (loc + i) (field v (8 * i) 8) := by
  obtain ⟨l', e, hq, _, _, _, _, d', k1, k2, k3, k4⟩ := l1Store_eq s c pos loc n v hb
  have e1 : (loc + i) / 32 = loc / 32 := by omega
  have e2 : (loc + i) % 32 = loc % 32 + i := by omega
  refine ⟨l', ?_, ?_, ?_, ?_⟩
  · rw [hq, e1]
    show tfind ((putCell s c _).cell c).l1 _ = _
    rw [cell_putCell, if_pos rfl, tfind_tset_self]
  · rw [k4, BitVec.getLsbD_or, e2, getLsbD_byteMask _ _ _ (by omega)]
    simp; omega
  · rw [k3, BitVec.getLsbD_or, e2, getLsbD_byteMask _ _ _ (by omega)]
    simp; omega
  · rw [k2, e2, secGet_secPut_in _ _ _ _ _ hn hi]

/-- A dirty byte stays while no store of its cell covers it. -/
theorem run_dirty {C : Touch} {S : Nat → Part → Prop} {s u : State} (h : Run C true S s u) (hS : Sound true S s)
    {c a b : Nat} (hd : DirtyByte s c a b)
    (ho : ∀ p, S c p → ∀ loc die n v, p.tgt = .home loc die → p.op = .write n v → a < loc ∨ loc + n ≤ a)
    (hn : ∀ d p, S d p → ∀ loc die n v, p.tgt = .home loc die → p.op = .write n v → loc % 32 + n ≤ 32) : DirtyByte u c a b := by
  induction h with
  | refl => exact hd
  | @part u e id ix p hr hc hx hp ih =>
    have hf := (run_ran hr hS (by simp)).calm.fit (hS _ _ hp)
    obtain ⟨tgt, va, op, val, blk, sent⟩ := p
    cases tgt with
    | home loc die =>
      have hs := hf.sound rfl loc die rfl
      cases op with
      | read n =>
        rw [doPart_load hf hx]
        exact l1Load_dirty u c e.req.cell _ loc n a b hs ih
      | write n v =>
        have : doPart u e id ix { tgt := .home loc die, va := va, op := .write n v, val := val, blk := blk, sent := sent } =
            (l1Store u e.req.cell e.pos loc n v, .val 0) := by simp only [doPart, hx]
        rw [this]
        exact l1Store_dirty u c e.req.cell e.pos loc n v a b hs ih (hn _ _ hp loc die n v rfl rfl)
          fun h => ho _ (h ▸ hp) loc die n v rfl rfl
      | amo o w x y => exact absurd rfl (hf.amo rfl o w x y)
    | scr cell off =>
      rw [doPart_scr hf]
      exact DirtyByte.congr (by rw [cell_congr (actState_cells _ _ _)]) ih
    | remote g x => exact absurd hf.answers (by simp [Answers])
    | dev off =>
      obtain ⟨v, h, _⟩ := doPart_dev (id := id) (ix := ix) hf
      rw [h]
      exact ih
  | @note u v _ a1 b1 c1 e1 f1 g1 ih => exact DirtyByte.congr (by rw [cell_congr e1]) ih

/-! ### Relaxed loads -/

/-- How a cell's L1 stands to what it was before some relaxed loads: sectors as they were, or filled (R108). -/
def Filled (s u : State) (c sec : Nat) : Prop :=
  tfind (u.cell c).l1 sec = tfind (s.cell c).l1 sec ∨
    ∃ l', tfind (u.cell c).l1 sec = some l' ∧ ∀ j, j < 32 → secGet l'.data j 1 =
      (match tfind (s.cell c).l1 sec with
      | some l => if l.dirty.getLsbD j = true then secGet l.data j 1 else (byteAt s (32 * sec + j)).toNat
      | none => (byteAt s (32 * sec + j)).toNat) ∧
      (match tfind (s.cell c).l1 sec with | some l => l'.dirty = l.dirty | none => l'.dirty = 0#32)

theorem field_rd (s : State) (a n j : Nat) (hj : j < n) : field (rd s a n) (8 * j) 8 = (byteAt s (a + j)).toNat := by
  unfold field rd byteAt
  induction n generalizing a j with
  | zero => omega
  | succ n ih =>
    simp only [memRead]
    have hb := (memGet s.mem a).isLt
    cases j with
    | zero => simp; omega
    | succ j =>
      rw [show a + (j + 1) = a + 1 + j by omega, ← ih (a + 1) j (by omega)]
      rw [show 2 ^ (8 * (j + 1)) = 256 * 2 ^ (8 * j) by rw [show 8 * (j + 1) = 8 * j + 8 by omega, Nat.pow_add]; omega]
      rw [← Nat.div_div_eq_div_mul]
      congr 2
      omega

theorem secGet_home (s : State) (sec j : Nat) (hj : j < 32) :
    secGet (BitVec.ofNat 256 (rd s (32 * sec) 32)) j 1 = (byteAt s (32 * sec + j)).toNat := by
  have h := field_rd s (32 * sec) 32 j hj
  unfold field at h
  unfold secGet
  have hlt : rd s (32 * sec) 32 < 2 ^ 256 := by
    have := memRead_lt s.mem (32 * sec) 32
    have e : (256 : Nat) ^ 32 = 2 ^ 256 := by decide
    rw [e] at this
    exact this
  rw [BitVec.toNat_ofNat, Nat.mod_eq_of_lt hlt]
  exact h

/-- A sector just filled: the dirty bytes from before, the others from the home. -/
theorem l1Fill_right (s u : State) (c k : Nat) (hm : u.mem = s.mem) (pipe : Nat) (h : Filled s u c k) :
    ∃ l', tfind ((l1Fill u c pipe k).cell c).l1 k = some l' ∧ ∀ j, j < 32 → secGet l'.data j 1 =
      (match tfind (s.cell c).l1 k with
      | some l => if l.dirty.getLsbD j = true then secGet l.data j 1 else (byteAt s (32 * k + j)).toNat
      | none => (byteAt s (32 * k + j)).toNat) ∧
      (match tfind (s.cell c).l1 k with | some l => l'.dirty = l.dirty | none => l'.dirty = 0#32) := by
  have e : tfind ((l1Fill u c pipe k).cell c).l1 k = some
      { (tget { data := BitVec.ofNat 256 (rd u (32 * k) 32), held := 0#32, dirty := 0#32, filled := u.time, grid := 0, parts := 0#16 } (u.cell c).l1 k) with
        data := secMerge (BitVec.ofNat 256 (rd u (32 * k) 32))
          (tget { data := BitVec.ofNat 256 (rd u (32 * k) 32), held := 0#32, dirty := 0#32, filled := u.time, grid := 0, parts := 0#16 } (u.cell c).l1 k).data
          (tget { data := BitVec.ofNat 256 (rd u (32 * k) 32), held := 0#32, dirty := 0#32, filled := u.time, grid := 0, parts := 0#16 } (u.cell c).l1 k).dirty 32
        held := BitVec.allOnes 32
        filled := u.time
        parts := (tget { data := BitVec.ofNat 256 (rd u (32 * k) 32), held := 0#32, dirty := 0#32, filled := u.time, grid := 0, parts := 0#16 } (u.cell c).l1 k).parts ||| onePipe pipe } := by
    unfold l1Fill
    simp only [cell_putCell, if_true]
    rw [tfind_tset_self]
  refine ⟨_, e, ?_⟩
  intro j hj
  have hb : ∀ a, byteAt u a = byteAt s a := fun a => byteAt_congr hm a
  have key : ∀ (l : L1Sector), secGet (secMerge (BitVec.ofNat 256 (rd u (32 * k) 32)) l.data l.dirty 32) j 1 =
      if l.dirty.getLsbD j = true then secGet l.data j 1 else (byteAt s (32 * k + j)).toNat := by
    intro l
    rw [secGet_secMerge _ _ _ _ _ (by omega) hj, secGet_home u k j hj, hb]
    by_cases hd : l.dirty.getLsbD j = true
    · rw [if_pos ⟨hj, hd⟩, if_pos hd]
    · rw [if_neg (fun h => hd h.2), if_neg hd]
  rcases h with h | ⟨l', h1, h2⟩
  · cases ht : tfind (s.cell c).l1 k with
    | none =>
      rw [ht] at h
      have : ∀ (x : L1Sector), tget x (u.cell c).l1 k = x := by
        intro x
        revert h
        generalize (u.cell c).l1 = t
        induction t with
        | nil => intro _; rfl
        | cons y r ih =>
          obtain ⟨i, w⟩ := y
          simp only [tfind, tget]
          split
          · intro h; exact absurd h (by simp)
          · exact ih
      simp only [this]
      refine ⟨?_, trivial⟩
      have := key { data := BitVec.ofNat 256 (rd u (32 * k) 32), held := 0#32, dirty := 0#32, filled := u.time, grid := 0, parts := 0#16 }
      simpa using this
    | some l =>
      rw [ht] at h
      simp only [tget_of_tfind h]
      exact ⟨key l, by simp⟩
  · simp only [tget_of_tfind h1]
    obtain ⟨q1, q2⟩ := h2 j hj
    rw [key l', q1]
    cases ht : tfind (s.cell c).l1 k with
    | none =>
      simp only [ht] at q1 q2 ⊢
      rw [q2]
      simp
    | some l =>
      simp only [ht] at q1 q2 ⊢
      rw [q2]
      refine ⟨?_, rfl⟩
      split <;> rfl

theorem l1Fill_filled (s u : State) (c d pipe sec k : Nat) (hm : u.mem = s.mem) (h : Filled s u c k) :
    Filled s (l1Fill u d pipe sec) c k := by
  by_cases hcd : c = d
  · subst hcd
    by_cases hs : k = sec
    · subst hs
      exact Or.inr (l1Fill_right s u c k hm pipe h)
    · have e : tfind ((l1Fill u c pipe sec).cell c).l1 k = tfind (u.cell c).l1 k := by
        unfold l1Fill
        simp only [cell_putCell, if_true]
        rw [tfind_tset_ne _ _ hs]
      unfold Filled
      rw [e]; exact h
  · have e : ((l1Fill u d pipe sec).cell c).l1 = (u.cell c).l1 := by unfold l1Fill; rw [cell_putCell, if_neg hcd]
    unfold Filled
    rw [e]; exact h

theorem l1Load_filled (s u : State) (c d pipe loc n k : Nat) (hs : ∀ l, tfind (u.cell d).l1 (loc / 32) = some l → l.bad = false)
    (hm : u.mem = s.mem) (h : Filled s u c k) : Filled s (l1Load u d pipe loc n).1 c k ∧ (l1Load u d pipe loc n).1.mem = u.mem := by
  rw [(l1Load_eq u d pipe loc n hs).1]
  split
  · exact ⟨h, rfl⟩
  · obtain ⟨x, hx⟩ := noteCopy_eq (l1Fill u d pipe (loc / 32)) (dieOf d) (blockIn u d).grid (loc / 32)
    rw [hx]
    exact ⟨l1Fill_filled s u c d pipe _ k hm h, rfl⟩

/-- What relaxed loads leave: the memory, and every L1 as it was or with sectors filled. -/
theorem run_reads {C : Touch} {S : Nat → Part → Prop} {s u : State} (h : Run C true S s u) (hS : Sound true S s)
    (hr : ∀ c p, S c p → ∃ n, p.op = .read n) : u.mem = s.mem ∧ ∀ c k, Filled s u c k := by
  induction h with
  | refl => exact ⟨rfl, fun _ _ => Or.inl rfl⟩
  | @part u e id ix p hrun hc hx hp ih =>
    have hf := (run_ran hrun hS (by simp)).calm.fit (hS _ _ hp)
    obtain ⟨n, hop⟩ := hr _ _ hp
    obtain ⟨tgt, va, op, val, blk, sent⟩ := p
    simp only at hop
    subst hop
    cases tgt with
    | home loc die =>
      have hs := hf.sound rfl loc die rfl
      rw [doPart_load hf hx]
      have k := fun c k => l1Load_filled s u c e.req.cell (pipeOf e.pos) loc n k hs ih.1 (ih.2 c k)
      exact ⟨by rw [(k 0 0).2]; exact ih.1, fun c i => (k c i).1⟩
    | scr cell off =>
      rw [doPart_scr hf]
      exact ih
    | remote g x => exact absurd hf.answers (by simp [Answers])
    | dev off =>
      obtain ⟨v, h, _⟩ := doPart_dev (id := id) (ix := ix) hf
      rw [h]
      exact ih
  | @note u v _ a1 b1 c1 e1 f1 g1 ih =>
    exact ⟨by rw [b1]; exact ih.1, fun c k => by unfold Filled; rw [cell_congr e1]; exact ih.2 c k⟩

/-- What a relaxed load reads, byte by byte. -/
theorem l1Load_maySee (s u : State) (c pipe loc n : Nat) (hn : loc % 32 + n ≤ 32) (hm : u.mem = s.mem) (ht : u.time = s.time)
    (hs : ∀ l, tfind (u.cell c).l1 (loc / 32) = some l → l.bad = false)
    (h : Filled s u c (loc / 32)) (i : Nat) (hi : i < n) : MaySee s c (loc + i) (field (l1Load u c pipe loc n).2 (8 * i) 8) := by
  have e1 : (loc + i) / 32 = loc / 32 := by omega
  have e2 : (loc + i) % 32 = loc % 32 + i := by omega
  have e3 : 32 * (loc / 32) + (loc % 32 + i) = loc + i := by omega
  have filled : ∀ l' : L1Sector, (∀ j, j < 32 → secGet l'.data j 1 =
      (match tfind (s.cell c).l1 (loc / 32) with
      | some l => if l.dirty.getLsbD j = true then secGet l.data j 1 else (byteAt s (32 * (loc / 32) + j)).toNat
      | none => (byteAt s (32 * (loc / 32) + j)).toNat)) → MaySee s c (loc + i) (secGet l'.data (loc % 32 + i) 1) := by
    intro l' hl'
    have key := hl' (loc % 32 + i) (by omega)
    rw [e3] at key
    unfold MaySee
    rw [e1, e2]
    cases hs : tfind (s.cell c).l1 (loc / 32) with
    | none => rw [hs] at key; exact key
    | some l =>
      rw [hs] at key
      simp only at key ⊢
      by_cases hd : l.dirty.getLsbD (loc % 32 + i) = true
      · rw [if_pos hd] at key ⊢; exact key
      · rw [if_neg hd] at key ⊢; exact Or.inl key
  obtain ⟨q1, q2⟩ := l1Load_eq u c pipe loc n hs
  rw [q2, q1]
  by_cases hit : l1Hit u c pipe loc n = true
  · rw [if_pos hit]
    unfold l1Hit at hit
    cases hl : tfind (u.cell c).l1 (loc / 32) with
    | none => rw [hl] at hit; exact absurd hit (by simp)
    | some l =>
      rw [hl] at hit
      simp only [Bool.and_eq_true] at hit
      have hserve := hit.1.2
      simp only
      rw [secGet_byte _ _ _ _ hi]
      rcases h with h | ⟨l', q1, q2⟩
      · rw [hl] at h
        unfold MaySee
        rw [e1, e2, ← h]
        simp only
        by_cases hd : l.dirty.getLsbD (loc % 32 + i) = true
        · rw [if_pos hd]; trivial
        · rw [if_neg hd]
          right
          unfold l1Serves at hserve
          simp only [Bool.and_eq_true, Bool.or_eq_true, decide_eq_true_eq] at hserve
          refine ⟨mask_within hserve.1 hn hi, ?_, by simp⟩
          rcases hserve.2 with k | k
          · exact absurd (mask_within k hn hi) hd
          · rw [← ht]; exact k
      · rw [hl] at q1
        simp only [Option.some.injEq] at q1
        subst q1
        exact filled l fun j hj => (q2 j hj).1
  · rw [if_neg hit]
    obtain ⟨x, hx⟩ := noteCopy_eq (l1Fill u c pipe (loc / 32)) (dieOf c) (blockIn u c).grid (loc / 32)
    rw [hx]
    obtain ⟨l', q1, q2⟩ := l1Fill_right s u c (loc / 32) hm pipe h
    have q1' : tfind (((l1Fill u c pipe (loc / 32)).setCopies x).cell c).l1 (loc / 32) = some l' := q1
    rw [q1']
    simp only
    rw [secGet_byte _ _ _ _ hi]
    exact filled l' fun j hj => (q2 j hj).1

end Sys2Proof.Machine
end

