-- ==== Sys2Proof/Laws/MemForms.lean ====
section
/-!
SUPPORT. Laws of memory forms: the acts of a lane and of all lanes, the checks of stage 4, and that a memory form which passes them completes
as `CompletesMem` of Sys2Proof/Safety.lean says.
-/
namespace Sys2Proof.Machine

open Sys2Proof

/-! ### The parts of a lane -/

/-- Every act that might come before an act of the work e, numbered id, has been performed. -/
def NoneBefore (s : State) (e : Pend) (id : Nat) : Prop :=
  ∀ f ∈ s.pend, f.1 < id → (f.2.pos = e.pos ∨ e.first ≤ f.1) → ∀ q ∈ f.2.parts, q.val.isSome = true

theorem isSome_isNone {α : Type} {o : Option α} (h : o.isSome = true) : o.isNone = false := by cases o <;> simp_all

/-- Nothing holds an act that can be performed when its instruction issues. -/
theorem heldPart_fit {s : State} {e : Pend} {id : Nat} {prev : List Part} {p : Part} (hf : Fit e.relaxed e.req.cell s p)
    (hq : NoneBefore s e id) (hp : ∀ q ∈ prev, q.val.isSome = true) : heldPart s true e id prev p = false := by
  have h1 : comesAfter s e id prev p = false := by
    unfold comesAfter
    rw [Bool.or_eq_false_iff, List.any_eq_false, List.any_eq_false]
    refine ⟨fun q hm => by simp [isSome_isNone (hp q hm)], fun f hm => ?_⟩
    by_cases hc : f.1 < id ∧ (f.2.pos = e.pos ∨ e.first ≤ f.1)
    · have : f.2.parts.any (fun q => q.val.isNone && ((e.dev && f.2.dev) || overlap p q)) = false := by
        rw [List.any_eq_false]
        intro q hm'
        simp [isSome_isNone (hq f hm hc.1 hc.2 q hm')]
      simp [this]
    · simp only [Bool.and_eq_true, decide_eq_true_eq, not_and]
      exact fun h => absurd h hc
  unfold heldPart
  rw [h1, Bool.false_or]
  have h2 := hf.answers
  have h3 := hf.plain
  have h4 := hf.host
  have h5 := hf.free
  obtain ⟨tgt, va, op, val, blk, sent⟩ := p
  cases tgt with
  | home loc die =>
    simp only
    rw [Bool.or_eq_false_iff]
    constructor
    · cases hr : e.relaxed with
      | false => rfl
      | true => rw [h5 hr]; rfl
    · by_cases hd : die = 4
      · rw [h4 (by simp [isHost, hd])]; simp
      · simp [hd]
  | scr cell off =>
    simp only [decide_eq_false_iff_not]
    rintro ⟨a, b⟩
    rcases h2.2.2 with h | h
    · exact a h
    · exact b h
  | remote g x => exact absurd h2 (by simp [Answers])
  | dev off =>
    cases op with
    | write n v => exact absurd h3 (by simp [devWrite])
    | read n => rfl
    | amo o w a b => rfl

/-- One act that can be performed. -/
theorem onePart_fit {C : Touch} {s : State} {e : Pend} {id : Nat} {prev : List Part} {p : Part} (hc : C.cell e.req.cell)
    (hf : Fit e.relaxed e.req.cell s p) (hl : e.relaxed = false → ∀ x ∈ (s.cell e.req.cell).l1, x.2.dirty = 0#32)
    (hq : NoneBefore s e id) (hp : ∀ q ∈ prev, q.val.isSome = true) :
    ∃ v, (doPart s e id prev.length p).2 = .val v ∧
      onePart s true e id prev p = ((doPart s e id prev.length p).1, { p with val := some v }, none) := by
  obtain ⟨_, _, v, hv⟩ := doPart_act (C := C) s e id prev.length p hc hf hl
  refine ⟨v, hv, ?_⟩
  unfold onePart
  rw [heldPart_fit hf hq hp, hf.undone.1, hf.undone.2]
  simp only [Option.isSome_none, Bool.or_self, Bool.false_eq_true, if_false]
  generalize doPart s e id prev.length p = x at hv ⊢
  obtain ⟨t, d⟩ := x
  simp only at hv
  subst hv
  rfl

theorem noneBefore_congr {s u : State} (h : u.pend = s.pend) {e : Pend} {id : Nat} (k : NoneBefore s e id) : NoneBefore u e id := by
  unfold NoneBefore
  rw [h]
  exact k

/-- All the acts of a lane, where each can be performed. -/
theorem doParts_fit {C : Touch} {S : Nat → Part → Prop} (e : Pend) (id : Nat) (hc : C.cell e.req.cell) (l : List Part)
    (hS : ∀ p ∈ l, S e.req.cell p) (prev : List Part) (hp : ∀ q ∈ prev, q.val.isSome = true) (s : State)
    (hso : Sound e.relaxed S s) (hl : e.relaxed = false → ∀ c, C.cell c → ∀ x ∈ (s.cell c).l1, x.2.dirty = 0#32)
    (hq : NoneBefore s e id) :
    Run C e.relaxed S s (doParts s true e id prev l).1 ∧ (doParts s true e id prev l).2.2 = none ∧
      ∀ q ∈ (doParts s true e id prev l).2.1, q.val.isSome = true := by
  induction l generalizing prev s with
  | nil => exact ⟨.refl, rfl, fun q h => absurd h (by simp [doParts])⟩
  | cons p rest ih =>
    have hpS := hS p List.mem_cons_self
    have hf := hso _ _ hpS
    obtain ⟨v, hv, h1⟩ := onePart_fit hc hf (fun hr => hl hr _ hc) hq hp
    have hrun : Run C e.relaxed S s (doPart s e id prev.length p).1 := .part e id _ p .refl hc rfl hpS
    have hran := run_ran hrun hso hl
    obtain ⟨ha, _, _⟩ := doPart_act (C := C) s e id prev.length p hc hf fun hr => hl hr _ hc
    obtain ⟨k1, k2, k3⟩ := ih (fun q h => hS q (List.mem_cons_of_mem _ h)) (prev ++ [{ p with val := some v }])
      (by intro q hq'; rcases List.mem_append.1 hq' with h | h
          · exact hp q h
          · rw [List.mem_singleton.1 h]; rfl)
      (doPart s e id prev.length p).1 (hran.calm.sound_of hso) hran.clean (noneBefore_congr ha.pend hq)
    unfold doParts
    simp only [h1]
    refine ⟨hrun.trans k1, ?_, ?_⟩
    · rw [k2]; rfl
    · intro q hq'
      rcases List.mem_cons.1 hq' with h | h
      · rw [h]; rfl
      · exact k3 q h

/-- The act of part k: the states before and after it, and the value that it records. -/
theorem doParts_at {C : Touch} {S : Nat → Part → Prop} (e : Pend) (id : Nat) (hc : C.cell e.req.cell) (l : List Part) (k : Nat) (p : Part)
    (hk : l[k]? = some p) (hS : ∀ j q, l[j]? = some q → j ≠ k → S e.req.cell q)
    (prev : List Part) (hp : ∀ q ∈ prev, q.val.isSome = true) (s : State)
    (hso : Sound e.relaxed S s) (hfp : Fit e.relaxed e.req.cell s p)
    (hl : e.relaxed = false → ∀ c, C.cell c → ∀ x ∈ (s.cell c).l1, x.2.dirty = 0#32) (hq : NoneBefore s e id) :
    ∃ u ix v q, Run C e.relaxed S s u ∧ Run C e.relaxed S (doPart u e id ix p).1 (doParts s true e id prev l).1 ∧
      (doPart u e id ix p).2 = .val v ∧ (doParts s true e id prev l).2.1[k]? = some q ∧ q.val = some v ∧
      (doParts s true e id prev l).2.2 = none ∧ (∀ q ∈ (doParts s true e id prev l).2.1, q.val.isSome = true) := by
  induction l generalizing prev s k with
  | nil => simp at hk
  | cons a rest ih =>
    cases k with
    | zero =>
      simp only [List.getElem?_cons_zero, Option.some.injEq] at hk
      subst hk
      have hrest : ∀ q ∈ rest, S e.req.cell q := by
        intro q hq
        obtain ⟨j, hj, he⟩ := List.mem_iff_getElem.1 hq
        exact hS (j + 1) q (by rw [List.getElem?_cons_succ, List.getElem?_eq_getElem hj, he]) (by omega)
      obtain ⟨v, hv, h1⟩ := onePart_fit hc hfp (fun hr => hl hr _ hc) hq hp
      obtain ⟨ha, hcl, _⟩ := doPart_act (C := C) s e id prev.length a hc hfp fun hr => hl hr _ hc
      obtain ⟨k1, k2, k3⟩ := doParts_fit (C := C) (S := S) e id hc rest hrest (prev ++ [{ a with val := some v }])
        (by intro q hq'; rcases List.mem_append.1 hq' with h | h
            · exact hp q h
            · rw [List.mem_singleton.1 h]; rfl)
        (doPart s e id prev.length a).1 (ha.calm.sound_of hso)
        (by intro hr c hc' x hx
            by_cases hcc : c = e.req.cell
            · subst hcc; exact hcl hr x hx
            · rw [ha.cells c hcc] at hx; exact hl hr c hc' x hx)
        (noneBefore_congr ha.pend hq)
      unfold doParts
      simp only [h1]
      refine ⟨s, prev.length, v, { a with val := some v }, .refl, k1, hv, by simp, rfl, by rw [k2]; rfl, ?_⟩
      intro q hq'
      rcases List.mem_cons.1 hq' with h | h
      · rw [h]; rfl
      · exact k3 q h
    | succ k =>
      simp only [List.getElem?_cons_succ] at hk
      have haS : S e.req.cell a := hS 0 a (by simp) (by omega)
      have hf := hso _ _ haS
      obtain ⟨v, hv, h1⟩ := onePart_fit hc hf (fun hr => hl hr _ hc) hq hp
      have hrun : Run C e.relaxed S s (doPart s e id prev.length a).1 := .part e id _ a .refl hc rfl haS
      have hran := run_ran hrun hso hl
      obtain ⟨ha, _, _⟩ := doPart_act (C := C) s e id prev.length a hc hf fun hr => hl hr _ hc
      obtain ⟨u, ix, w, q, b1, b2, b3, b4, b5, b6, b7⟩ := ih k hk (fun j q hj hne => hS (j + 1) q (by simpa using hj) (by omega))
        (prev ++ [{ a with val := some v }])
        (by intro q hq'; rcases List.mem_append.1 hq' with h | h
            · exact hp q h
            · rw [List.mem_singleton.1 h]; rfl)
        (doPart s e id prev.length a).1 (hran.calm.sound_of hso) (hran.calm.fit hfp) hran.clean (noneBefore_congr ha.pend hq)
      unfold doParts
      simp only [h1]
      refine ⟨u, ix, w, q, hrun.trans b1, b2, b3, by simpa using b4, b5, by rw [b6]; rfl, ?_⟩
      intro q hq'
      rcases List.mem_cons.1 hq' with h | h
      · rw [h]; rfl
      · exact b7 q h

/-! ### What acts record, whether they can be performed or not -/

/-- A part keeps its target and its act. -/
theorem onePart_same (s : State) (b : Bool) (e : Pend) (id : Nat) (prev : List Part) (p : Part) :
    (onePart s b e id prev p).2.1.tgt = p.tgt ∧ (onePart s b e id prev p).2.1.va = p.va ∧ (onePart s b e id prev p).2.1.op = p.op := by
  unfold onePart
  split
  · exact ⟨rfl, rfl, rfl⟩
  · generalize doPart s e id prev.length p = x
    obtain ⟨t, d⟩ := x
    cases d <;> exact ⟨rfl, rfl, rfl⟩

theorem doParts_same (b : Bool) (e : Pend) (id : Nat) (l prev : List Part) (s : State) :
    (doParts s b e id prev l).2.1.map (fun q => (q.tgt, q.va, q.op)) = l.map (fun q => (q.tgt, q.va, q.op)) := by
  induction l generalizing prev s with
  | nil => rfl
  | cons p rest ih =>
    obtain ⟨h1, h2, h3⟩ := onePart_same s b e id prev p
    unfold doParts
    simp only [List.map_cons, ih, h1, h2, h3]

/-- An act on another package stays to be performed, or leaves a mark. -/
theorem onePart_remote (s : State) (b : Bool) (e : Pend) (id : Nat) (prev : List Part) (p : Part) {g x : Nat} (ht : p.tgt = .remote g x)
    (hv : p.val = none) : (onePart s b e id prev p).2.1.val = none ∨ (onePart s b e id prev p).2.2.isSome = true := by
  unfold onePart
  split
  · exact Or.inl hv
  · have : ∀ y, (doPart s e id prev.length p).2 = y → y = .sent ∨ ∃ c, y = .bad c := by
      intro y hy
      rw [← hy]
      unfold doPart
      simp only [ht]
      split
      · exact Or.inl rfl
      · exact Or.inr ⟨_, rfl⟩
    generalize doPart s e id prev.length p = z at this
    obtain ⟨t, d⟩ := z
    rcases this d rfl with h | ⟨c, h⟩
    · subst h; exact Or.inl hv
    · subst h; exact Or.inr rfl

theorem doParts_remote (b : Bool) (e : Pend) (id : Nat) (l prev : List Part) (s : State) (k : Nat) (p q : Part) (hk : l[k]? = some p)
    {g x : Nat} (ht : p.tgt = .remote g x) (hv : p.val = none) (hq : (doParts s b e id prev l).2.1[k]? = some q) :
    q.val = none ∨ (doParts s b e id prev l).2.2.isSome = true := by
  induction l generalizing prev s k with
  | nil => simp at hk
  | cons a rest ih =>
    unfold doParts at hq ⊢
    simp only at hq ⊢
    cases k with
    | zero =>
      simp only [List.getElem?_cons_zero, Option.some.injEq] at hk hq
      subst hk; subst hq
      rcases onePart_remote s b e id prev a ht hv with h | h
      · exact Or.inl h
      · right
        rw [Option.isSome_iff_exists] at h
        obtain ⟨m, hm⟩ := h
        rw [hm]; rfl
    | succ k =>
      simp only [List.getElem?_cons_succ] at hk hq
      rcases ih _ _ k hk hq with h | h
      · exact Or.inl h
      · right
        cases (onePart s b e id prev a).2.2 with
        | none => exact h
        | some m => rfl

/-- A write to a register of the device stays to be performed when its instruction issues. -/
theorem doParts_dev (e : Pend) (id : Nat) (l prev : List Part) (s : State) (k : Nat) (p : Part) (hk : l[k]? = some p)
    (hd : devWrite p.tgt p.op = true) (hv : p.val = none) :
    ∃ q, (doParts s true e id prev l).2.1[k]? = some q ∧ q.tgt = p.tgt ∧ q.op = p.op ∧ q.val = none := by
  induction l generalizing prev s k with
  | nil => simp at hk
  | cons a rest ih =>
    unfold doParts
    simp only
    cases k with
    | zero =>
      simp only [List.getElem?_cons_zero, Option.some.injEq] at hk
      subst hk
      refine ⟨a, ?_, rfl, rfl, hv⟩
      have : heldPart s true e id prev a = true := by
        unfold heldPart
        revert hd
        obtain ⟨tgt, va, op, val, blk, sent⟩ := a
        cases tgt <;> cases op <;> simp [devWrite]
      unfold onePart
      rw [this]
      simp
    | succ k =>
      simp only [List.getElem?_cons_succ] at hk ⊢
      exact ih _ _ k hk

theorem doParts_pend (b : Bool) (e : Pend) (id : Nat) (l prev : List Part) (s : State) :
    s.fresh ≤ (doParts s b e id prev l).1.fresh ∧ (doParts s b e id prev l).1.pend = s.pend := by
  have h := mid_doParts (C := { cell := fun _ => True, pend := fun _ => True, whole := True, fences := True }) b e id trivial l prev s
  exact ⟨h.fresh, h.whole trivial⟩

/-! ### The accesses of a lane, and of all lanes -/

theorem noteAcq_eq (s : State) (p id : Nat) (o : Option Scope) :
    (noteAcq s p id o).pend = s.pend ∧ (noteAcq s p id o).fresh = s.fresh ∧ (noteAcq s p id o).agenda = s.agenda := by
  unfold noteAcq
  split
  · exact ⟨rfl, rfl, rfl⟩
  · split <;> exact ⟨rfl, rfl, rfl⟩

theorem mid_noteAcq {C : Touch} (s : State) (p id : Nat) (o : Option Scope) (hf : o.isSome = true → C.fences) : Mid C s (noteAcq s p id o) := by
  unfold noteAcq
  split
  · exact Mid.refl C s
  · split
    · constructor <;> first
        | rfl
        | (intro q
           rw [str_modStr]
           split
           · rename_i h; subst h; rfl
           · rfl)
        | (intro h; exact absurd (hf rfl) h)
        | (intros; rfl)
        | exact Nat.le_refl _
        | exact fun _ h => h
    · exact Mid.refl C s

theorem noteAcq_run {C : Touch} {relaxed : Bool} {S : Nat → Part → Prop} (s : State) (p id : Nat) (o : Option Scope)
    (hf : o.isSome = true → C.fences) : Run C relaxed S s (noteAcq s p id o) := by
  have hm := mid_noteAcq (C := C) s p id o hf
  unfold noteAcq at *
  split
  · exact .refl
  · split
    · rename_i h
      rw [if_pos h] at hm
      exact .note .refl hm rfl rfl rfl rfl rfl
    · exact .refl

theorem mid_setPend {C : Touch} (s : State) (l : Tab Pend) (h : ∀ id, C.pend id → tfind l id = tfind s.pend id) (hw : ¬C.whole) :
    Mid C s (s.setPend l) := by
  constructor <;> first
    | rfl
    | exact h
    | exact fun k => absurd k hw
    | exact fun _ h => h
    | (intros; rfl)
    | exact Nat.le_refl _

theorem mid_storeDone {C : Touch} (s : State) (e : Pend) (m : Option Mark) (hc : C.cell e.req.cell) : Mid C s (storeDone s e m) := by
  unfold storeDone
  split
  · split
    · exact Mid.refl C s
    · exact mid_postFor s _ hc
  · exact Mid.refl C s

theorem mid_startWork {C : Touch} (s : State) (e : Pend) (hc : C.cell e.req.cell) (hp : ∀ id, C.pend id → id < s.fresh)
    (hw : ¬C.whole) : Mid C s (startWork s e) := by
  have h1 := (mid_takeFresh C s).trans (mid_doParts (C := C) true e s.fresh hc e.parts [] (takeFresh s))
  have hpend := (doParts_pend true e s.fresh e.parts [] (takeFresh s)).2
  unfold startWork
  simp only
  generalize doParts (takeFresh s) true e s.fresh [] e.parts = d at h1 hpend ⊢
  obtain ⟨s1, ps, b⟩ := d
  simp only at h1 hpend ⊢
  split
  · exact h1.trans (mid_storeDone s1 e b hc)
  · have h2 : ∀ x, Mid C s1 (s1.setPend (tset s1.pend s.fresh x)) := fun x =>
      mid_setPend s1 _ (fun id hid => tfind_tset_ne _ _ (by have := hp id hid; omega)) hw
    split
    · exact (h1.trans (h2 _)).trans (mid_setAgenda C _ _ fun x hx => List.mem_append_left _ hx)
    · exact h1.trans (h2 _)

theorem mid_memLane {C : Touch} (m : MemSpec) (src u : State) (p : Nat) (hc : C.cell (cellOf p))
    (hf : m.acq.isSome = true → C.fences) (hp : ∀ id, C.pend id → id < u.fresh) (hw : ¬C.whole) : Mid C u (memLane m src u p) :=
  (mid_startWork u (memPend m src u src.fresh p) hc hp hw).trans (mid_noteAcq _ _ _ _ hf)

theorem mid_memLanes {C : Touch} (m : MemSpec) (src : State) (ls : List Nat) (u : State) (hc : ∀ p ∈ ls, C.cell (cellOf p))
    (hf : m.acq.isSome = true → C.fences) (hp : ∀ id, C.pend id → id < u.fresh) (hw : ¬C.whole) :
    Mid C u (ls.foldl (memLane m src) u) := by
  induction ls generalizing u with
  | nil => exact Mid.refl C u
  | cons p r ih =>
    have h1 := mid_memLane m src u p (hc p List.mem_cons_self) hf hp hw
    exact h1.trans (ih _ (fun q hq => hc q (List.mem_cons_of_mem _ hq)) fun id hid => Nat.lt_of_lt_of_le (hp id hid) h1.fresh)

/-- Entries stay, numbers rise and events to come stay. -/
def EntryKept (s t : State) : Prop :=
  s.fresh ≤ t.fresh ∧ (∀ j, j < s.fresh → tfind t.pend j = tfind s.pend j) ∧ ∀ e ∈ s.agenda, e ∈ t.agenda

theorem memLanes_kept (m : MemSpec) (src : State) (ls : List Nat) (u : State) : EntryKept u (ls.foldl (memLane m src) u) := by
  have h := mid_memLanes (C := { cell := fun _ => True, pend := fun id => id < u.fresh, fences := True }) m src ls u
    (fun _ _ => trivial) (fun _ => trivial) (fun _ h => h) (fun h => h)
  exact ⟨h.fresh, h.older, h.agenda⟩

/-- The entry of a lane: there is one where the form has a result, or an act still to be performed. -/
theorem startWork_entry (s : State) (e : Pend) (h : e.isRead = true ∨ ∃ q ∈ (doParts (takeFresh s) true e s.fresh [] e.parts).2.1, q.val = none) :
    (∃ pe, tfind (startWork s e).pend s.fresh = some pe ∧ pe.pos = e.pos ∧ pe.shape = e.shape ∧ pe.regs = e.regs ∧
      pe.parts = (doParts (takeFresh s) true e s.fresh [] e.parts).2.1 ∧
      pe.mark = (doParts (takeFresh s) true e s.fresh [] e.parts).2.2) ∧ s.fresh < (startWork s e).fresh ∧
    (e.dev = true → (∃ q ∈ (doParts (takeFresh s) true e s.fresh [] e.parts).2.1, q.val = none) →
      Instr.scoreboardResultLands s.fresh ∈ (startWork s e).agenda) := by
  have hpend := doParts_pend true e s.fresh e.parts [] (takeFresh s)
  have hf : (takeFresh s).fresh = s.fresh + 1 := rfl
  unfold startWork
  simp only
  generalize doParts (takeFresh s) true e s.fresh [] e.parts = d at h hpend ⊢
  have hno : (!e.isRead && !e.atomic && d.2.1.all fun p => p.val.isSome) = false := by
    rcases h with h | ⟨q, hq, hv⟩
    · simp [h]
    · have : (d.2.1.all fun p => p.val.isSome) = false := by
        rw [List.all_eq_false]
        exact ⟨q, hq, by simp [hv]⟩
      simp [this]
  rw [hno]
  simp only [Bool.false_eq_true, if_false]
  have hlt : s.fresh < d.1.fresh := by omega
  split
  · exact ⟨⟨_, tfind_tset_self _ _ _, rfl, rfl, rfl, rfl, rfl⟩, hlt, fun _ _ => by simp⟩
  · rename_i hn
    refine ⟨⟨_, tfind_tset_self _ _ _, rfl, rfl, rfl, rfl, rfl⟩, hlt, ?_⟩
    rintro hd ⟨q, hq, hv⟩
    exfalso
    apply hn
    rw [hd, Bool.true_and, List.any_eq_true]
    exact ⟨q, hq, by simp [hv]⟩

/-- The entry of lane p, whatever becomes of its acts. -/
theorem memLanes_entry (m : MemSpec) (src : State) (l1 l2 : List Nat) (p : Nat) (s : State)
    (hr : m.isRead = true ∨ ∃ (k : Nat) (x : Part), (m.parts src p)[k]? = some x ∧ devWrite x.tgt x.op = true ∧ x.val = none) :
    s.fresh ≤ (l1.foldl (memLane m src) s).fresh ∧ ∃ e,
      tfind ((l1 ++ p :: l2).foldl (memLane m src) s).pend (l1.foldl (memLane m src) s).fresh = some e ∧ e.pos = p ∧
      e.shape = m.shape src p ∧ e.regs = shapeRegs (m.shape src p) p ∧
      e.parts.map (fun q => (q.tgt, q.va, q.op)) = (m.parts src p).map (fun q => (q.tgt, q.va, q.op)) ∧
      (∀ (k : Nat) (x q : Part) (g y : Nat), (m.parts src p)[k]? = some x → x.val = none → e.parts[k]? = some q → x.tgt = .remote g y →
        q.val = none ∨ e.mark.isSome = true) ∧
      (∀ (k : Nat) (x : Part), (m.parts src p)[k]? = some x → devWrite x.tgt x.op = true → x.val = none →
        (∃ q, e.parts[k]? = some q ∧ q.tgt = x.tgt ∧ q.op = x.op ∧ q.val = none) ∧
        (m.dev = true → Instr.scoreboardResultLands (l1.foldl (memLane m src) s).fresh ∈ ((l1 ++ p :: l2).foldl (memLane m src) s).agenda)) := by
  have h1 := (memLanes_kept m src l1 s).1
  rw [List.foldl_append, List.foldl_cons]
  generalize l1.foldl (memLane m src) s = s1 at h1 ⊢
  have hparts : (memPend m src s1 src.fresh p).parts = m.parts src p := rfl
  have hdev : ∀ (k : Nat) (x : Part), (m.parts src p)[k]? = some x → devWrite x.tgt x.op = true → x.val = none →
      ∃ q, (doParts (takeFresh s1) true (memPend m src s1 src.fresh p) s1.fresh [] (m.parts src p)).2.1[k]? = some q ∧
        q.tgt = x.tgt ∧ q.op = x.op ∧ q.val = none := fun k x hk hd hv => doParts_dev _ _ _ _ _ k x hk hd hv
  obtain ⟨⟨pe, g1, g2, g3, g4, g5, g6⟩, g7, g8⟩ := startWork_entry s1 (memPend m src s1 src.fresh p) (by
    rcases hr with h | ⟨k, x, hk, hd, hv⟩
    · exact Or.inl h
    · obtain ⟨q, a1, _, _, a4⟩ := hdev k x hk hd hv
      exact Or.inr ⟨q, List.mem_of_getElem? a1, a4⟩)
  rw [hparts] at g5 g6 g8
  have hn := noteAcq_eq (startWork s1 (memPend m src s1 src.fresh p)) p s1.fresh m.acq
  have hlt : s1.fresh < (memLane m src s1 p).fresh := by
    show _ < (noteAcq _ _ _ _).fresh
    rw [hn.2.1]; exact g7
  have hk := memLanes_kept m src l2 (memLane m src s1 p)
  refine ⟨h1, pe, ?_, g2, g3, g4, ?_, ?_, ?_⟩
  · rw [hk.2.1 _ hlt]
    show tfind (noteAcq _ _ _ _).pend _ = _
    rw [hn.1]; exact g1
  · rw [g5]; exact doParts_same _ _ _ _ _ _
  · intro k x q g y hx hv hq ht
    rw [g5] at hq
    rw [g6]
    exact doParts_remote _ _ _ _ _ _ k x q hx ht hv hq
  · intro k x hx hd hv
    obtain ⟨q, a1, a2, a3, a4⟩ := hdev k x hx hd hv
    refine ⟨⟨q, by rw [g5]; exact a1, a2, a3, a4⟩, fun hm => hk.2.2 _ ?_⟩
    show _ ∈ (noteAcq _ _ _ _).agenda
    rw [hn.2.2]
    exact g8 hm ⟨q, List.mem_of_getElem? a1, a4⟩

/-! ### Lanes whose acts can be performed -/

/-- Every act that might come before one of the lanes `ls` of a bundle whose work has numbers from n on has been performed. -/
def Quiet (ls : List Nat) (n : Nat) (s : State) : Prop :=
  ∀ f ∈ s.pend, (f.2.pos ∈ ls ∨ n ≤ f.1) → ∀ q ∈ f.2.parts, q.val.isSome = true

theorem takeFresh_run {C : Touch} {relaxed : Bool} {S : Nat → Part → Prop} (s : State) : Run C relaxed S s (takeFresh s) :=
  .note .refl (mid_takeFresh C s) rfl rfl rfl rfl rfl

/-- What follows the acts of a lane that have all been performed: nothing, or an entry for it. -/
theorem startWork_run {C : Touch} {relaxed : Bool} {S : Nat → Part → Prop} (s : State) (e : Pend) (hp : ∀ id, C.pend id → id < s.fresh)
    (hw : ¬C.whole) (hb : (doParts (takeFresh s) true e s.fresh [] e.parts).2.2 = none)
    (hv : ∀ q ∈ (doParts (takeFresh s) true e s.fresh [] e.parts).2.1, q.val.isSome = true) {ls : List Nat} {n : Nat} (hq : Quiet ls n s) :
    Run C relaxed S (doParts (takeFresh s) true e s.fresh [] e.parts).1 (startWork s e) ∧ Quiet ls n (startWork s e) := by
  have hpend := doParts_pend true e s.fresh e.parts [] (takeFresh s)
  have hps : (takeFresh s).pend = s.pend := rfl
  unfold startWork
  simp only
  generalize doParts (takeFresh s) true e s.fresh [] e.parts = d at hb hv hpend ⊢
  have hany : d.2.1.any (fun p => p.val.isNone) = false := by
    rw [List.any_eq_false]
    intro q hm
    simp [isSome_isNone (hv q hm)]
  rw [hany, Bool.and_false]
  simp only [Bool.false_eq_true, if_false]
  have hq1 : Quiet ls n d.1 := by
    unfold Quiet
    rw [hpend.2, hps]
    exact hq
  split
  · unfold storeDone
    rw [hb]
    exact ⟨.refl, hq1⟩
  · refine ⟨.note .refl (mid_setPend _ _ (fun id hid => ?_) hw) rfl rfl rfl rfl rfl, ?_⟩
    · exact tfind_tset_ne _ _ (by have := hp id hid; omega)
    · intro f hf ho q hm
      rcases mem_tset hf with h | h
      · rw [h] at hm
        exact hv q hm
      · exact hq1 f h ho q hm

/-- One lane of a memory form whose acts can be performed. -/
theorem memLane_run {C : Touch} {S : Nat → Part → Prop} (m : MemSpec) (src u : State) (p : Nat) (hc : C.cell (cellOf p))
    (hf : m.acq.isSome = true → C.fences) (hp : ∀ id, C.pend id → id < u.fresh) (hw : ¬C.whole)
    (hS : ∀ q ∈ m.parts src p, S (cellOf p) q) (hso : Sound m.relaxed S u)
    (hl : m.relaxed = false → ∀ c, C.cell c → ∀ e ∈ (u.cell c).l1, e.2.dirty = 0#32) {ls : List Nat} (hls : p ∈ ls)
    (hq : Quiet ls src.fresh u) :
    Run C m.relaxed S u (memLane m src u p) ∧ Quiet ls src.fresh (memLane m src u p) := by
  have hparts : (memPend m src u src.fresh p).parts = m.parts src p := rfl
  have hnb : NoneBefore (takeFresh u) (memPend m src u src.fresh p) u.fresh := by
    intro f hfm _ ho q hm
    refine hq f hfm ?_ q hm
    rcases ho with h | h
    · left; rw [h]; exact hls
    · exact Or.inr h
  have rt := run_ran (takeFresh_run (C := C) u) hso hl
  obtain ⟨d1, d2, d3⟩ := doParts_fit (C := C) (S := S) (memPend m src u src.fresh p) u.fresh hc (m.parts src p) hS [] (by simp) (takeFresh u)
    (rt.calm.sound_of hso) rt.clean hnb
  obtain ⟨k1, k2⟩ := startWork_run (C := C) (relaxed := m.relaxed) (S := S) u (memPend m src u src.fresh p) hp hw (by rw [hparts]; exact d2)
    (by rw [hparts]; exact d3) hq
  rw [hparts] at k1
  have hn := noteAcq_eq (startWork u (memPend m src u src.fresh p)) p u.fresh m.acq
  refine ⟨((takeFresh_run u).trans d1).trans (k1.trans (noteAcq_run _ _ _ _ hf)), ?_⟩
  unfold Quiet memLane
  rw [hn.1]
  exact k2

theorem memLanes_run {C : Touch} {S : Nat → Part → Prop} (m : MemSpec) (src : State) (l : List Nat) (u : State)
    (hc : ∀ p ∈ l, C.cell (cellOf p)) (hf : m.acq.isSome = true → C.fences) (hp : ∀ id, C.pend id → id < u.fresh) (hw : ¬C.whole)
    (hS : ∀ p ∈ l, ∀ q ∈ m.parts src p, S (cellOf p) q)
    (hso : Sound m.relaxed S u) (hl : m.relaxed = false → ∀ c, C.cell c → ∀ e ∈ (u.cell c).l1, e.2.dirty = 0#32)
    {ls : List Nat} (hls : ∀ p ∈ l, p ∈ ls) (hq : Quiet ls src.fresh u) :
    Run C m.relaxed S u (l.foldl (memLane m src) u) ∧ Quiet ls src.fresh (l.foldl (memLane m src) u) := by
  induction l generalizing u with
  | nil => exact ⟨.refl, hq⟩
  | cons p r ih =>
    obtain ⟨h1, h2⟩ := memLane_run m src u p (hc p List.mem_cons_self) hf hp hw (hS p List.mem_cons_self) hso hl (hls p List.mem_cons_self) hq
    have hr := run_ran h1 hso hl
    have hk := (memLanes_kept m src [p] u).1
    obtain ⟨k1, k2⟩ := ih (memLane m src u p) (fun q hq => hc q (List.mem_cons_of_mem _ hq))
      (fun id hid => Nat.lt_of_lt_of_le (hp id hid) hk) (fun q hq => hS q (List.mem_cons_of_mem _ hq))
      (hr.calm.sound_of hso) hr.clean (fun q hq => hls q (List.mem_cons_of_mem _ hq)) h2
    exact ⟨h1.trans k1, k2⟩

/-- The act of part k of lane p, in the middle of all: the states before and after it, and what it records. -/
theorem memLanes_at {C : Touch} {S : Nat → Part → Prop} (m : MemSpec) (src : State) (l1 l2 : List Nat) (p k : Nat) (P : Part) (s : State)
    (hk : (m.parts src p)[k]? = some P) (hc : ∀ q ∈ l1 ++ p :: l2, C.cell (cellOf q)) (hf : m.acq.isSome = true → C.fences)
    (hp : ∀ id, C.pend id → id < s.fresh) (hw : ¬C.whole)
    (hS1 : ∀ q ∈ l1 ++ l2, ∀ x ∈ m.parts src q, S (cellOf q) x)
    (hS2 : ∀ j x, (m.parts src p)[j]? = some x → j ≠ k → S (cellOf p) x)
    (hso : Sound m.relaxed S s) (hfp : Fit m.relaxed (cellOf p) s P)
    (hl : m.relaxed = false → ∀ c, C.cell c → ∀ e ∈ (s.cell c).l1, e.2.dirty = 0#32) (hq : Quiet (l1 ++ p :: l2) src.fresh s) :
    ∃ u e id ix v, e.req.cell = cellOf p ∧ e.pos = p ∧ e.relaxed = m.relaxed ∧ Run C m.relaxed S s u ∧ (doPart u e id ix P).2 = .val v ∧
      Run C m.relaxed S (doPart u e id ix P).1 ((l1 ++ p :: l2).foldl (memLane m src) s) ∧
      ∀ pe, tfind ((l1 ++ p :: l2).foldl (memLane m src) s).pend (l1.foldl (memLane m src) s).fresh = some pe → m.isRead = true →
        ∃ q, pe.parts[k]? = some q ∧ q.val = some v := by
  obtain ⟨a1, a2⟩ := memLanes_run m src l1 s (fun q hq => hc q (List.mem_append_left _ hq)) hf hp hw
    (fun q hq => hS1 q (List.mem_append_left _ hq)) hso hl (fun q hq => List.mem_append_left _ hq) hq
  have a3 := (memLanes_kept m src l1 s).1
  rw [List.foldl_append, List.foldl_cons]
  generalize l1.foldl (memLane m src) s = s1 at a1 a2 a3 ⊢
  have ra := run_ran a1 hso hl
  have hp1 : ∀ id, C.pend id → id < s1.fresh := fun id hid => Nat.lt_of_lt_of_le (hp id hid) a3
  have hcp : C.cell (cellOf p) := hc p (by simp)
  have hparts : (memPend m src s1 src.fresh p).parts = m.parts src p := rfl
  have hnb : NoneBefore (takeFresh s1) (memPend m src s1 src.fresh p) s1.fresh := by
    intro f hfm _ ho q hm
    refine a2 f hfm ?_ q hm
    rcases ho with h | h
    · left; rw [h]; show p ∈ _; simp
    · exact Or.inr h
  have rt := run_ran (takeFresh_run (C := C) s1) (ra.calm.sound_of hso) ra.clean
  obtain ⟨u, ix, v, q, b1, b2, b3, b4, b5, b6, b7⟩ := doParts_at (C := C) (S := S) (memPend m src s1 src.fresh p) s1.fresh hcp (m.parts src p) k P hk
    hS2 [] (by simp) (takeFresh s1) (rt.calm.sound_of (ra.calm.sound_of hso)) (rt.calm.fit (ra.calm.fit hfp)) rt.clean hnb
  obtain ⟨c1, c2⟩ := startWork_run (C := C) (relaxed := m.relaxed) (S := S) s1 (memPend m src s1 src.fresh p) hp1 hw (by rw [hparts]; exact b6)
    (by rw [hparts]; exact b7) a2
  rw [hparts] at c1
  have hn := noteAcq_eq (startWork s1 (memPend m src s1 src.fresh p)) p s1.fresh m.acq
  have hafter : Run C m.relaxed S (doPart u (memPend m src s1 src.fresh p) s1.fresh ix P).1 (memLane m src s1 p) :=
    b2.trans (c1.trans (noteAcq_run _ _ _ _ hf))
  have r2 := run_ran ((takeFresh_run s1).trans b1) (ra.calm.sound_of hso) ra.clean
  have hfu : Fit m.relaxed (cellOf p) u P := r2.calm.fit (ra.calm.fit hfp)
  obtain ⟨e1, e2, _⟩ := doPart_act (C := C) u (memPend m src s1 src.fresh p) s1.fresh ix P hcp hfu fun h => r2.clean h _ hcp
  have hso2 : Sound m.relaxed S (doPart u (memPend m src s1 src.fresh p) s1.fresh ix P).1 :=
    e1.calm.sound_of (r2.calm.sound_of (ra.calm.sound_of hso))
  have hcl2 : m.relaxed = false → ∀ c, C.cell c →
      ∀ e ∈ ((doPart u (memPend m src s1 src.fresh p) s1.fresh ix P).1.cell c).l1, e.2.dirty = 0#32 := by
    intro h c hc' x hx
    by_cases hcc : c = cellOf p
    · subst hcc; exact e2 h x hx
    · rw [e1.cells c hcc] at hx; exact r2.clean h c hc' x hx
  have r3 := run_ran hafter hso2 hcl2
  have hlt : s1.fresh ≤ (memLane m src s1 p).fresh := (memLanes_kept m src [p] s1).1
  have hq2 : Quiet (l1 ++ p :: l2) src.fresh (memLane m src s1 p) := by
    unfold Quiet memLane
    rw [hn.1]
    exact c2
  obtain ⟨f1, _⟩ := memLanes_run m src l2 (memLane m src s1 p) (fun q hq => hc q (by simp [hq])) hf
    (fun id hid => Nat.lt_of_lt_of_le (hp1 id hid) hlt) hw (fun q hq => hS1 q (List.mem_append_right _ hq))
    (r3.calm.sound_of hso2) r3.clean (fun q hq => by simp [hq]) hq2
  refine ⟨u, memPend m src s1 src.fresh p, s1.fresh, ix, v, rfl, rfl, rfl, a1.trans ((takeFresh_run s1).trans b1), b3, hafter.trans f1, ?_⟩
  intro pe hpe hr
  obtain ⟨⟨pe', g1, _, _, _, g5, _⟩, g7, _⟩ := startWork_entry s1 (memPend m src s1 src.fresh p) (Or.inl hr)
  have hlt' : s1.fresh < (memLane m src s1 p).fresh := by
    show _ < (noteAcq _ _ _ _).fresh
    rw [hn.2.1]; exact g7
  rw [(memLanes_kept m src l2 (memLane m src s1 p)).2.1 _ hlt'] at hpe
  have : tfind (memLane m src s1 p).pend s1.fresh = some pe' := by
    show tfind (noteAcq _ _ _ _).pend _ = _
    rw [hn.1]; exact g1
  rw [this] at hpe
  simp only [Option.some.injEq] at hpe
  subst hpe
  exact ⟨q, by rw [g5]; exact b4, b5⟩

/-! ### Checks -/

theorem transStage_ok {s : State} {ls : List Nat} {asks : Nat → List Ask} (h : ∀ p ∈ ls, ∀ a ∈ asks p, ∃ t, resolve s p a = .ok t) :
    transStage s ls asks = .ok := by
  have e1 : (ls.flatMap fun p => ((asks p).filter (fun a => isWalk (resolve s p a))).map (fun a => (p, a.va.toNat))) = [] := by
    rw [List.flatMap_eq_nil_iff]
    intro p hp
    rw [List.map_eq_nil_iff]
    apply filter_eq_nil
    intro a ha
    obtain ⟨t, ht⟩ := h p hp a ha
    rw [ht]; rfl
  have e2 : (ls.filterMap fun p => ((asks p).findSome? (fun a => failOf (resolve s p a))).map (fun i => (p, i))) = [] := by
    rw [List.filterMap_eq_nil_iff]
    intro p hp
    rw [Option.map_eq_none_iff, List.findSome?_eq_none_iff]
    intro a ha
    obtain ⟨t, ht⟩ := h p hp a ha
    rw [ht]; rfl
  unfold transStage
  simp only [e1, e2, List.isEmpty_nil, Bool.not_true, Bool.false_eq_true, if_false, if_true]

theorem readyStage_ok {s : State} {ls : List Nat} {asks : Nat → List Ask} (h : Reaches s ls asks) : readyStage s ls asks = .ok := by
  have e1 : ((ls.map fun p => (p, (asks p).flatMap (parksFor s p))).filter (fun q => !q.2.isEmpty)) = [] := by
    apply filter_eq_nil
    intro q hq
    obtain ⟨p, hp, rfl⟩ := List.mem_map.1 hq
    have : (asks p).flatMap (parksFor s p) = [] := by
      rw [List.flatMap_eq_nil_iff]
      exact fun a ha => h.present p hp a ha
    simp [this]
  have e2 : (ls.filter fun p => !s.pkg.hostUp && (asks p).any (fun a => isHost (targetOf s p a))) = [] := by
    apply filter_eq_nil
    intro p hp
    rcases h.host with k | k
    · simp [k]
    · have : (asks p).any (fun a => isHost (targetOf s p a)) = false := by
        rw [List.any_eq_false]
        intro a ha
        simp [k p hp a ha]
      simp [this]
  unfold readyStage
  simp only [e1, e2, List.isEmpty_nil, Bool.not_true, Bool.false_eq_true, if_false, if_true]

/-- Accesses that reach their targets pass stage 4. -/
theorem accessStage_ok {s : State} {ls : List Nat} {asks : Nat → List Ask} (h : Reaches s ls asks) : accessStage s ls asks = .ok := by
  unfold accessStage
  rw [transStage_ok h.resolved, readyStage_ok h]
  rfl

/-- Accesses that fit into the pipes of their lanes pass stage 6. -/
theorem roomStage_ok {s : State} {ls : List Nat} {asks : Nat → List Ask} (h : Reaches s ls asks) : roomStage s ls asks = .ok := by
  have e : (ls.filter fun p => decide (2048 < pipeLoad s (gpipe p) + (asks p).length ∧ asks p ≠ [])) = [] := by
    apply filter_eq_nil
    intro p hp
    rw [decide_eq_false_iff_not]
    rintro ⟨a, b⟩
    rcases h.room p hp with k | k
    · exact b k
    · omega
  unfold roomStage
  simp only [e, List.isEmpty_nil, if_true]

/-! ### Banks and counters -/

theorem tfind_map_late (l : Tab Pend) (n late id : Nat) :
    tfind (l.map (fun e => if n ≤ e.1 then (e.1, { e.2 with late := late }) else e)) id =
      (tfind l id).map (fun e => if n ≤ id then { e with late := late } else e) := by
  induction l with
  | nil => rfl
  | cons x r ih =>
    obtain ⟨j, w⟩ := x
    simp only [List.map_cons]
    by_cases hn : n ≤ j
    · rw [if_pos hn]
      simp only [tfind]
      split
      · rename_i h; subst h; simp [hn]
      · exact ih
    · rw [if_neg hn]
      simp only [tfind]
      split
      · rename_i h; subst h; simp [hn]
      · exact ih

/-- The delay of a bank conflict changes when work lands and nothing else. -/
theorem delayFrom_eq (s : State) (n late : Nat) :
    ∃ l, delayFrom s n late = s.setPend l ∧ (∀ id, id < n → tfind l id = tfind s.pend id) ∧
      ∀ id e, tfind s.pend id = some e → ∃ d, tfind l id = some { e with late := d } := by
  unfold delayFrom
  split
  · exact ⟨s.pend, rfl, fun _ _ => rfl, fun id e h => ⟨e.late, h⟩⟩
  · refine ⟨_, rfl, ?_, ?_⟩
    · intro id hid
      rw [tfind_map_late]
      simp only [if_neg (Nat.not_le.2 hid), Option.map_id']
    · intro id e h
      rw [tfind_map_late, h]
      by_cases hn : n ≤ id
      · exact ⟨late, by simp [hn]⟩
      · exact ⟨e.late, by simp [hn]⟩

/-- Occupying banks changes the cycles in which they are busy and nothing else. -/
theorem occupy_eq (s : State) (rows : List (Nat × Nat × Nat)) :
    ∃ cs, (occupy s rows).1 = s.setCells cs ∧ ∀ d, noBank ((occupy s rows).1.cell d) = noBank (s.cell d) := by
  have key : ∀ (bs : List (Nat × Nat)) (x : State × Nat), ∃ cs, (bs.foldl (occupyOne (dedupR rows)) x).1 = x.1.setCells cs ∧
      ∀ d, noBank ((bs.foldl (occupyOne (dedupR rows)) x).1.cell d) = noBank (x.1.cell d) := by
    intro bs
    induction bs with
    | nil => intro x; exact ⟨x.1.cells, rfl, fun _ => rfl⟩
    | cons b r ih =>
      intro x
      obtain ⟨cs, h1, h2⟩ := ih (occupyOne (dedupR rows) x b)
      refine ⟨cs, by rw [List.foldl_cons, h1]; rfl, fun d => ?_⟩
      rw [List.foldl_cons, h2 d]
      unfold occupyOne
      simp only
      rw [cell_putCell]
      split
      · rename_i h; subst h; rfl
      · rfl
  exact key _ (s, 0)

theorem mid_setCells {C : Touch} (s : State) (cs) (h : ∀ d, noBank ((s.setCells cs).cell d) = noBank (s.cell d)) : Mid C s (s.setCells cs) := by
  apply Mid.same <;> first | exact fun d _ => h d | (intros; rfl) | simp

theorem mid_countAsks {C : Touch} (src t : State) (ls : List Nat) (asks : Nat → List Ask) (hc : C.cell (curCell src)) :
    Mid C t (countAsks src t ls asks) := by
  unfold countAsks
  split
  · exact Mid.refl C t
  · unfold countReq
    exact mid_putCell t _ hc

/-! ### Completion -/

/-- What a memory form must be for its completion to follow: the form that `exec` runs, and the accesses that `m` names. -/
structure MemOf (i : Instr) (gd : Guard) (m : MemUse) (f : MemSpec) : Prop where
  run : ∀ s, exec i s = Machine.run gd (memForm i f) s
  all : waitsForAll i = m.all
  who : ∀ s, f.who s (actingLanes s gd) = m.who s
  sub : ∀ s, ∀ p ∈ m.who s, p ∈ actingLanes s gd
  accs : ∀ s p, m.accs s p = (f.accs s p).map (fun a => (a.ask, a.op))
  shape : ∀ s p, m.shape s p = f.shape s p
  reads : m.reads = f.isRead
  home : m.home = !f.relaxed
  acq : m.acq = f.acq.isSome
  dev : m.dev = f.dev
  size : ∀ s p, ∀ a ∈ m.accs s p, 0 < opBytes a.2 ∧
    (m.home = false → opBytes a.2 ≤ 32 ∧ (∀ o w x y, a.2 ≠ .amo o w x y) ∧ (m.reads = true → ∃ n, a.2 = .read n))

theorem relaxed_orders {f : MemSpec} (h : f.relaxed = true) (s : State) (c : Nat) : relL1 s c f.rel = s ∧ acqL1 s c f.acq = s := by
  unfold MemSpec.relaxed at h
  simp only [Bool.and_eq_true] at h
  obtain ⟨⟨_, h1⟩, h2⟩ := h
  unfold relL1 acqL1
  constructor
  · cases hr : f.rel with
    | none => rfl
    | some x => rw [hr] at h2; simp at h2; simp [h2]
  · cases hr : f.acq with
    | none => rfl
    | some x => rw [hr] at h1; simp at h1; simp [h1]

theorem storedAt_some {home : Bool} {t : Target} {op : HomeOp} {l : Nat} (h : storedAt home t op = some l) :
    placeOf t = some l ∧ writesOf op = true := by
  unfold storedAt at h
  cases t with
  | home loc die =>
    simp only at h
    split at h
    · rename_i hw
      simp only [Bool.and_eq_true] at hw
      exact ⟨h, hw.2⟩
    · exact absurd h (by simp)
  | scr cell off =>
    simp only at h
    split at h
    · rename_i hw; exact ⟨h, hw⟩
    · exact absurd h (by simp)
  | remote g x => exact absurd h (by simp)
  | dev off => exact absurd h (by simp)

theorem maySee_congr {s u : State} (h1 : u.mem = s.mem) (h2 : u.time = s.time) {c : Nat} (h3 : (u.cell c).l1 = (s.cell c).l1) {a b : Nat}
    (h : MaySee u c a b) : MaySee s c a b := by
  unfold MaySee at *
  rw [h3, h2, byteAt_congr h1] at h
  exact h

/-- The part of an access. -/
def partOf (s : State) (p : Nat) (a : Ask × HomeOp) : Part :=
  { tgt := targetOf s p a.1, va := a.1.va, op := a.2, val := none, blk := blockTag s (targetOf s p a.1) }

theorem MemOf.parts {i : Instr} {gd : Guard} {m : MemUse} {f : MemSpec} (h : MemOf i gd m f) (s : State) (p : Nat) :
    f.parts s p = (m.accs s p).map (partOf s p) := by
  rw [h.accs, List.map_map]
  rfl

/-- What holds where the acts of a memory form begin. -/
structure Ready (s t : State) (home : Bool) : Prop where
  mem : t.mem = s.mem
  pkg : t.pkg = s.pkg
  poison : t.poison = s.poison
  absent : t.absent = s.absent
  stores : t.stores = s.stores
  pend : t.pend = s.pend
  dies : t.dies = s.dies
  time : t.time = s.time
  fresh : t.fresh = s.fresh
  cells : ∀ d, core (t.cell d) = core (s.cell d)
  l1 : home = false → ∀ c, (t.cell c).l1 = (s.cell c).l1
  clean : home = true → ∀ c, ownCell s c → ∀ e ∈ (t.cell c).l1, e.2.dirty = 0#32

theorem l1WriteBack_clean {s : State} {c : Nat} (h : ∀ e ∈ (s.cell c).l1, e.2.dirty = 0#32) : l1WriteBack s c = s := by
  unfold l1WriteBack
  have : (s.cell c).l1.filter (fun e => decide (e.2.dirty ≠ 0#32)) = [] := filter_eq_nil fun e he => by simp [h e he]
  rw [this]
  rfl

/-- The counters of a memory form leave what its acts start from. -/
theorem counted_ready {s : State} {home : Bool} {t0 : State} (h0 : ∃ v b, t0 = (s.setStrands v).setBlocks b)
    (ha : home = true → CleanL1 s) (dev : Bool) (ls : List Nat) (asks : Nat → List Ask) :
    Ready s (if dev then t0 else countAsks s t0 ls asks) home := by
  obtain ⟨v, b, rfl⟩ := h0
  have r0 : Ready s ((s.setStrands v).setBlocks b) home :=
    ⟨rfl, rfl, rfl, rfl, rfl, rfl, rfl, rfl, rfl, fun _ => rfl, fun _ _ => rfl, fun hh c hc => ha hh c hc⟩
  split
  · exact r0
  · unfold countAsks
    split
    · exact r0
    · unfold countReq
      have hcell : ∀ d (x y : Word), (putCell ((s.setStrands v).setBlocks b) (curCell s)
          { ((s.setStrands v).setBlocks b).cell (curCell s) with lclreq := x, rmtreq := y }).cell d =
          if d = curCell s then { s.cell d with lclreq := x, rmtreq := y } else s.cell d := by
        intro d x y
        rw [cell_putCell]
        split
        · rename_i e; subst e; rfl
        · rfl
      refine ⟨rfl, rfl, rfl, rfl, rfl, rfl, rfl, rfl, rfl, ?_, ?_, ?_⟩
      · intro d; rw [hcell]; split <;> rfl
      · intro _ d; rw [hcell]; split <;> rfl
      · intro hh c hc e he
        rw [hcell] at he
        refine ha hh c hc e ?_
        revert he
        split <;> exact id

/-- So does its L1 action. -/
theorem ordered_ready {s t : State} {home : Bool} (h : Ready s t home) {f : MemSpec} (hh : home = !f.relaxed) :
    Ready s (acqL1 (relL1 t (curCell s) f.rel) (curCell s) f.acq) home := by
  cases hr : f.relaxed with
  | true =>
    have := relaxed_orders hr t (curCell s)
    rw [this.1, this.2]
    exact h
  | false =>
    have hh : home = true := by rw [hh, hr]; rfl
    have e1 : relL1 t (curCell s) f.rel = t := by
      unfold relL1
      split
      · split
        · exact l1WriteBack_clean (h.clean hh _ (Or.inl rfl))
        · rfl
      · rfl
    rw [e1]
    unfold acqL1
    split
    · split
      · unfold l1DropClean
        refine ⟨h.mem, h.pkg, h.poison, h.absent, h.stores, h.pend, h.dies, h.time, h.fresh, ?_, ?_, ?_⟩
        · intro d
          rw [cell_putCell]
          split
          · rename_i e; subst e; exact h.cells _
          · exact h.cells _
        · intro h'; rw [hh] at h'; exact absurd h' (by simp)
        · intro _ c hc e he
          rw [cell_putCell] at he
          split at he
          · obtain ⟨x, hx, rfl⟩ := List.mem_map.1 he
            have := h.clean hh (curCell s) (Or.inl rfl) x (List.mem_filter.1 hx).1
            simpa using this
          · exact h.clean hh c hc e he
      · exact h
    · exact h

/-- And the banks that it occupies. -/
theorem occupied_ready {s t : State} {home : Bool} (h : Ready s t home) (rows : List (Nat × Nat × Nat)) : Ready s (occupy t rows).1 home := by
  obtain ⟨cs, e, hn⟩ := occupy_eq t rows
  have hl : ∀ d, ((occupy t rows).1.cell d).l1 = (t.cell d).l1 := fun d => by
    show (noBank ((occupy t rows).1.cell d)).l1 = (noBank (t.cell d)).l1
    rw [hn d]
  refine ⟨?_, ?_, ?_, ?_, ?_, ?_, ?_, ?_, ?_, ?_, fun hh c => by rw [hl, h.l1 hh], fun hh c hc e he => h.clean hh c hc e (by rw [hl] at he; exact he)⟩
  · rw [e]; exact h.mem
  · rw [e]; exact h.pkg
  · rw [e]; exact h.poison
  · rw [e]; exact h.absent
  · rw [e]; exact h.stores
  · rw [e]; exact h.pend
  · rw [e]; exact h.dies
  · rw [e]; exact h.time
  · rw [e]; exact h.fresh
  · intro d
    rw [← h.cells d]
    show core (noBank ((occupy t rows).1.cell d)) = core (noBank (t.cell d))
    rw [hn d]

/-- The parts of the other accesses. -/
def Others (s : State) (m : MemUse) (p k : Nat) (c : Nat) (x : Part) : Prop :=
  ∃ q ∈ m.who s, ∃ j b, ¬(q = p ∧ j = k) ∧ c = cellOf q ∧ (m.accs s q)[j]? = some b ∧ x = partOf s q b

/-- The parts of all accesses. -/
def Every (s : State) (m : MemUse) (c : Nat) (x : Part) : Prop :=
  ∃ q ∈ m.who s, ∃ b ∈ m.accs s q, c = cellOf q ∧ x = partOf s q b

/-- The state in the middle of the acts, as far as access k of lane p goes. -/
structure At (C : Touch) (s : State) (m : MemUse) (relaxed : Bool) (p k : Nat) (P : Part) (t1 u : State) (e : Pend) (id ix v : Nat) (t : State) :
    Prop where
  cell : e.req.cell = cellOf p
  pos : e.pos = p
  mode : e.relaxed = relaxed
  before : Run C relaxed (Others s m p k) t1 u
  val : (doPart u e id ix P).2 = .val v
  after : Run C relaxed (Others s m p k) (doPart u e id ix P).1 t

theorem partWrites_other {s : State} {m : MemUse} {p k q j : Nat} {a b : Ask × HomeOp} {x : Nat} (ha : Apart s m p k)
    (hq : q ∈ m.who s) (hne : ¬(q = p ∧ j = k)) (h1 : (m.accs s p)[k]? = some a) (h2 : (m.accs s q)[j]? = some b)
    (hx : placeOf (targetOf s p a.1) = some x) {home : Bool} {l n : Nat} (hw : partWrites home (partOf s q b) = some (l, n)) :
    x + opBytes a.2 ≤ l ∨ l + n ≤ x := by
  unfold partWrites at hw
  rw [Option.map_eq_some_iff] at hw
  obtain ⟨y, hy, he⟩ := hw
  simp only [Prod.mk.injEq] at he
  obtain ⟨rfl, rfl⟩ := he
  obtain ⟨k1, k2⟩ := storedAt_some hy
  exact ha q hq j hne a b x y h1 h2 k2 hx k1

section
variable {C : Touch} {s : State} {m : MemUse} {relaxed : Bool} {p k : Nat} {P : Part} {t1 u t : State} {e : Pend} {id ix v : Nat}
  {a : Ask × HomeOp}

/-- The other accesses leave the bytes of one that stands apart. -/
theorem others_out (hap : Apart s m p k) (h1 : (m.accs s p)[k]? = some a) {x : Nat} (hx : placeOf (targetOf s p a.1) = some x)
    (b : Nat) (hb1 : x ≤ b) (hb2 : b < x + opBytes a.2) {home : Bool} :
    ∀ c y, Others s m p k c y → ∀ l n, partWrites home y = some (l, n) → b < l ∨ l + n ≤ b := by
  rintro c y ⟨q, hq, j, z, hne, _, hz, rfl⟩ l n hw
  rcases partWrites_other hap hq hne h1 hz hx hw with h | h <;> omega

/-- What access k of lane p reads and writes. -/
theorem act_at (hA : At C s m relaxed p k P t1 u e id ix v t) (hready : Ready s t1 m.home) (hrel : m.home = !relaxed)
    (hC : ∀ c, C.cell c → ownCell s c) (hcp : C.cell (cellOf p)) (hp : p ∈ m.who s) (h1 : (m.accs s p)[k]? = some a) (hP : P = partOf s p a)
    (hap : Apart s m p k) (hfit : ∀ q ∈ m.who s, ∀ b ∈ m.accs s q, Fit relaxed (cellOf q) t1 (partOf s q b))
    (hsize : ∀ p, ∀ a ∈ m.accs s p, 0 < opBytes a.2 ∧
      (m.home = false → opBytes a.2 ≤ 32 ∧ (∀ o w x y, a.2 ≠ .amo o w x y) ∧ (m.reads = true → ∃ n, a.2 = .read n))) :
    Stands s t m p (targetOf s p a.1) a.2 ∧ (m.reads = true → Reads s t m (cellOf p) (targetOf s p a.1) a.2 (some v)) := by
  have hSo : Sound relaxed (Others s m p k) t1 := by
    rintro c y ⟨q, hq, j, z, _, rfl, hz, rfl⟩
    exact hfit q hq z (List.mem_of_getElem? hz)
  have hcl : relaxed = false → ∀ c, C.cell c → ∀ e ∈ (t1.cell c).l1, e.2.dirty = 0#32 := fun hr c hc =>
    hready.clean (by rw [hrel, hr]; rfl) c (hC c hc)
  have r1 := run_ran hA.before hSo hcl
  have hamem : a ∈ m.accs s p := List.mem_of_getElem? h1
  have hfP : Fit relaxed (cellOf p) u P := by rw [hP]; exact r1.calm.fit (hfit p hp a hamem)
  have hposP : 0 < opBytes P.op := hfP.size
  have hval := hA.val
  have hrx := hA.mode
  rw [← hA.cell, ← hrx] at hfP
  have hcr : C.cell e.req.cell := by rw [hA.cell]; exact hcp
  obtain ⟨e1, e2, _⟩ := doPart_act (C := C) u e id ix P hcr hfP fun h => r1.clean (by rw [← hrx]; exact h) _ hcr
  have hSo2 : Sound relaxed (Others s m p k) (doPart u e id ix P).1 := e1.calm.sound_of (r1.calm.sound_of hSo)
  have hcl2 : relaxed = false → ∀ c, C.cell c → ∀ x ∈ ((doPart u e id ix P).1.cell c).l1, x.2.dirty = 0#32 := by
    intro h c hc' x hx
    by_cases hcc : c = e.req.cell
    · subst hcc; exact e2 (by rw [hrx]; exact h) x hx
    · rw [e1.cells c hcc] at hx; exact r1.clean h c hc' x hx
  have r2 := run_ran hA.after hSo2 hcl2
  -- bytes at the place of the access
  have hpre : ∀ x, placeOf (targetOf s p a.1) = some x → ∀ b, x ≤ b → b < x + opBytes a.2 → byteAt u b = byteAt s b := by
    intro x hx b hb1 hb2
    rw [r1.bytes b (others_out hap h1 hx b hb1 hb2), byteAt_congr hready.mem]
  have hpost : ∀ x, placeOf (targetOf s p a.1) = some x → ∀ b, x ≤ b → b < x + opBytes a.2 →
      byteAt t b = byteAt (doPart u e id ix P).1 b := fun x hx b hb1 hb2 => r2.bytes b (others_out hap h1 hx b hb1 hb2)
  have hPt : P.tgt = targetOf s p a.1 := by rw [hP]; rfl
  have hPo : P.op = a.2 := by rw [hP]; rfl
  obtain ⟨tgt, va, op, val, blk, sent⟩ := P
  simp only at hPt hPo
  subst hPo
  rw [← hPt] at hpre hpost ⊢
  -- an act performed at a place of this package
  have performed : ∀ x u0, placeOf tgt = some x → u0.mem = u.mem →
      doPart u e id ix { tgt := tgt, va := va, op := a.2, val := val, blk := blk, sent := sent } = (actState u0 x a.2, .val (actVal u0 x a.2)) →
      (∀ n v, a.2 = .write n v → rd t x n = v % 256 ^ n) ∧
      (∀ n, a.2 = .read n → v = rd s x n) ∧
      (∀ o w y z, a.2 = .amo o w y z → v = rd s x (amoBytes o w) ∧
        rd t x (amoBytes o w) = (amoNew o w (rd s x (amoBytes o w)) y z).getD (rd s x (amoBytes o w)) % 256 ^ amoBytes o w) := by
    intro x u0 hx hm hdo
    have hrdu : rd u0 x (opBytes a.2) = rd s x (opBytes a.2) := by
      rw [rd_congr hm]; exact rd_of_bytes (hpre x hx)
    have hrdt : rd t x (opBytes a.2) = rd (actState u0 x a.2) x (opBytes a.2) := by
      rw [rd_of_bytes (hpost x hx), hdo]
    obtain ⟨w1, w2⟩ := rd_actState u0 x a.2
    rw [← hrdt, hrdu] at w2
    rw [← hrdt] at w1
    have hn : ∀ op, a.2 = op → opBytes a.2 = opBytes op := fun op h => by rw [h]
    have hv : v = actVal u0 x a.2 := by
      have := hval
      rw [hdo] at this
      simpa using this.symm
    refine ⟨?_, ?_, ?_⟩
    · intro n v hop
      have e := w1 n v hop
      rw [hn _ hop] at e
      exact e
    · intro n hop
      rw [hv, hop]
      rw [hn _ hop] at hrdu
      exact hrdu
    · intro o w y z hop
      have e := w2 o w y z hop
      rw [hn _ hop] at e hrdu
      refine ⟨?_, e⟩
      rw [hv, hop]
      exact hrdu
  cases tgt with
  | home loc die =>
    cases relaxed with
    | false =>
      have hh : m.home = true := by rw [hrel]; rfl
      obtain ⟨f1, _, f3⟩ := act_flushRange (C := C) (c := e.req.cell) hcr u loc (opBytes a.2) (r1.clean rfl _ hcr)
      rw [hrx] at hfP
      obtain ⟨g1, g2, g3⟩ := performed loc (flushRange u e.req.cell loc (opBytes a.2)) rfl f3
        (doPart_home hcr hfP hrx (r1.clean rfl _ hcr))
      cases hop : a.2 with
      | read n =>
        refine ⟨trivial, fun _ => ?_⟩
        simp only [Reads, hh, if_true]
        exact congrArg some (g2 n hop)
      | write n v =>
        refine ⟨?_, fun _ => trivial⟩
        simp only [Stands, hh, if_true]
        exact g1 _ _ hop
      | amo o w y z =>
        refine ⟨trivial, fun _ => ?_⟩
        simp only [Reads]
        exact fun _ => ⟨congrArg some (g3 _ _ _ _ hop).1, (g3 _ _ _ _ hop).2⟩
    | true =>
      have hh : m.home = false := by rw [hrel]; rfl
      obtain ⟨z1, z2, z3⟩ := (hsize p a hamem).2 hh
      rw [hrx] at hfP
      have hs := hfP.sound rfl loc die rfl
      cases hop : a.2 with
      | read n =>
        refine ⟨trivial, fun hr => ?_⟩
        simp only [Reads, hh, Bool.false_eq_true, if_false]
        intro hn
        have hreads : ∀ c y, Others s m p k c y → ∃ n, y.op = .read n := by
          rintro c y ⟨q, hq, j, z, _, _, hz, rfl⟩
          exact ((hsize q z (List.mem_of_getElem? hz)).2 hh).2.2 hr
        obtain ⟨w1, w2⟩ := run_reads hA.before hSo hreads
        rw [hop] at hfP hval
        rw [doPart_load hfP hrx] at hval
        simp only [Done.val.injEq] at hval
        refine ⟨v, rfl, fun i hi => ?_⟩
        rw [← hval, ← hA.cell]
        exact maySee_congr hready.mem hready.time (hready.l1 hh _)
          (l1Load_maySee t1 u e.req.cell _ loc n hn w1 r1.calm.mid.time hs (w2 _ _) i hi)
      | write n v =>
        refine ⟨?_, fun _ => trivial⟩
        simp only [Stands, hh, Bool.false_eq_true, if_false]
        intro hn
        have hdo : (doPart u e id ix { tgt := .home loc die, va := va, op := a.2, val := val, blk := blk, sent := sent }).1 =
            l1Store u e.req.cell e.pos loc n v := by rw [hop]; simp only [doPart, hrx]
        have hafter := hA.after
        rw [hdo] at hafter hSo2 r2
        have hbytes : ∀ i, i < n → DirtyByte t (cellOf p) (loc + i) (field v (8 * i) 8) := by
          intro i hi
          have hb := l1Store_makes u e.req.cell e.pos loc n v i hs hn hi
          rw [← hA.cell]
          refine run_dirty hafter hSo2 hb ?_ ?_
          · rintro y ⟨q, hq, j, z, hne, _, hz, rfl⟩ loc' die' n' v' ht hw
            have hw2 : z.2 = .write n' v' := hw
            have ht2 : targetOf s q z.1 = .home loc' die' := ht
            have := hap q hq j hne a z loc loc' h1 hz (by rw [hw2]; rfl) (by rw [← hPt]; rfl) (by rw [ht2]; rfl)
            rw [hop, hw2] at this
            simp only [opBytes] at this
            omega
          · rintro d y ⟨q, hq, j, z, hne, _, hz, rfl⟩ loc' die' n' v' ht hw
            have hw2 : z.2 = .write n' v' := hw
            have ht2 : targetOf s q z.1 = .home loc' die' := ht
            have hzm := List.mem_of_getElem? hz
            have hans := (hfit q hq z hzm).answers
            rw [ht, hw] at hans
            have h32 := ((hsize q z hzm).2 hh).1
            rw [hw2] at h32
            exact hans.2.2 h32
        refine ⟨?_, ?_⟩
        · rw [hop] at hposP
          obtain ⟨l, q1, _⟩ := hbytes 0 hposP
          rw [Nat.add_zero] at q1
          refine ⟨l, q1, fun i hi => ?_⟩
          obtain ⟨l', p1, p2, p3, p4⟩ := hbytes i hi
          rw [show (loc + i) / 32 = loc / 32 by omega, q1] at p1
          simp only [Option.some.injEq] at p1
          subst p1
          rw [show (loc + i) % 32 = loc % 32 + i by omega] at p2 p3 p4
          exact ⟨p2, p3, p4⟩
        · obtain ⟨l, ev, q1, q2, q3, q4, _, _⟩ := l1Store_eq u e.req.cell e.pos loc n v hs
          refine ⟨u.fresh, ev, ?_, ?_, ?_, ?_, q4⟩
          · rw [← hready.fresh]; exact r1.calm.mid.fresh
          · rw [r2.stores u.fresh (by rw [q1]; show u.fresh < u.fresh + 1; omega), q1]
            show tfind (tset u.stores u.fresh ev) u.fresh = some ev
            exact tfind_tset_self _ _ _
          · rw [q2, hA.cell]
          · rw [q3, hA.pos]
      | amo o w y z => exact absurd hop (z2 o w y z)
  | scr cell off =>
    obtain ⟨g1, g2, g3⟩ := performed (locScr cell off) u rfl rfl (doPart_scr hfP)
    cases hop : a.2 with
    | read n => exact ⟨trivial, fun _ => congrArg some (g2 n hop)⟩
    | write n v => exact ⟨g1 _ _ hop, fun _ => trivial⟩
    | amo o w y z => exact ⟨trivial, fun _ => ⟨congrArg some (g3 _ _ _ _ hop).1, (g3 _ _ _ _ hop).2⟩⟩
  | remote g x => exact absurd hfP.answers (by simp [Answers])
  | dev off =>
    obtain ⟨w, hd, hw⟩ := doPart_dev (id := id) (ix := ix) hfP
    rw [hd] at hval
    simp only [Done.val.injEq] at hval
    have hdev : ∀ n, devRead u off n = devRead s off n := fun n =>
      devRead_congr (by rw [r1.calm.pkg, hready.pkg]) (by rw [r1.calm.mid.dies, hready.dies])
        (fun d => by rw [r1.calm.cells, hready.cells]) off n
    cases hop : a.2 with
    | read n =>
      refine ⟨trivial, fun _ => ?_⟩
      show some v = some (devRead s off n)
      rw [← hdev, ← hw n hop, hval]
    | write n v => exact ⟨trivial, fun _ => trivial⟩
    | amo o w y z => exact ⟨trivial, fun _ => trivial⟩
end

/-- What stands after the acts is decided by memory, the L1s and the stores on their way. -/
theorem reads_congr {s t u : State} {m : MemUse} {c : Nat} {tgt : Target} {op : HomeOp} {v : Option Nat} (h : u.mem = t.mem)
    (k : Reads s t m c tgt op v) : Reads s u m c tgt op v := by
  cases tgt <;> cases op <;> simpa only [Reads, rd_congr h] using k
theorem stands_congr {s t u : State} {m : MemUse} {p : Nat} {tgt : Target} {op : HomeOp} (h : u.mem = t.mem)
    (h2 : ∀ c, u.cell c = t.cell c) (h3 : u.stores = t.stores) (k : Stands s t m p tgt op) : Stands s u m p tgt op := by
  cases tgt <;> cases op <;> simpa only [Stands, rd_congr h, h2, h3] using k

/-- A memory form that passes its checks completes as the obligations say. -/
theorem completesMem_of {i : Instr} {gd : Guard} {m : MemUse} {f : MemSpec} (h : MemOf i gd m f) : CompletesMem i gd m := by
  intro s hr ho hreach
  have hasks : ∀ p, f.asksOf s (actingLanes s gd) p = if p ∈ m.who s then (m.accs s p).map (·.1) else [] := by
    intro p
    unfold MemSpec.asksOf MemSpec.asks
    rw [h.who]
    by_cases hp : p ∈ m.who s
    · rw [if_pos hp, if_pos (by simpa using hp), h.accs, List.map_map]
      rfl
    · rw [if_neg hp, if_neg (by simpa using hp)]
  have hasksf : f.asksOf s (actingLanes s gd) = fun p => if p ∈ m.who s then (m.accs s p).map (·.1) else [] := funext hasks
  have hclear : Clear s { form := memForm i f, gd := gd } :=
    { excluded := by simp [memForm], issuer := rfl, alley := fun _ _ => rfl, priv := Or.inl rfl, regs := hr
      reads := fun p _ r hr => absurd hr (by simp [memForm])
      links := rfl
      fence := stageFence_met (by show OrderMet s gd (waitsForAll i); rw [h.all]; exact ho)
      operand := rfl, engine := stageEngine_none rfl
      access := by
        show accessStage s _ (f.asksOf s (actingLanes s gd)) = .ok
        rw [hasksf]
        exact accessStage_ok hreach
      values := rfl
      room := by
        show roomStage s _ (f.asksOf s (actingLanes s gd)) = .ok
        rw [hasksf]
        exact roomStage_ok hreach
      holds := rfl, price := Or.inl rfl }
  have hx : exec i s = .next (mendWord s (actingLanes s gd) i ((memForm i f).act s (advance s) (actingLanes s gd))) := by
    rw [h.run, run_clear hclear, payBundle_free rfl]
    rfl
  obtain ⟨v, b, hadv⟩ := advance_eq s
  have hlanes : LanesIssue s (advance s) := fun p => str_advance s p
  -- the lanes that make accesses
  by_cases hemp : (actingLanes s gd).isEmpty = true
  · have hwho : m.who s = [] := by
      rw [List.eq_nil_iff_forall_not_mem]
      intro p hp
      have := h.sub s p hp
      rw [List.isEmpty_iff] at hemp
      rw [hemp] at this
      simp at this
    obtain ⟨br, hbr, hbs⟩ := mendWord_eq s (actingLanes s gd) i (advance s)
    refine ⟨(advance s).setBadRegs br, ?_, ?_, fun _ => hlanes, ?_, ?_, ?_⟩
    · rw [hx]; simp only [memForm, hemp, if_true]; rw [hbr]
    · rw [hadv] at hlanes hbs ⊢
      exact {
        regs := RegsKept.of_tables rfl rfl rfl rfl rfl rfl rfl
        strands := fun p => by rw [← hlanes p]; rfl
        older := fun _ _ => rfl
        sets := fun _ _ => rfl
        gangs := fun _ => rfl
        grids := fun _ => rfl
        alley := rfl
        absent := rfl
        cells := fun _ _ => rfl
        bad := hbs }
    · intro _ p hp; rw [hwho] at hp; simp at hp
    · intro _ p hp; rw [hwho] at hp; simp at hp
    · intro _
      rw [hwho, hadv]
      exact ⟨fun p hp => absurd hp (by simp), fun _ _ => rfl, rfl, rfl⟩
  -- where the acts begin
  generalize hrows : (m.who s).flatMap (fun p => (f.parts s p).flatMap (rowsOf s p f.relaxed)) = rows
  generalize ht0 : acqL1 (relL1 (if f.dev then advance s else countAsks s (advance s) (actingLanes s gd) (f.asksOf s (actingLanes s gd)))
    (curCell s) f.rel) (curCell s) f.acq = t0
  generalize ht1 : (occupy t0 rows).1 = t1
  generalize hu : (m.who s).foldl (memLane f s) t1 = u
  obtain ⟨l, hl1, hl2, hl3⟩ := delayFrom_eq u t0.fresh (occupy t0 rows).2
  obtain ⟨br, hbr, hbs⟩ := mendWord_eq s (actingLanes s gd) i (u.setPend l)
  have hnext : exec i s = .next ((u.setPend l).setBadRegs br) := by
    rw [hx]
    simp only [memForm, hemp, Bool.false_eq_true, if_false, h.who, ht0, hrows, ht1, hu]
    rw [hl1, hbr]
  -- the frame
  have hsubl : ∀ p ∈ m.who s, p ∈ s.cur.lanes := fun p hp => (List.mem_filter.1 (h.sub s p hp)).1
  generalize hC : ({ cell := ownCell s, pend := fun id => id < s.fresh, fences := m.acq = true } : Touch) = C
  have hCc : ∀ c, C.cell c ↔ ownCell s c := fun c => by rw [← hC]
  have hCp : ∀ id, C.pend id ↔ id < s.fresh := fun c => by rw [← hC]
  have hCw : ¬C.whole := by rw [← hC]; exact fun h => h
  have hCf : f.acq.isSome = true → C.fences := by intro hh; rw [← hC]; show m.acq = true; rw [h.acq]; exact hh
  have hcur : C.cell (curCell s) := (hCc _).2 (Or.inl rfl)
  have hcp : ∀ p ∈ m.who s, C.cell (cellOf p) := fun p hp => (hCc _).2 (Or.inr ⟨p, hsubl p hp, rfl⟩)
  have hm0 : Mid C (advance s) t0 := by
    rw [← ht0]
    refine (Mid.trans ?_ (mid_relL1 _ _ hcur)).trans (mid_acqL1 _ _ hcur)
    split
    · exact Mid.refl _ _
    · exact mid_countAsks s _ _ _ hcur
  have hocc : Mid C t0 t1 ∧ t1.fresh = t0.fresh := by
    rw [← ht1]
    obtain ⟨cs, e1, e2⟩ := occupy_eq t0 rows
    rw [e1] at e2 ⊢
    exact ⟨mid_setCells t0 cs e2, rfl⟩
  have hm1 := hm0.trans hocc.1
  have hf0 : (advance s).fresh = s.fresh := by rw [hadv]; rfl
  have hp1 : ∀ id, C.pend id → id < t1.fresh := fun id hid =>
    Nat.lt_of_lt_of_le ((hCp id).1 hid) (by rw [← hf0]; exact hm1.fresh)
  have hm2 : Mid C t1 u := by rw [← hu]; exact mid_memLanes f s (m.who s) t1 hcp hCf hp1 hCw
  have hm3 : Mid C u (u.setPend l) := mid_setPend u l (fun id hid => hl2 id (by rw [← hocc.2]; exact hp1 id hid)) hCw
  have hmid := (hm1.trans hm2).trans hm3
  have hstr : ∀ p, (advance s).str p = if p ∈ s.cur.lanes then issueOne s.cur.nba (s.str p) else s.str p := hlanes
  have hentry : ∀ p ∈ m.who s, ∃ l1 l2, m.who s = l1 ++ p :: l2 := fun p hp => List.append_of_mem hp
  have hparts : ∀ p, (m.accs s p).map (fun a => (targetOf s p a.1, a.1.va, a.2)) = (f.parts s p).map (fun q => (q.tgt, q.va, q.op)) := by
    intro p; rw [h.parts, List.map_map]; rfl
  have hkp : ∀ (p k : Nat) (a : Ask × HomeOp), (m.accs s p)[k]? = some a → (f.parts s p)[k]? = some (partOf s p a) := by
    intro p k a ha
    rw [h.parts, List.getElem?_map, ha]; rfl
  -- where every act can be performed
  have hquiet : AllAnswer s m → Ready s t1 m.home ∧ (∀ q ∈ m.who s, ∀ b ∈ m.accs s q, Fit f.relaxed (cellOf q) t1 (partOf s q b)) ∧
      Quiet (m.who s) s.fresh t1 ∧ Run C f.relaxed (Every s m) t1 u ∧ Ran C f.relaxed (Every s m) t1 u := by
    intro ha
    have hready : Ready s t1 m.home := by
      rw [← ht1, ← ht0]
      exact occupied_ready (ordered_ready (counted_ready ⟨v, b, hadv⟩ ha.clean f.dev _ _) h.home) rows
    have hfit : ∀ q ∈ m.who s, ∀ b ∈ m.accs s q, Fit f.relaxed (cellOf q) t1 (partOf s q b) := by
      intro q hq b hb
      refine ⟨answers_congr hready.poison hready.pkg hready.absent (ha.answers q hq b hb), (h.size s q b hb).1, ?_, ha.plain q hq b hb,
        ?_, ?_, ?_, ?_, rfl, rfl⟩
      · intro hrx
        exact ((h.size s q b hb).2 (by rw [h.home, hrx]; rfl)).2.1
      · exact blockTag_congr hready.cells _
      · intro hh
        rw [hready.pkg]
        rcases hreach.host with k | k
        · exact k
        · have := k q (h.sub s q hq) b.1 (by rw [if_pos hq]; exact List.mem_map.2 ⟨b, hb, rfl⟩)
          rw [show isHost (targetOf s q b.1) = true from hh] at this
          exact absurd this (by simp)
      · intro _
        rw [l1Held_congr hready.cells hready.time]
        exact ha.free q hq
      · intro hrx loc die ht x hx
        have hh : m.home = false := by rw [h.home, hrx]; rfl
        rw [hready.l1 hh] at hx
        exact ha.sound hh q hq b hb loc die ht x hx
    have hso : Sound f.relaxed (Every s m) t1 := by
      rintro c x ⟨q, hq, b, hb, rfl, rfl⟩
      exact hfit q hq b hb
    have hq1 : Quiet (m.who s) s.fresh t1 := by
      intro e he hor q hqm
      rw [hready.pend] at he
      have hlt := ha.numbers e he
      rcases hor with hor | hor
      · have := ha.done _ hor
        unfold unperformed at this
        have hnil : ∀ (x : Nat × Pend) (l : Tab Pend), tkeys l = [] → x ∉ l := by
          intro x l hl hx
          cases l with
          | nil => simp at hx
          | cons y r => obtain ⟨j, w⟩ := y; simp [tkeys] at hl
        have hni := hnil e _ this
        cases hvs : q.val.isSome with
        | true => rfl
        | false =>
          exfalso
          apply hni
          rw [List.mem_filter]
          refine ⟨he, ?_⟩
          simp only [decide_true, Bool.true_and, List.any_eq_true]
          refine ⟨q, hqm, ?_⟩
          cases hv : q.val with
          | none => rfl
          | some x => rw [hv] at hvs; simp at hvs
      · omega
    have hcl : f.relaxed = false → ∀ c, C.cell c → ∀ e ∈ (t1.cell c).l1, e.2.dirty = 0#32 := fun hrx c hc =>
      hready.clean (by rw [h.home, hrx]; rfl) c ((hCc c).1 hc)
    have hrun := memLanes_run (C := C) (S := Every s m) f s (m.who s) t1 hcp hCf hp1 hCw (by
      intro p hp q hq
      rw [h.parts] at hq
      obtain ⟨b, hb, rfl⟩ := List.mem_map.1 hq
      exact ⟨p, hp, b, hb, rfl, rfl⟩) hso hcl (fun _ hp => hp) hq1
    rw [hu] at hrun
    exact ⟨hready, hfit, hq1, hrun.1, run_ran hrun.1 hso hcl⟩
  -- one access of one lane
  have hone : AllAnswer s m → ∀ p ∈ m.who s, ∀ l1 l2, m.who s = l1 ++ p :: l2 → ∀ k a, (m.accs s p)[k]? = some a →
      ∃ w e id ix x, At C s m f.relaxed p k (partOf s p a) t1 w e id ix x u ∧
        ∀ pe, tfind u.pend (l1.foldl (memLane f s) t1).fresh = some pe → f.isRead = true → ∃ q, pe.parts[k]? = some q ∧ q.val = some x := by
    intro hall p hp l1 l2 hsplit k a ha
    obtain ⟨hready, hfit, hq1, _, _⟩ := hquiet hall
    have hnd := hall.lanes
    have hnot : ∀ q ∈ l1 ++ l2, q ≠ p ∧ q ∈ m.who s := by
      intro q hq
      rw [hsplit] at hnd ⊢
      refine ⟨?_, ?_⟩
      · rintro rfl
        rw [List.nodup_append] at hnd
        obtain ⟨n1, n2, n3⟩ := hnd
        rcases List.mem_append.1 hq with hq | hq
        · exact n3 q hq q List.mem_cons_self rfl
        · exact (List.nodup_cons.1 n2).1 hq
      · rcases List.mem_append.1 hq with hq | hq
        · exact List.mem_append_left _ hq
        · exact List.mem_append_right _ (List.mem_cons_of_mem _ hq)
    have ham := List.mem_of_getElem? ha
    have hso : Sound f.relaxed (Others s m p k) t1 := by
      rintro c x ⟨q, hq, j, z, _, rfl, hz, rfl⟩
      exact hfit q hq z (List.mem_of_getElem? hz)
    obtain ⟨w, e, id, ix, x, b1, b2, b3, b4, b5, b6, b7⟩ := memLanes_at (C := C) (S := Others s m p k) f s l1 l2 p k (partOf s p a) t1
      (hkp p k a ha) (fun q hq => hcp q (by rw [hsplit]; exact hq)) hCf hp1 hCw
      (by
        intro q hq x hx
        obtain ⟨n1, n2⟩ := hnot q hq
        rw [h.parts] at hx
        obtain ⟨z, hz, rfl⟩ := List.mem_map.1 hx
        obtain ⟨j, hj, he⟩ := List.mem_iff_getElem.1 hz
        exact ⟨q, n2, j, z, fun hh => n1 hh.1, rfl, by rw [List.getElem?_eq_getElem hj, he], rfl⟩)
      (by
        intro j x hx hne
        rw [h.parts, List.getElem?_map, Option.map_eq_some_iff] at hx
        obtain ⟨z, hz, rfl⟩ := hx
        exact ⟨p, hp, j, z, fun hh => hne hh.2, rfl, hz, rfl⟩)
      hso (hfit p hp a ham)
      (fun hrx c hc => hready.clean (by rw [h.home, hrx]; rfl) c ((hCc c).1 hc)) (by rw [← hsplit]; exact hq1)
    rw [← hsplit, hu] at b6 b7
    exact ⟨w, e, id, ix, x, ⟨b1, b2, b3, b4, b5, b6⟩, b7⟩
  refine ⟨_, hnext, ?_, ?_, ?_, ?_, ?_⟩
  · exact {
      regs := RegsKept.of_tables (by show (u.setPend l).gs = _; rw [hmid.gs, hadv]; rfl) (by show (u.setPend l).hs = _; rw [hmid.hs, hadv]; rfl)
        (by show (u.setPend l).ws = _; rw [hmid.ws, hadv]; rfl) (by show (u.setPend l).ps = _; rw [hmid.ps, hadv]; rfl)
        (by show (u.setPend l).ks = _; rw [hmid.ks, hadv]; rfl) (by show (u.setPend l).es = _; rw [hmid.es, hadv]; rfl)
        (by show (u.setPend l).eflags = _; rw [hmid.eflags, hadv]; rfl)
      strands := fun p => by
        show { (u.setPend l).str p with fenceAny := [] } = _
        rw [hmid.strands p, hstr p]
      older := fun id hid => by
        show tfind (u.setPend l).pend id = _
        rw [hmid.older id ((hCp id).2 hid), hadv]; rfl
      sets := fun a c => by
        show rdJ (u.setPend l) a c = _
        unfold rdJ; rw [hmid.js, hadv]; rfl
      gangs := fun a => by
        show (u.setPend l).gang a = _
        unfold State.gang; rw [hmid.gangs, hadv]; rfl
      grids := fun a => by
        show (u.setPend l).grid a = _
        unfold State.grid; rw [hmid.grids, hadv]; rfl
      alley := by show (u.setPend l).alley = _; rw [hmid.alley, hadv]; rfl
      absent := by show (u.setPend l).absent = _; rw [hmid.absent, hadv]; rfl
      cells := fun d hd => by
        show noBank ((u.setPend l).cell d) = _
        rw [hmid.cells d fun hh => hd ((hCc d).1 hh), hadv]; rfl
      bad := fun r hr => by
        have : (u.setPend l).badRegs = s.badRegs := by rw [hmid.bad, hadv]; rfl
        rw [← this]; exact hbs r hr }
  · intro hacq p
    show (u.setPend l).str p = _
    rw [hmid.exact (by rw [← hC]; show ¬(m.acq = true); rw [hacq]; simp) p]
    exact hlanes p
  · intro hrd p hp
    obtain ⟨l1, l2, hsplit⟩ := hentry p hp
    have hent := memLanes_entry f s l1 l2 p t1 (Or.inl (by rw [← h.reads]; exact hrd))
    rw [← hsplit, hu] at hent
    obtain ⟨e1, e, e2, e3, e4, e5, e6, e7, _⟩ := hent
    obtain ⟨d, hd⟩ := hl3 _ e e2
    refine ⟨_, _, ?_, hd, e3, by rw [h.shape]; exact e4, by rw [h.shape]; exact e5, by rw [hparts]; exact e6, ?_, ?_⟩
    · rw [← hf0]; exact Nat.le_trans hm1.fresh e1
    · intro k a q g x ha hq ht
      exact e7 k _ q g x (hkp p k a ha) rfl hq ht
    · intro hall k a q ha hq hap
      obtain ⟨hready, hfit, _, _, _⟩ := hquiet hall
      obtain ⟨w, ev, id, ix, y, hA, hB⟩ := hone hall p hp l1 l2 hsplit k a ha
      obtain ⟨q', c1, c2⟩ := hB e e2 (by rw [← h.reads]; exact hrd)
      have hqq : q = q' := by
        have : e.parts[k]? = some q := hq
        rw [c1] at this
        simpa using this.symm
      subst hqq
      have := (act_at hA hready h.home (fun c hc => (hCc c).1 hc) (hcp p hp) hp ha rfl hap hfit (h.size s)).2 hrd
      rw [c2]
      exact reads_congr (t := u) rfl this
  · intro hdev p hp k a ha hw
    obtain ⟨l1, l2, hsplit⟩ := hentry p hp
    have hent := memLanes_entry f s l1 l2 p t1 (Or.inr ⟨k, _, hkp p k a ha, hw, rfl⟩)
    rw [← hsplit, hu] at hent
    obtain ⟨e1, e, e2, e3, e4, e5, e6, _, e8⟩ := hent
    obtain ⟨d, hd⟩ := hl3 _ e e2
    obtain ⟨⟨q, q1, q2, q3, q4⟩, q5⟩ := e8 k _ (hkp p k a ha) hw rfl
    exact ⟨_, ⟨_, q, by rw [← hf0]; exact Nat.le_trans hm1.fresh e1, hd, e3, q1, q2, q3, q4⟩, q5 (by rw [← h.dev]; exact hdev)⟩
  · intro hall
    obtain ⟨hready, hfit, _, hrun, hran⟩ := hquiet hall
    refine ⟨?_, ?_, ?_, ?_⟩
    · intro p hp k a ha hap
      obtain ⟨l1, l2, hsplit⟩ := hentry p hp
      obtain ⟨w, ev, id, ix, y, hA, _⟩ := hone hall p hp l1 l2 hsplit k a ha
      have := (act_at hA hready h.home (fun c hc => (hCc c).1 hc) (hcp p hp) hp ha rfl hap hfit (h.size s)).1
      exact stands_congr (t := u) rfl (fun _ => rfl) rfl this
    · intro a ha
      show byteAt u a = _
      rw [hran.bytes a, byteAt_congr hready.mem]
      rintro c x ⟨q, hq, b, hb, rfl, rfl⟩ y n hw
      unfold partWrites at hw
      rw [Option.map_eq_some_iff] at hw
      obtain ⟨z, hz, he⟩ := hw
      simp only [Prod.mk.injEq] at he
      obtain ⟨rfl, rfl⟩ := he
      rw [← h.home] at hz
      exact ha q hq b hb z hz
    · show u.poison = s.poison
      rw [hran.calm.poison, hready.poison]
    · show u.pkg = s.pkg
      rw [hran.calm.pkg, hready.pkg]

end Sys2Proof.Machine
end

