-- ==== Sys2Proof/Tests/Slice0.lean ====
section
/-!
SUPPORT. Small tests of single steps, with expected values worked out from the spec's tables and examples; ill-formed terms that
the check refuses; and for each obligation with hypotheses a state and operands that meet them.
-/
namespace Sys2Proof.Tests

set_option Elab.async false

open Sys2Proof Sys2Proof.Machine

/-! ### Sample states -/

def always : Guard := ⟨false, 0⟩
def gr (n : Fin 32) : GReg := ⟨.g, n⟩
def hr (n : Fin 32) : GReg := ⟨.h, n⟩

/-- Block 0 of a live grid of ASID 1 runs in cell 0, with a scratchpad portion, a Terrace portion, a full pocket, a page
of 2 MiB at VA 200000₁₆ on die 0 and one of device registers at 400000₁₆. -/
def room : State :=
  putCell (putBlock (putGrid State.reset 0 { live := true, asid := 1, pkey := 7#16, shape := word (11 * 2 ^ 11), prio := 5 })
      0 { phase := .running, slots := [0], quantumEnd := 1000000 })
    0 { block := some 0, scrsz := 11, ter := 12, pocket := 64, slotmask := 0#4,
        tlb := [fetchEntry 1, { fetchEntry 1 with va := 0x400000, base := 3 * 2 ^ 49, place := 0, dev := true }] }

/-- A gang of 2^n lanes at position 0 of cell 0, in path 0, with a bundle of its own in hand; with `sup` its lane 0 handles a trap. -/
def lab (n : Nat) (sup : Bool) : State :=
  let ls := lanesFrom 0 (2 ^ n)
  let t := ls.foldl (fun t p => putStr t p {
    st := if sup then (if p = 0 then .supervisor else .frozen) else .ready, heldSt := .ready, lmode := .inPath 0,
    lpos := withLane 0#64 p n, pc := 0x200000#64, sret := 0x200100#64 }) room
  let u := putGang t 0 { turn := true, qleft := 64, handler := if sup then some 0 else none }
  u.setCur { lanes := if sup then [0] else ls, leader := 0, ba := 0x200000#64, nba := 0x200004#64, path := !sup, sup := sup }

/-- One strand with g1 = 200100₁₆, g2 = 5 and g3 = 3. -/
def solo : State := wrG (wrG (wrG (lab 0 false) 0 1 0x200100#64) 0 2 5#64) 0 3 3#64
/-- Four lanes with g1 = 200100₁₆ + 32 p and g2 = p. -/
def four : State := (List.range 4).foldl (fun t p => wrG (wrG t p 1 (word (0x200100 + 32 * p))) p 2 (word p)) (lab 2 false)
/-- A handling lane with g1 = 200100₁₆. -/
def super : State := wrG (lab 2 true) 0 1 0x200100#64

/-- One strand with g1 = x, g2 = y and g3 = z. -/
def args (x y z : Word) : State := wrG (wrG (wrG (lab 0 false) 0 1 x) 0 2 y) 0 3 z
/-- The state after an instruction. -/
def after (i : Instr) (s : State) : State := match exec i s with | .next t => t | _ => s
/-- g9 of position 0 after an instruction. -/
def g9 (i : Instr) (s : State) : Word := rdG (after i s) 0 9

theorem test_lab : actingLanes four always = [0, 1, 2, 3] ∧ curCell four = 0 ∧ leaderOf four 3 = 0 ∧ (resolve four 1
  { va := 0x200120#64, n := 8, al := 8, kind := .load } = .ok (.home 0x200120 0)) := by decide +kernel
/-- Each word decodes to its instruction, which is well formed and encodes to the word. -/
def reads (l : List (Nat × Instr)) : Bool :=
  l.all fun x => decide (decodeWord x.1 = .ok x.2) && wellFormed x.2 && decide (encode x.2 = some x.1)

/-! ### A word for every row of the opcode table that has one

Each is written from the match pattern and the field places of the row, with the codes of R202 to R216: guard ?!p2, D 8, S1 h3, S2 21,
and so on. -/

theorem test_words_1 : reads [
    (0x40A22355, .add ⟨true, 2⟩ (gr 8) (hr 3) (gr 21) .n32),
    (0x41A22355, .sub ⟨true, 2⟩ (gr 8) (hr 3) (gr 21) .n32),
    (0x42A22355, .mul ⟨true, 2⟩ (gr 8) (hr 3) (gr 21) .n32),
    (0x43A22355, .mulh ⟨true, 2⟩ (gr 8) (hr 3) (gr 21) .n32),
    (0x44A22355, .mad ⟨true, 2⟩ (gr 8) (hr 3) (gr 21) .n32),
    (0x45A22355, .div ⟨true, 2⟩ (gr 8) (hr 3) (gr 21) .n32),
    (0x46A22355, .rem ⟨true, 2⟩ (gr 8) (hr 3) (gr 21) .n32),
    (0x47A22355, .and ⟨true, 2⟩ (gr 8) (hr 3) (gr 21) .n32),
    (0x48A22355, .or ⟨true, 2⟩ (gr 8) (hr 3) (gr 21) .n32),
    (0x49A22355, .xor ⟨true, 2⟩ (gr 8) (hr 3) (gr 21) .n32),
    (0x4AA22355, .andn ⟨true, 2⟩ (gr 8) (hr 3) (gr 21) .n32),
    (0x4BA22355, .shl ⟨true, 2⟩ (gr 8) (hr 3) (gr 21) .n32),
    (0x4CA22355, .shr ⟨true, 2⟩ (gr 8) (hr 3) (gr 21) .n32),
    (0x4DA22355, .sar ⟨true, 2⟩ (gr 8) (hr 3) (gr 21) .n32),
    (0x4EA22355, .rot ⟨true, 2⟩ (gr 8) (hr 3) (gr 21) .n32),
    (0x4FA22355, .min ⟨true, 2⟩ (gr 8) (hr 3) (gr 21) .n32)] = true := by decide +kernel

theorem test_words_2 : reads [
    (0x50A22355, .max ⟨true, 2⟩ (gr 8) (hr 3) (gr 21) .n32),
    (0x51A223E5, .addi ⟨true, 2⟩ (gr 8) (hr 3) 57#6 .n32),
    (0x52A223E5, .andi ⟨true, 2⟩ (gr 8) (hr 3) 57#6 .n32),
    (0x53A223E5, .ori ⟨true, 2⟩ (gr 8) (hr 3) 57#6 .n32),
    (0x54A223E5, .xori ⟨true, 2⟩ (gr 8) (hr 3) 57#6 .n32),
    (0x55A23FF0, .li ⟨true, 2⟩ (gr 8) 16368#14),
    (0x56A23FF0, .lih ⟨true, 2⟩ (gr 8) 16368#14),
    (0x57A22301, .abs ⟨true, 2⟩ (gr 8) (hr 3) .n32),
    (0x57A22305, .neg ⟨true, 2⟩ (gr 8) (hr 3) .n32),
    (0x57A22309, .clz ⟨true, 2⟩ (gr 8) (hr 3) .n32),
    (0x57A2230D, .ctz ⟨true, 2⟩ (gr 8) (hr 3) .n32),
    (0x57A22311, .popc ⟨true, 2⟩ (gr 8) (hr 3) .n32),
    (0x57A22315, .brev ⟨true, 2⟩ (gr 8) (hr 3) .n32),
    (0x58A22355, .bfx ⟨true, 2⟩ (gr 8) (hr 3) (gr 21) .n32),
    (0x59A22355, .bfi ⟨true, 2⟩ (gr 8) (hr 3) (gr 21) .n32),
    (0x5BA22355, .sel ⟨true, 2⟩ (gr 8) (hr 3) (gr 21) 5)] = true := by decide +kernel

theorem test_words_3 : reads [
    (0x5CA22356, .lea ⟨true, 2⟩ (gr 8) (hr 3) (gr 21) 2),
    (0x5DA5A355, .cmp ⟨true, 2⟩ .lt 6 (hr 3) (gr 21) .n32),
    (0x5EA18314, .pand ⟨true, 2⟩ 6 3 5),
    (0x5EA18315, .por ⟨true, 2⟩ 6 3 5),
    (0x5EA18316, .pxor ⟨true, 2⟩ 6 3 5),
    (0x5EA18303, .pnot ⟨true, 2⟩ 6 3),
    (0x5FA18300, .voteSome ⟨true, 2⟩ 6 3),
    (0x5FA18301, .voteEvery ⟨true, 2⟩ 6 3),
    (0x5FA18302, .voteAgree ⟨true, 2⟩ 6 3),
    (0x5FA20303, .ballot ⟨true, 2⟩ (gr 8) 3),
    (0x60A22354, .shflPick ⟨true, 2⟩ (gr 8) (hr 3) (gr 21)),
    (0x60A22355, .shflLo ⟨true, 2⟩ (gr 8) (hr 3) (gr 21)),
    (0x60A22356, .shflHi ⟨true, 2⟩ (gr 8) (hr 3) (gr 21)),
    (0x60A22357, .shflMir ⟨true, 2⟩ (gr 8) (hr 3) (gr 21)),
    (0x61A22334, .bcast ⟨true, 2⟩ (gr 8) (hr 3) 13),
    (0x62AA855D, .fadd ⟨true, 2⟩ .rs 10 5 23 .f64)] = true := by decide +kernel

theorem test_words_4 : reads [
    (0x63AA855D, .fsub ⟨true, 2⟩ .rs 10 5 23 .f64),
    (0x64AA855D, .fmul ⟨true, 2⟩ .rs 10 5 23 .f64),
    (0x65AA855D, .fma ⟨true, 2⟩ .rs 10 5 23 .f64),
    (0x66A2855D, .fmin ⟨true, 2⟩ 10 5 23 .f64),
    (0x67A2855D, .fmax ⟨true, 2⟩ 10 5 23 .f64),
    (0x68AA855D, .fdiv ⟨true, 2⟩ .rs 10 5 23 .f64),
    (0x69AA8501, .fsqrt ⟨true, 2⟩ .rs 10 5 .f64),
    (0x69A28505, .fabs ⟨true, 2⟩ 10 5 .f64),
    (0x69A28509, .fneg ⟨true, 2⟩ 10 5 .f64),
    (0x6AAD855D, .fcmp ⟨true, 2⟩ .un 6 5 23 .f64),
    (0x6BA64370, .vadd ⟨true, 2⟩ .rs 9 3 12 .f64),
    (0x6CA64370, .vsub ⟨true, 2⟩ .rs 9 3 12 .f64),
    (0x6DA64370, .vmul ⟨true, 2⟩ .rs 9 3 12 .f64),
    (0x6EA64370, .vfma ⟨true, 2⟩ .rs 9 3 12 .f64),
    (0x6FA64330, .vmin ⟨true, 2⟩ 9 3 12 .f64),
    (0x70A64330, .vmax ⟨true, 2⟩ 9 3 12 .f64)] = true := by decide +kernel

theorem test_words_5 : reads [
    (0x71A64300, .vabs ⟨true, 2⟩ 9 3 .f64),
    (0x71A64301, .vneg ⟨true, 2⟩ 9 3 .f64),
    (0x72A64300, .vrcp ⟨true, 2⟩ 9 3 .f64),
    (0x72A64304, .vrsq ⟨true, 2⟩ 9 3 .f64),
    (0x72A64308, .vsqrt ⟨true, 2⟩ 9 3 .f64),
    (0x72A6430C, .vexp2 ⟨true, 2⟩ 9 3 .f64),
    (0x72A64310, .vlog2 ⟨true, 2⟩ 9 3 .f64),
    (0x72A64314, .vsin ⟨true, 2⟩ 9 3 .f64),
    (0x72A64318, .vcos ⟨true, 2⟩ 9 3 .f64),
    (0x73A64372, .vcmp ⟨true, 2⟩ .un 9 3 12 .f64),
    (0x74A24330, .vsel ⟨true, 2⟩ 9 3 12),
    (0x75A20301, .vsum ⟨true, 2⟩ (gr 8) 3 .f64),
    (0x76A20331, .vdot ⟨true, 2⟩ (gr 8) 3 12 .f64),
    (0x77A24331, .vperm ⟨true, 2⟩ 9 3 12 .b8),
    (0x78A51485, .cvtScalar ⟨true, 2⟩ 10 5 .f16 .f32 .rz),
    (0x79A93218, .cvtWide ⟨true, 2⟩ 9 3 .f16 .f32 .rs)] = true := by decide +kernel

theorem test_words_6 : reads [
    (0x7AA93C29, .pack ⟨true, 2⟩ 9 3 12 2 .rs true),
    (0x7BA93121, .unpk ⟨true, 2⟩ 9 3 true 2 true),
    (0x7CA93C39, .scl ⟨true, 2⟩ 9 3 12 3 .rs true),
    (0x7DA84300, .xadd ⟨true, 2⟩ 1 (.f32x8 3)),
    (0x7DA20151, .xget ⟨true, 2⟩ (gr 8) 1 true .rs),
    (0x7DA04002, .xclr ⟨true, 2⟩ 1),
    (0x7DA04003, .xmrg ⟨true, 2⟩ 1 0),
    (0x7EAAA55C, .mma ⟨true, 2⟩ (some .fab) .e4m3 2 5 23),
    (0x7FA2018C, .qrd ⟨true, 2⟩ (gr 8) .qe (some .qw)),
    (0x7FA0A301, .qwr ⟨true, 2⟩ .qs (hr 3)),
    (0x7FA20B02, .krd ⟨true, 2⟩ (gr 8) 11),
    (0x7FA2E303, .kwr ⟨true, 2⟩ 11 (hr 3)),
    (0x01AFFFFE, .br ⟨true, 2⟩ 1048574#20),
    (0x02AFFFFE, .call ⟨true, 2⟩ 1048574#20),
    (0x03A02300, .brx ⟨true, 2⟩ (hr 3)),
    (0x03A02301, .callx ⟨true, 2⟩ (hr 3))] = true := by decide +kernel

theorem test_words_7 : reads [
    (0x03A02302, .ret ⟨true, 2⟩ (hr 3)),
    (0x04A23FF0, .dbnz ⟨true, 2⟩ (gr 8) 16368#14),
    (0x05A10000, .jset ⟨true, 2⟩ 4),
    (0x05A10001, .jadd ⟨true, 2⟩ 4),
    (0x05A10002, .jquit ⟨true, 2⟩ 4),
    (0x05A10003, .jwait ⟨true, 2⟩ 4),
    (0x06A18400, .jtest ⟨true, 2⟩ 6 4),
    (0x06A20401, .jread ⟨true, 2⟩ (gr 8) 4),
    (0x06A12302, .jwrite ⟨true, 2⟩ 4 (hr 3)),
    (0x07A0000C, .fuse ⟨true, 2⟩ 3),
    (0x07A00001, .split ⟨true, 2⟩),
    (0x07A00002, .detach ⟨true, 2⟩),
    (0x07A00003, .stop ⟨true, 2⟩),
    (0x08A02338, .spawn ⟨true, 2⟩ (hr 3) 14),
    (0x08A02301, .spawnf ⟨true, 2⟩ (hr 3)),
    (0x08A00002, .yield ⟨true, 2⟩)] = true := by decide +kernel

theorem test_words_8 : reads [
    (0x08A02303, .grid ⟨true, 2⟩ (hr 3)),
    (0x09A223F6, .ld ⟨true, 2⟩ (gr 8) (hr 3) true 29#5 .b4),
    (0x0AA22356, .ldAcq ⟨true, 2⟩ (gr 8) (hr 3) .pkg true .b4),
    (0x0AA2239E, .ldDev ⟨true, 2⟩ (gr 8) (hr 3) (some .fab) true .b4),
    (0x0BAE6356, .st ⟨true, 2⟩ 57#6 (hr 3) (gr 21) .b4),
    (0x0CA52356, .stRel ⟨true, 2⟩ .pkg (hr 3) (gr 21) .b4),
    (0x0CA9A356, .stDev ⟨true, 2⟩ (some .fab) (hr 3) (gr 21) .b4),
    (0x0DA3A3E4, .ldw ⟨true, 2⟩ 14 (hr 3) 57#6),
    (0x0DA3A3E5, .stw ⟨true, 2⟩ 14 (hr 3) 57#6),
    (0x0DA3A342, .ldwAcq ⟨true, 2⟩ 14 (hr 3) .pkg),
    (0x0DA3A343, .stwRel ⟨true, 2⟩ 14 (hr 3) .pkg),
    (0x0EA223F6, .lds ⟨true, 2⟩ (gr 8) (hr 3) true 29#5 .b4),
    (0x0FAE6356, .sts ⟨true, 2⟩ 57#6 (hr 3) (gr 21) .b4),
    (0x10A2232A, .ldsAcq ⟨true, 2⟩ (gr 8) (hr 3) .pkg true .b4),
    (0x10A223A2, .stsRel ⟨true, 2⟩ (gr 8) (hr 3) .pkg .b4),
    (0x11A3A3E4, .ldsw ⟨true, 2⟩ 14 (hr 3) 57#6)] = true := by decide +kernel

theorem test_words_9 : reads [
    (0x11A3A3E5, .stsw ⟨true, 2⟩ 14 (hr 3) 57#6),
    (0x11A3A342, .ldswAcq ⟨true, 2⟩ 14 (hr 3) .pkg),
    (0x11A3A343, .stswRel ⟨true, 2⟩ 14 (hr 3) .pkg),
    (0x12AFA319, .gat ⟨true, 2⟩ (some .fab) 14 (hr 3) 6 true),
    (0x12AFA31B, .scat ⟨true, 2⟩ (some .fab) 14 (hr 3) 6 true),
    (0x13A02354, .pf ⟨true, 2⟩ (hr 3) (gr 21)),
    (0x14A2E3E4, .ldk ⟨true, 2⟩ 11 (hr 3) 57#6),
    (0x14A6E340, .ldkAcq ⟨true, 2⟩ 11 (hr 3) .pkg),
    (0x15A063E4, .xld ⟨true, 2⟩ 1 (hr 3) 57#6),
    (0x15A2E300, .xldAcq ⟨true, 2⟩ 1 (hr 3) .pkg),
    (0x15A063E5, .xst ⟨true, 2⟩ 1 (hr 3) 57#6),
    (0x15A2E301, .xstRel ⟨true, 2⟩ 1 (hr 3) .pkg),
    (0x16A223C4, .amoAdd ⟨true, 2⟩ (gr 8) (hr 3) true (.rel .die)),
    (0x16A223C5, .amoAnd ⟨true, 2⟩ (gr 8) (hr 3) true (.rel .die)),
    (0x16A223C6, .amoOr ⟨true, 2⟩ (gr 8) (hr 3) true (.rel .die)),
    (0x16A223C7, .amoXor ⟨true, 2⟩ (gr 8) (hr 3) true (.rel .die))] = true := by decide +kernel

theorem test_words_10 : reads [
    (0x17A223C4, .amoMinI ⟨true, 2⟩ (gr 8) (hr 3) true (.rel .die)),
    (0x17A223C5, .amoMinN ⟨true, 2⟩ (gr 8) (hr 3) true (.rel .die)),
    (0x17A223C6, .amoMaxI ⟨true, 2⟩ (gr 8) (hr 3) true (.rel .die)),
    (0x17A223C7, .amoMaxN ⟨true, 2⟩ (gr 8) (hr 3) true (.rel .die)),
    (0x18A223C4, .amoSwap ⟨true, 2⟩ (gr 8) (hr 3) true (.rel .die)),
    (0x18A223C5, .amoPmin ⟨true, 2⟩ (gr 8) (hr 3) (.rel .die)),
    (0x18A223C6, .cas ⟨true, 2⟩ (gr 8) (hr 3) true (.rel .die)),
    (0x18A22347, .cas2 ⟨true, 2⟩ (gr 8) (hr 3) (.rel .die)),
    (0x19A22344, .amofF32 ⟨true, 2⟩ (gr 8) (hr 3) (.rel .die)),
    (0x19A22345, .amofF64 ⟨true, 2⟩ (gr 8) (hr 3) (.rel .die)),
    (0x19A22346, .amoxF32 ⟨true, 2⟩ (gr 8) (hr 3) (.rel .die)),
    (0x19A22347, .amoxF64 ⟨true, 2⟩ (gr 8) (hr 3) (.rel .die)),
    (0x1AA00008, .fenceAcq ⟨true, 2⟩ .pkg),
    (0x1AA00009, .fenceRel ⟨true, 2⟩ .pkg),
    (0x1AA0000A, .fenceAr ⟨true, 2⟩ .pkg),
    (0x1AA0000B, .fenceSc ⟨true, 2⟩ .pkg)] = true := by decide +kernel

theorem test_words_11 : reads [
    (0x1BA223D0, .wait ⟨true, 2⟩ (gr 8) (hr 3) true (some .fab)),
    (0x1CAAA55C, .cpy ⟨true, 2⟩ (some .fab) 10 5 23),
    (0x1DAAA55C, .tld ⟨true, 2⟩ (some .fab) 10 5 23),
    (0x1EAAA55C, .tldm ⟨true, 2⟩ (some .fab) 10 5 23),
    (0x1FAAA55C, .chase ⟨true, 2⟩ (some .fab) 10 5 23),
    (0x20A02300, .multicastSub ⟨true, 2⟩ (hr 3)),
    (0x20A02301, .multicastUnsub ⟨true, 2⟩ (hr 3)),
    (0x21A32300, .tbinit ⟨true, 2⟩ 12 (hr 3)),
    (0x21A32301, .tbexp ⟨true, 2⟩ 12 (hr 3)),
    (0x21A30002, .tbarr ⟨true, 2⟩ 12),
    (0x21A30003, .tbwait ⟨true, 2⟩ 12),
    (0x22A18C00, .tbtest ⟨true, 2⟩ 6 12),
    (0x22A00001, .bbarr ⟨true, 2⟩),
    (0x22A00002, .bbwait ⟨true, 2⟩),
    (0x23A02338, .send ⟨true, 2⟩ (hr 3) 14),
    (0x23A38001, .recv ⟨true, 2⟩ 14)] = true := by decide +kernel

theorem test_words_12 : reads [
    (0x23A3A31A, .recvt ⟨true, 2⟩ 14 (hr 3) 6),
    (0x24A08000, .mmz ⟨true, 2⟩ 2),
    (0x24A0A355, .mmst ⟨true, 2⟩ 2 (hr 3) (gr 21)),
    (0x24A0A356, .mmld ⟨true, 2⟩ 2 (hr 3) (gr 21)),
    (0x24A22303, .mmpoll ⟨true, 2⟩ (gr 8) (hr 3)),
    (0x25A22308, .mmjob ⟨true, 2⟩ (gr 8) (hr 3) .e4m3),
    (0x26A20000, .tokq ⟨true, 2⟩ (gr 8)),
    (0x27AFFFFE, .trap ⟨true, 2⟩ 1048574#20),
    (0x28A00000, .sysret ⟨true, 2⟩),
    (0x28A00001, .halt ⟨true, 2⟩),
    (0x28A02302, .kill ⟨true, 2⟩ (hr 3)),
    (0x29A20040, .rdsr ⟨true, 2⟩ (gr 8) 0x010#12),
    (0x29A20041, .wrsr ⟨true, 2⟩ (gr 8) 0x010#12),
    (0x2AA00000, .tlbinvAll ⟨true, 2⟩),
    (0x2AA02301, .tlbinvAsid ⟨true, 2⟩ (hr 3)),
    (0x2AA02356, .tlbinvPage ⟨true, 2⟩ (hr 3) (gr 21))] = true := by decide +kernel

theorem test_words_13 : reads [
    (0x2BA02354, .cwb ⟨true, 2⟩ (hr 3) (gr 21)),
    (0x2BA02355, .cinv ⟨true, 2⟩ (hr 3) (gr 21)),
    (0x2BA22302, .probe ⟨true, 2⟩ (gr 8) (hr 3))] = true := by decide +kernel

/-! ### The words that the spec writes out -/

theorem test_spec_words_integer : reads [
    (0x4101078A, .sub always (gr 4) (gr 7) (hr 2) .i64),
    (0x5100C3FD, .addi always (gr 3) (gr 3) (-1) .n32),
    (0x55014001, .li always (gr 5) 1),
    (0x560148D1, .lih always (gr 5) 0x08D1),
    (0x5700C40B, .clz always (gr 3) (gr 4) .n64),
    (0x5B00C109, .sel always (gr 3) (gr 1) (gr 2) 5),
    (0x5D148108, .cmp ⟨false, 1⟩ .lt 2 (gr 1) (gr 2) .i32),
    (0x5F024303, .ballot always (gr 9) 3),
    (0x6001451B, .shflMir always (gr 5) (gr 5) (gr 6)),
    (0x02000100, .call always 256),
    (0x03001F02, .ret always (gr 31)),
    (0x04033FF0, .dbnz always (gr 12) (-16)),
    (0x0500C003, .jwait always 3),
    (0x06008100, .jtest always 2 1),
    (0x07000010, .fuse always 4),
    (0x08000408, .spawn always (gr 4) 2)] = true := by decide +kernel

theorem test_spec_words_float : reads [
    (0x6200C108, .fadd always .rn 3 1 2 .f32),
    (0x65024AAD, .fma always .rz 9 10 11 .f64),
    (0x6A0C8414, .fcmp always .un 2 4 5 .f32),
    (0x6E008350, .vfma always .rs 2 3 4 .f32),
    (0x72044108, .vsqrt always 1 1 .f64),
    (0x78039885, .cvtScalar always 7 6 .f16 .f32 .rz),
    (0x7A012321, .pack always 1 2 3 2 .rn true),
    (0x7D080300, .xadd always 0 (.f32x8 3)),
    (0x7D014141, .xget always (gr 5) 1 true .rn),
    (0x7D000002, .xclr always 0),
    (0x15004419, .xst always 1 (gr 4) 6)] = true := by decide +kernel

theorem test_spec_words_matrix : reads [
    (0x7E000414, .mma always none .fp16 0 4 5),
    (0x7E0A4416, .mma always (some .die) .e4m3 1 4 5),
    (0x7E04CA2C, .mma always none .e2m1 3 10 11),
    (0x24008000, .mmz always 2),
    (0x24000825, .mmst always 0 (gr 8) (gr 9)),
    (0x24004826, .mmld always 1 (gr 8) (gr 9)),
    (0x2400C203, .mmpoll always (gr 3) (gr 2)),
    (0x2500C208, .mmjob always (gr 3) (gr 2) .e4m3)] = true := by decide +kernel

theorem test_spec_words_memory : reads [
    (0x0900C4F5, .ld always (gr 3) (gr 4) true (-3) .b2),
    (0x0B00C21F, .st always 3 (gr 2) (gr 7) .b8),
    (0x0A01480A, .ldDev always (gr 5) (gr 8) none false .b4),
    (0x0C03060E, .stRel always .die (gr 6) (gr 3) .b4),
    (0x0D008308, .ldw always 2 (gr 3) 2),
    (0x10014982, .stsRel always (gr 5) (gr 9) .cell .b4),
    (0x12004809, .gat always none 1 (gr 8) 2 true),
    (0x1208C250, .gat always (some .die) 3 (gr 2) 4 false),
    (0x1300020C, .pf always (gr 2) (gr 3)),
    (0x14008108, .ldk always 2 (gr 1) 2),
    (0x160146E8, .amoAdd always (gr 5) (gr 6) true (.ar .pkg)),
    (0x1801C281, .amoPmin always (gr 7) (gr 2) .relaxed),
    (0x18010AA6, .cas always (gr 4) (gr 10) true (.acq .die)),
    (0x1900CC02, .amoxF32 always (gr 3) (gr 12) .relaxed),
    (0x1A000013, .fenceSc always .fab),
    (0x1B010648, .wait always (gr 4) (gr 6) false (some .pkg))] = true := by decide +kernel

theorem test_spec_words_system : reads [
    (0x1C01020C, .cpy always none 4 2 3),
    (0x1D09820E, .tld always (some .die) 6 2 3),
    (0x1E0A028C, .tldm always (some .pkg) 8 2 3),
    (0x1F02851C, .chase always none 10 5 7),
    (0x20000300, .multicastSub always (gr 3)),
    (0x21008500, .tbinit always 2 (gr 5)),
    (0x21008501, .tbexp always 2 (gr 5)),
    (0x21008003, .tbwait always 2),
    (0x22004200, .tbtest always 1 2),
    (0x22000002, .bbwait always),
    (0x23000404, .send always (gr 4) 1),
    (0x2300850E, .recvt always 2 (gr 5) 3),
    (0x26024000, .tokq always (gr 9)),
    (0x27000042, .trap always 0x42),
    (0x28000202, .kill always (gr 2)),
    (0x2901400C, .rdsr always (gr 5) 0x003),
    (0x2900C041, .wrsr always (gr 3) 0x010),
    (0x2A00041A, .tlbinvPage always (gr 4) (gr 6))] = true := by decide +kernel

/-- The words of the example programs (R427, R521). R427 prints the `tbexp` as 2134_0E01, whose D is 16; by its own fields, GP 3, D 1
and S1 14, it is 2130_4E01 (notes/assumptions/6.md). -/
theorem test_spec_words_programs : reads [
    (0x7D000103, .xmrg always 0 1),
    (0x0790_0003, .stop ⟨true, 1⟩),
    (0x1004_5003, .ldsAcq always (gr 17) (gr 16) .cell false .b8),
    (0x1004_5083, .stsRel always (gr 17) (gr 16) .cell .b8),
    (0x012F_FFFE, .br ⟨false, 2⟩ (-2)),
    (0x2130_4E01, .tbexp ⟨false, 3⟩ 1 (gr 14)),
    (0x1E42_8944, .tldm ⟨false, 4⟩ none 10 9 17),
    (0x1D3A_980A, .tld ⟨false, 3⟩ (some .die) 10 24 2),
    (0x1605_5282, .amoOr always (gr 21) (gr 18) true .relaxed),
    (0x5C00_C30E, .lea always (gr 3) (gr 3) (gr 3) 2),
    (0x4602_4323, .rem always (gr 9) (gr 3) (gr 8) .n64),
    (0x0F00_050B, .sts always 0 (gr 5) (gr 2) .b8),
    (0x2A00_0301, .tlbinvAsid always (gr 3)),
    (0x2900_0445, .wrsr always (gr 0) 0x111)] = true := by decide +kernel

/-- A pair: the `call` of R257 as the head, an `addi` after it (R198, R257); at an odd word address it is no bundle (R201). -/
theorem test_pair : decodeBundle false 0x82000100 0x5100C3FD = .pair 0x82000100 0x5100C3FD (.call always 256)
    (.addi always (gr 3) (gr 3) (-1) .n32) ∧ decodeBundle true 0x82000100 0x5100C3FD = .bad 1 0x82000100 0 := by decide +kernel

/-! ### Ill-formed terms, and words that no instruction has -/

/-- An 8-byte load has no SGN (R321, R325); `cas` and `wait` need an even register, `cas2` a multiple of four, and `tld` an even one (R205). -/
theorem test_ill_formed_operands : [Instr.ld always (gr 1) (gr 2) true 0 .b8, .ldAcq always (gr 1) (gr 2) .die true .b8,
    .ldDev always (gr 1) (gr 2) none true .b8, .lds always (gr 1) (gr 2) true 0 .b8, .ldsAcq always (gr 1) (gr 2) .die true .b8,
    .cas always (gr 3) (gr 2) true .relaxed, .cas2 always (gr 6) (gr 2) .relaxed, .wait always (gr 5) (gr 2) true none,
    .tld always none 7 2 3, .tldm always none 9 2 3, .chase always none 11 2 3, .rdsr always (gr 1) 0x555,
    .wrsr always (gr 1) 0x003].all (fun i => !wellFormed i) = true := by decide +kernel

/-- A step names a unit that the package has (R21). -/
theorem test_ill_formed_steps : [Instr.syncOpComplete 40960, .bankingSwitchComplete 640, .spawnTimeoutRelease 640 0,
    .gatheredGangPlace 640, .pathQuantumExpiry 40960, .orphanFault 40960, .sqnote 40960, .monitorFire 40960, .waitTimeout 40960,
    .recvtTimeout 40960, .blockBarrierSweep 640, .matrixOpComplete 640, .matrixOpStart 640, .tokenRequestPaid 640,
    .ringStationStep 4 0, .ringStationStep 0 160, .ballastRevolution 4, .strandSave 40960, .stallDetect 40960, .starveDetect 640,
    .launch 4096 0 64 0, .launch 0 4090 64 0, .launch 0 0 0 0, .launch 0 0 65 0, .hostMemoryAccess true 0 65 0 false,
    .hostMemoryAccess true 0xC000000000 1 0 false, .hostMemoryAccess true 0 0 0 false, .bootStageComplete 6, .railselWrite 640 0,
    .railSwitchComplete 640, .slotmaskWrite 640 0, .cfenceWrite 640 0, .ringcfgWrite 4 0, .registerWrite 0x2000000000000000 0,
    .flitReceive 32 0 .add, .laneErase 32 0, .laneErase 0 5, .portTrainingDone 32, .hopRetry .ring 4 0 0 true,
    .hopRetry .ring 0 160 0 true, .hopRetry .ring 0 0 4 true, .thermalWarn 0 256, .railFault 4 0, .railFault 0 2, .railHoldEnd 4 0,
    .railHoldEnd 0 2, .hbmSupplyFault 12, .securityAlarm 0 0, .securityAlarm 4 0, .hostCxlCacheRequest 1 true 0,
    .hostCxlCacheRequest 0x2000000000000 true 0, .switchPlaneLoss 32, .railReturnsToTolerance 4 0, .railReturnsToTolerance 0 2].all
    (fun i => !wellFormed i) = true := by decide +kernel

/-- Words with no instruction: RM 5, an unassigned major, a bit that must be zero, an odd `cas` register (R453 to R457). -/
theorem test_refused_words : [0x6208C188, 0x21340E01, 0x3F000000, 0x7D010002, 0x1800CAA6].all
    (fun w => (decodeTableWord 32 w).isNone) = true := by decide +kernel

/-! ### One step of each family, with results worked out by hand from the rules cited -/

/-- R206, R230: results wrap to the type, signed ones sign-extended and unsigned ones zero-extended to 64 bits. -/
theorem test_add_wraps : g9 (.add always (gr 9) (gr 1) (gr 2) .i32) (args 0x7FFFFFFF 1 0) = 0xFFFFFFFF80000000#64 ∧
    g9 (.add always (gr 9) (gr 1) (gr 2) .n32) (args 0xFFFFFFFF 1 0) = 0#64 := by decide +kernel
theorem test_sub_borrows : g9 (.sub always (gr 9) (gr 1) (gr 2) .n32) (args 0 1 0) = 0xFFFFFFFF#64 := by decide +kernel
theorem test_mulh : g9 (.mulh always (gr 9) (gr 1) (gr 2) .i64) (args (-1) 1 0) = -1#64 ∧
    g9 (.mulh always (gr 9) (gr 1) (gr 2) .n64) (args (-1) (-1) 0) = 0xFFFFFFFFFFFFFFFE#64 := by decide +kernel
theorem test_mad : rdG (after (.mad always (gr 3) (gr 1) (gr 2) .i64) (args 6 7 100)) 0 3 = 142#64 := by decide +kernel
/-- R230: the count is S2 modulo N. -/
theorem test_shifts : g9 (.shl always (gr 9) (gr 1) (gr 2) .n64) (args 3 65 0) = 6#64 ∧
    g9 (.sar always (gr 9) (gr 1) (gr 2) .i32) (args 0x80000000 31 0) = -1#64 ∧
    g9 (.shr always (gr 9) (gr 1) (gr 2) .n32) (args 0xF80000000 31 0) = 1#64 ∧
    g9 (.rot always (gr 9) (gr 1) (gr 2) .n32) (args 0x80000001 1 0) = 3#64 := by decide +kernel
theorem test_min_max : g9 (.min always (gr 9) (gr 1) (gr 2) .i32) (args 0xFFFFFFFF 1 0) = -1#64 ∧
    g9 (.max always (gr 9) (gr 1) (gr 2) .n32) (args 0xFFFFFFFF 1 0) = 0xFFFFFFFF#64 := by decide +kernel
theorem test_logic : g9 (.andn always (gr 9) (gr 1) (gr 2) .n32) (args 0xFF 0x0F 0) = 0xF0#64 ∧
    g9 (.xori always (gr 9) (gr 1) (-1) .n32) (args 0xF0 0 0) = 0xFFFFFF0F#64 := by decide +kernel
/-- The example of R233: 0123_4567_89AB_CDEF is loaded by `li` and four `lih`; here the last of them. -/
theorem test_lih : rdG (after (.lih always (gr 1) 0x0DEF) (args 0x48D159E26AF 0 0)) 0 1 = 0x0123456789ABCDEF#64 ∧
    g9 (.li always (gr 9) 0x3FFF) (args 0 0 0) = -1#64 := by decide +kernel
theorem test_counts : g9 (.clz always (gr 9) (gr 1) .n32) (args 1 0 0) = 31#64 ∧ g9 (.ctz always (gr 9) (gr 1) .i32) (args 0 0 0) = 32#64 ∧
    g9 (.popc always (gr 9) (gr 1) .n64) (args (-1) 0 0) = 64#64 ∧
    g9 (.brev always (gr 9) (gr 1) .i32) (args 1 0 0) = 0xFFFFFFFF80000000#64 ∧
    g9 (.abs always (gr 9) (gr 1) .i32) (args 0x80000000 0 0) = 0xFFFFFFFF80000000#64 := by decide +kernel
/-- R235: pos 4, len 4. -/
theorem test_fields : g9 (.bfx always (gr 9) (gr 1) (gr 2) .i64) (args 0xF0 0x404 0) = -1#64 ∧
    rdG (after (.bfi always (gr 3) (gr 1) (gr 2) .n64) (args 0x5 0x404 0xFFF)) 0 3 = 0xF5F#64 := by decide +kernel
theorem test_lea : g9 (.lea always (gr 9) (gr 1) (gr 2) 3) (args 0x1000 3 0) = 0x1018#64 := by decide +kernel
/-- R230, R231: the remainder belongs to the quotient truncated toward zero; the value lands later. -/
theorem test_division : ((after (.div always (gr 9) (gr 1) (gr 2) .i64) (args (-7) 2 0)).pend.map (·.2.vals)) = [[.g 0 9 (-3#64)]] ∧
    ((after (.rem always (gr 9) (gr 1) (gr 2) .i64) (args (-7) 0 0)).pend.map (·.2.vals)) = [[.g 0 9 (-7#64)]] := by decide +kernel
theorem test_compare : rdP (after (.cmp always .lt 2 (gr 1) (gr 2) .i32) (args 0xFFFFFFFF 1 0)) 0 2 = true ∧
    rdP (after (.cmp always .lt 2 (gr 1) (gr 2) .n32) (args 0xFFFFFFFF 1 0)) 0 2 = false := by decide +kernel
/-- R204: g0 stays zero; R207: an h register is that of the pipe. -/
theorem test_banks : rdG (after (.li always (gr 0) 5) (args 1 1 1)) 0 0 = 0#64 ∧ rdH (after (.li always (hr 0) 5) (args 1 1 1)) 0 0 = 5#64 := by
  decide +kernel

/-- A gang of 8 lanes with g5 = lane + 1 and g6 = c. -/
def eight (c : Word) : State := (List.range 8).foldl (fun t p => wrG (wrG t p 5 (word (p + 1))) p 6 c) (lab 3 false)
/-- The first step of the example of R243. -/
theorem test_shuffle : (List.range 8).map (fun p => (rdG (after (.shflHi always (gr 7) (gr 5) (gr 6)) (eight 4)) p 7).toNat) =
    [5, 6, 7, 8, 5, 6, 7, 8] := by decide +kernel
/-- R242: with c[5] = 1 the gang's lanes are a ring. -/
theorem test_shuffle_ring : (List.range 8).map (fun p => (rdG (after (.shflHi always (gr 7) (gr 5) (gr 6)) (eight 0x21)) p 7).toNat) =
    [2, 3, 4, 5, 6, 7, 8, 1] := by decide +kernel
/-- R241: p1 of lanes 0 and 2. -/
theorem test_votes : let s := wrP (wrP (lab 2 false) 0 1 true) 2 1 true
    rdG (after (.ballot always (gr 7) 1) s) 3 7 = 5#64 ∧ rdP (after (.voteEvery always 2 1) s) 1 2 = false ∧
    rdP (after (.voteSome always 2 1) s) 1 2 = true ∧ rdP (after (.voteAgree always 2 1) s) 1 2 = false := by decide +kernel

/-! Floating point: 1 is 3F800000₁₆ in FP32, 3C00₁₆ in FP16 and 3FF0…₁₆ in FP64 (R259). -/

/-- R262: 1 + 2⁻²⁴ is a tie, which goes to even, and is above 1 for rounding up. -/
theorem test_fadd_rounds : g9 (.fadd always .rn 9 1 2 .f32) (args 0x3F800000 0x33800000 0) = 0x3F800000#64 ∧
    g9 (.fadd always .ru 9 1 2 .f32) (args 0x3F800000 0x33800000 0) = 0x3F800001#64 := by decide +kernel
/-- (1 + 2⁻²³)² − (1 + 2⁻²²) is 2⁻⁴⁶: the product is not rounded. -/
theorem test_fma_rounds_once : rdG (after (.fma always .rn 3 1 2 .f32) (args 0x3F800001 0x3F800001 0xBF800002)) 0 3 = 0x28800000#64 := by
  decide +kernel
theorem test_fmin_nan : g9 (.fmin always 9 1 2 .f32) (args 0x7FC00000 0x3F800000 0) = 0x3F800000#64 ∧
    rdP (after (.fcmp always .un 2 1 2 .f32) (args 0x7FC00000 0x3F800000 0)) 0 2 = true := by decide +kernel
theorem test_fneg_fabs : g9 (.fneg always 9 1 .f64) (args 0x3FF0000000000000 0 0) = 0xBFF0000000000000#64 ∧
    g9 (.fabs always 9 1 .f16) (args 0xBC00 0 0) = 0x3C00#64 := by decide +kernel
/-- 1 ÷ 3 to nearest is 3EAAAAAB₁₆; √4 is 2. -/
theorem test_fdiv_fsqrt : ((after (.fdiv always .rn 9 1 2 .f32) (args 0x3F800000 0x40400000 0)).pend.map (·.2.vals)) =
      [[.g 0 9 0x3EAAAAAB#64]] ∧
    ((after (.fsqrt always .rn 9 1 .f32) (args 0x40800000 0 0)).pend.map (·.2.vals)) = [[.g 0 9 0x40000000#64]] := by decide +kernel
/-- R277, R278: FP64 1 to FP32; FP32 2³² saturates as an int32. -/
theorem test_convert : g9 (.cvtScalar always 9 1 .f32 .f64 .rn) (args 0x3FF0000000000000 0 0) = 0x3F800000#64 ∧
    g9 (.cvtScalar always 9 1 .i32 .f32 .rn) (args 0x4F800000 0 0) = 0x7FFFFFFF#64 := by decide +kernel
/-- R280, R281: FP16 1 is 38₁₆ in E4M3, and back. -/
theorem test_pack : rdG (after (.pack always 3 1 2 2 .rn false) (args 0x3C00 0 0)) 0 3 = 0x38#64 ∧
    rdG (after (.unpk always 3 1 true 2 false) (args 0x3800000000 0 0)) 0 3 = 0x3C00#64 := by decide +kernel

/-- One strand whose w1 holds eight FP32 ones and w2 the words 0 to 7. -/
def wides : State := wrW (wrW (args 0 0 0) 0 1 (BitVec.ofNat 256 (fromElems 32 (List.replicate 8 0x3F800000))))
  0 2 (BitVec.ofNat 256 (fromElems 32 (List.range 8)))
theorem test_wide_add : elem (rdW (after (.vadd always .rn 3 1 1 .f32) wides) 0 3).toNat 32 7 = 0x40000000 := by decide +kernel
/-- The sum of eight ones is 8 (R276), at a price of one token (R187). -/
theorem test_wide_sum : g9 (.vsum always (gr 9) 1 .f32) wides = 0x41000000#64 ∧
    ((after (.vsum always (gr 9) 1 .f32) wides).cell 0).pocket = 63 := by decide +kernel
/-- R274: element i is element w2[i] mod 8 of w2, here i itself. -/
theorem test_permute : rdW (after (.vperm always 3 2 2 .b4) wides) 0 3 = rdW wides 0 2 := by decide +kernel
/-- R283 to R287: eight ones are 8 × 2¹⁵⁰ units; `xget` gives 8 back; `xclr` clears. -/
theorem test_exact : rdE (after (.xadd always 0 (.f32x8 1)) wides) 0 0 = BitVec.ofNat 320 (8 * 2 ^ 150) ∧
    g9 (.xget always (gr 9) 0 true .rn) (after (.xadd always 0 (.f32x8 1)) wides) = 0x4020000000000000#64 := by decide +kernel
theorem test_exact_flags : rdEf (after (.xadd always 1 (.f32 (gr 1))) (args 0x7F800000 0 0)) 0 1 = 2#3 ∧
    rdE (after (.xclr always 0) (after (.xadd always 0 (.f32x8 1)) wides)) 0 0 = 0#320 := by decide +kernel

/-! Control -/

/-- R244: BA + 4 × DISP, and NBA where the guard is false; `call` leaves NBA in g31. -/
theorem test_branch : ((after (.br always (-2)) solo).str 0).pc = 0x1FFFF8#64 ∧ ((after (.br ⟨true, 0⟩ (-2)) solo).str 0).pc = 0x200004#64 ∧
    rdG (after (.call always 16) solo) 0 31 = 0x200004#64 := by decide +kernel
theorem test_dbnz : ((after (.dbnz always (gr 2) 4) solo).str 0).pc = 0x200010#64 ∧ rdG (after (.dbnz always (gr 2) 4) solo) 0 2 = 4#64 ∧
    ((after (.dbnz always (gr 2) 4) (args 0 1 0)).str 0).pc = 0x200004#64 := by decide +kernel
/-- R247, R82: j1 with lanes 0 to 3 reads as VALID and MEMBER F. -/
theorem test_sets : rdG (after (.jread always (gr 9) 1) (after (.jset always 1) four)) 0 9 = 0x800000000000000F#64 ∧
    ((after (.jwait always 1) (after (.jset always 1) four)).str 2).lmode = .waiting 1 := by decide +kernel
/-- R250, R52: the gang dissolves as the slot cycle of its `split` ends. -/
theorem test_split : ((after (.split always) four).gang 0).splitting = true ∧ glogOf ((after (.split always) four).str 3) = 2 ∧
    (List.range 4).all (fun p => decide (glogOf ((splitGang (after (.split always) four) 0).str p) = 0 ∧
      laneIx ((splitGang (after (.split always) four) 0).str p) = 0)) = true := by decide +kernel
theorem test_stop : ((after (.stop always) solo).str 0).st = .free := by decide +kernel

/-! Memory -/

/-- The state once the first work in flight has landed. -/
def landed (i : Instr) (s : State) : State := after (.scoreboardResultLands s.fresh) ((after i s).setTime 1000)
/-- One strand with 0123_4567_89AB_CDEF at 200100₁₆, g1 = 200100₁₆, and 8 bytes FE… at scratchpad offset 5. -/
def loaded : State := wr (wr (args 0x200100 8 7) (locHbm 0 0x200100) 8 0x0123456789ABCDEF) (locScr 0 8) 8 0xFEDCBA9876543210

/-- R9, R321: bytes 2 and 3 are AB89₁₆, sign-extended. -/
theorem test_load_sign : rdG (landed (.ld always (gr 9) (gr 1) true 1 .b2) loaded) 0 9 = 0xFFFFFFFFFFFF89AB#64 ∧
    rdG (landed (.lds always (gr 9) (gr 2) false 0 .b4) loaded) 0 9 = 0x76543210#64 := by decide +kernel
/-- R108, R159: the store stands in the L1, and at its home once performed. -/
theorem test_store : rd (after (.st always 0 (gr 1) (gr 2) .b2) loaded) (locHbm 0 0x200100) 8 = 0x0123456789ABCDEF ∧
    rd (after (.storePerformed 1) (after (.st always 0 (gr 1) (gr 2) .b2) loaded)) (locHbm 0 0x200100) 8 = 0x0123456789AB0008 := by
  decide +kernel
theorem test_scratch_store : rd (after (.sts always 1 (gr 2) (gr 3) .b8) loaded) (locScr 0 16) 8 = 7 := by decide +kernel
/-- R331, R332: the old value returns, the sum stays. -/
theorem test_atomic : rd (after (.amoAdd always (gr 2) (gr 1) false .relaxed) loaded) (locHbm 0 0x200100) 8 = 0x0123456789ABCDF7 ∧
    rdG (landed (.amoAdd always (gr 2) (gr 1) false .relaxed) loaded) 0 2 = 0x89ABCDEF#64 := by decide +kernel
/-- R333: g2 = 8 is not the value there, so the swap fails. -/
theorem test_cas : rd (after (.cas always (gr 2) (gr 1) true .relaxed) loaded) (locHbm 0 0x200100) 8 = 0x0123456789ABCDEF ∧
    rd (after (.cas always (gr 2) (gr 1) true .relaxed) (wrG loaded 0 2 0x0123456789ABCDEF)) (locHbm 0 0x200100) 8 = 7 := by decide +kernel

/-! Barriers, system, traps -/

/-- R364, R365: expect 2, then one arrival of the solo strand leaves REMAIN 1. -/
theorem test_barrier : let s := after (.tbinit always 3 (gr 1)) (args 2 0 0)
    barOf (s.cell 0) 3 = { valid := true, expect := 2, remain := 2 } ∧ (barOf ((after (.tbarr always 3) s).cell 0) 3).remain = 1 := by decide +kernel
/-- R44, R438: CYCLE of the low rail runs at half the die clock; LPOS of lane 2 of four is 2 · 2¹⁶ + 2 · 2¹³. -/
theorem test_rdsr : g9 (.rdsr always (gr 9) 0x003) ((args 0 0 0).setTime 10) = 5#64 ∧
    rdG (after (.rdsr always (gr 9) 0x000) four) 2 9 = 0x24000#64 := by decide +kernel
/-- R377, R434, R439: CAUSE 1 in lane 0, CODE in SVAL, FMASK F; lane 1 is FROZEN. -/
theorem test_trap : let t := after (.trap always 0x42) four
    (t.str 0).st = .supervisor ∧ (t.str 0).pc = 0xFFFFFFFFC0000000#64 ∧ (t.str 0).scause = 1#64 ∧ (t.str 0).sval = 0x42#64 ∧
    (t.str 0).sret = 0x200004#64 ∧ (t.str 0).sinfo = 0xF0000#64 ∧ (t.str 1).st = .frozen := by decide +kernel
theorem test_sysret : let t := after (.sysret always) super
    (t.str 0).pc = 0x200100#64 ∧ (t.str 0).st = .ready ∧ (t.str 1).st = .ready ∧ (t.gang 0).handler = none := by decide +kernel
/-- R458: a privileged word outside single-lane mode traps with PRIV, cause 3. -/
theorem test_privilege : ((after (.halt always) solo).str 0).scause = 3#64 ∧ ((after (.halt always) solo).str 0).st = .supervisor := by
  decide +kernel
/-- R372: a message from the strand to position 5 of its cell stands in the injection queue. -/
theorem test_send : ((after (.send always (gr 1) 1) (args (word (5 * 2 ^ 41)) 0 0)).cell 0).inject.length = 1 := by decide +kernel

/-! ### Witnesses: states and operands that meet the hypotheses of the obligations -/

/-- Whether each access of some lanes reaches its target. -/
def reachB (s : State) (ls : List Nat) (asks : Nat → List Ask) : Bool :=
  s.pkg.hostUp && ls.all fun p => (asks p).all (fun a => (match resolve s p a with | .ok _ => true | _ => false) && (parksFor s p a).isEmpty) &&
    decide (pipeLoad s (gpipe p) + (asks p).length ≤ 2048)

theorem resolve_ok {s : State} {p : Nat} {a : Ask} (h : (match resolve s p a with | .ok _ => true | _ => false) = true) :
    ∃ t, resolve s p a = .ok t := by
  split at h
  · exact ⟨_, ‹_›⟩
  · cases h

theorem reaches_of {s : State} {ls : List Nat} {asks : Nat → List Ask} (h : reachB s ls asks = true) : Reaches s ls asks := by
  simp only [reachB, Bool.and_eq_true, List.all_eq_true, decide_eq_true_eq, List.isEmpty_iff] at h
  exact ⟨fun p hp a ha => resolve_ok ((h.2 p hp).1 a ha).1, fun p hp a ha => ((h.2 p hp).1 a ha).2, .inl h.1, fun p hp => .inr (h.2 p hp).2⟩

def answersB (s : State) (c : Nat) (t : Target) (n : Nat) : Bool :=
  match t with
  | .home loc die => !crossed s (dieOf c) die c loc && (badIn s loc n).isNone && (decide (32 < n) || decide (loc % 32 + n ≤ 32))
  | .scr cell off => !crossed s (dieOf c) (dieOf cell) c (locScr cell off) && (badIn s (locScr cell off) n).isNone && decide (cell = c)
  | .remote _ _ => false
  | .dev off => !crossed s (dieOf c) 4 c (2 ^ 62 + off)

theorem answers_of {s : State} {c : Nat} {t : Target} {n : Nat} (h : answersB s c t n = true) : Answers s c t n := by
  cases t with
  | home loc die =>
    simp only [answersB, Bool.and_eq_true, Bool.or_eq_true, Bool.not_eq_eq_eq_not, Bool.not_true, Option.isNone_iff_eq_none, decide_eq_true_eq] at h
    exact ⟨h.1.1, h.1.2, fun _ => by omega⟩
  | scr cell off =>
    simp only [answersB, Bool.and_eq_true, Bool.not_eq_eq_eq_not, Bool.not_true, Option.isNone_iff_eq_none, decide_eq_true_eq] at h
    exact ⟨h.1.1, h.1.2, .inl h.2⟩
  | remote g x => cases h
  | dev off => simpa [answersB, Answers] using h

/-- Whether the accesses of a memory form meet the premises of its statement, in a state with no L1 sector. -/
def memB (s : State) (gd : Guard) (m : MemUse) : Bool :=
  reachB s (actingLanes s gd) (fun p => if p ∈ m.who s then (m.accs s p).map (·.1) else []) &&
  (m.who s).all (fun p => (m.accs s p).all (fun a => answersB s (cellOf p) (targetOf s p a.1) (opBytes a.2) &&
    !devWrite (targetOf s p a.1) a.2) && (unperformed s p).isEmpty && !l1Held s (cellOf p) && (s.cell (cellOf p)).l1.isEmpty) &&
  (curCell s :: s.cur.lanes.map cellOf).all (fun c => (s.cell c).l1.isEmpty) && s.pend.all (fun e => decide (e.1 < s.fresh))

def apartB (s : State) (m : MemUse) (p k : Nat) : Bool :=
  (m.who s).all fun q => (List.range (m.accs s q).length).all fun j => (decide (q = p ∧ j = k)) ||
    match (m.accs s p)[k]?, (m.accs s q)[j]? with
    | some a, some b => !writesOf b.2 || (match placeOf (targetOf s p a.1), placeOf (targetOf s q b.1) with
        | some x, some y => decide (x + opBytes a.2 ≤ y ∨ y + opBytes b.2 ≤ x)
        | _, _ => true)
    | _, _ => true

theorem apart_of {s : State} {m : MemUse} {p k : Nat} (h : apartB s m p k = true) : Apart s m p k := by
  intro q hq j hj a b x y ha hb hw hx hy
  simp only [apartB, List.all_eq_true, List.mem_range] at h
  have := h q hq j (List.getElem?_eq_some_iff.mp hb).1
  simpa [ha, hb, hw, hx, hy, hj] using this

/-- What the statement about a memory form asks for: it issues, it reaches and is answered, and its first access of lane 0 is apart. -/
def MemHyps (s : State) (gd : Guard) (i : Instr) (m : MemUse) : Prop :=
  RegsLanded s gd i ∧ OrderMet s gd m.all ∧
  Reaches s (actingLanes s gd) (fun p => if p ∈ m.who s then (m.accs s p).map (·.1) else []) ∧
  AllAnswer s m ∧ Apart s m 0 0 ∧ 0 ∈ m.who s ∧ m.accs s 0 ≠ []

theorem memHyps_of {s : State} {gd : Guard} {i : Instr} {m : MemUse} (h1 : RegsLanded s gd i) (h2 : OrderMet s gd true)
    (h3 : memB s gd m = true) (h4 : apartB s m 0 0 = true) (h5 : (m.who s).Nodup ∧ 0 ∈ m.who s ∧ m.accs s 0 ≠ []) :
    MemHyps s gd i m := by
  simp only [memB, Bool.and_eq_true, List.all_eq_true, List.isEmpty_iff, decide_eq_true_eq, Bool.not_eq_eq_eq_not, Bool.not_true] at h3
  obtain ⟨⟨⟨hr, hw⟩, hc⟩, hn⟩ := h3
  refine ⟨h1, fun p hp => ⟨(h2 p hp).1, (h2 p hp).2.1, fun _ => (h2 p hp).2.2 rfl⟩, reaches_of hr, ⟨h5.1, ?_, hn, ?_, ?_, ?_, ?_, ?_⟩, apart_of h4, h5.2⟩
  · intro _ c hd e he
    have : (s.cell c).l1 = [] := hc c (by rcases hd with rfl | ⟨p, hp, rfl⟩ <;> simp; exact .inr ⟨p, hp, rfl⟩)
    simp [this] at he
  · exact fun p hp => (hw p hp).1.1.2
  · exact fun p hp => (hw p hp).1.2
  · exact fun p hp a ha => answers_of ((hw p hp).1.1.1 a ha).1
  · exact fun p hp a ha => ((hw p hp).1.1.1 a ha).2
  · intro _ p hp a ha loc die _ l hl
    simp [(hw p hp).2, tfind] at hl
def landedB (s : State) (gd : Guard) (i : Instr) : Bool :=
  s.cur.lanes.all (fun p => !pendingFor s p (.p p gd.p.val)) &&
  (actingLanes s gd).all (fun p => (srcs i ++ dests i).all (fun r => !pendingFor s p (regId s.cur.leader p r))) &&
  (actingLanes s gd).all (fun p => (srcs i).all (fun r => !broken s (regId s.cur.leader p r)))
theorem landed_of {s : State} {gd : Guard} {i : Instr} (h : landedB s gd i = true) : RegsLanded s gd i := by
  simp only [landedB, Bool.and_eq_true, List.all_eq_true, Bool.not_eq_eq_eq_not, Bool.not_true] at h
  exact ⟨h.1.1, fun p hp r hr => h.1.2 p hp r hr, fun p hp r hr => h.2 p hp r hr⟩
def orderB (s : State) (gd : Guard) : Bool :=
  (actingLanes s gd).all fun p => (stillFlying s (s.str p).fenceAny).isEmpty && (stillFlying s (s.str p).fenceWr).isEmpty && (unperformed s p).isEmpty
theorem order_of {s : State} {gd : Guard} {all : Bool} (h : orderB s gd = true) : OrderMet s gd all := by
  simp only [orderB, Bool.and_eq_true, List.all_eq_true, List.isEmpty_iff] at h
  exact fun p hp => ⟨(h p hp).1.1, (h p hp).1.2, fun _ => (h p hp).2⟩
/-- All of these at once. -/
def memCheck (s : State) (gd : Guard) (i : Instr) (m : MemUse) : Bool :=
  landedB s gd i && orderB s gd && memB s gd m && apartB s m 0 0 && decide ((m.who s).Nodup ∧ 0 ∈ m.who s ∧ m.accs s 0 ≠ [])
theorem memHyps {s : State} {gd : Guard} {i : Instr} {m : MemUse} (h : memCheck s gd i m = true) : MemHyps s gd i m := by
  simp only [memCheck, Bool.and_eq_true, decide_eq_true_eq] at h
  exact memHyps_of (landed_of h.1.1.1.1) (order_of h.1.1.1.2) h.1.1.2 h.1.2 h.2

/-- One strand with a VA in g1, a scratchpad offset in g2, a device register in g4 and doublewords at the first two. -/
def mem1 : State := wrG (wr (wr (args 0x200100 0x40 3) (locHbm 0 0x200100) 8 0x0123456789ABCDEF) (locScr 0 0x40) 8 5) 0 4 0x400018#64

theorem witness_LoadsReadMemory :
    MemHyps mem1 always (.ld always (gr 9) (gr 1) true (-1) .b2) (readUse always (.g (gr 9) 16 true)
      (fun s p => [(askV (rdReg s p (gr 1) + BitVec.ofInt 64 (-2)) 2 .load, .read 2)]) false false false) ∧
    MemHyps mem1 always (.lds always (gr 9) (gr 2) false 0 .b4) (readUse always (.g (gr 9) 32 false)
      (fun s p => [(askS (rdReg s p (gr 2)) 4 .load, .read 4)]) false false false) ∧
    MemHyps mem1 always (.ldw always 3 (gr 1) 1) (readUse always (.w 3 32)
      (fun s p => [(askV (rdReg s p (gr 1) + 32#64) 32 .load, .read 32)]) false false false) ∧
    MemHyps mem1 always (.ldsw always 3 (gr 2) (-1)) (readUse always (.w 3 32)
      (fun s p => [(askS (rdReg s p (gr 2) - 32#64) 32 .load, .read 32)]) false false false) ∧
    MemHyps mem1 always (.ldk always 3 (gr 1) 1) (uniformUse always 3 (fun s p => rdReg s p (gr 1) + 8#64) false false) :=
  ⟨memHyps (by decide +kernel), memHyps (by decide +kernel), memHyps (by decide +kernel), memHyps (by decide +kernel), memHyps (by decide +kernel)⟩

theorem witness_AcquiringLoadsReadTheHome :
    MemHyps mem1 always (.ldAcq always (gr 9) (gr 1) .die true .b2) (readUse always (.g (gr 9) 16 true)
      (fun s p => [(askV (rdReg s p (gr 1)) 2 .load, .read 2)]) (wide .die) false true) ∧
    MemHyps mem1 always (.ldsAcq always (gr 9) (gr 2) .cell false .b8) (readUse always (.g (gr 9) 64 false)
      (fun s p => [(askS (rdReg s p (gr 2)) 8 .load, .read 8)]) (wide .cell) false true) ∧
    MemHyps mem1 always (.ldwAcq always 3 (gr 1) .fab) (readUse always (.w 3 32)
      (fun s p => [(askV (rdReg s p (gr 1)) 32 .load, .read 32)]) (wide .fab) false true) ∧
    MemHyps mem1 always (.ldswAcq always 3 (gr 2) .pkg) (readUse always (.w 3 32)
      (fun s p => [(askS (rdReg s p (gr 2)) 32 .load, .read 32)]) (wide .pkg) false true) ∧
    MemHyps mem1 always (.ldkAcq always 3 (gr 1) .node) (uniformUse always 3 (fun s p => rdReg s p (gr 1)) (wide .node) true) ∧
    MemHyps mem1 always (.ldDev always (gr 9) (gr 4) none false .b8) (readUse always (.g (gr 9) 64 false)
      (fun s p => [(askV (rdReg s p (gr 4)) 8 .devLoad, .read 8)]) true true false true) :=
  ⟨memHyps (by decide +kernel), memHyps (by decide +kernel), memHyps (by decide +kernel), memHyps (by decide +kernel), memHyps (by decide +kernel),
    memHyps (by decide +kernel)⟩

theorem witness_StoresWriteMemory :
    MemHyps mem1 always (.st always 1 (gr 1) (gr 3) .b4) (writeUse always
      (fun s p => [(askV (rdReg s p (gr 1) + 4#64) 4 .store, .write 4 ((rdReg s p (gr 3)).toNat % 2 ^ 32))]) false false) ∧
    MemHyps mem1 always (.sts always 0 (gr 2) (gr 3) .b1) (writeUse always
      (fun s p => [(askS (rdReg s p (gr 2)) 1 .store, .write 1 ((rdReg s p (gr 3)).toNat % 2 ^ 8))]) false false) ∧
    MemHyps mem1 always (.stw always 3 (gr 1) 0) (writeUse always
      (fun s p => [(askV (rdReg s p (gr 1)) 32 .store, .write 32 (rdW s p 3).toNat)]) false false) ∧
    MemHyps mem1 always (.stsw always 3 (gr 2) 0) (writeUse always
      (fun s p => [(askS (rdReg s p (gr 2)) 32 .store, .write 32 (rdW s p 3).toNat)]) false false) :=
  ⟨memHyps (by decide +kernel), memHyps (by decide +kernel), memHyps (by decide +kernel), memHyps (by decide +kernel)⟩

theorem witness_ReleasingStoresWriteTheHome :
    MemHyps mem1 always (.stRel always .die (gr 1) (gr 3) .b8) (writeUse always
      (fun s p => [(askV (rdReg s p (gr 1)) 8 .store, .write 8 ((rdReg s p (gr 3)).toNat % 2 ^ 64))]) (wide .die) true) ∧
    MemHyps mem1 always (.stsRel always (gr 3) (gr 2) .cell .b2) (writeUse always
      (fun s p => [(askS (rdReg s p (gr 2)) 2 .store, .write 2 ((rdReg s p (gr 3)).toNat % 2 ^ 16))]) (wide .cell) true) ∧
    MemHyps mem1 always (.stwRel always 3 (gr 1) .pkg) (writeUse always
      (fun s p => [(askV (rdReg s p (gr 1)) 32 .store, .write 32 (rdW s p 3).toNat)]) (wide .pkg) true) ∧
    MemHyps mem1 always (.stswRel always 3 (gr 2) .pkg) (writeUse always
      (fun s p => [(askS (rdReg s p (gr 2)) 32 .store, .write 32 (rdW s p 3).toNat)]) (wide .pkg) true) ∧
    MemHyps mem1 always (.stDev always none (gr 1) (gr 3) .b8) (writeUse always
      (fun s p => [(askV (rdReg s p (gr 1)) 8 .devStore, .write 8 ((rdReg s p (gr 3)).toNat % 2 ^ 64))]) true true true) :=
  ⟨memHyps (by decide +kernel), memHyps (by decide +kernel), memHyps (by decide +kernel), memHyps (by decide +kernel), memHyps (by decide +kernel)⟩
/-- A `st.dev` to a register of the device, which is written after the bundle. -/
theorem witness_ReleasingStoresWriteTheHome_dev :
    RegsLanded mem1 always (.stDev always none (gr 4) (gr 3) .b8) ∧ OrderMet mem1 always true ∧
    Reaches mem1 (actingLanes mem1 always) (fun p => if p ∈ actingLanes mem1 always then [askV (rdReg mem1 p (gr 4)) 8 .devStore] else []) ∧
    0 ∈ actingLanes mem1 always ∧ devWrite (targetOf mem1 0 (askV (rdReg mem1 0 (gr 4)) 8 .devStore)) (.write 8 3) = true :=
  ⟨landed_of (by decide +kernel), order_of (by decide +kernel), reaches_of (by decide +kernel), by decide +kernel, by decide +kernel⟩

/-- The indices are the words 0 to 7. -/
def mem2 : State := wrW mem1 0 2 (BitVec.ofNat 256 (fromElems 32 (List.range 8)))
theorem witness_GatherAndScatter :
    (let addr := fun (s : State) p i => rdReg s p (gr 1) + BitVec.ofInt 64 (sInt 32 (elem (rdW s p 2).toNat 32 i) * 4)
    MemHyps mem2 always (.gat always none 3 (gr 1) 2 false) (readUse always (.w 3 4)
      (fun s p => (List.range 8).map fun i => (askV (addr s p i) 4 .load, .read 4)) false false false) ∧
    MemHyps mem2 always (.scat always (some .die) 3 (gr 1) 2 false) (writeUse always
      (fun s p => (List.range 8).map fun i => (askV (addr s p i) 4 .store, .write 4 (elem (rdW s p 3).toNat 32 i))) true true)) :=
  ⟨memHyps (by decide +kernel), memHyps (by decide +kernel)⟩

theorem witness_AccumulatorImages :
    (let loads := fun (s : State) p => (List.range 6).map fun i =>
      (({ va := rdReg s p (gr 1) + word (8 * i), n := 8, al := 8, kind := .load } : Ask), HomeOp.read 8)
    let stores := fun (s : State) p => (List.range 6).map fun i =>
      (({ va := rdReg s p (gr 1) + word (8 * i), n := 8, al := 8, kind := .store } : Ask),
        HomeOp.write 8 (if i < 5 then (rdE s p 1).toNat / 2 ^ (64 * i) % 2 ^ 64 else (rdEf s p 1).toNat))
    MemHyps mem1 always (.xld always 1 (gr 1) 0) (readUse always (.e 1) loads false false false) ∧
    MemHyps mem1 always (.xldAcq always 1 (gr 1) .die) (readUse always (.e 1) loads true false true) ∧
    MemHyps mem1 always (.xst always 1 (gr 1) 0) (writeUse always stores false false) ∧
    MemHyps mem1 always (.xstRel always 1 (gr 1) .die) (writeUse always stores true true)) :=
  ⟨memHyps (by decide +kernel), memHyps (by decide +kernel), memHyps (by decide +kernel), memHyps (by decide +kernel)⟩

theorem witness_AtomicsCombine :
    (let use := fun op sgn => atomicUse always (gr 1) 4 (fun _ _ => .g (gr 3) 32 sgn)
      (fun s p => .amo op false ((rdReg s p (gr 3)).toNat % 2 ^ 32) 0) (.ar .die)
    MemHyps mem1 always (.amoAdd always (gr 3) (gr 1) false (.ar .die)) (use .add false) ∧
    MemHyps mem1 always (.amoAnd always (gr 3) (gr 1) false (.ar .die)) (use .and false) ∧
    MemHyps mem1 always (.amoOr always (gr 3) (gr 1) false (.ar .die)) (use .or false) ∧
    MemHyps mem1 always (.amoXor always (gr 3) (gr 1) false (.ar .die)) (use .xor false) ∧
    MemHyps mem1 always (.amoMinI always (gr 3) (gr 1) false (.ar .die)) (use .minI true) ∧
    MemHyps mem1 always (.amoMinN always (gr 3) (gr 1) false (.ar .die)) (use .minN false) ∧
    MemHyps mem1 always (.amoMaxI always (gr 3) (gr 1) false (.ar .die)) (use .maxI true) ∧
    MemHyps mem1 always (.amoMaxN always (gr 3) (gr 1) false (.ar .die)) (use .maxN false) ∧
    MemHyps mem1 always (.amoSwap always (gr 3) (gr 1) false (.ar .die)) (use .swap false)) ∧
    MemHyps mem1 always (.amoPmin always (gr 3) (gr 1) .relaxed) (atomicUse always (gr 1) 8 (fun _ _ => .g (gr 3) 64 false)
      (fun s p => .amo .pmin true ((rdReg s p (gr 3)).toNat % 2 ^ 64) 0) .relaxed) :=
  ⟨⟨memHyps (by decide +kernel), memHyps (by decide +kernel), memHyps (by decide +kernel), memHyps (by decide +kernel), memHyps (by decide +kernel),
    memHyps (by decide +kernel), memHyps (by decide +kernel), memHyps (by decide +kernel), memHyps (by decide +kernel)⟩, memHyps (by decide +kernel)⟩

theorem witness_CompareAndSwap :
    MemHyps mem1 always (.cas always (gr 8) (gr 1) true .relaxed) (atomicUse always (gr 1) 8 (fun _ _ => .g (gr 8) 64 false)
      (fun s p => .amo .cas true ((rdReg s p (gr 8)).toNat % 2 ^ 64) ((rdReg s p (gr 9)).toNat % 2 ^ 64)) .relaxed) ∧
    MemHyps mem1 always (.cas2 always (gr 8) (gr 1) .relaxed) (atomicUse always (gr 1) 16 (fun _ _ => .two (gr 8))
      (fun s p => .amo .cas2 true ((rdReg s p (gr 8)).toNat + (rdReg s p (gr 9)).toNat * 2 ^ 64)
        ((rdReg s p (gr 10)).toNat + (rdReg s p (gr 11)).toNat * 2 ^ 64)) .relaxed) :=
  ⟨memHyps (by decide +kernel), memHyps (by decide +kernel)⟩

theorem witness_FloatAtomicsAdd :
    (let amox := fun (f : FTy) op => atomicUse always (gr 1) 64
      (fun s p => .status (gr 3) (amoxStatus (scalarF f (rdReg s p (gr 3)))))
      (fun s p => if amoxStatus (scalarF f (rdReg s p (gr 3))) = 0 then
        .amo op false (quantVal (scalarF f (rdReg s p (gr 3))) % (2 ^ 320 : Nat)).toNat (rdReg s p (gr 3)).toNat
      else .read 40) .relaxed
    MemHyps mem1 always (.amofF32 always (gr 3) (gr 1) .relaxed) (atomicUse always (gr 1) 4 (fun _ _ => .g (gr 3) 32 false)
      (fun s p => .amo .fF32 false ((rdReg s p (gr 3)).toNat % 2 ^ 32) 0) .relaxed) ∧
    MemHyps mem1 always (.amofF64 always (gr 3) (gr 1) .relaxed) (atomicUse always (gr 1) 8 (fun _ _ => .g (gr 3) 64 false)
      (fun s p => .amo .fF64 true (rdReg s p (gr 3)).toNat 0) .relaxed) ∧
    MemHyps mem1 always (.amoxF32 always (gr 3) (gr 1) .relaxed) (amox .f32 .xF32) ∧
    MemHyps mem1 always (.amoxF64 always (gr 3) (gr 1) .relaxed) (amox .f64 .xF64)) :=
  ⟨memHyps (by decide +kernel), memHyps (by decide +kernel), memHyps (by decide +kernel), memHyps (by decide +kernel)⟩

/-- What the statements about register forms ask for: the word issues, some lane acts, and no two acting lanes write one register. -/
def RegHyps (s : State) (gd : Guard) (i : Instr) (price : Nat) (d : GReg) : Prop :=
  RegsLanded s gd i ∧ Payable s price false ∧ actingLanes s gd ≠ [] ∧ ∀ p ∈ actingLanes s gd, SoleWriter s gd d p
def regB (s : State) (gd : Guard) (price : Nat) (d : GReg) (is : List Instr) : Bool :=
  is.all (landedB s gd) && decide (price ≤ (s.cell (curCell s)).pocket) && quotaAllows s (curCell s) price false &&
  (s.cell (curCell s)).reqs.isEmpty && !(s.die (dieOf (curCell s))).ringFailed && !(actingLanes s gd).isEmpty &&
  (actingLanes s gd).all (fun p => (actingLanes s gd).all fun q => !decide (gId q d = gId p d) || decide (q = p))
theorem regHyps {s : State} {gd : Guard} {price : Nat} {d : GReg} {is : List Instr} (h : regB s gd price d is = true) :
    ∀ i ∈ is, RegHyps s gd i price d := by
  simp only [regB, Bool.and_eq_true, List.all_eq_true, decide_eq_true_eq, List.isEmpty_iff, Bool.not_eq_eq_eq_not, Bool.not_true] at h
  intro i hi
  refine ⟨landed_of (h.1.1.1.1.1.1 i hi), .inr (.inr ⟨h.1.1.2, h.1.1.1.2, h.1.1.1.1.1.2, h.1.1.1.1.2⟩), ?_, fun p hp q hq e => ?_⟩
  · intro e
    simp [e] at h
  · simpa [e] using h.2 p hp q hq

theorem witness_IntegerArithmeticResults : ∀ i ∈ [Instr.add always (hr 9) (gr 1) (hr 2) .i32, .sub always (hr 9) (gr 1) (hr 2) .n32,
    .mul always (hr 9) (gr 1) (hr 2) .i64, .mulh always (hr 9) (gr 1) (hr 2) .n64, .mad always (hr 9) (gr 1) (hr 2) .i32,
    .and always (hr 9) (gr 1) (hr 2) .i32, .or always (hr 9) (gr 1) (hr 2) .i32, .xor always (hr 9) (gr 1) (hr 2) .i32,
    .andn always (hr 9) (gr 1) (hr 2) .i32, .shl always (hr 9) (gr 1) (hr 2) .i32, .shr always (hr 9) (gr 1) (hr 2) .i32,
    .sar always (hr 9) (gr 1) (hr 2) .i32, .rot always (hr 9) (gr 1) (hr 2) .i32, .min always (hr 9) (gr 1) (hr 2) .i32,
    .max always (hr 9) (gr 1) (hr 2) .i32], RegHyps four always i 0 (hr 9) := regHyps (by decide +kernel)

theorem witness_ImmediateResults : ∀ i ∈ [Instr.addi always (gr 9) (gr 1) (-32) .i32, .andi always (gr 9) (gr 1) (-1) .n32,
    .ori always (gr 9) (gr 1) 31 .i64, .xori always (gr 9) (gr 1) (-1) .n64, .li always (gr 9) (-1), .lih always (gr 9) 0x3FFF],
    RegHyps four always i 0 (gr 9) := regHyps (by decide +kernel)

theorem witness_BitOperationResults : (∀ i ∈ [Instr.abs always (gr 9) (gr 1) .i32, .neg always (gr 9) (gr 1) .i32,
    .clz always (gr 9) (gr 1) .i32, .ctz always (gr 9) (gr 1) .i32, .popc always (gr 9) (gr 1) .i32, .brev always (gr 9) (gr 1) .i32,
    .bfx always (gr 9) (gr 1) (gr 2) .i32, .bfi always (gr 9) (gr 1) (gr 2) .i32, .sel always (gr 9) (gr 1) (gr 2) 7,
    .lea always (gr 9) (gr 1) (gr 2) 3], RegHyps four always i 0 (gr 9)) ∧ 31 < IntTy.i32.width ∧ 63 < IntTy.n64.width :=
  ⟨regHyps (by decide +kernel), by decide +kernel⟩

theorem witness_ComparisonResults : ∀ i ∈ [Instr.cmp always .eq 7 (gr 1) (gr 2) .i32, .cmp always .ne 7 (gr 1) (gr 2) .i32,
    .cmp always .lt 7 (gr 1) (gr 2) .i32, .cmp always .le 7 (gr 1) (gr 2) .i32, .cmp always .gt 7 (gr 1) (gr 2) .i32,
    .cmp always .ge 0 (gr 1) (gr 2) .i32, .pand always 7 1 2, .por always 7 1 2, .pxor always 7 1 2, .pnot always 7 1,
    .fcmp always .un 7 1 2 .f32, .fcmp always .lt 7 1 2 .f64], RegHyps four always i 0 (gr 9) := regHyps (by decide +kernel)

theorem witness_VotesAndShuffles : ∀ i ∈ [Instr.voteSome always 7 1, .voteEvery always 7 1, .voteAgree always 7 1, .ballot always (gr 9) 1,
    .shflPick always (gr 9) (gr 1) (gr 2), .shflLo always (gr 9) (gr 1) (gr 2), .shflHi always (gr 9) (gr 1) (gr 2),
    .shflMir always (gr 9) (gr 1) (gr 2), .bcast always (gr 9) (gr 1) 3], RegHyps four always i 0 (gr 9) := regHyps (by decide +kernel)

theorem witness_GangRegisterMoves : (∀ i ∈ [Instr.krd always (gr 9) 15, .kwr always 15 (gr 1)], RegHyps four always i 0 (gr 9)) ∧
    (actingLanes four always).head? = some 0 := ⟨regHyps (by decide +kernel), by decide +kernel⟩

theorem witness_ScalarFloatResults : ∀ i ∈ [Instr.fadd always .rn 9 1 2 .f32, .fsub always .rd 9 1 2 .f64, .fmul always .rs 9 1 2 .f16,
    .fma always .rz 9 1 2 .bf16, .fmin always 9 1 2 .f32, .fmax always 9 1 2 .f32, .fabs always 9 1 .f32, .fneg always 9 1 .f32],
    RegHyps four always i 0 (gr 9) := regHyps (by decide +kernel)

theorem witness_DivisionsLandLater : (∀ i ∈ [Instr.div always (gr 9) (gr 1) (gr 2) .i32, .rem always (gr 9) (gr 1) (gr 2) .i32,
    .fdiv always .rn 9 1 2 .f32, .fsqrt always .rn 9 1 .f32], RegHyps four always i 0 (gr 9)) ∧ markable (gId 2 (gr 9)) = true :=
  ⟨regHyps (by decide +kernel), by decide +kernel⟩

theorem witness_ReductionResults : ∀ i ∈ [Instr.vsum always (gr 9) 1 .f32, .vdot always (gr 9) 1 2 .f16,
    .cvtScalar always 9 1 .f16 .f32 .rz, .xget always (gr 9) 1 true .rn], RegHyps four always i 4 (gr 9) := regHyps (by decide +kernel)

theorem witness_WideResults : ∀ i ∈ [Instr.vadd always .rn 3 1 2 .f32, .vsub always .rn 3 1 2 .f32, .vmul always .rn 3 1 2 .f32,
    .vfma always .rn 3 1 2 .f32, .vmin always 3 1 2 .f32, .vmax always 3 1 2 .f32, .vabs always 3 1 .f32, .vneg always 3 1 .f32,
    .vcmp always .lt 3 1 2 .f32, .vsel always 3 1 2, .vperm always 3 1 2 .b4, .cvtWide always 3 1 .f16 .f32 .rn],
    RegHyps four always i 4 (gr 9) := regHyps (by decide +kernel)

theorem witness_SpecialFunctionsLandLater : (∀ i ∈ [Instr.vrcp always 3 1 .f32, .vrsq always 3 1 .f32, .vsqrt always 3 1 .f32,
    .vexp2 always 3 1 .f32, .vlog2 always 3 1 .f32, .vsin always 3 1 .f32, .vcos always 3 1 .f32], RegHyps four always i 8 (gr 9)) ∧
    markable (.w 2 3) = true ∧ specFixed .rcp (ftyFmt .f32) 0x40000000 = true ∧ specFixed .rcp (ftyFmt .f32) 0x40400000 = false ∧
    withinBound .rcp (ftyFmt .f32) (specExact .rcp (decodeF (ftyFmt .f32) 0x40400000)).1 0x3EAAAAAA = true ∧
    withinBound .cos (ftyFmt .f32) (specExact .cos (decodeF (ftyFmt .f32) 0x3F800000)).1 0x3F0A5141 = true :=
  ⟨regHyps (by decide +kernel), by decide +kernel⟩

theorem witness_PackResults : ∀ i ∈ [Instr.pack always 3 1 2 11 .rn false, .pack always 3 1 2 0 .rn true, .unpk always 3 1 true 9 true,
    .scl always 3 1 2 9 .rn true], RegHyps four always i 4 (gr 9) := regHyps (by decide +kernel)

theorem witness_ExactAccumulatorResults : ∀ i ∈ [Instr.xadd always 1 (.f64x4 3), .xadd always 0 (.f32 (gr 1)), .xclr always 1,
    .xmrg always 0 1], RegHyps four always i 4 (gr 9) := regHyps (by decide +kernel)

/-- One strand whose links from the east and from the south are full. -/
def linked : State := ((lab 0 false).setAlley (tset (tset [] (inLink 0 .qe) 7#64) (inLink 0 .qs) 9#64))
theorem witness_AlleyMoves : (∀ i ∈ [Instr.qrd always (gr 9) .qe (some .qe), .qrd always (gr 9) .qe none, .qwr always .qe (gr 1)],
      RegHyps linked always i 0 (gr 9)) ∧
    (∀ p ∈ actingLanes linked always, hasNext p .qe = true ∧ (linkBefore linked (inLink p .qe)).isSome = true ∧
      broken linked (.link (inLink p .qe)) = false ∧ accepts linked ((actingLanes linked always).map (inLink · .qe)) (outLink p .qe) = true ∧
      accepts linked [] (outLink p .qe) = true) ∧
    (∀ q ∈ actingLanes linked always, outLink q .qe = outLink 0 .qe → q = 0) ∧
    (∀ q ∈ actingLanes linked always, outLink q .qe ≠ inLink 0 .qe) :=
  ⟨regHyps (by decide +kernel), by decide +kernel⟩

/-- One strand whose g1 is a target that is not NBA; four lanes with the guard ?p1 true in lane 0. -/
def forked : State := wrP four 0 1 true
theorem witness_ControlTransfers : (∀ i ∈ [Instr.br ⟨false, 1⟩ (-2), .call ⟨false, 1⟩ 4, .brx ⟨false, 1⟩ (gr 1), .callx ⟨false, 1⟩ (gr 1),
      .ret ⟨false, 1⟩ (gr 1), .dbnz ⟨false, 1⟩ (gr 2) (-4)], RegHyps forked ⟨false, 1⟩ i 0 (gr 31)) ∧
    (∀ p ∈ actingLanes forked ⟨false, 1⟩, (rdReg forked p (gr 1)).toNat % 4 = 0 ∧ canonical (rdReg forked p (gr 1)) = true) :=
  ⟨regHyps (by decide +kernel), by decide +kernel⟩

theorem witness_DivergentBranchMakesPaths : RegsLanded forked ⟨false, 1⟩ (.br ⟨false, 1⟩ (-2)) ∧ actingLanes forked ⟨false, 1⟩ ≠ [] ∧
    forked.cur.lanes.filter (fun p => !acting forked ⟨false, 1⟩ p) ≠ [] ∧
    forked.cur.ba + BitVec.ofInt 64 (4 * (-2#20 : BitVec 20).toInt) ≠ forked.cur.nba ∧
    ((pathsOf forked forked.cur.leader).filter (· ≠ forked.cur.lanes.headD forked.cur.leader - forked.cur.leader)).length + 2
      ≤ (forked.gang forked.cur.leader).splitpol.toNat % 32 ∧
    (∀ p ∈ forked.cur.lanes, (forked.str p).lmode = .inPath (forked.cur.lanes.headD forked.cur.leader - forked.cur.leader)) :=
  ⟨landed_of (by decide +kernel), by decide +kernel⟩

theorem witness_SetInstructionResults : four.cur.sup = false ∧ actingLanes four always ≠ [] ∧
    ∀ i ∈ [Instr.jset always 7, .jadd always 7, .jquit always 7, .jwrite always 7 (gr 1)], RegHyps four always i 0 (gr 9) :=
  ⟨by decide +kernel, by decide +kernel, regHyps (by decide +kernel)⟩
/-- Four lanes in path 0, of which lane 0 acts, with j3 naming lanes 0 to 2. -/
def waits : State := wrJ forked 0 3 { valid := true, member := 7#16 }
theorem witness_WaitingJoinsTheSet : waits.cur.sup = false ∧ RegsLanded waits ⟨false, 1⟩ (.jwait ⟨false, 1⟩ 3) ∧ (rdJ waits 0 3).valid = true ∧
    actingLanes waits ⟨false, 1⟩ ≠ [] ∧ (∀ p ∈ actingLanes waits ⟨false, 1⟩,
      ((rdJ waits 0 3).member &&& ~~~(rdJ waits 0 3).quit).getLsbD (p - waits.cur.leader) = true) :=
  ⟨by decide +kernel, landed_of (by decide +kernel), by decide +kernel, by decide +kernel, by decide +kernel⟩
theorem witness_SetReads : ∀ i ∈ [Instr.jtest always 7 3, .jread always (gr 9) 3], RegHyps waits always i 0 (gr 9) := regHyps (by decide +kernel)

/-- Position 0 at a `fuse`, beside a solo strand at position 1 that is parked FUSE for a gang of two, or still runs. -/
def fusing (parked : Bool) : State := putStr (lab 0 false) 1 {
  st := if parked then .parked else .ready, park := if parked then .fuse else .none, fuseG := 1, lmode := .inPath 0 }
theorem witness_FuseFormsAGang : (∀ b : Bool, let s := fusing b
      s.cur.sup = false ∧ s.cur.lanes = [0] ∧ s.cur.leader = 0 ∧ glogOf (s.str 0) = 0 ∧ acting s always 0 = true ∧
      landedB s always (.fuse always 1) = true ∧ (1 : Fin 5).val ≠ 0 ∧ fuseClash s 0 1 = none) ∧
    (∃ q ∈ fuseGroup 0 1, q ≠ 0 ∧ ¬(((fusing false).str q).st = .parked ∧ ((fusing false).str q).park = .fuse ∧ ((fusing false).str q).fuseG = 1)) ∧
    (∀ q ∈ fuseGroup 0 1, q ≠ 0 → ((fusing true).str q).st = .parked ∧ ((fusing true).str q).park = .fuse ∧ ((fusing true).str q).fuseG = 1) :=
  by decide +kernel

theorem witness_SplitDetachAndYield : four.cur.sup = false ∧ actingLanes four always ≠ [] ∧ 1 ≤ glogOf (four.str four.cur.leader) ∧
    four.cur.path = true ∧ (four.str 3).lmode = .inPath 0 ∧ liveSt (four.str 3) ≠ .retired ∧ four.cur.lanes = pathLanes four 0 0 ∧
    gathering (rdJ { four with js := tset [] 3 { valid := true, member := 7#16, arrived := 1#16 } } 0 3) = true ∧ solo.cur.sup = false ∧
    ¬(1 ≤ glogOf (solo.str solo.cur.leader)) ∧
    (∀ i ∈ [Instr.split always, .detach always, .yield always], RegHyps four always i 0 (gr 9)) ∧
    (∀ i ∈ [Instr.split always, .detach always, .yield always], RegHyps solo always i 0 (gr 9)) ∧
    (∀ i ∈ [Instr.detach ⟨false, 1⟩], RegHyps forked ⟨false, 1⟩ i 0 (gr 9)) ∧ forked.cur.lanes = pathLanes forked 0 0 ∧
    (forked.gang 0).turn = true ∧ (forked.gang 0).cur = 0 ∧ forked.cur.lanes.filter (fun p => !acting forked ⟨false, 1⟩ p) ≠ [] :=
  ⟨by decide +kernel, by decide +kernel, by decide +kernel, by decide +kernel, by decide +kernel, by decide +kernel, by decide +kernel,
    by decide +kernel, by decide +kernel, by decide +kernel, regHyps (by decide +kernel), regHyps (by decide +kernel), regHyps (by decide +kernel),
    by decide +kernel⟩
/-- A gang whose bundle of this cycle has counted and split it, with lane 1 waiting on j7. -/
def parting : State := modStr (putGang four 0 { four.gang 0 with splitting := true, counting := true }) 1 (fun t => { t with lmode := .waiting 7 })
theorem witness_split : ((settleSets (putGang parting 0 { parting.gang 0 with counting := false, qleft := (parting.gang 0).qleft - 1 }) 0).gang 0).splitting = true ∧
    collapsed ((settleSets (putGang parting 0 { parting.gang 0 with counting := false, qleft := (parting.gang 0).qleft - 1 }) 0).gang 0) = false ∧
    1 ∈ gangLanes parting 0 ∧ liveSt (parting.str 1) ≠ .retired ∧ (parting.str 1).lmode = .waiting 7 ∧
    3 ∈ gangLanes parting 0 ∧ (∀ j, (parting.str 3).lmode ≠ .waiting j) :=
  ⟨by decide +kernel, by decide +kernel, by decide +kernel, by decide +kernel, by decide +kernel, by decide +kernel, fun j h => nomatch h⟩

theorem witness_StopRetiresTheLane : forked.cur.sup = false ∧ RegsLanded forked ⟨false, 1⟩ (.stop ⟨false, 1⟩) ∧
    (∃ q ∈ gangLanes forked forked.cur.leader, q ∉ actingLanes forked ⟨false, 1⟩ ∧ liveSt (forked.str q) ≠ .retired) ∧
    (∀ p ∈ actingLanes forked ⟨false, 1⟩, (forked.str p).recvq = [] ∧
      oldestSpilled forked p (forked.str p).gen.toNat (keyIn forked (cellOf p)).toNat = none) :=
  ⟨by decide +kernel, landed_of (by decide +kernel), by decide +kernel, by decide +kernel⟩

/-- Four lanes at one descriptor (entry 200000₁₆, GLOG 2), with a launch record of one block at 200200₁₆ and the ASID table of ASID 1. -/
def spawner : State :=
  let s := (List.range 4).foldl (fun t p => wrG (wrG t p 1 0x200100#64) p 2 0x200200#64) (lab 2 false)
  let t := wr (wr s (locHbm 0 0x200100) 8 0x200000) (locHbm 0 0x200108) 8 2
  let u := wr (wr t (locHbm 0 0x200200) 8 0x200000) (locPlace0 8) 8 (2 ^ 63)
  u
theorem witness_SpawnGathersRecords :
    (let ask := fun p => ({ va := rdReg spawner p (gr 1), n := 16, al := 16, kind := .desc } : Ask)
    spawner.cur.sup = false ∧ (∀ p ∈ actingLanes spawner always, cellOf p = curCell spawner ∧ (rdReg spawner p (gr 1)).toNat % 16 = 0) ∧
    RegsLanded spawner always (.spawn always (gr 1) 2) ∧ RegsLanded spawner always (.spawnf always (gr 1)) ∧ OrderMet spawner always true ∧
    Reaches spawner (actingLanes spawner always) (fun p => [ask p]) ∧
    canGather (gathered spawner (curCell spawner)) 4 ((actingLanes spawner always).map fun p => (rdReg spawner p (gr 1)).toNat) = true ∧
    ∀ p ∈ actingLanes spawner always, peek spawner 0 p (targetOf spawner p (ask p)) 16 = .val (2 ^ 65 + 0x200000) ∧ descOk (2 ^ 65 + 0x200000) = true) :=
  ⟨by decide +kernel, by decide +kernel, landed_of (by decide +kernel), landed_of (by decide +kernel), order_of (by decide +kernel),
    reaches_of (by decide +kernel), by decide +kernel, by decide +kernel⟩

theorem witness_gathering : (let q : Partial := { desc := 16, entry := 0#64, glog := 1, timeout := 9, first := 0, count := 1, released := none }
    forming q 16 = true ∧ (∀ z ∈ [q], forming z 16 = true → z = q) ∧ ∀ z ∈ [q], forming z 32 = false) := by decide +kernel

theorem witness_GridQueuesWork :
    (let ask := fun p => ({ va := rdReg spawner p (gr 2), n := 64, al := 64, kind := .desc } : Ask)
    spawner.cur.sup = false ∧ RegsLanded spawner always (.grid always (gr 2)) ∧ OrderMet spawner always true ∧
    (∀ p ∈ actingLanes spawner always, (rdReg spawner p (gr 2)).toNat % 64 = 0) ∧
    Reaches spawner (actingLanes spawner always) (fun p => [ask p]) ∧
    ∀ p ∈ actingLanes spawner always, peek spawner 0 p (targetOf spawner p (ask p)) 64 = .val 0x200000 ∧
      recordOk spawner 0x200000 (asidIn spawner 0) (gridPrio spawner 0x200000) = true) :=
  ⟨by decide +kernel, landed_of (by decide +kernel), order_of (by decide +kernel), by decide +kernel, reaches_of (by decide +kernel),
    by decide +kernel⟩

/-- A dirty sector of cell 0's L1. -/
def dirty : State := putCell four 0 { four.cell 0 with l1 := tset [] (locHbm 0 0x200100 / 32) { data := 5#256, held := 1#32, dirty := 1#32, filled := 0, grid := 0 } }
theorem witness_FencesAndCacheMaintenance : (∀ i ∈ [Instr.fenceAcq always .die, .fenceRel always .pkg, .fenceAr always .cell, .fenceSc always .fab,
      .pf always (gr 1) (gr 2), .cwb always (gr 1) (gr 2)], RegHyps dirty always i 0 (gr 9)) ∧
    RegHyps super always (.cinv always (gr 1) (gr 2)) 0 (gr 9) ∧ super.cur.sup = true ∧
    (∃ l, tfind (dirty.cell 0).l1 (locHbm 0 0x200100 / 32) = some l ∧ l.dirty.getLsbD 0 = true ∧ l.dirty.getLsbD 31 = false) ∧
    crossed dirty (dieOf 0) (homeDie (32 * (locHbm 0 0x200100 / 32))) 0 (32 * (locHbm 0 0x200100 / 32)) = false ∧ badAt dirty (32 * (locHbm 0 0x200100 / 32)) = none ∧
    (∃ l, tfind ((l1DropClean dirty 0).cell 0).l1 (locHbm 0 0x200100 / 32) = some l ∧ l.bad = false) :=
  ⟨regHyps (by decide +kernel), regHyps (is := [.cinv always (gr 1) (gr 2)]) (by decide +kernel) _ (by simp), by decide +kernel,
    ⟨{ data := 5#256, held := 1#32, dirty := 1#32, filled := 0, grid := 0 }, by decide +kernel⟩, by decide +kernel, by decide +kernel,
    ⟨{ data := 5#256, held := 1#32, dirty := 1#32, filled := 0, grid := 0 }, by decide +kernel⟩⟩

/-- The same with a sector of host memory while the host link is down; a load of position 0 that is to be performed. -/
def dirtyHost : State := (putCell four 0 { four.cell 0 with l1 := tset [] (locHost 0 / 32) { data := 5#256, held := 1#32, dirty := 1#32, filled := 0, grid := 0 } }).setPkg
  { four.pkg with hostUp := false }
def reading : State := four.setPend (tset [] 1 { pos := 0, regs := [.g 0 9], due := 0, isRead := true, parts := [{ tgt := .remote 1 0, va := 0, op := .read 8, val := none }] })
theorem witness_fences : dirtyHost.pkg.hostUp = false ∧ homeDie (32 * (locHost 0 / 32)) = 4 ∧
    (∃ l ∈ tfind (dirtyHost.cell 0).l1 (locHost 0 / 32), l.dirty ≠ 0#32) ∧
    (∃ e ∈ tfind reading.pend 1, ∃ q ∈ e.parts, q.val = none) ∧ 1 ∈ earlierReads reading 0 ∧ 1 ∈ earlierAll reading 0 := by
  refine ⟨by decide +kernel, by decide +kernel, ⟨_, rfl, by decide +kernel⟩, ⟨_, rfl, by decide +kernel⟩, by decide +kernel, by decide +kernel⟩

/-- A strand whose `wait` has an outcome. -/
def heard : State := modStr solo 0 (fun t => { t with mon := some {
  loc := locHbm 0 0x200100, addr := 0x200100#64, w64 := true, expect := 0#64, deadline := none, armed := true, stamp := 0, done := some (7#64, 1) } })
theorem witness_WaitCompletesWithItsMonitors : RegsLanded heard always (.wait always (gr 8) (gr 1) true (some .pkg)) ∧ OrderMet heard always false ∧
    actingLanes heard always ≠ [] ∧ ∀ p ∈ actingLanes heard always, ((heard.str p).mon.bind (·.done)).isSome = true :=
  ⟨landed_of (by decide +kernel), order_of (by decide +kernel), by decide +kernel, by decide +kernel⟩

theorem witness_failed_wait : (∃ m, (heard.str 0).mon = some m ∧ m.done = some (7#64, 1)) ∧
    (∃ m ∈ ((modStr heard 0 (fun t => { t with mon := t.mon.map fun m => { m with bad := some { cause := 9, code := 6, addr := m.addr, access := 5 } } })).str 0).mon,
      m.bad ≠ none ∧ m.done = some (7#64, 1)) := ⟨⟨_, rfl, rfl⟩, ⟨_, rfl, by decide +kernel⟩⟩

/-- A strand with a consumer word for its own scratchpad at offset 100₁₆ with barrier 3 in g4, a notice word with barrier 2 in g5, a source in
g1 and a shape of two rows of 64 bytes at pitch 256 in g6; g8 and g9 hold the same words, but for the consumer word, which names DCAP1, a
multicast capability of this package. -/
def sender : State :=
  let s := wrG (wrG (wrG (wrG (wrG solo 0 4 (word (2 ^ 63 + 3 * 2 ^ 52 + 0x100))) 0 5 (word (2 ^ 63 + 2 * 2 ^ 56))) 0 6 (word (256 * 2 ^ 40 + 2 ^ 32 + 64)))
    0 8 (word (2 ^ 59))) 0 9 (word (2 ^ 63))
  s.setPkg { s.pkg with dcap := tset [] 9 (word (2 ^ 63 + 2 ^ 62)) }
theorem witness_TransfersStart :
    (∀ i ∈ [Instr.cpy always none 4 1 6, .tld always (some .die) 4 1 6, .tldm always (some .fab) 8 1 6, .chase always none 4 1 1],
      RegHyps sender always i 4 (gr 9)) ∧ OrderMet sender always true ∧ tableUse sender (curCell sender) + (actingLanes sender always).length ≤ 256 ∧
    (1 ≤ shLen (rdG sender 0 6) ∧ shLen (rdG sender 0 6) * shRows (rdG sender 0 6) ≤ 65536) ∧ (rdG sender 0 4).getLsbD 63 = true ∧
    (rdG sender 0 8).getLsbD 63 = false ∧ (∀ x ∈ sourceAsks (rdG sender 0 1) (rdG sender 0 6), ∃ t, resolve sender 0 x = .ok t) ∧
    sourceAsks (rdG sender 0 1) (rdG sender 0 6) ≠ [] ∧ consumerCheck sender 0 false (rdG sender 0 4) (shTotal (rdG sender 0 6)) = none ∧
    consumerCheck sender 0 true (rdG sender 0 8) (shTotal (rdG sender 0 6)) = none ∧
    (rdG sender 0 1).toNat % 4 = 0 ∧ (∃ t, resolve sender 0 (chaseAsk sender 1 0) = .ok t) ∧ consumerCheck sender 0 false (rdG sender 0 4) 1 = none ∧
    consumerOf sender (cellOf 0) (rdG sender 0 4) = .self false ∧
    Payable sender (Nat.min 64 ((actingLanes sender always).map fun p => (shTotal (rdG sender p 6) + 1023) / 1024).sum) true ∧
    intoOwn sender 0 .tld (.cap 0 0 0 false 7#16) = true ∧ intoOwn sender 0 .tldm (.self false) = false :=
  ⟨regHyps (by decide +kernel), order_of (by decide +kernel), by decide +kernel, by decide +kernel, by decide +kernel, by decide +kernel,
    (fun x hx => resolve_ok ((List.all_eq_true.mp (by decide +kernel :
      (sourceAsks (rdG sender 0 1) (rdG sender 0 6)).all (fun x => match resolve sender 0 x with | .ok _ => true | _ => false) = true)) x hx)),
    by decide +kernel, by decide +kernel, by decide +kernel, by decide +kernel, resolve_ok (by decide +kernel), by decide +kernel, by decide +kernel,
    .inr (.inr (by decide +kernel)), by decide +kernel⟩

/-- A barrier at each end of PEND, and barriers at the end-of-cycle test with PEND below zero, above zero and zero. -/
def limit (pend : Int) : State := putCell solo 0 { solo.cell 0 with bars := tset [] 1 { valid := true, expect := 1, remain := 0, pend := pend } }
/-- Barriers of cell 0: b1 with one of two arrivals, b2 with none left to come. -/
def barred : State := putCell solo 0 { solo.cell 0 with
  bars := tset (tset [] 1 { valid := true, expect := 2, remain := 2 }) 2 { valid := true, expect := 1, remain := 0 } }
theorem witness_BarriersCount : (∀ i ∈ [Instr.tbinit always 1 (gr 2), .tbexp always 1 (gr 2), .tbarr always 1, .tbwait always 1, .tbtest always 7 1,
      .bbarr always, .bbwait always], RegHyps barred always i 0 (gr 9)) ∧ OrderMet barred always true ∧
    (let n := (rdReg barred (lowestOf barred (actingLanes barred always)) (gr 2)).toNat % 128; 1 ≤ n ∧ n ≤ 64) ∧
    tbIsBusy barred 0 1 = false ∧ tbIsBusy (limit 4) 0 1 = true ∧ tableNames barred 0 1 = false ∧ barred.cur.sup = false ∧ bbFull barred (curCell barred) = false ∧
    (∀ p ∈ actingLanes barred always, (barOf (barred.cell (cellOf p)) 1).before.getLsbD (posInCell p) = false) ∧
    (∀ p ∈ actingLanes barred always, (barred.cell (cellOf p)).bbBefore.getLsbD (posInCell p) = false) ∧
    (barOf (barred.cell 0) 1).valid = true ∧ (barOf (barred.cell 0) 1).remain ≠ 0 ∧ 2 ≤ (barOf (barred.cell 0) 1).remain ∧
    (barOf (barred.cell 0) 1).arrived.getLsbD (posInCell 0) = false ∧
    (barOf (barred.cell 0) 1).pend + (2 ^ 31 - 1 : Int) < 2 ^ 31 ∧ -(2 ^ 31 : Int) ≤ (barOf (barred.cell 0) 1).pend + -(2 ^ 31 : Int) ∧
    (barOf (barred.cell 0) 2).valid = true ∧ (barOf (barred.cell 0) 2).remain = 0 ∧ (barOf (barred.cell 0) 2).pend = 0 ∧
    (barred.cell 0).bbArrived.getLsbD (posInCell 0) = false :=
  ⟨regHyps (by decide +kernel), order_of (by decide +kernel), by decide +kernel⟩

/-- A strand with a message for it, a `recvt` limit of zero in g4, and tag 7 in its match table. -/
def mailed : State := putCell (wrG (modStr solo 0 (fun t => { t with
    recvq := [{ dst := 0#64, payload := 9#256, key := 7#16, src := 0, scope := .cell }] })) 0 5 (word (7 * 2 ^ 40))) 0
  { solo.cell 0 with matchTab := tset [] 0 { tag := 7, tb := 0, win := false, offset := 0 } }
theorem witness_MessagesAndSubscriptions : (∀ i ∈ [Instr.send always (gr 4) 1, .recv always 1, .recvt always 1 (gr 4) 7, .multicastSub always (gr 5),
      .multicastUnsub always (gr 5)], RegHyps mailed always i 0 (gr 9)) ∧ OrderMet mailed always true ∧
    (∀ p ∈ actingLanes mailed always, sendCheck mailed (rdReg mailed p (gr 4)) = none) ∧
    injected mailed (curCell mailed) + (actingLanes mailed always).length ≤ 64 ∧ (∀ p ∈ actingLanes mailed always, (mailed.str p).recvq ≠ []) ∧
    (∀ p ∈ actingLanes solo always, (solo.str p).recvq = [] ∧ (rdReg solo p (gr 4)).toNat % 2 ^ 32 = 0) ∧
    (let s := modStr solo 0 (fun t => { t with deadline := some 0 });
      (s.str 0).recvq = [] ∧ (rdReg s 0 (gr 1)).toNat % 2 ^ 32 ≠ 0 ∧ (s.str 0).deadline = some 0 ∧ 0 ≤ cyc s (cellOf 0)) ∧
    lacking (mailed.cell (curCell mailed)) (fun p => field (rdReg mailed p (gr 5)).toNat 40 12) [] (actingLanes mailed always) = [] ∧
    matchOf (mailed.cell 0) 7 = some 0 ∧ matchOf (mailed.cell 0) 8 = none ∧ tfind (mailed.cell 0).matchTab 1 = none ∧
    (∀ j, j < 1 → tfind (mailed.cell 0).matchTab j ≠ none) :=
  ⟨regHyps (by decide +kernel), order_of (by decide +kernel), by decide +kernel⟩

/-- A gang of four with panels at Terrace offset 0 in g4 and g5, rows at 200100₁₆ with pitch 256 in g1 and g6, and a job record at
scratchpad offset 40₁₆ in g2 with OFF A and OFF B of zero. -/
def matrix : State := (List.range 4).foldl (fun t p => wrG (wrG (wrG t p 1 0x200100#64) p 6 256#64) p 2 0x40#64) (lab 2 false)
theorem witness_TheEngineAccepts : (∀ i ∈ [Instr.mma always none .e4m3 3 4 5, .mmz always 3, .mmst always 3 (gr 1) (gr 6), .mmld always 0 (gr 1) (gr 6),
      .mmjob always (gr 9) (gr 2) .e4m3, .mmpoll always (gr 9) (gr 2)], RegHyps matrix always i 32 (gr 9)) ∧ OrderMet matrix always true ∧
    matrix.cur.sup = false ∧ inGang matrix = true ∧ matrix.cur.path = true ∧ (matrix.cell (curCell matrix)).jobs.length + 1 ≤ 16 ∧
    4 * fmtBits .e4m3 ≤ 64 ∧ terraceCheck matrix 0 .e4m3 (rdG matrix 0 4) = none ∧ panelCheck .e4m3 (rdG matrix 0 4) = none ∧
    rowCheck (rdReg matrix 0 (gr 1)) (mcPitch (rdReg matrix 0 (gr 6))) = none ∧
    (∀ k ∈ rowSectors (rdReg matrix 0 (gr 1)) (mcPitch (rdReg matrix 0 (gr 6))) true, ∃ t, resolve matrix 0 k = .ok t) ∧
    Reaches matrix ((actingLanes matrix always).take 1) (fun p => [jobAsk matrix p (gr 2)]) ∧ (rdReg matrix 0 (gr 2)).toNat % 32 = 0 ∧
    peek matrix (curCell matrix) 0 (targetOf matrix 0 (jobAsk matrix 0 (gr 2))) 32 = .val 0 ∧ jobOk 0 = true ∧
    terraceCheck matrix 0 .e4m3 (jrAop 0) = none ∧ panelCheck .e4m3 (jrAop 0) = none ∧ jrRel 0 = none ∧
    pollTargets matrix 0 (2 ^ 63) = [] :=
  ⟨regHyps (by decide +kernel), order_of (by decide +kernel), by decide +kernel, by decide +kernel, by decide +kernel, by decide +kernel,
    by decide +kernel, by decide +kernel, by decide +kernel, by decide +kernel,
    (fun x hx => resolve_ok ((List.all_eq_true.mp (by decide +kernel :
      (rowSectors (rdReg matrix 0 (gr 1)) (mcPitch (rdReg matrix 0 (gr 6))) true).all
        (fun x => match resolve matrix 0 x with | .ok _ => true | _ => false) = true)) x hx)),
    reaches_of (by decide +kernel), by decide +kernel⟩

theorem witness_SystemRegisters : (∀ i ∈ [Instr.rdsr always (gr 9) 0x003, .rdsr always (gr 9) 0x010, .wrsr always (gr 2) 0x010, .tokq always (gr 9)],
      RegHyps solo always i 0 (gr 9)) ∧ (∀ i ∈ [Instr.rdsr always (gr 9) 0x100, .wrsr always (gr 1) 0x104, .probe always (gr 9) (gr 1)],
      RegHyps super always i 0 (gr 9)) ∧ super.cur.sup = true ∧ srnRead 0x100 = some true ∧ srnRead 0x003 = some false ∧
    srnWrite 0x104 = some true ∧ srnWrite 0x010 = some false ∧ RegHyps super always (.rdsr always (gr 9) 0x131) 0 (gr 9) ∧
    (let s := modStr super 0 (fun t => { t with rbsel := 5#64 });
      rbReads (cellOf 0) (s.str 0).rbsel = [.g 0 1] ∧ ∀ r ∈ rbReads (cellOf 0) (s.str 0).rbsel, broken s r = false) ∧
    readsTiles (modStr super 0 (fun t => { t with rbsel := 0x4000000000000000#64 })) 0 0x131 = true ∧ (super.cell (curCell super)).jobs = [] ∧ (solo.cell (curCell solo)).jobs = [] ∧
    (let v := (rdReg solo 0 (gr 2)).toNat % 32; 1 ≤ v ∧ v ≤ 16) ∧ (∀ p ∈ actingLanes super always, probeMiss super p (rdReg super p (gr 1)) = false) :=
  ⟨regHyps (by decide +kernel), regHyps (by decide +kernel), by decide +kernel, by decide +kernel, by decide +kernel, by decide +kernel,
    by decide +kernel, regHyps (is := [.rdsr always (gr 9) 0x131]) (by decide +kernel) _ (by simp), by decide +kernel⟩

theorem witness_TrapsAndReturns : actingLanes four always = 0 :: [1, 2, 3] ∧ RegsLanded four always (.trap always 0x42) ∧ four.cur.sup = false ∧
    (four.gang 0).late = false ∧ (let t := putGang four 0 { four.gang 0 with late := true }; RegsLanded t always (.trap always 0x42) ∧ (t.gang 0).late = true) ∧
    RegsLanded super always (.trap always 0x42) ∧ (super.str 0).heldSt ≠ .frozen ∧
    actingLanes super always = 0 :: [] ∧ RegsLanded super always (.sysret always) ∧ super.cur.sup = true ∧ (super.gang 0).trapMask = 0#16 ∧
    (let t := (putGang super 0 { super.gang 0 with trapMask := 2#16 });
      RegsLanded t always (.sysret always) ∧ t.cur.sup = true ∧ (t.gang 0).trapMask ≠ 0#16) :=
  ⟨by decide +kernel, landed_of (by decide +kernel), by decide +kernel, by decide +kernel, ⟨landed_of (by decide +kernel), by decide +kernel⟩,
    landed_of (by decide +kernel), by decide +kernel, by decide +kernel, landed_of (by decide +kernel), by decide +kernel,
    by decide +kernel, landed_of (by decide +kernel), by decide +kernel, by decide +kernel⟩

theorem witness_PrivilegedOperations : ∀ i ∈ [Instr.halt always, .kill always (gr 1), .tlbinvAll always, .tlbinvAsid always (gr 1),
    .tlbinvPage always (gr 1) (gr 2)], RegHyps super always i 0 (gr 9) ∧ super.cur.sup = true :=
  fun i hi => ⟨regHyps (is := [Instr.halt always, .kill always (gr 1), .tlbinvAll always, .tlbinvAsid always (gr 1), .tlbinvPage always (gr 1) (gr 2)])
    (by decide +kernel) i hi, by decide +kernel⟩

/-- Work in flight of position 0: a load that has its value, one that has failed, a store whose sector is dirty in the L1, walks of
pages with and without a translation, a kill, and a banking switch that is due. -/
def busy : State :=
  let s := putCell solo 0 { solo.cell 0 with bankSw := some (0, .back 0), l1 := tset [] 65544 { data := 5#256, held := 1#32, dirty := 1#32, filled := 0, grid := 0 } }
  let l : Pend := { pos := 0, regs := [.g 0 9], shape := .g (gr 9) 64 false, due := 0, isRead := true, parts := [{ tgt := .home 0x200100 0, va := 0, op := .read 8, val := some 5 }] }
  let t := s.setPend (tset (tset [] 1 l) 2 { l with mark := some { cause := 10, code := 1, addr := 0, access := 2 } })
  let u := (t.setStores (tset [] 3 { cell := 0, pos := 0, grid := 0, sector := 65544, due := 0 })).setWalks
    (tset (tset [] 4 { cell := 0, asid := 1, va := 0x200000, waiters := [0], due := 0 }) 5 { cell := 0, asid := 2, va := 0, waiters := [0], due := 0 })
  let v := u.setKills (tset (tset [] 6 { grids := [0], record := { kind := 2 }, waiter := none }) 7 { grids := [0], record := { kind := 2 }, waiter := some 0 })
  let x := wr (wr (wr v (locPlace0 8) 8 (2 ^ 63 + 0x10000)) (locPlace0 0x10000) 8 0x11001) (locPlace0 0x11000) 8 0x12001
  let y := wr (wr x (locPlace0 0x12000) 8 0x13001) (locPlace0 0x13008) 8 (2 ^ 54 + 2 ^ 53 + 0x200002)
  modStr y 0 (fun t => { t with st := .parked, park := .data, wait := .sync [] 0 })
theorem witness_WorkUnderWayEnds :
    ((tfind busy.pend 1).isSome = true ∧ (tfind busy.pend 2).isSome = true ∧
      ∀ n ∈ [1, 2], ∀ e, tfind busy.pend n = some e → ∀ q ∈ e.parts, q.val ≠ none) ∧
    (tfind busy.stores 3).isSome = true ∧ (tfind busy.walks 4).isSome = true ∧ (tfind busy.walks 5).isSome = true ∧
    (walkAll busy 0 0 (busy.cell 0) 2 0 = .inr 1) ∧
    (∃ q ∈ unit busy 0, isSync (busy.str q).wait = true) ∧ readyToGo busy 0 = true ∧ (busy.cell 0).bankSw = some (0, .back 0) ∧
    (tfind busy.kills 6).isSome = true ∧ (tfind busy.kills 7).isSome = true :=
  ⟨⟨by decide +kernel, by decide +kernel, by
      intro n hn e h q hq
      simp only [List.mem_cons, List.not_mem_nil, or_false] at hn
      rcases hn with rfl | rfl <;> cases h <;> simp_all⟩, by decide +kernel⟩
/-- A page of 2 MiB at VA 200000₁₆ translates by the walk too (R133 to R135). -/
theorem witness_walk : ∃ e, walkAll busy 0 0 (busy.cell 0) 1 0x200000 = .inl e := by
  have h : (match walkAll busy 0 0 (busy.cell 0) 1 0x200000 with | .inl _ => true | .inr _ => false) = true := by decide +kernel
  split at h
  · exact ⟨_, ‹_›⟩
  · cases h
/-- The rest of what the landing of work asks: a part still to be performed, a store alone that succeeded or failed, a result whose
cell cycles are not over, a queued walk, a walk that a `tlbinv` under way meets, and the phases of a banking switch. -/
def busier (sw : Option (Nat × BankPhase)) : State :=
  let l : Pend := { pos := 0, regs := [.g 0 9], shape := .g (gr 9) 64 false, due := 0, isRead := true, late := 4, parts := [{ tgt := .home 0x200100 0, va := 0, op := .read 8, val := some 5 }] }
  let e : Pend := { pos := 0, regs := [], due := 0, parts := [{ tgt := .home 0x200100 0, va := 0, op := .write 8 5, val := some 0 }] }
  let s := busy.setPend (tset (tset (tset (tset (tset [] 31 { l with parts := [{ tgt := .home 0x200100 0, va := 0, op := .read 8, val := none }] }) 32 e)
    33 { e with mark := some { cause := 10, code := 1, addr := 0, access := 2 } }) 34 l) 35 { l with due := 9 })
  let t := s.setWalks (tset (tset [] 36 { cell := 0, asid := 1, va := 0x200000, waiters := [0], queued := true, due := 0 }) 37 { cell := 0, asid := 3, va := 0, waiters := [0], due := 0 })
  putCell (modStr t 1 (fun u => { u with inval := some { asid := some 3, va := none } })) 0 { t.cell 0 with bankSw := sw }
theorem witness_work :
    (let s := busier none
    (∃ e ∈ tfind s.pend 31, ∃ q ∈ e.parts, q.val = none) ∧ (∃ e ∈ tfind s.pend 32, isStore e = true ∧ e.mark = none ∧ ∀ q ∈ e.parts, q.val ≠ none) ∧
    (∃ e ∈ tfind s.pend 33, isStore e = true ∧ e.mark ≠ none ∧ ∀ q ∈ e.parts, q.val ≠ none) ∧
    (∃ e ∈ tfind s.pend 34, isStore e = false ∧ e.due ≤ s.time ∧ e.late ≠ 0 ∧ ∀ q ∈ e.parts, q.val ≠ none) ∧
    (∃ e ∈ tfind s.pend 35, isStore e = false ∧ s.time < e.due ∧ ∀ q ∈ e.parts, q.val ≠ none) ∧
    (∃ w ∈ tfind s.walks 36, w.queued = true ∧ walkers s w.cell < 1024) ∧
    (∃ w ∈ tfind s.walks 37, w.queued = false ∧ invalOpen s w.asid w.va = true) ∧
    (∃ w ∈ tfind busy.walks 4, w.queued = false ∧ invalOpen busy w.asid w.va = false)) ∧
    ((busier (some (1, .fills))).cell 0).bankSw = some (1, .fills) ∧ ((busier (some (1, .sweep 0))).cell 0).bankSw = some (1, .sweep 0) ∧
    ((busier (some (1, .back 9))).cell 0).bankSw = some (1, .back 9) ∧ ((busier none).cell 0).bankSw = none := by
  refine ⟨⟨⟨_, rfl, by decide +kernel⟩, ⟨_, rfl, by decide +kernel⟩, ⟨_, rfl, by decide +kernel⟩, ⟨_, rfl, by decide +kernel⟩, ⟨_, rfl, by decide +kernel⟩,
    ⟨_, rfl, by decide +kernel⟩, ⟨_, rfl, by decide +kernel⟩, ⟨_, rfl, by decide +kernel⟩⟩, by decide +kernel, by decide +kernel, by decide +kernel, by decide +kernel⟩

/-- What the events of waits and turns are about: a monitor of position 0, a `recvt` of position 1, partial gangs, a turn at its end; in `orphaned`
an orphan report; in `noted` a notice. -/
def waiting (armed : Bool) : State :=
  let s := modStr four 0 (fun t => { t with mon := some {
    loc := locHbm 0 0x200100, addr := 0x200100#64, w64 := true, expect := 0#64, deadline := none, armed := armed, stamp := 0 } })
  let t := putGang (modStr s 1 (fun t => { t with wait := .message, deadline := some 5 })) 0 { s.gang 0 with qleft := 0 }
  putCell t 0 { t.cell 0 with
    partials := [{ desc := 0x100, entry := 0x200000#64, glog := 1, timeout := 8, first := 0, count := 2, released := some 0 },
      { desc := 0x200, entry := 0x200000#64, glog := 0, timeout := 8, first := 0, count := 0, released := none }] }
def orphaned : State := putGang four 0 { four.gang 0 with orphans := [{ lanes := 6#16, view := 7#64 }] }
def noted : State := putCell four 0 { four.cell 0 with noteDue := true }
theorem witness_WaitsAndTurnsEnd :
    (((waiting true).str 0).mon.map (fun m => (m.done, m.armed)) = some (none, true)) ∧ (((waiting false).str 0).mon.map (·.done)) = some none ∧
    ((waiting true).str 1).wait = .message ∧ ((waiting true).str 1).deadline ≠ none ∧
    (firstReleased ((waiting true).cell 0).partials).map (·.desc) = some 0x100 ∧ gangPlace (waiting true) 0 1 = some [4, 5] ∧
    ((waiting true).gang 0).turn = true ∧ ((waiting true).gang 0).qleft = 0 ∧
    (orphaned.gang 0).orphans = { lanes := 6#16, view := 7#64 } :: [] ∧ (orphaned.gang 0).handler = none ∧ (orphaned.gang 0).trapMask = 0#16 ∧
    (gangLanes orphaned 0).filter (fun x => (6#16).getLsbD (x - 0)) = 1 :: [2] ∧
    (noted.cell (cellOf 2)).noteDue = true ∧ (noted.gang (leaderOf noted 2)).handler = none ∧ (noted.gang (leaderOf noted 2)).trapMask = 0#16 := by
  decide +kernel

/-- A package with its fabric on and port 3 up, with one request to package 1 under TAG 7, whose time is up. -/
def linkedPkg (resends : Nat) : State := let s := State.reset
  s.setPkg { s.pkg with fabEn := true, stage := 6, ports := tset [] 3 { state := 1 },
                        reqs := tset [] (reqKey 1 7) { dst := 1, orig := 3, plane := 3, flit := mkFlit 1 0 0 1 7 0 0x1000 0 (BitVec.allOnes 32), who := .mon 0,
                                                       resends := resends, due := 0 } }
/-- A state in which every Crossing has failed. -/
def severed (s : State) : State :=
  s.setPkg { s.pkg with failedHops := (List.range 16).map fun i => (HopKind.crossing, i / 4, i % 4, 0) }
/-- Position 0 with a monitor on a location, for block tag `blk`. -/
def watching (loc blk : Nat) : State := modStr four 0 (fun t => { t with mon := some {
  loc := loc, addr := 0#64, w64 := true, expect := 0#64, deadline := none, armed := true, stamp := 0, blk := blk } })
theorem witness_monitors :
    (let s := watching (locScr 0 0) 9; ∃ m ∈ (s.str 0).mon, m.done = none ∧ m.armed = true ∧ m.blk ≠ 0 ∧ locBlock s m.loc ≠ m.blk) ∧
    (let s := severed (watching (2 ^ 38) 0);
      ∃ m ∈ (s.str 0).mon, m.blk = 0 ∧ crossed s (dieOf (cellOf 0)) (homeDie m.loc) (cellOf 0) m.loc = true) ∧
    (let s := (watching (locHbm 0 0) 0).setPoison (tset [] (locHbm 0 0 / 32) 1);
      ∃ m ∈ (s.str 0).mon, crossed s (dieOf (cellOf 0)) (homeDie m.loc) (cellOf 0) m.loc = false ∧ badIn (flushRange s 0 m.loc 8) m.loc 8 = some 1) ∧
    (let s := watching (locHbm 0 0) 0; ∃ m ∈ (s.str 0).mon, crossed s (dieOf (cellOf 0)) (homeDie m.loc) (cellOf 0) m.loc = false ∧
      badIn (flushRange s 0 m.loc 8) m.loc 8 = none) ∧
    (heard.str 0).mon.map (fun m => decide (m.done ≠ none)) = some true ∧ (four.str 0).mon = none ∧
    ((waiting true).cell 0).partials.any (fun q => forming q 0x200) = true ∧ firstReleased (four.cell 0).partials = none ∧
    gangPlace (waiting true) 0 4 = none ∧ nextPath 3 [1, 3, 7] = some 7 ∧ nextPath 7 [1, 3, 7] = some 1 ∧
    (four.gang 0).orphans = [] ∧ (four.cell 0).noteDue = false ∧
    (gangLanes orphaned 0).filter (fun x => (0x100#16).getLsbD (x - 0)) = [] := by
  refine ⟨⟨_, rfl, by decide +kernel⟩, ⟨_, rfl, by decide +kernel⟩, ⟨_, rfl, by decide +kernel⟩, ⟨_, rfl, by decide +kernel⟩, by decide +kernel⟩

/-- A `cpy` of two rows of 64 bytes into the scratchpad of its own cell, none of them read. -/
def carried : Xfer := {
  form := .cpy, req := { pos := 0, cell := 0, asid := 1, key := 7#16, blk := 1 }, src := 0x200110#64, pitch := 256, rows := 2, rlen := 64
  cons := .self false, tb := 3, offset := 0x100, note := true, ntb := 2, pages := [fetchEntry 1], read := 0, dealt := 0, inFlight := 0
  err := false, due := 0 }
/-- Deliveries, a transfer whose bytes are still to be read and one whose bytes are dealt with, walks, joins, and a block barrier. -/
def moving : State :=
  let r : Requester := { pos := 0, cell := 0, asid := 1, key := 7#16, blk := 1 }
  let d : Delivery := {
    xfer := some 11, req := r, cell := 0, self := true, key := 7#16, win := false, tb := 3, offset := 0x100, bytes := [1#8, 2#8],
    bad := false, src := 0x200100#64, due := 0 }
  let w : Walk := {
    req := r, pc := 0x200100#64, g := [], w := [], p := [], cons := .self false, tb := 3, offset := 0x100, note := false, ntb := 0, stack := 0,
    words := 0, delivered := 0, inFlight := 0, running := true, err := false, ended := false, due := 0 }
  let s := ((solo.setDelivs (tset [] 10 d)).setXfers (tset (tset [] 11 carried) 12 { carried with read := 128, dealt := 128 })).setChases
    (tset (tset (tset (tset [] 13 w) 14 { w with word := some 0x07000003 }) 15 { w with ended := true }) 16 { w with words := 1048576 })
  let t := s.setJoins (tset (tset [] 17 { cell := 0, tag := 7, join := true, due := 0 }) 18 { cell := 0, tag := 8, join := false, due := 0 })
  putBlock (putCell t 0 { t.cell 0 with bbArrived := 1#64, bars := tset [] 3 { valid := true, expect := 1, remain := 1 } }) 0 { t.block 0 with bbRecord := true }
def released : State := putCell moving 0 { moving.cell 0 with bbRelease := some 0 }
theorem witness_TransfersDeliver :
    (tfind moving.delivs 10).map (·.away) = some false ∧ imageHeld moving 0 = false ∧
    (∃ x ∈ tfind moving.xfers 11, x.away = false ∧ x.read < x.rows * x.rlen ∧ x.cons = .self false ∧
      srcTarget moving x (x.src + word (x.read / x.rlen * x.pitch + x.read % x.rlen)) = some (.home 0x200110 0) ∧
      crossed moving (dieOf (homeCell moving x.req)) 0 (homeCell moving x.req) 0x200110 = false ∧
      Nat.min (32 - 0x200110 % 32) (x.rlen - x.read % x.rlen) = 16 ∧ badIn moving 0x200110 16 = none) ∧
    (∃ x ∈ tfind moving.xfers 12, x.rows * x.rlen ≤ x.read ∧ x.inFlight = 0 ∧ x.away = false) ∧
    (∃ w ∈ tfind moving.chases 13, w.ended = false ∧ w.away = false ∧ w.running = true ∧ w.word = none) ∧
    (∃ w ∈ tfind moving.chases 14, w.ended = false ∧ w.away = false ∧ w.running = true ∧ w.word = some 0x07000003) ∧
    (∃ w ∈ tfind moving.chases 15, w.ended = true ∧ w.inFlight = 0) ∧ (∃ w ∈ tfind moving.chases 16, w.ended = false ∧ 1048576 ≤ w.words) ∧
    (tfind moving.joins 17).map (·.join) = some true ∧ (tfind moving.joins 18).map (·.join) = some false ∧ holdsTag (moving.cell 0) 8 = false ∧
    (released.cell 0).block = some 0 ∧ (released.cell 0).bbRelease = some 0 ∧ 0 ≤ released.time ∧
    (moving.cell 0).block = some 0 ∧ (moving.cell 0).bbRelease = none ∧ (moving.cell 0).bbForwarded = false ∧ bbOpen moving 0 = true ∧
    mayForward moving 0 0 = true := by
  refine ⟨by decide +kernel, by decide +kernel, ⟨_, rfl, by decide +kernel⟩, ⟨_, rfl, by decide +kernel⟩, ⟨_, rfl, by decide +kernel⟩,
    ⟨_, rfl, by decide +kernel⟩, ⟨_, rfl, by decide +kernel⟩, ⟨_, rfl, by decide +kernel⟩, by decide +kernel⟩

/-- What else a source can be: a page of other kinds at its address, or a scratchpad of the die window. -/
def fromPage (place base : Nat) : Xfer := { carried with src := 0x200100#64, pages := [{ fetchEntry 1 with place := place, base := base }] }
def fromScr (homes : List (Nat × Nat)) : Xfer := { carried with src := 0xFFFFFFFF80000000#64, homes := homes }
theorem witness_sources :
    (let x := { carried with cons := .tag 0 7 7#16 }; x.read < x.rows * x.rlen ∧ x.cons = .tag 0 7 7#16 ∧ x.subs = []) ∧
    srcTarget moving { carried with pages := [] } 0x200110#64 = none ∧
    srcTarget moving (fromPage 0 (3 * 2 ^ 49)) 0x200100#64 = some (.dev 0x100) ∧
    srcTarget moving (fromPage 6 (2 * 2 ^ 49)) 0x200100#64 = some (.home (locHost 0x100) 4) ∧
    crossed (severed moving) (dieOf 0) 1 0 (2 ^ 38) = true ∧
    badIn (moving.setPoison (tset [] (locHbm 0 0x200110 / 32) 1)) (locHbm 0 0x200110) 16 = some 1 ∧
    srcTarget moving (fromScr []) 0xFFFFFFFF80000000#64 = some (.scr 0 0) ∧ tget 0 (fromScr []).homes 0 = 0 ∧
    (let x := fromScr [(0, blockTag moving (.scr 0 0))]
      let s := moving.setAbsent (tset [] (locScr 0 0 / 32) ());
      tget 0 x.homes 0 = blockTag moving (.scr 0 0) ∧ tget 0 x.homes 0 ≠ 0 ∧ absentSectors moving (.scr 0 0) 32 = [] ∧
      absentSectors s (.scr 0 0) 32 = [locScr 0 0 / 32] ∧ ownSector s x (locScr 0 0 / 32) = false) ∧
    srcTarget moving (fromPage 7 (2 ^ 49 + 2 ^ 40)) 0x200100#64 = some (.remote 1 0x100) ∧
    (match newRequest (linkedPkg 0) (fromCell 0) 1 3 1 0 7#16 0x100 0#256 1#32 (.xfer 11 0) with | .out _ => true | .fail _ => false) = true ∧
    (match newRequest moving (fromCell 0) 1 3 1 0 7#16 0x100 0#256 1#32 (.xfer 11 0) with | .out _ => false | .fail c => decide (c = 9)) = true := by
  refine ⟨by decide +kernel, by decide +kernel, by decide +kernel, by decide +kernel, by decide +kernel, by decide +kernel, by decide +kernel,
    by decide +kernel, by decide +kernel, by decide +kernel, by decide +kernel, by decide +kernel⟩
theorem witness_deliveries :
    (let s := (putGrid (putBlock (putCell moving 0 { moving.cell 0 with block := none }) 0 { moving.block 0 with phase := .evicted, bound := true }) 0
        { moving.grid 0 with savebase := 2 ^ 50 }).setPkg { moving.pkg with returns := [0], hostUp := false };
      imageHeld s 0 = true) ∧
    xferDone { carried with read := 128, dealt := 128 } = true ∧ xferDone carried = false ∧
    noticeCut moving { carried with read := 128, dealt := 128 } = false ∧
    noticeCut (severed moving) { carried with cons := .cap 0 1 5 false 7#16 } = true ∧
    (let w := (tfind moving.chases 15).getD {
        req := {}, pc := 0#64, g := [], w := [], p := [], cons := .self false, tb := 0, offset := 0, note := false, ntb := 0, stack := 0, words := 0
        delivered := 0, inFlight := 0, running := false, err := false, ended := false, due := 0 }
      let s := moving.setChases (tset (tset (tset [] 15 { w with inFlight := 1 }) 16 { w with ended := false, away := true }) 17 { w with ended := false, running := false });
      (∃ v ∈ tfind s.chases 15, v.ended = true ∧ v.inFlight ≠ 0) ∧ (∃ v ∈ tfind s.chases 16, v.ended = false ∧ v.away = true ∧ v.words < 1048576) ∧
      ∃ v ∈ tfind s.chases 17, v.ended = false ∧ v.running = false) ∧
    holdsTag (mailed.cell 0) 7 = true ∧
    (let s := putCell moving 0 { moving.cell 0 with bbRelease := some (moving.time + 1) }; (s.cell 0).bbRelease = some (s.time + 1)) ∧
    (let s := putCell moving 0 { moving.cell 0 with bbForwarded := true }; (s.cell 0).bbRelease = none ∧ (s.cell 0).bbForwarded = true) := by
  refine ⟨by decide +kernel, by decide +kernel, by decide +kernel, by decide +kernel, by decide +kernel, ⟨⟨_, rfl, by decide +kernel⟩, ⟨_, rfl, by decide +kernel⟩,
    ⟨_, rfl, by decide +kernel⟩⟩, by decide +kernel, by decide +kernel, by decide +kernel⟩

/-- A message on its way to position 0 (fresh, or refused before), and in the engine a `mmz` that waits or runs to its end. -/
def arriving (refused run : Bool) : State :=
  let m : Msg := { dst := 0#64, payload := 9#256, key := 7#16, src := 0, scope := .cell }
  putCell (solo.setFlying (tset [] 20 { msg := m, refused := refused, due := 0 })) 0 { solo.cell 0 with
    jobs := [{ id := 21, num := 0, op := .mmz 1, ident := none, req := { pos := 0, cell := 0, blk := 1 } }], engBusy := run, engDue := 0 }
theorem witness_MessagesArriveAndTheEngineRuns :
    (let m : Msg := { dst := 0#64, payload := 9#256, key := 7#16, src := 0, scope := .cell }
    let s := arriving true true
    (tfind s.flying 20).map (fun f => (f.msg, f.refused)) = some (m, true) ∧ ovfHeld s (msgCell m.dst) = false ∧ msgPkg m.dst = s.pkg.pkgnum ∧
    (s.cell (msgCell m.dst)).block ≠ none ∧ (s.str (msgPos m.dst)).st = .ready ∧ (s.str (msgPos m.dst)).gen = msgGen m.dst ∧
    keyIn s (msgCell m.dst) = m.key ∧ (s.str (msgPos m.dst)).recvq.length < 8 ∧
    oldestSpilled s (msgPos m.dst) (s.str (msgPos m.dst)).gen.toNat m.key.toNat = none ∧ (s.str (msgPos m.dst)).heldSt ≠ .retired) ∧
    ((arriving false false).cell 0).jobs.length = 1 ∧ ((arriving false false).cell 0).engBusy = false ∧
    ((arriving false true).cell 0).engBusy = true ∧ ((arriving false true).cell 0).engDue ≤ cyc (arriving false true) 0 ∧
    (∀ j ∈ ((arriving false true).cell 0).jobs, farSectors j = [] ∧ rowsOut (arriving false true) j = false ∧ j.op = .mmz 1) := by decide +kernel

/-- A message for a strand with a full queue, with an overflow region of 64 records or without one; the block gone, evicted or replaced. -/
def crowded (ovf : Word) : State :=
  let m : Msg := { dst := 0#64, payload := 9#256, key := 7#16, src := 0, scope := .cell }
  let s := modStr (arriving false false) 0 (fun t => { t with recvq := List.replicate 8 m })
  putCell s 0 { s.cell 0 with ovfcfg := ovf }
theorem witness_messages :
    (let s := (putCell (arriving false false) 0 { (arriving false false).cell 0 with ovfcfg := word (2 ^ 50) }).setPkg { solo.pkg with hostUp := false };
      ovfHeld s (msgCell 0#64) = true) ∧
    msgPkg (word (2 ^ 55)) ≠ (arriving true false).pkg.pkgnum ∧
    (let s := crowded 0#64;
      ¬(s.str 0).recvq.length < 8 ∧ (spillTo s 0 (msgGen 0#64).toNat 7#16 9#256).isNone = true) ∧
    (spillTo (crowded 0x1006#64) 0 (msgGen 0#64).toNat 7#16 9#256).isSome = true ∧
    (let s := (putBlock (putCell solo 0 { solo.cell 0 with block := none }) 0 { solo.block 0 with phase := .evicted, bound := true }).setPkg { solo.pkg with returns := [0] };
      (s.cell (msgCell 0#64)).block = none ∧ 0 ∈ boundTo s 0 ∧ blockKey s 0 = 7#16) ∧
    (State.reset.cell (msgCell 0#64)).block = none ∧ boundTo State.reset 0 = [] ∧
    (solo.cell (msgCell (word (2 ^ 31)))).block ≠ none ∧ (solo.str (msgPos (word (2 ^ 31)))).gen ≠ msgGen (word (2 ^ 31)) ∧ boundTo solo 0 = [] ∧
    keyIn solo (msgCell 0#64) ≠ 8#16 ∧
    (let far : MatJob := { id := 21, num := 0, op := .mmld 1 0#64 0, ident := none, req := { pos := 0, cell := 0, blk := 1 }, rows := [(.remote 1 0, 0)] };
      farSectors far ≠ [] ∧ rowsOut ((linkedPkg 0).setPkg { (linkedPkg 0).pkg with
        reqs := tset [] 1 { dst := 1, orig := 3, plane := 3, flit := 0#512, who := .mat 0 21 0, due := 0 } }) far = true) ∧
    (solo.cell 0).jobs = [] ∧ cyc (arriving false true) 0 < 5 := by
  refine ⟨?_, ?_, ?_, ?_, ?_, ?_, ?_, ?_, ?_, ?_, ?_, ?_, ?_, ?_⟩ <;> decide +kernel

/-- Power, thermal and security events: the temperature at the limit below which a trip is due, a warning made, a rail held. -/
def hot (warned : Bool) : State := (putDie solo 0 { solo.die 0 with highHeld := true }).setPkg { solo.pkg with warnMade := warned }
def held : State := putDie solo 0 { solo.die 0 with highHeld := true, highEnd := some 0 }
theorem witness_TokensPowerAndSecurity :
    (solo.die 0).ringFailed = false ∧ (109 < 110 ∧ (hot false).pkg.warn ≤ 109 ∧ (hot false).pkg.warnMade = false) ∧
    ((hot true).pkg.warn ≤ 95 ∧ (hot true).pkg.warnMade = true) ∧ (90 + 5 ≤ (hot true).pkg.warn) ∧ (hot true).pkg.dead = false ∧
    railIsHeld (hot true) 0 1 = true ∧ railEnd (hot true) 0 1 = none ∧ railEnd held 0 1 = some 0 ∧ 0 ≤ held.time ∧
    (11 < 12 ∧ ¬11 ∈ solo.pkg.badStacks) ∧
    (let s := (hot true).setPkg { (hot true).pkg with dead := true, badStacks := [11], alarmErase := 1 }; s.pkg.dead = true ∧ 11 ∈ s.pkg.badStacks) ∧
    ((putDie solo 0 { solo.die 0 with ringFailed := true }).die 0).ringFailed = true ∧ (91 < (hot false).pkg.warn ∧ (hot false).pkg.warn < 91 + 5) ∧
    railIsHeld solo 0 1 = false ∧ (solo.cell 0).reqs = [] := by decide +kernel
/-- Four tokens in the pocket and requests of that price and more, with a quota that covers them or does not. -/
def asking (price : Nat) (quota : Int) : State := putCell solo 0 { solo.cell 0 with
  pocket := 4, quota := some quota, reqs := [{ age := 0, die := 0, slot := 0, pipe := 0, price := price, pos := 0 }] }
theorem witness_requests : (∀ s ∈ [asking 5 9], ∃ r ∈ (s.cell 0).reqs, (s.cell 0).pocket < r.price) ∧
    (∃ r ∈ ((asking 4 3).cell 0).reqs, r.price ≤ ((asking 4 3).cell 0).pocket ∧ quotaAllows (asking 4 3) 0 r.price r.exempt = false) ∧
    (∃ r ∈ ((asking 4 4).cell 0).reqs, r.price ≤ ((asking 4 4).cell 0).pocket ∧ quotaAllows (asking 4 4) 0 r.price r.exempt = true) := by decide +kernel

/-- Block 0 alone in cell 0 in a phase, with no strand. -/
def blockIn0 (ph : BlockPhase) : State := let s := putCell State.reset 0 { block := some 0 }
  putGrid (putBlock s 0 { phase := ph, slots := [0] }) 0 { live := true, asid := 1, pkey := 7#16 }
/-- A grid whose one block has ended. -/
def ended : State := putGrid State.reset 0 { live := true, ended := 1 }
/-- A strand parked for 2^24 cycles, and its block without an issue for as long; a request in the queue of its cell. -/
def still : State := putCell (modStr (solo.setTime (2 ^ 24)) 0 (fun t => { t with st := .parked, park := .data })) 0
  { solo.cell 0 with reqs := [{ age := 0, die := 0, slot := 0, pipe := 0, price := 4, pos := 0 }] }
def starved : State := putCell still 0 { still.cell 0 with reqs := [{ age := 0, die := 0, slot := 0, pipe := 0, price := 4, pos := 0, judged := true }] }
/-- The package in STAGE 6 with launch window 3 bound to ASID 1 and key 7, whose ASID-table entry is valid. -/
def hosted : State := let s := wr State.reset (locPlace0 8) 8 (2 ^ 63)
  s.setPkg { s.pkg with stage := 6, lwbind := tset [] 3 (word (2 ^ 63 + 7 * 2 ^ 32 + 1)) }
/-- A launch record of one block with entry 200000₁₆, ASID a and key 7. -/
def launchRec (a : Nat) : BitVec 512 := BitVec.ofNat 512 (0x200000 + 2 ^ 192 * (a * 2 ^ 48 + 7 * 2 ^ 32))
theorem witness_BlocksAndGrids :
    ((lab 0 false).block 0).quantumEnd ≤ ((lab 0 false).setTime 1000000).time ∧ handling (lab 0 false) 0 = false ∧ ((lab 0 false).block 0).phase = .running ∧
    waitingWork (lab 0 false) = false ∧ waitingWork ((lab 0 false).setPkg { solo.pkg with returns := [1] }) = true ∧
    (let s := putBlock solo 0 { solo.block 0 with phase := .preempting };
      (s.cell (cellOf 0)).block = some 0 ∧ (s.block 0).phase = .preempting ∧ frameHeld s 0 = false ∧ (s.str 0).st ≠ .saved ∧ canSave s 0 = true) ∧
    (let s := blockIn0 .evicting;
      (s.block 0).phase = .evicting ∧ deliveriesDone s 0 = true ∧ frameHeld s 0 = false ∧ (∀ k ∈ blockCells s 0, cellBad s k = false) ∧
      (spillAll s (heldBy s 0)).2 = true) ∧
    (let s := blockIn0 .halting; (s.block 0).phase = .halting ∧ haltReady s 0 = true ∧ (∀ k ∈ blockCells s 0, cellBad s k = false)) ∧
    (let s := (blockIn0 .migrating).setPkg { State.reset.pkg with migBusy := some 0, migTo := (0, 5) };
      s.pkg.migBusy = some 0 ∧ (s.block 0).phase = .migrating ∧ deliveriesDone s 0 = true ∧ (∀ k ∈ blockCells s 0, cellBad s k = false)) ∧
    gridDone ended 0 = true ∧ doneHeld ended 0 = false ∧
    isParked (still.str 0) = true ∧ (still.str 0).stallMade = false ∧ 2 ^ 24 ≤ parkedTime still (still.str 0) ∧
    onCells (still.block 0).phase = true ∧ (still.block 0).stallMade = false ∧ 2 ^ 24 ≤ still.time - (still.block 0).lastIssue ∧
    (still.cell 0).reqs.map (·.judged) = [false] ∧ (starved.cell 0).reqs.map (fun r => (r.judged, r.unpayable)) = [(true, false)] ∧
    (starved.cell 0).starveMade = false ∧
    (∀ r ∈ (starved.cell 0).reqs, starveFrom starved 0 r + starveBound (starved.die (dieOf 0)).retain < starved.time) := by
  refine ⟨?_, ?_, ?_, ?_, ?_, ?_, ?_, ?_, ?_, ?_, ?_, ?_, ?_, ?_, ?_, ?_, ?_, ?_, ?_, ?_, ?_⟩ <;> decide +kernel
/-- What else an event of blocks meets: a block that is to be pre-empted, that sits out, or whose frame meets uncorrectable data; grids and
records in other states. -/
def sitting (n : Nat) (q : Int) : State :=
  let s := putBlock (lab 0 false) 0 { (lab 0 false).block 0 with phase := .sittingOut, satOut := n }
  (putCell s 0 { s.cell 0 with quota := some q }).setTime 1000000
theorem witness_blocks :
    handling super 0 = true ∧ ((putBlock solo 0 { solo.block 0 with due := some .halting }).block 0).due.isSome = true ∧
    solo.time < ((putBlock solo 0 { solo.block 0 with quantumEnd := 9 }).block 0).quantumEnd ∧
    ((sitting 16 0).block 0).satOut = 16 ∧ ((sitting 15 0).block 0).satOut < 16 ∧ handling (sitting 15 0) 0 = false ∧
    ((sitting 15 0).block 0).quantumEnd ≤ (sitting 15 0).time ∧ waitingWork (sitting 15 0) = false ∧
    lowestQuota (sitting 15 0) [0] = some (0, 0) ∧ lowestQuota (sitting 15 5) [0] = some (0, 5) := by decide +kernel
theorem witness_saves :
    (let s := putBlock (modStr solo 0 (fun t => { t with st := .saved })) 0 { solo.block 0 with phase := .preempting }; (s.str 0).st = .saved ∧ frameHeld s 0 = false) ∧
    (let s := putBlock super 0 { super.block 0 with phase := .preempting }; (s.str 0).st ≠ .saved ∧ canSave s 0 = false) ∧
    (let s := (blockIn0 .evicting).setBadRegs [.g 0 1]; cellBad s 0 = true ∧ 0 ∈ blockCells s 0) ∧
    (let s := blockIn0 .gone; (s.block 0).phase = .gone) ∧
    (let s := putCell (blockIn0 .migrating) 5 { (blockIn0 .migrating).cell 5 with slotmask := 1#4 }; (s.cell 5).slotmask.getLsbD 0 = true) ∧
    gridDone State.reset 0 = false ∧
    (let s := (putGrid ended 0 { ended.grid 0 with doneVa := 0x200000#64 }); gridDone s 0 = true) ∧
    (starved.cell 1).reqs = [] ∧
    (∃ r ∈ ((putCell starved 0 { starved.cell 0 with starveMade := true }).cell 0).reqs, r.judged = true) := by
  refine ⟨?_, ?_, ?_, ?_, ?_, ?_, ?_, ?_, ?_⟩ <;> decide +kernel
/-- R396: a launch before STAGE 6, and the reasons 1 to 4 of a refusal. -/
theorem witness_refused_launches : State.reset.pkg.stage < 6 ∧ (tget 0#64 hosted.pkg.lwbind 4).toNat < 2 ^ 63 ∧
    recordOk hosted (launchRec 0).toNat 0 0 = false := by
  refine ⟨?_, ?_, ?_⟩ <;> decide +kernel

theorem witness_launch : hosted.pkg.stage = 6 ∧ tget 0#64 hosted.pkg.lwbind 3 = word (2 ^ 63 + 7 * 2 ^ 32 + 1) ∧
    2 ^ 63 ≤ (word (2 ^ 63 + 7 * 2 ^ 32 + 1)).toNat ∧ hosted.pkg.alarmLevel < 3 ∧
    recAsid (launchRec 1).toNat = (word (2 ^ 63 + 7 * 2 ^ 32 + 1)).toNat % 65536 ∧
    (recPkey (launchRec 1).toNat).toNat = field (word (2 ^ 63 + 7 * 2 ^ 32 + 1)).toNat 32 16 ∧
    recordOk hosted (launchRec 1).toNat (recAsid (launchRec 1).toNat) (Nat.min (recPrio (launchRec 1).toNat) (field (word (2 ^ 63 + 7 * 2 ^ 32 + 1)).toNat 48 3)) =
      true ∧ recAsid (launchRec 2).toNat ≠ (word (2 ^ 63 + 7 * 2 ^ 32 + 1)).toNat % 65536 := by
  refine ⟨?_, ?_, ?_, ?_, ?_, ?_, ?_, ?_⟩ <;> decide +kernel

/-- The boot in a stage. -/
def booting (stage : Nat) : State := State.reset.setPkg { State.reset.pkg with stage := stage }
/-- The service processor writes a report; a rail switch is due. -/
def attesting : State := hosted.setPkg { hosted.pkg with attBusy := true, attBuf := 0x1000#64 }
def switching : State := putCell hosted 0 { railTo := some true, railDue := 0 }
theorem witness_DeviceRegisters : hosted.pkg.stage = 6 ∧ (1#64).getLsbD 0 = true ∧
    State.reset.pkg.stage ≠ 6 ∧ State.reset.pkg.dead = false ∧ State.reset.pkg.bootErr = 0 ∧ hosted.pkg.attBusy = false ∧
    (0x1000#64).getLsbD 63 = false ∧ (0x8000000000001000#64).getLsbD 63 = true ∧
    tableLoc (0x8000000000001000#64 &&& 0xFFFFFFFFFF000#64).toNat = some (locPlace0 0x1000) ∧
    attesting.pkg.attBusy = true ∧ tableLoc attesting.pkg.attBuf.toNat = some (locPlace0 0x1000) ∧ attesting.pkg.hostUp = true ∧
    (639 < 640 ∧ (hosted.cell 639).railTo = none ∧ (1#64).getLsbD 0 ≠ (hosted.cell 639).high) ∧ 3 < 4 ∧ hosted.pkg.dead = false ∧
    (0x20000 ≤ 0x27FF8 ∧ 0x27FF8 < 0x28000 ∧ 0x27FF8 % 8 = 0) ∧ (0x400000 ≤ 0x7FFFF8 ∧ 0x7FFFF8 < 0x800000 ∧ 0x7FFFF8 % 8 = 0) ∧
    (switching.cell 0).railTo = some true ∧ (switching.cell 0).railDue ≤ switching.time ∧
    (∀ n ∈ [2, 3, 4, 5], ¬((booting n).pkg.stage = 6 ∨ (booting n).pkg.dead = true ∨ (booting n).pkg.bootErr ≠ 0)) ∧
    imgForm [] = false ∧ imgForm ((List.range 196).map fun _ => 0#8) = true ∧
    tableLoc (0x80000FFFFFFFF000#64 &&& 0xFFFFFFFFFF000#64).toNat = none ∧
    migRefused hosted none 0 0 = some 2 ∧ migRefused (hosted.setPkg { hosted.pkg with migBusy := some 0 }) none 0 0 = some 1 ∧
    migRefused ((blockIn0 .running).setPkg { hosted.pkg with migBusy := none }) (some 0) 0 5 = none ∧
    blockAtCorner (blockIn0 .running) 0 0 = some 0 ∧
    (let s := putCell hosted 5 { hosted.cell 5 with fenced := true }; (s.cell 5).fenced = true) ∧
    (hosted.setPkg { hosted.pkg with dead := true }).pkg.dead = true ∧ mailServed (hosted.setPkg { hosted.pkg with stage := 4 }).pkg 0 = false ∧
    mailServed hosted.pkg 0 = true ∧ (hosted.setPkg { hosted.pkg with hostUp := false }).pkg.hostUp = false := by decide +kernel

def training : State := State.reset.setPkg { State.reset.pkg with ports := tset [] 3 { state := 4 }, reqs := (linkedPkg 0).pkg.reqs }
theorem witness_FabricAndHost :
    (let s := linkedPkg 0
    s.pkg.fabEn = true ∧ portUp (portOf s 3) = true ∧ s.pkg.dead = false ∧ flitGood 1#512 = false ∧
    (∀ ty ∈ [1, 3, 5, 7, 8, 10, 2, 4, 6], let f := mkFlit ty 0 1 0 7 0 0 0 0
      flitGood f = true ∧ flitDst f = s.pkg.pkgnum ∧ flitType f = ty ∧ (tfind s.pkg.reqs (reqKey (flitSrc f) (flitTag f))).isSome = true) ∧
    s.pkg.served = [] ∧
    (tfind s.pkg.reqs (reqKey 1 7)).map (fun q => (decide (q.due ≤ s.time), q.held, resendPlane s q)) = some (true, false, some 3)) ∧
    (tfind (linkedPkg 3).pkg.reqs (reqKey 1 7)).map (fun q => decide (3 ≤ q.resends ∧ (q.dst, q.plane) ∉ (linkedPkg 3).pkg.unusable)) = some true ∧
    (tfind training.pkg.reqs (reqKey 1 7)).map (fun q => (resendPlane training q, trainsFor training q.dst)) = some (none, true) ∧
    (let s := (linkedPkg 0).setPkg { (linkedPkg 0).pkg with ports := [] };
      (tfind s.pkg.reqs (reqKey 1 7)).map (fun q => (resendPlane s q, trainsFor s q.dst)) = some (none, false)) ∧
    (31 < 32 ∧ 4 < 5 ∧ (portOf hosted 31).elanes.getLsbD 4 = false) ∧ (portOf training 3).state = 4 ∧ (31 < 32 ∧ 31 ∉ hosted.pkg.lostPlanes) ∧
    ((HopKind.ring, 0, 159, 0) ∉ hosted.pkg.failedHops ∧ hopTriesOf hosted .ring 0 159 0 + 1 < 16) ∧
    16 ≤ hopTriesOf (putTries hosted .ring 0 159 0 15) .ring 0 159 0 + 1 ∧ hosted.pkg.hostUp = true ∧
    (hosted.setPkg { hosted.pkg with hostUp := false }).pkg.hostUp = false ∧ hostReaches hosted = true ∧ 0xBFFFFFFFC0 + 64 ≤ 0xC000000000 ∧
    2 ^ 49 - 32 < 2 ^ 49 := by decide +kernel

/-- R407, R499: a request that has been answered lately, a request that is held back, flits of types that no rule answers, and what finds nothing to do. -/
theorem witness_fabric :
    (let f := mkFlit 1 0 1 0 8 0 0 0 0
      let s := (linkedPkg 0).setPkg { (linkedPkg 0).pkg with served := [{ src := 1, tag := 8, time := 0, reply := 0#512 }] };
      flitGood f = true ∧ (∃ q ∈ s.pkg.served, q.src = flitSrc f ∧ q.tag = flitTag f ∧ s.time < q.time + 4 * s.pkg.e2etime) ∧
      (linkedPkg 0).pkg.served.all (fun q => decide (q.src ≠ flitSrc f)) = true) ∧
    (∀ ty ∈ [9, 0, 11, 255], flitGood (mkFlit ty 0 1 0 8 0 0 0 0) = true ∧ flitType (mkFlit ty 0 1 0 8 0 0 0 0) = ty) ∧
    tfind (linkedPkg 0).pkg.reqs (reqKey 1 8) = none ∧ flitDst (mkFlit 1 0 1 3 8 0 0 0 0) ≠ (linkedPkg 0).pkg.pkgnum ∧
    State.reset.pkg.fabEn = false ∧ (portOf training 3).elanes.getLsbD 0 = false ∧ (portOf hosted 3).state ≠ 4 ∧
    (hosted.setPkg { hosted.pkg with lostPlanes := [31], failedHops := [(.ring, 0, 159, 0)] }).pkg.lostPlanes = [31] ∧
    hostReaches State.reset = false := by decide +kernel

/-- Position 0 with g1 pending, and with a pocket that does not cover the price. -/
def pending : State := solo.setPend (tset [] 1 { pos := 0, regs := [.g 0 1], due := 5 })
def poor : State := putCell four 0 { four.cell 0 with pocket := 3 }
theorem witness_BundlesPark :
    (∃ r ∈ srcs (.add always (gr 9) (gr 1) (gr 2) .i32), pendingFor pending 0 (regId 0 0 r) = true) ∧
    (∃ r ∈ srcs (.callx always (gr 1)), pendingFor pending 0 (regId 0 0 r) = true) ∧
    (∃ r ∈ srcs (.vadd always .rn 3 1 2 .f32),
      pendingFor (solo.setPend (tset [] 1 { pos := 0, regs := [.w 0 1], due := 5 })) 0 (regId 0 0 r) = true) ∧
    actingLanes pending always = [0] ∧
    RegsLanded poor always (.vadd always .rn 3 1 2 .f32) ∧ actingLanes poor always ≠ [] ∧ (poor.str (curPos poor)).paid = false ∧
    (poor.cell (curCell poor)).pocket < Nat.min 64 (actingLanes poor always).length := by
  refine ⟨by decide +kernel, by decide +kernel, by decide +kernel, by decide +kernel, landed_of (by decide +kernel), by decide +kernel⟩

/-- Four lanes of which lane 2 names a target that is no word address; a handling lane that does. -/
def crooked : State := wrG four 2 1 0x200102#64
def crookedSup : State := wrG super 0 1 0x200102#64
theorem witness_PreciseFaultsTrap : four.cur.sup = false ∧ 0 ∈ four.cur.lanes ∧ (∀ q ∈ four.cur.lanes, 0 ≤ q) ∧
    RegsLanded crooked always (.brx always (gr 1)) ∧
    (let bad := (actingLanes crooked always).filter (fun q => decide ((rdReg crooked q (gr 1)).toNat % 4 ≠ 0))
    (∀ q ∈ actingLanes crooked always, q ∉ bad → canonical (rdReg crooked q (gr 1)) = true) ∧ 2 ∈ bad ∧ (∀ q ∈ bad, 2 ≤ q) ∧ crooked.cur.sup = false) ∧
    RegsLanded crookedSup always (.brx always (gr 1)) ∧
    (let bad := (actingLanes crookedSup always).filter (fun q => decide ((rdReg crookedSup q (gr 1)).toNat % 4 ≠ 0))
    (∀ q ∈ actingLanes crookedSup always, q ∉ bad → canonical (rdReg crookedSup q (gr 1)) = true) ∧ 0 ∈ bad ∧ (∀ q ∈ bad, 0 ≤ q) ∧
      crookedSup.cur.sup = true) :=
  ⟨by decide +kernel, by decide +kernel, by decide +kernel, landed_of (by decide +kernel), by decide +kernel, landed_of (by decide +kernel),
    by decide +kernel⟩

/-- A gang of four whose lanes stand in four modes. -/
def modes : State := modStr (modStr (modStr (modStr four 0 (fun t => { t with lmode := .detached })) 1 (fun t => { t with lmode := .waiting 7 }))
  2 (fun t => { t with lmode := .retired })) 3 (fun t => { t with lmode := .hollow })
theorem witness_LaneAndPositionViews : 2 ^ glogOf (four.str (leaderOf four 2)) ≤ 4 ∧ 3 < 2 ^ glogOf (four.str (leaderOf four 2)) ∧
    (four.str (leaderOf four 2 + 3)).lmode = .inPath 0 ∧ leaderOf modes 2 = 0 ∧ (modes.str 0).lmode = .detached ∧ (modes.str 1).lmode = .waiting 7 ∧
    (modes.str 2).lmode = .retired ∧ (modes.str 3).lmode = .hollow ∧
    ((modStr four 1 (fun t => { t with lmode := .absent })).str 1).lmode = .absent ∧ 63 < 64 := by decide +kernel

theorem witness_BarrierCountsKeepTheirLimits :
    (-(2 ^ 31 : Int) ≤ (barOf ((limit 0).cell 0) 1).pend + (2 ^ 31 - 1) ∧ (barOf ((limit 0).cell 0) 1).pend + (2 ^ 31 - 1) ≤ 2 ^ 31 - 1) ∧
    (2 ^ 31 - 1 < (barOf ((limit 1).cell 0) 1).pend + (2 ^ 31 - 1)) ∧ ((barOf ((limit (-1)).cell 0) 1).pend + -(2 ^ 31 : Int) < -(2 ^ 31 : Int)) ∧
    ((barOf ((limit (-1)).cell 0) 1).valid = true ∧ (barOf ((limit (-1)).cell 0) 1).remain = 0 ∧ (barOf ((limit (-1)).cell 0) 1).pend < 0) ∧
    (barOf ((limit 1).cell 0) 1).pend ≠ 0 ∧ (barOf ((limit 0).cell 0) 1).pend = 0 := by decide +kernel
theorem witness_RegistersHoldValues : (0 < 31 ∧ 31 < 32) ∧ (0 < 7 ∧ 7 < 8) := by decide
theorem witness_DecodeOfEncode : wellFormed (.cas2 always (gr 8) (gr 1) (.ar .fab)) = true ∧ (encode (.cas2 always (gr 8) (gr 1) (.ar .fab))).isSome = true := by
  decide +kernel

/-- The next step fetches at position 0, a lone word or a pair; and one whose first event of the agenda is well formed. -/
def placed : State := State.reset.withFetchWord 32 0x5100C3FD
def paired : State := wr (State.reset.withFetchWord 32 0x82000100) (fetchLoc + 4) 4 0x5100C3FD
def fetching (s : State) : State :=
  (s.setQueue []).setCur { lanes := [0], leader := 0, ba := 0x200000#64, nba := 0x200004#64, path := true, sup := false }
theorem witness_StepRunsDecoded :
    (let s := State.reset.setAgenda [.dispatchPlace]; s.agenda = .dispatchPlace :: [] ∧ wellFormed .dispatchPlace = true) ∧
    (∀ s ∈ [placed, paired], s.agenda = [] ∧ s.filled = true ∧ s.queue = 0 :: [] ∧ issuerAt (s.setQueue []) (0 % 2 ^ 20) = some [0] ∧
      ([0] : List Nat).headD 0 = 0 % 2 ^ 20 ∧ (∀ x ∈ [0], (s.str x).pc = (s.str 0).pc ∧ (s.str x).mark = none) ∧ noteFor (fetching s) = false) ∧
    decodeBundle false 0x5100C3FD 0 = .lone 0x5100C3FD (.addi always (gr 3) (gr 3) (-1) .n32) ∧
    wellFormed (.addi always (gr 3) (gr 3) (-1) .n32) = true ∧ encode (.addi always (gr 3) (gr 3) (-1) .n32) = some 0x5100C3FD ∧
    decodeBundle false 0x82000100 0x5100C3FD = .pair 0x82000100 0x5100C3FD (.call always 256) (.addi always (gr 3) (gr 3) (-1) .n32) ∧
    (let u := fetching placed;
      checkAcc u (cellOf (curPos u)) (u.str (curPos u)).walkFail .fetch u.cur.sup u.cur.ba 4 4 = .ok (.home 0x200000 0) ∧ isHost (.home 0x200000 0) = false ∧
      peek u (cellOf (curPos u)) (curPos u) (.home 0x200000 0) (if u.cur.ba.toNat % 8 = 0 then 8 else 4) = .val 0x5100C3FD) := by decide +kernel
/-- A word that decodes to nothing, a PC that does not translate, and a PC whose translation must come first. -/
def reserved : State := State.reset.withFetchWord 32 0xFFFFFFFF
theorem witness_other_fetches : (fillQueue exec State.reset).filled = true ∧ State.reset.filled = false ∧
    (match decodeBundle false 0xFFFFFFFF 0 with | .bad _ _ _ => true | _ => false) = true ∧ fetch (fetching reserved) = .words 0xFFFFFFFF 0 ∧
    (match fetch ((fetching placed).setCur { (fetching placed).cur with ba := 0x8000000000000000#64 }) with | .fault _ => true | _ => false) = true ∧
    (match fetch ((fetching placed).setCur { (fetching placed).cur with ba := 0x80000000#64 }) with | .park _ _ _ _ => true | _ => false) = true ∧
    issuerAt ((modStr placed 0 (fun t => { t with st := .parked })).setQueue []) 0 = none ∧ noteFor (fetching placed) = false := by
  refine ⟨?_, ?_, ?_, rfl, ?_, ?_, ?_, ?_⟩ <;> decide +kernel
theorem witness_ResetState : memCanonical busy := (by decide +kernel : memWf busy.mem = true)

theorem witness_fetch : fetch (fetching placed) = .words 0x5100C3FD 0 ∧ fetch (fetching paired) = .words 0x82000100 0x5100C3FD := ⟨rfl, rfl⟩

theorem witness_StepKeepsMemoryCanonical : memCanonical busy ∧ busy.mem ≠ [] := ⟨(by decide +kernel : memWf busy.mem = true), by decide +kernel⟩

/-! ### Steps of the device -/

/-- R403, R504: a stage that ends without error starts the next, the last one serves the device; a code stops the boot. -/
theorem test_boot : (after (.bootStageComplete 0) State.reset).pkg.stage = 2 ∧ (after (.bootStageComplete 3) (booting 3)).pkg.bootErr = 3 ∧
    (after (.bootStageComplete 0) (booting 5)).pkg.stage = 6 := by decide +kernel
/-- R396, R170: a record written whole through a bound window joins the queue of its priority. -/
theorem test_launch : (after (.launch 3 0 64 (launchRec 1)) hosted).pkg.queues.map (fun e => (e.1, e.2.length)) = [(0, 1)] ∧
    (after (.launch 3 0 64 (launchRec 2)) hosted).pkg.queues.all (fun e => e.2.isEmpty) = true := by decide +kernel
/-- R390: what the host writes it reads back, across a sector. -/
theorem test_host_memory : (after (.hostMemoryAccess false 0x101C 8 0 false)
    (after (.hostMemoryAccess true 0x101C 8 0x0123456789ABCDEF false) hosted)).pkg.hostData = 0x0123456789ABCDEF#512 := by decide +kernel
/-- R186: raising TOTAL owes the difference; R196: a switch of rail is under way. -/
theorem test_registers : (((after (.ringcfgWrite 1 0x6400000000) hosted).die 1).total, ((after (.ringcfgWrite 1 0x6400000000) hosted).die 1).inject) = (100, 100) ∧
    ((after (.railselWrite 5 1) hosted).cell 5).railTo = some true := by decide +kernel
/-- R507, R496: a trip stops the package; a lane lost leaves a full port degraded. -/
theorem test_power_link : (after (.thermalTrip 9) hosted).pkg.trip = some 9 ∧ (portOf (after (.laneErase 3 0) (linkedPkg 0)) 3).state = 2 := by decide +kernel
/-- R46, R142: a load lands; a walk fills the TLB with the page of 2 MiB. -/
theorem test_landing : rdG (after (.scoreboardResultLands 1) busy) 0 9 = 5#64 ∧
    ((after (.pageWalkComplete 4) busy).cell 0).tlb.map (fun e => (e.va, e.base)) = [(0x200000, 0x200000), (0x200000, 0x200000), (0x400000, 3 * 2 ^ 49)] := by
  decide +kernel
/-- R350, R351: the piece of 16 bytes up to the sector's end is read and sent to offset 100₁₆; R359: a delivery writes its bytes. -/
theorem test_transfer : ((after (.transferSourceRead 11) moving).delivs.map (fun e => (e.2.offset, e.2.bytes.length))) = [(0x100, 16), (0x100, 2)] ∧
    rd (after (.deliveryArrival 10) moving) (locScr 0 0x100) 2 = 0x0201 := by decide +kernel
/-- The word placed is the one that the next step runs: g3 of position 0 counts down. -/
theorem test_step : (match step placed with | .next t => rdG t 0 3 | _ => 0#64) = 0xFFFFFFFF#64 := by decide +kernel

end Sys2Proof.Tests
end

section
/-!
# The views of lane modes, paths and positions

What `rdsr` reads of LSTATE, PATHMAP and POSn (R93, R94, R440). The first two are numbers written digit by digit, so the one idea is
that a field of 4 bits of such a number is its digit; POSn is one sum of three codes, each of which fits its own field.
-/
namespace Sys2Proof.Machine

/-! ### Digits and fields -/

theorem toNat_word_of_lt {v : Nat} (h : v < 2 ^ 64) : (word v).toNat = v :=
  Nat.mod_eq_of_lt h

theorem digits_lt_two_pow (n : Nat) (f : Nat → Nat) (k : Nat) : digits n f k < 2 ^ (n * k) := by
  induction k with
  | zero => simp [digits]
  | succ k ih =>
    have hdigit : f k % 2 ^ n + 1 ≤ 2 ^ n := Nat.mod_lt _ (Nat.two_pow_pos n)
    calc digits n f k + f k % 2 ^ n * 2 ^ (n * k)
        < (f k % 2 ^ n + 1) * 2 ^ (n * k) := by rw [Nat.add_mul]; omega
      _ ≤ 2 ^ n * 2 ^ (n * k) := Nat.mul_le_mul_right _ hdigit
      _ = 2 ^ (n * (k + 1)) := by rw [← Nat.pow_add, Nat.mul_succ, Nat.add_comm]

/-- The field of a digit's place holds that digit. -/
theorem field_digits (n : Nat) (f : Nat → Nat) {i k : Nat} (h : i < k) : field (digits n f k) (n * i) n = f i % 2 ^ n := by
  induction k with
  | zero => omega
  | succ k ih =>
    rw [digits]
    unfold field at *
    obtain hlow | rfl := Nat.lt_succ_iff_lt_or_eq.mp h
    · obtain ⟨m, rfl⟩ := Nat.exists_eq_add_of_lt hlow
      have hsplit : n * (i + m + 1) = n * i + (n + n * m) := by rw [Nat.mul_add, Nat.mul_add, Nat.mul_one]; omega
      have hpow : f (i + m + 1) % 2 ^ n * 2 ^ (n * (i + m + 1)) = 2 ^ (n * i) * (2 ^ n * (2 ^ (n * m) * (f (i + m + 1) % 2 ^ n))) := by
        rw [hsplit, Nat.pow_add, Nat.pow_add]
        ac_rfl
      rw [hpow, Nat.add_mul_div_left _ _ (Nat.two_pow_pos _), Nat.add_mul_mod_self_left, ih hlow]
    · rw [Nat.add_mul_div_right _ _ (Nat.two_pow_pos _), Nat.div_eq_of_lt (digits_lt_two_pow n f i), Nat.zero_add, Nat.mod_mod]

/-- A register of sixteen fields of 4 bits (R93, R94) gives each of them back. -/
theorem field_word_digits (f : Nat → Nat) {i : Nat} (h : i < 16) : field (word (digits 4 f 16)).toNat (4 * i) 4 = f i % 16 :=
  (congrArg (field · (4 * i) 4) (toNat_word_of_lt (digits_lt_two_pow 4 f 16))).trans (field_digits 4 f h)

/-! ### LSTATE and PATHMAP -/

@[simp] theorem srView_lstate (s : State) (p : Nat) : srView s p 0x012 = lstate s (leaderOf s p) := rfl
@[simp] theorem srView_pathmap (s : State) (p : Nat) : srView s p 0x013 = pathmap s (leaderOf s p) := rfl

theorem field_srView_lstate (s : State) (p : Nat) {i : Nat} (h : i < 16) : field (srView s p 0x012).toNat (4 * i) 4 =
    if i < 2 ^ glogOf (s.str (leaderOf s p)) then lmodeCode (s.str (leaderOf s p + i)).lmode % 16 else 4 := by
  rw [srView_lstate, lstate, field_word_digits _ h]
  split <;> rfl

theorem field_srView_pathmap (s : State) (p : Nat) {i : Nat} (h : i < 16) : field (srView s p 0x013).toNat (4 * i) 4 =
    if i < 2 ^ glogOf (s.str (leaderOf s p)) then (pathOf (s.str (leaderOf s p + i))).getD 0 % 16 else 0 := by
  rw [srView_pathmap, pathmap, field_word_digits _ h]
  split <;> rfl

/-- R93, R94: what both registers show of a lane of the gang, by its mode. -/
theorem lane_views_of_mode (t : Strand) (k : Nat) :
    let l := lmodeCode t.lmode % 16
    let m := (pathOf t).getD 0 % 16
    (t.lmode = .inPath k → k < 16 → l = 0 ∧ m = k) ∧ (t.lmode = .detached → l = 1 ∧ m = 0) ∧ (t.lmode = .retired → l = 2 ∧ m = 0) ∧
      (t.lmode = .hollow → l = 3 ∧ m = 0) ∧ (t.lmode = .absent → l = 4 ∧ m = 0) ∧
      (t.lmode = .waiting k → k < 8 → l = 8 + k ∧ m = 0) := by
  refine ⟨fun h hk => ?_, fun h => ?_, fun h => ?_, fun h => ?_, fun h => ?_, fun h hk => ?_⟩ <;> simp [h, lmodeCode, pathOf]
  · exact hk
  · omega

/-! ### POSn -/

theorem parkCode_lt (k : Park) : parkCode k < 12 := by cases k <;> decide
theorem stCode_lt (x : StName) : stCode x < 7 := by cases x <;> decide

theorem srView_pos (s : State) (p : Nat) {n : Nat} (h : n < 64) : srView s p (0x140 + n) = posView (s.str (64 * cellOf p + n)) := by
  have hpos : 0x140 ≤ 0x140 + n ∧ 0x140 + n < 0x180 := by omega
  have hix : 0x140 + n - 0x140 = n := by omega
  unfold srView
  simp only [hpos, hix, if_true, and_self]
  repeat rw [if_neg (by omega)]

theorem srnWrite_pos {n : Nat} (h : n < 64) : srnWrite (0x140 + n) = none := by
  unfold srnWrite
  repeat rw [if_neg (by omega)]

/-- R440: GEN, the park reason and the state, each in its field, and zeros between and above them. -/
theorem field_posView (t : Strand) :
    let pos := fun lo len => field (posView t).toNat lo len
    pos 24 40 = 0 ∧ pos 16 8 = t.gen.toNat ∧ pos 12 4 = 0 ∧ pos 8 4 = parkCode t.park ∧ pos 3 5 = 0 ∧ pos 0 3 = stCode t.st := by
  have hgen := t.gen.isLt
  have hpark := parkCode_lt t.park
  have hst := stCode_lt t.st
  have hsum : (posView t).toNat = t.gen.toNat * 65536 + parkCode t.park * 256 + stCode t.st := toNat_word_of_lt (by omega)
  simp only [hsum, field]
  omega

/-! ### The obligation -/

/-- Settles O54: the fields of LSTATE and PATHMAP by the mode of the lane, and POSn by the sizes of its three codes. -/
theorem laneAndPositionViews : Obligations.LaneAndPositionViews := by
  intro s p i n k lead mode li q pos
  refine ⟨rfl, rfl, rfl, rfl, fun hi => ⟨fun hout => ?_, fun hin => ?_⟩, fun hn => ⟨srnWrite_pos hn, ?_⟩⟩
  · have habove : ¬ i < 2 ^ glogOf (s.str lead) := Nat.not_lt.mpr hout
    exact ⟨(field_srView_lstate s p hi).trans (if_neg habove), (field_srView_pathmap s p hi).trans (if_neg habove)⟩
  · have hl : li 0x012 = lmodeCode mode % 16 := (field_srView_lstate s p hi).trans (if_pos hin)
    have hm : li 0x013 = (pathOf (s.str (lead + i))).getD 0 % 16 := (field_srView_pathmap s p hi).trans (if_pos hin)
    rw [hl, hm]
    exact lane_views_of_mode (s.str (lead + i)) k
  · simpa only [pos, srView_pos s p hn] using field_posView q

end Sys2Proof.Machine
end

section
/-!
# Immediates, bit operations and lane exchange

The forms of R232 to R237 and of R240 to R243 have no check of their own, so each of them completes by the law of its shape
(`completesG_of`, `completesP_of`) and all that is left to say is which value it writes. A shape is closed once: a lane's own
operands (`gForm`), a value of the exchange set L (`voteForm`, `ballot`), and S1 of another lane (`shflForm`, `bcast`). L of R240 is
the list of acting lanes that the effect is given.
-/
namespace Sys2Proof.Machine

open Sys2Proof

/-! ### One law for each shape of form -/

theorem CompletesG.congr {i : Instr} {gd : Guard} {d : GReg} {price : State → Nat} {v w : State → Nat → Word}
    (h : CompletesG i gd d price v) (hv : ∀ s p, v s p = w s p) : CompletesG i gd d price w :=
  (funext fun s => funext (hv s) : v = w) ▸ h

theorem CompletesP.congr {i : Instr} {gd : Guard} {n : Fin 8} {v w : State → Nat → Bool}
    (h : CompletesP i gd n v) (hv : ∀ s p, v s p = w s p) : CompletesP i gd n w :=
  (funext fun s => funext (hv s) : v = w) ▸ h

section
variable {i : Instr} {gd : Guard} {d : GReg} (hm : memEvents i = (false, false)) (hw : waitsForAll i = false)
include hm hw

/-- A G form whose value in a lane may depend on the list of acting lanes. -/
theorem completesG_lanes (v : State → List Nat → Nat → Word)
    (he : ∀ s, exec i s = run gd { instr := i, act := fun s t ls => ls.foldl (fun u p => wrReg u p d (v s ls p)) t } s) :
    CompletesG i gd d (fun _ => 0) (fun s p => v s (actingLanes s gd) p) :=
  completesG_of _ he (Plain.of_eq rfl hm hw) (fun _ _ => rfl) (fun _ => rfl) rfl

theorem completesG_gForm {v : State → Nat → Word} (he : ∀ s, exec i s = run gd (gForm i d v) s) :
    CompletesG i gd d (fun _ => 0) v :=
  completesG_lanes hm hw (fun s _ p => v s p) he

theorem completesP_voteForm {n : Fin 8} (v : State → List Nat → Bool) (he : ∀ s, exec i s = run gd (voteForm i n v) s) :
    CompletesP i gd n (fun s _ => v s (actingLanes s gd)) :=
  completesP_of _ he (Plain.of_eq rfl hm hw) (fun _ _ => rfl) (fun _ _ => rfl)

/-- R242: whatever rule names the source lane, a shuffle gives `exchanged` of it. -/
theorem completesG_shflForm (a b : GReg) (src : Nat → Nat → Nat → Int)
    (he : ∀ s, exec i s = run gd (shflForm i d a b src) s) :
    CompletesG i gd d (fun _ => 0) (fun s p =>
      exchanged s gd a (src (p - s.cur.leader) (2 ^ glogOf (s.str p)) (rdReg s p b).toNat) p) :=
  (completesG_lanes hm hw _ he).congr fun _ _ => by simp only [exchanged, List.contains_iff_mem]

end

/-! ### Values of the immediate forms and of `lea` -/

theorem word_mul_two_pow_14_add (x : Word) (m : BitVec 14) :
    word (x.toNat * 2 ^ 14 + m.toNat) = x * 16384#64 + m.zeroExtend 64 := by
  apply BitVec.eq_of_toNat_eq
  simp [word]

theorem word_add_mul_two_pow (x y : Word) (n : Nat) : word (x.toNat + y.toNat * 2 ^ n) = x + y <<< n := by
  apply BitVec.eq_of_toNat_eq
  simp [word, Nat.shiftLeft_eq]

/-! ### Values of the bit operations -/

theorem ite_neg_eq_natAbs (x : Int) : (if x < 0 then -x else x) = x.natAbs := by
  split <;> omega

theorem brevOf_lt_two_pow (u n : Nat) : brevOf u n < 2 ^ n := by
  induction n generalizing u with
  | zero => exact Nat.one_pos
  | succ n ih =>
    have hlow := ih (u / 2)
    obtain hbit | hbit := Nat.mod_two_eq_zero_or_one u <;> rw [brevOf, hbit, Nat.pow_succ] <;> omega

/-- R234: bit 0 of the pattern becomes the highest bit of the result, and the other bits are reversed below it. -/
theorem testBit_brevOf (u n : Nat) {j : Nat} (hj : j < n) : (brevOf u n).testBit j = u.testBit (n - 1 - j) := by
  induction n generalizing u with
  | zero => omega
  | succ n ih =>
    rw [brevOf, Nat.mul_comm, Nat.testBit_two_pow_mul_add _ (brevOf_lt_two_pow _ _)]
    split
    · next hlow =>
      have hplace : n + 1 - 1 - j = n - 1 - j + 1 := by omega
      rw [ih _ hlow, Nat.testBit_div_two, hplace]
    · next htop =>
      obtain rfl : j = n := by omega
      simp [Nat.testBit_zero]

/-! ### Source lanes of the shuffles -/

theorem inMask_toNat (c : Word) (n : Nat) : inMask c.toNat n = c.getLsbD n := by
  rw [inMask, ← Nat.testBit_eq_decide_div_mod_eq]
  rfl

theorem ringLo_toNat (i g : Nat) (c : Word) :
    ringLo i g c.toNat = if c.getLsbD 5 then ((i : Int) - (c.toNat % 32 : Nat)) % (g : Int) else (i : Int) - (c.toNat % 32 : Nat) := by
  rw [ringLo, inMask_toNat]

theorem ringHi_toNat (i g : Nat) (c : Word) :
    ringHi i g c.toNat = if c.getLsbD 5 then ((i : Int) + (c.toNat % 32 : Nat)) % (g : Int) else (i : Int) + (c.toNat % 32 : Nat) := by
  rw [ringHi, inMask_toNat]

/-! ### Values over the exchange set -/

theorem voteAgreeOf_eq (s : State) (ls : List Nat) (n : Nat) :
    voteAgreeOf s ls n = (ls.all (fun q => rdP s q n) || ls.all (fun q => !rdP s q n)) := by
  rw [voteAgreeOf, voteSomeOf, List.not_any_eq_all_not, voteEveryOf]

/-- R243: a constant lane outside L falls back on the lowest lane of L. -/
theorem rdReg_lane_or_lowest (s : State) (gd : Guard) (a : GReg) (n : Nat) :
    rdReg s (if (actingLanes s gd).contains (s.cur.leader + n) then s.cur.leader + n else lowestOf s (actingLanes s gd)) a =
      exchanged s gd a n ((actingLanes s gd).headD s.cur.leader) := by
  unfold exchanged lowestOf
  by_cases h : s.cur.leader + n ∈ actingLanes s gd <;> simp [h]

/-! ### The obligations -/

/-- Settles O2: the values of R232 are the forms' own; those of R233 are `li`'s sign extension and `lih`'s shift by a product. -/
theorem immediateResults : Obligations.ImmediateResults := by
  intro gd d a t c m
  refine ⟨?addi, ?andi, ?ori, ?xori, ?li, ?lih⟩
  case lih => exact (completesG_gForm rfl rfl fun _ => rfl).congr fun s p => word_mul_two_pow_14_add (rdReg s p d) m
  all_goals exact completesG_gForm rfl rfl fun _ => rfl

/-- Settles O3: the reversal is `testBit_brevOf`; the other values are the forms' own but for `abs` and `lea`. -/
theorem bitOperationResults : Obligations.BitOperationResults := by
  intro gd d a b t q sh
  refine ⟨?abs, ?neg, ?clz, ?ctz, ?popc, ?brev, fun u _ => testBit_brevOf u t.width, ?bfx, ?bfi, ?sel, ?lea⟩
  case abs =>
    exact (completesG_gForm rfl rfl fun _ => rfl).congr fun s p => congrArg (wrapT t) (ite_neg_eq_natAbs (view t (rdReg s p a)))
  case lea =>
    exact (completesG_gForm rfl rfl fun _ => rfl).congr fun s p => word_add_mul_two_pow (rdReg s p a) (rdReg s p b) sh.val
  all_goals exact completesG_gForm rfl rfl fun _ => rfl

/-- Settles O5: votes and `ballot` range over the acting lanes, a shuffle is `exchanged` of its source lane, and `bcast` is
`exchanged` with the lowest acting lane to fall back on. -/
theorem votesAndShuffles : Obligations.VotesAndShuffles := by
  refine ⟨fun gd p a d => ⟨?some, ?every, ?agree, ?ballot⟩, fun gd d a b n => ⟨?pick, ?lo, ?hi, ?mir, ?bcast⟩⟩
  case some => exact completesP_voteForm rfl rfl (fun s ls => voteSomeOf s ls a.val) fun _ => rfl
  case every => exact completesP_voteForm rfl rfl (fun s ls => voteEveryOf s ls a.val) fun _ => rfl
  case agree =>
    exact (completesP_voteForm rfl rfl (fun s ls => voteAgreeOf s ls a.val) fun _ => rfl).congr fun s _ => voteAgreeOf_eq s _ a.val
  case ballot =>
    exact completesG_lanes rfl rfl (fun s ls _ => word (laneMask s.cur.leader (ls.filter fun q => rdP s q a.val))) fun _ => rfl
  case pick => exact completesG_shflForm rfl rfl a b (fun _ _ c => (c % 16 : Nat)) fun _ => rfl
  case lo =>
    exact (completesG_shflForm rfl rfl a b ringLo fun _ => rfl).congr fun s p =>
      congrArg (exchanged s gd a · p) (ringLo_toNat _ _ (rdReg s p b))
  case hi =>
    exact (completesG_shflForm rfl rfl a b ringHi fun _ => rfl).congr fun s p =>
      congrArg (exchanged s gd a · p) (ringHi_toNat _ _ (rdReg s p b))
  case mir => exact completesG_shflForm rfl rfl a b (fun i _ c => (Nat.xor i (c % 16) : Nat)) fun _ => rfl
  case bcast =>
    exact (completesG_lanes rfl rfl
      (fun s ls _ => rdReg s (if ls.contains (s.cur.leader + n.val) then s.cur.leader + n.val else lowestOf s ls) a)
      fun _ => rfl).congr fun s _ => rdReg_lane_or_lowest s gd a n.val

end Sys2Proof.Machine
end

section
/-!
# Wide forms and exact accumulators

The wide forms of R271, R274, R275, R277 and R278 have no check of their own and write one w register, so they complete by one law
(`completesW_wForm`) and only their values are left to say. The forms of R285 and R287 write a value and its flags together, by
`putE`; the rules for `putE` over a list of lanes come first, and the law of completion for that shape (`completesE_of`) rests on
them. A lane's operands are read from the state before the word, so `xmrg e0, e0` doubles e0.
-/
namespace Sys2Proof.Machine

open Sys2Proof

/-! ### Wide forms -/

theorem completesW_wForm {i : Instr} {gd : Guard} {d : Fin 16} {v : State → Nat → Wide} (hm : memEvents i = (false, false))
    (hw : waitsForAll i = false) (he : ∀ s, exec i s = run gd (wForm i d v) s) : CompletesW i gd d v :=
  completesW_of _ he (Plain.of_eq rfl hm hw) (fun _ _ => rfl) (fun _ _ => rfl) rfl

/-- R267: the mode that gives an exact sum of zero its sign. -/
theorem isRd_eq_decide (m : Rm) : isRd m = decide (m = .rd) := by
  cases m <;> rfl

/-! ### Accumulators of some lanes -/

theorem foldl_putE_eq (n : Nat) (v : Nat → X320) (fl : Nat → BitVec 3) (ls : List Nat) (s : State) :
    ∃ a b, ls.foldl (fun t p => putE t p n (v p) (fl p)) s = (s.setEs a).setEflags b := by
  induction ls generalizing s with
  | nil => exact ⟨s.es, s.eflags, rfl⟩
  | cons p r ih =>
    obtain ⟨a, b, h⟩ := ih (putE s p n (v p) (fl p))
    exact ⟨a, b, h⟩

theorem putEs_kept (s : State) (n : Fin 2) (v : Nat → X320) (fl : Nat → BitVec 3) (ls : List Nat) :
    RegsKept s (ls.foldl (fun t p => putE t p n.val (v p) (fl p)) s) (fun r => ∃ p ∈ ls, r = .e p n.val) := by
  obtain ⟨a, b, h⟩ := foldl_putE_eq n.val v fl ls s
  refine ⟨fun _ _ _ _ => by rw [h]; rfl, fun _ _ _ _ => by rw [h]; rfl, fun _ _ _ _ => by rw [h]; rfl,
    fun _ _ _ _ => by rw [h]; rfl, fun _ _ _ _ => by rw [h]; rfl, fun p m hm hx => ?_⟩
  have hother : ∀ q ∈ ls, ¬(p = q ∧ m = n.val) := by
    rintro q hq ⟨rfl, rfl⟩
    exact hx ⟨p, hq, rfl⟩
  exact ⟨foldl_keep (rdE · p m) _ ls s fun u q hq => by rw [rdE_putE u _ _ n.isLt hm, if_neg (hother q hq)],
    foldl_keep (rdEf · p m) _ ls s fun u q hq => by rw [rdEf_putE u _ _ n.isLt hm, if_neg (hother q hq)]⟩

theorem putEs_value (s : State) (n : Fin 2) (v : Nat → X320) (fl : Nat → BitVec 3) (ls : List Nat) (p : Nat) (hp : p ∈ ls) :
    rdE (ls.foldl (fun t p => putE t p n.val (v p) (fl p)) s) p n.val = v p ∧
      rdEf (ls.foldl (fun t p => putE t p n.val (v p) (fl p)) s) p n.val = fl p :=
  ⟨foldl_value (rdE · p n.val) _ _ ls s p hp (fun u => by rw [rdE_putE u _ _ n.isLt n.isLt, if_pos ⟨rfl, rfl⟩])
      fun u q _ hne => by rw [rdE_putE u _ _ n.isLt n.isLt, if_neg fun h => hne h.1.symm],
    foldl_value (rdEf · p n.val) _ _ ls s p hp (fun u => by rw [rdEf_putE u _ _ n.isLt n.isLt, if_pos ⟨rfl, rfl⟩])
      fun u q _ hne => by rw [rdEf_putE u _ _ n.isLt n.isLt, if_neg fun h => hne h.1.symm]⟩

/-- A form without checks issues once it is paid for, and acts on a state that differs from the one before it by its issue alone. -/
theorem Plain.exec_next {f : Form} {i : Instr} (hf : Plain f i) {s : State} {gd : Guard} (he : exec i s = run gd f s)
    (hr : RegsLanded s gd i) (hpay : Payable s (Nat.min 64 (f.price s (actingLanes s gd))) f.quotaFree) :
    ∃ u, Issues true s u ∧ RestKept s u ∧
      exec i s = .next (mendWord s (actingLanes s gd) i (f.act s u (actingLanes s gd))) :=
  ⟨_, issues_of s [{ form := f, gd := gd }] true (by simp), issued_rest s _,
    by rw [he, run_clear (hf.clear hr hpay), hf.instr]⟩

/-- A form without checks that writes value and flags of one accumulator in each acting lane completes as R285 and R287 say. -/
theorem completesE_of {i : Instr} {gd : Guard} {n : Fin 2} {price : State → Nat} {v : State → Nat → X320}
    {fl : State → Nat → BitVec 3} (f : Form) (he : ∀ s, exec i s = run gd f s) (hf : Plain f i)
    (ha : ∀ src t, f.act src t (actingLanes src gd) =
      (actingLanes src gd).foldl (fun u p => putE u p n.val (v src p) (fl src p)) t)
    (hp : ∀ s, f.price s (actingLanes s gd) = price s) (hq : f.quotaFree = false) : CompletesE i gd n price v fl := by
  intro s hr hpay
  rw [← hp, ← hq] at hpay
  obtain ⟨u, hu, hrest, hexec⟩ := hf.exec_next (he s) hr hpay
  rw [ha] at hexec
  have hvalue := putEs_value u n (v s) (fl s) (actingLanes s gd)
  have hregs := (putEs_kept u n (v s) (fl s) (actingLanes s gd)).congr hu.gs hu.hs hu.ws hu.ps hu.ks hu.es hu.eflags
  obtain ⟨a, b, hx⟩ := foldl_putE_eq n.val (v s) (fl s) (actingLanes s gd) u
  refine ⟨_, hexec, hvalue, hregs.mend _ _ _, ?bytes, ?lanes, .mend ?rest _ _ _, ?pend⟩ <;> rw [hx]
  case bytes => exact .of_mem hu.mem
  case lanes => exact hu.lanes.after rfl
  case rest => exact hrest.after rfl rfl rfl rfl rfl rfl rfl rfl (fun _ h => h) rfl rfl
  case pend => exact hu.pend

/-! ### The obligations -/

/-- Settles O10: a value is the form's own once `isRd` is written as the test of the mode. -/
theorem wideResults : Obligations.WideResults := by
  intro gd m d a b f c sz dt st x y z round
  rw [← isRd_eq_decide m]
  refine ⟨?vadd, ?vsub, ?vmul, ?vfma, ?vmin, ?vmax, ?vabs, ?vneg, ?vcmp, ?vsel, ?vperm, ?cvtWide⟩
  all_goals exact completesW_wForm rfl rfl fun _ => rfl

/-- Settles O13: value and flags are the forms' own, which `xadd` folds over the addends of R285. -/
theorem exactAccumulatorResults : Obligations.ExactAccumulatorResults := by
  intro gd e c src
  refine ⟨?xadd, ?xclr, ?xmrg⟩
  case xadd => exact completesE_of (formXadd gd e src) (fun _ => rfl) (.of_eq rfl rfl rfl) (fun _ _ => rfl) (fun _ => rfl) rfl
  case xclr => exact completesE_of (formXclr gd e) (fun _ => rfl) (.of_eq rfl rfl rfl) (fun _ _ => rfl) (fun _ => rfl) rfl
  case xmrg => exact completesE_of (formXmrg gd e c) (fun _ => rfl) (.of_eq rfl rfl rfl) (fun _ _ => rfl) (fun _ => rfl) rfl

end Sys2Proof.Machine
end

section
/-!
# The limits of transaction barriers

What a count of bytes (R364, R490) and the test at the end of a cell cycle (R491) leave in a barrier: one equation for each case of
`tbPend` and `tbTest`. Either condition of R476 stores the barrier and, the first time in a phase, posts a record. A record goes to a
supervisor queue or to the log and neither holds a barrier (`barOf_postSq`), so the barrier stored is the one that stands afterwards.
-/
namespace Sys2Proof.Machine

/-! ### The barrier that stands after a write, a record or a wake -/

@[simp] theorem barOf_putBar_self (s : State) (c k : Nat) (x : Barrier) : barOf ((putBar s c k x).cell c) k = x := by
  rw [putBar, cell_putCell, if_pos rfl]
  exact tget_tset_self _ _ _ _

@[simp] theorem barOf_modStrs (s : State) (ls : List Nat) (f : Strand → Strand) (c k : Nat) :
    barOf ((modStrs s ls f).cell c) k = barOf (s.cell c) k := by
  obtain ⟨v, h⟩ := modStrs_eq f ls s
  rw [h, cell_congr (s.setStrands_cells v)]

/-- In a cell outside `C` only the cycles in which its banks are busy may change, so its barriers stand. -/
theorem Mid.bars {C : Touch} {s u : State} (h : Mid C s u) {c : Nat} (hc : ¬C.cell c) : (u.cell c).bars = (s.cell c).bars :=
  show (noBank (u.cell c)).bars = (noBank (s.cell c)).bars by rw [h.cells c hc]

theorem bars_postSq (s : State) (c : Nat) (r : Record) : ((postSq s c r).cell c).bars = (s.cell c).bars := by
  unfold postSq
  split
  · rw [cell_putCell, if_pos rfl]
  · exact (mid_postLog { cell := fun _ => False, pend := fun _ => False, fences := False } s _).bars id

@[simp] theorem barOf_postSq (s : State) (c k : Nat) (r : Record) : barOf ((postSq s c r).cell c) k = barOf (s.cell c) k := by
  unfold barOf
  rw [bars_postSq]

/-- R476: whether or not its record has been made in this phase, the barrier stored stands. -/
theorem barOf_recorded (s : State) (c k : Nat) (x : Barrier) (made : Bool) (r : Record) :
    barOf ((if made then putBar s c k x else postSq (putBar s c k x) c r).cell c) k = x := by
  split <;> simp

/-! ### A count of bytes -/

theorem tbPend_of_inRange {s : State} {c k : Nat} {n : Int} (e : Bool) (pos : Option (Nat × Word))
    (hlo : -(2 ^ 31 : Int) ≤ (barOf (s.cell c) k).pend + n) (hhi : (barOf (s.cell c) k).pend + n ≤ 2 ^ 31 - 1) :
    let x := barOf (s.cell c) k
    tbPend s c k n e pos = putBar s c k { x with pend := x.pend + n, err := x.err || e } :=
  if_pos ⟨hlo, hhi⟩

/-- R490: past an end of the 32 bits, `v` is that end. -/
theorem tbPend_of_outOfRange {s : State} {c k : Nat} {n v : Int} (e : Bool) (pos : Option (Nat × Word))
    (hv : (2 ^ 31 - 1 < (barOf (s.cell c) k).pend + n ∧ v = 2 ^ 31 - 1) ∨
      ((barOf (s.cell c) k).pend + n < -(2 ^ 31 : Int) ∧ v = -(2 ^ 31))) :
    let x := barOf (s.cell c) k
    let z := { x with pend := v, err := true }
    let t := putBar s c k { z with pendRange := true }
    tbPend s c k n e pos = if x.pendRange then t else postSq t c (barRec t c k 10 pos z) := by
  have hout : ¬ (-(2 ^ 31 : Nat) ≤ (barOf (s.cell c) k).pend + n ∧ (barOf (s.cell c) k).pend + n ≤ (2 ^ 31 - 1 : Nat)) := by omega
  have hend : (if (barOf (s.cell c) k).pend + n < 0 then -((2 ^ 31 : Nat) : Int) else ((2 ^ 31 - 1 : Nat) : Int)) = v := by
    split <;> omega
  simp only [tbPend, if_neg hout, hend]

theorem barOf_tbPend_of_outOfRange {s : State} {c k : Nat} {n v : Int} (e : Bool) (pos : Option (Nat × Word))
    (hv : (2 ^ 31 - 1 < (barOf (s.cell c) k).pend + n ∧ v = 2 ^ 31 - 1) ∨
      ((barOf (s.cell c) k).pend + n < -(2 ^ 31 : Int) ∧ v = -(2 ^ 31))) :
    barOf ((tbPend s c k n e pos).cell c) k = { barOf (s.cell c) k with pend := v, err := true, pendRange := true } := by
  rw [tbPend_of_outOfRange e pos hv]
  exact barOf_recorded ..

/-! ### The test at the end of a cycle -/

section
variable {s : State} {c k : Nat} (hvalid : (barOf (s.cell c) k).valid = true) (hremain : (barOf (s.cell c) k).remain = 0)
include hvalid hremain

theorem tbTest_of_overrun (hpend : (barOf (s.cell c) k).pend < 0) :
    let x := barOf (s.cell c) k
    let z := { x with err := true, before := x.arrived }
    let t := putBar s c k { z with overrun := true }
    tbTest s c k = if x.overrun then t else postSq t c (barRec t c k 11 none z) := by
  rw [tbTest, if_neg fun h => Int.ne_of_lt hpend h.2.2, if_pos ⟨hvalid, hremain, hpend⟩]

theorem barOf_tbTest_of_overrun (hpend : (barOf (s.cell c) k).pend < 0) :
    let x := barOf (s.cell c) k
    barOf ((tbTest s c k).cell c) k = { x with err := true, before := x.arrived, overrun := true } := by
  rw [tbTest_of_overrun hvalid hremain hpend]
  exact barOf_recorded ..

theorem phase_tbTest_of_pend_eq_zero (hpend : (barOf (s.cell c) k).pend = 0) :
    (barOf ((tbTest s c k).cell c) k).phase = !(barOf (s.cell c) k).phase := by
  rw [tbTest, if_pos ⟨hvalid, hremain, hpend⟩, barOf_modStrs, barOf_putBar_self]

/-- R491: an overrun, or bytes still to come. -/
theorem phase_tbTest_of_pend_ne_zero (hpend : (barOf (s.cell c) k).pend ≠ 0) :
    (barOf ((tbTest s c k).cell c) k).phase = (barOf (s.cell c) k).phase := by
  obtain hneg | hpos := Int.lt_or_gt_of_ne hpend
  · rw [barOf_tbTest_of_overrun hvalid hremain hneg]
  · rw [tbTest, if_neg fun h => hpend h.2.2, if_neg fun h => Int.lt_asymm hpos h.2.2, barOf_putBar_self]

end

/-! ### The obligation -/

/-- Settles O55: one equation for each case of `tbPend` and `tbTest`, and the barrier that stands after it. -/
theorem barrierCountsKeepTheirLimits : Obligations.BarrierCountsKeepTheirLimits := by
  intro s c k n e pos
  refine ⟨tbPend_of_inRange e pos, fun hover => ?above, fun hunder => ?below, fun _ => tbPend_of_outOfRange e pos,
    tbTest_of_overrun, phase_tbTest_of_pend_ne_zero, phase_tbTest_of_pend_eq_zero⟩
  case above => simp [barOf_tbPend_of_outOfRange e pos (.inl ⟨hover, rfl⟩)]
  case below => simp [barOf_tbPend_of_outOfRange e pos (.inr ⟨hunder, rfl⟩)]

end Sys2Proof.Machine
end

section
/-!
PROOFS. A fact of logic that core Lean states for propositions that are equal: the modules of the proofs import nothing beside the model.
-/
namespace Sys2Proof.Machine

/-- Two conditionals with equivalent conditions and equal branches. -/
theorem ite_iff {α : Sort _} {b c : Prop} [Decidable b] [Decidable c] {x y u v : α} (h : b ↔ c) (hx : x = u) (hy : y = v) :
    (if b then x else y) = if c then u else v :=
  ite_congr (propext h) (fun _ => hx) fun _ => hy

end Sys2Proof.Machine
end

section
/-!
# The round trip of the encoding

`Laws.RoundTrip` holds one theorem for each constructor of `Instr`, so the obligation is the list of them.
-/
namespace Sys2Proof.Laws.RoundTrip

open Sys2Proof

/-- Settles O56: every constructor by the round trip of its own word, or by having none. -/
theorem decodeOfEncode : Obligations.DecodeOfEncode
  | .add .. => add _ _ _ _ _
  | .sub .. => sub _ _ _ _ _
  | .mul .. => mul _ _ _ _ _
  | .mulh .. => mulh _ _ _ _ _
  | .mad .. => mad _ _ _ _ _
  | .div .. => div _ _ _ _ _
  | .rem .. => rem _ _ _ _ _
  | .and .. => and _ _ _ _ _
  | .or .. => or _ _ _ _ _
  | .xor .. => xor _ _ _ _ _
  | .andn .. => andn _ _ _ _ _
  | .shl .. => shl _ _ _ _ _
  | .shr .. => shr _ _ _ _ _
  | .sar .. => sar _ _ _ _ _
  | .rot .. => rot _ _ _ _ _
  | .min .. => min _ _ _ _ _
  | .max .. => max _ _ _ _ _
  | .addi .. => addi _ _ _ _ _
  | .andi .. => andi _ _ _ _ _
  | .ori .. => ori _ _ _ _ _
  | .xori .. => xori _ _ _ _ _
  | .li .. => li _ _ _
  | .lih .. => lih _ _ _
  | .abs .. => abs _ _ _ _
  | .neg .. => neg _ _ _ _
  | .clz .. => clz _ _ _ _
  | .ctz .. => ctz _ _ _ _
  | .popc .. => popc _ _ _ _
  | .brev .. => brev _ _ _ _
  | .bfx .. => bfx _ _ _ _ _
  | .bfi .. => bfi _ _ _ _ _
  | .sel .. => sel _ _ _ _ _
  | .lea .. => lea _ _ _ _ _
  | .cmp .. => cmp _ _ _ _ _ _
  | .pand .. => pand _ _ _ _
  | .por .. => por _ _ _ _
  | .pxor .. => pxor _ _ _ _
  | .pnot .. => pnot _ _ _
  | .voteSome .. => voteSome _ _ _
  | .voteEvery .. => voteEvery _ _ _
  | .voteAgree .. => voteAgree _ _ _
  | .ballot .. => ballot _ _ _
  | .shflPick .. => shflPick _ _ _ _
  | .shflLo .. => shflLo _ _ _ _
  | .shflHi .. => shflHi _ _ _ _
  | .shflMir .. => shflMir _ _ _ _
  | .bcast .. => bcast _ _ _ _
  | .fadd .. => fadd _ _ _ _ _ _
  | .fsub .. => fsub _ _ _ _ _ _
  | .fmul .. => fmul _ _ _ _ _ _
  | .fma .. => fma _ _ _ _ _ _
  | .fmin .. => fmin _ _ _ _ _
  | .fmax .. => fmax _ _ _ _ _
  | .fdiv .. => fdiv _ _ _ _ _ _
  | .fsqrt .. => fsqrt _ _ _ _ _
  | .fabs .. => fabs _ _ _ _
  | .fneg .. => fneg _ _ _ _
  | .fcmp .. => fcmp _ _ _ _ _ _
  | .vadd .. => vadd _ _ _ _ _ _
  | .vsub .. => vsub _ _ _ _ _ _
  | .vmul .. => vmul _ _ _ _ _ _
  | .vfma .. => vfma _ _ _ _ _ _
  | .vmin .. => vmin _ _ _ _ _
  | .vmax .. => vmax _ _ _ _ _
  | .vabs .. => vabs _ _ _ _
  | .vneg .. => vneg _ _ _ _
  | .vrcp .. => vrcp _ _ _ _
  | .vrsq .. => vrsq _ _ _ _
  | .vsqrt .. => vsqrt _ _ _ _
  | .vexp2 .. => vexp2 _ _ _ _
  | .vlog2 .. => vlog2 _ _ _ _
  | .vsin .. => vsin _ _ _ _
  | .vcos .. => vcos _ _ _ _
  | .vcmp .. => vcmp _ _ _ _ _ _
  | .vsel .. => vsel _ _ _ _
  | .vsum .. => vsum _ _ _ _
  | .vdot .. => vdot _ _ _ _ _
  | .vperm .. => vperm _ _ _ _ _
  | .cvtScalar .. => cvtScalar _ _ _ _ _ _
  | .cvtWide .. => cvtWide _ _ _ _ _ _
  | .pack .. => pack _ _ _ _ _ _ _
  | .unpk .. => unpk _ _ _ _ _ _
  | .scl .. => scl _ _ _ _ _ _ _
  | .xadd .. => xadd _ _ _
  | .xget .. => xget _ _ _ _ _
  | .xclr .. => xclr _ _
  | .xmrg .. => xmrg _ _ _
  | .mma .. => mma _ _ _ _ _ _
  | .qrd .. => qrd _ _ _ _
  | .qwr .. => qwr _ _ _
  | .krd .. => krd _ _ _
  | .kwr .. => kwr _ _ _
  | .br .. => br _ _
  | .call .. => call _ _
  | .brx .. => brx _ _
  | .callx .. => callx _ _
  | .ret .. => ret _ _
  | .dbnz .. => dbnz _ _ _
  | .jset .. => jset _ _
  | .jadd .. => jadd _ _
  | .jquit .. => jquit _ _
  | .jwait .. => jwait _ _
  | .jtest .. => jtest _ _ _
  | .jread .. => jread _ _ _
  | .jwrite .. => jwrite _ _ _
  | .fuse .. => fuse _ _
  | .split .. => split _
  | .detach .. => detach _
  | .stop .. => stop _
  | .spawn .. => spawn _ _ _
  | .spawnf .. => spawnf _ _
  | .yield .. => yield _
  | .grid .. => grid _ _
  | .ld .. => ld _ _ _ _ _ _
  | .ldAcq .. => ldAcq _ _ _ _ _ _
  | .ldDev .. => ldDev _ _ _ _ _ _
  | .st .. => st _ _ _ _ _
  | .stRel .. => stRel _ _ _ _ _
  | .stDev .. => stDev _ _ _ _ _
  | .ldw .. => ldw _ _ _ _
  | .stw .. => stw _ _ _ _
  | .ldwAcq .. => ldwAcq _ _ _ _
  | .stwRel .. => stwRel _ _ _ _
  | .lds .. => lds _ _ _ _ _ _
  | .sts .. => sts _ _ _ _ _
  | .ldsAcq .. => ldsAcq _ _ _ _ _ _
  | .stsRel .. => stsRel _ _ _ _ _
  | .ldsw .. => ldsw _ _ _ _
  | .stsw .. => stsw _ _ _ _
  | .ldswAcq .. => ldswAcq _ _ _ _
  | .stswRel .. => stswRel _ _ _ _
  | .gat .. => gat _ _ _ _ _ _
  | .scat .. => scat _ _ _ _ _ _
  | .pf .. => pf _ _ _
  | .ldk .. => ldk _ _ _ _
  | .ldkAcq .. => ldkAcq _ _ _ _
  | .xld .. => xld _ _ _ _
  | .xldAcq .. => xldAcq _ _ _ _
  | .xst .. => xst _ _ _ _
  | .xstRel .. => xstRel _ _ _ _
  | .amoAdd .. => amoAdd _ _ _ _ _
  | .amoAnd .. => amoAnd _ _ _ _ _
  | .amoOr .. => amoOr _ _ _ _ _
  | .amoXor .. => amoXor _ _ _ _ _
  | .amoMinI .. => amoMinI _ _ _ _ _
  | .amoMinN .. => amoMinN _ _ _ _ _
  | .amoMaxI .. => amoMaxI _ _ _ _ _
  | .amoMaxN .. => amoMaxN _ _ _ _ _
  | .amoSwap .. => amoSwap _ _ _ _ _
  | .amoPmin .. => amoPmin _ _ _ _
  | .cas .. => cas _ _ _ _ _
  | .cas2 .. => cas2 _ _ _ _
  | .amofF32 .. => amofF32 _ _ _ _
  | .amofF64 .. => amofF64 _ _ _ _
  | .amoxF32 .. => amoxF32 _ _ _ _
  | .amoxF64 .. => amoxF64 _ _ _ _
  | .fenceAcq .. => fenceAcq _ _
  | .fenceRel .. => fenceRel _ _
  | .fenceAr .. => fenceAr _ _
  | .fenceSc .. => fenceSc _ _
  | .wait .. => wait _ _ _ _ _
  | .cpy .. => cpy _ _ _ _ _
  | .tld .. => tld _ _ _ _ _
  | .tldm .. => tldm _ _ _ _ _
  | .chase .. => chase _ _ _ _ _
  | .multicastSub .. => multicastSub _ _
  | .multicastUnsub .. => multicastUnsub _ _
  | .tbinit .. => tbinit _ _ _
  | .tbexp .. => tbexp _ _ _
  | .tbarr .. => tbarr _ _
  | .tbwait .. => tbwait _ _
  | .tbtest .. => tbtest _ _ _
  | .bbarr .. => bbarr _
  | .bbwait .. => bbwait _
  | .send .. => send _ _ _
  | .recv .. => recv _ _
  | .recvt .. => recvt _ _ _ _
  | .mmz .. => mmz _ _
  | .mmst .. => mmst _ _ _ _
  | .mmld .. => mmld _ _ _ _
  | .mmpoll .. => mmpoll _ _ _
  | .mmjob .. => mmjob _ _ _ _
  | .tokq .. => tokq _ _
  | .trap .. => trap _ _
  | .sysret .. => sysret _
  | .halt .. => halt _
  | .kill .. => kill _ _
  | .rdsr .. => rdsr _ _ _
  | .wrsr .. => wrsr _ _ _
  | .tlbinvAll .. => tlbinvAll _
  | .tlbinvAsid .. => tlbinvAsid _ _
  | .tlbinvPage .. => tlbinvPage _ _ _
  | .cwb .. => cwb _ _ _
  | .cinv .. => cinv _ _ _
  | .probe .. => probe _ _ _
  | .syncOpComplete .. => syncOpComplete _
  | .scoreboardResultLands .. => scoreboardResultLands _
  | .storePerformed .. => storePerformed _
  | .pageWalkComplete .. => pageWalkComplete _
  | .bankingSwitchComplete .. => bankingSwitchComplete _
  | .spawnTimeoutRelease .. => spawnTimeoutRelease _ _
  | .gatheredGangPlace .. => gatheredGangPlace _
  | .pathQuantumExpiry .. => pathQuantumExpiry _
  | .orphanFault .. => orphanFault _
  | .sqnote .. => sqnote _
  | .monitorFire .. => monitorFire _
  | .waitTimeout .. => waitTimeout _
  | .recvtTimeout .. => recvtTimeout _
  | .deliveryArrival .. => deliveryArrival _
  | .transferSourceRead .. => transferSourceRead _
  | .transferNotice .. => transferNotice _
  | .chaseStep .. => chaseStep _
  | .chaseStepLimit .. => chaseStepLimit _
  | .multicastJoinArrival .. => multicastJoinArrival _
  | .blockBarrierSweep .. => blockBarrierSweep _
  | .messageArrival .. => messageArrival _
  | .messageResend .. => messageResend _
  | .matrixOpComplete .. => matrixOpComplete _
  | .matrixOpStart .. => matrixOpStart _
  | .tokenRequestPaid .. => tokenRequestPaid _
  | .ringStationStep .. => ringStationStep _ _
  | .ballastRevolution .. => ballastRevolution _
  | .dispatchPlace => dispatchPlace
  | .quantumExpiry .. => quantumExpiry _
  | .strandSave .. => strandSave _
  | .evictionComplete .. => evictionComplete _
  | .gridComplete .. => gridComplete _
  | .killComplete .. => killComplete _
  | .stallDetect .. => stallDetect _
  | .blockstallDetect .. => blockstallDetect _
  | .starveDetect .. => starveDetect _
  | .launch .. => launch _ _ _ _
  | .packageReset => packageReset
  | .attestationReportDone => attestationReportDone
  | .migrationComplete => migrationComplete
  | .railSwitchComplete .. => railSwitchComplete _
  | .registerWrite .. => registerWrite _ _
  | .e2eRetry .. => e2eRetry _
  | .portTrainingDone .. => portTrainingDone _
  | .hostLinkDown => hostLinkDown
  | .hostLinkUp => hostLinkUp
  | .railHoldEnd .. => railHoldEnd _ _
  | .haltSnapshotComplete .. => haltSnapshotComplete _
  | .hostMemoryAccess .. => hostMemoryAccess _ _ _ _ _
  | .rstctlGo .. => rstctlGo _
  | .bootStageComplete .. => bootStageComplete _
  | .attctlGo .. => attctlGo _
  | .migcmdGo .. => migcmdGo _
  | .railselWrite .. => railselWrite _ _
  | .slotmaskWrite .. => slotmaskWrite _ _
  | .cfenceWrite .. => cfenceWrite _ _
  | .ringcfgWrite .. => ringcfgWrite _ _
  | .fabcfgWrite .. => fabcfgWrite _
  | .flitReceive .. => flitReceive _ _ _
  | .laneErase .. => laneErase _ _
  | .hopRetry .. => hopRetry _ _ _ _ _
  | .thermalWarn .. => thermalWarn _ _
  | .thermalTrip .. => thermalTrip _
  | .railFault .. => railFault _ _
  | .hbmSupplyFault .. => hbmSupplyFault _
  | .securityAlarm .. => securityAlarm _ _
  | .hostCxlCacheRequest .. => hostCxlCacheRequest _ _ _
  | .switchPlaneLoss .. => switchPlaneLoss _
  | .railReturnsToTolerance .. => railReturnsToTolerance _ _

end Sys2Proof.Laws.RoundTrip
end

section
/-!
# Integer, floating-point and packed results

The forms of R230, R238, R239, R267 to R270, R276, R278 to R282 and R286 have no check of their own, so they complete by the law
of their shape and only the value is left to say. Two shapes are closed here: results that land later (`completesLater_gLater`,
`completesLater_specForm`) and the registers of format Z, which are g or w registers by KS (`completesZ_zForm`).
-/
namespace Sys2Proof.Machine

open Sys2Proof

/-! ### Shapes -/

section
variable {i : Instr} {gd : Guard} (hm : memEvents i = (false, false)) (hw : waitsForAll i = false)
include hm hw

theorem completesP_pForm {n : Fin 8} {v : State → Nat → Bool} (he : ∀ s, exec i s = run gd (pForm i n v) s) :
    CompletesP i gd n v :=
  completesP_of _ he (Plain.of_eq rfl hm hw) (fun _ _ => rfl) fun _ _ => rfl

theorem completesLater_gLater {d : GReg} {v : State → Nat → Word} (he : ∀ s, exec i s = run gd (gLater i d v) s) :
    CompletesLater i gd (fun _ => 0) (fun p => gId p d) (fun s p => gVal p d (v s p)) :=
  completesLater_of _ he (Plain.of_eq rfl hm hw) (fun _ _ => rfl) (fun _ => rfl) rfl

/-- R187, R273: a special function costs two tokens a lane. -/
theorem completesLater_specForm {fn : SpecFn} {d a : Fin 16} {f : FTy} (he : ∀ s, exec i s = run gd (specForm i fn d a f) s) :
    CompletesLater i gd (fun s => 2 * (actingLanes s gd).length) (fun p => .w p d.val)
      (fun s p => .w p d.val (mapW f fun j => specResult fn f (wElem s p f a j))) :=
  completesLater_of _ he (Plain.of_eq rfl hm hw) (fun _ _ => rfl) (fun _ => rfl) rfl

/-- R276: a G form at one token a lane. -/
theorem completesG_priced {d : GReg} {v : State → Nat → Word}
    (he : ∀ s, exec i s = run gd { gForm i d v with price := fun _ ls => ls.length } s) :
    CompletesG i gd d (fun s => (actingLanes s gd).length) v :=
  completesG_of _ he (Plain.of_eq rfl hm hw) (fun _ _ => rfl) (fun _ => rfl) rfl

end

theorem CompletesLater.congr {i : Instr} {gd : Guard} {price : State → Nat} {r : Nat → RegId} {v w : State → Nat → RegVal}
    (h : CompletesLater i gd price r v) (hv : ∀ s p, v s p = w s p) : CompletesLater i gd price r w :=
  (funext fun s => funext (hv s) : v = w) ▸ h

/-! ### Registers of format Z (R279) -/

theorem completesG_of_zForm {i : Instr} {gd : Guard} {d : Fin 16} {v : State → Nat → Nat} (hm : memEvents i = (false, false))
    (hw : waitsForAll i = false) (he : ∀ s, exec i s = run gd (zForm i false d v) s) :
    CompletesG i gd (asG ⟨d.val, by omega⟩) (fun _ => 0) (fun s p => word (v s p)) :=
  completesG_of _ he (Plain.of_eq rfl hm hw) (fun _ _ => rfl) (fun _ => rfl) rfl

theorem completesW_of_zForm {i : Instr} {gd : Guard} {d : Fin 16} {v : State → Nat → Nat} (hm : memEvents i = (false, false))
    (hw : waitsForAll i = false) (he : ∀ s, exec i s = run gd (zForm i true d v) s) :
    CompletesW i gd d (fun s p => BitVec.ofNat 256 (v s p)) :=
  completesW_of _ he (Plain.of_eq rfl hm hw) (fun _ _ => rfl) (fun _ _ => rfl) rfl

/-- The g registers of a gang's lanes are their own, so each lane is the sole writer of its destination. -/
theorem soleWriter_asG (s : State) (gd : Guard) (n : Fin 32) (p : Nat) : SoleWriter s gd (asG n) p := by
  intro q _ h
  injection h

theorem completesZ_zForm {i : Instr} {gd : Guard} {ks : Bool} {d : Fin 16} {v : State → Nat → Nat} (hm : memEvents i = (false, false))
    (hw : waitsForAll i = false) (he : ∀ s, exec i s = run gd (zForm i ks d v) s) : CompletesZ i gd ks d v := by
  intro s hr hpay
  cases ks with
  | true =>
    obtain ⟨t, hexec, hvalue, hregs, hrest⟩ := completesW_of_zForm hm hw he s hr hpay
    refine ⟨t, hexec, fun p hp => ?_, hregs, hrest⟩
    simp [rdZ, hvalue p hp]
  | false =>
    obtain ⟨t, hexec, hvalue, hregs, hrest⟩ := completesG_of_zForm hm hw he s hr hpay
    refine ⟨t, hexec, fun p hp => ?_, hregs, hrest⟩
    have hg : rdG t p d.val = if d.val = 0 then 0#64 else word (v s p) := hvalue p hp (soleWriter_asG s gd _ p)
    simp only [rdZ, hg, Bool.false_eq_true, if_false]
    split <;> simp [word]

/-! ### Values -/

/-- R269: the conditions of a comparison whose operands are numbers, and their values where one is NaN. -/
theorem floatCond_eq (c : CC) (u v : Exact) : floatCond c u v =
    if isNan u || isNan v then decide (c = .ne ∨ c = .un)
    else match c with
      | .eq => decide (cmpX u v = 0)
      | .ne => decide (cmpX u v ≠ 0)
      | .lt => decide (cmpX u v < 0)
      | .le => decide (cmpX u v ≤ 0)
      | .gt => decide (cmpX u v > 0)
      | .ge => decide (cmpX u v ≥ 0)
      | .un => false
      | .ord => true := by
  unfold floatCond
  cases isNan u || isNan v <;> cases c <;> simp

/-- R267: a NaN loses against a number, two NaNs give the NaN of the format, and otherwise the order decides. -/
theorem nan_loses (x y takesB : Bool) (nan a b : Nat) :
    (if x then (if y then nan else b) else if y then a else if takesB then b else a) =
      if x ∧ y then nan else if x ∨ !y ∧ takesB then b else a := by
  cases x <;> cases y <;> simp

theorem FTy.width_le (f : FTy) : (ftyFmt f).width - 1 ≤ (ftyFmt f).width :=
  Nat.sub_le _ _

/-- R268: the sign is the highest bit of the encoding. -/
theorem fabsOf_fBits (s : State) (p : Nat) (f : FTy) (n : Fin 32) :
    fabsOf f (fBits s p f n) = (rdG s p n.val).toNat % 2 ^ ((ftyFmt f).width - 1) :=
  Nat.mod_mod_of_dvd _ (Nat.pow_dvd_pow 2 (FTy.width_le f))

/-- R230: the remainder belongs to the quotient that truncates toward zero. -/
theorem remOf_eq (x y : Int) : remOf x y = if y = 0 then x else x - y * Int.tdiv x y := by
  rw [remOf, Int.tmod_def]

/-! ### The special functions (R272) -/

theorem specFixed_sqrt (F : FloatFmt) (x : Nat) : specFixed .sqrt F x = true := by
  unfold specFixed
  cases decodeF F x <;> simp [specExact]

theorem specResult_of_narrow {fn : SpecFn} {f : FTy} {x : Nat} (h : f = .f16 ∨ f = .bf16 ∨ specFixed fn (ftyFmt f) x = true) :
    specResult fn f x = roundF (ftyFmt f) .rn 0 (specExact fn (decodeF (ftyFmt f) x)).1 := by
  obtain rfl | rfl | h := h
  · rfl
  · rfl
  · cases f <;> simp [specResult, h]

theorem specResult_of_free {fn : SpecFn} {f : FTy} {x : Nat} (hf : f = .f32 ∨ f = .f64) (h : specFixed fn (ftyFmt f) x = false) :
    let y := (specExact fn (decodeF (ftyFmt f) x)).1
    let part := (Config.specialValue fn f (BitVec.ofNat 64 x)).toNat % 2 ^ (ftyFmt f).width
    specResult fn f x = if withinBound fn (ftyFmt f) y part then part else roundF (ftyFmt f) .rn 0 y := by
  obtain rfl | rfl := hf <;> simp [specResult, h]

theorem withinBound_iff (fn : SpecFn) (F : FloatFmt) (y : Exact) (c : Nat) (h : withinBound fn F y c = true) :
    cmpX (absX (addX false (decodeF F c) (negX (dyadic F y)))) (errBound fn F y) ≤ 0 ∧
      (fn = .sin ∨ fn = .cos → cmpX (absX (decodeF F c)) (.num false 1 1 0 false) ≤ 0) := by
  simp only [withinBound, Bool.and_eq_true, decide_eq_true_eq] at h
  obtain ⟨⟨_, herr⟩, hrange⟩ := h
  refine ⟨herr, ?_⟩
  rintro (rfl | rfl) <;> simpa using hrange

/-! ### The obligations -/

/-- Settles O1: every value is the form's own. -/
theorem integerArithmeticResults : Obligations.IntegerArithmeticResults := by
  intro gd d a b t
  refine ⟨?add, ?sub, ?mul, ?mulh, ?mad, ?and, ?or, ?xor, ?andn, ?shl, ?shr, ?sar, ?rot, ?min, ?max⟩
  all_goals exact completesG_gForm rfl rfl fun _ => rfl

/-- Settles O4: `floatCond_eq` is the rule of R269 for NaN; the other values are the forms' own. -/
theorem comparisonResults : Obligations.ComparisonResults := by
  intro gd p a b t x y f m n
  refine ⟨?eq, ?ne, ?lt, ?le, ?gt, ?ge, ?pand, ?por, ?pxor, ?pnot, fun c => ?fcmp⟩
  case fcmp => exact (completesP_pForm rfl rfl fun _ => rfl).congr fun s q => floatCond_eq c _ _
  all_goals exact completesP_pForm rfl rfl fun _ => rfl

/-- Settles O7: one rounding of the exact result; `fmin` and `fmax` by the NaN rule, `fabs` by the width of the encoding. -/
theorem scalarFloatResults : Obligations.ScalarFloatResults := by
  intro gd m d a b f x y z round
  rw [← isRd_eq_decide m]
  refine ⟨?fadd, ?fsub, ?fmul, ?fma, ?fmin, ?fmax, ?fabs, ?fneg⟩
  case fmin => exact (completesG_gForm rfl rfl fun _ => rfl).congr fun s p => congrArg word (nan_loses _ _ _ _ _ _)
  case fmax => exact (completesG_gForm rfl rfl fun _ => rfl).congr fun s p => congrArg word (nan_loses _ _ _ _ _ _)
  case fabs => exact (completesG_gForm rfl rfl fun _ => rfl).congr fun s p => congrArg word (fabsOf_fBits s p f a)
  all_goals exact completesG_gForm rfl rfl fun _ => rfl

/-- Settles O8: the remainder is `remOf_eq`; the other values are the forms' own. -/
theorem divisionsLandLater : Obligations.DivisionsLandLater := by
  refine ⟨fun gd d a b t => ⟨?div, ?rem⟩, fun gd m d a b f => ⟨?fdiv, ?fsqrt⟩⟩
  case rem =>
    exact (completesLater_gLater rfl rfl fun _ => rfl).congr fun s p => congrArg (fun r => gVal p d (wrapT t r)) (remOf_eq _ _)
  case div => exact completesLater_gLater rfl rfl fun _ => rfl
  case fdiv => exact completesLater_gLater (d := asG d) (v := fBin f m a b divX) rfl rfl fun _ => rfl
  case fsqrt =>
    exact completesLater_gLater (d := asG d) (v := fun s p => word (fsqrtOf f m (drawFor s p 0) (fBits s p f a))) rfl rfl fun _ => rfl

/-- Settles O9: the values are the forms' own; the reductions are priced. -/
theorem reductionResults : Obligations.ReductionResults := by
  intro gd d a b f c n dt st m2 e w m
  refine ⟨?vsum, ?vdot, ?cvt, ?xget⟩
  case vsum => exact completesG_priced rfl rfl fun _ => rfl
  case vdot => exact completesG_priced rfl rfl fun _ => rfl
  all_goals exact completesG_gForm rfl rfl fun _ => rfl

/-- Settles O11: the seven forms by their shape, the results by the cases of `specResult`, R272's table row by row. -/
theorem specialFunctionsLandLater : Obligations.SpecialFunctionsLandLater := by
  intro gd d a f price result
  refine ⟨?rcp, ?rsq, ?sqrt, ?exp2, ?log2, ?sin, ?cos, fun fn x => ⟨specResult_of_narrow, specResult_of_free,
    withinBound_iff fn _ _, fun h => h ▸ specFixed_sqrt _ _⟩, rfl, rfl, rfl, rfl, rfl, fun _ _ _ => ⟨rfl, rfl, rfl⟩⟩
  all_goals exact completesLater_specForm rfl rfl fun _ => rfl

/-- Settles O12: the values are the forms' own. -/
theorem packResults : Obligations.PackResults := by
  intro gd d a b pr sc m hi ks wd n
  refine ⟨?pack, ?unpk, ?scl⟩
  all_goals exact completesZ_zForm rfl rfl fun _ => rfl

/-- Settles O6: `krd` is a G form; `kwr` acts on no register but the one that it names, and only where a lane acts. -/
theorem gangRegisterMoves : Obligations.GangRegisterMoves := by
  intro gd d a k
  refine ⟨completesG_gForm rfl rfl fun _ => rfl, fun s hr => ?_⟩
  have hplain : Plain (formKwr gd k a) (.kwr gd k a) := .of_eq rfl rfl rfl
  obtain ⟨u, hu, hrest, hexec⟩ := hplain.exec_next (gd := gd) rfl hr (.inl rfl)
  refine ⟨_, hexec, ?_⟩
  cases hl : actingLanes s gd with
  | nil =>
    refine ⟨by simp, RegsKept.mend ?_ _ _ _, .of_mem hu.mem, hu.lanes, hrest.mend _ _ _, hu.pend⟩
    exact .of_tables hu.gs hu.hs hu.ws hu.ps hu.ks hu.es hu.eflags
  | cons q r =>
    refine ⟨fun p hp => ?_, RegsKept.mend ?_ _ _ _, .of_mem hu.mem, hu.lanes.after rfl, .mend ?_ _ _ _, hu.pend⟩
    · obtain rfl : q = p := by simpa using hp
      exact (rdK_wrK u _ k.isLt k.isLt).trans (if_pos ⟨rfl, rfl⟩)
    · refine RegsKept.congr (s' := u) ⟨fun _ _ _ _ => rfl, fun _ _ _ _ => rfl, fun _ _ _ _ => rfl, fun _ _ _ _ => rfl,
        fun l n hn hx => ?_, fun _ _ _ _ => ⟨rfl, rfl⟩⟩ hu.gs hu.hs hu.ws hu.ps hu.ks hu.es hu.eflags
      refine (rdK_wrK u _ k.isLt hn).trans (if_neg ?_)
      rintro ⟨rfl, rfl⟩
      exact hx ⟨by simp, rfl⟩
    · exact hrest.after rfl rfl rfl rfl rfl rfl rfl rfl (fun _ h => h) rfl rfl

end Sys2Proof.Machine
end

section
/-!
PROOFS. The memory forms (R317 to R336): each is a `memForm` that names the accesses of its obligation, so `completesMem_of` gives its
completion.
-/
namespace Sys2Proof.Machine

open Sys2Proof

theorem size_bytes_bounds (z : Size) : 0 < z.bytes ∧ z.bytes ≤ 32 := by cases z <;> decide

/-- A form whose acting lanes all read. -/
theorem completesMem_read {i : Instr} {gd : Guard} {f : MemSpec} {sh : Shape} {accs : State → Nat → List (Ask × HomeOp)}
    {home all acq dev : Bool} (run : ∀ s, exec i s = Machine.run gd (memForm i f) s) (hall : waitsForAll i = all)
    (who : f.who = fun _ l => l) (haccs : ∀ s p, accs s p = (f.accs s p).map fun a => (a.ask, a.op)) (hsh : f.shape = fun _ _ => sh)
    (hread : f.isRead = true) (hhome : home = !f.relaxed) (hacq : acq = f.acq.isSome) (hdev : dev = f.dev)
    (hop : ∀ s p, ∀ a ∈ accs s p, ∃ n, a.2 = .read n ∧ 0 < n ∧ n ≤ 32) :
    CompletesMem i gd (readUse gd sh accs home all acq dev) :=
  completesMem_of {
    run := run, all := hall
    who := fun s => by rw [who]; rfl
    sub := fun _ _ h => h
    accs := haccs
    shape := fun s p => by rw [hsh]; rfl
    reads := hread.symm, home := hhome, acq := hacq, dev := hdev
    size := fun s p a ha => by
      obtain ⟨n, hn, h0, h32⟩ := hop s p a ha
      rw [hn]
      exact ⟨h0, fun _ => ⟨h32, fun _ _ _ _ => HomeOp.noConfusion, fun _ => ⟨n, rfl⟩⟩⟩ }

/-- A form whose acting lanes all write. -/
theorem completesMem_write {i : Instr} {gd : Guard} {f : MemSpec} {accs : State → Nat → List (Ask × HomeOp)}
    {home all dev : Bool} (run : ∀ s, exec i s = Machine.run gd (memForm i f) s) (hall : waitsForAll i = all)
    (who : f.who = fun _ l => l) (haccs : ∀ s p, accs s p = (f.accs s p).map fun a => (a.ask, a.op))
    (hsh : f.shape = fun _ _ => .none) (hread : f.isRead = false) (hhome : home = !f.relaxed) (hacq : f.acq = none) (hdev : dev = f.dev)
    (hop : ∀ s p, ∀ a ∈ accs s p, ∃ n v, a.2 = .write n v ∧ 0 < n ∧ n ≤ 32) :
    CompletesMem i gd (writeUse gd accs home all dev) :=
  completesMem_of {
    run := run, all := hall
    who := fun s => by rw [who]; rfl
    sub := fun _ _ h => h
    accs := haccs
    shape := fun s p => by rw [hsh]; rfl
    reads := hread.symm, home := hhome, acq := by rw [hacq]; rfl, dev := hdev
    size := fun s p a ha => by
      obtain ⟨n, v, hn, h0, h32⟩ := hop s p a ha
      rw [hn]
      exact ⟨h0, fun _ => ⟨h32, fun _ _ _ _ => HomeOp.noConfusion, fun h => nomatch h⟩⟩ }

/-- A load of the acting lanes, near or acquiring or of the device. -/
theorem completesMem_load {i : Instr} {gd : Guard} {sh : Shape} {ask : State → Nat → Ask} {n : Nat} {o : Option Scope}
    {home all dev atHome : Bool} (hn : 0 < n ∧ n ≤ 32)
    (run : ∀ s, exec i s = Machine.run gd (memForm i {
      accs := fun s p => [{ ask := ask s p, op := .read n }], shape := fun _ _ => sh, isRead := true, acq := o, atHome := atHome, dev := dev }) s)
    (hall : waitsForAll i = all) (hhome : home = (atHome || o.any wide)) :
    CompletesMem i gd (readUse gd sh (fun s p => [(ask s p, .read n)]) home all o.isSome dev) := by
  refine completesMem_read run hall rfl (fun _ _ => rfl) rfl rfl ?_ rfl rfl fun s p a ha => ?_
  · cases o <;> simp [MemSpec.relaxed, hhome]
  · rw [List.mem_singleton.1 ha]
    exact ⟨n, rfl, hn⟩

/-- A store of the acting lanes, near or releasing or of the device. -/
theorem completesMem_store {i : Instr} {gd : Guard} {ask : State → Nat → Ask} {n : Nat} {v : State → Nat → Nat} {o : Option Scope}
    {home all dev atHome : Bool} (hn : 0 < n ∧ n ≤ 32)
    (run : ∀ s, exec i s = Machine.run gd (memForm i {
      accs := fun s p => [{ ask := ask s p, op := .write n (v s p) }], access := 3, rel := o, atHome := atHome, dev := dev }) s)
    (hall : waitsForAll i = all) (hhome : home = (atHome || o.any wide)) :
    CompletesMem i gd (writeUse gd (fun s p => [(ask s p, .write n (v s p))]) home all dev) := by
  refine completesMem_write run hall rfl (fun _ _ => rfl) rfl rfl ?_ rfl rfl fun s p a ha => ?_
  · cases o <;> simp [MemSpec.relaxed, hhome]
  · rw [List.mem_singleton.1 ha]
    exact ⟨n, v s p, rfl, hn⟩

/-- A uniform load (R329). -/
theorem completesMem_uniform {i : Instr} {gd : Guard} {k : Fin 16} {va : State → Nat → Word} {o : Option Scope} {home : Bool}
    (run : ∀ s, exec i s = Machine.run gd (memForm i { ldkSpec k va with acq := o }) s) (hall : waitsForAll i = false)
    (hhome : home = o.any wide) : CompletesMem i gd (uniformUse gd k va home o.isSome) :=
  completesMem_of {
    run := run, all := hall
    who := fun s => by
      show (if (actingLanes s gd).isEmpty then [] else [lowestOf s (actingLanes s gd)]) = (actingLanes s gd).take 1
      cases actingLanes s gd <;> rfl
    sub := fun _ _ h => List.mem_of_mem_take h
    accs := fun _ _ => rfl, shape := fun _ _ => rfl, reads := rfl
    home := by cases o <;> simp [MemSpec.relaxed, ldkSpec, uniformUse, hhome]
    acq := rfl, dev := rfl
    size := fun s p a ha => by
      obtain rfl := List.mem_singleton.1 ha
      exact ⟨show 0 < 8 by decide, fun _ => ⟨show 8 ≤ 32 by decide, fun _ _ _ _ => HomeOp.noConfusion, fun _ => ⟨8, rfl⟩⟩⟩ }

/-- Settles O25. -/
theorem loadsReadMemory : Obligations.LoadsReadMemory := by
  intro gd d a w k sgn off o6 z near wide
  exact ⟨completesMem_load (o := none) (atHome := false) (size_bytes_bounds z) (fun _ => rfl) rfl rfl,
    completesMem_load (o := none) (atHome := false) (size_bytes_bounds z) (fun _ => rfl) rfl rfl,
    completesMem_load (o := none) (atHome := false) (by decide) (fun _ => rfl) rfl rfl,
    completesMem_load (o := none) (atHome := false) (by decide) (fun _ => rfl) rfl rfl,
    completesMem_uniform (o := none) (fun _ => rfl) rfl rfl⟩

/-- Settles O26. -/
theorem acquiringLoadsReadTheHome : Obligations.AcquiringLoadsReadTheHome := by
  intro gd d a w k sgn sc o z
  exact ⟨completesMem_load (o := some sc) (atHome := false) (size_bytes_bounds z) (fun _ => rfl) rfl rfl,
    completesMem_load (o := some sc) (atHome := false) (size_bytes_bounds z) (fun _ => rfl) rfl rfl,
    completesMem_load (o := some sc) (atHome := false) (by decide) (fun _ => rfl) rfl rfl,
    completesMem_load (o := some sc) (atHome := false) (by decide) (fun _ => rfl) rfl rfl,
    completesMem_uniform (o := some sc) (fun _ => rfl) rfl rfl,
    completesMem_load (atHome := true) (size_bytes_bounds z) (fun _ => rfl) rfl rfl⟩

/-- Settles O28. -/
theorem releasingStoresWriteTheHome : Obligations.ReleasingStoresWriteTheHome := by
  intro gd d a b w sc o z low
  exact ⟨completesMem_store (o := some sc) (atHome := false) (size_bytes_bounds z) (fun _ => rfl) rfl rfl,
    completesMem_store (o := some sc) (atHome := false) (size_bytes_bounds z) (fun _ => rfl) rfl rfl,
    completesMem_store (o := some sc) (atHome := false) (by decide) (fun _ => rfl) rfl rfl,
    completesMem_store (o := some sc) (atHome := false) (by decide) (fun _ => rfl) rfl rfl,
    completesMem_store (o := o) (atHome := true) (size_bytes_bounds z) (fun _ => rfl) rfl rfl⟩

/-- Settles O29. -/
theorem gatherAndScatter : Obligations.GatherAndScatter := by
  intro gd ord w x a e8 z far addr
  have hz : 0 < z ∧ z ≤ 32 := by cases e8 <;> decide
  have hfar : ∀ f : MemSpec, f.atHome = false → (f.acq = ord ∧ f.rel = none ∨ f.acq = none ∧ f.rel = ord) → far = !f.relaxed := by
    rintro f h0 (⟨h1, h2⟩ | ⟨h1, h2⟩) <;> cases ord <;> simp [MemSpec.relaxed, h0, h1, h2, far]
  constructor
  · refine completesMem_read (fun _ => rfl) rfl rfl (fun s p => ?_) rfl rfl (hfar _ rfl (.inl ⟨rfl, rfl⟩)) rfl rfl fun s p c hc => ?_
    · rw [List.map_map]; rfl
    · obtain ⟨k, -, rfl⟩ := List.mem_map.1 hc
      exact ⟨z, rfl, hz⟩
  · refine completesMem_write (fun _ => rfl) rfl rfl (fun s p => ?_) rfl rfl (hfar _ rfl (.inr ⟨rfl, rfl⟩)) rfl rfl fun s p c hc => ?_
    · rw [List.map_map]; rfl
    · obtain ⟨k, -, rfl⟩ := List.mem_map.1 hc
      exact ⟨z, _, rfl, hz⟩

/-- A form that reads the image of an exact accumulator (R288). -/
theorem completesMem_xld {i : Instr} {gd : Guard} {e : Fin 2} {va : State → Nat → Word} {o : Option Scope} {home : Bool}
    (run : ∀ s, exec i s = Machine.run gd (memForm i { xldSpec e va with acq := o }) s) (hall : waitsForAll i = false)
    (hhome : home = o.any wide) :
    CompletesMem i gd (readUse gd (.e e.val) (fun s p => (List.range 6).map fun i =>
      ({ va := va s p + word (8 * i), n := 8, al := 8, kind := .load }, .read 8)) home false o.isSome) := by
  refine completesMem_read run hall rfl (fun s p => ?_) rfl rfl ?_ rfl rfl fun s p c hc => ?_
  · rfl
  · cases o <;> simp [MemSpec.relaxed, xldSpec, hhome]
  · obtain ⟨k, -, rfl⟩ := List.mem_map.1 hc
    exact ⟨8, rfl, by decide⟩

/-- A form that writes the image of an exact accumulator (R288). -/
theorem completesMem_xst {i : Instr} {gd : Guard} {e : Fin 2} {va : State → Nat → Word} {o : Option Scope} {home all : Bool}
    (run : ∀ s, exec i s = Machine.run gd (memForm i { xstSpec e va with rel := o }) s) (hall : waitsForAll i = all)
    (hhome : home = o.any wide) :
    CompletesMem i gd (writeUse gd (fun s p => (List.range 6).map fun i =>
      ({ va := va s p + word (8 * i), n := 8, al := 8, kind := .store },
        .write 8 (if i < 5 then (rdE s p e.val).toNat / 2 ^ (64 * i) % 2 ^ 64 else (rdEf s p e.val).toNat))) home all) := by
  refine completesMem_write run hall rfl (fun s p => ?_) rfl rfl ?_ rfl rfl fun s p c hc => ?_
  · rfl
  · cases o <;> simp [MemSpec.relaxed, xstSpec, hhome]
  · obtain ⟨k, -, rfl⟩ := List.mem_map.1 hc
    exact ⟨8, _, rfl, by decide⟩

/-- Settles O30. -/
theorem accumulatorImages : Obligations.AccumulatorImages := by
  intro gd e a off sc base loads stores
  exact ⟨completesMem_xld (o := none) (fun _ => rfl) rfl rfl, completesMem_xld (o := some sc) (fun _ => rfl) rfl rfl,
    completesMem_xst (o := none) (fun _ => rfl) rfl rfl, completesMem_xst (o := some sc) (fun _ => rfl) rfl rfl⟩

/-- An atomic of the acting lanes (R330). -/
theorem completesMem_atomic {i : Instr} {gd : Guard} {a : GReg} {al : Nat} {sh : State → Nat → Shape} {op : State → Nat → HomeOp}
    {o : AOrd} (run : ∀ s, exec i s = Machine.run gd (memForm i { amoSpec o a al op .none with shape := sh }) s)
    (hall : waitsForAll i = AOrd.rel? o) (hop : ∀ s p, 0 < opBytes (op s p)) : CompletesMem i gd (atomicUse gd a al sh op o) :=
  completesMem_of {
    run := run
    all := by rw [hall]; cases o <;> rfl
    who := fun _ => rfl, sub := fun _ _ h => h, accs := fun _ _ => rfl, shape := fun _ _ => rfl, reads := rfl, home := rfl
    acq := rfl, dev := rfl
    size := fun s p c hc => by
      obtain rfl := List.mem_singleton.1 hc
      exact ⟨hop s p, fun h => nomatch h⟩ }

theorem amoBytes_pos (o : AmoOp) (w64 : Bool) : 0 < amoBytes o w64 := by cases o <;> cases w64 <;> decide

theorem completesMem_amo {i : Instr} {gd : Guard} {a : GReg} {al : Nat} {sh : Shape} {op : AmoOp} {w64 : Bool} {x y : State → Nat → Nat}
    {o : AOrd} (run : ∀ s, exec i s = Machine.run gd (memForm i (amoSpec o a al (fun s p => .amo op w64 (x s p) (y s p)) sh)) s)
    (hall : waitsForAll i = AOrd.rel? o) :
    CompletesMem i gd (atomicUse gd a al (fun _ _ => sh) (fun s p => .amo op w64 (x s p) (y s p)) o) :=
  completesMem_atomic run hall fun _ _ => amoBytes_pos op w64

/-- Settles O31. -/
theorem atomicsCombine : Obligations.AtomicsCombine := by
  intro gd d a w64 o n use
  refine ⟨completesMem_amo (fun _ => rfl) rfl, completesMem_amo (fun _ => rfl) rfl, completesMem_amo (fun _ => rfl) rfl,
    completesMem_amo (fun _ => rfl) rfl, completesMem_amo (fun _ => rfl) rfl, completesMem_amo (fun _ => rfl) rfl,
    completesMem_amo (fun _ => rfl) rfl, completesMem_amo (fun _ => rfl) rfl, completesMem_amo (fun _ => rfl) rfl,
    completesMem_amo (fun _ => rfl) rfl, fun old x y => ?_⟩
  refine ⟨rfl, rfl, rfl, rfl, rfl, ?_, rfl, ?_, rfl, ?_⟩
  · exact congrArg some (Nat.min_def).symm
  · exact congrArg some (Nat.max_def).symm
  · simp [amoNew, pminLe]

/-- Settles O32. -/
theorem compareAndSwap : Obligations.CompareAndSwap := by
  intro gd d a w64 o n r
  refine ⟨completesMem_amo (fun _ => rfl) rfl, ?_, fun old x y => ⟨rfl, rfl⟩⟩
  refine completesMem_amo (fun s => ?_) rfl
  show Machine.run gd (formCas2 gd d a o) s = _
  have hnum : d.num + 2 + 1 = d.num + 3 := by omega
  simp [formCas2, pair16, hnum, r]

/-- Settles O33. -/
theorem floatAtomicsAdd : Obligations.FloatAtomicsAdd := by
  intro gd d a o amox
  have hpos : ∀ (f : FTy) (op : AmoOp) (s : State) (p : Nat),
      0 < opBytes (if amoxStatus (scalarF f (rdReg s p d)) = 0 then
        HomeOp.amo op false (quantVal (scalarF f (rdReg s p d)) % (2 ^ 320 : Nat)).toNat (rdReg s p d).toNat else .read 40) := by
    intro f op s p
    split
    · exact amoBytes_pos op false
    · decide
  exact ⟨completesMem_amo (fun _ => rfl) rfl, completesMem_amo (fun _ => rfl) rfl,
    completesMem_atomic (fun _ => rfl) rfl (hpos .f32 .xF32), completesMem_atomic (fun _ => rfl) rfl (hpos .f64 .xF64),
    fun old x y => ⟨rfl, rfl, rfl, rfl⟩⟩

end Sys2Proof.Machine
end

section
/-!
PROOFS. The statements of tier 1: what registers hold, the words of the spec, what a step runs, and what a reset leaves.
-/
namespace Sys2Proof

/-! ### An encoded word is a lone word: its bit 31 is zero -/

theorem packWord_lt {r : Raw} (hp : r.p = 0) (hk : r.k < 2) (hm : r.major < 64) (hgn : r.gn < 2) (hgp : r.gp < 8)
    (hd : r.d < 64) (h1 : r.s1 < 64) (h2 : r.s2 < 64) (hmin : r.min < 4) : packWord r < 2 ^ 31 := by
  simp only [packWord]; omega

/-- Two parts of a field beside one another. -/
theorem parts_lt {k c m x b : Nat} (hc : c < m) (hx : x < k) (hb : k * m ≤ b) : k * c + x < b :=
  calc k * c + x < k * c + k := by omega
    _ = k * (c + 1) := (Nat.mul_succ k c).symm
    _ ≤ k * m := Nat.mul_le_mul_left k hc
    _ ≤ b := hb

theorem aord_lt (o : AOrd) : 8 * aordCode o + aordSc o < 32 :=
  parts_lt (aordCode_lt o) (Nat.lt_of_lt_of_le (aordSc_lt o) (by decide)) (by decide)
theorem bv5_lt (x : BitVec 5) : x.toNat < 32 := x.isLt

theorem encodeRaw_head {i : Instr} {r : Raw} (h : encodeRaw i = some r) :
    r.p = 0 ∧ r.k < 2 ∧ r.major < 64 ∧ r.gn < 2 ∧ r.gp < 8 := by
  cases i <;> cases h <;> refine ⟨rfl, Nat.le_of_ble_eq_true rfl, ?_, bCode_lt _, Fin.isLt _⟩ <;>
    first
    | exact Nat.le_of_ble_eq_true rfl
    | dsimp only; omega
theorem encodeRaw_min {i : Instr} {r : Raw} (h : encodeRaw i = some r) : r.min < 4 := by
  cases i <;> cases h <;>
  first
  | exact Nat.le_of_ble_eq_true rfl
  | exact intTyCode_lt _
  | exact Nat.mod_lt _ (by decide)
  | grind [fTyCode_lt, sizeCode_lt, bCode_lt, permCode_lt, oscCode_lt, xsrcSel_lt]
theorem encodeRaw_d {i : Instr} {r : Raw} (h : encodeRaw i = some r) : r.d < 64 := by
  cases i <;> cases h <;>
  first
  | exact Nat.le_of_ble_eq_true rfl
  | exact gCode_lt _
  | exact Nat.lt_of_lt_of_le (Fin.isLt _) (by decide)
  | exact Nat.lt_of_lt_of_le (BitVec.isLt _) (by decide)
  | exact parts_lt (fTyCode_lt _) (Fin.isLt _) (by decide)
  | exact parts_lt (oscOn_lt _) (Fin.isLt _) (by decide)
  | exact Nat.div_lt_of_lt_mul (BitVec.isLt _)
  | dsimp only
    grind [rmCode_lt, rm2Code_lt, bCode_lt, ccCode_lt, iccCode_lt, scopeCode_lt, oscCode_lt, oscOn_lt, fmtCode_lt, tyCodeNum_lt, xsrcSel_lt, qCode_lt]
theorem encodeRaw_s1 {i : Instr} {r : Raw} (h : encodeRaw i = some r) : r.s1 < 64 := by
  cases i <;> cases h <;>
  first
  | exact Nat.le_of_ble_eq_true rfl
  | exact gCode_lt _
  | exact Nat.lt_of_lt_of_le (Fin.isLt _) (by decide)
  | exact Nat.mod_lt _ (by decide)
  | exact Nat.div_lt_of_lt_mul (Nat.lt_of_lt_of_le (BitVec.isLt _) (by decide))
  | exact xsrcS1_lt _
  | exact parts_lt (Nat.mod_lt _ (by decide)) (Nat.lt_of_lt_of_le (Fin.isLt _) (by decide)) (by decide)
  | dsimp only
    grind [oscCode_lt, qCode_lt, rmCode_lt, ccCode_lt]
theorem encodeRaw_s2 {i : Instr} {r : Raw} (h : encodeRaw i = some r) : r.s2 < 64 := by
  cases i <;> cases h <;>
  first
  | exact Nat.le_of_ble_eq_true rfl
  | exact gCode_lt _
  | exact Nat.lt_of_lt_of_le (Fin.isLt _) (by decide)
  | exact Nat.lt_of_lt_of_le (BitVec.isLt _) (by decide)
  | exact Nat.mod_lt _ (by decide)
  | exact parts_lt (Nat.mod_lt _ (by decide)) (Nat.lt_of_lt_of_le (Fin.isLt _) (by decide)) (by decide)
  | exact Nat.lt_of_lt_of_le (aord_lt _) (by decide)
  | exact Nat.add_assoc _ _ _ ▸ parts_lt (bCode_lt _) (aord_lt _) (by decide)
  | dsimp only
    grind [oscCode_lt, oscOn_lt, qCode_lt, rmCode_lt, scopeCode_lt, bCode_lt, fmtCode_lt, aordCode_lt, aordSc_lt, bv5_lt, ccCode_lt]

theorem encode_lt {i : Instr} {w : Nat} (h : encode i = some w) : w < 2 ^ 31 := by
  obtain ⟨r, hr, rfl⟩ := Option.map_eq_some_iff.1 h
  obtain ⟨hp, hk, hm, hgn, hgp⟩ := encodeRaw_head hr
  exact packWord_lt hp hk hm hgn hgp (encodeRaw_d hr) (encodeRaw_s1 hr) (encodeRaw_s2 hr) (encodeRaw_min hr)

end Sys2Proof

namespace Sys2Proof.Machine

open Sys2Proof

/-- Settles O53. -/
theorem registersHoldValues : Obligations.RegistersHoldValues := by
  intro s p n q m v b
  refine ⟨rfl, rfl, rfl, rfl, fun h0 hn hm => ⟨?_, rdH_wrH s v hn hm⟩, fun h0 hn hm => ?_, fun hn hm => ⟨rfl, ?_⟩⟩
  · rw [rdG_wrG s v hn hm, if_neg (Nat.ne_of_gt h0)]
  · rw [rdP_wrP s b hn hm, if_neg (Nat.ne_of_gt h0)]
  · unfold wrG; split <;> rfl

/-- Settles O57: the decoder evaluated on each word. -/
theorem specWords : Obligations.SpecWords := by
  unfold Obligations.SpecWords
  decide +kernel

/-! ### What a step runs -/

theorem decodeBundle_encode {i : Instr} {w w1 : Nat} (odd : Bool) (hi : wellFormed i = true) (h : encode i = some w) :
    decodeBundle odd w w1 = .lone w i := by
  have h31 : w / 2147483648 % 2 = 0 := by have := encode_lt h; omega
  unfold decodeBundle
  rw [if_pos h31, Laws.RoundTrip.decodeOfEncode i hi w h]

theorem step_event {s : State} {e : Instr} {r : List Instr} (h : s.agenda = e :: r) :
    step s = if wellFormed e then exec e (s.setAgenda r) else .next (s.setAgenda r) := by
  simp only [step, stepIn, h, List.isEmpty_cons, Bool.false_and, Bool.false_eq_true, if_false]

theorem step_fill {s : State} (h : s.agenda = []) (hf : s.filled = false) : step s = .next (fillQueue exec s) := by
  simp [step, h, hf]

theorem step_tick {s : State} (h : s.agenda = []) (hf : s.filled = true) (hq : s.queue = []) : step s = .next (tick s) := by
  simp [step, stepIn, h, hf, hq]

theorem step_issue {s : State} {q : Nat} {rest : List Nat} (h : s.agenda = []) (hf : s.filled = true) (hq : s.queue = q :: rest) :
    step s = issue exec s q rest := by
  simp [step, stepIn, h, hf, hq]

/-- Lanes that stand together without an error mark fetch and run their bundle. -/
theorem issueUnit_together {run1 : Instr → State → Host.Outcome State Fault Refusal} {s : State} {q : Nat} {ls : List Nat}
    (h : ∀ x ∈ ls, (s.str x).pc = (s.str q).pc ∧ (s.str x).mark = none) :
    issueUnit run1 s q ls = issueBundle run1 (s.setCur (curOf s ls)) := by
  have hpc : ls.all (fun x => decide ((s.str x).pc = (s.str q).pc)) = true := by
    simpa using fun x hx => (h x hx).1
  have hmark : ls.filter (fun x => ((s.setCur (curOf s ls)).str x).mark.isSome) = [] := by
    rw [List.filter_eq_nil_iff]
    intro x hx
    exact fun e => Bool.false_ne_true ((congrArg Option.isSome (h x hx).2).symm.trans e)
  have htake : takeMark (s.setCur (curOf s ls)) = none := by
    unfold takeMark
    rw [show (s.setCur (curOf s ls)).cur.lanes = ls from rfl, hmark]
  simp only [issueUnit, divideMoved, hpc, if_true, htake]

/-- Settles O58. -/
theorem stepRunsDecoded : Obligations.StepRunsDecoded := by
  intro s q rest ls w0 w1 u slot
  refine ⟨fun e r h => ?_, step_fill, step_tick, fun h0 hf hq => ⟨fun hnone hlate => ?_, fun hsome hhead htog => ?_⟩, fun t v hacc hhost hpeek => ?_⟩
  · rw [step_event h]
    exact ⟨fun hw => if_pos hw, fun hw => if_neg (by simp [hw])⟩
  · rw [step_issue h0 hf hq, issue]
    simp only [hnone, if_neg hlate]
  · have hu : (s.setQueue rest).setCur (curOf (s.setQueue rest) ls) = u := by
      simp only [curOf, hhead]; rfl
    have hstep : step s = issueBundle exec u := by
      rw [step_issue h0 hf hq, issue]
      simp only [hsome]
      exact (issueUnit_together (s := s.setQueue rest) htog).trans (congrArg _ hu)
    have hslot : u.cur.ba.getLsbD 2 = slot := rfl
    have hlone : fetch u = .words w0 w1 → noteFor u = false → ∀ w i, decodeBundle slot w0 w1 = .lone w i →
        step s = exec i (u.setCur { u.cur with word := BitVec.ofNat 32 w }) := by
      intro hfetch hnote w i hd
      simp only [hstep, issueBundle, hfetch, hslot, hd, hnote, Bool.false_eq_true, if_false]
    refine ⟨fun hfetch hnote => ⟨hlone hfetch hnote, fun i hi hw => hlone hfetch hnote _ _ (decodeBundle_encode slot hi hw), ?_, ?_⟩, ?_, ?_⟩
    · intro wc wa c a hd
      simp only [hstep, issueBundle, hfetch, hslot, hd, hnote, Bool.false_eq_true, if_false]
      rfl
    · intro code w n hd
      simp only [hstep, issueBundle, hfetch, hslot, hd, hnote, Bool.false_eq_true, if_false]
    · intro i hfetch hnote
      simp only [hstep, issueBundle, hfetch, hnote, Bool.false_eq_true, if_false]
    · intro r ws walks fars hfetch
      simp only [hstep, issueBundle, hfetch]
  · have hup : (isHost t && !u.pkg.hostUp) = false := by
      cases ht : isHost t
      · rfl
      · simp [show u.pkg.hostUp = true from hhost ht]
    simp only [fetch, hacc, hup, hpeek, Bool.false_eq_true, if_false]

/-! ### What a reset leaves -/

theorem tfind_trange {α : Type} (lo hi : Nat) (t : Tab α) (k : Nat) :
    tfind (trange lo hi t) k = if lo ≤ k ∧ k < hi then tfind t k else none := by
  induction t with
  | nil => simp [trange, tfind]
  | cons x r ih =>
    obtain ⟨j, v⟩ := x
    unfold trange
    grind [tfind]

theorem tget_trange {α : Type} (d : α) (lo hi : Nat) (t : Tab α) (k : Nat) :
    tget d (trange lo hi t) k = if lo ≤ k ∧ k < hi then tget d t k else d := by
  induction t with
  | nil => simp [trange, tget]
  | cons x r ih =>
    obtain ⟨j, v⟩ := x
    unfold trange
    grind [tget]

theorem mem_trange {α : Type} {lo hi : Nat} {t : Tab α} {x : Nat × α} (h : x ∈ trange lo hi t) : x ∈ t := by
  induction t with
  | nil => exact h
  | cons y r ih =>
    obtain ⟨j, v⟩ := y
    simp only [trange] at h
    split at h
    · exact (List.mem_cons.1 h).elim (fun e => e ▸ List.mem_cons_self) fun h => List.mem_cons_of_mem _ (ih h)
    · exact List.mem_cons_of_mem _ (ih h)

theorem tsorted_trange {α : Type} {t : Tab α} (h : tsorted t = true) (lo hi : Nat) : tsorted (trange lo hi t) = true := by
  induction t with
  | nil => rfl
  | cons y r ih =>
    obtain ⟨j, w⟩ := y
    obtain ⟨h1, h2⟩ := (tsorted_cons (j, w) r).1 h
    simp only [trange]
    split
    · exact (tsorted_cons _ _).2 ⟨fun z hz => h1 z (mem_trange hz), ih h2⟩
    · exact ih h2

theorem memWf_trange {m : List Host.Cell} (h : memWf m = true) (lo hi : Nat) : memWf (trange lo hi m) = true := by
  rw [memWf_iff] at h ⊢
  exact ⟨tsorted_trange h.1 lo hi, fun c hc => h.2 c (mem_trange hc)⟩

/-- Settles O59: of the device nothing stands but the defaults of its tables; the host's memory is what lies between its bounds. -/
theorem resetState : Obligations.ResetState := by
  unfold Obligations.ResetState
  intro device clean
  have hreset : clean State.reset := by
    refine ⟨fun _ _ => rfl, fun _ _ => rfl, rfl, rfl, fun c => ⟨rfl, rfl, rfl, rfl, rfl, rfl, rfl, ?_⟩, fun d => ⟨rfl, rfl, rfl, fun _ => rfl⟩,
      fun p => ⟨rfl, rfl⟩, ⟨rfl, rfl, rfl, rfl, rfl, rfl, rfl, rfl, rfl, rfl, rfl⟩, rfl, rfl, rfl, rfl, rfl, rfl, rfl, rfl⟩
    exact (Nat.zero_add _).trans (Nat.zero_div _)
  refine ⟨hreset, rfl, rfl, fun s => ⟨resetAll s, rfl, ?_, fun h => memWf_trange h _ _, rfl, fun a h1 h2 => ?_⟩⟩
  · obtain ⟨-, -, hbad, hcopies, hcells, hdies, hstr, hpkg, hwork⟩ := hreset
    refine ⟨fun a ha => ?_, fun a ha => ?_, hbad, hcopies, hcells, hdies, hstr, hpkg, hwork⟩
    · exact (tget_trange _ _ _ _ _).trans (if_neg (by simp only [device] at ha; omega))
    · refine (tfind_trange _ _ _ _).trans (if_neg ?_)
      simp only [device, locHost, locScr] at ha ⊢
      omega
  · exact (tget_trange _ _ _ _ _).trans (if_pos ⟨h1, h2⟩)

end Sys2Proof.Machine
end

section
/-!
PROOFS. Reads of rejoin sets and moves over the Alley (R82, R209, R210), with what the later proofs share: a word without a price
issues, registers kept by one act after another, and what the issue of the lanes leaves of every table.
-/
namespace Sys2Proof.Machine

open Sys2Proof

/-! ### Words without a price -/

/-- Issuing changes strands and blocks alone. -/
theorem advance_field {β : Type} (obs : State → β) (h : ∀ u v b, obs ((State.setStrands u v).setBlocks b) = obs u) (s : State) :
    obs (advance s) = obs s := by
  obtain ⟨v, b, e⟩ := advance_eq s
  rw [e, h]

theorem lanesIssue_advance (s : State) : LanesIssue s (advance s) := fun p => str_advance s p

theorem exec_unpriced {i : Instr} {gd : Guard} {f : Form} {s : State} (he : exec i s = run gd f s) (hi : f.instr = i)
    (hc : Clear s { form := f, gd := gd }) (hp : f.price s (actingLanes s gd) = 0) :
    exec i s = .next (mendWord s (actingLanes s gd) i (f.act s (advance s) (actingLanes s gd))) := by
  rw [he, run_clear hc, payBundle_free hp, hi]

/-! ### Registers kept -/

theorem RegsKept.trans {s t u : State} {hit : RegId → Prop} (h : RegsKept s t hit) (k : RegsKept t u hit) : RegsKept s u hit where
  g p n hn hx := (k.g p n hn hx).trans (h.g p n hn hx)
  h p n hn hx := (k.h p n hn hx).trans (h.h p n hn hx)
  w p n hn hx := (k.w p n hn hx).trans (h.w p n hn hx)
  p p n hn hx := (k.p p n hn hx).trans (h.p p n hn hx)
  k p n hn hx := (k.k p n hn hx).trans (h.k p n hn hx)
  e p n hn hx := ⟨(k.e p n hn hx).1.trans (h.e p n hn hx).1, (k.e p n hn hx).2.trans (h.e p n hn hx).2⟩

theorem RegsKept.mono {s t : State} {hit hit' : RegId → Prop} (h : RegsKept s t hit) (hm : ∀ r, hit r → hit' r) : RegsKept s t hit' where
  g p n hn hx := h.g p n hn fun k => hx (hm _ k)
  h p n hn hx := h.h p n hn fun k => hx (hm _ k)
  w p n hn hx := h.w p n hn fun k => hx (hm _ k)
  p p n hn hx := h.p p n hn fun k => hx (hm _ k)
  k p n hn hx := h.k p n hn fun k => hx (hm _ k)
  e p n hn hx := h.e p n hn fun k => hx (hm _ k)

theorem RegsKept.of_noReg {s t : State} {hit : RegId → Prop} (h : RegsKept s t noReg) : RegsKept s t hit :=
  h.mono fun _ => False.elim

theorem RegsKept.foldl {hit : RegId → Prop} {f : State → Nat → State} {ls : List Nat} (h : ∀ u, ∀ q ∈ ls, RegsKept u (f u q) hit)
    (s : State) : RegsKept s (ls.foldl f s) hit := by
  induction ls generalizing s with
  | nil => exact (RegsKept.refl s).of_noReg
  | cons q r ih => exact (h s q List.mem_cons_self).trans (ih (fun u x hx => h u x (List.mem_cons_of_mem _ hx)) (f s q))

theorem regsKept_wrReg (s : State) (p : Nat) (d : GReg) (v : Word) : RegsKept s (wrReg s p d v) (fun r => r = gId p d) :=
  (wrRegs_kept s d (fun _ => v) [p]).mono fun _ ⟨_, hq, hr⟩ => hr.trans (congrArg (gId · d) (List.mem_singleton.1 hq))

theorem regsKept_advance (s : State) : RegsKept s (advance s) noReg := by
  obtain ⟨v, b, e⟩ := advance_eq s
  rw [e]
  exact RegsKept.of_tables rfl rfl rfl rfl rfl rfl rfl

/-! ### Sets read (R82, R84, R248) -/

/-- A form without checks whose value is decided once it has issued completes as one that writes a predicate. -/
theorem completesP_issued {i : Instr} {gd : Guard} {n : Fin 8} {v : State → Nat → Bool} (f : Form)
    (he : ∀ s, exec i s = run gd f s) (hf : Plain f i)
    (ha : ∀ s u, Issues true s u → f.act s u (actingLanes s gd) = (actingLanes s gd).foldl (fun t p => wrP t p n.val (v s p)) u)
    (hp : ∀ s l, f.price s l = 0) : CompletesP i gd n v := by
  intro s hr
  obtain ⟨u, hu, hrest, hx⟩ := hf.exec_next (he s) hr (Or.inl (by rw [hp]; rfl))
  obtain ⟨a, h'⟩ := foldl_wrP_eq n.val (v s) (actingLanes s gd) u
  rw [ha s u hu] at hx
  refine ⟨_, hx, fun p hp' => wrPs_value u n (v s) _ p hp', RegsKept.mend ?_ _ _ _, BytesKept.of_mem ?_, ?_, RestKept.mend ?_ _ _ _, ?_⟩
  · exact (wrPs_kept u n (v s) _).congr hu.gs hu.hs hu.ws hu.ps hu.ks hu.es hu.eflags
  · exact (congrArg State.mem h').trans hu.mem
  · exact hu.lanes.after (congrArg State.strands h' :)
  · rw [h']
    exact hrest.after rfl rfl rfl rfl rfl rfl rfl rfl (fun _ h => h) rfl rfl
  · exact (congrArg State.pend h').trans hu.pend

/-- The same of one that writes a G register. -/
theorem completesG_issued {i : Instr} {gd : Guard} {d : GReg} {v : State → Nat → Word} (f : Form)
    (he : ∀ s, exec i s = run gd f s) (hf : Plain f i)
    (ha : ∀ s u, Issues true s u → f.act s u (actingLanes s gd) = (actingLanes s gd).foldl (fun t p => wrReg t p d (v s p)) u)
    (hp : ∀ s l, f.price s l = 0) : CompletesG i gd d (fun _ => 0) v := by
  intro s hr _
  obtain ⟨u, hu, hrest, hx⟩ := hf.exec_next (he s) hr (Or.inl (by rw [hp]; rfl))
  obtain ⟨a, b, h'⟩ := foldl_wrReg_eq d (v s) (actingLanes s gd) u
  rw [ha s u hu] at hx
  refine ⟨_, hx, fun p hp' hs => wrRegs_value u d (v s) _ p hp' hs, RegsKept.mend ?_ _ _ _, BytesKept.of_mem ?_, ?_, RestKept.mend ?_ _ _ _, ?_⟩
  · exact (wrRegs_kept u d (v s) _).congr hu.gs hu.hs hu.ws hu.ps hu.ks hu.es hu.eflags
  · exact (congrArg State.mem h').trans hu.mem
  · exact hu.lanes.after (congrArg State.strands h' :)
  · rw [h']
    exact hrest.after rfl rfl rfl rfl rfl rfl rfl rfl (fun _ h => h) rfl rfl
  · exact (congrArg State.pend h').trans hu.pend

theorem Issues.rdJ {b : Bool} {s u : State} (h : Issues b s u) (l n : Nat) : Machine.rdJ u l n = Machine.rdJ s l n := by
  unfold Machine.rdJ
  rw [h.js]

/-- Settles O19. -/
theorem setReads : Obligations.SetReads := by
  intro gd p j d
  constructor
  · exact completesP_issued (formJtest gd p j) (fun _ => rfl) (Plain.of_eq rfl rfl rfl)
      (fun s u hu => by simp only [formJtest, hu.rdJ, required]) fun _ _ => rfl
  · exact completesG_issued (formJread gd d j) (fun _ => rfl) (Plain.of_eq rfl rfl rfl)
      (fun s u hu => by simp only [formJread, hu.rdJ, setView]) fun _ _ => rfl

/-! ### The Alley (R209, R210) -/

theorem tfind_alleyOld_noteLink (s : State) (k k' : Nat) : tfind (noteLink s k).alleyOld k' =
    if k' = k ∧ tfind s.alleyOld k = none then some (tfind s.alley k) else tfind s.alleyOld k' := by
  unfold noteLink
  cases h : tfind s.alleyOld k with
  | some v => simp
  | none =>
    by_cases hk : k' = k
    · subst hk; simp
    · simp [hk, tfind_tset_ne]

/-- A pop changes the link that it names alone. -/
theorem popLink_ne {s : State} {k k' : Nat} (h : k' ≠ k) :
    tfind (popLink s k).alley k' = tfind s.alley k' ∧ tfind (popLink s k).alleyOld k' = tfind s.alleyOld k' := by
  have hold := tfind_alleyOld_noteLink (s.setForeseen (s.foreseen.filter (· ≠ k))) k k'
  unfold popLink
  split
  · exact ⟨rfl, rfl⟩
  · refine ⟨tfind_tdel_ne _ h, ?_⟩
    simpa [h] using hold

/-- A pop of a link that was full at the end of the previous cycle empties it, unless a sender has pushed onto it since. -/
theorem popLink_self {s : State} {k : Nat} (h : (linkBefore s k).isSome = true) :
    tfind (popLink s k).alley k = (if tfind s.alleyOld k = none then none else tfind s.alley k) ∧
      (∃ w, tfind (popLink s k).alleyOld k = some (some w)) := by
  have hold := tfind_alleyOld_noteLink (s.setForeseen (s.foreseen.filter (· ≠ k))) k k
  unfold linkBefore at h
  unfold popLink
  cases ho : tfind s.alleyOld k with
  | none =>
    rw [ho] at h
    obtain ⟨w, hw⟩ := Option.isSome_iff_exists.1 h
    exact ⟨tfind_tdel_self _ _, w, by simpa [ho, hw] using hold⟩
  | some o =>
    rw [ho] at h
    obtain ⟨w, rfl⟩ := Option.isSome_iff_exists.1 h
    exact ⟨by simp, w, by simpa using ho⟩

theorem inLink_inj {p q : Nat} {x : QDir} (h : inLink q x = inLink p x) : q = p := by
  unfold inLink at h; omega

/-- The links that a word pops, each full at the end of the previous cycle. -/
theorem popLinks_at {x : QDir} {p : Nat} {ls : List Nat} {s : State} (hp : p ∈ ls) (h : (linkBefore s (inLink p x)).isSome = true) :
    tfind (ls.foldl (fun u q => popLink u (inLink q x)) s).alley (inLink p x) =
      if tfind s.alleyOld (inLink p x) = none then none else tfind s.alley (inLink p x) := by
  induction ls generalizing s with
  | nil => simp at hp
  | cons q r ih =>
    rw [List.foldl_cons]
    by_cases hq : q = p
    · subst hq
      obtain ⟨h1, w, h2⟩ := popLink_self h
      by_cases hr : q ∈ r
      · rw [ih hr (by rw [linkBefore, h2]; rfl), h2, ← h1]; simp
      · rw [foldl_keep (fun u => tfind u.alley (inLink q x)) _ r _ fun u y hy =>
          (popLink_ne fun e => hr (by rwa [← inLink_inj e] at hy)).1]
        exact h1
    · have hne := popLink_ne (s := s) (k := inLink q x) (k' := inLink p x) fun e => hq (inLink_inj e).symm
      rw [ih ((List.mem_cons.1 hp).resolve_left (Ne.symm hq)) (by rw [linkBefore, hne.1, hne.2]; exact h), hne.1, hne.2]

/-- What the Alley instructions leave alone: everything but the links, what they held before, and the marks on them. -/
structure LinksOnly (s t : State) : Prop where
  regs : RegsKept s t noReg
  mem : t.mem = s.mem
  strands : t.strands = s.strands
  cells : t.cells = s.cells

theorem linksOnly_popLink (s : State) (k : Nat) : LinksOnly s (popLink s k) := by
  unfold popLink noteLink
  dsimp only
  split
  · exact ⟨RegsKept.of_tables rfl rfl rfl rfl rfl rfl rfl, rfl, rfl, rfl⟩
  · split <;> exact ⟨RegsKept.of_tables rfl rfl rfl rfl rfl rfl rfl, rfl, rfl, rfl⟩

theorem linksOnly_pushLink (s : State) (k : Nat) (v : Word) : LinksOnly s (pushLink s k v) := by
  unfold pushLink noteLink
  split <;> exact ⟨RegsKept.of_tables rfl rfl rfl rfl rfl rfl rfl, rfl, rfl, rfl⟩

theorem pushLink_alley (s : State) (k k' : Nat) (v : Word) :
    tfind (pushLink s k v).alley k' = if k' = k then some v else tfind s.alley k' := by
  have h : (pushLink s k v).alley = tset s.alley k v := by
    unfold pushLink noteLink
    split <;> rfl
  rw [h]
  by_cases hk : k' = k
  · rw [if_pos hk, hk, tfind_tset_self]
  · rw [if_neg hk, tfind_tset_ne _ _ hk]

/-- The push of a word that reads a link, where it names a second direction. -/
def pushOn (fwd : Option QDir) (u : State) (p : Nat) (v : Word) : State :=
  match fwd with
  | some y => pushLink u (outLink p y) v
  | none => u

theorem linksOnly_pushOn (fwd : Option QDir) (u : State) (p : Nat) (v : Word) : LinksOnly u (pushOn fwd u p v) := by
  cases fwd with
  | none => exact ⟨RegsKept.refl u, rfl, rfl, rfl⟩
  | some y => exact linksOnly_pushLink u _ v

theorem pushOn_alley (fwd : Option QDir) (u : State) (p k : Nat) (v : Word) :
    tfind (pushOn fwd u p v).alley k = if fwd.any (fun y => decide (k = outLink p y)) then some v else tfind u.alley k := by
  cases fwd with
  | none => rfl
  | some y => simp [pushOn, pushLink_alley]

/-- A step of the second half of `qrd`: the value goes on, and D takes it. -/
def qrdLane (fwd : Option QDir) (d : GReg) (v : Nat → Word) (u : State) (p : Nat) : State := wrReg (pushOn fwd u p (v p)) p d (v p)

theorem wrReg_table {β : Type} (obs : State → β) (h : ∀ u a b, obs ((State.setGs u a).setHs b) = obs u) (s : State) (p : Nat) (d : GReg)
    (v : Word) : obs (wrReg s p d v) = obs s := by
  obtain ⟨a, b, e⟩ := wrReg_eq s p d v
  rw [e, h]

/-- The checks of a word of the Alley. -/
theorem clear_qrd {gd : Guard} {d : GReg} {x : QDir} {fwd : Option QDir} {s : State} (hr : RegsLanded s gd (.qrd gd d x fwd))
    (h : ∀ p ∈ actingLanes s gd, hasNext p x = true ∧ (linkBefore s (inLink p x)).isSome = true ∧ broken s (.link (inLink p x)) = false ∧
      ∀ y, fwd = some y → hasNext p y = true ∧ accepts s ((actingLanes s gd).map (inLink · x)) (outLink p y) = true) :
    Clear s { form := formQrd gd d x fwd, gd := gd } where
  excluded := Bool.and_false _
  issuer := rfl
  alley p hp := by
    obtain ⟨h1, -, -, h2⟩ := h p hp
    cases fwd with
    | none => simp [formQrd, h1]
    | some y => simp [formQrd, h1, (h2 y rfl).1]
  priv := Or.inl rfl
  regs := hr
  reads p hp r hr' := by
    rw [List.mem_singleton.1 hr']
    exact (h p hp).2.2.1
  links := by
    have : (actingLanes s gd).filter (fun p => (linkBefore s (inLink p x)).isNone) = [] :=
      filter_eq_nil fun p hp => by simp [Option.isNone_eq_false_iff, (h p hp).2.1]
    simp only [formQrd, popWaits, this, List.isEmpty_nil, if_true]
  fence := stageFence_plain rfl rfl
  operand := rfl
  engine := stageEngine_none rfl
  access := rfl
  values := rfl
  room := by
    cases fwd with
    | none => rfl
    | some y =>
      have : (actingLanes s gd).filter (fun p => !accepts s ((actingLanes s gd).map (fun p => inLink p x)) (outLink p y)) = [] :=
        filter_eq_nil fun p hp => by simp [((h p hp).2.2.2 y rfl).2]
      simp only [formQrd, pushWaits, this, List.isEmpty_nil, if_true]
  holds := rfl
  price := Or.inl rfl

theorem clear_qwr {gd : Guard} {a : GReg} {y : QDir} {s : State} (hr : RegsLanded s gd (.qwr gd y a))
    (h : ∀ p ∈ actingLanes s gd, hasNext p y = true ∧ accepts s [] (outLink p y) = true) :
    Clear s { form := formQwr gd y a, gd := gd } where
  excluded := Bool.and_false _
  issuer := rfl
  alley p hp := (h p hp).1
  priv := Or.inl rfl
  regs := hr
  reads p hp r hr' := nomatch hr'
  links := rfl
  fence := stageFence_plain rfl rfl
  operand := rfl
  engine := stageEngine_none rfl
  access := rfl
  values := rfl
  room := by
    have : (actingLanes s gd).filter (fun p => !accepts s [] (outLink p y)) = [] := filter_eq_nil fun p hp => by simp [(h p hp).2]
    simp only [formQwr, pushWaits, this, List.isEmpty_nil, if_true]
  holds := rfl
  price := Or.inl rfl

/-- Settles O14. -/
theorem alleyMoves : Obligations.AlleyMoves := by
  intro gd d a x fwd s ls v
  constructor
  · intro hr h
    generalize hpop : ls.foldl (fun u p => popLink u (inLink p x)) (advance s) = u
    generalize ht : ls.foldl (qrdLane fwd d v) u = t
    have hexec : exec (.qrd gd d x fwd) s = .next (mendWord s ls (.qrd gd d x fwd) t) := by
      rw [← ht, ← hpop]
      exact exec_unpriced (f := formQrd gd d x fwd) rfl rfl (clear_qrd hr h) rfl
    have hu : ∀ {β : Type} (obs : State → β), (∀ w k, obs (popLink w k) = obs w) → obs u = obs (advance s) := by
      intro β obs ho
      rw [← hpop]
      exact foldl_keep obs _ ls _ fun w q _ => ho w _
    have htu : ∀ {β : Type} (obs : State → β), (∀ w, ∀ p ∈ ls, obs (qrdLane fwd d v w p) = obs w) → obs t = obs u := by
      intro β obs ho
      rw [← ht]
      exact foldl_keep obs _ ls _ ho
    have hpushed : ∀ w q k, tfind (qrdLane fwd d v w q).alley k =
        if fwd.any (fun y => decide (k = outLink q y)) then some (v q) else tfind w.alley k := by
      intro w q k
      rw [← pushOn_alley fwd w q k (v q)]
      exact wrReg_table (fun z => tfind z.alley k) (fun _ _ _ => rfl) _ _ _ _
    have hkeep : ∀ w q k, (∀ y, fwd = some y → k ≠ outLink q y) → tfind (qrdLane fwd d v w q).alley k = tfind w.alley k := by
      intro w q k hk
      rw [hpushed, if_neg]
      cases fwd with
      | none => simp
      | some y => simpa using hk y rfl
    refine ⟨_, hexec, ?_, ?_, ?_, ?_, RegsKept.mend ?_ _ _ _, BytesKept.of_mem ?_, ?_, ?_⟩
    · intro p hp hs
      refine (congrArg (rdReg · p d) ht.symm).trans ?_
      refine foldl_value (fun w => rdReg w p d) _ _ ls u p hp (fun w => rdReg_wrReg_self _ p d (v p)) fun w q hq hne => ?_
      refine (rdReg_wrReg_ne _ _ fun e => hne (hs q hq e)).trans ?_
      have hregs := (linksOnly_pushOn fwd w q (v q)).regs
      unfold rdReg
      cases d.bank
      · exact hregs.g p d.num.val d.num.isLt not_false
      · exact hregs.h _ d.num.val d.num.isLt not_false
    · intro p hp y hy hsole
      refine (congrArg (fun w : State => tfind w.alley (outLink p y)) ht.symm).trans ?_
      refine foldl_value (fun w : State => tfind w.alley (outLink p y)) _ _ ls u p hp (fun w => ?_) fun w q hq hne => hkeep w q _ ?_
      · rw [hpushed, hy]; simp
      · rintro y' hy' e
        rw [hy] at hy'
        obtain rfl := Option.some.inj hy'
        exact hne (hsole q hq e.symm)
    · intro p hp hno
      have h1 := popLinks_at (s := advance s) hp (by
        have e : linkBefore (advance s) (inLink p x) = linkBefore s (inLink p x) := advance_field (linkBefore · _) (fun _ _ _ => rfl) s
        rw [e]; exact (h p hp).2.1)
      rw [hpop, advance_field State.alleyOld (fun _ _ _ => rfl) s, advance_field State.alley (fun _ _ _ => rfl) s] at h1
      exact (htu (fun w => tfind w.alley (inLink p x)) fun w q hq => hkeep w q _ fun y hy e => hno q hq y hy e.symm).trans h1
    · intro k hk
      refine (htu (fun w => tfind w.alley k) fun w q hq => hkeep w q k (hk q hq).2).trans ?_
      rw [← hpop, foldl_keep (fun w => tfind w.alley k) _ ls _ fun w q hq => (popLink_ne (hk q hq).1).1]
      exact advance_field (fun w => tfind w.alley k) (fun _ _ _ => rfl) s
    · refine (regsKept_advance s).of_noReg.trans (RegsKept.trans (t := u) ?_ ?_)
      · rw [← hpop]
        exact RegsKept.foldl (fun w q _ => (linksOnly_popLink w _).regs.of_noReg) _
      · rw [← ht]
        exact RegsKept.foldl (fun w q hq => (linksOnly_pushOn fwd w q (v q)).regs.of_noReg.trans
          ((regsKept_wrReg _ q d (v q)).mono fun r hr => ⟨q, hq, hr⟩)) _
    · refine (htu State.mem fun w q _ => (wrReg_table State.mem (fun _ _ _ => rfl) _ _ _ _).trans (linksOnly_pushOn fwd w q _).mem).trans ?_
      exact (hu State.mem fun w k => (linksOnly_popLink w k).mem).trans (advance_field State.mem (fun _ _ _ => rfl) s)
    · refine (lanesIssue_advance s).after ?_
      exact (htu State.strands fun w q _ => (wrReg_table State.strands (fun _ _ _ => rfl) _ _ _ _).trans
        (linksOnly_pushOn fwd w q _).strands).trans (hu State.strands fun w k => (linksOnly_popLink w k).strands)
    · intro c
      have hc : t.cells = s.cells :=
        (htu State.cells fun w q _ => (wrReg_table State.cells (fun _ _ _ => rfl) _ _ _ _).trans (linksOnly_pushOn fwd w q _).cells).trans
          ((hu State.cells fun w k => (linksOnly_popLink w k).cells).trans (advance_field State.cells (fun _ _ _ => rfl) s))
      show t.cell c = s.cell c
      unfold State.cell
      rw [hc]
  · intro hr h
    generalize ht : ls.foldl (fun u p => pushLink u (outLink p x) (rdReg s p a)) (advance s) = t
    have hexec : exec (.qwr gd x a) s = .next (mendWord s ls (.qwr gd x a) t) := by
      rw [← ht]
      exact exec_unpriced (f := formQwr gd x a) rfl rfl (clear_qwr hr h) rfl
    have htu : ∀ {β : Type} (obs : State → β), (∀ w k v, obs (pushLink w k v) = obs w) → obs t = obs (advance s) := by
      intro β obs ho
      rw [← ht]
      exact foldl_keep obs _ ls _ fun w q _ => ho w _ _
    refine ⟨_, hexec, ?_, ?_, RegsKept.mend ?_ _ _ _, BytesKept.of_mem ?_, ?_, ?_⟩
    · intro p hp hsole
      refine (congrArg (fun w : State => tfind w.alley (outLink p x)) ht.symm).trans ?_
      refine foldl_value (fun w : State => tfind w.alley (outLink p x)) _ _ ls _ p hp (fun w => ?_) fun w q hq hne => ?_
      · rw [pushLink_alley, if_pos rfl]
      · rw [pushLink_alley, if_neg fun e => hne (hsole q hq e.symm)]
    · intro k hk
      refine (congrArg (fun w : State => tfind w.alley k) ht.symm).trans ?_
      rw [foldl_keep (fun w : State => tfind w.alley k) _ ls _ fun w q hq => by rw [pushLink_alley, if_neg (hk q hq)]]
      exact advance_field (fun w => tfind w.alley k) (fun _ _ _ => rfl) s
    · rw [← ht]
      exact (regsKept_advance s).trans (RegsKept.foldl (fun w q _ => (linksOnly_pushLink w _ _).regs) _)
    · exact (htu State.mem fun w k v => (linksOnly_pushLink w k v).mem).trans (advance_field State.mem (fun _ _ _ => rfl) s)
    · exact (lanesIssue_advance s).after (htu State.strands fun w k v => (linksOnly_pushLink w k v).strands)
    · intro c
      have hc : t.cells = s.cells :=
        (htu State.cells fun w k v => (linksOnly_pushLink w k v).cells).trans (advance_field State.cells (fun _ _ _ => rfl) s)
      show t.cell c = s.cell c
      unfold State.cell
      rw [hc]

end Sys2Proof.Machine
end

section
/-!
PROOFS. Control transfers (R74, R77, R244 to R246): what `transfer` does to the lanes of the issuer, and from it the completion of every
jump and the paths of a divergent branch.
-/
namespace Sys2Proof.Machine

open Sys2Proof

/-! ### Lanes grouped by where they go -/

/-- Each group is the lanes that go where it goes. -/
theorem mem_groupBy {tgt : Nat → Word} {ls : List Nat} {g : Word × List Nat} (h : g ∈ groupBy tgt ls) :
    g.2 = ls.filter (fun p => decide (tgt p = g.1)) := by
  induction ls generalizing g with
  | nil => simp [groupBy] at h
  | cons p r ih =>
    simp only [groupBy] at h
    have hother : g ∈ groupBy tgt r → g.1 ≠ tgt p → g.2 = (p :: r).filter (fun p => decide (tgt p = g.1)) := fun hg hne => by
      rw [ih hg, List.filter_cons_of_neg]
      simpa using Ne.symm hne
    split at h
    · rename_i q hq
      have hq1 : q.1 = tgt p := by simpa using List.find?_some hq
      rcases List.mem_cons.1 h with rfl | h
      · rw [List.filter_cons_of_pos (by simp), ih (List.mem_of_find?_eq_some hq), hq1]
      · exact hother (List.mem_filter.1 h).1 (by simpa using (List.mem_filter.1 h).2)
    · rename_i hnone
      have hne : ∀ q ∈ groupBy tgt r, q.1 ≠ tgt p := by simpa using hnone
      rcases List.mem_cons.1 h with rfl | h
      · rw [List.filter_cons_of_pos (by simp), eq_comm, List.cons.injEq]
        refine ⟨rfl, filter_eq_nil fun q hq => ?_⟩
        simp only [decide_eq_false_iff_not]
        intro e
        obtain ⟨x, hx, hxe⟩ : ∃ x ∈ groupBy tgt r, x.1 = tgt q := exists_groupBy tgt r hq
        exact hne x hx (hxe.trans e)
      · exact hother h (hne g h)
where
  exists_groupBy (tgt : Nat → Word) (ls : List Nat) {p : Nat} (hp : p ∈ ls) : ∃ g ∈ groupBy tgt ls, g.1 = tgt p := by
    induction ls with
    | nil => simp at hp
    | cons q r ih =>
      by_cases hq : tgt q = tgt p
      · simp only [groupBy]
        split
        · exact ⟨_, List.mem_cons_self, hq⟩
        · exact ⟨_, List.mem_cons_self, hq⟩
      · have hr : p ∈ r := (List.mem_cons.1 hp).resolve_left fun e => hq (e ▸ rfl)
        obtain ⟨g, hg, hge⟩ := ih hr
        simp only [groupBy]
        split
        · refine ⟨g, List.mem_cons_of_mem _ (List.mem_filter.2 ⟨hg, ?_⟩), hge⟩
          simpa [hge] using Ne.symm hq
        · exact ⟨g, List.mem_cons_of_mem _ hg, hge⟩

theorem exists_groupBy {tgt : Nat → Word} {ls : List Nat} {p : Nat} (hp : p ∈ ls) :
    ∃ g ∈ groupBy tgt ls, g.1 = tgt p ∧ p ∈ g.2 := by
  obtain ⟨g, hg, he⟩ := mem_groupBy.exists_groupBy tgt ls hp
  exact ⟨g, hg, he, by rw [mem_groupBy hg]; simp [hp, he]⟩

/-- Lanes that all go to one place are one group. -/
theorem groupBy_same {tgt : Nat → Word} {x : Word} {ls : List Nat} (h : ∀ p ∈ ls, tgt p = x) :
    groupBy tgt ls = if ls = [] then [] else [(x, ls)] := by
  induction ls with
  | nil => rfl
  | cons p r ih =>
    have hp := h p List.mem_cons_self
    simp only [groupBy, ih fun q hq => h q (List.mem_cons_of_mem _ hq), hp, List.cons_ne_nil, if_false]
    by_cases hr : r = []
    · simp [hr]
    · simp [hr]

theorem mem_rankIns {x y : Word × List Nat} {l : List (Word × List Nat)} : y ∈ rankIns x l ↔ y = x ∨ y ∈ l := by
  induction l with
  | nil => simp [rankIns]
  | cons z r ih =>
    simp only [rankIns]
    split
    · simp only [List.mem_cons, ih]
      exact or_left_comm
    · simp only [List.mem_cons]

theorem mem_ranked {y : Word × List Nat} {l : List (Word × List Nat)} : y ∈ ranked l ↔ y ∈ l := by
  induction l with
  | nil => simp [ranked]
  | cons z r ih =>
    have : ranked (z :: r) = rankIns z (ranked r) := rfl
    rw [this, mem_rankIns, ih, List.mem_cons]

theorem length_rankIns (x : Word × List Nat) (l : List (Word × List Nat)) : (rankIns x l).length = l.length + 1 := by
  induction l with
  | nil => rfl
  | cons z r ih =>
    simp only [rankIns]
    split
    · simp [ih]
    · simp

theorem length_ranked (l : List (Word × List Nat)) : (ranked l).length = l.length := by
  induction l with
  | nil => rfl
  | cons z r ih =>
    have : ranked (z :: r) = rankIns z (ranked r) := rfl
    rw [this, length_rankIns, ih, List.length_cons]

/-! ### Lanes moved -/

/-- u is t with some of the lanes `ls` at other PCs and in other paths. -/
structure Moved (t : State) (ls : List Nat) (u : State) : Prop where
  rest : ∃ v, u = t.setStrands v
  frame : ∀ p m, { u.str p with pc := 0#64, lmode := m } = { t.str p with pc := 0#64, lmode := m }
  others : ∀ p, p ∉ ls → u.str p = t.str p

theorem Moved.refl (t : State) (ls : List Nat) : Moved t ls t := ⟨⟨t.strands, rfl⟩, fun _ _ => rfl, fun _ _ => rfl⟩

theorem Moved.modStr {t u : State} {ls : List Nat} (h : Moved t ls u) {p : Nat} (hp : p ∈ ls) {f : Strand → Strand}
    (hf : ∀ x m, { f x with pc := 0#64, lmode := m } = { x with pc := 0#64, lmode := m }) : Moved t ls (modStr u p f) where
  rest := by
    obtain ⟨v, hv⟩ := h.rest
    exact ⟨_, by rw [hv]; rfl⟩
  frame q m := by
    rw [← h.frame q m, str_modStr]
    split
    · rename_i e; rw [e, hf]
    · rfl
  others q hq := by
    rw [str_modStr, if_neg fun e : q = p => hq (e ▸ hp)]
    exact h.others q hq

theorem Moved.placeGroup {t u : State} {ls : List Nat} (h : Moved t ls u) {g : Word × List Nat} (hg : ∀ p ∈ g.2, p ∈ ls) (lead : Nat)
    (keep : Bool) : Moved t ls (placeGroup lead keep u g) :=
  List.foldlRecOn _ _ h fun _ hb p hp => hb.modStr (hg p hp) fun _ _ => rfl

/-- A group takes its place: each of its lanes goes where it goes, and no other lane moves. -/
theorem str_placeGroup (lead : Nat) (keep : Bool) (s : State) (g : Word × List Nat) (p : Nat) :
    (placeGroup lead keep s g).str p = if p ∈ g.2 then
      { s.str p with pc := g.1, lmode := if keep then .inPath (g.2.headD lead - lead) else .detached } else s.str p :=
  str_modStrs (f := fun u => { u with pc := g.1, lmode := if keep then .inPath (g.2.headD lead - lead) else .detached })
    (fun _ => rfl) g.2 s p

/-- What holds of a lane once its own group is placed, and stays so, holds at the end. -/
theorem foldl_reach {α : Type} {P : State → Prop} {f : State → α → State} {ls : List α} (s : State) {a : α} (ha : a ∈ ls)
    (h1 : ∀ u, P (f u a)) (h2 : ∀ u, ∀ b ∈ ls, P u → P (f u b)) : P (ls.foldl f s) := by
  obtain ⟨l, r, rfl⟩ := List.append_of_mem ha
  rw [List.foldl_append, List.foldl_cons]
  exact List.foldlRecOn _ _ (h1 _) fun b hb x hx => h2 b x (List.mem_append_right _ (List.mem_cons_of_mem _ hx)) hb

/-- The state in which every lane of the issuer has been sent to its target. -/
structure SentTo (t : State) (tgt : Nat → Word) (u : State) : Prop where
  rest : ∃ v g, u = (t.setStrands v).setGangs g
  pc : ∀ p ∈ t.cur.lanes, (u.str p).pc = tgt p
  frame : ∀ p m, { u.str p with pc := 0#64, lmode := m } = { t.str p with pc := 0#64, lmode := m }
  others : ∀ p, p ∉ t.cur.lanes → u.str p = t.str p
  gangs : ∀ l, l ≠ t.cur.leader → u.gang l = t.gang l
  together : (∃ x, ∀ p ∈ t.cur.lanes, tgt p = x) → u.gang t.cur.leader = t.gang t.cur.leader

/-- The groups of a path that divides, kept and detached, in their places. -/
def placed (t : State) (lead n : Nat) (r : List (Word × List Nat)) : State :=
  (r.drop n).foldl (placeGroup lead false) ((r.take n).foldl (placeGroup lead true) t)

theorem moved_placed (t : State) (lead n : Nat) {r : List (Word × List Nat)} (hr : ∀ g ∈ r, ∀ p ∈ g.2, p ∈ t.cur.lanes) :
    Moved t t.cur.lanes (placed t lead n r) := by
  refine List.foldlRecOn _ _ (List.foldlRecOn _ _ (Moved.refl t _) fun _ hb g hg => ?_) fun _ hb g hg => ?_
  · exact hb.placeGroup (hr g (List.mem_of_mem_take hg)) lead true
  · exact hb.placeGroup (hr g (List.mem_of_mem_drop hg)) lead false

/-- Where every group that holds a lane sends it, the lane stands. -/
theorem pc_placed (t : State) (lead n : Nat) {r : List (Word × List Nat)} {p : Nat} {x : Word} (hx : ∀ g ∈ r, p ∈ g.2 → g.1 = x)
    {g : Word × List Nat} (hg : g ∈ r) (hp : p ∈ g.2) : ((placed t lead n r).str p).pc = x := by
  have hset : ∀ (keep : Bool) (u : State), ((placeGroup lead keep u g).str p).pc = x := fun keep u => by
    rw [str_placeGroup, if_pos hp]
    exact hx g hg hp
  have hkeep : ∀ (keep : Bool) (u : State), ∀ h ∈ r, (u.str p).pc = x → ((placeGroup lead keep u h).str p).pc = x := by
    intro keep u h hh hu
    rw [str_placeGroup]
    split
    · rename_i hm; exact hx h hh hm
    · exact hu
  rw [← List.take_append_drop n r] at hg
  rcases List.mem_append.1 hg with hg | hg
  · refine List.foldlRecOn (motive := fun u : State => (u.str p).pc = x) _ _ ?_ fun u hu h hh => hkeep false u h (List.mem_of_mem_drop hh) hu
    exact foldl_reach (P := fun u : State => (u.str p).pc = x) t hg (hset true) fun u h hh hu => hkeep true u h (List.mem_of_mem_take hh) hu
  · exact foldl_reach (P := fun u : State => (u.str p).pc = x) _ hg (hset false) fun u h hh hu => hkeep false u h (List.mem_of_mem_drop hh) hu

/-- The paths that a path which divides may make (R77). -/
def pathRoom (t : State) : Nat :=
  Nat.max 1 ((t.gang t.cur.leader).splitpol.toNat % 32 -
    ((pathsOf t t.cur.leader).filter (· ≠ t.cur.lanes.headD t.cur.leader - t.cur.leader)).length)

theorem transfer_nil {t : State} {tgt : Nat → Word} (h : groupBy tgt t.cur.lanes = []) : transfer t tgt = t := by
  simp only [transfer, h]

theorem transfer_one {t : State} {tgt : Nat → Word} {g : Word × List Nat} (h : groupBy tgt t.cur.lanes = [g]) :
    transfer t tgt = modStrs t g.2 fun u => { u with pc := g.1 } := by
  simp only [transfer, h, modStrs]

theorem moved_groups (t : State) (tgt : Nat → Word) :
    Moved t t.cur.lanes (placed t t.cur.leader (pathRoom t) (ranked (groupBy tgt t.cur.lanes))) :=
  moved_placed t _ _ fun g hg p hp => by
    rw [mem_groupBy (mem_ranked.1 hg)] at hp
    exact (List.mem_filter.1 hp).1

/-- A path that divides (R74, R77, R80): its groups take their places, and of the gangs at most the leader's changes. -/
theorem transfer_divided {t : State} {tgt : Nat → Word} (h : 2 ≤ (groupBy tgt t.cur.lanes).length) :
    ∃ v, transfer t tgt = (placed t t.cur.leader (pathRoom t) (ranked (groupBy tgt t.cur.lanes))).setGangs v ∧
      ∀ l, l ≠ t.cur.leader → tget ({} : Gang) v l = t.gang l := by
  have hgangs : (placed t t.cur.leader (pathRoom t) (ranked (groupBy tgt t.cur.lanes))).gangs = t.gangs := by
    obtain ⟨v, hv⟩ := (moved_groups t tgt).rest
    rw [hv]; rfl
  have heq : ∃ x, transfer t tgt = placed t t.cur.leader (pathRoom t) (ranked (groupBy tgt t.cur.lanes)) ∨
      transfer t tgt = putGang (placed t t.cur.leader (pathRoom t) (ranked (groupBy tgt t.cur.lanes))) t.cur.leader x := by
    match hgs : groupBy tgt t.cur.lanes with
    | [] => rw [hgs] at h; simp at h
    | [g] => rw [hgs] at h; simp at h
    | g :: g' :: gs =>
      simp only [transfer, hgs]
      split
      · exact ⟨_, Or.inr rfl⟩
      · exact ⟨{}, Or.inl rfl⟩
  obtain ⟨x, he | he⟩ := heq
  · exact ⟨t.gangs, by rw [he, ← hgangs]; rfl, fun _ _ => rfl⟩
  · exact ⟨_, he, fun l hl => (tget_tset_ne _ _ _ hl).trans (congrArg (fun w => tget _ w l) hgangs)⟩

theorem transfer_sent (t : State) (tgt : Nat → Word) : SentTo t tgt (transfer t tgt) := by
  have hin : ∀ g ∈ groupBy tgt t.cur.lanes, ∀ p ∈ g.2, p ∈ t.cur.lanes ∧ tgt p = g.1 := by
    intro g hg p hp
    rw [mem_groupBy hg] at hp
    simpa using List.mem_filter.1 hp
  by_cases hlen : 2 ≤ (groupBy tgt t.cur.lanes).length
  · obtain ⟨v, he, hv⟩ := transfer_divided hlen
    obtain ⟨⟨w, hw⟩, hframe, hothers⟩ := moved_groups t tgt
    rw [he]
    have hstr : ∀ (y : State) p, (y.setGangs v).str p = y.str p := fun _ _ => rfl
    have hpc : ∀ p ∈ t.cur.lanes, ((placed t t.cur.leader (pathRoom t) (ranked (groupBy tgt t.cur.lanes))).str p).pc = tgt p := by
      intro p hp
      obtain ⟨g, hg, -, hpg⟩ := exists_groupBy (tgt := tgt) hp
      exact pc_placed t _ _ (fun g hg hp => ((hin g (mem_ranked.1 hg) p hp).2).symm) (mem_ranked.2 hg) hpg
    refine ⟨⟨w, v, by rw [hw]⟩, fun p hp => by rw [hstr]; exact hpc p hp, fun p m => by rw [hstr]; exact hframe p m,
      fun p hp => by rw [hstr]; exact hothers p hp, hv, fun ⟨x, hx⟩ => ?_⟩
    rw [groupBy_same hx] at hlen
    split at hlen <;> simp at hlen
  · match hgs : groupBy tgt t.cur.lanes with
    | [] =>
      rw [transfer_nil hgs]
      refine ⟨⟨t.strands, t.gangs, rfl⟩, fun p hp => ?_, fun _ _ => rfl, fun _ _ => rfl, fun _ _ => rfl, fun _ => rfl⟩
      obtain ⟨g, hg, -⟩ := exists_groupBy (tgt := tgt) hp
      rw [hgs] at hg
      simp at hg
    | [g] =>
      rw [transfer_one hgs]
      have hg : g ∈ groupBy tgt t.cur.lanes := by rw [hgs]; exact List.mem_singleton.2 rfl
      obtain ⟨⟨v, hv⟩, hframe, hothers⟩ : Moved t t.cur.lanes (modStrs t g.2 fun u => { u with pc := g.1 }) :=
        List.foldlRecOn _ _ (Moved.refl t _) fun _ hb p hp => hb.modStr (hin g hg p hp).1 fun _ _ => rfl
      refine ⟨⟨v, t.gangs, hv⟩, fun p hp => ?_, hframe, hothers, fun l _ => ?_, fun _ => ?_⟩
      · obtain ⟨g', hg', he, hpg⟩ := exists_groupBy (tgt := tgt) hp
        rw [hgs, List.mem_singleton] at hg'
        subst hg'
        rw [← he, str_modStrs (f := fun u => { u with pc := g'.1 }) (fun _ => rfl), if_pos hpg]
      · rw [hv]; rfl
      · rw [hv]; rfl
    | g :: g' :: gs => rw [hgs] at hlen; simp at hlen

/-! ### Jumps -/

/-- The writes of a form that links or counts: register d of each acting lane, where there is one. -/
def linkWrites (link : Option GReg) (v : Nat → Word) (ls : List Nat) (t : State) : State :=
  match link with
  | some d => ls.foldl (fun u p => wrReg u p d (v p)) t
  | none => t

theorem linkWrites_eq (link : Option GReg) (v : Nat → Word) (ls : List Nat) (t : State) :
    ∃ a b, linkWrites link v ls t = (t.setGs a).setHs b := by
  cases link with
  | none => exact ⟨t.gs, t.hs, rfl⟩
  | some d => exact foldl_wrReg_eq d v ls t

theorem linkWrites_kept (link : Option GReg) (v : Nat → Word) (ls : List Nat) (t : State) :
    RegsKept t (linkWrites link v ls t) (fun r => ∃ d, link = some d ∧ ∃ p ∈ ls, r = gId p d) := by
  cases link with
  | none => exact (RegsKept.refl t).of_noReg
  | some d => exact (wrRegs_kept t d v ls).mono fun _ h => ⟨d, rfl, h⟩

/-- A form that sends the acting lanes to their targets, once its checks pass. -/
theorem completesJump_of {i : Instr} {gd : Guard} {ok : State → Prop} {tgt v : State → Nat → Word} {link : Option GReg} {f : Form}
    (he : ∀ s, exec i s = run gd f s) (hi : f.instr = i) (hc : ∀ s, RegsLanded s gd i → ok s → Clear s { form := f, gd := gd })
    (hp : ∀ s, f.price s (actingLanes s gd) = 0)
    (go : State → Nat → Word) (ha : ∀ s t, f.act s t (actingLanes s gd) = transfer (linkWrites link (v s) (actingLanes s gd) t) (go s))
    (hgo : ∀ s p, go s p = if p ∈ actingLanes s gd then tgt s p else s.cur.nba) : CompletesJump i gd ok tgt link v := by
  intro s hr hok
  have hx := exec_unpriced (he s) hi (hc s hr hok) (hp s)
  rw [ha, funext (hgo s)] at hx
  generalize hw : linkWrites link (v s) (actingLanes s gd) (advance s) = w at hx
  generalize hu : transfer w (fun p => if p ∈ actingLanes s gd then tgt s p else s.cur.nba) = u at hx
  have hsent := hu ▸ transfer_sent w (fun p => if p ∈ actingLanes s gd then tgt s p else s.cur.nba)
  obtain ⟨a, b, hab⟩ := linkWrites_eq link (v s) (actingLanes s gd) (advance s)
  rw [hw] at hab
  have hcur : w.cur = s.cur := (congrArg State.cur hab).trans (advance_field State.cur (fun _ _ _ => rfl) s)
  have hstr : ∀ p, w.str p = if p ∈ s.cur.lanes then issueOne s.cur.nba (s.str p) else s.str p := fun p =>
    (congrArg (fun z : State => z.str p) hab).trans (str_advance s p)
  have hacting : ∀ p ∈ s.cur.lanes, (p ∈ actingLanes s gd ↔ acting s gd p = true) := fun p hp => by simp [actingLanes, hp]
  have hwfield : ∀ {β : Type} (obs : State → β), (∀ z v b, obs ((State.setStrands z v).setBlocks b) = obs z) →
      (∀ z a b, obs ((State.setGs z a).setHs b) = obs z) → obs w = obs s := fun obs h1 h2 =>
    ((congrArg obs hab).trans (h2 _ _ _)).trans (advance_field obs h1 s)
  obtain ⟨st, gs, hrest⟩ := hsent.rest
  obtain ⟨-, hpc, hframe, hothers, hgangs, htogether⟩ := hsent
  rw [hcur] at hpc hothers hgangs htogether
  have hgang : ∀ l, w.gang l = s.gang l := fun l => hwfield (fun z => z.gang l) (fun _ _ _ => rfl) fun _ _ _ => rfl
  refine ⟨_, hx, fun p hp => ?_, fun p hp m => ?_, fun p hp => ?_, fun d hd p hp hs => ?_, RegsKept.mend ?_ _ _ _, fun l hl => ?_,
    fun ⟨x, hall⟩ => ?_, BytesKept.of_mem ?_, fun l n => ?_, ?_, fun c => ?_⟩
  · exact (hpc p hp).trans (ite_iff (hacting p hp) rfl rfl)
  · refine (hframe p m).trans ?_
    rw [hstr, if_pos hp]
  · refine (hothers p hp).trans ?_
    rw [hstr, if_neg hp]
  · subst hd
    refine Eq.trans ?_ (wrRegs_value (advance s) d (v s) _ p hp hs)
    exact (congrArg (fun z => rdReg z p d) hrest).trans (congrArg (fun z => rdReg z p d) hw.symm :)
  · refine ((regsKept_advance s).of_noReg.trans (hw ▸ linkWrites_kept link (v s) (actingLanes s gd) (advance s))).trans ?_
    rw [hrest]
    exact (RegsKept.of_tables rfl rfl rfl rfl rfl rfl rfl)
  · exact (hgangs l hl).trans (hgang l)
  · refine (htogether ⟨x, fun p hp => ?_⟩).trans (hgang _)
    rw [← hall p hp]
    exact ite_iff (hacting p hp) rfl rfl
  · exact (congrArg State.mem hrest).trans (hwfield State.mem (fun _ _ _ => rfl) fun _ _ _ => rfl)
  · exact (congrArg (fun z => rdJ z l n) hrest).trans (hwfield (fun z => rdJ z l n) (fun _ _ _ => rfl) fun _ _ _ => rfl)
  · exact (congrArg State.pkg hrest).trans (hwfield State.pkg (fun _ _ _ => rfl) fun _ _ _ => rfl)
  · exact (congrArg (fun z => z.cell c) hrest).trans (hwfield (fun z => z.cell c) (fun _ _ _ => rfl) fun _ _ _ => rfl)

theorem faultsOf_none {α : Type} {ls : List α} {g : α → Nat × Option TrapInfo} (h : ∀ p ∈ ls, (g p).2 = none) : faultsOf (ls.map g) = .ok := by
  have : (ls.map g).filterMap (fun q => q.2.map (fun i => (q.1, i))) = [] := by
    rw [List.filterMap_eq_nil_iff]
    intro q hq
    obtain ⟨p, hp, rfl⟩ := List.mem_map.1 hq
    rw [h p hp]; rfl
  simp [faultsOf, this]

/-- A form with no check but its targets'. -/
theorem clear_jump {s : State} {gd : Guard} {i : Instr} {act : State → State → List Nat → State} {operand : State → List Nat → Stage}
    (hm : memEvents i = (false, false)) (hw : waitsForAll i = false) (hr : RegsLanded s gd i) (ho : operand s (actingLanes s gd) = .ok) :
    Clear s { form := { instr := i, act := act, operand := operand }, gd := gd } where
  excluded := Bool.and_false _
  issuer := rfl
  alley _ _ := rfl
  priv := Or.inl rfl
  regs := hr
  reads _ _ _ h := nomatch h
  links := rfl
  fence := stageFence_plain hm hw
  operand := ho
  engine := stageEngine_none rfl
  access := rfl
  values := rfl
  room := rfl
  holds := rfl
  price := Or.inl rfl

theorem targetStage_ok {s : State} {a : GReg} {ls : List Nat} (h : ∀ p ∈ ls, (rdReg s p a).toNat % 4 = 0 ∧ canonical (rdReg s p a) = true) :
    targetStage a s ls = .ok :=
  faultsOf_none fun p hp => by simp [h p hp]

theorem contains_eq_mem (ls : List Nat) (p : Nat) (x y : Word) : (if ls.contains p then x else y) = if p ∈ ls then x else y := by
  simp only [List.contains_iff_mem]

/-- Settles O15. -/
theorem controlTransfers : Obligations.ControlTransfers := by
  intro gd a disp near good far
  refine ⟨?_, ?_, ?_, ?_, ?_, ?_⟩
  · exact completesJump_of (f := formBr gd disp) (fun _ => rfl) rfl (fun s hr _ => clear_jump rfl rfl hr rfl) (fun _ => rfl)
      _ (fun _ _ => rfl) fun _ _ => contains_eq_mem _ _ _ _
  · exact completesJump_of (f := formCall gd disp) (fun _ => rfl) rfl (fun s hr _ => clear_jump rfl rfl hr rfl) (fun _ => rfl)
      _ (fun _ _ => rfl) fun _ _ => contains_eq_mem _ _ _ _
  · exact completesJump_of (f := formBrx gd a) (fun _ => rfl) rfl (fun s hr h => clear_jump rfl rfl hr (targetStage_ok h)) (fun _ => rfl)
      _ (fun _ _ => rfl) fun _ _ => contains_eq_mem _ _ _ _
  · exact completesJump_of (f := formCallx gd a) (fun _ => rfl) rfl (fun s hr h => clear_jump rfl rfl hr (targetStage_ok h)) (fun _ => rfl)
      _ (fun _ _ => rfl) fun _ _ => contains_eq_mem _ _ _ _
  · exact completesJump_of (f := formRet gd a) (fun _ => rfl) rfl (fun s hr h => clear_jump rfl rfl hr (targetStage_ok h)) (fun _ => rfl)
      _ (fun _ _ => rfl) fun _ _ => contains_eq_mem _ _ _ _
  · refine completesJump_of (f := formDbnz gd a near) (fun _ => rfl) rfl (fun s hr _ => clear_jump rfl rfl hr rfl) (fun _ => rfl)
      _ (fun _ _ => rfl) fun s p => ?_
    have hz : rdReg s p a - 1#64 = 0#64 ↔ rdReg s p a = 1#64 := by
      constructor <;> intro h <;> bv_omega
    by_cases hp : p ∈ actingLanes s gd <;> by_cases hv : rdReg s p a = 1#64 <;> simp [hp, hv, hz, branchTo]

/-! ### The paths of a divergent branch (R73, R74, R77) -/

/-- Groups have distinct targets, each that of some lane. -/
theorem groupBy_keys (tgt : Nat → Word) (ls : List Nat) :
    ((groupBy tgt ls).map (·.1)).Nodup ∧ ∀ g ∈ groupBy tgt ls, ∃ p ∈ ls, tgt p = g.1 := by
  induction ls with
  | nil => exact ⟨List.nodup_nil, fun g hg => nomatch hg⟩
  | cons p r ih =>
    obtain ⟨hnd, hex⟩ := ih
    have hex' : ∀ g ∈ groupBy tgt r, ∃ q ∈ p :: r, tgt q = g.1 := fun g hg =>
      let ⟨q, hq, he⟩ := hex g hg; ⟨q, List.mem_cons_of_mem _ hq, he⟩
    simp only [groupBy]
    split
    · refine ⟨?_, fun g hg => ?_⟩
      · rw [List.map_cons, List.nodup_cons]
        exact ⟨by simp, hnd.sublist (List.filter_sublist.map _)⟩
      · rcases List.mem_cons.1 hg with rfl | hg
        · exact ⟨p, List.mem_cons_self, rfl⟩
        · exact hex' g (List.mem_filter.1 hg).1
    · rename_i hnone
      refine ⟨?_, fun g hg => ?_⟩
      · rw [List.map_cons, List.nodup_cons]
        exact ⟨fun hm => let ⟨g, hg, he⟩ := List.mem_map.1 hm; by simpa [he] using List.find?_eq_none.1 hnone g hg, hnd⟩
      · rcases List.mem_cons.1 hg with rfl | hg
        · exact ⟨p, List.mem_cons_self, rfl⟩
        · exact hex' g hg

theorem pathsOf_advance (s : State) (l : Nat) : pathsOf (advance s) l = pathsOf s l := by
  have hlmode : ∀ p, pathOf ((advance s).str p) = pathOf (s.str p) := fun p => by
    rw [str_advance]; split <;> rfl
  have hlanes : gangLanes (advance s) l = gangLanes s l := by
    unfold gangLanes
    rw [str_advance]; split <;> rfl
  unfold pathsOf
  rw [hlanes, funext hlmode]

/-- With room for every group, a lane's path is numbered by the lowest lane that goes where it goes. -/
theorem transfer_roomy {t : State} {tgt : Nat → Word} (h2 : 2 ≤ (groupBy tgt t.cur.lanes).length)
    (hroom : (groupBy tgt t.cur.lanes).length ≤ pathRoom t) {p : Nat} (hp : p ∈ t.cur.lanes) :
    ((transfer t tgt).str p).lmode =
      .inPath ((t.cur.lanes.filter (fun q => decide (tgt q = tgt p))).headD t.cur.leader - t.cur.leader) := by
  obtain ⟨v, he, -⟩ := transfer_divided h2
  obtain ⟨g, hg, hkey, hpg⟩ := exists_groupBy (tgt := tgt) hp
  have hsole : ∀ h ∈ groupBy tgt t.cur.lanes, p ∈ h.2 →
      h.2 = t.cur.lanes.filter (fun q => decide (tgt q = tgt p)) := by
    intro h hh hph
    have hf := mem_groupBy hh
    rw [hf] at hph
    rw [hf, show h.1 = tgt p by simpa [eq_comm] using (List.mem_filter.1 hph).2]
  have hall : placed t t.cur.leader (pathRoom t) (ranked (groupBy tgt t.cur.lanes)) =
      (ranked (groupBy tgt t.cur.lanes)).foldl (placeGroup t.cur.leader true) t := by
    have hlen : (ranked (groupBy tgt t.cur.lanes)).length ≤ pathRoom t := by rw [length_ranked]; exact hroom
    rw [placed, List.drop_eq_nil_of_le hlen, List.take_of_length_le hlen, List.foldl_nil]
  rw [he, hall]
  refine foldl_reach (P := fun u : State => (u.str p).lmode =
    .inPath ((t.cur.lanes.filter (fun q => decide (tgt q = tgt p))).headD t.cur.leader - t.cur.leader)) t (mem_ranked.2 hg) (fun u => ?_)
    fun u h hh hu => ?_
  · rw [str_placeGroup, if_pos hpg]
    simp only [if_true, hsole g hg hpg]
  · rw [str_placeGroup]
    split
    · rename_i hm
      simp only [if_true, hsole h (mem_ranked.1 hh) hm]
    · exact hu

/-- Settles O16. -/
theorem divergentBranchMakesPaths : Obligations.DivergentBranchMakesPaths := by
  intro gd disp s on target hr hact hon hne hroom _
  obtain ⟨t, hexec, hpc, -, -, -, hregs, -, -, hbytes, -⟩ :=
    (controlTransfers gd (asG 0) disp 0#14).1 s hr trivial
  have hx := exec_unpriced (f := formBr gd disp) (gd := gd) (s := s) (i := .br gd disp) rfl rfl (clear_jump rfl rfl hr rfl) rfl
  generalize htgt : (fun p => if (actingLanes s gd).contains p then target else s.cur.nba) = tgt
  have ht : ∀ p, t.str p = (transfer (advance s) tgt).str p := by
    have hact' : (formBr gd disp).act s (advance s) (actingLanes s gd) = transfer (advance s) tgt := by rw [← htgt]; rfl
    rw [hact', hexec, Host.Outcome.next.injEq] at hx
    intro p
    rw [hx]; rfl
  have hcur : (advance s).cur = s.cur := advance_field State.cur (fun _ _ _ => rfl) s
  have htgt' : ∀ p ∈ s.cur.lanes, (tgt p = target ↔ acting s gd p = true) ∧ (tgt p = s.cur.nba ↔ acting s gd p = false) := by
    intro p hp
    rw [← htgt]
    by_cases ha : acting s gd p = true <;> simp [actingLanes, hp, ha, hne, Ne.symm hne]
  have hkeys := groupBy_keys tgt s.cur.lanes
  have htwo : 2 ≤ (groupBy tgt s.cur.lanes).length := by
    obtain ⟨p, hp⟩ := List.exists_mem_of_ne_nil _ hact
    obtain ⟨q, hq⟩ := List.exists_mem_of_ne_nil _ hon
    obtain ⟨hpl, hpa⟩ := List.mem_filter.1 hp
    obtain ⟨hql, hqa⟩ := List.mem_filter.1 hq
    obtain ⟨g, hg, hgk, -⟩ := exists_groupBy (tgt := tgt) hpl
    obtain ⟨h, hh, hhk, -⟩ := exists_groupBy (tgt := tgt) hql
    have hsub : [target, s.cur.nba] ⊆ (groupBy tgt s.cur.lanes).map (·.1) := by
      rintro x hx
      rcases List.mem_cons.1 hx with rfl | hx
      · exact List.mem_map.2 ⟨g, hg, hgk.trans ((htgt' p hpl).1.2 hpa)⟩
      · rw [List.mem_singleton.1 hx]
        exact List.mem_map.2 ⟨h, hh, hhk.trans ((htgt' q hql).2.2 (by simpa using hqa))⟩
    simpa using List.Nodup.length_le_of_subset (by simpa using hne) hsub
  have hmax : (groupBy tgt s.cur.lanes).length ≤ 2 := by
    have hsub : (groupBy tgt s.cur.lanes).map (·.1) ⊆ [target, s.cur.nba] := by
      intro x hx
      obtain ⟨g, hg, rfl⟩ := List.mem_map.1 hx
      obtain ⟨p, hp, hpk⟩ := hkeys.2 g hg
      cases ha : acting s gd p with
      | true => rw [← hpk, (htgt' p hp).1.2 ha]; simp
      | false => rw [← hpk, (htgt' p hp).2.2 ha]; simp
    simpa using List.Nodup.length_le_of_subset hkeys.1 hsub
  have hpaths : 2 ≤ pathRoom (advance s) := by
    have hg : (advance s).gang s.cur.leader = s.gang s.cur.leader := advance_field (fun z => z.gang s.cur.leader) (fun _ _ _ => rfl) s
    unfold pathRoom
    rw [hcur, hg, pathsOf_advance]
    exact Nat.le_trans (by omega) (Nat.le_max_right _ _)
  have hlmode : ∀ p ∈ s.cur.lanes, (t.str p).lmode =
      .inPath ((s.cur.lanes.filter (fun q => decide (tgt q = tgt p))).headD s.cur.leader - s.cur.leader) := by
    intro p hp
    rw [ht, transfer_roomy (by rw [hcur]; exact htwo) (by rw [hcur]; exact Nat.le_trans hmax hpaths) (by rw [hcur]; exact hp), hcur]
  refine ⟨t, hexec, fun p hp => ?_, fun p hp => ?_, hregs.mono fun _ ⟨_, h, _⟩ => (nomatch h), hbytes⟩
  · obtain ⟨hpl, hpa⟩ := List.mem_filter.1 hp
    refine ⟨by rw [hpc p hpl, if_pos hpa], ?_⟩
    rw [hlmode p hpl, (htgt' p hpl).1.2 hpa, actingLanes]
    rw [List.filter_congr (q := acting s gd) fun q hq => by
      rw [Bool.eq_iff_iff, decide_eq_true_iff]; exact (htgt' q hq).1]
  · obtain ⟨hpl, hpa⟩ := List.mem_filter.1 hp
    have hpf : acting s gd p = false := by simpa using hpa
    refine ⟨by rw [hpc p hpl, hpf]; rfl, ?_⟩
    rw [hlmode p hpl, (htgt' p hpl).2.2 hpf]
    rw [List.filter_congr (q := fun q => !acting s gd q) fun q hq => by
      rw [Bool.eq_iff_iff, decide_eq_true_iff, Bool.not_eq_true']; exact (htgt' q hq).2]

end Sys2Proof.Machine
end

section
/-!
PROOFS. Rejoin sets (R82 to R88, R247): what the acts on a set leave of the state, and from it the completion of the set instructions and
of `jwait`.
-/
namespace Sys2Proof.Machine

open Sys2Proof

/-! ### Sets written -/

theorem rdJ_wrJ_self (s : State) (l n : Nat) (v : JSet) : rdJ (wrJ s l n v) l n = v := tget_tset_self _ _ _ _

theorem rdJ_wrJ_ne {s : State} {l n l' n' : Nat} {v : JSet} (h : 8 * l' + n' ≠ 8 * l + n) : rdJ (wrJ s l n v) l' n' = rdJ s l' n' :=
  tget_tset_ne _ _ _ h

/-- Of s, at most the rejoin sets of the gang of `lead` and the sets that it holds as orphaned in this cycle are others in t. -/
structure SetsOnly (lead : Nat) (s t : State) : Prop where
  rest : ∃ j g, t = (s.setJs j).setGangs g
  gang : ∀ o, { t.gang lead with orphaning := o } = { s.gang lead with orphaning := o }
  gangs : ∀ l, l ≠ lead → t.gang l = s.gang l
  sets : ∀ l n, l ≠ lead → n < 8 → rdJ t l n = rdJ s l n
  noted : ∀ o ∈ (s.gang lead).orphaning, o ∈ (t.gang lead).orphaning

theorem SetsOnly.refl (lead : Nat) (s : State) : SetsOnly lead s s :=
  ⟨⟨s.js, s.gangs, rfl⟩, fun _ => rfl, fun _ _ => rfl, fun _ _ _ _ => rfl, fun _ h => h⟩

theorem SetsOnly.trans {lead : Nat} {s t u : State} (h : SetsOnly lead s t) (k : SetsOnly lead t u) : SetsOnly lead s u where
  rest := by
    obtain ⟨⟨j, g, rfl⟩, ⟨j', g', rfl⟩⟩ := h.rest, k.rest
    exact ⟨j', g', rfl⟩
  gang o := (k.gang o).trans (h.gang o)
  gangs l hl := (k.gangs l hl).trans (h.gangs l hl)
  sets l n hl hn := (k.sets l n hl hn).trans (h.sets l n hl hn)
  noted o ho := k.noted o (h.noted o ho)

theorem SetsOnly.foldl {α : Type} {lead : Nat} {f : State → α → State} (h : ∀ u a, SetsOnly lead u (f u a)) (l : List α) (s : State) :
    SetsOnly lead s (l.foldl f s) :=
  List.foldlRecOn (motive := fun u => SetsOnly lead s u) _ _ (SetsOnly.refl lead s) fun u hu a _ => hu.trans (h u a)

theorem setsOnly_wrJ (s : State) (lead n : Nat) (hn : n < 8) (v : JSet) : SetsOnly lead s (wrJ s lead n v) :=
  ⟨⟨tset s.js (8 * lead + n) v, s.gangs, rfl⟩, fun _ => rfl, fun _ _ => rfl, fun l m hl hm => rdJ_wrJ_ne (by omega), fun _ h => h⟩

theorem setsOnly_noteOrphan (s : State) (lead j : Nat) (x : JSet) : SetsOnly lead s (noteOrphan s lead j x) := by
  unfold noteOrphan
  dsimp only
  split
  · exact SetsOnly.refl lead s
  · refine ⟨⟨s.js, _, rfl⟩, fun o => ?_, fun l hl => ?_, fun _ _ _ _ => rfl, fun o ho => ?_⟩
    · rw [gang_putGang, if_pos rfl]
    · rw [gang_putGang, if_neg hl]
    · rw [gang_putGang, if_pos rfl]
      exact List.mem_append_left _ ho

theorem setsOnly_testOrphan (s : State) (lead j : Nat) (x : JSet) : SetsOnly lead s (testOrphan s lead j x) := by
  unfold testOrphan
  dsimp only
  split
  · exact setsOnly_noteOrphan s lead j x
  · exact SetsOnly.refl lead s

theorem rdJ_noteOrphan (s : State) (lead j : Nat) (x : JSet) (l n : Nat) : rdJ (noteOrphan s lead j x) l n = rdJ s l n := by
  unfold noteOrphan
  dsimp only
  split <;> rfl

theorem rdJ_testOrphan (s : State) (lead j : Nat) (x : JSet) (l n : Nat) : rdJ (testOrphan s lead j x) l n = rdJ s l n := by
  unfold testOrphan
  dsimp only
  split
  · exact rdJ_noteOrphan s lead j x l n
  · rfl

/-- Set j holds y in t, and of s nothing else is another but what is noted of orphaned sets. -/
structure SetTo (lead j : Nat) (y : JSet) (s t : State) : Prop where
  only : SetsOnly lead s t
  here : rdJ t lead j = y
  others : ∀ n, n < 8 → n ≠ j → rdJ t lead n = rdJ s lead n

theorem SetTo.refl (lead j : Nat) (s : State) : SetTo lead j (rdJ s lead j) s s := ⟨SetsOnly.refl lead s, rfl, fun _ _ _ => rfl⟩

theorem SetTo.wrJ {lead j : Nat} {y : JSet} {s t : State} (h : SetTo lead j y s t) (hj : j < 8) (v : JSet) :
    SetTo lead j v s (Machine.wrJ t lead j v) :=
  ⟨h.only.trans (setsOnly_wrJ t lead j hj v), rdJ_wrJ_self t lead j v, fun n hn hne => (rdJ_wrJ_ne (by omega)).trans (h.others n hn hne)⟩

theorem SetTo.noteOrphan {lead j : Nat} {y : JSet} {s t : State} (h : SetTo lead j y s t) (x : JSet) :
    SetTo lead j y s (Machine.noteOrphan t lead j x) :=
  ⟨h.only.trans (setsOnly_noteOrphan t lead j x), (rdJ_noteOrphan t lead j x lead j).trans h.here,
    fun n hn hne => (rdJ_noteOrphan t lead j x lead n).trans (h.others n hn hne)⟩

theorem SetTo.testOrphan {lead j : Nat} {y : JSet} {s t : State} (h : SetTo lead j y s t) (x : JSet) :
    SetTo lead j y s (Machine.testOrphan t lead j x) :=
  ⟨h.only.trans (setsOnly_testOrphan t lead j x), (rdJ_testOrphan t lead j x lead j).trans h.here,
    fun n hn hne => (rdJ_testOrphan t lead j x lead n).trans (h.others n hn hne)⟩

/-! ### The rows of R84 -/

theorem setTo_setStart (s : State) (lead : Nat) {j : Nat} (hj : j < 8) (l : BitVec 16) :
    SetTo lead j { valid := true, member := l, quit := 0#16, arrived := (rdJ s lead j).arrived } s (setStart s lead j l) := by
  unfold setStart
  dsimp only
  split
  · exact ((SetTo.refl lead j s).noteOrphan _).wrJ hj _
  · exact (SetTo.refl lead j s).wrJ hj _

theorem setTo_setAdd (s : State) (lead : Nat) {j : Nat} (hj : j < 8) (l : BitVec 16) :
    SetTo lead j (if (rdJ s lead j).valid then
        { rdJ s lead j with member := (rdJ s lead j).member ||| l, quit := (rdJ s lead j).quit &&& ~~~l }
      else { valid := true, member := l, quit := 0#16, arrived := 0#16 }) s (setAdd s lead j l) := by
  unfold setAdd
  dsimp only
  split
  · exact ((SetTo.refl lead j s).wrJ hj _).testOrphan _
  · exact (SetTo.refl lead j s).wrJ hj _

theorem setTo_setQuit (s : State) (lead : Nat) {j : Nat} (hj : j < 8) (l : BitVec 16) :
    SetTo lead j (if (rdJ s lead j).valid then { rdJ s lead j with quit := (rdJ s lead j).quit ||| (l &&& (rdJ s lead j).member) }
      else rdJ s lead j) s (setQuit s lead j l) := by
  unfold setQuit
  dsimp only
  split
  · exact ((SetTo.refl lead j s).wrJ hj _).testOrphan _
  · exact SetTo.refl lead j s

/-- The set that a `jwrite` of a word leaves, of a gang with a mask of its lanes. -/
def writtenSet (x : JSet) (v : Word) (m : BitVec 16) : JSet :=
  if v.getLsbD 63 then { valid := true, member := (setOfView v).member &&& m, quit := (setOfView v).quit &&& m, arrived := x.arrived }
  else { valid := false, member := 0#16, quit := 0#16, arrived := 0#16 }

/-- A GATHERING set is valid, so that a `jwrite` that leaves its view as it is leaves its arrivals too. -/
theorem writtenSet_same {x : JSet} {v : Word} {m : BitVec 16} (hg : gathering x = true)
    (h : x.valid = (writtenSet x v m).valid ∧ x.member = (writtenSet x v m).member ∧ x.quit = (writtenSet x v m).quit) :
    x = writtenSet x v m := by
  have hv : x.valid = true := by
    unfold gathering at hg
    exact (Bool.and_eq_true_iff.1 hg).1
  obtain ⟨h1, h2, h3⟩ := h
  have hbit : v.getLsbD 63 = true := by
    refine Classical.byContradiction fun hb => ?_
    rw [hv, writtenSet, if_neg hb] at h1
    exact Bool.noConfusion h1
  have harr : x.arrived = (writtenSet x v m).arrived := by rw [writtenSet, if_pos hbit]
  cases x
  generalize writtenSet _ v m = y at *
  cases y
  simp_all

theorem setTo_setWrite (s : State) (lead : Nat) {j : Nat} (hj : j < 8) (v : Word) :
    SetTo lead j (writtenSet (rdJ s lead j) v (sizeMask s lead)) s (setWrite s lead j v) := by
  have e : setWrite s lead j v = if gathering (rdJ s lead j) then
      (if (rdJ s lead j).valid = (writtenSet (rdJ s lead j) v (sizeMask s lead)).valid ∧
          (rdJ s lead j).member = (writtenSet (rdJ s lead j) v (sizeMask s lead)).member ∧
          (rdJ s lead j).quit = (writtenSet (rdJ s lead j) v (sizeMask s lead)).quit then s
        else wrJ (noteOrphan s lead j (rdJ s lead j)) lead j (writtenSet (rdJ s lead j) v (sizeMask s lead)))
      else wrJ s lead j (writtenSet (rdJ s lead j) v (sizeMask s lead)) := rfl
  rw [e]
  split
  · rename_i hg
    split
    · rename_i hs
      exact (writtenSet_same hg hs) ▸ SetTo.refl lead j s
    · exact ((SetTo.refl lead j s).noteOrphan _).wrJ hj _
  · exact (SetTo.refl lead j s).wrJ hj _

theorem setTo_setArrive (s : State) (lead : Nat) {j : Nat} (hj : j < 8) (l : BitVec 16) :
    SetTo lead j { rdJ s lead j with arrived := (rdJ s lead j).arrived ||| l } s (setArrive s lead j l) := by
  unfold setArrive
  exact ((SetTo.refl lead j s).wrJ hj _).testOrphan _

/-! ### The instructions of sets (R247) -/

/-- The forms that single-lane mode excludes (R436), outside of it, with no checks but those of their operands and their issuer. -/
theorem clear_excluded {s : State} {gd : Guard} {i : Instr} {act : State → State → List Nat → State} {operand : State → List Nat → Stage}
    {issuer : State → Bool} (hsup : s.cur.sup = false) (hm : memEvents i = (false, false)) (hw : waitsForAll i = false)
    (hr : RegsLanded s gd i) (hi : issuer s = true) (ho : operand s (actingLanes s gd) = .ok) :
    Clear s { form := { instr := i, excluded := true, act := act, operand := operand, issuer := issuer }, gd := gd } where
  excluded := by rw [hsup]; rfl
  issuer := hi
  alley _ _ := rfl
  priv := Or.inl rfl
  regs := hr
  reads _ _ _ h := nomatch h
  links := rfl
  fence := stageFence_plain hm hw
  operand := ho
  engine := stageEngine_none rfl
  access := rfl
  values := rfl
  room := rfl
  holds := rfl
  price := Or.inl rfl

/-- Once the lanes have issued, every set stands as before. -/
theorem rdJ_advance (s : State) (l n : Nat) : rdJ (advance s) l n = rdJ s l n := advance_field (rdJ · l n) (fun _ _ _ => rfl) s

theorem gang_advance (s : State) (l : Nat) : (advance s).gang l = s.gang l := advance_field (fun z : State => z.gang l) (fun _ _ _ => rfl) s

theorem gangLanes_congr {s t : State} {l : Nat} (h : glogOf (t.str l) = glogOf (s.str l)) : gangLanes t l = gangLanes s l := by
  unfold gangLanes
  rw [h]

theorem glogOf_advance (s : State) (p : Nat) : glogOf ((advance s).str p) = glogOf (s.str p) := by
  rw [str_advance]
  split <;> rfl

theorem completesSet_of {i : Instr} {s : State} {gd : Guard} {j : Fin 8} {y : JSet} {t : State}
    (hx : exec i s = .next (mendWord s (actingLanes s gd) i t)) (h : SetTo s.cur.leader j.val y (advance s) t) : CompletesSet i s j y := by
  obtain ⟨⟨⟨js, gs, hrest⟩, hgang, hgangs, -, -⟩, hhere, hothers⟩ := h
  refine ⟨_, hx, hhere, fun n hn hne => (hothers n hn hne).trans (rdJ_advance s _ n), fun l => ?_, ?_, RegsKept.mend ?_ _ _ _,
    BytesKept.of_mem ?_, ?_, fun c => ?_⟩
  · rw [← gang_advance s l]
    by_cases hl : l = s.cur.leader
    · subst hl; exact hgang []
    · exact congrArg (fun g : Gang => { g with orphaning := [] }) (hgangs l hl)
  · exact fun p => (congrArg (fun z : State => z.str p) hrest).trans (str_advance s p)
  · refine (regsKept_advance s).trans ?_
    rw [hrest]
    exact RegsKept.of_tables rfl rfl rfl rfl rfl rfl rfl
  · exact (congrArg State.mem hrest).trans (advance_field State.mem (fun _ _ _ => rfl) s)
  · exact (congrArg State.pkg hrest).trans (advance_field State.pkg (fun _ _ _ => rfl) s)
  · exact (congrArg (fun z : State => z.cell c) hrest).trans (advance_field (fun z : State => z.cell c) (fun _ _ _ => rfl) s)

/-- A set instruction of a gang with an acting lane. -/
theorem completesSet_setForm {i : Instr} {s : State} {gd : Guard} {j : Fin 8} {y : JSet} {f : State → Nat → BitVec 16 → State}
    (he : exec i s = run gd (setForm i f) s) (hsup : s.cur.sup = false) (hm : memEvents i = (false, false)) (hw : waitsForAll i = false)
    (hne : actingLanes s gd ≠ []) (hr : RegsLanded s gd i)
    (h : SetTo s.cur.leader j.val y (advance s) (f (advance s) s.cur.leader (actMask s.cur.leader (actingLanes s gd)))) :
    CompletesSet i s j y := by
  refine completesSet_of (gd := gd) ?_ h
  refine (exec_unpriced he rfl (clear_excluded hsup hm hw hr rfl rfl) rfl).trans ?_
  have : (setForm i f).act s (advance s) (actingLanes s gd) = f (advance s) s.cur.leader (actMask s.cur.leader (actingLanes s gd)) := by
    simp [setForm, hne]
  rw [this]

/-- Settles O17. -/
theorem setInstructionResults : Obligations.SetInstructionResults := by
  intro gd j a s lead l x hsup hne
  refine ⟨fun hr => ?_, fun hr => ?_, fun hr => ?_, fun hr => ?_⟩
  · refine completesSet_setForm rfl hsup rfl rfl hne hr ?_
    rw [show x.arrived = (rdJ (advance s) s.cur.leader j.val).arrived by rw [rdJ_advance]]
    exact setTo_setStart _ _ j.isLt _
  · refine completesSet_setForm rfl hsup rfl rfl hne hr ?_
    rw [show x = rdJ (advance s) s.cur.leader j.val from (rdJ_advance ..).symm]
    exact setTo_setAdd _ _ j.isLt _
  · refine completesSet_setForm rfl hsup rfl rfl hne hr ?_
    rw [show x = rdJ (advance s) s.cur.leader j.val from (rdJ_advance ..).symm]
    exact setTo_setQuit _ _ j.isLt _
  · intro v m
    have hact : (formJwrite gd j a).act s (advance s) (actingLanes s gd) = setWrite (advance s) s.cur.leader j.val v := by
      simp only [formJwrite, List.isEmpty_eq_false_iff.2 hne]
      rfl
    refine completesSet_of (gd := gd) (t := setWrite (advance s) s.cur.leader j.val v) ?_ ?_
    · refine (exec_unpriced (f := formJwrite gd j a) rfl rfl (clear_excluded hsup rfl rfl hr rfl rfl) rfl).trans ?_
      rw [hact]
      rfl
    · have hm : sizeMask (advance s) s.cur.leader = m := by unfold sizeMask; rw [glogOf_advance]; rfl
      have := setTo_setWrite (advance s) s.cur.leader j.isLt v
      rw [hm, rdJ_advance] at this
      exact this

/-! ### Lanes that leave their path (R80, R85) -/

/-- The lanes of path n are numbered by the lowest of them. -/
theorem str_renumber (s : State) (lead n p : Nat) : (renumber s lead n).str p =
    if p ∈ pathLanes s lead n then { s.str p with lmode := .inPath ((pathLanes s lead n).headD lead - lead) } else s.str p := by
  unfold renumber
  cases hl : pathLanes s lead n with
  | nil => simp
  | cons q r =>
    have hpath : p ∈ q :: r → (s.str p).lmode = .inPath n := fun h => by
      have := List.mem_filter.1 (hl ▸ h : p ∈ pathLanes s lead n)
      simpa using this.2
    have hmod : ∀ v, (modStrs s (q :: r) (fun t => { t with lmode := .inPath v })).str p =
        if p ∈ q :: r then { s.str p with lmode := .inPath v } else s.str p := fun v =>
      str_modStrs (f := fun t => { t with lmode := .inPath v }) (fun _ => rfl) (q :: r) s p
    simp only [List.headD_cons]
    split
    · rename_i hm
      rw [hm]
      split
      · rename_i hp
        rw [← hpath hp]
      · rfl
    · refine Eq.trans ?_ (hmod (q - lead))
      split <;> rfl

/-- A path keeps its turn under its new number (R80). -/
theorem gang_renumber (s : State) (lead n l : Nat) : (renumber s lead n).gang l =
    if l = lead ∧ (s.gang lead).turn = true ∧ (s.gang lead).cur = n ∧ pathLanes s lead n ≠ [] then
      { s.gang lead with cur := (pathLanes s lead n).headD lead - lead } else s.gang l := by
  unfold renumber
  cases hl : pathLanes s lead n with
  | nil => simp
  | cons q r =>
    simp only [List.headD_cons]
    obtain ⟨v, hv⟩ := modStrs_eq (fun t => { t with lmode := .inPath (q - lead) }) (q :: r) s
    have hg : ∀ l, (modStrs s (q :: r) (fun t => { t with lmode := .inPath (q - lead) })).gang l = s.gang l := fun l => by rw [hv]; rfl
    split
    · rename_i hm
      split
      · rename_i h
        obtain ⟨rfl, -, hc, -⟩ := h
        rw [hm, ← hc]
      · rfl
    · rw [hg]
      split
      · rename_i hm h
        rw [gang_putGang, hg]
        by_cases hll : l = lead
        · rw [if_pos hll, if_pos ⟨hll, by simpa using h⟩]
        · rw [if_neg hll, if_neg fun hx => hll hx.1]
      · rename_i hm h
        rw [hg, if_neg fun hx => h (by simpa using ⟨hx.2.1, hx.2.2.1⟩)]

theorem renumber_eq (s : State) (lead n : Nat) : ∃ v g, renumber s lead n = (s.setStrands v).setGangs g := by
  unfold renumber
  split
  · exact ⟨s.strands, s.gangs, rfl⟩
  · rename_i q r _
    dsimp only
    split
    · exact ⟨s.strands, s.gangs, rfl⟩
    · obtain ⟨v, hv⟩ := modStrs_eq (fun t => { t with lmode := .inPath (q - lead) }) (q :: r) s
      split
      · exact ⟨v, _, by rw [hv]; rfl⟩
      · exact ⟨v, s.gangs, by rw [hv]; rfl⟩

theorem leavePath_eq (s t : State) : ∃ v g, leavePath s t = (t.setStrands v).setGangs g := by
  unfold leavePath
  split
  · exact renumber_eq t _ _
  · exact ⟨t.strands, t.gangs, rfl⟩

/-- A lane that is in no path keeps its place. -/
theorem str_leavePath {s t : State} {p : Nat} (h : ∀ n, (t.str p).lmode ≠ .inPath n) : (leavePath s t).str p = t.str p := by
  unfold leavePath
  split
  · rw [str_renumber, if_neg]
    intro hp
    exact h _ (by simpa using (List.mem_filter.1 hp).2)
  · rfl

/-- How a lane stands that waits on set j (R85). -/
def waitAt (j : Nat) (nba : Word) (now : Nat) (u : Strand) : Strand :=
  { u with lmode := .waiting j, st := .parked, park := .rejoin, wait := .event, nba := nba, parkedAt := now }

/-- Settles O18. -/
theorem waitingJoinsTheSet : Obligations.WaitingJoinsTheSet := by
  intro gd j s lead x hsup hr hv hne hreq
  generalize hw : modStrs (advance s) (actingLanes s gd) (waitAt j.val s.cur.nba s.time) = w
  generalize ht : setArrive w lead j.val (actMask lead (actingLanes s gd)) = t
  have hoperand : (formJwait gd j).operand s (actingLanes s gd) = .ok := by
    refine faultsOf_none fun p hp => ?_
    have := hreq p hp
    simp only [required, show rdJ s s.cur.leader j.val = x from rfl, hv]
    simp [show (x.member &&& ~~~x.quit).getLsbD (p - s.cur.leader) = true from this]
  have hx : exec (.jwait gd j) s = .next (mendWord s (actingLanes s gd) (.jwait gd j) (leavePath s t)) := by
    refine (exec_unpriced (f := formJwait gd j) rfl rfl (clear_excluded hsup rfl rfl hr rfl hoperand) rfl).trans ?_
    have : (formJwait gd j).act s (advance s) (actingLanes s gd) = leavePath s t := by
      rw [← ht, ← hw]
      simp only [formJwait, List.isEmpty_eq_false_iff.2 hne]
      rfl
    rw [this]
    rfl
  have hset : SetTo lead j.val _ w t := ht ▸ setTo_setArrive w lead j.isLt (actMask lead (actingLanes s gd))
  obtain ⟨v, hwv⟩ := modStrs_eq (waitAt j.val s.cur.nba s.time) (actingLanes s gd) (advance s)
  rw [hw] at hwv
  obtain ⟨⟨⟨js, gs, hrest⟩, -, -, -, -⟩, hhere, hothers⟩ := hset
  obtain ⟨v', g', hleft⟩ := leavePath_eq s t
  have hwJ : ∀ l n, rdJ w l n = rdJ s l n := fun l n => by rw [hwv]; exact rdJ_advance s l n
  have hstr : ∀ p ∈ actingLanes s gd, (leavePath s t).str p = waitAt j.val s.cur.nba s.time (issueOne s.cur.nba (s.str p)) := by
    intro p hp
    have e : t.str p = waitAt j.val s.cur.nba s.time (issueOne s.cur.nba (s.str p)) := by
      refine (congrArg (fun z : State => z.str p) hrest).trans ?_
      refine (congrArg (fun z : State => z.str p) hw.symm).trans ?_
      rw [str_modStrs (f := waitAt j.val s.cur.nba s.time) (fun _ => rfl), if_pos hp, str_advance, if_pos (List.mem_filter.1 hp).1]
    rw [str_leavePath, e]
    rw [e]
    exact fun n h => nomatch h
  have hJ : ∀ n, rdJ (leavePath s t) lead n = rdJ t lead n := fun n => by rw [hleft]; rfl
  have hall : ∃ v b j g, leavePath s t = (((s.setStrands v).setBlocks b).setJs j).setGangs g := by
    obtain ⟨v0, b0, hadv⟩ := advance_eq s
    exact ⟨v', b0, js, g', by rw [hleft, hrest, hwv, hadv]; rfl⟩
  obtain ⟨v1, b1, j1, g1, hall⟩ := hall
  refine ⟨_, hx, fun p hp => ?_, ?_, fun n hn hnj => ?_, RegsKept.mend ?_ _ _ _, BytesKept.of_mem ?_, fun c => ?_⟩
  · have e : (mendWord s (actingLanes s gd) (.jwait gd j) (leavePath s t)).str p = _ := hstr p hp
    rw [e]
    exact ⟨rfl, rfl, rfl, rfl⟩
  · refine (congrArg JSet.arrived ((hJ j.val).trans hhere)).trans ?_
    rw [hwJ]
  · exact ((hJ n).trans (hothers n hn hnj)).trans (hwJ lead n)
  · rw [hall]
    exact RegsKept.of_tables rfl rfl rfl rfl rfl rfl rfl
  · exact (congrArg State.mem hall :)
  · exact (congrArg (fun z : State => z.cell c) hall :)

end Sys2Proof.Machine
end

section
/-!
PROOFS. A lane stops (R63, R252): what the messages that wait for it, its loads in flight, its sets and its path leave of the state.
-/
namespace Sys2Proof.Machine

open Sys2Proof

/-- The lanes of the issuer have issued, at no price. -/
theorem issues_advance (s : State) : Issues false s (advance s) := issues_of s [] false fun _ => rfl

theorem keyIn_advance (s : State) (c : Nat) : keyIn (advance s) c = keyIn s c := by
  have hcell : (advance s).cell c = s.cell c := cell_congr ((issues_advance s).free rfl).1 c
  have hgrid : ∀ g, (advance s).grid g = s.grid g := fun g => by unfold State.grid; rw [(issues_advance s).grids]
  have hblock : ∀ b, ((advance s).block b).grid = (s.block b).grid := fun b =>
    (congrArg Block.grid ((issues_advance s).blocks b) :)
  unfold keyIn gridIn
  rw [hcell]
  cases (s.cell c).block with
  | none => rfl
  | some b => simp only [hblock, hgrid]

/-! ### Messages that a stopped lane leaves (R486) -/

/-- The record of a message that is orphaned touches memory, records and the cell. -/
def orphanTouch : Touch := { cell := fun _ => True, pend := fun _ => False, fences := False }

theorem mid_orphanMsg (s : State) (c : Nat) (m : Msg) (why : Nat) : Mid orphanTouch s (orphanMsg s c m why) := by
  unfold orphanMsg
  dsimp only
  split
  · exact mid_putCell s _ trivial
  · split
    · exact mid_putCell s _ trivial
    · exact ((mid_writeDwords _ _ s _).trans (mid_putCell _ _ trivial)).trans (mid_postLog _ _ _)

theorem mid_orphanSpilled (n : Nat) (s : State) (pos gen key : Nat) : Mid orphanTouch s (orphanSpilled s pos gen key n) := by
  induction n generalizing s with
  | zero => exact Mid.refl _ s
  | succ n ih =>
    unfold orphanSpilled
    split
    · exact Mid.refl _ s
    · exact ((mid_wrHome _ s _ _ _).trans (mid_orphanMsg _ _ _ _)).trans (ih _)

/-- Of the strands, orphaning the messages of a position changes the queue of that position alone. -/
theorem str_orphanAt (s : State) (p q : Nat) : (orphanAt s p).str q = if q = p then { s.str p with recvq := [] } else s.str q := by
  have hq : Mid orphanTouch (modStr s p fun t => { t with recvq := [] }) (orphanQueue s p) :=
    mid_foldl _ _ _ (fun u m _ => mid_orphanMsg u _ m 4) _
  rw [← str_modStr s p q fun t => { t with recvq := [] }]
  exact (hq.trans (mid_orphanSpilled _ _ _ _ _)).exact id q

/-- A position with no message queued and none spilled leaves its queue as it is. -/
theorem orphanAt_quiet {s : State} {p : Nat} (hq : (s.str p).recvq = [])
    (hs : oldestSpilled s p (s.str p).gen.toNat (keyIn s (cellOf p)).toNat = none) :
    orphanAt s p = modStr s p fun t => { t with recvq := [] } := by
  have hqueue : orphanQueue s p = modStr s p fun t => { t with recvq := [] } := by
    unfold orphanQueue
    rw [hq]
    rfl
  have hspill : ∀ n gen key, oldestSpilled s p gen key = none →
      orphanSpilled (modStr s p fun t => { t with recvq := [] }) p gen key n = modStr s p fun t => { t with recvq := [] } := by
    intro n gen key hn
    cases n with
    | zero => rfl
    | succ n =>
      have : oldestSpilled (modStr s p fun t => { t with recvq := [] }) p gen key = none := hn
      simp only [orphanSpilled, this]
  unfold orphanAt
  rw [hqueue, hspill _ _ _ hs]

/-! ### Lanes that stop -/

/-- How a lane stands that has stopped. -/
def stoppedAs (busy : Bool) (t : Strand) : Strand :=
  { t with st := .retired, park := if busy then .data else .none, wait := .nothing, lmode := .retired, mark := none, recvq := [] }

theorem str_stopLane (s : State) (p q : Nat) :
    ∃ b, (stopLane s p).str q = if q = p then stoppedAs b (s.str p) else s.str q := by
  refine ⟨hasPending (discardLands (orphanAt s p) p) p, ?_⟩
  unfold stopLane
  rw [str_modStr]
  have h : ∀ q, (discardLands (orphanAt s p) p).str q = (orphanAt s p).str q := fun _ => rfl
  rw [h, h, str_orphanAt, str_orphanAt]
  split
  · rename_i e; rw [if_pos rfl]; rfl
  · rfl

/-- Once some lanes have stopped, each of them is RETIRED, and every other lane stands as before. -/
theorem str_stopLanes (ls : List Nat) (s : State) (q : Nat) :
    (q ∈ ls → ((ls.foldl stopLane s).str q).st = .retired ∧ ((ls.foldl stopLane s).str q).lmode = .retired) ∧
      (q ∉ ls → (ls.foldl stopLane s).str q = s.str q) ∧ glogOf ((ls.foldl stopLane s).str q) = glogOf (s.str q) := by
  refine ⟨fun hq => ?_, fun hq => ?_, ?_⟩
  · refine foldl_reach (P := fun u : State => (u.str q).st = .retired ∧ (u.str q).lmode = .retired) s hq (fun u => ?_) fun u p _ hu => ?_
    · obtain ⟨b, e⟩ := str_stopLane u q q
      rw [e, if_pos rfl]
      exact ⟨rfl, rfl⟩
    · obtain ⟨b, e⟩ := str_stopLane u p q
      rw [e]
      split
      · exact ⟨rfl, rfl⟩
      · exact hu
  · refine foldl_keep (fun u : State => u.str q) _ ls s fun u p hp => ?_
    obtain ⟨b, e⟩ := str_stopLane u p q
    rw [e, if_neg fun h : q = p => hq (h ▸ hp)]
  · refine foldl_keep (fun u : State => glogOf (u.str q)) _ ls s fun u p _ => ?_
    obtain ⟨b, e⟩ := str_stopLane u p q
    show glogOf ((stopLane u p).str q) = glogOf (u.str q)
    rw [e]
    split
    · rename_i h; rw [h]; rfl
    · rfl

/-- u is s but for its strands and its work in flight, and where no message waited, none does. -/
structure Stopped (s u : State) : Prop where
  rest : ∃ v p, u = (s.setStrands v).setPend p
  msgs : ∀ q, (s.str q).recvq = [] → (u.str q).recvq = []
  gens : ∀ q, (u.str q).gen = (s.str q).gen

/-- Where no message waits for the lanes, stopping them changes strands and work in flight alone. -/
theorem stopped_stopLanes {s : State} {ls : List Nat} (h : ∀ p ∈ ls, (s.str p).recvq = [] ∧
    oldestSpilled s p (s.str p).gen.toNat (keyIn s (cellOf p)).toNat = none) : Stopped s (ls.foldl stopLane s) := by
  refine List.foldlRecOn (motive := fun u => Stopped s u) ls stopLane ⟨⟨s.strands, s.pend, rfl⟩, fun _ h => h, fun _ => rfl⟩ ?_
  rintro u ⟨⟨v, pd, hu⟩, hmsgs, hgens⟩ p hp
  have hquiet : orphanAt u p = modStr u p fun t => { t with recvq := [] } := by
    refine orphanAt_quiet (hmsgs p (h p hp).1) ?_
    rw [hgens p, hu]
    exact (h p hp).2
  refine ⟨?_, fun q hq => ?_, fun q => ?_⟩
  · unfold stopLane
    rw [hquiet, hu]
    exact ⟨_, _, rfl⟩
  · obtain ⟨b, e⟩ := str_stopLane u p q
    rw [e]
    split
    · rfl
    · exact hmsgs q hq
  · obtain ⟨b, e⟩ := str_stopLane u p q
    rw [e]
    split
    · rename_i h; rw [h]; exact hgens p
    · exact hgens q

theorem setsOnly_setsStop (s : State) (lead : Nat) (l : BitVec 16) (before : Nat → JSet) : SetsOnly lead s (setsStop s lead l before) := by
  refine SetsOnly.foldl (fun u j => ?_) _ s
  dsimp only
  split
  · exact setsOnly_noteOrphan u lead j _
  · exact setsOnly_testOrphan u lead j _

/-- A gang of which a lane lives on keeps its positions (R63). -/
theorem freeCheck_live {s : State} {lead q : Nat} (hq : q ∈ gangLanes s lead) (hl : liveSt (s.str q) ≠ .retired) : freeCheck s lead = s := by
  have : (gangLanes s lead).all (fun p => decide (liveSt (s.str p) = .retired)) = false := by
    rw [List.all_eq_false]
    exact ⟨q, hq, by simpa using hl⟩
  simp [freeCheck, this]

theorem liveSt_issueOne {t : Strand} {n : Word} : liveSt (issueOne n t) ≠ .retired := by
  unfold liveSt issueOne
  by_cases h : t.st = .supervisor <;> simp [h]

/-- What the acting lanes of a `stop` do to the gang, before its positions may become FREE. -/
def stopped (s t : State) (ls : List Nat) : State :=
  leavePath s (setsStop (ls.foldl stopLane t) s.cur.leader (actMask s.cur.leader ls) fun j => rdJ (ls.foldl stopLane t) s.cur.leader j)

theorem stopped_eq (s t : State) (ls : List Nat) : ∃ v j g, stopped s t ls = (((ls.foldl stopLane t).setStrands v).setJs j).setGangs g := by
  obtain ⟨⟨js, gs, hrest⟩, -, -, -, -⟩ := setsOnly_setsStop (ls.foldl stopLane t) s.cur.leader (actMask s.cur.leader ls)
    fun j => rdJ (ls.foldl stopLane t) s.cur.leader j
  obtain ⟨v, g, hleft⟩ := leavePath_eq s (setsStop (ls.foldl stopLane t) s.cur.leader (actMask s.cur.leader ls)
    fun j => rdJ (ls.foldl stopLane t) s.cur.leader j)
  exact ⟨v, js, g, by rw [stopped, hleft, hrest]; rfl⟩

/-- Apart from its place in a path, a lane stands as the stop of the lanes has left it. -/
theorem str_stopped (s t : State) (ls : List Nat) (p : Nat) :
    (((ls.foldl stopLane t).str p).lmode = .retired → (stopped s t ls).str p = (ls.foldl stopLane t).str p) ∧
      ∃ m, (stopped s t ls).str p = { (ls.foldl stopLane t).str p with lmode := m } := by
  obtain ⟨⟨js, gs, hrest⟩, -, -, -, -⟩ := setsOnly_setsStop (ls.foldl stopLane t) s.cur.leader (actMask s.cur.leader ls)
    fun j => rdJ (ls.foldl stopLane t) s.cur.leader j
  have hstr : ∀ p, (setsStop (ls.foldl stopLane t) s.cur.leader (actMask s.cur.leader ls)
      fun j => rdJ (ls.foldl stopLane t) s.cur.leader j).str p = (ls.foldl stopLane t).str p := fun p => by rw [hrest]; rfl
  refine ⟨fun h => ?_, ?_⟩
  · rw [← hstr] at h ⊢
    exact str_leavePath fun n e => by rw [h] at e; cases e
  · rw [← hstr]
    unfold stopped leavePath
    split
    · rw [str_renumber]
      split
      · exact ⟨_, rfl⟩
      · exact ⟨_, rfl⟩
    · exact ⟨_, rfl⟩

/-- Settles O22. -/
theorem stopRetiresTheLane : Obligations.StopRetiresTheLane := by
  rintro gd s hsup hr ⟨q, hq, hqa, hlive⟩
  have hx := exec_unpriced (f := formStop gd) (gd := gd) (s := s) (i := .stop gd) rfl rfl (clear_excluded hsup rfl rfl hr rfl rfl) rfl
  by_cases hne : actingLanes s gd = []
  · have hact : (formStop gd).act s (advance s) (actingLanes s gd) = advance s := by simp [formStop, hne]
    rw [hact] at hx
    refine ⟨_, hx, by simp [hne], fun _ => ⟨RegsKept.mend (regsKept_advance s) _ _ _, BytesKept.of_mem ?_, ?_⟩⟩
    · exact (issues_advance s).mem
    · exact (issues_advance s).pkg
  · have hlanes := str_stopLanes (actingLanes s gd) (advance s)
    have hfree : freeCheck (stopped s (advance s) (actingLanes s gd)) s.cur.leader = stopped s (advance s) (actingLanes s gd) := by
      refine freeCheck_live (q := q) ?_ ?_
      · refine (gangLanes_congr ?_).symm ▸ hq
        obtain ⟨m, e⟩ := (str_stopped s (advance s) (actingLanes s gd) s.cur.leader).2
        rw [e]
        exact (hlanes s.cur.leader).2.2.trans (glogOf_advance s _)
      · obtain ⟨m, e⟩ := (str_stopped s (advance s) (actingLanes s gd) q).2
        rw [e]
        show liveSt (((actingLanes s gd).foldl stopLane (advance s)).str q) ≠ .retired
        rw [(hlanes q).2.1 hqa, str_advance]
        split
        · exact liveSt_issueOne
        · exact hlive
    have hact : (formStop gd).act s (advance s) (actingLanes s gd) = stopped s (advance s) (actingLanes s gd) := by
      rw [← hfree]
      simp only [formStop, List.isEmpty_eq_false_iff.2 hne]
      rfl
    rw [hact] at hx
    obtain ⟨v, j, g, hw⟩ := stopped_eq s (advance s) (actingLanes s gd)
    refine ⟨_, hx, fun p hp => ?_, fun hquiet => ?_⟩
    · have hp' := (hlanes p).1 hp
      have e : (mendWord s (actingLanes s gd) (.stop gd) (stopped s (advance s) (actingLanes s gd))).str p = _ :=
        (str_stopped s (advance s) (actingLanes s gd) p).1 hp'.2
      rw [e]
      exact hp'
    · have hquiet' : ∀ p ∈ actingLanes s gd, ((advance s).str p).recvq = [] ∧
          oldestSpilled (advance s) p ((advance s).str p).gen.toNat (keyIn (advance s) (cellOf p)).toNat = none := by
        intro p hp
        rw [str_advance, if_pos (List.mem_filter.1 hp).1, keyIn_advance]
        exact ⟨(hquiet p hp).1, (advance_field (fun z => oldestSpilled z p _ _) (fun _ _ _ => rfl) s).trans (hquiet p hp).2⟩
      obtain ⟨⟨v', pd, hu⟩, -, -⟩ := stopped_stopLanes hquiet'
      obtain ⟨v0, b0, hadv⟩ := advance_eq s
      have hall : stopped s (advance s) (actingLanes s gd) = ((((s.setStrands v).setBlocks b0).setPend pd).setJs j).setGangs g := by
        rw [hw, hu, hadv]
        rfl
      clear hx hact hfree hw
      generalize stopped s (advance s) (actingLanes s gd) = w at hall ⊢
      have hregs : RegsKept s w noReg := by
        rw [hall]
        apply RegsKept.of_tables <;> simp
      have hmem : w.mem = s.mem := by rw [hall]; simp
      have hpkg : w.pkg = s.pkg := by rw [hall]; simp
      exact ⟨hregs.mend _ _ _, fun a => byteAt_congr (t := mendWord s _ _ w) hmem a, hpkg⟩

end Sys2Proof.Machine
end

section
/-!
PROOFS. Gangs that form (R51, R249): what `fuse` leaves of the strands of the group.
-/
namespace Sys2Proof.Machine

open Sys2Proof

/-! ### Lane and size in LPOS (R40) -/

theorem laneIx_withLane {t : Strand} {l : Word} {i g : Nat} (h : t.lpos = withLane l i g) (hi : i < 16) : laneIx t = i := by
  unfold laneIx
  rw [h, withLane, word, BitVec.toNat_ofNat]
  unfold field
  omega

theorem glogOf_withLane {t : Strand} {l : Word} {i g : Nat} (h : t.lpos = withLane l i g) (hg : g < 8) : glogOf t = g := by
  unfold glogOf
  rw [h, withLane, word, BitVec.toNat_ofNat]
  unfold field
  omega

/-! ### The banking of a cell (R110) -/

/-- A banking switch that starts changes cells, and of the strands whether they wait for its end. -/
theorem bankCheck_eq (s : State) (c : Nat) (b : Bool) (held : List Nat) :
    ∃ v cs, bankCheck s c b held = (s.setStrands v).setCells cs := by
  unfold bankCheck
  dsimp only
  split
  · exact ⟨s.strands, s.cells, rfl⟩
  · obtain ⟨v, h⟩ := modStrs_eq (fun t => { t with bankHold := true }) held (putCell s c { s.cell c with
        bankSw := some ((s.cell c).bankSw.getD (cyc s c, if fillsOut s c then .fills else .sweep (cyc s c + 33))) })
    exact ⟨v, _, h⟩

theorem str_bankCheck (s : State) (c : Nat) (b : Bool) (held : List Nat) (p : Nat) :
    ∃ h, (bankCheck s c b held).str p = { s.str p with bankHold := h } := by
  unfold bankCheck
  dsimp only
  split
  · exact ⟨_, rfl⟩
  · rw [str_modStrs (f := fun t => { t with bankHold := true }) fun _ => rfl]
    split
    · exact ⟨true, rfl⟩
    · exact ⟨_, rfl⟩

/-! ### The gang of a `fuse` -/

theorem mem_lanesFrom {lead n q : Nat} : q ∈ lanesFrom lead n ↔ lead ≤ q ∧ q < lead + n := by
  unfold lanesFrom
  rw [List.mem_map]
  constructor
  · rintro ⟨i, hi, rfl⟩
    have := List.mem_range.1 hi
    omega
  · rintro ⟨h1, h2⟩
    exact ⟨q - lead, List.mem_range.2 (by omega), by omega⟩

/-- What a lane holds of its gang, and how it stands. -/
def laneStand (t : Strand) : Nat × Nat × StName × Park × LMode × Word := (laneIx t, glogOf t, t.st, t.park, t.lmode, t.pc)

/-- A lane as the gang of lane `lead` binds it. -/
def bindLane (lead glog : Nat) (pc : Word) (p : Nat) (u : Strand) : Strand :=
  { u with lpos := withLane u.lpos (p - lead) glog, lmode := .inPath 0, st := .ready, park := .none, wait := .nothing, pc := pc, fuseG := 0 }

theorem laneStand_bindLane {lead glog p : Nat} (pc : Word) (u : Strand) (hp : p - lead < 16) (hg : glog < 8) :
    laneStand (bindLane lead glog pc p u) = (p - lead, glog, .ready, .none, .inPath 0, pc) := by
  unfold laneStand
  rw [laneIx_withLane (t := bindLane lead glog pc p u) rfl hp, glogOf_withLane (t := bindLane lead glog pc p u) rfl hg]
  rfl

/-- The lanes of the gang, bound one after another. -/
def boundLanes (s : State) (lead glog : Nat) : State :=
  (lanesFrom lead (2 ^ glog)).foldl (fun t p => modStr t p (bindLane lead glog (s.str lead).pc p))
    ((lanesFrom lead (2 ^ glog)).foldl (fun t p => if p = lead then t else dropGang t p)
      (dropK s ((lanesFrom lead (2 ^ glog)).filter (· ≠ lead))))

theorem boundLanes_place {s : State} {lead glog q : Nat} (hq : q ∈ lanesFrom lead (2 ^ glog)) (hg : glog ≤ 4) :
    laneStand ((boundLanes s lead glog).str q) = (q - lead, glog, .ready, .none, .inPath 0, (s.str lead).pc) := by
  have hpow : 2 ^ glog ≤ 16 := Nat.le_trans (Nat.pow_le_pow_right (by omega) hg) (by decide)
  have hlt := mem_lanesFrom.1 hq
  refine foldl_value (fun u : State => laneStand (u.str q)) _ _ _ _ q hq (fun u => ?_) fun u p _ hne => ?_
  · rw [str_modStr, if_pos rfl]
    exact laneStand_bindLane _ _ (by omega) (by omega)
  · show laneStand ((modStr u p _).str q) = laneStand (u.str q)
    rw [str_modStr, if_neg (Ne.symm hne)]

theorem boundLanes_mem (s : State) (lead glog : Nat) : (boundLanes s lead glog).mem = s.mem := by
  have hdrop : ∀ (u : State) (ls : List Nat), (ls.foldl (fun t p => if p = lead then t else dropGang t p) u).mem = u.mem := fun u ls =>
    foldl_keep State.mem _ ls u fun t p _ => by
      show (if p = lead then t else dropGang t p).mem = t.mem
      split <;> rfl
  exact (foldl_keep State.mem (fun t p => modStr t p (bindLane lead glog (s.str lead).pc p)) _ _ fun _ _ _ => rfl).trans (hdrop _ _)

/-- The lanes of a gang that forms stand together at the leader's PC (R51). -/
theorem formGang_place {s : State} {lead glog q : Nat} (hq : q ∈ lanesFrom lead (2 ^ glog)) (hg : glog ≤ 4) :
    laneStand ((formGang s lead glog).str q) = (q - lead, glog, .ready, .none, .inPath 0, (s.str lead).pc) := by
  have e : formGang s lead glog = bankCheck (putGang (boundLanes s lead glog) lead
      { splitpol := (s.gang lead).splitpol, turn := true, cur := 0, last := 0, qleft := 64 }) (cellOf lead)
      (!holdsGang s (cellOf lead)) (lanesFrom lead (2 ^ glog)) := rfl
  obtain ⟨h, hb⟩ := str_bankCheck (putGang (boundLanes s lead glog) lead
      { splitpol := (s.gang lead).splitpol, turn := true, cur := 0, last := 0, qleft := 64 }) (cellOf lead)
      (!holdsGang s (cellOf lead)) (lanesFrom lead (2 ^ glog)) q
  rw [e, hb]
  exact boundLanes_place hq hg

theorem formGang_mem (s : State) (lead glog : Nat) : (formGang s lead glog).mem = s.mem := by
  obtain ⟨v, c, h⟩ := bankCheck_eq (putGang (boundLanes s lead glog) lead
      { splitpol := (s.gang lead).splitpol, turn := true, cur := 0, last := 0, qleft := 64 }) (cellOf lead)
      (!holdsGang s (cellOf lead)) (lanesFrom lead (2 ^ glog))
  exact (congrArg State.mem h).trans (boundLanes_mem s lead glog)

/-- A strand parks at its `fuse`. -/
def fuseWait (glog now : Nat) (u : Strand) : Strand := { u with st := .parked, park := .fuse, wait := .event, fuseG := glog, parkedAt := now }

/-- Settles O20. -/
theorem fuseFormsAGang : Obligations.FuseFormsAGang := by
  intro gd n p s group waits hsup hlanes hlead hsolo hacting hr hn hclash
  have hls : actingLanes s gd = [p] := by simp [actingLanes, hlanes, hacting]
  have hgang : inGang s = false := by simp [inGang, hlead, hsolo]
  have hoperand : (formFuse gd n).operand s (actingLanes s gd) = .ok := by
    refine faultsOf_none fun q hq => ?_
    rw [hls, List.mem_singleton] at hq
    rw [hq, hclash]
    rfl
  have hx := exec_unpriced (f := formFuse gd n) (gd := gd) (s := s) (i := .fuse gd n) rfl rfl
    (clear_excluded hsup rfl rfl hr (by rw [hgang]; rfl) hoperand) rfl
  generalize hu : modStr (advance s) p (fuseWait n.val s.time) = u at *
  obtain ⟨base, hbase⟩ : ∃ b, group = lanesFrom b (2 ^ n.val) := ⟨_, rfl⟩
  have hhead : group.headD p = base := by
    rw [hbase, lanesFrom]
    obtain ⟨k, hk⟩ : ∃ k, 2 ^ n.val = k + 1 := ⟨2 ^ n.val - 1, by have := Nat.two_pow_pos n.val; omega⟩
    rw [hk, List.range_succ_eq_map]
    rfl
  generalize hall : group.all (fun q => decide ((u.str q).st = .parked ∧ (u.str q).park = .fuse ∧ (u.str q).fuseG = n.val)) = all
  have hact : (formFuse gd n).act s (advance s) (actingLanes s gd) = if all then formGang u base n.val else u := by
    rw [hls, ← hhead, ← hall, ← hu]
    simp only [formFuse, hn, if_false, List.foldl_cons, List.foldl_nil]
    rfl
  rw [hact] at hx
  have hup : u.str p = fuseWait n.val s.time (issueOne s.cur.nba (s.str p)) := by
    rw [← hu, str_modStr, if_pos rfl, str_advance, if_pos (by simp [hlanes])]
  have huq : ∀ q, q ≠ p → u.str q = s.str q := fun q hq => by
    rw [← hu, str_modStr, if_neg hq, str_advance, if_neg (by simpa [hlanes] using hq)]
  have hmem : u.mem = s.mem := by rw [← hu]; exact (issues_advance s).mem
  refine ⟨_, hx, ?_, fun hwait => ?_, ?_⟩
  · rintro ⟨q, hq, hqp, hw⟩
    have hno : all = false := by
      rw [← hall, List.all_eq_false]
      exact ⟨q, hq, by rw [huq q hqp]; exact fun h => hw (of_decide_eq_true h)⟩
    rw [hno]
    have hrest : RestKept s (advance s) := issued_rest s []
    refine ⟨?_, ?_, ?_, ?_, huq, RestKept.mend ?_ _ _ _, RegsKept.mend ?_ _ _ _⟩
    · exact congrArg Strand.st hup
    · exact congrArg Strand.park hup
    · exact congrArg Strand.fuseG hup
    · exact congrArg Strand.pc hup
    · rw [← hu]
      exact hrest.after rfl rfl rfl rfl rfl rfl rfl rfl (fun _ h => h) rfl rfl
    · rw [← hu]
      exact (regsKept_advance s).trans (RegsKept.of_tables rfl rfl rfl rfl rfl rfl rfl)
  · have hyes : all = true := by
      rw [← hall, List.all_eq_true]
      intro q hq
      by_cases hqp : q = p
      · rw [hqp, hup]; simp [fuseWait]
      · rw [huq q hqp]; exact decide_eq_true (hwait q hq hqp)
    rw [hyes, hhead]
    intro q hq
    have h : laneStand ((formGang u base n.val).str q) = _ := formGang_place (hbase ▸ hq) (by omega)
    simp only [laneStand, Prod.mk.injEq] at h
    obtain ⟨h1, h2, h3, h4, h5, h6⟩ := h
    refine ⟨h1, h2, h3, h4, h5, h6.trans ?_⟩
    split
    · rename_i e; rw [e, hup]; rfl
    · rename_i e; rw [huq _ e]
  · have : (if all then formGang u base n.val else u).mem = s.mem := by
      split
      · exact (formGang_mem u base n.val).trans hmem
      · exact hmem
    exact fun a => byteAt_congr (t := mendWord s _ _ _) this a

end Sys2Proof.Machine
end

section
/-!
PROOFS. Gangs that dissolve, lanes that leave their path and quanta that end (R52, R53, R80, R84, R250, R251, R253).
-/
namespace Sys2Proof.Machine

open Sys2Proof

/-! ### The gang dissolves (R52) -/

/-- What one step of a fold over distinct lanes makes of a lane, where every other step leaves it alone. -/
theorem foldl_once {P Q : State → Prop} {f : State → Nat → State} {ls : List Nat} {s : State} {q : Nat} (hnd : ls.Nodup) (hq : q ∈ ls)
    (h0 : P s) (h1 : ∀ u p, p ≠ q → P u → P (f u p)) (h2 : ∀ u, P u → Q (f u q)) (h3 : ∀ u p, p ≠ q → Q u → Q (f u p)) :
    Q (ls.foldl f s) := by
  obtain ⟨l, r, rfl⟩ := List.append_of_mem hq
  obtain ⟨-, hr, hd⟩ := List.nodup_append.1 hnd
  have hl : ∀ p ∈ l, p ≠ q := fun p hp => hd p hp q List.mem_cons_self
  have hrq : ∀ p ∈ r, p ≠ q := fun p hp e => (List.nodup_cons.1 hr).1 (e ▸ hp)
  rw [List.foldl_append, List.foldl_cons]
  exact List.foldlRecOn (motive := Q) _ _ (h2 _ (List.foldlRecOn (motive := P) _ _ h0 fun u hu p hp => h1 u p (hl p hp) hu))
    fun u hu p hp => h3 u p (hrq p hp) hu

theorem nodup_lanesFrom (lead n : Nat) : (lanesFrom lead n).Nodup :=
  List.Pairwise.map _ (fun _ _ h e => h (Nat.add_left_cancel e)) List.nodup_range

/-- Where a lane of a dissolved gang stands: at its `jwait` if it waited on a set. -/
def soloPc (t : Strand) : Word :=
  match t.lmode with
  | .waiting _ => t.pc - 4#64
  | _ => t.pc

/-- In u lane q is a solo strand, as the gang of `lead` in s leaves it. -/
structure SoloAt (s : State) (lead q : Nat) (u : State) : Prop where
  lane : laneIx (u.str q) = 0
  size : glogOf (u.str q) = 0
  path : (u.str q).lmode = .inPath 0
  live : liveSt (u.str q) ≠ .retired
  pc : (u.str q).pc = soloPc (s.str q)
  gang : ∃ o, u.gang q = { splitpol := (s.gang lead).splitpol, turn := true, cur := 0, last := 0, qleft := 64, orphans := o }
  regs : ∀ k, k < 16 → rdK u q k = rdK s lead k

theorem SoloAt.of_same {s u v : State} {lead q : Nat} (h : SoloAt s lead q u) (hs : ∃ b, v.str q = { u.str q with bankHold := b })
    (hg : v.gang q = u.gang q) (hk : ∀ k, k < 16 → rdK v q k = rdK u q k) : SoloAt s lead q v := by
  obtain ⟨b, e⟩ := hs
  obtain ⟨h1, h2, h3, h4, h5, h6, h7⟩ := h
  refine ⟨?_, ?_, ?_, ?_, ?_, hg ▸ h6, fun k hk' => (hk k hk').trans (h7 k hk')⟩ <;> rw [e]
  · exact h1
  · exact h2
  · exact h3
  · exact h4
  · exact h5

theorem str_dropGang (s : State) (p q : Nat) : (dropGang s p).str q = s.str q := rfl

theorem str_dropWork (s : State) (ps : List Nat) (q : Nat) : (dropWork s ps).str q = s.str q := rfl

theorem tget_dropGang {s : State} {p q : Nat} (h : q ≠ p) :
    (dropGang s p).gang q = s.gang q ∧ ∀ k, k < 16 → rdK (dropGang s p) q k = rdK s q k := by
  refine ⟨tget_tdel_ne _ _ h, fun k hk => ?_⟩
  refine (tget_tclear _ _ _ _ _).trans ?_
  rw [if_neg (by omega)]
  rfl

theorem SoloAt.dropGang {s u : State} {lead q p : Nat} (h : SoloAt s lead q u) (hp : q ≠ p) : SoloAt s lead q (Machine.dropGang u p) :=
  h.of_same ⟨(u.str q).bankHold, rfl⟩ (tget_dropGang hp).1 (tget_dropGang hp).2

theorem mid_orphanAt_after (s : State) (p : Nat) : Mid orphanTouch (modStr s p fun t => { t with recvq := [] }) (orphanAt s p) :=
  (mid_foldl _ _ _ (fun u m _ => mid_orphanMsg u _ m 4) _).trans (mid_orphanSpilled _ _ _ _ _)

theorem str_freePos {s : State} {p q : Nat} : (freePos s p).str q = if q = p then { gen := (s.str p).gen } else s.str q := by
  unfold freePos
  rw [str_putStr]
  rw [str_dropGang, str_dropGang, str_dropWork, str_dropWork, str_orphanAt, str_orphanAt]
  by_cases hq : q = p
  · rw [if_pos hq, if_pos hq, if_pos rfl]
  · rw [if_neg hq, if_neg hq, if_neg hq]

theorem SoloAt.freePos {s u : State} {lead q p : Nat} (h : SoloAt s lead q u) (hp : q ≠ p) : SoloAt s lead q (Machine.freePos u p) := by
  have hmid := mid_orphanAt_after u p
  refine h.of_same ⟨(u.str q).bankHold, by rw [str_freePos, if_neg hp]⟩ ?_ fun k hk => ?_
  · refine (tget_dropGang (s := dropWork (orphanAt u p) [p]) hp).1.trans ?_
    exact congrArg (fun g => tget ({} : Gang) g q) hmid.gangs
  · refine ((tget_dropGang (s := dropWork (orphanAt u p) [p]) hp).2 k hk).trans ?_
    exact congrArg (fun g => tget 0#64 g (16 * q + k)) hmid.ks

theorem SoloAt.bankCheck {s u : State} {lead q : Nat} (h : SoloAt s lead q u) (c : Nat) (b : Bool) (held : List Nat) :
    SoloAt s lead q (Machine.bankCheck u c b held) := by
  obtain ⟨v, cs, e⟩ := bankCheck_eq u c b held
  exact h.of_same (str_bankCheck u c b held q) (by rw [e]; rfl) fun k _ => by rw [e]; rfl

/-- Every lane of a list is a gang of one. -/
def AllSolo (ls : List Nat) (u : State) : Prop := ∀ p ∈ ls, glogOf (u.str p) = 0

theorem gangLanes_solo {u : State} {p : Nat} (h : glogOf (u.str p) = 0) : gangLanes u p = [p] := by
  unfold gangLanes
  rw [h]
  rfl

/-- A lane that lives keeps its place when another becomes FREE. -/
theorem SoloAt.freeCheck {s u : State} {lead q p : Nat} {ls : List Nat} (h : SoloAt s lead q u) (ha : AllSolo ls u) (hp : p ∈ ls) :
    SoloAt s lead q (Machine.freeCheck u p) ∧ AllSolo ls (Machine.freeCheck u p) := by
  have hone := gangLanes_solo (ha p hp)
  by_cases hpq : q = p
  · subst hpq
    rw [freeCheck_live (q := q) (by rw [hone]; exact List.mem_singleton.2 rfl) h.live]
    exact ⟨h, ha⟩
  · unfold Machine.freeCheck freeLanes
    dsimp only
    rw [hone]
    split
    · rw [List.foldl_cons, List.foldl_nil]
      refine ⟨((h.freePos hpq).dropGang hpq).bankCheck _ _ _, fun r hr => ?_⟩
      obtain ⟨b, e⟩ := str_bankCheck (Machine.dropGang (Machine.freePos u p) p) (cellOf p)
        (decide (holdsGang u (cellOf p) ≠ holdsGang (Machine.dropGang (Machine.freePos u p) p) (cellOf p)))
        (heldIn (Machine.dropGang (Machine.freePos u p) p) (cellOf p)) r
      rw [e]
      refine (congrArg glogOf (str_dropGang _ _ _)).trans ?_
      rw [str_freePos]
      split
      · simp [glogOf, field]
      · exact ha r hr
    · exact ⟨h, ha⟩

theorem str_dropToken (ls : List Nat) (s : State) (q : Nat) : ∃ w, (dropToken ls s).str q = { s.str q with wait := w } := by
  unfold dropToken
  cases ls with
  | nil => exact ⟨_, rfl⟩
  | cons p r =>
    dsimp only
    rw [str_modStrs (f := fun t => if t.wait = .token then { t with wait := .nothing } else t)]
    · split
      · by_cases hw : (s.str q).wait = .token
        · exact ⟨.nothing, if_pos hw⟩
        · exact ⟨_, if_neg hw⟩
      · exact ⟨_, rfl⟩
    · intro t
      by_cases hw : t.wait = .token <;> simp [hw]

/-- A lane of the gang that dissolves becomes a solo strand with the gang's k registers. -/
def splitLane (s : State) (lead : Nat) (t : State) (p : Nat) : State :=
  let due := fun p => ((s.gang lead).orphans.filter (fun o => o.lanes.getLsbD (p - lead))).map (fun o => { o with lanes := 1#16 })
  let pol := (s.gang lead).splitpol
  let ks := (List.range 16).map (rdK s lead)
  let view := fun p => match (s.str p).lmode with
    | .waiting j => some (setView (rdJ s lead j))
    | _ => none
  let u := (List.range 16).foldl (fun v n => wrK v p n (ks.getD n 0#64)) t
  match view p with
  | some w => modStr (soloLane u pol (due p ++ [{ lanes := 1#16, view := w }]) p) p
      (fun x => { clearReason false x with pc := x.pc - 4#64 })
  | none => soloLane u pol (due p) p

theorem splitGang_eq (s : State) (lead : Nat) :
    let s3 := (gangLanes s lead).foldl (fun t p => freeCheck t p) ((gangLanes s lead).foldl (splitLane s lead)
      (dropToken (gangLanes s lead) ((gangLanes s lead).foldl dropGang s)))
    splitGang s lead = bankCheck s3 (cellOf lead) (decide (holdsGang s (cellOf lead) ≠ holdsGang s3 (cellOf lead)))
      ((gangLanes s lead).filter (fun p => decide ((s3.str p).st ≠ .free))) := rfl

/-- The k registers of the gang, copied to a position. -/
def copyK (s : State) (lead p : Nat) (t : State) : State :=
  (List.range 16).foldl (fun v n => wrK v p n (((List.range 16).map (rdK s lead)).getD n 0#64)) t

theorem copyK_eq (s : State) (lead p : Nat) (t : State) : ∃ k, copyK s lead p t = t.setKs k :=
  List.foldlRecOn (motive := fun u => ∃ k, u = t.setKs k) _ _ ⟨t.ks, rfl⟩ fun u ⟨k, hk⟩ n _ => by subst hk; exact ⟨_, rfl⟩

theorem rdK_copyK (s : State) (lead p : Nat) (t : State) {q k : Nat} (hk : k < 16) :
    rdK (copyK s lead p t) q k = if q = p then rdK s lead k else rdK t q k := by
  have hne : ∀ u n, n ∈ List.range 16 → 16 * q + k ≠ 16 * p + n → rdK (wrK u p n (((List.range 16).map (rdK s lead)).getD n 0#64)) q k =
      rdK u q k := fun u n _ h => tget_tset_ne _ _ _ h
  split
  · rename_i hq
    subst hq
    refine foldl_value (fun u => rdK u q k) _ _ (List.range 16) t k (List.mem_range.2 hk) (fun u => ?_) fun u n hn h => hne u n hn (by omega)
    refine (tget_tset_self _ _ _ _).trans ?_
    simp [List.getD_eq_getElem?_getD, hk]
  · rename_i hq
    refine foldl_keep (fun u => rdK u q k) _ (List.range 16) t fun u n hn => hne u n hn ?_
    have := List.mem_range.1 hn
    omega

theorem gang_soloLane (s : State) (pol : Word) (o : List Orphan) (p q : Nat) : (soloLane s pol o p).gang q =
    if q = p then { splitpol := pol, turn := true, cur := 0, last := 0, qleft := 64, orphans := o } else s.gang q := by
  unfold soloLane
  dsimp only
  split <;> exact gang_putGang _ _ _ _

theorem soloLane_ks (s : State) (pol : Word) (o : List Orphan) (p : Nat) : (soloLane s pol o p).ks = s.ks := by
  unfold soloLane
  dsimp only
  split <;> rfl

theorem str_soloLane (s : State) (pol : Word) (o : List Orphan) (p q : Nat) : (soloLane s pol o p).str q =
    if q = p then { s.str p with
        lpos := withLane (s.str p).lpos 0 0
        lmode := if (s.str p).lmode = .retired ∨ (s.str p).lmode = .hollow then (s.str p).lmode else .inPath 0 }
      else s.str q := by
  have hput : ∀ (u : State) g, (putGang u p g).str q = u.str q := fun _ _ => rfl

  unfold soloLane
  dsimp only
  by_cases hq : q = p
  · subst hq
    split <;> simp [str_modStr, hput]
  · split <;> simp [str_modStr, hput, hq]

/-- What becomes of lane p when it leaves its set, if it waits on one. -/
def atWait (w : Option Word) (p : Nat) (u : State) : State :=
  match w with
  | some _ => modStr u p (fun x => { clearReason false x with pc := x.pc - 4#64 })
  | none => u

/-- The view of the set that a lane waits on. -/
def waitView (s : State) (lead p : Nat) : Option Word :=
  match (s.str p).lmode with
  | .waiting j => some (setView (rdJ s lead j))
  | _ => none

theorem splitLane_eq (s : State) (lead : Nat) (t : State) (p : Nat) :
    ∃ o, splitLane s lead t p = atWait (waitView s lead p) p (soloLane (copyK s lead p t) (s.gang lead).splitpol o p) := by
  unfold splitLane waitView
  dsimp only
  cases h : (s.str p).lmode <;> exact ⟨_, rfl⟩

theorem str_atWait_ne {w : Option Word} {p q : Nat} {u : State} (h : q ≠ p) : (atWait w p u).str q = u.str q := by
  cases w with
  | none => rfl
  | some v => exact (str_modStr _ _ _ _).trans (if_neg h)

theorem atWait_tables (w : Option Word) (p : Nat) (u : State) : (atWait w p u).gangs = u.gangs ∧ (atWait w p u).ks = u.ks := by
  cases w <;> exact ⟨rfl, rfl⟩

/-- The step of another lane leaves a lane alone. -/
theorem splitLane_ne {s : State} {lead : Nat} {t : State} {p q : Nat} (h : q ≠ p) :
    (splitLane s lead t p).str q = t.str q ∧ (splitLane s lead t p).gang q = t.gang q ∧
      ∀ k, k < 16 → rdK (splitLane s lead t p) q k = rdK t q k := by
  obtain ⟨o, e⟩ := splitLane_eq s lead t p
  obtain ⟨k, hk⟩ := copyK_eq s lead p t
  obtain ⟨hg, hks⟩ := atWait_tables (waitView s lead p) p (soloLane (copyK s lead p t) (s.gang lead).splitpol o p)
  rw [e]
  refine ⟨?_, ?_, fun k hk' => ?_⟩
  · rw [str_atWait_ne h, str_soloLane, if_neg h, hk]
    rfl
  · refine (congrArg (fun g => tget ({} : Gang) g q) hg).trans ((gang_soloLane _ _ _ _ _).trans ?_)
    rw [if_neg h, hk]
    rfl
  · refine (congrArg (fun g => tget 0#64 g (16 * q + k)) (hks.trans (soloLane_ks _ _ _ _))).trans ?_
    exact (rdK_copyK s lead p t hk').trans (if_neg h)

theorem liveSt_clearReason {t : Strand} {b : Bool} {w : Word} (h : liveSt t ≠ .retired) :
    liveSt { clearReason b t with pc := w } ≠ .retired := by
  unfold liveSt clearReason goOn at *
  by_cases hf : t.st = .frozen
  · simpa [hf] using h
  · by_cases hp : t.st = .parked <;> simp_all

/-- The strand of a lane once it is alone. -/
theorem soloAt_splitLane {s : State} {lead : Nat} {t : State} {q : Nat} (ht : ∃ w, t.str q = { s.str q with wait := w })
    (hl : liveSt (s.str q) ≠ .retired) (hr : (s.str q).lmode ≠ .retired) (hh : (s.str q).lmode ≠ .hollow) :
    SoloAt s lead q (splitLane s lead t q) := by
  obtain ⟨o, e⟩ := splitLane_eq s lead t q
  obtain ⟨k, hk⟩ := copyK_eq s lead q t
  obtain ⟨w, hw⟩ := ht
  obtain ⟨hg, hks⟩ := atWait_tables (waitView s lead q) q (soloLane (copyK s lead q t) (s.gang lead).splitpol o q)
  have hsolo : (soloLane (copyK s lead q t) (s.gang lead).splitpol o q).str q =
      { s.str q with wait := w, lpos := withLane (s.str q).lpos 0 0, lmode := .inPath 0 } := by
    have hc : (copyK s lead q t).str q = { s.str q with wait := w } := by rw [hk, ← hw]; rfl
    rw [str_soloLane, if_pos rfl, hc]
    simp [hr, hh]
  have hstr : (splitLane s lead t q).str q =
      match waitView s lead q with
      | some _ => { clearReason false { s.str q with wait := w, lpos := withLane (s.str q).lpos 0 0, lmode := .inPath 0 } with
          pc := (s.str q).pc - 4#64 }
      | none => { s.str q with wait := w, lpos := withLane (s.str q).lpos 0 0, lmode := .inPath 0 } := by
    rw [e]
    cases waitView s lead q with
    | none => exact hsolo
    | some v => exact (str_modStr _ _ _ _).trans ((if_pos rfl).trans (by rw [hsolo]))
  have hgang : (splitLane s lead t q).gang q =
      { splitpol := (s.gang lead).splitpol, turn := true, cur := 0, last := 0, qleft := 64, orphans := o } := by
    rw [e]
    exact (congrArg (fun g => tget ({} : Gang) g q) hg).trans ((gang_soloLane _ _ _ _ _).trans (if_pos rfl))
  have hregs : ∀ k, k < 16 → rdK (splitLane s lead t q) q k = rdK s lead k := fun k hk' => by
    rw [e]
    refine (congrArg (fun g => tget 0#64 g (16 * q + k)) (hks.trans (soloLane_ks _ _ _ _))).trans ?_
    exact (rdK_copyK s lead q t hk').trans (if_pos rfl)
  generalize hx : splitLane s lead t q = u at *
  have hclear : ∀ x : Strand, (clearReason false x).lpos = x.lpos ∧ (clearReason false x).lmode = x.lmode := fun x => by
    unfold clearReason
    split <;> exact ⟨rfl, rfl⟩
  cases hv : waitView s lead q with
  | none =>
    rw [hv] at hstr
    have hpc : soloPc (s.str q) = (s.str q).pc := by
      unfold waitView at hv
      unfold soloPc
      cases hm : (s.str q).lmode <;> simp_all
    have hlpos : (u.str q).lpos = withLane (s.str q).lpos 0 0 := congrArg Strand.lpos hstr
    refine ⟨?_, ?_, by rw [hstr], by rw [hstr]; exact hl, by rw [hstr, hpc], ⟨o, hgang⟩, hregs⟩
    · exact laneIx_withLane hlpos (by omega)
    · exact glogOf_withLane hlpos (by omega)
  | some v =>
    rw [hv] at hstr
    have hpc : soloPc (s.str q) = (s.str q).pc - 4#64 := by
      unfold waitView at hv
      unfold soloPc
      cases hm : (s.str q).lmode <;> simp_all
    have hlpos : (u.str q).lpos = withLane (s.str q).lpos 0 0 := (congrArg Strand.lpos hstr).trans (hclear _).1
    refine ⟨?_, ?_, ?_, ?_, by rw [hstr, hpc], ⟨o, hgang⟩, hregs⟩
    · exact laneIx_withLane hlpos (by omega)
    · exact glogOf_withLane hlpos (by omega)
    · exact (congrArg Strand.lmode hstr).trans (hclear _).2
    · rw [hstr]
      exact liveSt_clearReason hl

theorem glogOf_splitLane (s : State) (lead : Nat) (t : State) (p : Nat) : glogOf ((splitLane s lead t p).str p) = 0 := by
  obtain ⟨o, e⟩ := splitLane_eq s lead t p
  have hsolo : ((soloLane (copyK s lead p t) (s.gang lead).splitpol o p).str p).lpos = withLane ((copyK s lead p t).str p).lpos 0 0 := by
    rw [str_soloLane, if_pos rfl]
  have hlpos : ((splitLane s lead t p).str p).lpos = withLane ((copyK s lead p t).str p).lpos 0 0 := by
    rw [e, ← hsolo]
    cases waitView s lead p with
    | none => rfl
    | some w =>
      refine congrArg Strand.lpos ((str_modStr _ _ _ _).trans (if_pos rfl)) |>.trans ?_
      unfold clearReason
      split <;> rfl
  exact glogOf_withLane hlpos (by omega)

/-- Each lane of a gang that dissolves which has not retired is a solo strand (R52). -/
theorem soloAt_splitGang {s : State} {lead q : Nat} (hq : q ∈ gangLanes s lead) (hl : liveSt (s.str q) ≠ .retired)
    (hr : (s.str q).lmode ≠ .retired) (hh : (s.str q).lmode ≠ .hollow) : SoloAt s lead q (splitGang s lead) := by
  rw [splitGang_eq]
  refine SoloAt.bankCheck ?_ _ _ _
  have hnd : (gangLanes s lead).Nodup := nodup_lanesFrom _ _
  have hstart : ∃ w, (dropToken (gangLanes s lead) ((gangLanes s lead).foldl dropGang s)).str q = { s.str q with wait := w } := by
    obtain ⟨w, e⟩ := str_dropToken (gangLanes s lead) ((gangLanes s lead).foldl dropGang s) q
    exact ⟨w, by rw [e, foldl_keep (fun u : State => u.str q) dropGang _ s fun _ _ _ => rfl]⟩
  have hsplit : SoloAt s lead q ((gangLanes s lead).foldl (splitLane s lead)
      (dropToken (gangLanes s lead) ((gangLanes s lead).foldl dropGang s))) :=
    foldl_once (P := fun u => ∃ w, u.str q = { s.str q with wait := w }) hnd hq hstart
      (fun u p hp ⟨w, hu⟩ => ⟨w, by rw [(splitLane_ne (Ne.symm hp)).1, hu]⟩)
      (fun u hu => soloAt_splitLane hu hl hr hh)
      fun u p hp hu => hu.of_same ⟨(u.str q).bankHold, by rw [(splitLane_ne (Ne.symm hp)).1]⟩ (splitLane_ne (Ne.symm hp)).2.1
        (splitLane_ne (Ne.symm hp)).2.2
  have hsolo : AllSolo (gangLanes s lead) ((gangLanes s lead).foldl (splitLane s lead)
      (dropToken (gangLanes s lead) ((gangLanes s lead).foldl dropGang s))) := fun p hp =>
    foldl_once (P := fun _ => True) (Q := fun u => glogOf (u.str p) = 0) hnd hp trivial (fun _ _ _ _ => trivial)
      (fun u _ => glogOf_splitLane s lead u p) fun u r hr hu => by rw [(splitLane_ne (Ne.symm hr)).1, hu]
  exact (List.foldlRecOn (motive := fun u => SoloAt s lead q u ∧ AllSolo (gangLanes s lead) u) _ _ ⟨hsplit, hsolo⟩
    fun u hu p hp => hu.1.freeCheck hu.2 hp).1

end Sys2Proof.Machine
end

section
/-!
PROOFS. `split`, `detach` and `yield` (R52, R53, R250, R251, R253).
-/
namespace Sys2Proof.Machine

open Sys2Proof

/-- What `split`, `detach` and `yield` leave alone, whatever they do to the lanes and the gang of their issuer. -/
structure GangActs (s t : State) : Prop where
  regs : RegsKept s t noReg
  bytes : BytesKept s t
  pkg : t.pkg = s.pkg
  gangs : ∀ l, l ≠ s.cur.leader → t.gang l = s.gang l
  sets : ∀ l m, l ≠ s.cur.leader → m < 8 → rdJ t l m = rdJ s l m
  cells : ∀ c, t.cell c = s.cell c

theorem gangActs_advance (s : State) : GangActs s (advance s) where
  regs := regsKept_advance s
  bytes a := byteAt_congr (issues_advance s).mem a
  pkg := (issues_advance s).pkg
  gangs l _ := gang_advance s l
  sets l m _ _ := rdJ_advance s l m
  cells c := cell_congr ((issues_advance s).free rfl).1 c

/-- What changes strands and gangs alone. -/
theorem GangActs.lanes {s t u : State} (h : GangActs s t) (hu : ∃ v g, u = (t.setStrands v).setGangs g)
    (hg : ∀ l, l ≠ s.cur.leader → u.gang l = t.gang l) : GangActs s u := by
  obtain ⟨v, g, hu⟩ := hu
  have hmem : u.mem = t.mem := by rw [hu]; rfl
  refine ⟨h.regs.trans ?_, fun a => (byteAt_congr hmem a).trans (h.bytes a), ?_, fun l hl => (hg l hl).trans (h.gangs l hl),
    fun l m hl hm => ?_, fun c => ?_⟩
  · rw [hu]
    exact RegsKept.of_tables rfl rfl rfl rfl rfl rfl rfl
  · rw [← h.pkg, hu]; rfl
  · rw [← h.sets l m hl hm, hu]; rfl
  · rw [← h.cells c, hu]; rfl

/-- What changes the sets of the gang alone. -/
theorem GangActs.sets' {s t u : State} (h : GangActs s t) (hu : SetsOnly s.cur.leader t u) : GangActs s u := by
  obtain ⟨⟨j, g, e⟩, -, hgangs, hsets, -⟩ := hu
  have hmem : u.mem = t.mem := by rw [e]; rfl
  refine ⟨h.regs.trans ?_, fun a => (byteAt_congr hmem a).trans (h.bytes a), ?_, fun l hl => (hgangs l hl).trans (h.gangs l hl),
    fun l m hl hm => (hsets l m hl hm).trans (h.sets l m hl hm), fun c => ?_⟩
  · rw [e]
    exact RegsKept.of_tables rfl rfl rfl rfl rfl rfl rfl
  · rw [← h.pkg, e]; rfl
  · rw [← h.cells c, e]; rfl

theorem GangActs.mend {s t : State} (h : GangActs s t) (r : State) (ls : List Nat) (i : Instr) : GangActs s (mendWord r ls i t) :=
  ⟨h.regs.mend _ _ _, h.bytes, h.pkg, h.gangs, h.sets, h.cells⟩

/-- The lanes issue and nothing else changes. -/
theorem gangActs_nothing {s : State} {gd : Guard} {i : Instr} (hx : exec i s = .next (mendWord s (actingLanes s gd) i (advance s))) :
    ∃ t, exec i s = .next t ∧ (LanesIssue s t ∧ t.gang s.cur.leader = s.gang s.cur.leader ∧
        ∀ m, m < 8 → rdJ t s.cur.leader m = rdJ s s.cur.leader m) ∧
      RegsKept s t noReg ∧ BytesKept s t ∧ t.pkg = s.pkg ∧ (∀ l, l ≠ s.cur.leader → t.gang l = s.gang l) ∧
      (∀ l m, l ≠ s.cur.leader → m < 8 → rdJ t l m = rdJ s l m) ∧ ∀ c, t.cell c = s.cell c := by
  obtain ⟨h1, h2, h3, h4, h5, h6⟩ := (gangActs_advance s).mend s (actingLanes s gd) i
  exact ⟨_, hx, ⟨lanesIssue_advance s, gang_advance s _, fun m _ => rdJ_advance s _ m⟩, h1, h2, h3, h4, h5, h6⟩

/-! ### The sets of a gang that splits (R84) -/

/-- The sets of the gang, each INVALID and orphaned if lanes wait on it. -/
def splitSets (s : State) (lead : Nat) : State :=
  (List.range 8).foldl (fun u j => wrJ (if gathering (rdJ s lead j) then noteOrphan u lead j (rdJ s lead j) else u) lead j
    { valid := false, member := 0#16, quit := 0#16, arrived := 0#16 }) s

theorem startSplit_eq (s : State) (lead : Nat) :
    startSplit s lead = putGang (splitSets s lead) lead { (splitSets s lead).gang lead with splitting := true } := rfl

theorem setsOnly_splitSet (s : State) (lead : Nat) {j : Nat} (hj : j < 8) (b : Bool) (x y : JSet) :
    SetsOnly lead s (wrJ (if b then noteOrphan s lead j x else s) lead j y) := by
  split
  · exact (setsOnly_noteOrphan s lead j x).trans (setsOnly_wrJ _ lead j hj y)
  · exact setsOnly_wrJ s lead j hj y

theorem setsOnly_splitSets (s : State) (lead : Nat) : SetsOnly lead s (splitSets s lead) :=
  List.foldlRecOn (motive := fun u => SetsOnly lead s u) _ _ (SetsOnly.refl lead s) fun u hu _ hj =>
    hu.trans (setsOnly_splitSet u lead (List.mem_range.1 hj) _ _ _)

theorem rdJ_splitSets (s : State) (lead : Nat) {m : Nat} (hm : m < 8) :
    rdJ (splitSets s lead) lead m = { valid := false, member := 0#16, quit := 0#16, arrived := 0#16 } := by
  refine foldl_value (fun u => rdJ u lead m) _ _ (List.range 8) s m (List.mem_range.2 hm) (fun u => rdJ_wrJ_self _ _ _ _) fun u j _ hne => ?_
  refine (rdJ_wrJ_ne (by omega)).trans ?_
  split
  · exact rdJ_noteOrphan _ _ _ _ _ _
  · rfl

theorem noteOrphan_noted (s : State) (lead j : Nat) (x : JSet) : ∃ o ∈ ((noteOrphan s lead j x).gang lead).orphaning, o.1 = j := by
  unfold noteOrphan
  dsimp only
  split
  · rename_i h
    simpa using h
  · rw [gang_putGang, if_pos rfl]
    exact ⟨_, List.mem_append_right _ (List.mem_singleton.2 rfl), rfl⟩

theorem splitSets_noted (s : State) (lead : Nat) {m : Nat} (hm : m < 8) (h : gathering (rdJ s lead m) = true) :
    ∃ o ∈ ((splitSets s lead).gang lead).orphaning, o.1 = m := by
  refine foldl_reach (P := fun u : State => ∃ o ∈ (u.gang lead).orphaning, o.1 = m) s (List.mem_range.2 hm) (fun u => ?_) fun u j hj => ?_
  · rw [if_pos h]
    obtain ⟨o, ho, e⟩ := noteOrphan_noted u lead m (rdJ s lead m)
    exact ⟨o, ho, e⟩
  · rintro ⟨o, ho, e⟩
    exact ⟨o, (setsOnly_splitSet u lead (List.mem_range.1 hj) _ _ _).noted o ho, e⟩

/-! ### Lanes that detach (R80, R251) -/

/-- The lanes that stay in a path when others leave it. -/
theorem pathLanes_detached {s : State} {gd : Guard} {lead n : Nat} (h : s.cur.lanes = pathLanes s lead n) :
    pathLanes (modStrs (advance s) (actingLanes s gd) fun u => { u with lmode := .detached }) lead n =
      s.cur.lanes.filter (fun p => !acting s gd p) := by
  have hstr : ∀ p, (modStrs (advance s) (actingLanes s gd) fun u => { u with lmode := .detached }).str p =
      if p ∈ actingLanes s gd then { (advance s).str p with lmode := .detached } else (advance s).str p := fun p =>
    str_modStrs (f := fun u => { u with lmode := .detached }) (fun _ => rfl) _ _ p
  have hlanes : gangLanes (modStrs (advance s) (actingLanes s gd) fun u => { u with lmode := .detached }) lead = gangLanes s lead := by
    refine gangLanes_congr ?_
    rw [hstr]
    split
    · exact glogOf_advance s lead
    · exact glogOf_advance s lead
  have hmode : ∀ p, ((advance s).str p).lmode = (s.str p).lmode := fun p => by
    rw [str_advance]
    split <;> rfl
  rw [pathLanes, hlanes, h, pathLanes, List.filter_filter]
  refine List.filter_congr fun p hp => ?_
  rw [hstr]
  by_cases ha : p ∈ actingLanes s gd
  · rw [if_pos ha]
    have : acting s gd p = true := (List.mem_filter.1 ha).2
    simp [this]
  · rw [if_neg ha, hmode]
    by_cases hn : (s.str p).lmode = .inPath n
    · have hc : p ∈ s.cur.lanes := by rw [h]; exact List.mem_filter.2 ⟨hp, by simp [hn]⟩
      have : acting s gd p = false := by
        refine Classical.byContradiction fun hb => ?_
        exact ha (List.mem_filter.2 ⟨hc, by simpa using hb⟩)
      simp [hn, this]
    · simp [hn]

/-- Settles O21. -/
theorem splitDetachAndYield : Obligations.SplitDetachAndYield := by
  refine ⟨?_, ?_, ?_⟩
  · intro gd s lead ls rest n completes plain acts hsup
    have hacts : acts ↔ ls ≠ [] ∧ inGang s = true := by simp [acts, inGang, lead]
    have hoff : ¬acts → ls.isEmpty = true ∨ (!inGang s) = true := fun h => by
      rw [hacts, Classical.not_and_iff_not_or_not, Classical.not_not] at h
      simpa using h
    have hon : acts → ¬(ls.isEmpty = true ∨ (!inGang s) = true) := fun h => by
      rw [hacts] at h
      simpa using h
    have hoff' : ¬(acts ∧ s.cur.path = true) → ls.isEmpty = true ∨ (!inGang s) = true ∨ (!s.cur.path) = true := fun h => by
      by_cases ha : acts
      · exact Or.inr (Or.inr (by simpa [ha] using h))
      · exact (hoff ha).imp_right Or.inl
    have hon' : acts ∧ s.cur.path = true → ¬(ls.isEmpty = true ∨ (!inGang s) = true ∨ (!s.cur.path) = true) := fun ⟨ha, hpath⟩ => by
      simpa [hpath] using hon ha
    refine ⟨fun hr => ?_, fun hr => ?_, fun hr => ?_⟩
    · have hx := exec_unpriced (f := formSplit gd) (gd := gd) (s := s) (i := .split gd) rfl rfl (clear_excluded hsup rfl rfl hr rfl rfl) rfl
      refine ⟨fun hno => gangActs_nothing (gd := gd) (hx.trans ?_), fun ha => ?_⟩
      · rw [show (formSplit gd).act s (advance s) (actingLanes s gd) = advance s from if_pos (hoff hno)]
      · rw [show (formSplit gd).act s (advance s) (actingLanes s gd) = startSplit (advance s) lead from if_neg (hon ha),
          startSplit_eq] at hx
        have hsets := setsOnly_splitSets (advance s) lead
        have hnoted := fun m (hm : m < 8) => splitSets_noted (advance s) lead hm
        have hinvalid := fun m (hm : m < 8) => rdJ_splitSets (advance s) lead hm
        have hg := ((gangActs_advance s).sets' hsets).lanes (u := putGang (splitSets (advance s) lead) lead
          { (splitSets (advance s) lead).gang lead with splitting := true }) ⟨(splitSets (advance s) lead).strands, _, rfl⟩
          fun l hl => (gang_putGang _ _ _ _).trans (if_neg hl)
        obtain ⟨h1, h2, h3, h4, h5, h6⟩ := hg.mend s (actingLanes s gd) (.split gd)
        have hgang : (putGang (splitSets (advance s) lead) lead { (splitSets (advance s) lead).gang lead with splitting := true }).gang lead =
            { (splitSets (advance s) lead).gang lead with splitting := true } := (gang_putGang _ _ _ _).trans (if_pos rfl)
        refine ⟨_, hx, ⟨?_, congrArg Gang.splitting hgang, fun o => ?_, fun m hm => ⟨hinvalid m hm, fun h => ?_⟩⟩, h1, h2, h3, h4, h5, h6⟩
        · obtain ⟨⟨j, g, e⟩, -, -, -, -⟩ := hsets
          exact fun p => (congrArg (fun z : State => z.str p) e).trans (str_advance s p)
        · refine (congrArg (fun g : Gang => { g with splitting := true, orphaning := o }) hgang).trans ?_
          refine (congrArg (fun g : Gang => { g with splitting := true }) (hsets.gang o)).trans ?_
          rw [gang_advance]
        · obtain ⟨o, ho, e⟩ := hnoted m hm (by rw [rdJ_advance]; exact h)
          exact ⟨o, (congrArg Gang.orphaning hgang).symm ▸ ho, e⟩
    · have hx := exec_unpriced (f := formDetach gd) (gd := gd) (s := s) (i := .detach gd) rfl rfl (clear_excluded hsup rfl rfl hr rfl rfl) rfl
      refine ⟨fun hno => gangActs_nothing (gd := gd) (hx.trans ?_), fun ⟨ha, hpath⟩ hlanes => ?_⟩
      · rw [show (formDetach gd).act s (advance s) (actingLanes s gd) = advance s from if_pos (hoff' hno)]
      · have hlanes' := pathLanes_detached (gd := gd) hlanes
        have hstr : ∀ p, (modStrs (advance s) ls fun u => { u with lmode := .detached }).str p =
            if p ∈ ls then { (advance s).str p with lmode := .detached } else (advance s).str p := fun p =>
          str_modStrs (f := fun u => { u with lmode := .detached }) (fun _ => rfl) _ _ p
        obtain ⟨v, hv⟩ := modStrs_eq (fun u => { u with lmode := .detached }) ls (advance s)
        have hgang : ∀ l, (modStrs (advance s) ls fun u => { u with lmode := .detached }).gang l = s.gang l := fun l => by
          rw [hv]; exact gang_advance s l
        have hset : ∀ l m, rdJ (modStrs (advance s) ls fun u => { u with lmode := .detached }) l m = rdJ s l m := fun l m => by
          rw [hv]; exact rdJ_advance s l m
        have hbase := (gangActs_advance s).lanes ⟨v, _, hv⟩ fun l _ => by rw [hv]; rfl
        rw [show (formDetach gd).act s (advance s) (actingLanes s gd) =
            leavePath s (modStrs (advance s) ls fun u => { u with lmode := .detached }) from if_neg (hon' ⟨ha, hpath⟩), leavePath, if_pos hpath] at hx
        generalize modStrs (advance s) ls (fun u => { u with lmode := .detached }) = w at *
        obtain ⟨v', g', hren⟩ := renumber_eq w lead n
        have hg := (hbase.lanes ⟨v', g', hren⟩ fun l hl => (gang_renumber w lead n l).trans (if_neg fun h => hl h.1))
        obtain ⟨h1, h2, h3, h4, h5, h6⟩ := hg.mend s (actingLanes s gd) (.detach gd)
        have hsub : ∀ p ∈ s.cur.lanes, (p ∈ ls ↔ acting s gd p = true) := fun p hp => by simp [ls, actingLanes, hp]
        refine ⟨_, hx, ⟨fun p hp => ?_, fun p hp => ?_, fun p hp => ?_, ?_, fun m _ => ?_⟩, h1, h2, h3, h4, h5, h6⟩
        · obtain ⟨hpc, hpa⟩ := List.mem_filter.1 hp
          refine (str_renumber w lead n p).trans ?_
          rw [hlanes', if_neg (by simp [hpa]), hstr, if_pos hp, str_advance, if_pos hpc]
        · obtain ⟨hpc, hpa⟩ := List.mem_filter.1 hp
          refine (str_renumber w lead n p).trans ?_
          rw [hlanes', if_pos hp, hstr, if_neg fun h => by simp [(hsub p hpc).1 h] at hpa, str_advance, if_pos hpc]
        · refine (str_renumber w lead n p).trans ?_
          have hpl : p ∉ ls := fun h => hp (List.mem_filter.1 h).1
          rw [hlanes', if_neg fun h => hp (List.mem_filter.1 h).1, hstr, if_neg hpl, str_advance, if_neg hp]
        · refine (gang_renumber w lead n lead).trans ?_
          rw [hlanes', hgang]
          simp only [true_and]
          rfl
        · exact (congrArg (rdJ · lead m) hren :).trans (hset lead m)
    · have hx := exec_unpriced (f := formYield gd) (gd := gd) (s := s) (i := .yield gd) rfl rfl (clear_excluded hsup rfl rfl hr rfl rfl) rfl
      refine ⟨fun hno => gangActs_nothing (gd := gd) (hx.trans ?_), fun ⟨ha, hpath⟩ => ?_⟩
      · rw [show (formYield gd).act s (advance s) (actingLanes s gd) = advance s from if_pos (hoff' hno)]
      · rw [show (formYield gd).act s (advance s) (actingLanes s gd) =
            putGang (advance s) lead { (advance s).gang lead with qleft := 1 } from if_neg (hon' ⟨ha, hpath⟩), gang_advance] at hx
        have hg := (gangActs_advance s).lanes (u := putGang (advance s) lead { s.gang lead with qleft := 1 })
          ⟨(advance s).strands, _, rfl⟩ fun l hl => (gang_putGang _ _ _ _).trans (if_neg hl)
        obtain ⟨h1, h2, h3, h4, h5, h6⟩ := hg.mend s (actingLanes s gd) (.yield gd)
        exact ⟨_, hx, ⟨lanesIssue_advance s, (gang_putGang _ _ _ _).trans (if_pos rfl), fun m _ => rdJ_advance s lead m⟩,
          h1, h2, h3, h4, h5, h6⟩
  · intro s lead g u hs hc
    have e : endGang s lead = if (u.gang lead).splitting && !collapsed (u.gang lead) then splitGang u lead else freeCheck u lead := rfl
    exact e.trans (if_pos (by rw [hs, hc]; rfl))
  · intro s lead q t hq hl hr hh
    obtain ⟨h1, h2, h3, -, h5, ⟨o, h6⟩, h7⟩ : SoloAt s lead q t := soloAt_splitGang hq hl hr hh
    clear_value t
    rw [h6]
    refine ⟨h1, h2, h3, rfl, rfl, rfl, rfl, rfl, h7, fun hw => ?_, fun j hj => ?_⟩
    · rw [h5]
      unfold soloPc
      split
      · rename_i j hj; exact absurd hj (hw j)
      · rfl
    · rw [h5]
      unfold soloPc
      rw [hj]

end Sys2Proof.Machine
end

section
/-!
PROOFS. The gathering unit (R56, R57, R254, R255): what `spawn` and `spawnf` submit, in which order it enters, and what it makes of the
partial gangs.
-/
namespace Sys2Proof.Machine

open Sys2Proof

/-! ### What a bundle submits -/

/-- Arrivals that the lanes of one cell submit stand at the end of its list, and nothing else changes. -/
theorem foldl_submit {c : Nat} (f : Nat → Arrival) {ls : List Nat} (h : ∀ p ∈ ls, cellOf p = c) (s : State) :
    (∃ v, ls.foldl (fun u p => submit u p (f p)) s = s.setCells v) ∧
      ∀ d, (ls.foldl (fun u p => submit u p (f p)) s).cell d =
        if d = c then { s.cell c with arrivals := (s.cell c).arrivals ++ ls.map (fun p => (pipeOf p, f p)) } else s.cell d := by
  induction ls generalizing s with
  | nil =>
    refine ⟨⟨s.cells, rfl⟩, fun d => ?_⟩
    split
    · rename_i e; rw [e]; simp
    · rfl
  | cons p r ih =>
    have hp := h p List.mem_cons_self
    obtain ⟨⟨v, hv⟩, hcell⟩ := ih (fun q hq => h q (List.mem_cons_of_mem _ hq)) (submit s p (f p))
    have hone : ∀ d, (submit s p (f p)).cell d =
        if d = c then { s.cell c with arrivals := (s.cell c).arrivals ++ [(pipeOf p, f p)] } else s.cell d := fun d => by
      unfold submit
      rw [hp, cell_putCell]
    refine ⟨⟨v, hv⟩, fun d => ?_⟩
    rw [List.foldl_cons, hcell, hone, hone]
    by_cases hd : d = c
    · simp [hd]
    · simp [hd]

/-- A word that submits arrivals of its acting lanes, once it issues. -/
theorem submits_of {i : Instr} {gd : Guard} {s : State} (f : Nat → Arrival) (hcell : ∀ p ∈ actingLanes s gd, cellOf p = curCell s)
    (hx : exec i s = .next (mendWord s (actingLanes s gd) i ((actingLanes s gd).foldl (fun u p => submit u p (f p)) (advance s)))) :
    ∃ t, exec i s = .next t ∧
      (t.cell (curCell s)).arrivals = (s.cell (curCell s)).arrivals ++ (actingLanes s gd).map (fun p => (pipeOf p, f p)) ∧
      { t.cell (curCell s) with arrivals := [] } = { s.cell (curCell s) with arrivals := [] } ∧
      (∀ d, d ≠ curCell s → t.cell d = s.cell d) ∧
      RegsKept s t noReg ∧ BytesKept s t ∧ LanesIssue s t ∧ t.pkg = s.pkg ∧ (∀ l, t.gang l = s.gang l) ∧ ∀ l n, rdJ t l n = rdJ s l n := by
  obtain ⟨⟨v, hv⟩, hall⟩ := foldl_submit f hcell (advance s)
  have hc : ∀ d, (advance s).cell d = s.cell d := fun d => cell_congr ((issues_advance s).free rfl).1 d
  generalize (actingLanes s gd).foldl (fun u p => submit u p (f p)) (advance s) = u at *
  have hmem : u.mem = s.mem := by rw [hv]; exact (issues_advance s).mem
  refine ⟨_, hx, ?_, ?_, fun d hd => ?_, RegsKept.mend ?_ _ _ _, fun a => byteAt_congr (t := mendWord s _ _ u) hmem a, fun p => ?_, ?_,
    fun l => ?_, fun l n => ?_⟩
  · refine (congrArg CellSt.arrivals ((hall _).trans (if_pos rfl))).trans ?_
    rw [hc]
  · refine (congrArg (fun x : CellSt => { x with arrivals := [] }) ((hall _).trans (if_pos rfl))).trans ?_
    rw [hc]
  · exact ((hall d).trans (if_neg hd)).trans (hc d)
  · rw [hv]
    exact (regsKept_advance s).trans (RegsKept.of_tables rfl rfl rfl rfl rfl rfl rfl)
  · exact (congrArg (fun z : State => z.str p) hv).trans (str_advance s p)
  · exact (congrArg State.pkg hv).trans (issues_advance s).pkg
  · exact (congrArg (fun z : State => z.gang l) hv).trans (gang_advance s l)
  · exact (congrArg (fun z : State => rdJ z l n) hv).trans (rdJ_advance s l n)

theorem descStage_ok {s : State} {a : GReg} {al code : Nat} {ls : List Nat} (h : ∀ p ∈ ls, (rdReg s p a).toNat % al = 0) :
    descStage a al code s ls = .ok :=
  faultsOf_none fun p hp => by simp [h p hp]

/-- Values that every lane reads and that pass their check. -/
theorem valueStage_ok {s : State} {ls : List Nat} {ask : Nat → Ask} {check : Nat → Nat → Option TrapInfo}
    (h : ∀ p ∈ ls, ∃ v, peek s (curCell s) p (targetOf s p (ask p)) (ask p).n = .val v ∧ check p v = none) :
    valueStage s ls ask check = .ok := by
  unfold valueStage
  dsimp only
  have hfar : ((ls.map fun p => (p, match peek s (curCell s) p (targetOf s p (ask p)) (ask p).n with | .far l => l | _ => [])).filter
      (fun q => !q.2.isEmpty)) = [] := by
    rw [List.filter_eq_nil_iff]
    intro q hq
    obtain ⟨p, hp, rfl⟩ := List.mem_map.1 hq
    obtain ⟨v, hv, -⟩ := h p hp
    simp only [hv]
    simp
  rw [if_neg]
  · refine faultsOf_none fun p hp => ?_
    obtain ⟨v, hv, hc⟩ := h p hp
    simp only [hv, hc]
  · intro hn
    have hnil : ∀ l : List (Nat × List Nat), l = [] → ¬(!l.isEmpty) = true := fun l hl => by simp [hl]
    exact hnil _ hfar hn

/-! ### The order in which arrivals enter -/

theorem perm_insArrival (a : Nat × Arrival) (l : List (Nat × Arrival)) : (insArrival a l).Perm (a :: l) := by
  induction l with
  | nil => exact List.Perm.refl _
  | cons b r ih =>
    unfold insArrival
    split
    · exact List.Perm.refl _
    · exact (ih.cons b).trans (List.Perm.swap a b r)

theorem sorted_insArrival {a : Nat × Arrival} {l : List (Nat × Arrival)} (h : l.Pairwise fun x y => x.1 ≤ y.1) :
    (insArrival a l).Pairwise fun x y => x.1 ≤ y.1 := by
  induction l with
  | nil => exact List.pairwise_singleton _ a
  | cons b r ih =>
    obtain ⟨hb, hr⟩ := List.pairwise_cons.1 h
    unfold insArrival
    split
    · rename_i hab
      refine List.pairwise_cons.2 ⟨fun x hx => ?_, h⟩
      rcases List.mem_cons.1 hx with rfl | hx
      · exact hab
      · exact Nat.le_trans hab (hb x hx)
    · rename_i hab
      refine List.pairwise_cons.2 ⟨fun x hx => ?_, ih hr⟩
      rcases List.mem_cons.1 ((perm_insArrival a r).mem_iff.1 hx) with rfl | hx
      · omega
      · exact hb x hx

/-! ### Partial gangs -/

/-- Places in release order are decided by the gangs that are released. -/
theorem nextRelease_congr {l m : List Partial} (h : l.map (·.released) = m.map (·.released)) : nextRelease l = nextRelease m := by
  have hcode : ∀ l : List Partial, nextRelease l =
      ((l.map (·.released)).map fun o => match o with | some n => n + 1 | none => 0).foldl Nat.max 0 := fun l => by
    unfold nextRelease
    rw [List.map_map]
    rfl
  rw [hcode, hcode, h]

theorem nextRelease_append_none (l : List Partial) {p : Partial} (h : p.released = none) : nextRelease (l ++ [p]) = nextRelease l := by
  unfold nextRelease
  simp [h]

/-- A partial gang with one more record. -/
def oneMore (d : Nat) (p : Partial) : Partial := if forming p d then { p with count := p.count + 1 } else p

/-- The partial gangs once a record has joined or started one. -/
def joined (now : Nat) (x : CellSt) (r : SpawnRec) (v : Nat) : List Partial :=
  if x.partials.any (fun p => forming p r.desc) then x.partials.map (oneMore r.desc)
  else x.partials ++ [{ desc := r.desc, entry := descEntry v, glog := descGlog v, timeout := descTimeout v, first := now, count := 1, released := none }]

/-- A gang with all its records is released. -/
def releaseFull (d : Nat) (l : List Partial) : List Partial :=
  if l.any (fun p => forming p d && decide (2 ^ p.glog ≤ p.count)) then
    l.map fun p => if forming p d then { p with released := some (nextRelease l) } else p
  else l

theorem gatherOne_eq (now : Nat) (x : CellSt) (r : SpawnRec) (v : Nat) :
    gatherOne now x r v = { x with partials := releaseFull r.desc (joined now x r v), spawns := x.spawns ++ [r] } := by
  have e : gatherOne now x r v =
      if (joined now x r v).any (fun p => forming p r.desc && decide (2 ^ p.glog ≤ p.count)) then
        releasePartial { x with partials := joined now x r v, spawns := x.spawns ++ [r] } r.desc
      else { x with partials := joined now x r v, spawns := x.spawns ++ [r] } := rfl
  rw [e, releaseFull]
  split <;> rfl

theorem forming_released {p : Partial} {d : Nat} (h : forming p d = true) : p.released = none := by
  unfold forming at h
  simpa using (Bool.and_eq_true_iff.1 h).2

theorem forming_oneMore (p : Partial) (d : Nat) : forming (oneMore d p) d = forming p d := by
  unfold oneMore
  split <;> rfl

/-- A record that joins the one gang that forms under its address. -/
theorem releaseFull_oneMore {l : List Partial} {d : Nat} {q : Partial} (hq : q ∈ l) (hf : forming q d = true)
    (hsole : ∀ z ∈ l, forming z d = true → z = q) : releaseFull d (l.map (oneMore d)) =
      l.map fun z => if forming z d then
        { z with count := z.count + 1, released := if 2 ^ z.glog ≤ z.count + 1 then some (nextRelease l) else none } else z := by
  have hmore : oneMore d q = { q with count := q.count + 1 } := if_pos hf
  have hplace : nextRelease (l.map (oneMore d)) = nextRelease l := by
    refine nextRelease_congr ?_
    rw [List.map_map]
    refine List.map_congr_left fun z _ => ?_
    show (oneMore d z).released = z.released
    unfold oneMore
    split <;> rfl
  have hfull : (l.map (oneMore d)).any (fun p => forming p d && decide (2 ^ p.glog ≤ p.count)) = decide (2 ^ q.glog ≤ q.count + 1) := by
    rw [Bool.eq_iff_iff, List.any_eq_true, decide_eq_true_iff]
    constructor
    · rintro ⟨p, hp, h⟩
      obtain ⟨z, hz, rfl⟩ := List.mem_map.1 hp
      obtain ⟨h1, h2⟩ := Bool.and_eq_true_iff.1 h
      rw [forming_oneMore] at h1
      rw [hsole z hz h1, hmore] at h2
      exact of_decide_eq_true h2
    · intro h
      refine ⟨oneMore d q, List.mem_map.2 ⟨q, hq, rfl⟩, ?_⟩
      rw [forming_oneMore, hf, hmore]
      simpa using h
  unfold releaseFull
  rw [hfull, hplace]
  by_cases hc : 2 ^ q.glog ≤ q.count + 1
  · rw [if_pos (by simpa using hc), List.map_map]
    refine List.map_congr_left fun z hz => ?_
    show (if forming (oneMore d z) d then _ else oneMore d z) = _
    rw [forming_oneMore]
    by_cases hz' : forming z d = true
    · obtain rfl := hsole z hz hz'
      rw [if_pos hz', if_pos hz', hmore, if_pos hc]
    · rw [if_neg hz', if_neg hz', oneMore, if_neg hz']
  · rw [if_neg (by simpa using hc)]
    refine List.map_congr_left fun z hz => ?_
    by_cases hz' : forming z d = true
    · obtain rfl := hsole z hz hz'
      rw [hmore, if_pos hz', if_neg hc, ← forming_released hz']
    · rw [if_neg hz', oneMore, if_neg hz']

/-- A record that starts a gang. -/
theorem releaseFull_first {l : List Partial} {d : Nat} {p : Partial} (hnone : ∀ q ∈ l, forming q d = false) (hd : forming p d = true)
    (hcount : p.count = 1) :
    releaseFull d (l ++ [p]) = l ++ [if p.glog = 0 then { p with released := some (nextRelease l) } else p] := by
  have hone : 2 ^ p.glog ≤ 1 ↔ p.glog = 0 := by
    constructor
    · intro h
      refine Classical.byContradiction fun hne => ?_
      have := Nat.pow_le_pow_right (n := 2) (by omega) (Nat.one_le_iff_ne_zero.2 hne)
      omega
    · intro h
      rw [h]
      exact Nat.le_refl 1
  have hfull : (l ++ [p]).any (fun p => forming p d && decide (2 ^ p.glog ≤ p.count)) = decide (p.glog = 0) := by
    rw [List.any_append, List.any_eq_false.2 fun q hq => by simp [hnone q hq]]
    simp [hd, hcount, hone]
  unfold releaseFull
  rw [hfull, nextRelease_append_none l (forming_released hd)]
  by_cases hz : p.glog = 0
  · rw [if_pos (by simpa using hz), if_pos hz, List.map_append, List.map_singleton, if_pos hd]
    refine congrArg (· ++ _) ((List.map_congr_left fun q hq => ?_).trans (List.map_id l))
    rw [if_neg (by simp [hnone q hq])]
    rfl
  · rw [if_neg (by simpa using hz), if_neg hz]

/-- Settles O23. -/
theorem spawnGathersRecords : Obligations.SpawnGathersRecords := by
  refine ⟨?_, ?_, ?_⟩
  · intro gd a w s ls c ask submits hsup hls horder
    have hcell : ∀ p ∈ ls, cellOf p = curCell s := fun p hp => (hls p hp).1
    have hdesc : descStage a 16 6 s (actingLanes s gd) = .ok := descStage_ok fun p hp => (hls p hp).2
    refine ⟨fun hr hreach hroom hvals => ?_, fun hr => ?_⟩
    · refine submits_of (gd := gd) _ hcell ?_
      refine exec_unpriced (f := formSpawn gd a w) rfl rfl ?_ rfl
      refine { excluded := by rw [hsup]; rfl, issuer := rfl, alley := fun _ _ => rfl, priv := Or.inl rfl, regs := hr,
               reads := fun _ _ _ h => (nomatch h), links := rfl, fence := stageFence_met horder, operand := hdesc,
               engine := stageEngine_none rfl, access := ?_, values := valueStage_ok fun p hp => ?_, room := roomStage_ok hreach,
               holds := rfl, price := Or.inl rfl }
      · have h1 : accessStage s (actingLanes s gd) (fun p => [descAsk s a p]) = .ok := accessStage_ok hreach
        have h2 : canGather (gathered s (curCell s)) (actingLanes s gd).length
            ((actingLanes s gd).map fun p => (rdReg s p a).toNat) = true := hroom
        simp only [formSpawn, h1, h2, if_true]
        rfl
      · obtain ⟨v, hv, hok⟩ := hvals p hp
        exact ⟨v, hv, if_pos hok⟩
    · refine submits_of (gd := gd) _ hcell ?_
      refine exec_unpriced (f := formSpawnf gd a) rfl rfl ?_ rfl
      exact { excluded := by rw [hsup]; rfl, issuer := rfl, alley := fun _ _ => rfl, priv := Or.inl rfl, regs := hr,
              reads := fun _ _ _ h => (nomatch h), links := rfl, fence := stageFence_met horder, operand := hdesc,
              engine := stageEngine_none rfl, access := rfl, values := rfl, room := rfl, holds := rfl, price := Or.inl rfl }
  · intro s c l
    refine ⟨?_, ?_, rfl⟩
    · exact List.foldrRecOn (motive := fun l : List (Nat × Arrival) => l.Pairwise fun x y => x.1 ≤ y.1) _ _ List.Pairwise.nil
        fun l hl a _ => sorted_insArrival hl
    · have : ∀ m : List (Nat × Arrival), (m.foldr insArrival []).Perm m := fun m => by
        induction m with
        | nil => exact List.Perm.refl _
        | cons a r ih => exact (perm_insArrival a _).trans (ih.cons a)
      exact this _
  · intro now x r v d y first place
    have hy : y = { x with partials := releaseFull r.desc (joined now x r v), spawns := x.spawns ++ [r] } := gatherOne_eq now x r v
    rw [hy]
    refine ⟨rfl, fun hnone => ?_, fun q hq hf hsole => ?_, rfl⟩
    · have hany : x.partials.any (fun p => forming p r.desc) = false := List.any_eq_false.2 fun q hq => by simp [hnone q hq]
      have hj : joined now x r v = x.partials ++ [first] := by
        rw [joined, if_neg (by simp [hany])]
        rfl
      refine Eq.trans ?_ (releaseFull_first (p := first) hnone (by simp [forming, first]) rfl)
      exact congrArg (releaseFull r.desc) hj
    · have hany : x.partials.any (fun p => forming p r.desc) = true := List.any_eq_true.2 ⟨q, hq, hf⟩
      refine Eq.trans ?_ (releaseFull_oneMore hq hf hsole)
      exact congrArg (releaseFull r.desc) (if_pos hany)

end Sys2Proof.Machine
end

section
/-!
PROOFS. Bundles that do not issue (R46, R47, R62, R189, R430, R434, R436): parking, requests for tokens and precise faults.
-/
namespace Sys2Proof.Machine

open Sys2Proof

/-! ### Parking -/

/-- What the state of a lane becomes when it parks (R62, R435). -/
def parkedSt (t : Strand) : StName := if t.st = .supervisor then .supervisor else .parked

/-- u is s with some lanes parked: their PCs stay. -/
structure Parks (s u : State) : Prop where
  rest : ∃ v, u = s.setStrands v
  pc : ∀ p, (u.str p).pc = (s.str p).pc
  st : ∀ p, parkedSt (u.str p) = parkedSt (s.str p)

/-- A path without walks to start and without reads of other packages parks. -/
theorem parkPath_plain (s : State) (r : Park) (ws : List (Nat × WaitFor)) :
    Parks s (parkPath s r ws [] []) ∧ (∀ p ∈ s.cur.lanes, ((parkPath s r ws [] []).str p).park = r ∧
      ((parkPath s r ws [] []).str p).st = parkedSt (s.str p)) ∧ ∀ p, p ∉ s.cur.lanes → (parkPath s r ws [] []).str p = s.str p := by
  let f := fun (u : State) (p : Nat) => modStr u p fun x => { parkOne u.time r (tget WaitFor.nothing ws p) x with nba := u.cur.nba }
  have e : parkPath s r ws [] [] = s.cur.lanes.foldl f s := rfl
  have hstr : ∀ u p q, (f u p).str q =
      if q = p then { parkOne u.time r (tget WaitFor.nothing ws p) (u.str p) with nba := u.cur.nba } else u.str q := fun u p q =>
    str_modStr _ _ _ _
  have hone : ∀ u p q, ((f u p).str q).pc = (u.str q).pc ∧ parkedSt ((f u p).str q) = parkedSt (u.str q) := fun u p q => by
    rw [hstr]
    split
    · rename_i h
      subst h
      refine ⟨rfl, ?_⟩
      unfold parkedSt parkOne
      by_cases hs : (u.str q).st = .supervisor <;> simp [hs]
    · exact ⟨rfl, rfl⟩
  have hrest : ∀ u p v, u = s.setStrands v → ∃ v', f u p = s.setStrands v' := fun u p v h => by
    subst h
    exact ⟨_, rfl⟩
  have hparks : ∀ ls : List Nat, Parks s (ls.foldl f s) := fun ls =>
    List.foldlRecOn (motive := fun u => Parks s u) ls f ⟨⟨s.strands, rfl⟩, fun _ => rfl, fun _ => rfl⟩ fun u ⟨⟨v, hv⟩, h1, h2⟩ p _ =>
      ⟨hrest u p v hv, fun q => (hone u p q).1.trans (h1 q), fun q => (hone u p q).2.trans (h2 q)⟩
  rw [e]
  refine ⟨hparks _, fun p hp => ?_, fun p hp => ?_⟩
  · have hfin : ((s.cur.lanes.foldl f s).str p).park = r ∧ ((s.cur.lanes.foldl f s).str p).st = parkedSt ((s.cur.lanes.foldl f s).str p) := by
      refine foldl_reach (P := fun u : State => (u.str p).park = r ∧ (u.str p).st = parkedSt (u.str p)) s hp (fun u => ?_) fun u q _ hu => ?_
      · rw [hstr, if_pos rfl]
        refine ⟨rfl, ?_⟩
        unfold parkedSt parkOne
        by_cases hs : (u.str p).st = .supervisor <;> simp [hs]
      · rw [hstr]
        split
        · refine ⟨rfl, ?_⟩
          unfold parkedSt parkOne
          by_cases hs : (u.str q).st = .supervisor <;> simp [hs]
        · exact hu
    exact ⟨hfin.1, hfin.2.trans ((hparks _).st p)⟩
  · refine foldl_keep (fun u : State => u.str p) f _ s fun u q hq => ?_
    show (f u q).str p = u.str p
    rw [hstr, if_neg fun h : p = q => hp (h ▸ hq)]

/-! ### A pending register (R46) -/

/-- Stage 1 and stage 2 pass a word that names no issuer, no link and no privilege. -/
theorem stages_plain {s : State} {x : Issued} (hi : x.form.issuer s = true) (ha : ∀ p, x.form.alley s p = true)
    (hp : x.form.priv = 0 ∨ s.cur.sup = true) : stage1 s x = .ok ∧ stage2 s x = .ok := by
  have hnone : (actingLanes s x.gd).filter (fun p => !x.form.alley s p) = [] := filter_eq_nil fun p _ => by simp [ha p]
  refine ⟨by simp [stage1, hi, hnone], ?_⟩
  unfold stage2
  rw [if_neg]
  rintro ⟨h1, h2⟩
  rcases hp with h | h
  · exact h1 h
  · simp [h] at h2

/-- The registers of a word are pending: in some lane its guard, or in some acting lane one that it reads or writes. -/
def RegsPending (s : State) (gd : Guard) (i : Instr) : Prop :=
  (∃ p ∈ s.cur.lanes, pendingFor s p (.p p gd.p.val) = true) ∨
    ∃ p ∈ actingLanes s gd, ∃ r ∈ srcs i ++ dests i, pendingFor s p (regId s.cur.leader p r) = true

theorem stageRegs_pending {s : State} {x : Issued} (h : RegsPending s x.gd x.form.instr) : ∃ ws, stageRegs s x = .park .data ws [] := by
  unfold stageRegs
  dsimp only
  split
  · exact ⟨_, rfl⟩
  · rename_i hg
    rw [if_neg]
    · exact ⟨_, rfl⟩
    · rcases h with ⟨p, hp, hpend⟩ | ⟨p, hp, r, hr, hpend⟩
      · refine absurd ?_ hg
        rw [Bool.not_eq_true', List.isEmpty_eq_false_iff]
        exact List.ne_nil_of_mem (List.mem_filter.2 ⟨List.mem_map.2 ⟨p, hp, rfl⟩, by simp [hpend]⟩)
      · rw [List.isEmpty_iff]
        refine List.ne_nil_of_mem (List.mem_filter.2 ⟨List.mem_map.2 ⟨p, hp, rfl⟩, ?_⟩)
        have : regId s.cur.leader p r ∈ laneWaits s x p := List.mem_filter.2 ⟨List.mem_map.2 ⟨r, hr, rfl⟩, hpend⟩
        rw [Bool.not_eq_true', List.isEmpty_eq_false_iff]
        exact List.ne_nil_of_mem this

/-- While a register of a word is pending, its lanes park with reason DATA (R46, R47). -/
theorem exec_pending {i : Instr} {gd : Guard} {f : Form} {s : State} (he : exec i s = run gd f s) (hi : f.instr = i)
    (hx : f.excluded = false) (h1 : f.issuer s = true) (h2 : ∀ p, f.alley s p = true) (h3 : f.priv = 0) (hp : RegsPending s gd i) :
    ∃ ws, exec i s = .next (parkPath s .data ws [] []) := by
  obtain ⟨ws, hw⟩ := stageRegs_pending (s := s) (x := { form := f, gd := gd }) (hi.symm ▸ hp)
  obtain ⟨s1, s2⟩ := stages_plain (s := s) (x := { form := f, gd := gd }) h1 h2 (Or.inl h3)
  have hj : judge s [{ form := f, gd := gd }] = .park .data ws [] := by
    simp only [judge, firstOf, stageAll_one, s1, s2, hw]
  refine ⟨ws, ?_⟩
  rw [he, run, runBundle, if_neg (by simp [hx]), hj]
  rfl

/-! ### Tokens (R189) -/

/-- A word whose checks pass but for its price asks for its tokens. -/
theorem exec_unpaid {i : Instr} {gd : Guard} {f : Form} {s : State} (he : exec i s = run gd f s) (hf : Plain f i)
    (hr : RegsLanded s gd i) (hq : f.quotaFree = false) (hprice : Nat.min 64 (f.price s (actingLanes s gd)) ≠ 0)
    (hpaid : (s.str (curPos s)).paid = false)
    (h : (s.cell (curCell s)).reqs ≠ [] ∨ (s.cell (curCell s)).pocket < Nat.min 64 (f.price s (actingLanes s gd))) :
    ∃ ws, exec i s = .next (parkPath (addRequest s (Nat.min 64 (f.price s (actingLanes s gd))) false) .token ws [] []) := by
  have hfree : Clear s { form := { f with price := fun _ _ => 0 }, gd := gd } := by
    refine Plain.clear (f := { f with price := fun _ _ => 0 }) (i := i) ?_ hr (Or.inl rfl)
    exact ⟨hf.instr, hf.excluded, hf.issuer, hf.alley, hf.priv, hf.mem, hf.waits, hf.operand, hf.access, hf.values, hf.room, hf.holds,
      hf.engine, hf.links, hf.reads⟩
  obtain ⟨s1, s2⟩ := stages_plain (s := s) (x := { form := f, gd := gd }) (hf.issuer s) (hf.alley s) (Or.inl hf.priv)
  have h3 : stageRegs s { form := f, gd := gd } = .ok := stageRegs_ok hfree.regs
  have h4 : stageFence s { form := f, gd := gd } = .ok := hfree.fence
  have h5 : stageEngine s [{ form := f, gd := gd }] = .ok := stageEngine_none hf.engine
  have hcell : ((s.cell (curCell s)).reqs.isEmpty && decide (Nat.min 64 (f.price s (actingLanes s gd)) ≤ (s.cell (curCell s)).pocket)) = false := by
    rcases h with h | h
    · simp [h]
    · rw [Bool.and_eq_false_iff]
      exact Or.inr (decide_eq_false (by omega))
  have h6 : stagePrice s [{ form := f, gd := gd }] = .park .token (s.cur.lanes.map fun q => (q, WaitFor.token)) [] := by
    unfold stagePrice
    simp only [bundlePrice_one]
    rw [if_neg (by simp [hpaid, hprice]), if_neg]
    rw [Bool.and_assoc, hcell]
    simp
  have hj : judge s [{ form := f, gd := gd }] = .park .token (s.cur.lanes.map fun q => (q, WaitFor.token)) [] := by
    simp only [judge, firstOf, stageAll_one, s1, s2, h3, h4, h5, h6, hf.links, hf.operand, hf.access, hf.values, hf.room, hf.holds, markSlot]
  refine ⟨s.cur.lanes.map fun q => (q, WaitFor.token), ?_⟩
  rw [he, run, runBundle, if_neg (by simp [hf.excluded]), hj]
  simp only [bundlePrice_one, List.any_cons, List.any_nil, hq]
  rfl

theorem setStrands_back {s u : State} {v : Tab Strand} (h : u = s.setStrands v) : u.setStrands s.strands = s := by
  rw [h]
  cases s
  rfl

/-- Settles O51. -/
theorem bundlesPark : Obligations.BundlesPark := by
  intro gd d a b t x y z m f s parked pending waits
  have hwaits : ∀ {i : Instr} {g : Form}, exec i s = run gd g s → g.instr = i → g.excluded = false → g.issuer s = true →
      (∀ p, g.alley s p = true) → g.priv = 0 → waits i := by
    intro i g he hi hx h1 h2 h3 hp
    obtain ⟨ws, hn⟩ := exec_pending he hi hx h1 h2 h3 hp
    obtain ⟨⟨⟨v, hv⟩, hpc, -⟩, hlanes, hothers⟩ := parkPath_plain s .data ws
    exact ⟨_, hn, ⟨fun p hp => ⟨(hlanes p hp).1, hpc p, (hlanes p hp).2⟩, hothers⟩, setStrands_back hv⟩
  refine ⟨hwaits (g := formAdd gd d a b t) rfl rfl rfl rfl (fun _ => rfl) rfl,
    hwaits (g := formVadd gd m x y z f) rfl rfl rfl rfl (fun _ => rfl) rfl,
    hwaits (g := formCallx gd a) rfl rfl rfl rfl (fun _ => rfl) rfl, ?_⟩
  intro hr hne hpaid price c q h
  have hlen : (actingLanes s gd).length ≠ 0 := by simpa using hne
  obtain ⟨ws, hn⟩ := exec_unpaid (f := formVadd gd m x y z f) rfl (Plain.of_eq rfl rfl rfl) hr rfl
    (Nat.ne_of_gt (Nat.lt_min.2 ⟨by decide, Nat.pos_of_ne_zero hlen⟩)) hpaid h
  obtain ⟨⟨⟨v, hv⟩, hpc, hst⟩, hlanes, hothers⟩ := parkPath_plain (addRequest s price false) .token ws
  have hask : ∀ p, ∃ o e, (addRequest s price false).str p = { s.str p with owed := o, owedFree := e } ∧
      (p ∉ s.cur.lanes → (addRequest s price false).str p = s.str p) := fun p => by
    have hs : ∀ p, (addRequest s price false).str p =
        if p = curPos s then { s.str (curPos s) with owed := price, owedFree := false } else s.str p := fun p => str_modStr _ _ _ _
    rw [hs]
    split
    · rename_i hp
      subst hp
      refine ⟨_, _, rfl, fun hno => absurd ?_ hno⟩
      have : s.cur.lanes ≠ [] := fun hnil => hne (by simp [actingLanes, hnil])
      unfold curPos
      cases hl : s.cur.lanes with
      | nil => exact absurd hl this
      | cons k r => simp
    · exact ⟨_, _, rfl, fun _ => rfl⟩
  have hcell : ∀ k, (addRequest s price false).cell k = if k = c then { s.cell c with reqs := insReq q (s.cell c).reqs } else s.cell k :=
    fun k => cell_putCell _ _ _ _
  refine ⟨_, hn, ⟨fun p hp => ?_, fun p hp => ?_⟩, ?_, fun k hk => ?_, ?_⟩
  · obtain ⟨o, e, hp', -⟩ := hask p
    refine ⟨(hlanes p hp).1, (hpc p).trans (congrArg Strand.pc hp' :), (hlanes p hp).2.trans ?_⟩
    rw [hp']
    rfl
  · obtain ⟨o, e, -, hp'⟩ := hask p
    exact (hothers p hp).trans (hp' hp)
  · show ((parkPath (addRequest s price false) .token ws [] []).setStrands s.strands).setCells s.cells = s
    rw [hv]
    cases s
    rfl
  · refine (congrArg (fun z : State => z.cell k) hv).trans ((hcell k).trans (if_neg hk))
  · exact (congrArg (fun z : State => z.cell c) hv).trans ((hcell c).trans (if_pos rfl))

/-! ### Precise faults (R430, R434) -/

theorem lowestFault_mem {l : List (Nat × TrapInfo)} {x : Nat × TrapInfo} (h : lowestFault l = some x) : x ∈ l := by
  induction l generalizing x with
  | nil => cases h
  | cons y r ih =>
    unfold lowestFault at h
    split at h
    · rw [Option.some.inj h]; exact List.mem_cons_self
    · rename_i z hz
      split at h
      · rw [← Option.some.inj h]; exact List.mem_cons_of_mem _ (ih hz)
      · rw [Option.some.inj h]; exact List.mem_cons_self

/-- Of faults that lanes make by one rule, that of the lowest lane is taken. -/
theorem lowestFault_map {ls : List Nat} {g : Nat → TrapInfo} {p : Nat} (hp : p ∈ ls) (hmin : ∀ q ∈ ls, p ≤ q) :
    lowestFault (ls.map fun q => (q, g q)) = some (p, g p) := by
  induction ls with
  | nil => simp at hp
  | cons x r ih =>
    have hx : p ≤ x := hmin x List.mem_cons_self
    rw [List.map_cons, lowestFault]
    by_cases hr : p ∈ r
    · rw [ih hr fun q hq => hmin q (List.mem_cons_of_mem _ hq)]
      dsimp only
      split
      · rfl
      · rename_i h
        rw [Nat.le_antisymm (Nat.not_lt.1 h) hx]
    · obtain rfl : p = x := (List.mem_cons.1 hp).resolve_right hr
      split
      · rfl
      · rename_i y hy
        obtain ⟨q, hq, rfl⟩ := List.mem_map.1 (lowestFault_mem hy)
        rw [if_neg (Nat.not_lt.2 (hmin q (List.mem_cons_of_mem _ hq)))]

/-- The lanes of the issuer forget what their walks and reads have met. -/
def forgetFails (s : State) : State := modStrs s s.cur.lanes fun t => { t with walkFail := [], readFail := [] }

/-- A fault of some lanes that is no sub-page fault. -/
theorem takeFault_lanes {s : State} {ls : List Nat} {g : Nat → TrapInfo} {p : Nat} (hp : p ∈ ls) (hmin : ∀ q ∈ ls, p ≤ q)
    (hg : ∀ q, (g q).cause ≠ 8) : takeFault s (ls.map fun q => (q, g q)) =
      if s.cur.sup then doubleFault (forgetFails s) p s.cur.ba (g p).cause (g p).sval (sinfoOf (laneMask s.cur.leader ls) (g p))
      else takeTrap (forgetFails s) s.cur.leader p (laneMask s.cur.leader ls) (g p) s.cur.ba := by
  have hnone : (ls.map fun q => (q, g q)).filter (fun q => decide (q.2.cause = 8)) = [] := by
    refine filter_eq_nil fun q hq => ?_
    obtain ⟨k, hk, rfl⟩ := List.mem_map.1 hq
    exact decide_eq_false (hg k)
  have hlanes : (ls.map fun q => (q, g q)).map (·.1) = ls := by
    rw [List.map_map]
    exact List.map_id ls
  unfold takeFault
  rw [lowestFault_map hp hmin]
  dsimp only
  rw [hnone, hlanes]
  rfl

theorem forgetFails_eq (s : State) : ∃ v, forgetFails s = s.setStrands v := modStrs_eq _ _ _

theorem str_forgetFails (s : State) (q : Nat) : ∃ a b, (forgetFails s).str q = { s.str q with walkFail := a, readFail := b } := by
  have h : (forgetFails s).str q = if q ∈ s.cur.lanes then { s.str q with walkFail := [], readFail := [] } else s.str q :=
    str_modStrs (f := fun t => { t with walkFail := [], readFail := [] }) (fun _ => rfl) _ _ _
  rw [h]
  split
  · exact ⟨_, _, rfl⟩
  · exact ⟨_, _, rfl⟩

theorem freezeOne_twice (now : Nat) (t : Strand) : freezeOne now (freezeOne now t) = freezeOne now t := by
  unfold freezeOne
  by_cases h : t.st = .free ∨ t.st = .frozen <;> simp [h]

/-- A trap of one lane (R434, R435): it enters SUPERVISOR, every other lane of the gang FROZEN. -/
theorem str_takeTrap (s : State) (lead pos fm : Nat) (i : TrapInfo) (ret : Word) (q : Nat) : (takeTrap s lead pos fm i ret).str q =
    if q = pos then enterSup (s.str pos) (pos - lead) fm i ret
    else if q ∈ gangLanes s lead then freezeOne s.time (s.str q) else s.str q := by
  have hmod : ∀ q, (modStrs (putGang s lead { s.gang lead with handler := some pos }) ((gangLanes s lead).filter (· ≠ pos))
      (freezeOne s.time)).str q = if q ∈ (gangLanes s lead).filter (· ≠ pos) then freezeOne s.time (s.str q) else s.str q := fun q =>
    str_modStrs (freezeOne_twice s.time) _ _ q
  unfold takeTrap
  rw [str_modStr, hmod, hmod]
  by_cases hq : q = pos
  · rw [if_pos hq, if_pos hq, if_neg (by simp)]
  · rw [if_neg hq, if_neg hq]
    exact ite_iff (by simp [hq]) rfl rfl

theorem takeTrap_eq (s : State) (lead pos fm : Nat) (i : TrapInfo) (ret : Word) :
    ∃ v, takeTrap s lead pos fm i ret = (putGang s lead { s.gang lead with handler := some pos }).setStrands v := by
  obtain ⟨v, hv⟩ := modStrs_eq (freezeOne s.time) ((gangLanes s lead).filter (· ≠ pos)) (putGang s lead { s.gang lead with handler := some pos })
  unfold takeTrap
  rw [hv]
  exact ⟨_, rfl⟩

/-- The state in which lane p has trapped from the bundle in hand, and all the rest stands. -/
theorem faultTraps {s : State} {ls : List Nat} {p : Nat} {i : TrapInfo} (hslot : i.slotA = false) (hacc : i.access = 0) (hcode : i.code = 1)
    (u : State) (hu : u = takeTrap (forgetFails s) s.cur.leader p (laneMask s.cur.leader ls) i s.cur.ba) :
    (u.str p).st = .supervisor ∧ (u.str p).park = .none ∧ (u.str p).pc = 0xFFFFFFFFC0000000#64 ∧ (u.str p).sret = s.cur.ba ∧
      (u.str p).scause = word ((p - s.cur.leader) * 2 ^ 12 + i.cause) ∧ (u.str p).sval = i.sval ∧
      (u.str p).sinfo = word (laneMask s.cur.leader ls % 2 ^ 16 * 2 ^ 16 + 1 * 2 ^ 8) ∧
      (∀ q ∈ gangLanes s s.cur.leader, q ≠ p → (u.str q).pc = (s.str q).pc ∧ ((s.str q).st ≠ .free → (u.str q).st = .frozen)) ∧
      u.gang s.cur.leader = { s.gang s.cur.leader with handler := some p } ∧ (∀ l, l ≠ s.cur.leader → u.gang l = s.gang l) ∧
      (u.setStrands s.strands).setGangs s.gangs = s := by
  obtain ⟨v, hv⟩ := forgetFails_eq s
  obtain ⟨w, hw⟩ := takeTrap_eq (forgetFails s) s.cur.leader p (laneMask s.cur.leader ls) i s.cur.ba
  have hp : u.str p = enterSup ((forgetFails s).str p) (p - s.cur.leader) (laneMask s.cur.leader ls) i s.cur.ba := by
    rw [hu, str_takeTrap, if_pos rfl]
  have hlanes : gangLanes (forgetFails s) s.cur.leader = gangLanes s s.cur.leader := by
    refine gangLanes_congr ?_
    obtain ⟨a, b, e⟩ := str_forgetFails s s.cur.leader
    rw [e]
    rfl
  have hgang : ∀ l, u.gang l = if l = s.cur.leader then { s.gang s.cur.leader with handler := some p } else s.gang l := fun l => by
    have hfg : ∀ l, (forgetFails s).gang l = s.gang l := fun l => by rw [hv]; rfl
    rw [hu, hw]
    exact (gang_putGang _ _ _ _).trans (by rw [hfg, hfg])
  refine ⟨?_, ?_, ?_, ?_, ?_, ?_, ?_, fun q hq hqp => ?_, (hgang _).trans (if_pos rfl), fun l hl => (hgang l).trans (if_neg hl), ?_⟩
  · rw [hp]; rfl
  · rw [hp]; rfl
  · rw [hp]; rfl
  · rw [hp]; rfl
  · rw [hp]; rfl
  · rw [hp]; rfl
  · rw [hp]
    show sinfoOf _ i = _
    rw [sinfoOf, hslot, hacc, hcode]
    exact congrArg word (by simp [bCode])
  · obtain ⟨a, b, e⟩ := str_forgetFails s q
    rw [hu, str_takeTrap, if_neg hqp, hlanes, if_pos hq, e]
    unfold freezeOne
    by_cases hst : (s.str q).st = .free ∨ (s.str q).st = .frozen
    · rw [if_pos hst]
      exact ⟨rfl, fun hne => hst.resolve_left hne⟩
    · rw [if_neg hst]
      exact ⟨rfl, fun _ => rfl⟩
  · rw [hu, hw, hv]
    cases s
    rfl

/-- A privileged word outside single-lane mode (R430, R436). -/
theorem exec_priv {i : Instr} {gd : Guard} {f : Form} {s : State} {p : Nat} (he : exec i s = run gd f s) (hi : f.issuer s = true)
    (ha : ∀ p, f.alley s p = true) (hpriv : f.priv = 1) (hsup : s.cur.sup = false) (hp : p ∈ s.cur.lanes) (hmin : ∀ q ∈ s.cur.lanes, p ≤ q) :
    exec i s = .next (takeTrap (forgetFails s) s.cur.leader p (laneMask s.cur.leader s.cur.lanes)
      { cause := 3, code := 1, sval := word s.cur.word.toNat } s.cur.ba) := by
  have h1 : stage1 s { form := f, gd := gd } = .ok := by
    have hnone : (actingLanes s gd).filter (fun p => !f.alley s p) = [] := filter_eq_nil fun p _ => by simp [ha p]
    simp [stage1, hi, hnone]
  have h2 : stage2 s { form := f, gd := gd } =
      .fault (s.cur.lanes.map fun q => (q, { cause := 3, code := 1, sval := word s.cur.word.toNat })) := by
    simp only [stage2, hpriv, hsup]
    rfl
  have hj : judge s [{ form := f, gd := gd }] =
      .fault (s.cur.lanes.map fun q => (q, { cause := 3, code := 1, sval := word s.cur.word.toNat })) := by
    simp only [judge, firstOf, stageAll_one, h1, h2]
  rw [he, run, runBundle, if_neg (by simp [hsup]), hj]
  dsimp only
  rw [takeFault_lanes hp hmin fun _ => (by decide : (3 : Nat) ≠ 8), if_neg (by simp [hsup])]

/-- Of checks made in every lane, those that fail. -/
theorem faultsOf_some {ls : List Nat} {c : Nat → Prop} {g : Nat → TrapInfo} (hc : ∀ p, Decidable (c p))
    (h : ls.filter (fun p => decide (c p)) ≠ []) :
    faultsOf (ls.map fun p => (p, if c p then some (g p) else none)) = .fault ((ls.filter (fun p => decide (c p))).map fun p => (p, g p)) := by
  have e : (ls.map fun p => (p, if c p then some (g p) else none)).filterMap (fun q => q.2.map (fun i => (q.1, i))) =
      (ls.filter (fun p => decide (c p))).map fun p => (p, g p) := by
    clear h
    induction ls with
    | nil => rfl
    | cons p r ih =>
      by_cases hp : c p
      · simpa [hp] using ih
      · simpa [hp] using ih
  unfold faultsOf
  dsimp only
  rw [e, if_neg (by simpa using h)]

/-- Settles O52. -/
theorem preciseFaultsTrap : Obligations.PreciseFaultsTrap := by
  intro gd d a b s p lead traps
  refine ⟨fun hsup hp hmin i hi => ?_, fun hr hcan hp hmin => ?_⟩
  · have hany : ∀ {i : Instr} {f : Form}, exec i s = run gd f s → f.issuer s = true → (∀ p, f.alley s p = true) → f.priv = 1 →
        traps i s.cur.lanes 3 1 (word s.cur.word.toNat) := fun he h1 h2 h3 =>
      ⟨_, exec_priv he h1 h2 h3 hsup hp hmin, faultTraps rfl rfl rfl _ rfl⟩
    simp only [List.mem_cons, List.not_mem_nil, or_false] at hi
    rcases hi with rfl | rfl | rfl | rfl | rfl | rfl | rfl | rfl
    · exact hany (f := formSysret gd) rfl rfl (fun _ => rfl) rfl
    · exact hany (f := formHalt gd) rfl rfl (fun _ => rfl) rfl
    · exact hany (f := formKill gd a) rfl rfl (fun _ => rfl) rfl
    · exact hany (f := formTlbinvAll gd) rfl rfl (fun _ => rfl) rfl
    · exact hany (f := formTlbinvAsid gd a) rfl rfl (fun _ => rfl) rfl
    · exact hany (f := formTlbinvPage gd a b) rfl rfl (fun _ => rfl) rfl
    · exact hany (f := formCinv gd a b) rfl rfl (fun _ => rfl) rfl
    · exact hany (f := formProbe gd d a) rfl rfl (fun _ => rfl) rfl
  · have hcond : (actingLanes s gd).filter (fun q => decide ((rdReg s q a).toNat % 4 ≠ 0 ∨ (!canonical (rdReg s q a)) = true)) =
        (actingLanes s gd).filter (fun q => decide ((rdReg s q a).toNat % 4 ≠ 0)) := by
      refine List.filter_congr fun q hq => ?_
      by_cases hb : (rdReg s q a).toNat % 4 ≠ 0
      · simp [hb]
      · have := hcan q hq fun h => hb (by simpa using (List.mem_filter.1 h).2)
        simp [hb, this]
    generalize hbad : (actingLanes s gd).filter (fun q => decide ((rdReg s q a).toNat % 4 ≠ 0)) = bad at *
    have hfault : markSlot { form := formBrx gd a, gd := gd } ((formBrx gd a).operand s (actingLanes s gd)) =
        .fault (bad.map fun q => (q, operandFault 1 (rdReg s q a))) := by
      have : (formBrx gd a).operand s (actingLanes s gd) = .fault (bad.map fun q => (q, operandFault 1 (rdReg s q a))) := by
        rw [← hcond]
        exact faultsOf_some (c := fun q => (rdReg s q a).toNat % 4 ≠ 0 ∨ (!canonical (rdReg s q a)) = true)
          (g := fun q => operandFault 1 (rdReg s q a)) _ (by rw [hcond]; exact List.ne_nil_of_mem hp)
      rw [this, markSlot, List.map_map]
      rfl
    obtain ⟨h1, h2⟩ := stages_plain (s := s) (x := { form := formBrx gd a, gd := gd }) rfl (fun _ => rfl) (Or.inl rfl)
    have h3 : stageRegs s { form := formBrx gd a, gd := gd } = .ok := stageRegs_ok hr
    have h4 : stageFence s { form := formBrx gd a, gd := gd } = .ok := stageFence_plain rfl rfl
    have h5 : (formBrx gd a).regs s (actingLanes s gd) = .ok := rfl
    have hj : judge s [{ form := formBrx gd a, gd := gd }] = .fault (bad.map fun q => (q, operandFault 1 (rdReg s q a))) := by
      simp only [judge, firstOf, stageAll_one, h1, h2, h3, h4, h5, hfault]
    have hexec : exec (.brx gd a) s = .next (takeFault s (bad.map fun q => (q, operandFault 1 (rdReg s q a)))) := by
      show run gd (formBrx gd a) s = _
      rw [run, runBundle, if_neg (by simp [formBrx, jumpForm]), hj]
    rw [takeFault_lanes hp hmin fun _ => (by decide : (4 : Nat) ≠ 8)] at hexec
    refine ⟨fun hsup => ?_, fun hsup => ?_⟩
    · rw [if_neg (by simp [hsup])] at hexec
      exact ⟨_, hexec, faultTraps rfl rfl rfl _ rfl⟩
    · rw [if_pos hsup] at hexec
      obtain ⟨v, hv⟩ := forgetFails_eq s
      refine ⟨forgetFails s, hexec.trans ?_, setStrands_back hv⟩
      rw [sinfoOf]
      simp [operandFault, bCode]
      rfl

end Sys2Proof.Machine
end

section
/-!
PROOFS. Synchronization (spec/12_isa_memory_and_sync.md R339, spec/13_isa_async_and_system.md R360 to R375): words with an effect of their
own, `wait`, barriers, messages and subscriptions.
-/
namespace Sys2Proof.Machine

open Sys2Proof

/-! ### Words with an effect of their own -/

/-- The checks of a word, each with its proof for the form that does not make it. -/
theorem clear_of {s : State} {gd : Guard} {i : Instr} {f : Form} (hi : f.instr = i) (regs : RegsLanded s gd i)
    (fence : stageFence s { form := f, gd := gd } = .ok)
    (excluded : (s.cur.sup && f.excluded) = false := by exact Bool.and_false _)
    (issuer : f.issuer s = true := by rfl)
    (priv : f.priv = 0 ∨ s.cur.sup = true := by exact Or.inl rfl)
    (reads : ∀ p ∈ actingLanes s gd, ∀ r ∈ f.reads s p, broken s r = false := by exact fun _ _ _ h => nomatch h)
    (links : f.regs s (actingLanes s gd) = .ok := by rfl)
    (operand : f.operand s (actingLanes s gd) = .ok := by rfl)
    (engine : stageEngine s [{ form := f, gd := gd }] = .ok := by exact stageEngine_none rfl)
    (access : f.access s (actingLanes s gd) = .ok := by rfl)
    (values : f.values s (actingLanes s gd) = .ok := by rfl)
    (room : f.room s (actingLanes s gd) = .ok := by rfl)
    (holds : f.holds s (actingLanes s gd) = .ok := by rfl)
    (price : Payable s (Nat.min 64 (f.price s (actingLanes s gd))) f.quotaFree := by exact Or.inl rfl)
    (alley : ∀ p ∈ actingLanes s gd, f.alley s p = true := by exact fun _ _ => rfl) : Clear s { form := f, gd := gd } :=
  ⟨excluded, issuer, alley, priv, hi.symm ▸ regs, reads, links, fence, operand, engine, access, values, room, holds, price⟩

/-- A form whose checks pass completes by its effect. -/
theorem completesBy_of {i : Instr} {gd : Guard} {paid : Bool} {ok : State → Prop} {effect : State → State → State} (f : Form)
    (he : ∀ s, exec i s = run gd f s) (hi : f.instr = i) (hc : ∀ s, RegsLanded s gd i → ok s → Clear s { form := f, gd := gd })
    (ha : ∀ s u, ok s → Issues paid s u → f.act s u (actingLanes s gd) = effect s u)
    (hp : paid = false → ∀ s, f.price s (actingLanes s gd) = 0 := by exact fun _ _ => rfl) : CompletesBy i gd paid ok effect := by
  intro s hr hok
  obtain ⟨u, hu, hx⟩ := run_issues (hc s hr hok) paid fun h => hp h s
  exact ⟨u, hu, by rw [he, hx, hi, ha s u hok hu]⟩

/-- Whether there is an acting lane, as the forms and the statements ask it. -/
theorem ite_isEmpty {α : Type} (ls : List Nat) (a b : α) : (if ls.isEmpty then a else b) = if ls = [] then a else b :=
  ite_iff List.isEmpty_iff rfl rfl

theorem fence_plain {s : State} {gd : Guard} {f : Form} (hm : memEvents f.instr = (false, false)) (hw : waitsForAll f.instr = false) :
    stageFence s { form := f, gd := gd } = .ok := stageFence_plain hm hw

theorem fence_met {s : State} {gd : Guard} {f : Form} (h : OrderMet s gd (waitsForAll f.instr)) :
    stageFence s { form := f, gd := gd } = .ok := stageFence_met h

/-! ### `wait` (R339) -/

/-- Settles O35. -/
theorem waitCompletesWithItsMonitors : Obligations.WaitCompletesWithItsMonitors := by
  intro gd d a w64 acq
  refine completesBy_of (formWait gd d a w64 acq) (fun _ => rfl) rfl (fun s hr ⟨hord, hmon⟩ => ?_) fun s u _ _ => ?_
  · have hnone : ∀ p ∈ actingLanes s gd, waitAsks s a w64 p = [] := fun p hp => by
      obtain ⟨m, r, hm, -⟩ := hmon p hp
      simp [waitAsks, hm]
    have hreach : Reaches s (actingLanes s gd) (waitAsks s a w64) := by
      refine ⟨fun p hp x hx => ?_, fun p hp x hx => ?_, Or.inr fun p hp x hx => ?_, fun p hp => Or.inl (hnone p hp)⟩ <;>
        rw [hnone p hp] at hx <;> cases hx
    refine clear_of rfl hr (fence_met hord) (access := accessStage_ok hreach) (room := roomStage_ok hreach) (holds := ?_)
    have : (actingLanes s gd).filter (fun p => !waitDone s p) = [] := filter_eq_nil fun p hp => by
      obtain ⟨m, r, hm, hd⟩ := hmon p hp
      simp [waitDone, hm, hd]
    simp only [formWait, this, List.isEmpty_nil, if_true]
  · simp only [formWait, ite_isEmpty]
    rfl

/-! ### Barriers (R364 to R369) -/

theorem wakeBar_twice (t : Strand) : wakeBar (wakeBar t) = wakeBar t := by
  unfold wakeBar clearReason goOn
  by_cases hf : t.st = .frozen
  · simp [hf]
  · by_cases hp : t.st = .parked <;> by_cases hn : t.nba = t.pc + 8#64 <;> simp [hf, hp, hn]

theorem waitBits_ok {s : State} {ls : List Nat} {bit : Nat → Bool} {w : Bool → WaitFor} (h : ∀ p ∈ ls, bit p = false) :
    waitBits s ls bit w = .ok := by
  have : ls.any bit = false := List.any_eq_false.2 fun p hp => by simp [h p hp]
  simp [waitBits, this]

/-- Settles O37. -/
theorem barriersCount : Obligations.BarriersCount := by
  intro gd b a q
  refine ⟨?_, ?_, ?_, ?_, ?_, ?_, ?_, ?_⟩
  · refine completesBy_of (formTbinit gd b a) (fun _ => rfl) rfl (fun s hr hok => ?_) fun s u _ _ => ?_
    · refine clear_of rfl hr (fence_plain rfl rfl) (operand := ?_) (room := ?_)
      · by_cases hne : actingLanes s gd = []
        · simp [formTbinit, hne]
        · obtain ⟨⟨h1, h2⟩, -⟩ := hok hne
          simp only [formTbinit, ite_isEmpty, if_neg hne]
          exact faultsOf_none (ls := [lowestOf s (actingLanes s gd)]) (g := fun p => (p, if 1 ≤ (rdReg s p a).toNat % 128 ∧
            (rdReg s p a).toNat % 128 ≤ 64 then none else some (operandFault 0x12 (rdReg s p a)))) fun p hp => by
              rw [List.mem_singleton.1 hp]
              exact if_pos ⟨h1, h2⟩
      · by_cases hne : actingLanes s gd = []
        · simp [formTbinit, hne]
        · obtain ⟨-, h | h⟩ := hok hne <;> simp [formTbinit, h]
    · simp only [formTbinit, ite_isEmpty]
  · exact completesBy_of (formTbexp gd b a) (fun _ => rfl) rfl (fun s hr hok => clear_of rfl hr (fence_met hok)) fun _ _ _ _ => rfl
  · exact completesBy_of (formTbarr gd b) (fun _ => rfl) rfl (fun s hr hok => clear_of rfl hr (fence_met hok)) fun _ _ _ _ => rfl
  · exact completesBy_of (formTbwait gd b) (fun _ => rfl) rfl
      (fun s hr hok => clear_of rfl hr (fence_plain rfl rfl) (holds := waitBits_ok hok)) fun _ _ _ _ => rfl
  · exact completesP_of (formTbtest gd q b) (fun _ => rfl) (Plain.of_eq rfl rfl rfl) (fun _ _ => rfl) fun _ _ => rfl
  · refine completesBy_of (formBbarr gd) (fun _ => rfl) rfl (fun s hr ⟨hsup, hord, hfull⟩ => ?_) fun s u _ _ => ?_
    · refine clear_of rfl hr (fence_met hord) (excluded := by rw [hsup]; rfl) (room := ?_)
      rcases hfull with h | h <;> simp [formBbarr, h]
    · simp only [formBbarr, ite_isEmpty]
  · refine completesBy_of (formBbwait gd) (fun _ => rfl) rfl (fun s hr ⟨hsup, hbits⟩ => ?_) fun s u _ _ => ?_
    · exact clear_of rfl hr (fence_plain rfl rfl) (excluded := by rw [hsup]; rfl) (holds := waitBits_ok hbits)
    · simp only [formBbwait, ite_isEmpty]
  · intro s c n p ba k x bit fresh
    refine ⟨fun h => ?_, fun found h => ?_, fun h1 h2 h3 h4 => ?_, fun h1 h2 => ?_, fun h1 h2 h3 => ?_, fun h => ?_⟩
    · simp only [tbInit, h]
      rfl
    · have hf : (found || tbIsBusy s c b.val) = true := by simpa using h
      simp only [tbInit, hf, if_true]
      rfl
    · exact if_pos ⟨h1, h3, h2, by simpa using h4⟩
    · unfold tbPend
      rw [if_pos]
      · simp [x]
      · exact ⟨h1, by have := h2; simp only [x] at this; omega⟩
    · have e : tbTest s c b.val = modStrs (putBar s c b.val { x with
          phase := !x.phase, lerr := x.err, err := false, remain := x.expect, arrived := 0#64, before := 0#64,
          overArrive := false, pendRange := false, overrun := false }) (parkedOn s c b.val) wakeBar := if_pos ⟨h1, h2, h3⟩
      rw [e]
      refine ⟨?_, fun q hq => ?_⟩
      · rw [barOf_modStrs, barOf_putBar_self]
        simp only [h1, h3]
      · exact (str_modStrs wakeBar_twice _ _ q).trans (if_pos hq)
    · unfold bbArrive
      dsimp only
      rw [if_neg (by rw [h]; exact Bool.false_ne_true)]
      have hput : (putCell s (cellOf p) { s.cell (cellOf p) with
          bbArrived := (s.cell (cellOf p)).bbArrived ||| bit }).cell (cellOf p) =
          { s.cell (cellOf p) with bbArrived := (s.cell (cellOf p)).bbArrived ||| bit } := (cell_putCell _ _ _ _).trans (if_pos rfl)
      split
      · exact congrArg CellSt.bbArrived hput
      · split
        · exact congrArg CellSt.bbArrived hput
        · exact congrArg CellSt.bbArrived hput

/-! ### Messages and subscriptions (R360 to R375) -/

/-- The first free entry of a match table is the one that a new subscription takes (R360). -/
theorem find_freeEntry {m : Tab MatchEnt} {i : Nat} (hi : i < 16) (hf : tfind m i = none) (hlow : ∀ j, j < i → tfind m j ≠ none) :
    (List.range 16).find? (fun i => (tfind m i).isNone) = some i := by
  rw [List.find?_range_eq_some]
  exact ⟨by rw [hf]; rfl, List.mem_range.2 hi, fun j hj => by simpa using Option.isSome_iff_ne_none.2 (hlow j hj)⟩

/-- Settles O38. -/
theorem messagesAndSubscriptions : Obligations.MessagesAndSubscriptions := by
  intro gd a w q take
  refine ⟨?_, ?_, ?_, ?_, ?_, ?_⟩
  · refine completesBy_of (formSend gd a w) (fun _ => rfl) rfl (fun s hr ⟨hord, hcheck, hroom⟩ => ?_) fun _ _ _ _ => rfl
    refine clear_of rfl hr (fence_met hord) (values := faultsOf_none fun p hp => hcheck p hp) (room := if_pos ?_)
    simpa using hroom
  · refine completesBy_of (formRecv gd w) (fun _ => rfl) rfl (fun s hr ⟨hord, hmsg⟩ => ?_) fun _ _ _ _ => rfl
    have hbare : bare s (actingLanes s gd) = [] := filter_eq_nil fun p hp => by simpa using hmsg p hp
    refine clear_of rfl hr (fence_met hord) (holds := ?_)
    simp only [formRecv, hbare, List.isEmpty_nil, if_true]
  · refine completesBy_of (formRecvt gd w a q) (fun _ => rfl) rfl (fun s hr ⟨hord, hmsg⟩ => ?_) fun _ _ _ _ => rfl
    have hopen : recvtOpen s (actingLanes s gd) a = [] := filter_eq_nil fun p hp => by
      obtain ⟨hp, he⟩ := List.mem_filter.1 hp
      rcases hmsg p hp with h | h | ⟨x, hx, hle⟩
      · exact absurd (by simpa using he) h
      · exact Bool.and_eq_false_iff.2 (Or.inl (decide_eq_false fun hne => hne h))
      · simp only [hx, Bool.and_eq_false_iff]
        exact Or.inr (decide_eq_false (by omega))
    refine clear_of rfl hr (fence_met hord) (holds := ?_)
    simp only [formRecvt, hopen, List.isEmpty_nil, if_true]
  · refine completesBy_of (formMulticastSub gd a) (fun _ => rfl) rfl (fun s hr hok => ?_) fun _ _ _ _ => rfl
    refine clear_of rfl hr (fence_plain rfl rfl) (values := ?_)
    have hnone : lacking (s.cell (curCell s)) (fun p => (matchOfView (rdReg s p a)).tag) [] (actingLanes s gd) = [] := hok
    simp only [formMulticastSub, hnone]
    rfl
  · exact completesBy_of (formMulticastUnsub gd a) (fun _ => rfl) rfl (fun s hr _ => clear_of rfl hr (fence_plain rfl rfl))
      fun _ _ _ _ => rfl
  · intro s c v e put
    have he : matchOfView v = e := rfl
    refine ⟨fun i hi => ⟨?_, ?_⟩, fun hno => ⟨?_, fun i hi hf hlow => ?_⟩⟩
    · simp only [subOne, he, hi]
      rfl
    · simp only [unsubOne, he, hi]
      rfl
    · simp only [unsubOne, he, hno]
    · simp only [subOne, he, hno, find_freeEntry hi hf hlow]
      rfl

end Sys2Proof.Machine
end

section
/-!
PROOFS. Fences, prefetch and cache maintenance (spec/12_isa_memory_and_sync.md R328, R337, spec/06_consistency_model.md R151, R158,
spec/13_isa_async_and_system.md R382).
-/
namespace Sys2Proof.Machine

open Sys2Proof

/-! ### What leaves the L1 (R158) -/

/-- The bytes of a sector value that a mask names are written one by one, and no other. -/
theorem byteAt_writeDirty (s : State) (loc : Nat) (d : BitVec 256) (m : BitVec 32) (n x : Nat) :
    byteAt (writeDirty s loc d m n) x =
      if loc ≤ x ∧ x < loc + n ∧ m.getLsbD (x - loc) = true then BitVec.ofNat 8 (secGet d (x - loc) 1) else byteAt s x := by
  induction n with
  | zero => rw [writeDirty, if_neg (by omega)]
  | succ n ih =>
    have hstep : byteAt (writeDirty s loc d m (n + 1)) x =
        if x = loc + n ∧ m.getLsbD n = true then BitVec.ofNat 8 (secGet d n 1) else byteAt (writeDirty s loc d m n) x := by
      simp only [writeDirty]
      by_cases hm : m.getLsbD n = true
      · rw [if_pos hm]
        by_cases hx : x = loc + n
        · rw [if_pos ⟨hx, hm⟩, hx]
          unfold byteAt
          rw [wrHome_mem]
          exact (memGet_memWrite_in _ (loc + n) 1 _ 0 (by omega)).trans (by simp)
        · rw [if_neg fun h => hx h.1, byteAt_wrHome_out _ _ _ _ (by omega)]
      · rw [if_neg hm, if_neg fun h => hm h.2]
    rw [hstep, ih]
    by_cases hx : x = loc + n
    · subst hx
      rw [if_neg (show ¬(loc ≤ loc + n ∧ loc + n < loc + n ∧ _) by omega), Nat.add_sub_cancel_left]
      by_cases hm : m.getLsbD n = true
      · rw [if_pos ⟨rfl, hm⟩, if_pos ⟨by omega, by omega, hm⟩]
      · rw [if_neg fun h => hm h.2, if_neg fun h => hm h.2.2]
    · rw [if_neg fun h => hx h.1]
      exact ite_iff ⟨fun ⟨h1, h2, h3⟩ => ⟨h1, by omega, h3⟩, fun ⟨h1, h2, h3⟩ => ⟨h1, by omega, h3⟩⟩ rfl rfl

theorem writeDirty_cells (s : State) (loc : Nat) (d : BitVec 256) (m : BitVec 32) (n : Nat) : (writeDirty s loc d m n).cells = s.cells := by
  induction n with
  | zero => rfl
  | succ n ih =>
    simp only [writeDirty]
    split
    · exact (wrHome_pend _ _ _ _).2.2.1.trans ih
    · exact ih

/-- A sound sector that leaves the L1, with no Crossing failed on its way, writes its dirty bytes home and no other. -/
theorem l1Flush_sound {s : State} {c k : Nat} {l : L1Sector} (h : tfind (s.cell c).l1 k = some l)
    (h1 : crossed s (dieOf c) (homeDie (32 * k)) c (32 * k) = false) (h2 : badAt s (32 * k) = none) (h3 : l.bad = false) :
    tfind ((l1Flush s c k).cell c).l1 k = none ∧ ∀ x, byteAt (l1Flush s c k) x =
      if 32 * k ≤ x ∧ x < 32 * k + 32 ∧ l.dirty.getLsbD (x - 32 * k) = true then BitVec.ofNat 8 (secGet l.data (x - 32 * k) 1)
      else byteAt s x := by
  have hdrop : tfind ((putCell s c { s.cell c with l1 := tdel (s.cell c).l1 k }).cell c).l1 k = none := by
    rw [cell_putCell, if_pos rfl]
    exact tfind_tdel_self _ _
  have h1' : crossed (putCell s c { s.cell c with l1 := tdel (s.cell c).l1 k }) (dieOf c) (homeDie (32 * k)) c (32 * k) = false := h1
  have h2' : badAt (putCell s c { s.cell c with l1 := tdel (s.cell c).l1 k }) (32 * k) = none := h2
  unfold l1Flush
  rw [h]
  dsimp only
  by_cases hd : l.dirty = 0#32
  · rw [if_pos hd]
    refine ⟨hdrop, fun x => ?_⟩
    rw [if_neg (by rw [hd]; simp)]
    rfl
  · rw [if_neg hd, if_neg (by simp [h3]), sectorWrite, if_neg (by rw [h1']; exact Bool.false_ne_true), h2']
    refine ⟨?_, fun x => ?_⟩
    · rw [cell_congr (writeDirty_cells _ _ _ _ _)]
      exact hdrop
    · exact byteAt_writeDirty _ _ _ _ _ _

/-! ### Work in flight (R337) -/

/-- A table mapped entry by entry under the same keys. -/
theorem tfind_mapped {α : Type} (f : Nat → α → α) (t : Tab α) (k : Nat) :
    tfind (t.map fun e => (e.1, f e.1 e.2)) k = (tfind t k).map (f k) := by
  induction t with
  | nil => rfl
  | cons x r ih =>
    obtain ⟨j, v⟩ := x
    simp only [List.map_cons, tfind]
    by_cases h : j = k
    · subst h; simp
    · simp [h, ih]

theorem mem_tkeys {α : Type} {t : Tab α} {k : Nat} : k ∈ tkeys t ↔ ∃ v, (k, v) ∈ t := by
  induction t with
  | nil => simp [tkeys]
  | cons x r ih =>
    obtain ⟨j, v⟩ := x
    simp only [tkeys, List.mem_cons, ih, Prod.mk.injEq]
    constructor
    · rintro (rfl | ⟨w, h⟩)
      · exact ⟨v, Or.inl ⟨rfl, rfl⟩⟩
      · exact ⟨w, Or.inr h⟩
    · rintro ⟨w, ⟨rfl, -⟩ | h⟩
      · exact Or.inl rfl
      · exact Or.inr ⟨w, h⟩

theorem mem_tkeys_filter {α : Type} {t : Tab α} {p : Nat × α → Bool} {k : Nat} :
    k ∈ tkeys (t.filter p) ↔ ∃ v, (k, v) ∈ t ∧ p (k, v) = true := by
  simp [mem_tkeys, List.mem_filter]

/-- An act that is still to be performed, as the model asks it. -/
theorem any_unperformed (l : List Part) : l.any (fun q => q.val.isNone) = true ↔ ∃ q ∈ l, q.val = none := by
  simp [List.any_eq_true]

/-- Settles O34. -/
theorem fencesAndCacheMaintenance : Obligations.FencesAndCacheMaintenance := by
  intro gd sc a b any fence lines
  have hfence : ∀ {i : Instr} {acq rel sq : Bool}, (∀ s, exec i s = run gd (fenceForm i sc acq rel sq) s) →
      memEvents i = (false, false) → waitsForAll i = false → fence i acq rel sq := by
    intro i acq rel sq he hm hw
    refine completesBy_of (fenceForm i sc acq rel sq) he rfl (fun s hr _ => clear_of rfl hr (fence_plain hm hw)) fun s u _ _ => ?_
    simp only [fenceForm, ite_isEmpty]
    rfl
  have hlines : ∀ {i : Instr} {priv : Nat} {ok : State → Prop} {f : State → Nat → Nat → State},
      (∀ s, exec i s = run gd (lineForm i priv a b f) s) → memEvents i = (false, false) → waitsForAll i = false →
      (∀ s, ok s → priv = 0 ∨ s.cur.sup = true) → CompletesBy i gd false ok fun s u => lines (fun x k => f x (curCell s) k) s u := by
    intro i priv ok f he hm hw hpriv
    refine completesBy_of (lineForm i priv a b f) he rfl
      (fun s hr hok => clear_of rfl hr (fence_plain hm hw) (priv := hpriv s hok)) fun s u _ _ => ?_
    simp only [lineForm, ite_isEmpty]
    rfl
  refine ⟨hfence (fun _ => rfl) rfl rfl, hfence (fun _ => rfl) rfl rfl, hfence (fun _ => rfl) rfl rfl, hfence (fun _ => rfl) rfl rfl,
    ?_, ?_, ?_, fun s c k l h => ⟨fun hcond => ?_, fun hup hhome hd => ?_, fun h1 h2 h3 => ?_⟩, fun s c k l h => ?_,
    fun s ids id e h => ?_, fun s p id => ⟨?_, ?_⟩⟩
  · exact completesBy_of (formPf gd a b) (fun _ => rfl) rfl (fun s hr _ => clear_of rfl hr (fence_plain rfl rfl)) fun _ _ _ _ => rfl
  · exact hlines (f := fun x c k => match tfind (x.cell c).l1 k with
      | some l => if l.dirty = 0#32 then x else flushLine x c k
      | none => x) (priv := 0) (fun _ => rfl) rfl rfl fun _ _ => Or.inl rfl
  · exact hlines (f := fun x _ k => (tkeys x.cells).foldl (fun y c => flushLine y c k) x) (priv := 1) (fun _ => rfl) rfl rfl fun _ hs => Or.inr hs
  · unfold flushLine
    rw [h]
    dsimp only
    rw [if_neg]
    rcases hcond with h | h | h <;> simp [h]
  · have e : flushLine s c k = takeFresh (s.setStores (tset s.stores s.fresh
        { cell := c, pos := 64 * c, grid := l.grid, sector := k, due := s.time })) := by
      unfold flushLine
      rw [h]
      exact if_pos (by simp [hup, hhome, hd])
    rw [e]
    exact ⟨tfind_tset_self _ _ _, fun _ => rfl, fun _ => rfl⟩
  · obtain ⟨hgone, hbytes⟩ := l1Flush_sound h h1 h2 h3
    refine ⟨hgone, fun i hi => ?_, fun x hx => ?_⟩
    · rw [hbytes, Nat.add_sub_cancel_left]
      exact ite_iff ⟨fun h => h.2.2, fun h => ⟨by omega, by omega, h⟩⟩ rfl rfl
    · rw [hbytes, if_neg (by omega)]
  · have hl1 : ((l1DropClean s c).cell c).l1 =
        ((s.cell c).l1.filter (fun e => decide (e.2.dirty ≠ 0#32))).map (fun e => (e.1, { e.2 with held := e.2.dirty })) := by
      unfold l1DropClean
      rw [cell_putCell, if_pos rfl]
    rw [hl1] at h
    obtain ⟨e, he, heq⟩ := List.mem_map.1 (mem_of_tfind h)
    obtain ⟨-, rfl⟩ := Prod.mk.inj heq
    exact ⟨by simpa using (List.mem_filter.1 he).2, rfl⟩
  · have e1 : (markAcq s sc ids).pend = s.pend.map fun x => (x.1,
        if ids.contains x.1 && x.2.parts.any (fun q => q.val.isNone) then { x.2 with acq := wider x.2.acq sc } else x.2) := by
      refine List.map_congr_left fun x _ => ?_
      split <;> rfl
    rw [e1, tfind_mapped (fun k (x : Pend) =>
      if ids.contains k && x.parts.any (fun q => q.val.isNone) then { x with acq := wider x.acq sc } else x), h]
    refine congrArg some (ite_iff ?_ rfl rfl)
    rw [Bool.and_eq_true_iff, List.contains_iff_mem, any_unperformed]
  · unfold earlierReads
    rw [mem_tkeys_filter]
    simp
  · unfold earlierAll
    rw [List.mem_append, mem_tkeys_filter, mem_tkeys_filter]
    simp [or_assoc]

end Sys2Proof.Machine
end

section
/-!
PROOFS. Transfers and chase walks as they issue (spec/13_isa_async_and_system.md R343 to R349, R355).
-/
namespace Sys2Proof.Machine

open Sys2Proof

theorem tableStage_ok {s : State} {ls : List Nat} (h : ls = [] ∨ tableUse s (curCell s) + ls.length ≤ 256) : tableStage s ls = .ok :=
  if_pos (by simpa using h)

/-- What SELF of the consumer word of a form must say (R348). -/
def selfOk (form : XferForm) (w : Word) : Prop :=
  match form with
  | .cpy => cwSelf w = true
  | .tldm => cwSelf w = false
  | .tld => True
/-- Whether the consumer of a form is a multicast tag (R353). -/
def isMulti (form : XferForm) : Bool :=
  match form with
  | .tldm => true
  | _ => false

/-- A transfer whose words pass their checks, with its source translated and room in the table. -/
theorem clear_xfer {s : State} {gd : Guard} {i : Instr} {form : XferForm} {rel : Option Scope} {cw nw src sh : State → Nat → Word}
    (hr : RegsLanded s gd i) (hord : OrderMet s gd (waitsForAll i))
    (hspace : actingLanes s gd = [] ∨ tableUse s (curCell s) + (actingLanes s gd).length ≤ 256)
    (hpay : PaidFor gd (fun s ls => (ls.map fun p => (shTotal (sh s p) + 1023) / 1024).foldl (· + ·) 0) true s)
    (hshape : ∀ p ∈ actingLanes s gd, shapeOk (sh s p) = true)
    (hself : ∀ p ∈ actingLanes s gd, selfOk form (cw s p))
    (hsrc : ∀ p ∈ actingLanes s gd, ∀ x ∈ sourceAsks (src s p) (sh s p), ∃ t, resolve s p x = .ok t)
    (hcons : ∀ p ∈ actingLanes s gd, consumerCheck s (curCell s) (isMulti form) (cw s p) (shTotal (sh s p)) = none) :
    Clear s { form := xferForm i form rel cw nw src sh, gd := gd } := by
  refine clear_of rfl hr (fence_met hord) (operand := faultsOf_none fun p hp => ?_) (access := transStage_ok hsrc)
    (values := faultsOf_none hcons) (room := tableStage_ok hspace) (price := hpay)
  have h := hself p hp
  simp only [hshape p hp]
  cases form <;> simp_all [selfOk]

theorem intoOwn_iff {s : State} {c : Nat} {form : XferForm} {cons : Consumer} : intoOwn s c form cons = true ↔
    form ≠ .tldm ∧ (cons = .self false ∨ ∃ pkg die cell z, cons = .cap pkg die cell false z ∧ pkg = s.pkg.pkgnum ∧ 160 * die + cell = c) := by
  have hcap : ∀ pkg die cell win key, (!win && decide (pkg = s.pkg.pkgnum ∧ 160 * die + cell = c)) = true ↔
      (Consumer.cap pkg die cell win key = .self false ∨ ∃ pkg' die' cell' z, Consumer.cap pkg die cell win key = .cap pkg' die' cell' false z ∧
        pkg' = s.pkg.pkgnum ∧ 160 * die' + cell' = c) := fun pkg die cell win key => by
    rw [Bool.and_eq_true, Bool.not_eq_true', decide_eq_true_eq]
    constructor
    · rintro ⟨rfl, hc⟩
      exact Or.inr ⟨pkg, die, cell, key, rfl, hc⟩
    · rintro (h | ⟨_, _, _, _, h, hc⟩)
      · cases h
      · cases h
        exact ⟨rfl, hc⟩
  cases cons with
  | self win => cases form <;> simp [intoOwn]
  | cap pkg die cell win key =>
    cases form with
    | tldm => simp [intoOwn]
    | cpy => exact (hcap pkg die cell win key).trans (and_iff_right (by decide)).symm
    | tld => exact (hcap pkg die cell win key).trans (and_iff_right (by decide)).symm
  | tag pkg tag key => cases form <;> simp [intoOwn]

/-- Settles O36. -/
theorem transfersStart : Obligations.TransfersStart := by
  refine ⟨?_, ?_⟩
  · intro gd rel d a b cw nw src sh space xfer
    have hxfer : ∀ {i : Instr} {form : XferForm} {self : Word → Bool} {multi : Bool} {nw : State → Nat → Word},
        (∀ s, exec i s = run gd (xferForm i form rel cw nw src sh) s) → (∀ s, OrderMet s gd rel.isSome → OrderMet s gd (waitsForAll i)) →
        (∀ w, self w = true → selfOk form w) →
        multi = isMulti form → xfer i form self multi nw := by
      intro i form self multi nw he hord hself hmulti
      refine completesBy_of (xferForm i form rel cw nw src sh) he rfl (fun s hr ⟨ho, hspace, hpay, h⟩ => ?_) (fun s u _ _ => ?_)
        fun h => nomatch h
      · exact clear_xfer hr (hord s ho) hspace hpay (fun p hp => decide_eq_true (h p hp).1) (fun p hp => hself _ (h p hp).2.1)
          (fun p hp => (h p hp).2.2.1) fun p hp => hmulti ▸ (h p hp).2.2.2
      · simp only [xferForm, ite_isEmpty]
    refine ⟨hxfer (i := .cpy gd rel d a b) (nw := fun _ _ => 0#64) (multi := false) (fun _ => rfl) (fun _ h => h) (fun _ h => h) rfl,
      hxfer (i := .tld gd rel d a b) (self := fun _ => true) (multi := false) (nw := nw) (fun _ => rfl) (fun _ h => h) (fun _ _ => trivial) rfl,
      hxfer (i := .tldm gd rel d a b) (self := fun w => !w.getLsbD 63) (multi := true) (nw := nw) (fun _ => rfl) (fun _ h => h) (fun w h => ?_) rfl, ?_⟩
    · simpa [selfOk, cwSelf] using h
    · refine completesBy_of (formChase gd rel d a b) (fun _ => rfl) rfl (fun s hr ⟨ho, hspace, hpay, h⟩ => ?_) (fun s u _ _ => ?_)
        fun h => nomatch h
      · refine clear_of rfl hr (fence_met ho) (operand := faultsOf_none fun p hp => if_neg ?_)
          (access := transStage_ok fun p hp x hx => ?_) (values := faultsOf_none fun p hp => (h p hp).2.2)
          (room := tableStage_ok hspace) (price := hpay)
        · simpa using (h p hp).1
        · rw [List.mem_singleton.1 hx]
          exact (h p hp).2.1
      · simp only [formChase, ite_isEmpty]
        rfl
  · intro s t p k form c n x y home cap key cons u v
    have hcons : consumerOf s home c = cons := rfl
    have hu : u = startXfer s t p form c n x y := rfl
    have hclaim : claimDest s t home form c y = t.setClears
        (if intoOwn s home form cons then t.clears ++ destSectors home (field c.toNat 0 24) (shTotal y) else t.clears) := by
      unfold claimDest
      rw [hcons]
      by_cases h : intoOwn s home form cons = true
      · rw [if_pos h, if_pos h]; rfl
      · rw [if_neg h, if_neg h]; rfl
    clear_value u
    unfold startXfer at hu
    dsimp only at hu
    rw [hclaim] at hu
    subst hu
    exact ⟨intoOwn_iff, rfl, rfl, rfl, rfl, rfl, rfl⟩

end Sys2Proof.Machine
end

section
/-!
PROOFS. The matrix engine (spec/11_isa_matrix.md): a free slot of its job queue passes the engine's stage, the stages that
judge the lowest acting lane alone, and the acceptance of the engine's operations.
-/
namespace Sys2Proof.Machine

open Sys2Proof

/-! ### The stages of an engine operation -/

/-- The job queue has room for the word, or no lane acts (R299). -/
theorem stageEngine_room {s : State} {gd : Guard} {f : Form}
    (h : actingLanes s gd = [] ∨ (s.cell (curCell s)).jobs.length + 1 ≤ 16) : stageEngine s [{ form := f, gd := gd }] = .ok := by
  unfold stageEngine
  dsimp only
  refine if_pos ?_
  rcases h with h | h
  · left; simp [h]
  · right
    exact Nat.le_trans (Nat.add_le_add_left (List.length_filter_le _ _) _) h

/-- With an acting lane, the first of them is the lowest. -/
theorem take_one_lowest {s : State} {ls : List Nat} (h : ls ≠ []) : ls.take 1 = [lowestOf s ls] := by
  cases ls with
  | nil => exact absurd rfl h
  | cons p ls => rfl

theorem lowestStage_ok {s : State} {ls : List Nat} {f : Nat → Option TrapInfo} (h : ls ≠ [] → f (lowestOf s ls) = none) :
    lowestStage s ls f = .ok := by
  unfold lowestStage
  by_cases hl : ls = []
  · simp [hl]
  · rw [ite_isEmpty, if_neg hl]
    exact faultsOf_none (ls := [lowestOf s ls]) (g := fun p => (p, f p)) fun p hp => by rw [List.mem_singleton.1 hp]; exact h hl

/-- A stage that judges the lowest acting lane, where there is one. -/
theorem lowest_ok {ls : List Nat} {x : Stage} (h : ls ≠ [] → x = .ok) : (if ls.isEmpty then Stage.ok else x) = .ok := by
  rw [ite_isEmpty]
  exact ite_eq_left_iff.2 h

theorem payable_ite {s : State} (ls : List Nat) (n : Nat) :
    Payable s (Nat.min 64 (if ls.isEmpty then 0 else n)) true ↔ Payable s (Nat.min 64 (if ls = [] then 0 else n)) true := by
  rw [ite_isEmpty]

/-- The value that a look at memory gives is the one stage 5 judges. -/
theorem valueRead_eq {s : State} {p r : Nat} {a : Ask} (h : peek s (curCell s) p (targetOf s p a) a.n = .val r) : valueRead s p a = r := by
  simp only [valueRead, h]

theorem firstFail_pair {a b : Option TrapInfo} (ha : a = none) (hb : b = none) : firstFail [a, b] = none := by
  rw [ha, hb]; rfl

theorem jobCheck_none {s : State} {c r : Nat} {f : Fmt} {o : Word} (hok : jobOk r = true) (hta : terraceCheck s c f (jrAop r) = none)
    (hpa : panelCheck f (jrAop r) = none) (htb : terraceCheck s c f (jrBop r) = none) (hpb : panelCheck f (jrBop r) = none) :
    jobCheck s c f o r = none := by
  unfold jobCheck
  rw [hok, hta, hpa, htb, hpb]
  exact if_neg Bool.false_ne_true

/-! ### Acceptance (R299, R302, R306 to R312) -/

/-- An accepted operation is the last of its cell's queue. -/
theorem jobs_accept (s : State) (k p : Nat) (op : MatOp) (n : Option Nat) (l : List (Target × Nat)) :
    ((accept s k p op n l).cell k).jobs = (s.cell k).jobs ++
      [{ id := s.fresh, num := (s.cell k).jobNum, op := op, ident := n, req := requesterOf s p, rows := l }] :=
  (congrArg CellSt.jobs ((cell_putCell s k k _).trans (if_pos rfl)) :)

/-- An accumulator transfer is accepted with its rows as translated at issue (R306 to R308). -/
theorem rowForm_completes {gd : Guard} {i : Instr} {x y : GReg} {write : Bool} {op : Word → Word → MatOp}
    (he : ∀ s, exec i s = run gd (rowForm i x y write op) s) (hw : waitsForAll i = true) :
    CompletesBy i gd false
      (fun s => OrderMet s gd true ∧ (actingLanes s gd = [] ∨ (s.cell (curCell s)).jobs.length + 1 ≤ 16) ∧
        (actingLanes s gd ≠ [] → rowCheck (rdReg s (lowestOf s (actingLanes s gd)) x) (mcPitch (rdReg s (lowestOf s (actingLanes s gd)) y)) = none ∧
          ∀ k ∈ rowSectors (rdReg s (lowestOf s (actingLanes s gd)) x) (mcPitch (rdReg s (lowestOf s (actingLanes s gd)) y)) write,
            ∃ t, resolve s (lowestOf s (actingLanes s gd)) k = .ok t))
      (fun s u =>
        if actingLanes s gd = [] then u
        else accept u (curCell s) (lowestOf s (actingLanes s gd))
          (op (rdReg s (lowestOf s (actingLanes s gd)) x) (rdReg s (lowestOf s (actingLanes s gd)) y)) none
          ((rowSectors (rdReg s (lowestOf s (actingLanes s gd)) x) (mcPitch (rdReg s (lowestOf s (actingLanes s gd)) y)) write).map
            fun k => (targetOf s (lowestOf s (actingLanes s gd)) k, blockTag s (targetOf s (lowestOf s (actingLanes s gd)) k)))) := by
  refine completesBy_of (rowForm i x y write op) he rfl (fun s hr ⟨ho, hroom, h⟩ => ?_) fun _ _ _ _ => ite_isEmpty _ _ _
  refine clear_of rfl hr (fence_met (hw ▸ ho)) (engine := stageEngine_room hroom) (access := lowest_ok fun hl => ?_)
  obtain ⟨hc, ht⟩ := h hl
  rw [hc]
  exact transStage_ok fun p hp => by rw [List.mem_singleton.1 hp]; exact ht

/-- Settles O39. -/
theorem theEngineAccepts : Obligations.TheEngineAccepts := by
  intro gd rel f c a b d x y entry low job fits rows
  refine ⟨?_, ?_, ?_, ?_, fun r => ?_, ?_, fun s k p op n l => ?_⟩
  · refine completesBy_of (formMma gd rel f c a b) (fun _ => rfl) rfl (fun s hr ⟨hsup, hin, hpath, ho, hroom, hpay, h⟩ => ?_)
      (fun s u _ _ => ite_isEmpty _ _ _) fun h => nomatch h
    refine clear_of rfl hr (fence_met ho) (excluded := by rw [hsup]; rfl) (issuer := by simp [formMma, hin, hpath])
      (engine := stageEngine_room hroom) (access := ?access) (values := ?values) (price := ?price)
    case price => exact (payable_ite _ _).2 hpay
    case access =>
      dsimp only [formMma]
      refine lowestStage_ok fun hl => ?_
      obtain ⟨⟨hta, -⟩, htb, -⟩ := h hl
      exact firstFail_pair hta htb
    case values =>
      dsimp only [formMma]
      refine lowestStage_ok fun hl => ?_
      obtain ⟨⟨-, hpa⟩, -, hpb⟩ := h hl
      exact firstFail_pair hpa hpb
  · refine completesBy_of (formMmz gd c) (fun _ => rfl) rfl (fun s hr hroom => ?_) fun s u _ _ => ite_isEmpty _ _ _
    exact clear_of rfl hr (fence_plain rfl rfl) (engine := stageEngine_room hroom)
  · exact rowForm_completes (i := .mmst gd c x y) (op := fun v w => .mmst c.val v (mcPitch w) (mcCnt w) (mcTb w)) (fun _ => rfl) rfl
  · exact rowForm_completes (i := .mmld gd c x y) (op := fun v w => .mmld c.val v (mcPitch w)) (fun _ => rfl) rfl
  · refine completesBy_of (formMmjob gd d x f) (fun _ => rfl) rfl (fun s hr ⟨ho, hroom, hpay, hreach, h⟩ => ?_)
      (fun s u ⟨_, _, _, _, h⟩ _ => ?_) fun h => nomatch h
    · refine clear_of rfl hr (fence_met ho) (engine := stageEngine_room hroom) (operand := ?operand) (access := ?access) (room := ?room)
        (values := ?values) (price := ?price)
      case price => exact (payable_ite _ _).2 hpay
      case operand =>
        dsimp only [formMmjob]
        exact lowestStage_ok fun hl => if_neg (Classical.not_not.2 (h hl).1)
      case access => exact lowest_ok fun hl => accessStage_ok (take_one_lowest hl ▸ hreach)
      case room => exact lowest_ok fun hl => roomStage_ok (take_one_lowest hl ▸ hreach)
      case values =>
        refine lowest_ok fun hl => valueStage_ok fun p hp => ?_
        obtain ⟨-, hv, hok, ⟨hta, hpa⟩, htb, hpb⟩ := h hl
        rw [List.mem_singleton.1 hp]
        exact ⟨_, hv, jobCheck_none hok hta hpa htb hpb⟩
    · refine (ite_isEmpty _ _ _).trans ?_
      by_cases hl : actingLanes s gd = []
      · rw [if_pos hl, if_pos hl]
      · rw [if_neg hl, if_neg hl, valueRead_eq (h hl).2.1]
  · refine completesBy_of (formMmpoll gd d x) (fun _ => rfl) rfl (fun s hr ⟨ho, h⟩ => ?_) fun s u _ _ => ?_
    · refine clear_of rfl hr (fence_met ho) (holds := lowest_ok fun hl => if_neg ?_)
      have := h hl
      simp only [mpWait, Bool.and_eq_true, not_and, Bool.not_eq_true, Bool.not_eq_false', List.isEmpty_iff]
      exact this
    · refine (ite_isEmpty _ _ _).trans ?_
      by_cases hl : actingLanes s gd = []
      · rw [if_pos hl, hl]; rfl
      · rw [if_neg hl]
  · exact jobs_accept s k p op n l

end Sys2Proof.Machine
end

section
/-!
PROOFS. The special registers (spec/13_isa_async_and_system.md R376, R380, R383, spec/17_traps_and_containment.md R438 to R441).
-/
namespace Sys2Proof.Machine

open Sys2Proof

/-! ### The views and the writes of single registers -/

theorem srView_fixed (s : State) (p : Nat) :
    srView s p 0x000 = (s.str p).lpos ∧ srView s p 0x001 = ppos s p ∧ srView s p 0x002 = (s.str p).rank ∧
      srView s p 0x003 = word (cyc s (cellOf p)) ∧ srView s p 0x004 = word (asidIn s (cellOf p)) ∧ srView s p 0x100 = (s.str p).scause ∧
      srView s p 0x101 = (s.str p).sval ∧ srView s p 0x102 = (s.str p).sret ∧ srView s p 0x103 = (s.str p).sinfo ∧
      srView s p 0x104 = (s.str p).sscr0 ∧ srView s p 0x105 = (s.str p).sscr1 ∧ srView s p 0x106 = (s.str p).sscr2 ∧
      srView s p 0x107 = (s.str p).sscr3 ∧ srView s p 0x130 = (s.str p).rbsel ∧ srView s p 0x010 = (s.gang (leaderOf s p)).splitpol ∧
      srView s p 0x006 = (s.cell (cellOf p)).lclreq ∧ srView s p 0x007 = (s.cell (cellOf p)).rmtreq ∧
      srView s p 0x00D = word (keyIn s (cellOf p)).toNat := by
  refine ⟨rfl, rfl, rfl, rfl, rfl, rfl, rfl, rfl, rfl, rfl, rfl, rfl, rfl, rfl, rfl, rfl, rfl, ?_⟩
  exact congrArg word (Nat.mod_eq_of_lt (keyIn s (cellOf p)).isLt)

theorem srView_subva {s : State} {p k : Nat} (hk : k < 4) : srView s p (0x020 + k) = tget 0#64 (s.cell (cellOf p)).subva k := by
  simp (disch := omega) only [srView, if_neg, if_pos, Nat.add_sub_cancel_left]

theorem srView_submap {s : State} {p k : Nat} (hk : k < 4) : srView s p (0x024 + k) = tget 0#64 (s.cell (cellOf p)).submap k := by
  simp (disch := omega) only [srView, if_neg, if_pos, Nat.add_sub_cancel_left]

theorem srWrite_subva {s : State} {p k : Nat} {v : Word} (hk : k < 4) : srWrite s p (0x020 + k) v =
    putCell s (cellOf p) { s.cell (cellOf p) with subva := tset (s.cell (cellOf p)).subva k (v &&& 0x81FFFFFFFFE0FFFF#64) } := by
  simp (disch := omega) only [srWrite, if_neg, if_pos, Nat.add_sub_cancel_left, subvaMask]

theorem srWrite_submap {s : State} {p k : Nat} {v : Word} (hk : k < 4) : srWrite s p (0x024 + k) v =
    putCell s (cellOf p) { s.cell (cellOf p) with submap := tset (s.cell (cellOf p)).submap k (v &&& 0x000FFFFFFFFFFF00#64) } := by
  simp (disch := omega) only [srWrite, if_neg, if_pos, Nat.add_sub_cancel_left, submapMask]

theorem srWrite_dcap {s : State} {p k : Nat} {v : Word} (hk : k < 8) : srWrite s p (0x028 + k) v = s.setPkg { s.pkg with
    dcap := tset s.pkg.dcap (8 * asidIn s (cellOf p) + k) (if v.getLsbD 62 then v else v &&& ~~~0x3000000#64) } := by
  simp (disch := omega) only [srWrite, if_neg, if_pos, Nat.add_sub_cancel_left, dcapBits, capMc]
  rfl

/-- The positions of the cell, in the view of R440. -/
theorem srView_position {s : State} {p k : Nat} (hk : k < 64) : srView s p (0x140 + k) = posView (s.str (64 * cellOf p + k)) := by
  simp (disch := omega) only [srView, if_neg, if_pos, Nat.add_sub_cancel_left]

theorem srWrite_fixed (s : State) (p : Nat) (v : Word) :
    srWrite s p 0x010 v = putGang s (leaderOf s p) { s.gang (leaderOf s p) with splitpol := word (v.toNat % 32) } ∧
    srWrite s p 0x102 v = modStr s p (fun x => { x with sret := v &&& ~~~3#64 }) ∧
    srWrite s p 0x104 v = modStr s p (fun x => { x with sscr0 := v }) ∧ srWrite s p 0x105 v = modStr s p (fun x => { x with sscr1 := v }) ∧
    srWrite s p 0x106 v = modStr s p (fun x => { x with sscr2 := v }) ∧ srWrite s p 0x107 v = modStr s p (fun x => { x with sscr3 := v }) ∧
    srWrite s p 0x111 v = putCell s (cellOf p) { s.cell (cellOf p) with sq := (s.cell (cellOf p)).sq.drop 1 } ∧
    srWrite s p 0x110 v = putCell s (cellOf p) { s.cell (cellOf p) with note := v.getLsbD 7 } ∧
    srWrite s p 0x130 v = modStr s p (fun x => { x with rbsel := v &&& 0xFFC00000001FFFFF#64 }) :=
  ⟨rfl, rfl, rfl, rfl, rfl, rfl, rfl, rfl, rfl⟩

/-! ### `rdsr`, `wrsr` and `probe` -/

/-- A level that a register asks for, as R430 checks it. -/
theorem priv_of {o : Option Bool} {n : Nat} {s : State} (h : o = some true → s.cur.sup = true) :
    (if o = some true then n else 0) = 0 ∨ s.cur.sup = true := by
  by_cases ho : o = some true
  · exact Or.inr (h ho)
  · exact Or.inl (if_neg ho)

/-- RBDATA of the tiles waits for the engine (R441). -/
theorem rdsr_holds {s : State} {ls : List Nat} {n : Nat} (h : (∃ p ∈ ls, readsTiles s p n = true) → (s.cell (curCell s)).jobs = []) :
    (ls.any (fun p => readsTiles s p n) && !((s.cell (curCell s)).jobs.map (·.num)).isEmpty) = false := by
  by_cases ha : ∃ p ∈ ls, readsTiles s p n = true
  · rw [h ha]; exact Bool.and_false _
  · rw [List.any_eq_false.2 fun p hp e => ha ⟨p, hp, e⟩]; rfl

theorem splitpolCheck_ok {n : Nat} {v : Word} (h : n = 0x010 → 1 ≤ v.toNat % 32 ∧ v.toNat % 32 ≤ 16) : splitpolCheck n v = none :=
  if_neg fun ⟨hn, hv⟩ => by obtain ⟨h1, h2⟩ := h hn; omega

/-- Settles O40. -/
theorem systemRegisters : Obligations.SystemRegisters := by
  intro gd d a n
  refine ⟨?_, ?_, ?_, ?_, fun s p v => ?_⟩
  · refine completesBy_of (formRdsr gd d n) (fun _ => rfl) rfl (fun s hr ⟨hsup, hrb, hjobs⟩ => ?_) fun _ _ _ _ => rfl
    refine clear_of rfl hr (fence_plain rfl rfl) (priv := priv_of hsup) (reads := fun p hp r hrd => ?_) (holds := ?holds)
    case holds => exact if_neg (by rw [rdsr_holds hjobs]; exact Bool.false_ne_true)
    dsimp only [formRdsr] at hrd
    by_cases hn : n.toNat = 0x131
    · rw [if_pos hn] at hrd
      exact hrb hn p hp r hrd
    · rw [if_neg hn] at hrd
      exact absurd hrd List.not_mem_nil
  · refine completesBy_of (formWrsr gd d n) (fun _ => rfl) rfl (fun s hr ⟨hsup, hpol⟩ => ?_) fun s u _ _ => ite_isEmpty _ _ _
    refine clear_of rfl hr (fence_plain rfl rfl) (priv := priv_of hsup) (operand := ?operand)
    dsimp only [formWrsr]
    exact lowestStage_ok fun hl => splitpolCheck_ok (hpol hl)
  · exact completesLater_gLater rfl rfl fun _ => rfl
  · refine completesBy_of (formProbe gd d a) (fun _ => rfl) rfl (fun s hr ⟨hsup, hmiss⟩ => ?_) fun _ _ _ _ => rfl
    refine clear_of rfl hr (fence_plain rfl rfl) (priv := Or.inr hsup) (access := ?access)
    have hnone : (actingLanes s gd).filter (fun p => probeMiss s p (rdReg s p a)) = [] :=
      List.filter_eq_nil_iff.2 fun p hp => by rw [hmiss p hp]; exact Bool.false_ne_true
    dsimp only [formProbe]
    rw [hnone]
    rfl
  · obtain ⟨h010, h102, h104, h105, h106, h107, h111, h110, h130⟩ := srWrite_fixed s p v
    exact ⟨srView_fixed s p, fun k hk => ⟨srView_subva hk, srView_submap hk, srWrite_subva hk, srWrite_submap hk⟩,
      fun k hk => srView_position hk, h010, h102, h104, h105, h106, h107, h111, h110, h130, fun k hk => srWrite_dcap hk⟩

end Sys2Proof.Machine
end

section
/-!
PROOFS. `trap` and `sysret` (spec/17_traps_and_containment.md R431, R434 to R437, R439).
-/
namespace Sys2Proof.Machine

open Sys2Proof

/-! ### Words that write no register -/

theorem mendWord_nothing {i : Instr} (h : dests i = []) (s : State) (ls : List Nat) (t : State) : mendWord s ls i t = t := by
  have hkeep : t.badRegs.filter (fun r => !(ls.any (fun p => ((dests i).map (regId s.cur.leader p)).contains r))) = t.badRegs := by
    refine List.filter_eq_self.2 fun r _ => ?_
    rw [h]
    simp
  unfold mendWord
  rw [hkeep]
  cases t
  rfl

/-- A word that writes no register and whose other checks pass acts on the state with its lanes issued. -/
theorem acts_of {i : Instr} {gd : Guard} {s : State} {f : Form} (he : exec i s = run gd f s) (hi : f.instr = i) (hd : dests i = [])
    (hc : Clear s { form := f, gd := gd }) (hp : f.price s (actingLanes s gd) = 0) :
    ∃ u, Issues false s u ∧ exec i s = .next (f.act s u (actingLanes s gd)) := by
  obtain ⟨u, hu, hx⟩ := run_issues hc false fun _ => hp
  exact ⟨u, hu, by rw [he, hx, hi, mendWord_nothing hd]⟩

theorem Issues.gang {b : Bool} {s u : State} (h : Issues b s u) (l : Nat) : u.gang l = s.gang l := by
  unfold State.gang
  rw [h.gangs]

/-- Nothing but strands and gangs changes. -/
theorem strandsGangs_back {u t : State} {v : Tab Strand} {g : Tab Gang} (h : t = (u.setStrands v).setGangs g) :
    (t.setStrands u.strands).setGangs u.gangs = u := by
  rw [h]
  cases u
  rfl

/-! ### `trap` (R377, R431, R434, R436) -/

/-- What a lane that traps owes: the CODE and the return address of its `trap` (R431). -/
def owe (c nba : Word) (t : Strand) : Strand := { t with tcode := c, tnba := nba }

theorem str_owe (c nba : Word) (s : State) (ls : List Nat) (q : Nat) :
    (modStrs s ls (owe c nba)).str q = if q ∈ ls then owe c nba (s.str q) else s.str q :=
  str_modStrs (f := owe c nba) (fun _ => rfl) _ _ _

theorem gangLanes_owe (c nba : Word) (s : State) (ls : List Nat) (l : Nat) : gangLanes (modStrs s ls (owe c nba)) l = gangLanes s l := by
  refine gangLanes_congr ?_
  rw [str_owe]
  split <;> rfl

theorem modStrs_frame (s : State) (ls : List Nat) (f : Strand → Strand) :
    (modStrs s ls f).time = s.time ∧ ∀ l, (modStrs s ls f).gang l = s.gang l := by
  obtain ⟨v, hv⟩ := modStrs_eq f ls s
  rw [hv]
  exact ⟨rfl, fun _ => rfl⟩

/-- The state in which the lanes of a `trap` of CODE c have trapped, no other issuer of the gang having done so (R431). -/
def trapped (u : State) (lead p : Nat) (r : List Nat) (c nba : Word) : State :=
  let t := takeTrap (modStrs u (p :: r) (owe c nba)) lead p (laneMask lead (p :: r)) { cause := 1, sval := c } nba
  putGang t lead { t.gang lead with trapMask := actMask lead r }

theorem str_trapped (u : State) (lead p : Nat) (r : List Nat) (c nba : Word) (q : Nat) : (trapped u lead p r c nba).str q =
    if q = p then enterSup (owe c nba (u.str p)) (p - lead) (laneMask lead (p :: r)) { cause := 1, sval := c } nba
    else
      let x := if q ∈ r then owe c nba (u.str q) else u.str q
      if q ∈ gangLanes u lead then freezeOne u.time x else x := by
  have h : (trapped u lead p r c nba).str q =
      (takeTrap (modStrs u (p :: r) (owe c nba)) lead p (laneMask lead (p :: r)) { cause := 1, sval := c } nba).str q := rfl
  rw [h, str_takeTrap, gangLanes_owe, (modStrs_frame _ _ _).1]
  by_cases hq : q = p
  · rw [if_pos hq, if_pos hq, str_owe, if_pos List.mem_cons_self]
  · rw [if_neg hq, if_neg hq, str_owe]
    simp only [List.mem_cons, hq, false_or]

theorem gang_trapped (u : State) (lead p : Nat) (r : List Nat) (c nba : Word) (l : Nat) : (trapped u lead p r c nba).gang l =
    if l = lead then { u.gang lead with handler := some p, trapMask := actMask lead r } else u.gang l := by
  obtain ⟨w, hw⟩ := takeTrap_eq (modStrs u (p :: r) (owe c nba)) lead p (laneMask lead (p :: r)) { cause := 1, sval := c } nba
  have ht : ∀ l, (takeTrap (modStrs u (p :: r) (owe c nba)) lead p (laneMask lead (p :: r)) { cause := 1, sval := c } nba).gang l =
      if l = lead then { u.gang lead with handler := some p } else u.gang l := fun l => by
    rw [hw]
    exact (gang_putGang _ _ _ _).trans (by rw [(modStrs_frame _ _ _).2, (modStrs_frame _ _ _).2])
  refine (gang_putGang _ _ _ _).trans ?_
  rw [ht, ht, if_pos rfl]
  by_cases hl : l = lead
  · rw [if_pos hl, if_pos hl]
  · rw [if_neg hl, if_neg hl, if_neg hl]

theorem trapped_eq (u : State) (lead p : Nat) (r : List Nat) (c nba : Word) :
    ∃ v g, trapped u lead p r c nba = (u.setStrands v).setGangs g := by
  obtain ⟨v, hv⟩ := modStrs_eq (owe c nba) (p :: r) u
  obtain ⟨w, hw⟩ := takeTrap_eq (modStrs u (p :: r) (owe c nba)) lead p (laneMask lead (p :: r)) { cause := 1, sval := c } nba
  unfold trapped
  dsimp only
  rw [hw, hv]
  exact ⟨_, _, rfl⟩

/-- The lanes of a `trap` as they join the pending mask behind another issuer of the gang (R432). -/
def trapsLate (u : State) (lead : Nat) (ls : List Nat) (c nba : Word) : State :=
  putGang (modStrs u ls (owe c nba)) lead { (modStrs u ls (owe c nba)).gang lead with trapMask := actMask lead ls }

theorem gang_trapsLate (u : State) (lead : Nat) (ls : List Nat) (c nba : Word) (l : Nat) : (trapsLate u lead ls c nba).gang l =
    if l = lead then { u.gang lead with trapMask := actMask lead ls } else u.gang l := by
  have hmod := (modStrs_frame u ls (owe c nba)).2
  exact (gang_putGang _ _ _ _).trans (by rw [hmod, hmod])

theorem trapsLate_eq (u : State) (lead : Nat) (ls : List Nat) (c nba : Word) :
    ∃ v g, trapsLate u lead ls c nba = (u.setStrands v).setGangs g := by
  obtain ⟨v, hv⟩ := modStrs_eq (owe c nba) ls u
  unfold trapsLate
  rw [hv]
  exact ⟨_, _, rfl⟩

/-- What SINFO holds after a `trap` (R439). -/
theorem sinfoOf_trap (m : Nat) (c : Word) : sinfoOf m { cause := 1, sval := c } = word (m % 2 ^ 16 * 2 ^ 16) :=
  congrArg word (by simp [bCode])

theorem clear_trap {s : State} {gd : Guard} {code : BitVec 20} (hr : RegsLanded s gd (.trap gd code)) :
    Clear s { form := formTrap gd code, gd := gd } := clear_of rfl hr (fence_plain rfl rfl)

/-- CODE as a word. -/
theorem zx_code (code : BitVec 20) : zx 20 code.toNat = word code.toNat := congrArg word (Nat.mod_eq_of_lt code.isLt)

/-! ### `sysret` (R437) -/

/-- The handling lane resumes at SRET in the state it held. -/
def resume (t : Strand) : Strand := { t with pc := t.sret, st := t.heldSt, park := .none, wait := .nothing }

theorem thawOne_twice (now : Nat) (t : Strand) : thawOne now (thawOne now t) = thawOne now t := by
  have again : ∀ x : Strand, (x.st = .frozen → x.heldSt = .frozen) → x.parkedAt = now → x.woken = none → thawOne now x = x := by
    intro x hst hat hwk
    unfold thawOne
    by_cases h : x.st = .frozen
    · rw [if_pos h, hwk]
      have hh := hst h
      cases x
      simp_all
    · exact if_neg h
  by_cases h : t.st = .frozen
  · cases hw : t.woken with
    | none =>
      have e : thawOne now t = { t with st := t.heldSt, parkedAt := now, woken := none } := by simp only [thawOne, if_pos h, hw]
      rw [e]
      exact again _ id rfl rfl
    | some past =>
      have e : thawOne now t = goOn past { t with st := t.heldSt, parkedAt := now, woken := none } := by simp only [thawOne, if_pos h, hw]
      rw [e]
      refine again _ (fun hf => ?_) rfl rfl
      unfold goOn at hf ⊢
      dsimp only at hf ⊢
      split at hf
      · cases hf
      · exact hf
  · have e : thawOne now t = t := if_neg h
    rw [e, e]

/-- The state as the handling lane resumes, before the other lanes return. -/
def resumed (u : State) (lead p : Nat) : State := putGang (modStr u p resume) lead { u.gang lead with handler := none }

theorem str_resumed (u : State) (lead p q : Nat) : (resumed u lead p).str q = if q = p then resume (u.str p) else u.str q :=
  str_modStr u p q resume

theorem gangLanes_resumed (u : State) (lead p l : Nat) : gangLanes (resumed u lead p) l = gangLanes u l := by
  refine gangLanes_congr ?_
  rw [str_resumed]
  split
  · rename_i h
    rw [h]; rfl
  · rfl

theorem trapReturn_eq (u : State) (lead p : Nat) :
    ∃ v, trapReturn u lead p = (u.setStrands v).setGangs (tset u.gangs lead { u.gang lead with handler := none }) := by
  have h : trapReturn u lead p = if (u.gang lead).trapMask = 0#16 then modStrs (resumed u lead p) (gangLanes (resumed u lead p) lead) (thawOne u.time)
      else modStr (resumed u lead p) p (freezeOne u.time) := rfl
  rw [h]
  split
  · obtain ⟨v, hv⟩ := modStrs_eq (thawOne u.time) (gangLanes (resumed u lead p) lead) (resumed u lead p)
    exact ⟨v, hv⟩
  · exact ⟨_, rfl⟩

theorem str_trapReturn (u : State) (lead p q : Nat) : (trapReturn u lead p).str q =
    if (u.gang lead).trapMask = 0#16 then
      if q ∈ gangLanes u lead then thawOne u.time ((resumed u lead p).str q) else (resumed u lead p).str q
    else if q = p then freezeOne u.time (resume (u.str p)) else u.str q := by
  have h : trapReturn u lead p = if (u.gang lead).trapMask = 0#16 then modStrs (resumed u lead p) (gangLanes (resumed u lead p) lead) (thawOne u.time)
      else modStr (resumed u lead p) p (freezeOne u.time) := rfl
  rw [h]
  by_cases hm : (u.gang lead).trapMask = 0#16
  · rw [if_pos hm, if_pos hm, str_modStrs (thawOne_twice u.time), gangLanes_resumed]
  · rw [if_neg hm, if_neg hm, str_modStr, str_resumed, if_pos rfl, str_resumed]
    by_cases hq : q = p
    · rw [if_pos hq, if_pos hq]
    · rw [if_neg hq, if_neg hq, if_neg hq]

/-- Issue leaves what a lane holds for its return as it was. -/
theorem held_issued {s u : State} (h : LanesIssue s u) (p : Nat) : (u.str p).heldSt = (s.str p).heldSt ∧ (u.str p).sret = (s.str p).sret := by
  rw [h p]
  split <;> exact ⟨rfl, rfl⟩

theorem freezeOne_pc (now : Nat) (t : Strand) : (freezeOne now t).pc = t.pc := by
  unfold freezeOne
  split <;> rfl

/-- A lane whose held state is not FROZEN goes on at SRET. -/
theorem pc_trapReturn {u : State} {lead p : Nat} (h : (u.str p).heldSt ≠ .frozen) : ((trapReturn u lead p).str p).pc = (u.str p).sret := by
  have hp : (resumed u lead p).str p = resume (u.str p) := (str_resumed u lead p p).trans (if_pos rfl)
  have hthaw : thawOne u.time (resume (u.str p)) = resume (u.str p) := if_neg h
  rw [str_trapReturn, hp, hthaw, ite_self, if_pos rfl]
  split
  · rfl
  · exact freezeOne_pc _ _

/-- Settles O41. -/
theorem trapsAndReturns : Obligations.TrapsAndReturns := by
  intro gd code s p r lead owes hls
  refine ⟨fun hr hsup hlate => ?_, fun hr hsup hlate => ?_, fun hr hsup => ?_, fun hr hsup => ?_⟩
  · obtain ⟨u, hu, hx⟩ := acts_of (i := .trap gd code) (f := formTrap gd code) rfl rfl rfl (clear_trap hr) rfl
    have hgang := hu.gang
    have hact : (formTrap gd code).act s u (p :: r) = trapped u lead p r (word code.toNat) s.cur.nba := by
      rw [← zx_code]
      exact (if_neg (by rw [hsup]; exact Bool.false_ne_true)).trans (if_neg (by rw [hgang, hlate]; exact Bool.false_ne_true))
    obtain ⟨v, g, hvg⟩ := trapped_eq u lead p r (word code.toNat) s.cur.nba
    refine ⟨trapped u lead p r (word code.toNat) s.cur.nba, u, hu, by rw [hx, hls, hact], ?_, fun q hq hqp => ?_, fun q hq hqp => ?_, ?_,
      fun l hl => ?_, strandsGangs_back hvg⟩
    · rw [str_trapped, if_pos rfl, enterSup, sinfoOf_trap]
      rfl
    · rw [str_trapped, if_neg hqp, ← hu.time]
      exact if_pos hq
    · rw [str_trapped, if_neg hqp]
      exact if_neg hq
    · rw [gang_trapped, if_pos rfl, hgang]
      rfl
    · rw [gang_trapped, if_neg hl, hgang]
  · obtain ⟨u, hu, hx⟩ := acts_of (i := .trap gd code) (f := formTrap gd code) rfl rfl rfl (clear_trap hr) rfl
    have hgang := hu.gang
    have hact : (formTrap gd code).act s u (p :: r) = trapsLate u lead (p :: r) (word code.toNat) s.cur.nba := by
      rw [← zx_code]
      exact (if_neg (by rw [hsup]; exact Bool.false_ne_true)).trans (if_pos ((congrArg Gang.late (hgang lead)).trans hlate))
    obtain ⟨v, g, hvg⟩ := trapsLate_eq u lead (p :: r) (word code.toNat) s.cur.nba
    refine ⟨trapsLate u lead (p :: r) (word code.toNat) s.cur.nba, u, hu, by rw [hx, hls, hact], fun q => str_owe _ _ u _ _, ?_,
      fun l hl => ?_, strandsGangs_back hvg⟩
    · rw [gang_trapsLate, if_pos rfl, hgang]
      rfl
    · rw [gang_trapsLate, if_neg hl, hgang]
  · obtain ⟨u, hu, hx⟩ := acts_of (i := .trap gd code) (f := formTrap gd code) rfl rfl rfl (clear_trap hr) rfl
    have hact : (formTrap gd code).act s u (p :: r) = doubleFault u p s.cur.ba 1 (word code.toNat) 0#64 := by
      rw [← zx_code]
      exact if_pos hsup
    exact ⟨u, hu, by rw [hx, hls, hact]⟩
  · obtain ⟨u, hu, hx⟩ := acts_of (i := .sysret gd) (f := formSysret gd) rfl rfl rfl (clear_of rfl hr (fence_plain rfl rfl) (priv := Or.inr hsup)) rfl
    have hgang := hu.gang
    obtain ⟨v, hv⟩ := trapReturn_eq u lead p
    obtain ⟨hheld, hsret⟩ := held_issued hu.lanes p
    have hg : ∀ l, (trapReturn u lead p).gang l = if l = lead then { u.gang lead with handler := none } else u.gang l := fun l => by
      rw [hv]
      exact gang_putGang u lead l _
    refine ⟨trapReturn u lead p, u, hu, by rw [hx, hls]; rfl, ?_⟩
    intro back here thaw
    refine ⟨fun hne => ?_, fun hm => ⟨fun q hq => ?_, fun q hq => ?_⟩, fun hm q => ?_, ?_, fun l hl => ?_, strandsGangs_back hv⟩
    · rw [← hsret]
      exact pc_trapReturn (hheld ▸ hne)
    · rw [str_trapReturn, if_pos (by rw [hgang]; exact hm), if_pos hq, str_resumed, hu.time]
      rfl
    · rw [str_trapReturn, if_pos (by rw [hgang]; exact hm), if_neg hq, str_resumed]
      rfl
    · rw [str_trapReturn, if_neg (by rw [hgang]; exact hm), hu.time]
      rfl
    · rw [hg, if_pos rfl, hgang]
    · rw [hg, if_neg hl, hgang]

end Sys2Proof.Machine
end

section
/-!
PROOFS. `halt`, `kill` and `tlbinv` (spec/13_isa_async_and_system.md R378, R379, R381, spec/17_traps_and_containment.md R445,
R447, spec/05_translation.md R144), and what the end of a grid leaves of it.
-/
namespace Sys2Proof.Machine

open Sys2Proof

/-! ### Lists, folds and tables -/

theorem foldl_same {α β : Type} (obs : State → β) {f : State → α → State} (h : ∀ u a, obs (f u a) = obs u) (ls : List α) (s : State) :
    obs (ls.foldl f s) = obs s := by
  induction ls generalizing s with
  | nil => rfl
  | cons a ls ih => exact (ih _).trans (h s a)

theorem mem_lastly {f : Nat → Bool} {l : List Nat} {x : Nat} : x ∈ lastly f l ↔ x ∈ l := by
  unfold lastly
  rw [List.mem_append, List.mem_filter, List.mem_filter]
  cases f x <;> simp

theorem tget_mapped {α : Type} {d : α} {f : α → α} (hd : f d = d) (t : Tab α) (k : Nat) :
    tget d (t.map fun e => (e.1, f e.2)) k = f (tget d t k) := by
  induction t with
  | nil => exact hd.symm
  | cons x r ih =>
    simp only [List.map_cons, tget]
    by_cases h : x.1 = k
    · rw [if_pos h, if_pos h]
    · rw [if_neg h, if_neg h, ih]

/-! ### The grids that the end of a block leaves alone (R445) -/

theorem grids_leaveAll (s : State) (c : Nat) : (leaveAll s c).grids = s.grids := by
  unfold leaveAll
  refine foldl_same State.grids ?_ _ _
  exact fun _ _ => rfl

theorem grids_dropHeld (s : State) (b c : Nat) : (dropHeld s b c).grids = s.grids := by
  unfold dropHeld
  refine foldl_same State.grids ?_ _ _
  exact fun _ _ => rfl

theorem grids_drainSq (s : State) (c : Nat) : (drainSq s c).grids = s.grids :=
  foldl_same State.grids (fun u _ => (mid_putLog orphanTouch u _).grids) _ _

theorem grids_l1WriteBack (s : State) (c : Nat) : (l1WriteBack s c).grids = s.grids :=
  foldl_same State.grids (fun u sec => (mid_l1Flush (C := orphanTouch) u sec trivial).grids) _ _

theorem grids_vacate (s : State) (c : Nat) : (vacate s c).grids = s.grids := by
  unfold vacate
  exact (grids_leaveAll _ c).trans ((grids_drainSq _ c).trans (grids_l1WriteBack _ c))

theorem grids_dropGang (s : State) (l : Nat) : (dropGang s l).grids = s.grids := rfl
theorem grids_dropWork (s : State) (ps : List Nat) : (dropWork s ps).grids = s.grids := rfl

theorem grids_freePos (s : State) (p : Nat) : (freePos s p).grids = s.grids := by
  unfold freePos
  exact (grids_dropGang _ p).trans ((grids_dropWork _ [p]).trans (mid_orphanAt_after s p).grids)

theorem grids_orphanEvicted (s : State) (b : Nat) : (orphanEvicted s b).grids = s.grids :=
  foldl_same State.grids (fun t _ => foldl_same State.grids (fun u _ => (mid_orphanSpilled _ u _ _ _).grids) _ t) _ _

theorem grids_dropBbRecord (s : State) (b : Nat) : (dropBbRecord s b).grids = s.grids := by
  unfold dropBbRecord
  split <;> rfl

theorem grids_endBlock (s : State) (b : Nat) (last : Option Nat) : (endBlock s b last).grids = s.grids := by
  unfold endBlock
  refine (grids_dropBbRecord _ b).trans ?_
  split
  · exact (foldl_same State.grids grids_vacate _ _).trans (foldl_same State.grids grids_freePos _ _)
  · exact (foldl_same State.grids (fun u c => grids_dropHeld u b c) _ _).trans (grids_orphanEvicted s b)

/-- A grid whose blocks have ended is over and in no launch queue. -/
def closeGrid (s : State) (g : Nat) : State :=
  let t := putGrid s g { s.grid g with live := false }
  t.setPkg { t.pkg with queues := t.pkg.queues.map (fun e => (e.1, e.2.filter (· ≠ g))) }

theorem endGrid_eq (s : State) (g : Nat) (last : Option Nat) :
    ∃ bs : List Nat, endGrid s g last = closeGrid (bs.foldl (fun t b => endBlock t b last) s) g := ⟨_, rfl⟩

theorem grid_closeGrid (s : State) (g h : Nat) : (closeGrid s g).grid h = if h = g then { s.grid g with live := false } else s.grid h :=
  tget_tset ({} : Grid) s.grids g h _

theorem grid_endGrid (s : State) (g h : Nat) (last : Option Nat) :
    (endGrid s g last).grid h = if h = g then { s.grid g with live := false } else s.grid h := by
  obtain ⟨bs, hbs⟩ := endGrid_eq s g last
  have hgrid : ∀ h, (bs.foldl (fun t b => endBlock t b last) s).grid h = s.grid h := fun h =>
    foldl_same (fun u => State.grid u h) (fun u b => congrArg (fun l => tget ({} : Grid) l h) (grids_endBlock u b last)) bs s
  rw [hbs, grid_closeGrid, hgrid, hgrid]

theorem live_endGrid (s : State) (g h : Nat) (last : Option Nat) (hl : (s.grid h).live = false ∨ h = g) : ((endGrid s g last).grid h).live = false := by
  rw [grid_endGrid]
  split
  · rfl
  · rename_i hne
    exact hl.resolve_right hne

/-- Grids that end one after another have all ended. -/
theorem live_foldl_endGrid (last : Option Nat) (gs : List Nat) (s : State) (h : Nat) (hl : (s.grid h).live = false ∨ h ∈ gs) :
    ((gs.foldl (fun t g => endGrid t g last) s).grid h).live = false := by
  induction gs generalizing s with
  | nil => exact hl.resolve_right List.not_mem_nil
  | cons g gs ih =>
    refine ih _ ?_
    rcases hl with hl | hl
    · exact Or.inl (live_endGrid s g h last (Or.inl hl))
    · rcases List.mem_cons.1 hl with rfl | hl
      · exact Or.inl (live_endGrid s h h last (Or.inr rfl))
      · exact Or.inr hl

/-- The launch queues no longer hold a grid that has ended. -/
theorem not_mem_queues_endGrid (s : State) (g k : Nat) (last : Option Nat) : g ∉ tget [] (endGrid s g last).pkg.queues k := by
  obtain ⟨bs, hbs⟩ := endGrid_eq s g last
  have hq : ∀ u : State, tget [] (closeGrid u g).pkg.queues k = (tget [] u.pkg.queues k).filter (· ≠ g) := fun u =>
    tget_mapped (d := ([] : List Nat)) (f := fun q : List Nat => q.filter (· ≠ g)) rfl u.pkg.queues k
  rw [hbs, hq]
  simp

/-- The record of a kill waits for its last event. -/
def queueKill (s : State) (gs : List Nat) (r : Record) (w : Option Nat) : State :=
  let t := takeFresh (s.setKills (tset s.kills s.fresh { grids := gs, record := r, waiter := w }))
  t.setAgenda (t.agenda ++ [Instr.killComplete s.fresh])

theorem startKill_eq (s : State) (gs : List Nat) (r : Record) (w last : Option Nat) :
    ∃ ls : List Nat, (∀ g, g ∈ ls ↔ g ∈ gs) ∧ startKill s gs r w last = queueKill (ls.foldl (fun t g => endGrid t g last) s) gs r w :=
  ⟨_, fun _ => mem_lastly, rfl⟩

theorem queueKill_sound (s : State) (gs : List Nat) (r : Record) (w : Option Nat) : Instr.killComplete s.fresh ∈ (queueKill s gs r w).agenda ∧
    tfind (queueKill s gs r w).kills s.fresh = some { grids := gs, record := r, waiter := w } ∧ ∀ g, (queueKill s gs r w).grid g = s.grid g :=
  ⟨List.mem_append_right _ (List.mem_singleton.2 rfl), tfind_tset_self s.kills s.fresh _, fun _ => rfl⟩

/-- A kill ends its grids and leaves the record for its last event (R445). -/
theorem startKill_sound (s : State) (gs : List Nat) (r : Record) (w last : Option Nat) :
    (∃ id, Instr.killComplete id ∈ (startKill s gs r w last).agenda ∧
      tfind (startKill s gs r w last).kills id = some { grids := gs, record := r, waiter := w }) ∧
    ∀ g ∈ gs, ((startKill s gs r w last).grid g).live = false := by
  obtain ⟨ls, hmem, hs⟩ := startKill_eq s gs r w last
  obtain ⟨hagenda, hkill, hgrid⟩ := queueKill_sound (ls.foldl (fun t g => endGrid t g last) s) gs r w
  rw [hs]
  exact ⟨⟨_, hagenda, hkill⟩, fun g hg => (congrArg Grid.live (hgrid g)).trans (live_foldl_endGrid last ls s g (Or.inr ((hmem g).2 hg)))⟩

/-! ### `tlbinv` (R144, R381) -/

theorem hits_iff (i : Inval) (e : TlbEnt) :
    i.hits e = true ↔ (∀ x, i.asid = some x → x = e.asid) ∧ ∀ v, i.va = some v → e.va ≤ v ∧ v < e.va + e.span := by
  unfold Inval.hits Inval.hitsAsid
  rw [Bool.and_eq_true]
  refine and_congr ?_ ?_
  · cases i.asid with
    | none => simp
    | some b => simp [eq_comm]
  · cases i.va with
    | none => simp
    | some v => simp

/-- An entry stays in a list of which the entries hit are removed where it is not hit. -/
theorem mem_unhit {i : Inval} {e : TlbEnt} {l : List TlbEnt} : e ∈ l.filter (fun t => !i.hits t) ↔
    e ∈ l ∧ ¬((∀ x, i.asid = some x → x = e.asid) ∧ ∀ v, i.va = some v → e.va ≤ v ∧ v < e.va + e.span) := by
  rw [List.mem_filter, ← hits_iff]
  simp

theorem tlb_invalidate (s : State) (i : Inval) (c : Nat) :
    ((invalidate s i).cell c).tlb = (s.cell c).tlb.filter (fun t => !i.hits t) :=
  (congrArg CellSt.tlb (tget_mapped (d := ({} : CellSt)) (f := fun x => { x with tlb := x.tlb.filter (fun t => !i.hits t) }) rfl s.cells c) :)

theorem chaseTlb_invalidate (s : State) (i : Inval) (k : Nat) :
    tget [] (invalidate s i).pkg.chaseTlb k = (tget [] s.pkg.chaseTlb k).filter (fun t => !i.hits t) :=
  tget_mapped (d := ([] : List TlbEnt)) (f := fun l : List TlbEnt => l.filter (fun t => !i.hits t)) rfl s.pkg.chaseTlb k

theorem tlbForm_completes {gd : Guard} {i : Instr} {what : State → Nat → Inval} (he : ∀ s, exec i s = run gd (tlbForm i what) s)
    (hm : memEvents i = (false, false)) (hw : waitsForAll i = false) : CompletesBy i gd false (fun s => s.cur.sup = true) (fun s u =>
      if actingLanes s gd = [] then u
      else modStrs (parkDone s (invalidate u (what s (lowestOf s (actingLanes s gd))))
          (fun _ => .sync (translated u (what s (lowestOf s (actingLanes s gd)))) (u.time + u.pace.sync))) s.cur.lanes
        (fun x => { x with inval := some (what s (lowestOf s (actingLanes s gd))) })) :=
  completesBy_of (tlbForm i what) he rfl (fun _ hr hsup => clear_of rfl hr (fence_plain hm hw) (priv := Or.inr hsup))
    fun _ _ _ _ => ite_isEmpty _ _ _

/-- Settles O42. -/
theorem privilegedOperations : Obligations.PrivilegedOperations := by
  intro gd a b sup low inval
  have hinval : ∀ {i : Instr} {w : State → Inval} {what : State → Nat → Inval}, (∀ s, what s (low s) = w s) →
      (∀ s, exec i s = run gd (tlbForm i what) s) → memEvents i = (false, false) → waitsForAll i = false → inval i w := by
    intro i w what hwhat he hm hf
    simpa only [inval, ← hwhat] using tlbForm_completes he hm hf
  refine ⟨?_, ?_, hinval (what := fun _ _ => { asid := none, va := none }) (fun _ => rfl) (fun _ => rfl) rfl rfl,
    hinval (what := fun s p => { asid := some ((rdReg s p a).toNat % 65536), va := none }) (fun _ => rfl) (fun _ => rfl) rfl rfl,
    hinval (what := fun s p => { asid := some ((rdReg s p a).toNat % 65536), va := some (rdReg s p b).toNat }) (fun _ => rfl) (fun _ => rfl) rfl rfl,
    fun s i c e => ?_, fun s i k e => ?_, startKill_sound, fun s g k last => ?_⟩
  · exact completesBy_of (formHalt gd) (fun _ => rfl) rfl
      (fun s hr hsup => clear_of rfl hr (fence_plain rfl rfl) (priv := Or.inr hsup)) fun _ _ _ _ => rfl
  · refine completesBy_of (formKill gd a) (fun _ => rfl) rfl
      (fun s hr hsup => clear_of rfl hr (fence_plain rfl rfl) (priv := Or.inr hsup)) fun s u _ _ => ?_
    show (match actingLanes s gd with | [] => u | p :: _ => _) = _
    cases hl : actingLanes s gd with
    | nil => rfl
    | cons p r =>
      have hlow : low s = p := by simp only [low, hl]; rfl
      rw [if_neg (List.cons_ne_nil p r), hlow]
      rfl
  · rw [tlb_invalidate]
    exact mem_unhit
  · rw [chaseTlb_invalidate]
    exact mem_unhit
  · exact ⟨live_endGrid s g g last (Or.inr rfl), not_mem_queues_endGrid s g k last⟩

end Sys2Proof.Machine
end

section
/-!
PROOFS. What is under way comes to its end (spec/02_execution_model.md R46, spec/04_memory_hierarchy.md R109, spec/05_translation.md
R141 to R144, spec/06_consistency_model.md R158, R159, spec/13_isa_async_and_system.md R379, R386).
-/
namespace Sys2Proof.Machine

open Sys2Proof

/-! ### Entries whose acts have been performed -/

theorem Mid.regsKept {C : Touch} {s u : State} (h : Mid C s u) : RegsKept s u noReg :=
  RegsKept.of_tables h.gs h.hs h.ws h.ps h.ks h.es h.eflags

/-- The acts of an entry that have all been performed are not performed again. -/
theorem doParts_performed {s : State} {b : Bool} {e : Pend} {id : Nat} (l prev : List Part) (h : ∀ q ∈ l, q.val ≠ none) :
    doParts s b e id prev l = (s, l, none) := by
  induction l generalizing prev with
  | nil => rfl
  | cons q r ih =>
    have hone : onePart s b e id prev q = (s, q, none) := if_pos (by
      rw [Option.isSome_iff_ne_none.2 (h q List.mem_cons_self)]; rfl)
    simp only [doParts, hone, ih _ fun x hx => h x (List.mem_cons_of_mem _ hx)]
    rfl

theorem zip_performed {l : List Part} (h : ∀ q ∈ l, q.val ≠ none) (f : Part × Part → Bool) :
    (List.zip l l).any (fun q => q.1.val.isNone && f q) = false := by
  refine List.any_eq_false.2 fun q hq => ?_
  have hsome := Option.isSome_iff_ne_none.2 (h q.1 (List.of_mem_zip hq).1)
  rw [Option.isNone_eq_false_iff.2 hsome]
  simp

theorem any_isNone {l : List Part} : l.any (fun q => q.val.isNone) = true ↔ ∃ q ∈ l, q.val = none := by
  simp [List.any_eq_true]

theorem any_isNone_false {l : List Part} (h : ∀ q ∈ l, q.val ≠ none) : ¬l.any (fun q => q.val.isNone) = true := fun hn => by
  obtain ⟨q, hq, hv⟩ := any_isNone.1 hn
  exact h q hq hv

/-- An entry whose acts are all performed has nothing more to act. -/
theorem exec_lands_performed {s : State} {id : Nat} {e : Pend} (he : tfind s.pend id = some e) (h : ∀ q ∈ e.parts, q.val ≠ none) :
    exec (.scoreboardResultLands id) s = .next (landPend s id e) := by
  show execScoreboardResultLands id s = _
  rw [execScoreboardResultLands, he]
  dsimp only
  have hfill : filledNow s e e.parts e.parts = false := by
    simp only [filledNow, Bool.and_assoc]
    exact zip_performed h fun q => q.2.val.isSome && wantsFill s e q.1
  rw [doParts_performed e.parts [] h, zip_performed h fun q => q.2.val.isSome, if_neg Bool.false_ne_true]
  dsimp only
  rw [hfill, Bool.or_false]
  cases e with
  | mk => cases ‹Option Mark› <;> rfl

/-! ### The phases of a banking switch (R109) -/

section
variable {s : State} {c : Nat} {d : Nat}

theorem exec_bank_none (h : (s.cell c).bankSw = none) : exec (.bankingSwitchComplete c) s = .next s :=
  if_pos (by simp only [bankReady, h]; rfl)

theorem exec_bank_fills (h : (s.cell c).bankSw = some (d, .fills)) : exec (.bankingSwitchComplete c) s =
    .next (if fillsOut s c then s else putCell s c { s.cell c with bankSw := some (d, .sweep (cyc s c + 33)) }) := by
  have hx : exec (.bankingSwitchComplete c) s = execBankingSwitchComplete c s := rfl
  simp only [hx, execBankingSwitchComplete, bankReady, h]
  cases fillsOut s c <;> rfl

theorem exec_bank_sweep {u : Nat} (h : (s.cell c).bankSw = some (d, .sweep u)) : exec (.bankingSwitchComplete c) s =
    .next (if cyc s c < u then s
      else if ((s.cell c).l1.filter (fun e => decide (e.2.dirty ≠ 0#32))).length = 0 then endBanking s c
      else putCell s c { s.cell c with
        bankSw := some (d, .back (u + ((s.cell c).l1.filter (fun e => decide (e.2.dirty ≠ 0#32))).length)) }) := by
  have hx : exec (.bankingSwitchComplete c) s = execBankingSwitchComplete c s := rfl
  by_cases hu : cyc s c < u
  · simp [hx, execBankingSwitchComplete, bankReady, h, hu, Nat.not_le.2 hu]
  · simp [hx, execBankingSwitchComplete, bankReady, h, hu, Nat.not_lt.1 hu]

theorem exec_bank_back {u : Nat} (h : (s.cell c).bankSw = some (d, .back u)) : exec (.bankingSwitchComplete c) s =
    .next (if cyc s c < u then s else endBanking s c) := by
  have hx : exec (.bankingSwitchComplete c) s = execBankingSwitchComplete c s := rfl
  by_cases hu : cyc s c < u
  · simp [hx, execBankingSwitchComplete, bankReady, h, hu, Nat.not_le.2 hu]
  · simp [hx, execBankingSwitchComplete, bankReady, h, hu, Nat.not_lt.1 hu]
end

/-! ### Walks and kills -/

section
variable {s : State} {id : Nat} {w : PageWalk}

theorem exec_walk_queued (h : tfind s.walks id = some w) (hq : w.queued = true) : exec (.pageWalkComplete id) s =
    .next (if walkers s w.cell < 1024 then s.setWalks (tset s.walks id { w with queued := false, due := s.time + s.pace.walk }) else s) := by
  have hx : exec (.pageWalkComplete id) s = execPageWalkComplete id s := rfl
  simp only [hx, execPageWalkComplete, h, hq, if_true, walkerFree, decide_eq_true_eq]

theorem exec_walk_again (h : tfind s.walks id = some w) (hq : w.queued = false) (hi : invalOpen s w.asid w.va = true) :
    exec (.pageWalkComplete id) s = .next (s.setWalks (tset s.walks id { w with queued := false, due := s.time + s.pace.walk })) := by
  have hx : exec (.pageWalkComplete id) s = execPageWalkComplete id s := rfl
  simp only [hx, execPageWalkComplete, h, hq, hi, if_true, Bool.false_eq_true, if_false]

theorem exec_walk_ends (h : tfind s.walks id = some w) (hq : w.queued = false) (hi : invalOpen s w.asid w.va = false) :
    exec (.pageWalkComplete id) s = match walkAll s (dieOf w.cell) w.cell (s.cell w.cell) w.asid w.va with
      | .inl e => .next (putCell (s.setWalks (tdel s.walks id)) w.cell { s.cell w.cell with tlb := e :: (s.cell w.cell).tlb.take 16383 })
      | .inr code => .next (modStrs (s.setWalks (tdel s.walks id)) w.waiters (fun u => { u with walkFail := (w.va, code) :: u.walkFail })) := by
  have hx : exec (.pageWalkComplete id) s = execPageWalkComplete id s := rfl
  simp only [hx, execPageWalkComplete, h, hq, hi, Bool.false_eq_true, if_false]
  rfl
end

theorem exec_kill_ends {s : State} {id : Nat} {k : KillSt} (h : tfind s.kills id = some k) : exec (.killComplete id) s =
    .next (let t := postLog (s.setKills (tdel s.kills id)) k.record
      match k.waiter with
      | none => t
      | some q =>
        if (t.str q).wait = .event then
          let u := modStr t q (fun x => { x with wait := .sync [] 0 })
          u.setAgenda (u.agenda ++ [Instr.syncOpComplete q])
        else t) := by
  have hx : exec (.killComplete id) s = execKillComplete id s := rfl
  simp only [hx, execKillComplete, h]
  cases k.waiter with
  | none => rfl
  | some q => exact (apply_ite _ _ _ _).symm

theorem exec_sync (s : State) (p : Nat) : exec (.syncOpComplete p) s = .next
    (if (∃ q ∈ unit s p, isSync (s.str q).wait = true) ∧ readyToGo s p = true then
      modStrs s ((unit s p).filter (fun q => sweepable (s.str q))) (clearReason false)
    else s) := by
  have hx : exec (.syncOpComplete p) s = if (unit s p).any (fun q => isSync (s.str q).wait) && readyToGo s p then .next (wakeUnit s p)
      else .next s := rfl
  rw [hx, apply_ite Host.Outcome.next]
  exact ite_iff (by rw [Bool.and_eq_true, List.any_eq_true]) rfl rfl

/-! ### How an entry lands (R46) -/

section
variable {s : State} {id : Nat} {e : Pend}

theorem landPend_waits (h : ∃ q ∈ e.parts, q.val = none) : landPend s id e = s.setPend (tset s.pend id e) := if_pos (any_isNone.2 h)

theorem landPend_store (h : ∀ q ∈ e.parts, q.val ≠ none) (hs : isStore e = true) : landPend s id e = match e.mark with
    | some k => if e.parts.all (fun q => isReadOp q.op) then s.setPend (tdel s.pend id)
      else postFor (s.setPend (tdel s.pend id)) e.req.cell (errRec e.req k.code e.access k.addr (partBytes e.parts))
    | none => s.setPend (tdel s.pend id) :=
  (if_neg (any_isNone_false h)).trans (if_pos hs)

theorem landPend_lands (h : ∀ q ∈ e.parts, q.val ≠ none) (hs : isStore e = false)
    (hr : e.due ≤ s.time ∧ e.late = 0 ∧ e.cycDue ≤ cyc s (cellOf e.pos)) : landPend s id e = retireCheck (match e.mark with
      | none => (e.vals ++ landVals e.shape e.pos (e.parts.map (fun q => q.val.getD 0))).foldl putVal (s.setPend (tdel s.pend id))
      | some m => landMark (s.setPend (tdel s.pend id)) e m) e.pos := by
  refine (if_neg (any_isNone_false h)).trans ((if_neg (by rw [hs]; exact Bool.false_ne_true)).trans
    ((if_pos (decide_eq_true hr)).trans ?_))
  cases e.mark <;> rfl

theorem landPend_stays (h : ∀ q ∈ e.parts, q.val ≠ none) (hs : isStore e = false)
    (hr : ¬(e.due ≤ s.time ∧ e.late = 0 ∧ e.cycDue ≤ cyc s (cellOf e.pos))) : landPend s id e = s.setPend (tset s.pend id
      (if e.due ≤ s.time ∧ e.late ≠ 0 then { e with late := 0, cycDue := cyc s (cellOf e.pos) + e.late } else e)) :=
  (if_neg (any_isNone_false h)).trans ((if_neg (by rw [hs]; exact Bool.false_ne_true)).trans (if_neg (mt of_decide_eq_true hr)))
end

/-- Settles O43. -/
theorem workUnderWayEnds : Obligations.WorkUnderWayEnds := by
  intro s id p c idle
  refine ⟨fun h => ?_, fun e h => ?_, fun e => ?_, fun h => ?_, fun e h => ?_, fun h => ?_, fun w h => ?_, exec_sync s p, ?_, fun h => ?_,
    fun k h => exec_kill_ends h⟩
  · show execScoreboardResultLands id s = _
    rw [execScoreboardResultLands, h]
  · refine ⟨?_, (mid_doParts (C := orphanTouch) false e id trivial e.parts [] s).regsKept, exec_lands_performed h⟩
    show execScoreboardResultLands id s = _
    rw [execScoreboardResultLands, h]
  · exact ⟨landPend_waits, fun hv => ⟨landPend_store hv, landPend_lands hv, landPend_stays hv⟩⟩
  · show execStorePerformed id s = _
    rw [execStorePerformed, h]
  · show execStorePerformed id s = _
    rw [execStorePerformed, h]
  · show execPageWalkComplete id s = _
    rw [execPageWalkComplete, h]
  · refine ⟨exec_walk_queued h, exec_walk_again h, fun hq hi => ⟨fun e he => ?_, fun code he => ?_⟩⟩
    · rw [exec_walk_ends h hq hi, he]
    · rw [exec_walk_ends h hq hi, he]
  · refine ⟨exec_bank_none, fun d h => ?_, fun d u h => ?_, fun d u h => ?_⟩
    · have hx := exec_bank_fills h
      split
      · rename_i hf
        rw [if_pos hf] at hx
        exact hx
      · rename_i hf
        rw [if_neg hf] at hx
        exact hx
    · have hx := exec_bank_sweep h
      split
      · rename_i hu
        rw [if_pos hu] at hx
        exact hx
      · rename_i hu
        rw [if_neg hu] at hx
        split
        · rename_i hd
          exact hx.trans (congrArg Host.Outcome.next (if_pos hd))
        · rename_i hd
          exact hx.trans (congrArg Host.Outcome.next (if_neg hd))
    · have hx := exec_bank_back h
      split
      · rename_i hu
        rw [if_pos hu] at hx
        exact hx
      · rename_i hu
        rw [if_neg hu] at hx
        exact hx
  · show execKillComplete id s = _
    rw [execKillComplete, h]

end Sys2Proof.Machine
end

section
/-!
PROOFS. Waits and turns end (spec/12_isa_memory_and_sync.md R339, spec/02_execution_model.md R57 to R59,
spec/03_divergence_and_rejoin.md R79, spec/17_traps_and_containment.md R433, spec/20_progress_failures.md R481).
-/
namespace Sys2Proof.Machine

open Sys2Proof

/-! ### Monitors (R339, R465, R468) -/

section
variable {s : State} {p : Nat} {m : Monitor}

theorem exec_fire_idle (hm : (s.str p).mon = some m) (h : m.done ≠ none ∨ m.armed = false) : exec (.monitorFire p) s = .next s := by
  show execMonitorFire p s = _
  rw [execMonitorFire, hm]
  exact if_pos (h.imp Option.isSome_iff_ne_none.2 (by simp))

theorem exec_fire (hm : (s.str p).mon = some m) (hd : m.done = none) (ha : m.armed = true) : exec (.monitorFire p) s =
    match monRead s p m 1 with
    | (t, .inr x) => .next (putMon t p x)
    | (t, .inl v) => .next (putMon t p { m with done := some (v, 1) }) := by
  show execMonitorFire p s = _
  rw [execMonitorFire, hm]
  exact if_neg (by simp [hd, ha])

theorem monRead_moved {n : Nat} (h : m.blk ≠ 0 ∧ locBlock s m.loc ≠ m.blk) : monRead s p m n = (s, .inr (monFail m n 9 6)) := if_pos h

theorem monRead_cut {n : Nat} (h : ¬(m.blk ≠ 0 ∧ locBlock s m.loc ≠ m.blk))
    (hc : crossed s (dieOf (cellOf p)) (homeDie m.loc) (cellOf p) m.loc = true) : monRead s p m n = (s, .inr (monFail m n 10 8)) :=
  (if_neg h).trans (if_pos hc)

theorem monRead_read {n : Nat} (h : ¬(m.blk ≠ 0 ∧ locBlock s m.loc ≠ m.blk))
    (hc : crossed s (dieOf (cellOf p)) (homeDie m.loc) (cellOf p) m.loc = false) : monRead s p m n =
      match badIn (flushRange s (cellOf p) m.loc m.bytes) m.loc m.bytes with
      | some code => (flushRange s (cellOf p) m.loc m.bytes, .inr (monFail m n 10 code))
      | none => (flushRange s (cellOf p) m.loc m.bytes, .inl (word (rd (flushRange s (cellOf p) m.loc m.bytes) m.loc m.bytes))) :=
  (if_neg h).trans (if_neg (by rw [hc]; exact Bool.false_ne_true))

theorem exec_timeout_idle (hm : (s.str p).mon = some m) (h : m.done ≠ none) : exec (.waitTimeout p) s = .next s := by
  show execWaitTimeout p s = _
  rw [execWaitTimeout, hm]
  exact if_pos (Option.isSome_iff_ne_none.2 h)

theorem exec_timeout (hm : (s.str p).mon = some m) (h : m.done = none) :
    exec (.waitTimeout p) s = .next (putMon s p { m with armed := false, done := some (m.expect, 2) }) := by
  show execWaitTimeout p s = _
  rw [execWaitTimeout, hm]
  exact if_neg (by simp [h])

theorem exec_recvt (s : State) (p : Nat) : exec (.recvtTimeout p) s = .next
    (if (s.str p).wait = .message ∧ (s.str p).deadline ≠ none then modStr s p (fun t => { t with wait := .nothing }) else s) := by
  show execRecvtTimeout p s = _
  rw [execRecvtTimeout, apply_ite Host.Outcome.next]
  exact ite_iff (and_congr_right' Option.isSome_iff_ne_none) rfl rfl
end

/-! ### The turn (R79) -/

theorem foldl_min (r : List Nat) (n : Nat) : r.foldl Nat.min n ∈ n :: r ∧ ∀ m ∈ n :: r, r.foldl Nat.min n ≤ m := by
  induction r generalizing n with
  | nil => simp
  | cons k r ih =>
    obtain ⟨hmem, hle⟩ := ih (Nat.min n k)
    rw [List.foldl_cons]
    have hmin : r.foldl Nat.min (Nat.min n k) ≤ Nat.min n k := hle _ List.mem_cons_self
    refine ⟨?_, fun m hm => ?_⟩
    · rcases List.mem_cons.1 hmem with h | h
      · rw [h]
        rcases Nat.le_total n k with hk | hk
        · exact List.mem_cons.2 (Or.inl (Nat.min_eq_left hk))
        · exact List.mem_cons_of_mem _ (List.mem_cons.2 (Or.inl (Nat.min_eq_right hk)))
      · exact List.mem_cons_of_mem _ (List.mem_cons_of_mem _ h)
    · rcases List.mem_cons.1 hm with rfl | hm
      · exact Nat.le_trans hmin (Nat.min_le_left _ _)
      · rcases List.mem_cons.1 hm with rfl | hm
        · exact Nat.le_trans hmin (Nat.min_le_right _ _)
        · exact hle m (List.mem_cons_of_mem _ hm)

/-- The path next after the last one: the smallest number above it, and the smallest of all where there is none. -/
theorem nextPath_sound {last : Nat} {ps : List Nat} {n : Nat} (h : nextPath last ps = some n) : n ∈ ps ∧
    ((∃ m ∈ ps, last < m) → last < n ∧ ∀ m ∈ ps, last < m → n ≤ m) ∧ ((∀ m ∈ ps, m ≤ last) → ∀ m ∈ ps, n ≤ m) := by
  have hab : ∀ m, m ∈ ps.filter (fun n => decide (last < n)) ↔ m ∈ ps ∧ last < m := fun m => by simp
  unfold nextPath at h
  dsimp only at h
  cases ha : ps.filter (fun n => decide (last < n)) with
  | nil =>
    rw [ha] at h hab
    have hnone : ∀ m ∈ ps, ¬last < m := fun m hm hl => List.not_mem_nil ((hab m).2 ⟨hm, hl⟩)
    cases hps : ps with
    | nil => rw [hps] at h; cases h
    | cons k r =>
      rw [hps] at h hnone
      obtain ⟨hmem, hle⟩ := foldl_min r k
      rw [← Option.some.inj h]
      exact ⟨hmem, fun ⟨m, hm, hl⟩ => absurd hl (hnone m hm), fun _ => hle⟩
  | cons k r =>
    rw [ha] at h hab
    obtain ⟨hmem, hle⟩ := foldl_min r k
    rw [← Option.some.inj h]
    obtain ⟨hin, hlt⟩ := (hab _).1 hmem
    exact ⟨hin, fun _ => ⟨hlt, fun m hm hl => hle m ((hab m).2 ⟨hm, hl⟩)⟩, fun hall => absurd hlt (Nat.not_lt.2 (hall _ hin))⟩

theorem exec_quantum (s : State) (l : Nat) : exec (.pathQuantumExpiry l) s = .next (
    let g := s.gang l
    if g.turn = true ∧ g.qleft = 0 then
      putGang s l (match nextPath g.cur (pathsOf s l) with
        | some n => { g with turn := true, cur := n, last := g.cur, qleft := 64 }
        | none => { g with turn := false, cur := 0, last := g.cur, qleft := 0 })
    else s) := by
  show execPathQuantumExpiry l s = _
  unfold execPathQuantumExpiry
  dsimp only
  by_cases h : (s.gang l).turn = true ∧ (s.gang l).qleft = 0
  · rw [if_pos h, if_pos h]
    unfold passTurn giveTurn
    dsimp only
    cases nextPath (s.gang l).cur (pathsOf s l) <;> rfl
  · rw [if_neg h, if_neg h]

/-! ### ORPHAN and SQNOTE (R433, R481) -/

theorem collapsed_iff (g : Gang) : collapsed g = true ↔ g.handler ≠ none ∨ g.trapMask ≠ 0#16 := by
  rw [collapsed, Bool.or_eq_true, decide_eq_true_eq, Option.isSome_iff_ne_none]

/-- Lane q of a gang has trapped with the return address of its bundle, from a state r that differs from s in its gang and elsewhere,
not in its strands. -/
theorem takes_trap {s r : State} {i : Instr} {lead q mask cause : Nat} {sval : Word}
    (hx : exec i s = .next (takeTrap r lead q mask { cause := cause, sval := sval } (s.str q).pc))
    (hstr : r.strands = s.strands) (htime : r.time = s.time) (hgang : ∀ x, x ≠ lead → r.gang x = s.gang x) : ∃ t, exec i s = .next t ∧
    t.str q = { s.str q with
      heldSt := .ready, st := .supervisor, park := .none, wait := .nothing, paid := false, charged := false, pc := 0xFFFFFFFFC0000000#64
      scause := word ((q - lead) * 2 ^ 12 + cause), sval := sval, sret := (s.str q).pc, sinfo := word (mask % 2 ^ 16 * 2 ^ 16) } ∧
    (∀ x ∈ gangLanes s lead, x ≠ q → t.str x = freezeOne s.time (s.str x)) ∧
    (∀ x, x ∉ gangLanes s lead → x ≠ q → t.str x = s.str x) ∧
    t.gang lead = { r.gang lead with handler := some q } ∧ (∀ x, x ≠ lead → t.gang x = s.gang x) ∧
    (t.setStrands s.strands).setGangs s.gangs = r.setGangs s.gangs := by
  have hs : ∀ x, r.str x = s.str x := str_congr hstr
  have hlanes : gangLanes r lead = gangLanes s lead := gangLanes_congr (congrArg glogOf (hs lead))
  obtain ⟨v, hv⟩ := takeTrap_eq r lead q mask { cause := cause, sval := sval } (s.str q).pc
  have hg : ∀ x, (takeTrap r lead q mask { cause := cause, sval := sval } (s.str q).pc).gang x =
      if x = lead then { r.gang lead with handler := some q } else r.gang x := fun x => by
    rw [hv]
    exact gang_putGang r lead x _
  refine ⟨_, hx, ?_, fun x hx' hne => ?_, fun x hx' hne => ?_, ?_, fun x hne => ?_, ?_⟩
  · rw [str_takeTrap, if_pos rfl, hs, enterSup]
    have hinfo : sinfoOf mask { cause := cause, sval := sval } = word (mask % 2 ^ 16 * 2 ^ 16) := congrArg word (by simp [bCode])
    rw [hinfo]
    rfl
  · rw [str_takeTrap, if_neg hne, hlanes, if_pos hx', hs, htime]
  · rw [str_takeTrap, if_neg hne, hlanes, if_neg hx', hs]
  · rw [hg, if_pos rfl]
  · rw [hg, if_neg hne, hgang x hne]
  · rw [hv]
    cases r
    cases hstr
    rfl

/-! ### A gathered gang is placed (R58, R59) -/

/-- One lane of a gathered gang takes its position: with its record's payload, or hollow. -/
def gatherLane (recs : List SpawnRec) (pc : Word) (lp : Nat → Word) (t : State) (x : Nat × Nat) : State :=
  match recs[x.2]? with
  | some r =>
    (List.range 4).foldl (fun u i => wrG u x.1 (i + 1) (word (field r.payload.toNat (64 * i) 64)))
      (newStrand t x.1 pc (lp x.2) (BitVec.allOnes 64) (.inPath 0) false)
  | none => newStrand t x.1 pc (lp x.2) (BitVec.allOnes 64) .hollow true

/-- The strand that lane i of a gathered gang starts as. -/
def gatheredStrand (recs : List SpawnRec) (pc : Word) (lp : Nat → Word) (i : Nat) (old : Strand) : Strand := {
  st := if (recs[i]?).isSome then .ready else .retired, pc := pc, gen := old.gen + 1#8, lpos := lp i, rank := BitVec.allOnes 64
  lmode := if (recs[i]?).isSome then .inPath 0 else .hollow }

theorem wrG_eq (s : State) (p n : Nat) (v : Word) : ∃ g, wrG s p n v = s.setGs g := by
  unfold wrG
  split
  · exact ⟨s.gs, rfl⟩
  · exact ⟨_, rfl⟩

theorem str_newStrand (s : State) (p q : Nat) (pc lpos rank : Word) (m : LMode) (h : Bool) : (newStrand s p pc lpos rank m h).str q =
    if q = p then { st := if h then .retired else .ready, pc := pc, gen := (s.str p).gen + 1#8, lpos := lpos, rank := rank, lmode := m }
    else s.str q := by
  unfold newStrand
  exact str_putStr _ _ _ _

/-- What the places of a gathered gang leave alone. -/
structure PlaceKept (s t : State) : Prop where
  cells : t.cells = s.cells
  gangs : t.gangs = s.gangs
  mem : t.mem = s.mem

theorem PlaceKept.trans {s t u : State} (h : PlaceKept s t) (k : PlaceKept t u) : PlaceKept s u :=
  ⟨k.cells.trans h.cells, k.gangs.trans h.gangs, k.mem.trans h.mem⟩

theorem placeKept_newStrand (s : State) (p : Nat) (pc lpos rank : Word) (m : LMode) (h : Bool) :
    PlaceKept s (newStrand s p pc lpos rank m h) := ⟨rfl, rfl, rfl⟩

/-- The payload's doublewords stand in g1 to g4 of the position, and no other strand or position is touched. -/
theorem payload_sound (s : State) (p : Nat) (v : Nat → Word) :
    let t := (List.range 4).foldl (fun u i => wrG u p (i + 1) (v i)) s
    (∀ q, t.str q = s.str q) ∧ PlaceKept s t ∧ (∀ n, n < 4 → rdG t p (n + 1) = v n) ∧ ∀ q n, n < 32 → q ≠ p → rdG t q n = rdG s q n := by
  intro t
  have ht : t = wrG (wrG (wrG (wrG s p 1 (v 0)) p 2 (v 1)) p 3 (v 2)) p 4 (v 3) := rfl
  have hg : ∀ (u : State) n w, PlaceKept u (wrG u p n w) ∧ ∀ q, (wrG u p n w).str q = u.str q := fun u n w => by
    obtain ⟨g, h⟩ := wrG_eq u p n w
    rw [h]
    exact ⟨⟨rfl, rfl, rfl⟩, fun _ => rfl⟩
  refine ⟨fun q => ?_, ?_, fun n hn => ?_, fun q n hn hq => ?_⟩
  · rw [ht, (hg _ _ _).2, (hg _ _ _).2, (hg _ _ _).2, (hg _ _ _).2]
  · rw [ht]
    exact (((hg _ _ _).1.trans (hg _ _ _).1).trans (hg _ _ _).1).trans (hg _ _ _).1
  · have h4 : n = 0 ∨ n = 1 ∨ n = 2 ∨ n = 3 := by omega
    rw [ht]
    rcases h4 with rfl | rfl | rfl | rfl <;> simp [rdG_wrG]
  · rw [ht]
    simp [rdG_wrG, hn, hq]

/-- A new strand changes the registers of its own position alone. -/
theorem rdG_newStrand {s : State} {p q n : Nat} (pc lpos rank : Word) (m : LMode) (h : Bool) (hn : n < 32) (hq : q ≠ p) :
    rdG (newStrand s p pc lpos rank m h) q n = rdG s q n := by
  have hgs : (newStrand s p pc lpos rank m h).gs = tclear (32 * p) (32 * p + 32) s.gs := rfl
  have hout : ¬(32 * p ≤ 32 * q + n ∧ 32 * q + n < 32 * p + 32) := by omega
  unfold rdG
  rw [hgs, tget_tclear, if_neg hout]

theorem gatherLane_sound (recs : List SpawnRec) (pc : Word) (lp : Nat → Word) (s : State) (p i : Nat) :
    let t := gatherLane recs pc lp s (p, i)
    (∀ q, t.str q = if q = p then gatheredStrand recs pc lp i (s.str p) else s.str q) ∧ PlaceKept s t ∧
      (∀ r, recs[i]? = some r → ∀ n, n < 4 → rdG t p (n + 1) = word (field r.payload.toNat (64 * n) 64)) ∧
      ∀ q n, n < 32 → q ≠ p → rdG t q n = rdG s q n := by
  intro t
  cases hr : recs[i]? with
  | none =>
    have ht : t = newStrand s p pc (lp i) (BitVec.allOnes 64) .hollow true := by
      simp only [t, gatherLane, hr]
    rw [ht]
    refine ⟨fun q => ?_, placeKept_newStrand _ _ _ _ _ _ _, fun r h => (nomatch h : False).elim, fun q n hn hq => rdG_newStrand _ _ _ _ _ hn hq⟩
    rw [str_newStrand, gatheredStrand, hr]
    rfl
  | some r =>
    have ht : t = (List.range 4).foldl (fun u i => wrG u p (i + 1) (word (field r.payload.toNat (64 * i) 64)))
        (newStrand s p pc (lp i) (BitVec.allOnes 64) (.inPath 0) false) := by
      simp only [t, gatherLane, hr]
    obtain ⟨hstr, hkept, hval, hother⟩ := payload_sound (newStrand s p pc (lp i) (BitVec.allOnes 64) (.inPath 0) false) p
      fun i => word (field r.payload.toNat (64 * i) 64)
    rw [ht]
    refine ⟨fun q => ?_, (placeKept_newStrand _ _ _ _ _ _ _).trans hkept, fun r' h => ?_, fun q n hn hq => ?_⟩
    · rw [hstr, str_newStrand, gatheredStrand, hr]
      rfl
    · rw [← Option.some.inj h]
      exact hval
    · exact (hother q n hn hq).trans (rdG_newStrand _ _ _ _ _ hn hq)

/-- The lanes of a gathered gang stand on their positions, in lane order. -/
theorem gatherLanes_sound (recs : List SpawnRec) (pc : Word) (lp : Nat → Word) (ls : List Nat) (k : Nat) (s : State) (hnd : ls.Nodup) :
    let t := (ls.zipIdx k).foldl (gatherLane recs pc lp) s
    (∀ i q, ls[i]? = some q → t.str q = gatheredStrand recs pc lp (k + i) (s.str q) ∧
      ∀ r, recs[k + i]? = some r → ∀ n, n < 4 → rdG t q (n + 1) = word (field r.payload.toNat (64 * n) 64)) ∧
    (∀ q, q ∉ ls → t.str q = s.str q ∧ ∀ n, n < 32 → rdG t q n = rdG s q n) ∧ PlaceKept s t := by
  induction ls generalizing k s with
  | nil => exact ⟨fun i q h => by simp at h, fun q _ => ⟨rfl, fun _ _ => rfl⟩, rfl, rfl, rfl⟩
  | cons p ls ih =>
    intro t
    obtain ⟨hp, hnd⟩ := List.nodup_cons.1 hnd
    obtain ⟨hstr, hkept, hval, hother⟩ := gatherLane_sound recs pc lp s p k
    obtain ⟨hin, hout, hrest⟩ := ih (k + 1) (gatherLane recs pc lp s (p, k)) hnd
    have ht : t = (ls.zipIdx (k + 1)).foldl (gatherLane recs pc lp) (gatherLane recs pc lp s (p, k)) := rfl
    rw [ht]
    refine ⟨fun i q hi => ?_, fun q hq => ?_, hkept.trans hrest⟩
    · cases i with
      | zero =>
        obtain rfl : p = q := by simpa using hi
        obtain ⟨ho, hr⟩ := hout p hp
        refine ⟨by rw [ho, hstr, if_pos rfl]; rfl, fun r h n hn => ?_⟩
        rw [hr _ (by omega)]
        exact hval r h n hn
      | succ i =>
        have hi' : ls[i]? = some q := by simpa using hi
        have hq : q ≠ p := fun e => hp (e ▸ List.mem_of_getElem? hi')
        obtain ⟨ho, hr⟩ := hin i q hi'
        rw [hstr, if_neg hq] at ho
        have hk : k + 1 + i = k + (i + 1) := by omega
        rw [hk] at ho hr
        exact ⟨ho, hr⟩
    · obtain ⟨hqp, hq⟩ := not_or.1 (mt List.mem_cons.2 hq)
      obtain ⟨ho, hr⟩ := hout q hq
      exact ⟨by rw [ho, hstr, if_neg hqp], fun n hn => by rw [hr n hn, hother q n hn hqp]⟩

theorem queues_bankCheck (s : State) (c : Nat) (b : Bool) (held : List Nat) (d : Nat) :
    ((bankCheck s c b held).cell d).spawns = (s.cell d).spawns ∧ ((bankCheck s c b held).cell d).partials = (s.cell d).partials := by
  unfold bankCheck
  dsimp only
  split
  · exact ⟨rfl, rfl⟩
  · obtain ⟨v, h⟩ := modStrs_eq (fun t => { t with bankHold := true }) held (putCell s c { s.cell c with
        bankSw := some ((s.cell c).bankSw.getD (cyc s c, if fillsOut s c then .fills else .sweep (cyc s c + 33))) })
    rw [h]
    have hcell := cell_putCell s c d { s.cell c with
        bankSw := some ((s.cell c).bankSw.getD (cyc s c, if fillsOut s c then .fills else .sweep (cyc s c + 33))) }
    by_cases hd : d = c
    · rw [if_pos hd] at hcell
      subst hd
      exact ⟨(congrArg CellSt.spawns hcell :), (congrArg CellSt.partials hcell :)⟩
    · rw [if_neg hd] at hcell
      exact ⟨congrArg CellSt.spawns hcell, congrArg CellSt.partials hcell⟩

/-- The LPOS base of the gang: that of its first record's strand. -/
theorem base_eq (l : List SpawnRec) : field (match l with | r :: _ => r.lpos | [] => 0#64).toNat 20 44 * 2 ^ 20 =
    (l.head?.map (fun r => field r.lpos.toNat 20 44 * 2 ^ 20)).getD 0 := by
  cases l <;> rfl

/-- The lanes of a gathered gang have taken their positions, before the banking of the cell is looked at. -/
def gatherAll (s : State) (c : Nat) (x : Partial) (ls : List Nat) : State :=
  let q := takeRecs x.desc x.count (s.cell c).spawns
  let sord := ((blockIn s c).slots.filter (fun j => decide (j < slotOf (ls.headD 0)))).length
  let base := (q.1.head?.map (fun r => field r.lpos.toNat 20 44 * 2 ^ 20)).getD 0
  putGang (ls.zipIdx.foldl (gatherLane q.1 x.entry fun i => withLane (word (base + sord * 2 ^ 11)) i x.glog)
    (dropGang (putCell s c { s.cell c with
      spawns := q.2, partials := (s.cell c).partials.filter (fun r => decide (r.released ≠ x.released)) }) (ls.headD 0)))
    (ls.headD 0) { turn := true, cur := 0, last := 0, qleft := 64 }

theorem placeGathered_eq (s : State) (c : Nat) (x : Partial) (ls : List Nat) :
    ∃ b, placeGathered s c x ls = bankCheck (gatherAll s c x ls) c b ls := by
  unfold gatherAll
  dsimp only
  rw [← base_eq]
  exact ⟨_, rfl⟩

theorem gatherAll_sound (s : State) (c : Nat) (x : Partial) (ls : List Nat) (hnd : ls.Nodup) :
    let t := gatherAll s c x ls
    let q := takeRecs x.desc x.count (s.cell c).spawns
    let sord := ((blockIn s c).slots.filter (fun j => decide (j < slotOf (ls.headD 0)))).length
    let base := (q.1.head?.map (fun r => field r.lpos.toNat 20 44 * 2 ^ 20)).getD 0
    (t.cell c).spawns = q.2 ∧ (t.cell c).partials = (s.cell c).partials.filter (fun r => decide (r.released ≠ x.released)) ∧
    t.gang (ls.headD 0) = { turn := true, cur := 0, last := 0, qleft := 64 } ∧
    (∀ i q', ls[i]? = some q' →
      t.str q' = gatheredStrand q.1 x.entry (fun i => withLane (word (base + sord * 2 ^ 11)) i x.glog) i (s.str q') ∧
      ∀ r, q.1[i]? = some r → ∀ n, n < 4 → rdG t q' (n + 1) = word (field r.payload.toNat (64 * n) 64)) ∧
    (∀ q', q' ∉ ls → t.str q' = s.str q') ∧ t.mem = s.mem := by
  intro t q sord base
  obtain ⟨hin, hout, hkept⟩ := gatherLanes_sound q.1 x.entry (fun i => withLane (word (base + sord * 2 ^ 11)) i x.glog) ls 0
    (dropGang (putCell s c { s.cell c with
      spawns := q.2, partials := (s.cell c).partials.filter (fun r => decide (r.released ≠ x.released)) }) (ls.headD 0)) hnd
  have hcell : t.cell c = { s.cell c with
      spawns := q.2, partials := (s.cell c).partials.filter (fun r => decide (r.released ≠ x.released)) } :=
    (congrArg (fun l => tget ({} : CellSt) l c) hkept.cells).trans ((cell_putCell _ _ _ _).trans (if_pos rfl))
  refine ⟨congrArg CellSt.spawns hcell, congrArg CellSt.partials hcell, (gang_putGang _ _ _ _).trans (if_pos rfl), fun i q' hi => ?_,
    fun q' hq => (hout q' hq).1, hkept.mem⟩
  have h := hin i q' hi
  rw [Nat.zero_add] at h
  exact h

/-- Settles O44. -/
theorem waitsAndTurnsEnd : Obligations.WaitsAndTurnsEnd := by
  intro s p c desc l idle collapsed traps
  have hcol : Machine.collapsed (s.gang l) = true ↔ collapsed := collapsed_iff _
  refine ⟨fun h => ?_, fun m hm => ?_, exec_recvt s p, rfl, fun h => ?_, fun x ls hx hp hnd => ?_, exec_quantum s l, fun _ _ _ => nextPath_sound,
    fun h => ?_, fun o r ho hc => ?_, fun hl => ⟨fun h => ?_, fun hn hc => ?_⟩⟩
  · constructor
    · show execMonitorFire p s = _
      rw [execMonitorFire, h]
    · show execWaitTimeout p s = _
      rw [execWaitTimeout, h]
  · intro n t ends fails
    refine ⟨exec_fire_idle hm, fun hd ha => ?_, exec_timeout_idle hm, exec_timeout hm⟩
    intro moved cut
    have hfire := exec_fire hm hd ha
    refine ⟨fun h => ?_, fun h hcut => ?_, fun h hcut => ⟨fun code hb => ?_, fun hb => ?_⟩⟩
    · rw [monRead_moved h] at hfire
      exact hfire
    · rw [monRead_cut h hcut] at hfire
      exact hfire
    · have hb' : badIn (flushRange s (cellOf p) m.loc m.bytes) m.loc m.bytes = some code := hb
      rw [monRead_read h hcut, hb'] at hfire
      exact hfire
    · have hb' : badIn (flushRange s (cellOf p) m.loc m.bytes) m.loc m.bytes = none := hb
      rw [monRead_read h hcut, hb'] at hfire
      exact hfire
  · show execGatheredGangPlace c s = _
    unfold execGatheredGangPlace
    rcases h with h | ⟨x, hx, hp⟩
    · rw [h]
    · rw [hx]
      dsimp only
      rw [hp]
  · refine ⟨placeGathered s c x ls, ?_, ?_⟩
    · show execGatheredGangPlace c s = _
      unfold execGatheredGangPlace
      rw [hx]
      dsimp only
      rw [hp]
    · intro q sord base
      obtain ⟨hspawns, hpart, hgang, hin, hout, hmem⟩ := gatherAll_sound s c x ls hnd
      obtain ⟨b, hb⟩ := placeGathered_eq s c x ls
      obtain ⟨hs, hp⟩ := queues_bankCheck (gatherAll s c x ls) c b ls c
      obtain ⟨v, cs, hbank⟩ := bankCheck_eq (gatherAll s c x ls) c b ls
      have hstr := str_bankCheck (gatherAll s c x ls) c b ls
      rw [hb]
      refine ⟨hs.trans hspawns, hp.trans hpart, by rw [hbank]; exact hgang, fun i q' hi => ?_, fun q' hq => ?_, ?_⟩
      · obtain ⟨hold, he⟩ := hstr q'
        obtain ⟨hlane, hval⟩ := hin i q' hi
        refine ⟨?_, by rw [hbank]; exact hval⟩
        rw [he, hlane]
        rfl
      · obtain ⟨hold, he⟩ := hstr q'
        rw [he, hout q' hq]
      · rw [hbank]
        exact fun a => byteAt_congr (t := ((gatherAll s c x ls).setStrands v).setCells cs) hmem a
  · show execOrphanFault l s = _
    unfold execOrphanFault
    dsimp only
    rcases h with h | h
    · rw [h]
    · cases (s.gang l).orphans with
      | nil => rfl
      | cons o r => exact if_pos (hcol.2 h)
  · intro u
    have hx : exec (.orphanFault l) s = match (gangLanes s l).filter (fun x => o.lanes.getLsbD (x - l)) with
        | [] => .next u
        | q :: _ => .next (takeTrap u l q o.lanes.toNat { cause := 13, sval := o.view } (s.str q).pc) := by
      show execOrphanFault l s = _
      unfold execOrphanFault
      dsimp only
      rw [ho]
      exact if_neg (mt hcol.1 hc)
    refine ⟨fun h => by rw [hx, h], fun q rest h => takes_trap (by rw [hx, h]) rfl rfl fun x hne => ?_⟩
    exact (gang_putGang _ _ _ _).trans (if_neg hne)
  · show execSqnote p s = _
    unfold execSqnote
    dsimp only
    rw [← hl]
    exact if_pos (h.imp (by simp) hcol.2)
  · refine takes_trap ?_ rfl rfl fun x hne => rfl
    show execSqnote p s = _
    unfold execSqnote
    dsimp only
    rw [← hl, if_neg (by rw [hn]; simpa using mt hcol.1 hc)]
    have hcell : (putCell s (cellOf p) { s.cell (cellOf p) with noteDue := false }).cell (cellOf p) = { s.cell (cellOf p) with noteDue := false } :=
      (cell_putCell _ _ _ _).trans (if_pos rfl)
    rw [hcell]
    rfl

end Sys2Proof.Machine
end

section
/-!
PROOFS. Transfers, deliveries, walks, joins and barrier sweeps as they go on (spec/13_isa_async_and_system.md R127, R349 to R359,
R370, spec/19_memory_and_delivery_faults.md R472 to R474).
-/
namespace Sys2Proof.Machine

open Sys2Proof

/-! ### A transfer reads its next piece (R350) -/

/-- The address of the next piece of a transfer, and its length: the bytes of one sector of one row. -/
def pieceAddr (x : Xfer) : Word := x.src + word (x.read / x.rlen * x.pitch + x.read % x.rlen)
def pieceLen (x : Xfer) : Nat := Nat.min (32 - (pieceAddr x).toNat % 32) (x.rlen - x.read % x.rlen)

/-- A multicast whose tag has no subscriber in this package. -/
def unheard (s : State) (x : Xfer) : Prop := ∃ tag key, x.cons = .tag s.pkg.pkgnum tag key ∧ x.subs = []

theorem unheard_iff (s : State) (x : Xfer) :
    (match x.cons with | .tag pkg _ _ => decide (pkg = s.pkg.pkgnum) && x.subs.isEmpty | _ => false) = true ↔ unheard s x := by
  unfold unheard
  cases x.cons with
  | self o => simp
  | cap a b c d e => simp
  | tag pkg tag key => 
    simp only [Bool.and_eq_true, decide_eq_true_eq, List.isEmpty_iff, Consumer.tag.injEq]
    exact ⟨fun ⟨hp, hs⟩ => ⟨tag, key, ⟨hp, rfl, rfl⟩, hs⟩, fun ⟨_, _, ⟨hp, _, _⟩, hs⟩ => ⟨hp, hs⟩⟩

/-- A piece that cannot be read is counted and not written; its record names an address. -/
def deadPiece (s : State) (id : Nat) (x : Xfer) (code : Nat) (a : Word) : State :=
  pieceRead s id x (pieceAddr x) (List.replicate (pieceLen x) 0) true (some (errRec x.req code 6 a 32))

/-- A piece as it is read at its home. -/
def homePiece (s : State) (id : Nat) (x : Xfer) (loc die : Nat) : State :=
  match (if crossed s (dieOf (homeCell s x.req)) die (homeCell s x.req) loc then some 8 else badIn s loc (pieceLen x)) with
  | some code => deadPiece s id x code (word ((pieceAddr x).toNat / 32 * 32))
  | none => pieceRead s id x (pieceAddr x) (numBytes (pieceLen x) (rd s loc (pieceLen x))) false none

/-- The read waits for its next turn. -/
def laterPiece (s : State) (id : Nat) (x : Xfer) : State := s.setXfers (tset s.xfers id { x with due := s.time + s.pace.step })

theorem next_option (o : Option Nat) (f : Nat → State) (g : State) :
    (match o with | some c => Host.Outcome.next (f c) | none => .next g : Host.Outcome State Fault Refusal) =
      .next (match o with | some c => f c | none => g) := by
  cases o <;> rfl

theorem next_sent (o : Sent) (f : State → State) (g : Nat → State) :
    (match o with | .out t => Host.Outcome.next (f t) | .fail c => .next (g c) : Host.Outcome State Fault Refusal) =
      .next (match o with | .out t => f t | .fail c => g c) := by
  cases o <;> rfl

section
variable {s : State} {id : Nat} {x : Xfer}

theorem exec_read_idle (h : tfind s.xfers id = some x) (hi : x.away = true ∨ x.rows * x.rlen ≤ x.read) :
    exec (.transferSourceRead id) s = .next s := by
  show execTransferSourceRead id s = _
  unfold execTransferSourceRead
  rw [h]
  exact if_pos hi

theorem not_done_iff : ¬(x.away = true ∨ x.rows * x.rlen ≤ x.read) ↔ x.away = false ∧ x.read < x.rows * x.rlen := by
  rw [not_or, Bool.not_eq_true, Nat.not_le]

theorem exec_read_unheard (h : tfind s.xfers id = some x) (hi : ¬(x.away = true ∨ x.rows * x.rlen ≤ x.read)) (hu : unheard s x) :
    exec (.transferSourceRead id) s = .next (s.setXfers (tset s.xfers id { x with
        read := x.rows * x.rlen, dealt := x.rows * x.rlen, err := true, due := s.time + s.pace.step
        rejects := addRej { reason := 5, cell := 0, blk := 0, tb := 0, off := x.offset, src := x.src, n := x.rows * x.rlen,
                            toC := false } x.rejects })) := by
  show execTransferSourceRead id s = _
  unfold execTransferSourceRead
  rw [h]
  exact (if_neg hi).trans (if_pos ((unheard_iff s x).2 hu))

/-- What a transfer that has not read all its bytes does, by where its next piece lies. -/
theorem exec_read (h : tfind s.xfers id = some x) (hi : ¬(x.away = true ∨ x.rows * x.rlen ≤ x.read)) (hu : ¬unheard s x) :
    exec (.transferSourceRead id) s = .next (match srcTarget s x (pieceAddr x) with
      | none => deadPiece s id x 0 (pieceAddr x)
      | some (.dev _) => deadPiece s id x 0 (pieceAddr x)
      | some (.home loc die) => if die = 4 ∧ !s.pkg.hostUp then laterPiece s id x else homePiece s id x loc die
      | some (.scr cell off) =>
        if tget 0 x.homes cell ≠ blockTag s (.scr cell off) ∨ tget 0 x.homes cell = 0 then
          pieceRead (noteMoved s id x (pieceAddr x) (pieceLen x)) id x (pieceAddr x) (List.replicate (pieceLen x) 0) true none
        else if (absentSectors s (.scr cell off) (pieceLen x)).any (fun k => !ownSector s x k) then laterPiece s id x
        else homePiece s id x (locScr cell off) (dieOf cell)
      | some (.remote pkg pa) =>
        match newRequest s (fromCell (homeCell s x.req)) pkg (planeOf pa) 1 0 x.req.key pa 0#256 (byteMask (pa % 32) (pieceLen x)) (.xfer id x.read) with
        | .out t => t.setXfers (tset t.xfers id { x with away := true })
        | .fail code => deadPiece s id x code (word ((pieceAddr x).toNat / 32 * 32))) := by
  show execTransferSourceRead id s = _
  unfold execTransferSourceRead
  rw [h]
  refine (if_neg hi).trans ((if_neg (mt (unheard_iff s x).1 hu)).trans ?_)
  change (match srcTarget s x (pieceAddr x) with
    | none => _
    | some (.dev _) => _
    | some (.home loc die) => _
    | some (.scr cell off) => _
    | some (.remote pkg pa) => _) = _
  cases srcTarget s x (pieceAddr x) with
  | none => rfl
  | some t =>
    cases t with
    | dev o => rfl
    | home loc die =>
      simp only [apply_ite Host.Outcome.next]
      refine ite_iff Iff.rfl rfl ?_
      exact next_option (if crossed s (dieOf (homeCell s x.req)) die (homeCell s x.req) loc then some 8 else badIn s loc (pieceLen x)) _ _
    | scr cell off =>
      simp only [apply_ite Host.Outcome.next]
      refine ite_iff Iff.rfl rfl (ite_iff Iff.rfl rfl ?_)
      exact next_option (if crossed s (dieOf (homeCell s x.req)) (dieOf cell) (homeCell s x.req) (locScr cell off) then some 8
        else badIn s (locScr cell off) (pieceLen x)) _ _
    | remote pkg pa =>
      exact next_sent (newRequest s (fromCell (homeCell s x.req)) pkg (planeOf pa) 1 0 x.req.key pa 0#256 (byteMask (pa % 32) (pieceLen x))
        (.xfer id x.read)) _ _
end

section
variable {s : State} {id : Nat} {x : Xfer} (h : tfind s.xfers id = some x)
include h

theorem pieceRead_sent (va : Word) (n v : Nat) : pieceRead s id x va (numBytes n v) false none =
    sendPiece (tookPiece s id x n false) id x x.read va (numBytes n v) false := by
  have hlen : (numBytes n v).length = n := by simp [numBytes]
  unfold pieceRead
  dsimp only
  rw [h, hlen]

/-- A piece at a home: a failed hop or an uncorrectable byte kills it, and otherwise its bytes set out. -/
theorem homePiece_sound (loc die : Nat) :
    (crossed s (dieOf (homeCell s x.req)) die (homeCell s x.req) loc = true →
      homePiece s id x loc die = deadPiece s id x 8 (word ((pieceAddr x).toNat / 32 * 32))) ∧
    (crossed s (dieOf (homeCell s x.req)) die (homeCell s x.req) loc = false →
      (∀ code, badIn s loc (pieceLen x) = some code →
        homePiece s id x loc die = deadPiece s id x code (word ((pieceAddr x).toNat / 32 * 32))) ∧
      (badIn s loc (pieceLen x) = none → homePiece s id x loc die =
        sendPiece (tookPiece s id x (pieceLen x) false) id x x.read (pieceAddr x) (numBytes (pieceLen x) (rd s loc (pieceLen x))) false)) := by
  unfold homePiece
  refine ⟨fun hc => by rw [if_pos hc], fun hc => ?_⟩
  rw [if_neg (by rw [hc]; exact Bool.false_ne_true)]
  refine ⟨fun code hb => by rw [hb], fun hb => ?_⟩
  rw [hb]
  exact pieceRead_sent h _ _ _
end

/-! ### The rest of the transfer's and the walk's events -/

theorem exec_notice {s : State} {id : Nat} {x : Xfer} (h : tfind s.xfers id = some x) : exec (.transferNotice id) s =
    .next (if xferDone x = false then s
      else
        let t := x.rejects.foldl (fun t j => postRej t x.req (if x.note then x.ntb else 0) j) s
        let u := t.setXfers (tdel t.xfers id)
        if x.note = false then u
        else if noticeCut u x = true then
          notice (postFor u (homeCell u x.req) (errRec x.req 8 6 x.src 32)) x.req x.ntb (x.rows * x.rlen) true
        else notice u x.req x.ntb (x.rows * x.rlen) x.err) := by
  show execTransferNotice id s = _
  unfold execTransferNotice
  rw [h, apply_ite Host.Outcome.next]
  exact ite_iff (by simp) rfl (congrArg Host.Outcome.next (ite_iff (by simp) rfl rfl))

theorem exec_chase {s : State} {id : Nat} {w : Walk} (h : tfind s.chases id = some w) : exec (.chaseStep id) s =
    .next (if w.ended = true then (if w.inFlight = 0 then finishWalk s id w else s)
      else if w.away = true ∨ w.running = false then s
      else match w.word with
        | some v => engWord s id w v
        | none => engFetch s id w) := by
  show execChaseStep id s = _
  unfold execChaseStep
  rw [h]
  simp only [apply_ite Host.Outcome.next]
  refine ite_iff Iff.rfl rfl (ite_iff (by simp) rfl ?_)
  cases w.word <;> rfl

theorem exec_chase_limit {s : State} {id : Nat} {w : Walk} (h : tfind s.chases id = some w) : exec (.chaseStepLimit id) s =
    .next (if w.ended = true ∨ w.words < 1048576 then s else endWalk s id w (some 0)) := by
  show execChaseStepLimit id s = _
  unfold execChaseStepLimit
  rw [h, apply_ite Host.Outcome.next]

theorem exec_join {s : State} {id : Nat} {j : Join} (h : tfind s.joins id = some j) : exec (.multicastJoinArrival id) s =
    .next (let t := s.setJoins (tdel s.joins id)
      let rest := s.pkg.joined.filter (fun q => decide (q ≠ (j.tag, j.cell)))
      if j.join = true then t.setPkg { s.pkg with joined := rest ++ [(j.tag, j.cell)] }
      else if holdsTag (s.cell j.cell) j.tag = true then t
      else t.setPkg { s.pkg with joined := rest }) := by
  show execMulticastJoinArrival id s = _
  unfold execMulticastJoinArrival
  rw [h]
  simp only [apply_ite Host.Outcome.next]
  rfl

/-- Settles O45. -/
theorem transfersDeliver : Obligations.TransfersDeliver := by
  intro s id c idle
  refine ⟨fun h => ?_, fun d h => ⟨fun ha => ?_, fun ha hi => ?_, fun ha hi => ?_⟩, fun h => ⟨?_, ?_⟩, fun x h => ?_, fun h => ⟨?_, ?_⟩,
    fun w h => ?_, fun h => ?_, fun j h => ?_, fun h => ?_, fun b h => ⟨fun u hu => ⟨fun hle => ?_, fun hlt => ?_⟩,
    fun hu => ⟨fun hn => ?_, fun hf ho hm => ?_⟩⟩⟩
  · show execDeliveryArrival id s = _
    rw [execDeliveryArrival, h]
  · show execDeliveryArrival id s = _
    rw [execDeliveryArrival, h]
    exact if_pos ha
  · show execDeliveryArrival id s = _
    rw [execDeliveryArrival, h]
    exact (if_neg (by rw [ha]; exact Bool.false_ne_true)).trans (if_pos hi)
  · show execDeliveryArrival id s = _
    rw [execDeliveryArrival, h]
    exact (if_neg (by rw [ha]; exact Bool.false_ne_true)).trans (if_neg (by rw [hi]; exact Bool.false_ne_true))
  · show execTransferSourceRead id s = _
    rw [execTransferSourceRead, h]
  · show execTransferNotice id s = _
    rw [execTransferNotice, h]
  · refine ⟨exec_read_idle h, fun ha hr => ?_, fun hd => ?_, fun hd => ?_⟩
    · intro silent
      have hi := not_done_iff.2 ⟨ha, hr⟩
      refine ⟨exec_read_unheard h hi, fun hu => ?_⟩
      intro va n hc reads later zeros dead sent sector atHome
      have hx := exec_read h hi hu
      have hhome : ∀ loc die, exec (.transferSourceRead id) s = .next (homePiece s id x loc die) → atHome loc die := by
        intro loc die hx
        obtain ⟨hcut, hread⟩ := homePiece_sound h loc die
        exact ⟨fun hc => hx.trans (congrArg _ (hcut hc)), fun hc => ⟨fun code hb => hx.trans (congrArg _ ((hread hc).1 code hb)),
          fun hb => hx.trans (congrArg _ ((hread hc).2 hb))⟩⟩
      refine ⟨fun ht => ?_, fun loc die ht => ⟨fun hh => ?_, fun hh => ?_⟩, fun cell off ht => ?_, fun pkg pa ht => ?_⟩
      · rcases ht with ht | ⟨o, ht⟩
        · rw [show srcTarget s x (pieceAddr x) = none from ht] at hx
          exact hx
        · rw [show srcTarget s x (pieceAddr x) = some (.dev o) from ht] at hx
          exact hx
      · rw [show srcTarget s x (pieceAddr x) = some (.home loc die) from ht] at hx
        exact hx.trans (congrArg _ (if_pos (by simpa using hh)))
      · rw [show srcTarget s x (pieceAddr x) = some (.home loc die) from ht] at hx
        exact hhome _ _ (hx.trans (congrArg _ (if_neg (by simpa using hh))))
      · rw [show srcTarget s x (pieceAddr x) = some (.scr cell off) from ht] at hx
        intro moved waits
        have hw : (absentSectors s (.scr cell off) (pieceLen x)).any (fun k => !ownSector s x k) = true ↔ waits := by
          simp only [List.any_eq_true, Bool.not_eq_true']
          exact Iff.rfl
        exact ⟨fun hm => hx.trans (congrArg _ (if_pos hm)), fun hm hw' => hx.trans (congrArg _ ((if_neg hm).trans (if_pos (hw.2 hw')))),
          fun hm hw' => hhome _ _ (hx.trans (congrArg _ ((if_neg hm).trans (if_neg (mt hw.1 hw')))))⟩
      · rw [show srcTarget s x (pieceAddr x) = some (.remote pkg pa) from ht] at hx
        intro ask
        have hask : ask = newRequest s (fromCell (homeCell s x.req)) pkg (planeOf pa) 1 0 x.req.key pa 0#256 (byteMask (pa % 32) (pieceLen x))
          (.xfer id x.read) := rfl
        dsimp only at hx
        rw [← hask] at hx
        refine ⟨fun t hout => ?_, fun code hfail => ?_⟩
        · rw [hout] at hx
          exact hx
        · rw [hfail] at hx
          exact hx
    · exact (exec_notice h).trans (congrArg _ (if_pos hd))
    · intro t u ends
      have hx : exec (.transferNotice id) s = _ := (exec_notice h).trans (congrArg _ (if_neg (by rw [hd]; simp)))
      exact ⟨fun hn => hx.trans (congrArg _ (if_pos hn)),
        fun hn hc => hx.trans (congrArg _ ((if_neg (by rw [hn]; simp)).trans (if_neg (by rw [hc]; exact Bool.false_ne_true)))),
        fun hn hc => hx.trans (congrArg _ ((if_neg (by rw [hn]; simp)).trans (if_pos hc)))⟩
  · show execChaseStep id s = _
    rw [execChaseStep, h]
  · show execChaseStepLimit id s = _
    rw [execChaseStepLimit, h]
  · intro goes
    have hx := exec_chase h
    refine ⟨fun he hf => ?_, fun he hf => ?_, fun he hi => ?_, fun he ha hr v hv => ?_, fun he ha hr hv => ?_, fun hi => ?_, fun he hw => ?_⟩
    · rw [if_pos he, if_neg hf] at hx
      exact hx
    · rw [if_pos he, if_pos hf] at hx
      exact hx
    · rw [if_neg (by simp [he]), if_pos hi] at hx
      exact hx
    · rw [if_neg (by simp [he]), if_neg (by simp [ha, hr]), hv] at hx
      exact hx
    · rw [if_neg (by simp [he]), if_neg (by simp [ha, hr]), hv] at hx
      exact hx
    · exact (exec_chase_limit h).trans (congrArg _ (if_pos hi))
    · exact (exec_chase_limit h).trans (congrArg _ (if_neg (by simp [he, hw])))
  · show execMulticastJoinArrival id s = _
    rw [execMulticastJoinArrival, h]
  · intro t rest goes
    have hx := exec_join h
    dsimp only at hx
    refine ⟨fun hj => ?_, fun hj ht => ?_, fun hj ht => ?_⟩
    · rw [if_pos hj] at hx
      exact hx
    · rw [if_neg (by simp [hj]), if_pos ht] at hx
      exact hx
    · rw [if_neg (by simp [hj]), if_neg (by simp [ht])] at hx
      exact hx
  · show execBlockBarrierSweep c s = _
    unfold execBlockBarrierSweep
    dsimp only
    rw [h]
  · show execBlockBarrierSweep c s = _
    unfold execBlockBarrierSweep
    dsimp only
    rw [h, hu]
    exact if_pos hle
  · show execBlockBarrierSweep c s = _
    unfold execBlockBarrierSweep
    dsimp only
    rw [h, hu]
    exact if_neg (Nat.not_le.2 hlt)
  · show execBlockBarrierSweep c s = _
    unfold execBlockBarrierSweep
    dsimp only
    rw [h, hu]
    exact if_pos (by simpa using hn)
  · intro g t
    show execBlockBarrierSweep c s = _
    unfold execBlockBarrierSweep
    dsimp only [g, t]
    rw [h, hu]
    have hopen : ¬((s.cell c).bbForwarded = true ∨ (!bbOpen s b) = true ∨ (!mayForward s b c) = true) := by simp [hf, ho, hm]
    dsimp only
    rw [if_neg hopen, apply_ite Host.Outcome.next]

end Sys2Proof.Machine
end

section
/-!
PROOFS. Messages arrive and the matrix engine runs its queue (spec/13_isa_async_and_system.md R372 to R374,
spec/20_progress_failures.md R485, R486, spec/11_isa_matrix.md R299, R300, R307, R308).
-/
namespace Sys2Proof.Machine

open Sys2Proof

/-! ### Messages -/

section
variable {s : State} {id : Nat} {f : Flying} (h : tfind s.flying id = some f)
include h

theorem exec_arrival_held (ho : ovfHeld s (msgCell f.msg.dst) = true) :
    exec (.messageArrival id) s = .next (s.setFlying (tset s.flying id { f with due := s.time + s.pace.msg })) := by
  show execMessageArrival id s = _
  rw [execMessageArrival, h]
  exact if_pos ho

theorem exec_arrival (ho : ovfHeld s (msgCell f.msg.dst) = false) : exec (.messageArrival id) s =
    .next (if (arrive s f.msg).2 then (arrive s f.msg).1.setFlying (tdel (arrive s f.msg).1.flying id)
      else (arrive s f.msg).1.setFlying (tset (arrive s f.msg).1.flying id { f with refused := true, due := s.time + 1024 })) := by
  show execMessageArrival id s = _
  rw [execMessageArrival, h]
  refine (if_neg (by rw [ho]; exact Bool.false_ne_true)).trans (congrArg Host.Outcome.next ?_)
  exact apply_ite (arrive s f.msg).1.setFlying _ _ _

theorem exec_resend_idle (hr : f.refused = false) : exec (.messageResend id) s = .next s := by
  show execMessageResend id s = _
  rw [execMessageResend, h]
  exact if_pos (by rw [hr]; rfl)

theorem exec_resend_here (hr : f.refused = true) (hp : msgPkg f.msg.dst = s.pkg.pkgnum) : exec (.messageResend id) s =
    .next (if (arrive s f.msg).2 then (arrive s f.msg).1.setFlying (tdel (arrive s f.msg).1.flying id)
      else (arrive s f.msg).1.setFlying (tset (arrive s f.msg).1.flying id { f with due := s.time + 1024 })) := by
  show execMessageResend id s = _
  rw [execMessageResend, h]
  refine (if_neg (by rw [hr]; exact Bool.false_ne_true)).trans ((if_pos hp).trans (congrArg Host.Outcome.next ?_))
  exact apply_ite (arrive s f.msg).1.setFlying _ _ _

theorem exec_resend_far (hr : f.refused = true) (hp : msgPkg f.msg.dst ≠ s.pkg.pkgnum) :
    exec (.messageResend id) s = .next (sendMsg (s.setFlying (tdel s.flying id)) f.msg) := by
  show execMessageResend id s = _
  rw [execMessageResend, h]
  exact (if_neg (by rw [hr]; exact Bool.false_ne_true)).trans (if_neg hp)
end

section
variable (s : State) (m : Msg)

/-- No strand is there to take a message: the position is FREE or its strand has stopped. -/
def strandGone (p : Nat) : Prop :=
  (s.str p).st = .free ∨ liveSt (s.str p) = .retired ∨ ((s.str p).heldSt = .retired ∧ (s.str p).st = .saved)

/-- The strand that a message names is there. -/
def meetsStrand : Prop :=
  (s.cell (msgCell m.dst)).block ≠ none ∧ ¬strandGone s (msgPos m.dst) ∧ (s.str (msgPos m.dst)).gen = msgGen m.dst ∧
    keyIn s (msgCell m.dst) = m.key

/-- A message goes to the overflow region, or is refused. -/
def spilledOrRefused : State × Bool :=
  match spillTo s (msgPos m.dst) (msgGen m.dst).toNat m.key m.payload with
  | some v => (v, true)
  | none => (refuse s (msgCell m.dst), false)

theorem arrive_eq [Decidable (meetsStrand s m)] [Decidable (strandGone s (msgPos m.dst))] : arrive s m =
    if meetsStrand s m then
      (if (s.str (msgPos m.dst)).recvq.length < 8 ∧ oldestSpilled s (msgPos m.dst) (s.str (msgPos m.dst)).gen.toNat m.key.toNat = none then
        (modStr s (msgPos m.dst) (fun t => { t with recvq := t.recvq ++ [m] }), true)
      else spilledOrRefused s m)
    else if ∃ b ∈ boundTo s (msgCell m.dst), blockKey s b = m.key then spilledOrRefused s m
    else (orphanMsg s (msgCell m.dst) m (if (s.cell (msgCell m.dst)).block = none ∨ strandGone s (msgPos m.dst) then 3
      else if (s.str (msgPos m.dst)).gen ≠ msgGen m.dst then 1 else 2), true) := by
  have hgone : (decide ((s.str (msgPos m.dst)).st = .free) || decide (liveSt (s.str (msgPos m.dst)) = .retired) ||
      decide ((s.str (msgPos m.dst)).heldSt = .retired ∧ (s.str (msgPos m.dst)).st = .saved)) = true ↔ strandGone s (msgPos m.dst) := by
    simp only [Bool.or_eq_true, decide_eq_true_eq, strandGone, or_assoc]
  unfold arrive
  dsimp only
  refine ite_iff (and_congr Option.isSome_iff_ne_none (and_congr_left' (by rw [Bool.not_eq_true', ← Bool.not_eq_true]; exact not_congr hgone)))
    (ite_iff (and_congr_right' Option.isNone_iff_eq_none) rfl rfl) (ite_iff (by simp) rfl ?_)
  rw [ite_iff (or_congr Option.isNone_iff_eq_none hgone) rfl rfl]
end

/-! ### The engine (R299, R300, R307) -/

section
variable {s : State} {c : Nat} {j : MatJob} {r : List MatJob} (h : (s.cell c).jobs = j :: r)
include h

theorem exec_start_busy (hb : (s.cell c).engBusy = true) : exec (.matrixOpStart c) s = .next s := by
  show execMatrixOpStart c s = _
  unfold execMatrixOpStart
  dsimp only
  rw [h]
  exact if_pos hb

theorem exec_start (hb : (s.cell c).engBusy = false) : exec (.matrixOpStart c) s =
    .next (putCell s c { s.cell c with engBusy := true, engDue := cyc s c + occupancy j.op }) := by
  show execMatrixOpStart c s = _
  unfold execMatrixOpStart
  dsimp only
  split
  · rename_i k l hk
    obtain ⟨rfl, -⟩ := List.cons.inj (hk.symm.trans h)
    exact if_neg (by rw [hb]; exact Bool.false_ne_true)
  · rename_i hk
    exact absurd (hk.symm.trans h) (List.cons_ne_nil _ _).symm

theorem exec_complete_idle (hb : (s.cell c).engBusy = false ∨ cyc s c < (s.cell c).engDue) : exec (.matrixOpComplete c) s = .next s := by
  show execMatrixOpComplete c s = _
  unfold execMatrixOpComplete
  rw [h]
  exact if_pos (by simpa using hb)

theorem exec_complete (hb : (s.cell c).engBusy = true) (hd : (s.cell c).engDue ≤ cyc s c) : exec (.matrixOpComplete c) s =
    .next (match askOnce s c j with
      | some t => t
      | none =>
        if rowsOut s j = true then s
        else
          let x := (runOp s c j).1
          let t := putCell x c { x.cell c with
            jobs := (x.cell c).jobs.drop 1, engBusy := false
            jobErr := match j.ident with | some n => tset (x.cell c).jobErr n (runOp s c j).2 | none => (x.cell c).jobErr }
          if (t.cell c).jobs = [] then t else t.setAgenda (Instr.matrixOpStart c :: t.agenda)) := by
  show execMatrixOpComplete c s = _
  unfold execMatrixOpComplete
  rw [h]
  refine (if_neg (by simp [hb, hd])).trans ?_
  cases askOnce s c j with
  | some t => rfl
  | none =>
    dsimp only
    simp only [List.isEmpty_iff, apply_ite Host.Outcome.next] <;> rfl

theorem askOnce_store {acc : Nat} {x : Word} {pitch : Nat} {cnt : Bool} {tb : Nat} (ha : j.asked = false) (hf : farSectors j ≠ [])
    (ho : j.op = .mmst acc x pitch cnt tb) :
    askOnce s c j = some (askFarRows (putCell s c { s.cell c with jobs := { j with asked := true } :: r }) j acc true) := by
  have hdrop : (s.cell c).jobs.drop 1 = r := by rw [h]; rfl
  unfold askOnce
  rw [if_neg (by simp [ha, hf]), ho]
  dsimp only
  rw [hdrop]

theorem askOnce_load {acc : Nat} {x : Word} {pitch : Nat} (ha : j.asked = false) (hf : farSectors j ≠ [])
    (ho : j.op = .mmld acc x pitch) :
    askOnce s c j = some (askFarRows (putCell s c { s.cell c with jobs := { j with asked := true } :: r }) j acc false) := by
  have hdrop : (s.cell c).jobs.drop 1 = r := by rw [h]; rfl
  unfold askOnce
  rw [if_neg (by simp [ha, hf]), ho]
  dsimp only
  rw [hdrop]
end

/-- No accumulator transfer with far rows that have not been asked for: nothing is asked. -/
theorem askOnce_none {s : State} {c : Nat} {j : MatJob} (h : ¬(j.asked = false ∧ farSectors j ≠ [] ∧
    ((∃ acc x pitch cnt tb, j.op = .mmst acc x pitch cnt tb) ∨ ∃ acc x pitch, j.op = .mmld acc x pitch))) : askOnce s c j = none := by
  unfold askOnce
  by_cases ha : j.asked = true ∨ (farSectors j).isEmpty = true
  · exact if_pos ha
  · rw [if_neg ha]
    obtain ⟨ha, hf⟩ := not_or.1 ha
    have hop := fun k => h ⟨by simpa using ha, by simpa using hf, k⟩
    cases ho : j.op with
    | mma f acc a b => rfl
    | mmz acc => rfl
    | mmst acc x pitch cnt tb => exact absurd (Or.inl ⟨_, _, _, _, _, ho⟩) hop
    | mmld acc x pitch => exact absurd (Or.inr ⟨_, _, _, ho⟩) hop

/-- An `mmz` leaves its tile zero (R307). -/
theorem runOp_mmz {s : State} {c a : Nat} {j : MatJob} (h : j.op = .mmz a) {i : Nat} (hi : i < 16384) :
    byteAt (runOp s c j).1 (locAcc c (16384 * a) + i) = 0#8 := by
  unfold runOp
  rw [h]
  exact (memGet_memZero _ _ _ _).trans (if_pos ⟨by omega, by omega⟩)

/-- Settles O46. -/
theorem messagesArriveAndTheEngineRuns : Obligations.MessagesArriveAndTheEngineRuns := by
  intro s id c idle
  refine ⟨fun h => ⟨?_, ?_⟩, fun f h => ?_, fun m => ?_, fun h => ⟨?_, ?_⟩, fun j r h => ?_⟩
  · show execMessageArrival id s = _
    rw [execMessageArrival, h]
  · show execMessageResend id s = _
    rw [execMessageResend, h]
  · exact ⟨exec_arrival_held h, exec_arrival h, exec_resend_idle h, fun hr => ⟨exec_resend_here h hr, exec_resend_far h hr⟩⟩
  · intro p k gone mine room held spills
    classical
    have hx : arrive s m = if mine then (if room then (modStr s p (fun t => { t with recvq := t.recvq ++ [m] }), true) else spilledOrRefused s m)
        else if held then spilledOrRefused s m
        else (orphanMsg s k m (if (s.cell k).block = none ∨ gone then 3 else if (s.str p).gen ≠ msgGen m.dst then 1 else 2), true) := by
      rw [arrive_eq]
      congr
    have hspills : arrive s m = spilledOrRefused s m → spills := fun e => by
      refine ⟨fun t ht => ?_, fun ht => ?_⟩ <;> rw [e] <;> unfold spilledOrRefused <;> rw [ht]
    refine ⟨fun hm hr => ?_, fun hm hr => hspills ?_, fun hm hh => hspills ?_, fun hm hh => ⟨fun hg => ?_, fun hb hg => ?_⟩⟩
    · rw [hx, if_pos hm, if_pos hr]
    · rw [hx, if_pos hm, if_neg hr]
    · rw [hx, if_neg hm, if_pos hh]
    · rw [hx, if_neg hm, if_neg hh, if_pos hg]
    · rw [hx, if_neg hm, if_neg hh, if_neg (not_or.2 ⟨hb, hg⟩)]
  · show execMatrixOpStart c s = _
    unfold execMatrixOpStart
    dsimp only
    rw [h]
  · show execMatrixOpComplete c s = _
    unfold execMatrixOpComplete
    rw [h]
  · refine ⟨exec_start_busy h, exec_start h, exec_complete_idle h, fun hb hd => ?_, fun a ha i hi => runOp_mmz ha hi⟩
    have hx := exec_complete h hb hd
    intro ask store load first
    refine ⟨fun ⟨ha, hf, _⟩ => ⟨fun acc x pitch cnt tb ho => ?_, fun acc x pitch ho => ?_⟩, fun hfirst hr => ?_, fun hfirst hr => ?_⟩
    · rw [askOnce_store h ha hf ho] at hx
      exact hx
    · rw [askOnce_load h ha hf ho] at hx
      exact hx
    · rw [askOnce_none hfirst] at hx
      exact hx.trans (congrArg _ (if_pos hr))
    · rw [askOnce_none hfirst] at hx
      exact hx.trans (congrArg _ (if_neg (by rw [hr]; exact Bool.false_ne_true)))

end Sys2Proof.Machine
end

section
/-!
PROOFS. Tokens, power and security events (spec/07_scheduling_and_ring_road.md R185, R189, R193,
spec/22_power_and_security_failures.md R505 to R512).
-/
namespace Sys2Proof.Machine

open Sys2Proof

/-! ### The payment of requests and the ring (R185, R189) -/

section
variable {s : State} {c : Nat} {r : TokReq} {rest : List TokReq} (h : (s.cell c).reqs = r :: rest)
include h

theorem exec_paid : exec (.tokenRequestPaid c) s = .next (if (s.cell c).pocket < r.price then s
    else if quotaAllows s c r.price r.exempt = false then sitOut s c
    else
      let t := payTokens s c r.price
      let u := putCell t c { t.cell c with reqs := rest, starveMade := false }
      payRequests (afterPay (wakePaid u r.pos (inDebt u c)) c) c rest.length) := by
  show execTokenRequestPaid c s = _
  unfold execTokenRequestPaid
  rw [h, List.length_cons, payRequests, h]
  simp only [Bool.not_eq_true']
end

/-- What the flit at a station becomes, and its die and cell. -/
theorem exec_station (s : State) (die st : Nat) (h : (s.die die).ringFailed = false) : exec (.ringStationStep die st) s =
    .next (let d := s.die die
      let u := s.time - 1
      let k := stationCell die st
      let f := (st + 160 - u % 160) % 160
      let x := if st = 0 then adjust d (tget 0 d.flits f) else (d, tget 0 d.flits f)
      let y := if f = 0 then leadStep x.1 (s.cell k) st u x.2 else (x.1, s.cell k, x.2)
      let z := passStep y.1.cap u y.2.1 y.2.2
      putDie (putCell s k z.1) die { y.1 with flits := if z.2 = 0 then tdel y.1.flits f else tset y.1.flits f z.2 }) :=
  if_neg (by rw [h]; exact Bool.false_ne_true)

/-! ### Heat, supplies and alarms (R507, R508, R510, R512) -/

theorem exec_warm (s : State) (sensor temp : Nat) : exec (.thermalWarn sensor temp) s =
    .next (let t := if s.pkg.warn ≤ temp then
          (if s.pkg.warnMade = true then s.setPkg { s.pkg with tmax := temp % 256 }
          else postLog (s.setPkg { s.pkg with tmax := temp % 256, warnMade := true })
            { kind := 9, sinfo := 2#64, sval := word sensor, arg := temp % 256 })
        else if temp + 5 ≤ s.pkg.warn then s.setPkg { s.pkg with tmax := temp % 256, warnMade := false }
        else s.setPkg { s.pkg with tmax := temp % 256 }
      if 110 ≤ temp then tripNow t sensor else t) := rfl

theorem exec_ok (s : State) (die rail : Nat) : exec (.railReturnsToTolerance die rail) s =
    .next (if railIsHeld s die rail = true ∧ railEnd s die rail = none then
      postLog (putRail s die rail true (some (s.time + 1200000))) { kind := 9, sinfo := 4#64, sval := word (die % 4 * 256 + rail % 2) }
    else s) := (apply_ite Host.Outcome.next _ _ _).symm

theorem exec_hold_end (s : State) (die rail : Nat) : exec (.railHoldEnd die rail) s =
    .next (match railEnd s die rail with
      | some t => if t ≤ s.time then putRail s die rail false none else s
      | none => s) := by
  show execRailHoldEnd die rail s = _
  unfold execRailHoldEnd
  cases railEnd s die rail with
  | none => rfl
  | some t => exact (apply_ite Host.Outcome.next _ _ _).symm

theorem exec_supply (s : State) (stack : Nat) : exec (.hbmSupplyFault stack) s =
    .next (if 12 ≤ stack ∨ stack ∈ s.pkg.badStacks then s else s.setPkg { s.pkg with badStacks := stack :: s.pkg.badStacks }) := by
  show execHbmSupplyFault stack s = _
  unfold execHbmSupplyFault
  rw [apply_ite Host.Outcome.next]
  exact ite_iff (or_congr_right List.contains_iff_mem) rfl rfl

/-- Settles O47. -/
theorem tokensPowerAndSecurity : Obligations.TokensPowerAndSecurity := by
  intro s c die st sensor temp rail stack level source d idle
  refine ⟨fun h => ?_, fun r rest h => ⟨fun hp => ?_, fun hp hq => ?_, fun hp hq => ?_⟩, fun h => if_pos h, exec_station s die st, rfl, ?_,
    fun h => ?_, fun h => ?_, rfl, fun hh he => ?_, fun h => ?_, fun t ht hle => ?_, fun h => ?_, fun h => ?_, fun hlt hn => ?_, fun h => ?_,
    fun h1 h3 => ?_⟩
  · show execTokenRequestPaid c s = _
    unfold execTokenRequestPaid
    rw [h]
    rfl
  · exact (exec_paid h).trans (congrArg _ (if_pos hp))
  · exact (exec_paid h).trans (congrArg _ ((if_neg (Nat.not_lt.2 hp)).trans (if_pos hq)))
  · exact (exec_paid h).trans (congrArg _ ((if_neg (Nat.not_lt.2 hp)).trans (if_neg (by simp [hq]))))
  · intro warms
    have hx := exec_warm s sensor temp
    change warms _ at hx
    refine ⟨fun hw hm => ?_, fun hw hm => ?_, fun hw h5 => ?_, fun hw h5 => ?_⟩
    · rw [if_pos hw, if_neg (by simp [hm])] at hx
      exact hx
    · rw [if_pos hw, if_pos hm] at hx
      exact hx
    · rw [if_neg (Nat.not_le.2 hw), if_pos h5] at hx
      exact hx
    · rw [if_neg (Nat.not_le.2 hw), if_neg (Nat.not_le.2 h5)] at hx
      exact hx
  · exact congrArg Host.Outcome.next (if_pos h)
  · exact congrArg Host.Outcome.next (if_neg (by rw [h]; exact Bool.false_ne_true))
  · exact (exec_ok s die rail).trans (congrArg _ (if_pos ⟨hh, he⟩))
  · refine (exec_ok s die rail).trans (congrArg _ (if_neg fun ⟨hh, he⟩ => ?_))
    rcases h with h | h
    · rw [hh] at h; cases h
    · exact h he
  · have hx := exec_hold_end s die rail
    rw [ht] at hx
    exact hx.trans (congrArg _ (if_pos hle))
  · have hx := exec_hold_end s die rail
    cases ht : railEnd s die rail with
    | none =>
      rw [ht] at hx
      exact hx
    | some t =>
      rw [ht] at hx
      exact hx.trans (congrArg _ (if_neg (Nat.not_le.2 (h t ht))))
  · exact (exec_supply s stack).trans (congrArg _ (if_pos h))
  · exact (exec_supply s stack).trans (congrArg _ (if_neg (not_or.2 ⟨Nat.not_le.2 hlt, hn⟩)))
  · exact congrArg Host.Outcome.next (if_pos h)
  · exact congrArg Host.Outcome.next (if_neg (by omega))

end Sys2Proof.Machine
end

section
/-!
PROOFS. Blocks and grids (spec/02_execution_model.md R64, spec/07_scheduling_and_ring_road.md R171 to R197,
spec/14_host_fabric_and_boot.md R396 to R400, spec/17_traps_and_containment.md R445 to R447, spec/20_progress_failures.md R477 to R484).
-/
namespace Sys2Proof.Machine

open Sys2Proof

/-! ### Quanta (R172, R175, R192, R194, R484) -/

section
variable {s : State} {b : Nat}

theorem endQuantum_waiting (h : waitingWork s = true) : endQuantum s b = preempt s b .evicting := if_pos h

/-- The state in which the next quantum of a block starts: its cells are charged with QUOTA. -/
def quantumStart (s : State) (b : Nat) : State :=
  let t := (blockCells s b).foldl (fun t k => chargeQuota t (s.grid (s.block b).grid).q k) s
  putBlock t b { t.block b with quantumEnd := t.time + quantumLen (s.grid (s.block b).grid) }

theorem endQuantum_idle (h : waitingWork s = false) : endQuantum s b =
    match lowestQuota (quantumStart s b) (blockCells s b) with
    | some (k, v) =>
      if v ≤ 0 then
        postLog (preempt (putBlock (quantumStart s b) b { (quantumStart s b).block b with satOut := ((quantumStart s b).block b).satOut + 1 }) b .sittingOut)
          { kind := 7, asid := (s.grid (s.block b).grid).asid, pkey := (s.grid (s.block b).grid).pkey, place := cellPlace (quantumStart s b) k,
            sinfo := 5#64, sval := BitVec.ofInt 64 v, arg := ((quantumStart s b).block b).satOut + 1, grid := ((quantumStart s b).block b).grid }
      else runQuantum (quantumStart s b) b
    | none => runQuantum (quantumStart s b) b :=
  if_neg (by rw [h]; exact Bool.false_ne_true)

theorem endQuantum_runs (h : waitingWork s = false) (hq : ∀ k v, lowestQuota (quantumStart s b) (blockCells s b) = some (k, v) → 0 < v) :
    endQuantum s b = runQuantum (quantumStart s b) b := by
  rw [endQuantum_idle h]
  cases hl : lowestQuota (quantumStart s b) (blockCells s b) with
  | none => rfl
  | some q => exact if_neg (Int.not_le.2 (hq q.1 q.2 hl))

theorem exec_quantum_handling (h : handling s b = true ∨ ((s.block b).phase ≠ .running ∧ (s.block b).phase ≠ .sittingOut)) :
    exec (.quantumExpiry b) s = .next s := by
  show execQuantumExpiry b s = _
  unfold execQuantumExpiry
  dsimp only
  by_cases hh : handling s b = true
  · exact if_pos hh
  · obtain ⟨hr, hs⟩ := h.resolve_left hh
    rw [if_neg hh]
    cases hp : (s.block b).phase with
    | running => exact absurd hp hr
    | sittingOut => exact absurd hp hs
    | _ => rfl

theorem exec_quantum_due (h : handling s b = false) {d : BlockPhase} (hp : (s.block b).phase = .running) (hd : (s.block b).due = some d) :
    exec (.quantumExpiry b) s = .next (preempt s b d) := by
  show execQuantumExpiry b s = _
  unfold execQuantumExpiry
  dsimp only
  rw [if_neg (by rw [h]; exact Bool.false_ne_true), hp, hd]

theorem exec_quantum_running (h : handling s b = false) (hp : (s.block b).phase = .running) (hd : (s.block b).due = none) :
    exec (.quantumExpiry b) s = .next (if s.time < (s.block b).quantumEnd then s else endQuantum s b) := by
  show execQuantumExpiry b s = _
  unfold execQuantumExpiry
  dsimp only
  rw [if_neg (by rw [h]; exact Bool.false_ne_true), hp, hd]

theorem exec_quantum_sitting (h : handling s b = false) (hp : (s.block b).phase = .sittingOut) : exec (.quantumExpiry b) s =
    .next (if s.time < (s.block b).quantumEnd then s
      else if 16 ≤ (s.block b).satOut then contextKill s (s.block b).grid { kind := 1, sinfo := 5#64 }
      else endQuantum s b) := by
  show execQuantumExpiry b s = _
  unfold execQuantumExpiry
  dsimp only
  rw [if_neg (by rw [h]; exact Bool.false_ne_true), hp]
end

/-! ### Saving, eviction, the snapshot and migration (R64, R174, R197, R447) -/

theorem exec_place (s : State) : exec .dispatchPlace s = .next (
    let t := claimLau (claimRet s)
    match (if t.pkg.lastReturn then (tryLaunch t).orElse (fun _ => tryReturn t) else (tryReturn t).orElse (fun _ => tryLaunch t)) with
    | some u => u.setAgenda (Instr.dispatchPlace :: u.agenda)
    | none => t) := by
  show execDispatchPlace s = _
  unfold execDispatchPlace
  dsimp only
  generalize (if (claimLau (claimRet s)).pkg.lastReturn = true then
      (tryLaunch (claimLau (claimRet s))).orElse fun _ => tryReturn (claimLau (claimRet s))
    else (tryReturn (claimLau (claimRet s))).orElse fun _ => tryLaunch (claimLau (claimRet s))) = o
  cases o <;> rfl

theorem exec_save {s : State} {b l : Nat} (h : (s.cell (cellOf l)).block = some b) : exec (.strandSave l) s =
    .next (if ¬((s.block b).phase = .preempting ∧ frameHeld s b = false) then s
      else if (s.str l).st = .saved then savedCheck s b
      else if canSave s l = false then s
      else
        let t := withdraw (l1WriteBack s (cellOf l)) (cellOf l) (gangLanes s l)
        let u := modStrs t (gangLanes t l) (saveOne t.time)
        savedCheck (writeGangRecs u b ((placeIn u b (cellOf l)).getD 0) l) b) := by
  show execStrandSave l s = _
  unfold execStrandSave
  rw [h]
  simp only [apply_ite Host.Outcome.next]
  exact ite_iff (by rw [Classical.not_and_iff_not_or_not, Bool.not_eq_false]) rfl (ite_iff Iff.rfl rfl (ite_iff (by rw [Bool.not_eq_true']) rfl rfl))

theorem any_cellBad {s : State} {cs : List Nat} : cs.any (cellBad s) = true ↔ ∃ k ∈ cs, cellBad s k = true := List.any_eq_true

theorem exec_evict (s : State) (b : Nat) : exec (.evictionComplete b) s =
    .next (if ¬((s.block b).phase = .evicting ∧ deliveriesDone s b = true ∧ frameHeld s b = false) then s
      else if (blockCells s b).any (cellBad s) = true then killSave s b
      else if (spillAll s (heldBy s b)).2 = false then (spillAll s (heldBy s b)).1
      else
        let t := (spillAll s (heldBy s b)).1
        let cs := blockCells t b
        let u := cs.zipIdx.foldl (fun u q => writeRecord (l1WriteBack u q.1) b q.2 q.1) t
        let v := cs.foldl (fun v k => clearCell v b k) (putBlock u b { u.block b with
          phase := .evicted, saved := cs.zipIdx.map (fun q => (q.2, keepCell u q.1)), bound := true })
        v.setPkg { v.pkg with returns := v.pkg.returns ++ [b] }) := by
  show execEvictionComplete b s = _
  unfold execEvictionComplete
  simp only [apply_ite Host.Outcome.next]
  exact ite_iff (by rw [Classical.not_and_iff_not_or_not, Classical.not_and_iff_not_or_not, Bool.not_eq_true, Bool.not_eq_false, Bool.not_eq_true']) rfl
    (ite_iff Iff.rfl rfl (ite_iff (by rw [Bool.not_eq_true']) rfl rfl))

theorem exec_halt (s : State) (b : Nat) : exec (.haltSnapshotComplete b) s =
    .next (if ¬((s.block b).phase = .halting ∧ haltReady s b = true) then s
      else if (blockCells s b).any (cellBad s) = true then killSave s b
      else
        let t := (blockCells s b).zipIdx.foldl (fun t q => writeRecord (l1WriteBack t q.1) b q.2 q.1) s
        postLog (putBlock t b { t.block b with phase := .halted })
          { kind := 3, asid := (s.grid (s.block b).grid).asid, pkey := (s.grid (s.block b).grid).pkey, sval := word (s.block b).b,
            sinfo := word (framePa s b), grid := (s.block b).grid }) := by
  show execHaltSnapshotComplete b s = _
  unfold execHaltSnapshotComplete
  simp only [apply_ite Host.Outcome.next]
  exact ite_iff (by rw [Classical.not_and_iff_not_or_not, Bool.not_eq_true, Bool.not_eq_true']) rfl rfl

/-- A block stands on its new cells and goes on, or sits out (R197). -/
def migrated (s : State) (b : Nat) : State :=
  let x := s.block b
  let q := s.grid x.grid
  let cells := blockCells s b
  let dst := rectCells s.pkg.migTo.1 s.pkg.migTo.2 (gridW q) (gridH q)
  let moved := cells.zip dst
  let there := fun k => ((moved.find? (fun q => decide (q.1 = k))).map (·.2)).getD k
  let t1 := moved.foldl (fun t q => moveCell t b q.1 q.2) s
  let t2 := follow (putBlock t1 b { t1.block b with
    die := s.pkg.migTo.1, nw := s.pkg.migTo.2, bound := true, quantumEnd := t1.time + x.quantumLeft }) b there
  let t3 := dst.foldl (fun t k => bankCheck t k (decide (holdsGang t k ≠ (t.cell k).bank)) (heldIn t k)) t2
  let t4 := (heldBy t3 b).foldl (fun t q =>
    let o := ((moved.find? (fun z => decide (z.2 = cellOf q))).map (·.1)).getD (cellOf q)
    recheckSpilled t q (64 * o + posInCell q) (blockKey t b)) t3
  if x.sitting = true then putBlock t4 b { t4.block b with phase := .sittingOut } else resumeBlock t4 b

/-- A migration has ended. -/
def migDone (t : State) : State := t.setPkg { t.pkg with migBusy := none }

theorem exec_migrate {s : State} {b : Nat} (h : s.pkg.migBusy = some b) : exec .migrationComplete s =
    .next (if (s.block b).phase = .gone then migDone s
      else if (s.block b).phase ≠ .migrating ∨ deliveriesDone s b = false then s
      else if (blockCells s b).any (cellBad s) = true then migDone (killSave s b)
      else migDone (if (rectCells s.pkg.migTo.1 s.pkg.migTo.2 (gridW (s.grid (s.block b).grid)) (gridH (s.grid (s.block b).grid))).any
            (fun k => (s.block b).slots.any (fun i => ((migrated s b).cell k).slotmask.getLsbD i)) = true
          then preempt (migrated s b) b .evicting else migrated s b)) := by
  show execMigrationComplete s = _
  unfold execMigrationComplete
  rw [h]
  simp only [apply_ite Host.Outcome.next]
  exact ite_iff Iff.rfl rfl (ite_iff (or_congr_right (by rw [Bool.not_eq_true'])) rfl (ite_iff Iff.rfl rfl rfl))

/-! ### Grids, stalls and starvation (R400, R477, R478, R482, R483) -/

theorem exec_grid (s : State) (g : Nat) : exec (.gridComplete g) s =
    .next (if gridDone s g = false ∨ doneHeld s g = true then s else addDone (putGrid s g { s.grid g with live := false }) g) := by
  show execGridComplete g s = _
  unfold execGridComplete
  rw [apply_ite Host.Outcome.next]
  exact ite_iff (or_congr_left (by rw [Bool.not_eq_true'])) rfl rfl

theorem exec_stall (s : State) (p : Nat) : exec (.stallDetect p) s =
    .next (if ¬(isParked (s.str p) = true ∧ (s.str p).stallMade = false ∧ 2 ^ 24 ≤ parkedTime s (s.str p)) then s
      else postSq (modStr s p (fun u => { u with stallMade := true })) (cellOf p) { recAt s p 7 with
        addr := (s.str p).pc, sinfo := 1#64, sval := word (parkCode (s.str p).park), arg := Nat.min (parkedTime s (s.str p)) (2 ^ 32 - 1) }) := by
  show execStallDetect p s = _
  unfold execStallDetect
  dsimp only
  rw [apply_ite Host.Outcome.next]
  exact ite_iff (by rw [Classical.not_and_iff_not_or_not, Classical.not_and_iff_not_or_not, Bool.not_eq_true, Bool.not_eq_false, Bool.not_eq_true', Nat.not_le]) rfl rfl

theorem exec_blockstall (s : State) (b : Nat) : exec (.blockstallDetect b) s =
    .next (if ¬(onCells (s.block b).phase = true ∧ (s.block b).stallMade = false ∧ 2 ^ 24 ≤ s.time - (s.block b).lastIssue) then s
      else postLog (putBlock s b { s.block b with stallMade := true })
        { recAt s (64 * ((s.block b).die * 160 + (s.block b).nw) + 16 * (s.block b).slots.headD 0) 7 with
          sinfo := 2#64, sval := word (s.block b).b, arg := (heldBy s b).countP (fun q => decide (liveSt (s.str q) ≠ .retired)) }) := by
  show execBlockstallDetect b s = _
  unfold execBlockstallDetect
  dsimp only
  rw [apply_ite Host.Outcome.next]
  exact ite_iff (by rw [Classical.not_and_iff_not_or_not, Classical.not_and_iff_not_or_not, Bool.not_eq_true, Bool.not_eq_false, Bool.not_eq_true', Nat.not_le]) rfl rfl

theorem exec_starve {s : State} {c : Nat} {r : TokReq} {rest : List TokReq} (h : (s.cell c).reqs = r :: rest) : exec (.starveDetect c) s =
    .next (let bad := decide ((s.die (dieOf c)).total < r.price ∨ (s.die (dieOf c)).cap < r.price)
      let t := putCell s c { s.cell c with reqs := { r with judged := true, unpayable := bad } :: rest, starveMade := false }
      if r.judged = false then (if bad then postLog t (starveRec s c 4 r) else t)
      else if ¬(r.unpayable = false ∧ (s.cell c).starveMade = false ∧ starveFrom s c r + starveBound (s.die (dieOf c)).retain < s.time) then s
      else postLog (putCell s c { s.cell c with starveMade := true }) (starveRec s c 3 r)) := by
  show execStarveDetect c s = _
  unfold execStarveDetect
  dsimp only
  generalize hx : s.cell c = x at h ⊢
  split
  · rename_i hn
    rw [hn] at h; cases h
  · rename_i r' rest' hr
    obtain ⟨rfl, rfl⟩ := List.cons.inj (hr.symm.trans h)
    simp only [apply_ite Host.Outcome.next]
    exact ite_iff (by rw [Bool.not_eq_true']) rfl
      (ite_iff (by rw [Classical.not_and_iff_not_or_not, Classical.not_and_iff_not_or_not, Bool.not_eq_false, Bool.not_eq_false, Nat.not_lt]) rfl rfl)

/-! ### Launches (R396, R398, R399, R446, R510) -/

theorem exec_launch (s : State) (win off size : Nat) (rec : BitVec 512) : exec (.launch win off size rec) s =
    .next (if s.pkg.stage < 6 then s
      else if ¬(size = 64 ∧ off = 0) then launchRefused s win 1 0#64
      else if ¬(2 ^ 63 ≤ (tget 0#64 s.pkg.lwbind win).toNat ∧ s.pkg.alarmLevel < 3) then launchRefused s win 2 (word (recDw rec.toNat 0))
      else if ¬(recAsid rec.toNat = (tget 0#64 s.pkg.lwbind win).toNat % 65536 ∧
          (recPkey rec.toNat).toNat = field (tget 0#64 s.pkg.lwbind win).toNat 32 16) then launchRefused s win 3 (word (recDw rec.toNat 0))
      else
        let prio := Nat.min (recPrio rec.toNat) (field (tget 0#64 s.pkg.lwbind win).toNat 48 3)
        if recordOk s rec.toNat (recAsid rec.toNat) prio = true then
          queueGrid s (gridOf rec.toNat (recAsid rec.toNat) (recPkey rec.toNat) prio)
        else launchRefused s win 4 (word (recDw rec.toNat 0))) := by
  show execLaunch win off size rec s = _
  unfold execLaunch
  simp only [apply_ite Host.Outcome.next]
  exact ite_iff Iff.rfl rfl (ite_iff (by rw [Classical.not_and_iff_not_or_not]) rfl (ite_iff (by rw [Classical.not_and_iff_not_or_not, Nat.not_le, Nat.not_lt]) rfl
    (ite_iff (by rw [Classical.not_and_iff_not_or_not]) rfl rfl)))

/-- Settles O48. -/
theorem blocksAndGrids : Obligations.BlocksAndGrids := by
  intro s b p c g l win off size rec idle x q cells bad
  have hbad : cells.any (cellBad s) = true ↔ bad := any_cellBad
  refine ⟨exec_place s, ?_, ?_, ?_, ?_, ?_, fun h => (exec_grid s g).trans (congrArg _ (if_pos h)),
    fun hd hh => (exec_grid s g).trans (congrArg _ (if_neg (by simp [hd, hh]))), ?_, ?_, fun h => ?_, fun r rest h => ?_, ?_⟩
  · intro goes ends
    have hends : exec (.quantumExpiry b) s = .next (endQuantum s b) → ends := fun hx => by
      refine ⟨fun hw => hx.trans (congrArg _ (endQuantum_waiting hw)), fun hw => ?_⟩
      intro t u
      refine ⟨fun hq => hx.trans (congrArg _ (endQuantum_runs hw hq)), fun k v hl hv => hx.trans (congrArg _ ?_)⟩
      rw [endQuantum_idle hw, show lowestQuota (quantumStart s b) (blockCells s b) = some (k, v) from hl]
      exact if_pos hv
    refine ⟨exec_quantum_handling, fun hh => ⟨fun d hp hd => exec_quantum_due hh hp hd, fun hp ht => ?_, fun hp hd ht => ?_,
      fun hp ht => ⟨fun h16 => ?_, fun h16 => ?_⟩⟩⟩
    · rcases hp with ⟨hp, hd⟩ | hp
      · exact (exec_quantum_running hh hp hd).trans (congrArg _ (if_pos ht))
      · exact (exec_quantum_sitting hh hp).trans (congrArg _ (if_pos ht))
    · exact hends ((exec_quantum_running hh hp hd).trans (congrArg _ (if_neg (Nat.not_lt.2 ht))))
    · exact (exec_quantum_sitting hh hp).trans (congrArg _ ((if_neg (Nat.not_lt.2 ht)).trans (if_pos h16)))
    · exact hends ((exec_quantum_sitting hh hp).trans (congrArg _ ((if_neg (Nat.not_lt.2 ht)).trans (if_neg (Nat.not_le.2 h16)))))
  · intro k
    refine ⟨fun h => ?_, fun h => ?_⟩
    · show execStrandSave l s = _
      unfold execStrandSave
      rw [h]
    · intro ready
      have hx := exec_save h
      exact ⟨fun hr => hx.trans (congrArg _ (if_pos hr)),
        fun hr hs => hx.trans (congrArg _ ((if_neg (Classical.not_not.2 hr)).trans (if_pos hs))),
        fun hr hs hc => hx.trans (congrArg _ ((if_neg (Classical.not_not.2 hr)).trans ((if_neg hs).trans (if_pos hc)))),
        fun hr hs hc => hx.trans (congrArg _ ((if_neg (Classical.not_not.2 hr)).trans ((if_neg hs).trans (if_neg (by simp [hc])))))⟩
  · intro ready goes r
    have hx := exec_evict s b
    exact ⟨fun hr => hx.trans (congrArg _ (if_pos hr)),
      fun hr hb => hx.trans (congrArg _ ((if_neg (Classical.not_not.2 hr)).trans (if_pos (hbad.2 hb)))),
      fun hr hb hs => hx.trans (congrArg _ ((if_neg (Classical.not_not.2 hr)).trans ((if_neg (mt hbad.1 hb)).trans (if_pos hs)))),
      fun hr hb hs => hx.trans (congrArg _ ((if_neg (Classical.not_not.2 hr)).trans ((if_neg (mt hbad.1 hb)).trans
        (if_neg (by rw [Bool.not_eq_false]; exact hs)))))⟩
  · intro ready goes
    have hx := exec_halt s b
    exact ⟨fun hr => hx.trans (congrArg _ (if_pos hr)),
      fun hr hb => hx.trans (congrArg _ ((if_neg (Classical.not_not.2 hr)).trans (if_pos (hbad.2 hb)))),
      fun hr hb => hx.trans (congrArg _ ((if_neg (Classical.not_not.2 hr)).trans (if_neg (mt hbad.1 hb))))⟩
  · intro goes done
    refine ⟨fun h => ?_, fun h => ?_⟩
    · show execMigrationComplete s = _
      unfold execMigrationComplete
      rw [h]
    · have hx := exec_migrate h
      have hgone : x.phase = .migrating → x.phase ≠ .gone := fun hm hg => by rw [hm] at hg; cases hg
      have hready : x.phase = .migrating → deliveriesDone s b = true → ¬(x.phase ≠ .migrating ∨ deliveriesDone s b = false) :=
        fun hm hd => by simp [hm, hd]
      refine ⟨fun hg => hx.trans (congrArg _ (if_pos hg)), fun hg hn => hx.trans (congrArg _ ((if_neg hg).trans (if_pos hn))),
        fun hm hd hb => hx.trans (congrArg _ ((if_neg (hgone hm)).trans ((if_neg (hready hm hd)).trans (if_pos (hbad.2 hb))))),
        fun hm hd hb => ?_⟩
      intro dst moved there t1 t2 t3 t4 t5 removed
      have hrem : dst.any (fun k => x.slots.any (fun i => ((migrated s b).cell k).slotmask.getLsbD i)) = true ↔ removed := by
        simp only [List.any_eq_true]
        exact Iff.rfl
      have hx' := hx.trans (congrArg _ ((if_neg (hgone hm)).trans ((if_neg (hready hm hd)).trans (if_neg (mt hbad.1 hb)))))
      exact ⟨fun hr => hx'.trans (congrArg _ (congrArg migDone (if_pos (hrem.2 hr)))),
        fun hr => hx'.trans (congrArg _ (congrArg migDone (if_neg (mt hrem.1 hr))))⟩
  · intro due
    exact ⟨fun hd => (exec_stall s p).trans (congrArg _ (if_pos hd)), fun hd => (exec_stall s p).trans (congrArg _ (if_neg (Classical.not_not.2 hd)))⟩
  · intro due
    exact ⟨fun hd => (exec_blockstall s b).trans (congrArg _ (if_pos hd)),
      fun hd => (exec_blockstall s b).trans (congrArg _ (if_neg (Classical.not_not.2 hd)))⟩
  · show execStarveDetect c s = _
    unfold execStarveDetect
    dsimp only
    rw [h]
  · intro bad t due
    have hx := exec_starve h
    exact ⟨fun hj => hx.trans (congrArg _ (if_pos hj)),
      fun hj hd => hx.trans (congrArg _ ((if_neg (by simp [hj])).trans (if_pos hd))),
      fun hj hd => hx.trans (congrArg _ ((if_neg (by simp [hj])).trans (if_neg (Classical.not_not.2 hd))))⟩
  · intro r w prio goes whole bound same dw
    have hx := exec_launch s win off size rec
    refine ⟨fun h6 => hx.trans (congrArg _ (if_pos h6)), fun h6 => ?_⟩
    have h6' := Nat.not_lt.2 h6
    exact ⟨fun hw => hx.trans (congrArg _ ((if_neg h6').trans (if_pos hw))),
      fun hw hb => hx.trans (congrArg _ ((if_neg h6').trans ((if_neg (Classical.not_not.2 hw)).trans (if_pos hb)))),
      fun hw hb hs => hx.trans (congrArg _ ((if_neg h6').trans ((if_neg (Classical.not_not.2 hw)).trans ((if_neg (Classical.not_not.2 hb)).trans (if_pos hs))))),
      fun hw hb hs hr => hx.trans (congrArg _ ((if_neg h6').trans ((if_neg (Classical.not_not.2 hw)).trans ((if_neg (Classical.not_not.2 hb)).trans
        ((if_neg (Classical.not_not.2 hs)).trans (if_neg (by rw [hr]; exact Bool.false_ne_true))))))),
      fun hw hb hs hr => hx.trans (congrArg _ ((if_neg h6').trans ((if_neg (Classical.not_not.2 hw)).trans ((if_neg (Classical.not_not.2 hb)).trans
        ((if_neg (Classical.not_not.2 hs)).trans (if_pos hr))))))⟩

end Sys2Proof.Machine
end

section
/-!
PROOFS. Reset, boot and the registers of the device (spec/14_host_fabric_and_boot.md R391 to R405,
spec/07_scheduling_and_ring_road.md R183, R186, R195 to R197, spec/22_power_and_security_failures.md R509 to R511).
-/
namespace Sys2Proof.Machine

open Sys2Proof

theorem served_iff (s : State) : served s = true ↔ s.pkg.stage = 6 := decide_eq_true_iff

/-! ### Boot (R403, R404, R511) -/

/-- A stage that ends without a code goes on. -/
def stageOn (s : State) : State :=
  s.setPkg { s.pkg with stage := s.pkg.stage + 1, bootErr := if s.pkg.stage = 5 then 0 else s.pkg.bootErr }

theorem exec_boot (s : State) (code : BitVec 8) : exec (.bootStageComplete code) s =
    .next (if s.pkg.stage = 6 ∨ s.pkg.dead = true ∨ (s.pkg.bootErr ≠ 0 ∧ s.pkg.bootErr ≠ 16) then s
      else if stageFails s.pkg.stage code ≠ 0 then s.setPkg { s.pkg with bootErr := stageFails s.pkg.stage code }
      else stageOn s) := by
  show execBootStageComplete code s = _
  unfold execBootStageComplete stageOn
  simp only [apply_ite Host.Outcome.next, served_iff]
  refine ite_iff Iff.rfl rfl (ite_iff Iff.rfl rfl ?_)
  have h6 : (s.pkg.stage + 1 = 6) = (s.pkg.stage = 5) := propext (by omega)
  simp only [h6]

theorem stageFails_two (code : BitVec 8) : stageFails 2 code = imgRefused Config.bootImage 1 2 := if_pos rfl
theorem stageFails_four (code : BitVec 8) : stageFails 4 code = imgRefused Config.devImage 4 5 :=
  (if_neg (by decide)).trans ((if_neg (by decide)).trans (if_pos rfl))
theorem stageFails_three : stageFails 3 3#8 = 3 := (if_neg (by decide)).trans ((if_pos rfl).trans (if_pos rfl))

/-- Other stages end well. -/
theorem stageFails_none {n : Nat} {code : BitVec 8} (h2 : n ≠ 2) (h4 : n ≠ 4) (h3 : ¬(n = 3 ∧ code = 3#8)) : stageFails n code = 0 := by
  unfold stageFails
  rw [if_neg h2]
  by_cases hn : n = 3
  · rw [if_pos hn]
    exact if_neg fun hc => h3 ⟨hn, hc⟩
  · rw [if_neg hn, if_neg h4]

theorem stageOn_eq {s : State} {n : Nat} (hn : s.pkg.stage = n) (h5 : n ≠ 5) : stageOn s = s.setPkg { s.pkg with stage := n + 1 } := by
  unfold stageOn
  rw [if_neg (by rw [hn]; exact h5), hn]

theorem imgRefused_sound (m : FwImage) (sig version : Nat) :
    let signed := imgForm m.bytes = true ∧ Config.ecdsaOk m.key (Config.sha512 (imgSigned m.bytes)) (imgSig m.bytes) = true ∧
      Config.sha512 (keyBytes m.key) = Config.keyHash
    (¬signed → imgRefused m sig version = sig) ∧
    (signed → imgVersion m.bytes < Config.minVersion.toNat → imgRefused m sig version = version) ∧
    (signed → Config.minVersion.toNat ≤ imgVersion m.bytes → imgRefused m sig version = 0) := by
  intro signed
  have hsig : (!imgForm m.bytes || !Config.ecdsaOk m.key (Config.sha512 (imgSigned m.bytes)) (imgSig m.bytes)) = true ↔
      ¬(imgForm m.bytes = true ∧ Config.ecdsaOk m.key (Config.sha512 (imgSigned m.bytes)) (imgSig m.bytes) = true) := by
    rw [Classical.not_and_iff_not_or_not, Bool.or_eq_true, Bool.not_eq_true', Bool.not_eq_true', Bool.not_eq_true, Bool.not_eq_true]
  unfold imgRefused
  refine ⟨fun hn => ?_, fun ⟨hf, he, hk⟩ hv => ?_, fun ⟨hf, he, hk⟩ hv => ?_⟩
  · by_cases h : imgForm m.bytes = true ∧ Config.ecdsaOk m.key (Config.sha512 (imgSigned m.bytes)) (imgSig m.bytes) = true
    · rw [if_neg (mt hsig.1 (Classical.not_not.2 h))]
      exact if_pos fun hk => hn ⟨h.1, h.2, hk⟩
    · exact if_pos (hsig.2 h)
  · rw [if_neg (mt hsig.1 (Classical.not_not.2 ⟨hf, he⟩)), if_neg (Classical.not_not.2 hk)]
    exact if_pos hv
  · rw [if_neg (mt hsig.1 (Classical.not_not.2 ⟨hf, he⟩)), if_neg (Classical.not_not.2 hk)]
    exact if_neg (Nat.not_lt.2 hv)

/-! ### Registers of the package, the die and the cells -/

section
variable {s : State} {v : Word}

theorem putAttctl_starts (hb : s.pkg.attBusy = false) : putAttctl s v =
    let t := s.setPkg { s.pkg with attBuf := v &&& 0xFFFFFFFFFF000#64 }
    if v.getLsbD 63 = false then t
    else if tableLoc t.pkg.attBuf.toNat = none then alarm t 1 0
    else t.setPkg { t.pkg with attBusy := true, attDue := s.time + s.pace.fabric } := by
  unfold putAttctl
  rw [if_neg (by rw [hb]; exact Bool.false_ne_true)]
  exact ite_iff (by rw [Bool.not_eq_true']) rfl (ite_iff Option.isNone_iff_eq_none rfl rfl)

theorem putMigcmd_off (h : v.getLsbD 63 = false) : putMigcmd s v = s.setPkg { s.pkg with migcmd := v &&& 0xFFFFF000#64 } :=
  if_pos (by rw [h]; rfl)

theorem putMigcmd_refused {r : Nat} (h : v.getLsbD 63 = true)
    (hr : migRefused s (blockAtCorner s (field v.toNat 30 2) (field v.toNat 22 8)) (field v.toNat 20 2) (field v.toNat 12 8) = some r) :
    putMigcmd s v = postLog (s.setPkg { s.pkg with migcmd := v &&& 0xFFFFF000#64 }) { kind := 9, sinfo := 5#64, sval := word v.toNat, arg := r } := by
  unfold putMigcmd
  dsimp only
  rw [if_neg (by simp [h]), hr]
  rfl

theorem putMigcmd_starts {b : Nat} (h : v.getLsbD 63 = true)
    (hr : migRefused s (blockAtCorner s (field v.toNat 30 2) (field v.toNat 22 8)) (field v.toNat 20 2) (field v.toNat 12 8) = none)
    (hb : blockAtCorner s (field v.toNat 30 2) (field v.toNat 22 8) = some b) : putMigcmd s v =
      let t := s.setPkg { s.pkg with migcmd := v &&& 0xFFFFF000#64 }
      let u := t.setPkg { t.pkg with migBusy := some b, migTo := (field v.toNat 20 2, field v.toNat 12 8) }
      preempt (putBlock u b { u.block b with quantumLeft := (u.block b).quantumEnd - u.time }) b .migrating := by
  unfold putMigcmd
  dsimp only
  rw [if_neg (by simp [h]), hr, hb]

theorem putCfence_clears {c : Nat} (h : v.getLsbD 0 = false) : putCfence s c v = putCell s c { s.cell c with fenced := false } := by
  unfold putCfence
  rw [h]
  rfl

theorem putCfence_sets {c : Nat} (h : v.getLsbD 0 = true) : putCfence s c v =
    let t := putCell s c { s.cell c with fenced := true }
    let out := t.pkg.returns.filter (fun b => (t.block b).bound && (blockCells t b).any (fun d => (t.cell d).fenced))
    let u := out.foldl (fun w b => putBlock w b { w.block b with bound := false }) t
    u.setPkg { u.pkg with
      returns := out ++ u.pkg.returns.filter (fun b => !out.contains b)
      retClaim := match u.pkg.retClaim with | some r => if out.contains r.1 then none else some r | none => none } := by
  unfold putCfence
  rw [h]
  rfl

theorem putRailsel_idle {c : Nat} (h : (s.cell c).railTo ≠ none ∨ v.getLsbD 0 = (s.cell c).high) : putRailsel s c v = s :=
  if_pos (h.imp_left Option.isSome_iff_ne_none.2)

theorem putRailsel_starts {c : Nat} (h : (s.cell c).railTo = none) (hv : v.getLsbD 0 ≠ (s.cell c).high) : putRailsel s c v =
    putCell s c { s.cell c with cycBase := cyc s c, railTo := some (v.getLsbD 0), railDue := s.time + s.pace.rail } :=
  if_neg (not_or.2 ⟨by simp [h], hv⟩)

/-! ### Writes by offset (R391) -/

theorem putRegister_lqcfg {off : Nat} (h : 0x40 ≤ off ∧ off < 0x80) :
    putRegister s off v = s.setPkg { s.pkg with lqcfg := tset s.pkg.lqcfg ((off - 0x40) / 8) (v.toNat % 16) } := by
  simp (disch := omega) only [putRegister, if_neg, if_pos]

theorem putRegister_lwbind {off : Nat} (h : 0x20000 ≤ off ∧ off < 0x28000) : putRegister s off v =
    s.setPkg { s.pkg with lwbind := tset s.pkg.lwbind ((off - 0x20000) / 8) (v &&& 0x8007FFFF0000FFFF#64) } := by
  simp (disch := omega) only [putRegister, if_neg, if_pos]

theorem putRegister_dcap {off : Nat} (h : 0x400000 ≤ off ∧ off < 0x800000) : putRegister s off v =
    s.setPkg { s.pkg with dcap := tset s.pkg.dcap ((off - 0x400000) / 8) (if v.getLsbD 62 then v else v &&& ~~~0x3000000#64) } := by
  simp (disch := omega) only [putRegister, if_neg, if_pos, dcapBits, capMc]
  rfl

theorem exec_register {off : Nat} (hd : s.pkg.dead = false) (ho : off < mailbox) (h8 : off % 8 = 0) (hs : s.pkg.stage = 6) :
    exec (.registerWrite off v) s = .next (putRegister s off v) :=
  (if_neg (by simp [hd])).trans ((if_neg (Nat.not_le.2 ho)).trans (if_pos ⟨(served_iff s).2 hs, h8⟩))

theorem exec_register_unserved {off : Nat} (ho : off < mailbox) (hs : s.pkg.stage ≠ 6) : exec (.registerWrite off v) s = .next s := by
  show execRegisterWrite off v s = _
  unfold execRegisterWrite
  have hserved : ¬(served s = true ∧ off % 8 = 0) := fun h => hs ((served_iff s).1 h.1)
  rw [if_neg (Nat.not_le.2 ho), if_neg hserved, ite_self]
end

/-! ### Reports and rails (R196, R405, R502) -/

theorem exec_report {s : State} (hb : s.pkg.attBusy = true) : exec .attestationReportDone s =
    .next (match tableLoc s.pkg.attBuf.toNat with
      | none => s.setPkg { s.pkg with attBusy := false }
      | some a =>
        if s.pkg.hostUp = false ∧ 2 ^ 50 ≤ s.pkg.attBuf.toNat then s
        else
          let t := writeDwords s a ((List.range 52).map (fun i => field (reportBytes s) (64 * i) 64))
          t.setPkg { t.pkg with attBusy := false }) := by
  show execAttestationReportDone s = _
  unfold execAttestationReportDone
  rw [if_neg (by rw [hb]; exact Bool.false_ne_true)]
  cases tableLoc s.pkg.attBuf.toNat with
  | none => rfl
  | some a =>
    simp only [apply_ite Host.Outcome.next]
    exact ite_iff (and_congr_left' (by rw [Bool.not_eq_true'])) rfl rfl

theorem exec_switch {s : State} {c : Nat} {h : Bool} (hr : (s.cell c).railTo = some h) : exec (.railSwitchComplete c) s =
    .next (if s.time < (s.cell c).railDue then s
      else
        let t := putCell s c { s.cell c with high := h, railTo := none, cycBase := (s.cell c).cycBase + 24, cycAt := s.time }
        match (s.cell c).block with
        | some b => killHeld t b
        | none => t) := by
  show execRailSwitchComplete c s = _
  unfold execRailSwitchComplete
  dsimp only
  generalize s.cell c = x at hr ⊢
  rw [hr]
  dsimp only
  rw [apply_ite Host.Outcome.next]
  refine ite_iff Iff.rfl rfl ?_
  cases x.block <;> rfl

/-- Settles O49. -/
theorem deviceRegisters : Obligations.DeviceRegisters := by
  intro s v c die off code on idle
  have hon : served s = true ↔ on := served_iff s
  have hoff : ¬on → ∀ x : State, Host.Outcome.next (if served s then x else s) = (.next s : Host.Outcome State Fault Refusal) := fun h x =>
    congrArg Host.Outcome.next (if_neg (mt hon.1 h))
  have hgo : on → ∀ x : State, Host.Outcome.next (if served s then x else s) = (.next x : Host.Outcome State Fault Refusal) := fun h x =>
    congrArg Host.Outcome.next (if_pos (hon.2 h))
  have hoffAt : ∀ {p : Prop} [Decidable p], ¬(on ∧ p) → ∀ x : State,
      Host.Outcome.next (if served s = true ∧ p then x else s) = (.next s : Host.Outcome State Fault Refusal) := fun h x =>
    congrArg Host.Outcome.next (if_neg fun k => h ⟨hon.1 k.1, k.2⟩)
  have hgoAt : ∀ {p : Prop} [Decidable p], on → p → ∀ x : State,
      Host.Outcome.next (if served s = true ∧ p then x else s) = (.next x : Host.Outcome State Fault Refusal) := fun h hp x =>
    congrArg Host.Outcome.next (if_pos ⟨hon.2 h, hp⟩)
  refine ⟨rfl, fun h hv => ?_, fun h => ?_, ?_, imgRefused_sound, fun h => ?_, fun h hb => ?_, fun h hb => ?_, fun hb => ?_, fun hb ht => ?_,
    fun a hb ht => ?_, fun h => ?_, fun hd ho => ?_, fun hd ho hs => ?_, fun h => ?_, fun h hr ht => ?_⟩
  · exact congrArg Host.Outcome.next (if_pos (by rw [hon.2 h, hv]; rfl))
  · refine congrArg Host.Outcome.next (if_neg fun k => ?_)
    obtain ⟨hs, hv⟩ := (Bool.and_eq_true _ _).mp k
    rcases h with h | h
    · exact h (hon.1 hs)
    · rw [hv] at h; cases h
  · intro n stopped fails image
    have hx := exec_boot s code
    refine ⟨fun hstop => hx.trans (congrArg _ (if_pos hstop)), fun hgo => ?_⟩
    have hx' := hx.trans (congrArg _ (if_neg hgo))
    have hfails : ∀ k, stageFails n code = k → k ≠ 0 → fails k := fun k hk h0 => by
      rw [← hk]
      exact hx'.trans (congrArg _ (if_pos (hk ▸ h0)))
    have hgoes : stageFails n code = 0 → exec (.bootStageComplete code) s = .next (stageOn s) := fun hk =>
      hx'.trans (congrArg _ (if_neg (Classical.not_not.2 hk)))
    have himage : ∀ (m : FwImage) (sig version : Nat), stageFails n code = imgRefused m sig version → n ≠ 5 → image m sig version :=
      fun m sig version hk h5 => ⟨fun h0 => (hgoes (hk.trans h0)).trans (congrArg _ (stageOn_eq rfl h5)), fun h0 => hfails _ hk h0⟩
    refine ⟨fun h2 => ?_, fun h4 => ?_, fun h3 hc => ?_, fun h2 h4 h3 => hgoes (stageFails_none h2 h4 h3)⟩
    · exact himage _ _ _ (by rw [h2]; exact stageFails_two code) (by omega)
    · exact himage _ _ _ (by rw [h4]; exact stageFails_four code) (by omega)
    · exact hfails 3 (by rw [h3, hc]; exact stageFails_three) (by decide)
  · exact ⟨hoff h _, hoff h _, hoffAt (fun k => h k.1) _, hoffAt (fun k => h k.1) _, hoffAt (fun k => h k.1) _, hoffAt (fun k => h k.1) _,
      hoff h _, fun ho => exec_register_unserved ho h⟩
  · exact (hgo h _).trans (congrArg _ (if_pos hb))
  · intro t
    have hx : exec (.attctlGo v) s = _ := (hgo h _).trans (congrArg _ (putAttctl_starts hb))
    exact ⟨fun hv => hx.trans (congrArg _ (if_pos hv)), fun hv ht => hx.trans (congrArg _ ((if_neg (by simp [hv])).trans (if_pos ht))),
      fun hv ht => hx.trans (congrArg _ ((if_neg (by simp [hv])).trans (if_neg ht)))⟩
  · exact if_pos (by rw [hb]; rfl)
  · have hx := exec_report hb
    rw [ht] at hx
    exact hx
  · have hx := exec_report hb
    rw [ht] at hx
    refine ⟨fun hh => hx.trans (congrArg _ (if_pos hh)), fun hh => hx.trans (congrArg _ (if_neg fun k => ?_))⟩
    rcases hh with hh | hh
    · rw [k.1] at hh; cases hh
    · exact absurd k.2 (Nat.not_le.2 hh)
  · refine ⟨?_, fun hc hr => ?_, fun hc hr hv => ?_, fun hc => ?_, fun hc hv => ?_, fun hc hv => ?_, fun hc => ?_,
      fun hd => ?_, fun hd => ?_, ?_, fun hd => ?_⟩
    · intro t k why
      exact ⟨fun hv => (hgo h _).trans (congrArg _ (putMigcmd_off hv)), fun r hv hw => (hgo h _).trans (congrArg _ (putMigcmd_refused hv hw)),
        fun b hv hw hk => (hgo h _).trans (congrArg _ (putMigcmd_starts hv hw hk))⟩
    · exact (hgoAt h hc _).trans (congrArg _ (putRailsel_idle hr))
    · exact (hgoAt h hc _).trans (congrArg _ (putRailsel_starts hr hv))
    · exact hgoAt h hc _
    · exact (hgoAt h hc _).trans (congrArg _ (putCfence_clears hv))
    · exact (hgoAt h hc _).trans (congrArg _ (putCfence_sets hv))
    · have hno : ¬(on ∧ c < 640) := fun k => absurd k.2 (Nat.not_lt.2 hc)
      exact ⟨hoffAt hno _, hoffAt hno _, hoffAt hno _⟩
    · exact hoffAt (fun k => absurd k.2 (Nat.not_lt.2 hd)) _
    · exact hgoAt h hd _
    · exact hgo h _
    · have hmail : ∀ n, n < 2 ^ 32 → n < mailbox := fun n hn => Nat.lt_trans hn (by decide)
      refine ⟨(exec_register hd (by decide) (by decide) h).trans rfl, fun ho => ?_, fun h1 h2 h8 => ?_, fun h1 h2 h8 => ?_⟩
      · have hr : 0x40 ≤ off ∧ off < 0x80 ∧ off % 8 = 0 := by omega
        obtain ⟨h1, h2, h8⟩ := hr
        exact (exec_register hd (hmail off (by omega)) h8 h).trans (congrArg _ (putRegister_lqcfg ⟨h1, h2⟩))
      · exact (exec_register hd (hmail off (by omega)) h8 h).trans (congrArg _ (putRegister_lwbind ⟨h1, h2⟩))
      · exact (exec_register hd (hmail off (by omega)) h8 h).trans (congrArg _ (putRegister_dcap ⟨h1, h2⟩))
  · exact if_pos ⟨hd, ho⟩
  · exact (if_neg (by simp [hd])).trans ((if_pos ho).trans (congrArg _ (if_neg (by rw [hs]; exact Bool.false_ne_true))))
  · rcases h with h | h
    · show execRailSwitchComplete c s = _
      unfold execRailSwitchComplete
      dsimp only
      rw [h]
    · cases hr : (s.cell c).railTo with
      | none =>
        show execRailSwitchComplete c s = _
        unfold execRailSwitchComplete
        dsimp only
        rw [hr]
      | some b => exact (exec_switch hr).trans (congrArg _ (if_pos h))
  · exact (exec_switch hr).trans (congrArg _ (if_neg (Nat.not_lt.2 ht)))

end Sys2Proof.Machine
end

section
/-!
PROOFS. Flits, ports, hops, the host link and host accesses (spec/21_fabric_and_link_errors.md R496 to R502,
spec/14_host_fabric_and_boot.md R390, R406 to R408, spec/04_memory_hierarchy.md R120).
-/
namespace Sys2Proof.Machine

open Sys2Proof

/-! ### Flits (R407, R498, R500) -/

/-- A flit that a port of a live package takes. -/
theorem exec_flit {s : State} {port : Nat} {f : BitVec 512} {op : AmoOp} (hen : s.pkg.fabEn = true) (hup : portUp (portOf s port) = true)
    (hd : s.pkg.dead = false) (hg : flitGood f = true) (hdst : flitDst f = s.pkg.pkgnum) :
    exec (.flitReceive port f op) s =
      if flitType f = 2 ∨ flitType f = 4 ∨ flitType f = 6 then
        (match tfind s.pkg.reqs (reqKey (flitSrc f) (flitTag f)) with
          | none => .next s
          | some q => .next (completeReq s (reqKey q.dst (flitTag q.flit)) q (flitData f)
              (if flitMask f = 0#32 ∧ flitMask q.flit ≠ 0#32 then some ((flitData f).toNat % 256) else none)))
      else
        match s.pkg.served.find? (fun x => decide (x.src = flitSrc f ∧ x.tag = flitTag f ∧ s.time < x.time + 4 * s.pkg.e2etime)) with
        | some x => .next (sendOn s port x.reply)
        | none =>
          if flitType f = 1 ∨ flitType f = 3 ∨ flitType f = 5 then .next (serveMemory s port f op)
          else if flitType f = 7 then .next (serveDelivery s port f)
          else if flitType f = 8 then .next (serveMessage s port f)
          else if flitType f = 9 then .next (replyWith s port f 4 0#256 (BitVec.allOnes 32))
          else if flitType f = 10 then .next (serveNotice s port f)
          else .next s := by
  show execFlitReceive port f op s = _
  unfold execFlitReceive
  dsimp only
  rw [if_neg (by simp [hen, hup, hd]), if_neg (by simp [hg]), if_neg (Classical.not_not.2 hdst)] <;> rfl

/-- Whether the package has served a request lately. -/
theorem served_find (s : State) (src tag : Nat) :
    let known := fun (q : Served) => q ∈ s.pkg.served ∧ q.src = src ∧ q.tag = tag ∧ s.time < q.time + 4 * s.pkg.e2etime
    let found := s.pkg.served.find? (fun x => decide (x.src = src ∧ x.tag = tag ∧ s.time < x.time + 4 * s.pkg.e2etime))
    ((∃ q, known q) → ∃ q, known q ∧ found = some q) ∧ ((∀ q, ¬known q) → found = none) := by
  intro known found
  refine ⟨fun ⟨q, hm, hq⟩ => ?_, fun h => ?_⟩
  · have hsome : found.isSome = true := List.find?_isSome.2 ⟨q, hm, decide_eq_true hq⟩
    obtain ⟨p, hp⟩ := Option.isSome_iff_exists.1 hsome
    have hq := List.find?_some (p := fun x : Served => decide (x.src = src ∧ x.tag = tag ∧ s.time < x.time + 4 * s.pkg.e2etime)) hp
    exact ⟨p, ⟨List.mem_of_find?_eq_some hp, of_decide_eq_true hq⟩, hp⟩
  · exact List.find?_eq_none.2 fun q hm hq => h q ⟨hm, of_decide_eq_true hq⟩

/-! ### End-to-end retry (R499) -/

/-- The package marks a plane that has failed a request three times. -/
theorem exec_retry {s : State} {tag : Nat} {q : Request} (h : tfind s.pkg.reqs tag = some q) (hdue : q.due ≤ s.time) (hheld : q.held = false) :
    let t := if 3 ≤ q.resends ∧ (q.dst, q.plane) ∉ s.pkg.unusable then
        postLog (s.setPkg { s.pkg with unusable := (q.dst, q.plane) :: s.pkg.unusable }) (linkRec 5 q.dst q.plane) else s
    exec (.e2eRetry tag) s = match resendPlane t q with
      | some n => .next (sendOn (t.setPkg { t.pkg with reqs := tset t.pkg.reqs tag { q with
          plane := n, resends := if n = q.plane then q.resends + 1 else 1, due := t.time + t.pkg.e2etime } }) n q.flit)
      | none =>
        if trainsFor t q.dst then
          .next (t.setPkg { t.pkg with reqs := tset t.pkg.reqs tag { q with due := t.time + t.pkg.e2etime } })
        else .next (failAll t q.dst) := by
  intro t
  have ht : (if 3 ≤ q.resends ∧ (!s.pkg.unusable.contains (q.dst, q.plane)) = true then
      postLog (s.setPkg { s.pkg with unusable := (q.dst, q.plane) :: s.pkg.unusable }) (linkRec 5 q.dst q.plane) else s) = t :=
    ite_iff (and_congr_right' (by simp)) rfl rfl
  show execE2eRetry tag s = _
  unfold execE2eRetry
  rw [h]
  dsimp only
  rw [if_neg (by simp [hheld, hdue]), ht] <;> rfl

/-! ### Lanes and hops (R497, R498, R501) -/

/-- The state that a port leaves training in. -/
theorem trained_state (n : Nat) : (match n with | 0 => 1 | 1 => 2 | 2 => 3 | _ => 0) =
    if n = 0 then 1 else if n = 1 then 2 else if n = 2 then 3 else 0 := by
  match n with
  | 0 | 1 | 2 => rfl
  | n + 3 => exact ((if_neg (by omega)).trans ((if_neg (by omega)).trans (if_neg (by omega)))).symm

theorem exec_trained {s : State} {port : Nat} (h : (portOf s port).state = 4) : exec (.portTrainingDone port) s =
    .next (let x := portOf s port
      let best := if lanesLost x = 0 then 1 else if lanesLost x = 1 then 2 else if lanesLost x = 2 then 3 else 0
      let t := portTo (putPort s port { x with queue := [] }) port best
      if best = 0 then t else x.queue.foldl (fun u y => sendOn u port y) t) := by
  show execPortTrainingDone port s = _
  unfold execPortTrainingDone
  dsimp only
  rw [if_neg (Classical.not_not.2 h), ← trained_state] <;> rfl

theorem exec_lane {s : State} {port lane : Nat} (hp : port < 32) (hl : lane < 5) (he : (portOf s port).elanes.getLsbD lane = false) :
    exec (.laneErase port lane) s = .next (let x := portOf s port
      let t := putPort s port { x with elanes := x.elanes ||| BitVec.ofNat 5 (2 ^ lane) }
      if x.state = 1 then portTo t port 2 else if x.state = 2 then portTo t port 4 else if x.state = 3 then portTo t port 0 else t) := by
  show execLaneErase port lane s = _
  unfold execLaneErase
  dsimp only
  rw [if_neg (by rw [he]; simp; omega)]
  simp only [apply_ite Host.Outcome.next]

theorem exec_hop {s : State} {kind : HopKind} {die hop dir : Nat} (h : (kind, die, hop, dir) ∉ s.pkg.failedHops) (ok : Bool) :
    exec (.hopRetry kind die hop dir ok) s = .next (if ok then putTries s kind die hop dir 0
      else if hopTriesOf s kind die hop dir + 1 < 16 then putTries s kind die hop dir (hopTriesOf s kind die hop dir + 1)
      else
        let t := putTries s kind die hop dir 0
        let u := t.setPkg { t.pkg with failedHops := (kind, die, hop, dir) :: t.pkg.failedHops }
        postLog (match kind with | .ring => putDie u die { u.die die with ringFailed := true } | _ => u)
          (linkRec 7 (dir % 4 * 1024 + die % 4 * 256 + hop % 256) 16)) := by
  show execHopRetry kind die hop dir ok s = _
  unfold execHopRetry
  rw [if_neg (by simp [h])]
  simp only [apply_ite Host.Outcome.next]
  cases kind <;> rfl

/-! ### The host (R120, R390, R502) -/

theorem exec_host {s : State} {a n : Nat} {data : BitVec 512} (w bad : Bool) (h : hostReaches s = true ∧ n ≤ 64 ∧ a + n ≤ 0xC000000000) :
    exec (.hostMemoryAccess w a n data bad) s = .next (if w then
        (if bad then hostErr s 0x0A a n
        else (hostPieces a n).foldl (fun t q => hostPiece t (a + q.1) q.2 (field data.toNat (8 * q.1) (8 * q.2))) s)
      else s.setPkg { s.pkg with hostData := BitVec.ofNat 512 ((hostPieces a n).foldl (fun k q =>
        match hostBad s (locPlace0 (a + q.1)) with
        | some _ => k
        | none => k + rd s (locPlace0 (a + q.1)) q.2 * 2 ^ (8 * q.1)) 0) }) := by
  obtain ⟨hr, hn, ha⟩ := h
  show execHostMemoryAccess w a n data bad s = _
  unfold execHostMemoryAccess
  rw [if_neg (by rw [hr]; simp; omega)]
  simp only [apply_ite Host.Outcome.next] <;> rfl

/-- A byte that a write of one byte leaves. -/
theorem byteAt_wrHome_one (s : State) (a v : Nat) : byteAt (wrHome s a 1 v) a = BitVec.ofNat 8 v := by
  unfold byteAt
  rw [wrHome_mem]
  exact (memGet_memWrite_in _ a 1 v 0 (by omega)).trans (by simp)

/-- One byte is read as it stands. -/
theorem rd_one (s : State) (a : Nat) : BitVec.ofNat 8 (rd s a 1) = byteAt s a := by
  unfold rd byteAt
  simp [memRead]

/-- The bytes of a sector take their new values, written where they differ, and no other byte changes. -/
theorem byteAt_changeBytes (s : State) (loc : Nat) (d : BitVec 256) (n x : Nat) :
    byteAt (changeBytes s loc d n) x = if loc ≤ x ∧ x < loc + n then BitVec.ofNat 8 (secGet d (x - loc) 1) else byteAt s x := by
  induction n with
  | zero => rw [changeBytes, if_neg (by omega)]
  | succ n ih =>
    have hstep : byteAt (changeBytes s loc d (n + 1)) x =
        if x = loc + n then BitVec.ofNat 8 (secGet d n 1) else byteAt (changeBytes s loc d n) x := by
      simp only [changeBytes]
      by_cases hsame : rd (changeBytes s loc d n) (loc + n) 1 = secGet d n 1
      · rw [if_pos hsame]
        by_cases hx : x = loc + n
        · rw [if_pos hx, hx, ← hsame, rd_one]
        · rw [if_neg hx]
      · rw [if_neg hsame]
        by_cases hx : x = loc + n
        · rw [if_pos hx, hx, byteAt_wrHome_one]
        · rw [if_neg hx, byteAt_wrHome_out _ _ _ _ (by omega)]
    rw [hstep, ih]
    by_cases hx : x = loc + n
    · subst hx
      rw [if_pos rfl, if_pos (by omega), Nat.add_sub_cancel_left]
    · rw [if_neg hx]
      exact ite_iff (by omega) rfl rfl

/-- Settles O50. -/
theorem fabricAndHost : Obligations.FabricAndHost := by
  intro s port lane plane tag die hop dir a n kind f op w data sector x idle
  refine ⟨?_, fun h => ?_, fun q h => ?_, fun h => if_pos h, fun hp hl he => exec_lane hp hl he, fun h => if_pos h, exec_trained,
    fun h => ?_, fun hp hl => ?_, fun h => ?_, fun h => ?_, fun h => ?_, fun h => ?_, fun h => ?_, fun h => ?_, ?_, fun h => ?_, fun hr ha => ?_⟩
  · intro goes ty answers known
    have hlive : s.pkg.fabEn = true → portUp x = true → s.pkg.dead = false →
        ¬((!s.pkg.fabEn) = true ∨ (!portUp (portOf s port)) = true ∨ s.pkg.dead = true) := fun hen hup hd => by
      rw [hen, show portUp (portOf s port) = true from hup, hd]
      decide
    refine ⟨fun h => if_pos (by rcases h with h | h | h <;> simp [x, h]), fun hen hup hd => ⟨fun hg => ?_, fun hg hdst => ?_, fun hg hdst => ?_⟩⟩
    · exact (if_neg (hlive hen hup hd)).trans (if_pos (by simp [hg]))
    · exact (if_neg (hlive hen hup hd)).trans ((if_neg (by simp [hg])).trans (if_pos hdst))
    · have hx := exec_flit (op := op) hen hup hd hg hdst
      have hknown := served_find s (flitSrc f) (flitTag f)
      refine ⟨fun hty hq => ?_, fun q hty hq => ?_, fun hty hk => ?_, fun hty hk => ?_⟩
      · exact (hx.trans (if_pos hty)).trans (by rw [hq])
      · exact (hx.trans (if_pos hty)).trans (by rw [hq])
      · obtain ⟨q, hq, hf⟩ := hknown.1 hk
        exact ⟨q, hq, (hx.trans (if_neg hty)).trans (by rw [hf])⟩
      · have hx := (hx.trans (if_neg hty)).trans (by rw [hknown.2 hk])
        refine ⟨fun h => hx.trans (if_pos h), fun h => ?_, fun h => ?_, fun h => ?_, fun h => ?_, fun h => ?_⟩
        · exact hx.trans ((if_neg (by omega)).trans (if_pos h))
        · exact hx.trans ((if_neg (by omega)).trans ((if_neg (by omega)).trans (if_pos h)))
        · exact hx.trans ((if_neg (by omega)).trans ((if_neg (by omega)).trans ((if_neg (by omega)).trans (if_pos h))))
        · exact hx.trans ((if_neg (by omega)).trans ((if_neg (by omega)).trans ((if_neg (by omega)).trans ((if_neg (by omega)).trans (if_pos h)))))
        · exact hx.trans ((if_neg (by omega)).trans ((if_neg (by omega)).trans ((if_neg (by omega)).trans ((if_neg (by omega)).trans
            (if_neg (by omega))))))
  · show execE2eRetry tag s = _
    unfold execE2eRetry
    rw [h]
  · refine ⟨fun hw => ?_, fun hdue hheld => ?_⟩
    · show execE2eRetry tag s = _
      unfold execE2eRetry
      rw [h]
      exact if_pos hw
    · intro t
      have hx := exec_retry h hdue hheld
      refine ⟨fun m hm => hx.trans ?_, fun hm ht => hx.trans ?_, fun hm ht => hx.trans ?_⟩
      · dsimp only
        rw [show resendPlane _ q = some m from hm]
      · dsimp only
        rw [show resendPlane _ q = none from hm]
        exact if_pos ht
      · dsimp only
        rw [show resendPlane _ q = none from hm]
        exact if_neg (by rw [show trainsFor _ q.dst = false from ht]; exact Bool.false_ne_true)
  · exact if_pos (by simpa using h)
  · exact if_neg (by simp [hl]; omega)
  · exact if_pos (by simp [h])
  · refine ⟨(exec_hop h true).trans rfl, fun hn => ?_, fun hn => ?_⟩
    · exact (exec_hop h false).trans (congrArg _ ((if_neg Bool.false_ne_true).trans (if_pos hn)))
    · refine (exec_hop h false).trans (congrArg _ ((if_neg Bool.false_ne_true).trans ((if_neg (Nat.not_lt.2 hn)).trans ?_)))
      cases kind <;> rfl
  · exact if_pos (by rw [h]; rfl)
  · exact if_pos h
  · exact if_neg (by rw [h]; exact Bool.false_ne_true)
  · exact if_neg (by rw [h]; exact Bool.false_ne_true)
  · intro reached
    refine ⟨fun hn => ?_, fun hr => ⟨(exec_host true true hr).trans rfl, (exec_host true false hr).trans rfl, (exec_host false w hr).trans rfl⟩⟩
    have hno : (!hostReaches s) = true ∨ 64 < n ∨ 0xC000000000 < a + n := by
      refine Classical.byContradiction fun hc => ?_
      obtain ⟨h1, h2, h3⟩ := not_or.1 hc |>.imp id not_or.1
      exact hn ⟨by simpa using h1, Nat.not_lt.1 h2, Nat.not_lt.1 h3⟩
    exact ⟨if_pos hno, if_pos hno⟩
  · exact if_pos (by simpa using h)
  · refine ⟨_, if_neg (by rw [hr]; simp; omega), fun i hi => ?_, fun y hy => ?_⟩
    · rw [byteAt_changeBytes, if_pos (by omega), Nat.add_sub_cancel_left]
    · rw [byteAt_changeBytes, if_neg (by omega)]

end Sys2Proof.Machine
end

section
/-!
PROOFS. Memory stays in canonical form: the state's operations, records, caches, requests, orphans and kills.
-/
namespace Sys2Proof.Machine

open Sys2Proof

variable {s : State}

/-! ### How the lemmas read

`canon_f` says that `f` keeps memory canonical, `keeps_f` that the effects of the form `f` do, and `goesOn_f` that the event `f` goes on with
canonical memory. -/

theorem canon_ite {p : Prop} [Decidable p] {a b : State} (ha : memCanonical a) (hb : memCanonical b) : memCanonical (if p then a else b) := by
  split
  · exact ha
  · exact hb

theorem canon_ite_fst {α : Type} {p : Prop} [Decidable p] {a b : State × α} (ha : memCanonical a.1) (hb : memCanonical b.1) :
    memCanonical (if p then a else b).1 := by
  split
  · exact ha
  · exact hb

theorem canon_foldl {α : Type} {f : State → α → State} (hf : ∀ u x, memCanonical u → memCanonical (f u x)) (l : List α)
    (h : memCanonical s) : memCanonical (l.foldl f s) :=
  List.foldlRecOn l f h fun u hu x _ => hf u x hu

theorem canon_of_fst {α : Type} {x : State × α} {t : State} {a : α} (h : memCanonical x.1) (e : x = (t, a)) : memCanonical t := by
  rw [e] at h
  exact h

/-! ### Fields of the state -/

theorem canon_setTime (h : memCanonical s) (v) : memCanonical (s.setTime v) := h
theorem canon_setGs (h : memCanonical s) (v) : memCanonical (s.setGs v) := h
theorem canon_setHs (h : memCanonical s) (v) : memCanonical (s.setHs v) := h
theorem canon_setWs (h : memCanonical s) (v) : memCanonical (s.setWs v) := h
theorem canon_setPs (h : memCanonical s) (v) : memCanonical (s.setPs v) := h
theorem canon_setEs (h : memCanonical s) (v) : memCanonical (s.setEs v) := h
theorem canon_setEflags (h : memCanonical s) (v) : memCanonical (s.setEflags v) := h
theorem canon_setKs (h : memCanonical s) (v) : memCanonical (s.setKs v) := h
theorem canon_setJs (h : memCanonical s) (v) : memCanonical (s.setJs v) := h
theorem canon_setAlley (h : memCanonical s) (v) : memCanonical (s.setAlley v) := h
theorem canon_setAlleyOld (h : memCanonical s) (v) : memCanonical (s.setAlleyOld v) := h
theorem canon_setStrands (h : memCanonical s) (v) : memCanonical (s.setStrands v) := h
theorem canon_setGangs (h : memCanonical s) (v) : memCanonical (s.setGangs v) := h
theorem canon_setCells (h : memCanonical s) (v) : memCanonical (s.setCells v) := h
theorem canon_setBlocks (h : memCanonical s) (v) : memCanonical (s.setBlocks v) := h
theorem canon_setGrids (h : memCanonical s) (v) : memCanonical (s.setGrids v) := h
theorem canon_setDies (h : memCanonical s) (v) : memCanonical (s.setDies v) := h
theorem canon_setPkg (h : memCanonical s) (v) : memCanonical (s.setPkg v) := h
theorem canon_setMem {m : List Host.Cell} (hm : memWf m = true) : memCanonical (s.setMem m) := hm
theorem canon_setAbsent (h : memCanonical s) (v) : memCanonical (s.setAbsent v) := h
theorem canon_setClears (h : memCanonical s) (v) : memCanonical (s.setClears v) := h
theorem canon_setSets (h : memCanonical s) (v) : memCanonical (s.setSets v) := h
theorem canon_setPoison (h : memCanonical s) (v) : memCanonical (s.setPoison v) := h
theorem canon_setBadRegs (h : memCanonical s) (v) : memCanonical (s.setBadRegs v) := h
theorem canon_setCopies (h : memCanonical s) (v) : memCanonical (s.setCopies v) := h
theorem canon_setDoomed (h : memCanonical s) (v) : memCanonical (s.setDoomed v) := h
theorem canon_setPend (h : memCanonical s) (v) : memCanonical (s.setPend v) := h
theorem canon_setStores (h : memCanonical s) (v) : memCanonical (s.setStores v) := h
theorem canon_setWalks (h : memCanonical s) (v) : memCanonical (s.setWalks v) := h
theorem canon_setXfers (h : memCanonical s) (v) : memCanonical (s.setXfers v) := h
theorem canon_setDelivs (h : memCanonical s) (v) : memCanonical (s.setDelivs v) := h
theorem canon_setChases (h : memCanonical s) (v) : memCanonical (s.setChases v) := h
theorem canon_setJoins (h : memCanonical s) (v) : memCanonical (s.setJoins v) := h
theorem canon_setFlying (h : memCanonical s) (v) : memCanonical (s.setFlying v) := h
theorem canon_setKills (h : memCanonical s) (v) : memCanonical (s.setKills v) := h
theorem canon_setFresh (h : memCanonical s) (v) : memCanonical (s.setFresh v) := h
theorem canon_setCur (h : memCanonical s) (v) : memCanonical (s.setCur v) := h
theorem canon_setAgenda (h : memCanonical s) (v) : memCanonical (s.setAgenda v) := h
theorem canon_setQueue (h : memCanonical s) (v) : memCanonical (s.setQueue v) := h
theorem canon_setFilled (h : memCanonical s) (v) : memCanonical (s.setFilled v) := h
theorem canon_setForeseen (h : memCanonical s) (v) : memCanonical (s.setForeseen v) := h

/-! ### Operations of the state -/

theorem canon_putStr (h : memCanonical s) (pos t) : memCanonical (putStr s pos t) :=
  canon_setStrands h _

theorem canon_putGang (h : memCanonical s) (lead g) : memCanonical (putGang s lead g) :=
  canon_setGangs h _

theorem canon_putCell (h : memCanonical s) (c x) : memCanonical (putCell s c x) :=
  canon_setCells h _

theorem canon_putBlock (h : memCanonical s) (b x) : memCanonical (putBlock s b x) :=
  canon_setBlocks h _

theorem canon_putGrid (h : memCanonical s) (g x) : memCanonical (putGrid s g x) :=
  canon_setGrids h _

theorem canon_putDie (h : memCanonical s) (d x) : memCanonical (putDie s d x) :=
  canon_setDies h _

theorem canon_wrG (h : memCanonical s) (pos n v) : memCanonical (wrG s pos n v) :=
  canon_ite h (canon_setGs h _)

theorem canon_wrH (h : memCanonical s) (pipe n v) : memCanonical (wrH s pipe n v) :=
  canon_setHs h _

theorem canon_wrW (h : memCanonical s) (pos n v) : memCanonical (wrW s pos n v) :=
  canon_setWs h _

theorem canon_wrP (h : memCanonical s) (pos n v) : memCanonical (wrP s pos n v) :=
  canon_ite h (canon_setPs h _)

theorem canon_wrK (h : memCanonical s) (lead n v) : memCanonical (wrK s lead n v) :=
  canon_setKs h _

theorem canon_wrE (h : memCanonical s) (pos n v) : memCanonical (wrE s pos n v) :=
  canon_setEs h _

theorem canon_wrEf (h : memCanonical s) (pos n v) : memCanonical (wrEf s pos n v) :=
  canon_setEflags h _

theorem canon_wrJ (h : memCanonical s) (lead n v) : memCanonical (wrJ s lead n v) :=
  canon_setJs h _

theorem canon_wrReg (h : memCanonical s) (pos r v) : memCanonical (wrReg s pos r v) := by
  unfold wrReg
  split
  · exact canon_wrG h _ _ _
  · exact canon_wrH h _ _ _

theorem canon_putVal (h : memCanonical s) (x) : memCanonical (putVal s x) := by
  unfold putVal
  split
  · exact canon_wrG h _ _ _
  · exact canon_wrH h _ _ _
  · exact canon_wrW h _ _ _
  · exact canon_wrP h _ _ _
  · exact canon_wrK h _ _ _
  · exact canon_wrEf (canon_wrE h _ _ _) _ _ _

theorem canon_wr (h : memCanonical s) (a n v) : memCanonical (wr s a n v) :=
  canon_setMem (memWf_memWrite h _ _ _)

theorem canon_dropCopies (h : memCanonical s) (a n) : memCanonical (dropCopies s a n) :=
  canon_ite h (canon_setCopies (canon_setDoomed h _) _)

theorem canon_noteCopy (h : memCanonical s) (die grid sec) : memCanonical (noteCopy s die grid sec) :=
  canon_ite h (canon_setCopies h _)

theorem canon_wrHome (h : memCanonical s) (a n v) : memCanonical (wrHome s a n v) :=
  canon_dropCopies (canon_setAgenda (canon_wr h _ _ _) _) _ _

theorem canon_putDwords (h : memCanonical s) (a l) : memCanonical (putDwords s a l) := by
  induction l generalizing s a with
  | nil => exact h
  | cons d r ih => exact ih (canon_wrHome h _ _ _) _

theorem canon_writeDwords (h : memCanonical s) (a l) : memCanonical (writeDwords s a l) :=
  canon_ite (canon_putDwords h _ _) (canon_setPoison (canon_putDwords h _ _) _)

theorem canon_logInto (h : memCanonical s) (r x) : memCanonical (logInto s r x) := by
  unfold logInto
  split
  · exact canon_setPkg h _
  · split
    · exact canon_setPkg h _
    · exact canon_setPkg (canon_writeDwords h _ _) _

theorem canon_putLog (h : memCanonical s) (r) : memCanonical (putLog s r) :=
  canon_ite (canon_setPkg h _) (canon_logInto h _ _)

theorem canon_bumpSeq (h : memCanonical s) : memCanonical (bumpSeq s) :=
  canon_setPkg h _

theorem canon_postLog (h : memCanonical s) (r) : memCanonical (postLog s r) :=
  canon_putLog (canon_bumpSeq h) _

theorem canon_postSq (h : memCanonical s) (c r) : memCanonical (postSq s c r) :=
  canon_ite (canon_putCell (canon_bumpSeq h) _ _) (canon_postLog h _)

theorem canon_drainSq (h : memCanonical s) (c) : memCanonical (drainSq s c) :=
  canon_foldl (fun _ _ hu => canon_putLog hu _) _ (canon_putCell h _ _)

theorem canon_modStr (h : memCanonical s) (pos f) : memCanonical (modStr s pos f) :=
  canon_putStr h _ _

theorem canon_modStrs (h : memCanonical s) (ls f) : memCanonical (modStrs s ls f) :=
  canon_foldl (fun _ _ hu => canon_modStr hu _ _) _ h

theorem canon_takeTrap (h : memCanonical s) (lead pos fmask i ret) : memCanonical (takeTrap s lead pos fmask i ret) :=
  canon_modStr (canon_modStrs (canon_putGang h _ _) _ _) _ _

theorem canon_trapReturn (h : memCanonical s) (lead pos) : memCanonical (trapReturn s lead pos) :=
  canon_ite (canon_modStrs (canon_putGang (canon_modStr h _ _) _ _) _ _) (canon_modStr (canon_putGang (canon_modStr h _ _) _ _) _ _)

theorem canon_servePending (h : memCanonical s) (lead) : memCanonical (servePending s lead) := by
  unfold servePending
  dsimp only
  split
  · exact h
  · exact canon_modStr (canon_putGang h _ _) _ _

theorem canon_writeDirty (h : memCanonical s) (loc d m n) : memCanonical (writeDirty s loc d m n) := by
  induction n with
  | zero => exact h
  | succ n ih => exact canon_ite (canon_wrHome ih _ _ _) ih

theorem canon_dropWrite (h : memCanonical s) (c rec loc code n) : memCanonical (dropWrite s c rec loc code n) :=
  canon_ite (canon_postSq h _ _) (canon_postLog h _)

/-- A write of a sector leaves memory as the write or the drop does. -/
theorem canon_sectorWrite (h : memCanonical s) (c rec loc whole) {f : State → State} (hf : ∀ u, memCanonical u → memCanonical (f u)) (n) :
    memCanonical (sectorWrite s c rec loc whole f n) := by
  unfold sectorWrite
  refine canon_ite (canon_dropWrite h _ _ _ _ _) ?_
  split
  · exact hf s h
  · exact canon_ite (canon_setPoison (hf s h) _) (canon_dropWrite h _ _ _ _ _)

theorem canon_l1Flush (h : memCanonical s) (c sec) : memCanonical (l1Flush s c sec) := by
  unfold l1Flush
  split
  · exact h
  · exact canon_ite (canon_putCell h _ _) (canon_ite (canon_setDoomed (canon_putCell h _ _) _) (canon_sectorWrite (canon_putCell h _ _) _ _
      _ _ (fun _ hu => canon_writeDirty hu _ _ _ _) _))

theorem canon_l1WriteBack (h : memCanonical s) (c) : memCanonical (l1WriteBack s c) :=
  canon_foldl (fun _ _ hu => canon_l1Flush hu _ _) _ h

theorem canon_l1Trim (h : memCanonical s) (c n) : memCanonical (l1Trim s c n) := by
  induction n generalizing s with
  | zero => exact h
  | succ n ih =>
    unfold l1Trim
    split
    · exact h
    · exact ih (canon_l1Flush h _ _)

theorem canon_l1DropClean (h : memCanonical s) (c) : memCanonical (l1DropClean s c) :=
  canon_putCell h _ _

theorem canon_acqL1 (h : memCanonical s) (c o) : memCanonical (acqL1 s c o) := by
  unfold acqL1
  split
  · exact canon_ite (canon_l1DropClean h _) h
  · exact h

theorem canon_relL1 (h : memCanonical s) (c o) : memCanonical (relL1 s c o) := by
  unfold relL1
  split
  · exact canon_ite (canon_l1WriteBack h _) h
  · exact h

theorem canon_l1Check (h : memCanonical s) (c sec) : memCanonical (l1Check s c sec) := by
  unfold l1Check
  split
  · exact canon_ite (canon_l1Flush h _ _) h
  · exact h

theorem canon_l1Fill (h : memCanonical s) (c pipe sec) : memCanonical (l1Fill s c pipe sec) :=
  canon_putCell h _ _

theorem canon_l1Load (h : memCanonical s) (c pipe a n) : memCanonical (l1Load s c pipe a n).1 :=
  canon_ite h (canon_noteCopy (canon_l1Fill (canon_l1Check h _ _) _ _ _) _ _ _)

theorem canon_takeFresh (h : memCanonical s) : memCanonical (takeFresh s) :=
  canon_setFresh h _

theorem canon_l1Store (h : memCanonical s) (c pos a n v) : memCanonical (l1Store s c pos a n v) :=
  canon_takeFresh (canon_setStores (canon_putCell (canon_l1Check h _ _) _ _) _)

theorem canon_countReq (h : memCanonical s) (c secs) : memCanonical (countReq s c secs) :=
  canon_putCell h _ _

theorem canon_putPort (h : memCanonical s) (n p) : memCanonical (putPort s n p) :=
  canon_setPkg h _

theorem canon_sendOn (h : memCanonical s) (n f) : memCanonical (sendOn s n f) :=
  canon_ite (canon_putPort h _ _) (canon_setPkg h _)

/-- A request that sets out leaves memory alone, but for the records of its port. -/
theorem canon_newRequest (h : memCanonical s) {src dst pref ty ord key addr data mask who t}
    (e : newRequest s src dst pref ty ord key addr data mask who = .out t) : memCanonical t := by
  unfold newRequest at e
  split at e
  · split at e
    · cases e
    · cases e
      exact canon_ite (canon_setPkg h _) (canon_sendOn (canon_setPkg h _) _ _)
  · cases e

theorem canon_getD (h : memCanonical s) {x : Sent} (hx : ∀ t, x = .out t → memCanonical t) : memCanonical (x.getD s) := by
  cases x with
  | out t => exact hx t rfl
  | fail code => exact h

theorem canon_askFar (h : memCanonical s) (c p key) : memCanonical (askFar s c p key) := by
  unfold askFar
  refine canon_ite h ?_
  split
  · next e => exact canon_newRequest h e
  · exact canon_modStr h _ _

theorem canon_orphanMsg (h : memCanonical s) (c m why) : memCanonical (orphanMsg s c m why) := by
  unfold orphanMsg
  dsimp only
  split
  · exact canon_putCell h _ _
  · split
    · exact canon_putCell h _ _
    · exact canon_postLog (canon_putCell (canon_writeDwords h _ _) _ _) _

theorem canon_orphanQueue (h : memCanonical s) (pos) : memCanonical (orphanQueue s pos) :=
  canon_foldl (fun _ _ hu => canon_orphanMsg hu _ _ _) _ (canon_modStr h _ _)

theorem canon_clearSpill (h : memCanonical s) (a) : memCanonical (clearSpill s a) :=
  canon_wrHome h _ _ _

theorem canon_orphanSpilled (h : memCanonical s) (pos gen key n) : memCanonical (orphanSpilled s pos gen key n) := by
  induction n generalizing s with
  | zero => exact h
  | succ n ih =>
    unfold orphanSpilled
    split
    · exact h
    · exact ih (canon_orphanMsg (canon_clearSpill h _) _ _ _)

theorem canon_orphanAt (h : memCanonical s) (pos) : memCanonical (orphanAt s pos) :=
  canon_orphanSpilled (canon_orphanQueue h _) _ _ _ _

theorem canon_leaveAll (h : memCanonical s) (c) : memCanonical (leaveAll s c) :=
  canon_foldl (fun _ _ hu => canon_takeFresh (canon_setJoins hu _)) _ (canon_putCell h _ _)

theorem canon_dropHeld (h : memCanonical s) (b c) : memCanonical (dropHeld s b c) :=
  canon_foldl (fun _ _ hu => canon_takeFresh (canon_setJoins hu _)) _ (canon_putCell h _ _)

theorem canon_vacate (h : memCanonical s) (c) : memCanonical (vacate s c) :=
  canon_putCell (canon_leaveAll (canon_drainSq (canon_l1WriteBack (canon_setClears (canon_setSets h _) _) _) _) _) _ _

theorem canon_dropWork (h : memCanonical s) (ps) : memCanonical (dropWork s ps) :=
  canon_setWalks (canon_setPend h _) _

theorem canon_dropGang (h : memCanonical s) (lead) : memCanonical (dropGang s lead) :=
  canon_setJs (canon_setKs (canon_setGangs h _) _) _

theorem canon_freePos (h : memCanonical s) (pos) : memCanonical (freePos s pos) :=
  canon_putStr (canon_dropGang (canon_dropWork (canon_orphanAt h _) _) _) _ _

theorem canon_dropBbRecord (h : memCanonical s) (b) : memCanonical (dropBbRecord s b) :=
  canon_ite (canon_setPkg (canon_putBlock h _ _) _) h

theorem canon_orphanEvicted (h : memCanonical s) (b) : memCanonical (orphanEvicted s b) :=
  canon_foldl (fun _ _ hu => canon_foldl (fun _ _ hu1 => canon_orphanSpilled hu1 _ _ _ _) _ hu) _ h

theorem canon_endBlock (h : memCanonical s) (b last) : memCanonical (endBlock s b last) :=
  canon_setPkg (canon_putBlock (canon_dropBbRecord (canon_ite (canon_foldl (fun _ _ hu => canon_vacate hu _) _ (canon_foldl (fun _ _ hu =>
    canon_freePos hu _) _ (canon_dropWork h _))) (canon_foldl (fun _ _ hu => canon_dropHeld hu _ _) _ (canon_orphanEvicted h _))) _) _ _) _

theorem canon_endGrid (h : memCanonical s) (g last) : memCanonical (endGrid s g last) :=
  canon_setPkg (canon_putGrid (canon_foldl (fun _ _ hu => canon_endBlock hu _ _) _ h) _ _) _

theorem canon_startKill (h : memCanonical s) (gs r waiter last) : memCanonical (startKill s gs r waiter last) :=
  canon_setAgenda (canon_takeFresh (canon_setKills (canon_foldl (fun _ _ hu => canon_endGrid hu _ _) _ h) _)) _

theorem canon_contextKill (h : memCanonical s) (g r) : memCanonical (contextKill s g r) :=
  canon_ite (canon_startKill h _ _ _ _) h

theorem canon_doubleFault (h : memCanonical s) (pos ba cause sval sinfo) : memCanonical (doubleFault s pos ba cause sval sinfo) :=
  canon_contextKill h _ _

theorem canon_preempt (h : memCanonical s) (b after) : memCanonical (preempt s b after) := by
  unfold preempt
  split
  · dsimp only
    split
    · exact canon_putBlock h _ _
    · exact canon_putBlock h _ _
    · exact canon_putBlock h _ _
    · exact h
  · dsimp only
    split
    · exact canon_putBlock h _ _
    · exact canon_putBlock h _ _
    · exact canon_putBlock h _ _
    · exact h

theorem canon_sitOut (h : memCanonical s) (c) : memCanonical (sitOut s c) := by
  unfold sitOut
  split
  · exact h
  · exact canon_preempt (canon_putCell h _ _) _ _

end Sys2Proof.Machine
end

section
/-!
PROOFS. Memory stays in canonical form: how a bundle issues, and what instructions do.
-/
namespace Sys2Proof.Machine

open Sys2Proof

variable {s : State}

/-- The effects of a form, when it issues and when it parks, keep memory canonical. -/
def Form.KeepsMemory (f : Form) : Prop :=
  (∀ src t ls, memCanonical t → memCanonical (f.act src t ls)) ∧ ∀ t ls, memCanonical t → memCanonical (f.onHold t ls)

theorem canon_startWalk (h : memCanonical s) (c pos va) : memCanonical (startWalk s c pos va).1 := by
  unfold startWalk
  dsimp only
  split
  · exact canon_setWalks h _
  · exact canon_takeFresh (canon_setWalks h _)

theorem canon_startWalks (h : memCanonical s) (c l) : memCanonical (startWalks s c l).1 := by
  induction l generalizing s with
  | nil => exact h
  | cons q r ih => exact ih (canon_startWalk h _ _ _)

theorem canon_parkPath (h : memCanonical s) (r ws walks fars) : memCanonical (parkPath s r ws walks fars) :=
  canon_foldl (fun _ _ hu => canon_modStr hu _ _) _ (canon_startWalks (canon_foldl (fun _ _ hu => canon_askFar hu _ _ _) _ h) _ _)

theorem canon_addRequest (h : memCanonical s) (price exempt) : memCanonical (addRequest s price exempt) :=
  canon_modStr (canon_putCell h _ _) _ _

theorem canon_payTokens (h : memCanonical s) (c p) : memCanonical (payTokens s c p) :=
  canon_putDie (canon_putCell h _ _) _ _

theorem canon_afterPay (h : memCanonical s) (c) : memCanonical (afterPay s c) :=
  canon_ite (canon_sitOut h _) h

theorem canon_payBundle (h : memCanonical s) (xs) : memCanonical (payBundle s xs) :=
  canon_ite h (canon_afterPay (canon_payTokens h _ _) _)

theorem canon_advance (h : memCanonical s) : memCanonical (advance s) := by
  unfold advance
  dsimp only
  split
  · exact canon_putBlock (canon_modStrs h _ _) _ _
  · exact canon_modStrs h _ _

theorem canon_perform (h : memCanonical s) (src) {xs : List Issued} (hx : ∀ x ∈ xs, x.form.KeepsMemory) :
    memCanonical (perform src xs s) :=
  List.foldlRecOn xs _ h fun _ hu x hm => (hx x hm).1 _ _ _ hu

theorem canon_killReg (h : memCanonical s) (q) : memCanonical (killReg s q) :=
  canon_contextKill h _ _

theorem canon_mendWord (h : memCanonical s) (s' ls i) : memCanonical (mendWord s' ls i s) :=
  canon_setBadRegs h _

theorem canon_mend (h : memCanonical s) (s' xs) : memCanonical (mend s' xs s) :=
  canon_foldl (fun _ _ hu => canon_mendWord hu _ _ _) _ h

theorem canon_goAhead (h : memCanonical s) {xs : List Issued} (hx : ∀ x ∈ xs, x.form.KeepsMemory) : memCanonical (goAhead s xs) :=
  canon_mend (canon_perform (canon_advance (canon_payBundle h _)) _ hx) _ _

theorem canon_dropChunk (h : memCanonical s) (c va) : memCanonical (dropChunk s c va) :=
  canon_putCell h _ _

theorem canon_takeFault (h : memCanonical s) (l) : memCanonical (takeFault s l) := by
  unfold takeFault
  split
  · exact h
  · exact canon_ite (canon_doubleFault (canon_modStrs (canon_foldl (fun _ _ hu => canon_dropChunk hu _ _) _ h) _ _) _ _ _ _ _)
      (canon_takeTrap (canon_modStrs (canon_foldl (fun _ _ hu => canon_dropChunk hu _ _) _ h) _ _) _ _ _ _ _)

/-- However a bundle ends: parked, trapped, killed or performed. -/
theorem canon_runBundle (h : memCanonical s) {xs : List Issued} (hx : ∀ x ∈ xs, x.form.KeepsMemory) : memCanonical (runBundle s xs) := by
  unfold runBundle
  refine canon_ite ?_ ?_
  · split
    · exact canon_takeFault h _
    · exact canon_parkPath h _ _ _ _
    · exact canon_doubleFault h _ _ _ _ _
  · split
    · split
      · exact canon_killReg h _
      · exact canon_goAhead h hx
    · refine canon_ite (List.foldlRecOn xs _ ?_ fun _ hu x hm => (hx x hm).2 _ _ hu) ?_ <;>
        exact canon_parkPath (canon_ite (canon_addRequest h _ _) h) _ _ _ _
    · exact canon_takeFault h _
    · exact canon_sitOut h _

theorem canon_placeGroup (h : memCanonical s) (lead keep g) : memCanonical (placeGroup lead keep s g) :=
  canon_foldl (fun _ _ hu => canon_modStr hu _ _) _ h

theorem canon_transfer (h : memCanonical s) (tgt) : memCanonical (transfer s tgt) := by
  unfold transfer
  dsimp only
  split
  · exact h
  · exact canon_foldl (fun _ _ hu => canon_modStr hu _ _) _ h
  · exact canon_ite (canon_putGang (canon_foldl (fun _ _ hu => canon_placeGroup hu _ _ _) _ (canon_foldl (fun _ _ hu => canon_placeGroup hu
      _ _ _) _ h)) _ _) (canon_foldl (fun _ _ hu => canon_placeGroup hu _ _ _) _ (canon_foldl (fun _ _ hu => canon_placeGroup hu _ _ _) _
      h))

theorem canon_renumber (h : memCanonical s) (lead n) : memCanonical (renumber s lead n) := by
  unfold renumber
  split
  · exact h
  · exact canon_ite h (canon_ite (canon_putGang (canon_modStrs h _ _) _ _) (canon_modStrs h _ _))

theorem canon_eachLane (h : memCanonical s) {f : State → State → Nat → State} (hf : ∀ src t p, memCanonical t → memCanonical (f src t p))
    (src ls) : memCanonical (eachLane f src s ls) :=
  canon_foldl (fun _ p hu => hf src _ p hu) ls h

theorem canon_land (h : memCanonical s) (e) : memCanonical (land s e) :=
  canon_takeFresh (canon_setPend h _)

theorem canon_landFixed (h : memCanonical s) (pos r v) : memCanonical (landFixed s pos r v) :=
  canon_ite (canon_land h _) h

theorem canon_noteLink (h : memCanonical s) (k) : memCanonical (noteLink s k) := by
  unfold noteLink
  split
  · exact h
  · exact canon_setAlleyOld h _

theorem canon_popLink (h : memCanonical s) (k) : memCanonical (popLink s k) := by
  unfold popLink
  split
  · exact canon_setForeseen h _
  · exact canon_setAlley (canon_noteLink (canon_setForeseen h _) _) _

theorem canon_pushLink (h : memCanonical s) (k v) : memCanonical (pushLink s k v) :=
  canon_setBadRegs (canon_setAlley (canon_noteLink h _) _) _

theorem canon_countAsks (h : memCanonical s) (src ls asks) : memCanonical (countAsks src s ls asks) :=
  canon_ite h (canon_countReq h _ _)

theorem canon_postFor (h : memCanonical s) (c r) : memCanonical (postFor s c r) :=
  canon_ite (canon_postSq h _ _) (canon_postLog h _)

theorem canon_flushRange (h : memCanonical s) (c loc n) : memCanonical (flushRange s c loc n) :=
  canon_foldl (fun _ _ hu => canon_l1Flush hu _ _) _ h

theorem canon_actAt (h : memCanonical s) (r va loc op) : memCanonical (actAt s r va loc op).1 := by
  unfold actAt
  split
  · split <;> exact h
  · split
    · exact canon_ite_fst (canon_setPoison (canon_wrHome h _ _ _) _) (canon_postFor h _ _)
    · exact canon_wrHome h _ _ _
  · dsimp only
    split
    · exact h
    · split
      · exact canon_wrHome h _ _ _
      · exact h

theorem canon_dropFar (h : memCanonical s) (c pkg pa) : memCanonical (dropFar s c pkg pa) :=
  canon_putCell h _ _

/-- A request of an act to another package, as any request. -/
theorem canon_partRequest (h : memCanonical s) {e id ix pkg pa op t} (hq : partRequest s e id ix pkg pa op = .out t) : memCanonical t :=
  canon_newRequest h hq

theorem canon_doPart (h : memCanonical s) (e id ix p) : memCanonical (doPart s e id ix p).1 := by
  unfold doPart
  dsimp only
  split
  · split
    · refine canon_ite_fst h ?_
      split
      · exact h
      · exact canon_l1Load h _ _ _ _
    · exact canon_l1Store h _ _ _ _ _
    · exact canon_ite_fst h (canon_actAt (canon_flushRange h _ _ _) _ _ _ _)
  · refine canon_ite_fst h (canon_ite_fst ?_ (canon_actAt h _ _ _ _))
    split
    · exact canon_postFor h _ _
    · exact h
  · split
    · next e => exact canon_dropFar (canon_partRequest h e) _ _ _
    · exact h
  · refine canon_ite_fst h ?_
    split
    · exact h
    · exact canon_ite_fst (canon_setAgenda h _) (canon_setAgenda h _)
    · exact h

theorem canon_onePart (h : memCanonical s) (issuing e id prev p) : memCanonical (onePart s issuing e id prev p).1 := by
  have hd := canon_doPart h e id prev.length p
  unfold onePart
  refine canon_ite_fst h ?_
  split <;> next heq => exact canon_of_fst hd heq

theorem canon_doParts (h : memCanonical s) (issuing e id prev l) : memCanonical (doParts s issuing e id prev l).1 := by
  induction l generalizing s prev with
  | nil => exact h
  | cons p rest ih => exact ih (canon_onePart h _ _ _ _ _) _

theorem canon_storeDone (h : memCanonical s) (e m) : memCanonical (storeDone s e m) := by
  unfold storeDone
  split
  · exact canon_ite h (canon_postFor h _ _)
  · exact h

theorem canon_startWork (h : memCanonical s) (e) : memCanonical (startWork s e) :=
  canon_ite (canon_storeDone (canon_doParts (canon_takeFresh h) _ _ _ _ _) _ _) (canon_ite (canon_setAgenda (canon_setPend (canon_doParts
    (canon_takeFresh h) _ _ _ _ _) _) _) (canon_setPend (canon_doParts (canon_takeFresh h) _ _ _ _ _) _))

theorem canon_bankCheck (h : memCanonical s) (c changed held) : memCanonical (bankCheck s c changed held) :=
  canon_ite h (canon_modStrs (canon_putCell h _ _) _ _)

theorem canon_noteOrphan (h : memCanonical s) (lead j x) : memCanonical (noteOrphan s lead j x) :=
  canon_ite h (canon_putGang h _ _)

theorem canon_testOrphan (h : memCanonical s) (lead j x) : memCanonical (testOrphan s lead j x) :=
  canon_ite (canon_noteOrphan h _ _ _) h

theorem canon_setStart (h : memCanonical s) (lead j l) : memCanonical (setStart s lead j l) :=
  canon_wrJ (canon_ite (canon_noteOrphan h _ _ _) h) _ _ _

theorem canon_setAdd (h : memCanonical s) (lead j l) : memCanonical (setAdd s lead j l) :=
  canon_ite (canon_testOrphan (canon_wrJ h _ _ _) _ _ _) (canon_wrJ h _ _ _)

theorem canon_setQuit (h : memCanonical s) (lead j l) : memCanonical (setQuit s lead j l) :=
  canon_ite (canon_testOrphan (canon_wrJ h _ _ _) _ _ _) h

theorem canon_setWrite (h : memCanonical s) (lead j v) : memCanonical (setWrite s lead j v) :=
  canon_ite (canon_ite h (canon_wrJ (canon_noteOrphan h _ _ _) _ _ _)) (canon_wrJ h _ _ _)

theorem canon_setArrive (h : memCanonical s) (lead j l) : memCanonical (setArrive s lead j l) :=
  canon_testOrphan (canon_wrJ h _ _ _) _ _ _

theorem canon_setsStop (h : memCanonical s) (lead l before) : memCanonical (setsStop s lead l before) :=
  canon_foldl (fun _ _ hu => canon_ite (canon_noteOrphan hu _ _ _) (canon_testOrphan hu _ _ _)) _ h

theorem canon_newPaths (h : memCanonical s) (lead ls) : memCanonical (newPaths s lead ls) :=
  canon_foldl (fun _ _ hu => canon_modStrs hu _ _) _ h

theorem canon_orphanOne (h : memCanonical s) (lead o) : memCanonical (orphanOne s lead o) :=
  canon_ite (canon_newPaths (canon_modStrs (canon_wrJ h _ _ _) _ _) _ _) (canon_putGang (canon_newPaths (canon_modStrs (canon_wrJ h _ _ _)
    _ _) _ _) _ _)

theorem canon_orphanAll (h : memCanonical s) (lead) : memCanonical (orphanAll s lead) :=
  canon_ite h (canon_foldl (fun _ _ hu => canon_orphanOne hu _ _) _ (canon_putGang h _ _))

theorem canon_releaseOne (h : memCanonical s) (lead j) : memCanonical (releaseOne s lead j) :=
  canon_ite (canon_newPaths (canon_wrJ h _ _ _) _ _) h

theorem canon_releaseAll (h : memCanonical s) (lead) : memCanonical (releaseAll s lead) :=
  canon_foldl (fun _ _ hu => canon_releaseOne hu _ _) _ h

theorem canon_giveTurn (h : memCanonical s) (lead last) : memCanonical (giveTurn s lead last) := by
  unfold giveTurn
  split <;> exact canon_putGang h _ _

theorem canon_passTurn (h : memCanonical s) (lead) : memCanonical (passTurn s lead) :=
  canon_giveTurn h _ _

theorem canon_turnCheck (h : memCanonical s) (lead ended) : memCanonical (turnCheck s lead ended) :=
  canon_ite (canon_ite (canon_passTurn h _) h) (canon_ite h (canon_giveTurn h _ _))

theorem canon_settleSets (h : memCanonical s) (lead) : memCanonical (settleSets s lead) :=
  canon_turnCheck (canon_releaseAll (canon_orphanAll h _) _) _ _

theorem canon_discardLands (h : memCanonical s) (p) : memCanonical (discardLands s p) :=
  canon_setPend h _

theorem canon_freeLanes (h : memCanonical s) (c ls lead) : memCanonical (freeLanes s c ls lead) :=
  canon_bankCheck (canon_dropGang (canon_foldl (fun _ _ hu => canon_freePos hu _) _ h) _) _ _ _

theorem canon_freeCheck (h : memCanonical s) (lead) : memCanonical (freeCheck s lead) :=
  canon_ite (canon_freeLanes h _ _ _) h

theorem canon_stopLane (h : memCanonical s) (p) : memCanonical (stopLane s p) :=
  canon_modStr (canon_discardLands (canon_orphanAt h _) _) _ _

theorem canon_retireCheck (h : memCanonical s) (p) : memCanonical (retireCheck s p) :=
  canon_ite (canon_freeCheck (canon_modStr h _ _) _) h

theorem canon_dropK (h : memCanonical s) (ps) : memCanonical (dropK s ps) :=
  canon_setPend h _

theorem canon_formGang (h : memCanonical s) (lead glog) : memCanonical (formGang s lead glog) :=
  canon_bankCheck (canon_putGang (canon_foldl (fun _ _ hu => canon_modStr hu _ _) _ (canon_foldl (fun _ _ hu => canon_ite hu
    (canon_dropGang hu _)) _ (canon_dropK h _))) _ _) _ _ _

theorem canon_soloLane (h : memCanonical s) (pol orphan p) : memCanonical (soloLane s pol orphan p) :=
  canon_ite (canon_putGang (canon_modStr h _ _) _ _) (canon_modStr (canon_putGang (canon_modStr h _ _) _ _) _ _)

theorem canon_startSplit (h : memCanonical s) (lead) : memCanonical (startSplit s lead) :=
  canon_putGang (canon_foldl (fun _ _ hu => canon_wrJ (canon_ite (canon_noteOrphan hu _ _ _) hu) _ _ _) _ h) _ _

theorem canon_dropToken (h : memCanonical s) (ls) : memCanonical (dropToken ls s) := by
  unfold dropToken
  split
  · exact h
  · exact canon_modStrs (canon_putCell h _ _) _ _

theorem canon_splitGang (h : memCanonical s) (lead) : memCanonical (splitGang s lead) := by
  unfold splitGang
  refine canon_bankCheck ?_ _ _ _
  refine canon_foldl (fun _ _ hu => canon_freeCheck hu _) _ ?_
  refine canon_foldl (fun _ _ hu => ?_) _ (canon_dropToken (canon_foldl (fun _ _ hu => canon_dropGang hu _) _ h) _)
  split
  · exact canon_modStr (canon_soloLane (canon_foldl (fun _ _ hu1 => canon_wrK hu1 _ _ _) _ hu) _ _ _) _ _
  · exact canon_soloLane (canon_foldl (fun _ _ hu1 => canon_wrK hu1 _ _ _) _ hu) _ _ _

theorem canon_submit (h : memCanonical s) (p a) : memCanonical (submit s p a) :=
  canon_putCell h _ _

theorem canon_clearRegs (h : memCanonical s) (pos) : memCanonical (clearRegs s pos) :=
  canon_setAlley (canon_setEflags (canon_setEs (canon_setPs (canon_setWs (canon_setGs (canon_setBadRegs h _) _) _) _) _) _) _

theorem canon_newStrand (h : memCanonical s) (pos pc lpos rank m hollow) : memCanonical (newStrand s pos pc lpos rank m hollow) :=
  canon_putStr (canon_clearRegs h _) _ _

theorem canon_placeGathered (h : memCanonical s) (c p ls) : memCanonical (placeGathered s c p ls) := by
  unfold placeGathered
  refine canon_bankCheck ?_ _ _ _
  refine canon_putGang ?_ _ _
  refine canon_foldl (fun _ _ hu => ?_) _ (canon_dropGang (canon_putCell h _ _) _)
  split
  · exact canon_foldl (fun _ _ hu1 => canon_wrG hu1 _ _ _) _ (canon_newStrand hu _ _ _ _ _ _)
  · exact canon_newStrand hu _ _ _ _ _ _

theorem canon_queueGrid (h : memCanonical s) (g) : memCanonical (queueGrid s g) :=
  canon_setPkg (canon_putGrid h _ _) _

theorem canon_leavePath (h : memCanonical s) (src) : memCanonical (leavePath src s) :=
  canon_ite (canon_renumber h _ _) h

theorem canon_putBar (h : memCanonical s) (c b x) : memCanonical (putBar s c b x) :=
  canon_putCell h _ _

theorem canon_tbArrive (h : memCanonical s) (c b a pos ba) : memCanonical (tbArrive s c b a pos ba) :=
  canon_ite (canon_putBar h _ _ _) (canon_ite (canon_putBar h _ _ _) (canon_postSq (canon_putBar h _ _ _) _ _))

theorem canon_tbPend (h : memCanonical s) (c b n err pos) : memCanonical (tbPend s c b n err pos) :=
  canon_ite (canon_putBar h _ _ _) (canon_ite (canon_putBar h _ _ _) (canon_postSq (canon_putBar h _ _ _) _ _))

theorem canon_tbTest (h : memCanonical s) (c b) : memCanonical (tbTest s c b) :=
  canon_ite (canon_modStrs (canon_putBar h _ _ _) _ _) (canon_ite (canon_ite (canon_putBar h _ _ _) (canon_postSq (canon_putBar h _ _ _) _
    _)) (canon_putBar h _ _ _))

theorem canon_tbTests (h : memCanonical s) (c) : memCanonical (tbTests s c) :=
  canon_foldl (fun _ _ hu => canon_tbTest hu _ _) _ h

theorem canon_tbInit (h : memCanonical s) (c b expect pos ba found) : memCanonical (tbInit s c b expect pos ba found) :=
  canon_putBar (canon_ite (canon_modStrs (canon_postSq h _ _) _ _) h) _ _ _

theorem canon_bbArrive (h : memCanonical s) (pos ba) : memCanonical (bbArrive s pos ba) := by
  unfold bbArrive
  refine canon_ite (canon_ite (canon_putCell h _ _) (canon_postSq (canon_putCell h _ _) _ _)) ?_
  split
  · exact canon_putCell h _ _
  · exact canon_ite (canon_putCell h _ _) (canon_setPkg (canon_putBlock (canon_putCell h _ _) _ _) _)

theorem canon_bbReleaseCell (h : memCanonical s) (c) : memCanonical (bbReleaseCell s c) :=
  canon_modStrs (canon_ite (canon_putCell h _ _) (canon_l1DropClean (canon_putCell h _ _) _)) _ _

theorem canon_putMon (h : memCanonical s) (p m) : memCanonical (putMon s p m) :=
  canon_modStr h _ _

theorem canon_monRead (h : memCanonical s) (p m status) : memCanonical (monRead s p m status).1 := by
  unfold monRead
  refine canon_ite_fst h ?_
  refine canon_ite_fst h ?_
  dsimp only
  split <;> exact canon_flushRange h _ _ _

theorem canon_armMonitor (h : memCanonical s) (p m) : memCanonical (armMonitor s p m) := by
  unfold armMonitor
  dsimp only
  refine canon_ite ?_ ?_
  · split
    · next e => exact canon_putMon (canon_dropFar (canon_newRequest h e) _ _ _) _ _
    · exact canon_putMon h _ _
  · refine canon_ite (canon_putMon h _ _) ?_
    have hm := canon_monRead h p m 0
    split
    · next e => exact canon_putMon (canon_of_fst hm e) _ _
    · next e => exact canon_ite (canon_putMon (canon_of_fst hm e) _ _) (canon_putMon (canon_of_fst hm e) _ _)

theorem canon_wrZ (h : memCanonical s) (p ks n v) : memCanonical (wrZ s p ks n v) :=
  canon_ite (canon_wrW h _ _ _) (canon_wrG h _ _ _)

theorem canon_putE (h : memCanonical s) (p n v fl) : memCanonical (putE s p n v fl) :=
  canon_wrEf (canon_wrE h _ _ _) _ _ _

end Sys2Proof.Machine
end

section
/-!
PROOFS. Memory stays in canonical form: memory work, transfers, the matrix engine and the system.
-/
namespace Sys2Proof.Machine

open Sys2Proof

variable {s : State}

theorem canon_noteAcq (h : memCanonical s) (p id o) : memCanonical (noteAcq s p id o) := by
  unfold noteAcq
  split
  · exact h
  · exact canon_ite (canon_modStr h _ _) h

theorem canon_memLane (h : memCanonical s) (m src p) : memCanonical (memLane m src s p) :=
  canon_noteAcq (canon_startWork h _) _ _ _

theorem canon_occupyOne {x : State × Nat} (h : memCanonical x.1) (rows b) : memCanonical (occupyOne rows x b).1 := by
  unfold occupyOne
  exact canon_putCell h _ _

theorem canon_occupy (h : memCanonical s) (rows) : memCanonical (occupy s rows).1 := by
  unfold occupy
  generalize dedupN ((dedupR rows).map fun r => (r.1, r.2.1)) = l
  exact List.foldlRecOn (motive := fun x : State × Nat => memCanonical x.1) l _ h fun _ hx _ _ => canon_occupyOne hx _ _

theorem canon_delayFrom (h : memCanonical s) (n late) : memCanonical (delayFrom s n late) :=
  canon_ite h (canon_setPend h _)

theorem canon_quietTarget (h : memCanonical s) (c sup ok va) : memCanonical (quietTarget s c sup ok va).1 := by
  unfold quietTarget
  refine canon_ite_fst h ?_
  split
  · exact h
  · split
    · exact h
    · exact canon_ite h (canon_putCell h _ _)

theorem canon_prefetchAt (h : memCanonical s) (p va t) : memCanonical (prefetchAt s p va t) := by
  unfold prefetchAt
  dsimp only
  split
  · exact canon_ite h (canon_ite (canon_startWork h _) (canon_l1Fill h _ _ _))
  · exact canon_ite h (canon_getD h fun _ e => canon_newRequest h e)
  · exact h

theorem canon_prefetch (h : memCanonical s) (sup p va) : memCanonical (prefetch sup p s va) :=
  canon_prefetchAt (canon_quietTarget h _ _ _ _) _ _ _

theorem canon_parkDone (h : memCanonical s) (src w) : memCanonical (parkDone src s w) :=
  canon_foldl (fun _ _ hu => canon_modStr hu _ _) _ h

theorem canon_markAcq (h : memCanonical s) (sc ids) : memCanonical (markAcq s sc ids) :=
  canon_setPend h _

theorem canon_waitLand (h : memCanonical s) (s' p d) : memCanonical (waitLand s' s p d) := by
  unfold waitLand
  split
  · split
    · exact canon_modStr h _ _
    · exact canon_wrReg (canon_wrReg h _ _ _) _ _ _
    · exact h
  · exact h

theorem canon_sendJoin (h : memCanonical s) (c tag join) : memCanonical (sendJoin s c tag join) :=
  canon_takeFresh (canon_setJoins h _)

theorem canon_subOne (h : memCanonical s) (c v) : memCanonical (subOne s c v) := by
  unfold subOne
  split
  · dsimp only
    split
    · exact canon_putCell h _ _
    · exact canon_sendJoin (canon_putCell h _ _) _ _ _
  · dsimp only
    split
    · exact canon_putCell h _ _
    · exact h

theorem canon_unsubOne (h : memCanonical s) (c v) : memCanonical (unsubOne s c v) := by
  unfold unsubOne
  split
  · exact canon_sendJoin (canon_putCell h _ _) _ _ _
  · exact h

theorem canon_parkSince (h : memCanonical s) (src n upto) : memCanonical (parkSince src s n upto) :=
  canon_ite h (canon_parkDone h _ _)

theorem canon_takeMsg (h : memCanonical s) (p) : memCanonical (takeMsg s p) := by
  unfold takeMsg
  dsimp only
  split
  · exact canon_modStr h _ _
  · exact canon_modStr (canon_clearSpill (canon_modStr h _ _) _) _ _

theorem canon_recvOne (h : memCanonical s) (s' p w) : memCanonical (recvOne s' s p w) := by
  unfold recvOne
  split
  · exact h
  · exact canon_landFixed (canon_acqL1 (canon_takeMsg h _) _ _) _ _ _

theorem canon_claimDest (h : memCanonical s) (s' c form cw sh) : memCanonical (claimDest s' s c form cw sh) :=
  canon_ite (canon_setClears h _) h

theorem canon_startXfer (h : memCanonical s) (s' p form cw nw src sh) : memCanonical (startXfer s' s p form cw nw src sh) :=
  canon_takeFresh (canon_setXfers (canon_claimDest h _ _ _ _ _) _)

theorem canon_startWalkOf (h : memCanonical s) (s' p cw nw entry start k) : memCanonical (startWalkOf s' s p cw nw entry start k) :=
  canon_takeFresh (canon_setChases h _)

theorem canon_accept (h : memCanonical s) (c p op ident rows) : memCanonical (accept s c p op ident rows) :=
  canon_takeFresh (canon_putCell h _ _)

theorem canon_runMma (h : memCanonical s) (c f acc a b) : memCanonical (runMma s c f acc a b) :=
  canon_foldl (fun _ _ hu => canon_wr hu _ _ _) _ h

theorem canon_killFor (h : memCanonical s) (r e access) : memCanonical (killFor s r e access) :=
  canon_contextKill h _ _

theorem canon_rowReject (h : memCanonical s) (j tb x pitch r t) : memCanonical (rowReject s j tb x pitch r t) :=
  canon_postFor h _ _

theorem canon_putSector (h : memCanonical s) (j acc i x) : memCanonical (putSector s j acc i x) := by
  unfold putSector
  split
  · exact canon_ite (canon_postFor h _ _) (canon_actAt (canon_flushRange h _ _ _) _ _ _ _)
  · exact canon_ite (canon_postFor h _ _) (canon_ite (canon_actAt h _ _ _ _) h)
  · exact h

theorem canon_getSector (h : memCanonical s) (j acc i x) : memCanonical (getSector s j acc i x) := by
  unfold getSector
  split
  · dsimp only
    split
    · exact canon_postFor (canon_flushRange h _ _ _) _ _
    · exact canon_wr (canon_flushRange h _ _ _) _ _ _
  · refine canon_ite ?_ h
    dsimp only
    split
    · exact canon_postFor h _ _
    · exact canon_wr h _ _ _
  · split
    · exact canon_wr h _ _ _
    · exact h
  · exact h

theorem canon_rejectRows (h : memCanonical s) (j tb x pitch) : memCanonical (rejectRows s j tb x pitch) :=
  canon_foldl (fun _ _ hu => canon_rowReject hu _ _ _ _ _ _) _ h

theorem canon_askFarRows (h : memCanonical s) (j acc write) : memCanonical (askFarRows s j acc write) := by
  unfold askFarRows
  refine canon_foldl (fun u q hu => ?_) _ h
  split
  · next e => exact canon_dropFar (canon_newRequest hu e) _ _ _
  · exact canon_postFor hu _ _

theorem canon_runOp (h : memCanonical s) (c j) : memCanonical (runOp s c j).1 := by
  have hput := fun acc l => canon_foldl (fun _ i hu => canon_putSector hu j acc i (rowAddr j.op i)) l h
  have hget := fun acc l => canon_foldl (fun _ i hu => canon_getSector hu j acc i (rowAddr j.op i)) l h
  unfold runOp
  split
  · split
    · exact canon_killFor h _ _ _
    · split
      · exact canon_postFor h _ _
      · dsimp only
        exact canon_runMma h _ _ _ _ _
  · dsimp only
    exact canon_setMem (memWf_memZero h _ _)
  · split
    · exact canon_killFor h _ _ _
    · dsimp only
      split
      · exact canon_tbPend (canon_rejectRows (hput _ _) _ _ _ _) _ _ _ _ _
      · exact canon_rejectRows (hput _ _) _ _ _ _
  · exact canon_rejectRows (hget _ _) _ _ _ _

theorem canon_askOnce (h : memCanonical s) {cell j t} (e : askOnce s cell j = some t) : memCanonical t := by
  unfold askOnce at e
  split at e
  · cases e
  · dsimp only at e
    split at e
    · exact Option.some.inj e ▸ canon_askFarRows (canon_putCell h _ _) _ _ _
    · exact Option.some.inj e ▸ canon_askFarRows (canon_putCell h _ _) _ _ _
    · cases e

theorem canon_writeStrandDw (h : memCanonical s) (pos i v) : memCanonical (writeStrandDw s pos i v) :=
  canon_ite (canon_modStr h _ _) (canon_ite (canon_foldl (fun _ _ hu => canon_wrP hu _ _ _) _ h) (canon_ite h (canon_ite (canon_wrG h _ _
    _) (canon_ite (canon_wrW h _ _ _) (canon_ite (canon_ite (canon_wrE h _ _ _) (canon_wrEf h _ _ _)) h)))))

theorem canon_writeRb (h : memCanonical s) (p v) : memCanonical (writeRb s p v) :=
  canon_ite (canon_writeStrandDw h _ _ _) h

theorem canon_srWrite (h : memCanonical s) (p n v) : memCanonical (srWrite s p n v) :=
  canon_ite (canon_putGang h _ _) (canon_ite (canon_putCell h _ _) (canon_ite (canon_putCell h _ _) (canon_ite (canon_setPkg h _)
    (canon_ite (canon_modStr h _ _) (canon_ite (canon_modStr h _ _) (canon_ite (canon_modStr h _ _) (canon_ite (canon_modStr h _ _)
    (canon_ite (canon_modStr h _ _) (canon_ite (canon_putCell h _ _) (canon_ite (canon_putCell h _ _) (canon_ite (canon_modStr h _ _)
    (canon_ite (canon_writeRb h _ _) h))))))))))))

theorem canon_invalidate (h : memCanonical s) (i) : memCanonical (invalidate s i) :=
  canon_setPkg (canon_setWalks (canon_setCells h _) _) _

theorem canon_lineOf (h : memCanonical s) (sup c va) : memCanonical (lineOf sup c s va).1 := by
  have hq := canon_quietTarget h c sup (fun e => e.rd && !e.dev) va
  unfold lineOf
  split <;> next e => exact canon_of_fst hq e

theorem canon_flushLine (h : memCanonical s) (c sec) : memCanonical (flushLine s c sec) := by
  unfold flushLine
  split
  · exact h
  · exact canon_ite (canon_takeFresh (canon_setStores h _)) (canon_l1Flush h _ _)

theorem canon_wakeUnit (h : memCanonical s) (p) : memCanonical (wakeUnit s p) :=
  canon_modStrs h _ _

theorem canon_landMark (h : memCanonical s) (e m) : memCanonical (landMark s e m) := by
  unfold landMark
  refine canon_ite h ?_
  refine canon_ite h ?_
  split
  · exact canon_modStr h _ _
  · exact canon_postFor h _ _

theorem canon_landValues (h : memCanonical s) (e) : memCanonical (landValues s e) :=
  canon_foldl (fun _ _ hu => canon_putVal hu _) _ h

theorem canon_landPend (h : memCanonical s) (id e) : memCanonical (landPend s id e) := by
  unfold landPend
  refine canon_ite (canon_setPend h _) ?_
  refine canon_ite (canon_storeDone (canon_setPend h _) _ _) ?_
  refine canon_ite ?_ (canon_setPend h _)
  refine canon_retireCheck ?_ _
  split
  · exact canon_landMark (canon_setPend h _) _ _
  · exact canon_landValues (canon_setPend h _) _

theorem canon_endBanking (h : memCanonical s) (c) : memCanonical (endBanking s c) :=
  canon_modStrs (canon_putCell (canon_l1WriteBack h _) _ _) _ _

theorem canon_spillTo (h : memCanonical s) {pos gen key payload t} (e : spillTo s pos gen key payload = some t) : memCanonical t := by
  unfold spillTo at e
  dsimp only at e
  split at e
  · cases e
  · split at e
    · cases e
    · split at e
      · cases e
      · exact Option.some.inj e ▸ canon_putCell (canon_writeDwords h _ _) _ _

theorem canon_refuse (h : memCanonical s) (c) : memCanonical (refuse s c) :=
  canon_ite (canon_putCell h _ _) (canon_postSq (canon_putCell h _ _) _ _)

theorem canon_spillQueue (h : memCanonical s) {pos t} (e : spillQueue s pos = some t) : memCanonical t := by
  unfold spillQueue at e
  dsimp only at e
  split at e
  · exact Option.some.inj e ▸ h
  · refine List.foldlRecOn (motive := fun o : Option State => ∀ u, o = some u → memCanonical u) _ _ ?_ ?_ t e
    · exact fun _ hu => Option.some.inj hu ▸ canon_foldl (fun _ _ hu => canon_clearSpill hu _) _ (canon_modStr h _ _)
    · intro o ho m _ v hv
      obtain ⟨u, hu, hv⟩ := Option.bind_eq_some_iff.1 hv
      exact canon_spillTo (ho u hu) hv

theorem canon_arrive (h : memCanonical s) (m) : memCanonical (arrive s m).1 := by
  have hspill : ∀ gen key, memCanonical (match spillTo s (msgPos m.dst) gen key m.payload with
      | some v => (v, true)
      | none => (refuse s (msgCell m.dst), false)).1 := fun gen key => by
    split
    · next e => exact canon_spillTo h e
    · exact canon_refuse h _
  unfold arrive
  refine canon_ite_fst (canon_ite_fst (canon_modStr h _ _) (hspill _ _)) (canon_ite_fst (hspill _ _) (canon_orphanMsg h _ _ _))

theorem canon_dropMsg (h : memCanonical s) (m code) : memCanonical (dropMsg s m code) :=
  canon_postFor h _ _

theorem canon_sendMsg (h : memCanonical s) (m) : memCanonical (sendMsg s m) := by
  have h1 := fun l => canon_takeFresh (canon_setFlying h l)
  unfold sendMsg
  refine canon_ite (canon_ite (canon_dropMsg h _ _) (h1 _)) ?_
  split
  · next e => exact canon_newRequest (h1 _) e
  · exact canon_dropMsg (canon_setFlying (h1 _) _) _ _

theorem canon_injectFrom (h : memCanonical s) (l) : memCanonical (injectFrom s l).1 := by
  induction l generalizing s with
  | nil => exact h
  | cons m r ih => exact canon_ite_fst (ih h) (ih (canon_sendMsg h _))

theorem canon_injectAll (h : memCanonical s) (c) : memCanonical (injectAll s c) :=
  canon_putCell (canon_injectFrom h _) _ _

theorem canon_frameZero (h : memCanonical s) (pa n) : memCanonical (frameZero s pa n) :=
  canon_foldl (fun _ _ hu => canon_setPoison (canon_setMem (memWf_memZero hu _ _)) _) _ h

theorem canon_frameOut (h : memCanonical s) (pa src n) : memCanonical (frameOut s pa src n) :=
  canon_foldl (fun _ _ hu => canon_setMem (memWf_memCopy hu _ _ _)) _ h

theorem canon_frameIn (h : memCanonical s) (pa dst n) : memCanonical (frameIn s pa dst n) :=
  canon_foldl (fun _ _ hu => canon_setMem (memWf_memCopy hu _ _ _)) _ h

theorem canon_frameDws (h : memCanonical s) (pa n f) : memCanonical (frameDws s pa n f) :=
  canon_foldl (fun _ _ hu => canon_wr hu _ _ _) _ h

theorem canon_frameFire (h : memCanonical s) (pa n) : memCanonical (frameFire s pa n) :=
  canon_setAgenda h _

theorem canon_writeGangRecs (h : memCanonical s) (b i lead) : memCanonical (writeGangRecs s b i lead) :=
  canon_foldl (fun _ _ hu => canon_frameDws hu _ _ _) _ (canon_frameDws h _ _ _)

theorem canon_writeCellRecs (h : memCanonical s) (b i c) : memCanonical (writeCellRecs s b i c) :=
  canon_frameDws (canon_frameDws (canon_frameDws h _ _ _) _ _ _) _ _ _

theorem canon_writeRecord (h : memCanonical s) (b i c) : memCanonical (writeRecord s b i c) :=
  canon_frameFire (canon_frameOut (canon_frameOut (canon_foldl (fun _ _ hu => canon_frameDws hu _ _ _) _ (canon_frameDws (canon_foldl (fun
    _ _ hu => canon_frameDws hu _ _ _) _ (canon_ite (canon_frameDws (canon_frameDws (canon_frameDws (canon_frameDws (canon_writeCellRecs
    (canon_frameZero h _ _) _ _ _) _ _ _) _ _ _) _ _ _) _ _ _) (canon_frameDws (canon_frameDws (canon_frameDws (canon_writeCellRecs
    (canon_frameZero h _ _) _ _ _) _ _ _) _ _ _) _ _ _))) _ _ _)) _ _ _) _ _ _) _ _

end Sys2Proof.Machine
end

section
/-!
PROOFS. Memory stays in canonical form: blocks and grids, power, the fabric, and a cycle.
-/
namespace Sys2Proof.Machine

open Sys2Proof

variable {s : State}

theorem canon_killSave (h : memCanonical s) (b) : memCanonical (killSave s b) :=
  canon_contextKill h _ _

theorem canon_zeroGangRecs (h : memCanonical s) (b i c) : memCanonical (zeroGangRecs s b i c) :=
  canon_foldl (fun _ _ hu => canon_frameDws hu _ _ _) _ h

theorem canon_savedCheck (h : memCanonical s) (b) : memCanonical (savedCheck s b) :=
  canon_ite (canon_ite (canon_killSave h _) (canon_putBlock (canon_foldl (fun _ _ hu => canon_zeroGangRecs (canon_writeCellRecs hu _ _ _) _
    _ _) _ h) _ _)) h

theorem canon_withdraw (h : memCanonical s) (c ls) : memCanonical (withdraw s c ls) :=
  canon_ite h (canon_putCell h _ _)

theorem canon_clearCell (h : memCanonical s) (b c) : memCanonical (clearCell s b c) :=
  canon_putCell (canon_foldl (fun _ _ hu => canon_putStr hu _ _) _ (canon_foldl (fun _ _ hu => canon_dropGang hu _) _ (canon_drainSq
    (canon_l1WriteBack h _) _))) _ _

theorem canon_spillAll (h : memCanonical s) (l) : memCanonical (spillAll s l).1 := by
  induction l generalizing s with
  | nil => exact h
  | cons p r ih =>
    unfold spillAll
    split
    · next e => exact ih (canon_spillQueue h e)
    · exact ih (canon_refuse h _)

theorem canon_raiseAgain (h : memCanonical s) (p) : memCanonical (raiseAgain s p) :=
  canon_ite (canon_putCell h _ _) h

theorem canon_resumeBlock (h : memCanonical s) (b) : memCanonical (resumeBlock s b) :=
  canon_putBlock (canon_foldl (fun _ _ hu => canon_raiseAgain hu _) _ (canon_foldl (fun _ _ hu => canon_modStr hu _ _) _ (canon_foldl (fun
    _ _ hu => canon_l1DropClean hu _) _ h))) _ _

theorem canon_chargeQuota (h : memCanonical s) (q c) : memCanonical (chargeQuota s q c) :=
  canon_putCell h _ _

theorem canon_runQuantum (h : memCanonical s) (b) : memCanonical (runQuantum s b) :=
  canon_ite (canon_putBlock h _ _) (canon_resumeBlock (canon_putBlock h _ _) _)

theorem canon_startQuantum (h : memCanonical s) (b len) : memCanonical (startQuantum s b len) := by
  unfold startQuantum
  dsimp only
  split
  · exact canon_ite (canon_postLog (canon_preempt (canon_putBlock (canon_putBlock (canon_foldl (fun _ _ hu => canon_chargeQuota hu _ _) _
      h) _ _) _ _) _ _) _) (canon_runQuantum (canon_putBlock (canon_foldl (fun _ _ hu => canon_chargeQuota hu _ _) _ h) _ _) _)
  · exact canon_runQuantum (canon_putBlock (canon_foldl (fun _ _ hu => canon_chargeQuota hu _ _) _ h) _ _) _

theorem canon_endQuantum (h : memCanonical s) (b) : memCanonical (endQuantum s b) :=
  canon_ite (canon_preempt h _ _) (canon_startQuantum h _ _)

theorem canon_loadStrand (h : memCanonical s) (pos pa) : memCanonical (loadStrand s pos pa) :=
  canon_foldl (fun _ _ hu => canon_ite (canon_setAlley hu _) hu) _ (canon_foldl (fun _ _ hu => canon_wrEf (canon_wrE hu _ _ _) _ _ _) _
    (canon_foldl (fun _ _ hu => canon_wrW hu _ _ _) _ (canon_foldl (fun _ _ hu => canon_wrG hu _ _ _) _ (canon_foldl (fun _ _ hu =>
    canon_wrP hu _ _ _) _ h))))

theorem canon_loadGang (h : memCanonical s) (lead pa) : memCanonical (loadGang s lead pa) :=
  canon_foldl (fun _ _ hu => canon_modStr hu _ _) _ (canon_putGang (canon_foldl (fun _ _ hu => canon_wrJ hu _ _ _) _ (canon_foldl (fun _ _
    hu => canon_wrK hu _ _ _) _ h)) _ _)

theorem canon_loadCell (h : memCanonical s) (b i c cx cy k) : memCanonical (loadCell s b i c cx cy k) :=
  canon_putCell (canon_foldl (fun _ _ hu => canon_wrH hu _ _ _) _ (canon_setBadRegs (canon_setAbsent (canon_frameIn (canon_frameIn
    (canon_frameIn (canon_setPoison (canon_setMem (memWf_memZero (memWf_memZero (memWf_memZero h _ _) _ _) _ _)) _) _ _ _) _ _ _) _ _ _) _)
    _)) _ _

theorem canon_rangeRecs (h : memCanonical s) (c l) : memCanonical (rangeRecs s c l) :=
  canon_foldl (fun _ _ hu => canon_postSq hu _ _) _ h

theorem canon_loadStrands (h : memCanonical s) (b i c old new k) : memCanonical (loadStrands s b i c old new k) :=
  canon_foldl (fun _ _ hu => canon_loadGang hu _ _) _ (canon_foldl (fun _ _ hu => canon_loadStrand (canon_putStr (canon_clearRegs hu _) _
    _) _ _) _ h)

theorem canon_pullSpilled (h : memCanonical s) (p q gen key n) : memCanonical (pullSpilled s p q gen key n) := by
  induction n generalizing s with
  | zero => exact h
  | succ n ih =>
    unfold pullSpilled
    refine canon_ite h ?_
    split
    · exact h
    · exact ih (canon_modStr (canon_clearSpill h _) _ _)

theorem canon_moveSpilled (h : memCanonical s) (p q gen key n) : memCanonical (moveSpilled s p q gen key n) := by
  induction n generalizing s with
  | zero => exact h
  | succ n ih =>
    unfold moveSpilled
    split
    · exact h
    · split
      · exact h
      · next e => exact ih (canon_spillTo (canon_clearSpill h _) e)

theorem canon_orphanStale (h : memCanonical s) (q gen key why) : memCanonical (orphanStale s q gen key why) :=
  canon_foldl (fun _ _ hu => canon_orphanMsg (canon_clearSpill hu _) _ _ _) _ h

theorem canon_recheckSpilled (h : memCanonical s) (p q key) : memCanonical (recheckSpilled s p q key) :=
  canon_orphanStale (canon_ite (canon_pullSpilled h _ _ _ _ _) (canon_moveSpilled (canon_pullSpilled h _ _ _ _ _) _ _ _ _ _)) _ _ _ _

theorem canon_recheckFree (h : memCanonical s) (k key) : memCanonical (recheckFree s k key) :=
  canon_foldl (fun _ _ hu => canon_orphanStale hu _ _ _ _) _ h

theorem canon_restoreBlock (h : memCanonical s) (b die nw slots) : memCanonical (restoreBlock s b die nw slots) :=
  canon_ite (canon_contextKill (canon_setPkg h _) _ _) (canon_startQuantum (canon_foldl (fun _ _ hu => canon_foldl (fun _ _ hu1 =>
    canon_recheckSpilled hu1 _ _ _) _ (canon_recheckFree hu _ _)) _ (canon_foldl (fun _ _ hu => canon_bankCheck hu _ _ _) _ (canon_foldl
    (fun _ _ hu => canon_rangeRecs hu _ _) _ (canon_ite (canon_foldl (fun _ _ hu => canon_foldl (fun _ _ hu1 => canon_sendJoin hu1 _ _ _) _
    hu) _ (canon_foldl (fun _ _ hu => canon_l1DropClean (canon_loadStrands (canon_loadCell hu _ _ _ _ _ _) _ _ _ _ _ _) _) _
    (canon_putBlock (canon_ite (canon_foldl (fun _ _ hu => canon_dropHeld hu _ _) _ (canon_setPkg h _)) (canon_setPkg h _)) _ _)))
    (canon_foldl (fun _ _ hu => canon_l1DropClean (canon_loadStrands (canon_loadCell hu _ _ _ _ _ _) _ _ _ _ _ _) _) _ (canon_putBlock
    (canon_ite (canon_foldl (fun _ _ hu => canon_dropHeld hu _ _) _ (canon_setPkg h _)) (canon_setPkg h _)) _ _)))))) _ _)

theorem canon_moveCell (h : memCanonical s) (b c d) : memCanonical (moveCell s b c d) :=
  canon_foldl (fun _ _ hu => canon_sendJoin (canon_sendJoin hu _ _ _) _ _ _) _ (canon_putCell (canon_putCell (canon_foldl (fun _ _ hu =>
    canon_ite hu (canon_putStr hu _ _)) _ (canon_setGangs (canon_setStrands (canon_setAlley (canon_setJs (canon_setKs (canon_setEflags
    (canon_setEs (canon_setPs (canon_setWs (canon_setGs (canon_setHs (canon_setPoison (canon_setAbsent (canon_setMem (memWf_memZero
    (memWf_memZero (memWf_memZero (memWf_memCopy (memWf_memCopy (memWf_memCopy (canon_l1WriteBack h _) _ _ _) _ _ _) _ _ _) _ _) _ _) _ _))
    _) _) _) _) _) _) _) _) _) _) _) _) _)) _ _) _ _)

theorem canon_follow (h : memCanonical s) (b there) : memCanonical (follow s b there) :=
  canon_setDelivs (canon_setChases (canon_setXfers h _) _) _

theorem canon_putBytes (h : memCanonical s) (r va loc a l) : memCanonical (putBytes s r va loc a l) :=
  canon_ite (canon_ite h (canon_actAt h _ _ _ _)) (canon_actAt (canon_ite h (canon_actAt h _ _ _ _)) _ _ _ _)

theorem canon_deliverLive (h : memCanonical s) (d c win tb off) : memCanonical (deliverLive s d c win tb off).1 :=
  canon_ite_fst h (canon_tbPend (canon_ite h (canon_putBytes h _ _ _ _ _)) _ _ _ _ _)

theorem canon_imagePend (h : memCanonical s) (r b i tb n err) : memCanonical (imagePend s r b i tb n err) :=
  canon_ite (canon_actAt h _ _ _ _) (canon_putBlock (canon_actAt h _ _ _ _) _ _)

theorem canon_deliverImage (h : memCanonical s) (d b i win tb off) : memCanonical (deliverImage s d b i win tb off).1 :=
  canon_ite_fst h (canon_imagePend (canon_ite h (canon_putBytes h _ _ _ _ _)) _ _ _ _ _ _)

theorem canon_deliverTo (h : memCanonical s) (d b i win tb off) : memCanonical (deliverTo s d b i win tb off).1 := by
  unfold deliverTo
  split
  · exact h
  · exact canon_deliverImage h _ _ _ _ _ _
  · exact canon_deliverLive h _ _ _ _ _

theorem canon_deliverAt (h : memCanonical s) (d) : memCanonical (deliverAt s d).1 := by
  unfold deliverAt
  split
  · split
    · exact canon_ite_fst h (canon_ite_fst h (canon_deliverTo h _ _ _ _ _ _))
    · refine canon_ite_fst h ?_
      refine canon_ite_fst (canon_deliverTo h _ _ _ _ _ _) ?_
      split
      · exact canon_deliverTo h _ _ _ _ _ _
      · exact h
  · split
    · exact canon_ite_fst h (canon_ite_fst h (canon_deliverTo h _ _ _ _ _ _))
    · refine canon_ite_fst h ?_
      refine canon_ite_fst (canon_deliverTo h _ _ _ _ _ _) ?_
      split
      · exact canon_deliverTo h _ _ _ _ _ _
      · exact h

theorem canon_postRej (h : memCanonical s) (r ntb j) : memCanonical (postRej s r ntb j) :=
  canon_ite (canon_postFor h _ _) (canon_ite (canon_postLog (canon_postFor h _ _) _) (canon_postSq (canon_postFor h _ _) _ _))

theorem canon_notice (h : memCanonical s) (r ntb n err) : memCanonical (notice s r ntb n err) := by
  unfold notice
  dsimp only
  split
  · exact h
  · exact canon_imagePend h _ _ _ _ _ _
  · exact canon_tbPend h _ _ _ _ _

theorem canon_settleXfer (h : memCanonical s) (id d vs far) : memCanonical (settleXfer s id d vs far) := by
  unfold settleXfer
  split
  · exact h
  · exact canon_setXfers h _

theorem canon_settleWalk (h : memCanonical s) (id d vs far) : memCanonical (settleWalk s id d vs far) := by
  unfold settleWalk
  split
  · exact h
  · exact canon_ite (canon_setAgenda (canon_setChases h _) _) (canon_setChases h _)

theorem canon_settle (h : memCanonical s) (d vs far) : memCanonical (settle s d vs far) := by
  unfold settle
  split
  · exact canon_settleXfer h _ _ _ _
  · exact canon_settleWalk h _ _ _ _
  · exact h

theorem canon_markErr (h : memCanonical s) (d) : memCanonical (markErr s d) := by
  unfold markErr
  split
  · split
    · exact canon_setXfers h _
    · exact h
  · split
    · exact canon_setChases h _
    · exact h
  · exact h

theorem canon_sendLocal (h : memCanonical s) (source d) : memCanonical (sendLocal s source d) :=
  canon_ite (canon_takeFresh (canon_setDelivs (canon_markErr (canon_postFor h _ _) _) _)) (canon_takeFresh (canon_setDelivs h _))

theorem canon_sendFar (h : memCanonical s) (source d pkg die cell tag) : memCanonical (sendFar s source d pkg die cell tag) := by
  have h1 := fun l => canon_takeFresh (canon_setDelivs h l)
  unfold sendFar
  dsimp only
  split
  · next e => exact canon_newRequest (h1 _) e
  · exact canon_markErr (canon_settle (canon_postFor (canon_setDelivs (h1 _) _) _ _) _ _ _) _

theorem canon_sendPiece (h : memCanonical s) (id x at_ src l bad) : memCanonical (sendPiece s id x at_ src l bad) := by
  unfold sendPiece
  split
  · exact canon_sendLocal h _ _
  · exact canon_ite (canon_sendLocal h _ _) (canon_sendFar h _ _ _ _ _ _)
  · exact canon_ite (canon_foldl (fun _ _ hu => canon_sendLocal hu _ _) _ h) (canon_sendFar h _ _ _ _ _ _)

theorem canon_tookPiece (h : memCanonical s) (id x n err) : memCanonical (tookPiece s id x n err) :=
  canon_setXfers h _

theorem canon_pieceRead (h : memCanonical s) (id x src l bad rec) : memCanonical (pieceRead s id x src l bad rec) := by
  unfold pieceRead
  refine canon_sendPiece ?_ _ _ _ _ _ _
  refine canon_tookPiece ?_ _ _ _ _
  split
  · exact canon_postFor h _ _
  · exact h

theorem canon_noteMoved (h : memCanonical s) (id x src n) : memCanonical (noteMoved s id x src n) :=
  canon_setXfers h _

theorem canon_xferReply (h : memCanonical s) (id data bad) : memCanonical (xferReply s id data bad) := by
  unfold xferReply
  split
  · exact h
  · split <;> exact canon_pieceRead h _ _ _ _ _ _

theorem canon_bbReleaseAll (h : memCanonical s) (b) : memCanonical (bbReleaseAll s b) :=
  canon_dropBbRecord (canon_foldl (fun _ _ hu => canon_putCell hu _ _) _ h) _

theorem canon_putWalk (h : memCanonical s) (id w) : memCanonical (putWalk s id w) :=
  canon_setChases h _

theorem canon_engTranslate (h : memCanonical s) (id w va al k) : memCanonical (engTranslate s id w va al k).1 := by
  unfold engTranslate
  refine canon_ite_fst h ?_
  refine canon_ite_fst h ?_
  refine canon_ite_fst h ?_
  split
  · dsimp only
    split
    · exact canon_putWalk h _ _
    · exact h
    · refine canon_ite_fst ?_ (canon_setPkg (canon_ite h (canon_setPkg h _)) _)
      split
      · exact canon_ite h (canon_setPkg h _)
      · split <;> exact canon_ite h (canon_setPkg h _)
  · dsimp only
    split
    · exact canon_putWalk h _ _
    · exact h
    · refine canon_ite_fst ?_ (canon_setPkg (canon_ite h (canon_setPkg h _)) _)
      split
      · exact canon_ite h (canon_setPkg h _)
      · split <;> exact canon_ite h (canon_setPkg h _)

theorem canon_endWalk (h : memCanonical s) (id w cause) : memCanonical (endWalk s id w cause) := by
  unfold endWalk
  dsimp only
  split
  · exact canon_putWalk (canon_putWalk h _ _) _ _
  · exact canon_putWalk h _ _

theorem canon_breakLive (h : memCanonical s) (c tb) : memCanonical (breakLive s c tb) :=
  canon_ite (canon_putBar h _ _ _) h

theorem canon_breakBarrier (h : memCanonical s) (b i tb) : memCanonical (breakBarrier s b i tb) := by
  unfold breakBarrier
  split
  · exact h
  · exact canon_ite (canon_wrHome h _ _ _) h
  · exact canon_breakLive h _ _

theorem canon_breakAt (h : memCanonical s) (c tb key) : memCanonical (breakAt s c tb key) := by
  unfold breakAt
  split
  · exact canon_breakBarrier h _ _ _
  · exact h

theorem canon_breakConsumer (h : memCanonical s) (w) : memCanonical (breakConsumer s w) := by
  unfold breakConsumer
  split
  · exact canon_ite h (canon_breakBarrier h _ _ _)
  · exact canon_ite (canon_breakAt h _ _ _) (canon_getD h fun _ e => canon_newRequest h e)
  · exact h

theorem canon_finishWalk (h : memCanonical s) (id w) : memCanonical (finishWalk s id w) := by
  unfold finishWalk
  refine canon_ite ?_ ?_
  · refine canon_setChases ?_ _
    refine canon_foldl (fun _ _ hu => canon_postRej hu _ _ _) _ ?_
    split
    · exact h
    · exact canon_postFor (canon_breakConsumer h _) _ _
  · refine canon_ite ?_ ?_
    · refine canon_notice ?_ _ _ _ _
      refine canon_postFor ?_ _ _
      refine canon_setChases ?_ _
      refine canon_foldl (fun _ _ hu => canon_postRej hu _ _ _) _ ?_
      split
      · exact h
      · exact canon_postFor (canon_breakConsumer h _) _ _
    · refine canon_notice ?_ _ _ _ _
      refine canon_setChases ?_ _
      refine canon_foldl (fun _ _ hu => canon_postRej hu _ _ _) _ ?_
      split
      · exact h
      · exact canon_postFor (canon_breakConsumer h _) _ _

theorem canon_engDeliver (h : memCanonical s) (id w a l) : memCanonical (engDeliver s id w a l) := by
  unfold engDeliver
  split
  · exact canon_sendLocal (canon_putWalk h _ _) _ _
  · exact canon_ite (canon_sendLocal (canon_putWalk h _ _) _ _) (canon_sendFar (canon_putWalk h _ _) _ _ _ _ _ _)
  · exact canon_putWalk h _ _

theorem canon_engNext (h : memCanonical s) (id w) : memCanonical (engNext s id w) :=
  canon_putWalk h _ _

/-- The state in which an access of a walk ends. -/
def EngDone.after : EngDone → State
  | .wait u => u
  | .fail u => u
  | .done u _ => u

theorem canon_engAccess (h : memCanonical s) (id w va t op) : memCanonical (engAccess s id w va t op).after := by
  unfold engAccess
  split
  · split
    · exact canon_putWalk h _ _
    · split
      · exact h
      · have ha := fun loc => canon_actAt h w.req va loc op
        split
        · next e => exact canon_of_fst (ha _) e
        · next e => exact canon_of_fst (ha _) e
  · split
    · split
      · exact h
      · exact h
    · dsimp only
      split
      · next e => exact canon_putWalk (canon_newRequest h e) _ _
      · exact h
  · exact h

/-- An access that ends so leaves memory so. -/
theorem canon_engAfter {id w va t op x} (h : memCanonical s) (e : engAccess s id w va t op = x) : memCanonical x.after :=
  e ▸ canon_engAccess h id w va t op

theorem canon_engMemory (h : memCanonical s) (id w m) : memCanonical (engMemory s id w m) := by
  unfold engMemory
  dsimp only
  split
  · exact h
  · next a _ _ =>
    refine canon_ite (canon_ite (canon_endWalk h _ _ _) ?_) ?_
    · split
      · exact canon_engNext (canon_engDeliver h _ _ _ _) _ _
      · exact h
    · have ht := canon_engTranslate h id w a.ask.va a.ask.al a.ask.kind
      split
      · exact ht
      · exact canon_endWalk ht _ _ _
      · split
        · next e => exact canon_engAfter ht e
        · next e => exact canon_endWalk (canon_engAfter ht e) _ _ _
        · next e => exact canon_engNext (canon_engAfter ht e) _ _

theorem canon_engPlain (h : memCanonical s) (id w f) : memCanonical (engPlain s id w f) := by
  unfold engPlain
  dsimp only
  split
  · exact canon_endWalk h _ _ _
  · exact canon_engNext (canon_setFresh h _) _ _

theorem canon_engWord (h : memCanonical s) (id w v) : memCanonical (engWord s id w v) := by
  unfold engWord
  split
  · exact canon_endWalk h _ _ _
  · refine canon_ite (canon_endWalk h _ _ _) ?_
    refine canon_ite (canon_engNext h _ _) ?_
    refine canon_ite (canon_endWalk h _ _ _) ?_
    refine canon_ite (canon_engNext h _ _) ?_
    split
    · exact canon_engMemory h _ _ _
    · split
      · exact canon_engPlain h _ _ _
      · exact canon_endWalk h _ _ _

theorem canon_engFetch (h : memCanonical s) (id w) : memCanonical (engFetch s id w) := by
  have ht := canon_engTranslate h id w w.pc 4 .fetch
  unfold engFetch
  dsimp only
  split
  · exact ht
  · exact canon_endWalk ht _ _ _
  · split
    · next e => exact canon_engAfter ht e
    · next e => exact canon_endWalk (canon_engAfter ht e) _ _ _
    · next e => exact canon_engWord (canon_engAfter ht e) _ _ _
    · next e => exact canon_engWord (canon_engAfter ht e) _ _ _

theorem canon_walkReply (h : memCanonical s) (id v bad) : memCanonical (walkReply s id v bad) := by
  unfold walkReply
  split
  · exact h
  · exact canon_putWalk h _ _

theorem canon_wakePaid (h : memCanonical s) (p debt) : memCanonical (wakePaid s p debt) :=
  canon_wakeUnit (canon_modStrs h _ _) _

theorem canon_payRequests (h : memCanonical s) (c n) : memCanonical (payRequests s c n) := by
  induction n generalizing s with
  | zero => exact h
  | succ n ih =>
    unfold payRequests
    split
    · exact h
    · exact canon_ite h (canon_ite (canon_sitOut h _) (ih (canon_afterPay (canon_wakePaid (canon_putCell (canon_payTokens h _ _) _ _) _ _)
        _)))

theorem canon_claimRet (h : memCanonical s) : memCanonical (claimRet s) := by
  unfold claimRet
  refine canon_ite h ?_
  split <;> exact canon_setPkg h _

theorem canon_claimLau (h : memCanonical s) : memCanonical (claimLau s) := by
  unfold claimLau
  split
  · dsimp only
    split
    · exact canon_ite (canon_setPkg h _) h
    · exact canon_setPkg h _
  · dsimp only
    split
    · exact canon_ite (canon_setPkg h _) h
    · exact canon_setPkg h _

theorem canon_freshCell (h : memCanonical s) (blk g c cx cy) : memCanonical (freshCell s blk g c cx cy) :=
  canon_putCell (canon_setBadRegs (canon_setHs (canon_setAbsent (canon_setPoison (canon_setMem (memWf_memZero (memWf_memZero (memWf_memZero
    h _ _) _ _) _ _)) _) _) _) _) _ _

theorem canon_freshSlot (h : memCanonical s) (g b c cx cy k sord) : memCanonical (freshSlot s g b c cx cy k sord) :=
  canon_foldl (fun _ _ hu => canon_ite (canon_putGang (canon_dropGang (canon_wrG (canon_newStrand hu _ _ _ _ _ _) _ _ _) _) _ _) (canon_wrG
    (canon_newStrand hu _ _ _ _ _ _) _ _ _)) _ h

theorem canon_killHeld (h : memCanonical s) (b) : memCanonical (killHeld s b) :=
  canon_ite (canon_contextKill h _ _) h

theorem canon_placeBlock (h : memCanonical s) (gid die nw slots) : memCanonical (placeBlock s gid die nw slots) :=
  canon_killHeld (canon_foldl (fun _ _ hu => canon_bankCheck hu _ _ _) _ (canon_foldl (fun _ _ hu => canon_foldl (fun _ _ hu1 =>
    canon_freshSlot hu1 _ _ _ _ _ _ _) _ (canon_freshCell hu _ _ _ _ _)) _ (canon_putGrid (canon_putBlock h _ _) _ _))) _

theorem canon_tryReturn (h : memCanonical s) {t} (e : tryReturn s = some t) : memCanonical t := by
  unfold tryReturn at e
  obtain ⟨b, -, hb⟩ := List.exists_of_findSome?_eq_some e
  dsimp only at hb
  split at hb
  · cases hb
  · obtain ⟨r, -, rfl⟩ := Option.map_eq_some_iff.1 hb
    exact canon_killHeld (canon_setPkg (canon_restoreBlock h _ _ _ _) _) _

theorem canon_tryLaunch (h : memCanonical s) {t} (e : tryLaunch s = some t) : memCanonical t := by
  unfold tryLaunch at e
  split at e
  · cases e
  · obtain ⟨r, -, rfl⟩ := Option.map_eq_some_iff.1 e
    have hu := fun p l => canon_placeBlock (canon_setPkg h p) l r.1 r.2.1 r.2.2
    exact canon_ite (canon_setPkg (hu _ _) _) (hu _ _)

theorem canon_finishBlock (h : memCanonical s) (b) : memCanonical (finishBlock s b) :=
  canon_putGrid (canon_endBlock h _ _) _ _

theorem canon_doneRefused (h : memCanonical s) (g cause) : memCanonical (doneRefused s g cause) :=
  canon_postLog h _

theorem canon_addDone (h : memCanonical s) (g) : memCanonical (addDone s g) := by
  unfold addDone
  refine canon_ite h ?_
  split
  · exact canon_doneRefused h _ _
  · split
    · exact canon_doneRefused h _ _
    · exact canon_wrHome h _ _ _
  · split
    · next e => exact canon_newRequest h e
    · exact canon_doneRefused h _ _
  · exact canon_doneRefused h _ _

theorem canon_launchRefused (h : memCanonical s) (win reason sval) : memCanonical (launchRefused s win reason sval) :=
  canon_postLog h _

theorem canon_tripNow (h : memCanonical s) (sensor) : memCanonical (tripNow s sensor) :=
  canon_ite h (canon_setPkg h _)

theorem canon_putRail (h : memCanonical s) (die rail held upto) : memCanonical (putRail s die rail held upto) :=
  canon_putDie h _ _

theorem canon_alarm (h : memCanonical s) (level source) : memCanonical (alarm s level source) :=
  canon_ite h (canon_ite (canon_postLog (canon_setPkg h _) _) (canon_foldl (fun _ _ hu => canon_contextKill hu _ _) _ (canon_postLog
    (canon_setPkg h _) _)))

theorem canon_putTries (h : memCanonical s) (kind die hop dir n) : memCanonical (putTries s kind die hop dir n) :=
  canon_setPkg h _

theorem canon_hostErr (h : memCanonical s) (code a n) : memCanonical (hostErr s code a n) :=
  canon_postLog h _

theorem canon_hostPiece (h : memCanonical s) (a n v) : memCanonical (hostPiece s a n v) := by
  unfold hostPiece
  refine canon_ite (canon_hostErr h _ _ _) ?_
  split
  · exact canon_wrHome h _ _ _
  · exact canon_ite (canon_setPoison (canon_wrHome h _ _ _) _) (canon_hostErr h _ _ _)

theorem canon_changeBytes (h : memCanonical s) (loc d n) : memCanonical (changeBytes s loc d n) := by
  induction n with
  | zero => exact h
  | succ n ih =>
    unfold changeBytes
    exact canon_ite ih (canon_wrHome ih _ _ _)

theorem canon_resetAll (h : memCanonical s) : memCanonical (resetAll s) :=
  canon_setPoison (canon_setMem (memWf_trange h _ _)) _

theorem canon_putRstctl (h : memCanonical s) (v) : memCanonical (putRstctl s v) :=
  canon_ite (canon_resetAll h) h

theorem canon_putRingcfg (h : memCanonical s) (die v) : memCanonical (putRingcfg s die v) :=
  canon_putDie h _ _

theorem canon_putSlotmask (h : memCanonical s) (c v) : memCanonical (putSlotmask s c v) := by
  unfold putSlotmask
  split
  · exact canon_ite (canon_preempt (canon_putCell h _ _) _ _) (canon_putCell h _ _)
  · exact canon_putCell h _ _

theorem canon_putCfence (h : memCanonical s) (c v) : memCanonical (putCfence s c v) :=
  canon_ite (canon_putCell h _ _) (canon_setPkg (canon_foldl (fun _ _ hu => canon_putBlock hu _ _) _ (canon_putCell h _ _)) _)

theorem canon_putRailsel (h : memCanonical s) (c v) : memCanonical (putRailsel s c v) :=
  canon_ite h (canon_putCell h _ _)

theorem canon_putMigcmd (h : memCanonical s) (v) : memCanonical (putMigcmd s v) := by
  unfold putMigcmd
  refine canon_ite (canon_setPkg h _) ?_
  dsimp only
  split
  · exact canon_preempt (canon_putBlock (canon_setPkg (canon_setPkg h _) _) _ _) _ _
  · exact canon_postLog (canon_setPkg h _) _

theorem canon_putAttctl (h : memCanonical s) (v) : memCanonical (putAttctl s v) :=
  canon_ite h (canon_ite (canon_setPkg h _) (canon_ite (canon_alarm (canon_setPkg h _) _ _) (canon_setPkg (canon_setPkg h _) _)))

theorem canon_portTo (h : memCanonical s) (n state) : memCanonical (portTo s n state) := by
  unfold portTo
  refine canon_ite h ?_
  split
  · exact canon_postLog (canon_putPort h _ _) _
  · exact canon_postLog (canon_putPort h _ _) _
  · exact canon_postLog (canon_putPort h _ _) _
  · exact canon_postLog (canon_putPort (canon_putPort h _ _) _ _) _
  · exact canon_putPort h _ _

theorem canon_putFabcfg (h : memCanonical s) (v) : memCanonical (putFabcfg s v) :=
  canon_ite (canon_setPkg h _) (canon_foldl (fun _ _ hu => canon_portTo hu _ _) _ (canon_setPkg h _))

theorem canon_putCellReg (h : memCanonical s) (c r v) : memCanonical (putCellReg s c r v) :=
  canon_ite (canon_putSlotmask h _ _) (canon_ite (canon_putRailsel h _ _) (canon_ite (canon_putCell h _ _) (canon_ite (canon_putCfence h _
    _) h)))

theorem canon_putMailbox (h : memCanonical s) (r v) : memCanonical (putMailbox s r v) :=
  canon_ite (canon_setPkg h _) (canon_ite (canon_setPkg h _) (canon_ite (canon_setPkg h _) (canon_ite (canon_setPkg h _) h)))

theorem canon_putRegister (h : memCanonical s) (off v) : memCanonical (putRegister s off v) :=
  canon_ite (canon_putFabcfg h _) (canon_ite (canon_putRstctl h _) (canon_ite (canon_setPkg h _) (canon_ite (canon_putMigcmd h _)
    (canon_ite (canon_setPkg h _) (canon_ite (canon_putAttctl h _) (canon_ite (canon_ite h (canon_setPkg h _)) (canon_ite (canon_putRingcfg
    h _ _) (canon_ite (canon_setPkg h _) (canon_ite (canon_putCellReg h _ _ _) (canon_ite (canon_setPkg h _) (canon_ite
    (canon_launchRefused h _ _ _) h)))))))))))

theorem canon_partReply (h : memCanonical s) (id ix v bad) : memCanonical (partReply s id ix v bad) := by
  unfold partReply
  split
  · exact h
  · split
    · exact h
    · refine canon_acqL1 ?_ _ _
      split
      · exact canon_dropFar (canon_setPend h _) _ _ _
      · exact canon_setPend h _

theorem canon_monReply (h : memCanonical s) (pos v bad) : memCanonical (monReply s pos v bad) := by
  unfold monReply
  split
  · exact h
  · refine canon_ite h ?_
    split
    · exact canon_putMon (canon_dropFar h _ _ _) _ _
    · exact canon_ite (canon_putMon (canon_dropFar h _ _ _) _ _) (canon_putMon (canon_dropFar h _ _ _) _ _)

theorem canon_fillReply (h : memCanonical s) (c key data bad) : memCanonical (fillReply s c key data bad) := by
  unfold fillReply
  split
  · exact canon_putCell h _ _
  · exact canon_modStrs h _ _

theorem canon_matReply (h : memCanonical s) (c id ix data bad) : memCanonical (matReply s c id ix data bad) := by
  unfold matReply
  split
  · exact h
  · split
    · exact canon_putCell h _ _
    · exact canon_postFor (canon_putCell h _ _) _ _

theorem canon_delivReply (h : memCanonical s) (id data bad) : memCanonical (delivReply s id data bad) := by
  unfold delivReply
  split
  · exact h
  · split
    · exact canon_settle (canon_setDelivs h _) _ _ _
    · split
      · dsimp only
        split
        · exact canon_setXfers (canon_settle (canon_postFor (canon_setDelivs h _) _ _) _ _ _) _
        · exact canon_settle (canon_postFor (canon_setDelivs h _) _ _) _ _ _
      · dsimp only
        split
        · exact canon_setChases (canon_settle (canon_postFor (canon_setDelivs h _) _ _) _ _ _) _
        · exact canon_settle (canon_postFor (canon_setDelivs h _) _ _) _ _ _
      · exact canon_settle (canon_postFor (canon_setDelivs h _) _ _) _ _ _

theorem canon_msgReply (h : memCanonical s) (id data bad) : memCanonical (msgReply s id data bad) := by
  unfold msgReply
  split
  · exact h
  · split
    · exact canon_dropMsg (canon_setFlying h _) _ _
    · exact canon_ite (canon_setFlying h _) (canon_setFlying h _)

theorem canon_answer (h : memCanonical s) (q data bad) : memCanonical (answer s q data bad) := by
  unfold answer
  split
  · exact canon_partReply h _ _ _ _
  · exact canon_xferReply h _ _ _
  · exact canon_monReply h _ _ _
  · exact canon_fillReply h _ _ _ _
  · exact canon_matReply h _ _ _ _ _
  · exact canon_walkReply h _ _ _
  · exact canon_delivReply h _ _ _
  · exact h
  · exact canon_msgReply h _ _ _
  · split
    · exact canon_doneRefused h _ _
    · exact h

theorem canon_releaseHeld (h : memCanonical s) (dst orig) : memCanonical (releaseHeld s dst orig) :=
  canon_ite h (canon_foldl (fun _ _ hu => canon_sendOn (canon_setPkg hu _) _ _) _ h)

theorem canon_completeReq (h : memCanonical s) (key q data bad) : memCanonical (completeReq s key q data bad) :=
  canon_releaseHeld (canon_answer (canon_setPkg h _) _ _ _) _ _

theorem canon_replyWith (h : memCanonical s) (port f ty data mask) : memCanonical (replyWith s port f ty data mask) :=
  canon_sendOn (canon_setPkg h _) _ _

theorem canon_replyBad (h : memCanonical s) (port f ty code) : memCanonical (replyBad s port f ty code) :=
  canon_replyWith h _ _ _ _ _

theorem canon_serveMemory (h : memCanonical s) (port f op) : memCanonical (serveMemory s port f op) := by
  have hw := fun loc => canon_writeDirty h loc (flitData f) (flitMask f) 32
  unfold serveMemory
  refine canon_ite (canon_replyBad h _ _ _ _) (canon_ite (canon_replyBad h _ _ _ _) (canon_ite ?_ (canon_ite ?_ ?_)))
  · split
    · exact canon_replyBad h _ _ _ _
    · exact canon_replyWith h _ _ _ _ _
  · split
    · exact canon_ite (canon_replyWith (canon_setPoison (hw _) _) _ _ _ _ _) (canon_replyBad h _ _ _ _)
    · exact canon_replyWith (hw _) _ _ _ _ _
  · have ha := canon_actAt h {} 0#64 (locPlace0 (flitAddr f)) (.amo op (flitOperands f op).1 (flitOperands f op).2.1 (flitOperands f
      op).2.2)
    dsimp only
    split
    · next e => exact canon_replyWith (canon_of_fst ha e) _ _ _ _ _
    · next e => exact canon_replyBad (canon_of_fst ha e) _ _ _ _
    · next e => exact canon_of_fst ha e

theorem canon_rejectAtC (h : memCanonical s) (d v) : memCanonical (rejectAtC s d v) :=
  canon_ite h (canon_ite (canon_postLog h _) (canon_postSq h _ _))

theorem canon_mcastSubs (h : memCanonical s) (src num tag) : memCanonical (mcastSubs s src num tag).1 :=
  canon_setPkg h _

/-- A delivery of another package, made and refused or not. -/
theorem canon_deliverRejected (h : memCanonical s) (d e) : memCanonical (rejectAtC (deliverAt s d).1 e (deliverAt s d).2) :=
  canon_rejectAtC (canon_deliverAt h d) _ _

theorem canon_serveDelivery (h : memCanonical s) (port f) : memCanonical (serveDelivery s port f) := by
  have hack : ∀ {t : State}, memCanonical t → ∀ (vs : List Verdict) (lost : Bool), memCanonical (if lost = true then replyBad t port f 4 8
      else replyWith t port f 4 (BitVec.ofNat 256 (answerData vs)) (BitVec.allOnes 32)) := fun ht vs lost =>
    canon_ite (canon_replyBad ht _ _ _ _) (canon_replyWith ht _ _ _ _ _)
  have hm := fun src num tag => canon_mcastSubs h src num tag
  unfold serveDelivery
  dsimp only
  split
  · split
    · exact hack (hm _ _ _) _ _
    · refine hack (List.foldlRecOn (motive := fun x : State × List Verdict => memCanonical x.1) _ _ (hm _ _ _) fun x hx q _ => ?_) _ _
      exact canon_deliverRejected hx _ _
  · refine canon_ite h (canon_ite (hack (canon_breakAt h _ _ _) _ _) ?_)
    exact hack (canon_deliverRejected h _ _) _ _

theorem canon_serveNotice (h : memCanonical s) (port f) : memCanonical (serveNotice s port f) :=
  canon_replyWith (canon_ite (canon_tbPend h _ _ _ _ _) h) _ _ _ _ _

theorem canon_serveMessage (h : memCanonical s) (port f) : memCanonical (serveMessage s port f) := by
  unfold serveMessage
  exact canon_ite h (canon_ite (canon_replyBad h _ _ _ _) (canon_replyWith (canon_arrive h _) _ _ _ _ _))

theorem canon_failAll (h : memCanonical s) (dst) : memCanonical (failAll s dst) := by
  unfold failAll
  refine canon_foldl (fun _ _ hu => ?_) _ (canon_postLog h _)
  split
  · exact canon_completeReq hu _ _ _ _
  · exact hu

theorem canon_countTurn (h : memCanonical s) (lead) : memCanonical (countTurn s lead) :=
  canon_ite (canon_putGang h _ _) h

theorem canon_servePendings (h : memCanonical s) : memCanonical (servePendings s) :=
  canon_foldl (fun _ _ hu => canon_ite (canon_foldl (fun _ _ hu1 => canon_ite (canon_servePending hu1 _) hu1) _ hu) hu) _ h

theorem canon_takeMark (h : memCanonical s) {t} (e : takeMark s = some t) : memCanonical t := by
  unfold takeMark at e
  split at e
  · cases e
  · dsimp only at e
    split at e
    · cases e
    · exact Option.some.inj e ▸ canon_ite (canon_doubleFault (canon_modStr h _ _) _ _ _ _ _) (canon_takeTrap (canon_modStr h _ _) _ _ _ _ _)

theorem canon_faultAll (h : memCanonical s) (i) : memCanonical (faultAll s i) :=
  canon_takeFault h _

theorem canon_raiseNote (h : memCanonical s) (p) : memCanonical (raiseNote s p) :=
  canon_setAgenda h _

theorem canon_divideMoved (h : memCanonical s) (p ls) : memCanonical (divideMoved s p ls).1 :=
  canon_ite_fst h (canon_transfer (canon_setCur h _) _)

theorem canon_endPresence (h : memCanonical s) : memCanonical (endPresence s) :=
  canon_setClears (canon_setSets (canon_setAbsent h _) _) _

theorem canon_endGang (h : memCanonical s) (lead) : memCanonical (endGang s lead) := by
  have h1 := fun (c : Bool) g => canon_settleSets (canon_ite (p := c = true) (canon_putGang h lead g) h) lead
  unfold endGang
  dsimp only
  exact canon_ite (canon_splitGang (h1 _ _) _) (canon_freeCheck (h1 _ _) _)

theorem canon_endCell (h : memCanonical s) (c) : memCanonical (endCell s c) :=
  canon_ite (canon_putCell (canon_tbTests (canon_l1Trim (canon_ite (canon_ite (canon_foldl (fun _ _ hu => canon_endGang hu _) _ h) h)
    (canon_putCell (canon_ite (canon_foldl (fun _ _ hu => canon_endGang hu _) _ h) h) _ _)) _ _) _) _ _) (canon_l1Trim (canon_ite
    (canon_ite (canon_foldl (fun _ _ hu => canon_endGang hu _) _ h) h) (canon_putCell (canon_ite (canon_foldl (fun _ _ hu => canon_endGang
    hu _) _ h) h) _ _)) _ _)

theorem canon_endBlocks (h : memCanonical s) : memCanonical (endBlocks s) :=
  canon_foldl (fun _ _ hu => canon_finishBlock hu _) _ h

theorem canon_wakeSweep (h : memCanonical s) : memCanonical (wakeSweep s) :=
  canon_foldl (fun _ _ hu => canon_ite hu (canon_ite (canon_setAgenda hu _) (canon_wakeUnit hu _))) _ h

theorem canon_armHeld (h : memCanonical s) : memCanonical (armHeld s) :=
  canon_foldl (fun _ _ hu => canon_armMonitor hu _ _) _ h

theorem canon_fillQueue (h : memCanonical s) (run1) : memCanonical (fillQueue run1 s) :=
  canon_ite (canon_setAgenda (canon_wakeSweep h) _) (canon_setForeseen (canon_setFilled (canon_setQueue (canon_servePendings (canon_foldl
    (fun _ _ hu => canon_ite (canon_foldl (fun _ _ hu1 => canon_countTurn hu1 _) _ hu) hu) _ (canon_wakeSweep h))) _) _) _)

theorem canon_reap (h : memCanonical s) : memCanonical (reap s) :=
  canon_foldl (fun _ _ hu => canon_contextKill hu _ _) _ (canon_setDoomed h _)

theorem canon_tick (h : memCanonical s) : memCanonical (tick s) :=
  canon_ite (canon_setFilled (canon_setTime h _) _) (canon_setAgenda (canon_foldl (fun _ _ hu => canon_injectAll hu _) _ (canon_armHeld
    (canon_setFilled (canon_setTime (canon_setForeseen (canon_setAlleyOld (canon_endBlocks (canon_foldl (fun _ _ hu => canon_endCell hu _)
    _ (canon_reap (canon_endPresence h)))) _) _) _) _))) _)

end Sys2Proof.Machine
end

section
/-!
PROOFS. Memory stays in canonical form: the forms.
-/
namespace Sys2Proof.Machine

open Sys2Proof

variable {s : State}

theorem keeps_laneForm (i) {f : State → State → Nat → State} (hf : ∀ src t p, memCanonical t → memCanonical (f src t p)) :
    (laneForm i f).KeepsMemory :=
  ⟨fun _ _ _ h => canon_eachLane h hf _ _, fun _ _ h => h⟩

theorem keeps_gForm (i d v) : (gForm i d v).KeepsMemory :=
  keeps_laneForm _ (fun _ _ _ h => canon_wrReg h _ _ _)

theorem keeps_pForm (i n v) : (pForm i n v).KeepsMemory :=
  keeps_laneForm _ (fun _ _ _ h => canon_wrP h _ _ _)

theorem keeps_wForm (i n v) : (wForm i n v).KeepsMemory :=
  ⟨fun _ _ _ h => canon_eachLane h (fun _ _ _ hu => canon_wrW hu _ _ _) _ _, fun _ _ h => h⟩

theorem keeps_gLater (i d v) : (gLater i d v).KeepsMemory :=
  keeps_laneForm _ (fun _ _ _ h => canon_landFixed h _ _ _)

theorem keeps_shflForm (i d a b src) : (shflForm i d a b src).KeepsMemory :=
  ⟨fun _ _ _ h => canon_foldl (fun _ _ hu => canon_wrReg hu _ _ _) _ h, fun _ _ h => h⟩

theorem keeps_voteForm (i n v) : (voteForm i n v).KeepsMemory :=
  ⟨fun _ _ _ h => canon_foldl (fun _ _ hu => canon_wrP hu _ _ _) _ h, fun _ _ h => h⟩

theorem keeps_formBallot (gd d a) : (formBallot gd d a).KeepsMemory :=
  ⟨fun _ _ _ h => canon_foldl (fun _ _ hu => canon_wrReg hu _ _ _) _ h, fun _ _ h => h⟩

theorem keeps_formBcast (gd d a lane) : (formBcast gd d a lane).KeepsMemory :=
  ⟨fun _ _ _ h => canon_foldl (fun _ _ hu => canon_wrReg hu _ _ _) _ h, fun _ _ h => h⟩

theorem keeps_formQrd (gd d x fwd) : (formQrd gd d x fwd).KeepsMemory := by
  refine ⟨fun src t ls h => ?_, fun _ _ h => h⟩
  refine canon_foldl (fun _ _ hu => ?_) _ (canon_foldl (fun _ _ hu => canon_popLink hu _) _ h)
  refine canon_wrReg ?_ _ _ _
  split
  · exact canon_pushLink hu _ _
  · exact hu

theorem keeps_formQwr (gd y a) : (formQwr gd y a).KeepsMemory :=
  ⟨fun _ _ _ h => canon_foldl (fun _ _ hu => canon_pushLink hu _ _) _ h, fun _ _ h => h⟩

theorem keeps_formKwr (gd k a) : (formKwr gd k a).KeepsMemory :=
  ⟨fun _ _ _ h => canon_ite h (canon_wrK h _ _ _), fun _ _ h => h⟩

theorem keeps_jumpForm (i tgt link) : (jumpForm i tgt link).KeepsMemory :=
  ⟨fun _ _ _ h => canon_transfer (canon_ite (canon_foldl (fun _ _ hu => canon_wrG hu _ _ _) _ h) h) _, fun _ _ h => h⟩

theorem keeps_formBrx (gd a) : (formBrx gd a).KeepsMemory :=
  ⟨fun _ _ _ h => canon_transfer (canon_ite (canon_foldl (fun _ _ hu => canon_wrG hu _ _ _) _ h) h) _, fun _ _ h => h⟩

theorem keeps_formCallx (gd a) : (formCallx gd a).KeepsMemory :=
  ⟨fun _ _ _ h => canon_transfer (canon_ite (canon_foldl (fun _ _ hu => canon_wrG hu _ _ _) _ h) h) _, fun _ _ h => h⟩

theorem keeps_formRet (gd a) : (formRet gd a).KeepsMemory :=
  ⟨fun _ _ _ h => canon_transfer (canon_ite (canon_foldl (fun _ _ hu => canon_wrG hu _ _ _) _ h) h) _, fun _ _ h => h⟩

theorem keeps_formDbnz (gd d disp) : (formDbnz gd d disp).KeepsMemory :=
  ⟨fun _ _ _ h => canon_transfer (canon_foldl (fun _ _ hu => canon_wrReg hu _ _ _) _ h) _, fun _ _ h => h⟩

theorem keeps_setForm (i) {f : State → Nat → BitVec 16 → State} (hf : ∀ t lead l, memCanonical t → memCanonical (f t lead l)) :
    (setForm i f).KeepsMemory :=
  ⟨fun _ _ _ h => canon_ite h (hf _ _ _ h), fun _ _ h => h⟩

theorem keeps_formJset (gd j) : (formJset gd j).KeepsMemory :=
  keeps_setForm _ (fun _ _ _ h => canon_setStart h _ _ _)

theorem keeps_formJadd (gd j) : (formJadd gd j).KeepsMemory :=
  keeps_setForm _ (fun _ _ _ h => canon_setAdd h _ _ _)

theorem keeps_formJquit (gd j) : (formJquit gd j).KeepsMemory :=
  keeps_setForm _ (fun _ _ _ h => canon_setQuit h _ _ _)

theorem keeps_formJwait (gd j) : (formJwait gd j).KeepsMemory :=
  ⟨fun _ _ _ h => canon_ite h (canon_leavePath (canon_setArrive (canon_modStrs h _ _) _ _ _) _), fun _ _ h => h⟩

theorem keeps_formJtest (gd p j) : (formJtest gd p j).KeepsMemory :=
  ⟨fun _ _ _ h => canon_foldl (fun _ _ hu => canon_wrP hu _ _ _) _ h, fun _ _ h => h⟩

theorem keeps_formJread (gd d j) : (formJread gd d j).KeepsMemory :=
  ⟨fun _ _ _ h => canon_foldl (fun _ _ hu => canon_wrReg hu _ _ _) _ h, fun _ _ h => h⟩

theorem keeps_formJwrite (gd j a) : (formJwrite gd j a).KeepsMemory :=
  ⟨fun _ _ _ h => canon_ite h (canon_setWrite h _ _ _), fun _ _ h => h⟩

theorem keeps_formFuse (gd glog) : (formFuse gd glog).KeepsMemory :=
  ⟨fun _ _ _ h => canon_ite h (canon_foldl (fun _ _ hu => canon_ite (canon_formGang (canon_modStr hu _ _) _ _) (canon_modStr hu _ _)) _ h),
    fun _ _ h => h⟩

theorem keeps_formSplit (gd) : (formSplit gd).KeepsMemory :=
  ⟨fun _ _ _ h => canon_ite h (canon_startSplit h _), fun _ _ h => h⟩

theorem keeps_formDetach (gd) : (formDetach gd).KeepsMemory :=
  ⟨fun _ _ _ h => canon_ite h (canon_leavePath (canon_modStrs h _ _) _), fun _ _ h => h⟩

theorem keeps_formStop (gd) : (formStop gd).KeepsMemory :=
  ⟨fun _ _ _ h => canon_ite h (canon_freeCheck (canon_leavePath (canon_setsStop (canon_foldl (fun _ _ hu => canon_stopLane hu _) _ h) _ _
    _) _) _), fun _ _ h => h⟩

theorem keeps_formSpawn (gd a w) : (formSpawn gd a w).KeepsMemory :=
  ⟨fun _ _ _ h => canon_foldl (fun _ _ hu => canon_submit hu _ _) _ h, fun _ _ h => h⟩

theorem keeps_formSpawnf (gd a) : (formSpawnf gd a).KeepsMemory :=
  ⟨fun _ _ _ h => canon_foldl (fun _ _ hu => canon_submit hu _ _) _ h, fun _ _ h => h⟩

theorem keeps_formYield (gd) : (formYield gd).KeepsMemory :=
  ⟨fun _ _ _ h => canon_ite h (canon_putGang h _ _), fun _ _ h => h⟩

theorem keeps_formGrid (gd a) : (formGrid gd a).KeepsMemory :=
  ⟨fun _ _ _ h => canon_ite h (canon_foldl (fun _ _ hu => canon_queueGrid hu _) _ (canon_relL1 h _ _)), fun _ _ h => h⟩

theorem keeps_specForm (i fn d a e) : (specForm i fn d a e).KeepsMemory :=
  ⟨fun _ _ _ h => canon_eachLane h (fun _ _ _ hu => canon_landFixed hu _ _ _) _ _, fun _ _ h => h⟩

theorem keeps_formVsum (gd d a e) : (formVsum gd d a e).KeepsMemory :=
  ⟨fun _ _ _ h => canon_eachLane h (fun _ _ _ hu => canon_wrReg hu _ _ _) _ _, fun _ _ h => h⟩

theorem keeps_formVdot (gd d a b e) : (formVdot gd d a b e).KeepsMemory :=
  ⟨fun _ _ _ h => canon_eachLane h (fun _ _ _ hu => canon_wrReg hu _ _ _) _ _, fun _ _ h => h⟩

theorem keeps_zForm (i ks d v) : (zForm i ks d v).KeepsMemory :=
  ⟨fun _ _ _ h => canon_eachLane h (fun _ _ _ hu => canon_wrZ hu _ _ _ _) _ _, fun _ _ h => h⟩

theorem keeps_formXadd (gd e src) : (formXadd gd e src).KeepsMemory :=
  ⟨fun _ _ _ h => canon_eachLane h (fun _ _ _ hu => canon_putE hu _ _ _ _) _ _, fun _ _ h => h⟩

theorem keeps_formXclr (gd e) : (formXclr gd e).KeepsMemory :=
  keeps_laneForm _ (fun _ _ _ h => canon_putE h _ _ _ _)

theorem keeps_formXmrg (gd e src) : (formXmrg gd e src).KeepsMemory :=
  ⟨fun _ _ _ h => canon_eachLane h (fun _ _ _ hu => canon_putE hu _ _ _ _) _ _, fun _ _ h => h⟩

theorem keeps_memForm (i m) : (memForm i m).KeepsMemory :=
  ⟨fun _ _ _ h => canon_ite h (canon_delayFrom (canon_foldl (fun _ _ hu => canon_memLane hu _ _ _) _ (canon_occupy (canon_acqL1
    (canon_relL1 (canon_ite h (canon_countAsks h _ _ _)) _ _) _ _) _)) _ _), fun _ _ h => h⟩

theorem keeps_formPf (gd a b) : (formPf gd a b).KeepsMemory :=
  keeps_laneForm _ (fun _ _ _ h => canon_foldl (fun _ _ hu => canon_prefetch hu _ _ _) _ h)

theorem keeps_amoForm (i op d a w64 o sgn) : (amoForm i op d a w64 o sgn).KeepsMemory :=
  keeps_memForm _ _

theorem keeps_amoxForm (i f op d a o) : (amoxForm i f op d a o).KeepsMemory :=
  keeps_memForm _ _

theorem keeps_fenceForm (i sc acq rel sq) : (fenceForm i sc acq rel sq).KeepsMemory :=
  ⟨fun _ _ _ h => canon_ite h (canon_foldl (fun _ _ hu => canon_modStr hu _ _) _ (canon_ite (canon_markAcq (canon_acqL1 (canon_relL1 h _ _)
    _ _) _ _) (canon_acqL1 (canon_relL1 h _ _) _ _))), fun _ _ h => h⟩

theorem keeps_formWait (gd d a w64 acq) : (formWait gd d a w64 acq).KeepsMemory :=
  ⟨fun _ _ _ h => canon_foldl (fun _ _ hu => canon_waitLand hu _ _ _) _ (canon_acqL1 h _ _), fun _ _ h => canon_foldl (fun _ _ hu =>
    canon_takeFresh (canon_armMonitor hu _ _)) _ (canon_countAsks h _ _ _)⟩

theorem keeps_formTbinit (gd b a) : (formTbinit gd b a).KeepsMemory :=
  ⟨fun _ _ _ h => canon_ite h (canon_tbInit h _ _ _ _ _ _), fun _ _ h => canon_modStrs h _ _⟩

theorem keeps_formTbexp (gd b a) : (formTbexp gd b a).KeepsMemory :=
  ⟨fun _ _ _ h => canon_foldl (fun _ _ hu => canon_ite (canon_tbPend hu _ _ _ _ _) (canon_tbArrive (canon_tbPend hu _ _ _ _ _) _ _ _ _ _))
    _ h, fun _ _ h => h⟩

theorem keeps_formTbarr (gd b) : (formTbarr gd b).KeepsMemory :=
  ⟨fun _ _ _ h => canon_foldl (fun _ _ hu => canon_tbArrive hu _ _ _ _ _) _ h, fun _ _ h => h⟩

theorem keeps_formTbwait (gd b) : (formTbwait gd b).KeepsMemory :=
  ⟨fun _ _ _ h => h, fun _ _ h => h⟩

theorem keeps_formBbarr (gd) : (formBbarr gd).KeepsMemory :=
  ⟨fun _ _ _ h => canon_ite h (canon_foldl (fun _ _ hu => canon_bbArrive hu _ _) _ (canon_relL1 h _ _)), fun _ _ h => canon_ite h
    (canon_postLog (canon_setPkg h _) _)⟩

theorem keeps_formBbwait (gd) : (formBbwait gd).KeepsMemory :=
  ⟨fun _ _ _ h => canon_ite h (canon_acqL1 h _ _), fun _ _ h => h⟩

theorem keeps_formMulticastSub (gd a) : (formMulticastSub gd a).KeepsMemory :=
  ⟨fun _ _ _ h => canon_parkSince (canon_foldl (fun _ _ hu => canon_subOne hu _ _) _ h) _ _ _, fun _ _ h => h⟩

theorem keeps_formMulticastUnsub (gd a) : (formMulticastUnsub gd a).KeepsMemory :=
  ⟨fun _ _ _ h => canon_parkSince (canon_foldl (fun _ _ hu => canon_unsubOne hu _ _) _ h) _ _ _, fun _ _ h => h⟩

theorem keeps_formSend (gd a w) : (formSend gd a w).KeepsMemory :=
  ⟨fun _ _ _ h => canon_foldl (fun _ _ hu => canon_putCell hu _ _) _ (canon_foldl (fun _ _ hu => canon_relL1 hu _ _) _ h), fun _ _ h => h⟩

theorem keeps_formRecv (gd w) : (formRecv gd w).KeepsMemory :=
  ⟨fun _ _ _ h => canon_foldl (fun _ _ hu => canon_recvOne hu _ _ _) _ h, fun _ _ h => h⟩

theorem keeps_formRecvt (gd w a p) : (formRecvt gd w a p).KeepsMemory :=
  ⟨fun _ _ _ h => canon_foldl (fun _ _ hu => canon_landFixed (canon_recvOne hu _ _ _) _ _ _) _ h, fun _ _ h => canon_foldl (fun _ _ hu =>
    canon_modStr hu _ _) _ h⟩

theorem keeps_xferForm (i form rel cw nw src sh) : (xferForm i form rel cw nw src sh).KeepsMemory :=
  ⟨fun _ _ _ h => canon_ite h (canon_foldl (fun _ _ hu => canon_startXfer hu _ _ _ _ _ _ _) _ (canon_relL1 (canon_countAsks h _ _ _) _ _)),
    fun _ _ h => h⟩

theorem keeps_formChase (gd rel d a b) : (formChase gd rel d a b).KeepsMemory :=
  ⟨fun _ _ _ h => canon_ite h (canon_foldl (fun _ _ hu => canon_startWalkOf hu _ _ _ _ _ _ _) _ (canon_relL1 h _ _)), fun _ _ h => h⟩

theorem keeps_formMma (gd rel f c a b) : (formMma gd rel f c a b).KeepsMemory :=
  ⟨fun _ _ _ h => canon_ite h (canon_accept (canon_relL1 h _ _) _ _ _ _ _), fun _ _ h => h⟩

theorem keeps_formMmz (gd c) : (formMmz gd c).KeepsMemory :=
  ⟨fun _ _ _ h => canon_ite h (canon_accept h _ _ _ _ _), fun _ _ h => h⟩

theorem keeps_rowForm (i a b write op) : (rowForm i a b write op).KeepsMemory :=
  ⟨fun _ _ _ h => canon_ite h (canon_accept h _ _ _ _ _), fun _ _ h => h⟩

theorem keeps_formMmjob (gd d a f) : (formMmjob gd d a f).KeepsMemory :=
  ⟨fun _ _ _ h => canon_ite h (canon_foldl (fun _ _ hu => canon_landFixed hu _ _ _) _ (canon_accept (canon_relL1 h _ _) _ _ _ _ _)), fun _
    _ h => h⟩

theorem keeps_formMmpoll (gd d a) : (formMmpoll gd d a).KeepsMemory :=
  ⟨fun _ _ _ h => canon_ite h (canon_foldl (fun _ _ hu => canon_landFixed hu _ _ _) _ h), fun _ _ h => canon_ite h (canon_modStr h _ _)⟩

theorem keeps_formTrap (gd code) : (formTrap gd code).KeepsMemory := by
  refine ⟨fun src t ls h => ?_, fun _ _ h => h⟩
  cases ls with
  | nil => exact h
  | cons p rest =>
    have hm := canon_modStrs h (p :: rest) (fun x => { x with tcode := zx 20 code.toNat, tnba := src.cur.nba })
    exact canon_ite (canon_doubleFault h _ _ _ _ _) (canon_ite (canon_putGang hm _ _) (canon_putGang (canon_takeTrap hm _ _ _ _ _) _ _))

theorem keeps_formSysret (gd) : (formSysret gd).KeepsMemory := by
  refine ⟨fun src t ls h => ?_, fun _ _ h => h⟩
  cases ls with
  | nil => exact h
  | cons p rest => exact canon_trapReturn h _ _

theorem keeps_formHalt (gd) : (formHalt gd).KeepsMemory := by
  refine ⟨fun src t ls h => ?_, fun _ _ h => h⟩
  unfold formHalt
  dsimp only
  split
  · exact canon_putBlock h _ _
  · exact h

theorem keeps_formKill (gd a) : (formKill gd a).KeepsMemory := by
  refine ⟨fun src t ls h => ?_, fun _ _ h => h⟩
  cases ls with
  | nil => exact h
  | cons p rest => exact canon_ite (canon_startKill h _ _ _ _) (canon_parkDone (canon_startKill h _ _ _ _) _ _)

theorem keeps_formRdsr (gd d srn) : (formRdsr gd d srn).KeepsMemory :=
  ⟨fun _ _ _ h => canon_eachLane h (fun _ _ _ hu => canon_wrReg hu _ _ _) _ _, fun _ _ h => h⟩

theorem keeps_formWrsr (gd d srn) : (formWrsr gd d srn).KeepsMemory :=
  ⟨fun _ _ _ h => canon_ite h (canon_srWrite h _ _ _), fun _ _ h => h⟩

theorem keeps_tlbForm (i what) : (tlbForm i what).KeepsMemory :=
  ⟨fun _ _ _ h => canon_ite h (canon_modStrs (canon_parkDone (canon_invalidate h _) _ _) _ _), fun _ _ h => h⟩

/-- One sector of the range of a maintenance form. -/
theorem canon_lineOne (h : memCanonical s) {f : State → Nat → Nat → State} (hf : ∀ t c k, memCanonical t → memCanonical (f t c k)) (sup c
    va) :
    memCanonical (match lineOf sup c s va with
      | (x, some k) => f x c k
      | (x, none) => x) := by
  have hl := canon_lineOf h sup c va
  split
  · next e => exact hf _ _ _ (canon_of_fst hl e)
  · next e => exact canon_of_fst hl e

theorem keeps_lineForm (i priv a b) {f : State → Nat → Nat → State} (hf : ∀ t c k, memCanonical t → memCanonical (f t c k)) :
    (lineForm i priv a b f).KeepsMemory := by
  refine ⟨fun src t ls h => ?_, fun _ _ h => h⟩
  refine canon_ite h (canon_parkDone (canon_foldl (fun u p hu => canon_foldl (fun v va hv => ?_) _ hu) _ h) _ _)
  exact canon_lineOne hv hf _ _ _

theorem keeps_formCwb (gd a b) : (formCwb gd a b).KeepsMemory := by
  refine keeps_lineForm _ _ _ _ fun t c k h => ?_
  split
  · exact canon_ite h (canon_flushLine h _ _)
  · exact h

theorem keeps_formCinv (gd a b) : (formCinv gd a b).KeepsMemory :=
  keeps_lineForm _ _ _ _ (fun _ _ _ h => canon_foldl (fun _ _ hu => canon_flushLine hu _ _) _ h)

theorem keeps_formProbe (gd d a) : (formProbe gd d a).KeepsMemory :=
  ⟨fun _ _ _ h => canon_eachLane h (fun _ _ _ hu => canon_landFixed hu _ _ _) _ _, fun _ _ h => h⟩

theorem keepsOf {f : Form} (h : f.KeepsMemory) : ∀ g, some f = some g → g.KeepsMemory := fun _ e => Option.some.inj e ▸ h

/-- Whatever an encoded instruction does, memory stays canonical. -/
theorem keeps_formOf (i) : ∀ f, formOf i = some f → f.KeepsMemory := by
  cases i
  case add | sub | mul | mulh | mad | and | or | xor | andn | shl | shr | sar | rot | min | max | addi | andi | ori | xori | li | lih | abs
    | neg | clz | ctz | popc | brev | bfx | bfi | sel | lea | fadd | fsub | fmul | fma | fmin | fmax | fabs | fneg | cvtScalar | xget | krd
    =>
    exact keepsOf (keeps_gForm _ _ _)
  case div | rem | fdiv | fsqrt | tokq =>
    exact keepsOf (keeps_gLater _ _ _)
  case cmp | pand | por | pxor | pnot | fcmp | tbtest =>
    exact keepsOf (keeps_pForm _ _ _)
  case voteSome | voteEvery | voteAgree =>
    exact keepsOf (keeps_voteForm _ _ _)
  case shflPick | shflLo | shflHi | shflMir =>
    exact keepsOf (keeps_shflForm _ _ _ _ _)
  case vadd | vsub | vmul | vfma | vmin | vmax | vabs | vneg | vcmp | vsel | vperm | cvtWide =>
    exact keepsOf (keeps_wForm _ _ _)
  case vrcp | vrsq | vsqrt | vexp2 | vlog2 | vsin | vcos =>
    exact keepsOf (keeps_specForm _ _ _ _ _)
  case pack | unpk | scl =>
    exact keepsOf (keeps_zForm _ _ _ _)
  case br | call =>
    exact keepsOf (keeps_jumpForm _ _ _)
  case ld | ldAcq | ldDev | st | stRel | stDev | ldw | stw | ldwAcq | stwRel | lds | sts | ldsAcq | stsRel | ldsw | stsw | ldswAcq |
    stswRel | gat | scat | ldk | ldkAcq | xld | xldAcq | xst | xstRel | cas | cas2 | amofF32 | amofF64 =>
    exact keepsOf (keeps_memForm _ _)
  case amoAdd | amoAnd | amoOr | amoXor | amoMinI | amoMinN | amoMaxI | amoMaxN | amoSwap | amoPmin =>
    exact keepsOf (keeps_amoForm _ _ _ _ _ _ _)
  case amoxF32 | amoxF64 =>
    exact keepsOf (keeps_amoxForm _ _ _ _ _ _)
  case fenceAcq | fenceRel | fenceAr | fenceSc =>
    exact keepsOf (keeps_fenceForm _ _ _ _ _)
  case cpy | tld | tldm =>
    exact keepsOf (keeps_xferForm _ _ _ _ _ _ _)
  case mmst | mmld =>
    exact keepsOf (keeps_rowForm _ _ _ _ _)
  case tlbinvAll | tlbinvAsid | tlbinvPage =>
    exact keepsOf (keeps_tlbForm _ _)
  case ballot => exact keepsOf (keeps_formBallot _ _ _)
  case bcast => exact keepsOf (keeps_formBcast _ _ _ _)
  case vsum => exact keepsOf (keeps_formVsum _ _ _ _)
  case vdot => exact keepsOf (keeps_formVdot _ _ _ _ _)
  case xadd => exact keepsOf (keeps_formXadd _ _ _)
  case xclr => exact keepsOf (keeps_formXclr _ _)
  case xmrg => exact keepsOf (keeps_formXmrg _ _ _)
  case mma => exact keepsOf (keeps_formMma _ _ _ _ _ _)
  case qrd => exact keepsOf (keeps_formQrd _ _ _ _)
  case qwr => exact keepsOf (keeps_formQwr _ _ _)
  case kwr => exact keepsOf (keeps_formKwr _ _ _)
  case brx => exact keepsOf (keeps_formBrx _ _)
  case callx => exact keepsOf (keeps_formCallx _ _)
  case ret => exact keepsOf (keeps_formRet _ _)
  case dbnz => exact keepsOf (keeps_formDbnz _ _ _)
  case jset => exact keepsOf (keeps_formJset _ _)
  case jadd => exact keepsOf (keeps_formJadd _ _)
  case jquit => exact keepsOf (keeps_formJquit _ _)
  case jwait => exact keepsOf (keeps_formJwait _ _)
  case jtest => exact keepsOf (keeps_formJtest _ _ _)
  case jread => exact keepsOf (keeps_formJread _ _ _)
  case jwrite => exact keepsOf (keeps_formJwrite _ _ _)
  case fuse => exact keepsOf (keeps_formFuse _ _)
  case split => exact keepsOf (keeps_formSplit _)
  case detach => exact keepsOf (keeps_formDetach _)
  case stop => exact keepsOf (keeps_formStop _)
  case spawn => exact keepsOf (keeps_formSpawn _ _ _)
  case spawnf => exact keepsOf (keeps_formSpawnf _ _)
  case yield => exact keepsOf (keeps_formYield _)
  case grid => exact keepsOf (keeps_formGrid _ _)
  case pf => exact keepsOf (keeps_formPf _ _ _)
  case wait => exact keepsOf (keeps_formWait _ _ _ _ _)
  case chase => exact keepsOf (keeps_formChase _ _ _ _ _)
  case multicastSub => exact keepsOf (keeps_formMulticastSub _ _)
  case multicastUnsub => exact keepsOf (keeps_formMulticastUnsub _ _)
  case tbinit => exact keepsOf (keeps_formTbinit _ _ _)
  case tbexp => exact keepsOf (keeps_formTbexp _ _ _)
  case tbarr => exact keepsOf (keeps_formTbarr _ _)
  case tbwait => exact keepsOf (keeps_formTbwait _ _)
  case bbarr => exact keepsOf (keeps_formBbarr _)
  case bbwait => exact keepsOf (keeps_formBbwait _)
  case send => exact keepsOf (keeps_formSend _ _ _)
  case recv => exact keepsOf (keeps_formRecv _ _)
  case recvt => exact keepsOf (keeps_formRecvt _ _ _ _)
  case mmz => exact keepsOf (keeps_formMmz _ _)
  case mmpoll => exact keepsOf (keeps_formMmpoll _ _ _)
  case mmjob => exact keepsOf (keeps_formMmjob _ _ _ _)
  case trap => exact keepsOf (keeps_formTrap _ _)
  case sysret => exact keepsOf (keeps_formSysret _)
  case halt => exact keepsOf (keeps_formHalt _)
  case kill => exact keepsOf (keeps_formKill _ _)
  case rdsr => exact keepsOf (keeps_formRdsr _ _ _)
  case wrsr => exact keepsOf (keeps_formWrsr _ _ _)
  case cwb => exact keepsOf (keeps_formCwb _ _ _)
  case cinv => exact keepsOf (keeps_formCinv _ _ _)
  case probe => exact keepsOf (keeps_formProbe _ _ _)
  all_goals
    intro f h
    cases h

end Sys2Proof.Machine
end

section
/-!
PROOFS. Every step goes on and keeps memory in canonical form (spec/14_host_fabric_and_boot.md R401,
spec/22_power_and_security_failures.md R507).
-/
namespace Sys2Proof.Machine

open Sys2Proof

variable {s : State}

/-- An outcome goes on, with memory in canonical form. -/
def GoesOn (o : Host.Outcome State Fault Refusal) : Prop := ∃ t, o = .next t ∧ memCanonical t

theorem goesOn_next (h : memCanonical s) : GoesOn (.next s) := ⟨s, rfl, h⟩

theorem goesOn_ite {p : Prop} [Decidable p] {a b : Host.Outcome State Fault Refusal} (ha : GoesOn a) (hb : GoesOn b) :
    GoesOn (if p then a else b) := by
  split
  · exact ha
  · exact hb

/-! ### Events -/

theorem goesOn_execMatrixOpStart (h : memCanonical s) (cell) : GoesOn (execMatrixOpStart cell s) := by
  unfold execMatrixOpStart
  dsimp only
  split
  · exact goesOn_ite (goesOn_next h) (goesOn_next (canon_putCell h _ _))
  · exact goesOn_next h

theorem goesOn_execMatrixOpComplete (h : memCanonical s) (cell) : GoesOn (execMatrixOpComplete cell s) := by
  unfold execMatrixOpComplete
  split
  · exact goesOn_next h
  · next j _ _ =>
    refine goesOn_ite (goesOn_next h) ?_
    split
    · next e => exact goesOn_next (canon_askOnce h e)
    · refine goesOn_ite (goesOn_next h) (goesOn_next ?_)
      have hr := canon_putCell (canon_runOp h cell j) cell
      exact canon_ite (hr _) (canon_setAgenda (hr _) _)

theorem goesOn_execScoreboardResultLands (h : memCanonical s) (id) : GoesOn (execScoreboardResultLands id s) := by
  unfold execScoreboardResultLands
  split
  · exact goesOn_next h
  · exact goesOn_next (canon_landPend (canon_ite (canon_acqL1 (canon_doParts h _ _ _ _ _) _ _) (canon_doParts h _ _ _ _ _)) _ _)

theorem goesOn_execStorePerformed (h : memCanonical s) (id) : GoesOn (execStorePerformed id s) := by
  unfold execStorePerformed
  split
  · exact goesOn_next h
  · exact goesOn_next (canon_ite (canon_l1Flush (canon_setStores h _) _ _) (canon_setStores h _))

theorem goesOn_execPageWalkComplete (h : memCanonical s) (id) : GoesOn (execPageWalkComplete id s) := by
  unfold execPageWalkComplete
  split
  · exact goesOn_next h
  · refine goesOn_ite (goesOn_next (canon_ite (canon_setWalks h _) h)) ?_
    refine goesOn_ite (goesOn_next (canon_setWalks h _)) ?_
    split
    · exact goesOn_next (canon_putCell (canon_setWalks h _) _ _)
    · exact goesOn_next (canon_modStrs (canon_setWalks h _) _ _)

theorem goesOn_execSyncOpComplete (h : memCanonical s) (pos) : GoesOn (execSyncOpComplete pos s) :=
  goesOn_ite (goesOn_next (canon_wakeUnit h _)) (goesOn_next h)

theorem goesOn_execBankingSwitchComplete (h : memCanonical s) (cell) : GoesOn (execBankingSwitchComplete cell s) := by
  unfold execBankingSwitchComplete
  refine goesOn_ite (goesOn_next h) ?_
  split
  · exact goesOn_next h
  · exact goesOn_next (canon_putCell h _ _)
  · exact goesOn_next (canon_ite (canon_endBanking h _) (canon_putCell h _ _))
  · exact goesOn_next (canon_endBanking h _)

theorem goesOn_execMonitorFire (h : memCanonical s) (pos) : GoesOn (execMonitorFire pos s) := by
  unfold execMonitorFire
  split
  · exact goesOn_next h
  · next m _ =>
    refine goesOn_ite (goesOn_next h) ?_
    have hm := canon_monRead h pos m 1
    split
    · next e => exact goesOn_next (canon_putMon (canon_of_fst hm e) _ _)
    · next e => exact goesOn_next (canon_putMon (canon_of_fst hm e) _ _)

theorem goesOn_execWaitTimeout (h : memCanonical s) (pos) : GoesOn (execWaitTimeout pos s) := by
  unfold execWaitTimeout
  split
  · exact goesOn_next h
  · exact goesOn_ite (goesOn_next h) (goesOn_next (canon_putMon h _ _))

theorem goesOn_execRecvtTimeout (h : memCanonical s) (pos) : GoesOn (execRecvtTimeout pos s) :=
  goesOn_ite (goesOn_next (canon_modStr h _ _)) (goesOn_next h)

theorem goesOn_execSpawnTimeoutRelease (h : memCanonical s) (cell desc) : GoesOn (execSpawnTimeoutRelease cell desc s) :=
  goesOn_next (canon_putCell h _ _)

theorem goesOn_execGatheredGangPlace (h : memCanonical s) (cell) : GoesOn (execGatheredGangPlace cell s) := by
  unfold execGatheredGangPlace
  split
  · exact goesOn_next h
  · split
    · exact goesOn_next h
    · exact goesOn_next (canon_placeGathered h _ _ _)

theorem goesOn_execPathQuantumExpiry (h : memCanonical s) (leader) : GoesOn (execPathQuantumExpiry leader s) :=
  goesOn_ite (goesOn_next (canon_passTurn h _)) (goesOn_next h)

theorem goesOn_execOrphanFault (h : memCanonical s) (leader) : GoesOn (execOrphanFault leader s) := by
  unfold execOrphanFault
  dsimp only
  split
  · exact goesOn_next h
  · refine goesOn_ite (goesOn_next h) ?_
    split
    · exact goesOn_next (canon_putGang h _ _)
    · exact goesOn_next (canon_takeTrap (canon_putGang h _ _) _ _ _ _ _)

theorem goesOn_execSqnote (h : memCanonical s) (pos) : GoesOn (execSqnote pos s) :=
  goesOn_ite (goesOn_next h) (goesOn_next (canon_takeTrap (canon_putCell h _ _) _ _ _ _ _))

theorem goesOn_execMessageArrival (h : memCanonical s) (id) : GoesOn (execMessageArrival id s) := by
  unfold execMessageArrival
  split
  · exact goesOn_next h
  · exact goesOn_ite (goesOn_next (canon_setFlying h _)) (goesOn_next (canon_setFlying (canon_arrive h _) _))

theorem goesOn_execMessageResend (h : memCanonical s) (id) : GoesOn (execMessageResend id s) := by
  unfold execMessageResend
  split
  · exact goesOn_next h
  · refine goesOn_ite (goesOn_next h) (goesOn_ite (goesOn_next (canon_setFlying (canon_arrive h _) _)) ?_)
    exact goesOn_next (canon_sendMsg (canon_setFlying h _) _)

theorem goesOn_execStrandSave (h : memCanonical s) (leader) : GoesOn (execStrandSave leader s) := by
  unfold execStrandSave
  split
  · exact goesOn_next h
  · exact goesOn_ite (goesOn_next h) (goesOn_ite (goesOn_next (canon_savedCheck h _)) (goesOn_ite (goesOn_next h) (goesOn_next
      (canon_savedCheck (canon_writeGangRecs (canon_modStrs (canon_withdraw (canon_l1WriteBack h _) _ _) _ _) _ _ _) _))))

theorem goesOn_execEvictionComplete (h : memCanonical s) (block) : GoesOn (execEvictionComplete block s) :=
  goesOn_ite (goesOn_next h) (goesOn_ite (goesOn_next (canon_killSave h _)) (goesOn_ite (goesOn_next (canon_spillAll h _)) (goesOn_next
    (canon_setPkg (canon_foldl (fun _ _ hu => canon_clearCell hu _ _) _ (canon_putBlock (canon_foldl (fun _ _ hu => canon_writeRecord
    (canon_l1WriteBack hu _) _ _ _) _ (canon_spillAll h _)) _ _)) _))))

theorem goesOn_execQuantumExpiry (h : memCanonical s) (block) : GoesOn (execQuantumExpiry block s) := by
  unfold execQuantumExpiry
  refine goesOn_ite (goesOn_next h) ?_
  split
  · exact goesOn_next (canon_preempt h _ _)
  · exact goesOn_next (canon_ite h (canon_endQuantum h _))
  · exact goesOn_next (canon_ite h (canon_ite (canon_contextKill h _ _) (canon_endQuantum h _)))
  · exact goesOn_next h

theorem goesOn_execHaltSnapshotComplete (h : memCanonical s) (block) : GoesOn (execHaltSnapshotComplete block s) :=
  goesOn_ite (goesOn_next h) (goesOn_ite (goesOn_next (canon_killSave h _)) (goesOn_next (canon_postLog (canon_putBlock (canon_foldl (fun _
    _ hu => canon_writeRecord (canon_l1WriteBack hu _) _ _ _) _ h) _ _) _)))

theorem goesOn_execMigrationComplete (h : memCanonical s) : GoesOn (execMigrationComplete s) := by
  unfold execMigrationComplete
  split
  · exact goesOn_next h
  · exact goesOn_ite (goesOn_next (canon_setPkg h _)) (goesOn_ite (goesOn_next h) (goesOn_ite (goesOn_next (canon_setPkg (canon_killSave h
      _) _)) (goesOn_next (canon_setPkg (canon_ite (canon_preempt (canon_ite (canon_putBlock (canon_foldl (fun _ _ hu =>
      canon_recheckSpilled hu _ _ _) _ (canon_foldl (fun _ _ hu => canon_bankCheck hu _ _ _) _ (canon_follow (canon_putBlock (canon_foldl
      (fun _ _ hu => canon_moveCell hu _ _ _) _ h) _ _) _ _))) _ _) (canon_resumeBlock (canon_foldl (fun _ _ hu => canon_recheckSpilled hu
      _ _ _) _ (canon_foldl (fun _ _ hu => canon_bankCheck hu _ _ _) _ (canon_follow (canon_putBlock (canon_foldl (fun _ _ hu =>
      canon_moveCell hu _ _ _) _ h) _ _) _ _))) _)) _ _) (canon_ite (canon_putBlock (canon_foldl (fun _ _ hu => canon_recheckSpilled hu _ _
      _) _ (canon_foldl (fun _ _ hu => canon_bankCheck hu _ _ _) _ (canon_follow (canon_putBlock (canon_foldl (fun _ _ hu => canon_moveCell
      hu _ _ _) _ h) _ _) _ _))) _ _) (canon_resumeBlock (canon_foldl (fun _ _ hu => canon_recheckSpilled hu _ _ _) _ (canon_foldl (fun _ _
      hu => canon_bankCheck hu _ _ _) _ (canon_follow (canon_putBlock (canon_foldl (fun _ _ hu => canon_moveCell hu _ _ _) _ h) _ _) _ _)))
      _))) _))))

theorem goesOn_execDeliveryArrival (h : memCanonical s) (id) : GoesOn (execDeliveryArrival id s) := by
  unfold execDeliveryArrival
  split
  · exact goesOn_next h
  · refine goesOn_ite (goesOn_next h) ?_
    refine goesOn_ite (goesOn_next (canon_setDelivs h _)) ?_
    refine goesOn_next ?_
    refine canon_settle ?_ _ _ _
    refine canon_setSets ?_ _
    split
    · exact canon_ite_fst (canon_setDelivs h _) (canon_ite_fst (canon_setDelivs h _) (canon_deliverTo (canon_setDelivs h _) _ _ _ _ _ _))
    · refine canon_ite_fst (canon_setDelivs h _) ?_
      refine canon_ite_fst (canon_deliverTo (canon_setDelivs h _) _ _ _ _ _ _) ?_
      split
      · exact canon_deliverTo (canon_setDelivs h _) _ _ _ _ _ _
      · exact canon_setDelivs h _

theorem goesOn_execTransferSourceRead (h : memCanonical s) (id) : GoesOn (execTransferSourceRead id s) := by
  have hread : ∀ {u : State}, memCanonical u → ∀ x va l bad rec, GoesOn (.next (pieceRead u id x va l bad rec)) := fun hu x va l bad rec =>
    goesOn_next (canon_pieceRead hu _ _ _ _ _ _)
  unfold execTransferSourceRead
  split
  · exact goesOn_next h
  · have hlater := fun l => goesOn_next (canon_setXfers h l)
    refine goesOn_ite (goesOn_next h) (goesOn_ite (hlater _) ?_)
    dsimp only
    split
    · exact hread h _ _ _ _ _
    · exact hread h _ _ _ _ _
    · refine goesOn_ite (hlater _) ?_
      split
      · exact hread h _ _ _ _ _
      · exact hread h _ _ _ _ _
    · refine goesOn_ite (hread (canon_noteMoved h _ _ _ _) _ _ _ _ _) (goesOn_ite (hlater _) ?_)
      split
      · exact hread h _ _ _ _ _
      · exact hread h _ _ _ _ _
    · split
      · next e => exact goesOn_next (canon_setXfers (canon_newRequest h e) _)
      · exact hread h _ _ _ _ _

theorem goesOn_execTransferNotice (h : memCanonical s) (id) : GoesOn (execTransferNotice id s) := by
  unfold execTransferNotice
  split
  · exact goesOn_next h
  · exact goesOn_ite (goesOn_next h) (goesOn_next (canon_ite (canon_setXfers (canon_foldl (fun _ _ hu => canon_postRej hu _ _ _) _ h) _)
      (canon_ite (canon_notice (canon_postFor (canon_setXfers (canon_foldl (fun _ _ hu => canon_postRej hu _ _ _) _ h) _) _ _) _ _ _ _)
      (canon_notice (canon_setXfers (canon_foldl (fun _ _ hu => canon_postRej hu _ _ _) _ h) _) _ _ _ _))))

theorem goesOn_execMulticastJoinArrival (h : memCanonical s) (id) : GoesOn (execMulticastJoinArrival id s) := by
  unfold execMulticastJoinArrival
  split
  · exact goesOn_next h
  · exact goesOn_ite (goesOn_next (canon_setPkg (canon_setJoins h _) _)) (goesOn_ite (goesOn_next (canon_setJoins h _)) (goesOn_next
      (canon_setPkg (canon_setJoins h _) _)))

theorem goesOn_execBlockBarrierSweep (h : memCanonical s) (cell) : GoesOn (execBlockBarrierSweep cell s) := by
  unfold execBlockBarrierSweep
  dsimp only
  split
  · exact goesOn_next h
  · split
    · exact goesOn_ite (goesOn_next (canon_bbReleaseCell h _)) (goesOn_next h)
    · exact goesOn_ite (goesOn_next h) (goesOn_ite (goesOn_next (canon_bbReleaseCell (canon_bbReleaseAll (canon_putCell h _ _) _) _))
        (goesOn_next (canon_putCell h _ _)))

theorem goesOn_execChaseStep (h : memCanonical s) (id) : GoesOn (execChaseStep id s) := by
  unfold execChaseStep
  split
  · exact goesOn_next h
  · refine goesOn_ite (goesOn_ite (goesOn_next (canon_finishWalk h _ _)) (goesOn_next h)) ?_
    refine goesOn_ite (goesOn_next h) ?_
    split
    · exact goesOn_next (canon_engWord h _ _ _)
    · exact goesOn_next (canon_engFetch h _ _)

theorem goesOn_execChaseStepLimit (h : memCanonical s) (id) : GoesOn (execChaseStepLimit id s) := by
  unfold execChaseStepLimit
  split
  · exact goesOn_next h
  · exact goesOn_ite (goesOn_next h) (goesOn_next (canon_endWalk h _ _ _))

theorem goesOn_execTokenRequestPaid (h : memCanonical s) (cell) : GoesOn (execTokenRequestPaid cell s) :=
  goesOn_next (canon_payRequests h _ _)

theorem goesOn_execRingStationStep (h : memCanonical s) (die station) : GoesOn (execRingStationStep die station s) :=
  goesOn_ite (goesOn_next h) (goesOn_next (canon_putDie (canon_putCell h _ _) _ _))

theorem goesOn_execStallDetect (h : memCanonical s) (pos) : GoesOn (execStallDetect pos s) :=
  goesOn_ite (goesOn_next h) (goesOn_next (canon_postSq (canon_modStr h _ _) _ _))

theorem goesOn_execBlockstallDetect (h : memCanonical s) (block) : GoesOn (execBlockstallDetect block s) :=
  goesOn_ite (goesOn_next h) (goesOn_next (canon_postLog (canon_putBlock h _ _) _))

theorem goesOn_execStarveDetect (h : memCanonical s) (cell) : GoesOn (execStarveDetect cell s) := by
  unfold execStarveDetect
  dsimp only
  split
  · exact goesOn_next h
  · exact goesOn_ite (goesOn_next (canon_ite (canon_postLog (canon_putCell h _ _) _) (canon_putCell h _ _))) (goesOn_ite (goesOn_next h)
      (goesOn_next (canon_postLog (canon_putCell h _ _) _)))

theorem goesOn_execBallastRevolution (h : memCanonical s) (die) : GoesOn (execBallastRevolution die s) :=
  goesOn_next (canon_ite (canon_postLog (canon_putDie h _ _) _) (canon_putDie h _ _))

theorem goesOn_execDispatchPlace (h : memCanonical s) : GoesOn (execDispatchPlace s) := by
  have ht := canon_claimLau (canon_claimRet h)
  have hr : ∀ {a b u}, (∀ v, a = some v → memCanonical v) → (∀ v, b = some v → memCanonical v) → a.orElse (fun _ => b) = some u →
      memCanonical u := fun {a} b u ha hb e => by
    cases a with
    | none => exact hb u e
    | some v => exact ha u e
  unfold execDispatchPlace
  dsimp only
  split
  · next u e =>
    refine goesOn_next (canon_setAgenda ?_ _)
    split at e
    · exact hr (fun _ => canon_tryLaunch ht) (fun _ => canon_tryReturn ht) e
    · exact hr (fun _ => canon_tryReturn ht) (fun _ => canon_tryLaunch ht) e
  · exact goesOn_next ht

theorem goesOn_execGridComplete (h : memCanonical s) (grid) : GoesOn (execGridComplete grid s) :=
  goesOn_ite (goesOn_next h) (goesOn_next (canon_addDone (canon_putGrid h _ _) _))

theorem goesOn_execKillComplete (h : memCanonical s) (id) : GoesOn (execKillComplete id s) := by
  unfold execKillComplete
  split
  · exact goesOn_next h
  · split
    · exact goesOn_next (canon_postLog (canon_setKills h _) _)
    · exact goesOn_ite (goesOn_next (canon_setAgenda (canon_modStr (canon_postLog (canon_setKills h _) _) _ _) _)) (goesOn_next
        (canon_postLog (canon_setKills h _) _))

theorem goesOn_execLaunch (h : memCanonical s) (win off size rec) : GoesOn (execLaunch win off size rec s) :=
  goesOn_ite (goesOn_next h) (goesOn_ite (goesOn_next (canon_launchRefused h _ _ _)) (goesOn_ite (goesOn_next (canon_launchRefused h _ _
    _)) (goesOn_ite (goesOn_next (canon_launchRefused h _ _ _)) (goesOn_ite (goesOn_next (canon_queueGrid h _)) (goesOn_next
    (canon_launchRefused h _ _ _))))))

theorem goesOn_execThermalWarn (h : memCanonical s) (sensor temp) : GoesOn (execThermalWarn sensor temp s) :=
  goesOn_next (canon_ite (canon_tripNow (canon_ite (canon_ite (canon_setPkg h _) (canon_postLog (canon_setPkg (canon_setPkg h _) _) _))
    (canon_ite (canon_setPkg (canon_setPkg h _) _) (canon_setPkg h _))) _) (canon_ite (canon_ite (canon_setPkg h _) (canon_postLog
    (canon_setPkg (canon_setPkg h _) _) _)) (canon_ite (canon_setPkg (canon_setPkg h _) _) (canon_setPkg h _))))

theorem goesOn_execThermalTrip (h : memCanonical s) (sensor) : GoesOn (execThermalTrip sensor s) :=
  goesOn_next (canon_tripNow h _)

theorem goesOn_execRailFault (h : memCanonical s) (die rail) : GoesOn (execRailFault die rail s) :=
  goesOn_next (canon_foldl (fun _ _ hu => canon_contextKill hu _ _) _ (canon_postLog (canon_putRail h _ _ _ _) _))

theorem goesOn_execRailReturnsToTolerance (h : memCanonical s) (die rail) : GoesOn (execRailReturnsToTolerance die rail s) :=
  goesOn_ite (goesOn_next (canon_postLog (canon_putRail h _ _ _ _) _)) (goesOn_next h)

theorem goesOn_execRailHoldEnd (h : memCanonical s) (die rail) : GoesOn (execRailHoldEnd die rail s) := by
  unfold execRailHoldEnd
  split
  · exact goesOn_ite (goesOn_next (canon_putRail h _ _ _ _)) (goesOn_next h)
  · exact goesOn_next h

theorem goesOn_execHbmSupplyFault (h : memCanonical s) (stack) : GoesOn (execHbmSupplyFault stack s) :=
  goesOn_ite (goesOn_next h) (goesOn_next (canon_setPkg h _))

theorem goesOn_execSecurityAlarm (h : memCanonical s) (level source) : GoesOn (execSecurityAlarm level source s) :=
  goesOn_next (canon_alarm h _ _)

theorem goesOn_execHopRetry (h : memCanonical s) (kind die hop dir ok) : GoesOn (execHopRetry kind die hop dir ok s) := by
  unfold execHopRetry
  refine goesOn_ite (goesOn_next h) ?_
  refine goesOn_ite (goesOn_next (canon_putTries h _ _ _ _ _)) ?_
  refine goesOn_ite (goesOn_next (canon_putTries h _ _ _ _ _)) ?_
  refine goesOn_next ?_
  refine canon_postLog ?_ _
  split
  · exact canon_putDie (canon_setPkg (canon_putTries h _ _ _ _ _) _) _ _
  · exact canon_setPkg (canon_putTries h _ _ _ _ _) _

theorem goesOn_execHostMemoryAccess (h : memCanonical s) (write addr len data poisoned) : GoesOn (execHostMemoryAccess write addr len data
    poisoned s) :=
  goesOn_ite (goesOn_next h) (goesOn_ite (goesOn_ite (goesOn_next (canon_hostErr h _ _ _)) (goesOn_next (canon_foldl (fun _ _ hu =>
    canon_hostPiece hu _ _ _) _ h))) (goesOn_next (canon_setPkg h _)))

theorem goesOn_execHostCxlCacheRequest (h : memCanonical s) (addr write data) : GoesOn (execHostCxlCacheRequest addr write data s) :=
  goesOn_ite (goesOn_next h) (goesOn_next (canon_changeBytes h _ _ _))

theorem goesOn_execPackageReset (h : memCanonical s) : GoesOn (execPackageReset s) :=
  goesOn_next (canon_resetAll h)

theorem goesOn_execRstctlGo (h : memCanonical s) (v) : GoesOn (execRstctlGo v s) :=
  goesOn_next (canon_putRstctl h _)

theorem goesOn_execBootStageComplete (h : memCanonical s) (code) : GoesOn (execBootStageComplete code s) :=
  goesOn_ite (goesOn_next h) (goesOn_ite (goesOn_next (canon_setPkg h _)) (goesOn_next (canon_setPkg h _)))

theorem goesOn_execRingcfgWrite (h : memCanonical s) (die v) : GoesOn (execRingcfgWrite die v s) :=
  goesOn_next (canon_ite (canon_putRingcfg h _ _) h)

theorem goesOn_execSlotmaskWrite (h : memCanonical s) (cell v) : GoesOn (execSlotmaskWrite cell v s) :=
  goesOn_next (canon_ite (canon_putSlotmask h _ _) h)

theorem goesOn_execCfenceWrite (h : memCanonical s) (cell v) : GoesOn (execCfenceWrite cell v s) :=
  goesOn_next (canon_ite (canon_putCfence h _ _) h)

theorem goesOn_execRailselWrite (h : memCanonical s) (cell v) : GoesOn (execRailselWrite cell v s) :=
  goesOn_next (canon_ite (canon_putRailsel h _ _) h)

theorem goesOn_execRailSwitchComplete (h : memCanonical s) (cell) : GoesOn (execRailSwitchComplete cell s) := by
  unfold execRailSwitchComplete
  dsimp only
  split
  · exact goesOn_next h
  · refine goesOn_ite (goesOn_next h) ?_
    split
    · exact goesOn_next (canon_killHeld (canon_putCell h _ _) _)
    · exact goesOn_next (canon_putCell h _ _)

theorem goesOn_execMigcmdGo (h : memCanonical s) (v) : GoesOn (execMigcmdGo v s) :=
  goesOn_next (canon_ite (canon_putMigcmd h _) h)

theorem goesOn_execAttctlGo (h : memCanonical s) (v) : GoesOn (execAttctlGo v s) :=
  goesOn_next (canon_ite (canon_putAttctl h _) h)

theorem goesOn_execAttestationReportDone (h : memCanonical s) : GoesOn (execAttestationReportDone s) := by
  unfold execAttestationReportDone
  refine goesOn_ite (goesOn_next h) ?_
  split
  · exact goesOn_next (canon_setPkg h _)
  · exact goesOn_ite (goesOn_next h) (goesOn_next (canon_setPkg (canon_writeDwords h _ _) _))

theorem goesOn_execFabcfgWrite (h : memCanonical s) (v) : GoesOn (execFabcfgWrite v s) :=
  goesOn_next (canon_ite (canon_putFabcfg h _) h)

theorem goesOn_execRegisterWrite (h : memCanonical s) (off v) : GoesOn (execRegisterWrite off v s) :=
  goesOn_ite (goesOn_next h) (goesOn_ite (goesOn_next (canon_ite (canon_putMailbox h _ _) h)) (goesOn_ite (goesOn_next (canon_putRegister h
    _ _)) (goesOn_next h)))

theorem goesOn_execFlitReceive (h : memCanonical s) (port flit op) : GoesOn (execFlitReceive port flit op s) := by
  unfold execFlitReceive
  refine goesOn_ite (goesOn_next h) ?_
  refine goesOn_ite (goesOn_next (canon_putPort h _ _)) ?_
  refine goesOn_ite (goesOn_next h) ?_
  refine goesOn_ite ?_ ?_
  · split
    · exact goesOn_next h
    · exact goesOn_next (canon_completeReq h _ _ _ _)
  · split
    · exact goesOn_next (canon_sendOn h _ _)
    · exact goesOn_ite (goesOn_next (canon_serveMemory h _ _ _)) (goesOn_ite (goesOn_next (canon_serveDelivery h _ _)) (goesOn_ite
        (goesOn_next (canon_serveMessage h _ _)) (goesOn_ite (goesOn_next (canon_replyWith h _ _ _ _ _)) (goesOn_ite (goesOn_next
        (canon_serveNotice h _ _)) (goesOn_next h)))))

theorem goesOn_execE2eRetry (h : memCanonical s) (tag) : GoesOn (execE2eRetry tag s) := by
  unfold execE2eRetry
  split
  · exact goesOn_next h
  · refine goesOn_ite (goesOn_next h) ?_
    split
    · dsimp only
      split
      · exact goesOn_next (canon_sendOn (canon_setPkg (canon_postLog (canon_setPkg h _) _) _) _ _)
      · exact goesOn_ite (goesOn_next (canon_setPkg (canon_postLog (canon_setPkg h _) _) _)) (goesOn_next (canon_failAll (canon_postLog
          (canon_setPkg h _) _) _))
    · dsimp only
      split
      · exact goesOn_next (canon_sendOn (canon_setPkg h _) _ _)
      · exact goesOn_ite (goesOn_next (canon_setPkg h _)) (goesOn_next (canon_failAll h _))

theorem goesOn_execLaneErase (h : memCanonical s) (port lane) : GoesOn (execLaneErase port lane s) :=
  goesOn_ite (goesOn_next h) (goesOn_ite (goesOn_next (canon_portTo (canon_putPort h _ _) _ _)) (goesOn_ite (goesOn_next (canon_portTo
    (canon_putPort h _ _) _ _)) (goesOn_ite (goesOn_next (canon_portTo (canon_putPort h _ _) _ _)) (goesOn_next (canon_putPort h _ _)))))

theorem goesOn_execPortTrainingDone (h : memCanonical s) (port) : GoesOn (execPortTrainingDone port s) :=
  goesOn_ite (goesOn_next h) (goesOn_next (canon_ite (canon_portTo (canon_putPort h _ _) _ _) (canon_foldl (fun _ _ hu => canon_sendOn hu _
    _) _ (canon_portTo (canon_putPort h _ _) _ _))))

theorem goesOn_execSwitchPlaneLoss (h : memCanonical s) (plane) : GoesOn (execSwitchPlaneLoss plane s) :=
  goesOn_ite (goesOn_next h) (goesOn_next (canon_portTo (canon_setPkg h _) _ _))

theorem goesOn_execHostLinkDown (h : memCanonical s) : GoesOn (execHostLinkDown s) :=
  goesOn_ite (goesOn_next h) (goesOn_next (canon_postLog (canon_setPkg h _) _))

theorem goesOn_execHostLinkUp (h : memCanonical s) : GoesOn (execHostLinkUp s) :=
  goesOn_ite (goesOn_next h) (goesOn_next (canon_postLog (canon_foldl (fun _ _ hu => canon_putLog hu _) _ (canon_setPkg h _)) _))

/-! ### Instructions and steps -/

theorem goesOn_run (h : memCanonical s) {f : Form} (hf : f.KeepsMemory) (gd) : GoesOn (run gd f s) :=
  goesOn_next (canon_runBundle h fun _ hx => List.mem_singleton.1 hx ▸ hf)

theorem goesOn_exec (h : memCanonical s) (i) : GoesOn (exec i s) := by
  have hk := keeps_formOf i
  cases i
  case syncOpComplete => exact goesOn_execSyncOpComplete h _
  case scoreboardResultLands => exact goesOn_execScoreboardResultLands h _
  case storePerformed => exact goesOn_execStorePerformed h _
  case pageWalkComplete => exact goesOn_execPageWalkComplete h _
  case bankingSwitchComplete => exact goesOn_execBankingSwitchComplete h _
  case spawnTimeoutRelease => exact goesOn_execSpawnTimeoutRelease h _ _
  case gatheredGangPlace => exact goesOn_execGatheredGangPlace h _
  case pathQuantumExpiry => exact goesOn_execPathQuantumExpiry h _
  case orphanFault => exact goesOn_execOrphanFault h _
  case sqnote => exact goesOn_execSqnote h _
  case monitorFire => exact goesOn_execMonitorFire h _
  case waitTimeout => exact goesOn_execWaitTimeout h _
  case recvtTimeout => exact goesOn_execRecvtTimeout h _
  case deliveryArrival => exact goesOn_execDeliveryArrival h _
  case transferSourceRead => exact goesOn_execTransferSourceRead h _
  case transferNotice => exact goesOn_execTransferNotice h _
  case chaseStep => exact goesOn_execChaseStep h _
  case chaseStepLimit => exact goesOn_execChaseStepLimit h _
  case multicastJoinArrival => exact goesOn_execMulticastJoinArrival h _
  case blockBarrierSweep => exact goesOn_execBlockBarrierSweep h _
  case messageArrival => exact goesOn_execMessageArrival h _
  case messageResend => exact goesOn_execMessageResend h _
  case matrixOpComplete => exact goesOn_execMatrixOpComplete h _
  case matrixOpStart => exact goesOn_execMatrixOpStart h _
  case tokenRequestPaid => exact goesOn_execTokenRequestPaid h _
  case ringStationStep => exact goesOn_execRingStationStep h _ _
  case ballastRevolution => exact goesOn_execBallastRevolution h _
  case dispatchPlace => exact goesOn_execDispatchPlace h
  case quantumExpiry => exact goesOn_execQuantumExpiry h _
  case strandSave => exact goesOn_execStrandSave h _
  case evictionComplete => exact goesOn_execEvictionComplete h _
  case gridComplete => exact goesOn_execGridComplete h _
  case killComplete => exact goesOn_execKillComplete h _
  case stallDetect => exact goesOn_execStallDetect h _
  case blockstallDetect => exact goesOn_execBlockstallDetect h _
  case starveDetect => exact goesOn_execStarveDetect h _
  case launch => exact goesOn_execLaunch h _ _ _ _
  case hostMemoryAccess => exact goesOn_execHostMemoryAccess h _ _ _ _ _
  case packageReset => exact goesOn_execPackageReset h
  case rstctlGo => exact goesOn_execRstctlGo h _
  case bootStageComplete => exact goesOn_execBootStageComplete h _
  case attctlGo => exact goesOn_execAttctlGo h _
  case attestationReportDone => exact goesOn_execAttestationReportDone h
  case migcmdGo => exact goesOn_execMigcmdGo h _
  case migrationComplete => exact goesOn_execMigrationComplete h
  case railselWrite => exact goesOn_execRailselWrite h _ _
  case railSwitchComplete => exact goesOn_execRailSwitchComplete h _
  case slotmaskWrite => exact goesOn_execSlotmaskWrite h _ _
  case cfenceWrite => exact goesOn_execCfenceWrite h _ _
  case ringcfgWrite => exact goesOn_execRingcfgWrite h _ _
  case fabcfgWrite => exact goesOn_execFabcfgWrite h _
  case registerWrite => exact goesOn_execRegisterWrite h _ _
  case flitReceive => exact goesOn_execFlitReceive h _ _ _
  case e2eRetry => exact goesOn_execE2eRetry h _
  case laneErase => exact goesOn_execLaneErase h _ _
  case portTrainingDone => exact goesOn_execPortTrainingDone h _
  case hopRetry => exact goesOn_execHopRetry h _ _ _ _ _
  case hostLinkDown => exact goesOn_execHostLinkDown h
  case hostLinkUp => exact goesOn_execHostLinkUp h
  case thermalWarn => exact goesOn_execThermalWarn h _ _
  case thermalTrip => exact goesOn_execThermalTrip h _
  case railFault => exact goesOn_execRailFault h _ _
  case railHoldEnd => exact goesOn_execRailHoldEnd h _ _
  case hbmSupplyFault => exact goesOn_execHbmSupplyFault h _
  case securityAlarm => exact goesOn_execSecurityAlarm h _ _
  case haltSnapshotComplete => exact goesOn_execHaltSnapshotComplete h _
  case hostCxlCacheRequest => exact goesOn_execHostCxlCacheRequest h _ _ _
  case switchPlaneLoss => exact goesOn_execSwitchPlaneLoss h _
  case railReturnsToTolerance => exact goesOn_execRailReturnsToTolerance h _ _
  all_goals exact goesOn_run h (hk _ rfl) _

/-- The words of a pair as the issue logic sees them. -/
theorem issuedOf_keeps {i w a x} (hx : x ∈ (issuedOf i w a).toList) : x.form.KeepsMemory := by
  unfold issuedOf at hx
  split at hx
  · next f g hf _ =>
    rw [Option.toList_some, List.mem_singleton] at hx
    exact hx ▸ keeps_formOf _ _ hf
  · cases hx

theorem goesOn_issueBundle (h : memCanonical s) : GoesOn (issueBundle exec s) := by
  have hnote := fun p => goesOn_next (canon_raiseNote h p)
  unfold issueBundle
  split
  · exact goesOn_next (canon_parkPath h _ _ _ _)
  · exact goesOn_ite (hnote _) (goesOn_next (canon_faultAll h _))
  · split
    · exact goesOn_ite (hnote _) (goesOn_next (canon_faultAll h _))
    · exact goesOn_ite (hnote _) (goesOn_exec (canon_setCur h _) _)
    · refine goesOn_ite (hnote _) (goesOn_next (canon_runBundle (canon_setCur h _) fun x hx => ?_))
      rcases List.mem_append.1 hx with hx | hx <;> exact issuedOf_keeps hx

theorem goesOn_issueUnit (h : memCanonical s) (p ls) : GoesOn (issueUnit exec s p ls) := by
  have h2 := canon_setCur (canon_divideMoved h p ls)
  unfold issueUnit
  dsimp only
  split
  · next e => exact goesOn_next (canon_takeMark (h2 _) e)
  · exact goesOn_issueBundle (h2 _)

theorem goesOn_issueLate (h : memCanonical s) (p) : GoesOn (issueLate exec s p) := by
  unfold issueLate
  refine goesOn_ite (goesOn_next h) ?_
  obtain ⟨t, ht, hc⟩ := goesOn_issueUnit (canon_putGang (canon_modStrs h ((unit s p).filter fun q =>
    decide ((s.str q).st = .frozen ∧ (s.str q).heldSt = .ready)) (fun t => { t with st := .ready })) (leaderOf s p)
    { s.gang (leaderOf s p) with handler := none, trapMask := 0#16, late := true }) p _
  dsimp only
  rw [ht]
  exact goesOn_ite (goesOn_next h) (goesOn_next (canon_modStrs (canon_putGang hc _ _) _ _))

theorem goesOn_issue (h : memCanonical s) (p rest) : GoesOn (issue exec s p rest) := by
  have h0 := canon_setQueue h rest
  unfold issue
  dsimp only
  split
  · exact goesOn_issueUnit h0 _ _
  · exact goesOn_ite (goesOn_issueLate h0 _) (goesOn_next h0)

/-- Settles O60. -/
theorem stepKeepsMemoryCanonical : Obligations.StepKeepsMemoryCanonical := by
  intro s h
  match ha : s.agenda with
  | e :: r =>
    rw [step_event ha]
    exact goesOn_ite (goesOn_exec (canon_setAgenda h _) _) (goesOn_next (canon_setAgenda h _))
  | [] =>
    match hf : s.filled, hq : s.queue with
    | false, _ =>
      rw [step_fill ha hf]
      exact goesOn_next (canon_fillQueue h _)
    | true, [] =>
      rw [step_tick ha hf hq]
      exact goesOn_next (canon_tick h)
    | true, q :: rest =>
      rw [step_issue ha hf hq]
      exact goesOn_issue h _ _

end Sys2Proof.Machine
end
